-- ==== Sys2Proof/Word.lean ====
section
/-! DEFINITION. The word types of the machine and their plainest arithmetic. -/

namespace Sys2Proof

/-- One byte, the smallest addressable unit of memory (R2). -/
abbrev Byte := BitVec 8

/-- One 32-bit register (R83). -/
abbrev Word := BitVec 32

/-- One 64-bit register pair (R84). -/
abbrev DWord := BitVec 64

/-- An origin label: bit n stands for origin slot n (R271). -/
abbrev Label := BitVec 16

/-- A program counter: instruction addresses lie below 2^48 (R81, R135). -/
abbrev Pc := BitVec 48

/-- The 96-bit instruction word (R77). -/
abbrev IWord := BitVec 96

/-- The length of an instruction in bytes (R77). -/
abbrev instrBytes : Nat := 12

/-- The first address past the virtual address space. -/
abbrev vaTop : Nat := 2 ^ 48

/-- The union of two labels (R273). -/
abbrev Label.union (a b : Label) : Label := a ||| b

/-- Every origin of the first label is in the second (R279). -/
def Label.subset (a b : Label) : Bool := a &&& b == a

/-- The low word of a pair (R84). -/
abbrev DWord.lo (d : DWord) : Word := d.setWidth 32

/-- The high word of a pair (R84). -/
abbrev DWord.hi (d : DWord) : Word := (d >>> 32).setWidth 32

/-- A pair from its high and its low word (R84). -/
abbrev Word.pair (hi lo : Word) : DWord := (hi ++ lo : BitVec 64)

end Sys2Proof
end

