-- ==== Sys2Proof/Syntax.lean ====
section
/-! DEFINITION. The syntax: operands, the fields of an instruction word, what arrives from outside, and Instr with one
constructor per row of the opcode table. -/

namespace Sys2Proof

/-- Type suffixes, the codes of bits [38:35] (R94). -/
inductive Ty where
  | none | s8 | n8 | s32 | n32 | s64 | n64 | b32 | f32 | f16 | bf16 | f8e4 | f8e5 | c4 | bad14 | bad15
  deriving DecidableEq, Repr

/-- The type suffix of a code (table Type Codes). -/
def Ty.ofCode (c : Nat) : Ty :=
  match c with
  | 0 => .none | 1 => .s8 | 2 => .n8 | 3 => .s32 | 4 => .n32 | 5 => .s64 | 6 => .n64 | 7 => .b32
  | 8 => .f32 | 9 => .f16 | 10 => .bf16 | 11 => .f8e4 | 12 => .f8e5 | 13 => .c4 | 14 => .bad14 | _ => .bad15

/-- The code of a type suffix (table Type Codes). -/
def Ty.code : Ty → Nat
  | .none => 0 | .s8 => 1 | .n8 => 2 | .s32 => 3 | .n32 => 4 | .s64 => 5 | .n64 => 6 | .b32 => 7
  | .f32 => 8 | .f16 => 9 | .bf16 => 10 | .f8e4 => 11 | .f8e5 => 12 | .c4 => 13 | .bad14 => 14 | .bad15 => 15

/-- The types that use register pairs (R133). -/
def Ty.is64 : Ty → Bool
  | .s64 | .n64 => true
  | _ => false

/-- The types read as two's complement (R133). -/
def Ty.signed : Ty → Bool
  | .s8 | .s32 | .s64 => true
  | _ => false

/-- An operand field: its class and its index (table Operand Classes, R82). -/
inductive Opnd where
  /-- class 00: v0 to v254; 255 is vz. -/
  | v (n : BitVec 8)
  /-- class 01: s0 to s126; 127 is sz; 128 to 255 unassigned. -/
  | s (n : BitVec 8)
  /-- class 10: buffer records 0 to 31, predicates 64 to 71, special registers 128 to 255. -/
  | k (n : BitVec 8)
  /-- class 11: short immediate. -/
  | imm (n : BitVec 8)
  deriving DecidableEq, Repr

/-- What a class-10 index names (R82, R87). -/
inductive Kind10 where
  | record | pred | special | unassigned
  deriving DecidableEq, Repr

/-- The special registers that the table Special Registers lists (R87). -/
def specialListed (n : Nat) : Bool :=
  (128 ≤ n && n ≤ 137) || (144 ≤ n && n ≤ 147) || (152 ≤ n && n ≤ 154) || n == 160 || n == 161 ||
    (224 ≤ n && n ≤ 227)

/-- The kind of a class-10 index (table Operand Classes). -/
def kind10 (n : Nat) : Kind10 :=
  if n < 32 then .record
  else if 64 ≤ n && n ≤ 71 then .pred
  else if specialListed n then .special
  else .unassigned

/-- The fields of an instruction word that are not its opcode, its reserved bits and its check (table Instruction Word). -/
structure Fields where
  /-- [85] inverts the guard. -/
  neg : Bool
  /-- [84:82] guard predicate, 7 is pt. -/
  gp : BitVec 3
  /-- [81:72] destination. -/
  d : Opnd
  /-- [71:62] source A. -/
  a : Opnd
  /-- [61:52] source B. -/
  b : Opnd
  /-- [51:42] source C. -/
  c : Opnd
  /-- [41] empty action of A: true traps. -/
  ea : Bool
  /-- [40] empty action of B. -/
  eb : Bool
  /-- [39] empty action of C. -/
  ec : Bool
  /-- [38:19] modifier or immediate. -/
  mod : BitVec 20
  /-- [18:15] stall count. -/
  stall : BitVec 4
  /-- [14] yield. -/
  yld : Bool
  /-- [13:11] operand reuse. -/
  reuse : BitVec 3
  deriving DecidableEq, Repr

namespace Fields

/-- The type suffix, bits [38:35] (R94). -/
def ty (f : Fields) : Ty := Ty.ofCode (f.mod.toNat / 2 ^ 16)

/-- The rounding or cache-hint code, bits [34:32] (R95, R96). -/
def code (f : Fields) : Nat := f.mod.toNat / 2 ^ 13 % 8

/-- Word bits [31:19]. -/
def low (f : Fields) : Nat := f.mod.toNat % 2 ^ 13

/-- Word bits [19+hi : 19+lo], as the entries number their modifier bits from 19. -/
def bits (f : Fields) (lo len : Nat) : Nat := f.mod.toNat / 2 ^ lo % 2 ^ len

/-- One modifier bit, counted from word bit 19. -/
def bit (f : Fields) (i : Nat) : Bool := f.mod.toNat / 2 ^ i % 2 == 1

/-- imm12 sign-extended: word bits [30:19] (R93). -/
def imm12 (f : Fields) : Int := (f.mod.setWidth 12).toInt

/-- imm20 as a signed count (R93). -/
def imm20 (f : Fields) : Int := f.mod.toInt

/-- imm16: word bits [34:19] (R93). -/
def imm16 (f : Fields) : BitVec 16 := f.mod.setWidth 16

/-- The guard field as the word holds it. -/
def guard4 (f : Fields) : Nat := (if f.neg then 8 else 0) + f.gp.toNat

end Fields

/-- A message as it arrives at an endpoint (R37): the endpoint's number (64 is the management endpoint), the sender's fabric
address, and the message's bytes. -/
structure Message where
  ep : Nat
  sender : BitVec 128
  data : List Byte
  deriving DecidableEq, Repr

/-- What the spec leaves to the moment of an access: whether the TLB still holds the entry (R240) and whether the L1 still
holds the line (R245, R246). -/
structure Pick where
  tlb : Bool
  l1 : Bool
  /-- the L2 TLB of the slice still holds the translation (R240). -/
  l2tlb : Bool := false
  /-- of an element that straddles a sector the upper piece goes first (R236). -/
  upper : Bool := false
  deriving DecidableEq, Repr

/-- A firmware write to a register with no row of its own, or what the power controller measures (R70, R189, R432, R439). -/
inductive RegWrite where
  /-- event threshold table entry `code` of partition `p` (R189). -/
  | threshold (p code : Nat) (value : Word)
  /-- refill and lend-enable of an account (R69, R70). -/
  | account (p account refill : Nat) (lend : Bool)
  /-- the 4 GiB window that a partition exposes to the load-store domain: its virtual base (R432). -/
  | window (p base : Nat)
  /-- the power controller's measure of a chiplet's current, and the chiplet's allocation (R439). -/
  | power (slice current allocation : Nat)
  deriving DecidableEq, Repr

/-- What another device asks for (R432 to R434). -/
inductive RemoteOp where
  | load (bytes : Nat)
  | store (data : List Byte)
  /-- an atomic or RED: operation 0 to 8 of the table Atomic Operations, its type, source, compare value and rounding mode, and whether
  the old bytes are answered (an ATOM) or not (a RED). -/
  | atomic (op : Nat) (ty : Ty) (c d : DWord) (mode : Nat) (answers : Bool)
  deriving DecidableEq, Repr

/-- An incoming remote access (R280, R432): the partition, the sender, the offset in the exposed window, and what it asks. -/
structure RemoteAccess where
  part : Nat
  sender : BitVec 128
  offset : Nat
  op : RemoteOp
  deriving DecidableEq, Repr

/-- What a quiescence takes: one unit, or every unit of a job (R411). -/
inductive Quiesce where
  | unit (u : Nat)
  | job (ep job : Nat)
  deriving DecidableEq, Repr

/-- One constructor per row of spec/opcode_table.json: the host's and the firmware's commands, the hardware's events, and the
187 program instructions of the table Opcode Map (R99). -/
inductive Instr where
  /-- QUERY_STATE (R449): Unsequenced command that returns the endpoint's last accepted and last completed host sequence numbers and its next device sequence number. -/
  | queryState (m : Message)
  /-- REPLAY (R43): Unsequenced command that resends the stored device messages from a given device sequence number, or completes with REPLAY_LOST. -/
  | replay (m : Message)
  /-- LOAD_OBJECT (R30): Loads a staged Darermam object: checks it, chooses a base, relocates it, maps it, and returns a handle or a refusal. -/
  | loadObject (m : Message)
  /-- UNLOAD_OBJECT (R32): Unmaps an object and releases its frames, or refuses with OBJECT_BUSY or NO_OBJECT. -/
  | unloadObject (m : Message)
  /-- JOB_OPEN (R448): Opens a job with the header's job identifier, up to 8 per endpoint, and opens phase 0. -/
  | jobOpen (m : Message)
  /-- JOB_CLOSE (R50): Closes a job to new entries, so that it completes when its counter reaches zero. -/
  | jobClose (m : Message)
  /-- PHASE_NEXT (R51): Closes the job's open phase and opens the next one. -/
  | phaseNext (m : Message)
  /-- SAVE_AREA (R41): Registers or withdraws a job's context save area. -/
  | saveArea (m : Message)
  /-- RESUME_JOB (R414): Restores a saved job by dispatching its saved units and replaying its restart and journal entries. -/
  | resumeJob (m : Message)
  /-- SUBMIT (R45): Appends 1 to 1,023 checked queue entries to one queue of a job, or appends none. -/
  | submit (m : Message)
  /-- CANCEL (R53): Host command that cancels a launch, graph, phase or job of a job. -/
  | cancelCmd (m : Message)
  /-- QUEUE_CONFIG (R45): Creates or resizes a hardware queue and makes the sending endpoint its owner. -/
  | queueConfig (m : Message)
  /-- MEM_WRITE (R243): Writes host data to partition memory at a virtual or physical address after the permission and label checks. -/
  | memWrite (m : Message)
  /-- MEM_READ (R243): Reads partition memory for the host, decided by Teasel before any byte is sent. -/
  | memRead (m : Message)
  /-- STATUS_WINDOW_READ (R44): MEM_READ with bit 62 set, which returns the status record of a launch, graph, phase or job. -/
  | statusWindowRead (m : Message)
  /-- ENDPOINT_ENABLE (R57): Management command that writes the 64 endpoint enable bits. -/
  | endpointEnable (m : Message)
  /-- SHORT_MESSAGE (R449): A message shorter than its header or of the wrong length is answered by a BAD_HEADER notice and discarded. -/
  | shortMessage (m : Message)
  /-- BIND (R284): Signed Teasel record that binds an origin slot to a tenant's public key. -/
  | bindSlot (m : Message)
  /-- PEER (R284): Signed Teasel record that adds an origin to a peer entry's fabric address. -/
  | peer (m : Message)
  /-- POLICY (R284): Signed Teasel record that installs a multi-origin release policy with its cap. -/
  | policy (m : Message)
  /-- REVOKE (R284): Signed Teasel record that removes a policy, or removes a slot from a peer entry. -/
  | revoke (m : Message)
  /-- TEASEL_TABLE_READ (R284): Management MEM_READ that returns Teasel's slot, peer, policy or log table. -/
  | teaselTableRead (m : Message)
  /-- REPLACEMENT_IMAGE (R442): Management MEM_WRITE at kind 0x21 that transfers a replacement image, which is verified and flashed at a zero-length write. -/
  | replacementImage (m : Message)
  /-- CONFIGURATION_RECORD (R444): Management MEM_WRITE at kind 0x23 that delivers the signed configuration record giving fabric addresses and the domain number. -/
  | configurationRecord (m : Message)
  /-- NONCE (R445): Management MEM_WRITE at kind 0x22 that sets the attestation nonce. -/
  | nonce (m : Message)
  /-- ATTESTATION_REPORT (R445): Management MEM_READ at kind 0x22 that returns a signed measurement report. -/
  | attestationReport (m : Message)
  /-- BOOT_STATUS (R446): Management MEM_READ at kind 0x20 that returns the boot status block. -/
  | bootStatus (m : Message)
  /-- RING_TAIL_CHECK (R242): The firmware reads the request ring's tail, and either takes records or writes the ring error for an overrun. -/
  | ringTailCheck (p : Nat)
  /-- MAP (R243): Request record that writes present leaves, relabelling and zeroing frames where needed. -/
  | mapPages (p : Nat)
  /-- UNMAP (R243): Request record that writes not-present entries with the host-resident bit clear. -/
  | unmapPages (p : Nat)
  /-- PROTECT (R243): Request record that replaces the permissions of present leaves. -/
  | protect (p : Nat)
  /-- EVICT (R250): Request record that makes pages host-resident, or is held with status 3 while device accesses are in flight. -/
  | evict (p : Nat)
  /-- LAUNCH_ENTRY_START (R47): A launch entry at its queue head is checked, its argument area is built, and its units become ready for dispatch. -/
  | launchEntryStart (p q : Nat)
  /-- GRAPH_ENTRY_ARM (R55): The named control core checks a graph image and arms it, starting the nodes that have no predecessors. -/
  | graphEntryArm (p q : Nat)
  /-- COPY_ENTRY (R72): A copy entry at its queue head is given to a copy engine of the partition. -/
  | copyEntry (p q : Nat)
  /-- BIND_RECORD_WRITE (R65): Speedwell writes a 64-bit bind record of the slot table, which takes effect at the next dispatch decision. -/
  | bindRecordWrite (slice index : Nat) (value : BitVec 64)
  /-- LEASE_LENGTH_WRITE (R355): Speedwell writes the slice's lease length, which applies to leases granted afterwards. -/
  | leaseLengthWrite (slice : Nat) (value : Word)
  /-- VOTE_WRITE (R436): Speedwell writes its chiplet's supply vote, which changes the rail's target. -/
  | voteWrite (slice : Nat) (value : Word)
  /-- DOMAIN_GATE (R436): Speedwell gates its chiplet domain after the fade has ended, withdrawing its vote. -/
  | domainGate (slice : Nat)
  /-- DOMAIN_UNGATE (R436): Speedwell ungates its chiplet domain while the ready bit is 1, which restarts the clk count. -/
  | domainUngate (slice : Nat)
  /-- REGISTER_WRITE (R189): A firmware write to a register with no row of its own, such as the event threshold table or the budget accounts. -/
  | registerWrite (w : RegWrite)
  /-- THREAD_UNBLOCK (R115): The condition that blocks a thread clears, and the thread becomes ready in the next clk. -/
  | threadUnblock (t : Nat)
  /-- LOAD_WRITEBACK (R123): A long-latency producer writes back its value and label and marks its destination full. -/
  | loadWriteback (id : Nat) (pick : Pick)
  /-- WRITE_PERFORM (R357): A write is performed or refused at the owning L2, and returns its global write completion time or a record. -/
  | writePerform (id : Nat) (pick : Pick)
  /-- ATOMIC_PERFORM (R308): A memory atomic is performed at the owning L2 as one read-modify-write event. -/
  | atomicPerform (id : Nat) (pick : Pick)
  /-- EXACT_PATH_WRITEBACK (R210): An exact-path special function writes back its correctly rounded result. -/
  | exactPathWriteback (id : Nat)
  /-- REMOTE_ACCESS_IN (R280): An incoming remote store, atomic or load from another device is checked against the ingress label and served. -/
  | remoteAccessIn (r : RemoteAccess)
  /-- COPY_CHUNK (R319): A copy engine performs one 4 KiB chunk, after its checks, and advances its journal entry. -/
  | copyChunk (c slice : Nat) (pick : Pick)
  /-- MMA_CHUNK_GRANT (R324): The matrix engine's arbiter grants the next chunk of the highest-class ready entry. -/
  | mmaChunkGrant (cluster : Nat)
  /-- GTHRS_LINE_FILL (R317): A gathered row's bytes arrive in scratchpad lines, which go full. -/
  | gthrsLineFill (id : Nat) (pick : Pick)
  /-- REMAP_TABLE_WRITE (R332): REMAP.TAB replaces the remap table as one event once all 4,096 entries have been read. -/
  | remapTableWrite (id : Nat) (pick : Pick)
  /-- CODEBOOK_SLOT_WRITE (R340): CBLOAD's 32 bytes arrive and the slot's entries and label are written as one event. -/
  | codebookSlotWrite (id : Nat) (pick : Pick)
  /-- VARIANT_TABLE_READ (R225): The table read of a CALLV completes, and the entry is selected and the frame pushed. -/
  | variantTableRead (id : Nat) (pick : Pick)
  /-- QUIESCENCE (R411): One unit or one job is stopped, drained and saved, or kept as a restart entry. -/
  | quiescence (target : Quiesce)
  /-- PASS_COUNT_RAISE (R439): The power controller raises a chiplet's pass count after 1 µs of current above its allocation. -/
  | passCountRaise (cluster : Nat)
  /-- PASS_COUNT_LOWER (R439): The power controller lowers a pass count one step after 100 µs below the allocation. -/
  | passCountLower (cluster : Nat)
  /-- RECONFIGURE (R63): Management command that checks a whole list of reconfiguration entries and refuses it with BAD_ENTRY, or applies them in order while commands at the named partitions wait unacknowledged. -/
  | reconfigure (m : Message)
  /-- BRA (R135): Relative branch. -/
  | bra (f : Fields)
  /-- BRX (R135): Branch to a register target. -/
  | brx (f : Fields)
  /-- CALL (R135): Relative call that writes a link pair. -/
  | call (f : Fields)
  /-- CALLX (R135): Call to a register target. -/
  | callx (f : Fields)
  /-- RET (R135): Return through a register pair. -/
  | ret (f : Fields)
  /-- EXIT (R136): Waits for the thread's stores and ends the thread. -/
  | exitI (f : Fields)
  /-- YIELD (R137): Yields the issue ports. -/
  | yieldI (f : Fields)
  /-- NOP (R137): No effect. -/
  | nop (f : Fields)
  /-- SETPRI (R138): Sets the thread's own priority class. -/
  | setpri (f : Fields)
  /-- BPT (R139): Raises the breakpoint trap. -/
  | bpt (f : Fields)
  /-- TRAP (R139): Raises the software trap. -/
  | trapI (f : Fields)
  /-- IADD (R142): Integer add. -/
  | iadd (f : Fields)
  /-- ISUB (R142): Integer subtract. -/
  | isub (f : Fields)
  /-- IADDC (R143): Add with carry through predicates. -/
  | iaddc (f : Fields)
  /-- ISUBC (R143): Subtract with borrow through predicates. -/
  | isubc (f : Fields)
  /-- IMUL (R142): Integer multiply, low half. -/
  | imul (f : Fields)
  /-- IMULH (R142): Integer multiply, high half. -/
  | imulh (f : Fields)
  /-- IMAD (R142): Integer multiply-add. -/
  | imad (f : Fields)
  /-- IMIN (R142): Integer minimum. -/
  | imin (f : Fields)
  /-- IMAX (R142): Integer maximum. -/
  | imax (f : Fields)
  /-- IABS (R142): Integer absolute value. -/
  | iabs (f : Fields)
  /-- AND (R144): Bitwise AND. -/
  | band (f : Fields)
  /-- OR (R144): Bitwise OR. -/
  | bor (f : Fields)
  /-- XOR (R144): Bitwise XOR. -/
  | bxor (f : Fields)
  /-- NOT (R144): Bitwise NOT. -/
  | bnot (f : Fields)
  /-- LOGT (R144): Three-input logic by truth table. -/
  | logt (f : Fields)
  /-- SHL (R145): Shift left. -/
  | shl (f : Fields)
  /-- SHR (R145): Logical shift right. -/
  | shr (f : Fields)
  /-- SAR (R145): Arithmetic shift right. -/
  | sar (f : Fields)
  /-- DSH (R145): Funnel shift or rotate of a pair. -/
  | dsh (f : Fields)
  /-- BFE (R146): Bit-field extract. -/
  | bfe (f : Fields)
  /-- BFI (R146): Bit-field insert. -/
  | bfi (f : Fields)
  /-- MASK (R146): Builds a bit mask. -/
  | maskB (f : Fields)
  /-- POPC (R147): Population count. -/
  | popc (f : Fields)
  /-- CLZ (R147): Count of leading zeros. -/
  | clz (f : Fields)
  /-- BREV (R147): Bit reverse. -/
  | brev (f : Fields)
  /-- BSWZ (R148): Byte swizzle. -/
  | bswz (f : Fields)
  /-- BDOT (R149): Byte dot product with accumulate. -/
  | bdot (f : Fields)
  /-- BSAD (R149): Byte sum of absolute differences. -/
  | bsad (f : Fields)
  /-- ISETP (R150): Integer compare to a predicate. -/
  | isetp (f : Fields)
  /-- SEL (R151): Select by predicate. -/
  | sel (f : Fields)
  /-- LEA (R151): Shifted add for address arithmetic. -/
  | lea (f : Fields)
  /-- MOV (R154): Register move. -/
  | mov (f : Fields)
  /-- MOVH (R155): Writes a 20-bit immediate into bits [31:12]. -/
  | movh (f : Fields)
  /-- ADDI (R155): Adds a sign-extended 12-bit immediate. -/
  | addi (f : Fields)
  /-- MOVX (R155): Writes a 16-bit immediate into bits [47:32] of a pair. -/
  | movx (f : Fields)
  /-- PAND (R156): Predicate AND. -/
  | pand (f : Fields)
  /-- POR (R156): Predicate OR. -/
  | por (f : Fields)
  /-- PXOR (R156): Predicate XOR. -/
  | pxor (f : Fields)
  /-- PNOT (R156): Predicate NOT. -/
  | pnot (f : Fields)
  /-- P2V (R156): Copies p0 to p6 into a register. -/
  | p2v (f : Fields)
  /-- V2P (R156): Sets predicates from register bits under a mask. -/
  | v2p (f : Fields)
  /-- RDLANE (R157): Reads a register of another lane. -/
  | rdlane (f : Fields)
  /-- SRD (R158): Reads a special register. -/
  | srd (f : Fields)
  /-- SWR (R158): Writes a special register. -/
  | swr (f : Fields)
  /-- SETMODE (R159): Writes the mode register under a mask. -/
  | setmode (f : Fields)
  /-- PART (R160): Writes the gang's partition register. -/
  | partW (f : Fields)
  /-- SHFL_IDX (R164): Shuffle from an absolute lane of the tile. -/
  | shflIdx (f : Fields)
  /-- SHFL_ROT (R164): Shuffle by a signed rotation. -/
  | shflRot (f : Fields)
  /-- SHFL_XOR (R164): Butterfly shuffle by XOR. -/
  | shflXor (f : Fields)
  /-- SHFL_REV (R164): Shuffle of the reflected tile. -/
  | shflRev (f : Fields)
  /-- VOTE_ALL (R165): Vote, true when all present members are true. -/
  | voteAll (f : Fields)
  /-- VOTE_ANY (R165): Vote, true when any present member is true. -/
  | voteAny (f : Fields)
  /-- VOTE_BALLOT (R165): Ballot mask of the members' predicates. -/
  | voteBallot (f : Fields)
  /-- REDG_ADD (R166): Gang sum reduction. -/
  | redgAdd (f : Fields)
  /-- REDG_MIN (R166): Gang minimum reduction. -/
  | redgMin (f : Fields)
  /-- REDG_MAX (R166): Gang maximum reduction. -/
  | redgMax (f : Fields)
  /-- SCANG (R167): Segmented inclusive gang scan. -/
  | scang (f : Fields)
  /-- MATCH (R168): Mask of the members holding an equal value. -/
  | matchG (f : Fields)
  /-- ELECT (R168): Elects the lowest present member. -/
  | elect (f : Fields)
  /-- FADD (R194): Floating-point add. -/
  | fadd (f : Fields)
  /-- FSUB (R194): Floating-point subtract. -/
  | fsub (f : Fields)
  /-- FMUL (R194): Floating-point multiply. -/
  | fmul (f : Fields)
  /-- FFMA (R194): Fused multiply-add. -/
  | ffma (f : Fields)
  /-- FMIN (R196): Floating-point minimum. -/
  | fmin (f : Fields)
  /-- FMAX (R196): Floating-point maximum. -/
  | fmax (f : Fields)
  /-- FNEG (R196): Inverts the sign bit. -/
  | fneg (f : Fields)
  /-- FABS (R196): Clears the sign bit. -/
  | fabs (f : Fields)
  /-- FSCALE (R194): Multiplies by a power of two. -/
  | fscale (f : Fields)
  /-- FSETP (R197): Floating-point compare to a predicate. -/
  | fsetp (f : Fields)
  /-- FCLASS (R198): One-hot class mask of a value. -/
  | fclass (f : Fields)
  /-- FRND (R194): Rounds to an integer value. -/
  | frnd (f : Fields)
  /-- HFMA2 (R201): Packed-pair fused multiply-add. -/
  | hfma2 (f : Fields)
  /-- HADD2 (R201): Packed-pair add. -/
  | hadd2 (f : Fields)
  /-- HSUB2 (R201): Packed-pair subtract. -/
  | hsub2 (f : Fields)
  /-- HMUL2 (R201): Packed-pair multiply. -/
  | hmul2 (f : Fields)
  /-- HMIN2 (R201): Packed-pair minimum. -/
  | hmin2 (f : Fields)
  /-- HMAX2 (R201): Packed-pair maximum. -/
  | hmax2 (f : Fields)
  /-- HNEG2 (R201): Packed-pair negate. -/
  | hneg2 (f : Fields)
  /-- HABS2 (R201): Packed-pair absolute value. -/
  | habs2 (f : Fields)
  /-- HSETP2 (R202): Packed-pair compare to two predicates. -/
  | hsetp2 (f : Fields)
  /-- CVT (R205): Converts between numeric formats. -/
  | cvt (f : Fields)
  /-- PACK2 (R207): Packs two F32 values into a 16-bit pair. -/
  | pack2 (f : Fields)
  /-- RCP (R208): Reciprocal. -/
  | rcp (f : Fields)
  /-- RSQ (R208): Reciprocal square root. -/
  | rsq (f : Fields)
  /-- SQRT (R208): Square root. -/
  | sqrt (f : Fields)
  /-- EXP2 (R208): Base-2 exponential. -/
  | exp2 (f : Fields)
  /-- LOG2 (R208): Base-2 logarithm. -/
  | log2 (f : Fields)
  /-- SIN (R208): Sine. -/
  | sin (f : Fields)
  /-- COS (R208): Cosine. -/
  | cos (f : Fields)
  /-- TANH (R208): Hyperbolic tangent. -/
  | tanh (f : Fields)
  /-- CALLV (R225): Variant call that reads a variant table and selects an entry within the thread's budgets. -/
  | callv (f : Fields)
  /-- RETV (R226): Variant return that charges the caller and writes back the tags. -/
  | retv (f : Fields)
  /-- BSET (R227): Sets a budget register. -/
  | bset (f : Fields)
  /-- BGET (R227): Reads a budget register. -/
  | bget (f : Fields)
  /-- BSPLIT (R227): Sets a pending budget share. -/
  | bsplit (f : Fields)
  /-- METER (R227): Reads the metered time, energy or entry index of the innermost frame. -/
  | meter (f : Fields)
  /-- LD (R295): Load through a buffer record. -/
  | ld (f : Fields)
  /-- ST (R296): Store through a buffer record. -/
  | st (f : Fields)
  /-- LDX (R295): Load with an existence predicate. -/
  | ldx (f : Fields)
  /-- STX (R296): Store only if the tile exists. -/
  | stx (f : Fields)
  /-- ERASE (R297): Erases a sparse-existence tile. -/
  | erase (f : Fields)
  /-- EXQ (R298): Reads an existence map word. -/
  | exq (f : Fields)
  /-- PREF (R299): Prefetches a line. -/
  | pref (f : Fields)
  /-- BRMAKE (R302): Builds a buffer record. -/
  | brmake (f : Fields)
  /-- BRSET (R303): Patches one field of a buffer record. -/
  | brset (f : Fields)
  /-- BRGET (R303): Reads one field of a buffer record. -/
  | brget (f : Fields)
  /-- ATOM_ADD (R308): Memory atomic add returning the old value. -/
  | atomAdd (f : Fields)
  /-- ATOM_MIN (R308): Memory atomic minimum. -/
  | atomMin (f : Fields)
  /-- ATOM_MAX (R308): Memory atomic maximum. -/
  | atomMax (f : Fields)
  /-- ATOM_AND (R308): Memory atomic AND. -/
  | atomAnd (f : Fields)
  /-- ATOM_OR (R308): Memory atomic OR. -/
  | atomOr (f : Fields)
  /-- ATOM_XOR (R308): Memory atomic XOR. -/
  | atomXor (f : Fields)
  /-- ATOM_EXCH (R308): Memory atomic exchange. -/
  | atomExch (f : Fields)
  /-- ATOM_CAS (R308): Memory atomic compare-and-swap. -/
  | atomCas (f : Fields)
  /-- ATOM_FADD (R308): Memory atomic floating add. -/
  | atomFadd (f : Fields)
  /-- RED_ADD (R308): Memory reduction add. -/
  | redAdd (f : Fields)
  /-- RED_MIN (R308): Memory reduction minimum. -/
  | redMin (f : Fields)
  /-- RED_MAX (R308): Memory reduction maximum. -/
  | redMax (f : Fields)
  /-- RED_AND (R308): Memory reduction AND. -/
  | redAnd (f : Fields)
  /-- RED_OR (R308): Memory reduction OR. -/
  | redOr (f : Fields)
  /-- RED_XOR (R308): Memory reduction XOR. -/
  | redXor (f : Fields)
  /-- RED_FADD (R308): Memory reduction floating add. -/
  | redFadd (f : Fields)
  /-- ATOMS_ADD (R308): Scratchpad atomic add. -/
  | atomsAdd (f : Fields)
  /-- ATOMS_MIN (R308): Scratchpad atomic minimum. -/
  | atomsMin (f : Fields)
  /-- ATOMS_MAX (R308): Scratchpad atomic maximum. -/
  | atomsMax (f : Fields)
  /-- ATOMS_AND (R308): Scratchpad atomic AND. -/
  | atomsAnd (f : Fields)
  /-- ATOMS_OR (R308): Scratchpad atomic OR. -/
  | atomsOr (f : Fields)
  /-- ATOMS_XOR (R308): Scratchpad atomic XOR. -/
  | atomsXor (f : Fields)
  /-- ATOMS_EXCH (R308): Scratchpad atomic exchange. -/
  | atomsExch (f : Fields)
  /-- ATOMS_CAS (R308): Scratchpad atomic compare-and-swap. -/
  | atomsCas (f : Fields)
  /-- ATOMS_FADD (R308): Scratchpad atomic floating add. -/
  | atomsFadd (f : Fields)
  /-- REDS_ADD (R308): Scratchpad reduction add. -/
  | redsAdd (f : Fields)
  /-- REDS_MIN (R308): Scratchpad reduction minimum. -/
  | redsMin (f : Fields)
  /-- REDS_MAX (R308): Scratchpad reduction maximum. -/
  | redsMax (f : Fields)
  /-- REDS_AND (R308): Scratchpad reduction AND. -/
  | redsAnd (f : Fields)
  /-- REDS_OR (R308): Scratchpad reduction OR. -/
  | redsOr (f : Fields)
  /-- REDS_XOR (R308): Scratchpad reduction XOR. -/
  | redsXor (f : Fields)
  /-- REDS_FADD (R308): Scratchpad reduction floating add. -/
  | redsFadd (f : Fields)
  /-- LDS (R309): Scratchpad load that waits for a full line, optionally marking it empty. -/
  | lds (f : Fields)
  /-- STS (R309): Scratchpad store, optionally marking the line full. -/
  | sts (f : Fields)
  /-- SFILL (R309): Marks a scratchpad line full. -/
  | sfill (f : Fields)
  /-- SEMPTY (R309): Marks a scratchpad line empty. -/
  | sempty (f : Fields)
  /-- GTHR (R331): Gather load through the remap stage. -/
  | gthr (f : Fields)
  /-- GTHRS (R333): Gathers whole rows into scratchpad. -/
  | gthrs (f : Fields)
  /-- REMAP (R332): Sets the modulus, the key or the table of the remap state. -/
  | remap (f : Fields)
  /-- COPY (R336): Supplies the gang's slice of a unit copy command. -/
  | copyI (f : Fields)
  /-- COPYM (R337): Copy to up to four receiving units' scratchpads. -/
  | copym (f : Fields)
  /-- CBLOAD (R340): Loads a codebook slot. -/
  | cbload (f : Fields)
  /-- MREADY (R344): Operand-ready fence of a gang for the matrix engine. -/
  | mready (f : Fields)
  /-- MMA (R342): Issues a dense matrix operation and writes its ticket. -/
  | mma (f : Fields)
  /-- MMAS (R342): Issues a sparse matrix operation with metadata. -/
  | mmas (f : Fields)
  /-- MWAIT (R343): Waits for a matrix operation to complete. -/
  | mwait (f : Fields)
  /-- MPOLL (R343): Tests whether a matrix operation has completed. -/
  | mpoll (f : Fields)
  /-- FENCE (R376): Holds the thread until its accesses are ordered at the named scope. -/
  | fence (f : Fields)
  /-- BAR (R378): Unit barrier: arrive and wait. -/
  | bar (f : Fields)
  /-- BARA (R378): Unit barrier arrival without waiting. -/
  | bara (f : Fields)
  /-- BARW (R378): Waits for the phase that the gang arrived at. -/
  | barw (f : Fields)
  /-- DRAIN (R381): Waits until the thread's writes are performed or recorded, then is a trap-check point. -/
  | drain (f : Fields)
  /-- FEWAIT (R382): Copy completion fence. -/
  | fewait (f : Fields)
  /-- EVPOST (R347): Posts a record into the cluster's event queue. -/
  | evpost (f : Fields)
  /-- EVWAIT (R347): Waits for and pops an event record. -/
  | evwait (f : Fields)
  /-- EVPOLL (R347): Pops an event record if one is present. -/
  | evpoll (f : Fields)
  /-- LAUNCH (R384): Starts a child launch from a control core. -/
  | launchI (f : Fields)
  /-- GARM (R385): Arms a graph image from a control core. -/
  | garm (f : Fields)
  /-- CNTRD (R388): Reads a level's counter or status. -/
  | cntrd (f : Fields)
  /-- CANCEL_LEVEL (R389): Cancels a level from a running program. -/
  | cancelLevel (f : Fields)
  /-- LBLRD (R416): Reads an origin label. -/
  | lblrd (f : Fields)
  /-- LBLTST (R416): Tests a label against a mask. -/
  | lbltst (f : Fields)
  /-- EGRESS (R422): Sends bytes to a peer through Teasel. -/
  | egress (f : Fields)
  /-- RGN (R417): Enters an idempotent region. -/
  | rgn (f : Fields)
  /-- RGNE (R417): Leaves an idempotent region. -/
  | rgne (f : Fields)
  /-- SFQPOP (R418): Pops the gang's oldest store-fault record. -/
  | sfqpop (f : Fields)
  /-- RFT (R419): Returns from the trap handler. -/
  | rft (f : Fields)
  /-- TERM_G (R420): Terminates the gang. -/
  | termG (f : Fields)
  /-- TERM_U (R420): Terminates the unit. -/
  | termU (f : Fields)
  /-- HALT (R421): Halts the unit and sends a notice. -/
  | halt (f : Fields)
  /-- ENDPOINT_DISABLE (R58): Disables an endpoint whose bit was cleared: lets loads finish, quiesces and saves or cancels its jobs, and sends a final notice. -/
  | endpointDisable
  /-- CREATE (R62): Reconfiguration entry that creates a partition over a legal run of free slices. -/
  | createPart
  /-- DESTROY (R64): Reconfiguration entry that destroys a partition: it cancels the partition's jobs, unbinds its endpoints, frees its copy engines and clears its stacks. -/
  | destroyPart
  /-- ASSIGN_COPY (R64): Reconfiguration entry that moves copy engines to a partition. -/
  | assignCopy
  /-- BIND_ENDPOINT (R64): Reconfiguration entry that binds a disabled command endpoint to a partition. -/
  | bindEndpoint
  /-- STACK_CLEAR (R61): Clearing of a destroyed partition's stacks ends, after which its stacks may be mapped again and RECONFIGURE completes. -/
  | stackClear
  /-- POLICY_PERIOD (R282): At every multiple of 100 µs, every policy's byte count returns to zero. -/
  | policyPeriod
  /-- POWER_UP_RESET (R442): At package power-up the boot ROM verifies the firmware image and runs it, or waits for a replacement. -/
  | powerUpReset
  /-- EVICT_HELD_PERFORM (R250): A held EVICT is performed once no device access to the page remains, or 50 µs after it was taken. -/
  | evictHeldPerform
  /-- SHOOT_DOWN (R244): Every TLB of the partition acknowledges the invalidation of changed entries, after which the record's status becomes 1. -/
  | shootDown
  /-- MIGRATION_NOTICE_RESEND (R250): The migration notice is sent again when device accesses are still held 50 µs after an EVICT of a host-resident page. -/
  | migrationNoticeResend
  /-- GRAPH_NODE_START (R55): A completion record lowers predecessor counts, and a node whose count reaches zero starts. -/
  | graphNodeStart
  /-- WAIT_ENTRY (R46): A wait entry completes when the named work of its job has completed. -/
  | waitEntry
  /-- UNIT_DISPATCH (R66): When a slot frees or a queue head becomes ready, the dispatch hardware places the next unit under the first qualifying bind record. -/
  | unitDispatch
  /-- FUSION_CHANGE (R76): An empty cluster changes its L1 fusion state, which takes 256 clk and invalidates its L1s. -/
  | fusionChange
  /-- UNIT_END (R52): A unit ends at the EXIT of its last gang or by termination, and its launch counter falls. -/
  | unitEnd
  /-- LEVEL_COMPLETION (R430): A level whose counter reaches zero while it is closed completes and lowers its parent's counter. -/
  | levelCompletion
  /-- BUDGET_REFILL (R70): At every multiple of 100 µs, every account repays debt, idle lending accounts feed the pool, and balances are refilled. -/
  | budgetRefill
  /-- BORROW (R71): An account at or below zero with a ready queue head draws from the partition's pool. -/
  | borrow
  /-- AGING (R127): A thread that has been ready for 4,096 clk without issuing is issued once at class 3. -/
  | aging
  /-- GLASON_SWAP (R128): An active Glason gang whose threads are all blocked on long-latency producers swaps with the longest-pending ready gang. -/
  | glasonSwap
  /-- GLASON_PENDING_AGING (R128): A pending Glason gang that has been ready for 4,096 clk replaces the least recently issued active gang. -/
  | glasonPendingAging
  /-- SKID_LIMIT (R402): A thread reaching its 33rd instruction after an unperformed write waits for it, and enters its handler if the write was recorded. -/
  | skidLimit
  /-- BARRIER_PHASE_COMPLETE (R377): A barrier phase completes when every live gang has arrived, and its waiters continue. -/
  | barrierPhaseComplete
  /-- REGION_OPEN (R409): An idempotent region opens when every live gang of the unit has performed RGN. -/
  | regionOpen
  /-- REGION_COMMIT (R409): An idempotent region commits when every live gang of the unit has performed RGNE. -/
  | regionCommit
  /-- HELD_ACCESS_REPLAY (R408): An access held on a not-present page replays once the MAP has completed. -/
  | heldAccessReplay
  /-- EVENT_THRESHOLD_NOTICE (R189): A launch counter reaching its nonzero threshold for the first time sends one notice. -/
  | eventThresholdNotice
  /-- UNIT_COMMAND_START (R318): A unit copy command starts once every live gang has supplied its slice. -/
  | unitCommandStart
  /-- COPY_ENGINE_ACCEPT (R319): A started copy command is taken by the first free copy engine of the partition. -/
  | copyEngineAccept
  /-- COPY_RESUME (R73): A suspended copy command resumes on a free engine once its balance is positive. -/
  | copyResume
  /-- COPY_COMPLETE (R321): A copy command completes or stops and writes its event record. -/
  | copyComplete
  /-- MMA_COMPLETE (R327): A matrix operation completes and fills its accumulators with the operation label. -/
  | mmaComplete
  /-- REGION_ABORT (R410): A not-present fault inside an idempotent region aborts the unit and releases its resources. -/
  | regionAbort
  /-- REGION_RESTART (R410): An aborted unit is dispatched again at its region entries once the faulting pages are resident. -/
  | regionRestart
  /-- RAIL_HOLD_EXPIRY (R437): A rail's 50 µs hold after a fall of its target ends, and the rail falls towards the target. -/
  | railHoldExpiry
  /-- RAIL_READY (R438): A rail reaches a chiplet's vote plus headroom, and that chiplet's ready bit becomes 1. -/
  | railReady
  /-- LOAD_RECORD_UPDATE (R440): Every 0.1 µs, the chiplet's load record of issued lane passes is updated. -/
  | loadRecordUpdate
  /-- FADE_START (R441): Issue falling below half the load record starts a ballast fade. -/
  | fadeStart
  /-- FADE_END (R441): The ballast fade ends 2 µs after it started. -/
  | fadeEnd
  deriving DecidableEq, Repr

/-- The fields of a program instruction's word; none for a row that is no program instruction. -/
def Instr.fields : Instr → Option Fields
  | .queryState _ => none
  | .replay _ => none
  | .loadObject _ => none
  | .unloadObject _ => none
  | .jobOpen _ => none
  | .jobClose _ => none
  | .phaseNext _ => none
  | .saveArea _ => none
  | .resumeJob _ => none
  | .submit _ => none
  | .cancelCmd _ => none
  | .queueConfig _ => none
  | .memWrite _ => none
  | .memRead _ => none
  | .statusWindowRead _ => none
  | .endpointEnable _ => none
  | .endpointDisable => none
  | .shortMessage _ => none
  | .createPart => none
  | .destroyPart => none
  | .assignCopy => none
  | .bindEndpoint => none
  | .stackClear => none
  | .bindSlot _ => none
  | .peer _ => none
  | .policy _ => none
  | .revoke _ => none
  | .teaselTableRead _ => none
  | .policyPeriod => none
  | .powerUpReset => none
  | .replacementImage _ => none
  | .configurationRecord _ => none
  | .nonce _ => none
  | .attestationReport _ => none
  | .bootStatus _ => none
  | .ringTailCheck _ => none
  | .mapPages _ => none
  | .unmapPages _ => none
  | .protect _ => none
  | .evict _ => none
  | .evictHeldPerform => none
  | .shootDown => none
  | .migrationNoticeResend => none
  | .launchEntryStart _ _ => none
  | .graphEntryArm _ _ => none
  | .graphNodeStart => none
  | .copyEntry _ _ => none
  | .waitEntry => none
  | .unitDispatch => none
  | .fusionChange => none
  | .unitEnd => none
  | .levelCompletion => none
  | .budgetRefill => none
  | .borrow => none
  | .bindRecordWrite _ _ _ => none
  | .leaseLengthWrite _ _ => none
  | .voteWrite _ _ => none
  | .domainGate _ => none
  | .domainUngate _ => none
  | .registerWrite _ => none
  | .aging => none
  | .glasonSwap => none
  | .glasonPendingAging => none
  | .threadUnblock _ => none
  | .skidLimit => none
  | .barrierPhaseComplete => none
  | .regionOpen => none
  | .regionCommit => none
  | .loadWriteback _ _ => none
  | .writePerform _ _ => none
  | .atomicPerform _ _ => none
  | .heldAccessReplay => none
  | .exactPathWriteback _ => none
  | .eventThresholdNotice => none
  | .remoteAccessIn _ => none
  | .unitCommandStart => none
  | .copyEngineAccept => none
  | .copyChunk _ _ _ => none
  | .copyResume => none
  | .copyComplete => none
  | .mmaChunkGrant _ => none
  | .mmaComplete => none
  | .gthrsLineFill _ _ => none
  | .remapTableWrite _ _ => none
  | .codebookSlotWrite _ _ => none
  | .variantTableRead _ _ => none
  | .quiescence _ => none
  | .regionAbort => none
  | .regionRestart => none
  | .railHoldExpiry => none
  | .railReady => none
  | .passCountRaise _ => none
  | .passCountLower _ => none
  | .loadRecordUpdate => none
  | .fadeStart => none
  | .fadeEnd => none
  | .reconfigure _ => none
  | .bra f => some f
  | .brx f => some f
  | .call f => some f
  | .callx f => some f
  | .ret f => some f
  | .exitI f => some f
  | .yieldI f => some f
  | .nop f => some f
  | .setpri f => some f
  | .bpt f => some f
  | .trapI f => some f
  | .iadd f => some f
  | .isub f => some f
  | .iaddc f => some f
  | .isubc f => some f
  | .imul f => some f
  | .imulh f => some f
  | .imad f => some f
  | .imin f => some f
  | .imax f => some f
  | .iabs f => some f
  | .band f => some f
  | .bor f => some f
  | .bxor f => some f
  | .bnot f => some f
  | .logt f => some f
  | .shl f => some f
  | .shr f => some f
  | .sar f => some f
  | .dsh f => some f
  | .bfe f => some f
  | .bfi f => some f
  | .maskB f => some f
  | .popc f => some f
  | .clz f => some f
  | .brev f => some f
  | .bswz f => some f
  | .bdot f => some f
  | .bsad f => some f
  | .isetp f => some f
  | .sel f => some f
  | .lea f => some f
  | .mov f => some f
  | .movh f => some f
  | .addi f => some f
  | .movx f => some f
  | .pand f => some f
  | .por f => some f
  | .pxor f => some f
  | .pnot f => some f
  | .p2v f => some f
  | .v2p f => some f
  | .rdlane f => some f
  | .srd f => some f
  | .swr f => some f
  | .setmode f => some f
  | .partW f => some f
  | .shflIdx f => some f
  | .shflRot f => some f
  | .shflXor f => some f
  | .shflRev f => some f
  | .voteAll f => some f
  | .voteAny f => some f
  | .voteBallot f => some f
  | .redgAdd f => some f
  | .redgMin f => some f
  | .redgMax f => some f
  | .scang f => some f
  | .matchG f => some f
  | .elect f => some f
  | .fadd f => some f
  | .fsub f => some f
  | .fmul f => some f
  | .ffma f => some f
  | .fmin f => some f
  | .fmax f => some f
  | .fneg f => some f
  | .fabs f => some f
  | .fscale f => some f
  | .fsetp f => some f
  | .fclass f => some f
  | .frnd f => some f
  | .hfma2 f => some f
  | .hadd2 f => some f
  | .hsub2 f => some f
  | .hmul2 f => some f
  | .hmin2 f => some f
  | .hmax2 f => some f
  | .hneg2 f => some f
  | .habs2 f => some f
  | .hsetp2 f => some f
  | .cvt f => some f
  | .pack2 f => some f
  | .rcp f => some f
  | .rsq f => some f
  | .sqrt f => some f
  | .exp2 f => some f
  | .log2 f => some f
  | .sin f => some f
  | .cos f => some f
  | .tanh f => some f
  | .callv f => some f
  | .retv f => some f
  | .bset f => some f
  | .bget f => some f
  | .bsplit f => some f
  | .meter f => some f
  | .ld f => some f
  | .st f => some f
  | .ldx f => some f
  | .stx f => some f
  | .erase f => some f
  | .exq f => some f
  | .pref f => some f
  | .brmake f => some f
  | .brset f => some f
  | .brget f => some f
  | .atomAdd f => some f
  | .atomMin f => some f
  | .atomMax f => some f
  | .atomAnd f => some f
  | .atomOr f => some f
  | .atomXor f => some f
  | .atomExch f => some f
  | .atomCas f => some f
  | .atomFadd f => some f
  | .redAdd f => some f
  | .redMin f => some f
  | .redMax f => some f
  | .redAnd f => some f
  | .redOr f => some f
  | .redXor f => some f
  | .redFadd f => some f
  | .atomsAdd f => some f
  | .atomsMin f => some f
  | .atomsMax f => some f
  | .atomsAnd f => some f
  | .atomsOr f => some f
  | .atomsXor f => some f
  | .atomsExch f => some f
  | .atomsCas f => some f
  | .atomsFadd f => some f
  | .redsAdd f => some f
  | .redsMin f => some f
  | .redsMax f => some f
  | .redsAnd f => some f
  | .redsOr f => some f
  | .redsXor f => some f
  | .redsFadd f => some f
  | .lds f => some f
  | .sts f => some f
  | .sfill f => some f
  | .sempty f => some f
  | .gthr f => some f
  | .gthrs f => some f
  | .remap f => some f
  | .copyI f => some f
  | .copym f => some f
  | .cbload f => some f
  | .mready f => some f
  | .mma f => some f
  | .mmas f => some f
  | .mwait f => some f
  | .mpoll f => some f
  | .fence f => some f
  | .bar f => some f
  | .bara f => some f
  | .barw f => some f
  | .drain f => some f
  | .fewait f => some f
  | .evpost f => some f
  | .evwait f => some f
  | .evpoll f => some f
  | .launchI f => some f
  | .garm f => some f
  | .cntrd f => some f
  | .cancelLevel f => some f
  | .lblrd f => some f
  | .lbltst f => some f
  | .egress f => some f
  | .rgn f => some f
  | .rgne f => some f
  | .sfqpop f => some f
  | .rft f => some f
  | .termG f => some f
  | .termU f => some f
  | .halt f => some f

end Sys2Proof
end

