-- ==== Sys2Proof/Decode.lean ====
section
/-! DEFINITION. The encoding: the forms of the 187 program instructions as the spec's tables give them, the decode tests of
R98 in their order, the decoder, and the encoder written from the same tables. -/

namespace Sys2Proof

/-- How a form reads bits [34:32] (R95, R96). -/
inductive CodeUse where
  /-- must be zero. -/
  | plain
  /-- a rounding code. -/
  | round
  /-- a rounding code under .F32, otherwise zero (table Collective Forms). -/
  | roundF32
  /-- a cache-hint code. -/
  | hint
  deriving DecidableEq, Repr

/-- The layouts of bits [38:19] (table Modifier Layouts). -/
inductive Layout where
  | mod20 | imm20 | imm12 | imm16
  deriving DecidableEq, Repr

/-- What an operand field permits (R89). -/
structure Slot where
  /-- class 00. -/
  v : Bool := false
  /-- class 00 index 255 alone. -/
  vz : Bool := false
  /-- class 01. -/
  s : Bool := false
  /-- greatest class-01 index. -/
  smax : Nat := 255
  /-- class 11. -/
  imm : Bool := false
  /-- class 10, buffer records. -/
  record : Bool := false
  /-- class 10, predicates. -/
  pred : Bool := false
  /-- class 10, pt among the predicates. -/
  pt : Bool := true
  /-- class 10, special registers. -/
  special : Bool := false
  /-- the field names a register pair (R84). -/
  pair : Bool := false
  /-- the field names four consecutive registers (R348). -/
  four : Bool := false
  /-- a per-thread register other than vz is left to the uniformity test, whose reason the entry gives it (R301). -/
  late : Bool := false
  /-- the existence predicate of LDX and STX: any class-10 index outside 64 to 71 fails test 5 (R300). -/
  exist : Bool := false

/-- One form: an opcode with what its entry permits (R108). -/
structure Form where
  op : Nat
  name : String
  build : Fields → Instr
  layout : Layout := .mod20
  /-- the permitted type codes. -/
  types : List Nat := [0]
  code : CodeUse := .plain
  /-- the defined bits of word bits [31:19]. -/
  defined : Nat := 0
  d : Fields → Slot := fun _ => {}
  a : Fields → Slot := fun _ => {}
  b : Fields → Slot := fun _ => {}
  c : Fields → Slot := fun _ => {}
  /-- guard pt is required (R91). -/
  pt : Bool := false
  /-- a defined field holds a code that the entry marks illegal (R133). -/
  bad : Fields → Bool := fun _ => false
  /-- a type or code in the entry's own bits that the entry does not permit (R211, R334). -/
  badType : Fields → Bool := fun _ => false

def unusedS : Slot := {}
def vS : Slot := { v := true }
def sS : Slot := { s := true }
def dstS : Slot := { v := true, s := true }
def srcS : Slot := { v := true, s := true, imm := true }
def uniS : Slot := { s := true, imm := true }
def pairS : Slot := { v := true, s := true, pair := true }
def linkS : Slot := { v := true, pair := true }
def predS : Slot := { pred := true }
def existS : Slot := { pred := true, exist := true }
def carryS : Slot := { pred := true, vz := true }
def recS : Slot := { record := true }
def specialS : Slot := { special := true }

/-- Sources of BRMAKE and BRSET (table Buffer Record Forms): classes 01 and 11. A per-thread register other than vz meets the
uniformity test alone, with reason 8 whatever its index (R301). vz is in no class that the table lists and fails test 5 (log 5). -/
def recSrcS : Slot := { s := true, imm := true, late := true }
def recPairS : Slot := { s := true, imm := true, pair := true, late := true }

/-- A value field that is a pair under a 64-bit type (R141). -/
def byType (x : Slot) (f : Fields) : Slot := { x with pair := f.ty.is64 }

/-- Source C of a combining compare (R150, R197): a predicate when [23:22] is not 0. -/
def combineS (f : Fields) : Slot := if f.bits 3 2 == 0 then unusedS else predS

/-- Source C of a collective (R162): the member mask under .M. -/
def maskS (f : Fields) : Slot := if f.bit 3 then srcS else unusedS

/-- Store data (R294): a pair under a 64-bit type, no short immediate under a page-format type (R88). -/
def dataS (f : Fields) : Slot :=
  { v := true, s := true, imm := f.ty.code < 11, pair := f.ty.is64 }

/-- Source A of a copy (table Copy Forms): a record when the source space is memory. -/
def copySrcS (f : Fields) : Slot := if f.bits 1 1 == 0 then recS else unusedS

/-- Source A of LBLRD (table System Forms). -/
def lblSrcS (f : Fields) : Slot :=
  match f.bits 0 2 with
  | 0 => { v := true, s := true, pred := true, pt := false }
  | 1 => unusedS
  | 2 => recS
  | _ => srcS

/-- The source type of CVT, bits [31:28] (R204). -/
def Fields.srcTy (f : Fields) : Ty := Ty.ofCode (f.bits 9 4)

/-- Source A of CVT (R204, R206): a pair under a 64-bit source type, no short immediate of an F8 type (R88). -/
def cvtSrcS (f : Fields) : Slot :=
  { v := true, s := true, imm := f.srcTy.code < 11, pair := f.srcTy.is64 }

/-- CVT's source type is not one of its types (R211). -/
def cvtBadSource (f : Fields) : Bool :=
  !([1, 2, 3, 4, 5, 6, 8, 9, 10, 11, 12].contains f.srcTy.code)

/-- The element select that CVT does not define for its source (R206, R211). -/
def cvtBadSelect (f : Fields) : Bool :=
  let e := f.bits 1 2
  let isImm := match f.a with
    | .imm _ => true
    | _ => false
  match f.srcTy with
  | .s8 | .n8 | .f8e4 | .f8e5 => isImm && e != 0
  | .f16 | .bf16 => 2 ≤ e || (isImm && e != 0)
  | _ => e != 0

/-- The forms of the group at 0x000 (tables Opcode Map and the group's form table). -/
def formsControl : List Form := [
  { op := 0x001, name := "BRA", build := .bra, layout := .imm20 },
  { op := 0x002, name := "BRX", build := .brx, a := fun _ => pairS },
  { op := 0x003, name := "CALL", build := .call, layout := .imm20, d := fun _ => linkS },
  { op := 0x004, name := "CALLX", build := .callx, d := fun _ => linkS, a := fun _ => pairS },
  { op := 0x005, name := "RET", build := .ret, a := fun _ => pairS },
  { op := 0x006, name := "EXIT", build := .exitI },
  { op := 0x007, name := "YIELD", build := .yieldI },
  { op := 0x008, name := "NOP", build := .nop },
  { op := 0x009, name := "SETPRI", build := .setpri, a := fun _ => srcS },
  { op := 0x00A, name := "BPT", build := .bpt, defined := 0x1FFF },
  { op := 0x00B, name := "TRAP", build := .trapI, defined := 0x1FFF }]

/-- The forms of the group at 0x040 (tables Opcode Map and the group's form table). -/
def formsInteger : List Form := [
  { op := 0x040, name := "IADD", build := .iadd, types := [3, 4, 5, 6], defined := 1, d := (byType dstS), a := (byType srcS), b := (byType srcS), bad := (fun f => f.bit 0 && f.ty == .n64) },
  { op := 0x041, name := "ISUB", build := .isub, types := [3, 4, 5, 6], defined := 1, d := (byType dstS), a := (byType srcS), b := (byType srcS), bad := (fun f => f.bit 0 && f.ty == .n64) },
  { op := 0x042, name := "IADDC", build := .iaddc, types := [4], defined := 7, d := fun _ => dstS, a := fun _ => srcS, b := fun _ => srcS, c := fun _ => carryS },
  { op := 0x043, name := "ISUBC", build := .isubc, types := [4], defined := 7, d := fun _ => dstS, a := fun _ => srcS, b := fun _ => srcS, c := fun _ => carryS },
  { op := 0x044, name := "IMUL", build := .imul, types := [3, 4, 5, 6], d := (byType dstS), a := (byType srcS), b := (byType srcS) },
  { op := 0x045, name := "IMULH", build := .imulh, types := [3, 4, 5, 6], d := (byType dstS), a := (byType srcS), b := (byType srcS) },
  { op := 0x046, name := "IMAD", build := .imad, types := [3, 4, 5, 6], defined := 1, d := (byType dstS), a := (byType srcS), b := (byType srcS), c := (byType srcS), bad := (fun f => f.bit 0 && f.ty == .n64) },
  { op := 0x047, name := "IMIN", build := .imin, types := [3, 4, 5, 6], d := (byType dstS), a := (byType srcS), b := (byType srcS) },
  { op := 0x048, name := "IMAX", build := .imax, types := [3, 4, 5, 6], d := (byType dstS), a := (byType srcS), b := (byType srcS) },
  { op := 0x049, name := "IABS", build := .iabs, types := [3, 5], defined := 1, d := (byType dstS), a := (byType srcS) },
  { op := 0x04A, name := "AND", build := .band, types := [7, 6], d := (byType dstS), a := (byType srcS), b := (byType srcS) },
  { op := 0x04B, name := "OR", build := .bor, types := [7, 6], d := (byType dstS), a := (byType srcS), b := (byType srcS) },
  { op := 0x04C, name := "XOR", build := .bxor, types := [7, 6], d := (byType dstS), a := (byType srcS), b := (byType srcS) },
  { op := 0x04D, name := "NOT", build := .bnot, types := [7, 6], d := (byType dstS), a := (byType srcS) },
  { op := 0x04E, name := "LOGT", build := .logt, types := [7, 6], defined := 0xFF, d := (byType dstS), a := (byType srcS), b := (byType srcS), c := (byType srcS) },
  { op := 0x04F, name := "SHL", build := .shl, types := [7, 6], d := (byType dstS), a := (byType srcS), b := fun _ => srcS },
  { op := 0x050, name := "SHR", build := .shr, types := [4, 6], d := (byType dstS), a := (byType srcS), b := fun _ => srcS },
  { op := 0x051, name := "SAR", build := .sar, types := [3, 5], d := (byType dstS), a := (byType srcS), b := fun _ => srcS },
  { op := 0x052, name := "DSH", build := .dsh, types := [7], defined := 3, d := fun _ => dstS, a := fun _ => pairS, b := fun _ => srcS },
  { op := 0x053, name := "BFE", build := .bfe, types := [3, 4, 5, 6], d := (byType dstS), a := (byType srcS), b := fun _ => srcS },
  { op := 0x054, name := "BFI", build := .bfi, types := [7, 6], d := (byType dstS), a := (byType srcS), b := fun _ => srcS, c := (byType srcS) },
  { op := 0x055, name := "MASK", build := .maskB, types := [7], defined := 1, d := fun _ => dstS, a := fun _ => srcS },
  { op := 0x056, name := "POPC", build := .popc, types := [7, 6], d := fun _ => dstS, a := (byType srcS) },
  { op := 0x057, name := "CLZ", build := .clz, types := [7, 6], d := fun _ => dstS, a := (byType srcS) },
  { op := 0x058, name := "BREV", build := .brev, types := [7, 6], d := (byType dstS), a := (byType srcS) },
  { op := 0x059, name := "BSWZ", build := .bswz, types := [7], d := fun _ => dstS, a := fun _ => srcS, b := fun _ => srcS, c := fun _ => srcS },
  { op := 0x05A, name := "BDOT", build := .bdot, types := [3, 4], defined := 7, d := fun _ => dstS, a := fun _ => srcS, b := fun _ => srcS, c := fun _ => srcS },
  { op := 0x05B, name := "BSAD", build := .bsad, types := [4], defined := 1, d := fun _ => dstS, a := fun _ => srcS, b := fun _ => srcS, c := fun _ => srcS },
  { op := 0x05C, name := "ISETP", build := .isetp, types := [3, 4, 5, 6], defined := 0x1F, d := fun _ => predS, a := (byType srcS), b := (byType srcS), c := combineS, bad := (fun f => 6 ≤ f.bits 0 3) },
  { op := 0x05D, name := "SEL", build := .sel, types := [7, 6], d := (byType dstS), a := (byType srcS), b := (byType srcS), c := fun _ => predS },
  { op := 0x05E, name := "LEA", build := .lea, types := [4, 6, 5], defined := 0x1F, d := (byType dstS), a := (byType srcS), b := fun _ => srcS }]

/-- The forms of the group at 0x080 (tables Opcode Map and the group's form table). -/
def formsMove : List Form := [
  { op := 0x080, name := "MOV", build := .mov, types := [7, 6], d := (byType dstS), a := (byType srcS) },
  { op := 0x081, name := "MOVH", build := .movh, layout := .imm20, d := fun _ => dstS },
  { op := 0x082, name := "ADDI", build := .addi, layout := .imm12, types := [0, 7], defined := 0xFFF, d := (fun f => { dstS with pair := f.ty == .none }), a := (fun f => { dstS with pair := f.ty == .none }) },
  { op := 0x083, name := "MOVX", build := .movx, layout := .imm16, d := fun _ => pairS },
  { op := 0x084, name := "PAND", build := .pand, defined := 3, d := fun _ => predS, a := fun _ => predS, b := fun _ => predS },
  { op := 0x085, name := "POR", build := .por, defined := 3, d := fun _ => predS, a := fun _ => predS, b := fun _ => predS },
  { op := 0x086, name := "PXOR", build := .pxor, defined := 3, d := fun _ => predS, a := fun _ => predS, b := fun _ => predS },
  { op := 0x087, name := "PNOT", build := .pnot, defined := 1, d := fun _ => predS, a := fun _ => predS },
  { op := 0x088, name := "P2V", build := .p2v, d := fun _ => vS },
  { op := 0x089, name := "V2P", build := .v2p, defined := 0x7F, a := fun _ => srcS },
  { op := 0x08A, name := "RDLANE", build := .rdlane, types := [7, 6], d := (byType vS), a := (byType vS), b := fun _ => uniS },
  { op := 0x08B, name := "SRD", build := .srd, d := fun _ => dstS, a := fun _ => specialS },
  { op := 0x08C, name := "SWR", build := .swr, d := fun _ => specialS, a := fun _ => srcS },
  { op := 0x08D, name := "SETMODE", build := .setmode, defined := 3, a := fun _ => srcS },
  { op := 0x08E, name := "PART", build := .partW, defined := 7, bad := (fun f => 5 ≤ f.bits 0 3) }]

/-- The forms of the group at 0x0C0 (tables Opcode Map and the group's form table). -/
def formsCollective : List Form := [
  { op := 0x0C0, name := "SHFL.IDX", build := .shflIdx, types := [7, 6], defined := 0xF, d := (byType vS), a := (byType srcS), b := fun _ => srcS, c := maskS },
  { op := 0x0C1, name := "SHFL.ROT", build := .shflRot, types := [7, 6], defined := 0x1F, d := (byType vS), a := (byType srcS), b := fun _ => srcS, c := maskS },
  { op := 0x0C2, name := "SHFL.XOR", build := .shflXor, types := [7, 6], defined := 0xF, d := (byType vS), a := (byType srcS), b := fun _ => srcS, c := maskS },
  { op := 0x0C3, name := "SHFL.REV", build := .shflRev, types := [7, 6], defined := 0xF, d := (byType vS), a := (byType srcS), b := fun _ => srcS, c := maskS },
  { op := 0x0C4, name := "VOTE.ALL", build := .voteAll, defined := 8, d := fun _ => predS, a := fun _ => predS, c := maskS },
  { op := 0x0C5, name := "VOTE.ANY", build := .voteAny, defined := 8, d := fun _ => predS, a := fun _ => predS, c := maskS },
  { op := 0x0C6, name := "VOTE.BALLOT", build := .voteBallot, defined := 8, d := fun _ => dstS, a := fun _ => predS, c := maskS },
  { op := 0x0C7, name := "REDG.ADD", build := .redgAdd, types := [3, 4, 5, 6, 8], code := .roundF32, defined := 8, d := (byType vS), a := (byType srcS), c := maskS },
  { op := 0x0C8, name := "REDG.MIN", build := .redgMin, types := [3, 4, 5, 6, 8], defined := 8, d := (byType vS), a := (byType srcS), c := maskS },
  { op := 0x0C9, name := "REDG.MAX", build := .redgMax, types := [3, 4, 5, 6, 8], defined := 8, d := (byType vS), a := (byType srcS), c := maskS },
  { op := 0x0CA, name := "SCANG", build := .scang, types := [3, 4, 8], code := .roundF32, defined := 8, d := fun _ => vS, a := fun _ => srcS, b := fun _ => predS, c := maskS },
  { op := 0x0CB, name := "MATCH", build := .matchG, types := [7, 6], defined := 8, d := fun _ => vS, a := (byType srcS), c := maskS },
  { op := 0x0CC, name := "ELECT", build := .elect, defined := 8, d := fun _ => predS, c := maskS }]

/-- The forms of the group at 0x100 (tables Opcode Map and the group's form table). -/
def formsFloat : List Form := [
  { op := 0x100, name := "FADD", build := .fadd, types := [8, 9, 10], code := .round, d := fun _ => dstS, a := fun _ => srcS, b := fun _ => srcS },
  { op := 0x101, name := "FSUB", build := .fsub, types := [8, 9, 10], code := .round, d := fun _ => dstS, a := fun _ => srcS, b := fun _ => srcS },
  { op := 0x102, name := "FMUL", build := .fmul, types := [8, 9, 10], code := .round, d := fun _ => dstS, a := fun _ => srcS, b := fun _ => srcS },
  { op := 0x103, name := "FFMA", build := .ffma, types := [8, 9, 10], code := .round, d := fun _ => dstS, a := fun _ => srcS, b := fun _ => srcS, c := fun _ => srcS },
  { op := 0x104, name := "FMIN", build := .fmin, types := [8, 9, 10], d := fun _ => dstS, a := fun _ => srcS, b := fun _ => srcS },
  { op := 0x105, name := "FMAX", build := .fmax, types := [8, 9, 10], d := fun _ => dstS, a := fun _ => srcS, b := fun _ => srcS },
  { op := 0x106, name := "FNEG", build := .fneg, types := [8, 9, 10], d := fun _ => dstS, a := fun _ => srcS },
  { op := 0x107, name := "FABS", build := .fabs, types := [8, 9, 10], d := fun _ => dstS, a := fun _ => srcS },
  { op := 0x108, name := "FSCALE", build := .fscale, types := [8, 9, 10], code := .round, d := fun _ => dstS, a := fun _ => srcS, b := fun _ => srcS },
  { op := 0x109, name := "FSETP", build := .fsetp, types := [8, 9, 10], defined := 0x1F, d := fun _ => predS, a := fun _ => srcS, b := fun _ => srcS, c := combineS },
  { op := 0x10A, name := "FCLASS", build := .fclass, types := [8, 9, 10], d := fun _ => dstS, a := fun _ => srcS },
  { op := 0x10B, name := "FRND", build := .frnd, types := [8, 9, 10], code := .round, d := fun _ => dstS, a := fun _ => srcS }]

/-- The forms of the group at 0x140 (tables Opcode Map and the group's form table). -/
def formsPacked : List Form := [
  { op := 0x140, name := "HFMA2", build := .hfma2, types := [9, 10], code := .round, d := fun _ => dstS, a := fun _ => srcS, b := fun _ => srcS, c := fun _ => srcS },
  { op := 0x141, name := "HADD2", build := .hadd2, types := [9, 10], code := .round, d := fun _ => dstS, a := fun _ => srcS, b := fun _ => srcS },
  { op := 0x142, name := "HSUB2", build := .hsub2, types := [9, 10], code := .round, d := fun _ => dstS, a := fun _ => srcS, b := fun _ => srcS },
  { op := 0x143, name := "HMUL2", build := .hmul2, types := [9, 10], code := .round, d := fun _ => dstS, a := fun _ => srcS, b := fun _ => srcS },
  { op := 0x144, name := "HMIN2", build := .hmin2, types := [9, 10], d := fun _ => dstS, a := fun _ => srcS, b := fun _ => srcS },
  { op := 0x145, name := "HMAX2", build := .hmax2, types := [9, 10], d := fun _ => dstS, a := fun _ => srcS, b := fun _ => srcS },
  { op := 0x146, name := "HNEG2", build := .hneg2, types := [9, 10], d := fun _ => dstS, a := fun _ => srcS },
  { op := 0x147, name := "HABS2", build := .habs2, types := [9, 10], d := fun _ => dstS, a := fun _ => srcS },
  { op := 0x148, name := "HSETP2", build := .hsetp2, types := [9, 10], defined := 0xFF, d := fun _ => predS, a := fun _ => srcS, b := fun _ => srcS, c := combineS }]

/-- The forms of the group at 0x180 (tables Opcode Map and the group's form table). -/
def formsConvert : List Form := [
  { op := 0x180, name := "CVT", build := .cvt, types := [1, 2, 3, 4, 5, 6, 8, 9, 10, 11, 12], code := .round, defined := 0x1E07, d := (byType dstS), a := cvtSrcS, bad := cvtBadSelect, badType := cvtBadSource },
  { op := 0x181, name := "PACK2", build := .pack2, types := [9, 10], code := .round, defined := 1, d := fun _ => dstS, a := fun _ => srcS, b := fun _ => srcS },
  { op := 0x182, name := "RCP", build := .rcp, types := [8, 9, 10], code := .round, defined := 1, d := fun _ => dstS, a := fun _ => srcS },
  { op := 0x183, name := "RSQ", build := .rsq, types := [8, 9, 10], code := .round, defined := 1, d := fun _ => dstS, a := fun _ => srcS },
  { op := 0x184, name := "SQRT", build := .sqrt, types := [8, 9, 10], code := .round, defined := 1, d := fun _ => dstS, a := fun _ => srcS },
  { op := 0x185, name := "EXP2", build := .exp2, types := [8, 9, 10], code := .round, defined := 1, d := fun _ => dstS, a := fun _ => srcS },
  { op := 0x186, name := "LOG2", build := .log2, types := [8, 9, 10], code := .round, defined := 1, d := fun _ => dstS, a := fun _ => srcS },
  { op := 0x187, name := "SIN", build := .sin, types := [8, 9, 10], code := .round, defined := 1, d := fun _ => dstS, a := fun _ => srcS },
  { op := 0x188, name := "COS", build := .cos, types := [8, 9, 10], code := .round, defined := 1, d := fun _ => dstS, a := fun _ => srcS },
  { op := 0x189, name := "TANH", build := .tanh, types := [8, 9, 10], code := .round, defined := 1, d := fun _ => dstS, a := fun _ => srcS }]

/-- The forms of the group at 0x1C0 (tables Opcode Map and the group's form table). -/
def formsVariant : List Form := [
  { op := 0x1C0, name := "CALLV", build := .callv, defined := 0x1F, a := fun _ => pairS, bad := (fun f => f.bits 0 2 == 3) },
  { op := 0x1C1, name := "RETV", build := .retv },
  { op := 0x1C2, name := "BSET", build := .bset, defined := 3, a := fun _ => srcS, bad := (fun f => f.bits 0 2 == 3) },
  { op := 0x1C3, name := "BGET", build := .bget, defined := 3, d := fun _ => vS, bad := (fun f => f.bits 0 2 == 3) },
  { op := 0x1C4, name := "BSPLIT", build := .bsplit, defined := 1, d := fun _ => vS, a := fun _ => srcS },
  { op := 0x1C5, name := "METER", build := .meter, defined := 3, d := fun _ => vS, bad := (fun f => f.bits 0 2 == 3) }]

/-- The forms of the group at 0x200 (tables Opcode Map and the group's form table). -/
def formsMemory : List Form := [
  { op := 0x200, name := "LD", build := .ld, layout := .imm12, types := [1, 2, 3, 4, 5, 6, 7, 8, 9, 10, 11, 12, 13], code := .hint, defined := 0x1FFF, d := (byType dstS), a := fun _ => recS, b := fun _ => srcS },
  { op := 0x201, name := "ST", build := .st, layout := .imm12, types := [1, 2, 3, 4, 5, 6, 7, 8, 9, 10, 11, 12, 13], code := .hint, defined := 0x1FFF, a := fun _ => recS, b := fun _ => srcS, c := dataS },
  { op := 0x202, name := "LDX", build := .ldx, layout := .imm12, types := [1, 2, 3, 4, 5, 6, 7, 8, 9, 10, 11, 12, 13], code := .hint, defined := 0x1FFF, d := (byType vS), a := fun _ => recS, b := fun _ => srcS, c := fun _ => existS },
  { op := 0x203, name := "STX", build := .stx, layout := .imm12, types := [1, 2, 3, 4, 5, 6, 7, 8, 9, 10, 11, 12, 13], code := .hint, defined := 0x1FFF, d := fun _ => existS, a := fun _ => recS, b := fun _ => srcS, c := dataS },
  { op := 0x204, name := "ERASE", build := .erase, defined := 0x1000, a := fun _ => recS, b := fun _ => srcS },
  { op := 0x205, name := "EXQ", build := .exq, defined := 0x1000, d := fun _ => dstS, a := fun _ => recS, b := fun _ => srcS },
  { op := 0x206, name := "PREF", build := .pref, layout := .imm12, code := .hint, defined := 0xFFF, a := fun _ => recS, b := fun _ => srcS }]

/-- The forms of the group at 0x240 (tables Opcode Map and the group's form table). -/
def formsRecord : List Form := [
  { op := 0x240, name := "BRMAKE", build := .brmake, defined := 0xFF, d := fun _ => recS, a := fun _ => recPairS, b := fun _ => recSrcS, c := fun _ => recSrcS, bad := (fun f => 6 ≤ f.bits 0 4 || 4 ≤ f.bits 4 3) },
  { op := 0x241, name := "BRSET", build := .brset, defined := 7, d := fun _ => recS, a := (fun f => { recSrcS with pair := f.bits 0 3 == 0 }), bad := (fun f => f.bits 0 3 == 7) },
  { op := 0x242, name := "BRGET", build := .brget, defined := 7, d := (fun f => { dstS with pair := f.bits 0 3 == 0 }), a := fun _ => recS, bad := (fun f => 6 ≤ f.bits 0 3) }]

/-- The forms of the group at 0x280 (tables Opcode Map and the group's form table). -/
def formsAtomic : List Form := [
  { op := 0x280, name := "ATOM.ADD", build := .atomAdd, layout := .imm12, types := [3, 4, 5, 6], code := .hint, defined := 0x1FFF, d := (byType vS), a := fun _ => recS, b := fun _ => srcS, c := (byType srcS) },
  { op := 0x281, name := "ATOM.MIN", build := .atomMin, layout := .imm12, types := [3, 4, 5, 6], code := .hint, defined := 0x1FFF, d := (byType vS), a := fun _ => recS, b := fun _ => srcS, c := (byType srcS) },
  { op := 0x282, name := "ATOM.MAX", build := .atomMax, layout := .imm12, types := [3, 4, 5, 6], code := .hint, defined := 0x1FFF, d := (byType vS), a := fun _ => recS, b := fun _ => srcS, c := (byType srcS) },
  { op := 0x283, name := "ATOM.AND", build := .atomAnd, layout := .imm12, types := [7, 6], code := .hint, defined := 0x1FFF, d := (byType vS), a := fun _ => recS, b := fun _ => srcS, c := (byType srcS) },
  { op := 0x284, name := "ATOM.OR", build := .atomOr, layout := .imm12, types := [7, 6], code := .hint, defined := 0x1FFF, d := (byType vS), a := fun _ => recS, b := fun _ => srcS, c := (byType srcS) },
  { op := 0x285, name := "ATOM.XOR", build := .atomXor, layout := .imm12, types := [7, 6], code := .hint, defined := 0x1FFF, d := (byType vS), a := fun _ => recS, b := fun _ => srcS, c := (byType srcS) },
  { op := 0x286, name := "ATOM.EXCH", build := .atomExch, layout := .imm12, types := [7, 6], code := .hint, defined := 0x1FFF, d := (byType vS), a := fun _ => recS, b := fun _ => srcS, c := (byType srcS) },
  { op := 0x287, name := "ATOM.CAS", build := .atomCas, layout := .imm12, types := [7, 6], code := .hint, defined := 0x1FFF, d := (byType vS), a := fun _ => recS, b := fun _ => srcS, c := (byType srcS) },
  { op := 0x288, name := "ATOM.FADD", build := .atomFadd, layout := .imm12, types := [8, 9, 10], code := .round, defined := 0x1FFF, d := (byType vS), a := fun _ => recS, b := fun _ => srcS, c := (byType srcS) },
  { op := 0x289, name := "RED.ADD", build := .redAdd, layout := .imm12, types := [3, 4, 5, 6], code := .hint, defined := 0x1FFF, a := fun _ => recS, b := fun _ => srcS, c := (byType srcS) },
  { op := 0x28A, name := "RED.MIN", build := .redMin, layout := .imm12, types := [3, 4, 5, 6], code := .hint, defined := 0x1FFF, a := fun _ => recS, b := fun _ => srcS, c := (byType srcS) },
  { op := 0x28B, name := "RED.MAX", build := .redMax, layout := .imm12, types := [3, 4, 5, 6], code := .hint, defined := 0x1FFF, a := fun _ => recS, b := fun _ => srcS, c := (byType srcS) },
  { op := 0x28C, name := "RED.AND", build := .redAnd, layout := .imm12, types := [7, 6], code := .hint, defined := 0x1FFF, a := fun _ => recS, b := fun _ => srcS, c := (byType srcS) },
  { op := 0x28D, name := "RED.OR", build := .redOr, layout := .imm12, types := [7, 6], code := .hint, defined := 0x1FFF, a := fun _ => recS, b := fun _ => srcS, c := (byType srcS) },
  { op := 0x28E, name := "RED.XOR", build := .redXor, layout := .imm12, types := [7, 6], code := .hint, defined := 0x1FFF, a := fun _ => recS, b := fun _ => srcS, c := (byType srcS) },
  { op := 0x28F, name := "RED.FADD", build := .redFadd, layout := .imm12, types := [8, 9, 10], code := .round, defined := 0x1FFF, a := fun _ => recS, b := fun _ => srcS, c := (byType srcS) },
  { op := 0x290, name := "ATOMS.ADD", build := .atomsAdd, layout := .imm12, types := [3, 4, 5, 6], code := .plain, defined := 0xFFF, d := (byType vS), a := fun _ => srcS, c := (byType srcS) },
  { op := 0x291, name := "ATOMS.MIN", build := .atomsMin, layout := .imm12, types := [3, 4, 5, 6], code := .plain, defined := 0xFFF, d := (byType vS), a := fun _ => srcS, c := (byType srcS) },
  { op := 0x292, name := "ATOMS.MAX", build := .atomsMax, layout := .imm12, types := [3, 4, 5, 6], code := .plain, defined := 0xFFF, d := (byType vS), a := fun _ => srcS, c := (byType srcS) },
  { op := 0x293, name := "ATOMS.AND", build := .atomsAnd, layout := .imm12, types := [7, 6], code := .plain, defined := 0xFFF, d := (byType vS), a := fun _ => srcS, c := (byType srcS) },
  { op := 0x294, name := "ATOMS.OR", build := .atomsOr, layout := .imm12, types := [7, 6], code := .plain, defined := 0xFFF, d := (byType vS), a := fun _ => srcS, c := (byType srcS) },
  { op := 0x295, name := "ATOMS.XOR", build := .atomsXor, layout := .imm12, types := [7, 6], code := .plain, defined := 0xFFF, d := (byType vS), a := fun _ => srcS, c := (byType srcS) },
  { op := 0x296, name := "ATOMS.EXCH", build := .atomsExch, layout := .imm12, types := [7, 6], code := .plain, defined := 0xFFF, d := (byType vS), a := fun _ => srcS, c := (byType srcS) },
  { op := 0x297, name := "ATOMS.CAS", build := .atomsCas, layout := .imm12, types := [7, 6], code := .plain, defined := 0xFFF, d := (byType vS), a := fun _ => srcS, c := (byType srcS) },
  { op := 0x298, name := "ATOMS.FADD", build := .atomsFadd, layout := .imm12, types := [8, 9, 10], code := .round, defined := 0xFFF, d := (byType vS), a := fun _ => srcS, c := (byType srcS) },
  { op := 0x299, name := "REDS.ADD", build := .redsAdd, layout := .imm12, types := [3, 4, 5, 6], code := .plain, defined := 0xFFF, a := fun _ => srcS, c := (byType srcS) },
  { op := 0x29A, name := "REDS.MIN", build := .redsMin, layout := .imm12, types := [3, 4, 5, 6], code := .plain, defined := 0xFFF, a := fun _ => srcS, c := (byType srcS) },
  { op := 0x29B, name := "REDS.MAX", build := .redsMax, layout := .imm12, types := [3, 4, 5, 6], code := .plain, defined := 0xFFF, a := fun _ => srcS, c := (byType srcS) },
  { op := 0x29C, name := "REDS.AND", build := .redsAnd, layout := .imm12, types := [7, 6], code := .plain, defined := 0xFFF, a := fun _ => srcS, c := (byType srcS) },
  { op := 0x29D, name := "REDS.OR", build := .redsOr, layout := .imm12, types := [7, 6], code := .plain, defined := 0xFFF, a := fun _ => srcS, c := (byType srcS) },
  { op := 0x29E, name := "REDS.XOR", build := .redsXor, layout := .imm12, types := [7, 6], code := .plain, defined := 0xFFF, a := fun _ => srcS, c := (byType srcS) },
  { op := 0x29F, name := "REDS.FADD", build := .redsFadd, layout := .imm12, types := [8, 9, 10], code := .round, defined := 0xFFF, a := fun _ => srcS, c := (byType srcS) },
  { op := 0x2A0, name := "LDS", build := .lds, layout := .imm12, types := [1, 2, 3, 4, 5, 6, 7, 8, 9, 10], defined := 0x1FFF, d := (byType vS), a := fun _ => srcS },
  { op := 0x2A1, name := "STS", build := .sts, layout := .imm12, types := [1, 2, 3, 4, 5, 6, 7, 8, 9, 10], defined := 0x1FFF, a := fun _ => srcS, c := (byType srcS) },
  { op := 0x2A2, name := "SFILL", build := .sfill, a := fun _ => srcS },
  { op := 0x2A3, name := "SEMPTY", build := .sempty, a := fun _ => srcS }]

/-- The forms of the group at 0x2C0 (tables Opcode Map and the group's form table). -/
def formsGather : List Form := [
  { op := 0x2C0, name := "GTHR", build := .gthr, types := [1, 2, 3, 4, 5, 6, 7, 8, 9, 10, 11, 12, 13], code := .hint, defined := 0x1003, d := (byType vS), a := fun _ => recS, b := fun _ => srcS },
  { op := 0x2C1, name := "GTHRS", build := .gthrs, code := .hint, defined := 0x101F, a := fun _ => recS, b := fun _ => srcS, c := fun _ => uniS },
  { op := 0x2C2, name := "REMAP", build := .remap, code := .hint, defined := 3, a := (fun f => if f.bits 0 2 == 2 then recS else uniS), b := (fun f => if f.bits 0 2 == 2 then uniS else unusedS), bad := (fun f => f.bits 0 2 == 3), badType := (fun f => f.bits 0 2 != 2 && f.code != 0) },
  { op := 0x2C3, name := "COPY", build := .copyI, code := .hint, defined := 3, a := copySrcS, b := fun _ => { sS with smax := 123 }, c := (fun f => if f.bits 0 1 == 0 then recS else unusedS), pt := true },
  { op := 0x2C4, name := "COPYM", build := .copym, code := .hint, defined := 0x3F, a := copySrcS, b := fun _ => { sS with smax := 119 }, pt := true, bad := (fun f => f.bits 0 1 == 0 || f.bits 2 4 == 0) }]

/-- The forms of the group at 0x300 (tables Opcode Map and the group's form table). -/
def formsMatrix : List Form := [
  { op := 0x300, name := "CBLOAD", build := .cbload, code := .hint, defined := 0x103F, a := fun _ => recS, b := fun _ => uniS },
  { op := 0x301, name := "MREADY", build := .mready, pt := true },
  { op := 0x302, name := "MMA", build := .mma, d := fun _ => sS, a := fun _ => { sS with smax := 111 } },
  { op := 0x303, name := "MMAS", build := .mmas, defined := 7, d := fun _ => sS, a := fun _ => { sS with smax := 111 }, b := fun _ => { sS with pair := true }, bad := (fun f => 4 ≤ f.bits 0 3) },
  { op := 0x304, name := "MWAIT", build := .mwait, a := fun _ => srcS },
  { op := 0x305, name := "MPOLL", build := .mpoll, d := fun _ => predS, a := fun _ => srcS }]

/-- The forms of the group at 0x340 (tables Opcode Map and the group's form table). -/
def formsSync : List Form := [
  { op := 0x340, name := "FENCE", build := .fence, defined := 7 },
  { op := 0x341, name := "BAR", build := .bar, defined := 0xFF, pt := true, bad := (fun f => 9 ≤ f.bits 4 4) },
  { op := 0x342, name := "BARA", build := .bara, defined := 0xFF, pt := true, bad := (fun f => 9 ≤ f.bits 4 4) },
  { op := 0x343, name := "BARW", build := .barw, defined := 0xF, pt := true },
  { op := 0x344, name := "DRAIN", build := .drain },
  { op := 0x345, name := "FEWAIT", build := .fewait, a := fun _ => srcS },
  { op := 0x346, name := "EVPOST", build := .evpost, a := fun _ => uniS },
  { op := 0x347, name := "EVWAIT", build := .evwait, d := fun _ => { vS with four := true } },
  { op := 0x348, name := "EVPOLL", build := .evpoll, defined := 7, d := fun _ => { vS with four := true } },
  { op := 0x349, name := "LAUNCH", build := .launchI, defined := 1, d := fun _ => dstS, a := fun _ => pairS, b := fun _ => srcS },
  { op := 0x34A, name := "GARM", build := .garm, defined := 1, d := fun _ => dstS, a := fun _ => pairS, b := fun _ => srcS },
  { op := 0x34B, name := "CNTRD", build := .cntrd, defined := 0xF, d := fun _ => dstS, a := (fun f => if f.bits 0 3 == 0 then srcS else unusedS), bad := (fun f => 5 ≤ f.bits 0 3) },
  { op := 0x34C, name := "CANCEL", build := .cancelLevel, defined := 7, d := fun _ => predS, a := (fun f => if f.bits 0 3 == 0 then srcS else unusedS), bad := (fun f => 5 ≤ f.bits 0 3) }]

/-- The forms of the group at 0x380 (tables Opcode Map and the group's form table). -/
def formsSystem : List Form := [
  { op := 0x380, name := "LBLRD", build := .lblrd, defined := 3, d := fun _ => dstS, a := lblSrcS, b := (fun f => if f.bits 0 2 == 2 then srcS else unusedS) },
  { op := 0x381, name := "LBLTST", build := .lbltst, defined := 1, d := fun _ => predS, a := (fun f => if f.bit 0 then unusedS else dstS), b := fun _ => srcS },
  { op := 0x382, name := "EGRESS", build := .egress, defined := 0x3F, d := fun _ => vS, a := fun _ => recS, b := fun _ => srcS, c := fun _ => srcS },
  { op := 0x383, name := "RGN", build := .rgn, pt := true },
  { op := 0x384, name := "RGNE", build := .rgne, pt := true },
  { op := 0x385, name := "SFQPOP", build := .sfqpop, defined := 7, d := fun _ => { sS with smax := 118 } },
  { op := 0x386, name := "RFT", build := .rft, pt := true },
  { op := 0x387, name := "TERM.G", build := .termG },
  { op := 0x388, name := "TERM.U", build := .termU },
  { op := 0x389, name := "HALT", build := .halt, defined := 0x1FFF }]

/-- The whole table Opcode Map: 187 forms (R99). -/
def forms : List Form :=
  formsControl ++ formsInteger ++ formsMove ++ formsCollective ++ formsFloat ++ formsPacked ++ formsConvert ++ formsVariant ++ formsMemory ++ formsRecord ++ formsAtomic ++ formsGather ++ formsMatrix ++ formsSync ++ formsSystem

/-- The opcode of a program instruction (table Opcode Map); 0, which is unassigned, for every other row. -/
def opcodeOf : Instr → Nat
  | .queryState _ => 0
  | .replay _ => 0
  | .loadObject _ => 0
  | .unloadObject _ => 0
  | .jobOpen _ => 0
  | .jobClose _ => 0
  | .phaseNext _ => 0
  | .saveArea _ => 0
  | .resumeJob _ => 0
  | .submit _ => 0
  | .cancelCmd _ => 0
  | .queueConfig _ => 0
  | .memWrite _ => 0
  | .memRead _ => 0
  | .statusWindowRead _ => 0
  | .endpointEnable _ => 0
  | .endpointDisable => 0
  | .shortMessage _ => 0
  | .createPart => 0
  | .destroyPart => 0
  | .assignCopy => 0
  | .bindEndpoint => 0
  | .stackClear => 0
  | .bindSlot _ => 0
  | .peer _ => 0
  | .policy _ => 0
  | .revoke _ => 0
  | .teaselTableRead _ => 0
  | .policyPeriod => 0
  | .powerUpReset => 0
  | .replacementImage _ => 0
  | .configurationRecord _ => 0
  | .nonce _ => 0
  | .attestationReport _ => 0
  | .bootStatus _ => 0
  | .ringTailCheck _ => 0
  | .mapPages _ => 0
  | .unmapPages _ => 0
  | .protect _ => 0
  | .evict _ => 0
  | .evictHeldPerform => 0
  | .shootDown => 0
  | .migrationNoticeResend => 0
  | .launchEntryStart _ _ => 0
  | .graphEntryArm _ _ => 0
  | .graphNodeStart => 0
  | .copyEntry _ _ => 0
  | .waitEntry => 0
  | .unitDispatch => 0
  | .fusionChange => 0
  | .unitEnd => 0
  | .levelCompletion => 0
  | .budgetRefill => 0
  | .borrow => 0
  | .bindRecordWrite _ _ _ => 0
  | .leaseLengthWrite _ _ => 0
  | .voteWrite _ _ => 0
  | .domainGate _ => 0
  | .domainUngate _ => 0
  | .registerWrite _ => 0
  | .aging => 0
  | .glasonSwap => 0
  | .glasonPendingAging => 0
  | .threadUnblock _ => 0
  | .skidLimit => 0
  | .barrierPhaseComplete => 0
  | .regionOpen => 0
  | .regionCommit => 0
  | .loadWriteback _ _ => 0
  | .writePerform _ _ => 0
  | .atomicPerform _ _ => 0
  | .heldAccessReplay => 0
  | .exactPathWriteback _ => 0
  | .eventThresholdNotice => 0
  | .remoteAccessIn _ => 0
  | .unitCommandStart => 0
  | .copyEngineAccept => 0
  | .copyChunk _ _ _ => 0
  | .copyResume => 0
  | .copyComplete => 0
  | .mmaChunkGrant _ => 0
  | .mmaComplete => 0
  | .gthrsLineFill _ _ => 0
  | .remapTableWrite _ _ => 0
  | .codebookSlotWrite _ _ => 0
  | .variantTableRead _ _ => 0
  | .quiescence _ => 0
  | .regionAbort => 0
  | .regionRestart => 0
  | .railHoldExpiry => 0
  | .railReady => 0
  | .passCountRaise _ => 0
  | .passCountLower _ => 0
  | .loadRecordUpdate => 0
  | .fadeStart => 0
  | .fadeEnd => 0
  | .reconfigure _ => 0
  | .bra _ => 0x001
  | .brx _ => 0x002
  | .call _ => 0x003
  | .callx _ => 0x004
  | .ret _ => 0x005
  | .exitI _ => 0x006
  | .yieldI _ => 0x007
  | .nop _ => 0x008
  | .setpri _ => 0x009
  | .bpt _ => 0x00A
  | .trapI _ => 0x00B
  | .iadd _ => 0x040
  | .isub _ => 0x041
  | .iaddc _ => 0x042
  | .isubc _ => 0x043
  | .imul _ => 0x044
  | .imulh _ => 0x045
  | .imad _ => 0x046
  | .imin _ => 0x047
  | .imax _ => 0x048
  | .iabs _ => 0x049
  | .band _ => 0x04A
  | .bor _ => 0x04B
  | .bxor _ => 0x04C
  | .bnot _ => 0x04D
  | .logt _ => 0x04E
  | .shl _ => 0x04F
  | .shr _ => 0x050
  | .sar _ => 0x051
  | .dsh _ => 0x052
  | .bfe _ => 0x053
  | .bfi _ => 0x054
  | .maskB _ => 0x055
  | .popc _ => 0x056
  | .clz _ => 0x057
  | .brev _ => 0x058
  | .bswz _ => 0x059
  | .bdot _ => 0x05A
  | .bsad _ => 0x05B
  | .isetp _ => 0x05C
  | .sel _ => 0x05D
  | .lea _ => 0x05E
  | .mov _ => 0x080
  | .movh _ => 0x081
  | .addi _ => 0x082
  | .movx _ => 0x083
  | .pand _ => 0x084
  | .por _ => 0x085
  | .pxor _ => 0x086
  | .pnot _ => 0x087
  | .p2v _ => 0x088
  | .v2p _ => 0x089
  | .rdlane _ => 0x08A
  | .srd _ => 0x08B
  | .swr _ => 0x08C
  | .setmode _ => 0x08D
  | .partW _ => 0x08E
  | .shflIdx _ => 0x0C0
  | .shflRot _ => 0x0C1
  | .shflXor _ => 0x0C2
  | .shflRev _ => 0x0C3
  | .voteAll _ => 0x0C4
  | .voteAny _ => 0x0C5
  | .voteBallot _ => 0x0C6
  | .redgAdd _ => 0x0C7
  | .redgMin _ => 0x0C8
  | .redgMax _ => 0x0C9
  | .scang _ => 0x0CA
  | .matchG _ => 0x0CB
  | .elect _ => 0x0CC
  | .fadd _ => 0x100
  | .fsub _ => 0x101
  | .fmul _ => 0x102
  | .ffma _ => 0x103
  | .fmin _ => 0x104
  | .fmax _ => 0x105
  | .fneg _ => 0x106
  | .fabs _ => 0x107
  | .fscale _ => 0x108
  | .fsetp _ => 0x109
  | .fclass _ => 0x10A
  | .frnd _ => 0x10B
  | .hfma2 _ => 0x140
  | .hadd2 _ => 0x141
  | .hsub2 _ => 0x142
  | .hmul2 _ => 0x143
  | .hmin2 _ => 0x144
  | .hmax2 _ => 0x145
  | .hneg2 _ => 0x146
  | .habs2 _ => 0x147
  | .hsetp2 _ => 0x148
  | .cvt _ => 0x180
  | .pack2 _ => 0x181
  | .rcp _ => 0x182
  | .rsq _ => 0x183
  | .sqrt _ => 0x184
  | .exp2 _ => 0x185
  | .log2 _ => 0x186
  | .sin _ => 0x187
  | .cos _ => 0x188
  | .tanh _ => 0x189
  | .callv _ => 0x1C0
  | .retv _ => 0x1C1
  | .bset _ => 0x1C2
  | .bget _ => 0x1C3
  | .bsplit _ => 0x1C4
  | .meter _ => 0x1C5
  | .ld _ => 0x200
  | .st _ => 0x201
  | .ldx _ => 0x202
  | .stx _ => 0x203
  | .erase _ => 0x204
  | .exq _ => 0x205
  | .pref _ => 0x206
  | .brmake _ => 0x240
  | .brset _ => 0x241
  | .brget _ => 0x242
  | .atomAdd _ => 0x280
  | .atomMin _ => 0x281
  | .atomMax _ => 0x282
  | .atomAnd _ => 0x283
  | .atomOr _ => 0x284
  | .atomXor _ => 0x285
  | .atomExch _ => 0x286
  | .atomCas _ => 0x287
  | .atomFadd _ => 0x288
  | .redAdd _ => 0x289
  | .redMin _ => 0x28A
  | .redMax _ => 0x28B
  | .redAnd _ => 0x28C
  | .redOr _ => 0x28D
  | .redXor _ => 0x28E
  | .redFadd _ => 0x28F
  | .atomsAdd _ => 0x290
  | .atomsMin _ => 0x291
  | .atomsMax _ => 0x292
  | .atomsAnd _ => 0x293
  | .atomsOr _ => 0x294
  | .atomsXor _ => 0x295
  | .atomsExch _ => 0x296
  | .atomsCas _ => 0x297
  | .atomsFadd _ => 0x298
  | .redsAdd _ => 0x299
  | .redsMin _ => 0x29A
  | .redsMax _ => 0x29B
  | .redsAnd _ => 0x29C
  | .redsOr _ => 0x29D
  | .redsXor _ => 0x29E
  | .redsFadd _ => 0x29F
  | .lds _ => 0x2A0
  | .sts _ => 0x2A1
  | .sfill _ => 0x2A2
  | .sempty _ => 0x2A3
  | .gthr _ => 0x2C0
  | .gthrs _ => 0x2C1
  | .remap _ => 0x2C2
  | .copyI _ => 0x2C3
  | .copym _ => 0x2C4
  | .cbload _ => 0x300
  | .mready _ => 0x301
  | .mma _ => 0x302
  | .mmas _ => 0x303
  | .mwait _ => 0x304
  | .mpoll _ => 0x305
  | .fence _ => 0x340
  | .bar _ => 0x341
  | .bara _ => 0x342
  | .barw _ => 0x343
  | .drain _ => 0x344
  | .fewait _ => 0x345
  | .evpost _ => 0x346
  | .evwait _ => 0x347
  | .evpoll _ => 0x348
  | .launchI _ => 0x349
  | .garm _ => 0x34A
  | .cntrd _ => 0x34B
  | .cancelLevel _ => 0x34C
  | .lblrd _ => 0x380
  | .lbltst _ => 0x381
  | .egress _ => 0x382
  | .rgn _ => 0x383
  | .rgne _ => 0x384
  | .sfqpop _ => 0x385
  | .rft _ => 0x386
  | .termG _ => 0x387
  | .termU _ => 0x388
  | .halt _ => 0x389

/-! The decode tests (table Decode Fates). Each answers true when the test fails. -/

/-- An operand's class or class-10 kind is permitted by the slot (test 5, R82, R89). An unused field must be zero. -/
def Slot.permits (x : Slot) : Opnd → Bool
  | .v n => x.v || (x.vz && n == 255) || (x.late && n != 255) || (n == 0 && !(x.v || x.vz || x.s || x.imm || x.record || x.pred || x.special))
  | .s n => x.s && n.toNat ≤ x.smax
  | .imm _ => x.imm
  | .k n =>
    match kind10 n.toNat with
    | .record => x.record
    | .pred => x.pred && (x.pt || n != 71)
    | .special => x.special
    | .unassigned => (x.record || x.pred || x.special) && !x.exist

/-- The slot is one that an entry leaves unused. -/
def Slot.isUnused (x : Slot) : Bool := !(x.v || x.vz || x.s || x.imm || x.record || x.pred || x.special)

/-- An operand's index is unassigned under a register count (test 6, R82 to R84, R348). -/
def Slot.badIndex (x : Slot) (rc : Nat) : Opnd → Bool
  | .v n =>
    let i := n.toNat
    !x.isUnused && !x.late && ((i != 255 && rc ≤ i) ||
      (x.pair && i % 2 == 0 && i + 1 < 255 && rc ≤ i + 1) || (x.four && (rc ≤ i + 3 || 254 < i + 3)))
  | .s n => 128 ≤ n.toNat
  | .imm _ => false
  | .k n => kind10 n.toNat == .unassigned

/-- An operand names no pair where one is required (test 7, R84). -/
def Slot.badPair (x : Slot) : Opnd → Bool
  | .v n => x.pair && !x.late && n != 255 && (n.toNat % 2 == 1 || n == 254)
  | .s n => x.pair && n != 127 && (n.toNat % 2 == 1 || n == 126)
  | _ => false

/-- An empty action stands on a source it cannot govern (test 8, R92). -/
def Slot.badEmpty (x : Slot) (e : Bool) : Opnd → Bool
  | .v n => e && (x.isUnused || n == 255)
  | _ => e

/-- A used source that reads a per-thread register other than vz (R85). -/
def Slot.perThread (x : Slot) : Opnd → Bool
  | .v n => !x.isUnused && n != 255
  | _ => false

/-- The operand is a class-10 index of kind record. -/
def Opnd.isRecord : Opnd → Bool
  | .k n => n.toNat < 32
  | _ => false

/-- A destination that is written once for a gang: a gang-uniform register or a buffer record (R85). -/
def Opnd.uniform : Opnd → Bool
  | .s _ => true
  | o => o.isRecord

/-- Special registers that a gang-uniform destination may receive (R158). -/
def specialUniform (n : Nat) : Bool :=
  (129 ≤ n && n ≤ 137) || (144 ≤ n && n ≤ 147) || n == 153 || n == 160 || n == 161

/-- Special registers that SWR may write (R87). -/
def specialWritable (n : Nat) : Bool := n == 225 || n == 226

/-- Test 3: a reserved hint bit, MOVX [38:35], or a modifier bit that the entry does not define. -/
def Form.test3 (x : Form) (f : Fields) : Bool :=
  x.bad f ||
  match x.layout with
  | .imm20 => false
  | .imm16 => 2 ^ 16 ≤ f.mod.toNat
  | _ => f.low &&& x.defined != f.low

/-- Test 4: a type code, or a rounding or cache-hint code, that is illegal or not permitted. -/
def Form.test4 (x : Form) (f : Fields) : Bool :=
  match x.layout with
  | .imm20 | .imm16 => false
  | _ =>
    x.badType f || !(x.types.contains f.ty.code) ||
    match x.code with
    | .plain => f.code != 0
    | .round => 4 < f.code
    | .roundF32 => if f.ty == .f32 then 4 < f.code else f.code != 0
    | .hint => 5 < f.code

/-- Test 5: an operand class or kind that the field does not permit, or a nonzero unused field. -/
def Form.test5 (x : Form) (f : Fields) : Bool :=
  !((x.d f).permits f.d && (x.a f).permits f.a && (x.b f).permits f.b && (x.c f).permits f.c)

/-- Test 6: an operand index unassigned in its class. -/
def Form.test6 (x : Form) (rc : Nat) (f : Fields) : Bool :=
  (x.d f).badIndex rc f.d || (x.a f).badIndex rc f.a || (x.b f).badIndex rc f.b || (x.c f).badIndex rc f.c

/-- Test 7: an odd index, v254 or s126 where a register pair is required. -/
def Form.test7 (x : Form) (f : Fields) : Bool :=
  (x.d f).badPair f.d || (x.a f).badPair f.a || (x.b f).badPair f.b || (x.c f).badPair f.c

/-- Test 8: an empty-action bit on a source it cannot govern. -/
def Form.test8 (x : Form) (f : Fields) : Bool :=
  (x.a f).badEmpty f.ea f.a || (x.b f).badEmpty f.eb f.b || (x.c f).badEmpty f.ec f.c

/-- Test 9: a gang-uniform destination with a per-thread source (R85), or b0 or b1 as destination (R86). -/
def Form.test9 (x : Form) (f : Fields) : Bool :=
  f.d == .k 0 || f.d == .k 1 ||
    (f.d.uniform && ((x.a f).perThread f.a || (x.b f).perThread f.b || (x.c f).perThread f.c))

/-- Test 10: a special register access not permitted (R87, R158). The part that depends on whether the thread runs a handler
is taken by SRD and SWR themselves. -/
def Form.test10 (x : Form) (f : Fields) : Bool :=
  match x.name with
  | "SRD" =>
    match f.d, f.a with
    | .s _, .k n => !specialUniform n.toNat
    | _, _ => false
  | "SWR" =>
    match f.d with
    | .k n => !specialWritable n.toNat
    | _ => false
  | _ => false

/-- Test 11: a guard other than pt where R91 requires it. -/
def Form.test11 (x : Form) (f : Fields) : Bool := x.pt && f.guard4 != 7

/-- Tests 3 to 11 in row order: the reason of the first that fails (table Decode Fates). -/
def Form.reason (x : Form) (rc : Nat) (f : Fields) : Option Nat :=
  if x.test3 f then some 2
  else if x.test4 f then some 3
  else if x.test5 f then some 4
  else if x.test6 rc f then some 5
  else if x.test7 f then some 6
  else if x.test8 f then some 7
  else if x.test9 f then some 8
  else if x.test10 f then some 9
  else if x.test11 f then some 10
  else none

/-- The form of an opcode; none where the table Opcode Map leaves it unassigned. -/
def formOf (op : Nat) : Option Form := forms.find? (fun x => x.op == op)

/-! Words and fields. -/

/-- Bits [hi:lo] of a word, as a number. -/
def IWord.field (w : IWord) (lo len : Nat) : Nat := w.toNat / 2 ^ lo % 2 ^ len

/-- The operand of a ten-bit field (R82). -/
def Opnd.ofBits (x : Nat) : Opnd :=
  let i : BitVec 8 := BitVec.ofNat 8 (x % 256)
  match x / 256 % 4 with
  | 0 => .v i
  | 1 => .s i
  | 2 => .k i
  | _ => .imm i

/-- The ten-bit field of an operand (R82). -/
def Opnd.toBits : Opnd → Nat
  | .v n => n.toNat
  | .s n => 256 + n.toNat
  | .k n => 512 + n.toNat
  | .imm n => 768 + n.toNat

/-- The fields of a word (table Instruction Word). -/
def Fields.ofWord (w : IWord) : Fields where
  neg := w.field 85 1 == 1
  gp := BitVec.ofNat 3 (w.field 82 3)
  d := Opnd.ofBits (w.field 72 10)
  a := Opnd.ofBits (w.field 62 10)
  b := Opnd.ofBits (w.field 52 10)
  c := Opnd.ofBits (w.field 42 10)
  ea := w.field 41 1 == 1
  eb := w.field 40 1 == 1
  ec := w.field 39 1 == 1
  mod := BitVec.ofNat 20 (w.field 19 20)
  stall := BitVec.ofNat 4 (w.field 15 4)
  yld := w.field 14 1 == 1
  reuse := BitVec.ofNat 3 (w.field 11 3)

/-- The check field is the XOR of the word's five-bit groups from bit 5 upwards (R77, R78). -/
def checkOf (n : Nat) : Nat :=
  (List.range 19).foldl (fun acc k => acc ^^^ (n / 2 ^ (5 * (k + 1)) % 32)) 0

/-- The word passes the check of R78. -/
def IWord.checkOk (w : IWord) : Bool := checkOf w.toNat == w.toNat % 32

/-- A word without its check field, as a number: the fields at their places (table Instruction Word). -/
def assemble (op : Nat) (f : Fields) : Nat :=
  (f.reuse.toNat) * 2 ^ 11 + (if f.yld then 2 ^ 14 else 0) + f.stall.toNat * 2 ^ 15 + f.mod.toNat * 2 ^ 19 +
  (if f.ec then 2 ^ 39 else 0) + (if f.eb then 2 ^ 40 else 0) + (if f.ea then 2 ^ 41 else 0) +
  f.c.toBits * 2 ^ 42 + f.b.toBits * 2 ^ 52 + f.a.toBits * 2 ^ 62 + f.d.toBits * 2 ^ 72 +
  f.gp.toNat * 2 ^ 82 + (if f.neg then 2 ^ 85 else 0) + op * 2 ^ 86

/-- A word with its check field (R29, R78). -/
def withCheck (n : Nat) : IWord := BitVec.ofNat 96 (n / 32 * 32 + checkOf n)

/-- Why a word is no instruction (table Decode Fates). -/
inductive Reject where
  /-- test 1: the check does not match (R79). -/
  | check
  /-- tests 2 to 11, with the reason that trapinfo receives. -/
  | illegal (reason : Nat)
  deriving DecidableEq, Repr

/-- The decoder: the tests of R98 in row order under the launch's register count, then the instruction. -/
def decodeWord (rc : Nat) (w : IWord) : Except Reject Instr :=
  if !w.checkOk then .error .check
  else
    match formOf (w.field 86 10) with
    | none => .error (.illegal 1)
    | some x =>
      let f := Fields.ofWord w
      if w.field 5 6 != 0 then .error (.illegal 2)
      else
        match x.reason rc f with
        | some r => .error (.illegal r)
        | none => .ok (x.build f)

/-- The encoder: the word of a program instruction (R77, R78); none for a row that is no program instruction. -/
def encode (i : Instr) : Option IWord :=
  i.fields.map (fun f => withCheck (assemble (opcodeOf i) f))

/-- A number from bytes, the first the least significant (R2). -/
def leNat : List Byte → Nat
  | [] => 0
  | b :: bs => b.toNat + 256 * leNat bs

/-- A number as n bytes, the least significant first (R2). -/
def leBytes : Nat → Nat → List Byte
  | 0, _ => []
  | n + 1, x => BitVec.ofNat 8 (x % 256) :: leBytes n (x / 256)

/-- The decoder on the bytes at an address: the first twelve are the word, the lowest address holding bits [7:0] (R2). -/
def decodeBytes (rc : Nat) (bs : List Byte) : Except Reject Instr :=
  decodeWord rc (BitVec.ofNat 96 (leNat (bs.take 12)))

/-- The bytes of a word as they stand in memory (R2). -/
def wordBytes (w : IWord) : List Byte := leBytes 12 w.toNat

/-- The instruction that the decoder reads from a row's word, bit 0 its least significant; the bits above `nbits` are zero. The
register count is the greatest that a launch may have (R20). -/
def decodeTableWord (nbits w : Nat) : Option Instr :=
  match decodeBytes 255 (leBytes 12 (w % 2 ^ nbits)) with
  | .ok i => some i
  | .error _ => none

/-! The encoding table and the command decoder. -/

/-- The layout code of an opcode's record in the encoding table (R101). -/
def Layout.tableCode : Layout → Nat
  | .mod20 => 0 | .imm20 => 1 | .imm12 => 2 | .imm16 => 3

/-- The 16-byte record of an opcode in the encoding table (R101). -/
def tableRecord (op : Nat) : List Byte :=
  match formOf op with
  | none => leBytes 2 op ++ [255] ++ List.replicate 13 0
  | some x =>
    let nm : List Byte := x.name.toList.map (fun c => BitVec.ofNat 8 c.toNat)
    leBytes 2 op ++ [BitVec.ofNat 8 x.layout.tableCode, if x.pt then 1 else 0] ++ (nm ++ List.replicate 12 0).take 12

/-- The encoding table of 16,384 bytes whose SHAKE256 digest gives ENCHASH (R101). -/
def encodingTable : List Byte := (List.range 1024).flatMap tableRecord

/-- Bytes [at, at + n) of a message as a number (R37). -/
def Message.num (m : Message) (at' n : Nat) : Nat := leNat ((m.data.drop at').take n)

/-- The row of a message at a command or the management endpoint (table Commands, R41, R284, R442 to R446); none for an opcode
that the table does not list. A MEM_READ with bit 62 set and bit 63 clear reads the status window. At the management endpoint
MEM_WRITE and MEM_READ name windows by the kind in address bits [7:0]. -/
def decodeMessage (m : Message) : Option Instr :=
  if m.data.length < 32 || m.data.length != 32 + m.num 8 4 then some (.shortMessage m)
  else
    let a := m.num 32 8
    match m.num 0 2 with
    | 0x0001 => some (.queryState m)
    | 0x0002 => some (.replay m)
    | 0x0010 => some (.loadObject m)
    | 0x0011 => some (.unloadObject m)
    | 0x0020 => some (.jobOpen m)
    | 0x0021 => some (.jobClose m)
    | 0x0022 => some (.phaseNext m)
    | 0x0023 => some (.saveArea m)
    | 0x0024 => some (.resumeJob m)
    | 0x0030 => some (.submit m)
    | 0x0031 => some (.cancelCmd m)
    | 0x0032 => some (.queueConfig m)
    | 0x0040 =>
      if m.ep == 64 then
        match a % 256 with
        | 1 => some (.bindSlot m)
        | 2 => some (.peer m)
        | 3 => some (.policy m)
        | 4 => some (.revoke m)
        | 0x21 => some (.replacementImage m)
        | 0x22 => some (.nonce m)
        | 0x23 => some (.configurationRecord m)
        | _ => some (.memWrite m)
      else some (.memWrite m)
    | 0x0041 =>
      if m.ep == 64 then
        if 1 ≤ a % 256 && a % 256 ≤ 4 then some (.teaselTableRead m)
        else if a % 256 == 0x20 then some (.bootStatus m)
        else if a % 256 == 0x22 then some (.attestationReport m)
        else some (.memRead m)
      else if a / 2 ^ 62 == 1 then some (.statusWindowRead m)
      else some (.memRead m)
    | 0x0060 => some (.reconfigure m)
    | 0x0061 => some (.endpointEnable m)
    | _ => none

end Sys2Proof
end

