-- ==== Sys2Proof/Config.lean ====
section
/-! DEFINITION. What the stepping fixes, and the free values: opaque constants that nothing can evaluate. -/

namespace Sys2Proof

/-- What a configuration record holds (R444): the bytes that its signature covers, and the signature. -/
structure ConfigRecord where
  identity : List Byte
  serial : Nat
  /-- the fabric addresses of endpoints 0 to 63 and of the management endpoint. -/
  addresses : List (BitVec 128)
  device : Nat
  signed : List Byte
  signature : List Byte
  deriving DecidableEq, Repr

namespace Config

/-- ENCHASH of stepping E (R101): SHAKE256 of the encoding table of Decode.lean; log 8. -/
def encHash : BitVec 64 := 0xdb870ad058b165ff#64

/-- Free: the energy of each lane pass of a core in a clk, in 1/65,536 of 1/256 nJ (R219): the boot, the core and the start of the
clk; log 4. -/
opaque freeEnergy : Nat → Nat → Nat → Nat

/-- Free: the energy of a matrix operation, in the same unit (R219); log 4. -/
opaque freeMmaEnergy : Nat → Nat

/-- Free: the fast-path result of a special function on an input (R186), before the bound is applied: function 0 to 7 in the
order RCP, RSQ, SQRT, EXP2, LOG2, SIN, COS, TANH; format code; input bits; log 4. -/
opaque freeFast : Nat → Nat → Nat → Nat

/-- Free: byte k of the image that save number n leaves in a save area, whose layout belongs to the device (R412); log 14. -/
opaque saveByte : Nat → Nat → Byte

/-- Free: the word that CNTRD writes where 2^32 children or more have not completed, which no rule states (R388); log 4. -/
opaque freeCount : Nat → BitVec 32

/-- Free: whose result a gang-uniform register takes where the threads that write it once for their gang differ, as they may by a
predicate source; no rule says (R85); log 4. -/
opaque freeLane : Nat → Nat

/-- Free: whether a Falcon-1024 signature verifies (public key, digest, signature) (R284, R442, R444); log 6. -/
opaque falconVerify : List Byte → List Byte → List Byte → Bool

/-- Free: the Falcon-1024 signature under the device's identity key (seed, digest) (R445); log 6. -/
opaque falconSign : List Byte → List Byte → List Byte

/-- Free: the Falcon-1024 public key of a seed (R443); log 6. -/
opaque falconPublic : List Byte → List Byte

/-- Free: the corrected response of the physically unclonable function, the same at every boot, and whether the helper data corrects it at
a boot (R443); log 6. -/
opaque pufResponse : List Byte
opaque pufCorrects : Nat → Bool

/-- Free: the Amiell key held in the boot ROM (R442); log 6. -/
opaque amiellKey : List Byte

/-- Free: the operator key that a configuration record is verified under, whose digest was fused at provisioning (R444);
log 6. -/
opaque operatorKey : List Byte

/-- Free: how an image in flash divides into its body and its signature, which no rule lays out (R442); log 6. -/
opaque imageParts : List Byte → List Byte × List Byte

/-- Free: what a configuration record's bytes hold, none for a malformed record; no rule lays it out (R444); log 6. -/
opaque configRecord : List Byte → Option ConfigRecord

/-- Free: the layout in which Teasel returns its slot, peer and policy tables, from the kind and the table's fields, which no rule
gives (R284); log 6. -/
opaque tableLayout : Nat → List Byte → List Byte

/-- Free: the fused fabric address of the management endpoint (R442); log 6. -/
opaque fusedAddress : BitVec 128

/-- Free: what another device answers to a remote access: none for an error response or an absent member, else the bytes of a
load or the old value of an atomic (R433, R434); log 10. -/
opaque remoteAnswer : Nat → Option (List Byte)

/-- Free: how long after the answer to a remote access its completion time lies, on the local time base (R354, R358); log 10. -/
opaque remoteLag : Nat → Nat

/-- Free: the fabric address of a member device of the load-store domain (R281, R432); log 10. -/
opaque memberAddress : Nat → BitVec 128

end Config

end Sys2Proof
end

