-- ==== Sys2Proof/Machine/Tab.lean ====
section
/-! DEFINITION. Tables: lists of key and value pairs with strictly rising keys. -/

namespace Sys2Proof.Machine

/-- A table by natural-number key, the keys strictly rising. -/
abbrev Tab (α : Type) := List (Nat × α)

/-- The value at a key. It looks past every other key, so that it needs no order of the keys. -/
def tabGet {α : Type} : Tab α → Nat → Option α
  | [], _ => none
  | (k, v) :: t, i => if i = k then some v else tabGet t i

/-- The table with a value put at a key. -/
def tabPut {α : Type} : Tab α → Nat → α → Tab α
  | [], i, x => [(i, x)]
  | (k, v) :: t, i, x =>
    if i < k then (i, x) :: (k, v) :: t else if i = k then (i, x) :: t else (k, v) :: tabPut t i x

/-- The table without a key. -/
def tabDel {α : Type} : Tab α → Nat → Tab α
  | [], _ => []
  | (k, v) :: t, i => if i = k then tabDel t i else (k, v) :: tabDel t i

/-- The value at a key, `d` where the table lists none. -/
def tabGetD {α : Type} (d : α) (t : Tab α) (i : Nat) : α := (tabGet t i).getD d

/-- The table with a value at a key, in the canonical form that lists no entry equal to `d`. -/
def tabSetD {α : Type} [DecidableEq α] (d : α) (t : Tab α) (i : Nat) (x : α) : Tab α :=
  if x = d then tabDel t i else tabPut t i x

/-- The table with the value at a key changed where there is one. -/
def tabMod {α : Type} (t : Tab α) (i : Nat) (g : α → α) : Tab α :=
  match tabGet t i with
  | some x => tabPut t i (g x)
  | none => t

/-- Every value of the table changed. -/
def tabMap {α β : Type} (g : α → β) (t : Tab α) : Tab β := t.map (fun e => (e.1, g e.2))

/-- The keys strictly rise, all above `lo` where it is given. -/
def tabRising {α : Type} : Option Nat → Tab α → Bool
  | _, [] => true
  | lo, (k, _) :: t => (match lo with | none => true | some l => l < k) && tabRising (some k) t

/-- The canonical form of a table with an unlisted value: rising keys, and no entry equal to it. -/
def tabWf {α : Type} [DecidableEq α] (d : α) (t : Tab α) : Bool :=
  tabRising none t && t.all (fun e => e.2 != d)

end Sys2Proof.Machine
end

