-- ==== Sys2Proof/Machine/State.lean ====
section
/-! DEFINITION. The state of the machine: everything that INVENTORY.md lists under State, as plain data, and State.reset. -/

namespace Sys2Proof.Machine

/-- Memory bytes by physical address in canonical form; an unlisted address reads 0 (log 1). -/
abbrev Memory := List Host.Cell

/-- Why a step stops. -/
inductive Fault where
  /-- A leaf names a physical address past the stacks of its partition (R61): raised by the events that land an access
  and by an instruction fetch. Safe: the machine stops where the partition has no memory. -/
  | noSuchMemory
  deriving DecidableEq, Repr

/-- Why a row has no meaning. -/
inductive Refusal where
  /-- The instruction is not modelled; raised by Dispatch.lean alone. Safe: nothing can be proved of its effect. -/
  | notModelled (mnemonic : String)
  deriving DecidableEq, Repr

/-! Threads, gangs, units. -/

/-- Why a thread is blocked (R115). The thread issues its instruction again when the condition clears, except where its effect
has already happened and its pc already advanced. -/
inductive Why where
  /-- register r is empty or lent (R124, R327). -/
  | reg (r : Nat)
  /-- register r of lane l of the same gang is empty (R157). -/
  | lane (l r : Nat)
  /-- predicate n is pending (R292). -/
  | pred (n : Nat)
  /-- a collective holds the thread until the lanes of its member set have arrived: those of its mask operand, or of every launched lane
  without one, in its tile (R120, R163). -/
  | member (mask : Option Opnd)
  /-- a barrier or another operation of the gang holds the thread until every launched lane has arrived (R336, R378, R417). -/
  | held
  /-- what the issue group with this serial number waits for has not landed (R208, R225, R293, R302, R332, R340, R384). -/
  | landing (group : Nat)
  /-- what another issue group waits for, a table or a slot, has not landed (R175, R332). -/
  | behind (group : Nat)
  /-- own writes are not yet performed, recorded or refused (R136, R381, R417). -/
  | writes
  /-- a fence of this scope waits (R359). -/
  | fence (scope : Nat)
  /-- a FENCE of this scope, or a DRAIN as scope 0, waits for the threads of its gang that issued it in this group (R376, R381). -/
  | together (scope group : Nat)
  /-- phase p of barrier k is open (R378). -/
  | barrier (k p : Nat)
  /-- the m-th MREADY of the gang is not complete (R344). -/
  | mready (m : Nat)
  /-- more than c copy commands are incomplete (R382). -/
  | copies (c : Nat)
  /-- another context owns a remap state of the unit's cores (R315). -/
  | owner
  /-- the gang's n-th copy command would be a ninth command of its unit that has not started (R318). -/
  | commands (n : Nat)
  /-- a receiver of the gang's n-th copy command has no free slot (R322). -/
  | slots (n : Nat) (receivers : List Nat)
  /-- the reservation table is full (R324). -/
  | entry
  /-- the event queue is full (R347). -/
  | queue
  /-- the child table is full (R383). -/
  | child
  /-- the operation of a ticket is outstanding (R343). -/
  | ticket (x : Word)
  /-- the event queue holds no record (R347). -/
  | event
  /-- the region has not opened or committed (R417). -/
  | region
  /-- the store-fault record queue is full (R400). -/
  | sfq
  /-- the skid limit of R402. -/
  | skid
  /-- the fetch of its instruction is held on a not-present page (R80, R408). -/
  | fetch
  deriving DecidableEq, Repr

/-- A thread's state beside the in-trap flag (table Thread States). -/
inductive Sched where
  | ready
  | blocked (w : Why)
  | exited
  deriving DecidableEq, Repr

/-- A variant frame (R214). `issued` is the time of the CALLV, moved on by the time for which the thread's context is saved
(R218). -/
structure Frame where
  ret : Pc
  entry : Nat
  index : Nat
  issued : Nat
  energy : Nat
  bt : Word
  be : Word
  bq : Word
  disturbed : Bool
  deriving DecidableEq, Repr

/-- What a thread's issue must still see of the state before the present clk (R123, R125, R157): the start of that clk, the own class
before it, registers written in it with their values before, and registers that became full in it. -/
structure Before where
  clk : Nat := 0
  cls : Option Nat := none
  regs : List (Nat × Word) := []
  filled : List Nat := []
  deriving DecidableEq, Repr

/-- A thread (R110, R412). Thread numbers are 32 × gang number + lane. -/
structure Thread where
  pc : Pc := 0
  sched : Sched := .ready
  inTrap : Bool := false
  /-- v0 to v254, unlisted 0 (R114). -/
  regs : Tab Word := []
  /-- registers that are empty (R123). -/
  empty : Tab Bool := []
  /-- p0 to p6. -/
  preds : BitVec 8 := 0
  /-- pending predicates (R292). -/
  pend : BitVec 8 := 0
  /-- the shadow that a trap entry makes of p0 to p6 and of their labels (R405). -/
  shadow : BitVec 8 := 0
  shadowLabels : Tab Label := []
  trapkind : Word := 0
  trappc : Pc := 0
  trapinfo : Word := 0
  mode : Word := 0
  cls : Nat := 0
  bt : Word := 0xFFFFFFFF#32
  be : Word := 0xFFFFFFFF#32
  bq : Word := 0
  /-- pending shares st and se (R213). -/
  shareT : Option Word := none
  shareE : Option Word := none
  /-- open variant frames, the innermost first. -/
  frames : List Frame := []
  /-- energy meter, and the marks of the first issue (R219, R227). -/
  energy : Nat := 0
  started : Option (Nat × Nat) := none
  /-- the high half that an SRD of clklo (144) or timelo (146) captured (R158). -/
  highShadow : Option (Nat × Word) := none
  /-- race interval number and published numbers p[2] to p[8] (R371). -/
  interval : Nat := 0
  published : Tab Nat := []
  /-- the time since which the thread is ready, the serial number of its last issue, and the earliest next issue (R97, R115, R117,
  R118, R127). -/
  readySince : Nat := 0
  lastIssue : Nat := 0
  stallUntil : Nat := 0
  /-- how often the thread has issued or left the ready state; and the threads that its yield waits for, with their counts at the
  yield (R97). -/
  turns : Nat := 0
  yieldFor : List (Nat × Nat) := []
  before : Before := {}
  aged : Bool := false
  overflowed : Bool := false
  /-- instructions issued so far (R402). -/
  issued : Nat := 0
  /-- the parameter block of an MMA that waits for a reservation entry, its first three tests passed, with the metadata base and the label
  of what it has read (R342). -/
  mmaBlock : Option (BitVec 512) := none
  mmaMeta : Nat := 0
  mmaLabel : Label := 0
  /-- it has passed the check point of the barrier at which it stands, and waits for its fence (R378). -/
  pastCheck : Bool := false
  /-- enters its handler at its next issue (R398). -/
  forced : Bool := false
  /-- completion times of its performed writes and of the values it read (R359). -/
  writeG : Nat := 0
  valueG : Nat := 0
  deriving DecidableEq, Repr

/-- What an issue must still see of a gang before the present clk (R122, R132, R303): the start of that clk, gang-uniform registers and
buffer records written in it with their values and labels before, and the partition register before a PART of it. -/
structure GangBefore where
  clk : Nat := 0
  sregs : List (Nat × Word × Label) := []
  brecs : List (Nat × BitVec 128 × Label) := []
  part : Option (BitVec 3) := none
  deriving DecidableEq, Repr

/-- A gang (R110, R272, R412). Gang numbers are 32 × unit number + gangid. -/
structure Gang where
  /-- launched lanes: 32, or 1 on a control core (R113). -/
  lanes : Nat := 32
  /-- its position among the 32 gang slots of its core (R111, R119). -/
  pos : Nat := 0
  before : GangBefore := {}
  sregs : Tab Word := []
  brecs : Tab (BitVec 128) := []
  /-- labels of register tiles, gang-uniform registers, buffer records and predicates. -/
  tile : Tab Label := []
  slabel : Tab Label := []
  blabel : Tab Label := []
  plabel : Tab Label := []
  ctl : Label := 0
  part : BitVec 3 := 0
  copyCount : Nat := 0
  /-- arrival phases of the barriers (R377). -/
  arrivals : Tab Nat := []
  /-- MREADYs executed by each lane (R344). -/
  mready : Tab Nat := []
  /-- inside an idempotent region, RGN and RGNE performed, and the region entry (R409, R417). -/
  inRegion : Bool := false
  rgn : Bool := false
  rgne : Bool := false
  regionEntry : Pc := 0
  /-- trap stack: virtual base, bytes, contents and the label of each 4-byte word (R406). -/
  stackBase : Nat := 0
  stackBytes : Nat := 0
  stack : Memory := []
  stackLabels : Tab Label := []
  /-- Glason active set membership (R128). -/
  active : Bool := true
  pendingSince : Nat := 0
  ended : Bool := false
  /-- sectors whose conflict was reported for an issue group: group and sector (R374). -/
  raceSeen : List (Nat × Nat) := []
  deriving DecidableEq, Repr

/-- A unit (R110, R247, R377). -/
structure Unit where
  launch : Nat
  unitid : Nat
  /-- absolute slice, cluster in the slice, and core in the cluster: 0 to 3, 4 for a control core. -/
  slice : Nat
  cluster : Nat
  core : Nat
  /-- gang g of a cluster-resident unit sits on core g mod 4 (R110). -/
  resident : Bool
  regs : Nat
  gangs : Nat
  ceiling : Nat
  account : Nat
  part : Nat
  entry : Pc
  /-- scratchpad run: first line, bytes, contents, empty lines, labels (R247). -/
  runLine : Nat
  runBytes : Nat
  run : Memory := []
  lineEmpty : Tab Bool := []
  lineLabel : Tab Label := []
  /-- phases of the 16 barriers (R377). -/
  phases : Tab Nat := []
  /-- COPYM free-slot counters by receiver (R322), and the lines of deliveries whose slot is still out. -/
  receivers : Tab Nat := []
  deliveries : List (Nat × Nat) := []
  regionOpen : Bool := false
  halted : Bool := false
  /-- the clk, by its start, from which the halted unit issues nothing (R421). -/
  haltedFrom : Nat := 0
  faulted : Bool := false
  cancelled : Bool := false
  /-- issue is stopped by a region abort or a quiescence (R410, R411). -/
  stopped : Bool := false
  /-- the time at which a quiescence stopped it (R218, R411). -/
  stoppedAt : Nat := 0
  /-- pages that an abort waits for (R410). -/
  awaits : List Nat := []
  /-- the unit still stands in the cores; false once it has ended. -/
  live : Bool := true
  dispatched : Nat := 0
  deriving DecidableEq, Repr

/-- A codebook slot (R174). -/
structure Codebook where
  entries : List (BitVec 16)
  label : Label
  deriving DecidableEq, Repr

/-! Accesses in flight. -/

/-- The kinds of access. -/
inductive AKind where
  | load | ldx | gthr | exq | labelPage | recPage | egress
  | store | stx | erase | atom | red
  | lds | sts | sfill | sempty | atoms | reds
  | gthrs | remapTab | codebook | table | launch | graph | exact
  deriving DecidableEq, Repr

/-- One lane's access, or one gang's operation, between issue and its landing (R123, R289, R357). -/
structure Access where
  kind : AKind
  thread : Nat
  /-- accesses of one issue group share its number (R236). -/
  group : Nat
  pc : Pc
  op : Nat
  f : Fields
  addr : Nat
  width : Nat
  /-- store data, or source c and compare value d of an atomic. -/
  c : DWord := 0
  d : DWord := 0
  /-- label(t) at issue. -/
  label : Label := 0
  /-- the tile-label test passed at issue (R274). -/
  replaces : Bool := false
  /-- the rounding mode read at issue (R182). -/
  mode : Nat := 0
  /-- held on a not-present page, and the address that found it so (R408). -/
  held : Bool := false
  heldVa : Nat := 0
  /-- out of bounds: the fill is zero (R233). -/
  oob : Bool := false
  /-- the unit's run address of a row (R333), the slot (R340), or the queue of a launch (R384). -/
  aux : Nat := 0
  /-- the value of an exact-path result. -/
  value : Word := 0
  /-- floating-point events of an exact-path result: counter codes (R188). -/
  events : List Nat := []
  inTrap : Bool := false
  /-- the thread's count of issued instructions when it issued the access (R402). -/
  born : Nat := 0
  /-- slots of its context as they stood before a CBLOAD that issued after it (R175). -/
  books : Tab Codebook := []
  /-- the end of the clk in which it issued: it lands from then on. -/
  due : Nat := 0
  /-- pieces of its element that are performed: sector and bytes, and their completion time (R236). -/
  got : List (Nat × List Byte) := []
  gotG : Nat := 0
  /-- leaves through which its lines are translated: virtual line, leaf and level (R234). -/
  pins : List (Nat × DWord × Nat) := []
  /-- its thread's context was saved while it was in flight (R218, R220). -/
  wasSaved : Bool := false
  /-- the pass count of its cluster has changed since a CALLV issued (R220). -/
  disturbed : Bool := false
  /-- MREADYs that its thread had executed when it issued (R344). -/
  readies : Nat := 0
  deriving DecidableEq, Repr

/-! Engines. -/

/-- One slice of a copy command (R318). -/
structure CopySlice where
  gang : Nat
  /-- source and destination in memory (true) or in a scratchpad run. -/
  srcMem : Bool
  dstMem : Bool
  src : Nat
  dst : Nat
  bytes : Nat
  /-- bytes carried so far; a multiple of 4 KiB until the end. -/
  done : Nat := 0
  /-- bytes of the chunk that is performed and whose completion time has not passed, and that time (R370). -/
  pending : Nat := 0
  pendG : Nat := 0
  label : Label := 0
  /-- accesses of the gang below this number issued before the slice. -/
  born : Nat := 0
  deriving DecidableEq, Repr

/-- A copy command: a unit command (R318) or a copy entry (R46). -/
structure Copy where
  part : Nat
  /-- the unit and its command number; none for a copy entry. -/
  unit : Option (Nat × Nat)
  /-- the level of a copy entry. -/
  level : Option Nat
  slices : List CopySlice := []
  /-- gangs that have supplied a slice. -/
  supplied : List Nat := []
  /-- receivers of COPYM, and the mask of those skipped (R322). -/
  receivers : List Nat := []
  mask : Nat := 0
  multicast : Bool := false
  /-- receivers whose slot this command holds. -/
  slotsOut : List Nat := []
  skipped : Nat := 0
  tag : Word := 0
  tagGang : Nat := 0
  cls : Nat := 0
  account : Nat := 0
  started : Bool := false
  startSeq : Nat := 0
  engine : Option Nat := none
  /-- the engine in whose journal it stands, from its acceptance to its completion (R323). -/
  journalOf : Option Nat := none
  suspended : Bool := false
  /-- status of the event record once the command has stopped (R321). -/
  stop : Option Nat := none
  /-- once stopped: the lines that its data has not filled are filled with zero (R320). -/
  zeroed : Bool := false
  bytes : Nat := 0
  label : Label := 0
  cluster : Nat := 0
  core : Nat := 0
  context : Nat := 0
  unitid : Nat := 0
  /-- the time of its acceptance by the engine that runs it (R69). -/
  acceptedAt : Nat := 0
  /-- completion time of its memory writes (R370). -/
  g : Nat := 0
  done : Bool := false
  deriving DecidableEq, Repr

/-- An entry of the matrix engine's reservation table (R324, R341). -/
structure MmaOp where
  unit : Nat
  gang : Nat
  thread : Nat
  opno : Nat
  pc : Pc
  op : Nat
  ktiles : Nat
  n : Nat
  aScratch : Bool
  bScratch : Bool
  fmt : Nat
  aReg : Nat
  aRegs : Nat
  bReg : Nat
  bRegs : Nat
  acc : Nat
  aRec : DWord
  bRec : DWord
  metaBase : Nat
  pattern : Nat
  mode : Nat
  cls : Nat
  seq : Nat
  label : Label
  /-- codebook slots read at issue (R329). -/
  aBook : Codebook := { entries := [], label := 0 }
  bBook : Codebook := { entries := [], label := 0 }
  /-- accumulators at issue and as they stand, row by row. -/
  start : List (List Word) := []
  accs : List (List Word) := []
  chunk : Nat := 0
  fault : Bool := false
  /-- the end of the clk in which it issued, and the codebook slots of its C4 operands (R175). -/
  due : Nat := 0
  aSlot : Option Nat := none
  bSlot : Option Nat := none
  deriving DecidableEq, Repr

/-- A record of the event queue with its label (R321, R347). -/
structure EventRec where
  kind : Nat
  status : Nat
  core : Nat
  context : Nat
  tag : Word
  unit : Nat
  bytes : Nat
  label : Label
  deriving DecidableEq, Repr

/-- A store-fault record with its gang (R397, R399). -/
structure Record where
  gang : Nat
  kind : Nat
  lane : Nat
  bytes : Nat
  type : Nat
  reason : Nat
  addr : Nat
  label : Label
  pc : Pc
  op : Nat
  data : Nat
  /-- the thread, and its count of issued instructions when it issued the access (R402). -/
  thread : Nat
  born : Nat := 0
  deriving DecidableEq, Repr

/-- An entry of a control core's child table (R383). -/
structure Child where
  gen : Nat := 0
  level : Option Nat := none
  unit : Nat := 0
  nr : Bool := false
  label : Label := 0
  deriving DecidableEq, Repr

/-- The remap state of a core (R315). -/
structure Remap where
  modulus : Word := 0
  key : Word := 0
  table : Tab Word := []
  label : Label := 0
  owner : Option Nat := none
  deriving DecidableEq, Repr

/-- A line held in an L1 under a lease (R245, R356). -/
structure Line where
  bytes : List Byte
  expiry : Nat
  /-- value completion time of the bytes (R357). -/
  g : Nat := 0
  /-- replacement priority, and the number of its fill (R246). -/
  prio : Nat := 1
  order : Nat := 0
  deriving DecidableEq, Repr

/-- A core: core number 5 × cluster number + core (R11, R12). -/
structure Core where
  /-- launches by core-local context number (R112). -/
  contexts : Tab Nat := []
  /-- the convergence table: (context, pc) by index (R117). -/
  converge : Tab (Nat × Pc) := []
  /-- the clk, by its start, whose table and groups these are, and the pairs whose entries have yielded a group in it (R117). -/
  clkAt : Option Nat := none
  taken : List (Nat × Pc) := []
  /-- in that clk: both ports issue in fallback mode (R119), and the serial number of the last issue before it (R97). -/
  fallback : Bool := false
  clkSerial : Nat := 0
  /-- the times at which ports 0 and 1 have done with their groups (R116, R118). -/
  portA : Nat := 0
  portB : Nat := 0
  /-- the position of the gang that fallback mode took last (R119). -/
  lastGang : Option Nat := none
  remap : Remap := {}
  /-- the start of the clk of a REMAP.MOD or REMAP.KEY, and the state before it, which gathers of that clk read (R332). -/
  remapBefore : Option (Nat × Remap) := none
  /-- codebook slots by 64 × context + slot. -/
  codebooks : Tab Codebook := []
  sfq : List Record := []
  /-- records of one landing, or of a unit that came back, for which the queue has no room: they wait to enter, in order (R374, R400). -/
  late : List Record := []
  /-- the first-level TLB, the newest entry first: the leaf's first page of 4 KiB, the leaf and its level (R240). -/
  tlb : List (Nat × DWord × Nat) := []
  l1 : Tab Line := []
  /-- lines filled so far (R246). -/
  fills : Nat := 0
  /-- child table of a control core (R383). -/
  children : Tab Child := []
  deriving DecidableEq, Repr

/-- A cluster: cluster number 8 × slice + cluster (R11). -/
structure Cluster where
  passCode : Nat := 0
  fused : Bool := false
  /-- time at which a fusion change ends (R76). -/
  fusing : Option Nat := none
  /-- time of the last step of its pass count (R439). -/
  stepped : Nat := 0
  events : List EventRec := []
  mma : Tab MmaOp := []
  opCount : Nat := 0
  deriving DecidableEq, Repr

/-- Live H fields of a region (R255, R270). -/
structure HFields where
  issued : Nat
  free : Nat
  failures : Nat
  limit : Nat
  used : Nat
  deriving DecidableEq, Repr

/-- A race shadow entry (R372). -/
structure Shadow where
  launch : Nat
  thread : Nat
  interval : Nat
  scope : Nat
  kind : Nat
  /-- the number of its write, by which the oldest entry is evicted (R372). -/
  order : Nat := 0
  deriving DecidableEq, Repr

/-- A slice: compute chiplet, its L2 and its Speedwell (R5, R65, R355, R436). -/
structure Slice where
  slots : Tab (BitVec 64) := []
  writeError : Bool := false
  lease : Word := 512
  vote : Nat := 0
  ready : Bool := false
  ungated : Bool := false
  clkBase : Nat := 0
  /-- the time at which its domain was last gated. -/
  gatedAt : Nat := 0
  /-- the chiplet's measured current and its allocation, and the times since which the first has exceeded the second and has lain below
  it (R439). -/
  current : Nat := 0
  allocation : Nat := 0
  overSince : Option Nat := none
  underSince : Option Nat := none
  /-- lane passes of the current 0.1 µs interval, those of the last 40 intervals, the number of intervals ended, and the load record:
  lane passes of the last 4 µs (R440). -/
  passes : Nat := 0
  window : List Nat := []
  loadTicks : Nat := 0
  loadRecord : Nat := 0
  /-- the last interval stood below half the record, a fall whose fade has not started, and the running fade: record at its start
  and start time (R441). -/
  below : Bool := false
  fall : Bool := false
  fade : Option (Nat × Nat) := none
  /-- the last fade has ended and no lane pass has issued since (R436). -/
  spent : Bool := false
  /-- the lane passes issued in the present clk of a fade, and the ballast passes that the fade has issued (R441). -/
  clkPasses : Nat := 0
  ballast : Nat := 0
  /-- L2 horizons and value completion times by physical line (R356, R357). -/
  horizon : Tab Nat := []
  lineG : Tab Nat := []
  /-- lines that the L2 holds: replacement priority and the number of the fill; and lines filled so far (R246). -/
  l2 : Tab (Nat × Nat) := []
  l2Fills : Nat := 0
  /-- completion times of births and erasures by physical line of an existence map (R266). -/
  mapG : Tab Nat := []
  /-- the L2 TLB, the newest entry first (R240). -/
  tlb : List (Nat × DWord × Nat) := []
  /-- live H fields by descriptor address, the lines of existence map that the existence-map cache holds, each with its last use, and how
  often either was used (R270). -/
  hfields : Tab HFields := []
  mapLines : Tab Nat := []
  hUses : Nat := 0
  /-- shadow entries by physical sector, and by existence tile (R372). -/
  shadow : Tab Shadow := []
  tileShadow : Tab Shadow := []
  shadowWrites : Nat := 0
  deriving DecidableEq, Repr

/-- A rail (R437). -/
structure Rail where
  mv : Nat := 0
  target : Nat := 0
  /-- end of the hold after a fall of the target. -/
  holdEnd : Option Nat := none
  /-- the time at which the rail stood at `mv`. -/
  at' : Nat := 0
  /-- a rise of the target has ended a fall above it: the rail stays. -/
  stays : Bool := false
  deriving DecidableEq, Repr

/-! Partitions. -/

/-- A queue entry (R46): its bytes, its phase, its own level, the entry before it, and its launch, graph or copy once begun. -/
structure QEntry where
  bytes : List Byte
  ep : Nat
  job : Nat
  phase : Nat
  level : Nat
  prev : Option Nat
  begun : Option Nat := none
  deriving DecidableEq, Repr

/-- A hardware queue: its owner and depth once QUEUE_CONFIG has configured it, its entries, and its device list (R45, R386). -/
structure Queue where
  owner : Option Nat := none
  depth : Nat := 0
  entries : List QEntry := []
  device : List QEntry := []
  last : Option Nat := none
  deriving DecidableEq, Repr

/-- A budget account, in 1/32 core-slot-µs (R69). -/
structure Account where
  refill : Nat := 0
  balance : Int := 0
  debt : Nat := 0
  lend : Bool := false
  /-- a unit or copy of the account was resident in the current period. -/
  busy : Bool := false
  /-- the time of its request to borrow, while it stands (R71). -/
  asked : Option Nat := none
  deriving DecidableEq, Repr

/-- A peer entry (R285). -/
structure Peer where
  addr : BitVec 128
  mask : Label
  deriving DecidableEq, Repr

/-- A policy (R282, R284). -/
structure Policy where
  mask : Label
  peers : Nat
  base : Nat
  length : Nat
  cap : Nat
  count : Nat := 0
  deriving DecidableEq, Repr

/-- An entry of the refusal log (R283). -/
structure RefusalEntry where
  time : Nat
  addr : Nat
  label : Label
  path : Nat
  reason : Nat
  peer : Nat
  policy : Nat
  bytes : Nat
  deriving DecidableEq, Repr

/-- A section of a loaded object (R18). -/
structure Section where
  kind : Nat
  voff : Nat
  size : Nat
  hash : BitVec 64
  deriving DecidableEq, Repr

/-- A kernel descriptor as the loader holds it (R20). -/
structure Kernel where
  entry : Nat
  codeSection : Nat
  regs : Nat
  gangs : Nat
  flags : Nat
  scratch : Nat
  constant : Nat
  args : Nat
  stack : Nat
  vtable : Option Nat
  deriving DecidableEq, Repr

/-- A loaded object (R31, R404, R450). -/
structure Obj where
  base : Nat
  size : Nat
  sections : List Section
  frames : List Nat
  kernels : List Kernel
  handler : Option Pc
  label : Label
  deriving DecidableEq, Repr

/-- A held EVICT record: ring slot, first page, count, level, and the time it was taken (R250). -/
structure HeldEvict where
  slot : Nat
  addr : Nat
  count : Nat
  level : Nat
  since : Nat
  deriving DecidableEq, Repr

/-- A partition (R60, R61, R241). -/
structure Partition where
  first : Nat
  size : Nat
  queues : Tab Queue := []
  accounts : Tab Account := []
  pool : Nat := 0
  thresholds : Tab Word := []
  slots : Tab (List Byte) := []
  peers : Tab Peer := []
  policies : Tab Policy := []
  refusals : List RefusalEntry := []
  /-- refusals logged so far: the log's next place, modulo 256 (R283). -/
  refused : Nat := 0
  serial : Nat := 0
  objects : Tab Obj := []
  /-- the control area, byte for byte (R241, R242). -/
  ring : Memory := []
  ringSlot : Nat := 0
  /-- the host has written the tail since the firmware last looked at it (R242). -/
  tailWritten : Bool := false
  held : List HeldEvict := []
  /-- the records whose changes wait for the shoot-down: slot, first page, bytes (R243, R244). -/
  shooting : List (Nat × Nat × Nat) := []
  frameLabels : Tab Label := []
  /-- next free table in the page-table gigabyte (log 9). -/
  nextTable : Nat := 4096
  /-- ranges in use in the argument window: base and bytes, and their labels (R451, R406). -/
  windows : List (Nat × Nat) := []
  /-- pages whose migration notice was sent, with the time (R249). -/
  notices : Tab Nat := []
  /-- host-resident pages that an EVICT named while accesses were held on them: page address and leaf level, with the time at which
  the notice is sent again (R250). -/
  resends : Tab Nat := []
  /-- virtual base of the window exposed to the load-store domain (R432; log 10). -/
  exposed : Option Nat := none
  deriving DecidableEq, Repr

/-! The work hierarchy. -/

/-- A level above the unit (R50): 1 launch, 2 graph, 3 phase, 4 job. -/
structure Level where
  kind : Nat
  ident : Nat
  parent : Option Nat
  ep : Nat
  job : Nat
  counter : Nat := 0
  closed : Bool := false
  status : Option Nat := none
  /-- the status that the first failing child gave it (R52). -/
  fail : Option Nat := none
  ask : Bool := false
  message : Nat := 0
  cancelled : Bool := false
  failIndex : Nat := 0xFFFFFFFF
  /-- the one-node graph that stands for a launch entry, or for a copy node: it is named by no identifier and sends nothing. -/
  hidden : Bool := false
  /-- a graph armed by GARM: a graph of its own, whose nodes also count as children of its parent (R385). -/
  armed : Bool := false
  deriving DecidableEq, Repr

/-- A launch (R46 to R48, R112, R187 to R190). -/
structure Launch where
  level : Nat
  part : Nat
  queue : Nat
  obj : Nat
  kernel : Kernel
  start : Pc
  handler : Option Pc
  units : Nat
  next : Nat := 0
  ended : Nat := 0
  argBase : Nat
  argBytes : Nat
  constBase : Nat
  constBytes : Nat
  exact : Bool
  race : Bool
  raceTrap : Bool
  cls : Nat
  /-- 1 single core, 2 cluster, 3 control core. -/
  residency : Nat
  fused : Bool
  glason : Bool
  sliceMask : Nat
  counters : Tab Nat := []
  /-- counters that have reached their thresholds, with their values at the crossing: those to be noticed, and those noticed (R189). -/
  crossed : Tab Nat := []
  noticed : List Nat := []
  raceNotices : Nat := 0
  faulted : Bool := false
  /-- the identifier of the level (R50). -/
  ident : Nat
  deriving DecidableEq, Repr

/-- A node of an armed graph (R54, R55). -/
structure Node where
  entry : List Byte
  preds : Nat
  succs : List Nat
  started : Bool := false
  level : Option Nat := none
  /-- its completion has been delivered to its successors. -/
  settled : Bool := false
  deriving DecidableEq, Repr

/-- An armed graph (R55). -/
structure Graph where
  level : Nat
  part : Nat
  queue : Nat
  ep : Nat
  job : Nat
  phase : Nat
  device : Bool
  nodes : Tab Node
  deriving DecidableEq, Repr

/-- A job (R40, R50, R448). -/
structure Job where
  level : Nat
  isOpen : Bool := true
  phase : Nat
  phaseNumber : Nat := 0
  failed : Bool := false
  /-- the partitions to which its endpoint has been bound while it stood, the first one that in which it was opened (R63, R64; log 28). -/
  parts : List Nat := []
  saveArea : Option (Nat × Nat) := none
  /-- the partition whose memory the area lies in. -/
  areaPart : Nat := 0
  saved : Bool := false
  /-- the save that stands in the job's area: its number and bytes (R412; log 14). -/
  image : Option (Nat × Nat) := none
  /-- journal entries of the job's copy entries while it is saved (R411, R412). -/
  copies : Tab Copy := []
  deriving DecidableEq, Repr

/-- A message that the device has sent (R38), or a peer delivery (R422). -/
structure Out where
  dest : BitVec 128
  ep : Nat
  kind : Nat
  seq : Nat
  hseq : Nat
  status : Nat
  level : Nat := 0
  tag : Nat := 0
  index : Nat := 0xFFFFFFFF
  detail : Nat := 0
  payload : List Byte := []
  deriving DecidableEq, Repr

/-- A command that an endpoint has accepted and not completed (R40). -/
structure Running where
  hseq : Nat
  tag : Nat
  sender : BitVec 128
  deriving DecidableEq, Repr

/-- An endpoint (R34, R39, R43, R57). -/
structure Endpoint where
  enabled : Bool := false
  bound : Option Nat := none
  addr : Option (BitVec 128) := none
  /-- the address that the last command came from, to which device messages go. -/
  host : BitVec 128 := 0
  lastAccepted : Nat := 0
  accepted : Nat := 0
  running : List Running := []
  nextDev : Nat := 1
  stored : List Out := []
  jobs : Tab Job := []
  /-- its enable bit was cleared and the steps of R58 are not done. -/
  disabling : Bool := false
  deriving DecidableEq, Repr

/-- A saved unit, or a restart entry (R410 to R412). -/
structure Saved where
  ep : Nat
  job : Nat
  unitNo : Nat
  unit : Unit
  restart : Bool
  gangs : Tab Gang
  threads : Tab Thread
  accesses : Tab Access
  records : List Record
  codebooks : Tab Codebook
  remap : Remap
  /-- journal entries of the unit's copy commands (R323, R412). -/
  copies : Tab Copy := []
  children : Tab Child := []
  /-- waits to be dispatched again (R410 step 6, R414). -/
  wanted : Bool := false
  /-- the time at which its quiescence stopped it. -/
  savedAt : Nat := 0
  deriving DecidableEq, Repr

/-- A reconfiguration being applied (R62 to R64). -/
structure Reconf where
  hseq : Nat
  tag : Nat
  /-- entries that have still to apply, and the partitions that the list names. -/
  entries : List (List Byte)
  named : List Nat
  deriving DecidableEq, Repr

/-- Boot and trust (R442 to R446). -/
structure Boot where
  state : Nat := 0
  /-- the time at which that boot state began. -/
  since : Nat := 0
  flash : List Byte := []
  transfer : List Byte := []
  boots : Nat := 0
  imageDigest : List Byte := List.replicate 32 0
  seed : List Byte := []
  publicKey : List Byte := []
  identity : List Byte := List.replicate 32 0
  serial : Nat := 0
  configDigest : List Byte := List.replicate 32 0
  nonce : List Byte := List.replicate 32 0
  device : Nat := 0
  /-- stacks that are being cleared (R61). -/
  clearing : List Nat := []
  reconf : Option Reconf := none
  deriving DecidableEq, Repr

/-- What moves in a turn (log 2). -/
inductive Move where
  /-- a message arrives. -/
  | message (m : Message)
  /-- a command or hardware event happens. -/
  | event (i : Instr)
  /-- a core issues its next group. -/
  | issue (core : Nat)
  deriving DecidableEq, Repr

/-- A turn: the time that passes before it, in 1/12 ns, and what moves. -/
structure Turn where
  delay : Nat
  move : Move
  deriving DecidableEq, Repr

/-- The issue latch: the group for which the running instruction acts (R116), its core, its pc, its threads in pass order, its serial
number, the clk it occupies its port for, the gangs that take passes of their own (R118), and the other ready threads of the core with
their effective classes and counts of turns (R97). -/
structure Issue where
  core : Nat := 0
  pc : Pc := 0
  threads : List Nat := []
  serial : Nat := 0
  span : Nat := 1
  passes : List Nat := []
  peers : List (Nat × Nat × Nat) := []
  deriving DecidableEq, Repr

/-- What another device is answered (R280, R433): an error response, or the bytes of a load or the old value of an atomic. -/
structure RemoteReply where
  dest : BitVec 128
  failed : Bool
  data : List Byte
  deriving DecidableEq, Repr

/-- The machine. -/
structure State where
  time : Nat := 0
  agenda : List Turn := []
  issue : Issue := {}
  fresh : Nat := 0
  nextId : Nat := 0
  /-- refills and release-policy periods that have begun (R70, R282). -/
  refills : Nat := 0
  periods : Nat := 0
  mem : Memory := []
  boot : Boot := {}
  endpoints : Tab Endpoint := []
  parts : Tab Partition := []
  slices : Tab Slice := []
  rails : Tab Rail := []
  clusters : Tab Cluster := []
  cores : Tab Core := []
  levels : Tab Level := []
  launches : Tab Launch := []
  graphs : Tab Graph := []
  units : Tab Unit := []
  gangs : Tab Gang := []
  threads : Tab Thread := []
  accesses : Tab Access := []
  copies : Tab Copy := []
  /-- owner partitions of the 24 copy engines (R72). -/
  engines : Tab Nat := []
  saved : Tab Saved := []
  outbox : List Out := []
  /-- messages that wait while a reconfiguration applies (R64). -/
  waiting : List Message := []
  /-- answers to incoming remote accesses. -/
  replies : List RemoteReply := []
  deriving DecidableEq, Repr

/-- The machine right after reset. Tables list nothing: every endpoint, slice, rail, cluster and core that is not listed has
the reset values of its structure. -/
def State.reset : State := {}

end Sys2Proof.Machine
end

