-- ==== Sys2Proof/Machine/Ops.lean ====
section
/-! DEFINITION. The named operations over the state: memory bytes, the places of threads, the tables' accessors and setters,
registers and their labels, store-fault records, taking a trap and returning from it, and ending threads, gangs and units. -/

namespace Sys2Proof.Machine

/-! Memory bytes. -/

/-- The byte at a physical address; what nothing has written reads 0 (log 1). -/
def Memory.get (m : Memory) (a : Nat) : Byte := tabGetD 0 m a

/-- One byte written, in canonical form. -/
def Memory.put (m : Memory) (a : Nat) (b : Byte) : Memory := tabSetD 0 m a b

/-- The bytes [a, a + n). -/
def Memory.read (m : Memory) (a n : Nat) : List Byte := (List.range n).map (fun i => m.get (a + i))

/-- Bytes written from an address upwards. -/
def Memory.write (m : Memory) (a : Nat) (bs : List Byte) : Memory :=
  match bs with
  | [] => m
  | b :: rest => Memory.write (m.put a b) (a + 1) rest

/-- The canonical form: addresses strictly rising and no byte equal to what an unlisted address reads. -/
def Memory.wf (m : Memory) : Bool := tabWf 0 m


/-! Setters of the tables. -/

def State.setThread (s : State) (t : Nat) (x : Thread) : State := { s with threads := tabPut s.threads t x }
def State.setGang (s : State) (g : Nat) (x : Gang) : State := { s with gangs := tabPut s.gangs g x }
def State.setUnit (s : State) (u : Nat) (x : Unit) : State := { s with units := tabPut s.units u x }
def State.setCore (s : State) (c : Nat) (x : Core) : State := { s with cores := tabPut s.cores c x }
def State.setCluster (s : State) (c : Nat) (x : Cluster) : State := { s with clusters := tabPut s.clusters c x }
def State.setSlice (s : State) (k : Nat) (x : Slice) : State := { s with slices := tabPut s.slices k x }
def State.setRail (s : State) (k : Nat) (x : Rail) : State := { s with rails := tabPut s.rails k x }
def State.setPart (s : State) (p : Nat) (x : Partition) : State := { s with parts := tabPut s.parts p x }
def State.setLaunch (s : State) (k : Nat) (x : Launch) : State := { s with launches := tabPut s.launches k x }
def State.setLevel (s : State) (k : Nat) (x : Level) : State := { s with levels := tabPut s.levels k x }
def State.setGraph (s : State) (k : Nat) (x : Graph) : State := { s with graphs := tabPut s.graphs k x }
def State.setCopy (s : State) (k : Nat) (x : Copy) : State := { s with copies := tabPut s.copies k x }
def State.setEndpoint (s : State) (e : Nat) (x : Endpoint) : State := { s with endpoints := tabPut s.endpoints e x }
def State.setSaved (s : State) (k : Nat) (x : Saved) : State := { s with saved := tabPut s.saved k x }
def State.setAccess (s : State) (id : Nat) (x : Access) : State := { s with accesses := tabPut s.accesses id x }
def State.dropAccess (s : State) (id : Nat) : State := { s with accesses := tabDel s.accesses id }
def State.setMem (s : State) (m : Memory) : State := { s with mem := m }
def State.setBoot (s : State) (x : Boot) : State := { s with boot := x }
def State.setTime (s : State) (t : Nat) : State := { s with time := t }
def State.setAgenda (s : State) (l : List Turn) : State := { s with agenda := l }
def State.setIssue (s : State) (x : Issue) : State := { s with issue := x }
def State.setFresh (s : State) (n : Nat) : State := { s with fresh := n }
def State.setNextId (s : State) (n : Nat) : State := { s with nextId := n }
def State.setOutbox (s : State) (l : List Out) : State := { s with outbox := l }
def State.setEngines (s : State) (l : Tab Nat) : State := { s with engines := l }

/-- A new number for an access, a launch, a unit, a level, a graph, a copy or a saved unit. -/
def State.takeId (s : State) : Nat × State := (s.nextId, s.setNextId (s.nextId + 1))

/-! Accessors. An absent entry reads as the reset value of its structure. -/

def Unit.absent : Unit :=
  { launch := 0, unitid := 0, slice := 0, cluster := 0, core := 0, resident := false, regs := 32, gangs := 0, ceiling := 0,
    account := 0, part := 0, entry := 0, runLine := 0, runBytes := 0 }

def Kernel.absent : Kernel :=
  { entry := 0, codeSection := 0, regs := 32, gangs := 1, flags := 0, scratch := 0, constant := 0, args := 0, stack := 1024,
    vtable := none }

def Launch.absent : Launch :=
  { level := 0, part := 0, queue := 0, obj := 0, kernel := Kernel.absent, start := 0, handler := none, units := 0, argBase := 0,
    argBytes := 0, constBase := 0, constBytes := 0, exact := false, race := false, raceTrap := false, cls := 0, residency := 1,
    fused := false, glason := false, sliceMask := 0, ident := 0 }

def Partition.absent : Partition := { first := 0, size := 0 }

def State.thread (s : State) (t : Nat) : Thread := tabGetD {} s.threads t
def State.gang (s : State) (g : Nat) : Gang := tabGetD {} s.gangs g
def State.unit (s : State) (u : Nat) : Unit := tabGetD Unit.absent s.units u
def State.core (s : State) (c : Nat) : Core := tabGetD {} s.cores c
def State.cluster (s : State) (c : Nat) : Cluster := tabGetD {} s.clusters c
def State.slice (s : State) (k : Nat) : Slice := tabGetD {} s.slices k
def State.rail (s : State) (k : Nat) : Rail := tabGetD {} s.rails k
def State.part (s : State) (p : Nat) : Partition := tabGetD Partition.absent s.parts p
def State.launch (s : State) (k : Nat) : Launch := tabGetD Launch.absent s.launches k
def State.endpoint (s : State) (e : Nat) : Endpoint := tabGetD {} s.endpoints e

def State.modThread (s : State) (t : Nat) (g : Thread → Thread) : State := s.setThread t (g (s.thread t))
def State.modGang (s : State) (k : Nat) (g : Gang → Gang) : State := s.setGang k (g (s.gang k))
def State.modUnit (s : State) (u : Nat) (g : Unit → Unit) : State := s.setUnit u (g (s.unit u))
def State.modCore (s : State) (c : Nat) (g : Core → Core) : State := s.setCore c (g (s.core c))
def State.modCluster (s : State) (c : Nat) (g : Cluster → Cluster) : State := s.setCluster c (g (s.cluster c))
def State.modSlice (s : State) (k : Nat) (g : Slice → Slice) : State := s.setSlice k (g (s.slice k))
def State.modPart (s : State) (p : Nat) (g : Partition → Partition) : State := s.setPart p (g (s.part p))
def State.modLaunch (s : State) (k : Nat) (g : Launch → Launch) : State := s.setLaunch k (g (s.launch k))
def State.modEndpoint (s : State) (e : Nat) (g : Endpoint → Endpoint) : State := s.setEndpoint e (g (s.endpoint e))

/-! Places (R11, R110). -/

/-- The lane of a thread. -/
def laneOf (t : Nat) : Nat := t % 32
/-- The gang of a thread. -/
def gangOf (t : Nat) : Nat := t / 32
/-- The gang's number within its unit. -/
def gangidOf (g : Nat) : Nat := g % 32
/-- The unit of a gang. -/
def unitOf (g : Nat) : Nat := g / 32
/-- The unit of a thread. -/
def unitOfThread (t : Nat) : Nat := t / 1024
/-- The thread on a lane of a gang. -/
def threadAt (g l : Nat) : Nat := 32 * g + l

/-- The cluster of a unit, counted over the package. -/
def Unit.clusterNo (u : Unit) : Nat := 8 * u.slice + u.cluster

/-- The core of a gang, counted over the package: gang g of a cluster-resident unit sits on core g mod 4 (R110). -/
def State.coreOfGang (s : State) (g : Nat) : Nat :=
  let u := s.unit (unitOf g)
  5 * u.clusterNo + (if u.resident then gangidOf g % 4 else u.core)

def State.coreOf (s : State) (t : Nat) : Nat := s.coreOfGang (gangOf t)
def State.clusterOf (s : State) (t : Nat) : Nat := (s.unit (unitOfThread t)).clusterNo
def State.launchOf (s : State) (t : Nat) : Launch := s.launch (s.unit (unitOfThread t)).launch
def State.partOf (s : State) (t : Nat) : Nat := (s.unit (unitOfThread t)).part

/-- The gangs of a unit. -/
def State.gangsOfUnit (s : State) (u : Nat) : List Nat := (List.range (s.unit u).gangs).map (fun i => 32 * u + i)

/-- The launched threads of a gang (R113). -/
def State.threadsOfGang (s : State) (g : Nat) : List Nat := (List.range (s.gang g).lanes).map (threadAt g)

/-- The launched threads of a unit. -/
def State.threadsOfUnit (s : State) (u : Nat) : List Nat := (s.gangsOfUnit u).flatMap s.threadsOfGang

/-- A lane was launched and has not exited. -/
def State.laneLive (s : State) (g l : Nat) : Bool :=
  l < (s.gang g).lanes && (s.thread (threadAt g l)).sched != .exited

/-! Clk (R87, R116, R129). -/

/-- The start of the present clk of a chiplet, whose clk are counted from the last ungating of its domain. -/
def State.clkStart (s : State) (k : Nat) : Nat := s.time - (s.time - (s.slice k).clkBase) % 5

/-- The start of the present clk where a unit stands. -/
def State.clkOfUnit (s : State) (u : Nat) : Nat := s.clkStart (s.unit u).slice

/-- A pass count from its code (R23, R129). -/
def passOf (code : Nat) : Nat := 2 ^ min code 2

/-- The pass-count code at which a core issues: a control core counts 1, and a SIMT core 4 while its chiplet's ready bit is 0
(R129, R215, R438). -/
def State.passCodeOf (s : State) (core : Nat) : Nat :=
  if core % 5 = 4 then 0 else if (s.slice (core / 40)).ready then (s.cluster (core / 5)).passCode else 2

/-- The first occurrence of each element. -/
def distinct (l : List Nat) : List Nat := l.foldl (fun acc x => if acc.contains x then acc else acc ++ [x]) []

/-- The gangs of a list of threads, in the order in which they first stand there: pass order (R118). -/
def gangsOf (ts : List Nat) : List Nat := distinct (ts.map gangOf)

/-! Registers (R83, R84, R114). -/

/-- A per-thread register; vz reads zero. -/
def Thread.reg (t : Thread) (n : Nat) : Word := if n = 255 then 0 else tabGetD 0 t.regs n

/-- A per-thread register written; vz discards. -/
def Thread.setReg (t : Thread) (n : Nat) (x : Word) : Thread :=
  if n = 255 then t else { t with regs := tabSetD 0 t.regs n x }

/-- The register is full (R123). -/
def Thread.full (t : Thread) (n : Nat) : Bool := n == 255 || !(tabGetD false t.empty n)

/-- A register marked empty. -/
def Thread.markEmpty (t : Thread) (n : Nat) : Thread :=
  if n = 255 then t else { t with empty := tabPut t.empty n true }

/-- A register marked full. -/
def Thread.markFull (t : Thread) (n : Nat) : Thread := { t with empty := tabDel t.empty n }

/-- A gang-uniform register; sz reads zero. -/
def Gang.sreg (g : Gang) (n : Nat) : Word := if n = 127 then 0 else tabGetD 0 g.sregs n

/-- A gang-uniform register written; sz discards. -/
def Gang.setSreg (g : Gang) (n : Nat) (x : Word) : Gang :=
  if n = 127 then g else { g with sregs := tabSetD 0 g.sregs n x }

/-! Values before the present clk (R122, R123, R125, R132, R157). -/

/-- What is kept of a thread's values before a clk. -/
def Thread.kept (t : Thread) (clk : Nat) : Before := if t.before.clk = clk then t.before else { clk := clk }

/-- A register about to be written in a clk: its value, and whether it was empty, are kept once. -/
def Thread.keepReg (t : Thread) (clk n : Nat) : Thread :=
  let b := t.kept clk
  { t with before := if b.regs.any (fun e => e.1 == n) then b
      else { b with regs := (n, t.reg n) :: b.regs, filled := if t.full n then b.filled else n :: b.filled } }

/-- The own class about to be changed in a clk. -/
def Thread.keepCls (t : Thread) (clk : Nat) : Thread :=
  let b := t.kept clk
  { t with before := { b with cls := some (b.cls.getD t.cls) } }

/-- A register's value as writes of earlier clk have left it (R157). -/
def Thread.seenReg (t : Thread) (clk n : Nat) : Word :=
  ((t.kept clk).regs.find? (fun e => e.1 == n)).elim (t.reg n) Prod.snd

/-- A register that became full in this clk is not yet seen as full (R123). -/
def Thread.seenFull (t : Thread) (clk n : Nat) : Bool := t.full n && !(t.kept clk).filled.contains n

/-- The own class as the SETPRIs of earlier clk have left it (R125). -/
def Thread.seenCls (t : Thread) (clk : Nat) : Nat := (t.kept clk).cls.getD t.cls

def Gang.kept (g : Gang) (clk : Nat) : GangBefore := if g.before.clk = clk then g.before else { clk := clk }

/-- A gang-uniform register about to be written in a clk. -/
def Gang.keepSreg (g : Gang) (clk n : Nat) : Gang :=
  let b := g.kept clk
  { g with before := if b.sregs.any (fun e => e.1 == n) then b
      else { b with sregs := (n, g.sreg n, if n = 127 then 0 else tabGetD 0 g.slabel n) :: b.sregs } }

/-- A buffer record about to be written in a clk. -/
def Gang.keepRec (g : Gang) (clk n : Nat) : Gang :=
  let b := g.kept clk
  { g with before := if b.brecs.any (fun e => e.1 == n) then b
      else { b with brecs := (n, tabGetD 0 g.brecs n, tabGetD 0 g.blabel n) :: b.brecs } }

/-- The partition register about to be written in a clk. -/
def Gang.keepPart (g : Gang) (clk : Nat) : Gang :=
  let b := g.kept clk
  { g with before := { b with part := some (b.part.getD g.part) } }

/-- A gang-uniform register as writes of earlier clk have left it (R132). -/
def Gang.seenSreg (g : Gang) (clk n : Nat) : Word := ((g.kept clk).sregs.find? (fun e => e.1 == n)).elim (g.sreg n) (fun e => e.2.1)

/-- A buffer record, and its label, as writes of earlier clk have left them (R132, R303). -/
def Gang.seenRec (g : Gang) (clk n : Nat) : BitVec 128 :=
  ((g.kept clk).brecs.find? (fun e => e.1 == n)).elim (tabGetD 0 g.brecs n) (fun e => e.2.1)
def Gang.seenRecLabel (g : Gang) (clk n : Nat) : Label :=
  ((g.kept clk).brecs.find? (fun e => e.1 == n)).elim (tabGetD 0 g.blabel n) (fun e => e.2.2)

/-- The partition register as the PARTs of earlier clk have left it (R122). -/
def Gang.seenPart (g : Gang) (clk : Nat) : BitVec 3 := (g.kept clk).part.getD g.part

/-- The start of the clk in which a thread's issue stands. -/
def State.clkOf (s : State) (t : Nat) : Nat := s.clkOfUnit (unitOfThread t)
def State.clkOfGang (s : State) (g : Nat) : Nat := s.clkOfUnit (unitOf g)

/-- A predicate of a thread; pt (7) reads true. -/
def Thread.pred (t : Thread) (n : Nat) : Bool := n == 7 || t.preds.getLsbD n

/-- A predicate written; pt discards. -/
def Thread.setPred (t : Thread) (n : Nat) (b : Bool) : Thread :=
  if n < 7 then
    { t with preds := if b then t.preds ||| BitVec.twoPow 8 n else t.preds &&& ~~~(BitVec.twoPow 8 n) }
  else t

/-- A predicate is pending (R292). -/
def Thread.pending (t : Thread) (n : Nat) : Bool := n < 7 && t.pend.getLsbD n

/-- A predicate marked pending, or no longer pending. -/
def Thread.setPend (t : Thread) (n : Nat) (b : Bool) : Thread :=
  if n < 7 then
    { t with pend := if b then t.pend ||| BitVec.twoPow 8 n else t.pend &&& ~~~(BitVec.twoPow 8 n) }
  else t

/-- Fields of a buffer record (R230). -/
structure Rec where
  base : Nat
  extent : Nat
  stride : Nat
  size : Nat
  swizzle : Nat
  trap : Bool
  reserved : Nat
  deriving DecidableEq, Repr

/-- The fields of a record's 128 bits (table Buffer Record). -/
def Rec.ofBits (b : BitVec 128) : Rec :=
  let n := b.toNat
  { base := n % 2 ^ 48, extent := n / 2 ^ 48 % 2 ^ 32, stride := n / 2 ^ 80 % 2 ^ 16, size := n / 2 ^ 96 % 16,
    swizzle := n / 2 ^ 100 % 4, trap := n / 2 ^ 102 % 2 == 1, reserved := n / 2 ^ 103 }

/-- The 128 bits of a record. -/
def Rec.toBits (r : Rec) : BitVec 128 :=
  BitVec.ofNat 128 (r.base % 2 ^ 48 + r.extent % 2 ^ 32 * 2 ^ 48 + r.stride % 2 ^ 16 * 2 ^ 80 + r.size % 16 * 2 ^ 96 +
    r.swizzle % 4 * 2 ^ 100 + (if r.trap then 2 ^ 102 else 0) + r.reserved * 2 ^ 103)

/-- A buffer record as a thread names it: in a handler b31 is the gang's trap-stack record (R406). -/
def State.record (s : State) (t n : Nat) : BitVec 128 :=
  let g := s.gang (gangOf t)
  if n = 31 && (s.thread t).inTrap then
    Rec.toBits { base := g.stackBase, extent := g.stackBytes / 4, stride := 0, size := 3, swizzle := 0, trap := true, reserved := 0 }
  else g.seenRec (s.clkOf t) n

/-! Labels of registers (R272). -/

/-- The label of a per-thread register tile; vz carries none. -/
def Gang.tileLabel (g : Gang) (n : Nat) : Label := if n = 255 then 0 else tabGetD 0 g.tile n
def Gang.sregLabel (g : Gang) (n : Nat) : Label := if n = 127 then 0 else tabGetD 0 g.slabel n

/-- The label of a gang-uniform register as writes of earlier clk have left it (R132). -/
def Gang.seenSregLabel (g : Gang) (clk n : Nat) : Label :=
  ((g.kept clk).sregs.find? (fun e => e.1 == n)).elim (g.sregLabel n) (fun e => e.2.2)

/-- The label of a predicate. -/
def Gang.predLabel (g : Gang) (n : Nat) : Label := if n < 7 then tabGetD 0 g.plabel n else 0

def Gang.setTile (g : Gang) (n : Nat) (l : Label) : Gang := if n = 255 then g else { g with tile := tabSetD 0 g.tile n l }
def Gang.setSregLabel (g : Gang) (n : Nat) (l : Label) : Gang :=
  if n = 127 then g else { g with slabel := tabSetD 0 g.slabel n l }
def Gang.setRecLabel (g : Gang) (n : Nat) (l : Label) : Gang := { g with blabel := tabSetD 0 g.blabel n l }
def Gang.setPredLabel (g : Gang) (n : Nat) (l : Label) : Gang :=
  if n < 7 then { g with plabel := tabSetD 0 g.plabel n l } else g

/-- The gang control label widened (R276). -/
def Gang.widen (g : Gang) (l : Label) : Gang := { g with ctl := g.ctl ||| l }

/-! Store-fault records (R397). -/

/-- The records pending for a gang, the oldest first. -/
def State.pendingRecords (s : State) (g : Nat) : List Record := (s.core (s.coreOfGang g)).sfq.filter (fun r => r.gang == g)

/-- The records of a gang that wait to enter its core's queue. -/
def State.lateRecords (s : State) (g : Nat) : List Record := (s.core (s.coreOfGang g)).late.filter (fun r => r.gang == g)

/-- The core's queue after records have left it: those that wait enter as far as there is room for its 16 (R397, R400). -/
def Core.refill (c : Core) : Core :=
  let n := 16 - c.sfq.length
  { c with sfq := c.sfq ++ c.late.take n, late := c.late.drop n }

/-- Every record of a gang discarded. -/
def State.dropRecords (s : State) (g : Nat) : State :=
  s.modCore (s.coreOfGang g) (fun c =>
    Core.refill { c with sfq := c.sfq.filter (fun r => r.gang != g), late := c.late.filter (fun r => r.gang != g) })

/-- The core's queue holds its 16 records (R397, R400). -/
def State.sfqFull (s : State) (core : Nat) : Bool := 16 ≤ (s.core core).sfq.length

/-- A record enters its core's queue, or waits to enter it; a gang that has ended makes none (R420). -/
def State.pushRecord (s : State) (r : Record) : State :=
  if (s.gang r.gang).ended then s
  else if s.sfqFull (s.coreOfGang r.gang) then s.modCore (s.coreOfGang r.gang) (fun c => { c with late := c.late ++ [r] })
  else s.modCore (s.coreOfGang r.gang) (fun c => { c with sfq := c.sfq ++ [r] })

/-- What a landing leaves: one that makes a RACE record while its core's queue is full waits (R374, R400). -/
def State.orWait (s : State) (core : Nat) (s' : State) : State :=
  if s.sfqFull core && (s.core core).late.length < (s'.core core).late.length then s else s'

/-! Ending threads, gangs and units. -/

/-- Writes: what EXIT waits for, and what a terminated thread does not take back (R136, R420). -/
def AKind.isWrite : AKind → Bool
  | .store | .stx | .erase | .atom | .red | .sts | .sfill | .sempty | .atoms | .reds => true
  | _ => false

/-- The gang ended: its records are no longer pending (R397). -/
def State.endGang (s : State) (g : Nat) : State := (s.dropRecords g).modGang g (fun x => { x with ended := true })

/-- Every launched lane of the gang has exited (R113). -/
def State.gangDone (s : State) (g : Nat) : Bool :=
  (s.threadsOfGang g).all (fun t => (s.thread t).sched == .exited)

/-- A thread exits; the gang ends with its last launched lane (R113, R136). -/
def State.exitThread (s : State) (t : Nat) : State :=
  let s := s.modThread t (fun x => { x with sched := .exited, inTrap := false, turns := x.turns + 1 })
  if s.gangDone (gangOf t) then s.endGang (gangOf t) else s

/-- What outlives its thread: writes, and an EGRESS on its way; other results are discarded (R136, R420). -/
def AKind.outlives (k : AKind) : Bool := k.isWrite || k == .egress

/-- Every thread of a gang becomes exited and its records and long-latency results are discarded (R420). -/
def State.terminateGang (s : State) (g : Nat) : State :=
  let s := (s.threadsOfGang g).foldl (fun s t => s.modThread t (fun x => { x with sched := .exited, inTrap := false, turns := x.turns + 1 })) s
  let s := { s with accesses := s.accesses.filter (fun e => gangOf e.2.thread != g || e.2.kind.outlives) }
  s.endGang g

/-- Every gang of a unit terminated; its launch completes with UNIT_FAULT (R420, R52). -/
def State.terminateUnit (s : State) (u : Nat) : State :=
  ((s.gangsOfUnit u).foldl State.terminateGang s).modUnit u (fun x => { x with faulted := true })

/-! Traps (R396, R404 to R407). -/

/-- A thread's next scheduling state; one that has exited, by a trap of another thread of its group, stays so (R407, R420). -/
def Thread.goTo (x : Thread) (w : Sched) : Sched := if x.sched = .exited then .exited else w

/-- Taking a trap: the trap registers are written, p0 to p6 and their labels go to the shadow, the control label widens, every
open frame is disturbed, and the thread continues at its object's handler, from the next clk or the end of its stall on, no longer aged
(R97, R115, R127). Without a
handler, or from inside one, the unit terminates (R404, R405, R407). -/
def takeTrap (s : State) (t kind : Nat) (ret : Pc) (info : Word) (l : Label) : State :=
  match (s.launchOf t).handler with
  | none => s.terminateUnit (unitOfThread t)
  | some h =>
    if (s.thread t).inTrap then s.terminateUnit (unitOfThread t)
    else
      (s.modThread t (fun x => { x with
        trapkind := BitVec.ofNat 32 kind, trappc := ret, trapinfo := info, shadow := x.preds,
        shadowLabels := (s.gang (gangOf t)).plabel, frames := x.frames.map (fun f => { f with disturbed := true }),
        inTrap := true, pc := h, sched := x.goTo .ready, readySince := s.time, forced := false, aged := false, mmaBlock := none, pastCheck := false,
        turns := x.turns + 1, stallUntil := max x.stallUntil (s.clkOf t + 5) })).modGang (gangOf t)
        (fun g => g.widen l)

/-- Return from a handler (R419): p0 to p6 come back from the shadow, each label united with its shadow label, and the thread
continues at the return address. -/
def leaveTrap (s : State) (t : Nat) : State :=
  let x := s.thread t
  (s.modThread t (fun x => { x with preds := x.shadow, inTrap := false, pc := x.trappc })).modGang (gangOf t)
    (fun g => (List.range 7).foldl (fun g n => g.setPredLabel n (g.predLabel n ||| tabGetD 0 x.shadowLabels n)) g)

/-- Delivery of the gang's pending records (R401): trap kind 23 with the number pending. -/
def deliver (s : State) (t : Nat) (ret : Pc) (l : Label) : State :=
  takeTrap s t 23 ret (BitVec.ofNat 32 ((s.pendingRecords (gangOf t)).length % 32)) l

/-- The labels of the operands of the instructions whose accesses or operations made a gang's pending records (R276; DEDUCED: an entry
outside a trap-check point is caused by these: log 16). -/
def State.recordsLabel (s : State) (g : Nat) : Label := (s.pendingRecords g).foldl (fun l r => l ||| r.label) 0

/-- A thread outside a handler whose gang has a pending record takes it at a trap-check point (R401, R407). -/
def State.mustDeliver (s : State) (t : Nat) : Bool :=
  !(s.thread t).inTrap && !(s.pendingRecords (gangOf t)).isEmpty

/-- A thread becomes ready in the next clk (R115). -/
def State.unblock (s : State) (t : Nat) : State :=
  s.modThread t (fun x => { x with sched := .ready, readySince := s.time, stallUntil := max x.stallUntil (s.clkOf t + 5) })

/-- A thread becomes blocked (R115, R124). Time spent blocked does not count towards aging (R127). -/
def State.block (s : State) (t : Nat) (w : Why) : State :=
  s.modThread t (fun x => { x with sched := x.goTo (.blocked w), aged := false, turns := x.turns + 1 })

/-! Time. -/

/-- The global time base in ns (R87, R354): the model counts 1/12 ns, and a clk is 5 of them (R3). -/
def State.ns (s : State) : Nat := s.time / 12

/-- The clk count of a slice (R87): from the last ungating of its domain. -/
def State.clk (s : State) (k : Nat) : Nat := (s.time - (s.slice k).clkBase) / 5

end Sys2Proof.Machine
end

