-- ==== Sys2Proof/Machine/Operands.lean ====
section
/-! DEFINITION. Operands: what a form's fields read, their values at every width, the label of a thread's operands, and the
tests of the full/empty bits and of pending predicates at issue. -/

namespace Sys2Proof.Machine

/-- The four operand slots of a form: destination, A, B, C (R89). -/
structure Slots where
  d : Slot
  a : Slot
  b : Slot
  c : Slot

/-- The slots of an opcode under the fields of a word. -/
def slotsOf (op : Nat) (f : Fields) : Slots :=
  match formOf op with
  | some x => { d := x.d f, a := x.a f, b := x.b f, c := x.c f }
  | none => { d := unusedS, a := unusedS, b := unusedS, c := unusedS }

/-! Values. -/

/-- Short immediates are two's complement (R82). -/
def immInt (n : BitVec 8) : Int := n.toInt

/-- A 32-bit source (R109): a register, or a short immediate sign-extended (R88). -/
def read32 (s : State) (t : Nat) (o : Opnd) : Word :=
  match o with
  | .v n => (s.thread t).reg n.toNat
  | .s n => (s.gang (gangOf t)).seenSreg (s.clkOf t) n.toNat
  | .imm n => n.signExtend 32
  | .k n => if 64 ≤ n.toNat && n.toNat ≤ 71 && (s.thread t).pred (n.toNat - 64) then 1 else 0

/-- A 64-bit source (R84): a pair, vz or sz as zero, or a short immediate sign-extended. -/
def read64 (s : State) (t : Nat) (o : Opnd) : DWord :=
  match o with
  | .v n => if n = 255 then 0 else Word.pair ((s.thread t).reg (n.toNat + 1)) ((s.thread t).reg n.toNat)
  | .s n =>
    if n = 127 then 0
    else Word.pair ((s.gang (gangOf t)).seenSreg (s.clkOf t) (n.toNat + 1)) ((s.gang (gangOf t)).seenSreg (s.clkOf t) n.toNat)
  | .imm n => n.signExtend 64
  | .k _ => 0

/-- A source as the bits of its type: 64 for .S64 and .N64, else 32 in the low half (R133). -/
def readTy (s : State) (t : Nat) (ty : Ty) (o : Opnd) : DWord :=
  if ty.is64 then read64 s t o else (read32 s t o).setWidth 64

/-- Bits as an integer of a type (R133). -/
def asInt (ty : Ty) (x : DWord) : Int :=
  if ty.is64 then (if ty.signed then x.toInt else (x.toNat : Int))
  else if ty.signed then (x.lo.toInt) else (x.lo.toNat : Int)

/-- A source as an integer of its type. -/
def readInt (s : State) (t : Nat) (ty : Ty) (o : Opnd) : Int := asInt ty (readTy s t ty o)

/-- A predicate source; vz as a carry-in reads 0 (R143). -/
def readPred (s : State) (t : Nat) (o : Opnd) : Bool :=
  match o with
  | .k n => (s.thread t).pred (n.toNat - 64)
  | _ => false

/-- The guard value (R90). -/
def guardTrue (s : State) (t : Nat) (f : Fields) : Bool := (s.thread t).pred f.gp.toNat != f.neg

/-- Bits [31:0] of an integer. -/
def wrap32 (x : Int) : Word := BitVec.ofInt 32 x

/-- Bits [63:0] of an integer. -/
def wrap64 (x : Int) : DWord := BitVec.ofInt 64 x

/-! Labels (R109, R273). -/

/-- The label of one used operand field; b31 in a handler is the trap-stack record, which carries none (R273, R406). -/
def opndLabel (s : State) (t : Nat) (x : Slot) (o : Opnd) : Label :=
  if x.isUnused then 0
  else
    let g := s.gang (gangOf t)
    match o with
    | .v n => g.tileLabel n.toNat ||| (if x.pair && n != 255 then g.tileLabel (n.toNat + 1) else 0)
    | .s n => g.seenSregLabel (s.clkOf t) n.toNat ||| (if x.pair && n != 127 then g.seenSregLabel (s.clkOf t) (n.toNat + 1) else 0)
    | .k n =>
      if n = 31 && (s.thread t).inTrap then 0
      else if n.toNat < 32 then g.seenRecLabel (s.clkOf t) n.toNat else g.predLabel (n.toNat - 64)
    | .imm _ => 0

/-- The destination is read as well: BRSET reads its record, and the CAS atomics read d (R303, R305). -/
def readsDest (op : Nat) : Bool := op == 0x241 || op == 0x287 || op == 0x297

/-- label(t): the sources read, the guard predicate and the gang control label (R109). -/
def labelOf (s : State) (op : Nat) (f : Fields) (t : Nat) : Label :=
  let z := slotsOf op f
  let g := s.gang (gangOf t)
  g.ctl ||| g.predLabel f.gp.toNat ||| opndLabel s t z.a f.a ||| opndLabel s t z.b f.b ||| opndLabel s t z.c f.c |||
    (if readsDest op then opndLabel s t z.d f.d else 0)

/-! Full and empty registers at issue (R123, R124). -/

/-- The per-thread registers of a used operand field. -/
def opndRegs (x : Slot) (o : Opnd) : List Nat :=
  match o with
  | .v n =>
    if x.isUnused || n = 255 then []
    else if x.four then [n.toNat, n.toNat + 1, n.toNat + 2, n.toNat + 3]
    else if x.pair then [n.toNat, n.toNat + 1]
    else [n.toNat]
  | _ => []

/-- The predicates p0 to p6 of a used operand field. -/
def opndPreds (x : Slot) (o : Opnd) : List Nat :=
  match o with
  | .k n => if x.pred && 64 ≤ n.toNat && n.toNat ≤ 70 then [n.toNat - 64] else []
  | _ => []

/-- The register operands of a matrix operation are lent to the engine until its last chunk starts (R327). -/
def MmaOp.lends (e : MmaOp) (n : Nat) : Bool :=
  e.chunk < e.ktiles && ((e.aReg ≤ n && n < e.aReg + e.aRegs) || (e.bReg ≤ n && n < e.bReg + e.bRegs))

def State.lent (s : State) (t n : Nat) : Bool :=
  (s.cluster (s.clusterOf t)).mma.any (fun e => e.2.gang == gangOf t && e.2.lends n)

/-- What issue does with one thread before the instruction has any effect. -/
inductive Admit where
  /-- the guard is false (R90). -/
  | pass
  /-- the thread leaves the group (R124, R292). -/
  | block (w : Why)
  /-- the empty-register trap, with the source field 1, 2 or 3 (R92). -/
  | trap (field : Nat)
  /-- the thread executes. -/
  | run
  deriving DecidableEq, Repr

/-- A source with an empty register, as issue sees it in this clk (R123). -/
def sourceEmpty (s : State) (t : Nat) (x : Slot) (o : Opnd) : Option Nat :=
  (opndRegs x o).find? (fun r => !(s.thread t).seenFull (s.clkOf t) r)

/-- RDLANE reads A in the lane that it names and waits for that register itself (R157). -/
def readsOwnA (op : Nat) : Bool := op != 0x08A

/-- The sources of a form with their operands, empty actions and field numbers. -/
def sourcesOf (op : Nat) (f : Fields) : List (Slot × Opnd × Bool × Nat) :=
  let z := slotsOf op f
  (if readsOwnA op then [(z.a, f.a, f.ea, 1)] else []) ++ [(z.b, f.b, f.eb, 2), (z.c, f.c, f.ec, 3)]

/-- The tests of R92, R124 and R292 for one thread of a group: a source that traps when empty, then one that blocks, a
destination that is empty or lent, a pending predicate. `preds` are predicates that the modifier names, `regs` further registers
that the instruction writes. -/
def checkIn (s : State) (op : Nat) (f : Fields) (preds regs : List Nat) (t : Nat) : Admit :=
  let z := slotsOf op f
  let x := s.thread t
  let src := sourcesOf op f
  if x.pending f.gp.toNat then .block (.pred f.gp.toNat)
  else if !guardTrue s t f then .pass
  else
    match src.find? (fun q => q.2.2.1 && (sourceEmpty s t q.1 q.2.1).isSome) with
    | some q => .trap q.2.2.2
    | none =>
      match src.findSome? (fun q => sourceEmpty s t q.1 q.2.1) with
      | some r => .block (.reg r)
      | none =>
        match (opndRegs z.d f.d ++ regs).find? (fun r => !x.seenFull (s.clkOf t) r || s.lent t r) with
        | some r => .block (.reg r)
        | none =>
          match (src.flatMap (fun q => opndPreds q.1 q.2.1) ++ opndPreds z.d f.d ++ preds).find? (fun n => x.pending n) with
          | some n => .block (.pred n)
          | none => .run

/-- The source bits at which the label of a tile is replaced (R274): every launched lane that has not exited is among the
writers, and no launched lane has exited. -/
def fullGang (s : State) (g : Nat) (writers : List Nat) : Bool :=
  (s.threadsOfGang g).all (fun t => writers.contains t && (s.thread t).sched != .exited)

end Sys2Proof.Machine
end

