-- ==== Sys2Proof/Machine/Flags.lean ====
section
/-! DEFINITION. What a thread writes: registers with their tile labels, predicates, the control label, the comparison and
combine codes, carries, clamping, and the floating-point event counters. -/

namespace Sys2Proof.Machine

/-- One write of a thread (R109 write): a register, a gang-uniform register, a record, a predicate, or the control label. -/
inductive Wr where
  | reg (r : Nat) (x : Word) (l : Label)
  | uni (r : Nat) (x : Word) (l : Label)
  | rcd (r : Nat) (x : BitVec 128) (l : Label)
  | pred (n : Nat) (b : Bool) (l : Label)
  | ctl (l : Label)
  deriving DecidableEq, Repr

/-- A write of a per-thread register. -/
def Wr.isReg : Wr → Bool
  | .reg _ _ _ => true
  | _ => false

/-- A write of a gang-uniform register. -/
def Wr.isUni : Wr → Bool
  | .uni _ _ _ => true
  | _ => false

/-- A 32-bit result into a destination field. -/
def wr32 (d : Opnd) (x : Word) (l : Label) : List Wr :=
  match d with
  | .v n => [.reg n.toNat x l]
  | .s n => [.uni n.toNat x l]
  | _ => []

/-- A 64-bit result into a destination pair; vz and sz discard both halves (R84). -/
def wr64 (d : Opnd) (x : DWord) (l : Label) : List Wr :=
  match d with
  | .v n => if n = 255 then [] else [.reg n.toNat x.lo l, .reg (n.toNat + 1) x.hi l]
  | .s n => if n = 127 then [] else [.uni n.toNat x.lo l, .uni (n.toNat + 1) x.hi l]
  | _ => []

/-- A result of a type's width. -/
def wrTy (ty : Ty) (d : Opnd) (x : DWord) (l : Label) : List Wr :=
  if ty.is64 then wr64 d x l else wr32 d x.lo l

/-- A predicate into a class-10 destination field; pt discards. -/
def wrPred (d : Opnd) (b : Bool) (l : Label) : List Wr :=
  match d with
  | .k n => [.pred (n.toNat - 64) b l]
  | _ => []

/-- Bits written into a register tile's label: replaced by the first writer of a full gang, united otherwise (R274). -/
def tileLabelAfter (old : Label) (isFull first : Bool) (l : Label) : Label :=
  if isFull && first then l else old ||| l

/-- One write applied; what issues of this clk must still see is kept (R132, R157, R303). A predicate other than pt also widens the control label (R131). -/
def applyWr (isFull first : Bool) (t : Nat) (s : State) (w : Wr) : State :=
  match w with
  | .reg r x l =>
    if r = 255 then s
    else
      (s.modThread t (fun y => ((y.keepReg (s.clkOf t) r).setReg r x).markFull r)).modGang (gangOf t)
        (fun g => g.setTile r (tileLabelAfter (g.tileLabel r) isFull first l))
  | .uni r x l => s.modGang (gangOf t) (fun g => ((g.keepSreg (s.clkOf t) r).setSreg r x).setSregLabel r l)
  | .rcd r x l =>
    s.modGang (gangOf t) (fun g => ({ g.keepRec (s.clkOf t) r with brecs := tabSetD 0 g.brecs r x }).setRecLabel r l)
  | .pred n b l =>
    if n < 7 then
      (s.modThread t (fun y => (y.setPred n b).setPend n false)).modGang (gangOf t) (fun g => (g.setPredLabel n l).widen l)
    else s
  | .ctl l => s.modGang (gangOf t) (fun g => g.widen l)

/-- Writes applied in order. -/
def applyWrs (isFull first : Bool) (t : Nat) (s : State) (ws : List Wr) : State :=
  ws.foldl (applyWr isFull first t) s

/-! Comparison and combination (R150, R197). -/

/-- Comparison codes 0 to 5: EQ NE LT LE GT GE. -/
def compareInt (code : Nat) (a b : Int) : Bool :=
  match code with
  | 0 => a == b
  | 1 => a != b
  | 2 => decide (a < b)
  | 3 => decide (a ≤ b)
  | 4 => decide (a > b)
  | _ => decide (a ≥ b)

/-- Combine codes 0 to 3: none, and, or, xor with C. -/
def combine (code : Nat) (r c : Bool) : Bool :=
  match code with
  | 0 => r
  | 1 => r && c
  | 2 => r || c
  | _ => r != c

/-! Clamping (R133). -/

/-- The least value of an integer type. -/
def tyLeast (ty : Ty) : Int :=
  if ty.signed then (if ty.is64 then -(2 ^ 63) else if ty == .s8 then -128 else -(2 ^ 31)) else 0

/-- The greatest value of an integer type. -/
def tyGreatest (ty : Ty) : Int :=
  match ty with
  | .s8 => 127
  | .n8 => 255
  | .s64 => 2 ^ 63 - 1
  | .n64 => 2 ^ 64 - 1
  | .s32 => 2 ^ 31 - 1
  | _ => 2 ^ 32 - 1

/-- The nearest value of the type (R133). -/
def clamp (ty : Ty) (x : Int) : Int := min (max x (tyLeast ty)) (tyGreatest ty)

/-- An exact result clamped under .SAT and wrapped to the type's width (R133). -/
def narrow (ty : Ty) (sat : Bool) (x : Int) : DWord :=
  let y := if sat then clamp ty x else x
  if ty.is64 then wrap64 y else (wrap32 y).setWidth 64

/-- A carry of an addition or a borrow of a subtraction over 32 bits (R143). -/
def carryOut (x : Int) : Bool := decide (x < 0) || decide (2 ^ 32 ≤ x)

/-! Event counters (R187, R188). -/

/-- The counters of a launch are 48 bits wide and saturate (R187). -/
def counterMax : Nat := 2 ^ 48 - 1

/-- One event counted; a counter that reaches the nonzero threshold of its code for the first time has crossed it, at this value. A
threshold is looked at when its counter counts (R189; DESIGN CHOICE: log 13). -/
def Launch.count (th : Tab Word) (x : Launch) (e : Nat) : Launch :=
  let n := min counterMax (tabGetD 0 x.counters e + 1)
  let t := (tabGetD 0 th e).toNat
  { x with
    counters := tabSetD 0 x.counters e n
    crossed := if t != 0 && t ≤ n && (tabGet x.crossed e).isNone && !x.noticed.contains e then tabPut x.crossed e n else x.crossed }

/-- Events counted for a launch, one for each entry of the list (R188, R189). -/
def State.countEvents (s : State) (launch : Nat) (es : List Nat) : State :=
  if es.isEmpty then s else s.modLaunch launch (fun x => es.foldl (Launch.count (s.part x.part).thresholds) x)

end Sys2Proof.Machine
end

