-- ==== Sys2Proof/Machine/Group.lean ====
section
/-! DEFINITION. An issue group at work: what one thread's issue does, the run of an instruction for the group in the latch, and
the hold of gang operations. -/

namespace Sys2Proof.Machine

/-- The address after an instruction. -/
def nextPc (pc : Pc) : Pc := pc + 12

/-- The budgets of a thread (R212 to R214). -/
structure Budget where
  bt : Word
  be : Word
  bq : Word
  shareT : Option Word
  shareE : Option Word
  frames : List Frame
  deriving DecidableEq, Repr

/-- A thread's budgets. -/
def Thread.budget (x : Thread) : Budget :=
  { bt := x.bt, be := x.be, bq := x.bq, shareT := x.shareT, shareE := x.shareE, frames := x.frames }

/-- A thread with its budgets set. -/
def Thread.setBudget (x : Thread) (b : Budget) : Thread :=
  { x with bt := b.bt, be := b.be, bq := b.bq, shareT := b.shareT, shareE := b.shareE, frames := b.frames }

/-- What an instruction does for one admitted thread. -/
structure Eff where
  writes : List Wr := []
  /-- registers marked empty at issue (R123). -/
  empties : List Nat := []
  /-- predicates marked pending at issue (R292). -/
  pend : List Nat := []
  /-- accesses that leave for their own events. -/
  accesses : List Access := []
  /-- where the thread continues; the next instruction where absent. -/
  next : Option Pc := none
  /-- the point is a trap-check point once the effect is done (R401). -/
  check : Bool := false
  /-- the thread waits afterwards. -/
  wait : Option Why := none
  /-- further per-thread changes. -/
  cls : Option Nat := none
  mode : Option Word := none
  high : Option (Option (Nat × Word)) := none
  trappc : Option Pc := none
  /-- the gang's partition register (R160). -/
  part : Option (BitVec 3) := none
  budget : Option Budget := none
  yields : Bool := false
  exits : Bool := false
  /-- floating-point events counted (R188). -/
  events : List Nat := []
  deriving DecidableEq, Repr

/-- What the issue of a thread comes to. -/
inductive Res where
  /-- the thread leaves the group and tries again later. -/
  | block (w : Why)
  /-- a trap: kind, detail, and whether the return address is the next instruction (R396). -/
  | trap (kind : Nat) (info : Word) (after : Bool)
  | go (e : Eff)
  deriving DecidableEq, Repr

/-- The instruction address and the group that the latch holds. -/
def State.pc (s : State) : Pc := s.issue.pc
def State.group (s : State) : List Nat := s.issue.threads

/-! Priority classes (R125, R126, R380). -/

/-- The barriers and phases at which a gang waits. -/
def State.waitsAt (s : State) (g : Nat) : List (Nat × Nat) :=
  (s.threadsOfGang g).filterMap (fun t => match (s.thread t).sched with
    | .blocked (.barrier k p) => some (k, p)
    | _ => none)

/-- The highest own class of a gang's threads. -/
def State.gangClass (s : State) (g : Nat) : Nat :=
  ((s.threadsOfGang g).filter (fun t => (s.thread t).sched != .exited)).foldl (fun c t => max c ((s.thread t).seenCls (s.clkOfGang g))) 0

/-- A gang has still to arrive where another waits. -/
def State.owes (s : State) (g w : Nat) : Bool :=
  (s.waitsAt w).any (fun x => tabGetD 0 (s.unit (unitOf w)).phases x.1 == x.2 && tabGet (s.gang g).arrivals x.1 != some x.2)

/-- One round of inheritance over the gangs of a unit with their classes. -/
def inheritOnce (s : State) (l : List (Nat × Nat)) : List (Nat × Nat) :=
  l.map (fun x => (x.1, l.foldl (fun c y => if y.1 != x.1 && s.owes x.1 y.1 then max c y.2 else c) x.2))

def inheritAll (s : State) : Nat → List (Nat × Nat) → List (Nat × Nat)
  | 0, l => l
  | n + 1, l => inheritAll s n (inheritOnce s l)

/-- The class that a gang inherits from those that wait for it at a barrier, passed on in turn (R126). -/
def State.inherited (s : State) (g : Nat) : Nat :=
  let gs := (s.gangsOfUnit (unitOf g)).filter (fun k => !(s.gang k).ended)
  let l := inheritAll s gs.length (gs.map (fun k => (k, s.gangClass k)))
  l.foldl (fun c y => if y.1 != g && s.owes g y.1 then max c y.2 else c) 0

/-- The effective class of a thread (R125). -/
def State.effClass (s : State) (t : Nat) : Nat :=
  min (s.unit (unitOfThread t)).ceiling (max ((s.thread t).seenCls (s.clkOf t)) (s.inherited (gangOf t)))

/-- The threads that a yield waits for: those of the core, outside the group, that were ready at the same effective class in the clk of
the issue, each with its count of turns (R97). -/
def State.yieldPeers (s : State) (t : Nat) : List (Nat × Nat) :=
  (s.issue.peers.filter (fun e => e.2.1 == s.effClass t)).map (fun e => (e.1, e.2.2))

/-- The clk of the group in which a thread has its lane pass: after the passes of the gangs before its own, in ascending lane order
(R118, R129). -/
def State.passClk (s : State) (t : Nat) : Nat :=
  let p := passOf (s.passCodeOf s.issue.core)
  s.issue.passes.findIdx (fun g => g == gangOf t) * p + laneOf t / (32 / p)

/-- A thread's lane pass is charged: its share of the clk's energy, and the marks of its first issue (R219, R227). -/
def State.charge (s : State) (t : Nat) : State :=
  s.modThread t (fun x => { x with
    started := match x.started with
      | some y => some y
      | none => some (s.time, 0),
    energy := x.energy + Config.freeEnergy s.boot.boots s.issue.core (s.clkOf t + 5 * s.passClk t) })

/-- A thread moves past its instruction: pc, and what issue keeps of it (R97, R115, R117, R118, R127, R402). -/
def retire (s : State) (f : Fields) (yields : Bool) (next : Pc) (t : Nat) : State :=
  (s.charge t).modThread t (fun x => { x with
    pc := next, lastIssue := s.issue.serial, readySince := s.time, stallUntil := s.clkOf t + 5 * max s.issue.span f.stall.toNat,
    aged := false, overflowed := false, mmaBlock := none, issued := x.issued + 1, turns := x.turns + 1,
    yieldFor := if yields then s.yieldPeers t else [] })

/-- The accesses that an issue leaves in flight: each takes a number. -/
def State.addAccesses (s : State) (l : List Access) : State :=
  l.foldl (fun s a => let n := s.takeId; n.2.setAccess n.1 a) s

/-- An access as it leaves: its issue group, whether its first write-back replaces the tile label (R274), and the thread's
counts of issued instructions and of MREADYs (R344); it lands from the end of the clk on. -/
def stampAccess (s : State) (t : Nat) (replaces : Bool) (a : Access) : Access :=
  { a with group := s.issue.serial, replaces := replaces, born := (s.thread t).issued + 1, due := s.clkOf t + 5,
           readies := tabGetD 0 (s.gang (gangOf t)).mready (laneOf t) }

/-- What an effect changes in its thread besides its writes. -/
def Eff.alter (e : Eff) (clk : Nat) (x : Thread) : Thread :=
  let x := e.empties.foldl Thread.markEmpty x
  let x := e.pend.foldl (fun x n => x.setPend n true) x
  let x := x.setBudget (e.budget.getD x.budget)
  let x := match e.cls with
    | some c => { x.keepCls clk with cls := c }
    | none => x
  { x with mode := e.mode.getD x.mode, highShadow := e.high.getD x.highShadow, trappc := e.trappc.getD x.trappc }

/-- A new value of the gang's partition register. -/
def State.setTiles (s : State) (g : Nat) (part : Option (BitVec 3)) : State :=
  match part with
  | some p => s.modGang g (fun x => { x.keepPart (s.clkOfGang g) with part := p })
  | none => s

/-- What an effect does before its thread moves on: its writes, its changes of thread and gang, its events. `isFull`: the gang is
written whole; `first`: this thread's register write is the gang's first. -/
def Eff.act (e : Eff) (isFull first : Bool) (t : Nat) (s : State) : State :=
  (((applyWrs isFull first t s e.writes).modThread t (e.alter (s.clkOf t))).setTiles (gangOf t) e.part).countEvents
    (s.unit (unitOfThread t)).launch e.events

/-- The thread moves on and its accesses leave. `early`: some thread of the gang writes its register at issue. -/
def Eff.leave (e : Eff) (f : Fields) (isFull early : Bool) (t : Nat) (next : Pc) (s : State) : State :=
  retire (s.addAccesses (e.accesses.map (stampAccess s t (isFull && !early)))) f (f.yld || e.yields) next t

/-- What an effect ends with: the thread exits, takes a pending record at a check point, or waits. -/
def Eff.close (e : Eff) (l : Label) (t : Nat) (next : Pc) (s : State) : State :=
  if e.exits then s.exitThread t
  else if e.check && s.mustDeliver t then deliver s t next l
  else
    match e.wait with
    | some w => s.block t w
    | none => s

/-- An effect applied to its thread. -/
def applyEff (f : Fields) (l : Label) (isFull first early : Bool) (t : Nat) (s : State) (e : Eff) : State :=
  let next := e.next.getD (nextPc s.pc)
  e.close l t next (e.leave f isFull early t next (e.act isFull first t s))

/-- A trap taken at a thread's issue: it has had its lane pass, its issue counts among its turns at the ports, and its handler begins after
the group's last pass (R117, R118, R128). -/
def issueTrap (s : State) (t kind : Nat) (ret : Pc) (info : Word) (l : Label) : State :=
  (takeTrap (s.charge t) t kind ret info l).modThread t (fun x => { x with
    lastIssue := s.issue.serial, stallUntil := max x.stallUntil (s.clkOf t + 5 * s.issue.span) })

/-- A trap taken by one thread of the group, with the labels of the instruction's operands (R276). -/
def applyTrap (op : Nat) (f : Fields) (s0 : State) (t kind : Nat) (info : Word) (after : Bool) (s : State) : State :=
  issueTrap s t kind (if after then nextPc s.pc else s.pc) info (labelOf s0 op f t)

/-- What one thread comes to, judged in the state before the issue. -/
def judgeOne (s : State) (op : Nat) (f : Fields) (preds regs : List Nat) (eff : State → Nat → Res) (t : Nat) : Option Res :=
  match checkIn s op f preds regs t with
  | .pass => none
  | .block w => some (.block w)
  | .trap k => some (.trap 5 (BitVec.ofNat 32 k) false)
  | .run => some (eff s t)

/-- The threads of the group that may issue. -/
def State.readyGroup (s : State) : List Nat := s.group.filter (fun t => (s.thread t).sched == .ready)

/-- What the group's threads come to. -/
def judge (s : State) (op : Nat) (f : Fields) (preds regs : List Nat) (eff : State → Nat → Res) : List (Nat × Option Res) :=
  s.readyGroup.map (fun t => (t, judgeOne s op f preds regs eff t))

/-- The threads of a judgement that execute the instruction. -/
def goers (l : List (Nat × Option Res)) : List Nat :=
  l.filterMap (fun x => match x.2 with
    | some (.go _) => some x.1
    | _ => none)

/-- The goers that write a register at issue. -/
def earlyWriters (l : List (Nat × Option Res)) : List Nat :=
  l.filterMap (fun x => match x.2 with
    | some (.go e) => if e.writes.any Wr.isReg then some x.1 else none
    | _ => none)

/-- The first writer of each gang replaces a tile label, the later ones unite into it (R274). -/
def isFirst (ts : List Nat) (t : Nat) : Bool := ts.find? (fun u => gangOf u == gangOf t) == some t

/-- The thread that acts for its gang in the group: the first that executes. Its operation is performed once for the gang (R85). -/
def isLeader (s : State) (op : Nat) (f : Fields) (preds regs : List Nat) (t : Nat) : Bool :=
  s.group.find? (fun u => gangOf u == gangOf t && (s.thread u).sched == .ready && checkIn s op f preds regs u == .run) == some t

/-- The destination is a gang-uniform register. -/
def isUni : Opnd → Bool
  | .s _ => true
  | _ => false

/-- The writes of gang-uniform registers by the threads of a gang that execute. -/
def uniWrites (l : List (Nat × Option Res)) (g : Nat) : List (Nat × List Wr) :=
  l.filterMap (fun x => match x.2 with
    | some (.go e) => if gangOf x.1 == g then some (x.1, e.writes.filter Wr.isUni) else none
    | _ => none)

/-- The thread whose result a gang-uniform register takes: any where the threads' results agree; where they differ, which one is
open (log 4). -/
def uniWriter (serial : Nat) (c : List (Nat × List Wr)) : Option Nat :=
  if c.any (fun x => c.any (fun y => x.2 != y.2)) then (c.drop (Config.freeLane serial % c.length)).head?.map Prod.fst
  else c.head?.map Prod.fst

/-- A gang-uniform register is written once for the gang, and its result counts once (R85, R188): the effect of a thread that does
not write it. -/
def uniOnce (serial : Nat) (c : List (Nat × List Wr)) (t : Nat) (e : Eff) : Eff :=
  if e.writes.any Wr.isUni && uniWriter serial c != some t then
    { e with writes := e.writes.filter (fun w => !w.isUni), events := [] }
  else e

/-- What one thread has come to, applied; `s` is the state before the issue and `l` the judgement of the group. -/
def applyRes (op : Nat) (f : Fields) (s : State) (l : List (Nat × Option Res)) (s' : State) (x : Nat × Option Res) : State :=
  match x.2 with
  | none => retire s' f f.yld (nextPc s.pc) x.1
  | some (.block w) => s'.block x.1 w
  | some (.trap k info after) => applyTrap op f s x.1 k info after s'
  | some (.go e) =>
    let ws := earlyWriters l
    applyEff f (labelOf s op f x.1) (fullGang s (gangOf x.1) (goers l)) (isFirst ws x.1) (ws.any (fun u => gangOf u == gangOf x.1)) x.1
      s' (uniOnce s.issue.serial (uniWrites l (gangOf x.1)) x.1 e)

/-- An instruction issued for the group in the latch: every thread's result is computed from the state before the issue, then
the results are applied in pass order (R109, R116, R118). -/
def runGroup (op : Nat) (f : Fields) (preds regs : List Nat) (eff : State → Nat → Res) (s : State) : State :=
  let l := judge s op f preds regs eff
  l.foldl (applyRes op f s l) s

/-- The same latch for fewer threads. -/
def State.withGroup (s : State) (ts : List Nat) : State := s.setIssue { s.issue with threads := ts }

/-- The group's threads of one gang. -/
def State.groupOf (s : State) (g : Nat) : List Nat := s.group.filter (fun t => gangOf t == g)

/-- An operation performed once for each gang of the group, gang after gang in pass order (R85, R118). -/
def runPerGang (run : State → State) (s : State) : State :=
  ((gangsOf s.group).foldl (fun s' g => run (s'.withGroup (s.groupOf g))) s).withGroup s.group

/-- An illegal-instruction trap of the group's threads for which `bad` holds, whatever their guards (R98), then the instruction
for the others. -/
def runLegal (op : Nat) (f : Fields) (reason : Nat) (bad : State → Nat → Bool) (run : State → State) (s : State) : State :=
  let ts := s.group.filter (fun t => (s.thread t).sched == .ready && bad s t)
  run ((ts.foldl (fun s' t => applyTrap op f s t 1 (BitVec.ofNat 32 reason) false s') s).withGroup
    (s.group.filter (fun t => !ts.contains t)))

/-- An instruction whose effect is a list of writes. -/
def runWrites (op : Nat) (f : Fields) (preds : List Nat) (ws : State → Nat → List Wr) (s : State) : State :=
  runGroup op f preds [] (fun s t => .go { writes := ws s t }) s

/-- A predicate index that a modifier names, 7 discarding: what issue must find not pending. -/
def modPred (n : Nat) : List Nat := if n < 7 then [n] else []

/-! The hold of gang operations (R120, R336, R378). -/

/-- The tile width under the partition register as issue sees it (table Partition Register). -/
def tileWidth (s : State) (g : Nat) : Nat :=
  match ((s.gang g).seenPart (s.clkOfGang g)).toNat with
  | 1 => 2
  | 2 => 4
  | 3 => 8
  | 4 => 16
  | _ => 32

/-- The base of a lane's tile (R122). -/
def tileBase (s : State) (g l : Nat) : Nat := l - l % tileWidth s g

/-- Every launched lane of a thread's gang, as a mask (R120). -/
def launchedMask (s : State) (t : Nat) : Nat := 2 ^ (s.gang (gangOf t)).lanes - 1

/-- The lanes of a thread's member set under a member mask: the mask and the thread itself, within the tile (R163). -/
def memberLanesOf (s : State) (mask t : Nat) : List Nat :=
  let g := gangOf t
  let b := tileBase s g (laneOf t)
  (List.range 32).filter (fun l => b ≤ l && l < b + tileWidth s g && (mask.testBit l || l == laneOf t))

/-- The lanes that a held thread waits for, as the partition register and its mask operand stand now; none where it is not held. -/
def State.holdLanes (s : State) (t : Nat) : Option (List Nat) :=
  match (s.thread t).sched with
  | .blocked (.member (some c)) => some (memberLanesOf s (read32 s t c).toNat t)
  | .blocked (.member none) => some (memberLanesOf s (launchedMask s t) t)
  | .blocked .held => some (List.range (s.gang (gangOf t)).lanes)
  | _ => none

/-- The thread is held. -/
def Thread.isHeld (x : Thread) : Bool :=
  match x.sched with
  | .blocked (.member _) => true
  | .blocked .held => true
  | _ => false

/-- The threads of a gang held at an address, in ascending lane order. -/
def State.heldAt (s : State) (g : Nat) (pc : Pc) : List Nat :=
  (s.threadsOfGang g).filter (fun t => (s.thread t).isHeld && (s.thread t).pc == pc)

/-- Every one of the lanes is held at the address, has exited, or was never launched (R120). -/
def State.lanesArrived (s : State) (g : Nat) (pc : Pc) (lanes : List Nat) : Bool :=
  let h := s.heldAt g pc
  lanes.all (fun l => h.contains (threadAt g l) || !s.laneLive g l)

/-- The hold of a gang at an address ends: every member of every held thread's member set has arrived (R120). -/
def State.holdEnds (s : State) (g : Nat) (pc : Pc) : Bool :=
  let h := s.heldAt g pc
  !h.isEmpty && h.all (fun t => s.lanesArrived g pc ((s.holdLanes t).getD []))

/-- The hold of a gang at the group's instruction ends and its held threads are of the group: they issue, and no thread outside the group does
(R116, R120). -/
def State.holdIssues (s : State) (g : Nat) : Bool := s.holdEnds g s.pc && (s.heldAt g s.pc).all s.group.contains

/-- The threads of the group arrive at an instruction that the issue-group builder holds: each becomes held, blocks, or traps. -/
def arrive (op : Nat) (f : Fields) (preds regs : List Nat) (hold : Why) (s : State) : State :=
  (s.group.filter (fun t => (s.thread t).sched == .ready)).foldl (fun s' t =>
    match checkIn s op f preds regs t with
    | .block w => s'.block t w
    | .trap k => applyTrap op f s t 5 (BitVec.ofNat 32 k) false s'
    | _ => s'.block t hold) s

/-- Held threads released for the instruction that they stand at. -/
def State.release (s : State) (ts : List Nat) : State := ts.foldl (fun s t => s.unblock t) s

/-- Registers and predicates tested again when a hold ends, since another lane's operation may have emptied or lent one meanwhile (R124):
a thread that may no longer issue leaves the hold; none where every thread may. -/
def recheck (op : Nat) (f : Fields) (preds regs : List Nat) (ts : List Nat) (s : State) : Option State :=
  if ts.all (fun t => match checkIn s op f preds regs t with
    | .block _ => false
    | .trap _ => false
    | _ => true) then none
  else
    some (ts.foldl (fun s' t =>
      match checkIn s op f preds regs t with
      | .block w => s'.block t w
      | .trap k => applyTrap op f s t 5 (BitVec.ofNat 32 k) false (s'.unblock t)
      | _ => s') s)

/-- An instruction performed for the threads of a gang whose hold has ended: those with a false guard pass, the others have
their effect. -/
def perform (op : Nat) (f : Fields) (ts : List Nat) (eff : State → Nat → Eff) (s : State) : State :=
  let ws := ts.filter (guardTrue s · f)
  let c := ws.map (fun t => (t, (eff s t).writes.filter Wr.isUni))
  ts.foldl (fun s' t =>
    if guardTrue s t f then
      applyEff f (labelOf s op f t) (fullGang s (gangOf t) ws) (isFirst ws t) true t s' (uniOnce s.issue.serial c t (eff s t))
    else retire s' f f.yld (nextPc s.pc) t) (s.release ts)

end Sys2Proof.Machine
end

