-- ==== Sys2Proof/Machine/Numbers.lean ====
section
/-! DEFINITION. Numbers: the floating-point formats, exact values, rounding with its events, and the sums, comparisons and
conversions that the arithmetic instructions share (R170 to R173, R180 to R184, R188). -/

namespace Sys2Proof.Machine

/-- A floating-point format: exponent bits, fraction bits, and its number among the event counters (R170, R188). -/
structure Fmt where
  exp : Nat
  frac : Nat
  num : Nat
  deriving DecidableEq, Repr

def fmtF32 : Fmt := ⟨8, 23, 0⟩
def fmtF16 : Fmt := ⟨5, 10, 1⟩
def fmtBF16 : Fmt := ⟨8, 7, 2⟩
def fmtF8E4 : Fmt := ⟨4, 3, 3⟩
def fmtF8E5 : Fmt := ⟨5, 2, 4⟩

/-- The format of a floating-point type. -/
def fmtOf (ty : Ty) : Option Fmt :=
  match ty with
  | .f32 => some fmtF32
  | .f16 => some fmtF16
  | .bf16 => some fmtBF16
  | .f8e4 => some fmtF8E4
  | .f8e5 => some fmtF8E5
  | _ => none

/-- Bits of an encoding. -/
def Fmt.width (F : Fmt) : Nat := 1 + F.exp + F.frac
/-- The exponent bias (table Floating-Point Formats). -/
def Fmt.bias (F : Fmt) : Int := 2 ^ (F.exp - 1) - 1
/-- The exponent of the last bit of a subnormal. -/
def Fmt.emin (F : Fmt) : Int := 1 - F.bias - F.frac
/-- The encoding of +∞: the least with an all-ones exponent. -/
def Fmt.infBits (F : Fmt) : Nat := (2 ^ F.exp - 1) * 2 ^ F.frac
/-- The default NaN: sign 0 and the highest fraction bit (R170, R172). -/
def Fmt.nanBits (F : Fmt) : Nat := F.infBits + 2 ^ (F.frac - 1)
/-- The largest finite value. -/
def Fmt.maxBits (F : Fmt) : Nat := F.infBits - 1
/-- The sign bit. -/
def Fmt.signBit (F : Fmt) : Nat := 2 ^ (F.exp + F.frac)

/-- A floating-point value: (−1)^neg × m × 2^e when finite. -/
inductive FVal where
  | nan
  | inf (neg : Bool)
  | fin (neg : Bool) (m : Nat) (e : Int)
  deriving DecidableEq, Repr

/-- The value of an encoding (R170). -/
def Fmt.decode (F : Fmt) (x : Nat) : FVal :=
  let neg := x / F.signBit % 2 == 1
  let e := x / 2 ^ F.frac % 2 ^ F.exp
  let f := x % 2 ^ F.frac
  if e = 2 ^ F.exp - 1 then (if f = 0 then .inf neg else .nan)
  else if e = 0 then .fin neg f F.emin
  else .fin neg (2 ^ F.frac + f) (F.emin + (e : Int) - 1)

def FVal.isNan : FVal → Bool
  | .nan => true
  | _ => false
def FVal.isInf : FVal → Bool
  | .inf _ => true
  | _ => false
def FVal.isZero : FVal → Bool
  | .fin _ 0 _ => true
  | _ => false
/-- The sign bit of a value. -/
def FVal.neg : FVal → Bool
  | .nan => false
  | .inf n => n
  | .fin n _ _ => n
def FVal.negate : FVal → FVal
  | .nan => .nan
  | .inf n => .inf (!n)
  | .fin n m e => .fin (!n) m e

/-- An exact real, m × 2^e. -/
structure Dyadic where
  m : Int
  e : Int
  deriving DecidableEq, Repr

/-- A finite value as an exact real; zero for the others. -/
def FVal.dy : FVal → Dyadic
  | .fin n m e => ⟨if n then -(m : Int) else m, e⟩
  | _ => ⟨0, 0⟩

/-- The exact sum. -/
def Dyadic.add (a b : Dyadic) : Dyadic :=
  if a.m = 0 then b
  else if b.m = 0 then a
  else
    let e := min a.e b.e
    ⟨a.m * 2 ^ (a.e - e).toNat + b.m * 2 ^ (b.e - e).toNat, e⟩

/-- The exact product. -/
def Dyadic.mul (a b : Dyadic) : Dyadic := ⟨a.m * b.m, a.e + b.e⟩

/-- Comparison of exact reals: the sign of a − b. -/
def Dyadic.cmp (a b : Dyadic) : Int := (a.add ⟨-b.m, b.e⟩).m

/-- Rounding modes 0 RNE, 1 RZ, 2 RUP, 3 RDN (R180). -/
inductive Round where
  | rne | rz | rup | rdn
  deriving DecidableEq, Repr

def Round.ofCode (n : Nat) : Round :=
  match n % 4 with
  | 0 => .rne
  | 1 => .rz
  | 2 => .rup
  | _ => .rdn

/-- rm(t): the rounding code if it is nonzero, else the mode register (R95, R109). -/
def rm (s : State) (t : Nat) (f : Fields) : Round :=
  if f.code = 0 then Round.ofCode ((s.thread t).mode.toNat % 4) else Round.ofCode (f.code - 1)

/-- A rounded result: the encoding, and the kinds of the events of its rounding (R188). -/
structure FOut where
  bits : Nat
  ovf : Bool := false
  unf : Bool := false
  deriving DecidableEq, Repr

/-- The number of bits of a natural number. -/
def bitLen (n : Nat) : Nat := if n = 0 then 0 else n.log2 + 1

/-- The magnitude steps away from zero: the discarded part against half of the last place (R181). -/
def roundsUp (md : Round) (neg odd : Bool) (inexact : Bool) (half : Ordering) : Bool :=
  match md with
  | .rne => half == .gt || (half == .eq && odd)
  | .rz => false
  | .rup => inexact && !neg
  | .rdn => inexact && neg

/-- The result of an overflow (table Overflow Results). -/
def Fmt.overflow (F : Fmt) (md : Round) (neg : Bool) : Nat :=
  match md with
  | .rne => F.infBits
  | .rz => F.maxBits
  | .rup => if neg then F.maxBits else F.infBits
  | .rdn => if neg then F.infBits else F.maxBits

/-- The discarded part r of 2^k, against one half; `more` says that nonzero digits follow. -/
def halfCmp (r k : Nat) (more : Bool) : Ordering :=
  match compare (2 * r) (2 ^ k) with
  | .eq => if more then .gt else .eq
  | o => o

/-- round of the magnitude m × 2^e, or of a real strictly between m × 2^e and (m + 1) × 2^e where `more` is set; then m has at
least two bits beyond the format's precision (R181). -/
def Fmt.roundMag (F : Fmt) (md : Round) (neg : Bool) (m : Nat) (e : Int) (more : Bool) : FOut :=
  let sign := if neg then F.signBit else 0
  if m = 0 && !more then { bits := sign }
  else
    let top : Int := (bitLen m : Int) + e
    let tiny := top ≤ 1 - F.bias
    if top < F.emin then
      -- below half of the least subnormal
      let up := roundsUp md neg false true .lt
      { bits := sign + (if up then 1 else 0), unf := true }
    else if top > F.bias + 3 then { bits := sign + F.overflow md neg, ovf := true }
    else
      let q := max (top - (F.frac + 1)) F.emin
      let k := (q - e).toNat
      let w := if e ≤ q then m / 2 ^ k else m * 2 ^ (e - q).toNat
      let r := if e ≤ q then m % 2 ^ k else 0
      let inexact := more || r != 0
      let up := roundsUp md neg (w % 2 == 1) inexact (halfCmp r k more)
      let b := (q - F.emin).toNat * 2 ^ F.frac + w + (if up then 1 else 0)
      if F.infBits ≤ b then { bits := sign + F.overflow md neg, ovf := true }
      else { bits := sign + b, unf := tiny && inexact }

/-- round of a nonzero exact real; a zero takes the sign given. -/
def Fmt.roundDy (F : Fmt) (md : Round) (x : Dyadic) (zeroNeg : Bool) : FOut :=
  if x.m = 0 then { bits := if zeroNeg then F.signBit else 0 }
  else F.roundMag md (decide (x.m < 0)) x.m.natAbs x.e false

/-- A value without rounding where the format holds it. -/
def Fmt.encode (F : Fmt) (md : Round) (v : FVal) : FOut :=
  match v with
  | .nan => { bits := F.nanBits }
  | .inf n => { bits := (if n then F.signBit else 0) + F.infBits }
  | .fin n m e => if m = 0 then { bits := if n then F.signBit else 0 } else F.roundMag md n m e false

/-! Events (R188, R192). -/

/-- The counter codes of a result, given what its inputs were. -/
def Fmt.events (F : Fmt) (ins : List FVal) (r : FOut) : List Nat :=
  let v := F.decode r.bits
  (if v.isNan && !ins.any FVal.isNan then [4 * F.num] else []) ++
  (if v.isInf && !ins.any FVal.isInf then [4 * F.num + 1] else []) ++
  (if r.ovf then [4 * F.num + 2] else []) ++ (if r.unf then [4 * F.num + 3] else [])

/-! Sums and products (R194, R195, R166). -/

/-- The sign of an exact zero sum: that of the terms if they are zeros of one sign, else −0 under RDN (R181). -/
def zeroSign (md : Round) (vs : List FVal) : Bool :=
  if vs.all FVal.isZero && (vs.all FVal.neg || vs.all (fun v => !v.neg)) then vs.all FVal.neg else md == .rdn

/-- The exact sum of values, rounded once (R166, R194). -/
def Fmt.sum (F : Fmt) (md : Round) (vs : List FVal) : FOut :=
  if vs.any FVal.isNan || (vs.any (fun v => v.isInf && v.neg) && vs.any (fun v => v.isInf && !v.neg)) then { bits := F.nanBits }
  else if vs.any FVal.isInf then { bits := (if vs.any (fun v => v.isInf && v.neg) then F.signBit else 0) + F.infBits }
  else F.roundDy md (vs.foldl (fun x v => x.add v.dy) ⟨0, 0⟩) (zeroSign md vs)

/-- The exact product of two values: a NaN for 0 × ∞ (R195). -/
def fprod (a b : FVal) : FVal :=
  match a, b with
  | .nan, _ => .nan
  | _, .nan => .nan
  | .inf n, .inf k => .inf (n != k)
  | .inf n, .fin k m _ => if m = 0 then .nan else .inf (n != k)
  | .fin k m _, .inf n => if m = 0 then .nan else .inf (n != k)
  | .fin n m e, .fin k p d => .fin (n != k) (m * p) (e + d)

/-- Addition, multiplication and multiplication with addition (R194). -/
def Fmt.add (F : Fmt) (md : Round) (a b : FVal) : FOut := F.sum md [a, b]
def Fmt.mul (F : Fmt) (md : Round) (a b : FVal) : FOut := F.encode md (fprod a b)
def Fmt.fma (F : Fmt) (md : Round) (a b c : FVal) : FOut := F.sum md [fprod a b, c]

/-- FSCALE: a × 2^k, the exponent never clamped (R194). -/
def Fmt.scale (F : Fmt) (md : Round) (a : FVal) (k : Int) : FOut :=
  match a with
  | .fin n m e => F.encode md (.fin n m (e + k))
  | v => F.encode md v

/-- The magnitude m × 2^e rounded to an integer in a direction. -/
def roundInt (md : Round) (neg : Bool) (m : Nat) (e : Int) : Nat :=
  if 0 ≤ e then m * 2 ^ e.toNat
  else
    let k := (-e).toNat
    if k > bitLen m + 1 then (if roundsUp md neg false (m != 0) .lt then 1 else 0)
    else
      let w := m / 2 ^ k
      let r := m % 2 ^ k
      w + (if roundsUp md neg (w % 2 == 1) (r != 0) (halfCmp r k false) then 1 else 0)

/-- FRND: the nearest integer in the direction; zeros and infinities pass, a result of zero keeps the sign (R194, R195). -/
def Fmt.toIntegral (F : Fmt) (md : Round) (a : FVal) : FOut :=
  match a with
  | .fin n m e => F.encode md (.fin n (roundInt md n m e) 0)
  | v => F.encode md v

/-- −0 below +0, infinities the largest magnitudes: the order of FMIN and FMAX on values that are no NaN (R171, R196). -/
def fless (a b : FVal) : Bool :=
  match a, b with
  | .inf n, .inf k => n && !k
  | .inf n, _ => n
  | _, .inf k => !k
  | x, y => if x.isZero && y.isZero then x.neg && !y.neg else decide (x.dy.cmp y.dy < 0)

/-- Numerical comparison, −0 equal to +0: the sign of a − b for values that are no NaN (R197). -/
def fcmp (a b : FVal) : Int :=
  match a, b with
  | .inf n, .inf k => if n = k then 0 else if n then -1 else 1
  | .inf n, _ => if n then -1 else 1
  | _, .inf k => if k then 1 else -1
  | x, y => x.dy.cmp y.dy

/-- FSETP's comparison codes 0 to 7 (R197). -/
def fcompare (code : Nat) (a b : FVal) : Bool :=
  let u := a.isNan || b.isNan
  match code with
  | 0 => !u && fcmp a b == 0
  | 1 => u || fcmp a b != 0
  | 2 => !u && fcmp a b < 0
  | 3 => !u && fcmp a b ≤ 0
  | 4 => !u && fcmp a b > 0
  | 5 => !u && fcmp a b ≥ 0
  | 6 => !u
  | _ => u

/-- The lesser or the greater of two encodings, NaNs ignored, bits unchanged (R196). -/
def Fmt.minmax (F : Fmt) (isMax : Bool) (a b : Nat) : Nat :=
  let x := F.decode a
  let y := F.decode b
  if x.isNan && y.isNan then F.nanBits
  else if x.isNan then b
  else if y.isNan then a
  else if isMax then (if fless x y then b else a)
  else if fless y x then b else a

/-- The class mask of FCLASS (R198). -/
def Fmt.classify (F : Fmt) (x : Nat) : Nat :=
  let v := F.decode x
  let sub := x / 2 ^ F.frac % 2 ^ F.exp == 0
  match v with
  | .nan => 1
  | .inf n => if n then 2 else 256
  | .fin n m _ =>
    if m = 0 then (if n then 16 else 32)
    else if sub then (if n then 8 else 64)
    else if n then 4 else 128

/-! Sources. -/

/-- The encoding of an integer that the format holds exactly (R88). -/
def Fmt.ofInt (F : Fmt) (x : Int) : Nat := (F.roundDy .rne ⟨x, 0⟩ false).bits

/-- The bits of a scalar floating source: a 16-bit scalar in [15:0], an immediate as the integer converted (R88, R191). -/
def readF (s : State) (t : Nat) (F : Fmt) (o : Opnd) : Nat :=
  match o with
  | .imm n => F.ofInt n.toInt
  | _ => (read32 s t o).toNat % 2 ^ F.width

/-- Half h of a packed pair; an immediate supplies both halves (R173, R201). -/
def readHalf (s : State) (t : Nat) (F : Fmt) (o : Opnd) (h : Nat) : Nat :=
  match o with
  | .imm n => F.ofInt n.toInt
  | _ => (read32 s t o).toNat / 2 ^ (16 * h) % 2 ^ 16

/-! The formats of pages (R175 to R178). -/

/-- A finite or infinite F8 value is exact in BF16; a NaN becomes the default NaN (R177). -/
def f8ToBf16 (F : Fmt) (x : Nat) : Nat := (fmtBF16.encode .rne (F.decode x)).bits

/-- The magnitude distance of two finite values. -/
def fdist (a b : FVal) : Dyadic :=
  let d := a.dy.add ⟨-b.dy.m, b.dy.e⟩
  ⟨d.m.natAbs, d.e⟩

/-- The lowest index among those that pass, of the best under `better`. -/
def bestIx (l : List (Nat × FVal)) (ok : FVal → Bool) (better : FVal → FVal → Bool) : Option Nat :=
  (l.foldl (fun (acc : Option (Nat × FVal)) x =>
    if ok x.2 then
      match acc with
      | none => some x
      | some y => if better x.2 y.2 then some x else acc
    else acc) none).map Prod.fst

/-- The greater magnitude. -/
def fbigger (a b : FVal) : Bool :=
  match a, b with
  | .inf _, .inf _ => false
  | .inf _, _ => true
  | _, .inf _ => false
  | x, y => Dyadic.cmp ⟨x.dy.m.natAbs, x.dy.e⟩ ⟨y.dy.m.natAbs, y.dy.e⟩ > 0

/-- The C4 code of a BF16 value under a slot's entries (R178). -/
def c4Encode (book : List (BitVec 16)) (x : Nat) : Nat :=
  let l : List (Nat × FVal) := (List.range 16).map (fun i => (i, fmtBF16.decode (book.getD i 0).toNat))
  let lowest (ok : FVal → Bool) : Option Nat := bestIx l ok (fun _ _ => false)
  let v := fmtBF16.decode x
  match v with
  | .nan => (lowest FVal.isNan).getD 0
  | .inf n =>
    match lowest (fun y => y.isInf && y.neg == n) with
    | some i => i
    | none =>
      match bestIx l (fun y => !y.isNan && y.neg == n) fbigger with
      | some i => i
      | none =>
        (bestIx l (fun y => !y.isNan) (fun a b => if n then fcmp a b < 0 else fcmp a b > 0)).getD 0
  | .fin n _ _ =>
    match bestIx l (fun y => !y.isNan && !y.isInf) (fun a b => (fdist a v).cmp (fdist b v) < 0) with
    | some i => i
    | none =>
      match lowest (fun y => y.isInf && y.neg == n) with
      | some i => i
      | none => (lowest FVal.isInf).getD 0

/-! The matrix engine's chunks (R184). -/

/-- The sum of a chunk of products, rounded once to FP32 (R184). -/
def chunkSum (md : Round) (ps : List FVal) : FOut :=
  let F := fmtF32
  if ps.any FVal.isNan || (ps.any (fun v => v.isInf && v.neg) && ps.any (fun v => v.isInf && !v.neg)) then { bits := F.nanBits }
  else if ps.any FVal.isInf then { bits := (if ps.any (fun v => v.isInf && v.neg) then F.signBit else 0) + F.infBits }
  else
    F.roundDy md (ps.foldl (fun x v => x.add v.dy) ⟨0, 0⟩) (ps.all (fun v => v.isZero && v.neg) || md == .rdn)

end Sys2Proof.Machine
end

