-- ==== Sys2Proof/Machine/Collective.lean ====
section
/-! DEFINITION. The gang collectives (R120 to R122, R162 to R169). -/

namespace Sys2Proof.Machine

/-- The member mask that a thread reads: C under .M, else every launched lane (R163). -/
def maskRead (s : State) (f : Fields) (t : Nat) : Nat :=
  if f.bit 3 then (read32 s t f.c).toNat else launchedMask s t

/-- The lanes of a thread's member set (R163). -/
def memberLanes (s : State) (f : Fields) (t : Nat) : List Nat := memberLanesOf s (maskRead s f t) t

/-- The hold of a collective, under its mask operand (R120). -/
def memberHold (f : Fields) : Why := .member (if f.bit 3 then some f.c else none)

/-- The lanes of a gang present at the collective: held here with a true guard (R121, R163). -/
def presentLanes (s : State) (f : Fields) (g : Nat) : List Nat :=
  ((s.heldAt g s.pc).filter (fun t => guardTrue s t f)).map laneOf

/-- A collective as its results see it: the state at its issue, its fields, the present lanes of the gang. -/
structure Coll where
  s : State
  f : Fields
  present : List Nat

/-- The present members of a thread's member set, ascending. -/
def Coll.members (c : Coll) (t : Nat) : List Nat := (memberLanes c.s c.f t).filter (fun l => c.present.contains l)

/-- The value of A in a lane of the thread's gang. -/
def Coll.value (c : Coll) (t l : Nat) : DWord := readTy c.s (threadAt (gangOf t) l) c.f.ty c.f.a

/-- A result of a collective: its writes and its floating-point events. -/
abbrev CollOut := List Wr × List Nat

/-- The collective performed for one gang, once its hold has ended; a mismatch of the masks read traps every held thread
(R120). The held threads issue as one group: where one of them stands outside the group, they wait for a group of their own. -/
def collectGang (op : Nat) (f : Fields) (preds : List Nat) (out : Coll → Nat → Label → CollOut) (s : State) (g : Nat) : State :=
  let h := s.heldAt g s.pc
  let ms := (h.filter (fun t => guardTrue s t f)).map (maskRead s f)
  if !h.all s.group.contains then s
  else if ms.any (fun m => ms.head? != some m) then
    h.foldl (fun s' t => applyTrap op f s t 6 0 false (s'.unblock t)) s
  else if s.holdEnds g s.pc then
    (recheck op f preds [] h s).getD (perform op f h (fun s' t =>
      let r := out { s := s', f := f, present := presentLanes s f g } t (labelOf s' op f t)
      { writes := r.1, events := r.2 }) s)
  else s

/-- A collective issued for the group: arrival, hold, and the gangs whose hold ends. -/
def runCollective (op : Nat) (f : Fields) (preds : List Nat) (out : Coll → Nat → Label → CollOut) (s : State) : State :=
  (gangsOf s.group).foldl (collectGang op f preds out) (arrive op f preds [] (memberHold f) s)

/-! Shuffles (R164). -/

/-- The four shuffles. -/
inductive Shfl where
  | idx | rot | xor | rev
  deriving DecidableEq, Repr

/-- The lane that a shuffle names; none outside the tile under .CLIP (R164). -/
def shflSource (k : Shfl) (clip : Bool) (w base l : Nat) (i : Word) : Option Nat :=
  match k with
  | .idx => some (base + i.toNat % w)
  | .rot =>
    let x : Int := (l : Int) + i.toInt
    if clip then (if (base : Int) ≤ x ∧ x < base + w then some x.toNat else none)
    else some (base + (((l - base : Nat) : Int) + i.toInt).emod w |>.toNat)
  | .xor => some (base + ((l - base) ^^^ i.toNat) % w)
  | .rev => some (base + (w - 1 - (l - base) + i.toNat) % w)

/-- A shuffle's value and its out-of-range predicate (R121, R164). -/
def shflOut (k : Shfl) (c : Coll) (t : Nat) (l : Label) : CollOut :=
  let g := gangOf t
  let ms := c.members t
  match shflSource k (c.f.bit 4) (tileWidth c.s g) (tileBase c.s g (laneOf t)) (laneOf t) (read32 c.s t c.f.b) with
  | some src =>
    if ms.contains src then (wrTy c.f.ty c.f.d (c.value t src) l ++ [.pred (c.f.bits 0 3) false l], [])
    else (wrTy c.f.ty c.f.d (c.value t (laneOf t)) l ++ [.pred (c.f.bits 0 3) true l], [])
  | none => (wrTy c.f.ty c.f.d (c.value t (laneOf t)) l ++ [.pred (c.f.bits 0 3) true l], [])

def runShfl (op : Nat) (k : Shfl) (f : Fields) (s : State) : State :=
  runCollective op f (modPred (f.bits 0 3)) (shflOut k) s

def execShflIdx (f : Fields) (s : State) : Host.Outcome State Fault Refusal := .next (runShfl 0x0C0 .idx f s)
def execShflRot (f : Fields) (s : State) : Host.Outcome State Fault Refusal := .next (runShfl 0x0C1 .rot f s)
def execShflXor (f : Fields) (s : State) : Host.Outcome State Fault Refusal := .next (runShfl 0x0C2 .xor f s)
def execShflRev (f : Fields) (s : State) : Host.Outcome State Fault Refusal := .next (runShfl 0x0C3 .rev f s)

/-! Votes (R165). -/

/-- A(l) of a vote: the predicate of a present lane. -/
def voteOf (c : Coll) (t l : Nat) : Bool := c.present.contains l && readPred c.s (threadAt (gangOf t) l) c.f.a

def voteAll (c : Coll) (t : Nat) (l : Label) : CollOut :=
  (wrPred c.f.d ((memberLanes c.s c.f t).all (voteOf c t)) l, [])
def voteAny (c : Coll) (t : Nat) (l : Label) : CollOut :=
  (wrPred c.f.d ((memberLanes c.s c.f t).any (voteOf c t)) l, [])
def voteBallot (c : Coll) (t : Nat) (l : Label) : CollOut :=
  (wr32 c.f.d (BitVec.ofNat 32 (((memberLanes c.s c.f t).filter (voteOf c t)).foldl (fun m k => m + 2 ^ k) 0)) l, [])

def execVoteAll (f : Fields) (s : State) : Host.Outcome State Fault Refusal := .next (runCollective 0x0C4 f [] voteAll s)
def execVoteAny (f : Fields) (s : State) : Host.Outcome State Fault Refusal := .next (runCollective 0x0C5 f [] voteAny s)
def execVoteBallot (f : Fields) (s : State) : Host.Outcome State Fault Refusal :=
  .next (runCollective 0x0C6 f [] voteBallot s)

/-! Reductions and scans (R166, R167). -/

/-- A value of a collective as FP32 bits; an immediate converts (R88). -/
def Coll.f32 (c : Coll) (t l : Nat) : Nat := readF c.s (threadAt (gangOf t) l) fmtF32 c.f.a

/-- The exact sum of lanes' values: wrapped under an integer type, rounded once under .F32. -/
def sumLanes (c : Coll) (t : Nat) (ls : List Nat) (l : Label) : CollOut :=
  if c.f.ty == .f32 then
    let vs := ls.map (fun k => fmtF32.decode (c.f32 t k))
    let r := fmtF32.sum (rm c.s t c.f) vs
    (wr32 c.f.d (BitVec.ofNat 32 r.bits) l, fmtF32.events vs r)
  else
    let x : Int := ls.foldl (fun k i => k + asInt c.f.ty (c.value t i)) 0
    (wrTy c.f.ty c.f.d (narrow c.f.ty false x) l, [])

def redgAdd (c : Coll) (t : Nat) (l : Label) : CollOut := sumLanes c t (c.members t) l

/-- The least or greatest of the present members' values (R166). -/
def redgPick (isMax : Bool) (c : Coll) (t : Nat) (l : Label) : CollOut :=
  if c.f.ty == .f32 then
    (wr32 c.f.d (BitVec.ofNat 32 ((c.members t).foldl (fun k i => fmtF32.minmax isMax k (c.f32 t i)) fmtF32.nanBits)) l, [])
  else
    let vs := (c.members t).map (fun i => asInt c.f.ty (c.value t i))
    let x := vs.foldl (fun a b => if isMax then max a b else min a b) (vs.headD 0)
    (wrTy c.f.ty c.f.d (narrow c.f.ty false x) l, [])

/-- The present members of a thread's segment up to the thread: from the last segment start (R167). -/
def segment (c : Coll) (t : Nat) : List Nat :=
  ((c.members t).filter (fun k => k ≤ laneOf t)).foldl
    (fun acc k => if readPred c.s (threadAt (gangOf t) k) c.f.b then [k] else acc ++ [k]) []

def scang (c : Coll) (t : Nat) (l : Label) : CollOut := sumLanes c t (segment c t) l

def execRedgAdd (f : Fields) (s : State) : Host.Outcome State Fault Refusal := .next (runCollective 0x0C7 f [] redgAdd s)
def execRedgMin (f : Fields) (s : State) : Host.Outcome State Fault Refusal :=
  .next (runCollective 0x0C8 f [] (redgPick false) s)
def execRedgMax (f : Fields) (s : State) : Host.Outcome State Fault Refusal :=
  .next (runCollective 0x0C9 f [] (redgPick true) s)
def execScang (f : Fields) (s : State) : Host.Outcome State Fault Refusal := .next (runCollective 0x0CA f [] scang s)

/-! MATCH and ELECT (R168). -/

def matchOut (c : Coll) (t : Nat) (l : Label) : CollOut :=
  (wr32 c.f.d (BitVec.ofNat 32
    (((c.members t).filter (fun k => c.value t k == c.value t (laneOf t))).foldl (fun m k => m + 2 ^ k) 0)) l, [])

def electOut (c : Coll) (t : Nat) (l : Label) : CollOut :=
  (wrPred c.f.d ((c.members t).head? == some (laneOf t)) l, [])

def execMatchG (f : Fields) (s : State) : Host.Outcome State Fault Refusal := .next (runCollective 0x0CB f [] matchOut s)
def execElect (f : Fields) (s : State) : Host.Outcome State Fault Refusal := .next (runCollective 0x0CC f [] electOut s)

end Sys2Proof.Machine
end

