-- ==== Sys2Proof/Machine/Control.lean ====
section
/-! DEFINITION. The control instructions (R134 to R140). -/

namespace Sys2Proof.Machine

/-- A branch target is refused below 0, at or above 2^48, or off a 4-byte boundary (R81, R135). -/
def badTarget (x : Int) : Bool := decide (x < 0) || decide ((2 : Int) ^ 48 ≤ x) || x % 4 != 0

/-- The target of BRA and CALL: exact, not wrapped (R135). -/
def relTarget (s : State) (f : Fields) : Int := (s.pc.toNat : Int) + 12 * f.imm20

/-- The target of BRX, CALLX and RET: the pair of A (R135). -/
def pairTarget (s : State) (f : Fields) (t : Nat) : Int := ((read64 s t f.a).toNat : Int)

/-- A taken branch: the instruction-address trap, or the link written and the target reached, which is a trap-check point
(R135, R401). -/
def branchTo (tgt : Int) (ws : List Wr) : Res :=
  if badTarget tgt then .trap 3 (wrap32 tgt) false
  else .go { writes := ws, next := some (BitVec.ofInt 48 tgt), check := true }

/-- The link: the address of the next instruction, bits [63:48] zero (R135). -/
def linkOf (s : State) (op : Nat) (f : Fields) (t : Nat) : List Wr :=
  wr64 f.d ((nextPc s.pc).setWidth 64) (labelOf s op f t)

/-- The label that a branch adds to the control label of every gang of its group: that of a guard other than pt, and of a
register target (R131). -/
def branchLabel (s : State) (op : Nat) (f : Fields) (g : Nat) : Label :=
  (s.gang g).predLabel f.gp.toNat ||| opndLabel s (threadAt g 0) (slotsOf op f).a f.a

/-- A branch issued for the group. -/
def runBranch (op : Nat) (f : Fields) (eff : State → Nat → Res) (s : State) : State :=
  let l := judge s op f [] [] eff
  let issued := l.filterMap (fun x => match x.2 with
    | some (.block _) => none
    | _ => some x.1)
  (gangsOf issued).foldl (fun s' g => s'.modGang g (fun x => x.widen (branchLabel s op f g))) (runGroup op f [] [] eff s)

def execBra (f : Fields) (s : State) : Host.Outcome State Fault Refusal :=
  .next (runBranch 0x001 f (fun s _ => branchTo (relTarget s f) []) s)

def execBrx (f : Fields) (s : State) : Host.Outcome State Fault Refusal :=
  .next (runBranch 0x002 f (fun s t => branchTo (pairTarget s f t) []) s)

def execCall (f : Fields) (s : State) : Host.Outcome State Fault Refusal :=
  .next (runBranch 0x003 f (fun s t => branchTo (relTarget s f) (linkOf s 0x003 f t)) s)

def execCallx (f : Fields) (s : State) : Host.Outcome State Fault Refusal :=
  .next (runBranch 0x004 f (fun s t => branchTo (pairTarget s f t) (linkOf s 0x004 f t)) s)

def execRet (f : Fields) (s : State) : Host.Outcome State Fault Refusal :=
  .next (runBranch 0x005 f (fun s t => branchTo (pairTarget s f t) []) s)

/-- The thread's own writes that have been issued and not performed, recorded or refused (R136, R402). -/
def State.ownWrites (s : State) (t : Nat) : List (Nat × Access) :=
  s.accesses.filter (fun e => e.2.thread == t && e.2.kind.isWrite)

/-- A trap-check point that names the instruction itself (table Trap-Check Points). -/
def checkHere (s : State) (t : Nat) (e : Res) : Res :=
  if s.mustDeliver t then .trap 23 (BitVec.ofNat 32 ((s.pendingRecords (gangOf t)).length % 32)) false else e

def exitEff (s : State) (t : Nat) : Res :=
  if !(s.ownWrites t).isEmpty then .block .writes else checkHere s t (.go { exits := true })

def execExitI (f : Fields) (s : State) : Host.Outcome State Fault Refusal :=
  .next (runGroup 0x006 f [] [] exitEff s)

def execYieldI (f : Fields) (s : State) : Host.Outcome State Fault Refusal :=
  .next (runGroup 0x007 f [] [] (fun _ _ => .go { yields := true }) s)

def execNop (f : Fields) (s : State) : Host.Outcome State Fault Refusal :=
  .next (runGroup 0x008 f [] [] (fun _ _ => .go {}) s)

/-- The class that SETPRI gives (R138). -/
def setpriClass (s : State) (f : Fields) (t : Nat) : Nat :=
  min (min (read32 s t f.a).toNat 3) (s.unit (unitOfThread t)).ceiling

def execSetpri (f : Fields) (s : State) : Host.Outcome State Fault Refusal :=
  .next (runGroup 0x009 f [] [] (fun s t => .go { cls := some (setpriClass s f t) }) s)

def execBpt (f : Fields) (s : State) : Host.Outcome State Fault Refusal :=
  .next (runGroup 0x00A f [] [] (fun _ _ => .trap 7 (BitVec.ofNat 32 f.low) false) s)

def execTrapI (f : Fields) (s : State) : Host.Outcome State Fault Refusal :=
  .next (runGroup 0x00B f [] [] (fun _ _ => .trap 8 (BitVec.ofNat 32 f.low) true) s)

end Sys2Proof.Machine
end

