-- ==== Sys2Proof/Machine/Memory.lean ====
section
/-! DEFINITION. Memory below the load-store units: address formation, the page table and the TLB, sparse-existence regions with
their births and erasures, lines with leases and completion times, and the pieces of an access (11, 12, 19). -/

namespace Sys2Proof.Machine

/-! Address formation (R230 to R232). -/

/-- Bits of an element of a record's size (R230). -/
def elemBits (size : Nat) : Nat := if size = 0 then 4 else 8 * 2 ^ (size - 1)

/-- Rows and columns of a swizzle's tiles (R232). -/
def tileRows (sw : Nat) : Nat := if sw = 1 then 32 else 16
def tileCols (sw : Nat) : Nat := if sw = 1 then 32 else 64

/-- The record test of R231. -/
def Rec.bad (r : Rec) : Bool :=
  r.reserved != 0 || 6 ≤ r.size || r.swizzle == 3 || (r.size == 0 && r.swizzle == 0 && r.stride != 0) ||
    ((r.swizzle == 1 || r.swizzle == 2) &&
      (8 * r.stride % elemBits r.size != 0 || 8 * r.stride / elemBits r.size == 0 ||
        8 * r.stride / elemBits r.size % tileCols r.swizzle != 0))

/-- The position of element i in bits (R232). -/
def Rec.pos (r : Rec) (i : Nat) : Nat :=
  let bits := elemBits r.size
  if r.swizzle = 0 then (if r.stride = 0 then i * bits else i * r.stride * 8)
  else
    let w := 8 * r.stride / bits
    let th := tileRows r.swizzle
    let tw := tileCols r.swizzle
    let row := i / w
    let col := i % w
    let tile := row / th * (w / tw) + col / tw
    (tile * th * tw + row % th * tw + col % tw) * bits

/-- The address of element i at byte offset d: exact, without the bounds test (R232, R233). -/
def Rec.addr (r : Rec) (i : Nat) (d : Int) : Int := (r.base : Int) + ((r.pos i / 8 : Nat) : Int) + d

/-- The bounds test (R232). -/
def Rec.oob (r : Rec) (i : Nat) (d : Int) (width : Nat) : Bool :=
  decide (r.extent ≤ i) || decide (r.addr i d < 0) || decide ((vaTop : Int) < r.addr i d + width)

/-! The page table (R237, R238). -/

/-- A valid leaf (table Leaf Entry). -/
structure Leaf where
  r : Bool
  w : Bool
  x : Bool
  cls : Nat
  format : Nat
  slot : Nat
  geometry : Nat
  policy : Nat
  label : Label
  /-- partition-relative physical address. -/
  frame : Nat
  level : Nat
  deriving DecidableEq, Repr

/-- The bytes that a leaf of a level maps. -/
def pageSize (level : Nat) : Nat :=
  match level with
  | 0 => 2 ^ 12
  | 1 => 2 ^ 16
  | 2 => 2 ^ 21
  | _ => 2 ^ 30

/-- The first VA bit that a level's index takes, and the number of its bits (table Address Division). -/
def levelShift (level : Nat) : Nat :=
  match level with
  | 0 => 12
  | 1 => 16
  | 2 => 21
  | 3 => 30
  | _ => 39
def levelBits (level : Nat) : Nat :=
  match level with
  | 0 => 4
  | 1 => 5
  | _ => 9

/-- The fields of a leaf entry. -/
def leafOf (e level : Nat) : Leaf :=
  { r := e.testBit 2, w := e.testBit 3, x := e.testBit 4, cls := e / 2 ^ 5 % 4, format := e / 2 ^ 7 % 4, slot := e / 2 ^ 9 % 64,
    geometry := e / 2 ^ 15 % 4, policy := e / 2 ^ 17 % 4, label := BitVec.ofNat 16 (e / 2 ^ 20),
    frame := e / 2 ^ 36 % 2 ^ 28 * 2 ^ 12, level := level }

/-- A malformed leaf value: an illegal code, a reserved bit, or a frame off its page size (R238). -/
def badLeaf (e level : Nat) : Bool :=
  let l := leafOf e level
  level == 4 || l.cls == 3 || l.geometry == 3 || 2 ≤ l.policy || e.testBit 19 ||
    (l.cls != 1 && l.frame % pageSize level != 0)

/-- What a walk finds. -/
inductive Walk where
  /-- not present, with the host-resident bit and the level of the entry. -/
  | absent (hostResident : Bool) (level : Nat)
  | malformed
  | leaf (l : Leaf)
  deriving DecidableEq, Repr

/-- A partition-relative physical address on the device (R8, R60). -/
def Partition.phys (p : Partition) (rel : Nat) : Nat := p.first * 2 ^ 36 + rel

/-- The partition-relative base of the page-table gigabyte: the top 1 GiB of the lowest stack (R241); the root table stands at
it (log 9). -/
def tableBase : Nat := 2 ^ 36 - 2 ^ 30

/-- The bytes of a partition's stacks. -/
def Partition.bytes (p : Partition) : Nat := p.size * 2 ^ 36

/-- The 64-bit entry of a table for a virtual address. -/
def entryAddr (p : Partition) (table va level : Nat) : Nat :=
  p.phys (table + 8 * (va / 2 ^ levelShift level % 2 ^ levelBits level))

/-- The walk from a table of a level downwards (R237, R238). -/
def walkFrom (m : Memory) (p : Partition) : Nat → Nat → Nat → Walk
  | level, table, va =>
    let e := leNat (m.read (entryAddr p table va level) 8)
    if e % 2 = 0 then .absent (e.testBit 1) level
    else if e.testBit 1 then (if badLeaf e level then .malformed else .leaf (leafOf e level))
    else
      match level with
      | 0 => .malformed
      | l + 1 =>
        if e / 4 % 2 ^ 5 != 0 || e / 2 ^ 40 != 0 then .malformed
        else walkFrom m p l (e % 2 ^ 40 / 2 ^ 7 * 2 ^ 7) va

/-- The walk of a virtual address of a partition. -/
def walk (s : State) (part va : Nat) : Walk := walkFrom s.mem (s.part part) 4 tableBase va

/-- The window of argument areas and trap stacks starts here (R451; log 9). -/
def windowBase : Nat := 2 ^ 48 - 2 ^ 32
/-- Trap stacks stand in the upper half of the window (log 9). -/
def stackWindow : Nat := 2 ^ 48 - 2 ^ 31

/-! Regions (R251 to R255). -/

/-- The S fields of a region descriptor (table Region Descriptor), physical addresses on the device. -/
structure Region where
  desc : Nat
  vbase : Nat
  tiles : Nat
  tile : Nat
  pattern : Nat
  limit : Nat
  capacity : Nat
  pool : Nat
  map : Nat
  dir : Nat
  deriving DecidableEq, Repr

/-- A physical range lies in one stack of the partition and outside the page-table gigabyte (R254). -/
def placed (p : Partition) (stack rel n : Nat) : Bool :=
  rel / 2 ^ 36 == stack && (n == 0 || (rel + n - 1) / 2 ^ 36 == stack) && rel + n ≤ p.bytes &&
    !(rel < tableBase + 2 ^ 30 && tableBase < rel + n)

/-- The region that a class-1 leaf names; none where a check of R254 fails. -/
def readRegion (s : State) (part : Nat) (l : Leaf) : Option Region :=
  let p := s.part part
  let d := leNat (s.mem.read (p.phys l.frame) 64)
  let fld (lo n : Nat) : Nat := d / 2 ^ lo % 2 ^ n
  let tile := match fld 96 2 with
    | 0 => 256
    | 1 => 1024
    | 2 => 4096
    | _ => 16384
  let stack := l.frame / 2 ^ 36
  let r : Region :=
    { desc := p.phys l.frame, vbase := fld 0 48, tiles := fld 64 32, tile := tile, pattern := fld 128 32,
      limit := min (fld 160 32) (fld 192 32), capacity := fld 192 32, pool := p.phys (fld 320 40), map := p.phys (fld 384 40),
      dir := p.phys (fld 448 40) }
  let reservedOk := fld 48 16 == 0 && fld 98 30 == 0 && fld 360 24 == 0 && fld 424 24 == 0 && fld 488 24 == 0
  let aligned := r.vbase % tile == 0 && 0 < r.tiles && fld 320 40 % tile == 0 && fld 384 40 % 128 == 0 && fld 448 40 % 128 == 0
  let inside := placed p stack l.frame 64 && placed p stack (fld 384 40) ((r.tiles + 7) / 8) &&
    placed p stack (fld 448 40) (4 * r.tiles) && (r.capacity == 0 || placed p stack (fld 320 40) (r.capacity * tile))
  if reservedOk && aligned && inside then some r else none

/-- The tile of an address (R257). -/
def Region.tileOf (r : Region) (va : Nat) : Nat := (va - r.vbase) / r.tile
/-- The address lies in the region's range (R254). -/
def Region.holds (r : Region) (va : Nat) : Bool := r.vbase ≤ va && va < r.vbase + r.tiles * r.tile
/-- The tile exists: its map bit (R253). -/
def Region.exists (s : State) (r : Region) (i : Nat) : Bool := (s.mem.get (r.map + i / 8)).getLsbD (i % 8)
/-- The pool tile that stores a tile that exists (R253). -/
def Region.poolTile (s : State) (r : Region) (i : Nat) : Nat := leNat (s.mem.read (r.dir + 4 * i) 4)
/-- Byte o of an absent tile: the pattern repeated (R257). -/
def Region.patternByte (r : Region) (o : Nat) : Byte := BitVec.ofNat 8 (r.pattern / 256 ^ (o % 4) % 256)

/-! Lines, leases and completion times (R245, R354 to R357). -/

/-- The slice that owns a physical address (R8). -/
def sliceOfPhys (pa : Nat) : Nat := pa / 2 ^ 36

/-- The lease length of a slice in time ticks: from 64 to 4,096 ns (R355). -/
def leaseTicks (s : State) (slice : Nat) : Nat := 12 * min (max ((s.slice slice).lease.toNat % 2 ^ 13) 64) 4096

/-- The completion time of a write performed now to a line: the greater of now and the line's horizon (R357). -/
def writeTime (s : State) (slice key : Nat) : Nat := max s.time (tabGetD 0 (s.slice slice).horizon key)

/-- A shoot-down of the partition that covers an address has not been acknowledged (R243). -/
def State.shootingOver (s : State) (part va : Nat) : Bool :=
  (s.part part).shooting.any (fun x => x.2.1 ≤ va && va < x.2.1 + x.2.2)

/-- The line's value completion time recorded (R357). -/
def State.setLineG (s : State) (slice key g : Nat) : State :=
  s.modSlice slice (fun x => { x with lineG := tabSetD 0 x.lineG key g })

/-- A lease granted: the horizon rises to its expiry (R356). -/
def State.grant (s : State) (slice key expiry : Nat) : State :=
  s.modSlice slice (fun x => { x with horizon := tabSetD 0 x.horizon key (max expiry (tabGetD 0 x.horizon key)) })

/-- The core whose L1 holds a line for accesses of a core: the one that bits [8:7] name in a fused cluster, SIMT core 0 for a
control core (R13, R245). -/
def l1Core (s : State) (core line : Nat) : Nat :=
  let cl := core / 5
  if (s.cluster cl).fused then 5 * cl + line % 4 else if core % 5 = 4 then 5 * cl else core

/-! Pieces of an access (R234, R236). -/

/-- Where a piece's bytes lie. -/
inductive Home where
  /-- a physical address of the package. -/
  | phys (pa : Nat)
  /-- a tile of a region. -/
  | tile (r : Region) (i : Nat)
  /-- another device of the load-store domain (R432). -/
  | remote (device offset : Nat)
  /-- the trap stack of a gang, and the offset in it (R406). -/
  | stack (gang offset : Nat)
  deriving DecidableEq, Repr

/-- The part of an access that lies in one sector. -/
structure Piece where
  va : Nat
  n : Nat
  leaf : Leaf
  home : Home
  deriving DecidableEq, Repr

/-- Why an access is held or refused before its format and label are looked at (tests 4 and 5 of R289). -/
inductive Reach where
  | held (va : Nat) (hostResident : Bool) (level : Nat)
  /-- reason 1 permission, 2 malformed leaf or region range (R399). -/
  | refused (reason va : Nat)
  | ok (l : List Piece)
  deriving DecidableEq, Repr

/-- The spans of [a, a + n) within sectors of 32 B. -/
def spans : Nat → Nat → Nat → List (Nat × Nat)
  | 0, _, _ => []
  | fuel + 1, a, n =>
    if n = 0 then []
    else
      let k := min n (32 - a % 32)
      (a, k) :: spans fuel (a + k) (n - k)

/-- The pseudo-leaf of a trap stack: readable and writable device-private memory (R406). -/
def stackLeaf : Leaf :=
  { r := true, w := true, x := false, cls := 2, format := 0, slot := 0, geometry := 0, policy := 0, label := 0, frame := 0, level := 0 }

/-- The gang of a partition whose trap stack holds an address. -/
def stackGang (s : State) (part va : Nat) : Option Nat :=
  (s.gangs.find? (fun e => e.2.stackBase ≤ va && va < e.2.stackBase + e.2.stackBytes && !e.2.ended &&
    (s.unit (unitOf e.1)).part == part && 0 < e.2.stackBase)).map Prod.fst

/-- Through what an access is translated: the leaves that its pass has found for its lines, the core's TLB, and the L2 TLB of the core's
slice, where they still hold the entry (R234, R240). -/
structure Via where
  pins : List (Nat × DWord × Nat) := []
  tlb : Bool := false
  l2tlb : Bool := false

/-- What an event picks of the TLBs. -/
def pickVia (k : Pick) : Via := { tlb := k.tlb, l2tlb := k.l2tlb }

/-- The leaf that a TLB holds for an address. -/
def tlbFind (t : List (Nat × DWord × Nat)) (va : Nat) : Option Leaf :=
  (t.find? (fun e => e.1 ≤ va / 4096 && va / 4096 < e.1 + pageSize e.2.2 / 4096)).map (fun e => leafOf e.2.1.toNat e.2.2)

/-- The walk of an address as a core sees it: the leaf that its pass found, a TLB's leaf while it is still held, else the page table
(R234, R240). -/
def coreWalk (s : State) (core part va : Nat) (via : Via) : Walk :=
  let pinned := (via.pins.find? (fun e => e.1 == va / 128)).map (fun e => leafOf e.2.1.toNat e.2.2)
  let first := if via.tlb then tlbFind (s.core core).tlb va else none
  let second := if via.l2tlb then tlbFind (s.slice (core / 40)).tlb va else none
  match (pinned.orElse (fun _ => first)).orElse (fun _ => second) with
  | some l => .leaf l
  | none => walk s part va

/-- A leaf as its 64-bit entry. -/
def leafBits (l : Leaf) : Nat :=
  3 + (if l.r then 4 else 0) + (if l.w then 8 else 0) + (if l.x then 16 else 0) + l.cls * 2 ^ 5 + l.format * 2 ^ 7 +
    l.slot * 2 ^ 9 + l.geometry * 2 ^ 15 + l.policy * 2 ^ 17 + l.label.toNat * 2 ^ 20 + l.frame / 2 ^ 12 * 2 ^ 36

/-- A leaf entered into a TLB of some entries; the oldest entry makes room (R240, log 17). -/
def tlbPut (size : Nat) (t : List (Nat × DWord × Nat)) (va : Nat) (l : Leaf) : List (Nat × DWord × Nat) :=
  let n := pageSize l.level / 4096
  let b := va / 4096 / n * n
  ((b, BitVec.ofNat 64 (leafBits l), l.level) :: t.filter (fun e => e.1 != b)).take size

/-- A core stands in a power-gated domain, whose TLBs hold no entries (R244, R436). -/
def State.gatedCore (s : State) (core : Nat) : Bool := !(s.slice (core / 40)).ungated

/-- The leaf of an address entered into the core's TLB and into its slice's L2 TLB, unless their domain is gated; only valid leaves are cached
(R240, R244). -/
def State.cacheLeaf (s : State) (core va : Nat) (l : Leaf) : State :=
  if s.gatedCore core then s
  else (s.modCore core (fun c => { c with tlb := tlbPut 128 c.tlb va l })).modSlice (core / 40) (fun x => { x with tlb := tlbPut 8192 x.tlb va l })

/-- Where a byte of a page lies; the refusal of R254 for a region (test 5). -/
def homeOf (s : State) (part va : Nat) (l : Leaf) : Except Nat Home :=
  let p := s.part part
  if l.cls = 1 then
    match readRegion s part l with
    | none => .error 2
    | some r => if r.holds va then .ok (.tile r (r.tileOf va)) else .error 2
  else if 0xC000000000 ≤ l.frame then .ok (.remote (l.frame / 2 ^ 32 % 64) ((l.frame + va % pageSize l.level) % 2 ^ 32))
  else .ok (.phys (p.phys (l.frame + va % pageSize l.level)))

/-- What an access needs of a page. -/
structure Need where
  r : Bool := false
  w : Bool := false
  x : Bool := false

/-- The permission of a leaf. -/
def Leaf.allows (l : Leaf) (n : Need) : Bool := (!n.r || l.r) && (!n.w || l.w) && (!n.x || l.x)

/-- The walk of one span's address: an absent page, a refusal, or its piece. -/
def reachSpan (s : State) (core part : Nat) (via : Via) (need : Need) (sp : Nat × Nat) : Reach :=
  if sp.1 < 2 ^ 16 || vaTop ≤ sp.1 then .refused 1 sp.1
  else
    match stackGang s part sp.1 with
    | some g => .ok [{ va := sp.1, n := sp.2, leaf := stackLeaf, home := .stack g (sp.1 - (s.gang g).stackBase) }]
    | none =>
      match coreWalk s core part sp.1 via with
      | .absent h level => .held sp.1 h level
      | .malformed => .refused 2 sp.1
      | .leaf l =>
        if !l.allows need then .refused 1 sp.1
        else
          match homeOf s part sp.1 l with
          | .error k => .refused k sp.1
          | .ok h => .ok [{ va := sp.1, n := sp.2, leaf := l, home := h }]

/-- Tests 4 and 5 for the bytes [va, va + n): every page is translated first, then permissions are looked at (R235, R289). -/
def reach (s : State) (core part va n : Nat) (via : Via) (need : Need) : Reach :=
  let rs := (spans (n / 32 + 2) va n).map (reachSpan s core part via need)
  match rs.find? (fun r => match r with
    | .held _ _ _ => true
    | _ => false) with
  | some h => h
  | none =>
    match rs.find? (fun r => match r with
      | .refused _ _ => true
      | _ => false) with
    | some h => h
    | none => .ok (rs.flatMap (fun r => match r with
      | .ok l => l
      | _ => []))

/-- The leaves of the pieces entered into the TLBs. -/
def State.cachePieces (s : State) (core : Nat) (ps : List Piece) : State :=
  ps.foldl (fun s p => match p.home with
    | .stack _ _ => s
    | _ => s.cacheLeaf core p.va p.leaf) s

/-- The union of the page labels of the pieces. -/
def pagesLabel (ps : List Piece) : Label := ps.foldl (fun l p => l ||| p.leaf.label) 0

/-- The bytes of a region's tile as they stand: stored, or the pattern (R257). -/
def tileBytes (s : State) (r : Region) (i va n : Nat) : List Byte :=
  let o := (va - r.vbase) % r.tile
  if r.exists s i then s.mem.read (r.pool + r.poolTile s i * r.tile + o) n
  else (List.range n).map (fun k => r.patternByte (o + k))

/-- The bytes of a piece at L2 now; remote bytes come from the other device. -/
def pieceBytes (s : State) (p : Piece) : List Byte :=
  match p.home with
  | .phys pa => s.mem.read pa p.n
  | .tile r i => tileBytes s r i p.va p.n
  | .stack g o => (s.gang g).stack.read o p.n
  | .remote _ _ => List.replicate p.n 0

/-- The slice that owns a piece, and the key of its line there: the physical line, or the virtual line of a region. -/
def pieceLine (part : Nat) (p : Piece) : Nat × Nat :=
  match p.home with
  | .phys pa => (sliceOfPhys pa, pa / 128)
  | .tile r _ => (sliceOfPhys r.desc, 2 ^ 64 + part * 2 ^ 48 + p.va / 128)
  | _ => (0, 0)

/-- The whole line that holds a piece, as it stands at L2. -/
def lineBytes (s : State) (p : Piece) : List Byte :=
  match p.home with
  | .phys pa => s.mem.read (pa / 128 * 128) 128
  | .tile r i => tileBytes s r i (p.va / 128 * 128) 128
  | _ => []

/-- The value completion time of a piece as L2 returns it (R357); an absent tile carries that of its map line (R266). -/
def pieceG (s : State) (part : Nat) (p : Piece) : Nat :=
  let k := pieceLine part p
  match p.home with
  | .tile r i =>
    if r.exists s i then tabGetD 0 (s.slice k.1).lineG k.2
    else tabGetD 0 (s.slice k.1).mapG ((r.map + i / 8) / 128)
  | .phys _ => tabGetD 0 (s.slice k.1).lineG k.2
  | _ => 0

/-- The piece has no line in any L1. -/
def Piece.uncached (p : Piece) : Bool :=
  match p.home with
  | .phys _ | .tile _ _ => false
  | _ => true

/-- The lines that an L1 of 320 KiB holds (R12, R245). -/
def l1Lines : Nat := 2560

/-- The key of a table's entry of the lowest rank: priority, then order. -/
def lowest {α : Type} (rank : α → Nat × Nat) (t : Tab α) : Option Nat :=
  (t.foldl (fun (acc : Option (Nat × α)) e => match acc with
    | none => some e
    | some a => if (rank e.2).1 < (rank a.2).1 || ((rank e.2).1 == (rank a.2).1 && (rank e.2).2 < (rank a.2).2) then some e else acc)
    none).map Prod.fst

/-- A table of some size with room for a key: a full one evicts the oldest entry of the lowest priority. The model takes a cache as one set
(R246, log 17). -/
def withRoom {α : Type} (size : Nat) (rank : α → Nat × Nat) (t : Tab α) (k : Nat) : Tab α :=
  match (if (tabGet t k).isNone && size ≤ t.length then lowest rank t else none) with
  | some v => tabDel t v
  | none => t

/-- A line filled into an L1 (R246, R356). -/
def Core.fillLine (c : Core) (k : Nat) (l : Line) : Core :=
  { c with l1 := tabPut (withRoom l1Lines (fun x => (x.prio, x.order)) c.l1 k) k { l with order := c.fills }, fills := c.fills + 1 }

/-- The lines that an L2 of 32 MiB holds (R5). -/
def l2Lines : Nat := 262144

/-- A line that an L2 reads or writes is allocated there with a priority, unless the L2 holds it (R246). -/
def Slice.fillL2 (x : Slice) (key prio : Nat) : Slice :=
  if (tabGet x.l2 key).isSome then x
  else { x with l2 := tabPut (withRoom l2Lines id x.l2 key) key (prio, x.l2Fills), l2Fills := x.l2Fills + 1 }

/-- The lines of existence map that a slice's cache holds (R270). -/
def mapCacheLines : Nat := 4096

/-- A line of existence map is used: the cache holds it, and a full cache drops the line used least recently. DESIGN CHOICE (log 17): R270
gives no rule for these lines. -/
def Slice.useMap (x : Slice) (line : Nat) : Slice :=
  { x with mapLines := tabPut (withRoom mapCacheLines (fun u => (0, u)) x.mapLines line) line x.hUses, hUses := x.hUses + 1 }

/-- The existence of a tile is asked of the slice that owns its region. -/
def State.useMap (s : State) (r : Region) (i : Nat) : State :=
  s.modSlice (sliceOfPhys r.desc) (fun x => x.useMap ((r.map + i / 8) / 128))

/-- A piece comes to its L2: its line is allocated with a priority, and a tile's existence is looked up (R246, R270). -/
def State.atL2 (s : State) (part : Nat) (p : Piece) (prio : Nat) : State :=
  let k := pieceLine part p
  match p.home with
  | .phys _ => s.modSlice k.1 (fun x => x.fillL2 k.2 prio)
  | .tile r i => (s.useMap r i).modSlice k.1 (fun x => x.fillL2 k.2 prio)
  | _ => s

/-- Pieces read at their L2s by what takes no hint: as under .P1. -/
def State.allAtL2 (s : State) (part : Nat) (ps : List Piece) : State := ps.foldl (fun s p => s.atL2 part p 1) s

/-- The copy of a piece's line that the L1 of a core holds goes. -/
def State.dropL1 (s : State) (core part : Nat) (p : Piece) : State :=
  let k := (pieceLine part p).2
  if p.uncached then s else s.modCore (l1Core s core k) (fun x => { x with l1 := tabDel x.l1 k })

/-- A read of one piece by a core: an L1 copy under its lease where it is still held, else L2, which grants a lease unless the
hint or the page's policy forbids L1 allocation (R356). `prio` is the replacement priority of the line, none for .NA (R246).
The answer is the bytes, their completion time, and the state. -/
def readPiece (s : State) (core part : Nat) (p : Piece) (prio : Option Nat) (l1 : Bool) : List Byte × Nat × State :=
  if p.uncached then (pieceBytes s p, 0, s)
  else
    let k := pieceLine part p
    let c := l1Core s core k.2
    let held := match tabGet (s.core c).l1 k.2 with
      | some x => if l1 && s.time < x.expiry then some x else none
      | none => none
    match held with
    | some x => ((x.bytes.drop (p.va % 128)).take p.n, x.g, s)
    | none =>
      let bs := pieceBytes s p
      let g := pieceG s part p
      let s := s.atL2 part p (prio.getD 0)
      match (if p.leaf.policy = 1 then none else prio) with
      | none => (bs, g, s.dropL1 core part p)
      | some n =>
        let e := s.time + leaseTicks s k.1
        let line : Line := { bytes := lineBytes s p, expiry := e, g := g, prio := n }
        (bs, g, (s.grant k.1 k.2 e).modCore c (fun x => x.fillLine k.2 line))

/-- The pieces read in address order: their bytes and the greatest completion time. -/
def readPieces (s : State) (core part : Nat) (ps : List Piece) (prio : Option Nat) (l1 : Bool) : List Byte × Nat × State :=
  ps.foldl (fun acc p =>
    let r := readPiece acc.2.2 core part p prio l1
    (acc.1 ++ r.1, max acc.2.1 r.2.1, r.2.2)) ([], 0, s)

/-! Births and erasures (R258 to R260, R270). -/

/-- The live H fields of a region: those held, else those of the descriptor within their bounds (R255, R270). -/
def hFields (s : State) (r : Region) : HFields :=
  match tabGet (s.slice (sliceOfPhys r.desc)).hfields r.desc with
  | some h => h
  | none =>
    let issued := leNat (s.mem.read (r.desc + 28) 4)
    let free := leNat (s.mem.read (r.desc + 32) 4)
    { issued := min issued r.capacity, free := if r.capacity < free then 0 else free,
      failures := leNat (s.mem.read (r.desc + 36) 4), limit := r.limit, used := 0 }

/-- H fields kept by the owning slice, which drops those of the region used least recently where it holds 256 others; each one that has
changed is written into the descriptor (R255, R270). -/
def State.setH (s : State) (r : Region) (h : HFields) : State :=
  let k := sliceOfPhys r.desc
  let old := hFields s r
  let put (m : Memory) (o x y : Nat) : Memory := if x = y then m else m.write (r.desc + o) (leBytes 4 y)
  let m := put (put (put s.mem 28 old.issued h.issued) 32 old.free h.free) 36 old.failures h.failures
  (s.setMem m).modSlice k (fun x =>
    { x with hfields := tabPut (withRoom 256 (fun h => (0, h.used)) x.hfields r.desc) r.desc { h with used := x.hUses }, hUses := x.hUses + 1 })

/-- The lines of a tile: the key of each and its virtual address. -/
def tileLines (part : Nat) (r : Region) (i : Nat) : List (Nat × Nat) :=
  (List.range (r.tile / 128)).map (fun k =>
    let va := r.vbase + i * r.tile + 128 * k
    (2 ^ 64 + part * 2 ^ 48 + va / 128, va))

/-- Bytes of a line overwritten from an offset. -/
def patchBytes (old new : List Byte) (o : Nat) : List Byte := old.take o ++ new ++ old.drop (o + new.length)

/-- The issuing core's L1 copy of a written line updated at the moment of the write (R357). -/
def State.patchL1 (s : State) (core : Nat) (key o g : Nat) (bs : List Byte) : State :=
  s.modCore (l1Core s core key) (fun x => { x with l1 := tabMod x.l1 key (fun l => { l with bytes := patchBytes l.bytes bs o, g := g }) })

/-- A birth or an erasure of a tile, as it now stands, is a write of every line of it: its completion time, which covers the leases on
them, and the issuing core's L1 copies (R266, R357). `wrote`: it has changed the tile, and its time is recorded for the lines and for the
map line. -/
def State.tileWritten (s : State) (core : Option Nat) (part : Nat) (r : Region) (i : Nat) (wrote : Bool) : Nat × State :=
  let k := sliceOfPhys r.desc
  let ls := tileLines part r i
  let g := ls.foldl (fun g l => max g (writeTime s k l.1)) s.time
  let patched := match core with
    | some c => ls.foldl (fun s' l => s'.patchL1 c l.1 0 g (tileBytes s r i l.2 128)) s
    | none => s
  let line := (r.map + i / 8) / 128
  (g, if wrote then (ls.foldl (fun s l => s.setLineG k l.1 g) patched).modSlice k (fun x => { x with mapG := tabPut x.mapG line g })
      else patched)

/-- The map bit of a tile set or cleared (R253). -/
def setMapBit (m : Memory) (r : Region) (i : Nat) (b : Bool) : Memory :=
  let a := r.map + i / 8
  let x := m.get a
  m.put a (if b then x ||| BitVec.twoPow 8 (i % 8) else x &&& ~~~(BitVec.twoPow 8 (i % 8)))

/-- The pattern through a whole tile (R258). -/
def patternTile (r : Region) : List Byte := (List.range r.tile).map r.patternByte

/-- A birth (R258, R259): the completion time and the state, or none with the failure counted (R264). A birth that reaches the limit last
read rereads it. -/
def birth (s0 : State) (core : Option Nat) (part : Nat) (r : Region) (i : Nat) : Option Nat × State :=
  let s := s0.useMap r i
  let h := hFields s r
  let reread := min (leNat (s.mem.read (r.desc + 20) 4)) r.capacity
  let h' := if h.free = 0 && h.limit ≤ h.issued then { h with limit := reread } else h
  let take (n : Nat) (h : HFields) : Option Nat × State :=
    let m := s.mem.write (r.pool + n * r.tile) (patternTile r)
    let m := setMapBit (m.write (r.dir + 4 * i) (leBytes 4 n)) r i true
    let w := ((s.setMem m).setH r h).tileWritten core part r i true
    (some w.1, w.2)
  if h'.free != 0 then
    let n := h'.free - 1
    let next := leNat (s.mem.read (r.pool + n * r.tile) 4)
    take n { h' with free := if r.capacity < next then 0 else next }
  else if h'.issued < h'.limit then take h'.issued { h' with issued := h'.issued + 1 }
  else (none, s.setH r { h' with failures := min (h'.failures + 1) (2 ^ 32 - 1) })

/-- An erasure (R260); of an absent tile it changes no state of the region, whose H fields it loads (R270). -/
def erase (s0 : State) (core : Option Nat) (part : Nat) (r : Region) (i : Nat) : Nat × State :=
  let s := s0.useMap r i
  let h := hFields s r
  if r.exists s i then
    let n := r.poolTile s i
    let m := setMapBit (s.mem.write (r.pool + n * r.tile) (leBytes 4 h.free)) r i false
    ((s.setMem m).setH r { h with free := n + 1 }).tileWritten core part r i true
  else (s.setH r h).tileWritten core part r i false

/-! Writes at L2. -/

/-- The physical address of a piece of a page or of an existing tile. -/
def pieceAddr (s : State) (p : Piece) : Option Nat :=
  match p.home with
  | .phys pa => some pa
  | .tile r i => if r.exists s i then some (r.pool + r.poolTile s i * r.tile + (p.va - r.vbase) % r.tile) else none
  | _ => none

/-- The tile of a piece is born where it does not exist; none when the pool is exhausted (R258, R264). -/
def birthPiece (s : State) (core : Option Nat) (part : Nat) (p : Piece) : Option Nat × State :=
  match p.home with
  | .tile r i => if r.exists s i then (some 0, s) else birth s core part r i
  | _ => (some 0, s)

/-- One piece written at L2 at this moment: memory, the line's completion time, the core's own L1 copy (R357). -/
def writePiece (s : State) (core : Option Nat) (part : Nat) (p : Piece) (bs : List Byte) : Nat × State :=
  match p.home with
  | .stack g o => (s.time, s.modGang g (fun x => { x with stack := x.stack.write o bs }))
  | .remote _ _ => (s.time, s)
  | _ =>
    match pieceAddr s p with
    | none => (s.time, s)
    | some pa =>
      let k := pieceLine part p
      let g := writeTime s k.1 k.2
      let s := ((s.atL2 part p 1).setMem (s.mem.write pa bs)).setLineG k.1 k.2 g
      match core with
      | some c => (g, s.patchL1 c k.2 (p.va % 128) g bs)
      | none => (g, s)

/-- The pieces written in address order; the greatest completion time (R357). -/
def writePieces (s : State) (core : Option Nat) (part : Nat) (ps : List Piece) (bs : List Byte) : Nat × State :=
  let r := ps.foldl (fun (acc : Nat × State × List Byte) p =>
    let w := writePiece acc.2.1 core part p (acc.2.2.take p.n)
    (max acc.1 w.1, w.2, acc.2.2.drop p.n)) (s.time, s, bs)
  (r.1, r.2.1)

/-- The pieces written in address order, each absent tile born by the piece that finds it so, until a birth fails: the greatest completion
time, the bytes not written, and the state (R258, R264). -/
def writeBorn (core : Option Nat) (part : Nat) : List Piece → List Byte → Nat → State → Nat × Nat × State
  | [], _, g, s => (g, 0, s)
  | p :: ps, bs, g, s =>
    match birthPiece s core part p with
    | (none, s') => (g, bs.length, s')
    | (some b, s') =>
      let w := writePiece s' core part p (bs.take p.n)
      writeBorn core part ps (bs.drop p.n) (max (max g b) w.1) w.2

/-- A physical address of the pieces lies past the partition's stacks, where no memory of it exists (R61). -/
def outside (s : State) (part : Nat) (ps : List Piece) : Bool :=
  ps.any (fun p => match pieceAddr s p with
    | some pa => ((s.part part).first + (s.part part).size) * 2 ^ 36 < pa + p.n
    | none => false)

end Sys2Proof.Machine
end

