-- ==== Sys2Proof/Machine/Messages.lean ====
section
/-! DEFINITION. What the device sends: status values, device messages and notices, and Teasel's decision on data that leaves
(R38, R42, R43, R281 to R283). -/

namespace Sys2Proof.Machine

/-! Status values (R42). -/

abbrev stOk : Nat := 0x0000
abbrev stAccepted : Nat := 0x0001
abbrev stDuplicate : Nat := 0x0002
abbrev stAlreadyDone : Nat := 0x0003
abbrev stSeqGap : Nat := 0x0010
abbrev stBadOpcode : Nat := 0x0011
abbrev stBadEndpoint : Nat := 0x0012
abbrev stBadHeader : Nat := 0x0013
abbrev stNotPermitted : Nat := 0x0014
abbrev stQueueFull : Nat := 0x0015
abbrev stNotOwner : Nat := 0x0016
abbrev stJobLimit : Nat := 0x0017
abbrev stReplayLost : Nat := 0x0018
abbrev stBadEntry : Nat := 0x0019
abbrev stObjFormat : Nat := 0x0020
abbrev stEncodingHash : Nat := 0x0021
abbrev stSectionLayout : Nat := 0x0022
abbrev stSymbol : Nat := 0x0023
abbrev stDescriptor : Nat := 0x0024
abbrev stNoSpace : Nat := 0x0025
abbrev stRelocOverflow : Nat := 0x0026
abbrev stRelocSite : Nat := 0x0027
abbrev stVtable : Nat := 0x0028
abbrev stNoObject : Nat := 0x0029
abbrev stPartitionGone : Nat := 0x002A
abbrev stObjectBusy : Nat := 0x002B
abbrev stBadKernel : Nat := 0x002C
abbrev stCancelled : Nat := 0x0030
abbrev stUnitFault : Nat := 0x0031
abbrev stGraphCycle : Nat := 0x0032
abbrev stEndpointDisabled : Nat := 0x0033
abbrev stDependencyFailed : Nat := 0x0034

/-- The failing index of a message that names none (R38). -/
abbrev noIndex : Nat := 0xFFFFFFFF

/-- The number of the management endpoint, as a header's endpoint byte gives it: DESIGN CHOICE (log 28). -/
abbrev mgmtEp : Nat := 64

/-- The device sequence number after another (R38). -/
def nextDevSeq (n : Nat) : Nat := if n = 0xFFFFFFFF then 1 else n + 1

/-- The endpoint may still send: it is enabled, or the steps of R58 are not done; the management endpoint always may. -/
def State.mayTalk (s : State) (ep : Nat) : Bool := ep == mgmtEp || (s.endpoint ep).enabled || (s.endpoint ep).disabling

/-- A device message that takes the endpoint's next number and is stored for REPLAY (R38, R43). -/
def sendNumbered (s : State) (ep : Nat) (o : Out) : State :=
  if s.mayTalk ep then
    let e := s.endpoint ep
    let o := { o with dest := e.host, ep := ep, seq := e.nextDev }
    (s.setEndpoint ep { e with nextDev := nextDevSeq e.nextDev, stored := (e.stored ++ [o]).drop (e.stored.length + 1 - 1024) }).setOutbox
      (s.outbox ++ [o])
  else s

/-- A device message that takes no number (R38, R449). -/
def sendPlain (s : State) (ep : Nat) (dest : BitVec 128) (o : Out) : State :=
  s.setOutbox (s.outbox ++ [{ o with dest := dest, ep := ep, seq := 0 }])

/-- A message with nothing but its kind and status. -/
def blankOut (kind status : Nat) : Out := { dest := 0, ep := 0, kind := kind, seq := 0, hseq := 0, status := status }

/-- A notice of kind 3 with status OK from an endpoint. -/
def notice (s : State) (ep level detail index : Nat) (payload : List Byte) : State :=
  sendNumbered s ep { blankOut 3 stOk with level := level, detail := detail, index := index, payload := payload }

/-- The endpoint of a launch: that of its job. -/
def State.launchEp (s : State) (k : Nat) : Nat := ((tabGet s.levels (s.launch k).level).map Level.ep).getD 0

/-! Teasel (R281 to R283, R285). -/

/-- The peer entry of a partition that holds a fabric address. -/
def peerIndex (s : State) (part : Nat) (a : BitVec 128) : Option Nat :=
  ((s.part part).peers.find? (fun e => e.2.addr == a && e.2.mask != 0)).map Prod.fst

/-- The ingress label of data from a fabric address (R280). -/
def ingressLabel (s : State) (part : Nat) (a : BitVec 128) : Label :=
  match peerIndex s part a with
  | some i => ((tabGet (s.part part).peers i).map Peer.mask).getD 0
  | none => 0

/-- The number of origins in a label. -/
def originCount (l : Label) : Nat := ((List.range 16).filter (fun i => l.getLsbD i)).length

/-- The lowest-numbered policy that matches a transfer (R282 step 3). -/
def matchPolicy (s : State) (part : Nat) (l : Label) (peer src : Nat) : Option (Nat × Policy) :=
  (s.part part).policies.find? (fun e => Label.subset l e.2.mask && e.2.peers.testBit peer &&
    e.2.base ≤ src && src < e.2.base + e.2.length)

/-- A decision: passed, or refused with a reason and a policy index (R282, R283). -/
inductive Decision where
  | pass
  | refuse (reason policy : Nat)
  deriving DecidableEq, Repr

/-- The decision of Teasel on a transfer to a peer entry, with the policy's count (R282). -/
def decideOn (s : State) (part : Nat) (l : Label) (peer : Option Nat) (src bytes : Nat) : Decision × State :=
  if l = 0 then (.pass, s)
  else
    match peer with
    | none => (.refuse 1 0xFF, s)
    | some i =>
      match tabGet (s.part part).peers i with
      | none => (.refuse 1 0xFF, s)
      | some p =>
        if originCount l = 1 then (if Label.subset l p.mask then (.pass, s) else (.refuse 2 0xFF, s))
        else
          match matchPolicy s part l i src with
          | none => (.refuse 3 0xFF, s)
          | some (k, y) =>
            if y.count + bytes ≤ y.cap then
              (.pass, s.modPart part (fun q => { q with policies := tabPut q.policies k { y with count := y.count + bytes } }))
            else (.refuse 4 k, s)

/-- A refusal entered in the log, a ring of 256 entries (R283). -/
def logRefusal (s : State) (part : Nat) (e : RefusalEntry) : State :=
  s.modPart part (fun p => { p with refusals := (p.refusals ++ [e]).drop (p.refusals.length + 1 - 256), refused := p.refused + 1 })

/-- A decision with its refusal logged: the reason of a refusal, none when passed. `peerByte` is the log's byte 20. -/
def release (s : State) (part : Nat) (l : Label) (peer : Option Nat) (src bytes path peerByte : Nat) : Option Nat × State :=
  match decideOn s part l peer src bytes with
  | (.pass, s') => (none, s')
  | (.refuse r k, s') =>
    (some r, logRefusal s' part
      { time := s.ns, addr := src, label := l, path := path, reason := r, peer := peerByte, policy := k, bytes := bytes })

end Sys2Proof.Machine
end

