-- ==== Sys2Proof/Machine/Race.lean ====
section
/-! DEFINITION. The race detector: shadow entries, the test of an access, and its report (R269, R371 to R374). -/

namespace Sys2Proof.Machine

/-- The kinds of access that the detector tells apart, with their codes in the notice (R374). -/
inductive RKind where
  | load | store | atomic | birthErase | query
  deriving DecidableEq, Repr

def RKind.code : RKind → Nat
  | .load => 1 | .store => 2 | .atomic => 3 | .birthErase => 4 | .query => 5

/-- A write of the detector's kinds. -/
def RKind.writes : RKind → Bool
  | .store | .atomic | .birthErase => true
  | _ => false

/-- The narrowest common scope of two threads (R358). -/
def commonScope (s : State) (t u : Nat) : Nat :=
  if gangOf t = gangOf u then 2
  else if s.coreOf t = s.coreOf u then 3
  else if s.clusterOf t = s.clusterOf u then 4
  else 5

/-- The number that a thread has published at a scope (R371). -/
def Thread.publishedAt (x : Thread) (scope : Nat) : Nat := tabGetD 0 x.published scope

/-- A fence of a scope executed: n, modulo 2^32, rises and is published at every scope up to it (R371). -/
def Thread.publish (x : Thread) (scope : Nat) : Thread :=
  let n := (x.interval + 1) % 2 ^ 32
  { x with interval := n, published := (List.range 7).foldl (fun p i => if i + 2 ≤ scope then tabPut p (i + 2) n else p) x.published }

/-- The outcome of the test of R373: ordered, with the entry as it then stands, or a conflict. -/
inductive RaceTest where
  | ordered (e : Shadow)
  | conflict
  deriving DecidableEq, Repr

/-- The test of an accessor against an entry (R373). -/
def raceTest (s : State) (t : Nat) (k : RKind) (e : Shadow) : RaceTest :=
  let sc := commonScope s t e.thread
  let w := s.thread e.thread
  let resident := (tabGet s.threads e.thread).isSome && (s.unit (unitOfThread e.thread)).live
  if e.launch != (s.unit (unitOfThread t)).launch || e.thread == t || (k == .atomic && e.kind == 3) then .ordered e
  else if sc ≤ e.scope then .ordered e
  else if resident && e.interval < w.publishedAt sc then
    .ordered { e with scope := ((List.range 7).filter (fun i => e.interval < w.publishedAt (i + 2))).foldl (fun m i => max m (i + 2)) 0 }
  else .conflict

/-- The payload of a race notice (table Race Notice Payload). -/
def racePayload (s : State) (t va : Nat) (k : RKind) (e : Shadow) : List Byte :=
  let u := s.unit (unitOfThread t)
  let w := s.unit (unitOfThread e.thread)
  leBytes 8 va ++ leBytes 4 u.unitid ++ leBytes 1 (gangidOf (gangOf t)) ++ leBytes 1 (laneOf t) ++ leBytes 1 k.code ++
    leBytes 1 (commonScope s t e.thread) ++ leBytes 4 w.unitid ++ leBytes 1 (gangidOf (gangOf e.thread)) ++
    leBytes 1 (laneOf e.thread) ++ leBytes 1 e.kind ++ [0] ++ leBytes 4 e.interval ++ leBytes 4 (s.thread t).interval

/-- A conflict reported: a notice, or a RACE record when the launch asks for traps (R374). At most once for a sector of a gang
pass, and at most 64 notices a launch. -/
def raceReport (s : State) (a : Access) (va sector : Nat) (k : RKind) (e : Shadow) : State :=
  let t := a.thread
  let g := gangOf t
  let n := (s.unit (unitOfThread t)).launch
  let x := s.launch n
  if (s.gang g).raceSeen.contains (a.group, sector) then s
  else
    let p := racePayload s t va k e
    let s := s.modGang g (fun y => { y with
      raceSeen := (a.group, sector) :: y.raceSeen.filter (fun z => z.1 == a.group || s.accesses.any (fun e => e.2.group == z.1)) })
    if x.raceTrap then
      s.pushRecord { gang := g, kind := 7, lane := laneOf t, bytes := 16, type := a.f.ty.code, reason := 0, addr := va, label := a.label,
                     pc := a.pc, op := a.op, data := leNat (p.drop 16), thread := t, born := a.born }
    else if x.raceNotices < 64 then
      (notice s (s.launchEp n) 1 x.ident 0x100 p).modLaunch n (fun y => { y with raceNotices := y.raceNotices + 1 })
    else s

/-- The entry that a write leaves (R373). -/
def shadowOf (s : State) (t : Nat) (k : RKind) : Shadow :=
  { launch := (s.unit (unitOfThread t)).launch, thread := t, interval := (s.thread t).interval, scope := 1, kind := k.code }

/-- The shadow entries of a slice, of sectors or of tiles. -/
def Slice.shadowOf (x : Slice) (tile : Bool) : Tab Shadow := if tile then x.tileShadow else x.shadow
def Slice.setShadow (x : Slice) (tile : Bool) (t : Tab Shadow) : Slice := if tile then { x with tileShadow := t } else { x with shadow := t }

/-- The entry of a table that was written first. -/
def firstWritten (t : Tab Shadow) : Option (Nat × Shadow) :=
  t.foldl (fun acc e => match acc with
    | none => some e
    | some a => if e.2.order < a.2.order then some e else acc) none

/-- Room for one more of the 65,536 entries: the one written first is evicted, and lost (R372, log 17). -/
def Slice.shadowRoom (x : Slice) : Slice :=
  if x.shadow.length + x.tileShadow.length < 65536 then x
  else
    match firstWritten x.shadow, firstWritten x.tileShadow with
    | some a, some b => if a.2.order < b.2.order then { x with shadow := tabDel x.shadow a.1 } else { x with tileShadow := tabDel x.tileShadow b.1 }
    | some a, none => { x with shadow := tabDel x.shadow a.1 }
    | none, some b => { x with tileShadow := tabDel x.tileShadow b.1 }
    | none, none => x

/-- The entry that a write leaves put into the shadow cache (R372, R373). -/
def Slice.putShadow (x : Slice) (tile : Bool) (key : Nat) (e : Shadow) : Slice :=
  let x := if (tabGet (x.shadowOf tile) key).isSome then x else x.shadowRoom
  { x.setShadow tile (tabPut (x.shadowOf tile) key { e with order := x.shadowWrites }) with shadowWrites := x.shadowWrites + 1 }

/-- One entry tested by an access of a checked launch, and replaced by a write (R372, R373). `tile`: the existence entry of a tile. -/
def raceEntry (s : State) (a : Access) (slice : Nat) (tile : Bool) (key va : Nat) (k : RKind) : State :=
  let s := match tabGet ((s.slice slice).shadowOf tile) key with
    | none => s
    | some e =>
      match raceTest s a.thread k e with
      | .ordered e' => s.modSlice slice (fun x => x.setShadow tile (tabPut (x.shadowOf tile) key e'))
      | .conflict => raceReport s a va (if tile then 2 ^ 128 + key else key) k e
  if k.writes then s.modSlice slice (fun x => x.putShadow tile key (shadowOf s a.thread k)) else s

/-- The sector of an address of a region: it is told apart by its virtual address, whether its tile exists or not (R269; log 17). -/
def regionSector (part va : Nat) : Nat := 2 ^ 64 + part * 2 ^ 48 + va / 32

/-- The existence entry of a tile: births and erasures write it, queries read it (R269). -/
def raceTile (s : State) (a : Access) (r : Region) (i va : Nat) (k : RKind) : State :=
  raceEntry s a (sliceOfPhys r.desc) true (r.desc * 2 ^ 32 + i) va k

/-- The launch of an access runs with the race detector (R371). -/
def raceOn (s : State) (a : Access) : Bool := (s.launchOf a.thread).race

/-- An access of a checked launch tested at every sector of its pieces (R373). -/
def racePieces (s : State) (a : Access) (ps : List Piece) (k : RKind) : State :=
  if raceOn s a then
    ps.foldl (fun s p => match p.home with
      | .phys pa => raceEntry s a (sliceOfPhys pa) false (pa / 32) (p.va / 32 * 32) k
      | .tile r _ => raceEntry s a (sliceOfPhys r.desc) false (regionSector (s.partOf a.thread) p.va) (p.va / 32 * 32) k
      | _ => s) s
  else s

/-- A birth or an erasure: a write of every sector of the tile, and of its existence entry (R269). -/
def raceTileWrite (s : State) (a : Access) (r : Region) (i : Nat) : State :=
  if raceOn s a then
    let base := r.vbase + i * r.tile
    let one (s : State) (k : Nat) : State :=
      raceEntry s a (sliceOfPhys r.desc) false (regionSector (s.partOf a.thread) (base + 32 * k)) (base + 32 * k) .birthErase
    raceTile ((List.range (r.tile / 32)).foldl one s) a r i base .birthErase
  else s

/-- A query of existence at the tile of the lowest piece. -/
def raceQuery (s : State) (a : Access) (ps : List Piece) : State :=
  if raceOn s a then
    match ps.head? with
    | some p =>
      match p.home with
      | .tile r i => raceTile s a r i (p.va / 32 * 32) .query
      | _ => s
    | none => s
  else s

end Sys2Proof.Machine
end

