-- ==== Sys2Proof/Machine/Access.lean ====
section
/-! DEFINITION. Accesses in flight: the order of a thread's own accesses, holding, faults and records, and the landing of loads,
writes, atomics and scratchpad accesses (R233 to R236, R257 to R264, R279, R287 to R298, R307 to R309, R397 to R400, R408). -/

namespace Sys2Proof.Machine

/-! Types (R287). -/

/-- The width of an access in bytes (table Memory Types). -/
def typeWidth (ty : Ty) : Nat :=
  match ty with
  | .s8 | .n8 | .c4 => 1
  | .f16 | .bf16 | .f8e4 | .f8e5 => 2
  | .s64 | .n64 => 8
  | _ => 4

/-- The type fits the format of a page (R179). -/
def formatFits (ty : Ty) (format : Nat) : Bool :=
  match format with
  | 0 => !(ty == .f8e4 || ty == .f8e5 || ty == .c4)
  | 1 => ty == .f8e4 || ty == .b32
  | 2 => ty == .f8e5 || ty == .b32
  | _ => ty == .c4 || ty == .b32

/-- The entries of a codebook slot; +0 in a new context (R174). -/
def codebookOf (s : State) (core ctx slot : Nat) : Codebook :=
  tabGetD { entries := List.replicate 16 0, label := 0 } (s.core core).codebooks (64 * ctx + slot)

/-- The core-local context number of a launch (R112). -/
def contextOf (s : State) (core launch : Nat) : Nat :=
  (((s.core core).contexts.find? (fun e => e.2 == launch)).map Prod.fst).getD 0

/-- The codebook that a thread's decode reads (R174). -/
def threadBook (s : State) (t slot : Nat) : Codebook :=
  let c := s.coreOf t
  codebookOf s c (contextOf s c (s.unit (unitOfThread t)).launch) slot

/-- The cores that a unit's gangs stand on. -/
def State.unitCores (s : State) (u : Nat) : List Nat := distinct ((s.gangsOfUnit u).map s.coreOfGang)

/-- The codebook that an access decodes or encodes through: the one that stood before a later CBLOAD (R175). -/
def accessBook (s : State) (a : Access) (slot : Nat) : Codebook := (tabGet a.books slot).getD (threadBook s a.thread slot)

/-- A CBLOAD of the slot that issued earlier in the access's context, or in the same clk, has not completed (R175). -/
def bookAwaited (s : State) (id : Nat) (a : Access) (slot : Nat) : Bool :=
  a.f.ty == .c4 && s.accesses.any (fun e => (e.1 < id || a.due ≤ e.2.due) && e.2.due ≤ a.due && e.2.kind == .codebook && e.2.aux == slot &&
    (s.unit (unitOfThread e.2.thread)).launch == (s.unit (unitOfThread a.thread)).launch &&
    (s.unitCores (unitOfThread e.2.thread)).contains (s.coreOf a.thread))

/-- What a load delivers from its bytes (R177, R287). -/
def loadValue (ty : Ty) (book : List (BitVec 16)) (bs : List Byte) : DWord :=
  let x := leNat bs
  let w (v : Nat) : DWord := BitVec.ofNat 64 v
  match ty with
  | .s8 => w (BitVec.signExtend 32 (BitVec.ofNat 8 x)).toNat
  | .n8 => w (x % 256)
  | .f16 | .bf16 => w (x % 2 ^ 16)
  | .s64 | .n64 => w x
  | .f8e4 => w (f8ToBf16 fmtF8E4 (x % 256) + f8ToBf16 fmtF8E4 (x / 256 % 256) * 2 ^ 16)
  | .f8e5 => w (f8ToBf16 fmtF8E5 (x % 256) + f8ToBf16 fmtF8E5 (x / 256 % 256) * 2 ^ 16)
  | .c4 => w ((book.getD (x % 16) 0).toNat + (book.getD (x / 16 % 16) 0).toNat * 2 ^ 16)
  | _ => w (x % 2 ^ 32)

/-- The bytes that a store writes, and the events of its encodings (R178, R287, R296). -/
def storeBytes (ty : Ty) (book : List (BitVec 16)) (x : DWord) : List Byte × List Nat :=
  let n := x.toNat
  let half (h : Nat) : Nat := n / 2 ^ (16 * h) % 2 ^ 16
  let enc (F : Fmt) : List Byte × List Nat :=
    let v0 := fmtBF16.decode (half 0)
    let v1 := fmtBF16.decode (half 1)
    let r0 := F.encode .rne v0
    let r1 := F.encode .rne v1
    (leBytes 1 r0.bits ++ leBytes 1 r1.bits, F.events [v0] r0 ++ F.events [v1] r1)
  match ty with
  | .f8e4 => enc fmtF8E4
  | .f8e5 => enc fmtF8E5
  | .c4 => (leBytes 1 (c4Encode book (half 0) + 16 * c4Encode book (half 1)), [])
  | _ => (leBytes (typeWidth ty) n, [])

/-! Order (R236, R291, R307). -/

/-- Accesses of the cluster scratchpad. -/
def AKind.isScratch : AKind → Bool
  | .lds | .sts | .sfill | .sempty | .atoms | .reds => true
  | _ => false

/-- Accesses of memory that write. -/
def AKind.isMemWrite : AKind → Bool
  | .store | .stx | .erase | .atom | .red => true
  | _ => false

/-- Accesses that touch memory bytes. -/
def AKind.isMem : AKind → Bool
  | .load | .ldx | .gthr | .exq | .recPage | .labelPage | .egress | .codebook | .remapTab => true
  | k => k.isMemWrite

/-- The entries of the table that a REMAP.TAB reads: the element at each index of its record that is in bounds (R332). -/
def tabSpans (a : Access) : List (Nat × Nat) :=
  let r := Rec.ofBits (BitVec.ofNat 128 a.aux)
  (List.range 4096).filterMap (fun e =>
    if 2 ^ 32 ≤ a.addr + e || r.oob (a.addr + e) 0 4 then none else some ((r.addr (a.addr + e) 0).toNat, 4))

/-- The bytes that an access touches: of a class-1 page, a birth or an erasure touches the whole tile (R291), and an EXQ the 32 tiles whose map
bits it reads (R298, R362). -/
def touched (s : State) (a : Access) : Nat × Nat :=
  if a.kind.isMemWrite || a.kind == .exq then
    match walk s (s.partOf a.thread) a.addr with
    | .leaf l =>
      if l.cls = 1 then
        match readRegion s (s.partOf a.thread) l with
        | some r =>
          if !r.holds a.addr then (a.addr, a.width)
          else if a.kind == .exq then (r.vbase + r.tileOf a.addr / 32 * 32 * r.tile, 32 * r.tile)
          else if a.kind == .erase || !r.exists s (r.tileOf a.addr) then (r.vbase + r.tileOf a.addr * r.tile, r.tile)
          else (a.addr, a.width)
        | none => (a.addr, a.width)
      else (a.addr, a.width)
    | _ => (a.addr, a.width)
  else (a.addr, a.width)

/-- Two byte ranges meet. -/
def meet (x y : Nat × Nat) : Bool := x.1 < y.1 + y.2 && y.1 < x.1 + x.2

/-- The byte ranges of an access. -/
def rangesOf (s : State) (a : Access) : List (Nat × Nat) := if a.kind == .remapTab then tabSpans a else [touched s a]

/-- An access made once for its gang. -/
def Access.forGang (a : Access) : Bool :=
  a.kind == .recPage || a.kind == .remapTab || a.kind == .codebook || (match a.f.d with
    | .s _ => true
    | _ => false)

/-- A thread for which an access is made: its own, and where it is made once for the gang every issuing thread, all of which wait for it
(R85, R293, R302, R332, R340). -/
def Access.isFor (a : Access) (s : State) (t : Nat) : Bool :=
  t == a.thread || (a.forGang && gangOf t == gangOf a.thread && (s.thread t).sched == .blocked (.landing a.group))

/-- An earlier access that must be performed before this one: of the same thread on overlapping bytes, or of the same group
where both write; in the scratchpad, of the same thread, or of the same group on one line (R236, R291, R307). -/
def goesBefore (s : State) (b a : Access) : Bool :=
  if a.kind.isScratch && b.kind.isScratch then
    b.thread == a.thread || (b.group == a.group && unitOfThread b.thread == unitOfThread a.thread && b.addr / 128 == a.addr / 128)
  else if a.kind.isMem && b.kind.isMem then
    (a.isFor s b.thread || (b.group == a.group && a.kind.isMemWrite && b.kind.isMemWrite)) &&
      (rangesOf s b).any (fun x => (rangesOf s a).any (meet x))
  else false

/-- The clk in which the access issued has ended, and nothing earlier stands in its way. -/
def enabled (s : State) (id : Nat) (a : Access) : Bool :=
  !a.held && a.due ≤ s.time && (s.accesses.all (fun e => id ≤ e.1 || !goesBefore s e.2 a))

/-! Passes: sectors, pieces and lines (R234, R236). -/

/-- The kinds that the coalescer brings to memory sector by sector. -/
def AKind.coalesces : AKind → Bool
  | .load | .ldx | .gthr | .exq | .store | .stx | .erase | .atom | .red => true
  | _ => false

/-- Accesses that are one piece: an existence query, an erasure, an aligned atomic (R235, R297, R298, R308). -/
def AKind.whole : AKind → Bool
  | .exq | .erase | .atom | .red => true
  | _ => false

/-- A piece lies in a sparse-existence region, or on another device. -/
def Piece.inRegion (p : Piece) : Bool :=
  match p.home with
  | .tile _ _ => true
  | _ => false
def Piece.isRemote (p : Piece) : Bool :=
  match p.home with
  | .remote _ _ => true
  | _ => false

/-- Elements that one event decides whole: an LDX or STX of a region (R295, R296), which on other pages performs as LD or ST (R262), and a
store with a piece on another device, so that a refusal there refuses both pieces (R289, R434). -/
def Access.whole (a : Access) (ps : List Piece) : Bool :=
  a.kind.whole || ((a.kind == .ldx || a.kind == .stx) && ps.any Piece.inRegion) || (a.kind.isMemWrite && ps.any Piece.isRemote)

/-- The sectors of an access's element whose pieces are not yet performed (R236). -/
def Access.todo (a : Access) : List Nat :=
  if a.kind.whole then [a.addr / 32]
  else (distinct [a.addr / 32, (a.addr + a.width - 1) / 32]).filter (fun x => a.got.all (fun y => y.1 != x))

/-- The sector of the piece that goes next. -/
def Access.sector (a : Access) (pick : Pick) : Nat := ((if pick.upper then a.todo.getLast? else a.todo.head?)).getD (a.addr / 32)

/-- The pieces of a sector. -/
def Access.piecesIn (a : Access) (x : Nat) (ps : List Piece) : List Piece :=
  if a.whole ps then ps else ps.filter (fun p => p.va / 32 == x)

/-- The piece in a sector is the last of its element. -/
def Access.last (a : Access) (x : Nat) (ps : List Piece) : Bool := a.whole ps || a.todo.all (fun z => z == x)

/-- An access of the same gang pass, on its way (R118, R234). -/
def samePass (a b : Access) : Bool :=
  a.kind.coalesces && b.kind == a.kind && b.group == a.group && gangOf b.thread == gangOf a.thread && !b.held && !b.oob && !a.oob

/-- The accesses that one sector access carries: those of the pass with a piece in it (R234). -/
def State.mates (s : State) (id : Nat) (a : Access) (x : Nat) : List Nat :=
  (s.accesses.filter (fun e => e.1 == id || (samePass a e.2 && e.2.todo.contains x))).map Prod.fst

/-- The element has bytes in a virtual line. -/
def Access.onLine (a : Access) (line : Nat) : Bool := a.addr / 128 ≤ line && line ≤ (a.addr + a.width - 1) / 128

/-- Through what an access is translated. -/
def Access.via (a : Access) (pick : Pick) : Via := { pickVia pick with pins := a.pins }

/-- The leaves found for an access's lines serve every access of its pass on them: each line is translated once (R234). -/
def State.pinPass (s : State) (a : Access) (ps : List Piece) : State :=
  let pin (b : Access) (l : List (Nat × DWord × Nat)) (p : Piece) : List (Nat × DWord × Nat) :=
    let line := p.va / 128
    match p.home with
    | .stack _ _ => l
    | _ => if b.onLine line && l.all (fun e => e.1 != line) then (line, BitVec.ofNat 64 (leafBits p.leaf), p.leaf.level) :: l else l
  { s with accesses := s.accesses.map (fun e => if samePass a e.2 then (e.1, { e.2 with pins := ps.foldl (pin e.2) e.2.pins }) else e) }

/-! Landing values. -/

/-- The accesses of a gang's instruction that have not written back no longer replace the tile label (R274). -/
def State.tileTaken (s : State) (a : Access) : State :=
  { s with accesses := s.accesses.map (fun e =>
      if e.2.group == a.group && gangOf e.2.thread == gangOf a.thread then (e.1, { e.2 with replaces := false }) else e) }

/-- The threads of a gang that wait for what an issue group's access brings. -/
def State.landed (s : State) (a : Access) : State :=
  (s.threadsOfGang (gangOf a.thread)).foldl (fun s t =>
    if (s.thread t).sched == .blocked (.landing a.group) then s.unblock t else s) s

/-- The access's own thread goes on, where it waits for what its group brings. -/
def State.wake (s : State) (a : Access) : State :=
  if (s.thread a.thread).sched == .blocked (.landing a.group) then s.unblock a.thread else s

/-- A result written back (R109 fill): discarded for a thread that has exited (R136). A gang-uniform destination is written for
the gang, whose waiting threads go on (R293). -/
def fill (s : State) (a : Access) (ws : List Wr) : State :=
  if isUni a.f.d then (applyWrs true true a.thread s ws).landed a
  else if (s.thread a.thread).sched == .exited then s
  else (applyWrs a.replaces a.replaces a.thread s ws).tileTaken a

/-- The writes of a load's destination. -/
def destWrites (a : Access) (x : DWord) (l : Label) : List Wr := wrTy a.f.ty a.f.d x l

/-- The thread's reads carry completion times that its fences wait for (R359). -/
def State.sawG (s : State) (t g : Nat) : State := s.modThread t (fun x => { x with valueG := max x.valueG g })

/-- Every thread for which an access was made has seen its completion time (R293, R359). -/
def State.sawFor (s : State) (a : Access) (g : Nat) : State :=
  ((s.threadsOfGang (gangOf a.thread)).filter (a.isFor s)).foldl (fun s t => s.sawG t g) s

/-- The thread's writes carry completion times that its fences wait for (R359). -/
def State.wroteG (s : State) (t g : Nat) : State := s.modThread t (fun x => { x with writeG := max x.writeG g })

/-! Held accesses (R249, R408, R410). -/

/-- The endpoint of a thread's job. -/
def State.threadEp (s : State) (t : Nat) : Nat := s.launchEp (s.unit (unitOfThread t)).launch

/-- A migration notice for a page, once (R249). -/
def migrationNotice (s : State) (part ep va level : Nat) : State :=
  let page := va / pageSize level * pageSize level
  if (tabGet (s.part part).notices page).isSome then s
  else
    (notice s ep 0 1 noIndex (leBytes 8 (page + level))).modPart part (fun p => { p with notices := tabPut p.notices page s.time })

/-- A not-present page: the access is held, a host-resident page is announced, and a gang inside a region aborts its unit
(R249, R408, R410). -/
def holdAccess (s : State) (id : Nat) (a : Access) (va : Nat) (hostResident : Bool) (level : Nat) : State :=
  let s := s.setAccess id { a with held := true, heldVa := va, pins := [] }
  let s := if hostResident then migrationNotice s (s.partOf a.thread) (s.threadEp a.thread) va level else s
  if (s.gang (gangOf a.thread)).inRegion && !a.inTrap then
    s.modUnit (unitOfThread a.thread) (fun u => { u with awaits := u.awaits ++ [va] })
  else s

/-- A not-present page holds every access of the pass on the line that found it (R234). -/
def holdPass (s : State) (id : Nat) (a : Access) (va : Nat) (hostResident : Bool) (level : Nat) : State :=
  s.accesses.foldl (fun s e =>
    if e.1 == id || (samePass a e.2 && e.2.onLine (va / 128)) then holdAccess s e.1 e.2 va hostResident level else s) s

/-! Records and load faults (R397 to R400). -/

/-- The core's queue has room for a record. -/
def State.sfqRoom (s : State) (t : Nat) : Bool := !s.sfqFull (s.coreOf t)

/-- A record of an access (R399). -/
def recordOf (a : Access) (kind reason addr bytes data : Nat) : Record :=
  { gang := gangOf a.thread, kind := kind, lane := laneOf a.thread, bytes := bytes,
    type := if a.kind == .erase then 0 else a.f.ty.code, reason := reason, addr := addr, label := a.label, pc := a.pc, op := a.op,
    data := data, thread := a.thread, born := a.born }

/-- The thread, and for a gang-uniform destination every waiting thread, enters its handler at its next issue (R293, R398). -/
def State.force (s : State) (a : Access) : State :=
  let ts := if a.forGang then
      (s.threadsOfGang (gangOf a.thread)).filter (fun t => (s.thread t).sched == .blocked (.landing a.group)) ++ [a.thread]
    else [a.thread]
  ts.foldl (fun s t => s.modThread t (fun x => { x with forced := x.forced || !x.inTrap })) s

/-- The existence predicate of an LDX or STX written (R292). -/
def predField (a : Access) : Opnd := if a.kind == .ldx then a.f.c else a.f.d
def existPred (s : State) (a : Access) (b : Bool) (l : Label) : State :=
  if a.kind == .ldx || a.kind == .stx then
    if (s.thread a.thread).sched == .exited then s else applyWrs true true a.thread s (wrPred (predField a) b l)
  else s

/-- The label of the leaf at an access's address, none where no leaf is found (R292). -/
def State.leafLabel (s : State) (a : Access) : Label :=
  match coreWalk s (s.coreOf a.thread) (s.partOf a.thread) a.addr { pins := a.pins } with
  | .leaf l => l.label
  | _ => 0

/-- A load fault: a LOAD record, the destination zero and full, the predicate false, the thread forced (R290, R398). It waits
while the queue is full (R400). -/
def loadFault (s : State) (id : Nat) (a : Access) (reason va : Nat) : State :=
  if !s.sfqRoom a.thread then s
  else
    let s := (s.dropAccess id).pushRecord (recordOf a 8 reason va 0 0)
    let s := s.force a
    let keeps := a.kind == .recPage || a.kind == .remapTab || a.kind == .codebook
    let s := if keeps then s.landed a else (fill s a (destWrites a 0 a.label)).wake a
    existPred s a false (a.label ||| s.leafLabel a)

/-! Loads. -/

/-- The other device's answer to a remote access, with its completion time on the local time base (R354, R358, R433, R434); log 10. -/
def State.remote (s : State) : Option (List Byte) × Nat × State :=
  (Config.remoteAnswer s.fresh, s.time + Config.remoteLag s.fresh, s.setFresh (s.fresh + 1))

/-- The bytes of pieces as they stand at L2; those of another device are what it answers, none where it answers an error. With the greatest
completion time. -/
def rawPieces (s : State) (part : Nat) (ps : List Piece) : Option (List Byte × Nat) × State :=
  ps.foldl (fun acc p =>
    match acc.1, p.home with
    | none, _ => acc
    | some x, .remote _ _ =>
      let r := acc.2.remote
      (r.1.map (fun bs => (x.1 ++ (bs ++ List.replicate p.n 0).take p.n, max x.2 r.2.1)), r.2.2)
    | some x, _ => (some (x.1 ++ pieceBytes acc.2 p, max x.2 (pieceG acc.2 part p)), acc.2)) (some ([], 0), s)

/-- Pieces read at L2 by a core whose L1 they are not to enter: what an L1 copy was newer or older than goes with the copy (R13, R356, R361). -/
def coreRead (s : State) (core part : Nat) (ps : List Piece) : Option (List Byte × Nat) × State :=
  let r := rawPieces s part ps
  (r.1, (ps.foldl (fun s p => s.dropL1 core part p) r.2).allAtL2 part ps)

/-- The labels of the trap-stack words that pieces touch (R406). -/
def stackLabel (s : State) (ps : List Piece) : Label :=
  ps.foldl (fun l p => match p.home with
    | .stack g o => (List.range ((o % 4 + p.n + 3) / 4)).foldl (fun l i => l ||| tabGetD 0 (s.gang g).stackLabels (o / 4 + i)) l
    | _ => l) 0

/-- The hint .NA forbids L1 allocation (R246). -/
def noAllocHint (f : Fields) : Bool := f.code == 1

/-- The replacement priority of a transfer's hint, none under .NA; no hint is .P1 (R246). -/
def hintPrio (f : Fields) : Option Nat := if noAllocHint f then none else if f.code = 0 then some 1 else some (f.code - 2)

/-- The priority with which an access's lines enter the L1: an EGRESS is no load, and its lines do not (R245, R246, R422). -/
def Access.prio (a : Access) : Option Nat := if a.kind == .egress then none else hintPrio a.f

/-- The bytes of a read, piece after piece: through the L1, or what another device answers; none for an error response. An LDX reads at
L2, where the existence of its tile is decided (R295), and an EGRESS at device scope (R422). -/
def readAll (s : State) (a : Access) (ps : List Piece) (pick : Pick) : Option (List Byte × Nat) × State :=
  let core := s.coreOf a.thread
  ps.foldl (fun acc p =>
    match acc.1 with
    | none => acc
    | some x =>
      let r := if p.isRemote then rawPieces acc.2 (s.partOf a.thread) [p]
        else
          let y := readPiece acc.2 core (s.partOf a.thread) p a.prio (pick.l1 && a.kind != .ldx && a.kind != .egress)
          (some (y.1, y.2.1), y.2.2)
      (r.1.map (fun y => (x.1 ++ y.1, max x.2 y.2)), r.2)) (some ([], 0), s.cachePieces core ps)

/-- The lowest piece's tile exists; on a page of class 0 or 2 every tile counts as existing (R262, R295). -/
def tileExists (s : State) (ps : List Piece) : Bool :=
  match ps.head? with
  | some p =>
    match p.home with
    | .tile r i => r.exists s i
    | _ => true
  | none => true

/-- The bytes of an element whose pieces are performed, in address order. -/
def Access.gotBytes (a : Access) (last : Nat × List Byte) : List Byte :=
  (distinct [a.addr / 32, (a.addr + a.width - 1) / 32]).flatMap (fun x =>
    (((last :: a.got).find? (fun y => y.1 == x)).map Prod.snd).getD [])

/-- The type decodes a page's format (R177). -/
def tyDecodes (ty : Ty) : Bool := ty == .c4 || ty == .f8e4 || ty == .f8e5

/-- The last piece of a load is read: the value is delivered with its label, which takes that of the page's codebook slot for a C4 or F8 decode
(R273, R295, R331). -/
def finishLoad (s : State) (id : Nat) (a : Access) (ps : List Piece) (bs : List Byte) (g : Nat) : State :=
  let book := accessBook s a ((ps.head?.map (fun p => p.leaf.slot)).getD 0)
  let l := a.label ||| pagesLabel ps ||| stackLabel s ps ||| (if tyDecodes a.f.ty then book.label else 0) |||
    (if a.kind == .gthr then a.d.setWidth 16 else 0)
  let e := tileExists s ps
  let s := s.dropAccess id
  let s := if a.kind == .ldx then raceQuery s a ps else s
  existPred (fill (s.sawFor a g) a (destWrites a (loadValue a.f.ty book.entries bs) l)) a e l

/-- LD, LDX and GTHR at the landing of the piece in a sector: the whole element is translated and tested first (R235, R289, R295,
R331). -/
def landLoad (s : State) (id : Nat) (a : Access) (pick : Pick) (x : Nat) : State :=
  match reach s (s.coreOf a.thread) (s.partOf a.thread) a.addr a.width (a.via pick) { r := true } with
  | .held va h level => holdPass s id a va h level
  | .refused k va => loadFault s id a k va
  | .ok ps =>
    match ps.find? (fun p => !formatFits a.f.ty p.leaf.format) with
    | some p => loadFault s id a 3 p.va
    | none =>
    if bookAwaited s id a ((ps.head?.map (fun p => p.leaf.slot)).getD 0) then s
    else
      let now := a.piecesIn x ps
      match readAll (s.pinPass a ps) a now pick with
      | (none, s') => loadFault s' id a 1 ((now.head?.map Piece.va).getD a.addr)
      | (some (bs, g), s') =>
        let s' := racePieces s' a now .load
        let a' := (tabGet s'.accesses id).getD a
        if a.last x ps then finishLoad s' id a' ps (if a.whole ps then bs else a.gotBytes (x, bs)) (max a.gotG g)
        else s'.setAccess id { a' with got := (x, bs) :: a.got, gotG := max a.gotG g }

/-- EXQ at its landing (R298). -/
def landExq (s : State) (id : Nat) (a : Access) (pick : Pick) : State :=
  match reach s (s.coreOf a.thread) (s.partOf a.thread) a.addr 1 (a.via pick) { r := true } with
  | .held va h level => holdPass s id a va h level
  | .refused k va => loadFault s id a k va
  | .ok ps =>
    let s' := (s.pinPass a ps).cachePieces (s.coreOf a.thread) ps
    let l := a.label ||| pagesLabel ps
    match ps.head?.map Piece.home with
    | some (.tile r i) =>
      let s' := s'.useMap r i
      let k := i / 32
      let bit (j : Nat) : Nat := if 32 * k + j < r.tiles && r.exists s (32 * k + j) then 2 ^ j else 0
      let x := (List.range 32).foldl (fun w j => w + bit j) 0
      let g := tabGetD 0 (s.slice (sliceOfPhys r.desc)).mapG ((r.map + i / 8) / 128)
      fill ((raceQuery (s'.dropAccess id) a ps).sawFor a g) a (wr32 a.f.d (BitVec.ofNat 32 x) l)
    | _ => fill (s'.dropAccess id) a (wr32 a.f.d (BitVec.ofNat 32 (2 ^ 32 - 1)) l)

/-- LBLRD.PG held on a page: its thread goes on with an empty destination (R416); a gang-uniform one keeps it waiting (R293). -/
def holdLabel (s : State) (id : Nat) (a : Access) (va : Nat) (hostResident : Bool) (level : Nat) : State :=
  let s := holdAccess s id a va hostResident level
  match a.f.d with
  | .v n => if a.kind == .labelPage then (s.modThread a.thread (fun x => x.markEmpty n.toNat)).wake a else s
  | _ => s

/-- BRMAKE.PG and LBLRD.PG at their landing: the page's geometry into the record, which in a handler is not b31, and the page's label
into the destination (R302, R406, R416). -/
def landPage (s : State) (id : Nat) (a : Access) (pick : Pick) : State :=
  match reach s (s.coreOf a.thread) (s.partOf a.thread) a.addr 1 (a.via pick) { r := true } with
  | .held va h level => holdLabel s id a va h level
  | .refused k va => loadFault s id a k va
  | .ok ps =>
    let s' := (s.cachePieces (s.coreOf a.thread) ps).dropAccess id
    if a.kind == .recPage then
      let geo := (ps.head?.map (fun p => p.leaf.geometry)).getD 0
      let r := { Rec.ofBits (BitVec.ofNat 128 a.aux) with swizzle := geo }
      let n := match a.f.d with
        | .k n => n.toNat
        | _ => 0
      (applyWrs true true a.thread s' (if n = 31 && a.inTrap then [] else [.rcd n r.toBits a.label])).landed a
    else
      let x := pagesLabel ps ||| stackLabel s ps
      (fill s' a (wr32 a.f.d (x.setWidth 32) (a.label ||| x))).wake a

/-! Writes. -/

/-- What a write comes to at L2. -/
inductive Landing where
  | held (va : Nat) (hostResident : Bool) (level : Nat)
  /-- refused with a record of a kind (R290). -/
  | record (kind va : Nat) (s : State)
  /-- the tile of an STX does not exist (R296). -/
  | missed (s : State) (l : Label)
  /-- performed: the old bytes, their completion time, the state, the page label, and whether a tile was born. -/
  | done (old : List Byte) (g : Nat) (s : State) (l : Label)

/-- Trap-stack words take the label of the store (R406). -/
def labelStack (s : State) (ps : List Piece) (l : Label) : State :=
  ps.foldl (fun s p => match p.home with
    | .stack g o =>
      let put (t : Tab Label) (i : Nat) : Tab Label := tabSetD 0 t (o / 4 + i) l
      s.modGang g (fun x => { x with stackLabels := (List.range ((o % 4 + p.n + 3) / 4)).foldl put x.stackLabels })
    | _ => s) s

/-- The label check of a write: its label is within every page's (R279); a trap stack takes any (R406). -/
def labelFails (ps : List Piece) (l : Label) : Option Piece :=
  ps.find? (fun p => match p.home with
    | .stack _ _ => false
    | _ => !Label.subset l p.leaf.label)

/-- The release decisions of the pieces on other devices, in address order; the first that Teasel refuses (R281, R434). -/
def releasePieces (a : Access) : List Piece → State → Option Piece × State
  | [], s => (none, s)
  | p :: ps, s =>
    match p.home with
    | .remote dev _ =>
      let peer := peerIndex s (s.partOf a.thread) (Config.memberAddress dev)
      match release s (s.partOf a.thread) a.label peer a.pc.toNat p.n 3 (peer.getD 0xFF) with
      | (some _, s') => (some p, s')
      | (none, s') => releasePieces a ps s'
    | _ => releasePieces a ps s

/-- The piece whose refusal refuses its whole element, the kind of its record, and the state: a birth that fails, or a release that Teasel
refuses (test 8 of R289; R264, R434). -/
def refusal (a : Access) (ps : List Piece) (s : State) : Option (Nat × Piece) × State :=
  let core := some (s.coreOf a.thread)
  match ps.find? (fun p => (birthPiece s core (s.partOf a.thread) p).1.isNone) with
  | some p => (some (4, p), (birthPiece s core (s.partOf a.thread) p).2)
  | none =>
    match releasePieces a ps s with
    | (some p, s') => (some (6, p), s')
    | (none, s') => (none, s')

/-- The pieces of a write performed in order: another device's at the member, whose error response makes a PERM record (R434), an absent
tile's after its birth (R258, R308, R357). `new` gives the bytes to write from the old ones of the element. -/
def performPieces (a : Access) (rk : RKind) (new : List Byte → List Byte) : List Piece → List Byte → Nat → State → Landing
  | [], old, g, s => .done old g s 0
  | p :: ps, old, g, s =>
    let core := s.coreOf a.thread
    let part := s.partOf a.thread
    match p.home with
    | .remote _ _ =>
      match s.remote with
      | (none, _, s') => .record 1 p.va s'
      | (some bs, g', s') => performPieces a rk new ps (old ++ (bs ++ List.replicate p.n 0).take p.n) (max g g') (s'.wroteG a.thread g')
    | home =>
      match birthPiece s (some core) part p with
      | (none, s') => .record 4 p.va s'
      | (some g1, s1) =>
        let o := pieceBytes s1 p
        let w := writePiece ((labelStack s1 [p] a.label).atL2 part p ((hintPrio a.f).getD 0)) (some core) part p (((new o).drop (p.va - a.addr)).take p.n)
        let s2 := match home with
          | .tile r i => if r.exists s i then w.2 else raceTileWrite w.2 a r i
          | _ => w.2
        performPieces a rk new ps (old ++ o) (max g (pieceG s1 part p)) ((racePieces s2 a [p] rk).wroteG a.thread (max g1 w.1))

/-- Tests 4 to 8 of a store or an atomic for its whole element, then the piece in a sector performed; of a whole element the pieces on other
devices go first (R235, R236, R289, R296, R308, R434). Between the two pieces of an element an erasure may come, and then the second piece
alone is refused where its birth fails (log 17). -/
def performWrite (s : State) (a : Access) (pick : Pick) (x : Nat) (need : Need) (rk : RKind) (fits : Leaf → Bool)
    (new : List Byte → List Byte) : Landing :=
  let core := s.coreOf a.thread
  match reach s core (s.partOf a.thread) a.addr a.width (a.via pick) need with
  | .held va h level => .held va h level
  | .refused _ va => .record 1 va s
  | .ok ps =>
    match ps.find? (fun p => !fits p.leaf) with
    | some p => .record 2 p.va s
    | none =>
      match labelFails ps a.label with
      | some p => .record 3 p.va s
      | none =>
        let s := (s.pinPass a ps).cachePieces core ps
        let s := if a.kind == .stx then raceQuery s a ps else s
        if a.kind == .stx && !tileExists s ps then .missed (s.allAtL2 (s.partOf a.thread) ps) (pagesLabel ps)
        else
          match (if a.got.isEmpty then refusal a ps s else (none, s)) with
          | (some (k, p), s') => .record k p.va s'
          | (none, s') =>
            let now := a.piecesIn x ps
            match performPieces a rk new (now.filter Piece.isRemote ++ now.filter (fun p => !p.isRemote)) [] 0 s' with
            | .done old g s'' _ => .done old g s'' (pagesLabel ps ||| stackLabel s ps)
            | r => r

/-- The store data of a record: up to 16 B (R399); of a page-encoded store the encoded bytes (DEDUCED: the bytes that it would write,
log 14). -/
def recordData (s : State) (a : Access) : Nat × Nat :=
  if a.kind == .erase then (0, 0)
  else if a.op == 0x287 then (2 * a.width, a.c.toNat % 256 ^ a.width + a.d.toNat % 256 ^ a.width * 256 ^ a.width)
  else if a.kind == .store || a.kind == .stx then
    let slot := match coreWalk s (s.coreOf a.thread) (s.partOf a.thread) a.addr { pins := a.pins } with
      | .leaf l => l.slot
      | _ => 0
    (a.width, leNat (storeBytes a.f.ty (accessBook s a slot).entries a.c).1)
  else (a.width, a.c.toNat % 256 ^ a.width)

/-- A refused write: its record, the zero of an ATOM, the false predicate of an STX (R290); out of bounds both were written at issue. It
waits while the queue is full (R400). -/
def refuseWrite (s0 s : State) (id : Nat) (a : Access) (kind va : Nat) : State :=
  if !s0.sfqRoom a.thread then s0
  else
    let d := recordData s a
    let l := a.label ||| s.leafLabel a
    let s := (s.dropAccess id).pushRecord (recordOf a kind 0 va d.1 d.2)
    let s := if a.kind == .atom && !a.oob then fill s a (destWrites a 0 a.label) else s
    if a.oob then s else existPred s a false l

/-- ST and STX at the landing of the piece in a sector (R296); out of bounds, the BOUNDS record (R233). -/
def landStore (s : State) (id : Nat) (a : Access) (pick : Pick) (x : Nat) : State :=
  if a.oob then refuseWrite s s id a 5 a.addr
  else
    let ps := match reach s (s.coreOf a.thread) (s.partOf a.thread) a.addr a.width (a.via pick) {} with
      | .ok ps => ps
      | _ => []
    let slot := (ps.head?.map (fun p => p.leaf.slot)).getD 0
    if bookAwaited s id a slot then s
    else
    let y := storeBytes a.f.ty (accessBook s a slot).entries a.c
    match performWrite s a pick x { w := true } .store (fun l => formatFits a.f.ty l.format) (fun _ => y.1) with
    | .held va h level => holdPass s id a va h level
    | .record k va s' => refuseWrite s s' id a k va
    | .missed s' l => existPred (s'.dropAccess id) a false (a.label ||| l)
    | .done _ _ s' l =>
      if a.last x ps then
        existPred ((s'.dropAccess id).countEvents (s.unit (unitOfThread a.thread)).launch y.2) a true (a.label ||| l)
      else s'.setAccess id { (tabGet s'.accesses id).getD a with got := (x, []) :: a.got }

/-- ERASE at its landing (R297). -/
def landErase (s : State) (id : Nat) (a : Access) (pick : Pick) : State :=
  let core := s.coreOf a.thread
  let part := s.partOf a.thread
  if a.oob then refuseWrite s s id a 5 a.addr
  else
    match reach s core part a.addr 1 (a.via pick) { w := true } with
    | .held va h level => holdPass s id a va h level
    | .refused _ va => refuseWrite s s id a 1 va
    | .ok ps =>
      match labelFails ps a.label with
      | some p => refuseWrite s s id a 3 p.va
      | none =>
        match ps.head?.map Piece.home with
        | some (.tile r i) =>
          let s1 := raceTileWrite ((s.pinPass a ps).cachePieces core ps) a r i
          let e := erase s1 (some core) part r i
          (e.2.dropAccess id).wroteG a.thread e.1
        | _ => refuseWrite s s id a 1 a.addr

/-! Atomics (R305, R308). -/

/-- The nine operations, from the low bits of the opcode. -/
inductive AOp where
  | add | min | max | and | or | xor | exch | cas | fadd
  deriving DecidableEq, Repr

/-- The operation of an atomic opcode (table Atomic Operations). -/
def atomicOp (op : Nat) : AOp :=
  match op with
  | 0x280 | 0x289 | 0x290 | 0x299 => .add
  | 0x281 | 0x28A | 0x291 | 0x29A => .min
  | 0x282 | 0x28B | 0x292 | 0x29B => .max
  | 0x283 | 0x28C | 0x293 | 0x29C => .and
  | 0x284 | 0x28D | 0x294 | 0x29D => .or
  | 0x285 | 0x28E | 0x295 | 0x29E => .xor
  | 0x286 | 0x296 => .exch
  | 0x287 | 0x297 => .cas
  | _ => .fadd

/-- A floating addition on one value or on a packed pair, with its events (R305). -/
def atomicFadd (ty : Ty) (md : Round) (m c : Nat) : Nat × List Nat :=
  match ty with
  | .f32 =>
    let a := fmtF32.decode (m % 2 ^ 32)
    let b := fmtF32.decode (c % 2 ^ 32)
    let r := fmtF32.add md a b
    (r.bits, fmtF32.events [a, b] r)
  | _ =>
    let F := if ty == .f16 then fmtF16 else fmtBF16
    let half (h : Nat) : FOut × List Nat :=
      let a := F.decode (m / 2 ^ (16 * h) % 2 ^ 16)
      let b := F.decode (c / 2 ^ (16 * h) % 2 ^ 16)
      let r := F.add md a b
      (r, F.events [a, b] r)
    ((half 0).1.bits + (half 1).1.bits * 2 ^ 16, (half 0).2 ++ (half 1).2)

/-- The new value and the events (table Atomic Operations). -/
def atomicNew (o : AOp) (ty : Ty) (md : Round) (m c d : DWord) : DWord × List Nat :=
  let mask : DWord := if ty.is64 then ~~~0 else 0xFFFFFFFF#64
  match o with
  | .add => (narrow ty false (asInt ty m + asInt ty c), [])
  | .min => (if asInt ty c < asInt ty m then c &&& mask else m, [])
  | .max => (if asInt ty m < asInt ty c then c &&& mask else m, [])
  | .and => (m &&& c &&& mask, [])
  | .or => ((m ||| c) &&& mask, [])
  | .xor => ((m ^^^ c) &&& mask, [])
  | .exch => (c &&& mask, [])
  | .cas => (if (m &&& mask) = (d &&& mask) then c &&& mask else m, [])
  | .fadd =>
    let r := atomicFadd ty md m.toNat c.toNat
    (BitVec.ofNat 64 r.1, r.2)

/-- The width of an atomic: a packed pair of 16-bit values is 4 B (R305). -/
def atomicWidth (ty : Ty) : Nat := if ty.is64 then 8 else 4

/-- ATOM and RED at their performance (R308). -/
def landAtomic (s : State) (id : Nat) (a : Access) (pick : Pick) : State :=
  if a.oob then refuseWrite s s id { a with kind := .red } 5 a.addr
  else
    let upd (old : List Byte) : DWord × List Nat :=
      atomicNew (atomicOp a.op) a.f.ty (Round.ofCode a.mode) (BitVec.ofNat 64 (leNat old)) a.c a.d
    match performWrite s a pick (a.addr / 32) { r := true, w := true } .atomic (fun l => l.format == 0)
        (fun old => leBytes a.width (upd old).1.toNat) with
    | .held va h level => holdPass s id a va h level
    | .record k va s' => refuseWrite s s' id a k va
    | .missed s' _ => s'.dropAccess id
    | .done old g s' l =>
      let s := (s'.dropAccess id).countEvents (s.unit (unitOfThread a.thread)).launch (upd old).2
      if a.kind == .atom then
        fill (s.sawG a.thread g) a (destWrites a (BitVec.ofNat 64 (leNat old)) (a.label ||| l))
      else s

/-! Scratchpad (R247, R307 to R309). -/

/-- The line of a run is full. -/
def Unit.lineFull (u : Unit) (line : Nat) : Bool := !tabGetD false u.lineEmpty line

/-- A line marked full or empty. -/
def Unit.markLine (u : Unit) (line : Nat) (isFull : Bool) : Unit := { u with lineEmpty := tabSetD false u.lineEmpty line (!isFull) }

/-- The label of a line. -/
def Unit.labelOf (u : Unit) (line : Nat) : Label := tabGetD 0 u.lineLabel line

/-- A write's label united into the line, or replacing it when the write covers the line (R275). -/
def Unit.labelLine (u : Unit) (line : Nat) (whole : Bool) (l : Label) : Unit :=
  { u with lineLabel := tabSetD 0 u.lineLabel line (if whole then l else u.labelOf line ||| l) }

/-- Bytes written into the run. -/
def Unit.writeRun (u : Unit) (o : Nat) (bs : List Byte) : Unit := { u with run := Memory.write u.run o bs }

/-- The slots of COPYM deliveries whose first line is marked empty here return to their senders (R322). -/
def State.lineEmptied (s : State) (u line : Nat) : State :=
  let x := s.unit u
  let gone := x.deliveries.filter (fun d => d.1 == line)
  let s := s.modUnit u (fun y => { y with deliveries := y.deliveries.filter (fun d => d.1 != line) })
  let back (k : Nat) (y : Unit) : Unit := { y with receivers := tabMod y.receivers k (fun n => min 4 (n + 1)) }
  gone.foldl (fun s d => s.modUnit d.2 (back x.unitid)) s

/-- The lanes that read a line in one event with a .TAKE: those of its pass before which no earlier access of their own stands (R307,
R309). -/
def takers (s : State) (a : Access) : List (Nat × Access) :=
  let pass (b : Access) : Bool := b.kind == .lds && b.group == a.group && gangOf b.thread == gangOf a.thread && b.addr / 128 == a.addr / 128
  s.accesses.filter (fun e => pass e.2 && !e.2.held && e.2.due ≤ s.time &&
    s.accesses.all (fun b => e.1 ≤ b.1 || !goesBefore s b.2 e.2 || (pass b.2 && b.2.thread != e.2.thread)))

/-- One lane's LDS filled from its line (R309). -/
def fillLds (s : State) (id : Nat) (a : Access) : State :=
  let u := s.unit (unitOfThread a.thread)
  let bs := Memory.read u.run a.addr a.width
  fill (s.dropAccess id) a (destWrites a (loadValue a.f.ty [] bs) (a.label ||| u.labelOf (a.addr / 128)))

/-- LDS at its event: it waits for the line; under .TAKE the pass reads in one event and the line goes empty (R309). -/
def landLds (s : State) (id : Nat) (a : Access) : State :=
  let un := unitOfThread a.thread
  let line := a.addr / 128
  if !(s.unit un).lineFull line then s
  else if a.f.bit 12 then
    (((takers s a).foldl (fun s e => fillLds s e.1 e.2) s).modUnit un (fun u => u.markLine line false)).lineEmptied un line
  else fillLds s id a

/-- STS at its event (R309). -/
def landSts (s : State) (id : Nat) (a : Access) : State :=
  let line := a.addr / 128
  (s.dropAccess id).modUnit (unitOfThread a.thread) (fun u =>
    let u := (u.writeRun a.addr (leBytes a.width a.c.toNat)).labelLine line false a.label
    if a.f.bit 12 then u.markLine line true else u)

/-- SFILL and SEMPTY at their events (R309). -/
def landMark (s : State) (id : Nat) (a : Access) : State :=
  let s := (s.dropAccess id).modUnit (unitOfThread a.thread) (fun u => u.markLine (a.addr / 128) (a.kind == .sfill))
  if a.kind == .sempty then s.lineEmptied (unitOfThread a.thread) (a.addr / 128) else s

/-- ATOMS and REDS at their event: they wait for the line and leave its marking (R308). -/
def landAtoms (s : State) (id : Nat) (a : Access) : State :=
  let un := unitOfThread a.thread
  let u := s.unit un
  let line := a.addr / 128
  if !u.lineFull line then s
  else
    let old := Memory.read u.run a.addr a.width
    let r := atomicNew (atomicOp a.op) a.f.ty (Round.ofCode a.mode) (BitVec.ofNat 64 (leNat old)) a.c a.d
    let s' := ((s.dropAccess id).modUnit un (fun u => (u.writeRun a.addr (leBytes a.width r.1.toNat)).labelLine line false a.label)).countEvents
      u.launch r.2
    if a.kind == .atoms then fill s' a (destWrites a (BitVec.ofNat 64 (leNat old)) (a.label ||| u.labelOf line)) else s'

end Sys2Proof.Machine
end

