-- ==== Sys2Proof/Machine/MemInstr.lean ====
section
/-! DEFINITION. Memory, existence, buffer-record, atomic and scratchpad instructions at issue (R286 to R310). -/

namespace Sys2Proof.Machine

/-- The record of source A. -/
def recOf (s : State) (t : Nat) (o : Opnd) : Rec :=
  match o with
  | .k n => Rec.ofBits (s.record t n.toNat)
  | _ => Rec.ofBits 0

/-- .BP: word bit [31] (R288). -/
def hasBp (f : Fields) : Bool := f.bit 12

/-- The bounds predicate written at issue (R288). -/
def bpWrite (f : Fields) (oob : Bool) (l : Label) : List Wr := if hasBp f then [.pred 6 oob l] else []

/-- The predicates that a record instruction names through its modifier. -/
def bpPreds (f : Fields) : List Nat := if hasBp f then [6] else []

/-- How an instruction that names a record is made: its kind, its opcode, its width, the layout of its offset, and what it
writes. -/
structure MemOp where
  kind : AKind
  op : Nat
  width : Fields → Nat
  /-- the form has an imm12 offset. -/
  offset : Bool
  /-- alignment to the width is required (R235). -/
  aligned : Bool := false

/-- The byte offset of the operand (R286). -/
def MemOp.disp (m : MemOp) (f : Fields) : Int := if m.offset then f.imm12 else 0

/-- The address of R232 for a thread, without the bounds test. -/
def addrOf (s : State) (m : MemOp) (f : Fields) (t : Nat) : Int :=
  (recOf s t f.a).addr (read32 s t f.b).toNat (m.disp f)

/-- The thread is out of bounds (R232). -/
def oobOf (s : State) (m : MemOp) (f : Fields) (t : Nat) : Bool :=
  (recOf s t f.a).oob (read32 s t f.b).toNat (m.disp f) (m.width f)

/-- An element of a sparse-existence page that straddles two tiles of its region (R235). -/
def straddles (s : State) (t a w : Nat) : Bool :=
  match walk s (s.partOf t) a with
  | .leaf l =>
    if l.cls = 1 then
      match readRegion s (s.partOf t) l with
      | some r => r.holds a && r.holds (a + w - 1) && r.tileOf a != r.tileOf (a + w - 1)
      | none => false
    else false
  | _ => false

/-- The alignment test of R235 for an address in bounds. -/
def misaligned (s : State) (m : MemOp) (f : Fields) (t : Nat) : Bool :=
  let a := (addrOf s m f t).toNat
  (m.aligned && a % m.width f != 0) || straddles s t a (m.width f) ||
    ((recOf s t f.a).size == 0 && (read32 s t f.b).toNat % 2 == 1)

/-- A pair or a register of data for a store or an atomic. -/
def dataOf (s : State) (t : Nat) (f : Fields) : DWord :=
  match f.c, fmtOf f.ty with
  | .imm n, some F => BitVec.ofNat 64 (F.ofInt n.toInt % 2 ^ 16 * (if F.width = 16 then 2 ^ 16 else 0) + F.ofInt n.toInt)
  | _, _ => readTy s t f.ty f.c

/-- The operand d of a CAS: the destination register before the operation (R305). -/
def casOf (s : State) (t : Nat) (f : Fields) : DWord := readTy s t f.ty f.d

/-- The access that a thread's instruction sends out. -/
def accessOf (s : State) (m : MemOp) (f : Fields) (t : Nat) (oob : Bool) : Access :=
  let a := addrOf s m f t
  { kind := m.kind, thread := t, group := 0, pc := s.pc, op := m.op, f := f,
    addr := if oob then (a % (2 : Int) ^ 48).toNat else a.toNat, width := m.width f,
    c := dataOf s t f, d := casOf s t f, label := labelOf s m.op f t, oob := oob,
    mode := match rm s t f with
      | .rne => 0
      | .rz => 1
      | .rup => 2
      | .rdn => 3
    inTrap := (s.thread t).inTrap }

/-- The core's record queue is full and the thread is outside a handler: it issues no memory write (R400). -/
def sfqBlocks (s : State) (m : MemOp) (t : Nat) : Bool :=
  m.kind.isMemWrite && !(s.thread t).inTrap && s.sfqFull (s.coreOf t)

/-- The registers of the destination field. -/
def destRegs (m : MemOp) (f : Fields) : List Nat := opndRegs (slotsOf m.op f).d f.d

/-- The existence predicate that an LDX or STX makes pending (R292). -/
def existIx (m : MemOp) (f : Fields) : List Nat :=
  match (if m.kind == .ldx then f.c else if m.kind == .stx then f.d else .v 0) with
  | .k n => modPred (n.toNat - 64)
  | _ => []

/-- The existence predicate written false at issue by an out-of-bounds LDX or STX (R295, R296). -/
def existFalse (m : MemOp) (f : Fields) (l : Label) : List Wr :=
  if m.kind == .ldx then wrPred f.c false l else if m.kind == .stx then wrPred f.d false l else []

/-- The kinds that return a value to a register. -/
def returns (m : MemOp) : Bool :=
  match m.kind with
  | .load | .ldx | .gthr | .exq | .atom | .labelPage => true
  | _ => false

/-- The outcome of R233 for a lane out of bounds. -/
def oobEff (s : State) (m : MemOp) (f : Fields) (t : Nat) : Res :=
  let l := labelOf s m.op f t
  let traps := (recOf s t f.a).trap
  let zero : List Wr := if returns m then wrTy f.ty f.d 0 l else []
  if traps && !m.kind.isMemWrite then .trap 13 0 false
  else
    .go { writes := zero ++ bpWrite f true l ++ existFalse m f l
          accesses := if traps then [accessOf s m f t true] else [] }

/-- An instruction that names a record, for one thread: tests 1 to 3 of R289, then the access (R286, R289). -/
def memEff (m : MemOp) (f : Fields) (s : State) (t : Nat) : Res :=
  if (recOf s t f.a).bad then .trap 12 0 false
  else if sfqBlocks s m t then .block .sfq
  else if oobOf s m f t then oobEff s m f t
  else if misaligned s m f t then .trap 14 0 false
  else
    .go { writes := bpWrite f false (labelOf s m.op f t)
          empties := if returns m then destRegs m f else []
          pend := existIx m f
          accesses := if !isUni f.d || isLeader s m.op f (bpPreds f) [] t then [accessOf s m f t false] else []
          wait := if isUni f.d then some (.landing s.issue.serial) else none }

/-- A record instruction issued for the group. -/
def runMem (m : MemOp) (f : Fields) (s : State) : State := runGroup m.op f (bpPreds f) [] (memEff m f) s

def ofType (f : Fields) : Nat := typeWidth f.ty

def opLd : MemOp := { kind := .load, op := 0x200, width := ofType, offset := true }
def opSt : MemOp := { kind := .store, op := 0x201, width := ofType, offset := true }
def opLdx : MemOp := { kind := .ldx, op := 0x202, width := ofType, offset := true }
def opStx : MemOp := { kind := .stx, op := 0x203, width := ofType, offset := true }
def opErase : MemOp := { kind := .erase, op := 0x204, width := fun _ => 1, offset := false }
def opExq : MemOp := { kind := .exq, op := 0x205, width := fun _ => 1, offset := false }
def opPref : MemOp := { kind := .load, op := 0x206, width := fun _ => 1, offset := true }
def opAtom (op : Nat) : MemOp :=
  { kind := .atom, op := op, width := fun f => atomicWidth f.ty, offset := true, aligned := true }
def opRed (op : Nat) : MemOp := { kind := .red, op := op, width := fun f => atomicWidth f.ty, offset := true, aligned := true }

def execLd (f : Fields) (s : State) : Host.Outcome State Fault Refusal := .next (runMem opLd f s)
def execSt (f : Fields) (s : State) : Host.Outcome State Fault Refusal := .next (runMem opSt f s)
def execLdx (f : Fields) (s : State) : Host.Outcome State Fault Refusal := .next (runMem opLdx f s)
def execStx (f : Fields) (s : State) : Host.Outcome State Fault Refusal := .next (runMem opStx f s)
def execErase (f : Fields) (s : State) : Host.Outcome State Fault Refusal := .next (runMem opErase f s)
def execExq (f : Fields) (s : State) : Host.Outcome State Fault Refusal := .next (runMem opExq f s)

/-- PREF for one thread: the record test alone can trap (R299). -/
def prefEff (f : Fields) (s : State) (t : Nat) : Res := if (recOf s t f.a).bad then .trap 12 0 false else .go {}

/-- The line that a PREF brings into the L1: in bounds, readable and present, and neither .NA nor cache policy 1; an absent tile
brings nothing (R299). -/
def prefetch (f : Fields) (s0 : State) (s : State) (t : Nat) : State :=
  if (recOf s0 t f.a).bad || oobOf s0 opPref f t || noAllocHint f then s
  else
    let a := (addrOf s0 opPref f t).toNat
    let core := s.coreOf t
    match reach s core (s.partOf t) a 1 {} { r := true } with
    | .ok [p] =>
      if p.leaf.policy = 1 || p.uncached || (pieceAddr s p).isNone then s
      else (readPiece (s.cacheLeaf core p.va p.leaf) core (s.partOf t) p (hintPrio f) false).2.2
    | _ => s

def execPref (f : Fields) (s : State) : Host.Outcome State Fault Refusal :=
  let ts := goers (judge s 0x206 f [] [] (prefEff f))
  .next (ts.foldl (prefetch f s) (runGroup 0x206 f [] [] (prefEff f) s))

/-! Buffer records (R301 to R304). -/

/-- The record that BRMAKE builds; under .PG the swizzle comes later (R302). -/
def brmake (s : State) (t : Nat) (f : Fields) : Rec :=
  { base := (read64 s t f.a).toNat % 2 ^ 48, extent := (read32 s t f.b).toNat, stride := (read32 s t f.c).toNat % 2 ^ 16,
    size := f.bits 0 4, swizzle := if f.bits 4 3 = 3 then 0 else f.bits 4 3, trap := f.bit 7, reserved := 0 }

/-- The index of a record operand. -/
def recIx (o : Opnd) : Nat :=
  match o with
  | .k n => n.toNat
  | _ => 0

/-- A record written; in a handler b31 names the trap-stack record, which no instruction writes (R406). -/
def recWrite (s : State) (t : Nat) (o : Opnd) (r : Rec) (l : Label) : List Wr :=
  if recIx o = 31 && (s.thread t).inTrap then [] else [.rcd (recIx o) r.toBits l]

def brmakeEff (f : Fields) (s : State) (t : Nat) : Res :=
  let l := labelOf s 0x240 f t
  let r := brmake s t f
  if f.bits 4 3 = 3 then
    let a : Access :=
      { kind := .recPage, thread := t, group := 0, pc := s.pc, op := 0x240, f := f, addr := r.base, width := 1, label := l,
        aux := r.toBits.toNat, inTrap := (s.thread t).inTrap }
    .go { accesses := if isLeader s 0x240 f [] [] t then [a] else [], wait := some (.landing s.issue.serial) }
  else .go { writes := recWrite s t f.d r l }

def execBrmake (f : Fields) (s : State) : Host.Outcome State Fault Refusal :=
  .next (runGroup 0x240 f [] [] (brmakeEff f) s)

/-- One field of a record patched (R303). -/
def brset (r : Rec) (field : Nat) (x : DWord) : Rec :=
  match field with
  | 0 => { r with base := x.toNat % 2 ^ 48 }
  | 1 => { r with extent := x.toNat % 2 ^ 32 }
  | 2 => { r with stride := x.toNat % 2 ^ 16 }
  | 3 => { r with size := x.toNat % 16 }
  | 4 => { r with swizzle := x.toNat % 4 }
  | 5 => { r with trap := x.getLsbD 0 }
  | _ => { r with base := (((r.base : Int) + x.lo.toInt) % (2 : Int) ^ 48).toNat }

/-- The value that BRSET stores: a pair for .BASE (R303). -/
def brsetValue (s : State) (t : Nat) (f : Fields) : DWord :=
  if f.bits 0 3 = 0 then read64 s t f.a else (read32 s t f.a).setWidth 64

def execBrset (f : Fields) (s : State) : Host.Outcome State Fault Refusal :=
  .next (runWrites 0x241 f [] (fun s t =>
    recWrite s t f.d (brset (recOf s t f.d) (f.bits 0 3) (brsetValue s t f)) (labelOf s 0x241 f t)) s)

/-- One field of a record read (R303). -/
def brget (r : Rec) (field : Nat) : Nat :=
  match field with
  | 0 => r.base
  | 1 => r.extent
  | 2 => r.stride
  | 3 => r.size
  | 4 => r.swizzle
  | _ => if r.trap then 1 else 0

def execBrget (f : Fields) (s : State) : Host.Outcome State Fault Refusal :=
  .next (runWrites 0x242 f [] (fun s t =>
    let x := brget (recOf s t f.a) (f.bits 0 3)
    let l := labelOf s 0x242 f t
    if f.bits 0 3 = 0 then wr64 f.d (BitVec.ofNat 64 x) l else wr32 f.d (BitVec.ofNat 32 x) l) s)

/-! Atomics of memory (R305, R306, R308). -/

def execAtomAdd (f : Fields) (s : State) : Host.Outcome State Fault Refusal := .next (runMem (opAtom 0x280) f s)
def execAtomMin (f : Fields) (s : State) : Host.Outcome State Fault Refusal := .next (runMem (opAtom 0x281) f s)
def execAtomMax (f : Fields) (s : State) : Host.Outcome State Fault Refusal := .next (runMem (opAtom 0x282) f s)
def execAtomAnd (f : Fields) (s : State) : Host.Outcome State Fault Refusal := .next (runMem (opAtom 0x283) f s)
def execAtomOr (f : Fields) (s : State) : Host.Outcome State Fault Refusal := .next (runMem (opAtom 0x284) f s)
def execAtomXor (f : Fields) (s : State) : Host.Outcome State Fault Refusal := .next (runMem (opAtom 0x285) f s)
def execAtomExch (f : Fields) (s : State) : Host.Outcome State Fault Refusal := .next (runMem (opAtom 0x286) f s)
def execAtomCas (f : Fields) (s : State) : Host.Outcome State Fault Refusal := .next (runMem (opAtom 0x287) f s)
def execAtomFadd (f : Fields) (s : State) : Host.Outcome State Fault Refusal := .next (runMem (opAtom 0x288) f s)
def execRedAdd (f : Fields) (s : State) : Host.Outcome State Fault Refusal := .next (runMem (opRed 0x289) f s)
def execRedMin (f : Fields) (s : State) : Host.Outcome State Fault Refusal := .next (runMem (opRed 0x28A) f s)
def execRedMax (f : Fields) (s : State) : Host.Outcome State Fault Refusal := .next (runMem (opRed 0x28B) f s)
def execRedAnd (f : Fields) (s : State) : Host.Outcome State Fault Refusal := .next (runMem (opRed 0x28C) f s)
def execRedOr (f : Fields) (s : State) : Host.Outcome State Fault Refusal := .next (runMem (opRed 0x28D) f s)
def execRedXor (f : Fields) (s : State) : Host.Outcome State Fault Refusal := .next (runMem (opRed 0x28E) f s)
def execRedFadd (f : Fields) (s : State) : Host.Outcome State Fault Refusal := .next (runMem (opRed 0x28F) f s)

/-! Scratchpad (R307 to R309). -/

/-- A scratchpad form: its kind, opcode, width, and whether it has an imm12 offset. -/
structure SpOp where
  kind : AKind
  op : Nat
  width : Fields → Nat
  offset : Bool := true
  dest : Bool := false

/-- The scratchpad offset, exact (R286). -/
def soff (s : State) (m : SpOp) (f : Fields) (t : Nat) : Int :=
  ((read32 s t f.a).toNat : Int) + (if m.offset then f.imm12 else 0)

/-- The offset leaves the unit's run (R307). -/
def spOutside (s : State) (m : SpOp) (f : Fields) (t : Nat) : Bool :=
  decide (soff s m f t < 0) || decide (((s.unit (unitOfThread t)).runBytes : Int) < soff s m f t + m.width f)

/-- A scratchpad form for one thread (R307). -/
def spEff (m : SpOp) (f : Fields) (s : State) (t : Nat) : Res :=
  if spOutside s m f t then .trap 15 0 false
  else if soff s m f t % (m.width f : Int) != 0 then .trap 14 0 false
  else
    let a : Access :=
      { kind := m.kind, thread := t, group := 0, pc := s.pc, op := m.op, f := f, addr := (soff s m f t).toNat, width := m.width f,
        c := dataOf s t f, d := casOf s t f, label := labelOf s m.op f t,
        mode := match rm s t f with
          | .rne => 0
          | .rz => 1
          | .rup => 2
          | .rdn => 3
        inTrap := (s.thread t).inTrap }
    .go { empties := if m.dest then opndRegs (slotsOf m.op f).d f.d else [], accesses := [a] }

def runSp (m : SpOp) (f : Fields) (s : State) : State := runGroup m.op f [] [] (spEff m f) s

def opAtoms (op : Nat) : SpOp := { kind := .atoms, op := op, width := fun f => atomicWidth f.ty, dest := true }
def opReds (op : Nat) : SpOp := { kind := .reds, op := op, width := fun f => atomicWidth f.ty }
def opLds : SpOp := { kind := .lds, op := 0x2A0, width := ofType, dest := true }
def opSts : SpOp := { kind := .sts, op := 0x2A1, width := ofType }
def opSfill : SpOp := { kind := .sfill, op := 0x2A2, width := fun _ => 1, offset := false }
def opSempty : SpOp := { kind := .sempty, op := 0x2A3, width := fun _ => 1, offset := false }

def execAtomsAdd (f : Fields) (s : State) : Host.Outcome State Fault Refusal := .next (runSp (opAtoms 0x290) f s)
def execAtomsMin (f : Fields) (s : State) : Host.Outcome State Fault Refusal := .next (runSp (opAtoms 0x291) f s)
def execAtomsMax (f : Fields) (s : State) : Host.Outcome State Fault Refusal := .next (runSp (opAtoms 0x292) f s)
def execAtomsAnd (f : Fields) (s : State) : Host.Outcome State Fault Refusal := .next (runSp (opAtoms 0x293) f s)
def execAtomsOr (f : Fields) (s : State) : Host.Outcome State Fault Refusal := .next (runSp (opAtoms 0x294) f s)
def execAtomsXor (f : Fields) (s : State) : Host.Outcome State Fault Refusal := .next (runSp (opAtoms 0x295) f s)
def execAtomsExch (f : Fields) (s : State) : Host.Outcome State Fault Refusal := .next (runSp (opAtoms 0x296) f s)
def execAtomsCas (f : Fields) (s : State) : Host.Outcome State Fault Refusal := .next (runSp (opAtoms 0x297) f s)
def execAtomsFadd (f : Fields) (s : State) : Host.Outcome State Fault Refusal := .next (runSp (opAtoms 0x298) f s)
def execRedsAdd (f : Fields) (s : State) : Host.Outcome State Fault Refusal := .next (runSp (opReds 0x299) f s)
def execRedsMin (f : Fields) (s : State) : Host.Outcome State Fault Refusal := .next (runSp (opReds 0x29A) f s)
def execRedsMax (f : Fields) (s : State) : Host.Outcome State Fault Refusal := .next (runSp (opReds 0x29B) f s)
def execRedsAnd (f : Fields) (s : State) : Host.Outcome State Fault Refusal := .next (runSp (opReds 0x29C) f s)
def execRedsOr (f : Fields) (s : State) : Host.Outcome State Fault Refusal := .next (runSp (opReds 0x29D) f s)
def execRedsXor (f : Fields) (s : State) : Host.Outcome State Fault Refusal := .next (runSp (opReds 0x29E) f s)
def execRedsFadd (f : Fields) (s : State) : Host.Outcome State Fault Refusal := .next (runSp (opReds 0x29F) f s)
def execLds (f : Fields) (s : State) : Host.Outcome State Fault Refusal := .next (runSp opLds f s)
def execSts (f : Fields) (s : State) : Host.Outcome State Fault Refusal := .next (runSp opSts f s)
def execSfill (f : Fields) (s : State) : Host.Outcome State Fault Refusal := .next (runSp opSfill f s)
def execSempty (f : Fields) (s : State) : Host.Outcome State Fault Refusal := .next (runSp opSempty f s)

end Sys2Proof.Machine
end

