-- ==== Sys2Proof/Machine/Gather.lean ====
section
/-! DEFINITION. The gather path and the codebooks: GTHR, GTHRS, REMAP, CBLOAD and the events that bring their data (R174, R175,
R314 to R317, R330 to R334, R340). -/

namespace Sys2Proof.Machine

/-! The remap stage (R315, R316). -/

/-- The modulus, 2^32 for 0 (R316). -/
def Remap.modulusOf (r : Remap) : Nat := if r.modulus = 0 then 2 ^ 32 else r.modulus.toNat

/-- The hash of mode 2 before the modulus (R316). -/
def hashIndex (i key : Word) : Word :=
  let x := (i ^^^ key) * 0x2C1B3C6D#32
  let x := x ^^^ (x >>> 15)
  let x := x * 0x5F356495#32
  x ^^^ (x >>> 16)

/-- The remapped index under a mode; none where mode 3 puts the lane out of bounds (R316). -/
def remapIndex (r : Remap) (mode : Nat) (i : Word) : Option Nat :=
  match mode with
  | 0 => some i.toNat
  | 1 => some (i.toNat % r.modulusOf)
  | 2 => some ((hashIndex i r.key).toNat % r.modulusOf)
  | _ => if 4096 ≤ i.toNat then none else some (tabGetD 0 r.table i.toNat).toNat

/-- The remap mode of a gather. -/
def remapMode (f : Fields) : Nat := f.bits 0 2

/-- The remap state that a gather of a thread reads: as the REMAP.MODs and REMAP.KEYs of earlier clk have left it (R332). -/
def remapSeen (s : State) (t : Nat) : Remap :=
  let c := s.core (s.coreOf t)
  match c.remapBefore with
  | some (clk, r) => if clk = s.clkOf t then { r with table := c.remap.table } else c.remap
  | none => c.remap

/-- The launch of a thread. -/
def launchNo (s : State) (t : Nat) : Nat := (s.unit (unitOfThread t)).launch

/-- The thread's context owns its core's remap state (R315). -/
def ownsRemap (s : State) (t : Nat) : Bool := (remapSeen s t).owner == some (launchNo s t)

/-- A REMAP.TAB of the thread's context that its core's table still waits for (R332); in one clk a REMAP.TAB goes before the gathers
(`chooseGroup`). -/
def tableAwaited (s : State) (t : Nat) : Option Nat :=
  (s.accesses.find? (fun e => e.2.kind == .remapTab && launchNo s e.2.thread == launchNo s t &&
    (s.unitCores (unitOfThread e.2.thread)).contains (s.coreOf t))).map (fun e => e.2.group)

/-- The label that the remap state adds to a result under mode 3 (R316). -/
def remapLabel (s : State) (f : Fields) (t : Nat) : Label :=
  if remapMode f = 3 then (remapSeen s t).label else 0

/-- The index of a gather's thread, remapped. -/
def gatherIndex (s : State) (f : Fields) (t : Nat) : Option Nat :=
  remapIndex (remapSeen s t) (remapMode f) (read32 s t f.b)

/-! GTHR (R314, R331). -/

def opGthr : MemOp := { kind := .gthr, op := 0x2C0, width := ofType, offset := false }

/-- The address of a gather's element (R232), without the bounds test; an index that mode 3 refuses stands for itself. -/
def gatherAddr (s : State) (f : Fields) (t : Nat) : Int :=
  (recOf s t f.a).addr ((gatherIndex s f t).getD (read32 s t f.b).toNat) 0

/-- A gather's lane is out of bounds (R331). -/
def gatherOob (s : State) (f : Fields) (t w : Nat) : Bool :=
  match gatherIndex s f t with
  | none => true
  | some j => (recOf s t f.a).oob j 0 w

/-- GTHR for one thread (R331). -/
def gthrEff (f : Fields) (s : State) (t : Nat) : Res :=
  let l := labelOf s 0x2C0 f t
  let w := ofType f
  if (recOf s t f.a).bad then .trap 12 0 false
  else if remapMode f != 0 && !ownsRemap s t then .trap 16 0 false
  else
    match (if remapMode f = 3 then tableAwaited s t else none) with
    | some g => .block (.behind g)
    | none =>
      if gatherOob s f t w then
        if (recOf s t f.a).trap then .trap 13 0 false else .go { writes := wrTy f.ty f.d 0 l ++ bpWrite f true l }
      else
        let a := (gatherAddr s f t).toNat
        if straddles s t a w || ((recOf s t f.a).size == 0 && ((gatherIndex s f t).getD 0) % 2 == 1) then .trap 14 0 false
        else
          let x : Access :=
            { kind := .gthr, thread := t, group := 0, pc := s.pc, op := 0x2C0, f := f, addr := a, width := w, label := l,
              d := (remapLabel s f t).setWidth 64, inTrap := (s.thread t).inTrap }
          .go { writes := bpWrite f false l, empties := destRegs opGthr f, accesses := [x] }

def execGthr (f : Fields) (s : State) : Host.Outcome State Fault Refusal :=
  .next (runGroup 0x2C0 f (bpPreds f) [] (gthrEff f) s)

/-! GTHRS (R317, R333). -/

/-- The threads of a gang pass whose guard is true: P; one that traps keeps its rank (R333). -/
def rowThreads (s : State) (op : Nat) (f : Fields) (t : Nat) : List Nat :=
  s.group.filter (fun u => gangOf u == gangOf t && (s.thread u).sched == .ready && (match checkIn s op f (bpPreds f) [] u with
    | .run | .trap _ => true
    | _ => false))

/-- The row length in bytes. -/
def rowBytes (f : Fields) : Nat := 128 * (f.bits 2 3 + 1)

/-- The scratchpad offset of a thread's row. -/
def rowOffset (s : State) (f : Fields) (t : Nat) : Nat :=
  (read32 s t f.c).toNat + (rowThreads s 0x2C1 f t).findIdx (· == t) * rowBytes f

/-- The rows of the pass do not fit the run, or the offset is off a line (R333). -/
def rowsOutside (s : State) (f : Fields) (t : Nat) : Bool :=
  let o := (read32 s t f.c).toNat
  o % 128 != 0 || (s.unit (unitOfThread t)).runBytes < o + (rowThreads s 0x2C1 f t).length * rowBytes f

/-- The row's index is at or above the extent, or its bytes are not wholly in [base, base + extent × element size) (R232, R316, R317). -/
def rowOob (s : State) (f : Fields) (t : Nat) : Bool :=
  let r := recOf s t f.a
  let a := gatherAddr s f t
  (match gatherIndex s f t with
    | some j => r.extent ≤ j
    | none => true) || decide (2 ^ 48 < a + rowBytes f) ||
    decide ((r.base : Int) * 8 + (r.extent * elemBits r.size : Nat) < (a + rowBytes f) * 8) || decide (a < r.base)

/-- GTHRS for one thread (R333). -/
def gthrsEff (f : Fields) (s : State) (t : Nat) : Res :=
  let l := labelOf s 0x2C1 f t
  if (recOf s t f.a).bad then .trap 12 0 false
  else if rowsOutside s f t then .trap 15 0 false
  else if remapMode f != 0 && !ownsRemap s t then .trap 16 0 false
  else
    match (if remapMode f = 3 then tableAwaited s t else none) with
    | some g => .block (.behind g)
    | none =>
      if (gatherIndex s f t).isSome && gatherAddr s f t % 32 != 0 then .trap 14 0 false
      else if rowOob s f t then
        if (recOf s t f.a).trap then .trap 13 0 false else .go { writes := bpWrite f true l }
      else
        let x : Access :=
          { kind := .gthrs, thread := t, group := 0, pc := s.pc, op := 0x2C1, f := f, addr := (gatherAddr s f t).toNat,
            width := rowBytes f, label := l, d := (remapLabel s f t).setWidth 64, aux := rowOffset s f t, inTrap := (s.thread t).inTrap }
        .go { writes := bpWrite f false l, accesses := [x] }

/-- Bytes brought into whole lines of a run: the lines are full and take a label (R275, R317). -/
def Unit.fillLines (u : Unit) (o : Nat) (bs : List Byte) (l : Label) : Unit :=
  (List.range (bs.length / 128)).foldl (fun u k => (u.markLine (o / 128 + k) true).labelLine (o / 128 + k) true l) (u.writeRun o bs)

/-- Lines of a run marked empty. -/
def Unit.emptyLines (u : Unit) (o n : Nat) : Unit :=
  (List.range (n / 128)).foldl (fun u k => u.markLine (o / 128 + k) false) u

/-- A row's lines at issue: empty while its bytes are on their way, zero and full where the lane is out of bounds (R333). -/
def markRow (f : Fields) (s0 : State) (s : State) (t : Nat) : State :=
  let o := rowOffset s0 f t
  s.modUnit (unitOfThread t) (fun u =>
    if rowOob s0 f t then u.fillLines o (List.replicate (rowBytes f) 0) (labelOf s0 0x2C1 f t)
    else u.emptyLines o (rowBytes f))

def execGthrs (f : Fields) (s : State) : Host.Outcome State Fault Refusal :=
  let ts := goers (judge s 0x2C1 f (bpPreds f) [] (gthrsEff f))
  .next (ts.foldl (markRow f s) (runGroup 0x2C1 f (bpPreds f) [] (gthrsEff f) s))

/-- A row arrives (R317): a refused piece leaves the lines empty. -/
def landRow (s : State) (id : Nat) (a : Access) (pick : Pick) : State :=
  match reach s (s.coreOf a.thread) (s.partOf a.thread) a.addr a.width (a.via pick) { r := true } with
  | .held va h level => holdAccess s id a va h level
  | .refused _ _ => s
  | .ok ps =>
    match readAll s a ps pick with
    | (none, _) => s
    | (some (bs, _), s') =>
      let l := a.label ||| pagesLabel ps ||| stackLabel s ps ||| a.d.setWidth 16
      (racePieces (s'.dropAccess id) a ps .load).modUnit (unitOfThread a.thread) (fun u => u.fillLines a.aux bs l)

def execGthrsLineFill (id : Nat) (pick : Pick) (s : State) : Host.Outcome State Fault Refusal :=
  match tabGet s.accesses id with
  | some a => if a.kind == .gthrs && enabled s id a then .next (s.orWait (s.coreOf a.thread) (landRow s id a pick)) else .next s
  | none => .next s

/-! REMAP (R315, R332). -/

/-- The remap state of every core that a unit occupies changed. -/
def State.modRemap (s : State) (u : Nat) (g : Remap → Remap) : State :=
  (s.unitCores u).foldl (fun s c => s.modCore c (fun x => { x with remap := g x.remap })) s

/-- Another context owns the state of a core of the unit (R315). -/
def remapTaken (s : State) (t : Nat) : Bool :=
  (s.unitCores (unitOfThread t)).any (fun c => match (s.core c).remap.owner with
    | some k => k != launchNo s t
    | none => false)

/-- Entry e of the table that a REMAP.TAB reads lies out of bounds; the index is formed exactly (R332). -/
def tabOob (r : Rec) (i0 e : Nat) : Bool := 2 ^ 32 ≤ i0 + e || r.oob (i0 + e) 0 4

/-- Some entry is out of bounds. -/
def anyTabOob (r : Rec) (i0 : Nat) : Bool := (List.range 4096).any (tabOob r i0)

/-- REMAP for one thread (R332). -/
def remapEff (f : Fields) (s : State) (t : Nat) : Res :=
  if remapTaken s t then .block .owner
  else if f.bits 0 2 != 2 then .go {}
  else
    let r := recOf s t f.a
    if r.bad then .trap 12 0 false
    else if r.trap && anyTabOob r (read32 s t f.b).toNat then .trap 13 0 false
    else
      let a : Access :=
        { kind := .remapTab, thread := t, group := 0, pc := s.pc, op := 0x2C2, f := f, addr := (read32 s t f.b).toNat, width := 4,
          label := labelOf s 0x2C2 f t, aux := r.toBits.toNat, inTrap := (s.thread t).inTrap }
      .go { accesses := if isLeader s 0x2C2 f [] [] t then [a] else [], wait := some (.landing s.issue.serial) }

/-- The state before a REMAP.MOD or REMAP.KEY kept for the gathers of its clk (R332). -/
def State.keepRemap (s : State) (u : Nat) : State :=
  let clk := s.clkOfUnit u
  (s.unitCores u).foldl (fun s c => s.modCore c (fun x =>
    { x with remapBefore := if x.remapBefore.any (fun b => b.1 == clk) then x.remapBefore else some (clk, x.remap) })) s

/-- A REMAP.TAB takes the ownership for the gathers of its clk too, which wait for its table (R315, R332). -/
def State.takeRemap (s : State) (u launch : Nat) : State :=
  (s.unitCores u).foldl (fun s c => s.modCore c (fun x =>
    { x with remap := { x.remap with owner := some launch }
             remapBefore := x.remapBefore.map (fun b => (b.1, { b.2 with owner := some launch })) })) s

/-- The effect of a REMAP for its gang at issue: ownership, and the modulus or the key (R315, R332). -/
def remapSet (f : Fields) (s0 s : State) (t : Nat) : State :=
  let x := read32 s0 t f.a
  let l := labelOf s0 0x2C2 f t
  let u := unitOfThread t
  let launch := launchNo s0 t
  match f.bits 0 2 with
  | 0 => (s.keepRemap u).modRemap u (fun r => { r with owner := some launch, modulus := x, label := r.label ||| l })
  | 1 => (s.keepRemap u).modRemap u (fun r => { r with owner := some launch, key := x, label := r.label ||| l })
  | _ => s.takeRemap u launch

/-- REMAP for the threads of one gang. -/
def runRemap (f : Fields) (s : State) : State :=
  match goers (judge s 0x2C2 f [] [] (remapEff f)) with
  | [] => runGroup 0x2C2 f [] [] (remapEff f) s
  | t :: _ => remapSet f s (runGroup 0x2C2 f [] [] (remapEff f) s) t

def execRemap (f : Fields) (s : State) : Host.Outcome State Fault Refusal := .next (runPerGang (runRemap f) s)

/-! Reads for a gang: REMAP.TAB and CBLOAD (R290, R332, R340). -/

/-- What the reads of a gang's access come to: held, refused with a reason, or the bytes, the labels of the pages, and the
completion time. -/
inductive GangRead where
  | held (va : Nat) (hostResident : Bool) (level : Nat)
  | refused (reason va : Nat)
  | ok (bs : List Byte) (l : Label) (g : Nat) (s : State)

/-- Bytes of one span read for an access. -/
def readSpan (s : State) (a : Access) (va n : Nat) (pick : Pick) : GangRead :=
  match reach s (s.coreOf a.thread) (s.partOf a.thread) va n (a.via pick) { r := true } with
  | .held va h level => .held va h level
  | .refused k va => .refused k va
  | .ok ps =>
    match readAll s { a with width := n } ps pick with
    | (none, _) => .refused 1 va
    | (some (bs, g), s') => .ok bs (pagesLabel ps ||| stackLabel s ps) g (racePieces s' a ps .load)

/-- The entries of a REMAP.TAB from e upwards, in order; an entry out of bounds reads zero (R332). -/
def readTab (a : Access) (r : Rec) (pick : Pick) : Nat → Nat → List Byte → Label → Nat → State → GangRead
  | 0, _, acc, l, g, s => .ok acc l g s
  | fuel + 1, e, acc, l, g, s =>
    if tabOob r a.addr e then readTab a r pick fuel (e + 1) (acc ++ [0, 0, 0, 0]) l g s
    else
      match readSpan s a (r.addr (a.addr + e) 0).toNat 4 pick with
      | .ok bs l' g' s' => readTab a r pick fuel (e + 1) (acc ++ bs) (l ||| l') (max g g') s'
      | x => x

/-- The threads of a gang that wait for an issue group's access. -/
def State.waiters (s : State) (a : Access) : List Nat :=
  (s.threadsOfGang (gangOf a.thread)).filter (fun t => (s.thread t).sched == .blocked (.landing a.group))

/-- A load fault of every waiting thread, each with its LOAD record, as far as the queue has room; the access stays until the
last has entered (R290, R398, R400). -/
def faultAll (s : State) (id : Nat) (a : Access) (reason va : Nat) : State :=
  let one (s : State) (t : Nat) : State :=
    if s.sfqFull (s.coreOf t) then s
    else
      ((s.pushRecord { recordOf a 8 reason va 0 0 with lane := laneOf t, thread := t, type := 7 }).unblock t).modThread t
        (fun x => { x with forced := x.forced || !x.inTrap })
  let s := (s.waiters a).foldl one (s.setAccess id { a with oob := true, value := BitVec.ofNat 32 reason, c := BitVec.ofNat 64 va })
  if (s.waiters a).isEmpty then s.dropAccess id else s

/-- An earlier REMAP.TAB, or CBLOAD of the same slot, that writes the same cores goes first (R118, R332, R340). -/
def earlierTab (s : State) (id : Nat) (a : Access) : Bool :=
  s.accesses.any (fun e => e.1 < id && e.2.kind == a.kind && (a.kind == .remapTab || e.2.aux == a.aux) && launchNo s e.2.thread == launchNo s a.thread &&
    (s.unitCores (unitOfThread e.2.thread)).any (s.unitCores (unitOfThread a.thread)).contains)

/-- The read of a REMAP.TAB completes: the table and its label are replaced as one event (R332). -/
def landTab (s : State) (id : Nat) (a : Access) (pick : Pick) : State :=
  if a.oob then faultAll s id a a.value.toNat a.c.toNat
  else
    match readTab a (Rec.ofBits (BitVec.ofNat 128 a.aux)) pick 4096 0 [] 0 0 s with
    | .held va h level => holdAccess s id a va h level
    | .refused k va => faultAll s id a k va
    | .ok bs l g s' =>
      let entry (t : Tab Word) (e : Nat) : Tab Word := tabSetD 0 t e (BitVec.ofNat 32 (leNat ((bs.drop (4 * e)).take 4)))
      let table : Tab Word := (List.range 4096).foldl entry []
      (((s'.dropAccess id).modRemap (unitOfThread a.thread) (fun r => { r with table := table, label := a.label ||| l })).sawFor a
        g).landed a

def execRemapTableWrite (id : Nat) (pick : Pick) (s : State) : Host.Outcome State Fault Refusal :=
  match tabGet s.accesses id with
  | some a => if a.kind == .remapTab && enabled s id a && !earlierTab s id a then .next (s.orWait (s.coreOf a.thread) (landTab s id a pick)) else .next s
  | none => .next s

/-! CBLOAD (R174, R175, R340). -/

/-- A slot written on every core that a unit occupies. Accesses and matrix operations of the context that issued in an earlier
clk than the CBLOAD keep the slot as it stood; an operation of the same clk takes the new one (R175). `due` is the end of that clk. -/
def writeBook (s : State) (u slot due : Nat) (b : Codebook) : State :=
  let launch := (s.unit u).launch
  let cores := s.unitCores u
  let keep (e : Nat × Access) : Nat × Access :=
    if e.2.due < due && e.2.f.ty == .c4 && launchNo s e.2.thread == launch && cores.contains (s.coreOf e.2.thread) &&
        (tabGet e.2.books slot).isNone then
      (e.1, { e.2 with books := tabPut e.2.books slot (threadBook s e.2.thread slot) })
    else e
  let retake (o : MmaOp) : MmaOp :=
    if o.due = due && launchNo s o.thread == launch && cores.contains (s.coreOf o.thread) then
      { o with
        aBook := if o.aSlot == some slot then b else o.aBook
        bBook := if o.bSlot == some slot then b else o.bBook }
    else o
  let s' := { s with accesses := s.accesses.map keep, clusters := tabMap (fun c => { c with mma := tabMap retake c.mma }) s.clusters }
  cores.foldl (fun s c => s.modCore c (fun x => { x with codebooks := tabPut x.codebooks (64 * contextOf s c launch + slot) b })) s'

/-- The slot that a CBLOAD names. -/
def cbSlot (f : Fields) : Nat := f.bits 0 6

/-- The address of a CBLOAD and its bounds test (R340). -/
def cbAddr (s : State) (f : Fields) (t : Nat) : Int := (recOf s t f.a).addr (read32 s t f.b).toNat 0
def cbOob (s : State) (f : Fields) (t : Nat) : Bool := (recOf s t f.a).oob (read32 s t f.b).toNat 0 32

/-- A CBLOAD of the slot that writes a core of the thread's unit is in flight: the write of a later one remains (R340). -/
def slotBusy (s : State) (f : Fields) (t : Nat) : Bool :=
  s.accesses.any (fun e => e.2.kind == .codebook && e.2.aux == cbSlot f && launchNo s e.2.thread == launchNo s t &&
    (s.unitCores (unitOfThread e.2.thread)).any (s.unitCores (unitOfThread t)).contains)

/-- CBLOAD for one thread (R340). -/
def cbloadEff (f : Fields) (s : State) (t : Nat) : Res :=
  let l := labelOf s 0x300 f t
  if (recOf s t f.a).bad then .trap 12 0 false
  else if cbOob s f t && !slotBusy s f t then
    if (recOf s t f.a).trap then .trap 13 0 false else .go { writes := bpWrite f true l }
  else if cbOob s f t && (recOf s t f.a).trap then .trap 13 0 false
  else
    let a : Access :=
      { kind := .codebook, thread := t, group := 0, pc := s.pc, op := 0x300, f := f, addr := (cbAddr s f t).toNat, width := if cbOob s f t then 0 else 32, label := l,
        aux := cbSlot f, inTrap := (s.thread t).inTrap }
    .go { writes := bpWrite f (cbOob s f t) l, accesses := if isLeader s 0x300 f (bpPreds f) [] t then [a] else [],
          wait := some (.landing s.issue.serial) }

/-- CBLOAD for the threads of one gang: out of bounds, the slot is written at once with entries of +0 where no read of it is in flight
(R340). -/
def runCbload (f : Fields) (s : State) : State :=
  let s' := runGroup 0x300 f (bpPreds f) [] (cbloadEff f) s
  match goers (judge s 0x300 f (bpPreds f) [] (cbloadEff f)) with
  | [] => s'
  | t :: _ =>
    if cbOob s f t && !slotBusy s f t then
      writeBook s' (unitOfThread t) (cbSlot f) (s.clkOf t + 5) { entries := List.replicate 16 0, label := labelOf s 0x300 f t }
    else s'

def execCbload (f : Fields) (s : State) : Host.Outcome State Fault Refusal := .next (runPerGang (runCbload f) s)

/-- The 16 entries in 32 bytes (R174). -/
def bookEntries (bs : List Byte) : List (BitVec 16) :=
  (List.range 16).map (fun k => BitVec.ofNat 16 (leNat ((bs.drop (2 * k)).take 2)))

/-- CBLOAD's bytes arrive; one out of bounds, which had waited for the read of an earlier pass, writes +0 (R340). -/
def landBook (s : State) (id : Nat) (a : Access) (pick : Pick) : State :=
  if a.oob then faultAll s id a a.value.toNat a.c.toNat
  else if a.width = 0 then
    (writeBook (s.dropAccess id) (unitOfThread a.thread) a.aux a.due { entries := List.replicate 16 0, label := a.label }).landed a
  else
    match readSpan s a a.addr 32 pick with
    | .held va h level => holdAccess s id a va h level
    | .refused k va => faultAll s id a k va
    | .ok bs l g s' =>
      ((writeBook (s'.dropAccess id) (unitOfThread a.thread) a.aux a.due { entries := bookEntries bs, label := a.label ||| l }).sawFor a
        g).landed a

def execCodebookSlotWrite (id : Nat) (pick : Pick) (s : State) : Host.Outcome State Fault Refusal :=
  match tabGet s.accesses id with
  | some a => if a.kind == .codebook && enabled s id a && !earlierTab s id a then .next (s.orWait (s.coreOf a.thread) (landBook s id a pick)) else .next s
  | none => .next s

end Sys2Proof.Machine
end

