-- ==== Sys2Proof/Machine/PageTable.lean ====
section
/-! DEFINITION. The page table as its writers see it: tables and entries, frames and frame labels, relabelling, TLB shoot-down,
and the argument window (R237, R238, R243, R244, R277, R278, R450, R451). -/

namespace Sys2Proof.Machine

/-! Tables and entries. -/

/-- The bytes of a table of a level (table Address Division). -/
def tableBytes (level : Nat) : Nat := 8 * 2 ^ levelBits level

/-- A number raised to a multiple. -/
def alignUp (n a : Nat) : Nat := (n + a - 1) / a * a

/-- A new table in the page-table gigabyte (log 9). -/
def allocTable (s : State) (part level : Nat) : Nat × State :=
  let o := alignUp (s.part part).nextTable (tableBytes level)
  (tableBase + o, s.modPart part (fun p => { p with nextTable := o + tableBytes level }))

/-- The entry of a table for an address. -/
def readEntry (s : State) (part table va level : Nat) : Nat := leNat (s.mem.read (entryAddr (s.part part) table va level) 8)

/-- The entry of a table for an address written. -/
def writeEntry (s : State) (part table va level e : Nat) : State :=
  s.setMem (s.mem.write (entryAddr (s.part part) table va level) (leBytes 8 e))

/-- The table that a pointer entry names (R238). -/
def pointerOf (e : Nat) : Nat := e % 2 ^ 40 / 2 ^ 7 * 2 ^ 7

/-- The table of a level on the path of an address, created with the tables above it where they are missing (R243). -/
def pathTo (part va level : Nat) : Nat → Nat → State → Nat × State
  | 0, table, s => (table, s)
  | n + 1, table, s =>
    if n + 1 ≤ level then (table, s)
    else
      let e := readEntry s part table va (n + 1)
      if e % 4 = 1 then pathTo part va level n (pointerOf e) s
      else
        let t := allocTable s part n
        pathTo part va level n t.1 (writeEntry t.2 part table va (n + 1) (1 + t.1))

/-- The table of a level on the path of an address where it exists. -/
def findTable (s : State) (part va level : Nat) : Nat → Nat → Option Nat
  | 0, table => some table
  | n + 1, table =>
    if n + 1 ≤ level then some table
    else
      let e := readEntry s part table va (n + 1)
      if e % 4 = 1 then findTable s part va level n (pointerOf e) else none

/-- An entry of a level written for an address, with its path. -/
def putEntry (s : State) (part level va e : Nat) : State :=
  let t := pathTo part va level 4 tableBase s
  writeEntry t.2 part t.1 va level e

/-- An entry written where its path exists (R243). -/
def setEntry (s : State) (part level va e : Nat) : State :=
  match findTable s part va level 4 tableBase with
  | some t => writeEntry s part t va level e
  | none => s

/-- The valid leaves under a table: the first address and the leaf of each (R238). -/
def leavesUnder (m : Memory) (p : Partition) : Nat → Nat → Nat → List (Nat × Leaf)
  | level, table, va =>
    (List.range (2 ^ levelBits level)).flatMap (fun i =>
      let e := leNat (m.read (p.phys (table + 8 * i)) 8)
      let a := va + i * 2 ^ levelShift level
      if e % 2 = 0 then []
      else if e.testBit 1 then (if badLeaf e level then [] else [(a, leafOf e level)])
      else
        match level with
        | 0 => []
        | l + 1 => leavesUnder m p l (pointerOf e) a)

/-- Every valid leaf of a partition. -/
def allLeaves (s : State) (part : Nat) : List (Nat × Leaf) := leavesUnder s.mem (s.part part) 4 tableBase 0

/-- What the range of one page meets: a present leaf of its own level, or of another level (R242). -/
inductive Meets where
  | nothing
  | same
  | other
  deriving DecidableEq, Repr

/-- The leaves that the range of a page of a level meets, from a table downwards. -/
def meetsFrom (m : Memory) (p : Partition) (level va : Nat) : Nat → Nat → Meets
  | n, table =>
    let e := leNat (m.read (entryAddr p table va n) 8)
    if e % 2 = 0 then .nothing
    else if e.testBit 1 then (if n = level then .same else .other)
    else if n = level then
      match n with
      | 0 => .nothing
      | l + 1 => if (leavesUnder m p l (pointerOf e) va).isEmpty then .nothing else .other
    else
      match n with
      | 0 => .nothing
      | l + 1 => meetsFrom m p level va l (pointerOf e)

def meetsPage (s : State) (part level va : Nat) : Meets := meetsFrom s.mem (s.part part) level va 4 tableBase

/-! Frames and their labels (R277, R278). -/

/-- The frames of a partition-relative range. -/
def framesOf (rel n : Nat) : List Nat :=
  if n = 0 then [] else (List.range ((rel + n - 1) / 4096 - rel / 4096 + 1)).map (fun k => rel / 4096 + k)

/-- The label of a frame (R277). -/
def frameLabel (s : State) (part f : Nat) : Label := tabGetD 0 (s.part part).frameLabels f

/-- The label of a frame set. -/
def State.setFrameLabel (s : State) (part f : Nat) (l : Label) : State :=
  s.modPart part (fun p => { p with frameLabels := tabSetD 0 p.frameLabels f l })

/-- A leaf of the partition's own memory, not of another device (R432). -/
def Leaf.isLocal (l : Leaf) : Bool := l.frame < 0xC000000000

/-- The frames that a leaf maps: of a class-1 leaf, its region's pool up to the capacity, map and directory (R277, R278). -/
def leafFrames (s : State) (part : Nat) (l : Leaf) : List Nat :=
  if !l.isLocal then []
  else if l.cls = 1 then
    match readRegion s part l with
    | some r =>
      let base := (s.part part).phys 0
      framesOf (r.pool - base) (r.capacity * r.tile) ++ framesOf (r.map - base) ((r.tiles + 7) / 8) ++ framesOf (r.dir - base) (4 * r.tiles)
    | none => []
  else framesOf l.frame (pageSize l.level)

/-- Bytes of a range that read zero. -/
def Memory.clear (m : Memory) (a n : Nat) : Memory := m.filter (fun e => e.1 < a || a + n ≤ e.1)

/-- The core stands in the partition. -/
def Partition.hasCore (p : Partition) (core : Nat) : Bool := p.first ≤ core / 40 && core / 40 < p.first + p.size

/-- The lines of every L1 of a partition dropped. -/
def dropL1 (s : State) (part : Nat) : State :=
  let p := s.part part
  { s with cores := s.cores.map (fun e => if p.hasCore e.1 then (e.1, { e.2 with l1 := [] }) else e) }

/-- The lines of a physical range dropped from every L1 of a partition. -/
def dropLines (s : State) (part pa n : Nat) : State :=
  let p := s.part part
  let keep (t : Tab Line) : Tab Line := t.filter (fun e => e.1 < pa / 128 || (pa + n + 127) / 128 ≤ e.1)
  { s with cores := s.cores.map (fun e => if p.hasCore e.1 then (e.1, { e.2 with l1 := keep e.2.l1 }) else e) }

/-- One frame brought under a leaf's label: zeroed and relabelled where its label is not within it, united otherwise (R277). -/
def relabelFrame (part : Nat) (l : Label) (s : State) (f : Nat) : State :=
  if Label.subset (frameLabel s part f) l then s.setFrameLabel part f (frameLabel s part f ||| l)
  else ((dropL1 s part).setMem (s.mem.clear ((s.part part).phys (4096 * f)) 4096)).setFrameLabel part f l

/-- A leaf written with its path, and its frames brought under its label (R243, R277). -/
def mapLeaf (s : State) (part va level e : Nat) : State :=
  let s := putEntry s part level va e
  let l := leafOf e level
  (leafFrames s part l).foldl (relabelFrame part l.label) s

/-- A TLB entry's leaf maps bytes of a range. -/
def tlbMeets (va n : Nat) (e : Nat × DWord × Nat) : Bool := 4096 * e.1 < va + n && va < 4096 * e.1 + pageSize e.2.2

/-- The slices of the partition. -/
def Partition.hasSlice (p : Partition) (k : Nat) : Bool := p.first ≤ k && k < p.first + p.size

/-- The entries of a range of addresses dropped from every TLB of a partition (R244). -/
def flushTlb (s : State) (part va n : Nat) : State :=
  let p := s.part part
  let keep (t : List (Nat × DWord × Nat)) : List (Nat × DWord × Nat) := t.filter (fun e => !tlbMeets va n e)
  { s with
    cores := s.cores.map (fun e => if p.hasCore e.1 then (e.1, { e.2 with tlb := keep e.2.tlb }) else e)
    slices := s.slices.map (fun e => if p.hasSlice e.1 then (e.1, { e.2 with tlb := keep e.2.tlb }) else e) }

/-- The pages of a range unmapped at once, with their TLB entries. -/
def unmapRange (s : State) (part va n : Nat) : State :=
  flushTlb ((List.range ((n + 4095) / 4096)).foldl (fun s k => setEntry s part 0 (va + 4096 * k) 0) s) part va n

/-! The argument window (R451; log 9). -/

/-- Argument areas stand in the first 512 MiB of the window; the frame of each page is a fixed one at the end of the page-table
gigabyte. -/
def windowPages : Nat := 2 ^ 17
def windowFrame (va : Nat) : Nat := tableBase + 2 ^ 30 - 4096 * ((va - windowBase) / 4096 + 1)

/-- The lowest free base of an area of some pages in the window. -/
def findWindow (p : Partition) (pages : Nat) : Option Nat :=
  ((0 :: p.windows.map (fun w => (w.1 - windowBase + w.2) / 4096)).filter (fun k =>
    k + pages ≤ windowPages && p.windows.all (fun w =>
      windowBase + 4096 * (k + pages) ≤ w.1 || w.1 + w.2 ≤ windowBase + 4096 * k))).foldl
    (fun acc k => match acc with
      | none => some k
      | some m => some (min m k)) none |>.map (fun k => windowBase + 4096 * k)

/-- An area taken: its pages mapped read-only as device-private memory, with the argument bytes and their label (R451). No L1 keeps a
line that an earlier area left in their frames. -/
def placeWindow (s : State) (part base : Nat) (bs : List Byte) (l : Label) : State :=
  let n := alignUp bs.length 4096
  let page (s : State) (k : Nat) : State :=
    let va := base + 4096 * k
    let f := windowFrame va
    let s := putEntry s part 0 va (3 + 4 + 2 * 2 ^ 5 + l.toNat * 2 ^ 20 + f / 4096 * 2 ^ 36)
    let pa := (s.part part).phys f
    (dropLines s part pa 4096).setMem ((s.mem.clear pa 4096).write pa ((bs.drop (4096 * k)).take 4096))
  ((List.range (n / 4096)).foldl page s).modPart part (fun p => { p with windows := p.windows ++ [(base, n)] })

/-- An area freed (R451). -/
def freeWindow (s : State) (part base : Nat) : State :=
  match (s.part part).windows.find? (fun w => w.1 == base) with
  | some w => (unmapRange s part w.1 w.2).modPart part (fun p => { p with windows := p.windows.filter (fun x => x.1 != base) })
  | none => s

end Sys2Proof.Machine
end

