-- ==== Sys2Proof/Machine/Levels.lean ====
section
/-! DEFINITION. The work hierarchy: levels, their counters, completion and cancel, and the queue entries that begin them (R46,
R50 to R53, R385, R387, R430). -/

namespace Sys2Proof.Machine

/-! Queue entries (R46). -/

/-- A little-endian field of bytes. -/
def fieldAt (bs : List Byte) (o n : Nat) : Nat := leNat ((bs.drop o).take n)

/-- Bytes [a, b) are zero. -/
def zeroBytes (bs : List Byte) (a b : Nat) : Bool := ((bs.drop a).take (b - a)).all (fun x => x = 0)

/-- Byte 1 of an entry: flag bit 0 waits for the previous entry, flag bit 1 asks for completion messages. -/
def entryWaits (bs : List Byte) : Bool := (fieldAt bs 1 1).testBit 0
def entryAsks (bs : List Byte) : Bool := (fieldAt bs 1 1).testBit 1
def entryKind (bs : List Byte) : Nat := fieldAt bs 0 1
def entryIdent (bs : List Byte) : Nat := fieldAt bs 4 4

/-- The structural rules of an entry (R46, table Queue Entry Kinds). -/
def entryOk (bs : List Byte) : Bool :=
  bs.length == 64 && fieldAt bs 1 1 < 4 && zeroBytes bs 2 4 &&
    (match entryKind bs with
      | 1 =>
        zeroBytes bs 20 24 && zeroBytes bs 52 64 && fieldAt bs 14 1 ≤ 3 && fieldAt bs 15 1 < 8 && fieldAt bs 24 8 % 8 == 0 &&
          fieldAt bs 32 8 % 64 == 0 &&
          (if fieldAt bs 32 8 = 0 then fieldAt bs 48 4 == 0
           else fieldAt bs 48 4 % 4 == 0 && 4 ≤ fieldAt bs 48 4 && fieldAt bs 48 4 ≤ 65536)
      | 2 => zeroBytes bs 19 64 && fieldAt bs 8 8 % 64 == 0 && 1 ≤ fieldAt bs 16 2 && fieldAt bs 16 2 ≤ 4096
      | 3 => zeroBytes bs 32 64 && fieldAt bs 24 8 < 2 ^ 40
      | 4 => zeroBytes bs 9 12 && zeroBytes bs 16 64 && 1 ≤ fieldAt bs 8 1 && fieldAt bs 8 1 ≤ 3
      | _ => false)

/-- The units of a launch entry. -/
def entryUnits (bs : List Byte) : Nat := fieldAt bs 16 4 + 1

/-! Levels. -/

/-- A level of the state. -/
def State.levelAt (s : State) (k : Nat) : Option Level := tabGet s.levels k

/-- A level changed. -/
def State.modLevel (s : State) (k : Nat) (g : Level → Level) : State := { s with levels := tabMod s.levels k g }

/-- A new level: its number and the state. -/
def newLevel (s : State) (x : Level) : Nat × State :=
  let n := s.takeId
  (n.1, n.2.setLevel n.1 x)

/-- The ancestors of a level, nearest first. -/
def ancestors (s : State) : Nat → Nat → List Nat
  | 0, _ => []
  | fuel + 1, k =>
    match (s.levelAt k).bind Level.parent with
    | some p => p :: ancestors s fuel p
    | none => []

/-- All the ancestors of a level. -/
def State.above (s : State) (k : Nat) : List Nat := ancestors s s.levels.length k

/-- The level of a kind that contains a level: itself, or an ancestor (R388). -/
def enclosing (s : State) (k kind : Nat) : Option Nat :=
  (k :: s.above k).find? (fun n => ((s.levelAt n).map Level.kind) == some kind)

/-- One child fewer: the counter falls, and a failing child gives the level its status where none has before (R50, R52). -/
def lowerLevel (s : State) (k status index : Nat) : State :=
  s.modLevel k (fun x => { x with
    counter := x.counter - 1
    fail := match x.fail with
      | some y => some y
      | none => if status = stOk then none else some status
    failIndex := if x.fail.isNone && status != stOk then index else x.failIndex })

/-- The levels in which a child of a level counts: the level, and where that is a graph armed by GARM the graph around it, and so on
(R56, R385). -/
def countedIn (s : State) : Nat → Nat → List Nat
  | 0, k => [k]
  | fuel + 1, k =>
    match s.levelAt k with
    | some x => k :: (if x.armed then (match x.parent with
        | some p => countedIn s fuel p
        | none => []) else [])
    | none => [k]

def State.counts (s : State) (k : Nat) : List Nat := countedIn s s.levels.length k

/-- A child of a level completes (R52, R56, R385). -/
def childDone (s : State) (k status index : Nat) : State := (s.counts k).foldl (fun s k => lowerLevel s k status index) s

/-- Children that a level gains (R56). -/
def addChildren (s : State) (k n : Nat) : State := s.modLevel k (fun x => { x with counter := x.counter + n })

/-- Children of a level, counted wherever they count (R56, R385). -/
def gainChildren (s : State) (k n : Nat) : State := (s.counts k).foldl (fun s k => addChildren s k n) s

/-- The status that a level completes with (R52, R53). -/
def Level.final (x : Level) : Nat := if x.cancelled then stCancelled else x.fail.getD stOk

/-- The launch of a launch level. -/
def launchOfLevel (s : State) (k : Nat) : Option (Nat × Launch) := s.launches.find? (fun e => e.2.level == k)

/-- The counters of a launch as the payload of its completion: 20 values of 8 bytes (R190). -/
def counterPayload (x : Option Launch) : List Byte :=
  (List.range 20).flatMap (fun c => leBytes 8 (match x with
    | some l => tabGetD 0 l.counters c
    | none => 0))

/-- The job of an endpoint that stands at a level. -/
def jobAt (s : State) (ep k : Nat) : Option (Nat × Job) := (s.endpoint ep).jobs.find? (fun e => e.2.level == k)

/-- An entry level that has not completed and has not begun fails without starting (R52). -/
def failUnstarted (s : State) (k status : Nat) : State :=
  s.modLevel k (fun x => if x.status.isSome || x.hidden then x else { x with counter := 0, closed := true, fail := some status })

/-- A phase has failed: the job refuses submissions, and its later phases complete with DEPENDENCY_FAILED (R52). A phase that is
still open, or has children that have not completed, has not yet failed, whatever its graphs have come to: DESIGN CHOICE (log 28). -/
def failJob (s : State) (ep job ident : Nat) : State :=
  let later := s.levels.filter (fun e => e.2.kind == 3 && e.2.parent == some job && ident < e.2.ident && e.2.status.isNone)
  let s := later.foldl (fun s e => s.modLevel e.1 (fun x => { x with fail := some stDependencyFailed })) s
  let inside := s.levels.filter (fun e => e.2.kind ≤ 2 && (s.above e.1).any (fun k => later.any (fun l => l.1 == k)))
  let s := inside.foldl (fun s e => failUnstarted s e.1 stDependencyFailed) s
  match jobAt s ep job with
  | some (j, x) => s.modEndpoint ep (fun e => { e with jobs := tabPut e.jobs j { x with failed := true } })
  | none => s

/-- What the completion of a level ends: a launch's argument area, a failed phase's successors, a job (R52, R448, R451). -/
def levelEnded (s : State) (k : Nat) (x : Level) (status : Nat) : State :=
  match x.kind with
  | 1 =>
    match launchOfLevel s k with
    | some (_, l) => if l.argBytes = 0 then s else freeWindow s l.part l.argBase
    | none => s
  | 3 => if status != stOk && !x.cancelled then (match x.parent with
      | some j => failJob s x.ep j x.ident
      | none => s) else s
  | 4 =>
    match jobAt s x.ep k with
    | some (j, _) => s.modEndpoint x.ep (fun e => { e with jobs := tabDel e.jobs j })
    | none => s
  | _ => s

/-- The failing index that a level completes with; none of a cancelled one (R38, R53). -/
def Level.index (x : Level) : Nat := if x.cancelled then noIndex else x.failIndex

/-- The completion message of a level that asks for one (R430). Its host sequence number and host tag are 0, for it concerns no command:
DESIGN CHOICE (log 28). -/
def levelMessage (s : State) (k : Nat) (x : Level) (status : Nat) : State :=
  if x.ask && !x.hidden then
    sendNumbered s x.ep { blankOut 2 status with
      level := x.kind, detail := x.ident, index := x.index,
      payload := if x.kind = 1 then counterPayload ((launchOfLevel s k).map Prod.snd) else [] }
  else s

/-- Child table entries created under .NR are freed when their work completes (R383). -/
def freeChildren (s : State) (k : Nat) : State :=
  let free (c : Child) : Child := if c.nr && c.level == some k then { c with level := none } else c
  { s with
    cores := tabMap (fun c : Core => { c with children := tabMap free c.children }) s.cores
    saved := tabMap (fun x : Saved => { x with children := tabMap free x.children }) s.saved }

/-- A level that completes now: closed, with no child left (R50). -/
def Level.due (x : Level) : Bool := x.status.isNone && x.closed && x.counter == 0

/-- The status that a level has or, its last child having completed, takes with its completion; none while it has neither (R53). -/
def Level.outcome (x : Level) : Option Nat := if x.due then some x.final else x.status

/-- A level completes: its status, its message, what it ends, and its parent's counter (R430). -/
def finishLevel (s : State) (k : Nat) (x : Level) : State :=
  let st := x.final
  let seq := if x.ask && !x.hidden && s.mayTalk x.ep then (s.endpoint x.ep).nextDev else 0
  let s := s.setLevel k { x with status := some st, counter := 0, message := seq }
  let s := freeChildren (levelEnded (levelMessage s k x st) k x st) k
  match x.parent with
  | some p => if x.armed then s else childDone s p st x.index
  | none => s

/-- A level and the ancestors that complete with it, in ascending level order (R430). -/
def finishUp : Nat → Nat → State → State
  | 0, _, s => s
  | fuel + 1, k, s =>
    match s.levelAt k with
    | none => s
    | some x =>
      if x.due then
        let s' := finishLevel s k x
        match x.parent with
        | some p => finishUp fuel p s'
        | none => s'
      else s

/-- Queue entries whose level has completed leave their queues (R47). -/
def pruneQueues (s : State) : State :=
  let gone (q : QEntry) : Bool := ((s.levelAt q.level).bind Level.status).isSome
  let prune (x : Queue) : Queue := { x with entries := x.entries.filter (fun q => !gone q), device := x.device.filter (fun q => !gone q) }
  { s with parts := tabMap (fun p : Partition => { p with queues := tabMap prune p.queues }) s.parts }

/-- The first level that is due completes. -/
def execLevelCompletion (s : State) : Host.Outcome State Fault Refusal :=
  match s.levels.find? (fun e => e.2.due) with
  | some e => .next (pruneQueues (finishUp s.levels.length e.1 s))
  | none => .next s

/-! Cancel (R53, R389). -/

/-- The level and its descendants. -/
def withDescendants (s : State) (k : Nat) : List Nat :=
  k :: (s.levels.filter (fun e => (s.above e.1).contains k)).map Prod.fst

/-- The units of a launch that have not ended. -/
def liveUnits (s : State) (launch : Nat) : Nat :=
  (s.units.filter (fun e => e.2.launch == launch && e.2.live)).length

/-- The children of a cancelled level that are still to stop: its live units, its copies that have not stopped, or its child
levels that have not completed. -/
def runningChildren (s : State) (k : Nat) (x : Level) : Nat :=
  if x.kind = 1 then ((launchOfLevel s k).map (fun e => liveUnits s e.1)).getD 0
  else
    (s.copies.filter (fun e => e.2.level == some k && !e.2.done)).length +
      (s.levels.filter (fun e => e.2.status.isNone && !e.2.armed && (match e.2.parent with
        | some p => (s.counts p).contains k
        | none => false))).length

/-- The units of cancelled launches are to be terminated (R53). -/
def cancelUnits (s : State) (launches : List Nat) : State :=
  { s with units := tabMap (fun u : Unit => if launches.contains u.launch && u.live then { u with cancelled := true } else u) s.units }

/-- Saved units of cancelled launches are discarded. -/
def dropSaved (s : State) (launches : List Nat) : State :=
  { s with saved := s.saved.filter (fun e => !launches.contains e.2.unit.launch) }

/-- A copy belongs to a cancelled level, or to a unit of a cancelled launch. -/
def copyOf (s : State) (ls launches : List Nat) (c : Copy) : Bool :=
  match c.level, c.unit with
  | some n, _ => ls.contains n
  | none, some (u, _) => launches.contains (s.unit u).launch
  | none, none => false

/-- Copies of cancelled work stop (R53, R321); those that stand in a saved job go. -/
def stopCopies (s : State) (ls launches : List Nat) : State :=
  let rest (j : Job) : Job := { j with copies := j.copies.filter (fun e => !copyOf s ls launches e.2) }
  { s with
    endpoints := tabMap (fun e : Endpoint => { e with jobs := tabMap rest e.jobs }) s.endpoints
    copies := tabMap (fun c : Copy =>
      if copyOf s ls launches c && !c.done && c.stop.isNone then { c with stop := some 5 } else c) s.copies }

/-- Queue entries of levels leave their queues. -/
def Queue.without (q : Queue) (ls : List Nat) : Queue :=
  { q with entries := q.entries.filter (fun e => !ls.contains e.level), device := q.device.filter (fun e => !ls.contains e.level) }

def dropEntries (s : State) (ls : List Nat) : State :=
  { s with parts := tabMap (fun p : Partition => { p with queues := tabMap (fun q : Queue => q.without ls) p.queues }) s.parts }

/-- Entries of cancelled levels that have begun leave their queues; those that have not stay until their levels complete, which is at once
(R32, R47). -/
def dropBegun (s : State) (ls : List Nat) : State :=
  let keep (e : QEntry) : Bool := e.begun.isNone || !ls.contains e.level
  { s with parts := tabMap (fun p : Partition => { p with queues := tabMap (fun q : Queue =>
      { q with entries := q.entries.filter keep, device := q.device.filter keep }) p.queues }) s.parts }

/-- Cancelled jobs are closed (R53). -/
def closeJobs (s : State) (ls : List Nat) : State :=
  let close (j : Job) : Job := if ls.contains j.level then { j with isOpen := false } else j
  { s with endpoints := tabMap (fun e : Endpoint => { e with jobs := tabMap close e.jobs }) s.endpoints }

/-- A level cancelled with its descendants that have no outcome yet: nothing more of them starts, their units are to be terminated, and
their copies stop (R53). -/
def cancelAt (s : State) (k : Nat) : State :=
  let ls := (withDescendants s k).filter (fun n => ((s.levelAt n).map (fun x => x.outcome.isNone)).getD false)
  let launches := (s.launches.filter (fun e => ls.contains e.2.level)).map Prod.fst
  let s := stopCopies (dropSaved (cancelUnits s launches) launches) ls launches
  let s := ls.foldl (fun s n => s.modLevel n (fun x => { x with cancelled := true, closed := true })) s
  let s := ls.foldl (fun s n => match s.levelAt n with
    | some x => s.modLevel n (fun y => { y with counter := runningChildren s n x })
    | none => s) s
  closeJobs (dropBegun s ls) ls

/-- A cancel takes effect on a level that has neither completed nor been cancelled: one whose last child has completed is decided
(R53, R389). -/
def cancelTakes (s : State) (k : Nat) : Bool :=
  match s.levelAt k with
  | some x => x.outcome.isNone && !x.cancelled
  | none => false

end Sys2Proof.Machine
end

