-- ==== Sys2Proof/Machine/Copies.lean ====
section
/-! DEFINITION. Copies: COPY and COPYM, the start of unit commands, the copy engines and their chunks, suspension, and completion
(R72, R73, R318 to R323, R335 to R338, R370). -/

namespace Sys2Proof.Machine

/-! Supplying a slice (R318, R336, R337). -/

/-- The directions of a copy (table Copy Forms). -/
def srcIsMem (dir : Nat) : Bool := dir == 0 || dir == 1
def dstIsMem (dir : Nat) : Bool := dir == 0 || dir == 2

/-- A gang-uniform register's index. -/
def uniIx (o : Opnd) : Nat :=
  match o with
  | .s n => n.toNat
  | _ => 127

/-- The slice descriptor as a gang's registers hold it (table Slice Descriptor). -/
structure Desc where
  src : Nat
  dst : Nat
  bytes : Nat
  tag : Word
  /-- the receiver mask, and the unitids of the receivers whose bits are set. -/
  mask : Nat
  receivers : List Nat

def descOf (s : State) (f : Fields) (g : Nat) : Desc :=
  let k := uniIx f.b
  let r (i : Nat) : Word := (s.gang g).seenSreg (s.clkOfGang g) (k + i)
  { src := (r 0).toNat, dst := (r 1).toNat, bytes := (r 2).toNat, tag := r 3,
    mask := f.bits 2 4, receivers := ((List.range 4).filter (fun i => f.bit (2 + i))).map (fun i => (r (4 + i)).toNat) }

/-- The label of a copy instruction: its operands and every register of its descriptor (R109, R336). -/
def descLabel (s : State) (op : Nat) (f : Fields) (t n : Nat) : Label :=
  (List.range n).foldl (fun l i => l ||| (s.gang (gangOf t)).seenSregLabel (s.clkOf t) (uniIx f.b + i)) (labelOf s op f t)

/-- A memory side of a slice: its address, or the trap that it raises: 12 for the record, 13 for the bounds, 0 for an empty slice
without a trap (R336). -/
def memSide (s : State) (t : Nat) (o : Opnd) (q n : Nat) : Except Nat Nat :=
  let r := recOf s t o
  let step := if r.stride = 0 then elemBits r.size / 8 else r.stride
  let a := (r.addr q 0).toNat
  if r.bad || r.swizzle != 0 || r.size = 0 then .error 12
  else if r.base ≤ a && a + n ≤ r.base + r.extent * step && a + n ≤ 2 ^ 48 then .ok a
  else if r.trap then .error 13
  else .error 0

/-- A scratchpad side: within the run, a destination on whole lines (R320, R336). -/
def runSide (runBytes q n : Nat) (isDst : Bool) : Except Nat Nat :=
  if runBytes < q + n || (isDst && (q % 128 != 0 || n % 128 != 0)) then .error 15 else .ok q

/-- The trap that a side raises. -/
def failing (x : Except Nat Nat) : Option Nat :=
  match x with
  | .error 0 => none
  | .error k => some k
  | .ok _ => none

/-- The slice that a gang supplies, or the trap that it raises: the memory sides are tested before the scratchpad's, and a side out of
bounds without a trap hides no other failure (R336). The destination of COPYM lies in its receivers' runs. -/
def sliceOf (s : State) (op : Nat) (f : Fields) (t : Nat) (multicast : Bool) : Except Nat CopySlice :=
  let d := descOf s f (gangOf t)
  let dir := f.bits 0 2
  let run := (s.unit (unitOfThread t)).runBytes
  let src := if srcIsMem dir then memSide s t f.a d.src d.bytes else runSide run d.src d.bytes false
  let dst := if dstIsMem dir then memSide s t f.c d.dst d.bytes
    else runSide (if multicast then 2 ^ 64 else run) d.dst d.bytes true
  let own := !multicast || d.receivers.contains (s.unit (unitOfThread t)).unitid
  let sides := if !srcIsMem dir && dstIsMem dir then [dst, src] else [src, dst]
  match src, dst with
  | .ok a, .ok b =>
    if dir = 3 && own && a < b + d.bytes && b < a + d.bytes then .error 15
    else
      .ok { gang := gangOf t, srcMem := srcIsMem dir, dstMem := dstIsMem dir, src := a, dst := b, bytes := d.bytes,
            label := descLabel s op f t (if multicast then 8 else 4), born := s.nextId }
  | _, _ => .error ((sides.findSome? failing).getD 0)

/-- The unit's command with a number. -/
def unitCommand (s : State) (u n : Nat) : Option (Nat × Copy) := s.copies.find? (fun e => e.2.unit == some (u, n))

/-- The unit's commands that have not started (R318). -/
def waitingCommands (s : State) (u : Nat) : Nat :=
  (s.copies.filter (fun e => !e.2.started && !e.2.done && (e.2.unit.map Prod.fst) == some u)).length

/-- A new unit command (R318). -/
def newCommand (s : State) (t n : Nat) : Copy :=
  let u := s.unit (unitOfThread t)
  let core := s.coreOf t
  { part := u.part, unit := some (unitOfThread t, n), level := none, account := u.account, cluster := u.clusterNo, core := core % 5,
    context := contextOf s core u.launch, unitid := u.unitid, tagGang := 32 }

/-- A gang's slice entered in its command: the class of the highest class among the issuing threads, the tag of the
lowest-numbered gang, the union of the labels (R318, R336, R347). -/
def Copy.supply (c : Copy) (g : Nat) (cls : Nat) (tag : Word) (l : Label) (sl : Option CopySlice) : Copy :=
  { c with
    slices := match sl with
      | some x => if x.bytes = 0 then c.slices else c.slices ++ [x]
      | none => c.slices
    supplied := c.supplied ++ [g], cls := max c.cls cls, tag := if gangidOf g < c.tagGang then tag else c.tag,
    tagGang := min c.tagGang (gangidOf g), label := c.label ||| l }

/-- Registers that a receiver's counter keeps: 4 when it is first named (R322). -/
def slotsLeft (u : Unit) (r : Nat) : Nat := (tabGet u.receivers r).getD 4

/-- The unit would name a fifth distinct receiver (R322, R337). -/
def fifthReceiver (u : Unit) (rs : List Nat) : Bool :=
  4 < (distinct (u.receivers.map Prod.fst ++ rs)).length

/-- One slot taken from each receiver's counter, however often its mask names it (R322). -/
def Unit.takeSlots (u : Unit) (rs : List Nat) : Unit :=
  { u with receivers := (distinct rs).foldl (fun t r => tabPut t r ((tabGet t r).getD 4 - 1)) u.receivers }

/-- COPY or COPYM performed for one gang whose hold has ended: counted, supplied, and the trap of a failing slice taken after
counting (R336, R337). -/
def supplyCopy (op : Nat) (f : Fields) (multicast : Bool) (s : State) (g : Nat) : State :=
  let h := s.heldAt g s.pc
  let t := h.headD (threadAt g 0)
  let un := unitOf g
  let u := s.unit un
  let n := (s.gang g).copyCount + 1
  let d := descOf s f g
  let old := unitCommand s un n
  let rs := d.receivers
  let fifth := multicast && fifthReceiver u rs
  if old.isNone && 8 ≤ waitingCommands s un then h.foldl (fun s t => s.block t (.commands n)) s
  else if multicast && old.isNone && !fifth && rs.any (fun r => slotsLeft u r = 0) then h.foldl (fun s t => s.block t (.slots n rs)) s
  else
    let differs := match old with
      | some e => e.2.multicast != multicast || (multicast && (e.2.mask != d.mask || e.2.receivers != rs))
      | none => false
    let sl : Except Nat CopySlice := if fifth || differs then .error 17 else sliceOf s op f t multicast
    let takes := multicast && old.isNone && !fifth
    let base : Copy := match old with
      | some e => e.2
      | none => { newCommand s t n with multicast := multicast, receivers := rs, mask := if multicast then d.mask else 0, slotsOut := if takes then distinct rs else [] }
    let l := descLabel s op f t (if multicast then 8 else 4)
    let cls := h.foldl (fun c t => max c (s.thread t).cls) 0
    let c := base.supply g cls d.tag l sl.toOption
    let key : Nat × State := match old with
      | some e => (e.1, s)
      | none => s.takeId
    let s1 := perform op f h (fun _ _ => {}) key.2
    let s2 := (s1.setCopy key.1 c).modGang g (fun x => { x with copyCount := n })
    let s3 := if takes then s2.modUnit un (fun u => u.takeSlots rs) else s2
    match sl with
    | .ok x =>
      if x.dstMem || multicast then s3 else s3.modUnit un (fun u => u.emptyLines x.dst x.bytes)
    | .error 0 => s3
    | .error k => h.foldl (fun s t => takeTrap s t k (nextPc s1.pc) 0 l) s3

/-- COPY or COPYM issued for the group: held as a collective, then performed once for the gang (R336). -/
def runCopy (op : Nat) (f : Fields) (multicast : Bool) (s : State) : State :=
  (gangsOf s.group).foldl (fun s' g => if s'.holdIssues g then supplyCopy op f multicast s' g else s')
    (arrive op f [] [] .held s)

def execCopyI (f : Fields) (s : State) : Host.Outcome State Fault Refusal := .next (runCopy 0x2C3 f false s)
def execCopym (f : Fields) (s : State) : Host.Outcome State Fault Refusal := .next (runCopy 0x2C4 f true s)

/-! Start (R318, R322, R337). -/

/-- The first entry of a table that a test takes. -/
def firstWith {α : Type} (t : Tab α) (p : Nat → α → Bool) : Option (Nat × α) := t.find? (fun e => p e.1 e.2)

/-- The command's unit is stopped by a quiescence: it carries nothing (R411). -/
def copyStopped (s : State) (c : Copy) : Bool :=
  match c.unit with
  | some (u, _) => (s.unit u).stopped
  | none => false

/-- Every gang of the unit that has not ended has supplied its slice (R318). -/
def allSupplied (s : State) (c : Copy) : Bool :=
  match c.unit with
  | some (u, _) => (s.gangsOfUnit u).all (fun g => (s.gang g).ended || c.supplied.contains g)
  | none => true

/-- The unit that a receiver's unitid names: of the sender's launch, resident in its cluster (R322). -/
def receiverUnit (s : State) (c : Copy) (r : Nat) : Option Nat :=
  match c.unit with
  | some (u, _) =>
    (firstWith s.units (fun _ x => x.live && x.unitid == r && x.launch == (s.unit u).launch && x.clusterNo == (s.unit u).clusterNo)).map
      Prod.fst
  | none => none

/-- A receiver takes part: it is resident and its run holds every slice's range (R322, R337). -/
def receiverFits (s : State) (c : Copy) (r : Nat) : Bool :=
  match receiverUnit s c r with
  | some v => c.slices.all (fun x => x.dst + x.bytes ≤ (s.unit v).runBytes)
  | none => false

/-- A sender's slot for a receiver returned (R322). -/
def State.returnSlot (s : State) (c : Copy) (r : Nat) : State :=
  match c.unit with
  | some (u, _) => s.modUnit u (fun y => { y with receivers := tabMod y.receivers r (fun n => min 4 (n + 1)) })
  | none => s

/-- The bit of the receiver mask that names the receiver in a place of the list (R337). -/
def Copy.bitOf (c : Copy) (i : Nat) : Nat := ((List.range 4).filter c.mask.testBit).getD i i

/-- A unit command starts; absent receivers are skipped, and their slots return (R318, R322). -/
def startCommand (s : State) (id : Nat) (c : Copy) : State :=
  let gone := c.slotsOut.filter (fun r => !receiverFits s c r)
  let mask := ((List.range c.receivers.length).filter (fun i => !receiverFits s c (c.receivers.getD i 0))).foldl (fun m i => m + 2 ^ c.bitOf i) 0
  let s' := gone.foldl (fun s r => s.returnSlot c r) s
  s'.setCopy id { c with started := true, startSeq := s.time, skipped := if c.multicast then mask else 0,
                         slotsOut := c.slotsOut.filter (fun r => !gone.contains r) }

def execUnitCommandStart (s : State) : Host.Outcome State Fault Refusal :=
  match firstWith s.copies (fun _ c => c.unit.isSome && !c.started && !c.done && c.stop.isNone && !copyStopped s c && allSupplied s c) with
  | some (id, c) => .next (startCommand s id c)
  | none => .next s

/-! Engines (R72, R73, R319). -/

/-- A chunk of the slice has still to be performed. -/
def CopySlice.left (x : CopySlice) : Bool := x.done + x.pending < x.bytes

/-- The slice at a time: its performed chunk is marked written once its completion time has passed (R323, R370). -/
def CopySlice.settle (x : CopySlice) (now : Nat) : CopySlice :=
  if x.pendG ≤ now then { x with done := x.done + x.pending, pending := 0 } else x

/-- A command that an engine has still to carry. -/
def Copy.carries (c : Copy) : Bool := c.started && !c.done && c.stop.isNone && c.slices.any CopySlice.left

/-- The engine's issue journal holds its 64 commands (R323). -/
def journalFull (s : State) (e : Nat) : Bool := 64 ≤ (s.copies.filter (fun x => x.2.journalOf == some e && !x.2.done)).length

/-- The engine runs a command, or holds its record (R321). -/
def engineBusy (s : State) (e : Nat) : Bool := s.copies.any (fun x => x.2.engine == some e && !x.2.done)

/-- The first free engine of a partition whose journal has room. -/
def freeEngine (s : State) (part : Nat) : Option Nat :=
  (s.engines.find? (fun e => e.2 == part && !engineBusy s e.1 && !journalFull s e.1)).map Prod.fst

/-- The account of a unit or a copy counts as busy in this period (R70). -/
def markBusy (s : State) (p a : Nat) : State :=
  s.modPart p (fun x => { x with accounts := tabPut x.accounts a { tabGetD {} x.accounts a with busy := true } })

/-- The balance of a copy's account. -/
def copyBalance (s : State) (c : Copy) : Int := (tabGetD {} (s.part c.part).accounts c.account).balance

/-- A waiting command goes before another: higher class, then order of start (R319). -/
def copyBefore (x y : Nat × Copy) : Bool :=
  y.2.cls < x.2.cls || (x.2.cls == y.2.cls && (x.2.startSeq < y.2.startSeq || (x.2.startSeq == y.2.startSeq && x.1 < y.1)))

/-- The foremost of a list of commands. -/
def foremost (l : List (Nat × Copy)) : Option (Nat × Copy) :=
  l.foldl (fun acc x => match acc with
    | none => some x
    | some y => if copyBefore x y then some x else some y) none

/-- The commands of a partition that wait for an engine, those of copy entries at their queue heads among them. -/
def waitingCopies (s : State) (part : Nat) : List (Nat × Copy) :=
  s.copies.filter (fun e => e.2.part == part && e.2.carries && e.2.engine.isNone && !e.2.suspended && !copyStopped s e.2)

/-- The suspended commands of a partition that may resume (R73). -/
def resumable (s : State) (part : Nat) : List (Nat × Copy) :=
  s.copies.filter (fun e => e.2.part == part && e.2.carries && e.2.suspended && !copyStopped s e.2 &&
    decide (0 < copyBalance s e.2))

/-- The command given to an engine; a copy entry leaves its queue (R47, R70). -/
def giveEngine (s : State) (x : Nat × Copy) (e : Nat) : State :=
  (markBusy (dropEntries s x.2.level.toList) x.2.part x.2.account).setCopy x.1 { x.2 with engine := some e, journalOf := some e, suspended := false, acceptedAt := s.time }

/-- The next waiting command of a partition, unless a suspended one of equal or higher class may resume (R73, R319). -/
def nextAccepted (s : State) (part : Nat) : Option (Nat × Copy) :=
  match foremost (waitingCopies s part) with
  | some x => if (resumable s part).any (fun y => x.2.cls ≤ y.2.cls) then none else some x
  | none => none

/-- The first partition with a free engine and a command that it takes. -/
def nextAccept (s : State) : Option (Nat × Nat × Copy) :=
  s.parts.findSome? (fun p => (freeEngine s p.1).bind (fun e => (nextAccepted s p.1).map (fun x => (e, x))))

def execCopyEngineAccept (s : State) : Host.Outcome State Fault Refusal :=
  match nextAccept s with
  | some (e, x) => .next (giveEngine s x e)
  | none => .next s

/-- A suspended command of a partition that goes ahead of every waiting command of equal or lower class (R73). -/
def nextResumed (s : State) (part : Nat) : Option (Nat × Copy) :=
  match foremost (resumable s part) with
  | some x => if (waitingCopies s part).any (fun y => x.2.cls < y.2.cls) then none else some x
  | none => none

/-- The first engine of a partition that runs nothing, and whose journal holds the command or has room for it (R73, R323). -/
def resumeEngine (s : State) (part : Nat) (c : Copy) : Option Nat :=
  (s.engines.find? (fun e => e.2 == part && !engineBusy s e.1 && (c.journalOf == some e.1 || !journalFull s e.1))).map Prod.fst

/-- The first suspended command that resumes, and its engine. -/
def nextResume (s : State) : Option (Nat × Nat × Copy) :=
  s.parts.findSome? (fun p => (nextResumed s p.1).bind (fun x => (resumeEngine s p.1 x.2).map (fun e => (e, x))))

def execCopyResume (s : State) : Host.Outcome State Fault Refusal :=
  match nextResume s with
  | some (e, x) => .next (giveEngine s x e)
  | none => .next s

/-! Chunks (R279, R281, R282, R319, R320, R323). -/

/-- What the source of a chunk comes to: it waits, it is held on a page, it is refused with a status, or its bytes and label. -/
inductive ChunkSource where
  | waits
  | held (va : Nat) (hostResident : Bool) (level : Nat)
  | stops (status : Nat)
  | ok (bs : List Byte) (l : Label) (s : State)

/-- Earlier scratchpad accesses of the supplying gang to the lines of a range are still in flight (R369 note c). -/
def earlierScratch (s : State) (sl : CopySlice) (o n : Nat) : Bool :=
  s.accesses.any (fun e => e.1 < sl.born && e.2.kind.isScratch && gangOf e.2.thread == sl.gang &&
    o / 128 ≤ e.2.addr / 128 && e.2.addr / 128 * 128 < o + n)

/-- The lines of a byte range. -/
def linesOf (o n : Nat) : List Nat := if n = 0 then [] else (List.range ((o + n - 1) / 128 - o / 128 + 1)).map (fun k => o / 128 + k)

/-- The source bytes of a chunk (R319, R320). -/
def chunkSource (s : State) (c : Copy) (sl : CopySlice) (n : Nat) : ChunkSource :=
  let a := sl.src + sl.done
  if sl.srcMem then
    match reach s 0 c.part a n {} { r := true } with
    | .held va h level => .held va h level
    | .refused _ _ => .stops 1
    | .ok ps =>
      match rawPieces s c.part ps with
      | (none, _) => .stops 1
      | (some (bs, _), s') => .ok bs (pagesLabel ps ||| stackLabel s ps) (s'.allAtL2 c.part ps)
  else
    let u := s.unit (unitOf sl.gang)
    if (linesOf a n).any (fun k => !u.lineFull k) || earlierScratch s sl a n then .waits
    else .ok (Memory.read u.run a n) ((linesOf a n).foldl (fun l k => l ||| u.labelOf k) 0) s

/-- What the destination of a chunk comes to. -/
inductive ChunkDest where
  | held (va : Nat) (hostResident : Bool) (level : Nat)
  | stops (status : Nat) (s : State)
  | ok (g : Nat) (s : State)

/-- The other devices that pieces lie on. -/
def devicesOf (ps : List Piece) : List Nat :=
  distinct (ps.filterMap (fun p => match p.home with
    | .remote d _ => some d
    | _ => none))

/-- The pieces on a device, or on this one. -/
def onDevice (d : Option Nat) (p : Piece) : Bool :=
  match p.home with
  | .remote x _ => d == some x
  | _ => d.isNone

/-- The release decisions of a chunk, one for each device that it reaches (R281, R282). -/
def releaseChunk (c : Copy) (sl : CopySlice) (ps : List Piece) (l : Label) (s : State) : Bool × State :=
  (devicesOf ps).foldl (fun acc d =>
    if acc.1 then
      let n := ((ps.filter (onDevice (some d))).map Piece.n).foldl (· + ·) 0
      let peer := peerIndex acc.2 c.part (Config.memberAddress d)
      let r := release acc.2 c.part l peer (sl.src + sl.done) n 2 (peer.getD 0xFF)
      (r.1.isNone, r.2)
    else acc) (true, s)

/-- The bytes of a chunk's pieces on this device. -/
def localBytes (a : Nat) (ps : List Piece) (bs : List Byte) : List Byte :=
  (ps.filter (onDevice none)).flatMap (fun p => (bs.drop (p.va - a)).take p.n)

/-- A chunk written to memory: its part on this device, each tile born with its first bytes, and its part on other devices, whose
acknowledgement it awaits (R258, R264, R279, R281, R282, R370). -/
def chunkToMemory (s : State) (c : Copy) (sl : CopySlice) (bs : List Byte) (l : Label) : ChunkDest :=
  let a := sl.dst + sl.done
  match reach s 0 c.part a bs.length {} { w := true } with
  | .held va h level => .held va h level
  | .refused _ _ => .stops 1 s
  | .ok ps =>
    match labelFails ps l with
    | some _ => .stops 2 s
    | none =>
      match releaseChunk c sl ps l s with
      | (false, s') => .stops 4 s'
      | (true, s') =>
        let sent := (devicesOf ps).foldl (fun (acc : Bool × Nat × State) _ =>
          let r := acc.2.2.remote
          (acc.1 && r.1.isSome, max acc.2.1 r.2.1, r.2.2)) (true, 0, s')
        if !sent.1 then .stops 1 sent.2.2
        else
          let here := ps.filter (onDevice none)
          let w := writeBorn none c.part here (localBytes a ps bs) sent.2.1 (labelStack sent.2.2 here l)
          if w.2.1 = 0 then .ok w.1 w.2.2 else .stops 3 w.2.2

/-- The first destination line of a command in its receivers' runs. -/
def Copy.firstLine (c : Copy) : Nat := (c.slices.map (fun x => x.dst / 128)).foldl min (2 ^ 64)

/-- A delivery's first line arrives at a receiver: from now on its emptying returns the slot (R322). -/
def deliverSlot (s : State) (c : Copy) (r v : Nat) (lines : List Nat) : State :=
  match c.unit with
  | some (u, _) =>
    if c.slotsOut.contains r && lines.contains c.firstLine then
      s.modUnit v (fun y => { y with deliveries := y.deliveries ++ [(c.firstLine, u)] })
    else s
  | none => s

/-- The units whose runs a command's scratchpad destination lies in: its own, or its receivers that take part, each once however many places
of the mask name it (R322, R337). -/
def destUnits (s : State) (c : Copy) (sl : CopySlice) : List (Nat × Nat) :=
  if c.multicast then
    (List.range c.receivers.length).filterMap (fun i =>
      if c.skipped.testBit (c.bitOf i) || c.receivers.idxOf (c.receivers.getD i 0) != i then none else (receiverUnit s c (c.receivers.getD i 0)).map (fun v => (c.receivers.getD i 0, v)))
  else if (s.unit (unitOf sl.gang)).live then [(0, unitOf sl.gang)] else []

/-- Bytes brought into the lines of a command's destination runs (R320, R337). -/
def chunkToRuns (s : State) (c : Copy) (sl : CopySlice) (o : Nat) (bs : List Byte) (l : Label) : State :=
  (destUnits s c sl).foldl (fun s v =>
    deliverSlot (s.modUnit v.2 (fun u => u.fillLines o bs l)) c v.1 v.2 (linesOf o bs.length)) s

/-- Slots of a command that have gone into deliveries. -/
def Copy.delivered (c : Copy) (lines : List Nat) : Copy :=
  if lines.contains c.firstLine then { c with slotsOut := [] } else c

/-- A slice of a command replaced. -/
def Copy.setSlice (c : Copy) (i : Nat) (sl : CopySlice) : Copy := { c with slices := c.slices.set i sl }

/-- The endpoint that a command's notices go to (R249). -/
def copyEp (s : State) (c : Copy) : Nat :=
  match c.unit, c.level with
  | some (u, _), _ => s.launchEp (s.unit u).launch
  | none, some k => ((tabGet s.levels k).map Level.ep).getD 0
  | none, none => 0

/-- A chunk held on a not-present page (R319). -/
def holdChunk (s : State) (c : Copy) (va : Nat) (hostResident : Bool) (level : Nat) : State :=
  if hostResident then migrationNotice s c.part (copyEp s c) va level else s

/-- A command stopped with the status of its event record (R321). -/
def stopCopy (s : State) (id : Nat) (c : Copy) (status : Nat) : State := s.setCopy id { c with stop := some status }

/-- Memory that the command writes is not yet complete: a slice to memory has chunks left, or completion times that have not passed. -/
def Copy.memOpen (c : Copy) (now : Nat) : Bool := now < c.g || c.slices.any (fun x => x.dstMem && x.left)

/-- The chunk fills the last scratchpad lines of the command (R370). -/
def Copy.lastLines (c : Copy) (i n : Nat) : Bool :=
  ((List.range c.slices.length).zip c.slices).all (fun x =>
    x.2.dstMem || (if x.1 = i then x.2.bytes ≤ x.2.done + n else !x.2.left))

/-- A shoot-down that has not been acknowledged covers a byte of a range of the partition (R243, R249). -/
def State.shootingMeets (s : State) (part a n : Nat) : Bool :=
  (s.part part).shooting.any (fun x => a < x.2.1 + x.2.2 && x.2.1 < a + n)

/-- A chunk waits for the shoot-downs of its pages (R249, R319). -/
def chunkShot (s : State) (c : Copy) (sl : CopySlice) (n : Nat) : Bool :=
  (sl.srcMem && s.shootingMeets c.part (sl.src + sl.done) n) || (sl.dstMem && s.shootingMeets c.part (sl.dst + sl.done) n)

/-- One chunk of a slice: 4 KiB, or what is left (R319). It follows a chunk whose completion time has passed, and a command fills its last
scratchpad lines after its writes to memory have completed (R370). -/
def runChunk (s : State) (id : Nat) (c0 : Copy) (i : Nat) (sl0 : CopySlice) : State :=
  let sl := sl0.settle s.time
  let c := c0.setSlice i sl
  let n := min 4096 (sl.bytes - sl.done)
  if 0 < sl.pending then s
  else if n = 0 then s.setCopy id c
  else if chunkShot s c sl n then s
  else if !sl.dstMem && c.lastLines i n && c.memOpen s.time then s
  else
    match chunkSource s c sl n with
    | .waits => s
    | .held va h level => holdChunk s c va h level
    | .stops k => stopCopy s id c k
    | .ok bs l s' =>
      let l := l ||| sl.label
      if sl.dstMem then
        match chunkToMemory s' c sl bs l with
        | .held va h level => holdChunk s c va h level
        | .stops k s'' => stopCopy s'' id c k
        | .ok g s'' => s''.setCopy id { c.setSlice i { sl with pending := n, pendG := g } with bytes := c.bytes + n, g := max c.g g }
      else
        let o := sl.dst + sl.done
        let c' : Copy := (c.setSlice i { sl with done := sl.done + n }).delivered (linesOf o n)
        (chunkToRuns s' c sl o bs l).setCopy id { c' with bytes := c.bytes + n * (destUnits s' c sl).length }

/-- The command is the one that R73 suspends: its balance is spent, a command of higher class waits, no engine is free, and no
other running command that qualifies is of lower class, or of the same class and started later. -/
def mustSuspend (s : State) (id : Nat) (c : Copy) : Bool :=
  let spent (x : Copy) : Bool := decide (copyBalance s x ≤ 0)
  let higher (x : Copy) : Nat := ((waitingCopies s c.part).filter (fun y => x.cls < y.2.cls)).length
  let rivals := s.copies.filter (fun e => e.2.part == c.part && e.2.engine.isSome && e.2.carries && spent e.2 && 0 < higher e.2)
  spent c && 0 < higher c && (freeEngine s c.part).isNone &&
    rivals.all (fun e => e.1 == id || copyBefore e (id, c))

def execCopyChunk (id slice : Nat) (_pick : Pick) (s : State) : Host.Outcome State Fault Refusal :=
  match tabGet s.copies id with
  | none => .next s
  | some c =>
    if c.engine.isNone || !c.carries || c.suspended || copyStopped s c then .next s
    else if mustSuspend s id c then
      if c.slices.all (fun x => (x.settle s.time).pending = 0) then
        .next (s.setCopy id { c with engine := none, suspended := true, slices := c.slices.map (fun x => x.settle s.time) })
      else .next s
    else
      match c.slices[slice]? with
      | none => .next s
      | some sl => if !sl.left then .next s else .next (runChunk s id c slice sl)

/-! Completion (R320, R321, R336). -/

/-- The command has carried everything, or it has stopped; and the writes that it has performed have completed (R370, R387). -/
def copyEnds (s : State) (c : Copy) : Bool :=
  !c.done && c.g ≤ s.time && (c.stop.isSome || (c.started && c.slices.all (fun x => !x.left)))

/-- Destination lines that a stopped command's data has not filled are filled with zero (R320). -/
def zeroRest (s : State) (c : Copy) : State :=
  c.slices.foldl (fun s sl =>
    if sl.dstMem then s
    else chunkToRuns s c sl (sl.dst + sl.done) (List.replicate (sl.bytes - sl.done) 0) sl.label) s

/-- The event record of a command (R321, R322). -/
def copyRecord (c : Copy) : EventRec :=
  { kind := if c.stop.isSome then 2 else 1, status := c.stop.getD (if c.skipped != 0 then 6 else 0), core := c.core, context := c.context,
    tag := c.tag, unit := c.unitid, bytes := if c.stop.isNone && c.skipped != 0 then c.skipped else min c.bytes (2 ^ 32 - 1),
    label := c.label }

/-- The status that a copy entry completes with (R264, R283, R53). -/
def entryStatus (c : Copy) : Nat :=
  match c.stop with
  | none => stOk
  | some 3 => stNoSpace
  | some 5 => stCancelled
  | some _ => stNotPermitted

/-- A command completes or stops (R321). The slots of a command without any data return at once. -/
def completeCopy (s : State) (id : Nat) (c : Copy) : State :=
  let s := if c.slices.isEmpty then c.slotsOut.foldl (fun s r => s.returnSlot c r) s else s
  let s := s.setCopy id { c with done := true, engine := none, journalOf := none, slotsOut := [] }
  match c.level with
  | some k => childDone s k (entryStatus c) noIndex
  | none => s.modCluster c.cluster (fun x => { x with events := x.events ++ [copyRecord c] })

/-- A stopped command's lines have still to be filled. -/
def Copy.unfilled (c : Copy) : Bool := c.stop.isSome && !c.zeroed

/-- The event queue takes a command's record; a copy entry makes none (R321). -/
def recordFits (s : State) (c : Copy) : Bool := c.level.isSome || (s.cluster c.cluster).events.length < 256

/-- A command ends: a stopped one's lines are filled at once, whether or not its record can enter the queue (R320, R321). -/
def execCopyComplete (s : State) : Host.Outcome State Fault Refusal :=
  match firstWith s.copies (fun _ c => copyEnds s c && (c.unfilled || recordFits s c)) with
  | some (id, c) =>
    let s' := if c.unfilled then zeroRest s c else s
    let c' : Copy := { c with zeroed := c.stop.isSome }
    if recordFits s c then .next (completeCopy s' id c') else .next (s'.setCopy id c')
  | none => .next s

end Sys2Proof.Machine
end

