-- ==== Sys2Proof/Machine/Matrix.lean ====
section
/-! DEFINITION. The matrix engine and the event queue: MREADY, MMA, MMAS, MWAIT, MPOLL, EVPOST, EVWAIT, EVPOLL, the grant of a
chunk and the completion of an operation (R182, R184, R321, R324 to R329, R339, R341 to R348). -/

namespace Sys2Proof.Machine

/-! The parameter block and the operand records (R326, R341). -/

/-- The fields of a parameter block (table Parameter Block). -/
structure Params where
  ktiles : Nat
  ncode : Nat
  aScratch : Bool
  bScratch : Bool
  rounding : Nat
  format : Nat
  aReg : Nat
  bReg : Nat
  acc : Nat
  aSlot : Nat
  bSlot : Nat
  aRec : Nat
  bRec : Nat
  /-- every reserved field is zero. -/
  clean : Bool

/-- The 512 bits of the sixteen registers from s_k. -/
def blockBits (s : State) (g k : Nat) : Nat :=
  (List.range 16).foldl (fun x i => x + ((s.gang g).seenSreg (s.clkOfGang g) (k + i)).toNat * 2 ^ (32 * i)) 0

def Params.ofBits (x : Nat) : Params :=
  let fld (lo n : Nat) : Nat := x / 2 ^ lo % 2 ^ n
  { ktiles := fld 0 9, ncode := fld 9 2, aScratch := x.testBit 11, bScratch := x.testBit 12, rounding := fld 13 3, format := fld 16 4,
    aReg := fld 32 8, bReg := fld 40 8, acc := fld 48 8, aSlot := fld 64 6, bSlot := fld 70 6, aRec := fld 128 64, bRec := fld 192 64,
    clean := fld 20 12 == 0 && fld 56 8 == 0 && fld 76 52 == 0 && fld 256 256 == 0 }

/-- N of a parameter block. -/
def Params.n (p : Params) : Nat := 32 * 2 ^ p.ncode

/-- The fields of a scratchpad operand record (table Scratchpad Operand Record). -/
structure SpRec where
  base : Nat
  rowpitch : Nat
  tilepitch : Nat
  rotation : Nat
  format : Nat
  slot : Nat
  reserved : Nat

def SpRec.ofBits (x : Nat) : SpRec :=
  let fld (lo n : Nat) : Nat := x / 2 ^ lo % 2 ^ n
  { base := fld 0 20, rowpitch := fld 20 12, tilepitch := fld 32 16, rotation := fld 48 3, format := fld 51 4, slot := fld 55 6,
    reserved := fld 61 3 }

/-- The format of an operand: its record's from scratchpad, the block's from registers (R341). -/
def Params.aFmt (p : Params) : Nat := if p.aScratch then (SpRec.ofBits p.aRec).format else p.format
def Params.bFmt (p : Params) : Nat := if p.bScratch then (SpRec.ofBits p.bRec).format else p.format

/-- Bits of an element of a format: BF16, F8E4, F8E5, C4. -/
def fmtBits (fmt : Nat) : Nat :=
  match fmt with
  | 0 => 16
  | 3 => 4
  | _ => 8

/-- Kept elements of a row of K under a pattern (table Sparsity Patterns). -/
def keptOf (pattern k : Nat) : Nat :=
  match pattern with
  | 0 => k
  | 2 => k / 4
  | _ => k / 2

/-- Metadata bytes of a row under a pattern (table Sparsity Patterns). -/
def metaBytes (pattern k : Nat) : Nat :=
  match pattern with
  | 0 => 0
  | 1 => k / 8
  | 2 => k / 16
  | _ => 3 * k / 16

/-- Registers of the A and B runs (R341). -/
def Params.aRegs (p : Params) (pattern : Nat) : Nat := (keptOf pattern (32 * p.ktiles) * fmtBits p.format + 31) / 32
def Params.bRegs (p : Params) : Nat := 32 * p.ktiles * fmtBits p.format / 32

/-- rot(r) of R326. -/
def rotOf (code r : Nat) : Nat := if code = 0 then 0 else (r % 32) * 2 ^ (code + 1) % 128

/-- The offset o of R326, in nibbles, before the rotation. -/
def opndNibble (r : SpRec) (bits row k : Nat) : Nat :=
  2 * (r.base + row * 4 * r.rowpitch + k / 32 * 32 * r.tilepitch) + k % 32 * (bits / 4)

/-- The nibble offset of an element in the run (R326). -/
def elemNibble (r : SpRec) (bits row k : Nat) : Nat :=
  let o := opndNibble r bits row k
  256 * (o / 256) + (o % 256 + 2 * rotOf r.rotation row) % 256

/-- The end in bytes of the greatest offset over every row and every element (R342 test 3). The rotation stays within a line, so
an operand is tested by the offset of each element as the engine reads it. -/
def operandEnd (r : SpRec) (bits rows elems : Nat) : Nat :=
  (List.range rows).foldl (fun m row => (List.range elems).foldl (fun m k => max m ((elemNibble r bits row k * 4 + bits + 7) / 8)) m) 0

/-! The tests of R342. -/

/-- A cluster-resident unit may use N = 128 and all 32 entries (R324). -/
def residentUnit (s : State) (t : Nat) : Bool := (s.unit (unitOfThread t)).resident

/-- Entries that the thread's unit holds. -/
def unitEntries (s : State) (t : Nat) : Nat :=
  ((s.cluster (s.clusterOf t)).mma.filter (fun e => e.2.unit == unitOfThread t)).length

/-- Test 1 (R342). -/
def shapeBad (s : State) (t : Nat) (p : Params) : Bool :=
  !p.clean || p.ktiles = 0 || 256 < p.ktiles || p.ncode = 3 || 4 ≤ p.format || 4 < p.rounding || (!p.bScratch && p.n != 32) ||
    (!residentUnit s t && (64 < p.n || 8 ≤ unitEntries s t)) || p.aFmt != p.bFmt || (!p.aScratch && p.aRec != 0) ||
    (!p.bScratch && p.bRec != 0) || s.coreOf t % 5 == 4

/-- A scratchpad record fails test 2. -/
def spRecBad (x : Nat) : Bool :=
  let r := SpRec.ofBits x
  6 ≤ r.rotation || 4 ≤ r.format || r.reserved != 0 || r.base % 32 != 0

/-- Test 2 (R342). -/
def recordBad (p : Params) (pattern metaBase : Nat) : Bool :=
  (p.aScratch && spRecBad p.aRec) || (p.bScratch && spRecBad p.bRec) || (pattern != 0 && metaBase % 128 != 0)

/-- Test 3 (R342). -/
def rangeBad (s : State) (t : Nat) (p : Params) (pattern metaBase : Nat) : Bool :=
  let run := (s.unit (unitOfThread t)).runBytes
  let k := 32 * p.ktiles
  (p.aScratch && run < operandEnd (SpRec.ofBits p.aRec) (fmtBits p.aFmt) 32 (keptOf pattern k)) ||
    (p.bScratch && run < operandEnd (SpRec.ofBits p.bRec) (fmtBits p.bFmt) p.n k) ||
    (pattern != 0 && run < metaBase + 32 * metaBytes pattern k)

/-- Two register runs overlap. -/
def runsMeet (a n b m : Nat) : Bool := a < b + m && b < a + n

/-- Test 4 (R342): the runs against the register count and each other, and the accumulators of every launched lane. -/
def runsBad (s : State) (t : Nat) (p : Params) (pattern : Nat) : Bool :=
  let regs := (s.unit (unitOfThread t)).regs
  let g := gangOf t
  (!p.aScratch && regs < p.aReg + p.aRegs pattern) || (!p.bScratch && regs < p.bReg + p.bRegs) || regs < p.acc + p.n ||
    (!p.aScratch && runsMeet p.aReg (p.aRegs pattern) p.acc p.n) || (!p.bScratch && runsMeet p.bReg p.bRegs p.acc p.n) ||
    (s.threadsOfGang g).any (fun u => (List.range p.n).any (fun j =>
      !(s.thread u).seenFull (s.clkOf t) (p.acc + j) || s.lent u (p.acc + j)))

/-- The lowest free entry of a cluster's reservation table (R324). -/
def freeEntry (s : State) (cluster : Nat) : Option Nat :=
  (List.range 32).find? (fun i => (tabGet (s.cluster cluster).mma i).isNone)

/-- A CBLOAD of a slot that the operation reads has not completed (R175). -/
def slotAwaited (s : State) (t slot : Nat) : Option Nat :=
  (s.accesses.find? (fun e => e.2.kind == .codebook && e.2.aux == slot && launchNo s e.2.thread == launchNo s t &&
    (s.unitCores (unitOfThread e.2.thread)).contains (s.coreOf t))).map (fun e => e.2.group)

/-- The codebook slots of an operation's C4 operands (R329). -/
def Params.aBook (p : Params) : Nat := if p.aScratch then (SpRec.ofBits p.aRec).slot else p.aSlot
def Params.bBook (p : Params) : Nat := if p.bScratch then (SpRec.ofBits p.bRec).slot else p.bSlot

/-- MMAS with pattern 0 is as MMA: its metadata record is not read (R345). -/
def asMma (op : Nat) (f : Fields) : Nat := if op = 0x303 && f.bits 0 3 = 0 then 0x302 else op

/-- The parameter block of a thread's instruction, its pattern and its metadata base, of which one that has waited for an entry has read the
first and the last before (R341, R342). -/
def paramsOf (s : State) (f : Fields) (t : Nat) : Params :=
  Params.ofBits (match (s.thread t).mmaBlock with
    | some b => b.toNat
    | none => blockBits s (gangOf t) (uniIx f.a))
def patternOf (op : Nat) (f : Fields) : Nat := if op = 0x303 then f.bits 0 3 else 0
def metaOf (s : State) (op : Nat) (f : Fields) (t : Nat) : Nat :=
  if patternOf op f = 0 then 0
  else if (s.thread t).mmaBlock.isSome then (s.thread t).mmaMeta
  else (SpRec.ofBits (read64 s t f.b).toNat).base

/-- A ticket: the entry in bits [4:0], the operation number above (R343). -/
def ticketOf (entry opno : Nat) : Word := BitVec.ofNat 32 (entry + opno % 2 ^ 27 * 32)

/-- The label of what an operation reads first: its operands, and the parameter block's registers (R273). -/
def blockLabel (s : State) (op : Nat) (f : Fields) (t : Nat) : Label :=
  let g := s.gang (gangOf t)
  (List.range 16).foldl (fun l i => l ||| g.seenSregLabel (s.clkOf t) (uniIx f.a + i)) (labelOf s (asMma op f) f t)

/-- The label of an operation at issue: what it has read first, which for one that has waited for an entry was before the wait, its operands
now, and the accumulators' tiles; its codebooks bring their own (R273). -/
def mmaLabel (s : State) (op : Nat) (f : Fields) (t : Nat) (p : Params) : Label :=
  let g := s.gang (gangOf t)
  let blk := if (s.thread t).mmaBlock.isSome then (s.thread t).mmaLabel ||| g.ctl ||| g.predLabel f.gp.toNat else blockLabel s op f t
  (List.range p.n).foldl (fun l j => l ||| g.tileLabel (p.acc + j)) blk

/-- The label of an operation with its codebooks (R273, R329). -/
def MmaOp.full (o : MmaOp) : Label := o.label ||| o.aBook.label ||| o.bBook.label

/-- MMA or MMAS for one thread: the tests, of which one that has waited for an entry has passed the first three, then the ticket (R342).
The operation is started once for the gang. -/
def mmaEff (op : Nat) (f : Fields) (s : State) (t : Nat) : Res :=
  let p := paramsOf s f t
  let pattern := patternOf op f
  let mb := metaOf s op f t
  let cl := s.clusterOf t
  let fresh := (s.thread t).mmaBlock.isNone
  if fresh && shapeBad s t p then .trap 18 1 false
  else if fresh && recordBad p pattern mb then .trap 19 2 false
  else if fresh && rangeBad s t p pattern mb then .trap 15 0 false
  else if runsBad s t p pattern then .trap 19 4 false
  else
    match (if p.aFmt = 3 then (slotAwaited s t p.aBook).orElse (fun _ => slotAwaited s t p.bBook) else none) with
    | some g => .block (.behind g)
    | none =>
      match freeEntry s cl with
      | none => .block .entry
      | some e => .go { writes := wr32 f.d (ticketOf e (s.cluster cl).opCount) (labelOf s (asMma op f) f t) }

/-- The bits of an FP32 accumulator by lane and column. -/
def readAccs (s : State) (g acc n : Nat) : List (List Word) :=
  (List.range 32).map (fun l => (List.range n).map (fun j => (s.thread (threadAt g l)).reg (acc + j)))

/-- An operation starts: its entry, its accumulators empty in every lane, its codebooks and its mode read (R327, R329, R342). -/
def startMma (op : Nat) (f : Fields) (s0 s : State) (t : Nat) : State :=
  let p := paramsOf s0 f t
  let pattern := patternOf op f
  let cl := s0.clusterOf t
  let g := gangOf t
  let code := if p.rounding = 0 then (match rm s0 t f with
    | .rne => 1
    | .rz => 2
    | .rup => 3
    | .rdn => 4) else p.rounding
  let accs := readAccs s0 g p.acc p.n
  let c4 := p.aFmt == 3
  let book (slot : Nat) : Codebook := if c4 then threadBook s0 t slot else { entries := [], label := 0 }
  let e : MmaOp :=
    { unit := unitOfThread t, gang := g, thread := t, opno := (s0.cluster cl).opCount, pc := s0.pc, op := op, ktiles := p.ktiles, n := p.n,
      aScratch := p.aScratch, bScratch := p.bScratch, fmt := p.aFmt, aReg := p.aReg, aRegs := if p.aScratch then 0 else p.aRegs pattern,
      bReg := p.bReg, bRegs := if p.bScratch then 0 else p.bRegs, acc := p.acc, aRec := BitVec.ofNat 64 p.aRec,
      bRec := BitVec.ofNat 64 p.bRec, metaBase := metaOf s0 op f t, pattern := pattern, mode := code - 1, cls := (s0.thread t).cls,
      seq := s0.issue.serial, label := mmaLabel s0 op f t p, aBook := book p.aBook, bBook := book p.bBook, start := accs, accs := accs,
      due := s0.clkOf t + 5, aSlot := if c4 then some p.aBook else none, bSlot := if c4 then some p.bBook else none }
  match freeEntry s0 cl with
  | none => s
  | some i =>
    let s := s.modCluster cl (fun c => { c with mma := tabPut c.mma i e, opCount := (c.opCount + 1) % 2 ^ 27 })
    (s.threadsOfGang g).foldl (fun s u => s.modThread u (fun x =>
      (List.range p.n).foldl (fun x j => x.markEmpty (p.acc + j)) x)) s

/-- A thread that waits for an entry keeps the parameter block and the metadata base that it has read, and their label (R273, R341, R342). -/
def keepBlock (op : Nat) (f : Fields) (s : State) (t : Nat) : State :=
  if (s.thread t).sched == .blocked .entry && (s.thread t).mmaBlock.isNone then
    s.modThread t (fun x => { x with mmaBlock := some (BitVec.ofNat 512 (blockBits s (gangOf t) (uniIx f.a))), mmaMeta := metaOf s op f t,
                                     mmaLabel := blockLabel s op f t })
  else s

/-- MMA or MMAS for the threads of one gang: performed once, by the first that executes (R342). -/
def runMma (op : Nat) (f : Fields) (s : State) : State :=
  let s' := runGroup (asMma op f) f [] [] (mmaEff op f) s
  match goers (judge s (asMma op f) f [] [] (mmaEff op f)) with
  | [] => s.group.foldl (keepBlock op f) s'
  | t :: _ => startMma op f s s' t

def execMma (f : Fields) (s : State) : Host.Outcome State Fault Refusal := .next (runPerGang (runMma 0x302 f) s)
def execMmas (f : Fields) (s : State) : Host.Outcome State Fault Refusal := .next (runPerGang (runMma 0x303 f) s)

/-! Chunks (R184, R324, R326, R328). -/

/-- An element's value from its bits under a format. -/
def elemVal (fmt : Nat) (book : List (BitVec 16)) (x : Nat) : FVal :=
  match fmt with
  | 0 => fmtBF16.decode x
  | 1 => fmtF8E4.decode x
  | 2 => fmtF8E5.decode x
  | _ => fmtBF16.decode (book.getD x 0).toNat

/-- Element e of a packed register run of a lane (R173, R326). -/
def regElem (s : State) (t base bits e : Nat) : Nat :=
  ((s.thread t).reg (base + e * bits / 32)).toNat / 2 ^ (e * bits % 32) % 2 ^ bits

/-- Element e of a row of a scratchpad operand. -/
def spElem (u : Unit) (r : SpRec) (bits row e : Nat) : Nat :=
  let o := elemNibble r bits row e
  leNat (Memory.read u.run (o / 2) ((bits + 7) / 8)) / 2 ^ (o % 2 * 4) % 2 ^ bits

/-- The stored bits of element e of row i of A, and of element k of column j of B. -/
def MmaOp.aBits (o : MmaOp) (s : State) (i e : Nat) : Nat :=
  if o.aScratch then spElem (s.unit o.unit) (SpRec.ofBits o.aRec.toNat) (fmtBits o.fmt) i e
  else regElem s (threadAt o.gang i) o.aReg (fmtBits o.fmt) e
def MmaOp.bBits (o : MmaOp) (s : State) (j k : Nat) : Nat :=
  if o.bScratch then spElem (s.unit o.unit) (SpRec.ofBits o.bRec.toNat) (fmtBits o.fmt) j k
  else regElem s (threadAt o.gang j) o.bReg (fmtBits o.fmt) k

/-- Group size, kept elements and index bits of a pattern (table Sparsity Patterns). -/
def groupOf (pattern : Nat) : Nat × Nat × Nat :=
  match pattern with
  | 1 => (4, 2, 2)
  | 2 => (4, 1, 2)
  | 3 => (8, 4, 3)
  | _ => (1, 1, 0)

/-- The indices of group q of row i, the lower K first (R328). -/
def MmaOp.indices (o : MmaOp) (s : State) (i q : Nat) : List Nat :=
  let (_, kept, bits) := groupOf o.pattern
  let b := metaBytes o.pattern (32 * o.ktiles)
  let row := leNat (Memory.read (s.unit o.unit).run (o.metaBase + i * b) b)
  (List.range kept).map (fun h => row / 2 ^ ((q * kept + h) * bits) % 2 ^ bits)

/-- Strictly ascending indices. -/
def ascending : List Nat → Bool
  | x :: y :: rest => x < y && ascending (y :: rest)
  | _ => true

/-- The kept elements of a row in a chunk: element number and k (R184, R328). -/
def MmaOp.kept (o : MmaOp) (s : State) (i c : Nat) : List (Nat × Nat) :=
  if o.pattern = 0 then (List.range 32).map (fun k => (32 * c + k, 32 * c + k))
  else
    let (size, kept, _) := groupOf o.pattern
    (List.range (32 / size)).flatMap (fun q0 =>
      let q := 32 / size * c + q0
      ((List.range kept).zip (o.indices s i q)).map (fun x => (q * kept + x.1, q * size + x.2)))

/-- Groups of a chunk whose indices are not strictly ascending (R328). -/
def MmaOp.chunkFault (o : MmaOp) (s : State) (c : Nat) : Bool :=
  let (size, _, _) := groupOf o.pattern
  o.pattern != 0 && (List.range 32).any (fun i => (List.range (32 / size)).any (fun q => !ascending (o.indices s i (32 / size * c + q))))

/-- The lines that a chunk reads (R326, R328). -/
def MmaOp.chunkLines (o : MmaOp) (c : Nat) : List Nat :=
  let bits := fmtBits o.fmt
  let perChunk := keptOf o.pattern 32
  let a := if o.aScratch then (List.range 32).flatMap (fun i => (List.range perChunk).map (fun e =>
    elemNibble (SpRec.ofBits o.aRec.toNat) bits i (perChunk * c + e) / 256)) else []
  let b := if o.bScratch then (List.range o.n).flatMap (fun j => (List.range 32).map (fun k =>
    elemNibble (SpRec.ofBits o.bRec.toNat) bits j (32 * c + k) / 256)) else []
  let mb := metaBytes o.pattern (32 * o.ktiles)
  let m := if o.pattern = 0 then [] else linesOf o.metaBase (32 * mb)
  distinct (a ++ b ++ m)

/-- A CBLOAD of one of the operation's slots that issued in the operation's clk has not completed (R175). -/
def MmaOp.bookAwaited (o : MmaOp) (s : State) : Bool :=
  s.accesses.any (fun e => e.2.kind == .codebook && e.2.due == o.due && (o.aSlot == some e.2.aux || o.bSlot == some e.2.aux) &&
    launchNo s e.2.thread == launchNo s o.thread && (s.unitCores (unitOfThread e.2.thread)).contains (s.coreOf o.thread))

/-- A chunk's lines are all full, and its domain is not gated: the entry is ready (R326, R436). -/
def MmaOp.ready (o : MmaOp) (s : State) : Bool :=
  !s.gatedCore (s.coreOfGang o.gang) && o.due ≤ s.time && o.chunk < o.ktiles && !o.bookAwaited s && (o.chunkLines o.chunk).all (fun k => (s.unit o.unit).lineFull k)

/-- The labels of what a chunk reads: register tiles or lines, and metadata lines (R273). -/
def MmaOp.chunkLabel (o : MmaOp) (s : State) : Label :=
  let g := s.gang o.gang
  let a := (List.range o.aRegs).foldl (fun l i => l ||| g.tileLabel (o.aReg + i)) o.label
  let b := (List.range o.bRegs).foldl (fun l i => l ||| g.tileLabel (o.bReg + i)) a
  (o.chunkLines o.chunk).foldl (fun l k => l ||| (s.unit o.unit).labelOf k) b

/-- One element after a chunk, with the events of its chunk rounding and its addition (R184, R188). -/
def MmaOp.element (o : MmaOp) (s : State) (c i j : Nat) (acc : Word) : Word × List Nat :=
  let md := Round.ofCode o.mode
  let xs := (o.kept s i c).map (fun e => (elemVal o.fmt o.aBook.entries (o.aBits s i e.1), elemVal o.fmt o.bBook.entries (o.bBits s j e.2)))
  let ch := chunkSum md (xs.map (fun x => fprod x.1 x.2))
  let a := fmtF32.decode acc.toNat
  let r := fmtF32.add md a (fmtF32.decode ch.bits)
  (BitVec.ofNat 32 r.bits, fmtF32.events (xs.flatMap (fun x => [x.1, x.2])) ch ++ fmtF32.events [a, fmtF32.decode ch.bits] r)

/-- A chunk performed: every element, or the engine fault, which gives the accumulators back (R184, R328). -/
def MmaOp.runChunk (o : MmaOp) (s : State) : MmaOp × List Nat :=
  if o.chunkFault s o.chunk then ({ o with fault := true, accs := o.start, chunk := o.ktiles, label := o.chunkLabel s }, [])
  else
    let rows := (List.range 32).map (fun i => (List.range o.n).map (fun j => o.element s o.chunk i j ((o.accs.getD i []).getD j 0)))
    ({ o with accs := rows.map (fun r => r.map Prod.fst), chunk := o.chunk + 1, label := o.chunkLabel s },
      rows.flatMap (fun r => r.flatMap Prod.snd))

/-- The arbiter's choice: the ready entry of highest class, the oldest on a tie (R324). -/
def arbiter (s : State) (cluster : Nat) : Option (Nat × MmaOp) :=
  ((s.cluster cluster).mma.filter (fun e => e.2.ready s)).foldl (fun acc e => match acc with
    | none => some e
    | some x => if x.2.cls < e.2.cls || (x.2.cls == e.2.cls && e.2.seq < x.2.seq) then some e else some x) none

def execMmaChunkGrant (cluster : Nat) (s : State) : Host.Outcome State Fault Refusal :=
  match arbiter s cluster with
  | none => .next s
  | some (i, o) =>
    let r := o.runChunk s
    .next ((s.modCluster cluster (fun c => { c with mma := tabPut c.mma i r.1 })).countEvents (s.unit o.unit).launch r.2)

/-- An operation whose last chunk has ended, in a core whose record queue has room where it faulted (R327, R328, R400). -/
def mmaEnds (s : State) (o : MmaOp) : Bool :=
  o.ktiles ≤ o.chunk && (!o.fault || !s.sfqFull (s.coreOfGang o.gang))

/-- Accumulators written back for one lane, and full; the values are discarded for one that has exited (R136, R327). -/
def writeAccs (o : MmaOp) (s : State) (t : Nat) : State :=
  let row := o.accs.getD (laneOf t) []
  let keep := (s.thread t).sched != .exited
  s.modThread t (fun x => (List.range o.n).foldl (fun x j =>
    (if keep then (x.keepReg (s.clkOf t) (o.acc + j)).setReg (o.acc + j) (row.getD j 0) else x).markFull (o.acc + j)) x)

/-- An operation completes: the accumulators are full in every launched lane under the operation label; an engine fault makes its
record and sends its thread to the handler (R273, R327, R328, R398). -/
def completeMma (s : State) (cluster i : Nat) (o : MmaOp) : State :=
  let s := s.modCluster cluster (fun c => { c with mma := tabDel c.mma i })
  if (s.gang o.gang).ended || !(s.unit o.unit).live then s
  else
    let s := (s.threadsOfGang o.gang).foldl (writeAccs o) s
    let s := s.modGang o.gang (fun g => (List.range o.n).foldl (fun g j => g.setTile (o.acc + j) o.full) g)
    let s := s.modThread o.thread (fun x => { x with energy := x.energy + Config.freeMmaEnergy s.fresh })
    let s := s.setFresh (s.fresh + 1)
    if o.fault then
      let r : Record :=
        { gang := o.gang, kind := 9, lane := laneOf o.thread, bytes := 4, type := 0, reason := 1, addr := 0, label := o.full, pc := o.pc,
          op := o.op, data := (ticketOf i o.opno).toNat, thread := o.thread }
      (s.pushRecord r).modThread o.thread (fun x => { x with forced := x.forced || !x.inTrap })
    else s

/-- The first operation that ends, with its cluster and its entry. -/
def nextMmaEnd (s : State) : Option (Nat × Nat × MmaOp) :=
  s.clusters.findSome? (fun c => (firstWith c.2.mma (fun _ o => mmaEnds s o)).map (fun x => (c.1, x)))

def execMmaComplete (s : State) : Host.Outcome State Fault Refusal :=
  match nextMmaEnd s with
  | some (c, i, o) => .next (completeMma s c i o)
  | none => .next s

/-! MWAIT and MPOLL (R343). -/

/-- An outstanding operation of the thread's unit in its cluster holds the ticket. -/
def outstanding (s : State) (t : Nat) (x : Word) : Bool :=
  (s.cluster (s.clusterOf t)).mma.any (fun e => e.2.unit == unitOfThread t && ticketOf e.1 e.2.opno == x)

def mwaitEff (f : Fields) (s : State) (t : Nat) : Res :=
  let x := read32 s t f.a
  if outstanding s t x then .block (.ticket x) else .go {}

def execMwait (f : Fields) (s : State) : Host.Outcome State Fault Refusal := .next (runGroup 0x304 f [] [] (mwaitEff f) s)

def execMpoll (f : Fields) (s : State) : Host.Outcome State Fault Refusal :=
  .next (runWrites 0x305 f [] (fun s t => wrPred f.d (!outstanding s t (read32 s t f.a)) (labelOf s 0x305 f t)) s)

/-! MREADY (R325, R344). -/

/-- An access that MREADY waits for: one that writes a register, a predicate or a scratchpad line of its thread. -/
def AKind.readies : AKind → Bool
  | .store | .erase | .red | .gthrs | .remapTab | .codebook | .table | .launch | .graph => false
  | _ => true

/-- The m-th MREADY of a gang is complete: every lane that has not exited has executed it, and the register writes and scratchpad stores
that each issued before its own have landed. -/
def mreadyDone (s : State) (g m : Nat) : Bool :=
  (List.range (s.gang g).lanes).all (fun l => !s.laneLive g l || m ≤ tabGetD 0 (s.gang g).mready l) &&
    s.accesses.all (fun e => gangOf e.2.thread != g || !e.2.kind.readies || m ≤ e.2.readies)

/-- The number of MREADYs that a thread has executed. -/
def mreadyCount (s : State) (t : Nat) : Nat := tabGetD 0 (s.gang (gangOf t)).mready (laneOf t)

def mreadyEff (s : State) (t : Nat) : Res := .go { wait := some (.mready (mreadyCount s t + 1)) }

/-- A thread's count raised. -/
def countMready (s : State) (t : Nat) : State :=
  s.modGang (gangOf t) (fun g => { g with mready := tabPut g.mready (laneOf t) (tabGetD 0 g.mready (laneOf t) + 1) })

def execMready (f : Fields) (s : State) : Host.Outcome State Fault Refusal :=
  let ts := goers (judge s 0x301 f [] [] mreadyEff)
  .next (ts.foldl countMready (runGroup 0x301 f [] [] mreadyEff s))

/-! The event queue (R321, R346, R347). -/

/-- The cluster's queue has room. -/
def eventRoom (s : State) (t : Nat) : Bool := (s.cluster (s.clusterOf t)).events.length < 256

def evpostEff (s : State) (t : Nat) : Res := if eventRoom s t then .go {} else .block .queue

/-- The record that EVPOST writes (R347). -/
def postedRecord (s : State) (f : Fields) (t : Nat) : EventRec :=
  let core := s.coreOf t
  { kind := 3, status := 0, core := core % 5, context := contextOf s core (launchNo s t), tag := read32 s t f.a,
    unit := (s.unit (unitOfThread t)).unitid, bytes := 0, label := labelOf s 0x346 f t }

/-- EVPOST for the threads of one gang. -/
def runEvpost (f : Fields) (s : State) : State :=
  let s' := runGroup 0x346 f [] [] evpostEff s
  match goers (judge s 0x346 f [] [] evpostEff) with
  | [] => s'
  | t :: _ => s'.modCluster (s.clusterOf t) (fun c => { c with events := c.events ++ [postedRecord s f t] })

def execEvpost (f : Fields) (s : State) : Host.Outcome State Fault Refusal := .next (runPerGang (runEvpost f) s)

/-- The 16 bytes of an event record (table Event Record), as four words. -/
def EventRec.words (e : EventRec) : List Word :=
  [BitVec.ofNat 32 (e.kind % 256 + e.status % 256 * 2 ^ 8 + e.core % 256 * 2 ^ 16 + e.context % 256 * 2 ^ 24), e.tag,
   BitVec.ofNat 32 e.unit, BitVec.ofNat 32 e.bytes]

/-- The first register of a four-register destination. -/
def firstReg (o : Opnd) : Nat :=
  match o with
  | .v n => n.toNat
  | _ => 255

/-- The writes of a popped record. -/
def popWrites (f : Fields) (e : EventRec) (l : Label) : List Wr :=
  ((List.range 4).zip e.words).map (fun x => .reg (firstReg f.d + x.1) x.2 l)

/-- EVWAIT or EVPOLL for one thread (R347). -/
def evpopEff (op : Nat) (poll : Bool) (f : Fields) (s : State) (t : Nat) : Res :=
  let l := labelOf s op f t
  if s.coreOf t % 5 != 4 then .trap 20 0 false
  else
    match (s.cluster (s.clusterOf t)).events with
    | e :: _ =>
      let l := l ||| e.label
      .go { writes := popWrites f e l ++ (if poll then [.pred (f.bits 0 3) true l] else []) }
    | [] => if poll then .go { writes := [.pred (f.bits 0 3) false l] } else .block .event

/-- The oldest record leaves the queue. -/
def popEvent (s : State) (t : Nat) : State := s.modCluster (s.clusterOf t) (fun c => { c with events := c.events.drop 1 })

/-- EVWAIT or EVPOLL issued. -/
def runEvpop (op : Nat) (poll : Bool) (f : Fields) (s : State) : State :=
  let ps := if poll then modPred (f.bits 0 3) else []
  (goers (judge s op f ps [] (evpopEff op poll f))).foldl popEvent (runGroup op f ps [] (evpopEff op poll f) s)

def execEvwait (f : Fields) (s : State) : Host.Outcome State Fault Refusal := .next (runEvpop 0x347 false f s)
def execEvpoll (f : Fields) (s : State) : Host.Outcome State Fault Refusal := .next (runEvpop 0x348 true f s)

end Sys2Proof.Machine
end

