-- ==== Sys2Proof/Machine/Variant.lean ====
section
/-! DEFINITION. Variant calls and budgets: the selection, the table read of a CALLV, tag write-back at RETV, and the budget
instructions (R212 to R229). -/

namespace Sys2Proof.Machine

/-- The fields of a variant table entry (R23). -/
structure VEntry where
  code : Nat
  time : Nat
  passCode : Nat
  energy : Nat
  quality : Nat
  exact : Bool
  fallback : Bool
  samples : Nat
  deriving DecidableEq, Repr

/-- An entry from its 32 bytes (table Variant Table Entry). -/
def VEntry.ofBytes (bs : List Byte) : VEntry :=
  let n := leNat bs
  { code := n % 2 ^ 48, time := n / 2 ^ 64 % 2 ^ 32, passCode := n / 2 ^ 96 % 4, energy := n / 2 ^ 128 % 2 ^ 32,
    quality := n / 2 ^ 160 % 2 ^ 16, exact := n / 2 ^ 176 % 2 == 1, fallback := n / 2 ^ 177 % 2 == 1,
    samples := n / 2 ^ 192 % 2 ^ 16 }

/-- The quotient rounded up. -/
def ceilDiv (a b : Nat) : Nat := (a + b - 1) / b

/-- An entry is provisional at a pass count (R215). -/
def VEntry.provisional (e : VEntry) (pnow : Nat) : Bool := e.samples < 4 || passOf e.passCode != pnow

/-- The effective time and energy (R215). -/
def VEntry.effTime (e : VEntry) (pnow : Nat) : Nat :=
  if e.provisional pnow then ceilDiv (e.time * pnow * 5) (passOf e.passCode * 4) else e.time
def VEntry.effEnergy (e : VEntry) (pnow : Nat) : Nat := if e.provisional pnow then ceilDiv (e.energy * 5) 4 else e.energy

/-- What a selection is made under (R216). -/
structure Choice where
  /-- 0 .MINT, 1 .MINE, 2 .MAXQ. -/
  objective : Nat
  tlim : Word
  elim : Word
  bq : Word
  exact : Bool
  pnow : Nat

/-- An unlimited budget (R212). -/
def unlimited : Word := 0xFFFFFFFF#32

/-- The tests of R216 for an entry; recorded pass count 3 never qualifies (R215). -/
def qualifies (c : Choice) (e : VEntry) : Bool :=
  let okT := c.tlim == unlimited || e.effTime c.pnow ≤ c.tlim.toNat
  let okE := c.elim == unlimited || e.effEnergy c.pnow ≤ c.elim.toNat
  let okQ := c.bq.toNat ≤ e.quality
  e.passCode != 3 && (!c.exact || e.exact) &&
    (match c.objective with
      | 0 => okE && okQ
      | 1 => okT && okQ
      | _ => okT && okE)

/-- The first entry is strictly better in the objective. -/
def better (c : Choice) (x y : VEntry) : Bool :=
  match c.objective with
  | 0 => x.effTime c.pnow < y.effTime c.pnow
  | 1 => x.effEnergy c.pnow < y.effEnergy c.pnow
  | _ => y.quality < x.quality

/-- The best qualifying entry, the lowest index on a tie (R216). -/
def bestEntry (c : Choice) : List (Nat × VEntry) → Option (Nat × VEntry) → Option (Nat × VEntry)
  | [], acc => acc
  | x :: rest, acc =>
    bestEntry c rest (if qualifies c x.2 then (match acc with
      | none => some x
      | some y => if better c x.2 y.2 then some x else acc) else acc)

/-- The selection: the entry and whether it is the fallback (R216, R217). -/
def selectEntry (c : Choice) (es : List VEntry) : Option (Nat × VEntry × Bool) :=
  let l := (List.range es.length).zip es
  match bestEntry c l none with
  | some x => some (x.1, x.2, false)
  | none => (l.find? (fun x => x.2.fallback && x.2.passCode != 3 && (!c.exact || x.2.exact))).map (fun x => (x.1, x.2, true))

/-- What a read of a variant table comes to: held on an absent page, a reason of the variant-table trap, or its entries with the
label of the table's pages and the completion time of what was read (R222, R225). -/
inductive TableRead where
  | held (va : Nat) (hostResident : Bool) (level : Nat)
  | bad (reason : Nat)
  | ok (es : List VEntry) (l : Label) (g : Nat)

/-- The entries that follow a header already read (R225). -/
def readEntries (s : State) (core part tbl n : Nat) (via : Via) (hs : List Piece) (g : Nat) : TableRead × State :=
  match reach s core part (tbl + 32) (32 * n) via { r := true } with
  | .held va hr level => (.held va hr level, s)
  | .refused _ _ => (.bad 3, s)
  | .ok ps =>
    match rawPieces s part ps with
    | (none, s') => (.bad 3, s')
    | (some (bs, g'), s') =>
      (.ok ((List.range n).map (fun i => VEntry.ofBytes ((bs.drop (32 * i)).take 32))) (pagesLabel (hs ++ ps)) (max g g'), s')

/-- The header and the entries read at device scope (R222, R225). -/
def readTable (s : State) (core part tbl : Nat) (via : Via) : TableRead × State :=
  match reach s core part tbl 32 via { r := true } with
  | .held va h level => (.held va h level, s)
  | .refused _ _ => (.bad 3, s)
  | .ok hs =>
    match rawPieces s part hs with
    | (none, s') => (.bad 3, s')
    | (some (bs, g), s') =>
      let h := leNat bs
      let n := h % 256
      if n = 0 || 16 < n || h / 2 ^ 9 % 2 ^ 23 != 0 || h / 2 ^ 64 != 0 then (.bad 2, s')
      else readEntries s' core part tbl n via hs g

/-- The exact bit of a thread's mode (R180). -/
def exactMode (s : State) (t : Nat) : Bool := (s.thread t).mode.getLsbD 2

/-- CALLV at issue: the address and depth tests, then the table read leaves and the thread blocks until it is read (R225). The
access keeps the time and the pass count of the issue. -/
def callvEff (f : Fields) (s : State) (t : Nat) : Res :=
  let tbl := (read64 s t f.a).toNat
  if tbl % 64 != 0 || 2 ^ 48 ≤ tbl then .trap 10 1 false
  else if (s.thread t).frames.length = 8 then .trap 11 1 false
  else
    let a : Access :=
      { kind := .table, thread := t, group := 0, pc := s.pc, op := 0x1C0, f := f, addr := tbl, width := 544,
        label := labelOf s 0x1C0 f t, aux := s.time, mode := s.passCodeOf (s.coreOf t), inTrap := (s.thread t).inTrap }
    .go { accesses := [a], next := some s.pc, wait := some (.landing s.issue.serial) }

def execCallv (f : Fields) (s : State) : Host.Outcome State Fault Refusal :=
  .next (runGroup 0x1C0 f (modPred (f.bits 2 3)) [] (callvEff f) s)

/-- The limits of a thread's selection: a share where it is set (R216). -/
def choiceOf (s : State) (a : Access) : Choice :=
  let x := s.thread a.thread
  { objective := a.f.bits 0 2, tlim := x.shareT.getD x.bt, elim := x.shareE.getD x.be, bq := x.bq, exact := exactMode s a.thread,
    pnow := passOf a.mode }

/-- The selected entry entered: the status predicate, the frame, the limits, the control label, the entry's address, and the
trap-check point (R223, R225, R401). -/
def enterVariant (s : State) (a : Access) (l : Label) (i : Nat) (e : VEntry) (fallback : Bool) : State :=
  let t := a.thread
  let x := s.thread t
  let c := choiceOf s a
  let fr : Frame :=
    { ret := nextPc a.pc, entry := a.addr + 32 + 32 * i, index := i, issued := a.aux, energy := x.energy, bt := x.bt, be := x.be, bq := x.bq,
      disturbed := a.wasSaved || a.disturbed }
  let s := applyWr true true t s (.pred (a.f.bits 2 3) fallback l)
  let b : Budget := { bt := c.tlim, be := c.elim, bq := x.bq, shareT := none, shareE := none, frames := fr :: x.frames }
  let s := (s.modThread t (fun x => { x.setBudget b with pc := BitVec.ofNat 48 e.code })).modGang (gangOf t) (fun g => g.widen l)
  let s := s.unblock t
  if s.mustDeliver t then deliver s t (BitVec.ofNat 48 e.code) l else s

/-- The first n bytes of a table have been read at device scope: the copies that the core's L1 holds of their lines go (R222, R356). -/
def State.tableRead (s : State) (a : Access) (pick : Pick) (n : Nat) : State :=
  let core := s.coreOf a.thread
  match reach s core (s.partOf a.thread) a.addr n (a.via pick) { r := true } with
  | .ok ps => (ps.foldl (fun s p => s.dropL1 core (s.partOf a.thread) p) s).allAtL2 (s.partOf a.thread) ps
  | _ => s

/-- The table read of a CALLV completes for its thread (R222, R225). -/
def landTable (s : State) (id : Nat) (a : Access) (pick : Pick) : State :=
  let t := a.thread
  let core := s.coreOf t
  match readTable s core (s.partOf t) a.addr (a.via pick) with
  | (.held va h level, s) => holdAccess s id a va h level
  | (.bad k, s) => takeTrap ((s.tableRead a pick 32).dropAccess id) t 10 a.pc (BitVec.ofNat 32 k) a.label
  | (.ok es l g, s) =>
    let s := ((s.tableRead a pick (32 + 32 * es.length)).dropAccess id).sawG t g
    match selectEntry (choiceOf s a) es with
    | none => takeTrap s t 9 a.pc (BitVec.ofNat 32 es.length) (a.label ||| l)
    | some (i, e, fb) => enterVariant s a (a.label ||| l) i e fb

def execVariantTableRead (id : Nat) (pick : Pick) (s : State) : Host.Outcome State Fault Refusal :=
  match tabGet s.accesses id with
  | some a => if a.kind == .table && enabled s id a then .next (landTable s id a pick) else .next s
  | none => .next s

/-! RETV (R218 to R223, R226). -/

/-- A budget charged: an unlimited one stays, another falls to zero at the least (R223). -/
def charge (b : Word) (x : Nat) : Word := if b = unlimited then b else BitVec.ofNat 32 (b.toNat - x)

/-- The clk of a chiplet that a time lies in, counted from its first. -/
def State.clkNo (s : State) (slice time : Nat) : Int := ((time : Int) - (s.slice slice).clkBase) / 5

/-- The metered time in clk, the difference of two readings of the clk counter, and energy in whole units since a mark (R218, R219). -/
def meterTime (s : State) (t since : Nat) : Nat := (s.clkNo (s.coreOf t / 40) s.time - s.clkNo (s.coreOf t / 40) since).toNat
def meterEnergy (s : State) (t since : Nat) : Nat := ((s.thread t).energy - since) / 65536

/-- A value saturated at 2^32 − 1 (R221, R227). -/
def sat32 (n : Nat) : Nat := min n (2 ^ 32 - 1)

def retvEff (s : State) (t : Nat) : Res :=
  let x := s.thread t
  match x.frames with
  | [] => .trap 11 2 false
  | fr :: rest =>
    .go { budget := some { bt := charge fr.bt (meterTime s t fr.issued), be := charge fr.be (meterEnergy s t fr.energy), bq := fr.bq,
                           shareT := none, shareE := none, frames := rest }
          next := some fr.ret, check := true }

/-- A tag moved an eighth of the way to its sample, rounding down also for negative differences (R221). -/
def moveTag (tag sample : Nat) : Nat := ((tag : Int) + ((sample : Int) - tag) / 8).toNat

/-- An entry with a sample folded in (R221). -/
def VEntry.sample (e : VEntry) (tm en code : Nat) : VEntry :=
  if e.samples = 0 || code != e.passCode then { e with time := tm, energy := en, passCode := code, samples := 1 }
  else { e with time := moveTag e.time tm, energy := moveTag e.energy en, samples := min (e.samples + 1) 65535 }

/-- Bits [lo + n − 1 : lo] of a number replaced. -/
def putBits (x lo n y : Nat) : Nat := x % 2 ^ lo + y % 2 ^ n * 2 ^ lo + x / 2 ^ (lo + n) * 2 ^ (lo + n)

/-- The fields marked H of an entry's bytes rewritten (R23, R221). -/
def VEntry.into (e : VEntry) (bs : List Byte) : List Byte :=
  leBytes 32 (putBits (putBits (putBits (putBits (leNat bs) 64 32 e.time) 96 2 e.passCode) 128 32 e.energy) 192 16 e.samples)

/-- Tag write-back of one thread: one write of the entry at device scope, whatever the page permits; none where the address is no
longer on a present leaf of class 0 or 2. On another device the write is its request there, which carries the entry that the answer to
its read gives (R221, R222; log 10). -/
def writeTags (s0 s : State) (t : Nat) : State :=
  match (s0.thread t).frames with
  | [] => s
  | fr :: _ =>
    let part := s.partOf t
    if fr.disturbed then s
    else
      match walk s part fr.entry with
      | .leaf l =>
        match homeOf s part fr.entry l with
        | .ok (.phys pa) =>
          let old := s.mem.read pa 32
          let e := (VEntry.ofBytes old).sample (sat32 (meterTime s0 t fr.issued)) (sat32 (meterEnergy s0 t fr.energy))
            (s0.passCodeOf (s0.coreOf t))
          (writePiece s (some (s.coreOf t)) part { va := fr.entry, n := 32, leaf := l, home := .phys pa } (e.into old)).2
        | .ok (.remote _ _) => let r := s.remote; r.2.2.wroteG t r.2.1
        | _ => s
      | _ => s

/-- Threads in ascending lane order (R222). -/
def byLane (ts : List Nat) : List Nat := (List.range 32).flatMap (fun l => ts.filter (fun t => laneOf t == l))

def execRetv (f : Fields) (s : State) : Host.Outcome State Fault Refusal :=
  let ts := goers (judge s 0x1C1 f [] [] retvEff)
  .next ((byLane ts).foldl (writeTags s) (runGroup 0x1C1 f [] [] retvEff s))

/-! The budget instructions (R227). -/

def bsetEff (f : Fields) (s : State) (t : Nat) : Res :=
  let b := (s.thread t).budget
  let x := read32 s t f.a
  .go { budget := some (match f.bits 0 2 with
          | 0 => { b with bt := x }
          | 1 => { b with be := x }
          | _ => { b with bq := BitVec.ofNat 32 (min x.toNat 65535) }) }

def execBset (f : Fields) (s : State) : Host.Outcome State Fault Refusal := .next (runGroup 0x1C2 f [] [] (bsetEff f) s)

/-- The register that BGET reads. -/
def bgetValue (x : Thread) (sel : Nat) : Word :=
  match sel with
  | 0 => x.bt
  | 1 => x.be
  | _ => x.bq

def execBget (f : Fields) (s : State) : Host.Outcome State Fault Refusal :=
  .next (runWrites 0x1C3 f [] (fun s t => wr32 f.d (bgetValue (s.thread t) (f.bits 0 2)) (labelOf s 0x1C3 f t)) s)

/-- The share of a budget (R227). -/
def splitShare (b : Word) (k : Nat) : Word :=
  if b = unlimited && 0 < k then b else BitVec.ofNat 32 (b.toNat * k / 256)

def bsplitEff (f : Fields) (s : State) (t : Nat) : Res :=
  let b := (s.thread t).budget
  let k := min (read32 s t f.a).toNat 256
  let v := splitShare (if f.bit 0 then b.be else b.bt) k
  .go { budget := some (if f.bit 0 then { b with shareE := some v } else { b with shareT := some v })
        writes := wr32 f.d v (labelOf s 0x1C4 f t) }

def execBsplit (f : Fields) (s : State) : Host.Outcome State Fault Refusal := .next (runGroup 0x1C4 f [] [] (bsplitEff f) s)

/-- The value that METER reads (R227). -/
def meterValue (s : State) (t sel : Nat) : Nat :=
  let x := s.thread t
  let mark := match x.frames with
    | fr :: _ => (fr.issued, fr.energy)
    | [] => x.started.getD (s.time, x.energy)
  match sel with
  | 0 => sat32 (meterTime s t mark.1)
  | 1 => sat32 (meterEnergy s t mark.2)
  | _ => match x.frames with
    | fr :: _ => fr.index
    | [] => 2 ^ 32 - 1

def execMeter (f : Fields) (s : State) : Host.Outcome State Fault Refusal :=
  .next (runWrites 0x1C5 f [] (fun s t => wr32 f.d (BitVec.ofNat 32 (meterValue s t (f.bits 0 2))) (labelOf s 0x1C5 f t)) s)

end Sys2Proof.Machine
end

