-- ==== Sys2Proof/Machine/Launch.lean ====
section
/-! DEFINITION. Work at its queue head: the checks of a launch, its argument area and its start, copies and waits, and graphs with
their nodes (R46 to R55, R72, R75, R385, R386, R451). -/

namespace Sys2Proof.Machine

/-! Queue heads (R47, R51, R386). -/

/-- The head of a queue, and whether it stands on the device list: a host entry that has begun, else the device list's first, else
the first host entry. -/
def Queue.head (x : Queue) : Option (Bool × QEntry) :=
  match x.entries, x.device with
  | e :: _, [] => some (false, e)
  | e :: _, d :: _ => if e.begun.isSome then some (false, e) else some (true, d)
  | [], d :: _ => some (true, d)
  | [], [] => none

/-- A level has completed. -/
def levelDone (s : State) (k : Nat) : Bool :=
  match s.levelAt k with
  | some x => x.status.isSome
  | none => true

/-- Every earlier phase of the entry's job has completed (R51). -/
def phasesDone (s : State) (e : QEntry) : Bool :=
  match s.levelAt e.phase with
  | some ph => s.levels.all (fun l => !(l.2.kind == 3 && l.2.parent == ph.parent && l.2.ident < ph.ident && l.2.status.isNone))
  | none => true

/-- The order condition of an entry: the previous entry under flag bit 0, and the phases; entries of a device list have none (R46,
R51, R386). -/
def inOrder (s : State) (dev : Bool) (e : QEntry) : Bool :=
  dev || ((!entryWaits e.bytes || (match e.prev with
    | some k => levelDone s k
    | none => true)) && phasesDone s e)

/-- The job of an entry is saved, or its endpoint is not enabled: nothing more of it starts (R58, R411). -/
def jobHeld (s : State) (ep job : Nat) : Bool :=
  !(s.endpoint ep).enabled || (match jobAt s ep job with
    | some (_, j) => j.saved
    | none => false)

/-- The level of an entry still runs. -/
def entryLive (s : State) (e : QEntry) : Bool :=
  match s.levelAt e.level with
  | some x => x.status.isNone && !x.cancelled && !x.due
  | none => false

/-- The queue of a partition. -/
def State.queue (s : State) (p q : Nat) : Option Queue := tabGet (s.part p).queues q

/-- The entry of a kind that stands at its queue head with its order condition met and has not begun. -/
def readyHead (s : State) (p q kind : Nat) : Option QEntry :=
  match (s.queue p q).bind Queue.head with
  | some (dev, e) =>
    if entryKind e.bytes == kind && e.begun.isNone && inOrder s dev e && entryLive s e && !jobHeld s e.ep e.job then some e else none
  | none => none

/-- The entries of a queue changed. -/
def State.modQueue (s : State) (p q : Nat) (g : QEntry → Option QEntry) : State :=
  s.modPart p (fun x => { x with queues := tabMod x.queues q (fun y => { y with entries := y.entries.filterMap g, device := y.device.filterMap g }) })

/-- The entry of a level has begun. -/
def markBegun (s : State) (p q level id : Nat) : State :=
  s.modQueue p q (fun e => some (if e.level = level then { e with begun := some id } else e))

/-- The entry of a level leaves its queue: it has started whole (R47). -/
def leaveQueue (s : State) (p q level : Nat) : State := s.modQueue p q (fun e => if e.level = level then none else some e)

/-- An entry ends without running: its level is due with a status. -/
def failEntry (s : State) (e : QEntry) (status index : Nat) : State :=
  s.modLevel e.level (fun x => { x with counter := 0, closed := true, fail := some status, failIndex := index })

/-! The checks of a launch (R47, R75). -/

/-- Residency of a launch: 1 single core, 2 cluster, 3 control core (R20, R67, R74). -/
def residencyOf (w : Nat) (k : Kernel) : Nat :=
  if w % 4 != 0 then w % 4 else if k.flags.testBit 3 then 3 else if k.flags.testBit 0 then 2 else 1

/-- L1 fusion of a launch (R74). -/
def fusionOf (w : Nat) (k : Kernel) : Bool :=
  match w / 4 % 4 with
  | 0 => k.flags.testBit 2
  | x => x == 2

/-- The slice mask of a placement word. -/
def sliceMaskOf (w : Nat) : Nat := w / 2 ^ 16 % 2 ^ 12

/-- A placement word that completes its launch with BAD_ENTRY (R75). -/
def badPlacement (w size : Nat) : Bool := w / 4 % 4 == 3 || w / 16 % 2 ^ 12 != 0 || w / 2 ^ 28 != 0 || sliceMaskOf w / 2 ^ size != 0

/-- A residency that completes its launch with DESCRIPTOR (R21, R75). -/
def badResidency (k : Kernel) (res : Nat) : Bool :=
  (res == 2 && k.gangs < 4) || (res == 3 && k.gangs != 1) || (2 ≤ res && k.flags.testBit 1) ||
    (res != 3 && 4096 < k.regs * (if res = 2 then (k.gangs + 3) / 4 else k.gangs))

/-- The constant block of a launch: that of its entry, or the kernel's own section (R47). -/
def constBlock (o : Obj) (k : Kernel) (b : List Byte) : Nat × Nat :=
  if fieldAt b 32 8 != 0 then (fieldAt b 32 8, fieldAt b 48 4)
  else
    match o.sections[k.constant]? with
    | some x => (o.base + x.voff, x.size)
    | none => (0, 0)

/-- The launch that an entry asks for, or the status that it completes with. -/
def launchRecord (s : State) (p q : Nat) (e : QEntry) : Except Nat Launch :=
  let b := e.bytes
  match tabGet (s.part p).objects (fieldAt b 8 4) with
  | none => .error stNoObject
  | some o =>
    match o.kernels[fieldAt b 12 2]? with
    | none => .error stBadKernel
    | some k =>
      let w := fieldAt b 40 8
      let res := residencyOf w k
      let c := constBlock o k b
      if ((o.sections[k.codeSection]?).map Section.hash) != some Config.encHash then .error stEncodingHash
      else if badPlacement w (s.part p).size then .error stBadEntry
      else if badResidency k res then .error stDescriptor
      else
        .ok { level := e.level, part := p, queue := q, obj := fieldAt b 8 4, kernel := k, start := BitVec.ofNat 48 k.entry,
              handler := o.handler, units := entryUnits b, argBase := windowBase, argBytes := k.args, constBase := c.1, constBytes := c.2,
              exact := (fieldAt b 15 1).testBit 2, race := (fieldAt b 15 1).testBit 0, raceTrap := (fieldAt b 15 1).testBit 1,
              cls := fieldAt b 14 1, residency := res, fused := fusionOf w k, glason := k.flags.testBit 1, sliceMask := sliceMaskOf w,
              ident := entryIdent b }

/-! The argument area (R47, R451). -/

/-- What the copy of the argument block comes to. -/
inductive ArgRead where
  | held (va level : Nat)
  | refused
  | ok (bs : List Byte) (l : Label) (s : State)
  deriving DecidableEq, Repr

/-- The declared argument bytes read from the block; zero where the entry names none. -/
def readArgs (s : State) (p addr n : Nat) : ArgRead :=
  if n = 0 || addr = 0 then .ok (List.replicate n 0) 0 s
  else if addr < 2 ^ 16 || windowBase < addr + n then .refused
  else
    match reach s 0 p addr n {} { r := true } with
    | .held va _ level => .held va level
    | .refused _ _ => .refused
    | .ok ps =>
      match rawPieces s p ps with
      | (none, _) => .refused
      | (some (bs, _), s') => .ok bs (pagesLabel ps) s'

/-- The area of a launch: its base and the state, none where the window has no room. A launch without arguments takes no page. -/
def placeArgs (s : State) (p : Nat) (bs : List Byte) (l : Label) : Option (Nat × State) :=
  if bs.isEmpty then some (windowBase, s)
  else (findWindow (s.part p) ((bs.length + 4095) / 4096)).map (fun a => (a, placeWindow s p a bs l))

/-! Start of a launch (R47, R48). -/

/-- Where the units of a launch start. -/
inductive StartPoint where
  | held (va level : Nat)
  | refused
  | at' (pc : Pc)
  deriving DecidableEq, Repr

/-- The kernel's entry, or the variant that CALLV.MINT would select without budgets (R48). -/
def startPoint (s : State) (p : Nat) (l : Launch) : StartPoint × State :=
  match l.kernel.vtable with
  | none => (.at' l.start, s)
  | some tbl =>
    match readTable s 0 p tbl {} with
    | (.held va _ level, s) => (.held va level, s)
    | (.bad _, s) => (.refused, s)
    | (.ok es _ _, s) =>
      match selectEntry { objective := 0, tlim := unlimited, elim := unlimited, bq := 0, exact := l.exact, pnow := 1 } es with
      | some (_, e, _) => (.at' (BitVec.ofNat 48 e.code), s)
      | none => (.refused, s)

/-- The launch begins: its units are ready for dispatch. -/
def beginLaunch (s : State) (p q : Nat) (e : QEntry) (l : Launch) : State :=
  let n := s.takeId
  markBegun (n.2.setLaunch n.1 l) p q e.level n.1

/-- A launch entry at its queue head: checked, its start point and its argument area found (R47, R48, R75, R451). A page that is
not present holds it and is announced. Where the table and the block both fail, the table's status is given: DESIGN CHOICE (log 28). -/
def startLaunch (s : State) (p q : Nat) (e : QEntry) : State :=
  match launchRecord s p q e with
  | .error k => failEntry s e k noIndex
  | .ok l =>
    let r : StartPoint × State := startPoint s p l
    match r with
    | (.held va level, s) => migrationNotice s p e.ep va level
    | (.refused, s) => failEntry s e stVtable noIndex
    | (.at' pc, s) =>
      match readArgs s p (fieldAt e.bytes 24 8) l.kernel.args with
      | .held va level => migrationNotice s p e.ep va level
      | .refused => failEntry s e stNotPermitted noIndex
      | .ok bs lab s =>
        match placeArgs s p bs lab with
        | none => s
        | some (a, s) => beginLaunch s p q e { l with start := pc, argBase := a }

def execLaunchEntryStart (p q : Nat) (s : State) : Host.Outcome State Fault Refusal :=
  match readyHead s p q 1 with
  | some e => .next (startLaunch s p q e)
  | none => .next s

/-! Bind records (R65, R66). -/

/-- A bind record in force. -/
structure Bind where
  slice : Nat
  queue : Nat
  mask : Nat
  ceiling : Nat
  account : Nat
  control : Nat
  deriving DecidableEq, Repr

/-- The fields of a record; none where it is not in force. -/
def bindOf (slice : Nat) (x : BitVec 64) : Option Bind :=
  let n := x.toNat
  if n % 2 = 0 || n / 2 ^ 57 != 0 then none
  else some { slice := slice, queue := n / 2 % 2 ^ 8, mask := n / 2 ^ 9 % 2 ^ 32, ceiling := n / 2 ^ 41 % 4, account := n / 2 ^ 43 % 64,
              control := n / 2 ^ 49 % 2 ^ 8 }

/-- The records in force of a partition's slices, in scan order (R66). -/
def bindsOf (s : State) (p : Nat) : List Bind :=
  (List.range (s.part p).size).flatMap (fun i =>
    let k := (s.part p).first + i
    (s.slice k).slots.filterMap (fun e => if e.1 < 64 then bindOf k e.2 else none))

/-- The first record that names a queue. -/
def bindOfQueue (s : State) (p q : Nat) : Option Bind := (bindsOf s p).find? (fun b => b.queue == q)

/-- The record that an entry needs to begin: none is needed to join a queue, or for a copy of 0 bytes (R46, R54). -/
def bindFor (s : State) (p q : Nat) (b : List Byte) : Option Bind :=
  match bindOfQueue s p q with
  | some x => some x
  | none =>
    if entryKind b == 1 || fieldAt b 24 8 == 0 then some { slice := 0, queue := 0, mask := 0, ceiling := 0, account := 0, control := 0 }
    else none

/-! Copy entries (R46, R72). -/

/-- A copy entry's command: both sides in memory, at the class ceiling and on the account of the record that binds its queue. -/
def copyOfEntry (s : State) (p level : Nat) (b : Bind) (bs : List Byte) : Copy :=
  let n := fieldAt bs 24 8
  { part := p, unit := none, level := some level, cls := b.ceiling, account := b.account, started := true, startSeq := s.time,
    slices := if n = 0 then [] else [{ gang := 0, srcMem := true, dstMem := true, src := fieldAt bs 8 8, dst := fieldAt bs 16 8, bytes := n }] }

/-- A copy entry that stands ready at its queue head: its command waits for an engine, and the entry stays at the head until one has
taken it (R47). A copy of 0 bytes needs none. -/
def startCopyEntry (s : State) (p q : Nat) (e : QEntry) (b : Bind) : State :=
  let c := copyOfEntry s p e.level b e.bytes
  let n := s.takeId
  if c.slices.isEmpty then leaveQueue (n.2.setCopy n.1 c) p q e.level else markBegun (n.2.setCopy n.1 c) p q e.level n.1

def execCopyEntry (p q : Nat) (s : State) : Host.Outcome State Fault Refusal :=
  match readyHead s p q 3 with
  | some e =>
    match bindFor s p q e.bytes with
    | some b => .next (startCopyEntry s p q e b)
    | none => .next s
  | none => .next s

/-! Wait entries (R46). -/

/-- No work of the level that a wait entry names is pending in its job: an entry identifier of levels 1 and 2, a phase number of
level 3. -/
def waitOver (s : State) (e : QEntry) : Bool :=
  let kind := fieldAt e.bytes 8 1
  let ident := fieldAt e.bytes 12 4
  s.levels.all (fun l => !(l.1 != e.level && l.2.kind == kind && l.2.ident == ident && l.2.ep == e.ep && l.2.job == e.job &&
    !l.2.hidden && l.2.status.isNone))

/-- The first wait entry that completes: its level is due. -/
def execWaitEntry (s : State) : Host.Outcome State Fault Refusal :=
  match s.parts.findSome? (fun p => p.2.queues.findSome? (fun q => match readyHead s p.1 q.1 4 with
    | some e => if waitOver s e then some e else none
    | none => none)) with
  | some e => .next (s.modLevel e.level (fun x => { x with counter := 0, closed := true }))
  | none => .next s

/-! Graph images (R54, R55). -/

/-- A node's bytes: its entry, its predecessor count and its successors; none where it breaks R54. It breaks R54 too where a place
beyond its successor count is nonzero, or a successor is no node of the image: DESIGN CHOICE (log 28). -/
def nodeOf (count : Nat) (bs : List Byte) : Option Node :=
  let e := bs.take 64
  let n := bs.drop 64
  let k := fieldAt n 2 2
  let succs := (List.range k).map (fun i => fieldAt n (4 + 2 * i) 2)
  if entryOk e && (entryKind e == 1 || entryKind e == 3) && !entryWaits e && k ≤ 28 && succs.all (fun i => i < count) &&
      zeroBytes n (4 + 2 * k) 64 then
    some { entry := e, preds := fieldAt n 0 2, succs := succs }
  else none

/-- The nodes of an image, or the number of the first bad one. -/
def nodesOf (count : Nat) : Nat → List Byte → List Node → Except Nat (List Node)
  | 0, _, acc => .ok acc
  | n + 1, bs, acc =>
    match nodeOf count (bs.take 128) with
    | some x => nodesOf count n (bs.drop 128) (acc ++ [x])
    | none => .error acc.length

/-- The number of edges that name a node. -/
def edgesInto (l : List Node) (i : Nat) : Nat := (l.map (fun x => (x.succs.filter (· == i)).length)).sum

/-- One round of taking out the nodes that no remaining node precedes. -/
def pruneNodes (l : List Node) (left : List Nat) : List Nat :=
  left.filter (fun i => left.any (fun j => match l[j]? with
    | some x => x.succs.contains i
    | none => false))

def pruneAll (l : List Node) : Nat → List Nat → List Nat
  | 0, left => left
  | n + 1, left => pruneAll l n (pruneNodes l left)

/-- A cycle, or a predecessor count that differs from the edges (R55). -/
def badEdges (l : List Node) : Bool :=
  (List.range l.length).any (fun i => (l[i]?.map Node.preds) != some (edgesInto l i)) ||
    !(pruneAll l l.length (List.range l.length)).isEmpty

/-- An image checked whole: its nodes, or a status and a failing index (R55). A header that breaks R54 completes the graph with
BAD_ENTRY and no index: DESIGN CHOICE (log 28). -/
def checkImage (count : Nat) (head body : List Byte) : Except (Nat × Nat) (List Node) :=
  if fieldAt head 0 2 != count || !zeroBytes head 2 64 || count = 0 || 4096 < count then .error (stBadEntry, noIndex)
  else
    match nodesOf count count body [] with
    | .error i => .error (stBadEntry, i)
    | .ok l => if badEdges l then .error (stGraphCycle, noIndex) else .ok l

/-! Arming (R55, R385). -/

/-- The level of a node: a launch, or a one-node graph that stands for a copy and is named by no identifier. -/
def nodeLevel (g : Nat) (x : Level) (b : List Byte) : Level :=
  { kind := if entryKind b = 1 then 1 else 2, ident := entryIdent b, parent := some g, ep := x.ep, job := x.job,
    counter := if entryKind b = 1 then entryUnits b else 1, closed := true, ask := entryAsks b && entryKind b == 1,
    hidden := entryKind b != 1 }

/-- The nodes of a graph given their levels. -/
def armNodes (g : Nat) (x : Level) : List Node → Nat → Tab Node → State → Tab Node × State
  | [], _, acc, s => (acc, s)
  | n :: rest, i, acc, s =>
    let l := newLevel s (nodeLevel g x n.entry)
    armNodes g x rest (i + 1) (acc ++ [(i, { n with level := some l.1 })]) l.2

/-- A checked image armed under its graph level: each node is a child of it, and of a graph armed by GARM also of the graphs around it (R56,
R385). -/
def armGraph (s : State) (g p q phase : Nat) (device : Bool) (l : List Node) : State :=
  match s.levelAt g with
  | none => s
  | some x =>
    let a := armNodes g x l 0 [] s
    let s := a.2.modLevel g (fun y => { y with counter := l.length, closed := true })
    let s := (s.counts g).tail.foldl (fun s k => addChildren s k l.length) s
    let n := s.takeId
    n.2.setGraph n.1 { level := g, part := p, queue := q, ep := x.ep, job := x.job, phase := phase, device := device, nodes := a.1 }

/-- A graph entry at its queue head: its image is read at device scope, checked and armed, or fails (R55). -/
def startGraph (s : State) (p q : Nat) (e : QEntry) : State :=
  let a := fieldAt e.bytes 8 8
  let n := fieldAt e.bytes 16 2
  match reach s 0 p a (64 + 128 * n) {} { r := true } with
  | .held va _ level => migrationNotice s p e.ep va level
  | .refused _ _ => leaveQueue (failEntry s e stNotPermitted noIndex) p q e.level
  | .ok ps =>
    match rawPieces s p ps with
    | (none, s) => leaveQueue (failEntry s e stNotPermitted noIndex) p q e.level
    | (some (bs, _), s) =>
      match checkImage n (bs.take 64) (bs.drop 64) with
      | .error (k, i) => leaveQueue (failEntry s e k i) p q e.level
      | .ok l => leaveQueue (armGraph s e.level p q e.phase false l) p q e.level

/-- The cluster that a graph entry names lies in the partition. -/
def graphCluster (s : State) (p : Nat) (e : QEntry) : Bool := fieldAt e.bytes 18 1 < 8 * (s.part p).size

def execGraphEntryArm (p q : Nat) (s : State) : Host.Outcome State Fault Refusal :=
  match readyHead s p q 2 with
  | some e =>
    if graphCluster s p e then .next (startGraph s p q e)
    else .next (leaveQueue (failEntry s e stBadEntry noIndex) p q e.level)
  | none => .next s

/-! Nodes (R52, R55, R386). -/

/-- A launch node joins the device list of its queue. -/
def joinDevice (s : State) (p q : Nat) (e : QEntry) : State :=
  s.modPart p (fun x =>
    let y := tabGetD {} x.queues q
    { x with queues := tabPut x.queues q { y with device := y.device ++ [e] } })

/-- A node starts: a launch joins its queue, a copy waits for an engine under the record that binds the queue. -/
def startNode (s : State) (k : Nat) (g : Graph) (i : Nat) (x : Node) (level : Nat) (b : Bind) : State :=
  let s := s.setGraph k { g with nodes := tabPut g.nodes i { x with started := true } }
  if entryKind x.entry = 1 then
    joinDevice s g.part g.queue { bytes := x.entry, ep := g.ep, job := g.job, phase := g.phase, level := level, prev := none }
  else
    let n := s.takeId
    n.2.setCopy n.1 (copyOfEntry s g.part level b x.entry)

/-- The bind record that a node needs. -/
def nodeBind (s : State) (g : Graph) (x : Node) : Option Bind := bindFor s g.part g.queue x.entry

/-- A completed node whose successors have still to learn of it. -/
def unsettled (s : State) (x : Node) : Bool := !x.settled && (match x.level with
  | some k => ((s.levelAt k).bind Level.status).isSome
  | none => false)

/-- The completion of a node delivered: its successors' counts fall, or, where it failed, each of them completes with
DEPENDENCY_FAILED (R52, R55). -/
def settleNode (s : State) (k : Nat) (g : Graph) (i : Nat) (x : Node) : State :=
  let st := (x.level.bind (fun n => (s.levelAt n).bind Level.status)).getD stOk
  let lower (t : Tab Node) (j : Nat) : Tab Node := tabMod t j (fun y => { y with preds := y.preds - 1 })
  let s := s.setGraph k { g with nodes := tabMod (x.succs.foldl lower g.nodes) i (fun y => { y with settled := true }) }
  if st = stOk then s
  else
    x.succs.foldl (fun s j => match (tabGet g.nodes j).bind Node.level with
      | some n => s.modLevel n (fun y => if y.status.isSome then y else { y with counter := 0, closed := true, fail := some stDependencyFailed })
      | none => s) s

/-- A node that may start: armed, without open predecessors, and its level not completed, cancelled or due. -/
def mayStart (s : State) (g : Graph) (x : Node) : Bool :=
  !x.started && x.preds == 0 && !jobHeld s g.ep g.job && (match x.level.bind s.levelAt with
    | some y => y.status.isNone && !y.cancelled && !y.due
    | none => false)

/-- The first completion that is delivered, or else the first node that starts. -/
def execGraphNodeStart (s : State) : Host.Outcome State Fault Refusal :=
  match s.graphs.findSome? (fun g => (firstWith g.2.nodes (fun _ x => unsettled s x)).map (fun x => (g.1, g.2, x))) with
  | some (k, g, i, x) => .next (settleNode s k g i x)
  | none =>
    match s.graphs.findSome? (fun g => (firstWith g.2.nodes (fun _ x => mayStart s g.2 x && (nodeBind s g.2 x).isSome)).map
        (fun x => (g.1, g.2, x))) with
    | some (k, g, i, x) =>
      match x.level, nodeBind s g x with
      | some n, some b => .next (startNode s k g i x n b)
      | _, _ => .next s
    | none => .next s

end Sys2Proof.Machine
end

