-- ==== Sys2Proof/Machine/Place.lean ====
section
/-! DEFINITION. Placing work: free slots, dispatch of new, restarted and resumed units, L1 fusion, the end of a unit, and the budget
accounts (R65 to R71, R76, R110 to R114, R247, R410, R414, R430, R431). -/

namespace Sys2Proof.Machine

/-! Free slots (R66, R67, R76, R111). -/

/-- The gangs of a unit that sit on a core (R110). -/
def Unit.gangsOn (u : Unit) (core : Nat) : Nat :=
  if u.resident then (if core / 5 = u.clusterNo && core % 5 < 4 then (u.gangs + 3 - core % 5) / 4 else 0)
  else if core = 5 * u.clusterNo + u.core then u.gangs else 0

/-- A sum over the units that stand in the cores. -/
def sumLive (s : State) (g : Unit → Nat) : Nat := s.units.foldl (fun n e => if e.2.live then n + g e.2 else n) 0

/-- A core's context for a launch, or a number for it (R112): the lowest that is free, DESIGN CHOICE (log 19). -/
def contextSlot (s : State) (core launch : Nat) : Option Nat :=
  match (s.core core).contexts.find? (fun e => e.2 == launch) with
  | some e => some e.1
  | none => (List.range 32).find? (fun n => (tabGet (s.core core).contexts n).isNone)

/-- A SIMT core has room for n more gangs of a launch (R111, R112). -/
def coreFits (s : State) (core launch n regs : Nat) : Bool :=
  sumLive s (fun u => u.gangsOn core) + n ≤ 32 && sumLive s (fun u => u.regs * u.gangsOn core) + regs * n ≤ 4096 &&
    (contextSlot s core launch).isSome

/-- The control slot of a cluster is free (R67). -/
def controlFree (s : State) (cl : Nat) : Bool := sumLive s (fun u => u.gangsOn (5 * cl + 4)) = 0

/-- The lowest run of free scratchpad lines of a cluster (R247). -/
def findRun (s : State) (cl lines : Nat) : Option Nat :=
  let used := (s.units.filter (fun e => e.2.live && e.2.clusterNo == cl)).map (fun e => (e.2.runLine, (e.2.runBytes + 127) / 128))
  ((0 :: used.map (fun r => r.1 + r.2)).filter (fun k =>
    k + lines ≤ 8192 && used.all (fun r => r.2 = 0 || lines = 0 || k + lines ≤ r.1 || r.1 + r.2 ≤ k))).foldl
    (fun acc k => match acc with
      | none => some k
      | some m => some (min m k)) none

/-- What a unit needs of a slot. -/
structure Shape where
  launch : Nat
  residency : Nat
  fused : Bool
  gangs : Nat
  regs : Nat
  scratch : Nat
  /-- the remap state that a resumed unit brings is owned. -/
  owns : Bool := false

/-- A core's remap state is free for a unit that owns one (R315). -/
def remapFree (s : State) (core : Nat) (x : Shape) : Bool :=
  !x.owns || (match (s.core core).remap.owner with
    | some k => k == x.launch
    | none => true)

/-- The cluster may hold the unit: its fusion state is the launch's, and it has a run (R76, R247). -/
def clusterFits (s : State) (cl : Nat) (x : Shape) : Bool :=
  (s.cluster cl).fused == x.fused && (s.cluster cl).fusing.isNone && (findRun s cl ((x.scratch + 127) / 128)).isSome

/-- A core of a cluster may hold its share of the unit. -/
def shareFits (s : State) (cl core n : Nat) (x : Shape) : Bool :=
  coreFits s (5 * cl + core) x.launch n x.regs && remapFree s (5 * cl + core) x

/-- The lowest free slot of a slice that a record permits and that fits: the cluster in the slice, and the core (R66). -/
def findSpot (s : State) (b : Bind) (x : Shape) : Option (Nat × Nat) :=
  match x.residency with
  | 3 => ((List.range 8).find? (fun cl => b.control.testBit cl && clusterFits s (8 * b.slice + cl) x && controlFree s (8 * b.slice + cl) &&
      (contextSlot s (5 * (8 * b.slice + cl) + 4) x.launch).isSome && remapFree s (5 * (8 * b.slice + cl) + 4) x)).map (fun cl => (cl, 4))
  | 2 => ((List.range 8).find? (fun cl => clusterFits s (8 * b.slice + cl) x && (List.range 4).all (fun c =>
      b.mask.testBit (4 * cl + c) && shareFits s (8 * b.slice + cl) c ((x.gangs + 3 - c) / 4) x))).map (fun cl => (cl, 0))
  | _ => ((List.range 32).find? (fun n => b.mask.testBit n && clusterFits s (8 * b.slice + n / 4) x &&
      shareFits s (8 * b.slice + n / 4) (n % 4) x.gangs x)).map (fun n => (n / 4, n % 4))

/-! Trap stacks (R406; log 9). -/

/-- The ranges of the window that trap stacks of a partition take: of resident and of saved gangs. -/
def stacksOf (s : State) (p : Nat) : List (Nat × Nat) :=
  ((s.gangs.filter (fun e => (s.unit (unitOf e.1)).part == p)) ++ (s.saved.filter (fun e => e.2.unit.part == p)).flatMap (fun e => e.2.gangs)).map
    (fun e => (e.2.stackBase, e.2.stackBytes))

/-- The lowest range of the upper half of the window that holds n bytes. -/
def findStack (s : State) (p n : Nat) : Option Nat :=
  let used := (stacksOf s p).filter (fun r => 0 < r.1)
  ((stackWindow :: used.map (fun r => r.1 + r.2)).filter (fun a =>
    a + n ≤ vaTop && used.all (fun r => a + n ≤ r.1 || r.1 + r.2 ≤ a))).foldl
    (fun acc a => match acc with
      | none => some a
      | some m => some (min m a)) none

/-! The unit that a queue offers (R66, R410, R414). -/

/-- What a queue offers to dispatch. -/
inductive Offer where
  /-- the next unit of a launch. -/
  | fresh (launch : Nat)
  /-- a restart entry or a resumed unit. -/
  | again (id : Nat) (x : Saved)
  deriving DecidableEq, Repr

/-- Every page that aborted the unit is resident (R410). -/
def pagesBack (s : State) (u : Unit) : Bool := u.awaits.all (fun va => match walk s u.part va with
  | .absent _ _ => false
  | _ => true)

/-- Restarted and resumed units go ahead of undispatched ones; of a saved job, or of an endpoint that is not enabled, nothing goes. -/
def offerOf (s : State) (p q : Nat) : Option Offer :=
  match firstWith s.saved (fun _ x => x.wanted && x.unit.part == p && (s.launch x.unit.launch).queue == q && !jobHeld s x.ep x.job && (!x.restart || pagesBack s x.unit)) with
  | some e => some (.again e.1 e.2)
  | none =>
    match (s.queue p q).bind Queue.head with
    | some (_, e) =>
      match e.begun with
      | some k => if entryKind e.bytes == 1 && (s.launch k).next < (s.launch k).units && entryLive s e && !jobHeld s e.ep e.job then
          some (.fresh k) else none
      | none => none
    | none => none

/-- The launch of an offer, and the shape of its unit. -/
def Offer.launch : Offer → Nat
  | .fresh k => k
  | .again _ x => x.unit.launch

def Offer.owns : Offer → Bool
  | .fresh _ => false
  | .again _ x => !x.restart && x.remap.owner.isSome

def shapeOf (s : State) (o : Offer) : Shape :=
  let l := s.launch o.launch
  { launch := o.launch, residency := l.residency, fused := l.fused, gangs := l.kernel.gangs, regs := l.kernel.regs,
    scratch := l.kernel.scratch, owns := o.owns }

/-- The record permits the launch's slice, and its account has a balance (R66, R74). -/
def bindOpen (s : State) (p : Nat) (b : Bind) (l : Launch) : Bool :=
  (l.sliceMask = 0 || l.sliceMask.testBit (b.slice - (s.part p).first)) &&
    decide (0 < (tabGetD {} (s.part p).accounts b.account).balance)

/-- A place for an offer: its record, cluster and core. -/
structure Spot where
  part : Nat
  bind : Bind
  offer : Offer
  cluster : Nat
  core : Nat
  deriving DecidableEq, Repr

/-- The window has room for the trap stacks that an offer needs: a resumed unit has kept its own. -/
def stacksFit (s : State) (p : Nat) (o : Offer) : Bool :=
  match o with
  | .again _ x => !x.restart || (findStack s p ((s.launch o.launch).kernel.stack * (s.launch o.launch).kernel.gangs)).isSome
  | .fresh k => (findStack s p ((s.launch k).kernel.stack * (s.launch k).kernel.gangs)).isSome

/-- A free slot for what a record's queue offers. -/
def spotOf (s : State) (p : Nat) (b : Bind) : Option Spot :=
  match offerOf s p b.queue with
  | some o =>
    if bindOpen s p b (s.launch o.launch) && stacksFit s p o then
      (findSpot s b (shapeOf s o)).map (fun c => { part := p, bind := b, offer := o, cluster := c.1, core := c.2 })
    else none
  | none => none

/-- The next dispatch: the first record in scan order that has all it needs (R66). -/
def nextDispatch (s : State) : Option Spot := s.parts.findSome? (fun p => (bindsOf s p.1).findSome? (spotOf s p.1))

/-! Dispatch (R68, R112, R114, R247). -/

/-- A launch takes a context on a core (R112). -/
def takeContext (s : State) (launch core : Nat) : State :=
  match contextSlot s core launch with
  | some n => s.modCore core (fun c => { c with contexts := tabPut c.contexts n launch })
  | none => s

/-- Records b0 and b1 of a launch (R47). -/
def entryRecords (l : Launch) : Tab (BitVec 128) :=
  [(0, Rec.toBits { base := l.argBase, extent := l.argBytes / 8, stride := 0, size := 4, swizzle := 0, trap := false, reserved := 0 }),
   (1, Rec.toBits { base := l.constBase, extent := l.constBytes / 4, stride := 0, size := 3, swizzle := 0, trap := false, reserved := 0 })]

/-- The active Glason gangs of a launch on a core (R128). -/
def activeGangs (s : State) (launch core : Nat) : Nat :=
  (s.gangs.filter (fun e => e.2.active && !e.2.ended && (s.unit (unitOf e.1)).launch == launch && (s.unit (unitOf e.1)).live &&
    s.coreOfGang e.1 == core)).length

/-- The lowest gang slot of a core that no gang has (R111): a gang's core-local position (R119). DESIGN CHOICE (log 13): the spec does not say
how positions are assigned. -/
def freePos (s : State) (core : Nat) : Nat :=
  ((List.range 32).find? (fun n => s.gangs.all (fun e => s.coreOfGang e.1 != core || e.2.pos != n))).getD 0

/-- A gang at its entry (R114, R377, R406). -/
def entryGang (s : State) (l : Launch) (launch g stack : Nat) : Gang :=
  { lanes := if l.residency = 3 then 1 else 32, pos := freePos s (s.coreOfGang g), brecs := entryRecords l, stackBase := stack, stackBytes := l.kernel.stack,
    active := !l.glason || activeGangs s launch (s.coreOfGang g) < 8, pendingSince := s.time }

/-- A thread at its entry (R68, R114, R180). -/
def entryThread (s : State) (l : Launch) (ceiling : Nat) : Thread :=
  { pc := l.start, mode := if l.exact then 4 else 0, cls := min l.cls ceiling, readySince := s.time }

/-- A gang created with its threads. -/
def createGang (launch : Nat) (l : Launch) (ceiling stack : Nat) (s : State) (g : Nat) : State :=
  let x := entryGang s l launch g (stack + l.kernel.stack * gangidOf g)
  (List.range x.lanes).foldl (fun s i => s.setThread (threadAt g i) (entryThread s l ceiling)) (s.setGang g x)

/-- A unit at its entry, in its slot. -/
def entryUnit (s : State) (x : Spot) (l : Launch) (launch unitid run : Nat) : Unit :=
  { launch := launch, unitid := unitid, slice := x.bind.slice, cluster := x.cluster, core := x.core, resident := l.residency == 2,
    regs := l.kernel.regs, gangs := l.kernel.gangs, ceiling := x.bind.ceiling, account := x.bind.account, part := x.part, entry := l.start,
    runLine := run, runBytes := l.kernel.scratch, dispatched := s.time }

/-- A unit enters its slot with its contexts. -/
def enterUnit (s : State) (u : Nat) (x : Unit) : State :=
  (markBusy (s.setUnit u x) x.part x.account).unitCores u |>.foldl (fun s c => takeContext s x.launch c) (markBusy (s.setUnit u x) x.part x.account)

/-- A new unit (R114). -/
def createUnit (s : State) (x : Spot) (launch unitid run stack : Nat) : Nat × State :=
  let l := s.launch launch
  let n := s.takeId
  let s := enterUnit n.2 n.1 (entryUnit s x l launch unitid run)
  (n.1, (s.gangsOfUnit n.1).foldl (createGang launch l x.bind.ceiling stack) s)

/-- A restarted gang: at its region entry where it had performed its RGN, ended where it had ended before that, else at the
launch's entry (R410). A gang whose region has not opened waits for it. -/
def restartGang (old : Saved) (u : Nat) (s : State) (i : Nat) : State :=
  let g := 32 * u + i
  let x := tabGetD {} old.gangs i
  if x.inRegion then
    let s := s.modGang g (fun y => { y with inRegion := true, rgn := true, regionEntry := x.regionEntry })
    (s.threadsOfGang g).foldl (fun s t => s.modThread t (fun y => { y with
      pc := x.regionEntry, sched := if old.unit.regionOpen then .ready else .blocked .region })) s
  else if x.ended then
    ((s.threadsOfGang g).foldl (fun s t => s.modThread t (fun y => { y with sched := .exited })) s).modGang g (fun y => { y with ended := true })
  else s

/-- A thread back from the save area: time in it is not metered (R218, R411). -/
def resumeThread (s : State) (away ceiling : Nat) (x : Thread) : Thread :=
  { x with
    readySince := s.time, cls := min x.cls ceiling, frames := x.frames.map (fun f => { f with issued := f.issued + away }),
    started := x.started.map (fun y => (y.1 + away, y.2)) }

/-- Codebooks and remap state that a resumed unit brings to a core (R412). -/
def resumeCore (x : Saved) (s : State) (core : Nat) : State :=
  let n := contextOf s core x.unit.launch
  s.modCore core (fun c => { c with
    codebooks := x.codebooks.foldl (fun t e => tabPut t (64 * n + e.1) e.2) c.codebooks
    remap := if x.remap.owner.isSome then x.remap else c.remap
    children := if core % 5 = 4 then x.children else c.children })

/-- A saved gang back on a core: in a gang slot, and in the active set of its launch while that has room (R128). -/
def resumeGang (u launch : Nat) (s : State) (e : Nat × Gang) : State :=
  let g := 32 * u + e.1
  let core := s.coreOfGang g
  s.setGang g { e.2 with
    pos := freePos s core, active := e.2.active && (!(s.launch launch).glason || activeGangs s launch core < 8), pendingSince := s.time }

/-- The L1s that a core's accesses go through (R13, R76). -/
def l1Cores (s : State) (core : Nat) : List Nat :=
  if (s.cluster (core / 5)).fused then (List.range 4).map (fun c => 5 * (core / 5) + c) else [l1Core s core 0]

/-- Those L1s emptied: a thread that comes to a core with writes of its own behind it finds no copy older than they are (R361, R363; log 17). -/
def State.clearL1 (s : State) (core : Nat) : State := (l1Cores s core).foldl (fun s c => s.modCore c (fun x => { x with l1 := [] })) s

/-- A saved unit back in a slot with its state, its records and its replay entries; the time away counts in no frame, nor for a CALLV in
flight (R218, R412, R414). -/
def resumeUnit (s : State) (x : Spot) (old : Saved) (run : Nat) : State :=
  let u := old.unitNo
  let away := s.time - old.savedAt
  let s := enterUnit s u { old.unit with
    slice := x.bind.slice, cluster := x.cluster, core := x.core, ceiling := x.bind.ceiling, account := x.bind.account, runLine := run,
    dispatched := s.time, live := true, stopped := false }
  let s := old.gangs.foldl (resumeGang u old.unit.launch) s
  let s := old.threads.foldl (fun s e => s.setThread (1024 * u + e.1) (resumeThread s away x.bind.ceiling e.2)) s
  let s := (s.unitCores u).foldl State.clearL1 ((s.unitCores u).foldl (resumeCore old) s)
  let s := old.records.foldl (fun s r => s.pushRecord r) s
  let s := old.accesses.foldl (fun s e => s.setAccess e.1 (if e.2.kind == .table then { e.2 with aux := e.2.aux + away } else e.2)) s
  old.copies.foldl (fun s c => s.setCopy c.1 c.2) s

/-- The next unit of a launch dispatched; with its last unit the entry leaves its queue (R47). -/
def dispatchFresh (s : State) (x : Spot) (launch run stack : Nat) : State :=
  let l := s.launch launch
  let s := (createUnit s x launch l.next run stack).2.modLaunch launch (fun y => { y with next := y.next + 1 })
  if l.next + 1 = l.units then leaveQueue s l.part l.queue l.level else s

/-- A restart entry dispatched again (R410 step 6). -/
def dispatchRestart (s : State) (x : Spot) (id : Nat) (old : Saved) (run stack : Nat) : State :=
  let n := createUnit { s with saved := tabDel s.saved id } x old.unit.launch old.unit.unitid run stack
  (List.range old.unit.gangs).foldl (restartGang old n.1)
    (((n.2.unitCores n.1).foldl State.clearL1 n.2).modUnit n.1 (fun u => { u with regionOpen := old.unit.regionOpen, halted := old.unit.halted, faulted := old.unit.faulted }))

/-- The dispatch of an offer into its slot. -/
def dispatchAt (s : State) (x : Spot) : State :=
  let l := s.launch x.offer.launch
  let run := findRun s (8 * x.bind.slice + x.cluster) ((l.kernel.scratch + 127) / 128)
  match run, x.offer, findStack s x.part (l.kernel.stack * l.kernel.gangs) with
  | some r, .fresh k, some a => dispatchFresh s x k r a
  | some r, .again id old, a =>
    if old.restart then (match a with
      | some a => dispatchRestart s x id old r a
      | none => s)
    else resumeUnit { s with saved := tabDel s.saved id } x old r
  | _, _, _ => s

def execUnitDispatch (s : State) : Host.Outcome State Fault Refusal :=
  match nextDispatch s with
  | some x => .next (dispatchAt s x)
  | none => .next s

/-! L1 fusion (R76). -/

/-- None of a cluster's four SIMT cores holds a unit. -/
def clusterEmpty (s : State) (cl : Nat) : Bool := sumLive s (fun u => if u.clusterNo = cl && (u.resident || u.core != 4) then 1 else 0) = 0

/-- The slots that a record's unit would take in a cluster of its slice are permitted. -/
def bindNames (b : Bind) (cl residency : Nat) : Bool :=
  match residency with
  | 3 => b.control.testBit cl
  | 2 => (List.range 4).all (fun c => b.mask.testBit (4 * cl + c))
  | _ => (List.range 4).any (fun c => b.mask.testBit (4 * cl + c))

/-- The fusion state that the first record in scan order wants of a cluster. -/
def wantedFusion (s : State) (cl : Nat) : Option Bool :=
  s.parts.findSome? (fun p => (bindsOf s p.1).findSome? (fun b =>
    if b.slice = cl / 8 then
      match offerOf s p.1 b.queue with
      | some o =>
        let l := s.launch o.launch
        if bindOpen s p.1 b l && bindNames b (cl % 8) l.residency then some l.fused else none
      | none => none
    else none))

/-- A cluster that begins a change of state. -/
def wantsChange (s : State) (cl : Nat) : Bool :=
  clusterEmpty s cl && (s.cluster cl).fusing.isNone && (match wantedFusion s cl with
    | some w => w != (s.cluster cl).fused
    | none => false)

/-- The change of a cluster's state is over. -/
def changeOver (s : State) (cl : Nat) : Bool := match (s.cluster cl).fusing with
  | some t => t ≤ s.time
  | none => false

/-- The end of a change: the state turns, and every line of the cluster's L1s is invalid. -/
def endFusion (s : State) (cl : Nat) : State :=
  (List.range 4).foldl (fun s c => s.modCore (5 * cl + c) (fun x => { x with l1 := [] }))
    (s.modCluster cl (fun x => { x with fused := !x.fused, fusing := none }))

/-- A change that is over ends; else the first wanted change begins and takes 256 clk. -/
def execFusionChange (s : State) : Host.Outcome State Fault Refusal :=
  match (List.range 96).find? (changeOver s) with
  | some cl => .next (endFusion s cl)
  | none =>
    match (List.range 96).find? (wantsChange s) with
    | some cl => .next (s.modCluster cl (fun x => { x with fusing := some (s.time + 256 * 5) }))
    | none => .next s

/-! The end of a unit (R52, R430, R431). -/

/-- A copy command has completed in the sense of R382: carried and past its completion time, or stopped. -/
def copyOver (s : State) (c : Copy) : Bool := c.done || c.stop.isSome || copyEnds s c

/-- Every gang of the unit has ended. -/
def gangsEnded (s : State) (u : Nat) : Bool := (s.gangsOfUnit u).all (fun g => (s.gang g).ended)

/-- No thread of a unit can issue. -/
def nothingReady (s : State) (u : Nat) : Bool :=
  (s.unit u).halted || (s.unit u).stopped || (s.threadsOfUnit u).all (fun t => (s.thread t).sched != .ready)

/-- The unit's writes to memory and its messages have left, its writes are visible, and its copies are over (R387, R430). Scratchpad
writes of terminated threads that wait for a line go with the unit's lines. -/
def unitQuiet (s : State) (u : Nat) : Bool :=
  s.accesses.all (fun e => unitOfThread e.2.thread != u || !e.2.kind.outlives || e.2.kind.isScratch) &&
    (s.threadsOfUnit u).all (fun t => (s.thread t).writeG ≤ s.time) &&
    s.copies.all (fun e => (e.2.unit.map Prod.fst) != some u || e.2.done || copyEnds s e.2)

/-- A unit that ends now. -/
def unitEnds (s : State) (u : Nat) (x : Unit) : Bool :=
  x.live && (gangsEnded s u || (x.cancelled && nothingReady s u)) && unitQuiet s u

/-- The last unit of a context on a core has ended: its number, its codebooks and its remap state go (R112, R174, R315). -/
def dropContext (s : State) (launch core : Nat) : State :=
  let stays := s.units.any (fun e => e.2.live && e.2.launch == launch && (s.unitCores e.1).contains core)
  if stays then s
  else
    let n := contextOf s core launch
    s.modCore core (fun c => { c with
      contexts := tabDel c.contexts n, codebooks := c.codebooks.filter (fun e => e.1 / 64 != n)
      remap := if c.remap.owner == some launch then {} else c.remap })

/-- Everything of a unit that its slots held is released: threads, gangs, accesses, records, runs, contexts and child entries (R383,
R431). The unit's own entry stays as one that is no longer resident. -/
def releaseUnit (s : State) (u : Nat) : State :=
  let x := s.unit u
  let cores := s.unitCores u
  let s := (s.gangsOfUnit u).foldl State.dropRecords s
  let s := { s with
    threads := s.threads.filter (fun e => unitOfThread e.1 != u), gangs := s.gangs.filter (fun e => unitOf e.1 != u),
    accesses := s.accesses.filter (fun e => unitOfThread e.2.thread != u) }
  let s := s.setUnit u { x with live := false, run := [], lineEmpty := [], lineLabel := [] }
  let free (c : Child) : Child := if c.unit = u then { c with level := none } else c
  cores.foldl (fun s c => (dropContext s x.launch c).modCore c (fun y => { y with
    children := tabMap free y.children, converge := y.converge.filter (fun e => (s.threads.any (fun t => t.2.pc == e.2.2 && s.coreOf t.1 == c))) })) s

/-- A unit ends: its resources go, and its launch's counter falls. -/
def endUnit (s : State) (u : Nat) : State :=
  let x := s.unit u
  let s := if gangsEnded s u then s else s.terminateUnit u
  let s := (releaseUnit s u).modLaunch x.launch (fun l => { l with ended := l.ended + 1, faulted := l.faulted || x.faulted })
  childDone s (s.launch x.launch).level (if x.faulted then stUnitFault else stOk) noIndex

/-- The first unit that ends. -/
def execUnitEnd (s : State) : Host.Outcome State Fault Refusal :=
  match firstWith s.units (fun u x => unitEnds s u x) with
  | some e => .next (endUnit s e.1)
  | none => .next s

/-! Budgets (R69 to R71). -/

/-- One account refilled, and what it gives to the pool (R70). -/
def Account.refilled (a : Account) (isBusy : Bool) : Account :=
  let repay := min a.debt (a.refill / 2)
  { a with debt := a.debt - repay, balance := min a.balance 0 + (a.refill : Int) - (repay : Int), busy := isBusy }

def Account.lent (a : Account) : Nat := if !a.busy && a.lend then a.balance.toNat else 0

/-- A unit or a copy of an account is resident now. -/
def accountBusy (s : State) (p a : Nat) : Bool :=
  s.units.any (fun e => e.2.live && e.2.part == p && e.2.account == a) ||
    s.copies.any (fun e => e.2.engine.isSome && e.2.part == p && e.2.account == a)

/-- The refill of a partition's accounts at one instant. -/
def refillPart (s : State) (p : Nat) : State :=
  s.modPart p (fun x => { x with
    pool := (x.accounts.map (fun a => a.2.lent)).sum
    accounts := x.accounts.map (fun a => (a.1, a.2.refilled (accountBusy s p a.1))) })

/-- 100 µs in ticks. -/
def periodTicks : Nat := 1200000

/-- At every multiple of 100 µs of the global time base. -/
def execBudgetRefill (s : State) : Host.Outcome State Fault Refusal :=
  if (s.refills + 1) * periodTicks ≤ s.time then
    .next ((s.parts.map Prod.fst).foldl refillPart { s with refills := s.refills + 1 })
  else .next s

/-- A queue that a record binds has a ready head: a unit, or a copy entry (R71). -/
def headReady (s : State) (p : Nat) (b : Bind) : Bool :=
  (offerOf s p b.queue).isSome || (match (s.queue p b.queue).bind Queue.head with
    | some (dev, e) => entryKind e.bytes == 3 && inOrder s dev e && entryLive s e && !jobHeld s e.ep e.job
    | none => false)

/-- An account wants to borrow: its balance is spent, and a queue bound to it has a ready head (R71). -/
def wantsTokens (s : State) (p : Nat) (binds : List Bind) (a : Nat) : Bool :=
  decide ((tabGetD {} (s.part p).accounts a).balance ≤ 0) && binds.any (fun b => b.account == a && headReady s p b)

/-- The accounts that records of a partition name. -/
def boundAccounts (binds : List Bind) : List Nat := distinct (binds.map Bind.account)

/-- A request made or withdrawn. -/
def Account.ask (a : Account) (wants : Bool) (now : Nat) : Account :=
  { a with asked := if wants then some (a.asked.getD now) else none }

/-- The requests of a partition as they stand now. -/
def noteRequestsOf (s : State) (p : Nat) : State :=
  let binds := bindsOf s p
  let note (t : Tab Account) (a : Nat) : Tab Account :=
    let x := tabGetD {} t a
    let y := x.ask (wantsTokens s p binds a) s.time
    if y = x then t else tabPut t a y
  let open' := boundAccounts binds
  s.modPart p (fun x => { x with accounts := open'.foldl note (x.accounts.map (fun a => if open'.contains a.1 then a else (a.1, { a.2 with asked := none }))) })

def noteRequests (s : State) : State := (s.parts.map Prod.fst).foldl noteRequestsOf s

/-- A draw from the pool. -/
def drawTokens (s : State) (p a : Nat) : State :=
  let x := tabGetD {} (s.part p).accounts a
  let n := min (x.refill / 8) (s.part p).pool
  let y : Account := { x with balance := x.balance + (n : Int), debt := x.debt + n, asked := none }
  s.modPart p (fun z => { z with pool := z.pool - n, accounts := tabPut z.accounts a y })

/-- The account of a partition whose request is served next: the earliest, in the same instant the lowest (R71). -/
def drawer (p : Partition) : Option Nat :=
  let asks := p.accounts.filter (fun a => a.2.asked.isSome && 0 < min (a.2.refill / 8) p.pool)
  match (asks.filterMap (fun a => a.2.asked)).min? with
  | some t => ((asks.filter (fun a => a.2.asked == some t)).map Prod.fst).min?
  | none => none

/-- The first request that is served. -/
def nextDraw (s : State) : Option (Nat × Nat) := s.parts.findSome? (fun p => (drawer p.2).map (fun a => (p.1, a)))

/-- The requests are brought up to date, and the first is served. -/
def execBorrow (s : State) : Host.Outcome State Fault Refusal :=
  match nextDraw (noteRequests s) with
  | some (p, a) => .next (drawTokens (noteRequests s) p a)
  | none => .next (noteRequests s)

/-! Time (R69, R70). -/

/-- 1 µs in ticks. -/
def microTicks : Nat := 12000

/-- Whole µs since a mark that pass while time goes from t to t'. A charge falls at each whole µs of residence and a part of one at the
end is not charged: DESIGN CHOICE (log 29). -/
def microsPassed (since t t' : Nat) : Nat := (t' - since) / microTicks - (t - since) / microTicks

/-- What an account is charged each µs (R69). -/
def accountLoad (s : State) (p a : Nat) : Nat :=
  s.units.foldl (fun n e => if e.2.live && !e.2.stopped && e.2.part == p && e.2.account == a then n + e.2.gangs else n) 0 +
    s.copies.foldl (fun n e => if e.2.engine.isSome && !e.2.done && e.2.part == p && e.2.account == a then n + 32 else n) 0

/-- The next whole µs of residence since a mark. -/
def nextCharge (s : State) (since : Nat) : Nat := s.time + (microTicks - (s.time - since) % microTicks)

/-- The moments of an account's next charges. -/
def nextCharges (s : State) (p a : Nat) : List Nat :=
  s.units.filterMap (fun e => if e.2.live && !e.2.stopped && e.2.part == p && e.2.account == a then some (nextCharge s e.2.dispatched) else none) ++
    s.copies.filterMap (fun e => if e.2.engine.isSome && !e.2.done && e.2.part == p && e.2.account == a then some (nextCharge s e.2.acceptedAt)
      else none)

/-- The moments up to which balances stay above zero, and then those of the next charges: no balance is spent between two of them (R71). -/
def balanceMoments (s : State) : List Nat :=
  s.parts.flatMap (fun p => p.2.accounts.flatMap (fun a =>
    let c := accountLoad s p.1 a.1
    let k := (a.2.balance.toNat - 1) / c
    if a.2.balance ≤ 0 || c = 0 then []
    else if 0 < k then [s.time + k * microTicks]
    else nextCharges s p.1 a.1))

/-- An account charged. -/
def chargeAccount (s : State) (p a n : Nat) : State :=
  s.modPart p (fun x =>
    let y := tabGetD {} x.accounts a
    { x with accounts := tabPut x.accounts a { y with balance := y.balance - (n : Int), busy := true } })

/-! The ballast of a fade (R441). -/

/-- 2 µs in ticks. -/
def fadeTicks : Nat := 24000

/-- The lane passes that a fade from a record brings in its first t ticks: the record, of 4 µs, falls to zero over 2 µs. -/
def fadePasses (record t : Nat) : Nat := record * (t * (2 * fadeTicks - t)) / (2 * fadeTicks * 48000)

/-- A clk of a chiplet ends: where a fade runs, ballast fills what real issue has left below its level. -/
def Slice.endClk (x : Slice) (clk : Nat) : Slice :=
  match x.fade with
  | some f =>
    let upTo (t : Nat) : Nat := fadePasses f.1 (min (t - f.2) fadeTicks)
    { x with ballast := x.ballast + (upTo (clk + 5) - upTo clk - x.clkPasses), clkPasses := 0 }
  | none => { x with clkPasses := 0 }

/-- The clk of a chiplet that end while time goes from t to t'. -/
def Slice.endClks (t t' : Nat) (x : Slice) : Slice :=
  let c := t - (t - x.clkBase) % 5
  let n := (t' - c) / 5
  (List.range (if x.fade.isSome then n else min n 1)).foldl (fun x k => x.endClk (c + 5 * k)) x

/-- Time passes: requests to borrow that stand are noted, resident units and running copies charge their accounts, and clk end (R69, R71,
R441). -/
def advance (s : State) (dt : Nat) : State :=
  let t := s.time
  let s := noteRequests s
  let s := s.units.foldl (fun s e => if e.2.live && !e.2.stopped then chargeAccount s e.2.part e.2.account (e.2.gangs * microsPassed e.2.dispatched t (t + dt)) else s) s
  let s := s.copies.foldl (fun s e => if e.2.engine.isSome && !e.2.done then chargeAccount s e.2.part e.2.account (32 * microsPassed e.2.acceptedAt t (t + dt)) else s) s
  { s with time := t + dt, slices := tabMap (Slice.endClks t (t + dt)) s.slices }

end Sys2Proof.Machine
end

