-- ==== Sys2Proof/Machine/Sync.lean ====
section
/-! DEFINITION. Fences, unit barriers, DRAIN and FEWAIT, and the instructions that start, watch and cancel work (R359, R375 to
R391). -/

namespace Sys2Proof.Machine

/-! Fences (R359, R376). -/

/-- Accesses that return a value to their thread (R359, condition 1); an EGRESS is a load of its thread, and its message has been
delivered when it lands (R422). -/
def AKind.binds : AKind → Bool
  | .load | .ldx | .exq | .gthr | .atom | .atoms | .lds | .codebook | .remapTab | .labelPage | .recPage | .egress => true
  | _ => false

/-- Completion times count at a scope: from partition upwards, and at cluster scope in an unfused cluster (R358). -/
def timesCount (s : State) (t scope : Nat) : Bool := 5 ≤ scope || (scope == 4 && !(s.cluster (s.clusterOf t)).fused)

/-- The five conditions of R359 for a thread at a scope. -/
def fenceDone (s : State) (t scope : Nat) : Bool :=
  let x := s.thread t
  s.accesses.all (fun e => e.2.thread != t || !(e.2.kind.binds || e.2.kind.isWrite)) &&
    (!timesCount s t scope || (x.writeG ≤ s.time && x.valueG ≤ s.time)) && x.pend == 0

/-- The interval and the published numbers of threads advance (R371). -/
def publishAll (scope : Nat) (s : State) (ts : List Nat) : State := ts.foldl (fun s t => s.modThread t (fun x => x.publish scope)) s

/-- The scope code of a FENCE. -/
def fenceScope (f : Fields) : Nat := f.bits 0 3 + 1

/-- What a FENCE of a scope waits for in a thread, or a DRAIN as scope 0, is over (R359, R381). -/
def orderDone (s : State) (t scope : Nat) : Bool := if scope = 0 then (s.ownWrites t).isEmpty else fenceDone s t scope

/-- The threads of a gang that issue the group's instruction. -/
def State.gangIssuers (s : State) (op : Nat) (f : Fields) (t : Nat) : List Nat :=
  s.group.filter (fun u => gangOf u == gangOf t && (s.thread u).sched == .ready && checkIn s op f [] [] u == .run)

/-- A FENCE or a DRAIN for one thread: each of its gang's issuing threads waits on its own accesses only, and those of one group go on together
(DEDUCED from steps 11 to 16 of the timeline of accum and from R425, log 16). -/
def orderEff (op scope : Nat) (e : Eff) (f : Fields) (s : State) (t : Nat) : Res :=
  if (s.gangIssuers op f t).all (fun u => orderDone s u scope) then .go e else .block (.together scope s.issue.serial)

def fenceEff (f : Fields) (s : State) (t : Nat) : Res := orderEff 0x340 (fenceScope f) {} f s t

def execFence (f : Fields) (s : State) : Host.Outcome State Fault Refusal :=
  .next (publishAll (fenceScope f) (runGroup 0x340 f [] [] (fenceEff f) s) (goers (judge s 0x340 f [] [] (fenceEff f))))

/-! Unit barriers (R377 to R379). -/

/-- The barrier, and its scope: U, or the written one where it is wider (R379). -/
def barNumber (f : Fields) : Nat := f.bits 0 4
def barScope (s : State) (g : Nat) (f : Fields) : Nat := max (if (s.unit (unitOf g)).resident then 4 else 3) (f.bits 4 4)

/-- The phase of a barrier of a gang's unit. -/
def State.phase (s : State) (g k : Nat) : Nat := tabGetD 0 (s.unit (unitOf g)).phases k

/-- The phase at which the gang arrived and which has not completed. -/
def openArrival (s : State) (g k : Nat) : Option Nat :=
  match tabGet (s.gang g).arrivals k with
  | some p => if s.phase g k = p then some p else none
  | none => none

/-- Every thread of a list blocks. -/
def blockAll (w : Why) (s : State) (ts : List Nat) : State := ts.foldl (fun s t => s.block t w) s

/-- Every thread of a list takes the gang's pending records, naming the instruction itself, which has no operand and whose guard is pt
(R276, R401). -/
def deliverAll (pc : Pc) (s : State) (ts : List Nat) : State := ts.foldl (fun s t => deliver s t pc 0) s

/-- Threads mark that they have passed the check point of their barrier, or that they have arrived. -/
def markPast (b : Bool) (s : State) (ts : List Nat) : State := ts.foldl (fun s t => s.modThread t (fun x => { x with pastCheck := b })) s

/-- A thread at the check point of its barrier takes the pending records; one that waits there for its fence is past it (R378). -/
def State.meetsCheck (s : State) (t : Nat) : Bool := !(s.thread t).pastCheck && s.mustDeliver t

/-- BAR or BARA for a gang whose hold has ended (R378): an open arrival blocks it, pending records are delivered, threads that have
still to fence leave the hold, past the check point, and then the gang arrives. -/
def arriveBar (op : Nat) (f : Fields) (waits : Bool) (s : State) (g : Nat) : State :=
  let h := s.heldAt g s.pc
  let k := barNumber f
  let sc := barScope s g f
  match openArrival s g k with
  | some p => blockAll (.barrier k p) s h
  | none =>
    if h.any s.meetsCheck then deliverAll s.pc s (h.filter s.meetsCheck)
    else if h.any (fun t => !fenceDone s t sc) then blockAll (.fence sc) (markPast true s h) (h.filter (fun t => !fenceDone s t sc))
    else
      let p := s.phase g k
      (publishAll sc (perform op f h (fun _ _ => { wait := if waits then some (.barrier k p) else none }) (markPast false s h)) h).modGang g
        (fun x => { x with arrivals := tabPut x.arrivals k p })

/-- BARW for a gang whose hold has ended: it waits where its arrival phase has not completed (R378). -/
def waitBar (f : Fields) (s : State) (g : Nat) : State :=
  perform 0x343 f (s.heldAt g s.pc) (fun _ _ => { wait := (openArrival s g (barNumber f)).map (Why.barrier (barNumber f)) }) s

/-- A barrier instruction issued for the group: held as a collective, then performed once for each gang whose hold has ended. -/
def runBar (op : Nat) (f : Fields) (act : State → Nat → State) (s : State) : State :=
  (gangsOf s.group).foldl (fun s' g => if s'.holdIssues g then act s' g else s') (arrive op f [] [] .held s)

def execBar (f : Fields) (s : State) : Host.Outcome State Fault Refusal := .next (runBar 0x341 f (arriveBar 0x341 f true) s)
def execBara (f : Fields) (s : State) : Host.Outcome State Fault Refusal := .next (runBar 0x342 f (arriveBar 0x342 f false) s)
def execBarw (f : Fields) (s : State) : Host.Outcome State Fault Refusal := .next (runBar 0x343 f (waitBar f) s)

/-- A barrier's phase completes: every gang of the unit that has not ended has arrived at it, and one has. -/
def phaseOver (s : State) (u : Nat) (x : Unit) (k : Nat) : Bool :=
  let gs := (s.gangsOfUnit u).filter (fun g => !(s.gang g).ended)
  x.live && !gs.isEmpty && gs.all (fun g => tabGet (s.gang g).arrivals k == some (tabGetD 0 x.phases k))

/-- The waiting threads of a unit at a phase of a barrier go on. -/
def completePhase (s : State) (u k : Nat) : State :=
  let p := tabGetD 0 (s.unit u).phases k
  let s := s.modUnit u (fun x => { x with phases := tabPut x.phases k ((p + 1) % 2 ^ 32) })
  (s.threadsOfUnit u).foldl (fun s t => if (s.thread t).sched == .blocked (.barrier k p) then s.unblock t else s) s

/-- The first phase that completes: its unit and its barrier. -/
def nextPhase (s : State) : Option (Nat × Nat) :=
  s.units.findSome? (fun e => ((List.range 16).find? (phaseOver s e.1 e.2)).map (fun k => (e.1, k)))

def execBarrierPhaseComplete (s : State) : Host.Outcome State Fault Refusal :=
  match nextPhase s with
  | some (u, k) => .next (completePhase s u k)
  | none => .next s

/-! DRAIN and FEWAIT (R381, R382). -/

def drainEff (f : Fields) (s : State) (t : Nat) : Res := orderEff 0x344 0 { check := true } f s t

def execDrain (f : Fields) (s : State) : Host.Outcome State Fault Refusal := .next (runGroup 0x344 f [] [] (drainEff f) s)

/-- The gang's copy commands that remain incomplete (R382). -/
def incompleteCopies (s : State) (g : Nat) : Nat := (s.copies.filter (fun e => e.2.supplied.contains g && !copyOver s e.2)).length

def fewaitEff (f : Fields) (s : State) (t : Nat) : Res :=
  let c := (read32 s t f.a).toNat
  if incompleteCopies s (gangOf t) ≤ c then .go {} else .block (.copies c)

def execFewait (f : Fields) (s : State) : Host.Outcome State Fault Refusal := .next (runGroup 0x345 f [] [] (fewaitEff f) s)

/-! The child table (R383). -/

/-- The core is a control core. -/
def isControl (core : Nat) : Bool := core % 5 == 4

/-- A free entry of a child table. -/
def freeChild (s : State) (core : Nat) : Option Nat :=
  (List.range 256).find? (fun e => match tabGet (s.core core).children e with
    | some c => c.level.isNone
    | none => true)

/-- The generation that an entry takes next. -/
def nextGen (s : State) (core e : Nat) : Nat :=
  match tabGet (s.core core).children e with
  | some c => (c.gen + 1) % 2 ^ 24
  | none => 0

/-- An entry taken for a level: its handle and the state. -/
def takeChild (s : State) (core e level unit : Nat) (nr : Bool) (l : Label) : Word × State :=
  let g := nextGen s core e
  (BitVec.ofNat 32 (g * 256 + e),
    s.modCore core (fun c => { c with children := tabPut c.children e { gen := g, level := some level, unit := unit, nr := nr, label := l } }))

/-- The entry that a handle names. -/
def childOf (s : State) (core : Nat) (h : Word) : Option Child :=
  match tabGet (s.core core).children (h.toNat % 256) with
  | some c => if c.gen = h.toNat / 256 && c.level.isSome then some c else none
  | none => none

/-! LAUNCH and GARM (R384 to R386). -/

/-- The tests of LAUNCH and GARM, the fence, the room in the child table, and the read that then leaves (R384). -/
def startEff (op : Nat) (kind : AKind) (f : Fields) (s : State) (t : Nat) : Res :=
  let a := (read64 s t f.a).toNat
  let q := (read32 s t f.b).toNat
  if !isControl (s.coreOf t) then .trap 21 1 false
  else if a % 64 != 0 || 2 ^ 48 ≤ a then .trap 21 2 false
  else if 255 < q then .trap 21 3 false
  else if !fenceDone s t 5 then .block (.fence 5)
  else if (freeChild s (s.coreOf t)).isNone then .block .child
  else
    let x : Access :=
      { kind := kind, thread := t, group := 0, pc := s.pc, op := op, f := f, addr := a, width := 64, label := labelOf s op f t, aux := q,
        inTrap := (s.thread t).inTrap }
    .go { accesses := [x], next := some s.pc, wait := some (.landing s.issue.serial) }

/-- The threads of a judgement whose fence is over: those that execute the instruction, and those that wait for the child table (R371, R384). -/
def fenced (l : List (Nat × Option Res)) : List Nat :=
  l.filterMap (fun x => match x.2 with
    | some (.go _) | some (.block .child) => some x.1
    | _ => none)

def runStart (op : Nat) (kind : AKind) (f : Fields) (s : State) : State :=
  publishAll 5 (runGroup op f [] [] (startEff op kind f) s) (fenced (judge s op f [] [] (startEff op kind f)))

def execLaunchI (f : Fields) (s : State) : Host.Outcome State Fault Refusal := .next (runStart 0x349 .launch f s)
def execGarm (f : Fields) (s : State) : Host.Outcome State Fault Refusal := .next (runStart 0x34A .graph f s)

/-- The launch level of a thread's unit. -/
def State.launchLevel (s : State) (t : Nat) : Nat := (s.launchOf t).level

/-- The record or image cannot be read: a load fault, the thread still at the instruction (R290, R384, R398). -/
def startFault (s : State) (id : Nat) (a : Access) (reason va : Nat) : State :=
  if s.sfqRoom a.thread then (loadFault s id a reason va).landed a else s

/-- The handle is written, and the thread goes on (R384). -/
def startDone (s : State) (id : Nat) (a : Access) (h : Word) (l : Label) : State :=
  (applyWrs true true a.thread ((s.dropAccess id).landed a) (wr32 a.f.d h (a.label ||| l))).modThread a.thread
    (fun x => { x with pc := nextPc a.pc })

/-- The level of a child launch: due at once with BAD_ENTRY where the record is no launch entry without flag bit 0. -/
def childLevel (s : State) (g : Nat) (bs : List Byte) : Level :=
  let x := (s.levelAt g).getD { kind := 2, ident := 0, parent := none, ep := 0, job := 0 }
  let ok := entryOk bs && entryKind bs == 1 && !entryWaits bs
  { kind := 1, ident := entryIdent bs, parent := some g, ep := x.ep, job := x.job,
    counter := if ok && !x.cancelled then entryUnits bs else 0, closed := true, ask := entryAsks bs,
    fail := if ok then none else some stBadEntry, cancelled := x.cancelled }

/-- LAUNCH's record arrives: a handle, and the child launch on the queue's device list or completed (R384, R386). It is read at L2, at device
scope: a copy that the core's L1 holds goes (R13, R356). -/
def landLaunch (s : State) (id : Nat) (a : Access) (pick : Pick) : State :=
  let t := a.thread
  let core := s.coreOf t
  match reach s core (s.partOf t) a.addr 64 (a.via pick) { r := true } with
  | .held va h level => holdAccess s id a va h level
  | .refused k va => startFault s id a k va
  | .ok ps =>
    match coreRead s core (s.partOf t) ps, freeChild s core, enclosing s (s.launchLevel t) 2 with
    | (none, s'), _, _ => startFault s' id a 1 a.addr
    | (some (bs, _), s'), some e, some g =>
      let x := childLevel s' g bs
      let n := newLevel (gainChildren s' g 1) x
      let c := takeChild n.2 core e n.1 (unitOfThread t) (a.f.bit 0) (pagesLabel ps ||| stackLabel s ps)
      let s2 := if x.due then c.2
        else joinDevice c.2 (s.partOf t) a.aux
          { bytes := bs, ep := x.ep, job := x.job, phase := (enclosing s g 3).getD 0, level := n.1, prev := none }
      startDone s2 id a c.1 (pagesLabel ps ||| stackLabel s ps)
    | _, _, _ => s

/-- The nodes of a GARM image after its header; an impossible count reads none. -/
def imageBytes (head : List Byte) : Nat :=
  let n := fieldAt head 0 2
  if n = 0 || 4096 < n then 0 else 128 * n

/-- The level of a graph armed by GARM: a graph of its own without an identifier (R385). -/
def armedLevel (s : State) (g : Nat) (r : Except (Nat × Nat) (List Node)) : Level :=
  let x := (s.levelAt g).getD { kind := 2, ident := 0, parent := none, ep := 0, job := 0 }
  { kind := 2, ident := 0, parent := some g, ep := x.ep, job := x.job, counter := 0, closed := true, hidden := true, armed := true,
    cancelled := x.cancelled
    fail := match r with
      | .error e => some e.1
      | .ok _ => none
    failIndex := match r with
      | .error e => e.2
      | .ok _ => noIndex }

/-- A GARM's image has been read: its handle, and the graph armed or failed (R385). -/
def armImage (s : State) (id : Nat) (a : Access) (e g : Nat) (head body : List Byte) (l : Label) : State :=
  let t := a.thread
  let r := checkImage (fieldAt head 0 2) head body
  let x := armedLevel s g r
  let n := newLevel s x
  let c := takeChild n.2 (s.coreOf t) e n.1 (unitOfThread t) (a.f.bit 0) l
  let s2 := match r with
    | .ok ns => if x.cancelled then c.2 else armGraph c.2 n.1 (s.partOf t) a.aux ((enclosing s g 3).getD 0) true ns
    | .error _ => c.2
  startDone s2 id a c.1 l

/-- GARM's reads: the header, then the nodes, at L2 as those of LAUNCH. -/
def landGarm (s : State) (id : Nat) (a : Access) (pick : Pick) : State :=
  let t := a.thread
  let core := s.coreOf t
  match reach s core (s.partOf t) a.addr 64 (a.via pick) { r := true } with
  | .held va h level => holdAccess s id a va h level
  | .refused k va => startFault s id a k va
  | .ok hs =>
    match coreRead s core (s.partOf t) hs with
    | (none, s') => startFault s' id a 1 a.addr
    | (some (head, _), s') =>
      match reach s' core (s.partOf t) (a.addr + 64) (imageBytes head) (a.via pick) { r := true } with
      | .held va h level => holdAccess s id a va h level
      | .refused k va => startFault s id a k va
      | .ok ps =>
        match coreRead s' core (s.partOf t) ps, freeChild s core, enclosing s (s.launchLevel t) 2 with
        | (none, s2), _, _ => startFault s2 id a 1 a.addr
        | (some (body, _), s2), some e, some g => armImage s2 id a e g head body (pagesLabel (hs ++ ps) ||| stackLabel s (hs ++ ps))
        | _, _, _ => s

/-! CNTRD and CANCEL (R388, R389). -/

/-- The level code of a form. -/
def levelCode (f : Fields) : Nat := f.bits 0 3

/-- The level that a thread's CNTRD or CANCEL names, with the label that comes with a handle. -/
def namedLevel (s : State) (f : Fields) (t : Nat) : Option (Nat × Label) :=
  if levelCode f = 0 then
    match childOf s (s.coreOf t) (read32 s t f.a) with
    | some c => c.level.map (fun k => (k, c.label))
    | none => none
  else (enclosing s (s.launchLevel t) (levelCode f)).map (fun k => (k, 0))

/-- The counter of a level as a word; no rule states the value of one that no word holds (log 4). -/
def counterWord (s : State) (n : Nat) : Word := if n < 2 ^ 32 then BitVec.ofNat 32 n else Config.freeCount s.issue.serial

/-- The value that CNTRD writes (table CNTRD Results). -/
def cntrdValue (s : State) (f : Fields) (t : Nat) : Word :=
  let st := f.bit 3
  match (namedLevel s f t).bind (fun k => s.levelAt k.1) with
  | none => if st then 0xFFFFFFFE else 0
  | some x =>
    match x.outcome with
    | none => if st then 0xFFFFFFFF else counterWord s x.counter
    | some v => if st then BitVec.ofNat 32 v else 0

def cntrdEff (f : Fields) (s : State) (t : Nat) : Res :=
  if levelCode f = 0 && !isControl (s.coreOf t) then .trap 21 1 false
  else .go { writes := wr32 f.d (cntrdValue s f t) (labelOf s 0x34B f t ||| ((namedLevel s f t).map Prod.snd).getD 0) }

/-- A CNTRD.CHILD.ST that has read a final status frees its entry (R383). -/
def freeRead (f : Fields) (s0 s : State) (t : Nat) : State :=
  if levelCode f = 0 && f.bit 3 then
    match (namedLevel s0 f t).bind (fun k => (s0.levelAt k.1).bind Level.outcome) with
    | some _ => s.modCore (s0.coreOf t) (fun c => { c with
        children := tabMod c.children ((read32 s0 t f.a).toNat % 256) (fun x => { x with level := none }) })
    | none => s
  else s

def execCntrd (f : Fields) (s : State) : Host.Outcome State Fault Refusal :=
  .next ((goers (judge s 0x34B f [] [] (cntrdEff f))).foldl (freeRead f s) (runGroup 0x34B f [] [] (cntrdEff f) s))

/-- The thread of the group whose cancel is decided first: the executing one on the lowest lane (R389). -/
def firstLane (s : State) (op : Nat) (f : Fields) : Option Nat :=
  (s.group.filter (fun t => (s.thread t).sched == .ready && checkIn s op f [] [] t == .run)).foldl (fun acc t => match acc with
    | none => some t
    | some u => if laneOf t < laneOf u then some t else some u) none

/-- This thread's cancel takes effect. -/
def cancelWins (s : State) (f : Fields) (t : Nat) : Bool :=
  firstLane s 0x34C f == some t && (match namedLevel s f t with
    | some k => cancelTakes s k.1
    | none => false)

def cancelEff (f : Fields) (s : State) (t : Nat) : Res :=
  if levelCode f = 0 && !isControl (s.coreOf t) then .trap 21 1 false
  else .go { writes := wrPred f.d (cancelWins s f t) (labelOf s 0x34C f t) }

def execCancelLevel (f : Fields) (s : State) : Host.Outcome State Fault Refusal :=
  .next ((goers (judge s 0x34C f [] [] (cancelEff f))).foldl (fun s' t =>
    if cancelWins s f t then (match namedLevel s f t with
      | some k => cancelAt s' k.1
      | none => s') else s') (runGroup 0x34C f [] [] (cancelEff f) s))

end Sys2Proof.Machine
end

