-- ==== Sys2Proof/Machine/System.lean ====
section
/-! DEFINITION. The system instructions: labels, EGRESS, regions, records, the return from a handler, termination and HALT; and the
events that open, commit, abort and restart regions (R396 to R423). -/

namespace Sys2Proof.Machine

/-! LBLRD and LBLTST (R416). -/

/-- The tile label of an operand: a register, a gang-uniform register or a predicate. -/
def operandLabel (s : State) (t : Nat) (o : Opnd) : Label :=
  let g := s.gang (gangOf t)
  match o with
  | .v n => g.tileLabel n.toNat
  | .s n => g.seenSregLabel (s.clkOf t) n.toNat
  | .k n => g.predLabel (n.toNat - 64)
  | .imm _ => 0

def opLabelPage : MemOp := { kind := .labelPage, op := 0x380, width := fun _ => 1, offset := false }

/-- LBLRD.PG leaves as a load that its thread waits for (R416). -/
def pageLabelEff (f : Fields) (s : State) (t : Nat) : Res :=
  match memEff opLabelPage f s t with
  | .go e => if e.accesses.isEmpty && !isUni f.d then .go e else .go { e with empties := [], wait := some (.landing s.issue.serial) }
  | x => x

/-- A label written with itself (R416). -/
def labelWrites (s : State) (f : Fields) (t : Nat) (x : Label) : Res :=
  .go { writes := wr32 f.d (x.setWidth 32) (labelOf s 0x380 f t ||| x) }

/-- LBLRD.SP: the label of the line that holds the offset, after the thread's own earlier accesses of it; the run's bounds are those of
R307. -/
def lineLabelEff (f : Fields) (s : State) (t : Nat) : Res :=
  let o := (read32 s t f.a).toNat
  let u := s.unit (unitOfThread t)
  if u.runBytes ≤ o then .trap 15 0 false
  else
    match s.accesses.find? (fun e => e.2.thread == t && e.2.kind.isScratch && e.2.addr / 128 == o / 128) with
    | some e => .block (.behind e.2.group)
    | none => labelWrites s f t (u.labelOf (o / 128))

def lblrdEff (f : Fields) (s : State) (t : Nat) : Res :=
  match f.bits 0 2 with
  | 0 => labelWrites s f t (operandLabel s t f.a)
  | 1 => labelWrites s f t (s.gang (gangOf t)).ctl
  | 2 => pageLabelEff f s t
  | _ => lineLabelEff f s t

def execLblrd (f : Fields) (s : State) : Host.Outcome State Fault Refusal := .next (runGroup 0x380 f [] [] (lblrdEff f) s)

/-- The label that LBLTST tests. -/
def testedLabel (s : State) (f : Fields) (t : Nat) : Label := if f.bit 0 then (s.gang (gangOf t)).ctl else operandLabel s t f.a

def lbltstWrites (f : Fields) (s : State) (t : Nat) : List Wr :=
  let y := testedLabel s f t
  wrPred f.d (y &&& ~~~((read32 s t f.b).setWidth 16) == 0) (labelOf s 0x381 f t ||| y)

def execLbltst (f : Fields) (s : State) : Host.Outcome State Fault Refusal := .next (runWrites 0x381 f [] (lbltstWrites f) s)

/-! EGRESS (R422). -/

/-- The end of a record's range, in bits: extent elements or rows from its base. -/
def Rec.endBits (r : Rec) : Nat :=
  8 * r.base + r.extent * (if r.stride = 0 || r.swizzle != 0 then elemBits r.size else 8 * r.stride)

/-- The bytes [a, a + n) leave the record's range. -/
def egressOob (s : State) (f : Fields) (t : Nat) : Bool :=
  let r := recOf s t f.a
  let n := (read32 s t f.c).toNat
  n = 0 || 65504 < n || r.oob (read32 s t f.b).toNat 0 n || decide ((r.endBits : Int) < 8 * (r.addr (read32 s t f.b).toNat 0 + n))

def egressEff (f : Fields) (s : State) (t : Nat) : Res :=
  let l := labelOf s 0x382 f t
  let r := recOf s t f.a
  if r.bad then .trap 12 0 false
  else if egressOob s f t then (if r.trap then .trap 13 0 false else .go { writes := wr32 f.d 0 l })
  else
    let a : Access :=
      { kind := .egress, thread := t, group := 0, pc := s.pc, op := 0x382, f := f, addr := (r.addr (read32 s t f.b).toNat 0).toNat,
        width := (read32 s t f.c).toNat, label := l, aux := f.bits 0 6, inTrap := (s.thread t).inTrap }
    .go { empties := opndRegs (slotsOf 0x382 f).d f.d, accesses := [a] }

def execEgress (f : Fields) (s : State) : Host.Outcome State Fault Refusal := .next (runGroup 0x382 f [] [] (egressEff f) s)

/-- The decision on an EGRESS: an empty peer entry refuses with reason 1 (R423). -/
def decideEgress (s : State) (a : Access) (l : Label) : Option Nat × State :=
  let part := s.partOf a.thread
  match tabGet (s.part part).peers a.aux with
  | some p =>
    if p.mask = 0 then
      (some 1, logRefusal s part
        { time := s.ns, addr := a.addr, label := l, path := 5, reason := 1, peer := a.aux, policy := 0xFF, bytes := a.width })
    else release s part l (some a.aux) a.addr a.width 5 a.aux
  | none =>
    (some 1, logRefusal s part
      { time := s.ns, addr := a.addr, label := l, path := 5, reason := 1, peer := a.aux, policy := 0xFF, bytes := a.width })

/-- EGRESS at its landing: the bytes are read, the transfer is decided, and the status comes back (R422). -/
def landEgress (s : State) (id : Nat) (a : Access) (pick : Pick) : State :=
  let part := s.partOf a.thread
  match reach s (s.coreOf a.thread) part a.addr a.width (a.via pick) { r := true } with
  | .held va h level => holdAccess s id a va h level
  | .refused k va => loadFault s id a k va
  | .ok ps =>
    match readAll s a ps pick with
    | (none, s') => loadFault s' id a 1 a.addr
    | (some (bs, g), s') =>
      let l := a.label ||| pagesLabel ps ||| stackLabel s ps
      let d := decideEgress (racePieces s' a ps .load) a l
      let s2 := (d.2.dropAccess id).sawG a.thread g
      match d.1 with
      | some k => fill s2 a (wr32 a.f.d (BitVec.ofNat 32 (0x10 + k)) a.label)
      | none =>
        let dest := ((tabGet (s.part part).peers a.aux).map Peer.addr).getD 0
        fill (sendPlain s2 (s.threadEp a.thread) dest { blankOut 3 stOk with detail := 2, payload := bs }) a (wr32 a.f.d 1 a.label)

/-! Regions (R409, R417). -/

/-- RGN for a gang whose hold has ended. -/
def enterRegion (f : Fields) (s : State) (g : Nat) : State :=
  let h := s.heldAt g s.pc
  if (s.gang g).inRegion then h.foldl (fun s' t => applyTrap 0x383 f s t 22 1 false (s'.unblock t)) s
  else if h.any (fun t => !(s.ownWrites t).isEmpty) then blockAll .writes s (h.filter (fun t => !(s.ownWrites t).isEmpty))
  else if h.any s.mustDeliver then deliverAll s.pc s (h.filter s.mustDeliver)
  else
    (perform 0x383 f h (fun _ _ => { wait := some .region }) s).modGang g
      (fun x => { x with inRegion := true, rgn := true, rgne := false, regionEntry := nextPc s.pc })

/-- RGNE for a gang whose hold has ended. -/
def leaveRegion (f : Fields) (s : State) (g : Nat) : State :=
  let h := s.heldAt g s.pc
  if !(s.gang g).inRegion then h.foldl (fun s' t => applyTrap 0x384 f s t 22 2 false (s'.unblock t)) s
  else if h.any (fun t => !(s.ownWrites t).isEmpty) then blockAll .writes s (h.filter (fun t => !(s.ownWrites t).isEmpty))
  else if h.any s.mustDeliver then deliverAll s.pc s (h.filter s.mustDeliver)
  else (perform 0x384 f h (fun _ _ => { wait := some .region }) s).modGang g (fun x => { x with rgne := true })

def execRgn (f : Fields) (s : State) : Host.Outcome State Fault Refusal := .next (runBar 0x383 f (enterRegion f) s)
def execRgne (f : Fields) (s : State) : Host.Outcome State Fault Refusal := .next (runBar 0x384 f (leaveRegion f) s)

/-- The threads of a unit that wait for its region go on. -/
def releaseRegion (s : State) (u : Nat) : State :=
  (s.threadsOfUnit u).foldl (fun s t => if (s.thread t).sched == .blocked .region then s.unblock t else s) s

/-- Every gang of the unit that has not ended passes a test, and there is one. -/
def gangsAll (s : State) (u : Nat) (p : Gang → Bool) : Bool :=
  let gs := (s.gangsOfUnit u).filter (fun g => !(s.gang g).ended)
  !gs.isEmpty && gs.all (fun g => p (s.gang g))

/-- The first unit whose region opens: every live gang has performed RGN. -/
def execRegionOpen (s : State) : Host.Outcome State Fault Refusal :=
  match firstWith s.units (fun u x => x.live && !x.regionOpen && gangsAll s u Gang.rgn) with
  | some e => .next (releaseRegion (s.modUnit e.1 (fun u => { u with regionOpen := true })) e.1)
  | none => .next s

/-- A region committed: its gangs are outside. -/
def commitRegion (s : State) (u : Nat) : State :=
  let s := (s.gangsOfUnit u).foldl (fun s g => s.modGang g (fun x => { x with inRegion := false, rgn := false, rgne := false })) s
  releaseRegion (s.modUnit u (fun x => { x with regionOpen := false })) u

/-- The first unit whose region commits: it is open, no page aborts it, and every live gang has performed RGNE (R409, R410). -/
def execRegionCommit (s : State) : Host.Outcome State Fault Refusal :=
  match firstWith s.units (fun u x => x.live && x.regionOpen && x.awaits.isEmpty && gangsAll s u Gang.rgne) with
  | some e => .next (commitRegion s e.1)
  | none => .next s

/-- What a unit that leaves its slots for a while keeps: tables by gang number and by thread number within the unit. -/
def unitGangs (s : State) (u : Nat) : Tab Gang := (s.gangs.filter (fun e => unitOf e.1 == u)).map (fun e => (e.1 - 32 * u, e.2))
def unitThreads (s : State) (u : Nat) : Tab Thread :=
  (s.threads.filter (fun e => unitOfThread e.1 == u)).map (fun e => (e.1 - 1024 * u, e.2))

/-- The job of a launch level. -/
def jobOfLevel (s : State) (k : Nat) : Nat := ((s.levelAt k).map Level.job).getD 0

/-- The copies of a unit stop; those of an aborted unit end as cancelled (R410 step 4). -/
def stopUnitCopies (s : State) (u : Nat) : State :=
  { s with copies := tabMap (fun c : Copy =>
      if (c.unit.map Prod.fst) == some u && !c.done && c.stop.isNone then { c with stop := some 5 } else c) s.copies }

/-- A unit aborted: its writes in flight and its records are gone, its copies stop, its slots are free, and a restart entry stands
for it (R410 steps 2 to 5). -/
def abortUnit (s : State) (u : Nat) (wanted : Bool) : State :=
  let x := s.unit u
  let l := (s.launch x.launch).level
  let entry : Saved :=
    { ep := s.launchEp x.launch, job := jobOfLevel s l, unitNo := u, unit := { x with run := [] }, restart := true, gangs := unitGangs s u,
      threads := [], accesses := [], records := [], codebooks := [], remap := {}, wanted := wanted, savedAt := s.time }
  let n := (releaseUnit (stopUnitCopies s u) u).takeId
  n.2.setSaved n.1 entry

/-- The first unit that a not-present page aborts. -/
def execRegionAbort (s : State) : Host.Outcome State Fault Refusal :=
  match firstWith s.units (fun _ x => x.live && !x.awaits.isEmpty) with
  | some e => .next (abortUnit s e.1 true)
  | none => .next s

/-- The next dispatch where it is that of a restart entry (R410 step 6). -/
def execRegionRestart (s : State) : Host.Outcome State Fault Refusal :=
  match nextDispatch s with
  | some x =>
    match x.offer with
    | .again _ old => if old.restart then .next (dispatchAt s x) else .next s
    | .fresh _ => .next s
  | none => .next s

/-! Records (R399, R418). -/

/-- The 288 bits of a record, with the number that remain after it (table Store-Fault Record). -/
def Record.bits (r : Record) (left : Nat) : Nat :=
  r.kind % 2 ^ 8 + r.lane % 2 ^ 5 * 2 ^ 8 + r.bytes % 2 ^ 5 * 2 ^ 13 + r.type % 2 ^ 4 * 2 ^ 18 + left % 2 ^ 6 * 2 ^ 22 + r.reason % 2 ^ 4 * 2 ^ 28 +
    r.addr % 2 ^ 48 * 2 ^ 32 + r.label.toNat * 2 ^ 80 + r.pc.toNat * 2 ^ 96 + r.op % 2 ^ 10 * 2 ^ 144 + r.data % 2 ^ 128 * 2 ^ 160

/-- The oldest record of a gang leaves its core's queue. -/
def State.popRecord (s : State) (g : Nat) : State :=
  s.modCore (s.coreOfGang g) (fun c => Core.refill { c with sfq := c.sfq.eraseIdx (c.sfq.findIdx (fun r => r.gang == g)) })

/-- SFQPOP's writes for one thread: the same nine registers for every thread that executes it, and the predicate (R85, R418). -/
def sfqpopWrites (f : Fields) (s : State) (t : Nat) : List Wr :=
  let rs := s.pendingRecords (gangOf t)
  let l := labelOf s 0x385 f t
  let e := f.bits 0 3
  match rs with
  | [] => [.pred e false l]
  | r :: rest =>
    let n := r.bits rest.length
    (List.range 9).map (fun w => .uni (uniIx f.d + w) (BitVec.ofNat 32 (n / 2 ^ (32 * w) % 2 ^ 32)) (l ||| r.label)) ++
      [.pred e true (l ||| r.label)]

/-- SFQPOP for the threads of one gang: its oldest record is popped once (R418). -/
def runSfqpop (f : Fields) (s : State) : State :=
  let e := f.bits 0 3
  let s' := runWrites 0x385 f (modPred e) (sfqpopWrites f) s
  match goers (judge s 0x385 f (modPred e) [] (fun s t => .go { writes := sfqpopWrites f s t })) with
  | [] => s'
  | t :: _ => if (s.pendingRecords (gangOf t)).isEmpty then s' else s'.popRecord (gangOf t)

def execSfqpop (f : Fields) (s : State) : Host.Outcome State Fault Refusal := .next (runPerGang (runSfqpop f) s)

/-! RFT (R419). -/

def rftEff (s : State) (t : Nat) : Res :=
  let x := s.thread t
  if !x.inTrap then .trap 22 3 false
  else if x.trappc.toNat % 4 != 0 then .trap 3 (x.trappc.setWidth 32) false
  else .go { next := some x.trappc }

def execRft (f : Fields) (s : State) : Host.Outcome State Fault Refusal :=
  .next ((goers (judge s 0x386 f (List.range 7) [] rftEff)).foldl leaveTrap (runGroup 0x386 f (List.range 7) [] rftEff s))

/-! Termination and HALT (R420, R421). -/

/-- The threads of the group that execute. -/
def executing (op : Nat) (f : Fields) (s : State) : List Nat := goers (judge s op f [] [] (fun _ _ => .go {}))

def execTermG (f : Fields) (s : State) : Host.Outcome State Fault Refusal :=
  .next ((gangsOf (executing 0x387 f s)).foldl State.terminateGang (runGroup 0x387 f [] [] (fun _ _ => .go {}) s))

def execTermU (f : Fields) (s : State) : Host.Outcome State Fault Refusal :=
  .next ((distinct ((executing 0x388 f s).map unitOfThread)).foldl State.terminateUnit (runGroup 0x388 f [] [] (fun _ _ => .go {}) s))

/-- The thread that a HALT's notice names: the lowest gang, then the lowest lane. -/
def firstThread (ts : List Nat) : Nat := ts.foldl min (ts.headD 0)

/-- The payload of a HALT notice. -/
def haltPayload (s : State) (t code : Nat) (pc : Pc) : List Byte :=
  leBytes 4 (s.unit (unitOfThread t)).unitid ++ leBytes 1 (gangidOf (gangOf t)) ++ leBytes 1 (laneOf t) ++ leBytes 2 (code % 2 ^ 13) ++
    leBytes 8 pc.toNat

/-- One unit halted from the next clk on, with its notice; one that a group of the same clk has halted sends no second (R421). -/
def haltUnit (f : Fields) (ts : List Nat) (pc : Pc) (s : State) (u : Nat) : State :=
  let n := (s.unit u).launch
  let t := firstThread (ts.filter (fun t => unitOfThread t == u))
  if (s.unit u).halted then s
  else notice (s.modUnit u (fun x => { x with halted := true, haltedFrom := s.clkOfUnit u + 5 })) (s.launchEp n) 1 (s.launch n).ident 0x200 (haltPayload s t f.low pc)

def execHalt (f : Fields) (s : State) : Host.Outcome State Fault Refusal :=
  let ts := executing 0x389 f s
  .next ((distinct (ts.map unitOfThread)).foldl (haltUnit f ts s.pc) (runGroup 0x389 f [] [] (fun _ _ => .go {}) s))

end Sys2Proof.Machine
end

