-- ==== Sys2Proof/Machine/Landing.lean ====
section
/-! DEFINITION. The events that land accesses: loads, writes, atomics, exact-path results, and the replay of held accesses (R123,
R210, R291, R308, R309, R357, R408). -/

namespace Sys2Proof.Machine

/-- The access reaches a physical address past its partition's stacks. -/
def pastMemory (s : State) (a : Access) : Bool :=
  a.kind.isMem && !a.oob && (match reach s (s.coreOf a.thread) (s.partOf a.thread) a.addr a.width { pins := a.pins } {} with
    | .ok ps => outside s (s.partOf a.thread) ps
    | _ => false)

/-- A value returns to its thread (R123). -/
def landValue (s : State) (id : Nat) (a : Access) (pick : Pick) (x : Nat) : State :=
  match a.kind with
  | .load | .ldx | .gthr => landLoad s id a pick x
  | .exq => landExq s id a pick
  | .recPage | .labelPage => landPage s id a pick
  | .lds => landLds s id a
  | .egress => landEgress s id a pick
  | .launch => landLaunch s id a pick
  | .graph => landGarm s id a pick
  | _ => s

/-- A write is performed or refused (R357). -/
def landWrite (s : State) (id : Nat) (a : Access) (pick : Pick) (x : Nat) : State :=
  match a.kind with
  | .store | .stx => landStore s id a pick x
  | .erase => landErase s id a pick
  | .sts => landSts s id a
  | .sfill | .sempty => landMark s id a
  | _ => s

/-- An atomic is performed or refused (R308). -/
def landRmw (s : State) (id : Nat) (a : Access) (pick : Pick) (_ : Nat) : State :=
  match a.kind with
  | .atom | .red => landAtomic s id a pick
  | .atoms | .reds => landAtoms s id a
  | _ => s

/-- One access of a sector access lands, where nothing stands before it. One whose conflict makes a RACE record waits while its core's
queue is full (R374, R400). -/
def landOne (land : State → Nat → Access → Pick → Nat → State) (pick : Pick) (x : Nat) (s : State) (id : Nat) : State :=
  match tabGet s.accesses id with
  | some a =>
    if enabled s id a then s.orWait (s.coreOf a.thread) (land s id a pick x) else s
  | none => s

/-- A landing of an access that nothing earlier stands before, and with it of the accesses of its gang pass in the same sector, in the order
of the group (R234, R236); past the partition's memory there is nothing to land on. -/
def landWith (land : State → Nat → Access → Pick → Nat → State) (id : Nat) (pick : Pick) (s : State) : Host.Outcome State Fault Refusal :=
  match tabGet s.accesses id with
  | some a =>
    let l := s.mates id a (a.sector pick)
    if !enabled s id a then .next s
    else if l.any (fun j => ((tabGet s.accesses j).map (pastMemory s)).getD false) then .fault .noSuchMemory
    else .next (l.foldl (landOne land pick (a.sector pick)) s)
  | none => .next s

def execLoadWriteback (id : Nat) (pick : Pick) (s : State) : Host.Outcome State Fault Refusal := landWith landValue id pick s
def execWritePerform (id : Nat) (pick : Pick) (s : State) : Host.Outcome State Fault Refusal := landWith landWrite id pick s
def execAtomicPerform (id : Nat) (pick : Pick) (s : State) : Host.Outcome State Fault Refusal := landWith landRmw id pick s

/-- An exact-path result is written back with its events; one that is discarded counts none (R188, R192, R210). -/
def landExact (s : State) (id : Nat) (a : Access) : State :=
  let s' := s.dropAccess id
  let written := isUni a.f.d || (s.thread a.thread).sched != .exited
  fill (if written then s'.countEvents (s.unit (unitOfThread a.thread)).launch a.events else s') a (wr32 a.f.d a.value a.label)

def execExactPathWriteback (id : Nat) (s : State) : Host.Outcome State Fault Refusal :=
  match tabGet s.accesses id with
  | some a => if a.kind == .exact && a.due ≤ s.time then .next (landExact s id a) else .next s
  | none => .next s

/-- The page that an access is held on is present, and the MAP that brought it is complete (R249). -/
def pageBack (s : State) (a : Access) : Bool :=
  !s.shootingOver (s.partOf a.thread) a.heldVa && (match walk s (s.partOf a.thread) a.heldVa with
    | .absent _ _ => false
    | _ => true)

/-- The first held access whose page is present leaves its hold; its own event then performs it (R408). -/
def execHeldAccessReplay (s : State) : Host.Outcome State Fault Refusal :=
  match firstWith s.accesses (fun _ a => a.held && pageBack s a) with
  | some e => .next (s.setAccess e.1 { e.2 with held := false })
  | none => .next s

end Sys2Proof.Machine
end

