-- ==== Sys2Proof/Machine/Save.lean ====
section
/-! DEFINITION. Pre-emption: quiescence of a unit or a job, the saved context and the save area, RESUME_JOB's restoration, and the
disabling of an endpoint (R57 to R59, R390, R411 to R414). -/

namespace Sys2Proof.Machine

/-! Units and copies of a job. -/

/-- The job level of a unit. -/
def jobOfUnit (s : State) (x : Unit) : Nat := jobOfLevel s (s.launch x.launch).level

/-- The live units of a job. -/
def unitsOfJob (s : State) (job : Nat) : List Nat := (s.units.filter (fun e => e.2.live && jobOfUnit s e.2 == job)).map Prod.fst

/-- A copy entry's command belongs to the job. -/
def copyInJob (s : State) (job : Nat) (c : Copy) : Bool :=
  match c.level with
  | some k => !c.done && jobOfLevel s k == job
  | none => false

/-- The copy belongs to the unit. -/
def copyOfUnit (u : Nat) (c : Copy) : Bool := (c.unit.map Prod.fst) == some u

/-- A journal entry: the command as it stands at the first chunk not yet written of each slice, on no engine (R323). A chunk whose completion
time has not passed is carried again. -/
def Copy.journal (now : Nat) (c : Copy) : Copy :=
  let l := c.slices.map (fun x => x.settle now)
  { c with engine := none, journalOf := none, slices := l.map (fun x => { x with pending := 0 }),
           bytes := c.bytes - (l.map CopySlice.pending).foldl (· + ·) 0 }

/-! Quiescence (R411). -/

/-- A unit stops issuing and its copies leave their engines; a unit with a gang inside a region is aborted instead and kept as a
restart entry (R411 steps 1, 2 and 4). -/
def quiesceUnit (s : State) (u : Nat) : State :=
  if !(s.unit u).live then s
  else if (s.gangsOfUnit u).any (fun g => (s.gang g).inRegion && !(s.gang g).ended) then abortUnit s u false
  else
    let s := s.modUnit u (fun x => { x with stopped := true, stoppedAt := if x.stopped then x.stoppedAt else s.time })
    { s with copies := tabMap (fun c : Copy => if copyOfUnit u c && !c.done then { c with engine := none, journalOf := none } else c) s.copies }

/-- A job stops: nothing more of it starts, its units stop, its restart entries wait for RESUME_JOB, and its copy entries' commands go
into its journal. -/
def quiesceJob (s : State) (ep j : Nat) (x : Job) : State :=
  let mine := s.copies.filter (fun e => copyInJob s x.level e.2)
  let s := { s with
    copies := s.copies.filter (fun e => !copyInJob s x.level e.2)
    saved := tabMap (fun y : Saved => if y.job = x.level then { y with wanted := false } else y) s.saved }
  let s := s.modEndpoint ep (fun e => { e with jobs := tabPut e.jobs j { x with saved := true, copies := tabMap (Copy.journal s.time) mine } })
  (unitsOfJob s x.level).foldl quiesceUnit s

/-- The unit has performed its writes, atomics and exact-path results, has written its pending predicates (R292), and its
matrix operations have completed (R411 step 3). Held accesses and reads become replay entries. -/
def drained (s : State) (u : Nat) : Bool :=
  s.accesses.all (fun e => unitOfThread e.2.thread != u || e.2.held || !(e.2.kind.isWrite || e.2.kind == .exact || e.2.kind == .ldx)) &&
    s.clusters.all (fun c => c.2.mma.all (fun o => o.2.unit != u))

/-- The context that a unit takes along: codebooks by slot, and remap state where its launch owns it (R412). -/
def savedBooks (s : State) (core launch : Nat) : Tab Codebook :=
  let n := contextOf s core launch
  ((s.core core).codebooks.filter (fun e => e.1 / 64 == n)).map (fun e => (e.1 % 64, e.2))

def savedRemap (s : State) (core launch : Nat) : Remap :=
  if (s.core core).remap.owner == some launch then (s.core core).remap else {}

/-- A thread as it is saved: its open frames are disturbed (R220). -/
def Thread.saved (x : Thread) : Thread := { x with frames := x.frames.map (fun f => { f with disturbed := true }) }

/-- A replay entry: it starts afresh, its translations forgotten (R244, R412). -/
def Access.saved (a : Access) : Access := { a with got := [], gotG := 0, pins := [], wasSaved := true }

/-- A LAUNCH or a GARM of a unit whose handle is not written is executed again after the save: its read is gone (R390). -/
def dropStarts (s : State) (u : Nat) : State :=
  (s.accesses.filter (fun e => unitOfThread e.2.thread == u && (e.2.kind == .launch || e.2.kind == .graph))).foldl
    (fun s e => (s.dropAccess e.1).landed e.2) s

/-- A drained unit leaves its slots with everything that the table Saved Context lists. -/
def saveUnit (s0 : State) (u : Nat) : State :=
  let s := dropStarts s0 u
  let x := s.unit u
  let core := (s.unitCores u).headD 0
  let l := (s.launch x.launch).level
  let entry : Saved :=
    { ep := s.launchEp x.launch, job := jobOfLevel s l, unitNo := u, unit := x, restart := false, gangs := unitGangs s u,
      threads := tabMap Thread.saved (unitThreads s u),
      accesses := tabMap Access.saved (s.accesses.filter (fun e => unitOfThread e.2.thread == u)),
      records := (s.gangsOfUnit u).flatMap (fun g => s.pendingRecords g ++ s.lateRecords g), codebooks := savedBooks s core x.launch, remap := savedRemap s core x.launch,
      copies := tabMap (Copy.journal s.time) (s.copies.filter (fun e => copyOfUnit u e.2 && !e.2.done)),
      children := if isControl core then (s.core core).children else [], savedAt := x.stoppedAt }
  let s := { s with copies := s.copies.filter (fun e => !(copyOfUnit u e.2 && !e.2.done)) }
  let n := (releaseUnit s u).takeId
  n.2.setSaved n.1 entry

/-! The save area (R412, R413; log 14). -/

/-- The saved units of a job. -/
def savedOfJob (s : State) (job : Nat) : List Saved := (s.saved.filter (fun e => e.2.job == job)).map Prod.snd

/-- The cores of a saved unit, as its contexts count. -/
def coresOf (x : Unit) : List Nat :=
  if x.resident then (List.range 4).map (fun c => 5 * x.clusterNo + c) else [5 * x.clusterNo + x.core]

/-- The bytes that units and their contexts need (R413). -/
def saveNeed (l : List Unit) : Nat :=
  4096 + (l.map (fun x => 4096 + x.gangs * (136 * x.regs + 16384) + 136 * ((x.runBytes + 127) / 128))).sum +
    20480 * (distinct (l.flatMap (fun x => (coresOf x).map (fun c => c + 480 * x.launch)))).length

/-- The units that a save of a job takes. -/
def unitsToSave (s : State) (job : Nat) : List Unit :=
  (savedOfJob s job).filterMap (fun x => if x.restart then none else some x.unit) ++ (unitsOfJob s job).map s.unit

/-- The registered area is large enough, and its pages are present and read-write (R413). -/
def areaValid (s : State) (x : Job) : Bool :=
  match x.saveArea with
  | some (va, n) =>
    let need := saveNeed (unitsToSave s x.level)
    need ≤ n && (match reach s 0 x.areaPart va need {} { r := true, w := true } with
      | .ok ps => !ps.any Piece.isRemote
      | _ => false)
  | none => false

/-- The image of a save written into the area of its job. -/
def writeImage (s : State) (ep j : Nat) (x : Job) : State :=
  match x.saveArea with
  | none => s
  | some (va, _) =>
    let n := saveNeed (unitsToSave s x.level)
    match reach s 0 x.areaPart va n {} { r := true, w := true } with
    | .ok ps =>
      let w := writePieces s none x.areaPart ps ((List.range n).map (Config.saveByte s.fresh))
      (w.2.setFresh (s.fresh + 1)).modEndpoint ep (fun e => { e with jobs := tabPut e.jobs j { x with image := some (s.fresh, n) } })
    | _ => s

/-- The area of a job still holds the image of its save (R412). -/
def imageIntact (s : State) (x : Job) : Bool :=
  match x.image, x.saveArea with
  | some (no, n), some (va, size) =>
    n ≤ size && (match reach s 0 x.areaPart va n {} { r := true } with
      | .ok ps => ps.flatMap (pieceBytes s) == (List.range n).map (Config.saveByte no)
      | _ => false)
  | some _, none => false
  | none, _ => true

/-- A saved job whose units have all left their slots and whose image has not been written. -/
def imageDue (s : State) (x : Job) : Bool := x.saved && x.image.isNone && (unitsOfJob s x.level).isEmpty && areaValid s x

/-- The partition of an endpoint. -/
def partOfEp (s : State) (ep : Nat) : Nat := ((s.endpoint ep).bound).getD 0

/-- The first unit that quiescence has stopped and that has drained. -/
def savable (s : State) : Option Nat := (firstWith s.units (fun u x => x.live && x.stopped && drained s u)).map Prod.fst

/-- The first saved job whose image is to be written. -/
def imagable (s : State) : Option (Nat × Nat × Job) :=
  s.endpoints.findSome? (fun e => (firstWith e.2.jobs (fun _ x => imageDue s x)).map (fun y => (e.1, y)))

/-- What quiescence has under way takes its next step: a drained unit is saved, or the image of a saved job is written. -/
def quiesceStep (s : State) : State :=
  match savable s with
  | some u => saveUnit s u
  | none =>
    match imagable s with
    | some (ep, j, x) => writeImage s ep j x
    | none => s

/-- The request: the units stop. -/
def quiesceStart (s : State) (q : Quiesce) : State :=
  match q with
  | .unit u => quiesceUnit s u
  | .job ep j =>
    match tabGet (s.endpoint ep).jobs j with
    | some x => if x.saved then s else quiesceJob s ep j x
    | none => s

/-- A quiescence that has been requested goes on until its unit, or every unit of its job, is saved. -/
def execQuiescence (q : Quiesce) (s : State) : Host.Outcome State Fault Refusal :=
  if (savable s).isSome || (imagable s).isSome then .next (quiesceStep s) else .next (quiesceStart s q)

/-! Resumption (R59, R412, R414). -/

/-- The job has saved state at the endpoint. -/
def hasSaved (s : State) (x : Job) : Bool := x.saved || s.saved.any (fun e => e.2.job == x.level && !e.2.wanted)

/-- The units of a saved job wait for slots, and its journal goes back to the engines. -/
def resumeJob (s : State) (ep j : Nat) (x : Job) : State :=
  let s := { s with saved := tabMap (fun y : Saved => if y.job = x.level then { y with wanted := true } else y) s.saved }
  let s := x.copies.foldl (fun s c => s.setCopy c.1 c.2) s
  s.modEndpoint ep (fun e => { e with jobs := tabPut e.jobs j { x with saved := false, image := none, copies := [] } })

/-- The argument areas of the launches of some levels freed (R451). -/
def freeAreas (s : State) (ls : List Nat) : State :=
  (s.launches.filter (fun e => ls.contains e.2.level && e.2.argBytes != 0)).foldl (fun s e => freeWindow s e.2.part e.2.argBase) s

/-- A job discarded: nothing of it is left, and no message is sent of it (R59, R412). -/
def discardJob (s : State) (ep j : Nat) (x : Job) : State :=
  let s := cancelAt s x.level
  let ls := withDescendants s x.level
  let s := freeAreas s (ls.filter (fun k => ((s.levelAt k).map (fun y => y.status.isNone)).getD false))
  let s := ls.foldl (fun s k => s.modLevel k (fun y => { y with ask := false })) s
  let s := ls.foldl (fun s k => s.modLevel k (fun y => if y.status.isSome then y else { y with status := some stCancelled, counter := 0 })) s
  (dropEntries s ls).modEndpoint ep (fun e => { e with jobs := tabDel e.jobs j })

/-! Endpoint disable (R58). -/

/-- A job cancelled on behalf of the device: it completes with a status of its own. -/
def cancelJobAs (s : State) (k status : Nat) : State :=
  (cancelAt s k).modLevel k (fun x => { x with cancelled := false, fail := some status })

/-- The job has units, copies, or units that wait to be dispatched again, in flight. -/
def inFlight (s : State) (x : Job) : Bool :=
  !(unitsOfJob s x.level).isEmpty || s.copies.any (fun e => copyInJob s x.level e.2) || s.saved.any (fun e => e.2.job == x.level && e.2.wanted)

/-- The device is ending the job already. -/
def jobEnding (y : Level) : Bool := y.cancelled || y.fail == some stEndpointDisabled || y.fail == some stPartitionGone

/-- The first job of an endpoint that is to be quiesced. -/
def jobToQuiesce (s : State) (ep : Nat) : Option (Nat × Job) :=
  firstWith (s.endpoint ep).jobs (fun _ x => !x.saved && inFlight s x && ((s.levelAt x.level).map (fun y => !jobEnding y)).getD false)

/-- One job quiesced and to be saved, or cancelled where its area will not hold it (R58 steps 3 and 4). -/
def disableJob (s : State) (ep j : Nat) (x : Job) : State :=
  if areaValid s x then quiesceJob s ep j x else cancelJobAs s x.level stEndpointDisabled

/-- A saved job has work whose image is still to be written. -/
def imageWaits (s : State) (x : Job) : Bool := x.saved && x.image.isNone && !((savedOfJob s x.level).isEmpty && x.copies.isEmpty)

/-- The first saved job of an endpoint that its area will not hold, its units having left their slots. -/
def strandedJob (s : State) (ep : Nat) : Option Job :=
  (firstWith (s.endpoint ep).jobs (fun _ x => imageWaits s x && (unitsOfJob s x.level).isEmpty && !areaValid s x &&
    ((s.levelAt x.level).map (fun y => !jobEnding y)).getD false)).map Prod.snd

/-- Every job of the endpoint is saved, idle or gone. -/
def endpointStill (s : State) (ep : Nat) : Bool :=
  (s.endpoint ep).jobs.all (fun e => !inFlight s e.2 && !imageWaits s e.2) &&
    s.levels.all (fun l => !(l.2.ep == ep && l.2.due)) && (s.endpoint ep).running.isEmpty

/-- The final notice; then the endpoint sends nothing more (R58 step 6). It takes the endpoint's next number, and carries that number, the last
one, as its detail: DESIGN CHOICE (log 28). -/
def finishDisable (s : State) (ep : Nat) : State :=
  (sendNumbered s ep { blankOut 3 stEndpointDisabled with detail := (s.endpoint ep).nextDev }).modEndpoint ep (fun e => { e with disabling := false })

/-- The first endpoint that is being disabled takes its next step. -/
def execEndpointDisable (s : State) : Host.Outcome State Fault Refusal :=
  match firstWith s.endpoints (fun _ e => e.disabling) with
  | none => .next s
  | some (ep, _) =>
    match jobToQuiesce s ep with
    | some (j, x) => .next (disableJob s ep j x)
    | none =>
      match strandedJob s ep with
      | some x => .next (cancelJobAs s x.level stEndpointDisabled)
      | none => if endpointStill s ep then .next (finishDisable s ep) else .next s

end Sys2Proof.Machine
end

