-- ==== Sys2Proof/Machine/Commands.lean ====
section
/-! DEFINITION. Command endpoints: how a message is received, sequenced, checked, acknowledged and completed, and the unsequenced
commands (R34, R37 to R43, R57, R64, R449). -/

namespace Sys2Proof

open Machine

/-! The fields of a command message (R37). -/

def Message.op (m : Message) : Nat := fieldAt m.data 0 2
def Message.epByte (m : Message) : Nat := fieldAt m.data 2 1
def Message.hseq (m : Message) : Nat := fieldAt m.data 4 4
def Message.bytes (m : Message) : Nat := fieldAt m.data 8 4
def Message.job (m : Message) : Nat := fieldAt m.data 12 4
def Message.tag (m : Message) : Nat := fieldAt m.data 16 8
def Message.payload (m : Message) : List Byte := m.data.drop 32

/-- A message shorter than its header, or of another length than its header says (R449). -/
def Message.short (m : Message) : Bool := m.data.length < 32 || m.data.length != 32 + m.bytes

/-- The header's reserved bytes are zero. -/
def Message.reservedOk (m : Message) : Bool := zeroBytes m.data 3 4 && zeroBytes m.data 24 32

/-- The message came to the management endpoint. -/
def Message.toMgmt (m : Message) : Bool := m.ep == mgmtEp

namespace Machine

/-! Rows of the opcode table that a message stands for. -/

/-- The command that a message carries; `other` for an opcode that the table Commands does not list. -/
inductive Command where
  | queryState | replay | loadObject | unloadObject | jobOpen | jobClose | phaseNext | saveArea | resumeJob | submit | cancel
  | queueConfig | memWrite | memRead | statusWindowRead | endpointEnable | reconfigure | bindSlot | peer | policy | revoke
  | teaselTableRead | replacementImage | configurationRecord | nonce | attestationReport | bootStatus | short | other
  deriving DecidableEq, Repr

end Machine

/-- The command of a message, as the command decoder reads it. -/
def Message.command (m : Message) : Command :=
  match decodeMessage m with
  | some (.queryState _) => .queryState
  | some (.replay _) => .replay
  | some (.loadObject _) => .loadObject
  | some (.unloadObject _) => .unloadObject
  | some (.jobOpen _) => .jobOpen
  | some (.jobClose _) => .jobClose
  | some (.phaseNext _) => .phaseNext
  | some (.saveArea _) => .saveArea
  | some (.resumeJob _) => .resumeJob
  | some (.submit _) => .submit
  | some (.cancelCmd _) => .cancel
  | some (.queueConfig _) => .queueConfig
  | some (.memWrite _) => .memWrite
  | some (.memRead _) => .memRead
  | some (.statusWindowRead _) => .statusWindowRead
  | some (.endpointEnable _) => .endpointEnable
  | some (.reconfigure _) => .reconfigure
  | some (.bindSlot _) => .bindSlot
  | some (.peer _) => .peer
  | some (.policy _) => .policy
  | some (.revoke _) => .revoke
  | some (.teaselTableRead _) => .teaselTableRead
  | some (.replacementImage _) => .replacementImage
  | some (.configurationRecord _) => .configurationRecord
  | some (.nonce _) => .nonce
  | some (.attestationReport _) => .attestationReport
  | some (.bootStatus _) => .bootStatus
  | some (.shortMessage _) => .short
  | _ => .other

/-- The payload's size is that of the table Command Payloads. -/
def Message.sizeOk (m : Message) : Bool :=
  let n := m.payload.length
  match m.op with
  | 0x0001 | 0x0020 | 0x0021 | 0x0022 | 0x0024 => n == 0
  | 0x0002 | 0x0011 | 0x0031 | 0x0032 | 0x0061 => n == 8
  | 0x0010 | 0x0023 | 0x0041 => n == 16
  | 0x0030 => 8 ≤ n && n == 8 + 64 * fieldAt m.payload 2 2
  | 0x0040 => 8 ≤ n
  | 0x0060 => 8 ≤ n && n == 8 + 16 * fieldAt m.payload 0 2
  | _ => true

/-- An opcode that the table Commands lists. -/
def Message.known (m : Message) : Bool := m.command != .other

end Sys2Proof

namespace Sys2Proof.Machine

/-! Replies. -/

/-- What a command completes with. -/
structure Reply where
  status : Nat
  index : Nat := noIndex
  detail : Nat := 0
  payload : List Byte := []
  deriving DecidableEq, Repr

def Reply.ok : Reply := { status := stOk }

/-- BAD_ENTRY with the payload offset of a field (R41). -/
def Reply.badField (o : Nat) : Reply := { status := stBadEntry, index := o }

/-- BAD_ENTRY for a job in a state that does not permit the command (R448). -/
def Reply.badJob : Reply := { status := stBadEntry }

/-- The acknowledgement of a command (R39). -/
def acknowledge (s : State) (m : Message) (status : Nat) : State :=
  sendNumbered s m.ep { blankOut 1 status with hseq := m.hseq, tag := m.tag }

/-- The completion of a command (R40). -/
def complete (s : State) (ep hseq tag : Nat) (r : Reply) : State :=
  sendNumbered s ep { blankOut 2 r.status with hseq := hseq, tag := tag, index := r.index, detail := r.detail, payload := r.payload }

/-- The completion of an unsequenced command, which takes no number (R449). -/
def answer (s : State) (m : Message) (r : Reply) : State :=
  sendPlain s m.ep m.sender { blankOut 2 r.status with tag := m.tag, index := r.index, detail := r.detail, payload := r.payload }

/-! Sequence numbers (R39, R40). -/

/-- The host sequence number after another. -/
def nextHost (n : Nat) : Nat := if n = 0xFFFFFFFF then 1 else n + 1

/-- How far a number lies behind another along 1, 2, …, 0xFFFFFFFF, 1. -/
def behind (last n : Nat) : Nat := (last + 0xFFFFFFFF - n) % 0xFFFFFFFF

/-- A number accepted since the endpoint was enabled, among the 2^31 that end at the last accepted one. -/
def Endpoint.isDuplicate (e : Endpoint) (n : Nat) : Bool := n ≤ 0xFFFFFFFF && behind e.lastAccepted n < min e.accepted (2 ^ 31)

/-- The last completed host sequence number (R40). -/
def Endpoint.lastCompleted (e : Endpoint) : Nat :=
  match e.running with
  | [] => e.lastAccepted
  | r :: _ => if e.accepted ≤ behind e.lastAccepted r.hseq + 1 then 0 else if r.hseq = 1 then 0xFFFFFFFF else r.hseq - 1

/-! Header checks (R34, R39, R40, R442, R443). -/

/-- The command may be carried out at its endpoint: a bound command endpoint, or the management endpoint as far as the boot has
come. -/
def permitted (s : State) (m : Message) : Bool :=
  if m.toMgmt then
    if s.boot.state < 3 then m.command == .replacementImage || m.command == .bootStatus
    else if s.boot.state = 7 then m.command == .bootStatus
    else m.op == 0x0040 || m.op == 0x0041 || m.op == 0x0061 || (m.op == 0x0060 && s.boot.state == 5)
  else (s.endpoint m.ep).bound.isSome && m.op != 0x0060 && m.op != 0x0061

/-- The refusal of a header, in the order in which R39 names them. -/
def headerRefusal (s : State) (m : Message) : Option Nat :=
  if !m.known then some stBadOpcode
  else if m.epByte != m.ep then some stBadEndpoint
  else if !m.reservedOk || 65504 < m.bytes || !m.sizeOk then some stBadHeader
  else if !permitted s m then some stNotPermitted
  else none

/-! Reception. -/

/-- What carries a command out: its reply, none while it still runs, and the state. -/
abbrev Action := Message → State → Option Reply × State

/-- The command's number is accepted. -/
def noteAccepted (s : State) (m : Message) : State :=
  s.modEndpoint m.ep (fun e => { e with lastAccepted := m.hseq, accepted := e.accepted + 1 })

/-- The notice about a sequence number (R39). -/
def sequenceNotice (s : State) (m : Message) (status detail : Nat) : State :=
  sendNumbered s m.ep { blankOut 3 status with hseq := m.hseq, tag := m.tag, detail := detail }

/-- A sequenced command: accepted in order, acknowledged, carried out and completed; else a notice (R39, R40). -/
def runSequenced (act : Action) (m : Message) (s : State) : State :=
  let e := s.endpoint m.ep
  if m.hseq = 0 then sendPlain s m.ep m.sender { blankOut 3 stBadHeader with tag := m.tag }
  else if m.hseq = nextHost e.lastAccepted then
    match headerRefusal s m with
    | some k => acknowledge (noteAccepted s m) m k
    | none =>
      match act m (acknowledge (noteAccepted s m) m stAccepted) with
      | (some r, s') => complete s' m.ep m.hseq m.tag r
      | (none, s') => s'
  else if e.isDuplicate m.hseq then sequenceNotice s m stDuplicate 0
  else sequenceNotice s m stSeqGap e.lastAccepted

/-- The management endpoint answers unsequenced commands once an image runs. -/
def answersFreely (s : State) (m : Message) : Bool := !m.toMgmt || (3 ≤ s.boot.state && s.boot.state != 7)

/-- The reserved bytes of an unsequenced command's payload are zero. -/
def payloadOk (m : Message) : Bool := m.command != .replay || zeroBytes m.payload 4 8

/-- An unsequenced command: one completion without a number (R449). -/
def runUnsequenced (act : Message → State → Reply × State) (m : Message) (s : State) : State :=
  if m.epByte != m.ep then answer s m { status := stBadEndpoint }
  else if m.hseq != 0 || !m.reservedOk || !m.sizeOk || !payloadOk m then answer s m { status := stBadHeader }
  else if !answersFreely s m then answer s m { status := stNotPermitted }
  else answer (act m s).2 m (act m s).1

/-- A short message (R449). -/
def runShort (m : Message) (s : State) : State := sendPlain s m.ep m.sender (blankOut 3 stBadHeader)

/-- The endpoint has a fabric address: the management endpoint always, a command endpoint once a configuration record has been
accepted (R442, R444). -/
def reachable (s : State) (ep : Nat) : Bool := ep == mgmtEp || (ep < 64 && (s.endpoint ep).addr.isSome)

/-- The partitions that the reconfiguration being applied names. -/
def namedParts (s : State) : List Nat :=
  match s.boot.reconf with
  | some r => r.named
  | none => []

/-- The message waits while a reconfiguration applies: its endpoint is bound to a partition that the list names, it is a further
reconfiguration, or an earlier message of its endpoint waits (R64). -/
def mustWait (s : State) (m : Message) : Bool :=
  s.boot.reconf.isSome &&
    ((match (s.endpoint m.ep).bound with
      | some p => (namedParts s).contains p
      | none => false) || (m.toMgmt && m.command == .reconfigure) || s.waiting.any (fun w => w.ep == m.ep))

/-- The address that device messages go to is that of the last message. -/
def noteSender (s : State) (m : Message) : State := s.modEndpoint m.ep (fun e => { e with host := m.sender })

/-- The notice of a disabled endpoint, with the number and the tag of the command that it concerns (R38, R57). -/
def disabledNotice (m : Message) : Out :=
  if m.data.length < 32 then blankOut 3 stEndpointDisabled else { blankOut 3 stEndpointDisabled with hseq := m.hseq, tag := m.tag }

/-- A message received: it is refused by a disabled endpoint (R57), or waits, or is run. -/
def receive (run : Message → State → State) (m : Message) (s : State) : State :=
  if !reachable s m.ep then s
  else if !m.toMgmt && !(s.endpoint m.ep).enabled then sendPlain s m.ep m.sender (disabledNotice m)
  else if mustWait s m then { s with waiting := s.waiting ++ [m] }
  else if m.short then runShort m s
  else run m (noteSender s m)

/-- A message of one command; any other message is none of its business. -/
def hostCommand (c : Command) (run : Message → State → State) (m : Message) (s : State) : Host.Outcome State Fault Refusal :=
  if m.command = c then .next (receive run m s) else .next s

/-- A sequenced command whose action always completes. -/
def sequenced (act : Message → State → Reply × State) : Message → State → State :=
  runSequenced (fun m s => (some (act m s).1, (act m s).2))

/-- A message whose opcode no row has: it is sequenced and refused with BAD_OPCODE (R40). -/
def refuseOther (m : Message) (s : State) : State := receive (sequenced (fun _ s => (Reply.ok, s))) m s

def execShortMessage (m : Message) (s : State) : Host.Outcome State Fault Refusal := hostCommand .short runShort m s

/-! QUERY_STATE and REPLAY (R40, R43). -/

/-- The last accepted, the last completed and the next device sequence number. -/
def actQueryState (m : Message) (s : State) : Reply × State :=
  let e := s.endpoint m.ep
  ({ status := stOk, payload := leBytes 4 e.lastAccepted ++ leBytes 4 e.lastCompleted ++ leBytes 4 e.nextDev }, s)

def execQueryState (m : Message) (s : State) : Host.Outcome State Fault Refusal := hostCommand .queryState (runUnsequenced actQueryState) m s

/-- The stored messages from a number onwards; none where that number is not stored. -/
def storedFrom (first : Nat) : List Out → Option (List Out)
  | [] => none
  | o :: l => if o.seq = first then some (o :: l) else storedFrom first l

/-- The stored messages from the given number onwards go out again with their own numbers. From the next number there are none, and
the command completes with OK; a number that was never sent is one no longer stored: DESIGN CHOICE (log 28). -/
def actReplay (m : Message) (s : State) : Reply × State :=
  let e := s.endpoint m.ep
  let first := fieldAt m.payload 0 4
  if first = e.nextDev then (Reply.ok, s)
  else
    match storedFrom first e.stored with
    | some l => (Reply.ok, s.setOutbox (s.outbox ++ l.map (fun o => { o with dest := m.sender })))
    | none => ({ status := stReplayLost }, s)

def execReplay (m : Message) (s : State) : Host.Outcome State Fault Refusal := hostCommand .replay (runUnsequenced actReplay) m s

end Sys2Proof.Machine
end

