-- ==== Sys2Proof/Machine/Float.lean ====
section
/-! DEFINITION. Scalar and packed floating point (R191 to R203). -/

namespace Sys2Proof.Machine

/-- The format of the instruction's type; the decoder admits no other type on these forms (R193). -/
def fieldFmt (f : Fields) : Fmt := (fmtOf f.ty).getD fmtF32

/-- A computation on the encodings of up to three sources: the sources read as values, and the result. -/
structure FOp where
  uses : Nat
  go : Fmt → Round → Nat → Nat → Nat → FOut
  counts : Bool := true

/-- The encodings that a scalar form reads (R191). -/
def scalarSrc (s : State) (f : Fields) (t : Nat) (o : Opnd) : Nat := readF s t (fieldFmt f) o

/-- The inputs whose classes decide the events (R188, R192). -/
def inputsOf (F : Fmt) (n a b c : Nat) : List FVal := ([a, b, c].take n).map F.decode

/-- The result of a scalar form for a thread. -/
def scalarOut (s : State) (op : FOp) (f : Fields) (t : Nat) : FOut :=
  op.go (fieldFmt f) (rm s t f) (scalarSrc s f t f.a) (scalarSrc s f t f.b) (scalarSrc s f t f.c)

/-- The events of a scalar form for a thread. -/
def scalarEvents (s : State) (op : FOp) (f : Fields) (t : Nat) : List Nat :=
  let F := fieldFmt f
  if op.counts then
    F.events (inputsOf F op.uses (scalarSrc s f t f.a) (scalarSrc s f t f.b) (scalarSrc s f t f.c)) (scalarOut s op f t)
  else []

/-- A scalar form issued for the group (R194). -/
def runScalar (op : Nat) (x : FOp) (f : Fields) (s : State) : State :=
  runGroup op f [] [] (fun s t =>
    .go { writes := wr32 f.d (BitVec.ofNat 32 (scalarOut s x f t).bits) (labelOf s op f t), events := scalarEvents s x f t }) s

/-- Results that copy or change bits and never count (R192, R196). -/
def quiet (bits : Nat) : FOut := { bits := bits }

def opAdd : FOp := { uses := 2, go := fun F m a b _ => F.add m (F.decode a) (F.decode b) }
def opSub : FOp := { uses := 2, go := fun F m a b _ => F.add m (F.decode a) (F.decode b).negate }
def opMul : FOp := { uses := 2, go := fun F m a b _ => F.mul m (F.decode a) (F.decode b) }
def opFma : FOp := { uses := 3, go := fun F m a b c => F.fma m (F.decode a) (F.decode b) (F.decode c) }
def opMin : FOp := { uses := 2, go := fun F _ a b _ => quiet (F.minmax false a b), counts := false }
def opMax : FOp := { uses := 2, go := fun F _ a b _ => quiet (F.minmax true a b), counts := false }
/-- The sign inverted; the default NaN for a NaN (R196). -/
def opNeg : FOp :=
  { uses := 1, counts := false
    go := fun F _ a _ _ => quiet (if (F.decode a).isNan then F.nanBits else if F.signBit ≤ a then a - F.signBit else a + F.signBit) }
/-- The sign cleared; the default NaN for a NaN (R196). -/
def opAbs : FOp :=
  { uses := 1, counts := false
    go := fun F _ a _ _ => quiet (if (F.decode a).isNan then F.nanBits else a % F.signBit) }
def opRnd : FOp := { uses := 1, go := fun F m a _ _ => F.toIntegral m (F.decode a) }

def execFadd (f : Fields) (s : State) : Host.Outcome State Fault Refusal := .next (runScalar 0x100 opAdd f s)
def execFsub (f : Fields) (s : State) : Host.Outcome State Fault Refusal := .next (runScalar 0x101 opSub f s)
def execFmul (f : Fields) (s : State) : Host.Outcome State Fault Refusal := .next (runScalar 0x102 opMul f s)
def execFfma (f : Fields) (s : State) : Host.Outcome State Fault Refusal := .next (runScalar 0x103 opFma f s)
def execFmin (f : Fields) (s : State) : Host.Outcome State Fault Refusal := .next (runScalar 0x104 opMin f s)
def execFmax (f : Fields) (s : State) : Host.Outcome State Fault Refusal := .next (runScalar 0x105 opMax f s)
def execFneg (f : Fields) (s : State) : Host.Outcome State Fault Refusal := .next (runScalar 0x106 opNeg f s)
def execFabs (f : Fields) (s : State) : Host.Outcome State Fault Refusal := .next (runScalar 0x107 opAbs f s)

/-- FSCALE: B is a 32-bit signed exponent (R194). -/
def fscaleOut (s : State) (f : Fields) (t : Nat) : FOut :=
  (fieldFmt f).scale (rm s t f) ((fieldFmt f).decode (scalarSrc s f t f.a)) (read32 s t f.b).toInt

def execFscale (f : Fields) (s : State) : Host.Outcome State Fault Refusal :=
  .next (runGroup 0x108 f [] [] (fun s t =>
    let F := fieldFmt f
    .go { writes := wr32 f.d (BitVec.ofNat 32 (fscaleOut s f t).bits) (labelOf s 0x108 f t)
          events := F.events [F.decode (scalarSrc s f t f.a)] (fscaleOut s f t) }) s)

/-- FSETP's result (R197). -/
def fsetp (s : State) (f : Fields) (t : Nat) : Bool :=
  let F := fieldFmt f
  combine (f.bits 3 2) (fcompare (f.bits 0 3) (F.decode (scalarSrc s f t f.a)) (F.decode (scalarSrc s f t f.b)))
    (readPred s t f.c)

def execFsetp (f : Fields) (s : State) : Host.Outcome State Fault Refusal :=
  .next (runWrites 0x109 f [] (fun s t => wrPred f.d (fsetp s f t) (labelOf s 0x109 f t)) s)

def execFclass (f : Fields) (s : State) : Host.Outcome State Fault Refusal :=
  .next (runWrites 0x10A f [] (fun s t =>
    wr32 f.d (BitVec.ofNat 32 ((fieldFmt f).classify (scalarSrc s f t f.a))) (labelOf s 0x10A f t)) s)

def execFrnd (f : Fields) (s : State) : Host.Outcome State Fault Refusal := .next (runScalar 0x10B opRnd f s)

/-! Packed pairs (R200 to R202). -/

/-- The result of one half (R201). -/
def halfOut (s : State) (op : FOp) (f : Fields) (t h : Nat) : FOut :=
  let F := fieldFmt f
  op.go F (rm s t f) (readHalf s t F f.a h) (readHalf s t F f.b h) (readHalf s t F f.c h)

/-- The events of one half; each half counts (R188). -/
def halfEvents (s : State) (op : FOp) (f : Fields) (t h : Nat) : List Nat :=
  let F := fieldFmt f
  if op.counts then
    F.events (inputsOf F op.uses (readHalf s t F f.a h) (readHalf s t F f.b h) (readHalf s t F f.c h)) (halfOut s op f t h)
  else []

/-- Two halves in one register (R173). -/
def pack (hi lo : Nat) : Word := BitVec.ofNat 32 (hi % 2 ^ 16 * 2 ^ 16 + lo % 2 ^ 16)

/-- A packed form issued for the group. -/
def runPacked (op : Nat) (x : FOp) (f : Fields) (s : State) : State :=
  runGroup op f [] [] (fun s t =>
    .go { writes := wr32 f.d (pack (halfOut s x f t 1).bits (halfOut s x f t 0).bits) (labelOf s op f t)
          events := halfEvents s x f t 0 ++ halfEvents s x f t 1 }) s

def execHfma2 (f : Fields) (s : State) : Host.Outcome State Fault Refusal := .next (runPacked 0x140 opFma f s)
def execHadd2 (f : Fields) (s : State) : Host.Outcome State Fault Refusal := .next (runPacked 0x141 opAdd f s)
def execHsub2 (f : Fields) (s : State) : Host.Outcome State Fault Refusal := .next (runPacked 0x142 opSub f s)
def execHmul2 (f : Fields) (s : State) : Host.Outcome State Fault Refusal := .next (runPacked 0x143 opMul f s)
def execHmin2 (f : Fields) (s : State) : Host.Outcome State Fault Refusal := .next (runPacked 0x144 opMin f s)
def execHmax2 (f : Fields) (s : State) : Host.Outcome State Fault Refusal := .next (runPacked 0x145 opMax f s)
def execHneg2 (f : Fields) (s : State) : Host.Outcome State Fault Refusal := .next (runPacked 0x146 opNeg f s)
def execHabs2 (f : Fields) (s : State) : Host.Outcome State Fault Refusal := .next (runPacked 0x147 opAbs f s)

/-- HSETP2's result on one half (R202). -/
def hsetp2 (s : State) (f : Fields) (t h : Nat) : Bool :=
  let F := fieldFmt f
  combine (f.bits 3 2) (fcompare (f.bits 0 3) (F.decode (readHalf s t F f.a h)) (F.decode (readHalf s t F f.b h)))
    (readPred s t f.c)

def execHsetp2 (f : Fields) (s : State) : Host.Outcome State Fault Refusal :=
  .next (runWrites 0x148 f (modPred (f.bits 5 3)) (fun s t =>
    let l := labelOf s 0x148 f t
    wrPred f.d (hsetp2 s f t 0) l ++ [.pred (f.bits 5 3) (hsetp2 s f t 1) l]) s)

end Sys2Proof.Machine
end

