-- ==== Sys2Proof/Machine/Special.lean ====
section
/-! DEFINITION. The special functions (R185, R186, R208, R209): the exact value or an enclosure of it from integer arithmetic,
its one rounding, and the fast path within its bound. -/

namespace Sys2Proof.Machine

/-- The scale of the fixed-point enclosures: 2^320. -/
def fxBits : Nat := 320
def fxOne : Nat := 2 ^ 320
/-- ⌊ln 2 × 2^320⌋. -/
def fxLn2 : Nat := 0xb17217f7d1cf79abc9e3b39803f2f6af40f343267298b62d8a0d175b8baafa2be7b876206debac98
/-- ⌊π × 2^512⌋. -/
def fxPi : Nat := 0x3243f6a8885a308d313198a2e03707344a4093822299f31d0082efa98ec4e6c89452821e638d01377be5466cf34e90c6cc0ac29b7c97c50dd3f84d5b5b5470917
/-- The half-width of an enclosure, above every truncation of the sums below. -/
def fxSlack : Nat := 2 ^ 20

/-- The value of a special function: exact, or strictly between lo × 2^e and hi × 2^e. -/
inductive SpecVal where
  | exact (v : FVal)
  | between (neg : Bool) (lo hi : Nat) (e : Int)
  deriving DecidableEq, Repr

/-- The sum of term × y^k / k! from the k-th term, all scaled. -/
def expSum : Nat → Nat → Nat → Nat → Nat
  | 0, _, _, _ => 0
  | n + 1, k, term, y => term + expSum n (k + 1) (term * y / fxOne / (k + 1)) y

/-- e^y for y below 1, scaled. -/
def fxExp (y : Nat) : Nat := expSum 90 0 fxOne y

/-- The sum of u^(2k + 1) / (2k + 1), all scaled. -/
def atanhSum : Nat → Nat → Nat → Nat → Nat
  | 0, _, _, _ => 0
  | n + 1, k, t, u2 => t / (2 * k + 1) + atanhSum n (k + 1) (t * u2 / fxOne) u2

/-- ln z for z from 1 to 2, scaled. -/
def fxLn (z : Nat) : Nat :=
  let u := (z - fxOne) * fxOne / (z + fxOne)
  2 * atanhSum 130 0 u (u * u / fxOne)

/-- The alternating sum of term × r^2k / ((j + 1) … (j + 2k)), all scaled. -/
def altSum : Nat → Nat → Nat → Nat → Int
  | 0, _, _, _ => 0
  | n + 1, j, term, r2 => (term : Int) - altSum n (j + 2) (term * r2 / fxOne / ((j + 1) * (j + 2))) r2

/-- sin r and cos r for r from 0 to π ÷ 2, scaled. -/
def fxSin (r : Nat) : Nat := (altSum 60 1 r (r * r / fxOne)).toNat
def fxCos (r : Nat) : Nat := (altSum 60 0 fxOne (r * r / fxOne)).toNat

/-- The integer square root, from bit k downwards. -/
def isqrtFrom : Nat → Nat → Nat → Nat
  | 0, r, n => if (r + 1) * (r + 1) ≤ n then r + 1 else r
  | k + 1, r, n => isqrtFrom k (if (r + 2 ^ (k + 1)) * (r + 2 ^ (k + 1)) ≤ n then r + 2 ^ (k + 1) else r) n

def isqrt (n : Nat) : Nat := isqrtFrom (bitLen n / 2 + 1) 0 n

/-- The enclosure around a scaled approximation. -/
def around (neg : Bool) (v : Nat) (e : Int) : SpecVal := .between neg (v - fxSlack) (v + fxSlack) e

/-- A value just below 1: no number of a format and no midpoint lies between. -/
def belowOne (neg : Bool) : SpecVal := .between neg (2 ^ 60 - 1) (2 ^ 60) (-60)

/-- A value just below m × 2^e in magnitude. -/
def justBelow (neg : Bool) (m : Nat) (e : Int) : SpecVal := .between neg (m * 2 ^ 64 - 1) (m * 2 ^ 64) (e - 64)

/-- The magnitude m × 2^e is below 2^k. -/
def magBelow (m : Nat) (e k : Int) : Bool := decide ((bitLen m : Int) + e ≤ k)

/-- m × 2^e scaled by 2^k; exact where the shift is to the left. -/
def scaled (m : Nat) (e : Int) (k : Nat) : Nat :=
  if 0 ≤ e + k then m * 2 ^ (e + k).toNat else m / 2 ^ (-(e + k)).toNat

def rcpVal (neg : Bool) (m : Nat) (e : Int) : SpecVal :=
  let k := bitLen m + 64
  let q := 2 ^ k / m
  if q * m = 2 ^ k then .exact (.fin neg q (-e - k)) else .between neg q (q + 1) (-e - k)

def sqrtVal (m : Nat) (e : Int) : SpecVal :=
  let m' := if e % 2 = 0 then m else 2 * m
  let e' := if e % 2 = 0 then e else e - 1
  let s := isqrt (m' * 2 ^ 128)
  if s * s = m' * 2 ^ 128 then .exact (.fin false s (e' / 2 - 64)) else .between false s (s + 1) (e' / 2 - 64)

def rsqVal (m : Nat) (e : Int) : SpecVal :=
  let m' := if e % 2 = 0 then m else 2 * m
  let e' := if e % 2 = 0 then e else e - 1
  let k := bitLen m' + 64
  let s := isqrt (2 ^ (2 * k) / m')
  if s * s * m' = 2 ^ (2 * k) then .exact (.fin false s (-(e' / 2) - k)) else .between false s (s + 1) (-(e' / 2) - k)

/-- m × 2^e is a whole number. -/
def isWhole (m : Nat) (e : Int) : Bool := decide (0 ≤ e) || (decide (-e ≤ bitLen m) && m % 2 ^ (-e).toNat == 0)

def exp2Val (neg : Bool) (m : Nat) (e : Int) : SpecVal :=
  if isWhole m e then
    let n : Int := if 0 ≤ e then m * 2 ^ e.toNat else (m / 2 ^ (-e).toNat : Nat)
    .exact (.fin false 1 (if neg then -n else n))
  else if magBelow m e (-40) then (if neg then belowOne false else .between false (2 ^ 60) (2 ^ 60 + 1) (-60))
  else
    let x : Int := if neg then -(scaled m e fxBits : Int) else scaled m e fxBits
    let n := x / (fxOne : Int)
    let f := (x % (fxOne : Int)).toNat
    around false (fxExp (f * fxLn2 / fxOne)) (n - fxBits)

def log2Val (m : Nat) (e : Int) : SpecVal :=
  let l := bitLen m
  let n : Int := e + l - 1
  if m = 2 ^ (l - 1) then .exact (.fin (decide (n < 0)) n.natAbs 0)
  else
    let v : Int := n * fxOne + ((fxLn (scaled m (1 - l) fxBits) * fxOne / fxLn2 : Nat) : Int)
    around (decide (v < 0)) v.natAbs (-fxBits)

/-- The quadrant of an argument and what remains of it, scaled: the reduction is exact to far below the result (R208). -/
def quadrant (m : Nat) (e : Int) : Nat × Nat :=
  let x := scaled m e 512
  let h := fxPi / 2
  (x / h % 4, (x - x / h * h) / 2 ^ 192)

def sinVal (neg : Bool) (m : Nat) (e : Int) : SpecVal :=
  if magBelow m e (-40) then justBelow neg m e
  else
    let q := quadrant m e
    around (neg != decide (2 ≤ q.1)) (if q.1 % 2 = 0 then fxSin q.2 else fxCos q.2) (-fxBits)

def cosVal (m : Nat) (e : Int) : SpecVal :=
  if magBelow m e (-40) then belowOne false
  else
    let q := quadrant m e
    around (q.1 == 1 || q.1 == 2) (if q.1 % 2 = 0 then fxCos q.2 else fxSin q.2) (-fxBits)

def tanhVal (neg : Bool) (m : Nat) (e : Int) : SpecVal :=
  if magBelow m e (-40) then justBelow neg m e
  else if !magBelow m e 6 then belowOne neg
  else
    let x := scaled m e (fxBits + 1)
    let n := x / fxLn2
    let w := fxExp (x - n * fxLn2) * 2 ^ n
    around neg ((w - fxOne) * fxOne / (w + fxOne)) (-fxBits)

/-- The functions in opcode order. -/
inductive Fn where
  | rcp | rsq | sqrt | exp2 | log2 | sin | cos | tanh
  deriving DecidableEq, Repr

def Fn.num : Fn → Nat
  | .rcp => 0 | .rsq => 1 | .sqrt => 2 | .exp2 => 3 | .log2 => 4 | .sin => 5 | .cos => 6 | .tanh => 7

/-- The real function with the special values of the table Special-Function Special Values (R209). -/
def specialVal (fn : Fn) (v : FVal) : SpecVal :=
  let zero (n : Bool) : SpecVal := .exact (.fin n 0 0)
  let one (n : Bool) : SpecVal := .exact (.fin n 1 0)
  match v with
  | .nan => .exact .nan
  | .inf n =>
    match fn with
    | .rcp => zero n
    | .rsq => if n then .exact .nan else zero false
    | .sqrt => if n then .exact .nan else .exact (.inf false)
    | .exp2 => if n then zero false else .exact (.inf false)
    | .log2 => if n then .exact .nan else .exact (.inf false)
    | .sin => .exact .nan
    | .cos => .exact .nan
    | .tanh => one n
  | .fin n m e =>
    if m = 0 then
      match fn with
      | .rcp => .exact (.inf n)
      | .rsq => .exact (.inf n)
      | .sqrt => zero n
      | .exp2 => one false
      | .log2 => .exact (.inf true)
      | .sin => zero n
      | .cos => one false
      | .tanh => zero n
    else
      match fn with
      | .rcp => rcpVal n m e
      | .rsq => if n then .exact .nan else rsqVal m e
      | .sqrt => if n then .exact .nan else sqrtVal m e
      | .exp2 => exp2Val n m e
      | .log2 => if n then .exact .nan else log2Val m e
      | .sin => sinVal n m e
      | .cos => cosVal m e
      | .tanh => tanhVal n m e

/-- The one rounding. The lower end of an enclosure stands for the value: UNVERIFIED that no number of a format and no midpoint
ever lies inside an enclosure (log 11). -/
def specialRound (F : Fmt) (md : Round) (v : SpecVal) : FOut :=
  match v with
  | .exact x => F.encode md x
  | .between n lo _ e => F.roundMag md n lo e true

/-- The exact path: the correctly rounded value (R185). -/
def specialExact (F : Fmt) (md : Round) (fn : Fn) (x : Nat) : FOut := specialRound F md (specialVal fn (F.decode x))

/-- The input lies strictly inside the fast-path range (table Approximation Bounds). -/
def fastRange (fn : Fn) (v : FVal) : Bool :=
  match v with
  | .fin n m e =>
    let mag : Dyadic := ⟨m, e⟩
    let above (b : Dyadic) : Bool := mag.cmp b > 0
    let below (b : Dyadic) : Bool := mag.cmp b < 0
    let pow (k : Int) : Dyadic := ⟨1, k⟩
    match fn with
    | .rcp => above (pow (-126)) && below (pow 126)
    | .rsq => !n && above (pow (-126)) && below (pow 126)
    | .sqrt => !n && above (pow (-126)) && below (pow 126)
    | .exp2 => if n then below ⟨126, 0⟩ else below ⟨127, 0⟩
    | .log2 => !n && ((above (pow (-126)) && below (pow (-1))) || (above (pow 1) && below (pow 127)))
    | .sin => above (pow (-126)) && below ⟨3, -2⟩
    | .cos => below ⟨3, -2⟩
    | .tanh => above (pow (-12)) && below ⟨9, 0⟩
  | _ => false

/-- The bound in ulp (table Approximation Bounds). -/
def fastBound (F : Fmt) (fn : Fn) : Nat :=
  if F.num = 0 then
    match fn with
    | .rcp => 1 | .rsq => 2 | .sqrt => 1 | .exp2 => 2 | .log2 => 2 | .sin => 2 | .cos => 1 | .tanh => 2
  else 1

/-- A point of the value: the value itself, or the lower end of its enclosure. -/
def SpecVal.point : SpecVal → Dyadic
  | .exact v => v.dy
  | .between n lo _ e => ⟨if n then -(lo : Int) else lo, e⟩

/-- An encoding within n ulp of the value, the ulp that of the value's binade. -/
def Fmt.within (F : Fmt) (n : Nat) (c : Nat) (v : SpecVal) : Bool :=
  let p := v.point
  let q := max ((bitLen p.m.natAbs : Int) + p.e - (F.frac + 1)) F.emin
  match F.decode c with
  | .fin _ _ _ => decide (Dyadic.cmp (fdist (F.decode c) (.fin (decide (p.m < 0)) p.m.natAbs p.e)) ⟨n, q⟩ ≤ 0)
  | _ => false

/-- The value is one that the format represents exactly. -/
def SpecVal.representable (F : Fmt) (r : FOut) (v : SpecVal) : Bool :=
  match v with
  | .exact _ => F.within 0 r.bits v
  | .between _ _ _ _ => false

/-- The fast path: a free function of the input bits, kept within the bound; a result that is exactly representable is returned exactly
(R186, R208). -/
def specialFast (F : Fmt) (fn : Fn) (x : Nat) : FOut :=
  let v := specialVal fn (F.decode x)
  let r := specialRound F .rne v
  let c := Config.freeFast fn.num F.num x % 2 ^ F.width
  if v.representable F r then r else if F.within (fastBound F fn) c v then { r with bits := c } else r

end Sys2Proof.Machine
end

