-- ==== Sys2Proof/Machine/Convert.lean ====
section
/-! DEFINITION. Conversion, packing and the special functions (R204 to R211). -/

namespace Sys2Proof.Machine

/-- A source value of CVT: an integer or a floating value. -/
inductive CVal where
  | int (x : Int)
  | flt (v : FVal)

/-- An element of a register under the element select (R206). -/
def elementOf (s : State) (t : Nat) (f : Fields) (bits : Nat) : Nat :=
  (read32 s t f.a).toNat / 2 ^ (bits * f.bits 1 2) % 2 ^ bits

/-- CVT's source value: an element of A, or a short immediate read as the source type (R206). -/
def cvtSource (s : State) (t : Nat) (f : Fields) : CVal :=
  let ty := f.srcTy
  match fmtOf ty with
  | some F =>
    match f.a with
    | .imm n => .flt (F.decode (F.ofInt n.toInt))
    | _ => .flt (F.decode (if F.width = 32 then (read32 s t f.a).toNat else elementOf s t f F.width))
  | none =>
    match ty with
    | .s8 | .n8 =>
      let x : Nat := match f.a with
        | .imm n => n.toNat
        | _ => elementOf s t f 8
      .int (if ty == .s8 && 128 ≤ x then (x : Int) - 256 else x)
    | _ => .int (readInt s t ty f.a)

/-- The width of an integer type. -/
def intBits (ty : Ty) : Nat :=
  match ty with
  | .s8 | .n8 => 8
  | .s64 | .n64 => 64
  | _ => 32

/-- An integer placed in its destination: .S8 sign-extended, .N8 zero-extended (R206). -/
def placeInt (ty : Ty) (x : Int) : DWord :=
  match ty with
  | .s8 => BitVec.ofInt 64 ((BitVec.ofInt 8 x).toInt)
  | .n8 => BitVec.ofNat 64 ((BitVec.ofInt 8 x).toNat)
  | _ => wrap64 x

/-- A float or an integer as an integer of the destination type (R205). -/
def cvtToInt (ty : Ty) (sat : Bool) (md : Round) (v : CVal) : Int :=
  match v with
  | .int x => if sat then clamp ty x else x
  | .flt .nan => 0
  | .flt (.inf n) => if n then tyLeast ty else tyGreatest ty
  | .flt (.fin n m e) =>
    -- far beyond every type the nearest bound stands
    if (bitLen m : Int) + e > 80 then (if n then tyLeast ty else tyGreatest ty)
    else clamp ty (if n then -(roundInt md n m e : Int) else roundInt md n m e)

/-- An infinity that a finite value rounded to is the largest finite value under .SAT, and counts as an overflow alone (R192,
R205). -/
def satFloat (F : Fmt) (sat finite : Bool) (r : FOut) : FOut :=
  if sat && finite && r.bits % F.signBit == F.infBits then { r with bits := r.bits - 1 } else r

/-- A float or an integer in a floating format (R205). -/
def cvtToFloat (F : Fmt) (sat : Bool) (md : Round) (v : CVal) : FOut :=
  match v with
  | .int x => satFloat F sat true (F.roundDy md ⟨x, 0⟩ false)
  | .flt w => satFloat F sat (!w.isNan && !w.isInf) (F.encode md w)

/-- The inputs of a CVT for its events. -/
def cvtInputs (v : CVal) : List FVal :=
  match v with
  | .int x => [.fin (decide (x < 0)) x.natAbs 0]
  | .flt w => [w]

/-- CVT for a thread: the bits of the destination and the events (R205, R206). -/
def cvt (s : State) (t : Nat) (f : Fields) : DWord × List Nat :=
  let v := cvtSource s t f
  match fmtOf f.ty with
  | some F =>
    let r := cvtToFloat F (f.bit 0) (rm s t f) v
    (BitVec.ofNat 64 r.bits, F.events (cvtInputs v) r)
  | none => (placeInt f.ty (cvtToInt f.ty (f.bit 0) (rm s t f) v), [])

def execCvt (f : Fields) (s : State) : Host.Outcome State Fault Refusal :=
  .next (runGroup 0x180 f [] [] (fun s t =>
    .go { writes := wrTy f.ty f.d (cvt s t f).1 (labelOf s 0x180 f t), events := (cvt s t f).2 }) s)

/-- PACK2 on one source, read as F32 (R207). -/
def pack2Half (s : State) (t : Nat) (f : Fields) (o : Opnd) : FOut × List Nat :=
  let F := fieldFmt f
  let v := fmtF32.decode (readF s t fmtF32 o)
  let r := cvtToFloat F (f.bit 0) (rm s t f) (.flt v)
  (r, F.events [v] r)

def execPack2 (f : Fields) (s : State) : Host.Outcome State Fault Refusal :=
  .next (runGroup 0x181 f [] [] (fun s t =>
    let a := pack2Half s t f f.a
    let b := pack2Half s t f f.b
    .go { writes := wr32 f.d (pack b.1.bits a.1.bits) (labelOf s 0x181 f t), events := a.2 ++ b.2 }) s)

/-! Special functions (R208). -/

/-- The thread takes the fast path: .A, exact bit 0, and the input strictly inside the range (R185). -/
def takesFast (s : State) (t : Nat) (f : Fields) (fn : Fn) : Bool :=
  f.bit 0 && !(s.thread t).mode.getLsbD 2 && fastRange fn ((fieldFmt f).decode (scalarSrc s f t f.a))

/-- The exact path's result with its events. -/
def exactOut (s : State) (t : Nat) (f : Fields) (fn : Fn) : FOut × List Nat :=
  let F := fieldFmt f
  let x := scalarSrc s f t f.a
  let r := specialExact F (rm s t f) fn x
  (r, F.events [F.decode x] r)

/-- The access that carries an exact-path result to its write-back. -/
def exactAccess (s : State) (op : Nat) (t : Nat) (f : Fields) (fn : Fn) : Access :=
  let r := exactOut s t f fn
  { kind := .exact, thread := t, group := 0, pc := s.pc, op := op, f := f, addr := 0, width := 4, label := labelOf s op f t,
    value := BitVec.ofNat 32 r.1.bits, events := r.2 }

/-- A special function for a thread: written at issue on the fast path; on the exact path the destination goes empty, or the
thread waits where the destination is gang-uniform (R208). -/
def specialEff (op : Nat) (fn : Fn) (f : Fields) (s : State) (t : Nat) : Res :=
  if takesFast s t f fn then
    let F := fieldFmt f
    let r := specialFast F fn (scalarSrc s f t f.a)
    .go { writes := wr32 f.d (BitVec.ofNat 32 r.bits) (labelOf s op f t)
          events := F.events [F.decode (scalarSrc s f t f.a)] r }
  else
    .go { empties := opndRegs vS f.d
          accesses := if !isUni f.d || isLeader s op f [] [] t then [exactAccess s op t f fn] else []
          wait := if isUni f.d then some (.landing s.issue.serial) else none }

/-- A special function issued for the group. -/
def runSpecial (op : Nat) (fn : Fn) (f : Fields) (s : State) : State := runGroup op f [] [] (specialEff op fn f) s

def execRcp (f : Fields) (s : State) : Host.Outcome State Fault Refusal := .next (runSpecial 0x182 .rcp f s)
def execRsq (f : Fields) (s : State) : Host.Outcome State Fault Refusal := .next (runSpecial 0x183 .rsq f s)
def execSqrt (f : Fields) (s : State) : Host.Outcome State Fault Refusal := .next (runSpecial 0x184 .sqrt f s)
def execExp2 (f : Fields) (s : State) : Host.Outcome State Fault Refusal := .next (runSpecial 0x185 .exp2 f s)
def execLog2 (f : Fields) (s : State) : Host.Outcome State Fault Refusal := .next (runSpecial 0x186 .log2 f s)
def execSin (f : Fields) (s : State) : Host.Outcome State Fault Refusal := .next (runSpecial 0x187 .sin f s)
def execCos (f : Fields) (s : State) : Host.Outcome State Fault Refusal := .next (runSpecial 0x188 .cos f s)
def execTanh (f : Fields) (s : State) : Host.Outcome State Fault Refusal := .next (runSpecial 0x189 .tanh f s)

end Sys2Proof.Machine
end

