-- ==== Sys2Proof/Machine/Move.lean ====
section
/-! DEFINITION. Moves, predicate logic and special registers (R153 to R161). -/

namespace Sys2Proof.Machine

def execMov (f : Fields) (s : State) : Host.Outcome State Fault Refusal :=
  .next (runWrites 0x080 f [] (fun s t => wrTy f.ty f.d (readTy s t f.ty f.a) (labelOf s 0x080 f t)) s)

def execMovh (f : Fields) (s : State) : Host.Outcome State Fault Refusal :=
  .next (runWrites 0x081 f [] (fun s t => wr32 f.d (BitVec.ofNat 32 (f.mod.toNat * 2 ^ 12)) (labelOf s 0x081 f t)) s)

/-- ADDI's sum: a pair under type code 0, else 32 bits (R155). -/
def addi (s : State) (f : Fields) (t : Nat) : List Wr :=
  let l := labelOf s 0x082 f t
  if f.ty == .none then wr64 f.d (wrap64 ((read64 s t f.a).toInt + f.imm12)) l
  else wr32 f.d (wrap32 ((read32 s t f.a).toInt + f.imm12)) l

def execAddi (f : Fields) (s : State) : Host.Outcome State Fault Refusal :=
  .next (runWrites 0x082 f [] (fun s t => addi s f t) s)

def execMovx (f : Fields) (s : State) : Host.Outcome State Fault Refusal :=
  .next (runWrites 0x083 f [] (fun s t =>
    wr64 f.d (Word.pair (f.imm16.setWidth 32) 0) (labelOf s 0x083 f t)) s)

/-- A predicate source, inverted where its bit is set (R156). -/
def logicSrc (s : State) (f : Fields) (t : Nat) (o : Opnd) (bit : Nat) : Bool := readPred s t o != f.bit bit

/-- Predicate logic (R156). -/
def runLogic (op : Nat) (f : Fields) (g : Bool → Bool → Bool) (s : State) : State :=
  runWrites op f [] (fun s t =>
    wrPred f.d (g (logicSrc s f t f.a 0) (logicSrc s f t f.b 1)) (labelOf s op f t)) s

def execPand (f : Fields) (s : State) : Host.Outcome State Fault Refusal := .next (runLogic 0x084 f (fun a b => a && b) s)
def execPor (f : Fields) (s : State) : Host.Outcome State Fault Refusal := .next (runLogic 0x085 f (fun a b => a || b) s)
def execPxor (f : Fields) (s : State) : Host.Outcome State Fault Refusal := .next (runLogic 0x086 f (fun a b => a != b) s)
def execPnot (f : Fields) (s : State) : Host.Outcome State Fault Refusal := .next (runLogic 0x087 f (fun a _ => !a) s)

/-- p0 to p6 as bits [6:0] (R156). -/
def predBits (x : Thread) : Word := BitVec.ofNat 32 (x.preds.toNat % 128)

/-- P2V reads all of p0 to p6, so its result carries their labels (R109, R272). -/
def p2vLabel (s : State) (f : Fields) (t : Nat) : Label :=
  (List.range 7).foldl (fun l n => l ||| (s.gang (gangOf t)).predLabel n) (labelOf s 0x088 f t)

def execP2v (f : Fields) (s : State) : Host.Outcome State Fault Refusal :=
  .next (runWrites 0x088 f [0, 1, 2, 3, 4, 5, 6] (fun s t => wr32 f.d (predBits (s.thread t)) (p2vLabel s f t)) s)

/-- The predicates that V2P's mask names (R156). -/
def v2pIx (f : Fields) : List Nat := (List.range 7).filter (fun k => f.bit k)

def execV2p (f : Fields) (s : State) : Host.Outcome State Fault Refusal :=
  .next (runWrites 0x089 f (v2pIx f) (fun s t =>
    (v2pIx f).map (fun k => .pred k ((read32 s t f.a).getLsbD k) (labelOf s 0x089 f t))) s)

/-- A lane's register as writes of earlier clk have left it (R157). -/
def seenTy (s : State) (u : Nat) (ty : Ty) (o : Opnd) : DWord :=
  let r (n : Nat) : Word := (s.thread u).seenReg (s.clkOf u) n
  match o with
  | .v n => if n = 255 then 0 else if ty.is64 then Word.pair (r (n.toNat + 1)) (r n.toNat) else (r n.toNat).setWidth 64
  | _ => 0

/-- RDLANE: the register of the lane that B names, 0 for a lane never launched, and a block while it is empty (R157). -/
def rdlane (s : State) (f : Fields) (t : Nat) : Res :=
  let g := gangOf t
  let l := (read32 s t f.b).toNat % 32
  let u := threadAt g l
  let lbl := labelOf s 0x08A f t
  if (s.gang g).lanes ≤ l then .go { writes := wrTy f.ty f.d 0 lbl }
  else
    match sourceEmpty s u (slotsOf 0x08A f).a f.a with
    | some r => .block (.lane l r)
    | none => .go { writes := wrTy f.ty f.d (seenTy s u f.ty f.a) lbl }

def execRdlane (f : Fields) (s : State) : Host.Outcome State Fault Refusal :=
  .next (runGroup 0x08A f [] [] (fun s t => rdlane s f t) s)

/-! Special registers (R87, R158). -/

/-- The value of a special register for a thread, the live high halves included. DEDUCED (log 13): a group that issues beside a PART of
its gang in one clk reads the partition register as R132 has it, the value before that clk; R158 does not say that its next instruction
is issued under another. -/
def special (s : State) (t n : Nat) : Word :=
  let x := s.thread t
  let g := s.gang (gangOf t)
  let u := s.unit (unitOfThread t)
  let k := s.launch u.launch
  let w (v : Nat) : Word := BitVec.ofNat 32 v
  match n with
  | 128 => w (laneOf t)
  | 129 => w (gangidOf (gangOf t))
  | 130 => w u.gangs
  | 131 => w u.unitid
  | 132 => w (k.units - 1)
  | 133 => w (s.coreOf t % 5)
  | 134 => w u.cluster
  | 135 => w (u.slice - (s.part u.part).first)
  | 136 => w u.part
  | 137 => w u.regs
  | 144 => w (s.clk u.slice)
  | 145 => w (s.clk u.slice / 2 ^ 32)
  | 146 => w s.ns
  | 147 => w (s.ns / 2 ^ 32)
  | 152 => x.mode
  | 153 => (g.seenPart (s.clkOf t)).setWidth 32
  | 154 => w x.cls
  | 160 => Config.encHash.setWidth 32
  | 161 => (Config.encHash >>> 32).setWidth 32
  | 224 => x.trapkind
  | 225 => x.trappc.setWidth 32
  | 226 => (x.trappc >>> 32).setWidth 32
  | 227 => x.trapinfo
  | _ => 0

/-- The class-10 index of an operand. -/
def kIndex (o : Opnd) : Nat :=
  match o with
  | .k n => n.toNat
  | _ => 0

/-- What an SRD returns: a high half returns the shadow that the thread's last SRD captured (R158). -/
def srdValue (s : State) (t n : Nat) : Word :=
  match (s.thread t).highShadow with
  | some (lo, h) => if lo + 1 = n then h else special s t n
  | none => special s t n

/-- The shadow that an SRD leaves (R158). -/
def srdShadow (s : State) (t n : Nat) : Option (Nat × Word) :=
  if n = 144 ∨ n = 146 then some (n, special s t (n + 1)) else none

/-- A trap register named outside a handler (R87). -/
def trapRegOutside (n : Nat) (s : State) (t : Nat) : Bool := 224 ≤ n && n ≤ 227 && !(s.thread t).inTrap

def execSrd (f : Fields) (s : State) : Host.Outcome State Fault Refusal :=
  let n := kIndex f.a
  .next (runLegal 0x08B f 9 (trapRegOutside n) (runGroup 0x08B f [] [] (fun s t =>
    .go { writes := wr32 f.d (srdValue s t n) (labelOf s 0x08B f t), high := some (srdShadow s t n) })) s)

/-- trappclo or trappchi written; bits [31:16] of trappchi are ignored (R87). -/
def swrPc (old : Pc) (n : Nat) (x : Word) : Pc :=
  if n = 225 then BitVec.ofNat 48 (old.toNat / 2 ^ 32 * 2 ^ 32 + x.toNat)
  else BitVec.ofNat 48 (x.toNat % 2 ^ 16 * 2 ^ 32 + old.toNat % 2 ^ 32)

def execSwr (f : Fields) (s : State) : Host.Outcome State Fault Refusal :=
  let n := kIndex f.d
  .next (runLegal 0x08C f 9 (trapRegOutside n) (runGroup 0x08C f [] [] (fun s t =>
    .go { writes := [.ctl (labelOf s 0x08C f t)], trappc := some (swrPc (s.thread t).trappc n (read32 s t f.a)) })) s)

/-- SETMODE under its mask (R159). -/
def setmode (old : Word) (m : Nat) (x : Word) : Word :=
  let k : Word := BitVec.ofNat 32 m
  (old &&& ~~~k) ||| (x &&& k)

def execSetmode (f : Fields) (s : State) : Host.Outcome State Fault Refusal :=
  .next (runGroup 0x08D f [] [] (fun s t => .go { mode := some (setmode (s.thread t).mode f.low (read32 s t f.a)) }) s)

def execPartW (f : Fields) (s : State) : Host.Outcome State Fault Refusal :=
  .next (runGroup 0x08E f [] [] (fun _ _ => .go { part := some (BitVec.ofNat 3 (f.bits 0 3)) }) s)

end Sys2Proof.Machine
end

