-- ==== Sys2Proof/Machine/Hash.lean ====
section
/-! DEFINITION. SHAKE256 (R23, R101, R271, R442 to R445): Keccak-f[1600] at a rate of 136 bytes; log 6. -/

namespace Sys2Proof.Machine

/-- The 25 lanes of the permutation's state, lane (x, y) at x + 5y. -/
abbrev Lanes := List (BitVec 64)

/-- Lane (x, y), both taken modulo 5. -/
def Lanes.at' (a : Lanes) (x y : Nat) : BitVec 64 := a.getD (x % 5 + 5 * (y % 5)) 0

/-- Rotation offsets of the lanes, lane (x, y) at x + 5y. -/
def laneTurns : List Nat :=
  [0, 1, 62, 28, 27, 36, 44, 6, 55, 20, 3, 10, 43, 25, 39, 41, 45, 15, 21, 8, 18, 2, 61, 56, 14]

/-- Round constants. -/
def roundConstants : List (BitVec 64) :=
  [0x0000000000000001#64, 0x0000000000008082#64, 0x800000000000808A#64, 0x8000000080008000#64, 0x000000000000808B#64,
    0x0000000080000001#64, 0x8000000080008081#64, 0x8000000000008009#64, 0x000000000000008A#64, 0x0000000000000088#64,
    0x0000000080008009#64, 0x000000008000000A#64, 0x000000008000808B#64, 0x800000000000008B#64, 0x8000000000008089#64,
    0x8000000000008003#64, 0x8000000000008002#64, 0x8000000000000080#64, 0x000000000000800A#64, 0x800000008000000A#64,
    0x8000000080008081#64, 0x8000000000008080#64, 0x0000000080000001#64, 0x8000000080008008#64]

/-- A value for every lane. -/
def lanesOf (g : Nat → Nat → BitVec 64) : Lanes := (List.range 25).map (fun i => g (i % 5) (i / 5))

/-- The parity of a column. -/
def Lanes.column (a : Lanes) (x : Nat) : BitVec 64 := (List.range 5).foldl (fun c y => c ^^^ a.at' x y) 0

/-- One round of the permutation. -/
def keccakRound (a : Lanes) (rc : BitVec 64) : Lanes :=
  let c := (List.range 5).map a.column
  let d (x : Nat) : BitVec 64 := c.getD ((x + 4) % 5) 0 ^^^ (c.getD ((x + 1) % 5) 0).rotateLeft 1
  let ds := (List.range 5).map d
  let turned := lanesOf (fun x y => (a.at' x y ^^^ ds.getD x 0).rotateLeft (laneTurns.getD (x + 5 * y) 0))
  let b := lanesOf (fun x y => turned.at' (x + 3 * y) x)
  let e := lanesOf (fun x y => b.at' x y ^^^ (~~~(b.at' (x + 1) y) &&& b.at' (x + 2) y))
  e.set 0 (e.getD 0 0 ^^^ rc)

/-- The permutation. -/
def keccak (a : Lanes) : Lanes := roundConstants.foldl keccakRound a

/-- Bytes of a block. -/
def shakeRate : Nat := 136

/-- A block of bytes taken in. -/
def absorb (a : Lanes) (block : List Byte) : Lanes :=
  keccak ((List.range 25).map (fun i => a.getD i 0 ^^^ BitVec.ofNat 64 (leNat ((block.drop (8 * i)).take 8))))

/-- The message padded for SHAKE: 1F, zeros, and the top bit of the last byte. -/
def shakePad (m : List Byte) : List Byte :=
  let n := shakeRate - m.length % shakeRate
  if n = 1 then m ++ [0x9F#8] else m ++ [0x1F#8] ++ List.replicate (n - 2) 0 ++ [0x80#8]

/-- The blocks of a padded message taken in one after another. -/
def absorbAll : Nat → List Byte → Lanes → Lanes
  | 0, _, a => a
  | n + 1, m, a => absorbAll n (m.drop shakeRate) (absorb a (m.take shakeRate))

/-- The first n bytes of SHAKE256, at most 136: no digest of the spec is longer. -/
def shake256 (m : List Byte) (n : Nat) : List Byte :=
  let p := shakePad m
  ((absorbAll (p.length / shakeRate) p (List.replicate 25 0)).flatMap (fun x => leBytes 8 x.toNat)).take n

end Sys2Proof.Machine
end

