-- ==== Sys2Proof/Machine/Jobs.lean ====
section
/-! DEFINITION. The commands on jobs and queues: JOB_OPEN, JOB_CLOSE, PHASE_NEXT, SAVE_AREA, RESUME_JOB, SUBMIT, CANCEL, QUEUE_CONFIG
and the status window (R40, R41, R44 to R46, R50 to R53, R59, R448). -/

namespace Sys2Proof.Machine

/-- The job that a message names, while it has not completed. -/
def jobOf (s : State) (m : Message) : Option Job := tabGet (s.endpoint m.ep).jobs m.job

/-- The same where it is open (R448). -/
def openJob (s : State) (m : Message) : Option Job := (jobOf s m).filter Job.isOpen

/-- A job of an endpoint set. -/
def State.setJob (s : State) (ep j : Nat) (x : Job) : State := s.modEndpoint ep (fun e => { e with jobs := tabPut e.jobs j x })

/-! Opening and closing (R50, R51). -/

/-- A new phase level of a job: after a failed phase it completes with DEPENDENCY_FAILED (R52). -/
def newPhase (s : State) (ep job number : Nat) (isFailed : Bool) : Nat × State :=
  newLevel (addChildren s job 1)
    { kind := 3, ident := number, parent := some job, ep := ep, job := job, fail := if isFailed then some stDependencyFailed else none }

/-- A job opened with its phase 0. -/
def openNewJob (s : State) (ep j : Nat) : State :=
  let k := s.takeId
  let s := k.2.setLevel k.1 { kind := 4, ident := j, parent := none, ep := ep, job := k.1 }
  let p := newPhase s ep k.1 0 false
  p.2.setJob ep j { level := k.1, phase := p.1, parts := ((s.endpoint ep).bound).toList }

/-- Open jobs of an endpoint. -/
def openJobs (e : Endpoint) : Nat := (e.jobs.filter (fun x => x.2.isOpen)).length

def actJobOpen (m : Message) (s : State) : Reply × State :=
  if m.job = 0 || (jobOf s m).isSome then (Reply.badJob, s)
  else if 8 ≤ openJobs (s.endpoint m.ep) then ({ status := stJobLimit }, s)
  else (Reply.ok, openNewJob s m.ep m.job)

def execJobOpen (m : Message) (s : State) : Host.Outcome State Fault Refusal := hostCommand .jobOpen (sequenced actJobOpen) m s

/-- A level closed to new children. -/
def closeLevel (s : State) (k : Nat) : State := s.modLevel k (fun x => { x with closed := true })

/-- JOB_CLOSE closes the job and its open phase. -/
def actJobClose (m : Message) (s : State) : Reply × State :=
  match openJob s m with
  | none => (Reply.badJob, s)
  | some x => (Reply.ok, (closeLevel (closeLevel s x.phase) x.level).setJob m.ep m.job { x with isOpen := false })

def execJobClose (m : Message) (s : State) : Host.Outcome State Fault Refusal := hostCommand .jobClose (sequenced actJobClose) m s

/-- PHASE_NEXT closes the open phase and opens the next. -/
def actPhaseNext (m : Message) (s : State) : Reply × State :=
  match openJob s m with
  | none => (Reply.badJob, s)
  | some x =>
    let p := newPhase (closeLevel s x.phase) m.ep x.level (x.phaseNumber + 1) x.failed
    (Reply.ok, p.2.setJob m.ep m.job { x with phase := p.1, phaseNumber := x.phaseNumber + 1 })

def execPhaseNext (m : Message) (s : State) : Host.Outcome State Fault Refusal := hostCommand .phaseNext (sequenced actPhaseNext) m s

/-! Save areas and resumption (R41, R59, R412). -/

def actSaveArea (m : Message) (s : State) : Reply × State :=
  let va := fieldAt m.payload 0 8
  let n := fieldAt m.payload 8 8
  if va % 4096 != 0 || vaTop ≤ va then (Reply.badField 0, s)
  else if n % 4096 != 0 || 2 ^ 40 ≤ n then (Reply.badField 8, s)
  else
    match openJob s m with
    | none => (Reply.badJob, s)
    | some x => (Reply.ok, s.setJob m.ep m.job { x with saveArea := if n = 0 then none else some (va, n), areaPart := partOfEp s m.ep })

def execSaveArea (m : Message) (s : State) : Host.Outcome State Fault Refusal := hostCommand .saveArea (sequenced actSaveArea) m s

/-- RESUME_JOB restores a saved job; one whose image has been changed is discarded (R412). -/
def actResumeJob (m : Message) (s : State) : Reply × State :=
  match jobOf s m with
  | none => (Reply.badJob, s)
  | some x =>
    if !hasSaved s x then (Reply.badJob, s)
    else if imageIntact s x then (Reply.ok, resumeJob s m.ep m.job x)
    else (Reply.badJob, discardJob s m.ep m.job x)

def execResumeJob (m : Message) (s : State) : Host.Outcome State Fault Refusal := hostCommand .resumeJob (sequenced actResumeJob) m s

/-! Queues (R45). -/

def isPowerOfTwo (n : Nat) : Bool := (List.range 33).any (fun k => n == 2 ^ k)

def actQueueConfig (m : Message) (s : State) : Reply × State :=
  let q := fieldAt m.payload 0 1
  let depth := fieldAt m.payload 4 4
  let p := partOfEp s m.ep
  let x := tabGetD {} (s.part p).queues q
  if !zeroBytes m.payload 1 4 then (Reply.badField 1, s)
  else if !isPowerOfTwo depth || depth < 16 || 4096 < depth then (Reply.badField 4, s)
  else if x.owner.any (· != m.ep) then ({ status := stNotOwner }, s)
  else if depth < x.entries.length then ({ status := stQueueFull }, s)
  else (Reply.ok, s.modPart p (fun y => { y with queues := tabPut y.queues q { x with owner := some m.ep, depth := depth } }))

def execQueueConfig (m : Message) (s : State) : Host.Outcome State Fault Refusal := hostCommand .queueConfig (sequenced actQueueConfig) m s

/-! SUBMIT (R45, R46, R50 to R53). -/

/-- The entries of a SUBMIT. -/
def entriesOf (m : Message) : List (List Byte) :=
  (List.range (fieldAt m.payload 2 2)).map (fun i => (m.payload.drop (8 + 64 * i)).take 64)

/-- The number of the first entry that breaks a structural rule. -/
def firstBad : Nat → List (List Byte) → Option Nat
  | _, [] => none
  | i, e :: l => if entryOk e then firstBad (i + 1) l else some i

/-- The level of an entry under a phase: a launch under a one-node graph that no identifier names; what joins a cancelled phase is
due at once (R50, R53). -/
def entryLevel (s : State) (ep job phase : Nat) (b : List Byte) (isCancelled : Bool) : Nat × State :=
  let top : Level :=
    { kind := 2, ident := entryIdent b, parent := some phase, ep := ep, job := job,
      counter := if isCancelled && entryKind b != 1 then 0 else if entryKind b = 2 then fieldAt b 16 2 else 1, closed := true,
      ask := entryAsks b, cancelled := isCancelled, hidden := entryKind b == 1 }
  let g := newLevel (addChildren s phase 1) top
  if entryKind b = 1 then
    newLevel g.2 { kind := 1, ident := entryIdent b, parent := some g.1, ep := ep, job := job,
                   counter := if isCancelled then 0 else entryUnits b, closed := true, ask := entryAsks b, cancelled := isCancelled }
  else g

/-- The phase and the job ask for their messages where an entry does (R430). -/
def askAbove (s : State) (x : Job) (b : List Byte) : State :=
  if entryAsks b then (s.modLevel x.phase (fun l => { l with ask := true })).modLevel x.level (fun l => { l with ask := true }) else s

/-- One entry appended: it takes its place in the queue, or joins a cancelled phase and never starts (R53). -/
def appendEntry (ep p q : Nat) (x : Job) (isCancelled : Bool) (s : State) (b : List Byte) : State :=
  let l := entryLevel (askAbove s x b) ep x.level x.phase b isCancelled
  if isCancelled then l.2
  else
    l.2.modPart p (fun y =>
      let z := tabGetD {} y.queues q
      { y with queues := tabPut y.queues q { z with
          last := some l.1
          entries := z.entries ++ [{ bytes := b, ep := ep, job := x.level, phase := x.phase, level := l.1, prev := z.last }] } })

def actSubmit (m : Message) (s : State) : Reply × State :=
  let count := fieldAt m.payload 2 2
  let p := partOfEp s m.ep
  let q := fieldAt m.payload 0 1
  let x := tabGetD {} (s.part p).queues q
  if !zeroBytes m.payload 1 2 then (Reply.badField 1, s)
  else if count = 0 || 1023 < count then (Reply.badField 2, s)
  else if !zeroBytes m.payload 4 8 then (Reply.badField 4, s)
  else
    match firstBad 0 (entriesOf m) with
    | some i => ({ status := stBadEntry, index := i }, s)
    | none =>
      if x.owner != some m.ep then ({ status := stNotOwner }, s)
      else
        match openJob s m with
        | none => (Reply.badJob, s)
        | some j =>
          let isCancelled := ((s.levelAt j.phase).map Level.cancelled).getD false
          if j.failed then ({ status := stDependencyFailed }, s)
          else if x.depth < x.entries.length + count then ({ status := stQueueFull }, s)
          else (Reply.ok, (entriesOf m).foldl (appendEntry m.ep p q j isCancelled) s)

def execSubmit (m : Message) (s : State) : Host.Outcome State Fault Refusal := hostCommand .submit (sequenced actSubmit) m s

/-! CANCEL (R41, R53). -/

/-- The levels of a job that a level code and an identifier name, the newest last; hidden levels bear no identifier. -/
def namedLevels (s : State) (x : Job) (kind ident : Nat) : List (Nat × Level) :=
  s.levels.filter (fun l => l.2.kind == kind && l.2.job == x.level && !l.2.hidden && l.2.ident == ident)

/-- The levels that a CANCEL acts on: those named that have no outcome yet. -/
def toCancel (s : State) (x : Job) (kind ident : Nat) : List Nat :=
  if kind = 4 then (if (s.levelAt x.level).any (fun l => l.outcome.isNone) then [x.level] else []) else ((namedLevels s x kind ident).filter (fun l => l.2.outcome.isNone)).map Prod.fst

def actCancel (m : Message) (s : State) : Reply × State :=
  let kind := fieldAt m.payload 0 1
  let ident := fieldAt m.payload 4 4
  if kind = 0 || 4 < kind then (Reply.badField 0, s)
  else if !zeroBytes m.payload 1 4 then (Reply.badField 1, s)
  else if kind = 4 && ident != 0 then (Reply.badField 4, s)
  else
    match (jobOf s m).map (fun x => toCancel s x kind ident) with
    | some (k :: ks) => (Reply.ok, (k :: ks).foldl (fun s k => if cancelTakes s k then cancelAt s k else s) s)
    | _ => ({ status := stAlreadyDone }, s)

def execCancelCmd (m : Message) (s : State) : Host.Outcome State Fault Refusal := hostCommand .cancel (sequenced actCancel) m s

/-! The status window (R44). -/

/-- The record of a level: children not completed, of which no rule states a number that 4 bytes do not hold (log 4), status or 0xFFFF while
it runs, and the number of its message. -/
def statusRecord (s : State) (x : Level) : List Byte :=
  (match x.status with
    | some k => leBytes 4 0 ++ leBytes 2 k
    | none => leBytes 4 (counterWord s x.counter).toNat ++ leBytes 2 0xFFFF) ++ leBytes 2 0 ++ leBytes 4 x.message ++ leBytes 4 0

/-- The record where the address names no level. -/
def noStatusRecord : List Byte := leBytes 4 0 ++ leBytes 2 0xFFFE ++ leBytes 10 0

def actStatusWindowRead (m : Message) (s : State) : Reply × State :=
  let a := fieldAt m.payload 0 8
  let kind := a / 2 ^ 32 % 8
  let ident := a % 2 ^ 32
  if a / 2 ^ 35 % 2 ^ 27 != 0 || kind = 0 || 4 < kind || (kind = 4 && ident != 0) then (Reply.badField 0, s)
  else if fieldAt m.payload 8 4 != 16 then (Reply.badField 8, s)
  else if !zeroBytes m.payload 12 16 then (Reply.badField 12, s)
  else
    let found := (jobOf s m).bind (fun x =>
      if kind = 4 then s.levelAt x.level else ((namedLevels s x kind ident).getLast?).map Prod.snd)
    ({ status := stOk, payload := (found.map (statusRecord s)).getD noStatusRecord }, s)

def execStatusWindowRead (m : Message) (s : State) : Host.Outcome State Fault Refusal :=
  hostCommand .statusWindowRead (sequenced actStatusWindowRead) m s

end Sys2Proof.Machine
end

