-- ==== Sys2Proof/Machine/Transfer.lean ====
section
/-! DEFINITION. Host transfers: MEM_WRITE and MEM_READ of partition memory and of the request ring (R41, R239, R242, R243, R264, R278,
R280 to R283). -/

namespace Sys2Proof.Machine

/-- The bytes of the control area. -/
def controlBytes : Nat := 2 ^ 16

/-- The address of a transfer: physical where bit 63 is set, and its other bits. -/
def isPhysical (a : Nat) : Bool := a.testBit 63
def plainAddress (a : Nat) : Nat := a % 2 ^ 63

/-- A frame held by a loaded object (R450). -/
def frameHeld (p : Partition) (f : Nat) : Bool := p.objects.any (fun o => o.2.frames.contains f)

/-- A partition-relative range outside the partition's stacks, or in the page-table gigabyte (R60, R243). -/
def badPhysical (p : Partition) (x n : Nat) : Bool := p.bytes < x + n || (x < tableBase + 2 ^ 30 && tableBase < x + n)

/-- What a transfer asks of a page: not to be device-private, and for a write not to lie in a held frame. -/
structure HostNeed where
  shared : Bool
  unheld : Bool

/-- One span of a physical transfer under the frame's label (R278). -/
def physicalSpan (s : State) (part : Nat) (need : HostNeed) (sp : Nat × Nat) : Option Piece :=
  let p := s.part part
  if badPhysical p sp.1 sp.2 || (need.unheld && frameHeld p (sp.1 / 4096)) then none
  else some { va := sp.1, n := sp.2, leaf := { stackLeaf with label := frameLabel s part (sp.1 / 4096) }, home := .phys (p.phys sp.1) }

/-- One span of a virtual transfer, through any permission (R243, R451). -/
def virtualSpan (s : State) (part : Nat) (need : HostNeed) (sp : Nat × Nat) : Option Piece :=
  if windowBase < sp.1 + sp.2 then none
  else
    match walk s part sp.1 with
    | .leaf l =>
      if need.shared && l.cls == 2 then none
      else
        match homeOf s part sp.1 l with
        | .ok (.remote _ _) => none
        | .ok h =>
          let x : Piece := { va := sp.1, n := sp.2, leaf := l, home := h }
          if outside s part [x] then none else some x
        | .error _ => none
    | _ => none

def hostSpan (s : State) (part : Nat) (phys : Bool) (need : HostNeed) (sp : Nat × Nat) : Option Piece :=
  if phys then physicalSpan s part need sp else virtualSpan s part need sp

/-- The pieces of a transfer of n bytes, or the address of the first span that it may not touch. -/
def hostPieces (s : State) (part : Nat) (phys : Bool) (need : HostNeed) (a n : Nat) : Except Nat (List Piece) :=
  (spans (n / 32 + 2) a n).foldr (fun sp acc => match hostSpan s part phys need sp with
    | some x => acc.map (x :: ·)
    | none => .error sp.1) (.ok [])

/-- The bytes of a transfer that lie in the control area (R243). -/
def ringPart (phys : Bool) (a n : Nat) : Nat := if phys then 0 else min n (controlBytes - a)

/-! MEM_WRITE. -/

/-- The valid leaves that map a frame, the structures of their regions included (R278). -/
def leavesOfFrame (s : State) (part f : Nat) : List Leaf :=
  ((allLeaves s part).map Prod.snd).filter (fun l => (leafFrames s part l).contains f)

/-- A piece that the ingress label may not enter: of a page, the page's label; of a frame, the label of any leaf that maps it
(R278 to R280). -/
def ingressFails (s : State) (part : Nat) (phys : Bool) (l : Label) (x : Piece) : Bool :=
  if phys then (leavesOfFrame s part (x.va / 4096)).any (fun y => !Label.subset l y.label) else !Label.subset l x.leaf.label

/-- The pieces written in address order, tiles being born; the address that the pool had no tile for, where one is exhausted
(R258, R264). -/
def writeHost (part : Nat) : List Piece → List Byte → State → Option Nat × State
  | [], _, s => (none, s)
  | x :: l, bs, s =>
    match birthPiece s none part x with
    | (none, s) => (some x.va, s)
    | (some _, s) => writeHost part l (bs.drop x.n) (writePiece s none part x (bs.take x.n)).2

/-- Frames that a physical write has touched take the ingress label too (R278). -/
def labelFrames (s : State) (part : Nat) (l : Label) (ps : List Piece) : State :=
  ps.foldl (fun s x => s.setFrameLabel part (x.va / 4096) (frameLabel s part (x.va / 4096) ||| l)) s

/-- The ring bytes written; a write that touches bytes 0 to 3 writes the tail (R242). -/
def writeRing (s : State) (part a : Nat) (bs : List Byte) : State :=
  s.modPart part (fun p => { p with ring := Memory.write p.ring a bs, tailWritten := p.tailWritten || decide (a < 4) })

/-- A checked transfer performed: its ring bytes, then its pieces. -/
def performHost (s : State) (part : Nat) (phys : Bool) (a r : Nat) (l : Label) (ps : List Piece) (bs : List Byte) : Reply × State :=
  let s := if r = 0 then s else writeRing s part a (bs.take r)
  match writeHost part ps (bs.drop r) s with
  | (some va, s) => ({ status := stNoSpace, index := va - a }, s)
  | (none, s) => (Reply.ok, if phys then labelFrames s part l ps else s)

/-- NOT_PERMITTED at a byte offset. -/
def Reply.notPermitted (o : Nat) : Reply := { status := stNotPermitted, index := o }

def actMemWrite (m : Message) (s : State) : Reply × State :=
  let part := partOfEp s m.ep
  let phys := isPhysical (fieldAt m.payload 0 8)
  let a := plainAddress (fieldAt m.payload 0 8)
  let bs := m.payload.drop 8
  let r := ringPart phys a bs.length
  let l := ingressLabel s part m.sender
  if m.toMgmt then (Reply.badField 0, s)
  else
    match hostPieces s part phys { shared := true, unheld := true } (a + r) (bs.length - r) with
    | .error va => (Reply.notPermitted (va - a), s)
    | .ok ps =>
      match ps.find? (ingressFails s part phys l) with
      | some x => (Reply.notPermitted (x.va - a), s)
      | none => performHost s part phys a r l ps bs

def execMemWrite (m : Message) (s : State) : Host.Outcome State Fault Refusal := hostCommand .memWrite (sequenced actMemWrite) m s

/-! MEM_READ. -/

/-- A label that steps 1 and 2 of R282 pass at a peer entry. -/
def passesAlone (s : State) (part : Nat) (peer : Option Nat) (l : Label) : Bool :=
  l == 0 || (originCount l == 1 && (match peer.bind (tabGet (s.part part).peers) with
    | some p => Label.subset l p.mask
    | none => false))

/-- The offset that a refused MEM_READ reports (R283). -/
def refusedOffset (s : State) (part : Nat) (peer : Option Nat) (a : Nat) (ps : List Piece) : Nat :=
  ((ps.find? (fun x => !passesAlone s part peer x.leaf.label)).map (fun x => x.va - a)).getD 0

/-- A MEM_READ decided whole by Teasel before any byte is sent (R281 to R283). -/
def actMemRead (m : Message) (s : State) : Reply × State :=
  let part := partOfEp s m.ep
  let addr := fieldAt m.payload 0 8
  let phys := isPhysical addr
  let a := plainAddress addr
  let n := fieldAt m.payload 8 4
  let r := ringPart phys a n
  if m.toMgmt then (Reply.badField 0, s)
  else if n = 0 || 65504 < n then (Reply.badField 8, s)
  else if !zeroBytes m.payload 12 16 then (Reply.badField 12, s)
  else
    match hostPieces s part phys { shared := true, unheld := false } (a + r) (n - r) with
    | .error va => (Reply.notPermitted (va - a), s)
    | .ok ps =>
      let peer := peerIndex s part m.sender
      match release s part (pagesLabel ps) peer addr n 1 (peer.getD 0xFF) with
      | (some _, s) => (Reply.notPermitted (refusedOffset s part peer a ps), s)
      | (none, s) => ({ status := stOk, payload := Memory.read (s.part part).ring a r ++ ps.flatMap (pieceBytes s) }, s)

def execMemRead (m : Message) (s : State) : Host.Outcome State Fault Refusal := hostCommand .memRead (sequenced actMemRead) m s

end Sys2Proof.Machine
end

