-- ==== Sys2Proof/Machine/Loader.lean ====
section
/-! DEFINITION. The loader: a Darermam object's image, the ten steps of a load, and the unload (R17 to R33, R404, R447, R450). -/

namespace Sys2Proof.Machine

/-! The image (R17, R18, R22, R27). -/

/-- A section table entry with its bytes (R18). -/
structure Sec where
  kind : Nat
  align : Nat
  fo : Nat
  size : Nat
  voff : Nat
  hash : BitVec 64
  reservedOk : Bool
  data : List Byte
  deriving DecidableEq, Repr

/-- A symbol table entry (R22). -/
structure Sym where
  name : List Byte
  nameOk : Bool
  sec : Nat
  type : Nat
  binding : Nat
  value : Nat
  deriving DecidableEq, Repr

/-- A relocation record (R27). -/
structure Reloc where
  off : Nat
  sec : Nat
  kind : Nat
  sym : Nat
  addend : Int
  reservedOk : Bool
  deriving DecidableEq, Repr

/-- An image as its tables give it. -/
structure Image where
  preferred : Nat
  size : Nat
  hash : BitVec 64
  kernels : Nat
  secs : List Sec
  syms : List Sym
  relocs : List Reloc
  deriving DecidableEq, Repr

/-- A refusal: its status and its failing index. -/
abbrev Refused := Nat × Nat

/-- The bytes up to the first NUL. -/
def untilNul (bs : List Byte) : List Byte := bs.takeWhile (fun b => b != 0)

/-- Entry i of the section table at an offset. -/
def secAt (img : List Byte) (tbl i : Nat) : Sec :=
  let e := (img.drop (tbl + 32 * i)).take 32
  let kind := fieldAt e 0 1
  let size := fieldAt e 8 4
  { kind := kind, align := fieldAt e 1 1, fo := fieldAt e 4 4, size := size, voff := fieldAt e 16 8,
    hash := BitVec.ofNat 64 (fieldAt e 24 8), reservedOk := zeroBytes e 2 4 && zeroBytes e 12 16,
    data := if kind = 4 then [] else (img.drop (fieldAt e 4 4)).take size }

/-- Entry i of the symbol table at an offset, its name from the string table. -/
def symAt (img : List Byte) (tbl strs i : Nat) : Sym :=
  let e := (img.drop (tbl + 24 * i)).take 24
  let o := strs + fieldAt e 0 4
  { name := untilNul (img.drop o), nameOk := o < img.length, sec := fieldAt e 4 2, type := fieldAt e 6 1, binding := fieldAt e 7 1,
    value := fieldAt e 8 8 }

/-- Record i of the relocation table at an offset. -/
def relocAt (img : List Byte) (tbl i : Nat) : Reloc :=
  let e := (img.drop (tbl + 16 * i)).take 16
  { off := fieldAt e 0 4, sec := fieldAt e 4 2, kind := fieldAt e 6 1, sym := fieldAt e 8 4,
    addend := (BitVec.ofNat 32 (fieldAt e 12 4)).toInt, reservedOk := zeroBytes e 7 8 }

/-- What the header of 64 bytes must hold (R17). -/
def headerOk (img : List Byte) : Bool :=
  64 ≤ img.length && fieldAt img 0 4 == 0x4F4D5244 && fieldAt img 4 2 == 3 && zeroBytes img 6 8 && zeroBytes img 56 64 &&
    fieldAt img 16 8 % 2 ^ 16 == 0 && fieldAt img 16 8 < vaTop && 1 ≤ fieldAt img 28 2 && fieldAt img 28 2 ≤ 64 && fieldAt img 30 2 ≤ 256

/-- The tables lie within the file. -/
def tablesOk (img : List Byte) : Bool :=
  fieldAt img 32 4 + 32 * fieldAt img 28 2 ≤ img.length && fieldAt img 36 4 + 24 * fieldAt img 40 4 ≤ img.length &&
    fieldAt img 44 4 + 16 * fieldAt img 48 4 ≤ img.length && fieldAt img 52 4 ≤ img.length

/-- The tables of an image. -/
def imageOf (img : List Byte) : Image :=
  { preferred := fieldAt img 16 8, size := fieldAt img 24 4, hash := BitVec.ofNat 64 (fieldAt img 8 8), kernels := fieldAt img 30 2,
    secs := (List.range (fieldAt img 28 2)).map (secAt img (fieldAt img 32 4)),
    syms := (List.range (fieldAt img 40 4)).map (symAt img (fieldAt img 36 4) (fieldAt img 52 4)),
    relocs := (List.range (fieldAt img 48 4)).map (relocAt img (fieldAt img 44 4)) }

/-- The index of the first element that fails. -/
def firstIndex {α : Type} (p : α → Bool) (l : List α) : Option Nat := l.findIdx? p

/-! Steps 1 to 3 (R17 to R19, R26, R447). -/

/-- A section table entry that breaks R18 or leaves the file. -/
def badSec (len : Nat) (x : Sec) : Bool :=
  x.kind == 0 || 7 < x.kind || !x.reservedOk || (x.kind != 1 && x.hash != 0) || (x.kind != 4 && len < x.fo + x.size)

/-- A kind-7 section that breaks the rule on descriptor sections (R447): there is to be none, its size is wrong, or one stands before
it. That of two it is the later one that breaks the rule is a DESIGN CHOICE (log 27). -/
def badDescSec (im : Image) (e : Sec × Nat) : Bool :=
  e.1.kind == 7 && (im.kernels == 0 || e.1.size != 64 * im.kernels || (im.secs.take e.2).any (fun x => x.kind == 7))

/-- Step 1: OBJ_FORMAT. A symbol whose name begins past the file fails it without an index, and a name may end with the file in place
of a NUL: DESIGN CHOICE (log 27). -/
def checkFormat (img : List Byte) : Except Refused Image :=
  let im := imageOf img
  if !headerOk img || !tablesOk img then .error (stObjFormat, noIndex)
  else
    match firstIndex (fun e => badSec img.length e.1 || badDescSec im e) im.secs.zipIdx with
    | some i => .error (stObjFormat, i)
    | none =>
      if im.kernels != 0 && !(im.secs.any (fun x => x.kind == 7)) then .error (stObjFormat, noIndex)
      else if im.syms.any (fun x => !x.nameOk) then .error (stObjFormat, noIndex)
      else if im.relocs.any (fun r => !r.reservedOk || r.kind == 0 || 6 < r.kind || im.syms.length ≤ r.sym || im.secs.length ≤ r.sec) then
        .error (stObjFormat, noIndex)
      else .ok im

/-- Step 2: the header's hash, then those of the code sections (R26). -/
def checkHashes (im : Image) : Except Refused PUnit :=
  if im.hash != Config.encHash then .error (stEncodingHash, 0xFFFF)
  else
    match firstIndex (fun x => x.kind == 1 && x.hash != Config.encHash) im.secs with
    | some i => .error (stEncodingHash, i)
    | none => .ok ⟨⟩

/-- The least alignment of a kind, as a power of two (table Section Kinds). -/
def minAlign (kind : Nat) : Nat :=
  match kind with
  | 3 | 4 => 4
  | 5 => 3
  | _ => 6

/-- Sections of every kind but descriptors are mapped. -/
def Sec.mapped (x : Sec) : Bool := x.kind != 7

/-- Pages that a section has bytes on. -/
def Sec.pages (x : Sec) : Nat := if x.size = 0 then 0 else (x.voff % 4096 + x.size + 4095) / 4096

/-- Two mapped sections share a page; one of no bytes has none. -/
def sharePage (x y : Sec) : Bool :=
  x.mapped && y.mapped && 0 < x.pages && 0 < y.pages && x.voff / 4096 < y.voff / 4096 + y.pages && y.voff / 4096 < x.voff / 4096 + x.pages

/-- A section that breaks a layout rule (R18, R19). An alignment of 2^48 or more breaks one, and one above 4 KiB is asked of the virtual
offset alone: DESIGN CHOICE (log 27). -/
def badLayout (im : Image) (e : Sec × Nat) : Bool :=
  let x := e.1
  x.align < minAlign x.kind || 48 ≤ x.align ||
    (x.mapped && (x.voff % 4096 != 0 || x.voff % 2 ^ x.align != 0 || im.size < x.voff + x.size || (x.kind == 2 && 65536 < x.size) ||
      im.secs.zipIdx.any (fun o => o.2 != e.2 && sharePage x o.1)))

/-- Step 3: SECTION_LAYOUT. -/
def checkLayout (im : Image) : Except Refused PUnit :=
  match firstIndex (badLayout im) im.secs.zipIdx with
  | some i => .error (stSectionLayout, i)
  | none => .ok ⟨⟩

/-! Steps 4 and 5 (R20 to R22). -/

/-- The section of an index, absent ones of no kind. -/
def Image.sec (im : Image) (i : Nat) : Sec :=
  im.secs.getD i { kind := 0, align := 0, fo := 0, size := 0, voff := 0, hash := 0, reservedOk := false, data := [] }

/-- The kind of section that a symbol type permits, and its value there (table Symbol Types). -/
def symbolFits (type value : Nat) (x : Sec) : Bool :=
  match type with
  | 1 | 5 => x.kind == 1 && value % 12 == 0 && value < x.size
  | 2 => (x.kind == 3 || x.kind == 4 || x.kind == 5) && value ≤ x.size
  | 3 => x.kind == 2 && value ≤ x.size
  | 4 => x.kind == 6 && value % 64 == 0 && value + 32 ≤ x.size && value + 32 + 32 * fieldAt x.data value 1 ≤ x.size
  | _ => false

/-- Step 4: SYMBOL. -/
def checkSymbols (im : Image) : Except Refused PUnit :=
  match firstIndex (fun y => im.secs.length ≤ y.sec || 1 < y.binding || !symbolFits y.type y.value (im.sec y.sec)) im.syms with
  | some i => .error (stSymbol, i)
  | none => .ok ⟨⟩

/-- The bytes of descriptor i. -/
def Image.desc (im : Image) (i : Nat) : List Byte :=
  (((im.secs.find? (fun x => x.kind == 7)).map Sec.data).getD []).drop (64 * i) |>.take 64

/-- The kernel that a descriptor describes: its entry is still an offset, its variant table a symbol index. -/
def kernelOf (d : List Byte) : Kernel :=
  { entry := fieldAt d 0 8, codeSection := fieldAt d 8 2, regs := fieldAt d 12 1, gangs := fieldAt d 13 1, flags := fieldAt d 14 2,
    scratch := fieldAt d 16 4, constant := fieldAt d 20 4, args := fieldAt d 24 4, stack := fieldAt d 28 4,
    vtable := if fieldAt d 36 4 = noIndex then none else some (fieldAt d 36 4) }

/-- The register file and the flags (R21). -/
def kernelFits (k : Kernel) : Bool :=
  let cl := k.flags.testBit 0
  let gl := k.flags.testBit 1
  let ctl := k.flags.testBit 3
  k.regs * (if cl then (k.gangs + 3) / 4 else k.gangs) ≤ 4096 && !(cl && k.gangs < 4) && !(cl && gl) &&
    !(ctl && (k.gangs != 1 || cl || gl))

/-- A descriptor that breaks a limit (R20, R21). -/
def badKernel (im : Image) (d : List Byte) : Bool :=
  let k := kernelOf d
  let code := im.sec k.codeSection
  !(code.kind == 1 && k.entry % 12 == 0 && k.entry < code.size && zeroBytes d 10 12 && zeroBytes d 40 64 && 32 ≤ k.regs && k.regs ≤ 255 &&
    1 ≤ k.gangs && k.gangs ≤ 32 && k.flags < 16 && k.scratch % 128 == 0 && k.scratch ≤ 1048576 &&
    (k.constant == noIndex || (im.sec k.constant).kind == 2) && k.args ≤ 4096 && k.args % 8 == 0 && k.stack % 64 == 0 && 1024 ≤ k.stack &&
    fieldAt d 32 4 < im.syms.length &&
    (match k.vtable with
      | none => true
      | some v => (im.syms[v]?.map (fun y => (im.sec y.sec).kind)) == some 6) && kernelFits k)

/-- Step 5: DESCRIPTOR. -/
def checkKernels (im : Image) : Except Refused PUnit :=
  match firstIndex (badKernel im) ((List.range im.kernels).map im.desc) with
  | some i => .error (stDescriptor, i)
  | none => .ok ⟨⟩

/-! Step 6: the base and the frames (R30, R33, R450). -/

/-- Entries of a table that hold their addresses: valid leaves and host-resident entries, as virtual base and bytes. -/
def takenUnder (m : Memory) (p : Partition) : Nat → Nat → Nat → List (Nat × Nat)
  | level, table, va =>
    (List.range (2 ^ levelBits level)).flatMap (fun i =>
      let e := leNat (m.read (p.phys (table + 8 * i)) 8)
      let a := va + i * 2 ^ levelShift level
      if e % 4 = 0 then []
      else if e.testBit 1 then [(a, 2 ^ levelShift level)]
      else
        match level with
        | 0 => []
        | l + 1 => takenUnder m p l (pointerOf e) a)

/-- The ranges that are not free: the control area, the argument window, loaded objects, and mapped or host-resident pages. -/
def takenRanges (s : State) (part : Nat) : List (Nat × Nat) :=
  (0, controlBytes) :: (windowBase, 2 ^ 32) :: ((s.part part).objects.map (fun o => (o.2.base, o.2.size)) ++ takenUnder s.mem (s.part part) 4 tableBase 0)

/-- An image of n bytes fits at a base; one of no bytes where its base is free (R30, R241). -/
def fitsAt (taken : List (Nat × Nat)) (n base : Nat) : Bool :=
  base + max n 1 ≤ vaTop && taken.all (fun r => r.2 = 0 || base + max n 1 ≤ r.1 || r.1 + r.2 ≤ base)

/-- The preferred base, or the lowest 64 KiB-aligned one that fits: it starts at the end of a taken range (R30 step 6). -/
def chooseBase (taken : List (Nat × Nat)) (pref n : Nat) : Option Nat :=
  if fitsAt taken n pref then some pref
  else (((taken.map (fun r => alignUp (r.1 + r.2) (2 ^ 16))).filter (fitsAt taken n)).min?)

/-- Ranges of frames that the loader may not take, as first frame and number (R450). -/
def busyFrames (s : State) (part : Nat) : List (Nat × Nat) :=
  let p := s.part part
  let ofLeaf (l : Leaf) : List (Nat × Nat) :=
    if !l.isLocal then []
    else if l.cls = 1 then
      (l.frame / 4096, 1) :: (match readRegion s part l with
        | some r =>
          let span (a n : Nat) : List (Nat × Nat) :=
            if n = 0 then [] else [((a - p.phys 0) / 4096, (a - p.phys 0 + n - 1) / 4096 + 1 - (a - p.phys 0) / 4096)]
          span r.pool (r.capacity * r.tile) ++ span r.map ((r.tiles + 7) / 8) ++ span r.dir (4 * r.tiles)
        | none => [])
    else [(l.frame / 4096, pageSize l.level / 4096)]
  (tableBase / 4096, 2 ^ 18) :: (p.objects.flatMap (fun o => o.2.frames.map (fun f => (f, 1))) ++ (allLeaves s part).flatMap (fun l => ofLeaf l.2))

/-- The frames taken from a frame downwards, the highest first; a busy range is stepped over. -/
def takeFrames (busy : List (Nat × Nat)) : Nat → Nat → Nat → Option (List Nat)
  | 0, _, n => if n = 0 then some [] else none
  | fuel + 1, next, n =>
    if n = 0 then some []
    else
      match next with
      | 0 => none
      | f + 1 =>
        match busy.find? (fun r => r.1 ≤ f && f < r.1 + r.2) with
        | some r => takeFrames busy fuel r.1 n
        | none => (takeFrames busy fuel f (n - 1)).map (f :: ·)

/-- The frames of an object of some pages; none where they cannot be found. -/
def findFrames (s : State) (part n : Nat) : Option (List Nat) :=
  let busy := busyFrames s part
  takeFrames busy (n + busy.length + 1) ((s.part part).bytes / 4096) n

/-! Step 7: relocations (R27 to R29). -/

/-- Bits [lo + len − 1 : lo] of a number replaced. -/
def replaceBits (n lo len v : Nat) : Nat := n - n / 2 ^ lo % 2 ^ len * 2 ^ lo + v % 2 ^ len * 2 ^ lo

/-- The bit range of a site that a kind patches: its first bit and its width (table Relocation Kinds). -/
def relocBits (kind : Nat) : Nat × Nat :=
  match kind with
  | 1 | 4 => (19, 20)
  | 2 => (19, 12)
  | 3 => (19, 16)
  | 5 => (0, 64)
  | _ => (0, 32)

/-- The opcode of the instruction word at an offset of a section. -/
def opcodeAt (x : Sec) (o : Nat) : Nat := fieldAt x.data o 12 / 2 ^ 86

/-- The site is of the kind's section and holds its mnemonic (R28). -/
def siteOk (x : Sec) (r : Reloc) : Bool :=
  let word := x.kind == 1 && r.off % 12 == 0 && r.off + 12 ≤ x.size
  match r.kind with
  | 1 => word && opcodeAt x r.off == 0x081
  | 2 => word && opcodeAt x r.off == 0x082
  | 3 => word && opcodeAt x r.off == 0x083
  | 4 => word && (opcodeAt x r.off == 0x001 || opcodeAt x r.off == 0x003)
  | 5 => x.kind == 5 && r.off + 8 ≤ x.size
  | _ => (x.kind == 2 || x.kind == 3) && r.off + 4 ≤ x.size

/-- Two records of one section patch a common bit. -/
def sitesMeet (a b : Reloc) : Bool :=
  let s (r : Reloc) : Nat := 8 * r.off + (relocBits r.kind).1
  a.sec == b.sec && s a < s b + (relocBits b.kind).2 && s b < s a + (relocBits a.kind).2

/-- V = S + A and P of a record (R22, R27). -/
def relocV (im : Image) (base : Nat) (r : Reloc) : Int :=
  match im.syms[r.sym]? with
  | some y => ((base + (im.sec y.sec).voff + y.value : Nat) : Int) + r.addend
  | none => -1

def relocP (im : Image) (base : Nat) (r : Reloc) : Int := ((base + (im.sec r.sec).voff + r.off : Nat) : Int)

/-- The further refusals of a kind (table Relocation Kinds). -/
def relocOverflows (kind : Nat) (v p : Int) : Bool :=
  decide (v < 0) || decide ((vaTop : Int) ≤ v) ||
    (match kind with
      | 1 | 3 => decide ((vaTop : Int) ≤ v + 0x800)
      | 4 => (v - p) % 12 != 0 || decide ((v - p) / 12 < -524288) || decide (524287 < (v - p) / 12)
      | 6 => decide ((2 ^ 32 : Int) ≤ v)
      | _ => false)

/-- The value that a kind writes. -/
def relocValue (kind : Nat) (v p : Int) : Nat :=
  match kind with
  | 1 => (v.toNat + 0x800) / 2 ^ 12 % 2 ^ 20
  | 2 => v.toNat % 2 ^ 12
  | 3 => (v.toNat + 0x800) / 2 ^ 32 % 2 ^ 16
  | 4 => (BitVec.ofInt 20 ((v - p) / 12)).toNat
  | _ => v.toNat

/-- A word's check field recomputed after a patch (R29). -/
def resealed (n : Nat) : List Byte := wordBytes (withCheck n)

/-- A site patched. -/
def patchSite (x : Sec) (r : Reloc) (v : Nat) : Sec :=
  let n := match r.kind with
    | 5 => 8
    | 6 => 4
    | _ => 12
  let b := relocBits r.kind
  let w := replaceBits (fieldAt x.data r.off n) b.1 b.2 v
  { x with data := patchBytes x.data (if n = 12 then resealed w else leBytes n w) r.off }

/-- The relocations in table order, `before` those that have been applied. Of two records that patch a common bit the later one fails: DESIGN
CHOICE (log 27). -/
def relocate (im : Image) (base : Nat) : Nat → List Reloc → List Reloc → List Sec → Except Refused (List Sec)
  | _, _, [], secs => .ok secs
  | i, before, r :: rest, secs =>
    let x := secs.getD r.sec (im.sec r.sec)
    let v := relocV im base r
    let p := relocP im base r
    if !siteOk x r || before.any (sitesMeet r) then .error (stRelocSite, i)
    else if relocOverflows r.kind v p then .error (stRelocOverflow, i)
    else relocate im base (i + 1) (before ++ [r]) rest (secs.set r.sec (patchSite x r (relocValue r.kind v p)))

/-! Steps 7 and 8: variant tables (R23, R24). -/

/-- The places of the variant tables: section and offset, each once. -/
def vtablesOf (im : Image) : List (Nat × Nat) :=
  (im.syms.filter (fun y => y.type == 4)).foldl (fun acc y => if acc.contains (y.sec, y.value) then acc else acc ++ [(y.sec, y.value)]) []

/-- An address of an instruction of a code section of the object (R23). -/
def isCode (im : Image) (base a : Nat) : Bool :=
  im.secs.any (fun x => x.kind == 1 && base + x.voff ≤ a && (a - base - x.voff) % 12 == 0 && a - base - x.voff < x.size)

/-- A table entry with the base added to its code address. -/
def basedEntry (base : Nat) (e : List Byte) : List Byte := leBytes 6 (fieldAt e 0 6 + base) ++ e.drop 6

/-- An entry that breaks R24. -/
def badVariant (im : Image) (base : Nat) (e : List Byte) : Bool :=
  let n := leNat e
  let q := n / 2 ^ 160 % 2 ^ 16
  n / 2 ^ 48 % 2 ^ 16 != 0 || n / 2 ^ 98 % 2 ^ 30 != 0 || n / 2 ^ 178 % 2 ^ 14 != 0 || n / 2 ^ 208 != 0 || n / 2 ^ 96 % 4 == 3 ||
    (n.testBit 176 != (q == 65535)) || !isCode im base (n % 2 ^ 48)

/-- A table header that breaks R23 or R24. -/
def badTable (h : List Byte) : Bool :=
  let count := fieldAt h 0 1
  count == 0 || 16 < count || fieldAt h 1 1 / 2 != 0 || !zeroBytes h 2 4 || !zeroBytes h 8 32

/-- A variant table with its code addresses based and its fallback flag set; none where it breaks R24. -/
def bindTable (im : Image) (base : Nat) (bs : List Byte) (o : Nat) : Option (List Byte) :=
  let h := (bs.drop o).take 32
  let count := fieldAt h 0 1
  let es := (List.range count).map (fun i => basedEntry base ((bs.drop (o + 32 + 32 * i)).take 32))
  let fallbacks := (es.filter (fun e => (leNat e).testBit 177)).length
  if badTable h || 1 < fallbacks || es.any (badVariant im base) then none
  else some (patchBytes bs ([h.getD 0 0, BitVec.ofNat 8 fallbacks] ++ (h.drop 2) ++ es.flatten) o)

/-- Every variant table bound (R30 steps 7 and 8). -/
def bindTables (im : Image) (base : Nat) : List (Nat × Nat) → List Sec → Except Refused (List Sec)
  | [], secs => .ok secs
  | (k, o) :: rest, secs =>
    let x := secs.getD k (im.sec k)
    match bindTable im base x.data o with
    | some bs => bindTables im base rest (secs.set k { x with data := bs })
    | none => .error (stVtable, noIndex)

/-! Steps 9 and 10: entries, the handler, frames and mapping (R20, R30, R404, R450). -/

/-- The address of a symbol. -/
def Image.symAddr (im : Image) (base : Nat) (y : Sym) : Nat := base + (im.sec y.sec).voff + y.value

/-- A kernel with its entry address and its table's address. -/
def Kernel.based (k : Kernel) (im : Image) (base : Nat) : Kernel :=
  { k with entry := base + (im.sec k.codeSection).voff + k.entry
           vtable := k.vtable.bind (fun v => (im.syms[v]?).map (im.symAddr base)) }

/-- The name of the handler's symbol. -/
def handlerName : List Byte := [0x6E#8, 0x76#8, 0x74#8, 0x72#8, 0x61#8, 0x70#8]

/-- The address of nvtrap, where the object defines it (R404). -/
def handlerOf (im : Image) (base : Nat) : Option Pc :=
  (im.syms.find? (fun y => y.name == handlerName && (y.type == 1 || y.type == 5))).map (fun y => BitVec.ofNat 48 (im.symAddr base y))

/-- Bits [4:2] of the leaves of a section kind: R, W and X (table Section Kinds). -/
def kindPerms (kind : Nat) : Nat :=
  match kind with
  | 1 => 5
  | 3 | 4 => 3
  | _ => 1

/-- The pages of an object: virtual address, permissions and bytes of each, section by section. They take the frames of R450 in this
order, the highest first: DESIGN CHOICE (log 27). -/
def pagesOf (base : Nat) (secs : List Sec) : List (Nat × Nat × List Byte) :=
  (secs.filter Sec.mapped).flatMap (fun x => (List.range x.pages).map (fun k =>
    (base + x.voff + 4096 * k, kindPerms x.kind, (x.data.drop (4096 * k)).take 4096)))

/-- One page of an object: its frame written whole and labelled, its leaf written (R450, R30 step 10). -/
def mapObjectPage (part : Nat) (l : Label) (s : State) (e : (Nat × Nat × List Byte) × Nat) : State :=
  let pa := (s.part part).phys (4096 * e.2)
  let s := (s.setMem ((s.mem.clear pa 4096).write pa e.1.2.2)).setFrameLabel part e.2 l
  putEntry s part 0 e.1.1 (3 + 4 * e.1.2.1 + l.toNat * 2 ^ 20 + e.2 * 2 ^ 36)

/-- An accepted object put into its partition under a handle. -/
def installObject (s : State) (part handle base : Nat) (l : Label) (im : Image) (secs : List Sec) (frames : List Nat) : State :=
  let s := ((pagesOf base secs).zip frames).foldl (mapObjectPage part l) (dropL1 s part)
  let o : Obj :=
    { base := base, size := im.size, sections := secs.map (fun x => { kind := x.kind, voff := x.voff, size := x.size, hash := x.hash }),
      frames := frames, kernels := (List.range im.kernels).map (fun i => (kernelOf (im.desc i)).based im base), handler := handlerOf im base,
      label := l }
  s.modPart part (fun p => { p with objects := tabPut p.objects handle o })

/-- The checks of an image on its own: steps 1 to 5. -/
def checkImageBytes (img : List Byte) : Except Refused Image := do
  let im ← checkFormat img
  let _ ← checkHashes im
  let _ ← checkLayout im
  let _ ← checkSymbols im
  let _ ← checkKernels im
  return im

/-- A handle that no object of the partition has: the first from a number on. -/
def freeHandle (objects : Tab Obj) (n : Nat) : Nat :=
  (((List.range (objects.length + 1)).map (fun k => (n + k) % 2 ^ 32)).find? (fun h => (tabGet objects h).isNone)).getD (n % 2 ^ 32)

/-- Steps 6 to 10: the handle and the state, or a refusal that leaves no trace (R31). -/
def placeObject (s : State) (part : Nat) (l : Label) (im : Image) : Except Refused (Nat × State) :=
  match chooseBase (takenRanges s part) im.preferred im.size with
  | none => .error (stNoSpace, noIndex)
  | some base =>
    match findFrames s part (pagesOf base im.secs).length with
    | none => .error (stNoSpace, noIndex)
    | some frames =>
      match relocate im base 0 [] im.relocs im.secs with
      | .error r => .error r
      | .ok secs =>
        match bindTables im base (vtablesOf im) secs with
        | .error r => .error r
        | .ok secs =>
          let n := s.takeId
          let h := freeHandle (s.part part).objects (n.1 + 1)
          .ok (h, installObject n.2 part h base l im secs frames)

/-- The load of an image's bytes (R30). -/
def loadImage (s : State) (part : Nat) (l : Label) (img : List Byte) : Except Refused (Nat × State) :=
  match checkImageBytes img with
  | .error r => .error r
  | .ok im => placeObject s part l im

/-! The commands (R31, R32, R41). -/

/-- One span of the staged image: readable, and under a label within the named one (R41). -/
def stageSpan (s : State) (part : Nat) (phys : Bool) (l : Label) (sp : Nat × Nat) : Option Piece :=
  (hostSpan s part phys { shared := false, unheld := false } sp).filter (fun x => Label.subset x.leaf.label l)

/-- The pieces of the staged image, or the address of the first span that refuses it. -/
def stagePieces (s : State) (part : Nat) (phys : Bool) (l : Label) (a n : Nat) : Except Nat (List Piece) :=
  (spans (n / 32 + 2) a n).foldr (fun sp acc => match stageSpan s part phys l sp with
    | some x => acc.map (x :: ·)
    | none => .error sp.1) (.ok [])

def actLoadObject (m : Message) (s : State) : Reply × State :=
  let part := partOfEp s m.ep
  let addr := fieldAt m.payload 0 8
  let n := fieldAt m.payload 8 4
  let l : Label := BitVec.ofNat 16 (fieldAt m.payload 12 2)
  if n < 64 then (Reply.badField 8, s)
  else if !zeroBytes m.payload 14 16 then (Reply.badField 14, s)
  else
    match stagePieces s part (isPhysical addr) l (plainAddress addr) n with
    | .error va => (Reply.notPermitted (va - plainAddress addr), s)
    | .ok ps =>
      match loadImage s part l (ps.flatMap (pieceBytes s)) with
      | .error (st, i) => ({ status := st, index := i }, s)
      | .ok (h, s') => ({ status := stOk, detail := h }, s')

def execLoadObject (m : Message) (s : State) : Host.Outcome State Fault Refusal := hostCommand .loadObject (sequenced actLoadObject) m s

/-- A copy of bytes that stand in the object, or to them. -/
def copyMeets (o : Obj) (src dst n : Nat) : Bool :=
  let meets (a : Nat) : Bool := a < o.base + o.size && o.base < a + n
  meets src || meets dst

/-- A copy entry, or a copy node of a graph, that reads or writes the object. -/
def copyNames (o : Obj) (b : List Byte) : Bool := entryKind b == 3 && copyMeets o (fieldAt b 8 8) (fieldAt b 16 8) (fieldAt b 24 8)

/-- An entry, or a node of a graph, that names an object. -/
def namesObject (h : Nat) (o : Obj) (b : List Byte) : Bool := (entryKind b == 1 && fieldAt b 8 4 == h) || copyNames o b

/-- A graph entry whose image, as memory holds it, names the object. -/
def graphNames (s : State) (part h : Nat) (o : Obj) (b : List Byte) : Bool :=
  entryKind b == 2 && (match reach s 0 part (fieldAt b 8 8) (64 + 128 * fieldAt b 16 2) {} { r := true } with
    | .ok ps =>
      let image := ps.flatMap (pieceBytes s)
      (List.range (fieldAt b 16 2)).any (fun i => namesObject h o (image.drop (64 + 128 * i)))
    | _ => false)

/-- Every copy command, those of saved units and jobs among them. -/
def State.allCopies (s : State) : List Copy :=
  s.copies.map Prod.snd ++ s.saved.flatMap (fun x => x.2.copies.map Prod.snd) ++
    s.endpoints.flatMap (fun e => e.2.jobs.flatMap (fun j => j.2.copies.map Prod.snd))

/-- Work that names the object has not completed (R32): a launch or a graph with the handle, or a copy with an address in the object's
range. That a copy names the object so, and a graph entry that is not armed by its image as it stands, is DEDUCED (log 27). -/
def objectBusy (s : State) (part h : Nat) (o : Obj) : Bool :=
  (s.part part).queues.any (fun q => (q.2.entries ++ q.2.device).any (fun e =>
      namesObject h o e.bytes || graphNames s part h o e.bytes)) ||
    s.launches.any (fun l => l.2.part == part && l.2.obj == h && !levelDone s l.2.level) ||
    s.graphs.any (fun g => g.2.part == part && !levelDone s g.2.level &&
      g.2.nodes.any (fun n => namesObject h o n.2.entry)) ||
    s.allCopies.any (fun c => c.part == part && !c.done && c.slices.any (fun x =>
      copyMeets o (if x.srcMem then x.src else vaTop) (if x.dstMem then x.dst else vaTop) x.bytes))

/-- An object unloaded: its sections unmapped, its frames and its range free (R32). -/
def removeObject (s : State) (part h : Nat) (o : Obj) : State :=
  let s := o.sections.foldl (fun s x => if x.kind = 7 then s else unmapRange s part (o.base + x.voff) x.size) s
  s.modPart part (fun p => { p with objects := tabDel p.objects h })

def actUnloadObject (m : Message) (s : State) : Reply × State :=
  let part := partOfEp s m.ep
  let h := fieldAt m.payload 0 4
  if !zeroBytes m.payload 4 8 then (Reply.badField 4, s)
  else
    match tabGet (s.part part).objects h with
    | none => ({ status := stNoObject }, s)
    | some o => if objectBusy s part h o then ({ status := stObjectBusy }, s) else (Reply.ok, removeObject s part h o)

def execUnloadObject (m : Message) (s : State) : Host.Outcome State Fault Refusal := hostCommand .unloadObject (sequenced actUnloadObject) m s

end Sys2Proof.Machine
end

