-- ==== Sys2Proof/Machine/Ring.lean ====
section
/-! DEFINITION. The firmware's service of the request ring: the tail check, MAP, UNMAP, PROTECT and EVICT, the shoot-down, held EVICTs and
the resent migration notice (R241 to R244, R249, R250, R277). -/

namespace Sys2Proof.Machine

/-! The ring (R242). -/

/-- Slots of the ring. -/
def ringSlots : Nat := 2047

/-- The 32-bit word at an offset of the control area. -/
def Partition.ringWord (p : Partition) (o : Nat) : Nat := leNat (Memory.read p.ring o 4)

/-- Bytes of the control area written. -/
def Partition.setRing (p : Partition) (o : Nat) (bs : List Byte) : Partition := { p with ring := Memory.write p.ring o bs }

def Partition.tail (p : Partition) : Nat := p.ringWord 0
def Partition.head (p : Partition) : Nat := p.ringWord 4
def Partition.ringError (p : Partition) : Nat := p.ringWord 8

/-- The offset of a slot. -/
def slotOffset (k : Nat) : Nat := 32 + 32 * k

/-- The ring's base: the oldest held record, or the head. -/
def Partition.ringBase (p : Partition) : Nat :=
  match p.held with
  | [] => p.head
  | h :: _ =>
    let d := (p.ringSlot + ringSlots - h.slot) % ringSlots
    (p.head + 2 ^ 32 - (if d = 0 then ringSlots else d)) % 2 ^ 32

/-- The tail stands more than 2,047 records ahead of the base, or behind the head. -/
def Partition.overrun (p : Partition) : Bool :=
  ringSlots < (p.tail + 2 ^ 32 - p.ringBase) % 2 ^ 32 || ringSlots < (p.tail + 2 ^ 32 - p.head) % 2 ^ 32

/-- A request record (table Request Record). -/
structure Request where
  op : Nat
  level : Nat
  count : Nat
  addr : Nat
  entry : Nat
  reservedOk : Bool
  deriving DecidableEq, Repr

/-- The record at the head. -/
def Partition.nextRequest (p : Partition) : Request :=
  let b := Memory.read p.ring (slotOffset p.ringSlot) 32
  { op := fieldAt b 0 1, level := fieldAt b 1 1, count := fieldAt b 4 4, addr := fieldAt b 8 8, entry := fieldAt b 16 8,
    reservedOk := zeroBytes b 24 32 }

/-- The firmware may take the record at the head: one at a time, behind held records (R243, R250). -/
def Partition.takes (p : Partition) : Bool :=
  !p.overrun && p.ringError == 0 && p.tail != p.head && p.shooting.all (fun x => p.held.any (fun h => h.slot == x.1))

/-- A status and a reason written into a slot. -/
def Partition.setStatus (p : Partition) (slot status reason : Nat) : Partition :=
  p.setRing (slotOffset slot + 2) [BitVec.ofNat 8 status, BitVec.ofNat 8 reason]

/-- The head advances past its record. -/
def Partition.advanceHead (p : Partition) : Partition :=
  { p.setRing 4 (leBytes 4 ((p.head + 1) % 2 ^ 32)) with ringSlot := (p.ringSlot + 1) % ringSlots }

/-- The record at the head is refused. -/
def refuseRequest (s : State) (p reason : Nat) : State := s.modPart p (fun x => (x.setStatus x.ringSlot 2 reason).advanceHead)

/-! The checks of a record, made whole before anything changes (R242, R243). -/

/-- The pages of a record. -/
def Request.pages (r : Request) : List Nat := (List.range r.count).map (fun k => r.addr + k * pageSize r.level)

/-- The bytes of a record's range. -/
def Request.bytes (r : Request) : Nat := r.count * pageSize r.level

/-- Reason 1: op, level, count or reserved field. -/
def Request.malformed (r : Request) : Bool := r.op == 0 || 4 < r.op || 3 < r.level || r.count == 0 || 4096 < r.count || !r.reservedOk

/-- Reason 2: the address. -/
def Request.misplaced (r : Request) : Bool :=
  r.addr % pageSize r.level != 0 || r.addr < controlBytes || windowBase < r.addr + r.bytes

/-- The leaf value of a record's page k: the frame advances but for a leaf of class 1. -/
def Request.leaf (r : Request) (k : Nat) : Nat :=
  if (leafOf r.entry r.level).cls = 1 then r.entry else r.entry + k * (pageSize r.level / 4096) * 2 ^ 36

/-- Reason 3: a frame outside the partition, in the page-table gigabyte, or held by an object. Frames of another device stand apart
(R432). -/
def badFrames (p : Partition) (r : Request) : Bool :=
  let l := leafOf r.entry r.level
  let n := if l.cls = 1 then 4096 else r.bytes
  if !l.isLocal && l.cls != 1 then 2 ^ 40 < l.frame + n
  else badPhysical p l.frame n || p.objects.any (fun o => o.2.frames.any (fun f => l.frame < 4096 * f + 4096 && 4096 * f < l.frame + n))

/-- Reason 4: no valid leaf value. -/
def Request.badEntry (r : Request) : Bool := r.entry % 4 != 3 || badLeaf r.entry r.level

/-- The leaf of a level that an address has, where it is present. -/
def presentLeaf (s : State) (p level va : Nat) : Option Leaf :=
  match walk s p va with
  | .leaf l => if l.level = level then some l else none
  | _ => none

/-- An EVICT that names leaves of class 1 (R268). -/
def evictsRegion (s : State) (p : Nat) (r : Request) : Bool :=
  r.op == 4 && r.pages.any (fun va => (presentLeaf s p r.level va).any (fun l => l.cls == 1))

/-- The lowest-numbered reason that applies to a record; none where it is accepted. -/
def requestReason (s : State) (p : Nat) (r : Request) : Option Nat :=
  if r.malformed || evictsRegion s p r then some 1
  else if r.misplaced then some 2
  else if r.op = 1 && badFrames (s.part p) r then some 3
  else if r.op = 1 && r.badEntry then some 4
  else if r.op = 1 && r.pages.any (fun va => meetsPage s p r.level va != .nothing) then some 5
  else if r.op != 1 && r.pages.any (fun va => meetsPage s p r.level va == .other) then some 6
  else none

/-- The record of an op that stands at the head and is to be taken. -/
def requestOf (s : State) (p op : Nat) : Option Request :=
  let x := s.part p
  if (tabGet s.parts p).isSome && x.takes && x.nextRequest.op = op then some x.nextRequest else none

/-- The changes of a record wait for the shoot-down (R243). -/
def startShoot (s : State) (p slot : Nat) (r : Request) : State := s.modPart p (fun x => { x with shooting := x.shooting ++ [(slot, r.addr, r.bytes)] })

/-- A record of an op served: refused with its reason, or acted upon. -/
def serve (p op : Nat) (act : State → Request → State) (s : State) : State :=
  match requestOf s p op with
  | none => s
  | some r =>
    match requestReason s p r with
    | some k => refuseRequest s p k
    | none => act s r

/-! The tail check (R242). -/

/-- The ring error written, the tail being the one that the firmware has now read. -/
def Partition.setRingError (x : Partition) (e : Nat) : Partition := { x.setRing 8 (leBytes 4 e) with tailWritten := false }

/-- The firmware reads the tail: an overrun is written into the ring error, a tail that the host has since written within bounds clears
it; a record of no known op is refused. -/
def checkTail (s : State) (p : Nat) : State :=
  let x := s.part p
  if (tabGet s.parts p).isNone then s
  else if x.overrun then s.modPart p (Partition.setRingError · 1)
  else if x.ringError != 0 then if x.tailWritten then s.modPart p (Partition.setRingError · 0) else s
  else if x.takes && (x.nextRequest.op = 0 || 4 < x.nextRequest.op) then refuseRequest s p 1
  else s

/-- The tail check has something to do. -/
def tailDue (s : State) (p : Nat) : Bool :=
  let x := s.part p
  (x.overrun && (x.ringError != 1 || x.tailWritten)) || (!x.overrun && x.tailWritten && x.ringError != 0) || (x.takes && (x.nextRequest.op = 0 || 4 < x.nextRequest.op))

def execRingTailCheck (p : Nat) (s : State) : Host.Outcome State Fault Refusal := .next (checkTail s p)

/-! MAP, UNMAP and PROTECT (R243, R277). -/

/-- A page whose mapping changes may be announced again (R249). -/
def forgetNotice (s : State) (p va : Nat) : State := s.modPart p (fun x => { x with notices := tabDel x.notices va })

/-- The leaves of a MAP written, their frames brought under its label. -/
def mapRequest (p : Nat) (s : State) (r : Request) : State :=
  let s := (List.range r.count).foldl (fun s k =>
    let va := r.addr + k * pageSize r.level
    forgetNotice (mapLeaf s p va r.level (r.leaf k)) p va) s
  startShoot s p (s.part p).ringSlot r

def execMapPages (p : Nat) (s : State) : Host.Outcome State Fault Refusal := .next (serve p 1 (mapRequest p) s)

/-- Not-present entries written where their path exists. -/
def unmapRequest (p : Nat) (s : State) (r : Request) : State :=
  let s := r.pages.foldl (fun s va => forgetNotice (setEntry s p r.level va 0) p va) s
  startShoot s p (s.part p).ringSlot r

def execUnmapPages (p : Nat) (s : State) : Host.Outcome State Fault Refusal := .next (serve p 2 (unmapRequest p) s)

/-- The permissions of a present leaf replaced; any other entry stays. -/
def protectPage (p level perms : Nat) (s : State) (va : Nat) : State :=
  match findTable s p va level 4 tableBase with
  | none => s
  | some t =>
    let e := readEntry s p t va level
    if e % 4 = 3 then writeEntry s p t va level (replaceBits e 2 3 perms) else s

def protectRequest (p : Nat) (s : State) (r : Request) : State :=
  let s := r.pages.foldl (protectPage p r.level (r.entry / 4 % 8)) s
  startShoot s p (s.part p).ringSlot r

def execProtect (p : Nat) (s : State) : Host.Outcome State Fault Refusal := .next (serve p 3 (protectRequest p) s)

/-! EVICT (R243, R250). -/

/-- Two ranges of addresses share a byte. -/
def rangesMeet (a n b m : Nat) : Bool := a < b + m && b < a + n

/-- The chunk of a copy command that its engine is at touches a range (R319). -/
def copyOn (c : Copy) (a n : Nat) : Bool :=
  !c.done && c.stop.isNone && c.engine.isSome && c.slices.any (fun x =>
    let k := min 4096 (x.bytes - x.done)
    x.left && ((x.srcMem && rangesMeet (x.src + x.done) k a n) || (x.dstMem && rangesMeet (x.dst + x.done) k a n)))

/-- A device access of the partition to a range is in flight: a thread's, or a copy command's that its engine carries. -/
def inFlightOn (s : State) (p a n : Nat) : Bool :=
  s.accesses.any (fun e => !e.2.held && !e.2.oob && !e.2.kind.isScratch && e.2.kind != .exact && s.partOf e.2.thread == p &&
    (rangesOf s e.2).any (fun x => rangesMeet x.1 (max x.2 1) a n)) ||
  s.copies.any (fun e => e.2.part == p && copyOn e.2 a n)

/-- A page made host-resident; one that a leaf of another level has come to cover stays, and so does a leaf of a region (R268) and a
device-private one, which is never migrated (R239; DESIGN CHOICE that the record then changes nothing for it: log 9). -/
def evictPage (p level : Nat) (s : State) (va : Nat) : State :=
  match meetsPage s p level va with
  | .other => s
  | .same => if (presentLeaf s p level va).any (fun l => l.cls != 0) then s else forgetNotice (putEntry s p level va 2) p va
  | .nothing => putEntry s p level va 2

/-- The changes of an EVICT. -/
def evictRange (s : State) (p : Nat) (r : Request) : State := r.pages.foldl (evictPage p r.level) s

/-- A present page of the range has accesses in flight. -/
def mustHold (s : State) (p : Nat) (r : Request) : Bool :=
  r.pages.any (fun va => meetsPage s p r.level va == .same && inFlightOn s p va (pageSize r.level))

/-- The endpoint of what is held on a page: an access, a fetch, or a copy command. -/
def heldOn (s : State) (p a n : Nat) : Option Nat :=
  match s.accesses.find? (fun e => e.2.held && s.partOf e.2.thread == p && a ≤ e.2.heldVa && e.2.heldVa < a + n) with
  | some e => some (s.threadEp e.2.thread)
  | none =>
    match s.threads.find? (fun e => e.2.sched == .blocked .fetch && s.partOf e.1 == p && rangesMeet e.2.pc.toNat 12 a n) with
    | some e => some (s.threadEp e.1)
    | none => (s.copies.find? (fun e => e.2.part == p && copyOn e.2 a n)).map (fun e => copyEp s e.2)

/-- 50 µs in ticks. -/
def fiftyMicros : Nat := 600000

/-- The entry of an address is not present, with its host-resident bit set. -/
def hostResident (s : State) (p va : Nat) : Bool :=
  match walk s p va with
  | .absent h _ => h
  | _ => false

/-- Host-resident pages of the range on which accesses are held: their notice is sent again 50 µs later if they still are; a time that
stands is kept. -/
def noteResends (s : State) (p : Nat) (r : Request) : State :=
  r.pages.foldl (fun s va =>
    if hostResident s p va && (heldOn s p va (pageSize r.level)).isSome then
      s.modPart p (fun x => { x with resends := tabPut x.resends (va + r.level) ((tabGet x.resends (va + r.level)).getD (s.time + fiftyMicros)) })
    else s) s

/-- An EVICT taken: held with status 3 while accesses to its present pages are in flight, else performed; for a page that is
host-resident already it completes with no change, and what is held there is announced again 50 µs later. -/
def evictRequest (p : Nat) (s : State) (r : Request) : State :=
  if mustHold s p r then
    (noteResends s p r).modPart p (fun x =>
      { (x.setStatus x.ringSlot 3 0).advanceHead with
        held := x.held ++ [{ slot := x.ringSlot, addr := r.addr, count := r.count, level := r.level, since := s.time }] })
  else startShoot (evictRange (noteResends s p r) p r) p (s.part p).ringSlot r

def execEvict (p : Nat) (s : State) : Host.Outcome State Fault Refusal := .next (serve p 4 (evictRequest p) s)

/-- The record of a held EVICT. -/
def HeldEvict.request (h : HeldEvict) : Request :=
  { op := 4, level := h.level, count := h.count, addr := h.addr, entry := 0, reservedOk := true }

/-- A held EVICT is performed when no access to its range remains in flight, or 50 µs after it was taken. -/
def heldReady (s : State) (p : Nat) (h : HeldEvict) : Bool :=
  (s.part p).shooting.all (fun x => x.1 != h.slot) && (h.since + fiftyMicros ≤ s.time || !inFlightOn s p h.addr h.request.bytes)

/-- The first held EVICT that is to be performed. -/
def nextHeld (s : State) : Option (Nat × HeldEvict) :=
  s.parts.findSome? (fun p => (p.2.held.find? (heldReady s p.1)).map (fun h => (p.1, h)))

def execEvictHeldPerform (s : State) : Host.Outcome State Fault Refusal :=
  match nextHeld s with
  | some (p, h) => .next (startShoot (evictRange (noteResends s p h.request) p h.request) p h.slot h.request)
  | none => .next s

/-! The shoot-down (R244). -/

/-- No access in flight has translated through an entry of the range: each has performed or returned to the held state (R234, R244). A
TLB whose domain is gated holds no entries and acknowledges at once. -/
def shootReady (s : State) (p : Nat) (x : Nat × Nat × Nat) : Bool :=
  s.accesses.all (fun e => s.partOf e.2.thread != p || e.2.held || s.gatedCore (s.coreOf e.2.thread) ||
    e.2.pins.all (fun q => !rangesMeet (128 * q.1) 128 x.2.1 x.2.2))

/-- Every TLB of the partition has dropped the changed entries: the record's status becomes 1; the head advances past it unless it is
a held record. -/
def finishShoot (s : State) (p slot va n : Nat) : State :=
  (flushTlb s p va n).modPart p (fun x =>
    let y := { x.setStatus slot 1 0 with shooting := x.shooting.filter (fun z => z.1 != slot) }
    if x.held.any (fun h => h.slot == slot) then { y with held := y.held.filter (fun h => h.slot != slot) } else y.advanceHead)

/-- The first shoot-down that every TLB may acknowledge. -/
def nextShoot (s : State) : Option (Nat × Nat × Nat × Nat) :=
  s.parts.findSome? (fun p => (p.2.shooting.find? (shootReady s p.1)).map (fun x => (p.1, x)))

def execShootDown (s : State) : Host.Outcome State Fault Refusal :=
  match nextShoot s with
  | some (p, slot, va, n) => .next (finishShoot s p slot va n)
  | none => .next s

/-! The resent notice (R249, R250). -/

/-- The migration notice of a page sent again. -/
def resendNotice (s : State) (p key : Nat) : State :=
  let page := key / 4096 * 4096
  let level := key % 4
  let s := s.modPart p (fun x => { x with resends := tabDel x.resends key })
  match heldOn s p page (pageSize level) with
  | some e => notice s e 0 1 noIndex (leBytes 8 (page + level))
  | none => s

/-- The first resend that is due. -/
def nextResend (s : State) : Option (Nat × Nat) :=
  s.parts.findSome? (fun p => (firstWith p.2.resends (fun _ t => t ≤ s.time)).map (fun e => (p.1, e.1)))

def execMigrationNoticeResend (s : State) : Host.Outcome State Fault Refusal :=
  match nextResend s with
  | some (p, key) => .next (resendNotice s p key)
  | none => .next s

end Sys2Proof.Machine
end

