-- ==== Sys2Proof/Machine/Teasel.lean ====
section
/-! DEFINITION. Teasel's records and tables: BIND, PEER, POLICY, REVOKE, the table reads, and the period of the policies (R271,
R282 to R285). -/

namespace Sys2Proof.Machine

/-! Records (R284, table Record Header). -/

/-- The partition that a management address names: bits [11:8]. -/
def windowPart (a : Nat) : Nat := a / 2 ^ 8 % 16

/-- The record that a message carries. -/
def recordBytes (m : Message) : List Byte := m.payload.drop 8

/-- The bytes of one signature. -/
def signatureBytes : Nat := 1280

/-- What a record of a kind asks for: the bytes of its body, whether its index is in range, and the offset of a malformed body field. -/
structure RecordForm where
  body : List Byte → Nat
  indexes : Nat
  badBody : List Byte → Option Nat

/-- The offset of the first malformed field of a record: its header, then its body. -/
def badRecord (s : State) (f : RecordForm) (a : Nat) (r : List Byte) : Option Nat :=
  if fieldAt r 0 1 != a % 256 then some 0
  else if fieldAt r 1 1 != windowPart a || (tabGet s.parts (windowPart a)).isNone then some 1
  else if f.indexes ≤ fieldAt r 2 2 then some 2
  else if r.length != 64 + f.body r + signatureBytes * fieldAt r 4 2 then some 4
  else if !zeroBytes r 6 8 then some 6
  else if !zeroBytes r 48 64 then some 48
  else f.badBody r

/-- The digest that the signatures cover: the first 32 bytes of SHAKE256 of header and body. -/
def recordDigest (f : RecordForm) (r : List Byte) : List Byte := shake256 (r.take (64 + f.body r)) 32

/-- Signature i of a record. -/
def signatureAt (f : RecordForm) (r : List Byte) (i : Nat) : List Byte := (r.drop (64 + f.body r + signatureBytes * i)).take signatureBytes

/-- The signature of a key over a record. -/
def signedBy (f : RecordForm) (r : List Byte) (key : List Byte) (i : Nat) : Bool :=
  Config.falconVerify key (recordDigest f r) (signatureAt f r i)

/-- The signature of a slot's origin; an unbound slot signs nothing. -/
def signedBySlot (s : State) (p : Nat) (f : RecordForm) (r : List Byte) (slot i : Nat) : Bool :=
  match tabGet (s.part p).slots slot with
  | some key => signedBy f r key i
  | none => false

/-- A record is fresh and made for this device (R284). -/
def recordFresh (s : State) (p : Nat) (r : List Byte) : Bool :=
  (s.part p).serial < fieldAt r 8 8 && (r.drop 16).take 32 == s.boot.identity

/-- A record at the management endpoint: malformed, not permitted, or accepted with its serial. -/
def teaselRecord (f : RecordForm) (allowed : State → Nat → List Byte → Bool) (install : Partition → List Byte → Partition)
    (m : Message) (s : State) : Reply × State :=
  let a := fieldAt m.payload 0 8
  let r := recordBytes m
  let p := windowPart a
  if a / 2 ^ 12 != 0 then (Reply.badField 0, s)
  else
    match badRecord s f a r with
    | some o => (Reply.badField o, s)
    | none =>
      if recordFresh s p r && allowed s p r then (Reply.ok, s.modPart p (fun x => { install x r with serial := fieldAt r 8 8 }))
      else ({ status := stNotPermitted }, s)

/-- The index of a record: a slot, a peer entry or a policy. -/
def recordIndex (r : List Byte) : Nat := fieldAt r 2 2

/-- The number of signatures that a record carries. -/
def signatures (r : List Byte) : Nat := fieldAt r 4 2

/-! BIND and PEER. -/

def formBind : RecordForm := { body := fun _ => 1793, indexes := 16, badBody := fun _ => none }

/-- BIND is signed with the key that it binds, to a slot that is unbound. -/
def mayBind (s : State) (p : Nat) (r : List Byte) : Bool :=
  (tabGet (s.part p).slots (recordIndex r)).isNone && signatures r == 1 && signedBy formBind r ((r.drop 64).take 1793) 0

def installBind (x : Partition) (r : List Byte) : Partition := { x with slots := tabPut x.slots (recordIndex r) ((r.drop 64).take 1793) }

def execBindSlot (m : Message) (s : State) : Host.Outcome State Fault Refusal :=
  hostCommand .bindSlot (sequenced (teaselRecord formBind mayBind installBind)) m s

def formPeer : RecordForm :=
  { body := fun _ => 17, indexes := 64, badBody := fun r => if 16 ≤ fieldAt r 80 1 then some 80 else none }

/-- The fabric address of a PEER record. -/
def peerAddress (r : List Byte) : BitVec 128 := BitVec.ofNat 128 (fieldAt r 64 16)

/-- PEER is signed by its slot's origin; the entry is empty or holds the address. -/
def mayPeer (s : State) (p : Nat) (r : List Byte) : Bool :=
  (match tabGet (s.part p).peers (recordIndex r) with
    | some e => e.addr == peerAddress r
    | none => true) && signatures r == 1 && signedBySlot s p formPeer r (fieldAt r 80 1) 0

def installPeer (x : Partition) (r : List Byte) : Partition :=
  let old := ((tabGet x.peers (recordIndex r)).map Peer.mask).getD 0
  { x with peers := tabPut x.peers (recordIndex r) { addr := peerAddress r, mask := old ||| BitVec.twoPow 16 (fieldAt r 80 1) } }

def execPeer (m : Message) (s : State) : Host.Outcome State Fault Refusal :=
  hostCommand .peer (sequenced (teaselRecord formPeer mayPeer installPeer)) m s

/-! POLICY. -/

def formPolicy : RecordForm :=
  { body := fun _ => 34, indexes := 64
    badBody := fun r =>
      if originCount (BitVec.ofNat 16 (fieldAt r 64 2)) < 2 then some 64
      else if fieldAt r 90 8 = 0 || 2 ^ 40 < fieldAt r 90 8 then some 90
      else none }

/-- The origins of a POLICY record in ascending slot order. -/
def originsOf (l : Label) : List Nat := (List.range 16).filter (fun i => l.getLsbD i)

/-- The origin mask of a POLICY record. -/
def policyMask (r : List Byte) : Label := BitVec.ofNat 16 (fieldAt r 64 2)

/-- POLICY is signed by every origin in its mask, one signature each. -/
def mayPolicy (s : State) (p : Nat) (r : List Byte) : Bool :=
  let os := originsOf (policyMask r)
  signatures r == os.length && os.zipIdx.all (fun e => signedBySlot s p formPolicy r e.1 e.2)

def installPolicy (x : Partition) (r : List Byte) : Partition :=
  let y : Policy := { mask := policyMask r, peers := fieldAt r 66 8, base := fieldAt r 74 8, length := fieldAt r 82 8, cap := fieldAt r 90 8 }
  { x with policies := tabPut x.policies (recordIndex r) y }

def execPolicy (m : Message) (s : State) : Host.Outcome State Fault Refusal :=
  hostCommand .policy (sequenced (teaselRecord formPolicy mayPolicy installPolicy)) m s

/-! REVOKE. -/

/-- What a REVOKE takes away: 1 a policy, 2 a slot of a peer entry. -/
def revokes (r : List Byte) : Nat := fieldAt r 64 1

def formRevoke : RecordForm :=
  { body := fun r => if revokes r = 2 then 2 else 1, indexes := 64
    badBody := fun r =>
      if revokes r != 1 && revokes r != 2 then some 64
      else if revokes r = 2 && 16 ≤ fieldAt r 65 1 then some 65
      else none }

/-- REVOKE is signed by any one origin in the policy's mask, or by the named slot's origin. -/
def mayRevoke (s : State) (p : Nat) (r : List Byte) : Bool :=
  signatures r == 1 &&
    (if revokes r = 2 then signedBySlot s p formRevoke r (fieldAt r 65 1) 0
     else
      match tabGet (s.part p).policies (recordIndex r) with
      | some y => (originsOf y.mask).any (fun o => signedBySlot s p formRevoke r o 0)
      | none => false)

/-- A slot taken from a peer entry, which is freed when its mask becomes empty. -/
def Partition.dropOrigin (x : Partition) (i slot : Nat) : Partition :=
  match tabGet x.peers i with
  | none => x
  | some e =>
    let l := e.mask &&& ~~~(BitVec.twoPow 16 slot)
    { x with peers := if l = 0 then tabDel x.peers i else tabPut x.peers i { e with mask := l } }

def installRevoke (x : Partition) (r : List Byte) : Partition :=
  if revokes r = 2 then x.dropOrigin (recordIndex r) (fieldAt r 65 1) else { x with policies := tabDel x.policies (recordIndex r) }

def execRevoke (m : Message) (s : State) : Host.Outcome State Fault Refusal :=
  hostCommand .revoke (sequenced (teaselRecord formRevoke mayRevoke installRevoke)) m s

/-! Tables (R283, R284). -/

/-- An entry of the refusal log, 32 bytes. -/
def RefusalEntry.bytes32 (e : RefusalEntry) : List Byte :=
  leBytes 8 e.time ++ leBytes 8 e.addr ++ leBytes 2 e.label.toNat ++ leBytes 1 e.path ++ leBytes 1 e.reason ++ leBytes 1 e.peer ++
    leBytes 1 e.policy ++ leBytes 4 e.bytes ++ leBytes 6 0

/-- The entry at a place of the ring of 256. -/
def Partition.refusalAt (x : Partition) (k : Nat) : Option RefusalEntry :=
  let first := x.refused - x.refusals.length
  x.refusals[(k + 256 - first % 256) % 256]?

/-- The refusal log, 256 entries of 32 bytes. -/
def Partition.logTable (x : Partition) : List Byte :=
  (List.range 256).flatMap (fun k => match x.refusalAt k with
    | some e => e.bytes32
    | none => List.replicate 32 0)

/-- The fields of the slot, peer and policy tables in turn; how the device lays them out is its own (log 6). -/
def Partition.tableFields (x : Partition) (kind : Nat) : List Byte :=
  match kind with
  | 1 => x.slots.flatMap (fun e => leBytes 2 e.1 ++ shake256 e.2 32)
  | 2 => x.peers.flatMap (fun e => leBytes 2 e.1 ++ leBytes 16 e.2.addr.toNat ++ leBytes 2 e.2.mask.toNat)
  | _ => x.policies.flatMap (fun e => leBytes 2 e.1 ++ leBytes 2 e.2.mask.toNat ++ leBytes 8 e.2.peers ++ leBytes 8 e.2.base ++
      leBytes 8 e.2.length ++ leBytes 8 e.2.cap ++ leBytes 8 e.2.count)

/-- A table as it is returned. -/
def Partition.table (x : Partition) (kind : Nat) : List Byte :=
  if kind = 4 then x.logTable else Config.tableLayout kind (x.tableFields kind)

/-- The payload fields of a management MEM_READ: the address's other bits, the byte count and the reserved bytes (R41). -/
def badWindowRead (m : Message) (used : Nat) : Option Nat :=
  if fieldAt m.payload 0 8 / 2 ^ used != 0 then some 0
  else if fieldAt m.payload 8 4 = 0 || 65504 < fieldAt m.payload 8 4 then some 8
  else if !zeroBytes m.payload 12 16 then some 12
  else none

/-- A window read: as many of its bytes as are asked for and it has. -/
def windowRead (m : Message) (bs : List Byte) : Reply := { status := stOk, payload := bs.take (fieldAt m.payload 8 4) }

def actTeaselTableRead (m : Message) (s : State) : Reply × State :=
  let a := fieldAt m.payload 0 8
  match badWindowRead m 12, tabGet s.parts (windowPart a) with
  | some o, _ => (Reply.badField o, s)
  | none, none => (Reply.badField 0, s)
  | none, some x => (windowRead m (x.table (a % 256)), s)

def execTeaselTableRead (m : Message) (s : State) : Host.Outcome State Fault Refusal :=
  hostCommand .teaselTableRead (sequenced actTeaselTableRead) m s

/-! Periods (R282). -/

/-- Every policy's count of a partition back to zero. -/
def Partition.newPeriod (x : Partition) : Partition := { x with policies := tabMap (fun y : Policy => { y with count := 0 }) x.policies }

/-- At every multiple of 100 µs of the global time base. -/
def execPolicyPeriod (s : State) : Host.Outcome State Fault Refusal :=
  if (s.periods + 1) * periodTicks ≤ s.time then .next { s with periods := s.periods + 1, parts := tabMap Partition.newPeriod s.parts }
  else .next s

end Sys2Proof.Machine
end

