-- ==== Sys2Proof/Machine/Manage.lean ====
section
/-! DEFINITION. The management endpoint: endpoint enables, reconfiguration and its entries, and boot, configuration and attestation
(R57 to R64, R72, R442 to R446). -/

namespace Sys2Proof.Machine

/-! ENDPOINT_ENABLE (R57 to R59). -/

/-- An endpoint enabled: its numbers start again and its store is empty (R39, R59). -/
def Endpoint.enable (e : Endpoint) : Endpoint :=
  { e with enabled := true, disabling := false, lastAccepted := 0, accepted := 0, running := [], nextDev := 1, stored := [] }

/-- One enable bit written: a set bit enables a disabled endpoint, a cleared one begins to disable it. -/
def writeEnable (mask : Nat) (s : State) (n : Nat) : State :=
  let e := s.endpoint n
  if mask.testBit n then (if e.enabled then s else s.setEndpoint n e.enable)
  else if e.enabled then s.setEndpoint n { e with enabled := false, disabling := true }
  else s

def actEndpointEnable (m : Message) (s : State) : Reply × State :=
  (Reply.ok, (List.range 64).foldl (writeEnable (fieldAt m.payload 0 8)) s)

def execEndpointEnable (m : Message) (s : State) : Host.Outcome State Fault Refusal :=
  hostCommand .endpointEnable (sequenced actEndpointEnable) m s

/-! RECONFIGURE: the check of the whole list (R60, R62, R63). -/

/-- Fields of a reconfiguration entry. -/
def recKind (e : List Byte) : Nat := fieldAt e 0 1
def recPart (e : List Byte) : Nat := fieldAt e 2 2

/-- A legal run of slices (R60). -/
def legalRun (first size : Nat) : Bool :=
  (size == 1 || size == 2 || size == 3 || size == 4 || size == 6 || size == 12) && first % size == 0 && first + size ≤ 12

/-- A field out of range or a nonzero reserved byte. -/
def badRecEntry (e : List Byte) : Bool :=
  (11 < recPart e) ||
    (match recKind e with
      | 1 => !zeroBytes e 1 2 || !zeroBytes e 6 16
      | 2 => 1 < fieldAt e 1 1 || !zeroBytes e 4 16
      | 3 => !zeroBytes e 1 2 || 2 ^ 24 ≤ fieldAt e 4 4 || !zeroBytes e 8 16
      | 4 => !zeroBytes e 1 2 || 63 < fieldAt e 4 1 || !zeroBytes e 5 16
      | _ => true)

/-- Two runs share a slice. -/
def slicesMeet (a b : Nat × Nat) : Bool := a.1 < b.1 + b.2 && b.1 < a.1 + a.2

/-- The jobs that are open or saved (R63): the endpoint of each, and the partitions that hold it. Loads are never in progress between
steps. -/
def jobsHeld (s : State) : List (Nat × List Nat) :=
  s.endpoints.flatMap (fun e => (e.2.jobs.filter (fun j => j.2.isOpen || j.2.saved)).map (fun j => (e.1, j.2.parts)))

/-- What the device would hold after some entries: partitions by number with first slice and size, owners of copy engines, and the
open or saved jobs. -/
structure Plan where
  parts : Tab (Nat × Nat)
  engines : Tab Nat
  jobs : List (Nat × List Nat)
  deriving DecidableEq, Repr

def planOf (s : State) : Plan :=
  { parts := tabMap (fun p : Partition => (p.first, p.size)) s.parts, engines := s.engines, jobs := jobsHeld s }

/-- The reason that refuses an entry, in the order of the table Reconfiguration Refusals. -/
def recReason (s : State) (y : Plan) (e : List Byte) : Option Nat :=
  let here := tabGet y.parts (recPart e)
  let run := (fieldAt e 4 1, fieldAt e 5 1)
  if badRecEntry e then some 1
  else if (recKind e = 1) == here.isSome then some 2
  else if recKind e = 1 && !legalRun run.1 run.2 then some 3
  else if recKind e = 1 && y.parts.any (fun p => slicesMeet p.2 run) then some 4
  else if recKind e = 2 && fieldAt e 1 1 = 0 && y.jobs.any (fun j => j.2.contains (recPart e)) then some 5
  else if recKind e = 4 && (s.endpoint (fieldAt e 4 1)).enabled then some 7
  else none

/-- The engines of a mask. -/
def enginesIn (mask : Nat) : List Nat := (List.range 24).filter (fun i => mask.testBit i)

/-- Engines given to a partition. -/
def giveEngines (l : Tab Nat) (p mask : Nat) : Tab Nat := (enginesIn mask).foldl (fun l i => tabPut l i p) l

/-- What an entry would make of the device. -/
def Plan.after (y : Plan) (e : List Byte) : Plan :=
  match recKind e with
  | 1 => { y with parts := tabPut y.parts (recPart e) (fieldAt e 4 1, fieldAt e 5 1) }
  | 2 => { parts := tabDel y.parts (recPart e), engines := y.engines.filter (fun x => x.2 != recPart e), jobs := y.jobs.filter (fun j => !j.2.contains (recPart e)) }
  | 3 => { y with engines := giveEngines y.engines (recPart e) (fieldAt e 4 4) }
  | 4 => { y with jobs := y.jobs.map (fun j => if j.1 = fieldAt e 4 1 then (j.1, j.2 ++ [recPart e]) else j) }
  | _ => y

/-- The first failure of a list: the entry and the reason; after the last entry, a partition without a copy engine. -/
def checkList (s : State) : Nat → Plan → List (List Byte) → Option (Nat × Nat)
  | i, y, [] => if y.parts.any (fun p => !(y.engines.any (fun x => x.2 == p.1))) then some (i, 6) else none
  | i, y, e :: l =>
    match recReason s y e with
    | some k => some (i, k)
    | none => checkList s (i + 1) (y.after e) l

/-- The entries of a RECONFIGURE. -/
def recEntries (m : Message) : List (List Byte) :=
  (List.range (fieldAt m.payload 0 2)).map (fun i => (m.payload.drop (8 + 16 * i)).take 16)

/-- RECONFIGURE: refused whole, or accepted and then applied entry by entry. -/
def actReconfigure (m : Message) (s : State) : Option Reply × State :=
  let n := fieldAt m.payload 0 2
  if n = 0 || 64 < n then (some (Reply.badField 0), s)
  else if !zeroBytes m.payload 2 8 then (some (Reply.badField 2), s)
  else
    match checkList s 0 (planOf s) (recEntries m) with
    | some (i, k) => (some { status := stBadEntry, index := i, detail := k }, s)
    | none =>
      let r : Reconf := { hseq := m.hseq, tag := m.tag, entries := recEntries m, named := distinct ((recEntries m).map recPart) }
      (none, (s.setBoot { s.boot with reconf := some r }).modEndpoint mgmtEp (fun e =>
        { e with running := e.running ++ [{ hseq := m.hseq, tag := m.tag, sender := m.sender }] }))

def execReconfigure (m : Message) (s : State) : Host.Outcome State Fault Refusal := hostCommand .reconfigure (runSequenced actReconfigure) m s

/-! The entries applied (R61, R64). -/

/-- The entry of a kind that is to apply next. -/
def nextRec (s : State) (kind : Nat) : Option (List Byte) :=
  match s.boot.reconf with
  | some r =>
    match r.entries with
    | e :: _ => if recKind e = kind then some e else none
    | [] => none
  | none => none

/-- The command completes once every entry has applied and every released stack has been cleared. -/
def finishReconf (s : State) : State :=
  match s.boot.reconf with
  | some r =>
    if r.entries.isEmpty && s.boot.clearing.isEmpty then
      let s := (s.setBoot { s.boot with reconf := none }).modEndpoint mgmtEp (fun e => { e with running := e.running.filter (fun x => x.hseq != r.hseq) })
      complete s mgmtEp r.hseq r.tag Reply.ok
    else s
  | none => s

/-- The head entry has applied. -/
def entryApplied (s : State) : State :=
  match s.boot.reconf with
  | some r => finishReconf (s.setBoot { s.boot with reconf := some { r with entries := r.entries.drop 1 } })
  | none => s

/-- None of a run's stacks is being cleared (R61). -/
def runClear (s : State) (first size : Nat) : Bool := s.boot.clearing.all (fun k => k < first || first + size ≤ k)

/-- CREATE: a partition with nothing in it. -/
def execCreatePart (s : State) : Host.Outcome State Fault Refusal :=
  match nextRec s 1 with
  | some e =>
    if runClear s (fieldAt e 4 1) (fieldAt e 5 1) then
      .next (entryApplied (s.setPart (recPart e) { first := fieldAt e 4 1, size := fieldAt e 5 1 }))
    else .next s
  | none => .next s

/-- The jobs of a partition: endpoint, identifier and job. -/
def jobsOfPart (s : State) (p : Nat) : List (Nat × Nat × Job) :=
  s.endpoints.flatMap (fun e => (e.2.jobs.filter (fun j => j.2.parts.contains p)).map (fun j => (e.1, j)))

/-- A job that DESTROY has still to cancel or discard. -/
def jobStands (s : State) (x : Job) : Bool :=
  x.saved || ((s.levelAt x.level).map (fun l => l.status.isNone && !l.cancelled && l.fail != some stPartitionGone)).getD false

/-- A job of a destroyed partition is cancelled with PARTITION_GONE; a saved one is discarded (R59, R64). -/
def endJob (s : State) (x : Nat × Nat × Job) : State :=
  if x.2.2.saved then discardJob s x.1 x.2.1 x.2.2 else cancelJobAs s x.2.2.level stPartitionGone

/-- Nothing of the partition runs any more: a command that has stopped runs no longer, whether or not its record has found room. -/
def partStill (s : State) (p : Nat) : Bool :=
  (jobsOfPart s p).isEmpty && s.units.all (fun u => u.2.part != p || !u.2.live) &&
    s.copies.all (fun c => c.2.part != p || c.2.done || c.2.stop.isSome)

/-- What a slice keeps of its memory is invalidated (R61). -/
def Slice.forget (x : Slice) : Slice := { x with horizon := [], lineG := [], mapG := [], tlb := [], hfields := [], shadow := [], tileShadow := [] }

def forgetSlices (run : List Nat) (l : Tab Slice) : Tab Slice := l.map (fun k => if run.contains k.1 then (k.1, k.2.forget) else k)

/-- The TLBs and L1s of a partition's cores emptied. -/
def Core.forget (x : Core) : Core := { x with tlb := [], l1 := [] }
def forgetCores (p : Partition) (l : Tab Core) : Tab Core := l.map (fun c => if p.hasCore c.1 then (c.1, c.2.forget) else c)

/-- A partition goes: its endpoints are unbound, its engines are free, its caches are invalidated, its stacks are to be cleared (R61,
R64). -/
def removePart (s : State) (p : Nat) : State :=
  let x := s.part p
  let run := (List.range x.size).map (fun i => x.first + i)
  let unbind (e : Endpoint) : Endpoint := if e.bound = some p then { e with bound := none } else e
  let s := { s with
    endpoints := tabMap unbind s.endpoints, engines := s.engines.filter (fun e => e.2 != p), parts := tabDel s.parts p,
    copies := s.copies.filter (fun c => c.2.part != p || c.2.done),
    cores := forgetCores x s.cores, slices := forgetSlices run s.slices }
  s.setBoot { s.boot with clearing := s.boot.clearing ++ run }

/-- DESTROY: first every job ends, then the partition goes. -/
def execDestroyPart (s : State) : Host.Outcome State Fault Refusal :=
  match nextRec s 2 with
  | some e =>
    match (jobsOfPart s (recPart e)).filter (fun x => jobStands s x.2.2) with
    | x :: l => .next ((x :: l).foldl endJob s)
    | [] => if partStill s (recPart e) then .next (entryApplied (removePart s (recPart e))) else .next s
  | none => .next s

/-- ASSIGN_COPY: the engines change their owner; a command of the old owner leaves its engine at the chunk boundary. -/
def moveEngines (s : State) (p mask : Nat) : State :=
  let es := enginesIn mask
  let leave (c : Copy) : Copy := if c.part != p && (match c.journalOf with
    | some e => es.contains e
    | none => false) then { c with engine := none, journalOf := none } else c
  { s with engines := giveEngines s.engines p mask, copies := tabMap leave s.copies }

def execAssignCopy (s : State) : Host.Outcome State Fault Refusal :=
  match nextRec s 3 with
  | some e => .next (entryApplied (moveEngines s (recPart e) (fieldAt e 4 4)))
  | none => .next s

/-- An endpoint bound to a partition, which from now on holds its jobs too (log 28). -/
def Endpoint.bind (x : Endpoint) (p : Nat) : Endpoint :=
  { x with bound := some p, jobs := tabMap (fun j : Job => { j with parts := j.parts ++ [p] }) x.jobs }

/-- BIND_ENDPOINT. -/
def execBindEndpoint (s : State) : Host.Outcome State Fault Refusal :=
  match nextRec s 4 with
  | some e => .next (entryApplied (s.modEndpoint (fieldAt e 4 1) (fun x => x.bind (recPart e))))
  | none => .next s

/-- The stacks being cleared read zero throughout (R61). -/
def clearStacks (s : State) : State :=
  let s := s.boot.clearing.foldl (fun s k => s.setMem (s.mem.clear (k * 2 ^ 36) (2 ^ 36))) s
  s.setBoot { s.boot with clearing := [] }

def execStackClear (s : State) : Host.Outcome State Fault Refusal :=
  if s.boot.clearing.isEmpty then .next s else .next (finishReconf (clearStacks s))

/-! Boot (R442, R443). -/

/-- An image verifies under the Amiell key (R442). -/
def imageVerifies (image : List Byte) : Bool :=
  let x := Config.imageParts image
  Config.falconVerify Config.amiellKey (shake256 x.1 32) x.2

/-- Bytes brought to a size, with zero bytes at the end. -/
def padTo (n : Nat) (bs : List Byte) : List Byte := (bs ++ List.replicate n 0).take n

/-- The identity public key of a seed: 1,793 bytes (R443). -/
def identityKey (seed : List Byte) : List Byte := padTo 1793 (Config.falconPublic seed)

/-- The identity derived from the response of the physically unclonable function; boot state 7 where it fails (R443). -/
def deriveIdentity (b : Boot) : Boot :=
  if Config.pufCorrects b.boots then
    let seed := shake256 Config.pufResponse 48
    { b with state := 4, seed := seed, publicKey := identityKey seed, identity := shake256 (identityKey seed) 32 }
  else { b with state := 7 }

/-- The boot ROM's work on the image in flash: it runs, or a replacement is awaited. -/
def verifyImage (b : Boot) : Boot :=
  if imageVerifies b.flash then { b with state := 3, imageDigest := shake256 (Config.imageParts b.flash).1 32 } else { b with state := 2 }

/-- The boot goes on: from state 0 the ROM turns to the image, in state 1 it verifies it, in state 3 the image derives the identity. Each
takes time, at least 1/12 ns: DESIGN CHOICE (log 25). -/
def Boot.proceed (b : Boot) (now : Nat) : Boot :=
  let b := { b with since := now }
  if b.state = 0 then { b with state := 1 } else if b.state = 1 then verifyImage b else if b.state = 3 then deriveIdentity b else b

/-- The boot is to go on: its state stands since an earlier time. -/
def bootDue (s : State) : Bool :=
  (s.boot.state == 0 || s.boot.state == 1 || s.boot.state == 3) && s.boot.boots != 0 && s.boot.since < s.time

/-- Power-up reset has not been released yet. -/
def unbooted (s : State) : Bool := s.boot.state == 0 && s.boot.boots == 0

/-- A boot that begins at a time, with the image in flash. -/
def startBoot (now boots : Nat) (flash : List Byte) : Boot := { state := 0, since := now, flash := flash, boots := boots + 1 }

/-- Power-up: only the flash survives; the boot count, the free-value counter and what has been sent go on. The management endpoint
answers at its fused address from the boot ROM on. -/
def execPowerUpReset (s : State) : Host.Outcome State Fault Refusal :=
  .next { State.reset with
    endpoints := [(mgmtEp, { addr := some Config.fusedAddress })]
    boot := startBoot 0 s.boot.boots s.boot.flash, fresh := s.fresh, nextId := s.nextId, outbox := s.outbox, agenda := s.agenda }

/-- 64 MiB. -/
def imageLimit : Nat := 2 ^ 26

/-- A replacement image: its bytes gathered; at a write of zero length verified, flashed, and the boot restarted (R442). Nothing that
the image starts has run before it, and the package stays powered: its time base goes on (R87). -/
def actReplacementImage (m : Message) (s : State) : Reply × State :=
  let bs := m.payload.drop 8
  let image := s.boot.transfer
  if fieldAt m.payload 0 8 / 2 ^ 8 != 0 then (Reply.badField 0, s)
  else if 3 ≤ s.boot.state then ({ status := stNotPermitted }, s)
  else if !bs.isEmpty then
    if imageLimit < image.length + bs.length then ({ status := stNotPermitted }, s)
    else (Reply.ok, s.setBoot { s.boot with transfer := image ++ bs })
  else if imageVerifies image then (Reply.ok, s.setBoot (startBoot s.time s.boot.boots image))
  else ({ status := stNotPermitted }, s.setBoot { s.boot with transfer := [] })

def execReplacementImage (m : Message) (s : State) : Host.Outcome State Fault Refusal :=
  hostCommand .replacementImage (sequenced actReplacementImage) m s

/-! Configuration (R444). -/

/-- A record that holds what R444 lists: the addresses of 65 endpoints and a domain device number from 0 to 63 (R432). -/
def recordWhole (r : ConfigRecord) : Bool := r.addresses.length == 65 && r.device < 64

/-- A record signed by the operator for this device. -/
def recordGenuine (s : State) (r : ConfigRecord) : Bool :=
  Config.falconVerify Config.operatorKey (shake256 r.signed 32) r.signature && r.identity == s.boot.identity

/-- The endpoints' addresses from the record. -/
def giveAddresses (r : ConfigRecord) (s : State) : State :=
  (List.range 65).foldl (fun s n => s.modEndpoint n (fun e => { e with addr := r.addresses[n]? })) s

def actConfigurationRecord (m : Message) (s : State) : Reply × State :=
  let bs := m.payload.drop 8
  if s.boot.state != 4 then ({ status := stNotPermitted }, s)
  else if fieldAt m.payload 0 8 / 2 ^ 8 != 0 then (Reply.badField 0, s)
  else
    match Config.configRecord bs with
    | none => (Reply.badField 8, s)
    | some r =>
      if !recordWhole r then (Reply.badField 8, s)
      else if recordGenuine s r then
        (Reply.ok, (giveAddresses r s).setBoot { s.boot with state := 5, serial := r.serial, device := r.device, configDigest := shake256 bs 32 })
      else ({ status := stNotPermitted }, s)

def execConfigurationRecord (m : Message) (s : State) : Host.Outcome State Fault Refusal :=
  hostCommand .configurationRecord (sequenced actConfigurationRecord) m s

/-! Attestation (R445, R446). -/

/-- A nonce of 32 bytes. -/
def actNonce (m : Message) (s : State) : Reply × State :=
  let bs := m.payload.drop 8
  if fieldAt m.payload 0 8 / 2 ^ 8 != 0 then (Reply.badField 0, s)
  else if bs.length != 32 then (Reply.badField 8, s)
  else (Reply.ok, s.setBoot { s.boot with nonce := bs })

def execNonce (m : Message) (s : State) : Host.Outcome State Fault Refusal := hostCommand .nonce (sequenced actNonce) m s

/-- The measurement digest. -/
def Boot.measurement (b : Boot) : List Byte := shake256 (b.imageDigest ++ b.configDigest ++ leBytes 8 Config.encHash.toNat ++ b.nonce) 32

/-- The report (table Attestation Report), every field of its size. -/
def Boot.report (b : Boot) : List Byte :=
  b.measurement ++ padTo 1793 b.publicKey ++ List.replicate 7 0 ++ padTo 1280 (Config.falconSign b.seed b.measurement)

/-- A window of the management endpoint that needs no partition. -/
def actWindow (bs : Boot → List Byte) (m : Message) (s : State) : Reply × State :=
  match badWindowRead m 8 with
  | some o => (Reply.badField o, s)
  | none => (windowRead m (bs s.boot), s)

def execAttestationReport (m : Message) (s : State) : Host.Outcome State Fault Refusal :=
  hostCommand .attestationReport (sequenced (actWindow Boot.report)) m s

/-- The boot status block (table Boot Status); stepping E is 5. -/
def Boot.status (b : Boot) : List Byte :=
  [BitVec.ofNat 8 (b.state % 16 + 5 * 16)] ++ List.replicate 7 0 ++ leBytes 8 b.serial ++ leBytes 8 Config.encHash.toNat ++ b.imageDigest ++ b.identity

def execBootStatus (m : Message) (s : State) : Host.Outcome State Fault Refusal :=
  hostCommand .bootStatus (sequenced (actWindow Boot.status)) m s

end Sys2Proof.Machine
end

