-- ==== Sys2Proof/Machine/Power.lean ====
section
/-! DEFINITION. Speedwell's and the power controller's writes, and power: bind records, lease lengths, votes, domains, rails, pass
counts, load records and fades; further firmware registers, threshold notices, and accesses from other devices (R65, R69, R189, R220,
R280, R355, R432 to R441). -/

namespace Sys2Proof.Machine

/-! Speedwell's tables (R65, R355). -/

/-- The Speedwell firmware runs: the image that starts it is running, and its boot has not stopped (R442, R443). -/
def speedwellRuns (s : State) : Bool := s.boot.state == 3 || s.boot.state == 4 || s.boot.state == 5

/-- A bind record with a nonzero reserved bit. -/
def badBind (x : BitVec 64) : Bool := x.toNat / 2 ^ 57 != 0

/-- A bind record written whole; one with a nonzero reserved bit is ignored at the scan and sets the write-error flag. -/
def execBindRecordWrite (slice index : Nat) (value : BitVec 64) (s : State) : Host.Outcome State Fault Refusal :=
  if speedwellRuns s && slice < 12 && index < 64 then
    .next (s.modSlice slice (fun x => { x with slots := tabSetD 0 x.slots index value, writeError := x.writeError || badBind value }))
  else .next s

/-- The lease length register; bits [31:13] read zero. -/
def execLeaseLengthWrite (slice : Nat) (value : Word) (s : State) : Host.Outcome State Fault Refusal :=
  if speedwellRuns s && slice < 12 then .next (s.modSlice slice (fun x => { x with lease := BitVec.ofNat 32 (value.toNat % 2 ^ 13) })) else .next s

/-! Rails (R436 to R438). -/

/-- The rail of a chiplet. -/
def railOf (slice : Nat) : Nat := slice / 3

/-- Headroom in mV. -/
def headroom : Nat := 25

/-- The voltage of a rail at a time, in mV: it rises at 20 mV/µs and falls at 10 mV/µs after its hold. -/
def Rail.volts (r : Rail) (t : Nat) : Nat :=
  if r.mv ≤ r.target then min r.target (r.mv + 20 * (t - r.at') / microTicks)
  else if r.stays || r.holdEnd.isSome then r.mv
  else max r.target (r.mv - 10 * (t - r.at') / microTicks)

/-- The rail's target: its highest vote plus headroom, 0 where none votes. -/
def targetOf (s : State) (rail : Nat) : Nat :=
  let v := max (s.slice (3 * rail)).vote (max (s.slice (3 * rail + 1)).vote (s.slice (3 * rail + 2)).vote)
  if v = 0 then 0 else v + headroom

/-- The rail given a new target at a time: a rise ends any hold or fall, a fall starts the hold again. -/
def Rail.retarget (r : Rail) (t target : Nat) : Rail :=
  let v := r.volts t
  if target = r.target then r
  else if v ≤ target then { mv := v, target := target, holdEnd := none, at' := t, stays := false }
  else if target < r.target then { mv := v, target := target, holdEnd := some (t + fiftyMicros), at' := t, stays := false }
  else { mv := v, target := target, holdEnd := none, at' := t, stays := true }

/-- A chiplet's ready bit as its rail stands: a vote is in force and the rail stands at or above it with headroom. -/
def readyNow (s : State) (slice : Nat) : Bool :=
  let v := (s.slice slice).vote
  v != 0 && v + headroom ≤ (s.rail (railOf slice)).volts s.time

/-! Pass counts (R129, R220, R438, R439). -/

/-- Every open frame of a thread disturbed. -/
def Thread.disturb (x : Thread) : Thread := { x with frames := x.frames.map (fun f => { f with disturbed := true }) }

/-- The frames of the SIMT-core threads of some clusters disturbed, and their CALLVs on their way. -/
def disturbClusters (s : State) (cls : List Nat) : State :=
  let meets (t : Nat) : Bool := cls.contains (s.clusterOf t) && !(isControl (s.coreOf t))
  { s with
    threads := s.threads.map (fun e => if meets e.1 then (e.1, e.2.disturb) else e)
    accesses := s.accesses.map (fun e => if e.2.kind == .table && meets e.2.thread then (e.1, { e.2 with disturbed := true }) else e) }

/-- The clusters of a slice. -/
def clustersOf (slice : Nat) : List Nat := (List.range 8).map (fun c => 8 * slice + c)

/-- The clusters whose SIMT cores issue at another pass count in the second state. -/
def changedCounts (s s' : State) (cls : List Nat) : List Nat := cls.filter (fun c => s.passCodeOf (5 * c) != s'.passCodeOf (5 * c))

/-- A change of a ready bit or a register, with the frames that it disturbs. -/
def settleCounts (s s' : State) (cls : List Nat) : State := disturbClusters s' (changedCounts s s' cls)

/-- A chiplet's ready bit set. -/
def setReady (s : State) (slice : Nat) (b : Bool) : State :=
  settleCounts s (s.modSlice slice (fun x => { x with ready := b })) (clustersOf slice)

/-- A chiplet's vote in force from now on: its rail takes the new target, its ready bit follows. -/
def castVote (s : State) (slice vote : Nat) : State :=
  let s := s.modSlice slice (fun x => { x with vote := vote })
  let k := railOf slice
  let s := s.setRail k ((s.rail k).retarget s.time (targetOf s k))
  setReady s slice (readyNow s slice)

/-- A vote that the register takes. -/
def goodVote (v : Nat) : Bool := v == 0 || (650 ≤ v && v ≤ 1000)

/-- The vote register; a vote out of range is ignored and sets the write-error flag. -/
def execVoteWrite (slice : Nat) (value : Word) (s : State) : Host.Outcome State Fault Refusal :=
  let v := value.toNat % 2 ^ 11
  if 12 ≤ slice || !speedwellRuns s then .next s
  else if goodVote v then .next (castVote s slice v)
  else .next (s.modSlice slice (fun x => { x with writeError := true }))

/-- The TLBs and L1s of a chiplet's cores hold nothing while it is gated (R244); its own TLB goes with the gating. -/
def gateCores (s : State) (slice : Nat) : State :=
  { s with cores := s.cores.map (fun c => if c.1 / 40 = slice then (c.1, c.2.forget) else c) }

/-- The fade of a chiplet has ended: none runs or is to start, no lane pass has issued since, and one has ended unless the record is zero
(R436, R441). -/
def Slice.faded (x : Slice) : Bool := x.fade.isNone && !x.fall && x.passes == 0 && (x.loadRecord == 0 || x.spent)

/-- A chiplet's domain gated once its fade has ended, its vote withdrawn. -/
def execDomainGate (slice : Nat) (s : State) : Host.Outcome State Fault Refusal :=
  if speedwellRuns s && slice < 12 && (s.slice slice).ungated && (s.slice slice).faded then
    .next (castVote ((gateCores s slice).modSlice slice (fun x => { x with ungated := false, tlb := [], gatedAt := s.time })) slice 0)
  else .next s

/-- How long a unit has stood in a gated domain, up to the end of the gating or to its own stop, which its saved time goes on from. -/
def Unit.paused (u : Unit) (gated now : Nat) : Nat := (if u.stopped then u.stoppedAt else now) - max gated u.dispatched

/-- The time since which something has waited, moved on by a gating that ends now. -/
def movedOn (gated now since : Nat) : Nat := if since ≤ gated then since + (now - gated) else now

/-- A thread's marks of time moved on by a gating, in which no clk of its core has passed: the time since which it has been ready, the
issues of its open calls, and its first issue (R127, R218, R227). -/
def Thread.pause (gated now away : Nat) (x : Thread) : Thread :=
  { x with readySince := movedOn gated now x.readySince, frames := x.frames.map (fun f => { f with issued := f.issued + away }),
           started := x.started.map (fun y => (y.1 + away, y.2)) }

/-- The threads, the calls in flight and the pending gangs of a chiplet after its gating. -/
def pauseSlice (s : State) (slice : Nat) : State :=
  let g := (s.slice slice).gatedAt
  let away (t : Nat) : Nat := (s.unit (unitOfThread t)).paused g s.time
  { s with
    threads := s.threads.map (fun e => if s.coreOf e.1 / 40 = slice then (e.1, e.2.pause g s.time (away e.1)) else e)
    gangs := s.gangs.map (fun e =>
      if s.coreOfGang e.1 / 40 = slice then (e.1, { e.2 with pendingSince := movedOn g s.time e.2.pendingSince }) else e)
    accesses := s.accesses.map (fun e =>
      if s.coreOf e.2.thread / 40 = slice && e.2.kind == .table then (e.1, { e.2 with aux := e.2.aux + away e.2.thread }) else e) }

/-- A chiplet's domain ungated while its ready bit is 1: its clk count starts again (R87). -/
def execDomainUngate (slice : Nat) (s : State) : Host.Outcome State Fault Refusal :=
  if speedwellRuns s && slice < 12 && (s.slice slice).ready && !(s.slice slice).ungated then
    .next ((pauseSlice s slice).modSlice slice (fun x => { x with ungated := true, clkBase := s.time }))
  else .next s

/-- The first rail whose hold has ended begins to fall from where it stands. -/
def execRailHoldExpiry (s : State) : Host.Outcome State Fault Refusal :=
  match firstWith s.rails (fun _ r => r.holdEnd.any (· ≤ s.time)) with
  | some (k, r) => .next (s.setRail k { r with holdEnd := none, at' := r.holdEnd.getD r.at' })
  | none => .next s

/-- The first chiplet whose rail has reached its vote with headroom. -/
def nextReady (s : State) : Option Nat := (firstWith s.slices (fun k x => !x.ready && readyNow s k)).map Prod.fst

def execRailReady (s : State) : Host.Outcome State Fault Refusal :=
  match nextReady s with
  | some k => .next (setReady s k true)
  | none => .next s

/-- The vote register as Speedwell reads it (table Vote Register). -/
def voteRegister (s : State) (slice : Nat) : Word :=
  BitVec.ofNat 32 ((s.slice slice).vote + (if (s.slice slice).ready then 2 ^ 11 else 0))

/-- The pass-count register as Speedwell reads it: the count, and whether a ready bit of 0 forces pass count 4 (table Pass-Count
Register). -/
def passRegister (s : State) (cluster : Nat) : Word :=
  BitVec.ofNat 32 ((s.cluster cluster).passCode + (if (s.slice (cluster / 8)).ready then 0 else 4))

/-- The pass-count register of a cluster set. -/
def setPassCode (s : State) (cluster code : Nat) : State :=
  settleCounts s (s.modCluster cluster (fun x => { x with passCode := code })) [cluster]

/-- A condition has stood for a span, counted again from the last step of the cluster's count. -/
def stoodFor (since : Option Nat) (stepped now span : Nat) : Bool := since.any (fun t => max t stepped + span ≤ now)

/-- The chiplet's measured current has exceeded its allocation for 1 µs, or lain below it for 100 µs, since the last step of the cluster's
count. That a raise too is of one step, and that its 1 µs counts again from the last step, are DESIGN CHOICE (log 25). -/
def mayRaise (s : State) (cluster : Nat) : Bool :=
  cluster < 96 && stoodFor (s.slice (cluster / 8)).overSince (s.cluster cluster).stepped s.time microTicks
def mayLower (s : State) (cluster : Nat) : Bool :=
  cluster < 96 && stoodFor (s.slice (cluster / 8)).underSince (s.cluster cluster).stepped s.time (100 * microTicks)

/-- One step of a count. -/
def stepCount (s : State) (cluster code : Nat) : State :=
  setPassCode (s.modCluster cluster (fun x => { x with stepped := s.time })) cluster code

/-- The power controller raises or lowers a count one step. -/
def execPassCountRaise (cluster : Nat) (s : State) : Host.Outcome State Fault Refusal :=
  if mayRaise s cluster then .next (stepCount s cluster (min 2 ((s.cluster cluster).passCode + 1))) else .next s

def execPassCountLower (cluster : Nat) (s : State) : Host.Outcome State Fault Refusal :=
  if mayLower s cluster then .next (stepCount s cluster ((s.cluster cluster).passCode - 1)) else .next s

/-- The power controller's measure of a chiplet's current, and its allocation. -/
def Slice.measured (now current allocation : Nat) (x : Slice) : Slice :=
  { x with
    current := current, allocation := allocation,
    overSince := if allocation < current then some (x.overSince.getD now) else none,
    underSince := if current < allocation then some (x.underSince.getD now) else none }

/-! Load records and fades (R440, R441). -/

/-- 0.1 µs in ticks. -/
def loadTick : Nat := 1200

/-- An interval of a chiplet ends: the record is the sum of its last 40 intervals, and the interval's passes stand below half of their
mean or not. Ballast is no part of it. -/
def Slice.endInterval (x : Slice) : Slice :=
  let w := (x.passes :: x.window).take 40
  let r := w.sum
  let low := 80 * x.passes < r
  { x with passes := 0, window := w, loadTicks := x.loadTicks + 1, loadRecord := r, below := low,
           fall := x.fall || (low && !x.below && x.fade.isNone), spent := x.spent && x.passes == 0 }

/-- An interval of the chiplet is over. -/
def intervalOver (s : State) (x : Slice) : Bool := (x.loadTicks + 1) * loadTick ≤ s.time

/-- Every 0.1 µs: the load record of each chiplet whose interval is over. -/
def execLoadRecordUpdate (s : State) : Host.Outcome State Fault Refusal :=
  .next { s with slices := tabMap (fun x : Slice => if intervalOver s x then x.endInterval else x) s.slices }

/-- The first chiplet with a fall of its load starts its fade. -/
def execFadeStart (s : State) : Host.Outcome State Fault Refusal :=
  match firstWith s.slices (fun _ x => x.fall) with
  | some (k, x) => .next (s.setSlice k { x with fall := false, fade := some (x.loadRecord, s.time), ballast := 0, spent := false })
  | none => .next s

/-- The fade has run for 2 µs. -/
def Slice.fadeOver (x : Slice) (t : Nat) : Bool := x.fade.any (fun f => f.2 + fadeTicks ≤ t)

/-- The first chiplet whose fade is over issues no more ballast. -/
def execFadeEnd (s : State) : Host.Outcome State Fault Refusal :=
  match firstWith s.slices (fun _ x => x.fadeOver s.time) with
  | some (k, x) => .next (s.setSlice k { x with fade := none, spent := true })
  | none => .next s

/-! Other firmware registers (R69, R70, R189, R432). -/

/-- A firmware write to a register without a row of its own, where its partition exists; a measure of the power controller. -/
def execRegisterWrite (w : RegWrite) (s : State) : Host.Outcome State Fault Refusal :=
  let has (p : Nat) : Bool := (tabGet s.parts p).isSome
  match w with
  | .threshold p code value =>
    if has p && code < 20 then .next (s.modPart p (fun x => { x with thresholds := tabSetD 0 x.thresholds code value })) else .next s
  | .account p a refill lend =>
    if has p && a < 64 then
      .next (s.modPart p (fun x => { x with accounts := tabPut x.accounts a { tabGetD {} x.accounts a with refill := refill, lend := lend } }))
    else .next s
  | .window p base => if has p then .next (s.modPart p (fun x => { x with exposed := some base })) else .next s
  | .power k current allocation => if k < 12 then .next (s.modSlice k (Slice.measured s.time current allocation)) else .next s

/-! Threshold notices (R189). -/

/-- The first crossing whose notice has not been sent: launch, counter, and the value at the crossing. -/
def nextThreshold (s : State) : Option (Nat × Nat × Nat) :=
  s.launches.findSome? (fun l => l.2.crossed.head?.map (fun c => (l.1, c)))

/-- The notice of a counter's crossing. -/
def thresholdNotice (s : State) (launch code n : Nat) : State :=
  (notice s (s.launchEp launch) 1 (s.launch launch).ident code (leBytes 8 n)).modLaunch launch (fun l =>
    { l with crossed := tabDel l.crossed code, noticed := l.noticed ++ [code] })

def execEventThresholdNotice (s : State) : Host.Outcome State Fault Refusal :=
  match nextThreshold s with
  | some (l, c, t) => .next (thresholdNotice s l c t)
  | none => .next s

/-! Accesses from other devices (R239, R280, R281, R432, R434). -/

/-- The answer to another device. -/
def State.reply (s : State) (dest : BitVec 128) (data : Option (List Byte)) : State :=
  { s with replies := s.replies ++ [{ dest := dest, failed := data.isNone, data := data.getD [] }] }

/-- The operation of a row of the table Atomic Operations. -/
def rowOp (n : Nat) : AOp :=
  match n with
  | 0 => .add | 1 => .min | 2 => .max | 3 => .and | 4 => .or | 5 => .xor | 6 => .exch | 7 => .cas
  | _ => .fadd

/-- The bytes of a remote access and the permissions that it needs. -/
def remoteSpan (op : RemoteOp) : Nat × Need :=
  match op with
  | .load n => (n, { r := true })
  | .store bs => (bs.length, { w := true })
  | .atomic _ ty _ _ _ _ => (atomicWidth ty, { r := true, w := true })

/-- A page that an access from another device may touch: not device-private, not another device's, and raw for an atomic. -/
def remoteMay (op : RemoteOp) (x : Piece) : Bool :=
  x.leaf.cls != 2 && (match x.home with
    | .remote _ _ | .stack _ _ => false
    | _ => true) &&
    (match op with
      | .atomic _ _ _ _ _ _ => x.leaf.format == 0
      | _ => true)

/-- Teasel's decision on bytes read for another device (R281: a remote load served). -/
def serveRelease (s : State) (r : RemoteAccess) (va : Nat) (ps : List Piece) : Option Nat × State :=
  let peer := peerIndex s r.part r.sender
  release s r.part (pagesLabel ps) peer va (ps.map Piece.n).sum 4 (peer.getD 0xFF)

/-- A remote load served through Teasel. -/
def serveLoad (s : State) (r : RemoteAccess) (va : Nat) (ps : List Piece) : State :=
  match serveRelease s r va ps with
  | (none, s) => s.reply r.sender (some (ps.flatMap (pieceBytes s)))
  | (some _, s) => s.reply r.sender none

/-- A remote write under the ingress label of its sender; `back` is what its answer takes of the old bytes. -/
def serveWrite (s : State) (r : RemoteAccess) (ps : List Piece) (new back : List Byte → List Byte) : State :=
  if ps.any (fun x => !Label.subset (ingressLabel s r.part r.sender) x.leaf.label) then s.reply r.sender none
  else
    let old := ps.flatMap (pieceBytes s)
    let w := writeBorn none r.part ps (new old) 0 s
    w.2.2.reply r.sender (if w.2.1 = 0 then some (back old) else none)

/-- A remote atomic: one that answers the old bytes is also a load (R291), which Teasel decides as it does a remote load served, once its
sender's label may enter (R281; DEDUCED that a refused one writes nothing: log 25). -/
def serveAtomic (s : State) (r : RemoteAccess) (va : Nat) (ps : List Piece) (new : List Byte → List Byte) (answers : Bool) : State :=
  if !answers || ps.any (fun x => !Label.subset (ingressLabel s r.part r.sender) x.leaf.label) then serveWrite s r ps new (fun _ => [])
  else
    match serveRelease s r va ps with
    | (none, s) => serveWrite s r ps new id
    | (some _, s) => s.reply r.sender none

/-- An access that reaches its pages. -/
def serveRemote (s : State) (r : RemoteAccess) (va : Nat) (ps : List Piece) : State :=
  match r.op with
  | .load _ => serveLoad s r va ps
  | .store bs => serveWrite s r ps (fun _ => bs) (fun _ => [])
  | .atomic op ty c d mode answers =>
    serveAtomic s r va ps (fun old =>
      leBytes (atomicWidth ty) (atomicNew (rowOp op) ty (Round.ofCode mode) (BitVec.ofNat 64 (leNat old)) c d).1.toNat) answers

/-- An incoming access to the window that the partition exposes; what cannot be served is answered with an error response. -/
def execRemoteAccessIn (r : RemoteAccess) (s : State) : Host.Outcome State Fault Refusal :=
  let n := remoteSpan r.op
  match (tabGet s.parts r.part).bind Partition.exposed with
  | none => .next (s.reply r.sender none)
  | some base =>
    if n.1 = 0 || 2 ^ 32 < r.offset + n.1 then .next (s.reply r.sender none)
    else
      match reach s 0 r.part (base + r.offset) n.1 {} n.2 with
      | .ok ps =>
        if ps.all (remoteMay r.op) && !outside s r.part ps then .next (serveRemote s r (base + r.offset) ps) else .next (s.reply r.sender none)
      | _ => .next (s.reply r.sender none)

end Sys2Proof.Machine
end

