-- ==== Sys2Proof/Machine/Issue.lean ====
section
/-! DEFINITION. Issue: the events that make threads ready again, aging, the skid limit and Glason's active set; the convergence
table; the choice of an issue group; the fetch of its word; and the latch that the running instruction acts on (R80, R97, R115 to
R119, R125 to R128, R398 to R402). -/

namespace Sys2Proof.Machine

/-! Becoming ready again (R115). -/

/-- The bytes of a thread's word can be fetched or refused: both pages are present, and a MAP that brought one is complete (R80, R249). -/
def fetchable (s : State) (t : Nat) : Bool :=
  let pc := (s.thread t).pc.toNat
  !s.shootingOver (s.partOf t) pc && !s.shootingOver (s.partOf t) (pc + 11) &&
  match reach s (s.coreOf t) (s.partOf t) pc 12 {} { x := true } with
  | .held _ _ _ => false
  | _ => true

/-- The threads' own unperformed writes that the skid limit looks at: issued 32 instructions ago or more (R402). -/
def skidWrite (s : State) (t : Nat) : Bool := (s.ownWrites t).any (fun e => e.2.born + 32 ≤ (s.thread t).issued)

/-- The condition that blocks a thread has cleared. A region's threads go on only with the region (R417). -/
def clears (s : State) (t : Nat) (w : Why) : Bool :=
  let x := s.thread t
  let g := gangOf t
  match w with
  | .reg r => x.full r && !s.lent t r
  | .lane l r => (s.thread (threadAt g l)).full r
  | .pred n => !x.pending n
  | .member _ => s.holdEnds g x.pc
  | .held => s.holdEnds g x.pc
  | .landing n | .behind n => s.accesses.all (fun e => e.2.group != n)
  | .writes => (s.ownWrites t).isEmpty
  | .fence k => fenceDone s t k
  | .together k n => (s.threadsOfGang g).all (fun u => (s.thread u).sched != .blocked (.together k n) || orderDone s u k)
  | .barrier k p => s.phase g k != p
  | .mready m => mreadyDone s g m
  | .copies c => incompleteCopies s g ≤ c
  | .owner => !remapTaken s t
  | .commands n => (unitCommand s (unitOfThread t) n).isSome || waitingCommands s (unitOfThread t) < 8
  | .slots n rs => (unitCommand s (unitOfThread t) n).isSome || rs.all (fun r => 0 < slotsLeft (s.unit (unitOfThread t)) r)
  | .entry => (freeEntry s (s.clusterOf t)).isSome
  | .queue => eventRoom s t
  | .child => (freeChild s (s.coreOf t)).isSome
  | .ticket y => !outstanding s t y
  | .event => !(s.cluster (s.clusterOf t)).events.isEmpty
  | .region => false
  | .sfq => !s.sfqFull (s.coreOf t) || !(s.pendingRecords g).isEmpty
  | .skid => !skidWrite s t
  | .fetch => fetchable s t

/-- A blocked thread whose condition has cleared. -/
def unblocks (s : State) (t : Nat) : Bool :=
  match tabGet s.threads t with
  | some x =>
    match x.sched with
    | .blocked w => clears s t w
    | _ => false
  | none => false

/-- The threads that go on with a thread: those held with it (R120), and those that wait together with it for a FENCE or a DRAIN. -/
def goWith (s : State) (t : Nat) : List Nat :=
  if (s.thread t).isHeld then s.heldAt (gangOf t) (s.thread t).pc
  else
    match (s.thread t).sched with
    | .blocked (.together k n) => (s.threadsOfGang (gangOf t)).filter (fun u => (s.thread u).sched == .blocked (.together k n))
    | _ => [t]

/-- The thread becomes ready. -/
def execThreadUnblock (t : Nat) (s : State) : Host.Outcome State Fault Refusal :=
  if unblocks s t then .next (s.release (goWith s t)) else .next s

/-! Who may issue. -/

/-- A thread's unit issues: it stands in its cores, it is neither halted in an earlier clk nor stopped, it awaits no page that aborts it,
its chiplet's domain is ungated, and its gang is active (R128, R410, R411, R421, R436). -/
def mayIssue (s : State) (t : Nat) : Bool :=
  let u := s.unit (unitOfThread t)
  u.live && !(u.halted && u.haltedFrom ≤ s.time) && !u.stopped && u.awaits.isEmpty && (s.slice u.slice).ungated && (s.gang (gangOf t)).active

/-- A ready thread of a unit that issues. -/
def isReady (s : State) (t : Nat) : Bool := (s.thread t).sched == .ready && mayIssue s t

/-- Each thread that a yield waits for has issued since, left the ready state, may no longer issue, or has left the core (R97). -/
def yieldOver (s : State) (t : Nat) : Bool :=
  (s.thread t).yieldFor.all (fun e => match tabGet s.threads e.1 with
    | some x => x.turns != e.2 || !isReady s e.1
    | none => true)

/-- A thread that a group may take now: past its stall and its yield, and not at the skid limit of a write of its own (R97, R402). -/
def eligible (s : State) (t : Nat) : Bool :=
  isReady s t && (s.thread t).stallUntil ≤ s.time && ((s.thread t).aged || yieldOver s t) && !skidWrite s t

/-- The eligible threads of a core. -/
def eligibleOn (s : State) (core : Nat) : List Nat := (s.threads.map Prod.fst).filter (fun t => s.coreOf t == core && eligible s t)

/-! Aging (R127). -/

/-- 4,096 clk in ticks. -/
def ageTicks : Nat := 20480

/-- A thread that has been ready for 4,096 clk outside a handler, in Glason compatibility mode also one of an active gang (DESIGN CHOICE:
log 13). Time in which its gang is pending or its chiplet's domain is gated does not count. -/
def ages (s : State) (t : Nat) : Bool :=
  isReady s t && !(s.thread t).inTrap && !(s.thread t).aged && (s.thread t).readySince + ageTicks ≤ s.time

/-- The first thread that ages. -/
def nextAged (s : State) : Option Nat := (s.threads.map Prod.fst).find? (ages s)

def execAging (s : State) : Host.Outcome State Fault Refusal :=
  match nextAged s with
  | some t => .next (s.modThread t (fun x => { x with aged := true }))
  | none => .next s

/-! Glason's active set (R128). -/

/-- A gang of a launch in Glason compatibility mode that stands on a core. -/
def isGlason (s : State) (g : Nat) : Bool :=
  let u := s.unit (unitOf g)
  u.live && (s.launch u.launch).glason && !(s.gang g).ended

/-- Two gangs belong to one context of one core. -/
def sameContext (s : State) (g h : Nat) : Bool :=
  s.coreOfGang g == s.coreOfGang h && (s.unit (unitOf g)).launch == (s.unit (unitOf h)).launch

/-- Every ready or blocked thread of the gang is blocked on an empty register, its own or the lane's that an RDLANE names, and there is
one; a register that is only lent is not empty, and a thread in its handler is neither ready nor blocked (R115). -/
def gangStarved (s : State) (g : Nat) : Bool :=
  let ts := (s.threadsOfGang g).filter (fun t => (s.thread t).sched != .exited && !(s.thread t).inTrap)
  !ts.isEmpty && ts.all (fun t => match (s.thread t).sched with
    | .blocked (.reg r) => !(s.thread t).full r
    | .blocked (.lane l r) => !(s.thread (threadAt g l)).full r
    | _ => false)

/-- A gang with a ready thread. -/
def gangReady (s : State) (g : Nat) : Bool := (s.threadsOfGang g).any (fun t => (s.thread t).sched == .ready)

/-- The ready gang that has been pending longest in the set of a gang. -/
def longestPending (s : State) (g : Nat) : Option Nat :=
  ((s.gangs.filter (fun e => isGlason s e.1 && !e.2.active && sameContext s e.1 g && gangReady s e.1)).foldl (fun acc e => match acc with
    | none => some e
    | some x => if e.2.pendingSince < x.2.pendingSince then some e else some x) none).map Prod.fst

/-- A pending gang takes an active one's place; the swap takes 2 clk. Its threads have been ready from now on. -/
def swapGangs (s : State) (out into : Nat) : State :=
  let s := s.modGang out (fun x => { x with active := false, pendingSince := s.time })
  let s := s.modGang into (fun x => { x with active := true })
  (s.threadsOfGang into).foldl (fun s t => s.modThread t (fun x => { x with stallUntil := max x.stallUntil (s.time + 10), readySince := s.time })) s

/-- The first swap of a starved or ended active gang: what goes out and what comes in. -/
def nextSwap (s : State) : Option (Nat × Nat) :=
  s.gangs.findSome? (fun e => if isGlason s e.1 && e.2.active && gangStarved s e.1 then (longestPending s e.1).map (fun g => (e.1, g)) else none)

/-- A gang that waits while its set holds fewer than 8 gangs. -/
def nextEntrant (s : State) : Option Nat :=
  (s.gangs.find? (fun e => isGlason s e.1 && !e.2.active && gangReady s e.1 &&
    activeGangs s (s.unit (unitOf e.1)).launch (s.coreOfGang e.1) < 8)).map Prod.fst

def execGlasonSwap (s : State) : Host.Outcome State Fault Refusal :=
  match nextEntrant s with
  | some g => .next (s.modGang g (fun x => { x with active := true }))
  | none =>
    match nextSwap s with
    | some (o, i) => .next (swapGangs s o i)
    | none => .next s

/-- The serial number of a gang's last issue. -/
def gangIssue (s : State) (g : Nat) : Nat := (s.threadsOfGang g).foldl (fun n t => max n (s.thread t).lastIssue) 0

/-- The active gang of a gang's set that has issued least recently. -/
def leastRecent (s : State) (g : Nat) : Option Nat :=
  ((s.gangs.map Prod.fst).filter (fun h => isGlason s h && (s.gang h).active && sameContext s h g)).foldl (fun acc h => match acc with
    | none => some h
    | some x => if gangIssue s h < gangIssue s x then some h else some x) none

/-- Ready since: the moment from which a pending gang's wait counts. -/
def pendingReady (s : State) (g : Nat) : Nat :=
  ((s.threadsOfGang g).filter (fun t => (s.thread t).sched == .ready)).foldl (fun n t => min n (max (s.thread t).readySince (s.gang g).pendingSince)) s.time

/-- The first pending gang that has been ready for 4,096 clk, and the gang whose place it takes. -/
def nextPendingAged (s : State) : Option (Nat × Nat) :=
  s.gangs.findSome? (fun e =>
    if isGlason s e.1 && !e.2.active && gangReady s e.1 && !s.gatedCore (s.coreOfGang e.1) && pendingReady s e.1 + ageTicks ≤ s.time then
      (leastRecent s e.1).map (fun o => (o, e.1)) else none)

def execGlasonPendingAging (s : State) : Host.Outcome State Fault Refusal :=
  match nextPendingAged s with
  | some (o, i) => .next (swapGangs s o i)
  | none => .next s

/-! The skid limit (R402). -/

/-- A record of the thread's own write, made 32 instructions ago or more, is pending. -/
def skidRecord (s : State) (t : Nat) : Bool :=
  !(s.thread t).inTrap && (s.pendingRecords (gangOf t)).any (fun r => r.thread == t && 1 ≤ r.kind && r.kind ≤ 6 && r.born + 32 ≤ (s.thread t).issued)

/-- The first ready thread at the limit. -/
def nextSkid (s : State) : Option Nat := (s.threads.map Prod.fst).find? (fun t => isReady s t && (skidWrite s t || skidRecord s t))

def execSkidLimit (s : State) : Host.Outcome State Fault Refusal :=
  match nextSkid s with
  | some t => .next (if skidWrite s t then s.block t .skid else deliver s t (s.thread t).pc (s.recordsLabel (gangOf t)))
  | none => .next s

/-- A thread that enters its handler instead of issuing: its own load or operation faulted, its core's record queue is full while its
gang has a record, or it stands at the skid limit of a write that was recorded (R398, R400, R402). -/
def mustEnter (s : State) (t : Nat) : Bool :=
  !(s.thread t).inTrap && ((s.thread t).forced || (s.sfqFull (s.coreOf t) && !(s.pendingRecords (gangOf t)).isEmpty) || skidRecord s t)

/-! Fetch (R79, R80, R98). -/

/-- What the fetch of the group's word comes to. -/
inductive Fetch where
  /-- a page is not present. -/
  | held (va : Nat) (hostResident : Bool) (level : Nat)
  /-- a trap: kind, detail, and the opcode and fields of an illegal word. -/
  | trap (kind : Nat) (info : Word) (word : Option (Nat × Fields))
  /-- a page whose memory does not exist. -/
  | nothing
  | ok (i : Instr)
  deriving DecidableEq, Repr

/-- The opcode and the fields of a word's bytes. -/
def fieldsOf (bs : List Byte) : Nat × Fields :=
  let w : IWord := BitVec.ofNat 96 (leNat bs)
  (w.field 86 10, Fields.ofWord w)

/-- The decoding of the fetched bytes under the launch's register count. -/
def fetched (rc : Nat) (bs : List Byte) : Fetch :=
  match decodeBytes rc bs with
  | .ok i => .ok i
  | .error .check => .trap 2 0 none
  | .error (.illegal r) => .trap 1 (BitVec.ofNat 32 r) (some (fieldsOf bs))

/-- The twelve bytes at an address of a partition, as a core's fetch unit reads them. -/
def fetchAt (s : State) (core part rc pc : Nat) : Fetch :=
  match reach s core part pc 12 {} { x := true } with
  | .held va h level => .held va h level
  | .refused k _ => .trap 4 (BitVec.ofNat 32 k) none
  | .ok ps =>
    if outside s part ps then .nothing
    else
      match (rawPieces s part ps).1 with
      | none => .trap 4 1 none
      | some x => fetched rc x.1

/-! The hold of gang operations by the issue-group builder (R120, R336, R378, R417). -/

/-- The word that a thread stands at. -/
def wordAt (s : State) (t : Nat) : Option (Nat × Fields) :=
  match fetchAt s (s.coreOf t) (s.partOf t) (s.launchOf t).kernel.regs (s.thread t).pc.toNat with
  | .ok i => i.fields.map (fun f => (opcodeOf i, f))
  | _ => none

/-- The predicates that the modifier of a form names. -/
def namedPreds (op : Nat) (f : Fields) : List Nat :=
  if op = 0x042 ∨ op = 0x043 ∨ (0x0C0 ≤ op ∧ op ≤ 0x0C3) ∨ op = 0x348 ∨ op = 0x385 then modPred (f.bits 0 3)
  else if op = 0x148 then modPred (f.bits 5 3)
  else if op = 0x1C0 then modPred (f.bits 2 3)
  else if op = 0x088 ∨ op = 0x386 then List.range 7
  else if op = 0x089 then v2pIx f
  else if (0x200 ≤ op ∧ op ≤ 0x205) ∨ (0x280 ≤ op ∧ op ≤ 0x28F) ∨ op = 0x2C0 ∨ op = 0x2C1 ∨ op = 0x300 then bpPreds f
  else []

/-- How the builder holds a thread at a form: a collective under its member mask; COPY, COPYM, the barriers, RGN and RGNE for every launched
lane. -/
def holdOf (op : Nat) (f : Fields) : Option Why :=
  if 0x0C0 ≤ op ∧ op ≤ 0x0CC then some (memberHold f)
  else if op = 0x2C3 ∨ op = 0x2C4 ∨ (0x341 ≤ op ∧ op ≤ 0x343) ∨ op = 0x383 ∨ op = 0x384 then some .held
  else none

/-- The hold of an eligible thread that has reached such a form; a thread that will block, trap, enter its handler or be terminated at its
issue is not held (R53, R163, R398, R400). -/
def reaches (s : State) (t : Nat) : Option Why :=
  if !eligible s t || mustEnter s t || (s.unit (unitOfThread t)).cancelled then none
  else
    (wordAt s t).bind (fun w => (holdOf w.1 w.2).bind (fun h => match checkIn s w.1 w.2 (namedPreds w.1 w.2) [] t with
      | .block _ => none
      | .trap _ => none
      | _ => some h))

/-- The threads of a core that the builder holds from now on. -/
def reachers (s : State) (core : Nat) : List (Nat × Why) :=
  (s.threads.filter (fun e => s.coreOf e.1 == core)).filterMap (fun e => (reaches s e.1).map (fun w => (e.1, w)))

/-- The held threads of a gang at an address with true guards read different masks (R120). -/
def masksDiffer (s : State) (g : Nat) (pc : Pc) : Bool :=
  let h := s.heldAt g pc
  match (h.head?).bind (wordAt s) with
  | some w =>
    let ms := (h.filter (guardTrue s · w.2)).map (maskRead s w.2)
    0x0C0 ≤ w.1 && w.1 ≤ 0x0CC && ms.any (fun m => ms.head? != some m)
  | none => false

/-- The groups of held threads whose hold ends: each is a gang's, at one address. -/
def heldGroups (s : State) (core : Nat) : List (List Nat) :=
  (s.gangs.filter (fun e => s.coreOfGang e.1 == core && !e.2.ended)).flatMap (fun e =>
    let leads (t : Nat) : Bool := (s.thread t).isHeld && mayIssue s t && (s.heldAt e.1 (s.thread t).pc).head? == some t &&
      (s.holdEnds e.1 (s.thread t).pc || masksDiffer s e.1 (s.thread t).pc)
    ((s.threadsOfGang e.1).filter leads).map (fun t => s.heldAt e.1 (s.thread t).pc))

/-! The convergence table (R117, R119). -/

/-- The context of a thread on its core (R112). -/
def contextOfThread (s : State) (t : Nat) : Nat := contextOf s (s.coreOf t) (s.unit (unitOfThread t)).launch

/-- The entry of a pair of context and address. -/
def convergeIndex (ctx : Nat) (pc : Pc) : Nat :=
  let chunk (i : Nat) : BitVec 8 := (pc >>> i).setWidth 8
  (chunk 2 ^^^ chunk 10 ^^^ chunk 18 ^^^ chunk 26 ^^^ chunk 34 ^^^ chunk 42 ^^^ BitVec.ofNat 8 ctx).toNat

/-- The pair of a thread. -/
def pairOf (s : State) (t : Nat) : Nat × Pc := (contextOfThread s t, (s.thread t).pc)

/-- The threads of a core that are ready or blocked. -/
def standingOn (s : State) (core : Nat) : List Nat :=
  (s.threads.filter (fun e => e.2.sched != .exited && s.coreOf e.1 == core)).map Prod.fst

/-- A thread's pair enters the table where its entry is free. -/
def enterPair (s : State) (tb : Tab (Nat × Pc)) (t : Nat) : Tab (Nat × Pc) :=
  let i := convergeIndex (pairOf s t).1 (pairOf s t).2
  if (tabGet tb i).isSome then tb else tabPut tb i (pairOf s t)

/-- The table at the start of a clk: pairs at which no thread stands any more go, then every thread tries its entry. Of two pairs that try
one free entry in one clk, that of the lower thread number takes it: DESIGN CHOICE (log 13). -/
def convergeNow (s : State) (core : Nat) : Tab (Nat × Pc) :=
  let ts := standingOn s core
  ts.foldl (enterPair s) ((s.core core).converge.filter (fun e => ts.any (fun t => pairOf s t == e.2)))

/-- A thread whose entry is held by another pair. -/
def overflows (s : State) (tb : Tab (Nat × Pc)) (t : Nat) : Bool := tabGet tb (convergeIndex (pairOf s t).1 (pairOf s t).2) != some (pairOf s t)

/-- The start of a core's present clk. -/
def coreClk (s : State) (core : Nat) : Nat := s.clkStart (core / 40)

/-- The core's table brought up to date: its overflowed threads are marked, while there is one both ports issue in fallback mode, and no
entry has yielded a group yet (R119). -/
def updateTable (s : State) (core : Nat) : State :=
  let tb := convergeNow s core
  let ts := standingOn s core
  ts.foldl (fun s' t => if overflows s tb t == (s.thread t).overflowed then s'
    else s'.modThread t (fun x => { x with overflowed := overflows s tb t })) (s.modCore core (fun c =>
      { c with converge := tb, clkAt := some (coreClk s core), taken := [], fallback := ts.any (overflows s tb), clkSerial := s.fresh }))

/-- What a core does at its first turn in a clk: its table, and the threads that the builder holds. -/
def refresh (s : State) (core : Nat) : State :=
  if (s.core core).clkAt = some (coreClk s core) then s
  else
    let s := updateTable s core
    (reachers s core).foldl (fun s' e => s'.block e.1 e.2) s

/-! Choosing a group (R117 to R119, R125, R127, R128). -/

/-- The class at which a thread competes: 3 once it has aged. -/
def issueClass (s : State) (t : Nat) : Nat := if (s.thread t).aged then 3 else s.effClass t

/-- Pass order: unitid, then gangid, then lane (R118). -/
def passKey (s : State) (t : Nat) : Nat × Nat × Nat := ((s.unit (unitOfThread t)).unitid, gangidOf (gangOf t), laneOf t)

def keyLt (a b : Nat × Nat × Nat) : Bool := a.1 < b.1 || (a.1 == b.1 && (a.2.1 < b.2.1 || (a.2.1 == b.2.1 && a.2.2 < b.2.2)))

/-- The port prefers one thread of a lane to another: an aged one, the oldest first (R127); then the higher class, then the longer time
without issuing, then pass order (R117). -/
def laneBefore (s : State) (a b : Nat) : Bool :=
  if (s.thread a).aged != (s.thread b).aged then (s.thread a).aged
  else if (s.thread a).aged && (s.thread a).readySince != (s.thread b).readySince then (s.thread a).readySince < (s.thread b).readySince
  else if issueClass s a != issueClass s b then issueClass s b < issueClass s a
  else if (s.thread a).lastIssue != (s.thread b).lastIssue then (s.thread a).lastIssue < (s.thread b).lastIssue
  else keyLt (passKey s a) (passKey s b)

/-- The best of a list. -/
def bestOf {α : Type} (lt : α → α → Bool) : List α → Option α
  | [] => none
  | x :: l =>
    match bestOf lt l with
    | none => some x
    | some y => if lt y x then some y else some x

/-- Insertion in pass order. -/
def insertPass (s : State) (t : Nat) : List Nat → List Nat
  | [] => [t]
  | u :: l => if keyLt (passKey s t) (passKey s u) then t :: u :: l else u :: insertPass s t l

def passSort (s : State) (ts : List Nat) : List Nat := ts.foldr (insertPass s) []

/-- One thread for each lane, in pass order. -/
def buildGroup (s : State) (ts : List Nat) : List Nat :=
  passSort s ((List.range 32).filterMap (fun l => bestOf (laneBefore s) (ts.filter (fun t => laneOf t == l))))

/-- The highest class in a group, and the earliest moment from which a thread of it has waited. -/
def groupClass (s : State) (ts : List Nat) : Nat := ts.foldl (fun c t => max c (issueClass s t)) 0
def groupSince (s : State) (ts : List Nat) : Nat := ts.foldl (fun n t => min n (s.thread t).readySince) s.time

/-- The moment from which the longest-waiting aged thread of a group has waited; none without an aged thread. -/
def groupAged (s : State) (ts : List Nat) : Option Nat := ((ts.filter (fun t => (s.thread t).aged)).map (fun t => (s.thread t).readySince)).min?

/-- A port prefers one group to another: one with an aged thread, the oldest first; then the higher class; then the longest wait. Of
groups that are equal in all of this it takes the one of the lower table index, a held group last: DESIGN CHOICE (log 13). -/
def groupBefore (s : State) (a b : List Nat) : Bool :=
  match groupAged s a, groupAged s b with
  | some x, some y => x < y
  | some _, none => true
  | none, some _ => false
  | none, none =>
    if groupClass s a != groupClass s b then groupClass s b < groupClass s a else groupSince s a < groupSince s b

/-- The groups that the entries of a core's table yield that have yielded none in this clk: one for each entry, in Glason mode one for
each gang (R117, R128). -/
def entryGroups (s : State) (core : Nat) (ts : List Nat) : List (List Nat) :=
  ((s.core core).converge.filter (fun e => !(s.core core).taken.contains e.2)).flatMap (fun e =>
    let us := ts.filter (fun t => pairOf s t == e.2)
    if us.any (fun t => isGlason s (gangOf t)) then (gangsOf us).map (fun g => buildGroup s (us.filter (fun t => gangOf t == g)))
    else if us.isEmpty then [] else [buildGroup s us])

/-- In fallback mode: the ready threads of a gang at the address of its lowest ready lane, or at that of an aged thread, which goes
first (R119, R127). -/
def gangGroup (s : State) (ts : List Nat) (g : Nat) : List Nat :=
  let us := ts.filter (fun t => gangOf t == g)
  let lead := (bestOf (fun a b => (s.thread a).readySince < (s.thread b).readySince) (us.filter (fun t => (s.thread t).aged))).orElse
    (fun _ => bestOf (fun a b => laneOf a < laneOf b) us)
  match lead with
  | some t => passSort s (us.filter (fun u => (s.thread u).pc == (s.thread t).pc))
  | none => []

/-- The least number after the last one, round by round. -/
def nextInTurn (ns : List Nat) (last : Option Nat) : Option Nat :=
  match last with
  | none => ns.min?
  | some k => ((ns.filter (fun n => k < n)).min?).orElse (fun _ => ns.min?)

/-- The next gang in round-robin order of core-local position after the one that fallback mode took last (R119). Both ports share one place in
that order: DESIGN CHOICE (log 13). -/
def nextGang (s : State) (core : Nat) (gs : List Nat) : Option Nat :=
  (nextInTurn (gs.map (fun g => (s.gang g).pos)) (s.core core).lastGang).bind (fun p => gs.find? (fun g => (s.gang g).pos == p))

/-- The group of fallback mode. -/
def fallbackGroup (s : State) (core : Nat) (ts : List Nat) : List Nat :=
  match bestOf (fun a b => (s.thread a).readySince < (s.thread b).readySince) (ts.filter (fun t => (s.thread t).aged)) with
  | some t => gangGroup s ts (gangOf t)
  | none => ((nextGang s core (gangsOf ts)).map (gangGroup s ts)).getD []

/-- Some thread of the core was overflowed at the start of its clk: both ports issue in fallback mode to the clk's end (R119). -/
def inFallback (s : State) (core : Nat) : Bool := (s.core core).fallback

/-- A port of the core has done with its group (R116). -/
def portFree (s : State) (core : Nat) : Bool := (s.core core).portA ≤ coreClk s core || (s.core core).portB ≤ coreClk s core

/-- The best group for a free port of the core, its table being up to date: one that an entry yields, or the held threads of a gang whose
hold ends. `skip`: the threads of a group that goes before it. -/
def firstGroup (s : State) (core : Nat) (skip : List Nat) : List Nat :=
  let ts := (eligibleOn s core).filter (fun t => !skip.contains t)
  let hs := (heldGroups s core).filter (fun h => !h.any skip.contains)
  if !portFree s core then []
  else if inFallback s core then fallbackGroup s core (ts ++ hs.flatten)
  else
    let open' := hs.filter (fun h => !(s.core core).taken.contains (pairOf s (h.headD 0)))
    ((bestOf (groupBefore s) (entryGroups s core ts ++ open'))).getD []

/-- A group stands at a REMAP.TAB. -/
def atRemapTab (s : State) (ts : List Nat) : Bool :=
  match (ts.head?).bind (wordAt s) with
  | some (op, f) => op == 0x2C2 && f.bits 0 2 == 2
  | none => false

/-- The entry of a group yields no other group in this clk. -/
def State.takeEntry (s : State) (core : Nat) (ts : List Nat) : State :=
  s.modCore core (fun c => { c with taken := c.taken ++ [pairOf s (ts.headD 0)] })

/-- The group that a free port of the core takes. Where the group for the clk's other port stands at a REMAP.TAB it goes first, so that the
gathers of the clk wait for its table (DEDUCED from R332, log 17). -/
def chooseGroup (s : State) (core : Nat) : List Nat :=
  let a := firstGroup s core []
  if a.isEmpty || atRemapTab s a || !((s.core core).portA ≤ coreClk s core && (s.core core).portB ≤ coreClk s core) then a
  else
    let b := firstGroup (s.takeEntry core a) core a
    if atRemapTab s b then b else a

/-! The latch (R116, R440). -/

/-- A thread was ready in the present clk and has not issued in it: one that became ready again in it is ready from the next on (R115). -/
def readyUnissued (s : State) (core t : Nat) : Bool :=
  let x := s.thread t
  x.lastIssue ≤ (s.core core).clkSerial && !(coreClk s core ≤ x.readySince && coreClk s core < x.stallUntil)

/-- The other ready threads of the core that have not issued in this clk, with their effective classes and counts of turns (R97). A thread
that may not issue, of a pending Glason gang or of a halted unit, is none that a yield waits for: DESIGN CHOICE (log 13). -/
def readyPeers (s : State) (core : Nat) (ts : List Nat) : List (Nat × Nat × Nat) :=
  (s.threads.filter (fun e => isReady s e.1 && !e.2.inTrap && readyUnissued s core e.1 && s.coreOf e.1 == core && !ts.contains e.1)).map
    (fun e => (e.1, s.effClass e.1, e.2.turns))

/-- The group taken by a port: a new serial number, and its entry, which yields no other group in this clk. -/
def latch (s : State) (core : Nat) (ts : List Nat) : State :=
  let n := s.fresh + 1
  let s := (s.setFresh n).setIssue
    { core := core, pc := (s.thread (ts.headD 0)).pc, threads := ts, serial := n, peers := readyPeers s core ts }
  (s.takeEntry core ts).modCore core (fun c =>
    { c with lastGang := if inFallback s core then some (s.gang (gangOf (ts.headD 0))).pos else c.lastGang })

/-- The instruction reads a gang-uniform register or a buffer record: it takes a pass for each gang (R118). -/
def takesPasses (op : Nat) (f : Fields) : Bool :=
  let z := slotsOf op f
  let reads (x : Slot) (o : Opnd) : Bool := !x.isUnused && (match o with
    | .s _ => true
    | .k n => n.toNat < 32
    | _ => false)
  reads z.a f.a || reads z.b f.b || reads z.c f.c || (readsDest op && reads z.d f.d)

/-- A thread of the group stays in it at an instruction: one that an empty, lent or pending register or predicate blocks leaves it (R124,
R292). -/
def stays (i : Instr) (s : State) (t : Nat) : Bool :=
  match i.fields with
  | some f => (match checkIn s (opcodeOf i) f (namedPreds (opcodeOf i) f) [] t with
    | .block _ => false
    | _ => true)
  | none => true

/-- The threads of the group that issue an instruction. -/
def State.issuers (s : State) (i : Instr) : List Nat := s.group.filter (stays i s)

/-- The gangs that take passes of their own for an instruction (R118). -/
def passGangs (i : Instr) (ts : List Nat) : List Nat :=
  match i.fields with
  | some f => if takesPasses (opcodeOf i) f then gangsOf ts else []
  | none => []

/-- Lane passes issued in the chiplet's interval and in its clk (R440, R441). -/
def Slice.issued (x : Slice) (n : Nat) : Slice := { x with passes := x.passes + n, clkPasses := x.clkPasses + n }

/-- A port is busy with a group's passes: each takes as many clk as the pass count (R116, R118, R129). -/
def occupyPort (gs : List Nat) (s : State) : State :=
  let core := s.issue.core
  let span := max 1 gs.length * passOf (s.passCodeOf core)
  let clk := coreClk s core
  (s.setIssue { s.issue with span := span, passes := gs }).modCore core (fun c =>
    if c.portA ≤ clk then { c with portA := clk + 5 * span } else { c with portB := clk + 5 * span })

/-- The group's passes, and the port that they occupy: those of the threads that stay in it. With none left the port stays free. A fetch
that comes to no instruction occupies it for one pass. -/
def occupy (i : Option Instr) (s : State) : State :=
  match i with
  | none => occupyPort [] s
  | some i =>
    let ts := s.issuers i
    if ts.isEmpty then s else occupyPort (passGangs i ts) (s.modSlice (s.issue.core / 40) (fun x => x.issued ts.length))

/-! What stands before the fetch (R53, R389, R398, R400). -/

/-- Units of the group whose level has been cancelled are terminated at this issue. -/
def dropCancelled (s : State) : State :=
  let us := (distinct (s.group.map unitOfThread)).filter (fun u => (s.unit u).cancelled)
  (us.foldl State.terminateUnit s).withGroup (s.group.filter (fun t => !us.contains (unitOfThread t)))

/-- Those threads enter their handlers, the return address naming the instruction. -/
def enterHandlers (s : State) : State :=
  let ts := s.group.filter (mustEnter s)
  (ts.foldl (fun s' t => (deliver s' t s.pc (s.recordsLabel (gangOf t))).modThread t (fun x => { x with lastIssue := s.issue.serial })) s).withGroup
    (s.group.filter (fun t => !ts.contains t))

/-! The fetch of a group (R79, R80, R98). -/

/-- The fetch for the group in the latch: its threads share one launch. -/
def fetchGroup (s : State) : Fetch :=
  let t := s.group.headD 0
  fetchAt s s.issue.core (s.partOf t) (s.launchOf t).kernel.regs s.pc.toNat

/-- A held fetch: its threads wait, a host-resident page is announced, and a gang inside a region aborts its unit (R408, R410). -/
def holdFetch (s : State) (va : Nat) (hostResident : Bool) (level : Nat) : State :=
  let t := s.group.headD 0
  let s := blockAll .fetch s s.group
  let s := if hostResident then migrationNotice s (s.partOf t) (s.threadEp t) va level else s
  s.group.foldl (fun s t =>
    if (s.gang (gangOf t)).inRegion && !(s.thread t).inTrap && !(s.unit (unitOfThread t)).awaits.contains va then
      s.modUnit (unitOfThread t) (fun u => { u with awaits := u.awaits ++ [va] })
    else s) s

/-- A trap of the whole group at the fetch, whatever the guards, with the labels of an illegal word's operands (R98, R276). -/
def trapGroup (s : State) (kind : Nat) (info : Word) (word : Option (Nat × Fields)) : State :=
  s.group.foldl (fun s' t => issueTrap s' t kind s.pc info (word.elim 0 (fun w => labelOf s w.1 w.2 t))) s

/-! A turn of a core. -/

/-- What a core's turn comes to: an instruction to run on the latched state, or an outcome without one. -/
inductive Turning where
  | run (i : Instr) (s : State)
  | over (o : Host.Outcome State Fault Refusal)

/-- The group in the latch at its fetch. -/
def fetchTurn (s : State) : Turning :=
  if s.group.isEmpty then .over (.next s)
  else
    match fetchGroup s with
    | .held va h level => .over (.next (holdFetch (occupy none s) va h level))
    | .trap k info w => .over (.next (trapGroup (occupy none s) k info w))
    | .nothing => .over (.fault .noSuchMemory)
    | .ok i => .run i (occupy (some i) s)

/-- A core's turn: its table is brought up to date, a group is taken, and its word is fetched. -/
def coreTurn (s : State) (core : Nat) : Turning :=
  let s := refresh s core
  match chooseGroup s core with
  | [] => .over (.next s)
  | t :: ts => fetchTurn (enterHandlers (dropCancelled (latch s core (t :: ts))))

/-- A port of the core takes a group in this clk, or the builder holds a thread. -/
def mayTurn (s : State) (core : Nat) : Bool :=
  let s' := refresh s core
  !(chooseGroup s' core).isEmpty || (s.threads.any (fun e => s.coreOf e.1 == core && e.2.sched == .ready && (s'.thread e.1).isHeld))

/-- The cores with an eligible or a held thread, at which something moves in this clk. -/
def readyCores (s : State) : List Nat :=
  (distinct (((s.threads.filter (fun e => e.2.isHeld || eligible s e.1)).map Prod.fst).map s.coreOf)).filter (mayTurn s)

/-- The next core of which a port takes a group: one whose group stands at a REMAP.TAB, which writes the tables of its unit's other cores
(R332, log 17); else in turn after the one that issued last. -/
def nextCore (s : State) : Option Nat :=
  let cs := readyCores s
  (cs.find? (fun c => atRemapTab s (chooseGroup (refresh s c) c))).orElse (fun _ => nextInTurn cs (some s.issue.core))

end Sys2Proof.Machine
end

