-- ==== Sys2Proof/Machine/Due.lean ====
section
/-! DEFINITION. What falls due by itself: the events that a moment of time brings, and those that the state calls for, in the fixed
order in which an empty agenda takes them (log 2). -/

namespace Sys2Proof.Machine

/-! Time. -/

/-- The moment at which a rail that rises reaches a chiplet's vote with headroom (R437, R438). -/
def readyAt (s : State) (slice : Nat) (x : Slice) : Option Nat :=
  let r := s.rail (railOf slice)
  let v := x.vote + headroom
  if x.vote = 0 || x.ready || v ≤ r.mv || r.target < v then none else some (r.at' + ((v - r.mv) * microTicks + 19) / 20)

/-- The moments at which something falls due: refills, periods, and charges that may spend a balance; a chiplet's load record, the end of its
fade and its rail; ends of holds and of fusion changes; held EVICTs and resends; the boot; aging; and the wait of a pending gang (R128). -/
def momentsOf (s : State) : List Nat :=
  [(s.refills + 1) * periodTicks, (s.periods + 1) * periodTicks] ++ balanceMoments s ++
    s.slices.flatMap (fun e => [(e.2.loadTicks + 1) * loadTick] ++ (e.2.fade.map (fun f => f.2 + fadeTicks)).toList ++ (readyAt s e.1 e.2).toList) ++
    s.rails.filterMap (fun e => e.2.holdEnd) ++ s.clusters.filterMap (fun e => e.2.fusing) ++
    s.parts.flatMap (fun p => p.2.held.map (fun h => h.since + fiftyMicros) ++ p.2.resends.map Prod.snd) ++
    (if s.boot.state == 0 || s.boot.state == 1 || s.boot.state == 3 then [s.boot.since + 1] else []) ++
    s.threads.filterMap (fun e => if e.2.sched == .ready && !e.2.aged && !e.2.inTrap then some (e.2.readySince + ageTicks) else none) ++
    s.gangs.filterMap (fun e => if isGlason s e.1 && !e.2.active && gangReady s e.1 then some (pendingReady s e.1 + ageTicks) else none)

/-- The next such moment after now. -/
def nextMoment (s : State) : Option Nat := ((momentsOf s).filter (fun t => s.time < t)).min?

/-- A request to borrow is to be noted, withdrawn or served (R71). -/
def borrowDue (s : State) : Bool := (noteRequests s).parts != s.parts || (nextDraw s).isSome

/-- The event that a moment which has come brings. A draw comes before the refill at which the pool expires. -/
def timedDue (s : State) : Option Instr :=
  if borrowDue s then some .borrow
  else if (s.refills + 1) * periodTicks ≤ s.time then some .budgetRefill
  else if (s.periods + 1) * periodTicks ≤ s.time then some .policyPeriod
  else if s.slices.any (fun e => intervalOver s e.2) then some .loadRecordUpdate
  else if s.slices.any (fun e => e.2.fall) then some .fadeStart
  else if s.slices.any (fun e => e.2.fadeOver s.time) then some .fadeEnd
  else if s.rails.any (fun e => e.2.holdEnd.any (· ≤ s.time)) then some .railHoldExpiry
  else if (nextReady s).isSome then some .railReady
  else if s.clusters.any (fun e => e.2.fusing.any (· ≤ s.time)) then some .fusionChange
  else if (nextHeld s).isSome then some .evictHeldPerform
  else if (nextResend s).isSome then some .migrationNoticeResend
  else if (nextAged s).isSome then some .aging
  else if (nextPendingAged s).isSome then some .glasonPendingAging
  else none

/-! Events that the state calls for. -/

/-- An access read or written through the caches as they stand. -/
def plainPick : Pick := { tlb := true, l1 := true }

/-- The event that lands an access. -/
def landingOf (id : Nat) (a : Access) : Instr :=
  match a.kind with
  | .load | .ldx | .gthr | .exq | .labelPage | .recPage | .egress | .lds | .launch | .graph => .loadWriteback id plainPick
  | .store | .stx | .erase | .sts | .sfill | .sempty => .writePerform id plainPick
  | .atom | .red | .atoms | .reds => .atomicPerform id plainPick
  | .gthrs => .gthrsLineFill id plainPick
  | .remapTab => .remapTableWrite id plainPick
  | .codebook => .codebookSlotWrite id plainPick
  | .table => .variantTableRead id plainPick
  | .exact => .exactPathWriteback id

/-- The accesses that may land. -/
def landingEvents (s : State) : List Instr := s.accesses.filterMap (fun e => if e.2.held || s.time < e.2.due then none else some (landingOf e.1 e.2))

/-- Threads whose condition has cleared; the end of a hold is the builder's, at a turn of their core. -/
def unblockEvents (s : State) : List Instr :=
  s.threads.filterMap (fun e => match e.2.sched with
    | .blocked w => if !e.2.isHeld && clears s e.1 w then some (.threadUnblock e.1) else none
    | _ => none)

/-- Matrix operations with a ready chunk. -/
def chunkEvents (s : State) : List Instr := s.clusters.filterMap (fun e => if (arbiter s e.1).isSome then some (.mmaChunkGrant e.1) else none)

/-- Slices of copies that engines carry. -/
def copyEvents (s : State) : List Instr :=
  s.copies.flatMap (fun e =>
    if e.2.engine.isSome && e.2.carries then
      (List.range e.2.slices.length).filterMap (fun i => match e.2.slices[i]? with
        | some x => if x.left then some (.copyChunk e.1 i plainPick) else none
        | none => none)
    else [])

/-- The work of a partition's ring and of its queues' heads. -/
def partEvents (s : State) : List Instr :=
  s.parts.flatMap (fun p =>
    (if tailDue s p.1 then [.ringTailCheck p.1] else []) ++
    (if (requestOf s p.1 1).isSome then [.mapPages p.1] else []) ++
    (if (requestOf s p.1 2).isSome then [.unmapPages p.1] else []) ++
    (if (requestOf s p.1 3).isSome then [.protect p.1] else []) ++
    (if (requestOf s p.1 4).isSome then [.evict p.1] else []) ++
    p.2.queues.flatMap (fun q =>
      (if (readyHead s p.1 q.1 1).isSome then [.launchEntryStart p.1 q.1] else []) ++
      (if (readyHead s p.1 q.1 2).isSome then [.graphEntryArm p.1 q.1] else []) ++
      (if (readyHead s p.1 q.1 3).isSome then [.copyEntry p.1 q.1] else [])))

/-- Entries of a reconfiguration, and the clearing that goes before the next. -/
def reconfEvents (s : State) : List Instr :=
  if !s.boot.clearing.isEmpty then [.stackClear]
  else
    (if (nextRec s 1).isSome then [.createPart] else []) ++ (if (nextRec s 2).isSome then [.destroyPart] else []) ++
    (if (nextRec s 3).isSome then [.assignCopy] else []) ++ (if (nextRec s 4).isSome then [.bindEndpoint] else [])

/-- Units, regions and levels. -/
def unitEvents (s : State) : List Instr :=
  (if s.units.any (fun e => e.2.live && !e.2.awaits.isEmpty) then [.regionAbort] else []) ++
  (if s.units.any (fun e => e.2.live && !e.2.regionOpen && gangsAll s e.1 Gang.rgn) then [.regionOpen] else []) ++
  (if s.units.any (fun e => e.2.live && e.2.regionOpen && e.2.awaits.isEmpty && gangsAll s e.1 Gang.rgne) then [.regionCommit] else []) ++
  (if s.units.any (fun e => (List.range 16).any (phaseOver s e.1 e.2)) then [.barrierPhaseComplete] else []) ++
  (if (savable s).isSome || (imagable s).isSome then [.quiescence (.unit 0)] else []) ++
  (if s.units.any (fun e => unitEnds s e.1 e.2) then [.unitEnd] else []) ++
  (if s.levels.any (fun e => e.2.due) then [.levelCompletion] else []) ++
  (if (nextThreshold s).isSome then [.eventThresholdNotice] else [])

/-- Dispatch, and what makes it possible. -/
def dispatchEvents (s : State) : List Instr :=
  (match nextDispatch s with
    | some x => (match x.offer with
      | .again _ old => [if old.restart then .regionRestart else .unitDispatch]
      | .fresh _ => [.unitDispatch])
    | none => []) ++
  (if s.parts.isEmpty then [] else [.waitEntry, .fusionChange]) ++ (if s.graphs.isEmpty then [] else [.graphNodeStart])

/-- Copies and matrix operations between their chunks, the ring's shoot-down, disables, and Glason's swaps. -/
def engineEvents (s : State) : List Instr :=
  (if s.copies.isEmpty then [] else [.unitCommandStart, .copyResume, .copyEngineAccept, .copyComplete]) ++
  (if s.clusters.any (fun e => !e.2.mma.isEmpty) then [.mmaComplete] else []) ++
  (if (nextShoot s).isSome then [.shootDown] else []) ++
  (if s.endpoints.any (fun e => e.2.disabling) then [.endpointDisable] else []) ++
  (if (nextEntrant s).isSome || (nextSwap s).isSome then [.glasonSwap] else []) ++ (if (nextSkid s).isSome then [.skidLimit] else []) ++
  (if s.accesses.any (fun e => e.2.held) then [.heldAccessReplay] else [])

/-- Everything that may fall due, in order. -/
def calledFor (s : State) : List Instr :=
  reconfEvents s ++ unitEvents s ++ engineEvents s ++ landingEvents s ++ unblockEvents s ++ chunkEvents s ++ copyEvents s ++ partEvents s ++
    dispatchEvents s

end Sys2Proof.Machine
end

