-- ==== Sys2Proof/Machine/Integer.lean ====
section
/-! DEFINITION. The integer instructions (R141 to R152). -/

namespace Sys2Proof.Machine

/-- The least n bits of a natural number. -/
def lowBits (x n : Nat) : Nat := x % 2 ^ n

/-- The width of a type in bits (R133). -/
def tyBits (ty : Ty) : Nat := if ty.is64 then 64 else 32

/-- A source as a natural number of the type's width. -/
def readNat (s : State) (t : Nat) (ty : Ty) (o : Opnd) : Nat := (readTy s t ty o).toNat

/-- An integer instruction whose result comes from its three sources, read as the type (R142). -/
def runInt (op : Nat) (f : Fields) (sat : Bool) (g : Int → Int → Int → Int) (s : State) : State :=
  runWrites op f [] (fun s t =>
    let r (o : Opnd) : Int := readInt s t f.ty o
    wrTy f.ty f.d (narrow f.ty sat (g (r f.a) (r f.b) (r f.c))) (labelOf s op f t)) s

/-- An integer instruction whose result is a natural number of the type's width. -/
def runNat (op : Nat) (f : Fields) (g : State → Nat → Nat) (s : State) : State :=
  runWrites op f [] (fun s t => wrTy f.ty f.d (BitVec.ofNat 64 (g s t)) (labelOf s op f t)) s

/-- An integer instruction whose result is one 32-bit register. -/
def runWord (op : Nat) (f : Fields) (g : State → Nat → Word) (s : State) : State :=
  runWrites op f [] (fun s t => wr32 f.d (g s t) (labelOf s op f t)) s

def execIadd (f : Fields) (s : State) : Host.Outcome State Fault Refusal :=
  .next (runInt 0x040 f (f.bit 0) (fun a b _ => a + b) s)

def execIsub (f : Fields) (s : State) : Host.Outcome State Fault Refusal :=
  .next (runInt 0x041 f (f.bit 0) (fun a b _ => a - b) s)

/-- The predicate index that takes the carry (R143). -/
def carryIx (f : Fields) : Nat := f.bits 0 3

/-- Sum and carry of IADDC, difference and borrow of ISUBC (R143). -/
def carrySum (add : Bool) (s : State) (f : Fields) (t : Nat) : Int :=
  let a : Int := (read32 s t f.a).toNat
  let b : Int := (read32 s t f.b).toNat
  let c : Int := if readPred s t f.c then 1 else 0
  if add then a + b + c else a - b - c

def runCarry (op : Nat) (add : Bool) (f : Fields) (s : State) : State :=
  runWrites op f (modPred (carryIx f)) (fun s t =>
    let x := carrySum add s f t
    let l := labelOf s op f t
    wr32 f.d (wrap32 x) l ++ [.pred (carryIx f) (carryOut x) l]) s

def execIaddc (f : Fields) (s : State) : Host.Outcome State Fault Refusal := .next (runCarry 0x042 true f s)
def execIsubc (f : Fields) (s : State) : Host.Outcome State Fault Refusal := .next (runCarry 0x043 false f s)

def execImul (f : Fields) (s : State) : Host.Outcome State Fault Refusal :=
  .next (runInt 0x044 f false (fun a b _ => a * b) s)

def execImulh (f : Fields) (s : State) : Host.Outcome State Fault Refusal :=
  .next (runInt 0x045 f false (fun a b _ => (a * b) / 2 ^ tyBits f.ty) s)

def execImad (f : Fields) (s : State) : Host.Outcome State Fault Refusal :=
  .next (runInt 0x046 f (f.bit 0) (fun a b c => a * b + c) s)

def execImin (f : Fields) (s : State) : Host.Outcome State Fault Refusal :=
  .next (runInt 0x047 f false (fun a b _ => min a b) s)

def execImax (f : Fields) (s : State) : Host.Outcome State Fault Refusal :=
  .next (runInt 0x048 f false (fun a b _ => max a b) s)

def execIabs (f : Fields) (s : State) : Host.Outcome State Fault Refusal :=
  .next (runInt 0x049 f (f.bit 0) (fun a _ _ => |a|) s)

/-! Logic (R144). -/

/-- A bitwise instruction. -/
def runBits (op : Nat) (f : Fields) (g : DWord → DWord → DWord → DWord) (s : State) : State :=
  runWrites op f [] (fun s t =>
    let r (o : Opnd) : DWord := readTy s t f.ty o
    wrTy f.ty f.d (g (r f.a) (r f.b) (r f.c)) (labelOf s op f t)) s

def execBand (f : Fields) (s : State) : Host.Outcome State Fault Refusal :=
  .next (runBits 0x04A f (fun a b _ => a &&& b) s)

def execBor (f : Fields) (s : State) : Host.Outcome State Fault Refusal :=
  .next (runBits 0x04B f (fun a b _ => a ||| b) s)

def execBxor (f : Fields) (s : State) : Host.Outcome State Fault Refusal :=
  .next (runBits 0x04C f (fun a b _ => a ^^^ b) s)

def execBnot (f : Fields) (s : State) : Host.Outcome State Fault Refusal :=
  .next (runBits 0x04D f (fun a _ _ => ~~~a) s)

/-- The minterm m of a truth table: bits where a, b and c match the bits of m (R144). -/
def minterm (m : Nat) (a b c : DWord) : DWord :=
  (if m % 2 = 1 then a else ~~~a) &&& (if m / 2 % 2 = 1 then b else ~~~b) &&& (if m / 4 % 2 = 1 then c else ~~~c)

/-- Every bit position looks its three bits up in the table (R144). -/
def logt (lut : Nat) (a b c : DWord) : DWord :=
  (List.range 8).foldl (fun x m => if lut / 2 ^ m % 2 = 1 then x ||| minterm m a b c else x) 0

def execLogt (f : Fields) (s : State) : Host.Outcome State Fault Refusal :=
  .next (runBits 0x04E f (logt (f.bits 0 8)) s)

/-! Shifts (R145). -/

/-- The amount of a shift, no greater than the width (R145). -/
def shiftAmount (s : State) (t : Nat) (f : Fields) : Nat := min (read32 s t f.b).toNat (tyBits f.ty)

def execShl (f : Fields) (s : State) : Host.Outcome State Fault Refusal :=
  .next (runNat 0x04F f (fun s t => lowBits (readNat s t f.ty f.a * 2 ^ shiftAmount s t f) (tyBits f.ty)) s)

def execShr (f : Fields) (s : State) : Host.Outcome State Fault Refusal :=
  .next (runNat 0x050 f (fun s t => readNat s t f.ty f.a / 2 ^ shiftAmount s t f) s)

def execSar (f : Fields) (s : State) : Host.Outcome State Fault Refusal :=
  .next (runWrites 0x051 f [] (fun s t =>
    wrTy f.ty f.d (narrow f.ty false (readInt s t f.ty f.a / 2 ^ shiftAmount s t f)) (labelOf s 0x051 f t)) s)

/-- The funnel shift of a 64-bit pair (R145). -/
def funnel (right rot : Bool) (w : DWord) (amount : Nat) : Word :=
  let k := if rot then amount % 64 else min amount 64
  if right then DWord.lo (if rot then w.rotateRight k else w >>> k)
  else DWord.hi (if rot then w.rotateLeft k else w <<< k)

def execDsh (f : Fields) (s : State) : Host.Outcome State Fault Refusal :=
  .next (runWord 0x052 f (fun s t => funnel (f.bit 0) (f.bit 1) (read64 s t f.a) (read32 s t f.b).toNat) s)

/-! Fields and counts (R146, R147). -/

/-- Position and length of a field, the length no greater than the width (R146). -/
def fieldPos (b : Word) : Nat := b.toNat % 256
def fieldLen (b : Word) (n : Nat) : Nat := min (b.toNat / 256 % 256) n

/-- BFE: bits past the width read as the sign of a signed type, else 0, and the field is extended from its last bit (R146). -/
def bfe (ty : Ty) (a : DWord) (b : Word) : Int :=
  let n := tyBits ty
  let len := fieldLen b n
  if len = 0 then 0
  else
    let y := (asInt ty a / 2 ^ fieldPos b) % 2 ^ len
    if ty.signed && y / 2 ^ (len - 1) % 2 == 1 then y - 2 ^ len else y

def execBfe (f : Fields) (s : State) : Host.Outcome State Fault Refusal :=
  .next (runWrites 0x053 f [] (fun s t =>
    wrTy f.ty f.d (narrow f.ty false (bfe f.ty (readTy s t f.ty f.a) (read32 s t f.b))) (labelOf s 0x053 f t)) s)

/-- A mask of len ones from bit pos upwards; ones at or above bit n fall away in the width. -/
def onesFrom (pos len : Nat) : Nat := (2 ^ len - 1) * 2 ^ pos

/-- BFI: the low len bits of a replace bits pos upwards of c (R146). -/
def bfi (n : Nat) (a : Nat) (b : Word) (c : DWord) : DWord :=
  let pos := fieldPos b
  let len := fieldLen b n
  let m : DWord := BitVec.ofNat 64 (lowBits (onesFrom pos len) n)
  (c &&& ~~~m) ||| (BitVec.ofNat 64 (lowBits (a * 2 ^ pos) n) &&& m)

def execBfi (f : Fields) (s : State) : Host.Outcome State Fault Refusal :=
  .next (runNat 0x054 f (fun s t =>
    (bfi (tyBits f.ty) (readNat s t f.ty f.a) (read32 s t f.b) (readTy s t f.ty f.c)).toNat) s)

/-- MASK: ones from bit pos upwards, inverted under .INV (R146). -/
def maskOf (inv : Bool) (a : Word) : Word :=
  let m : Word := BitVec.ofNat 32 (onesFrom (fieldPos a) (fieldLen a 32))
  if inv then ~~~m else m

def execMaskB (f : Fields) (s : State) : Host.Outcome State Fault Refusal :=
  .next (runWord 0x055 f (fun s t => maskOf (f.bit 0) (read32 s t f.a)) s)

/-- The number of set bits among the low n. -/
def popcount (n x : Nat) : Nat := (List.range n).foldl (fun k i => k + x / 2 ^ i % 2) 0

/-- The number of zero bits above the highest set bit; n when there is none (R147). -/
def leadingZeros : Nat → Nat → Nat
  | 0, _ => 0
  | n + 1, x => if x / 2 ^ n % 2 = 1 then 0 else 1 + leadingZeros n x

/-- Bit i moved to bit n − 1 − i (R147). -/
def reverseBits (n x : Nat) : Nat := (List.range n).foldl (fun k i => k + x / 2 ^ i % 2 * 2 ^ (n - 1 - i)) 0

def execPopc (f : Fields) (s : State) : Host.Outcome State Fault Refusal :=
  .next (runWord 0x056 f (fun s t => BitVec.ofNat 32 (popcount (tyBits f.ty) (readNat s t f.ty f.a))) s)

def execClz (f : Fields) (s : State) : Host.Outcome State Fault Refusal :=
  .next (runWord 0x057 f (fun s t => BitVec.ofNat 32 (leadingZeros (tyBits f.ty) (readNat s t f.ty f.a))) s)

def execBrev (f : Fields) (s : State) : Host.Outcome State Fault Refusal :=
  .next (runNat 0x058 f (fun s t => reverseBits (tyBits f.ty) (readNat s t f.ty f.a)) s)

/-! Bytes (R148, R149). -/

/-- Byte i of a number. -/
def byteOf (x i : Nat) : Nat := x / 256 ^ i % 256

/-- One result byte under its selector (R148). -/
def pickByte (w sel : Nat) : Nat :=
  let y := byteOf w (sel % 8)
  if sel / 16 % 2 = 1 then 0
  else if sel / 8 % 2 = 1 then (if 128 ≤ y then 255 else 0)
  else y

/-- BSWZ (R148). -/
def bswz (a b c : Word) : Word :=
  let w := b.toNat * 2 ^ 32 + a.toNat
  BitVec.ofNat 32 ((List.range 4).foldl (fun k i => k + pickByte w (byteOf c.toNat i) * 256 ^ i) 0)

def execBswz (f : Fields) (s : State) : Host.Outcome State Fault Refusal :=
  .next (runWord 0x059 f (fun s t => bswz (read32 s t f.a) (read32 s t f.b) (read32 s t f.c)) s)

/-- A byte as S8 or N8. -/
def byteInt (signed : Bool) (x i : Nat) : Int :=
  let y : Int := byteOf x i
  if signed && 128 ≤ y then y - 256 else y

/-- BDOT's exact sum (R149). -/
def bdot (sa sb : Bool) (a b : Word) (c : Int) : Int :=
  (List.range 4).foldl (fun k i => k + byteInt sa a.toNat i * byteInt sb b.toNat i) c

def execBdot (f : Fields) (s : State) : Host.Outcome State Fault Refusal :=
  .next (runWrites 0x05A f [] (fun s t =>
    wrTy f.ty f.d (narrow f.ty (f.bit 2) (bdot (f.bit 0) (f.bit 1) (read32 s t f.a) (read32 s t f.b) (readInt s t f.ty f.c)))
      (labelOf s 0x05A f t)) s)

/-- BSAD's exact sum (R149). -/
def bsad (a b : Word) (c : Int) : Int :=
  (List.range 4).foldl (fun k i => k + |byteInt false a.toNat i - byteInt false b.toNat i|) c

def execBsad (f : Fields) (s : State) : Host.Outcome State Fault Refusal :=
  .next (runWrites 0x05B f [] (fun s t =>
    wrTy f.ty f.d (narrow f.ty (f.bit 0) (bsad (read32 s t f.a) (read32 s t f.b) (readInt s t f.ty f.c)))
      (labelOf s 0x05B f t)) s)

/-! Comparison, selection, addresses (R150, R151). -/

/-- The result of ISETP (R150). -/
def isetp (s : State) (f : Fields) (t : Nat) : Bool :=
  combine (f.bits 3 2) (compareInt (f.bits 0 3) (readInt s t f.ty f.a) (readInt s t f.ty f.b)) (readPred s t f.c)

def execIsetp (f : Fields) (s : State) : Host.Outcome State Fault Refusal :=
  .next (runWrites 0x05C f [] (fun s t => wrPred f.d (isetp s f t) (labelOf s 0x05C f t)) s)

def execSel (f : Fields) (s : State) : Host.Outcome State Fault Refusal :=
  .next (runWrites 0x05D f [] (fun s t =>
    wrTy f.ty f.d (if readPred s t f.c then readTy s t f.ty f.a else readTy s t f.ty f.b) (labelOf s 0x05D f t)) s)

/-- LEA's index: zero-extended, sign-extended under .S64 (R151). -/
def leaIndex (ty : Ty) (b : Word) : Int := if ty == .s64 then b.toInt else (b.toNat : Int)

def execLea (f : Fields) (s : State) : Host.Outcome State Fault Refusal :=
  .next (runWrites 0x05E f [] (fun s t =>
    wrTy f.ty f.d (narrow f.ty false (readInt s t f.ty f.a + leaIndex f.ty (read32 s t f.b) * 2 ^ f.bits 0 5))
      (labelOf s 0x05E f t)) s)

end Sys2Proof.Machine
end

