-- ==== Sys2Proof/Machine/Dispatch.lean ====
section
/-! DEFINITION. The dispatch: one direct call of its meaning for each constructor of Instr. -/

namespace Sys2Proof.Machine

def exec (i : Instr) (s : State) : Host.Outcome State Fault Refusal :=
  match i with
  | .queryState m => Sys2Proof.Machine.execQueryState m s
  | .replay m => Sys2Proof.Machine.execReplay m s
  | .loadObject m => Sys2Proof.Machine.execLoadObject m s
  | .unloadObject m => Sys2Proof.Machine.execUnloadObject m s
  | .jobOpen m => Sys2Proof.Machine.execJobOpen m s
  | .jobClose m => Sys2Proof.Machine.execJobClose m s
  | .phaseNext m => Sys2Proof.Machine.execPhaseNext m s
  | .saveArea m => Sys2Proof.Machine.execSaveArea m s
  | .resumeJob m => Sys2Proof.Machine.execResumeJob m s
  | .submit m => Sys2Proof.Machine.execSubmit m s
  | .cancelCmd m => Sys2Proof.Machine.execCancelCmd m s
  | .queueConfig m => Sys2Proof.Machine.execQueueConfig m s
  | .memWrite m => Sys2Proof.Machine.execMemWrite m s
  | .memRead m => Sys2Proof.Machine.execMemRead m s
  | .statusWindowRead m => Sys2Proof.Machine.execStatusWindowRead m s
  | .endpointEnable m => Sys2Proof.Machine.execEndpointEnable m s
  | .shortMessage m => Sys2Proof.Machine.execShortMessage m s
  | .bindSlot m => Sys2Proof.Machine.execBindSlot m s
  | .peer m => Sys2Proof.Machine.execPeer m s
  | .policy m => Sys2Proof.Machine.execPolicy m s
  | .revoke m => Sys2Proof.Machine.execRevoke m s
  | .teaselTableRead m => Sys2Proof.Machine.execTeaselTableRead m s
  | .replacementImage m => Sys2Proof.Machine.execReplacementImage m s
  | .configurationRecord m => Sys2Proof.Machine.execConfigurationRecord m s
  | .nonce m => Sys2Proof.Machine.execNonce m s
  | .attestationReport m => Sys2Proof.Machine.execAttestationReport m s
  | .bootStatus m => Sys2Proof.Machine.execBootStatus m s
  | .ringTailCheck p => Sys2Proof.Machine.execRingTailCheck p s
  | .mapPages p => Sys2Proof.Machine.execMapPages p s
  | .unmapPages p => Sys2Proof.Machine.execUnmapPages p s
  | .protect p => Sys2Proof.Machine.execProtect p s
  | .evict p => Sys2Proof.Machine.execEvict p s
  | .launchEntryStart p q => Sys2Proof.Machine.execLaunchEntryStart p q s
  | .graphEntryArm p q => Sys2Proof.Machine.execGraphEntryArm p q s
  | .copyEntry p q => Sys2Proof.Machine.execCopyEntry p q s
  | .bindRecordWrite slice index value => Sys2Proof.Machine.execBindRecordWrite slice index value s
  | .leaseLengthWrite slice value => Sys2Proof.Machine.execLeaseLengthWrite slice value s
  | .voteWrite slice value => Sys2Proof.Machine.execVoteWrite slice value s
  | .domainGate slice => Sys2Proof.Machine.execDomainGate slice s
  | .domainUngate slice => Sys2Proof.Machine.execDomainUngate slice s
  | .registerWrite w => Sys2Proof.Machine.execRegisterWrite w s
  | .threadUnblock t => Sys2Proof.Machine.execThreadUnblock t s
  | .loadWriteback id pick => Sys2Proof.Machine.execLoadWriteback id pick s
  | .writePerform id pick => Sys2Proof.Machine.execWritePerform id pick s
  | .atomicPerform id pick => Sys2Proof.Machine.execAtomicPerform id pick s
  | .exactPathWriteback id => Sys2Proof.Machine.execExactPathWriteback id s
  | .remoteAccessIn r => Sys2Proof.Machine.execRemoteAccessIn r s
  | .copyChunk c slice pick => Sys2Proof.Machine.execCopyChunk c slice pick s
  | .mmaChunkGrant cluster => Sys2Proof.Machine.execMmaChunkGrant cluster s
  | .gthrsLineFill id pick => Sys2Proof.Machine.execGthrsLineFill id pick s
  | .remapTableWrite id pick => Sys2Proof.Machine.execRemapTableWrite id pick s
  | .codebookSlotWrite id pick => Sys2Proof.Machine.execCodebookSlotWrite id pick s
  | .variantTableRead id pick => Sys2Proof.Machine.execVariantTableRead id pick s
  | .quiescence target => Sys2Proof.Machine.execQuiescence target s
  | .passCountRaise cluster => Sys2Proof.Machine.execPassCountRaise cluster s
  | .passCountLower cluster => Sys2Proof.Machine.execPassCountLower cluster s
  | .reconfigure m => Sys2Proof.Machine.execReconfigure m s
  | .bra f => Sys2Proof.Machine.execBra f s
  | .brx f => Sys2Proof.Machine.execBrx f s
  | .call f => Sys2Proof.Machine.execCall f s
  | .callx f => Sys2Proof.Machine.execCallx f s
  | .ret f => Sys2Proof.Machine.execRet f s
  | .exitI f => Sys2Proof.Machine.execExitI f s
  | .yieldI f => Sys2Proof.Machine.execYieldI f s
  | .nop f => Sys2Proof.Machine.execNop f s
  | .setpri f => Sys2Proof.Machine.execSetpri f s
  | .bpt f => Sys2Proof.Machine.execBpt f s
  | .trapI f => Sys2Proof.Machine.execTrapI f s
  | .iadd f => Sys2Proof.Machine.execIadd f s
  | .isub f => Sys2Proof.Machine.execIsub f s
  | .iaddc f => Sys2Proof.Machine.execIaddc f s
  | .isubc f => Sys2Proof.Machine.execIsubc f s
  | .imul f => Sys2Proof.Machine.execImul f s
  | .imulh f => Sys2Proof.Machine.execImulh f s
  | .imad f => Sys2Proof.Machine.execImad f s
  | .imin f => Sys2Proof.Machine.execImin f s
  | .imax f => Sys2Proof.Machine.execImax f s
  | .iabs f => Sys2Proof.Machine.execIabs f s
  | .band f => Sys2Proof.Machine.execBand f s
  | .bor f => Sys2Proof.Machine.execBor f s
  | .bxor f => Sys2Proof.Machine.execBxor f s
  | .bnot f => Sys2Proof.Machine.execBnot f s
  | .logt f => Sys2Proof.Machine.execLogt f s
  | .shl f => Sys2Proof.Machine.execShl f s
  | .shr f => Sys2Proof.Machine.execShr f s
  | .sar f => Sys2Proof.Machine.execSar f s
  | .dsh f => Sys2Proof.Machine.execDsh f s
  | .bfe f => Sys2Proof.Machine.execBfe f s
  | .bfi f => Sys2Proof.Machine.execBfi f s
  | .maskB f => Sys2Proof.Machine.execMaskB f s
  | .popc f => Sys2Proof.Machine.execPopc f s
  | .clz f => Sys2Proof.Machine.execClz f s
  | .brev f => Sys2Proof.Machine.execBrev f s
  | .bswz f => Sys2Proof.Machine.execBswz f s
  | .bdot f => Sys2Proof.Machine.execBdot f s
  | .bsad f => Sys2Proof.Machine.execBsad f s
  | .isetp f => Sys2Proof.Machine.execIsetp f s
  | .sel f => Sys2Proof.Machine.execSel f s
  | .lea f => Sys2Proof.Machine.execLea f s
  | .mov f => Sys2Proof.Machine.execMov f s
  | .movh f => Sys2Proof.Machine.execMovh f s
  | .addi f => Sys2Proof.Machine.execAddi f s
  | .movx f => Sys2Proof.Machine.execMovx f s
  | .pand f => Sys2Proof.Machine.execPand f s
  | .por f => Sys2Proof.Machine.execPor f s
  | .pxor f => Sys2Proof.Machine.execPxor f s
  | .pnot f => Sys2Proof.Machine.execPnot f s
  | .p2v f => Sys2Proof.Machine.execP2v f s
  | .v2p f => Sys2Proof.Machine.execV2p f s
  | .rdlane f => Sys2Proof.Machine.execRdlane f s
  | .srd f => Sys2Proof.Machine.execSrd f s
  | .swr f => Sys2Proof.Machine.execSwr f s
  | .setmode f => Sys2Proof.Machine.execSetmode f s
  | .partW f => Sys2Proof.Machine.execPartW f s
  | .shflIdx f => Sys2Proof.Machine.execShflIdx f s
  | .shflRot f => Sys2Proof.Machine.execShflRot f s
  | .shflXor f => Sys2Proof.Machine.execShflXor f s
  | .shflRev f => Sys2Proof.Machine.execShflRev f s
  | .voteAll f => Sys2Proof.Machine.execVoteAll f s
  | .voteAny f => Sys2Proof.Machine.execVoteAny f s
  | .voteBallot f => Sys2Proof.Machine.execVoteBallot f s
  | .redgAdd f => Sys2Proof.Machine.execRedgAdd f s
  | .redgMin f => Sys2Proof.Machine.execRedgMin f s
  | .redgMax f => Sys2Proof.Machine.execRedgMax f s
  | .scang f => Sys2Proof.Machine.execScang f s
  | .matchG f => Sys2Proof.Machine.execMatchG f s
  | .elect f => Sys2Proof.Machine.execElect f s
  | .fadd f => Sys2Proof.Machine.execFadd f s
  | .fsub f => Sys2Proof.Machine.execFsub f s
  | .fmul f => Sys2Proof.Machine.execFmul f s
  | .ffma f => Sys2Proof.Machine.execFfma f s
  | .fmin f => Sys2Proof.Machine.execFmin f s
  | .fmax f => Sys2Proof.Machine.execFmax f s
  | .fneg f => Sys2Proof.Machine.execFneg f s
  | .fabs f => Sys2Proof.Machine.execFabs f s
  | .fscale f => Sys2Proof.Machine.execFscale f s
  | .fsetp f => Sys2Proof.Machine.execFsetp f s
  | .fclass f => Sys2Proof.Machine.execFclass f s
  | .frnd f => Sys2Proof.Machine.execFrnd f s
  | .hfma2 f => Sys2Proof.Machine.execHfma2 f s
  | .hadd2 f => Sys2Proof.Machine.execHadd2 f s
  | .hsub2 f => Sys2Proof.Machine.execHsub2 f s
  | .hmul2 f => Sys2Proof.Machine.execHmul2 f s
  | .hmin2 f => Sys2Proof.Machine.execHmin2 f s
  | .hmax2 f => Sys2Proof.Machine.execHmax2 f s
  | .hneg2 f => Sys2Proof.Machine.execHneg2 f s
  | .habs2 f => Sys2Proof.Machine.execHabs2 f s
  | .hsetp2 f => Sys2Proof.Machine.execHsetp2 f s
  | .cvt f => Sys2Proof.Machine.execCvt f s
  | .pack2 f => Sys2Proof.Machine.execPack2 f s
  | .rcp f => Sys2Proof.Machine.execRcp f s
  | .rsq f => Sys2Proof.Machine.execRsq f s
  | .sqrt f => Sys2Proof.Machine.execSqrt f s
  | .exp2 f => Sys2Proof.Machine.execExp2 f s
  | .log2 f => Sys2Proof.Machine.execLog2 f s
  | .sin f => Sys2Proof.Machine.execSin f s
  | .cos f => Sys2Proof.Machine.execCos f s
  | .tanh f => Sys2Proof.Machine.execTanh f s
  | .callv f => Sys2Proof.Machine.execCallv f s
  | .retv f => Sys2Proof.Machine.execRetv f s
  | .bset f => Sys2Proof.Machine.execBset f s
  | .bget f => Sys2Proof.Machine.execBget f s
  | .bsplit f => Sys2Proof.Machine.execBsplit f s
  | .meter f => Sys2Proof.Machine.execMeter f s
  | .ld f => Sys2Proof.Machine.execLd f s
  | .st f => Sys2Proof.Machine.execSt f s
  | .ldx f => Sys2Proof.Machine.execLdx f s
  | .stx f => Sys2Proof.Machine.execStx f s
  | .erase f => Sys2Proof.Machine.execErase f s
  | .exq f => Sys2Proof.Machine.execExq f s
  | .pref f => Sys2Proof.Machine.execPref f s
  | .brmake f => Sys2Proof.Machine.execBrmake f s
  | .brset f => Sys2Proof.Machine.execBrset f s
  | .brget f => Sys2Proof.Machine.execBrget f s
  | .atomAdd f => Sys2Proof.Machine.execAtomAdd f s
  | .atomMin f => Sys2Proof.Machine.execAtomMin f s
  | .atomMax f => Sys2Proof.Machine.execAtomMax f s
  | .atomAnd f => Sys2Proof.Machine.execAtomAnd f s
  | .atomOr f => Sys2Proof.Machine.execAtomOr f s
  | .atomXor f => Sys2Proof.Machine.execAtomXor f s
  | .atomExch f => Sys2Proof.Machine.execAtomExch f s
  | .atomCas f => Sys2Proof.Machine.execAtomCas f s
  | .atomFadd f => Sys2Proof.Machine.execAtomFadd f s
  | .redAdd f => Sys2Proof.Machine.execRedAdd f s
  | .redMin f => Sys2Proof.Machine.execRedMin f s
  | .redMax f => Sys2Proof.Machine.execRedMax f s
  | .redAnd f => Sys2Proof.Machine.execRedAnd f s
  | .redOr f => Sys2Proof.Machine.execRedOr f s
  | .redXor f => Sys2Proof.Machine.execRedXor f s
  | .redFadd f => Sys2Proof.Machine.execRedFadd f s
  | .atomsAdd f => Sys2Proof.Machine.execAtomsAdd f s
  | .atomsMin f => Sys2Proof.Machine.execAtomsMin f s
  | .atomsMax f => Sys2Proof.Machine.execAtomsMax f s
  | .atomsAnd f => Sys2Proof.Machine.execAtomsAnd f s
  | .atomsOr f => Sys2Proof.Machine.execAtomsOr f s
  | .atomsXor f => Sys2Proof.Machine.execAtomsXor f s
  | .atomsExch f => Sys2Proof.Machine.execAtomsExch f s
  | .atomsCas f => Sys2Proof.Machine.execAtomsCas f s
  | .atomsFadd f => Sys2Proof.Machine.execAtomsFadd f s
  | .redsAdd f => Sys2Proof.Machine.execRedsAdd f s
  | .redsMin f => Sys2Proof.Machine.execRedsMin f s
  | .redsMax f => Sys2Proof.Machine.execRedsMax f s
  | .redsAnd f => Sys2Proof.Machine.execRedsAnd f s
  | .redsOr f => Sys2Proof.Machine.execRedsOr f s
  | .redsXor f => Sys2Proof.Machine.execRedsXor f s
  | .redsFadd f => Sys2Proof.Machine.execRedsFadd f s
  | .lds f => Sys2Proof.Machine.execLds f s
  | .sts f => Sys2Proof.Machine.execSts f s
  | .sfill f => Sys2Proof.Machine.execSfill f s
  | .sempty f => Sys2Proof.Machine.execSempty f s
  | .gthr f => Sys2Proof.Machine.execGthr f s
  | .gthrs f => Sys2Proof.Machine.execGthrs f s
  | .remap f => Sys2Proof.Machine.execRemap f s
  | .copyI f => Sys2Proof.Machine.execCopyI f s
  | .copym f => Sys2Proof.Machine.execCopym f s
  | .cbload f => Sys2Proof.Machine.execCbload f s
  | .mready f => Sys2Proof.Machine.execMready f s
  | .mma f => Sys2Proof.Machine.execMma f s
  | .mmas f => Sys2Proof.Machine.execMmas f s
  | .mwait f => Sys2Proof.Machine.execMwait f s
  | .mpoll f => Sys2Proof.Machine.execMpoll f s
  | .fence f => Sys2Proof.Machine.execFence f s
  | .bar f => Sys2Proof.Machine.execBar f s
  | .bara f => Sys2Proof.Machine.execBara f s
  | .barw f => Sys2Proof.Machine.execBarw f s
  | .drain f => Sys2Proof.Machine.execDrain f s
  | .fewait f => Sys2Proof.Machine.execFewait f s
  | .evpost f => Sys2Proof.Machine.execEvpost f s
  | .evwait f => Sys2Proof.Machine.execEvwait f s
  | .evpoll f => Sys2Proof.Machine.execEvpoll f s
  | .launchI f => Sys2Proof.Machine.execLaunchI f s
  | .garm f => Sys2Proof.Machine.execGarm f s
  | .cntrd f => Sys2Proof.Machine.execCntrd f s
  | .cancelLevel f => Sys2Proof.Machine.execCancelLevel f s
  | .lblrd f => Sys2Proof.Machine.execLblrd f s
  | .lbltst f => Sys2Proof.Machine.execLbltst f s
  | .egress f => Sys2Proof.Machine.execEgress f s
  | .rgn f => Sys2Proof.Machine.execRgn f s
  | .rgne f => Sys2Proof.Machine.execRgne f s
  | .sfqpop f => Sys2Proof.Machine.execSfqpop f s
  | .rft f => Sys2Proof.Machine.execRft f s
  | .termG f => Sys2Proof.Machine.execTermG f s
  | .termU f => Sys2Proof.Machine.execTermU f s
  | .halt f => Sys2Proof.Machine.execHalt f s
  | .endpointDisable => Sys2Proof.Machine.execEndpointDisable s
  | .createPart => Sys2Proof.Machine.execCreatePart s
  | .destroyPart => Sys2Proof.Machine.execDestroyPart s
  | .assignCopy => Sys2Proof.Machine.execAssignCopy s
  | .bindEndpoint => Sys2Proof.Machine.execBindEndpoint s
  | .stackClear => Sys2Proof.Machine.execStackClear s
  | .policyPeriod => Sys2Proof.Machine.execPolicyPeriod s
  | .powerUpReset => Sys2Proof.Machine.execPowerUpReset s
  | .evictHeldPerform => Sys2Proof.Machine.execEvictHeldPerform s
  | .shootDown => Sys2Proof.Machine.execShootDown s
  | .migrationNoticeResend => Sys2Proof.Machine.execMigrationNoticeResend s
  | .graphNodeStart => Sys2Proof.Machine.execGraphNodeStart s
  | .waitEntry => Sys2Proof.Machine.execWaitEntry s
  | .unitDispatch => Sys2Proof.Machine.execUnitDispatch s
  | .fusionChange => Sys2Proof.Machine.execFusionChange s
  | .unitEnd => Sys2Proof.Machine.execUnitEnd s
  | .levelCompletion => Sys2Proof.Machine.execLevelCompletion s
  | .budgetRefill => Sys2Proof.Machine.execBudgetRefill s
  | .borrow => Sys2Proof.Machine.execBorrow s
  | .aging => Sys2Proof.Machine.execAging s
  | .glasonSwap => Sys2Proof.Machine.execGlasonSwap s
  | .glasonPendingAging => Sys2Proof.Machine.execGlasonPendingAging s
  | .skidLimit => Sys2Proof.Machine.execSkidLimit s
  | .barrierPhaseComplete => Sys2Proof.Machine.execBarrierPhaseComplete s
  | .regionOpen => Sys2Proof.Machine.execRegionOpen s
  | .regionCommit => Sys2Proof.Machine.execRegionCommit s
  | .heldAccessReplay => Sys2Proof.Machine.execHeldAccessReplay s
  | .eventThresholdNotice => Sys2Proof.Machine.execEventThresholdNotice s
  | .unitCommandStart => Sys2Proof.Machine.execUnitCommandStart s
  | .copyEngineAccept => Sys2Proof.Machine.execCopyEngineAccept s
  | .copyResume => Sys2Proof.Machine.execCopyResume s
  | .copyComplete => Sys2Proof.Machine.execCopyComplete s
  | .mmaComplete => Sys2Proof.Machine.execMmaComplete s
  | .regionAbort => Sys2Proof.Machine.execRegionAbort s
  | .regionRestart => Sys2Proof.Machine.execRegionRestart s
  | .railHoldExpiry => Sys2Proof.Machine.execRailHoldExpiry s
  | .railReady => Sys2Proof.Machine.execRailReady s
  | .loadRecordUpdate => Sys2Proof.Machine.execLoadRecordUpdate s
  | .fadeStart => Sys2Proof.Machine.execFadeStart s
  | .fadeEnd => Sys2Proof.Machine.execFadeEnd s

end Sys2Proof.Machine
end

