-- ==== Sys2Proof/Machine/Step.lean ====
section
/-! DEFINITION. The step: what moves in a turn, in time order (log 2), and State.withFetchWord. -/

namespace Sys2Proof.Machine

/-- An outcome that leaves the state otherwise than it was, or stops. -/
def changes (s : State) (o : Host.Outcome State Fault Refusal) : Bool :=
  match o with
  | .next s' => decide (s' ≠ s)
  | _ => true

/-- The first event that the state calls for and that has an effect. -/
def dueNow (s : State) : Option Instr := (calledFor s).find? (fun i => changes s (exec i s))

/-- A message from outside: the row of its opcode, or a refusal of one that no row has. -/
def runMessage (m : Message) (s : State) : Host.Outcome State Fault Refusal :=
  match decodeMessage m with
  | some i => exec i s
  | none => .next (refuseOther m s)

/-- A core's turn: the fetched instruction runs on the latched state. -/
def runCore (core : Nat) (s : State) : Host.Outcome State Fault Refusal :=
  match coreTurn s core with
  | .run i s' => exec i s'
  | .over o => o

/-- A move. -/
def runMove (m : Move) (s : State) : Host.Outcome State Fault Refusal :=
  match m with
  | .message x => runMessage x s
  | .event i => exec i s
  | .issue core => runCore core s

/-- Time passes up to the next moment at which something falls due, and no further than `dt`; true where all of it has passed. -/
def pass (s : State) (dt : Nat) : Bool × State :=
  match nextMoment s with
  | some t => if t < s.time + dt then (false, advance s (t - s.time)) else (true, advance s dt)
  | none => (true, advance s dt)

/-- A turn of the agenda: its delay passes first, and what falls due in it happens first. -/
def runTurn (x : Turn) (rest : List Turn) (s : State) : Host.Outcome State Fault Refusal :=
  let r := pass s x.delay
  if r.1 then runMove x.move (r.2.setAgenda rest)
  else .next (r.2.setAgenda ({ x with delay := x.delay - (r.2.time - s.time) } :: rest))

/-- With an empty agenda: the first event that the state calls for; else the next core of which a port takes a group in this clk issues;
else one clk passes. -/
def runIdle (s : State) : Host.Outcome State Fault Refusal :=
  match dueNow s with
  | some i => exec i s
  | none =>
    match nextCore s with
    | some c => runCore c s
    | none => .next (pass s 5).2

/-- The message that may be taken now that no reconfiguration applies (R64). -/
def heldMessage (s : State) : Option (Message × State) :=
  match s.boot.reconf, s.waiting with
  | none, m :: ms => some (m, { s with waiting := ms })
  | _, _ => none

/-- One step of the machine. -/
def step (s : State) : Host.Outcome State Fault Refusal :=
  if unbooted s then exec .powerUpReset s
  else if bootDue s then .next (s.setBoot (s.boot.proceed s.time))
  else
    match heldMessage s with
    | some (m, s') => runMessage m s'
    | none =>
      match timedDue s with
      | some i => exec i s
      | none =>
        match s.agenda with
        | x :: rest => runTurn x rest s
        | [] => runIdle s

/-! Placing a word where the next step fetches. -/

/-- The code page of `withFetchWord`: its virtual address, and its frame in stack 0. -/
def fetchPage : Nat := 2 ^ 30
def fetchFrame : Nat := 2 ^ 21

/-- A leaf that may be read and executed. -/
def codeLeaf : Nat := 3 + 4 + 16 + fetchFrame / 2 ^ 12 * 2 ^ 36

/-- A launch of one unit of one gang on a control core, whose entry is the code page. -/
def fetchLaunch : Launch :=
  { Launch.absent with
    kernel := { Kernel.absent with regs := 255, flags := 8 }, start := BitVec.ofNat 48 fetchPage, units := 1, next := 1, residency := 3,
    argBase := windowBase }

/-- The state as a loader leaves it with the word's bytes at the entry of a kernel that a control core of slice 0 runs: boot state 5,
partition 0 on slice 0, the code page mapped, a job with one launch, and its one unit at its entry. -/
def State.withFetchWord (s : State) (nbits w : Nat) : State :=
  let n := s.nextId
  let s := s.setBoot { s.boot with state := 5, reconf := none, clearing := [] }
  let s := { s with agenda := [], waiting := [] }
  let s := s.setPart 0 { first := 0, size := 1 }
  let s := s.setSlice 0 { ready := true, ungated := true, clkBase := s.time }
  let s := putEntry s 0 1 fetchPage codeLeaf
  let s := s.setMem (s.mem.write fetchFrame (leBytes 12 (w % 2 ^ nbits)))
  let s := s.setLevel n { kind := 4, ident := 0, parent := none, ep := 0, job := n, counter := 1 }
  let s := s.setLevel (n + 1) { kind := 1, ident := 0, parent := some n, ep := 0, job := n, counter := 1, closed := true }
  let s := s.setLaunch n { fetchLaunch with level := n + 1 }
  let bind : Bind := { slice := 0, queue := 0, mask := 0, ceiling := 3, account := 0, control := 1 }
  let spot : Spot := { part := 0, bind := bind, offer := .fresh n, cluster := 0, core := 4 }
  (createUnit (s.setNextId (n + 2)) spot n 0 0 stackWindow).2

end Sys2Proof.Machine
end

