-- ==== Sys2Proof/WellFormed.lean ====
section
/-! DEFINITION. Well-formed instructions: a program instruction passes the decode tests of R98 under the greatest register count; a
command is the row that its message's opcode names; the arguments of an event lie in the ranges that the spec gives them. -/

namespace Sys2Proof

/-- A program instruction that its own form refuses nothing of. -/
def wfFields (op : Nat) (f : Fields) : Bool :=
  match formOf op with
  | some x => (x.reason 255 f).isNone
  | none => false

/-- A message at an endpoint that has a number (R37). -/
def wfMessage (i : Instr) (m : Message) : Bool := m.ep ≤ 64 && decodeMessage m == some i

/-- A register write without a row of its own: threshold codes 0 to 19, accounts 0 to 63, window bases in the address space, slices 0
to 11. -/
def RegWrite.wf : RegWrite → Bool
  | .threshold p code _ => p < 12 && code < 20
  | .account p a _ _ => p < 12 && a < 64
  | .window p base => p < 12 && base < vaTop
  | .power k _ _ => k < 12

/-- A remote access to the 4 GiB window of a partition (R432). -/
def RemoteAccess.wf (r : RemoteAccess) : Bool := r.part < 12 && r.offset < 2 ^ 32

/-- The arguments of an instruction lie in the ranges that the spec gives them: 12 slices of 64 bind slots, 96 clusters, at most 12
partitions of 256 queues, 65 endpoints. -/
def Instr.wf (i : Instr) : Bool :=
  match i with
  | .queryState m => wfMessage i m
  | .replay m => wfMessage i m
  | .loadObject m => wfMessage i m
  | .unloadObject m => wfMessage i m
  | .jobOpen m => wfMessage i m
  | .jobClose m => wfMessage i m
  | .phaseNext m => wfMessage i m
  | .saveArea m => wfMessage i m
  | .resumeJob m => wfMessage i m
  | .submit m => wfMessage i m
  | .cancelCmd m => wfMessage i m
  | .queueConfig m => wfMessage i m
  | .memWrite m => wfMessage i m
  | .memRead m => wfMessage i m
  | .statusWindowRead m => wfMessage i m
  | .endpointEnable m => wfMessage i m
  | .shortMessage m => wfMessage i m
  | .bindSlot m => wfMessage i m
  | .peer m => wfMessage i m
  | .policy m => wfMessage i m
  | .revoke m => wfMessage i m
  | .teaselTableRead m => wfMessage i m
  | .replacementImage m => wfMessage i m
  | .configurationRecord m => wfMessage i m
  | .nonce m => wfMessage i m
  | .attestationReport m => wfMessage i m
  | .bootStatus m => wfMessage i m
  | .ringTailCheck p => p < 12
  | .mapPages p => p < 12
  | .unmapPages p => p < 12
  | .protect p => p < 12
  | .evict p => p < 12
  | .launchEntryStart p q => p < 12 && q < 256
  | .graphEntryArm p q => p < 12 && q < 256
  | .copyEntry p q => p < 12 && q < 256
  | .bindRecordWrite slice index _ => slice < 12 && index < 64
  | .leaseLengthWrite slice _ => slice < 12
  | .voteWrite slice _ => slice < 12
  | .domainGate slice => slice < 12
  | .domainUngate slice => slice < 12
  | .registerWrite w => w.wf
  | .threadUnblock _ => true
  | .loadWriteback _ _ => true
  | .writePerform _ _ => true
  | .atomicPerform _ _ => true
  | .exactPathWriteback _ => true
  | .remoteAccessIn r => r.wf
  | .copyChunk _ _ _ => true
  | .mmaChunkGrant cluster => cluster < 96
  | .gthrsLineFill _ _ => true
  | .remapTableWrite _ _ => true
  | .codebookSlotWrite _ _ => true
  | .variantTableRead _ _ => true
  | .quiescence _ => true
  | .passCountRaise cluster => cluster < 96
  | .passCountLower cluster => cluster < 96
  | .reconfigure m => wfMessage i m
  | .bra f => wfFields (opcodeOf i) f
  | .brx f => wfFields (opcodeOf i) f
  | .call f => wfFields (opcodeOf i) f
  | .callx f => wfFields (opcodeOf i) f
  | .ret f => wfFields (opcodeOf i) f
  | .exitI f => wfFields (opcodeOf i) f
  | .yieldI f => wfFields (opcodeOf i) f
  | .nop f => wfFields (opcodeOf i) f
  | .setpri f => wfFields (opcodeOf i) f
  | .bpt f => wfFields (opcodeOf i) f
  | .trapI f => wfFields (opcodeOf i) f
  | .iadd f => wfFields (opcodeOf i) f
  | .isub f => wfFields (opcodeOf i) f
  | .iaddc f => wfFields (opcodeOf i) f
  | .isubc f => wfFields (opcodeOf i) f
  | .imul f => wfFields (opcodeOf i) f
  | .imulh f => wfFields (opcodeOf i) f
  | .imad f => wfFields (opcodeOf i) f
  | .imin f => wfFields (opcodeOf i) f
  | .imax f => wfFields (opcodeOf i) f
  | .iabs f => wfFields (opcodeOf i) f
  | .band f => wfFields (opcodeOf i) f
  | .bor f => wfFields (opcodeOf i) f
  | .bxor f => wfFields (opcodeOf i) f
  | .bnot f => wfFields (opcodeOf i) f
  | .logt f => wfFields (opcodeOf i) f
  | .shl f => wfFields (opcodeOf i) f
  | .shr f => wfFields (opcodeOf i) f
  | .sar f => wfFields (opcodeOf i) f
  | .dsh f => wfFields (opcodeOf i) f
  | .bfe f => wfFields (opcodeOf i) f
  | .bfi f => wfFields (opcodeOf i) f
  | .maskB f => wfFields (opcodeOf i) f
  | .popc f => wfFields (opcodeOf i) f
  | .clz f => wfFields (opcodeOf i) f
  | .brev f => wfFields (opcodeOf i) f
  | .bswz f => wfFields (opcodeOf i) f
  | .bdot f => wfFields (opcodeOf i) f
  | .bsad f => wfFields (opcodeOf i) f
  | .isetp f => wfFields (opcodeOf i) f
  | .sel f => wfFields (opcodeOf i) f
  | .lea f => wfFields (opcodeOf i) f
  | .mov f => wfFields (opcodeOf i) f
  | .movh f => wfFields (opcodeOf i) f
  | .addi f => wfFields (opcodeOf i) f
  | .movx f => wfFields (opcodeOf i) f
  | .pand f => wfFields (opcodeOf i) f
  | .por f => wfFields (opcodeOf i) f
  | .pxor f => wfFields (opcodeOf i) f
  | .pnot f => wfFields (opcodeOf i) f
  | .p2v f => wfFields (opcodeOf i) f
  | .v2p f => wfFields (opcodeOf i) f
  | .rdlane f => wfFields (opcodeOf i) f
  | .srd f => wfFields (opcodeOf i) f
  | .swr f => wfFields (opcodeOf i) f
  | .setmode f => wfFields (opcodeOf i) f
  | .partW f => wfFields (opcodeOf i) f
  | .shflIdx f => wfFields (opcodeOf i) f
  | .shflRot f => wfFields (opcodeOf i) f
  | .shflXor f => wfFields (opcodeOf i) f
  | .shflRev f => wfFields (opcodeOf i) f
  | .voteAll f => wfFields (opcodeOf i) f
  | .voteAny f => wfFields (opcodeOf i) f
  | .voteBallot f => wfFields (opcodeOf i) f
  | .redgAdd f => wfFields (opcodeOf i) f
  | .redgMin f => wfFields (opcodeOf i) f
  | .redgMax f => wfFields (opcodeOf i) f
  | .scang f => wfFields (opcodeOf i) f
  | .matchG f => wfFields (opcodeOf i) f
  | .elect f => wfFields (opcodeOf i) f
  | .fadd f => wfFields (opcodeOf i) f
  | .fsub f => wfFields (opcodeOf i) f
  | .fmul f => wfFields (opcodeOf i) f
  | .ffma f => wfFields (opcodeOf i) f
  | .fmin f => wfFields (opcodeOf i) f
  | .fmax f => wfFields (opcodeOf i) f
  | .fneg f => wfFields (opcodeOf i) f
  | .fabs f => wfFields (opcodeOf i) f
  | .fscale f => wfFields (opcodeOf i) f
  | .fsetp f => wfFields (opcodeOf i) f
  | .fclass f => wfFields (opcodeOf i) f
  | .frnd f => wfFields (opcodeOf i) f
  | .hfma2 f => wfFields (opcodeOf i) f
  | .hadd2 f => wfFields (opcodeOf i) f
  | .hsub2 f => wfFields (opcodeOf i) f
  | .hmul2 f => wfFields (opcodeOf i) f
  | .hmin2 f => wfFields (opcodeOf i) f
  | .hmax2 f => wfFields (opcodeOf i) f
  | .hneg2 f => wfFields (opcodeOf i) f
  | .habs2 f => wfFields (opcodeOf i) f
  | .hsetp2 f => wfFields (opcodeOf i) f
  | .cvt f => wfFields (opcodeOf i) f
  | .pack2 f => wfFields (opcodeOf i) f
  | .rcp f => wfFields (opcodeOf i) f
  | .rsq f => wfFields (opcodeOf i) f
  | .sqrt f => wfFields (opcodeOf i) f
  | .exp2 f => wfFields (opcodeOf i) f
  | .log2 f => wfFields (opcodeOf i) f
  | .sin f => wfFields (opcodeOf i) f
  | .cos f => wfFields (opcodeOf i) f
  | .tanh f => wfFields (opcodeOf i) f
  | .callv f => wfFields (opcodeOf i) f
  | .retv f => wfFields (opcodeOf i) f
  | .bset f => wfFields (opcodeOf i) f
  | .bget f => wfFields (opcodeOf i) f
  | .bsplit f => wfFields (opcodeOf i) f
  | .meter f => wfFields (opcodeOf i) f
  | .ld f => wfFields (opcodeOf i) f
  | .st f => wfFields (opcodeOf i) f
  | .ldx f => wfFields (opcodeOf i) f
  | .stx f => wfFields (opcodeOf i) f
  | .erase f => wfFields (opcodeOf i) f
  | .exq f => wfFields (opcodeOf i) f
  | .pref f => wfFields (opcodeOf i) f
  | .brmake f => wfFields (opcodeOf i) f
  | .brset f => wfFields (opcodeOf i) f
  | .brget f => wfFields (opcodeOf i) f
  | .atomAdd f => wfFields (opcodeOf i) f
  | .atomMin f => wfFields (opcodeOf i) f
  | .atomMax f => wfFields (opcodeOf i) f
  | .atomAnd f => wfFields (opcodeOf i) f
  | .atomOr f => wfFields (opcodeOf i) f
  | .atomXor f => wfFields (opcodeOf i) f
  | .atomExch f => wfFields (opcodeOf i) f
  | .atomCas f => wfFields (opcodeOf i) f
  | .atomFadd f => wfFields (opcodeOf i) f
  | .redAdd f => wfFields (opcodeOf i) f
  | .redMin f => wfFields (opcodeOf i) f
  | .redMax f => wfFields (opcodeOf i) f
  | .redAnd f => wfFields (opcodeOf i) f
  | .redOr f => wfFields (opcodeOf i) f
  | .redXor f => wfFields (opcodeOf i) f
  | .redFadd f => wfFields (opcodeOf i) f
  | .atomsAdd f => wfFields (opcodeOf i) f
  | .atomsMin f => wfFields (opcodeOf i) f
  | .atomsMax f => wfFields (opcodeOf i) f
  | .atomsAnd f => wfFields (opcodeOf i) f
  | .atomsOr f => wfFields (opcodeOf i) f
  | .atomsXor f => wfFields (opcodeOf i) f
  | .atomsExch f => wfFields (opcodeOf i) f
  | .atomsCas f => wfFields (opcodeOf i) f
  | .atomsFadd f => wfFields (opcodeOf i) f
  | .redsAdd f => wfFields (opcodeOf i) f
  | .redsMin f => wfFields (opcodeOf i) f
  | .redsMax f => wfFields (opcodeOf i) f
  | .redsAnd f => wfFields (opcodeOf i) f
  | .redsOr f => wfFields (opcodeOf i) f
  | .redsXor f => wfFields (opcodeOf i) f
  | .redsFadd f => wfFields (opcodeOf i) f
  | .lds f => wfFields (opcodeOf i) f
  | .sts f => wfFields (opcodeOf i) f
  | .sfill f => wfFields (opcodeOf i) f
  | .sempty f => wfFields (opcodeOf i) f
  | .gthr f => wfFields (opcodeOf i) f
  | .gthrs f => wfFields (opcodeOf i) f
  | .remap f => wfFields (opcodeOf i) f
  | .copyI f => wfFields (opcodeOf i) f
  | .copym f => wfFields (opcodeOf i) f
  | .cbload f => wfFields (opcodeOf i) f
  | .mready f => wfFields (opcodeOf i) f
  | .mma f => wfFields (opcodeOf i) f
  | .mmas f => wfFields (opcodeOf i) f
  | .mwait f => wfFields (opcodeOf i) f
  | .mpoll f => wfFields (opcodeOf i) f
  | .fence f => wfFields (opcodeOf i) f
  | .bar f => wfFields (opcodeOf i) f
  | .bara f => wfFields (opcodeOf i) f
  | .barw f => wfFields (opcodeOf i) f
  | .drain f => wfFields (opcodeOf i) f
  | .fewait f => wfFields (opcodeOf i) f
  | .evpost f => wfFields (opcodeOf i) f
  | .evwait f => wfFields (opcodeOf i) f
  | .evpoll f => wfFields (opcodeOf i) f
  | .launchI f => wfFields (opcodeOf i) f
  | .garm f => wfFields (opcodeOf i) f
  | .cntrd f => wfFields (opcodeOf i) f
  | .cancelLevel f => wfFields (opcodeOf i) f
  | .lblrd f => wfFields (opcodeOf i) f
  | .lbltst f => wfFields (opcodeOf i) f
  | .egress f => wfFields (opcodeOf i) f
  | .rgn f => wfFields (opcodeOf i) f
  | .rgne f => wfFields (opcodeOf i) f
  | .sfqpop f => wfFields (opcodeOf i) f
  | .rft f => wfFields (opcodeOf i) f
  | .termG f => wfFields (opcodeOf i) f
  | .termU f => wfFields (opcodeOf i) f
  | .halt f => wfFields (opcodeOf i) f
  | .endpointDisable => true
  | .createPart => true
  | .destroyPart => true
  | .assignCopy => true
  | .bindEndpoint => true
  | .stackClear => true
  | .policyPeriod => true
  | .powerUpReset => true
  | .evictHeldPerform => true
  | .shootDown => true
  | .migrationNoticeResend => true
  | .graphNodeStart => true
  | .waitEntry => true
  | .unitDispatch => true
  | .fusionChange => true
  | .unitEnd => true
  | .levelCompletion => true
  | .budgetRefill => true
  | .borrow => true
  | .aging => true
  | .glasonSwap => true
  | .glasonPendingAging => true
  | .skidLimit => true
  | .barrierPhaseComplete => true
  | .regionOpen => true
  | .regionCommit => true
  | .heldAccessReplay => true
  | .eventThresholdNotice => true
  | .unitCommandStart => true
  | .copyEngineAccept => true
  | .copyResume => true
  | .copyComplete => true
  | .mmaComplete => true
  | .regionAbort => true
  | .regionRestart => true
  | .railHoldExpiry => true
  | .railReady => true
  | .loadRecordUpdate => true
  | .fadeStart => true
  | .fadeEnd => true

end Sys2Proof
end

