-- ==== Sys2Proof/Safety.lean ====
section
/-! DEFINITION. The terms in which claims about the machine are stated: a thread that issues, the result of an instruction, what an
instruction leaves alone, and the canonical form of memory. -/

namespace Sys2Proof.Machine

/-- Nothing keeps thread t of the latched group from a form: it stands in the group once, its guard is true and not pending, its sources
are full, the registers it writes have been full since an earlier clk and are not lent to the matrix engine, and no predicate that it reads
or writes is pending (R90, R92, R123, R124, R292). `preds` are predicates that the modifier names, `regs` further registers that the form writes. -/
structure Fits (s : State) (op : Nat) (f : Fields) (preds regs : List Nat) (t : Nat) : Prop where
  mem : t ∈ s.group
  nodup : s.group.Nodup
  settled : (s.thread t).pending f.gp.toNat = false
  guard : guardTrue s t f = true
  sources : ∀ q ∈ sourcesOf op f, sourceEmpty s t q.1 q.2.1 = none
  dest : ∀ r ∈ opndRegs (slotsOf op f).d f.d ++ regs, (s.thread t).seenFull (s.clkOf t) r = true ∧ s.lent t r = false
  preds : ∀ n ∈ (sourcesOf op f).flatMap (fun q => opndPreds q.1 q.2.1) ++ opndPreds (slotsOf op f).d f.d ++ preds,
    (s.thread t).pending n = false

/-- Such a thread is ready: it executes the form. -/
structure Issues (s : State) (op : Nat) (f : Fields) (preds regs : List Nat) (t : Nat) : Prop extends Fits s op f preds regs t where
  ready : (s.thread t).sched = .ready

/-- Such a thread is ready, or the issue-group builder holds it at the form (R120). -/
def Executes (s : State) (op : Nat) (f : Fields) (preds regs : List Nat) (t : Nat) : Prop :=
  Fits s op f preds regs t ∧ ((s.thread t).sched = .ready ∨ ∃ h, holdOf op f = some h ∧ (s.thread t).sched = .blocked h)

/-- A 32-bit result in a destination; vz and sz discard it (R83, R85). -/
def Result32 (s' : State) (t : Nat) (d : Opnd) (x : Word) : Prop :=
  match d with
  | .v n => n = 255 ∨ (s'.thread t).reg n.toNat = x ∧ (s'.thread t).full n.toNat = true
  | .s n => n = 127 ∨ (s'.gang (gangOf t)).sreg n.toNat = x
  | _ => True

/-- A 64-bit result in a destination pair, the low word in the lower register (R84). -/
def Result64 (s' : State) (t : Nat) (d : Opnd) (x : DWord) : Prop :=
  match d with
  | .v n => 254 ≤ n.toNat ∨ (s'.thread t).reg n.toNat = x.lo ∧ (s'.thread t).reg (n.toNat + 1) = x.hi ∧
      (s'.thread t).full n.toNat = true ∧ (s'.thread t).full (n.toNat + 1) = true
  | .s n => 126 ≤ n.toNat ∨ (s'.gang (gangOf t)).sreg n.toNat = x.lo ∧ (s'.gang (gangOf t)).sreg (n.toNat + 1) = x.hi
  | _ => True

/-- A result of a type's width (R133). -/
def ResultTy (s' : State) (t : Nat) (ty : Ty) (d : Opnd) (x : DWord) : Prop :=
  if ty.is64 then Result64 s' t d x else Result32 s' t d x.lo

/-- The per-thread registers of a result. -/
def resultRegs (ty : Ty) (d : Opnd) : List Nat :=
  match d with
  | .v n => if ty.is64 then [n.toNat, n.toNat + 1] else [n.toNat]
  | _ => []

/-- The gang-uniform registers of a result. -/
def resultUnis (ty : Ty) (d : Opnd) : List Nat :=
  match d with
  | .s n => if ty.is64 then [n.toNat, n.toNat + 1] else [n.toNat]
  | _ => []

/-- The predicates of a class-10 destination. -/
def resultPreds (d : Opnd) : List Nat :=
  match d with
  | .k n => [n.toNat - 64]
  | _ => []

/-- What an instruction leaves of its thread: every register outside `ds` with its full/empty bit, every predicate outside `ps`, the
mode register, the priority class, the trap registers, the budgets. -/
structure Kept (x y : Thread) (ds ps : List Nat) : Prop where
  regs : ∀ r, r ∉ ds → y.reg r = x.reg r ∧ y.full r = x.full r
  preds : ∀ n, n ∉ ps → y.pred n = x.pred n ∧ y.pending n = x.pending n
  mode : y.mode = x.mode
  cls : y.cls = x.cls
  traps : y.trapkind = x.trapkind ∧ y.trappc = x.trappc ∧ y.trapinfo = x.trapinfo ∧ y.shadow = x.shadow
  budget : y.budget = x.budget

/-- What an instruction leaves of a gang: every gang-uniform register outside `us` and every buffer record outside `bs` with its label, the
labels of the register tiles outside `ds` and of the predicates outside `ps`, the partition register; and the control label does not narrow
(R274, R276). -/
structure GangKept (x y : Gang) (ds ps us bs : List Nat) : Prop where
  sregs : ∀ r, r ∉ us → y.sreg r = x.sreg r ∧ y.sregLabel r = x.sregLabel r
  records : ∀ r, r ∉ bs → tabGetD 0 y.brecs r = tabGetD 0 x.brecs r ∧ tabGetD 0 y.blabel r = tabGetD 0 x.blabel r
  tiles : ∀ r, r ∉ ds → y.tileLabel r = x.tileLabel r
  preds : ∀ n, n ∉ ps → y.predLabel n = x.predLabel n
  control : ∀ i, x.ctl.getLsbD i = true → y.ctl.getLsbD i = true
  part : y.part = x.part

/-- The frame of an instruction that stores nothing at issue: the thread, the threads outside the group, every gang, every byte of
memory. -/
structure Untouched (s s' : State) (t : Nat) (ds ps us bs : List Nat) : Prop where
  thread : Kept (s.thread t) (s'.thread t) ds ps
  threads : ∀ u, u ∉ s.group → (s'.thread u).pc = (s.thread u).pc ∧ Kept (s.thread u) (s'.thread u) [] []
  gangs : ∀ g, GangKept (s.gang g) (s'.gang g) ds ps us bs
  memory : ∀ a, s'.mem.get a = s.mem.get a

/-- The label of a result that an access writes back (R273, R274): its register tiles take it in place of their label where the access still
replaces it, and united with it else; its gang-uniform registers take it. -/
def LandLabel (s s' : State) (a : Access) (ty : Ty) (l : Label) : Prop :=
  (∀ r ∈ resultRegs ty a.f.d, r < 255 → (s'.gang (gangOf a.thread)).tileLabel r =
    if a.replaces then l else (s.gang (gangOf a.thread)).tileLabel r ||| l) ∧
  ∀ r ∈ resultUnis ty a.f.d, r < 127 → (s'.gang (gangOf a.thread)).sregLabel r = l

/-- No further access is in flight. -/
def Unsent (s s' : State) : Prop := ∀ e ∈ s'.accesses, e ∈ s.accesses

/-- The labels of an instruction's results (R131, R273, R274). A register tile of `rs` takes the label of every executing thread of its gang:
a gang written whole replaces its label, any other write unites. The gang-uniform registers of `us` and the predicates of `ps` take the
label of an executing thread, and a predicate's joins the control label. -/
structure Labelled (s s' : State) (op : Nat) (f : Fields) (preds regs : List Nat) (t : Nat) (rs us ps : List Nat) (l : Nat → Label) :
    Prop where
  tiles : ∀ r ∈ rs, r < 255 → Label.subset (l t) ((s'.gang (gangOf t)).tileLabel r) = true
  origins : ∀ r ∈ rs, r < 255 → ∀ i, ((s'.gang (gangOf t)).tileLabel r).getLsbD i = true →
    ((s.gang (gangOf t)).tileLabel r).getLsbD i = true ∨ ∃ u ∈ s.group, gangOf u = gangOf t ∧ guardTrue s u f = true ∧ (l u).getLsbD i = true
  replaced : (∀ u ∈ s.threadsOfGang (gangOf t), Executes s op f preds regs u) → ∀ r ∈ rs, r < 255 → ∀ i,
    ((s'.gang (gangOf t)).tileLabel r).getLsbD i = true → ∃ u ∈ s.group, gangOf u = gangOf t ∧ (l u).getLsbD i = true
  united : (∃ u ∈ s.threadsOfGang (gangOf t), u ∉ s.group ∨ (s.thread u).sched = .exited ∨ guardTrue s u f = false) → ∀ r ∈ rs, r < 255 →
    Label.subset ((s.gang (gangOf t)).tileLabel r) ((s'.gang (gangOf t)).tileLabel r) = true
  unis : ∀ r ∈ us, r < 127 → ∃ u ∈ s.group, gangOf u = gangOf t ∧ guardTrue s u f = true ∧ (s'.gang (gangOf t)).sregLabel r = l u
  preds : ∀ n ∈ ps, n < 7 → (∃ u ∈ s.group, gangOf u = gangOf t ∧ guardTrue s u f = true ∧ (s'.gang (gangOf t)).predLabel n = l u) ∧
    Label.subset (l t) (s'.gang (gangOf t)).ctl = true

/-- Thread t is the whole latched group. -/
structure Alone (s : State) (op : Nat) (f : Fields) (preds regs : List Nat) (t : Nat) : Prop extends Issues s op f preds regs t where
  alone : s.group = [t]

/-- What one instruction leaves of the gangs and of memory when it writes no gang-uniform register, no record and no byte, and no predicate
outside `ps` and no register outside `ds`. -/
structure Others (s s' : State) (ps : List Nat := []) (ds : List Nat := []) : Prop where
  gangs : ∀ g, GangKept (s.gang g) (s'.gang g) ds ps [] []
  memory : ∀ a, s'.mem.get a = s.mem.get a

/-- The result of a form in its destination: that of the thread, or in a gang-uniform register that of one of the gang's executing
threads (R85). -/
def ResultIn (s s' : State) (f : Fields) (t : Nat) (ty : Ty) (value : Nat → DWord) : Prop :=
  ∃ u ∈ s.group, gangOf u = gangOf t ∧ guardTrue s u f = true ∧ (isUni f.d = false → u = t) ∧ ResultTy s' t ty f.d (value u)

/-- Predicate n of a thread has a value and is not pending; pt discards (R86, R292). -/
def PredIs (s' : State) (t n : Nat) (b : Bool) : Prop := n < 7 → (s'.thread t).pred n = b ∧ (s'.thread t).pending n = false

/-- The predicate of a class-10 destination field. -/
def PredIn (s' : State) (t : Nat) (d : Opnd) (b : Bool) : Prop :=
  match d with
  | .k n => PredIs s' t (n.toNat - 64) b
  | _ => True

/-- An access leaves for its own event, which may come from the end of the clk on: it takes the next number with the issue's serial, and
every other access stays. -/
def Sends (s s' : State) (t : Nat) (a : Access) : Prop :=
  (∃ r m, tabGet s'.accesses s.nextId = some { a with group := s.issue.serial, replaces := r, readies := m, born := (s.thread t).issued + 1, due := s.clkOf t + 5 }) ∧
    ∀ id, id ≠ s.nextId → tabGet s'.accesses id = tabGet s.accesses id

/-- A trap taken by one thread: kind, return address, detail, the handler's address, p0 to p6 saved, and the mark of the handler
(R396, R404, R405). -/
structure Trapped (s s' : State) (t kind : Nat) (ret : Pc) (info : Word) (handler : Pc) : Prop where
  kind : (s'.thread t).trapkind = BitVec.ofNat 32 kind
  ret : (s'.thread t).trappc = ret
  info : (s'.thread t).trapinfo = info
  shadow : (s'.thread t).shadow = (s.thread t).preds
  inTrap : (s'.thread t).inTrap = true
  pc : (s'.thread t).pc = handler
  ready : (s'.thread t).sched = .ready
  regs : ∀ r, (s'.thread t).reg r = (s.thread t).reg r ∧ (s'.thread t).full r = (s.thread t).full r
  others : Others s s'

/-- A live gang arrives whole at an instruction that is held for it: the latched group is every launched lane that has not exited, each
executes, ready or held by the builder, and each stands at the instruction. -/
structure GangArrives (s : State) (op : Nat) (f : Fields) (preds : List Nat) (g : Nat) : Prop where
  lanes : (s.gang g).lanes ≤ 32
  group : s.group = (s.threadsOfGang g).filter (fun t => (s.thread t).sched != .exited)
  nonempty : s.group ≠ []
  issues : ∀ t ∈ s.group, Executes s op f preds [] t ∧ (s.thread t).pc = s.pc

/-- An access that nothing stands before, in bounds, whose element lies in one sector of a present page that is plain memory and allows
it, and whose sector access carries no other lane's element (R234, R236). A checked launch's record finds room in the queue (R400). -/
structure LandsOn (s : State) (id : Nat) (a : Access) (need : Need) (pick : Pick) (p : Piece) (pa : Nat) : Prop where
  access : tabGet s.accesses id = some a
  enabled : enabled s id a = true
  inside : pastMemory s a = false
  bounds : a.oob = false
  fresh : a.got = []
  alone : s.mates id a (a.sector pick) = [id]
  room : raceOn s a = true → s.sfqFull (s.coreOf a.thread) = false
  page : reach s (s.coreOf a.thread) (s.partOf a.thread) a.addr a.width (a.via pick) need = .ok [p]
  home : p.home = .phys pa
  width : p.n = a.width

end Sys2Proof.Machine
end

