-- ==== Sys2Proof/Certificates/Slice0/Obligations.lean ====
section
/-! DEFINITION. The statements for the provers: what instructions and the machine do, taken from the spec's numbered rules. -/

namespace Sys2Proof.Machine

/-! Forms whose effect is one result in the destination field. -/

/-- A form, the width of its result, the result as the spec computes it from the sources of a thread, and its label: label(t), with what the
form reads besides (R273). `preds` are predicates that the form reads besides its operand fields. -/
structure ResultForm where
  instr : Fields → Instr
  op : Nat
  ty : Fields → Ty := fun _ => .b32
  preds : List Nat := []
  value : Fields → State → Nat → DWord
  label : Fields → State → Nat → Label := fun f s => labelOf s op f

/-- The form completes for every thread that issues: the next state holds the result of the thread, or in a gang-uniform destination
the result of one of the gang's executing threads (R85), under its label (R274); the thread stands at the next instruction; its other
registers and predicates, the threads outside the group, every other label, every gang's own registers and memory are left, no control label
narrows, and no access leaves. -/
def ResultForm.Completes (x : ResultForm) : Prop :=
  ∀ f s t, Issues s x.op f x.preds [] t → ∃ s', exec (x.instr f) s = .next s' ∧
    (∃ u ∈ s.group, gangOf u = gangOf t ∧ guardTrue s u f = true ∧ (isUni f.d = false → u = t) ∧
      ResultTy s' t (x.ty f) f.d (x.value f s u)) ∧
    Labelled s s' x.op f x.preds [] t (resultRegs (x.ty f) f.d) (resultUnis (x.ty f) f.d) [] (x.label f s) ∧
    (s'.thread t).pc = nextPc s.pc ∧
    Untouched s s' t (resultRegs (x.ty f) f.d) [] (resultUnis (x.ty f) f.d) [] ∧ Unsent s s'

/-- A source as an integer of the instruction's type, as bits of it, and as a 32-bit word. -/
def srcInt (f : Fields) (s : State) (t : Nat) (o : Opnd) : Int := readInt s t f.ty o
def srcBits (f : Fields) (s : State) (t : Nat) (o : Opnd) : DWord := readTy s t f.ty o
def srcNat (f : Fields) (s : State) (t : Nat) (o : Opnd) : Nat := (readTy s t f.ty o).toNat

/-- R142, R149, R151: sums, products, extremes, each exact and then clamped or wrapped. -/
def arithmeticForms : List ResultForm := [
  { instr := .iadd, op := 0x040, ty := Fields.ty,
    value := fun f s t => narrow f.ty (f.bit 0) (srcInt f s t f.a + srcInt f s t f.b) },
  { instr := .isub, op := 0x041, ty := Fields.ty,
    value := fun f s t => narrow f.ty (f.bit 0) (srcInt f s t f.a - srcInt f s t f.b) },
  { instr := .imul, op := 0x044, ty := Fields.ty, value := fun f s t => narrow f.ty false (srcInt f s t f.a * srcInt f s t f.b) },
  { instr := .imulh, op := 0x045, ty := Fields.ty,
    value := fun f s t => narrow f.ty false (srcInt f s t f.a * srcInt f s t f.b / 2 ^ tyBits f.ty) },
  { instr := .imad, op := 0x046, ty := Fields.ty,
    value := fun f s t => narrow f.ty (f.bit 0) (srcInt f s t f.a * srcInt f s t f.b + srcInt f s t f.c) },
  { instr := .imin, op := 0x047, ty := Fields.ty,
    value := fun f s t => narrow f.ty false (min (srcInt f s t f.a) (srcInt f s t f.b)) },
  { instr := .imax, op := 0x048, ty := Fields.ty,
    value := fun f s t => narrow f.ty false (max (srcInt f s t f.a) (srcInt f s t f.b)) },
  { instr := .iabs, op := 0x049, ty := Fields.ty, value := fun f s t => narrow f.ty (f.bit 0) |srcInt f s t f.a| },
  { instr := .bdot, op := 0x05A, ty := Fields.ty,
    value := fun f s t => narrow f.ty (f.bit 2) (srcInt f s t f.c +
      byteInt (f.bit 0) (read32 s t f.a).toNat 0 * byteInt (f.bit 1) (read32 s t f.b).toNat 0 +
      byteInt (f.bit 0) (read32 s t f.a).toNat 1 * byteInt (f.bit 1) (read32 s t f.b).toNat 1 +
      byteInt (f.bit 0) (read32 s t f.a).toNat 2 * byteInt (f.bit 1) (read32 s t f.b).toNat 2 +
      byteInt (f.bit 0) (read32 s t f.a).toNat 3 * byteInt (f.bit 1) (read32 s t f.b).toNat 3) },
  { instr := .bsad, op := 0x05B, ty := Fields.ty,
    value := fun f s t => narrow f.ty (f.bit 0) (srcInt f s t f.c +
      |byteInt false (read32 s t f.a).toNat 0 - byteInt false (read32 s t f.b).toNat 0| +
      |byteInt false (read32 s t f.a).toNat 1 - byteInt false (read32 s t f.b).toNat 1| +
      |byteInt false (read32 s t f.a).toNat 2 - byteInt false (read32 s t f.b).toNat 2| +
      |byteInt false (read32 s t f.a).toNat 3 - byteInt false (read32 s t f.b).toNat 3|) },
  { instr := .sel, op := 0x05D, ty := Fields.ty,
    value := fun f s t => if readPred s t f.c then srcBits f s t f.a else srcBits f s t f.b },
  { instr := .lea, op := 0x05E, ty := Fields.ty,
    value := fun f s t => narrow f.ty false (srcInt f s t f.a +
      (if f.ty = .s64 then (read32 s t f.b).toInt else (read32 s t f.b).toNat) * 2 ^ f.bits 0 5) }]

/-- R144 to R148: logic, shifts, fields, counts and bytes. -/
def bitForms : List ResultForm := [
  { instr := .band, op := 0x04A, ty := Fields.ty, value := fun f s t => srcBits f s t f.a &&& srcBits f s t f.b },
  { instr := .bor, op := 0x04B, ty := Fields.ty, value := fun f s t => srcBits f s t f.a ||| srcBits f s t f.b },
  { instr := .bxor, op := 0x04C, ty := Fields.ty, value := fun f s t => srcBits f s t f.a ^^^ srcBits f s t f.b },
  { instr := .bnot, op := 0x04D, ty := Fields.ty, value := fun f s t => ~~~(srcBits f s t f.a) },
  { instr := .logt, op := 0x04E, ty := Fields.ty,
    value := fun f s t => logt (f.bits 0 8) (srcBits f s t f.a) (srcBits f s t f.b) (srcBits f s t f.c) },
  { instr := .shl, op := 0x04F, ty := Fields.ty,
    value := fun f s t => BitVec.ofNat 64 (srcNat f s t f.a * 2 ^ min (read32 s t f.b).toNat (tyBits f.ty) % 2 ^ tyBits f.ty) },
  { instr := .shr, op := 0x050, ty := Fields.ty,
    value := fun f s t => BitVec.ofNat 64 (srcNat f s t f.a / 2 ^ min (read32 s t f.b).toNat (tyBits f.ty)) },
  { instr := .sar, op := 0x051, ty := Fields.ty,
    value := fun f s t => narrow f.ty false (srcInt f s t f.a / 2 ^ min (read32 s t f.b).toNat (tyBits f.ty)) },
  { instr := .dsh, op := 0x052,
    value := fun f s t => (funnel (f.bit 0) (f.bit 1) (read64 s t f.a) (read32 s t f.b).toNat).setWidth 64 },
  { instr := .bfe, op := 0x053, ty := Fields.ty,
    value := fun f s t => narrow f.ty false (bfe f.ty (srcBits f s t f.a) (read32 s t f.b)) },
  { instr := .bfi, op := 0x054, ty := Fields.ty,
    value := fun f s t => bfi (tyBits f.ty) (srcNat f s t f.a) (read32 s t f.b) (srcBits f s t f.c) },
  { instr := .maskB, op := 0x055, value := fun f s t => (maskOf (f.bit 0) (read32 s t f.a)).setWidth 64 },
  { instr := .popc, op := 0x056, value := fun f s t => BitVec.ofNat 64 (popcount (tyBits f.ty) (srcNat f s t f.a)) },
  { instr := .clz, op := 0x057, value := fun f s t => BitVec.ofNat 64 (leadingZeros (tyBits f.ty) (srcNat f s t f.a)) },
  { instr := .brev, op := 0x058, ty := Fields.ty,
    value := fun f s t => BitVec.ofNat 64 (reverseBits (tyBits f.ty) (srcNat f s t f.a)) },
  { instr := .bswz, op := 0x059, value := fun f s t => (bswz (read32 s t f.a) (read32 s t f.b) (read32 s t f.c)).setWidth 64 }]

/-- R154 to R156: moves and constants. -/
def moveForms : List ResultForm := [
  { instr := .mov, op := 0x080, ty := Fields.ty, value := fun f s t => srcBits f s t f.a },
  { instr := .movh, op := 0x081, value := fun f _ _ => BitVec.ofNat 64 (f.mod.toNat * 2 ^ 12) },
  { instr := .addi, op := 0x082, ty := fun f => if f.ty = .none then .n64 else .b32,
    value := fun f s t => if f.ty = .none then wrap64 ((read64 s t f.a).toInt + f.imm12)
      else (wrap32 ((read32 s t f.a).toInt + f.imm12)).setWidth 64 },
  { instr := .movx, op := 0x083, ty := fun _ => .n64, value := fun f _ _ => BitVec.ofNat 64 (f.imm16.toNat * 2 ^ 32) },
  { instr := .p2v, op := 0x088, preds := [0, 1, 2, 3, 4, 5, 6],
    value := fun _ s t => BitVec.ofNat 64 ((s.thread t).preds.toNat % 128)
    label := fun f s t => (List.range 7).foldl (fun l n => l ||| (s.gang (gangOf t)).predLabel n) (labelOf s 0x088 f t) }]

/-- A floating result as the bits of a register. -/
def floatBits (r : FOut) : DWord := BitVec.ofNat 64 r.bits

/-- The format of the instruction, the rounding mode of a thread, and its sources as values (R95, R191, R193). -/
def fmtI (f : Fields) : Fmt := fieldFmt f
def valA (f : Fields) (s : State) (t : Nat) : FVal := (fmtI f).decode (readF s t (fmtI f) f.a)
def valB (f : Fields) (s : State) (t : Nat) : FVal := (fmtI f).decode (readF s t (fmtI f) f.b)
def valC (f : Fields) (s : State) (t : Nat) : FVal := (fmtI f).decode (readF s t (fmtI f) f.c)

/-- The same in half h of a packed pair (R201). -/
def halfA (f : Fields) (s : State) (t h : Nat) : FVal := (fmtI f).decode (readHalf s t (fmtI f) f.a h)
def halfB (f : Fields) (s : State) (t h : Nat) : FVal := (fmtI f).decode (readHalf s t (fmtI f) f.b h)
def halfC (f : Fields) (s : State) (t h : Nat) : FVal := (fmtI f).decode (readHalf s t (fmtI f) f.c h)

/-- A packed result from its two halves (R201). -/
def packed (g : Nat → FOut) : DWord := (pack (g 1).bits (g 0).bits).setWidth 64

/-- R194 to R199: scalar floating point, each result rounded once. -/
def scalarForms : List ResultForm := [
  { instr := .fadd, op := 0x100, value := fun f s t => floatBits ((fmtI f).sum (rm s t f) [valA f s t, valB f s t]) },
  { instr := .fsub, op := 0x101, value := fun f s t => floatBits ((fmtI f).sum (rm s t f) [valA f s t, (valB f s t).negate]) },
  { instr := .fmul, op := 0x102, value := fun f s t => floatBits ((fmtI f).encode (rm s t f) (fprod (valA f s t) (valB f s t))) },
  { instr := .ffma, op := 0x103,
    value := fun f s t => floatBits ((fmtI f).sum (rm s t f) [fprod (valA f s t) (valB f s t), valC f s t]) },
  { instr := .fmin, op := 0x104,
    value := fun f s t => BitVec.ofNat 64 ((fmtI f).minmax false (readF s t (fmtI f) f.a) (readF s t (fmtI f) f.b)) },
  { instr := .fmax, op := 0x105,
    value := fun f s t => BitVec.ofNat 64 ((fmtI f).minmax true (readF s t (fmtI f) f.a) (readF s t (fmtI f) f.b)) },
  { instr := .fneg, op := 0x106,
    value := fun f s t =>
      let x := readF s t (fmtI f) f.a
      BitVec.ofNat 64 (if (valA f s t).isNan then (fmtI f).nanBits else
        if (fmtI f).signBit ≤ x then x - (fmtI f).signBit else x + (fmtI f).signBit) },
  { instr := .fabs, op := 0x107,
    value := fun f s t => BitVec.ofNat 64 (if (valA f s t).isNan then (fmtI f).nanBits else readF s t (fmtI f) f.a % (fmtI f).signBit) },
  { instr := .fscale, op := 0x108, value := fun f s t => floatBits ((fmtI f).scale (rm s t f) (valA f s t) (read32 s t f.b).toInt) },
  { instr := .fclass, op := 0x10A, value := fun f s t => BitVec.ofNat 64 ((fmtI f).classify (readF s t (fmtI f) f.a)) },
  { instr := .frnd, op := 0x10B, value := fun f s t => floatBits ((fmtI f).toIntegral (rm s t f) (valA f s t)) }]

/-- R201: packed floating point, half by half. -/
def packedForms : List ResultForm := [
  { instr := .hfma2, op := 0x140,
    value := fun f s t => packed (fun h => (fmtI f).sum (rm s t f) [fprod (halfA f s t h) (halfB f s t h), halfC f s t h]) },
  { instr := .hadd2, op := 0x141, value := fun f s t => packed (fun h => (fmtI f).sum (rm s t f) [halfA f s t h, halfB f s t h]) },
  { instr := .hsub2, op := 0x142,
    value := fun f s t => packed (fun h => (fmtI f).sum (rm s t f) [halfA f s t h, (halfB f s t h).negate]) },
  { instr := .hmul2, op := 0x143,
    value := fun f s t => packed (fun h => (fmtI f).encode (rm s t f) (fprod (halfA f s t h) (halfB f s t h))) },
  { instr := .hmin2, op := 0x144,
    value := fun f s t => packed (fun h =>
      quiet ((fmtI f).minmax false (readHalf s t (fmtI f) f.a h) (readHalf s t (fmtI f) f.b h))) },
  { instr := .hmax2, op := 0x145,
    value := fun f s t => packed (fun h =>
      quiet ((fmtI f).minmax true (readHalf s t (fmtI f) f.a h) (readHalf s t (fmtI f) f.b h))) },
  { instr := .hneg2, op := 0x146,
    value := fun f s t => packed (fun h =>
      let x := readHalf s t (fmtI f) f.a h
      quiet (if (halfA f s t h).isNan then (fmtI f).nanBits else
        if (fmtI f).signBit ≤ x then x - (fmtI f).signBit else x + (fmtI f).signBit)) },
  { instr := .habs2, op := 0x147,
    value := fun f s t => packed (fun h =>
      quiet (if (halfA f s t h).isNan then (fmtI f).nanBits else readHalf s t (fmtI f) f.a h % (fmtI f).signBit)) }]

/-- R205 to R207: conversion and packing. -/
def convertForms : List ResultForm := [
  { instr := .cvt, op := 0x180, ty := Fields.ty,
    value := fun f s t => match fmtOf f.ty with
      | some F => floatBits (cvtToFloat F (f.bit 0) (rm s t f) (cvtSource s t f))
      | none => placeInt f.ty (cvtToInt f.ty (f.bit 0) (rm s t f) (cvtSource s t f)) },
  { instr := .pack2, op := 0x181,
    value := fun f s t =>
      let half (o : Opnd) : FOut := cvtToFloat (fmtI f) (f.bit 0) (rm s t f) (.flt (fmtF32.decode (readF s t fmtF32 o)))
      (pack (half f.b).bits (half f.a).bits).setWidth 64 }]

/-! Predicates. -/

/-- A form whose effect is one predicate in the destination field. -/
structure PredForm where
  instr : Fields → Instr
  op : Nat
  value : Fields → State → Nat → Bool
  label : Fields → State → Nat → Label := fun f s => labelOf s op f

/-- The form completes for every thread that issues: its predicate under its label, which joins the control label (R131), and the next
instruction; its registers and other predicates, the threads outside the group, every other label, every gang's own registers and memory are
left, no control label narrows, and no access leaves. -/
def PredForm.Completes (x : PredForm) : Prop :=
  ∀ f s t, Issues s x.op f [] [] t → ∃ s', exec (x.instr f) s = .next s' ∧ PredIn s' t f.d (x.value f s t) ∧
    Labelled s s' x.op f [] [] t [] [] (resultPreds f.d) (x.label f s) ∧
    (s'.thread t).pc = nextPc s.pc ∧ Untouched s s' t [] (resultPreds f.d) [] [] ∧ Unsent s s'

/-- R150, R156, R197, R343, R416: comparisons with their combination, predicate logic, the test of a ticket and of a label. -/
def predForms : List PredForm := [
  { instr := .isetp, op := 0x05C,
    value := fun f s t => combine (f.bits 3 2) (compareInt (f.bits 0 3) (srcInt f s t f.a) (srcInt f s t f.b)) (readPred s t f.c) },
  { instr := .fsetp, op := 0x109,
    value := fun f s t => combine (f.bits 3 2) (fcompare (f.bits 0 3) (valA f s t) (valB f s t)) (readPred s t f.c) },
  { instr := .pand, op := 0x084, value := fun f s t => (readPred s t f.a != f.bit 0) && (readPred s t f.b != f.bit 1) },
  { instr := .por, op := 0x085, value := fun f s t => (readPred s t f.a != f.bit 0) || (readPred s t f.b != f.bit 1) },
  { instr := .pxor, op := 0x086, value := fun f s t => (readPred s t f.a != f.bit 0) != (readPred s t f.b != f.bit 1) },
  { instr := .pnot, op := 0x087, value := fun f s t => !(readPred s t f.a != f.bit 0) },
  { instr := .mpoll, op := 0x305, value := fun f s t => !outstanding s t (read32 s t f.a) },
  { instr := .lbltst, op := 0x381, value := fun f s t => Label.subset (testedLabel s f t) ((read32 s t f.b).setWidth 16)
    label := fun f s t => labelOf s 0x381 f t ||| testedLabel s f t }]

/-- Carry-in of IADDC and ISUBC: a predicate, or 0 for vz (R143). -/
def carryIn (f : Fields) (s : State) (t : Nat) : Int := if readPred s t f.c then 1 else 0

/-- The exact sum of IADDC and the exact difference of ISUBC (R143). -/
def sumOf (f : Fields) (s : State) (t : Nat) : Int := ((read32 s t f.a).toNat : Int) + (read32 s t f.b).toNat + carryIn f s t
def differenceOf (f : Fields) (s : State) (t : Nat) : Int := ((read32 s t f.a).toNat : Int) - (read32 s t f.b).toNat - carryIn f s t

/-! Control. -/

/-- A branch form: its opcode, whether its target is the pair of A, and whether it writes a link. -/
structure BranchForm where
  instr : Fields → Instr
  op : Nat
  indirect : Bool
  links : Bool

def branchForms : List BranchForm := [
  { instr := .bra, op := 0x001, indirect := false, links := false },
  { instr := .brx, op := 0x002, indirect := true, links := false },
  { instr := .call, op := 0x003, indirect := false, links := true },
  { instr := .callx, op := 0x004, indirect := true, links := true },
  { instr := .ret, op := 0x005, indirect := true, links := false }]

/-- The exact target (R135). -/
def BranchForm.target (x : BranchForm) (f : Fields) (s : State) (t : Nat) : Int :=
  if x.indirect then ((read64 s t f.a).toNat : Int) else (s.pc.toNat : Int) + 12 * f.imm20

/-- A target that the address space holds on a 4-byte boundary (R81, R135). -/
def goodTarget (x : Int) : Prop := 0 ≤ x ∧ x < 2 ^ 48 ∧ x % 4 = 0

/-- The link registers. -/
def BranchForm.linkRegs (x : BranchForm) (f : Fields) : List Nat := if x.links then resultRegs .n64 f.d else []

/-! Special registers (R87). -/

/-- A register that the table Special Registers lists, its number and its value for a thread. -/
def specialTable : List (Nat × (State → Nat → Word)) := [
  (128, fun _ t => BitVec.ofNat 32 (t % 32)),
  (129, fun _ t => BitVec.ofNat 32 (t / 32 % 32)),
  (130, fun s t => BitVec.ofNat 32 (s.unit (t / 1024)).gangs),
  (131, fun s t => BitVec.ofNat 32 (s.unit (t / 1024)).unitid),
  (132, fun s t => BitVec.ofNat 32 ((s.launch (s.unit (t / 1024)).launch).units - 1)),
  (133, fun s t => BitVec.ofNat 32 (s.coreOf t % 5)),
  (134, fun s t => BitVec.ofNat 32 (s.unit (t / 1024)).cluster),
  (135, fun s t => BitVec.ofNat 32 ((s.unit (t / 1024)).slice - (s.part (s.unit (t / 1024)).part).first)),
  (136, fun s t => BitVec.ofNat 32 (s.unit (t / 1024)).part),
  (137, fun s t => BitVec.ofNat 32 (s.unit (t / 1024)).regs),
  (144, fun s t => BitVec.ofNat 32 (s.clk (s.unit (t / 1024)).slice)),
  (145, fun s t => BitVec.ofNat 32 (s.clk (s.unit (t / 1024)).slice / 2 ^ 32)),
  (146, fun s _ => BitVec.ofNat 32 (s.time / 12)),
  (147, fun s _ => BitVec.ofNat 32 (s.time / 12 / 2 ^ 32)),
  (152, fun s t => (s.thread t).mode),
  (153, fun s t => ((s.gang (t / 32)).seenPart (s.clkOf t)).setWidth 32),
  (154, fun s t => BitVec.ofNat 32 (s.thread t).cls),
  (160, fun _ _ => BitVec.ofNat 32 Config.encHash.toNat),
  (161, fun _ _ => BitVec.ofNat 32 (Config.encHash.toNat / 2 ^ 32)),
  (224, fun s t => (s.thread t).trapkind),
  (225, fun s t => (s.thread t).trappc.setWidth 32),
  (226, fun s t => ((s.thread t).trappc >>> 32).setWidth 32),
  (227, fun s t => (s.thread t).trapinfo)]

/-! Collectives. -/

/-- The lanes of a thread's member set that are present when the whole live gang executes: in its tile, in its mask or its own,
and not exited (R163). -/
def membersOf (f : Fields) (s : State) (t : Nat) : List Nat :=
  (List.range 32).filter (fun l => tileBase s (gangOf t) (laneOf t) ≤ l && l < tileBase s (gangOf t) (laneOf t) + tileWidth s (gangOf t) &&
    ((maskRead s f t).testBit l || l == laneOf t) && s.group.contains (threadAt (gangOf t) l))

/-- A's value in a lane of the thread's gang. -/
def laneInt (f : Fields) (s : State) (t l : Nat) : Int := srcInt f s (threadAt (gangOf t) l) f.a
def laneBits (f : Fields) (s : State) (t l : Nat) : DWord := srcBits f s (threadAt (gangOf t) l) f.a
def laneF32 (f : Fields) (s : State) (t l : Nat) : Nat := readF s (threadAt (gangOf t) l) fmtF32 f.a
def laneTrue (o : Opnd) (s : State) (t l : Nat) : Bool := readPred s (threadAt (gangOf t) l) o

/-- The lane that a shuffle reads: the lane named, where it is a present member; else none (R164). -/
def shuffleLane (k : Shfl) (f : Fields) (s : State) (t : Nat) : Option Nat :=
  match shflSource k (f.bit 4) (tileWidth s (gangOf t)) (tileBase s (gangOf t) (laneOf t)) (laneOf t) (read32 s t f.b) with
  | some l => if (membersOf f s t).contains l then some l else none
  | none => none

def shuffleForms : List ((Fields → Instr) × Nat × Shfl) := [
  (.shflIdx, 0x0C0, .idx), (.shflRot, 0x0C1, .rot), (.shflXor, 0x0C2, .xor), (.shflRev, 0x0C3, .rev)]

/-- R165, R168: a predicate of every member. -/
def voteForms : List ((Fields → Instr) × Nat × (Fields → State → Nat → Bool)) := [
  (.voteAll, 0x0C4, fun f s t =>
    (memberLanes s f t).all (fun l => (membersOf f s t).contains l && laneTrue f.a s t l)),
  (.voteAny, 0x0C5, fun f s t => (membersOf f s t).any (laneTrue f.a s t)),
  (.elect, 0x0CC, fun f s t => (membersOf f s t).head? == some (laneOf t))]

/-- A mask of lanes. -/
def maskOfLanes (ls : List Nat) : DWord := BitVec.ofNat 64 ((ls.map (fun l => 2 ^ l)).sum)

/-- The sum of lanes: exact and wrapped, or rounded once (R166, R167). -/
def sumOfLanes (f : Fields) (s : State) (t : Nat) (ls : List Nat) : DWord :=
  if f.ty = .f32 then floatBits (fmtF32.sum (rm s t f) (ls.map (fun l => fmtF32.decode (laneF32 f s t l))))
  else narrow f.ty false ((ls.map (laneInt f s t)).sum)

/-- The lanes of SCANG's running sum at a thread: the members up to it, from the last segment start (R167). -/
def scanLanes (f : Fields) (s : State) (t : Nat) : List Nat :=
  let ls := (membersOf f s t).filter (fun l => l ≤ laneOf t)
  match (ls.filter (laneTrue f.b s t)).getLast? with
  | some b => ls.filter (fun l => b ≤ l)
  | none => ls

/-- R165 to R168: a register of every member. -/
def gangForms : List ((Fields → Instr) × Nat × (Fields → Ty) × (Fields → State → Nat → DWord)) := [
  (.voteBallot, 0x0C6, fun _ => .b32, fun f s t => maskOfLanes ((membersOf f s t).filter (laneTrue f.a s t))),
  (.redgAdd, 0x0C7, Fields.ty, fun f s t => sumOfLanes f s t (membersOf f s t)),
  (.redgMin, 0x0C8, Fields.ty, fun f s t =>
    if f.ty = .f32 then BitVec.ofNat 64 ((membersOf f s t).foldl (fun k l => fmtF32.minmax false k (laneF32 f s t l)) fmtF32.nanBits)
    else narrow f.ty false (((membersOf f s t).map (laneInt f s t)).min?.getD 0)),
  (.redgMax, 0x0C9, Fields.ty, fun f s t =>
    if f.ty = .f32 then BitVec.ofNat 64 ((membersOf f s t).foldl (fun k l => fmtF32.minmax true k (laneF32 f s t l)) fmtF32.nanBits)
    else narrow f.ty false (((membersOf f s t).map (laneInt f s t)).max?.getD 0)),
  (.scang, 0x0CA, Fields.ty, fun f s t => sumOfLanes f s t (scanLanes f s t)),
  (.matchG, 0x0CB, fun _ => .b32, fun f s t =>
    maskOfLanes ((membersOf f s t).filter (fun l => laneBits f s t l == laneBits f s t (laneOf t))))]

/-! Memory at issue. -/

/-- The forms that name a record and send an access. -/
def memForms : List ((Fields → Instr) × MemOp) := [
  (.ld, opLd), (.st, opSt), (.ldx, opLdx), (.stx, opStx), (.erase, opErase), (.exq, opExq),
  (.atomAdd, opAtom 0x280), (.atomMin, opAtom 0x281), (.atomMax, opAtom 0x282), (.atomAnd, opAtom 0x283), (.atomOr, opAtom 0x284),
  (.atomXor, opAtom 0x285), (.atomExch, opAtom 0x286), (.atomCas, opAtom 0x287), (.atomFadd, opAtom 0x288),
  (.redAdd, opRed 0x289), (.redMin, opRed 0x28A), (.redMax, opRed 0x28B), (.redAnd, opRed 0x28C), (.redOr, opRed 0x28D),
  (.redXor, opRed 0x28E), (.redFadd, opRed 0x28F)]

/-- Tests 1 to 3 of R289 pass, and the record queue has room for a write. -/
structure InBounds (m : MemOp) (f : Fields) (s : State) (t : Nat) : Prop where
  record : (recOf s t f.a).bad = false
  room : sfqBlocks s m t = false
  bounds : oobOf s m f t = false
  align : misaligned s m f t = false

/-- The scratchpad forms. -/
def scratchForms : List ((Fields → Instr) × SpOp) := [
  (.lds, opLds), (.sts, opSts), (.sfill, opSfill), (.sempty, opSempty),
  (.atomsAdd, opAtoms 0x290), (.atomsMin, opAtoms 0x291), (.atomsMax, opAtoms 0x292), (.atomsAnd, opAtoms 0x293),
  (.atomsOr, opAtoms 0x294), (.atomsXor, opAtoms 0x295), (.atomsExch, opAtoms 0x296), (.atomsCas, opAtoms 0x297),
  (.atomsFadd, opAtoms 0x298), (.redsAdd, opReds 0x299), (.redsMin, opReds 0x29A), (.redsMax, opReds 0x29B),
  (.redsAnd, opReds 0x29C), (.redsOr, opReds 0x29D), (.redsXor, opReds 0x29E), (.redsFadd, opReds 0x29F)]

/-- A scratchpad operand within the unit's run and aligned (R307). -/
def ScratchFits (m : SpOp) (f : Fields) (s : State) (t : Nat) : Prop :=
  0 ≤ soff s m f t ∧ soff s m f t + m.width f ≤ (s.unit (unitOfThread t)).runBytes ∧ soff s m f t % (m.width f : Int) = 0

/-- The special functions. -/
def specialForms : List ((Fields → Instr) × Nat × Fn) := [
  (.rcp, 0x182, .rcp), (.rsq, 0x183, .rsq), (.sqrt, 0x184, .sqrt), (.exp2, 0x185, .exp2), (.log2, 0x186, .log2),
  (.sin, 0x187, .sin), (.cos, 0x188, .cos), (.tanh, 0x189, .tanh)]

/-- Distinct registers, given the bytes of memory or of a scratchpad run. -/
def bytesAre (m : Memory) (a : Nat) (bs : List Byte) : Prop := m.read a bs.length = bs

/-- Bytes outside [a, a + n) are as they were. -/
def bytesElse (m m' : Memory) (a n : Nat) : Prop := ∀ b, b < a ∨ a + n ≤ b → m'.get b = m.get b

/-- The pieces of a range that begins at `a` are plain memory, byte after byte from a physical address. -/
def Along (ps : List Piece) (a pa : Nat) : Prop := ∀ p ∈ ps, p.home = .phys (pa + (p.va - a))

/-- An access of any width that nothing stands before, in bounds, on present pages that are plain memory and allow it. -/
structure LandsAlong (s : State) (id : Nat) (a : Access) (need : Need) (pick : Pick) (ps : List Piece) (pa : Nat) : Prop where
  access : tabGet s.accesses id = some a
  enabled : enabled s id a = true
  inside : pastMemory s a = false
  bounds : a.oob = false
  alone : s.mates id a (a.sector pick) = [id]
  room : raceOn s a = true → s.sfqFull (s.coreOf a.thread) = false
  pages : reach s (s.coreOf a.thread) (s.partOf a.thread) a.addr a.width (a.via pick) need = .ok ps
  plain : Along ps a.addr pa

/-- Nothing outside the threads has changed. -/
structure Still (s s' : State) : Prop where
  gangs : s'.gangs = s.gangs
  units : s'.units = s.units
  cores : s'.cores = s.cores
  clusters : s'.clusters = s.clusters
  accesses : s'.accesses = s.accesses
  copies : s'.copies = s.copies
  launches : s'.launches = s.launches
  parts : s'.parts = s.parts
  mem : s'.mem = s.mem
  outbox : s'.outbox = s.outbox
/-! Budgets and records. -/

/-- The share that BSPLIT forms of the time or the energy limit (R227). -/
def shareOf (f : Fields) (s : State) (t : Nat) : Word :=
  let b := if f.bit 0 then (s.thread t).be else (s.thread t).bt
  let k := min (read32 s t f.a).toNat 256
  if b = 0xFFFFFFFF#32 ∧ 0 < k then b else BitVec.ofNat 32 (b.toNat * k / 256)

/-- The clk of a thread's core between two times, as its clk counter shows them (R87, R218). -/
def clksBetween (s : State) (t since till : Nat) : Nat :=
  let base : Int := (s.slice (s.coreOf t / 40)).clkBase
  (((till : Int) - base) / 5 - ((since : Int) - base) / 5).toNat

/-- A number saturated at 2^32 − 1 (R227). -/
def saturated (n : Nat) : DWord := BitVec.ofNat 64 (min n (2 ^ 32 - 1))

/-- BGET and METER (R227). -/
def budgetForms : List ResultForm := [
  { instr := .bget, op := 0x1C3,
    value := fun f s t => (match f.bits 0 2 with
      | 0 => (s.thread t).bt
      | 1 => (s.thread t).be
      | _ => (s.thread t).bq).setWidth 64 },
  { instr := .meter, op := 0x1C5,
    value := fun f s t => match f.bits 0 2, (s.thread t).frames with
      | 0, fr :: _ => saturated (clksBetween s t fr.issued s.time)
      | 0, [] => saturated (clksBetween s t ((s.thread t).started.getD (s.time, (s.thread t).energy)).1 s.time)
      | 1, fr :: _ => saturated (((s.thread t).energy - fr.energy) / 65536)
      | 1, [] => saturated (((s.thread t).energy - ((s.thread t).started.getD (s.time, (s.thread t).energy)).2) / 65536)
      | _, fr :: _ => BitVec.ofNat 64 fr.index
      | _, [] => 0xFFFFFFFF }]

/-- BRGET: a pair for .BASE, else one register (R303). -/
def brgetForm : ResultForm :=
  { instr := .brget, op := 0x242, ty := fun f => if f.bits 0 3 = 0 then .n64 else .b32,
    value := fun f s t =>
      let r := recOf s t f.a
      BitVec.ofNat 64 (match f.bits 0 3 with
        | 0 => r.base
        | 1 => r.extent
        | 2 => r.stride
        | 3 => r.size
        | 4 => r.swizzle
        | _ => if r.trap then 1 else 0) }
/-! Engines, synchronisation and the system. -/

/-- The first thread of a latched group. -/
def leaderOf (s : State) : Nat := s.group.headD 0

/-- The copy forms: their opcode and whether they deliver to receivers. -/
def copyForms : List ((Fields → Instr) × Nat × Bool) := [(.copyI, 0x2C3, false), (.copym, 0x2C4, true)]

/-- A gang's slice can be supplied now: its command is new and finds room among the unit's commands, and a COPYM finds a slot at each
of its receivers; or another gang has begun the command, with the same receivers (R318, R322, R337). -/
def CopyFits (s : State) (f : Fields) (multicast : Bool) (g : Nat) : Prop :=
  (multicast = true → fifthReceiver (s.unit (unitOf g)) (descOf s f g).receivers = false) ∧
    match unitCommand s (unitOf g) ((s.gang g).copyCount + 1) with
    | none => waitingCommands s (unitOf g) < 8 ∧
        (multicast = true → ∀ r ∈ (descOf s f g).receivers, slotsLeft (s.unit (unitOf g)) r ≠ 0)
    | some e => e.2.multicast = multicast ∧
        (multicast = true → e.2.mask = (descOf s f g).mask ∧ e.2.receivers = (descOf s f g).receivers)

/-- The matrix forms. -/
def matrixForms : List ((Fields → Instr) × Nat) := [(.mma, 0x302), (.mmas, 0x303)]

/-- The tests of R342 pass, of which a thread that has waited for an entry has passed the first three; no codebook is on its way, and entry
e of the cluster's table is the lowest that is free. -/
structure MatrixFits (op : Nat) (f : Fields) (s : State) (t e : Nat) : Prop where
  shape : (s.thread t).mmaBlock = none → shapeBad s t (paramsOf s f t) = false
  records : (s.thread t).mmaBlock = none → recordBad (paramsOf s f t) (patternOf op f) (metaOf s op f t) = false
  range : (s.thread t).mmaBlock = none → rangeBad s t (paramsOf s f t) (patternOf op f) (metaOf s op f t) = false
  runs : runsBad s t (paramsOf s f t) (patternOf op f) = false
  books : (paramsOf s f t).aFmt = 3 → slotAwaited s t (paramsOf s f t).aBook = none ∧ slotAwaited s t (paramsOf s f t).bBook = none
  entry : freeEntry s (s.clusterOf t) = some e

/-- A gather's tests pass for a thread (R331). -/
structure GatherFits (f : Fields) (s : State) (t : Nat) : Prop where
  record : (recOf s t f.a).bad = false
  owner : remapMode f ≠ 0 → ownsRemap s t = true
  table : remapMode f = 3 → tableAwaited s t = none

/-- The forms that start children (R384, R385). -/
def startForms : List ((Fields → Instr) × Nat × AKind) := [(.launchI, 0x349, .launch), (.garm, 0x34A, .graph)]

/-- The records of a gang that enter its core's queue when one has left it (R400). -/
def entering (s : State) (g : Nat) : List Record :=
  ((s.core (s.coreOfGang g)).late.take (17 - (s.core (s.coreOfGang g)).sfq.length)).filter (fun r => r.gang == g)

/-- The barrier forms that arrive. -/
def arriveForms : List ((Fields → Instr) × Nat × Bool) := [(.bar, 0x341, true), (.bara, 0x342, false)]

/-! Messages. -/

/-- A whole message of a command reaches an endpoint that is enabled and does not wait (R34, R57, R64). -/
structure Heard (s : State) (c : Command) (m : Message) : Prop where
  reachable : reachable s m.ep = true
  free : mustWait s m = false
  enabled : m.toMgmt = true ∨ (s.endpoint m.ep).enabled = true
  whole : m.short = false
  command : m.command = c

/-- A sequenced command with the next number and a header that nothing refuses (R39). -/
structure InOrder (s : State) (c : Command) (m : Message) : Prop extends Heard s c m where
  number : m.hseq ≠ 0 ∧ m.hseq = nextHost (s.endpoint m.ep).lastAccepted
  header : headerRefusal s m = none

/-- An unsequenced command with a good header (R449). -/
structure Unsequenced (s : State) (c : Command) (m : Message) : Prop extends Heard s c m where
  place : m.epByte = m.ep
  number : m.hseq = 0
  header : m.reservedOk = true ∧ m.sizeOk = true ∧ payloadOk m = true
  answered : answersFreely s m = true

/-- The acknowledgement of a command, and its completion, with the endpoint's next two numbers (R38 to R40). -/
def ackOf (s : State) (m : Message) (status : Nat) : Out :=
  { blankOut 1 status with dest := m.sender, ep := m.ep, seq := (s.endpoint m.ep).nextDev, hseq := m.hseq, tag := m.tag }
def doneOf (s : State) (m : Message) (r : Reply) : Out :=
  { blankOut 2 r.status with dest := m.sender, ep := m.ep, seq := nextDevSeq (s.endpoint m.ep).nextDev, hseq := m.hseq, tag := m.tag,
                             index := r.index, detail := r.detail, payload := r.payload }

/-- The command is accepted and completes with a reply: two numbered messages, and its number is the last accepted one. -/
structure Completed (s s' : State) (m : Message) (r : Reply) : Prop where
  messages : s'.outbox = s.outbox ++ [ackOf s m stAccepted, doneOf s m r]
  accepted : (s'.endpoint m.ep).lastAccepted = m.hseq

/-- The completion of an unsequenced command, without a number. -/
def answerOf (m : Message) (r : Reply) : Out :=
  { blankOut 2 r.status with dest := m.sender, ep := m.ep, tag := m.tag, index := r.index, detail := r.detail, payload := r.payload }

/-- A message of kind 3 without a number. -/
def plainNotice (m : Message) (status tag : Nat) : Out := { blankOut 3 status with dest := m.sender, ep := m.ep, tag := tag }

/-- The sequenced commands. -/
def sequencedForms : List ((Message → Instr) × Command) := [
  (.loadObject, .loadObject), (.unloadObject, .unloadObject), (.jobOpen, .jobOpen), (.jobClose, .jobClose), (.phaseNext, .phaseNext),
  (.saveArea, .saveArea), (.resumeJob, .resumeJob), (.submit, .submit), (.cancelCmd, .cancel), (.queueConfig, .queueConfig),
  (.memWrite, .memWrite), (.memRead, .memRead), (.statusWindowRead, .statusWindowRead), (.endpointEnable, .endpointEnable),
  (.reconfigure, .reconfigure), (.bindSlot, .bindSlot), (.peer, .peer), (.policy, .policy), (.revoke, .revoke),
  (.teaselTableRead, .teaselTableRead), (.replacementImage, .replacementImage), (.configurationRecord, .configurationRecord),
  (.nonce, .nonce), (.attestationReport, .attestationReport), (.bootStatus, .bootStatus)]

/-- Every command. -/
def commandForms : List ((Message → Instr) × Command) :=
  [(.queryState, .queryState), (.replay, .replay), (.shortMessage, .short)] ++ sequencedForms

/-- The level that a status read shows: the job itself, or the newest level of the kind that the identifier names (R44). -/
def shownLevel (s : State) (m : Message) (kind ident : Nat) : Option Level :=
  match tabGet (s.endpoint m.ep).jobs m.job with
  | some j => if kind = 4 then s.levelAt j.level else (namedLevels s j kind ident).getLast?.map Prod.snd
  | none => none

/-- A hypothesis of the load: the image passes the checks of R30, and what it is placed with. -/
structure Loads (s : State) (part : Nat) (img : List Byte) (im : Image) (base : Nat) (frames : List Nat) (secs secs' : List Sec) : Prop where
  checks : checkImageBytes img = .ok im
  place : chooseBase (takenRanges s part) im.preferred im.size = some base
  free : findFrames s part (pagesOf base im.secs).length = some frames
  sites : relocate im base 0 [] im.relocs im.secs = .ok secs
  tables : bindTables im base (vtablesOf im) secs = .ok secs'

/-- The records of Teasel: their command, their form, who may sign them, and what they leave of their partition (R284, R285). -/
structure TeaselForm where
  instr : Message → Instr
  command : Command
  form : RecordForm
  allowed : State → Nat → List Byte → Bool
  leaves : Partition → Partition → List Byte → Prop

def teaselForms : List TeaselForm := [
  { instr := .bindSlot, command := .bindSlot, form := formBind, allowed := mayBind,
    leaves := fun x y r => y = { x with slots := tabPut x.slots (recordIndex r) ((r.drop 64).take 1793), serial := fieldAt r 8 8 } },
  { instr := .peer, command := .peer, form := formPeer, allowed := mayPeer,
    leaves := fun x y r => ∃ l, (∀ i, l.getLsbD i = ((((tabGet x.peers (recordIndex r)).map Peer.mask).getD 0).getLsbD i ||
        decide (i = fieldAt r 80 1))) ∧
      y = { x with peers := tabPut x.peers (recordIndex r) { addr := BitVec.ofNat 128 (fieldAt r 64 16), mask := l },
                   serial := fieldAt r 8 8 } },
  { instr := .policy, command := .policy, form := formPolicy, allowed := mayPolicy,
    leaves := fun x y r => ∃ z : Policy, y = { x with serial := fieldAt r 8 8, policies := tabPut x.policies (recordIndex r) z } ∧
      z = { mask := BitVec.ofNat 16 (fieldAt r 64 2), peers := fieldAt r 66 8, base := fieldAt r 74 8, length := fieldAt r 82 8,
            cap := fieldAt r 90 8, count := 0 } },
  { instr := .revoke, command := .revoke, form := formRevoke, allowed := mayRevoke,
    leaves := fun x y r => (fieldAt r 64 1 = 1 → tabGet y.policies (recordIndex r) = none) ∧
      (fieldAt r 64 1 = 2 → ∀ e, tabGet x.peers (recordIndex r) = some e →
        match tabGet y.peers (recordIndex r) with
        | none => ∀ i, i ≠ fieldAt r 65 1 → e.mask.getLsbD i = false
        | some e' => e'.addr = e.addr ∧ ∀ i, e'.mask.getLsbD i = (e.mask.getLsbD i && i != fieldAt r 65 1)) ∧ y.serial = fieldAt r 8 8 }]

/-! The request ring, queue heads and units. -/

/-- The record at the head of a ring is refused with a reason: its slot's status is 2, and the head passes it (R242). -/
def RequestRefused (s' : State) (p : Nat) (x : Partition) (reason : Nat) : Prop :=
  Memory.read (s'.part p).ring (slotOffset x.ringSlot + 2) 2 = [2#8, BitVec.ofNat 8 reason] ∧
    (s'.part p).head = (x.head + 1) % 2 ^ 32 ∧ (s'.part p).ringSlot = (x.ringSlot + 1) % 2047

/-- The record at the head of a ring is to be taken and passes its checks. -/
structure RequestTaken (s : State) (p : Nat) (x : Partition) (op : Nat) : Prop where
  part : tabGet s.parts p = some x
  takes : x.takes = true
  op : x.nextRequest.op = op
  good : requestReason s p x.nextRequest = none

/-- The table that holds the entry of an address, where the path is created as it is missing (R243). -/
def tableOf (s : State) (p va level : Nat) : Nat := (pathTo p va level 4 tableBase s).1

/-- Rows of the ring and their op. -/
def ringForms : List ((Nat → Instr) × Nat) := [(.mapPages, 1), (.unmapPages, 2), (.protect, 3), (.evict, 4)]

/-- A thread at its entry (R68, R114). -/
def ThreadAtEntry (s' : State) (t : Nat) (l : Launch) (ceiling time : Nat) : Prop :=
  s'.thread t = { pc := l.start, mode := if l.exact then 4 else 0, cls := min l.cls ceiling, readySince := time }

/-- A gang at its entry: its launched lanes, its two records and its trap stack (R47, R113, R406). -/
def GangAtEntry (s' : State) (g : Nat) (l : Launch) : Prop :=
  (s'.gang g).lanes = (if l.residency = 3 then 1 else 32) ∧ (s'.gang g).sregs = [] ∧ (s'.gang g).stackBytes = l.kernel.stack ∧
    tabGetD 0 (s'.gang g).brecs 0 =
      Rec.toBits { base := l.argBase, extent := l.argBytes / 8, stride := 0, size := 4, swizzle := 0, trap := false, reserved := 0 } ∧
    tabGetD 0 (s'.gang g).brecs 1 =
      Rec.toBits { base := l.constBase, extent := l.constBytes / 4, stride := 0, size := 3, swizzle := 0, trap := false, reserved := 0 }

/-- An access of one byte on a page that is present and allows it. -/
structure TileAt (s : State) (id : Nat) (a : Access) (need : Need) (pick : Pick) (p : Piece) : Prop where
  access : tabGet s.accesses id = some a
  enabled : enabled s id a = true
  inside : pastMemory s a = false
  bounds : a.oob = false
  alone : s.mates id a (a.sector pick) = [id]
  room : raceOn s a = true → s.sfqFull (s.coreOf a.thread) = false
  page : reach s (s.coreOf a.thread) (s.partOf a.thread) a.addr 1 (a.via pick) need = .ok [p]

/-- A scratchpad access whose event may happen. -/
structure ScratchAt (s : State) (id : Nat) (a : Access) (u : Unit) : Prop where
  access : tabGet s.accesses id = some a
  enabled : enabled s id a = true
  unit : s.unit (unitOfThread a.thread) = u
  live : (s.thread a.thread).sched ≠ .exited
  scratch : a.kind.isMem = false

/-! Scheduling, accounts, power, and the step. -/

/-- Gang i has taken gang o's place in the active set; the swap takes 2 clk (R128). -/
structure Swapped (s s' : State) (o i : Nat) : Prop where
  out : (s'.gang o).active = false ∧ (s'.gang o).pendingSince = s.time
  into : (s'.gang i).active = true
  stall : ∀ t ∈ s.threadsOfGang i, s.time + 10 ≤ (s'.thread t).stallUntil ∧ Kept (s.thread t) (s'.thread t) [] []
  memory : s'.mem = s.mem

/-- The highest vote of a rail's three chiplets (R437). -/
def railVote (s : State) (k : Nat) : Nat := max (s.slice (3 * k)).vote (max (s.slice (3 * k + 1)).vote (s.slice (3 * k + 2)).vote)

/-- The open frames of a cluster's SIMT threads are disturbed where the count at which their cores issue has changed (R220). -/
def CountSettles (s s' : State) (cl : Nat) : Prop :=
  ∀ t x, tabGet s.threads t = some x → s.clusterOf t = cl → s.coreOf t % 5 ≠ 4 → s.passCodeOf (5 * cl) ≠ s'.passCodeOf (5 * cl) →
    ∀ fr ∈ (s'.thread t).frames, fr.disturbed = true

/-- The next move is the agenda's: the image runs, nothing waits, no moment has come, and none comes before the delay ends (log 2). -/
structure AgendaMoves (s : State) (delay : Nat) (m : Move) (rest : List Turn) : Prop where
  boot : unbooted s = false ∧ bootDue s = false
  waiting : heldMessage s = none
  timed : timedDue s = none
  agenda : s.agenda = { delay := delay, move := m } :: rest
  moment : ∀ k, nextMoment s = some k → s.time + delay ≤ k

/-- The state after a delay, with the rest of the agenda. -/
def afterDelay (s : State) (delay : Nat) (rest : List Turn) : State := (advance s delay).setAgenda rest

/-- A core takes a group whose twelve bytes at its pc are `bs`: s0 is the state at the turn, s1 has the core's table up to date, s2 is
latched. Nothing stands before the fetch: no unit of the group is cancelled, and no thread must enter its handler (R53, R398, R400). -/
structure Fetches (s0 s1 s2 : State) (core : Nat) (ts : List Nat) (bs : List Byte) : Prop where
  table : s1 = refresh s0 core
  group : chooseGroup s1 core = ts
  nonempty : ts ≠ []
  latched : s2 = latch s1 core ts
  live : ∀ t ∈ ts, (s2.unit (unitOfThread t)).cancelled = false
  entering : ∀ t ∈ ts, mustEnter s2 t = false
  page : ∃ ps, reach s2 core (s2.partOf (ts.headD 0)) s2.pc.toNat 12 {} { x := true } = .ok ps ∧
    outside s2 (s2.partOf (ts.headD 0)) ps = false ∧ (rawPieces s2 (s2.partOf (ts.headD 0)) ps).1.map Prod.fst = some bs

/-- A latched state whose group issues an instruction: the group and its serial number are those of the turn, an instruction that reads a
gang-uniform register or a record takes a pass for each gang of the threads that stay in the group, a free port is taken for as many clk as that
takes at the core's pass count, and the gangs, memory and threads stand as before, but for threads that the issue-group builder has come to
hold (R116, R118, R120, R124, R129). `s0` is the state at the turn. -/
structure Issuing (s s0 s2 s3 : State) (core : Nat) (ts : List Nat) (i : Instr) : Prop where
  place : s3.issue.core = core
  pc : s3.issue.pc = (s2.thread (ts.headD 0)).pc
  threads : s3.issue.threads = ts
  serial : s3.issue.serial = s.fresh + 1
  passes : ∀ f, i.fields = some f → s2.issuers i ≠ [] → s3.issue.passes = if takesPasses (opcodeOf i) f then gangsOf (s2.issuers i) else []
  span : s2.issuers i ≠ [] → s3.issue.span = max 1 s3.issue.passes.length * passOf (s2.passCodeOf core)
  port : ((s3.core core).portA, (s3.core core).portB) =
    if s2.issuers i = [] then ((s2.core core).portA, (s2.core core).portB)
    else if (s2.core core).portA ≤ coreClk s2 core then (coreClk s2 core + 5 * s3.issue.span, (s2.core core).portB)
    else ((s2.core core).portA, coreClk s2 core + 5 * s3.issue.span)
  mem : s3.mem = s.mem
  gangs : s3.gangs = s.gangs
  kept : ∀ t, (s3.thread t).pc = (s.thread t).pc ∧ Kept (s.thread t) (s3.thread t) [] [] ∧ ((s3.thread t).sched = (s.thread t).sched ∨
    ∃ h, s.coreOf t = core ∧ reaches (updateTable s0 core) t = some h ∧ (s3.thread t).sched = .blocked h)

/-- An incoming access to the exposed window that reaches pages of plain memory whose permissions allow it (R239, R432). -/
structure Exposed (s : State) (r : RemoteAccess) (n : Nat) (need : Need) (base : Nat) (ps : List Piece) (pa : Nat) : Prop where
  window : ∃ x, tabGet s.parts r.part = some x ∧ x.exposed = some base
  size : 0 < n ∧ r.offset + n ≤ 2 ^ 32
  pages : reach s 0 r.part (base + r.offset) n {} need = .ok ps
  plain : Along ps (base + r.offset) pa
  shared : ∀ p ∈ ps, p.leaf.cls ≠ 2
  inside : outside s r.part ps = false

/-- The fields of an instruction without a guard, operands, modifier or issue hints. -/
def blank : Fields :=
  { neg := false, gp := 7, d := .v 0, a := .v 0, b := .v 0, c := .v 0, ea := false, eb := false, ec := false, mod := 0, stall := 0,
    yld := false, reuse := 0 }

/-- Words put together from the tables Instruction Word, Operand Classes, Type Codes and Opcode Map and the entries' modifier bits, one for
each family, with the instructions that they stand for (R77 to R99). -/
def knownWords : List (Nat × Instr) := [
  /- @!p2 BRA -2 -/ (0x006800000000007FFFF0001B, .bra { blank with neg := true, gp := 2, mod := 0xffffe }),
  /- @p1 IADD.S32 v5, v6, 12; stall 1 -/ (0x10040501B0C000180000801C, .iadd { blank with gp := 1, d := .v 5, a := .v 6, b := .imm 12, mod := 0x30000, stall := 1 }),
  /- ISETP.LT.S32 p2, v4, s9 -/ (0x171E42011090001800100015, .isetp { blank with d := .k 66, a := .v 4, b := .s 9, mod := 0x30002 }),
  /- ADDI.B32 v3, s4, -1 -/ (0x209C0341000000387FF8001B, .addi { blank with d := .v 3, a := .s 4, mod := 0x70fff }),
  /- SHFL.IDX.B32 v8, v7, 5 with the predicate p3 -/ (0x301C0801F05000380018000C, .shflIdx { blank with d := .v 8, a := .v 7, b := .imm 5, mod := 0x70003 }),
  /- FFMA.F32.RZ v1, v2, v3, v4 -/ (0x40DC01008030124200002812, .ffma { blank with d := .v 1, a := .v 2, b := .v 3, c := .v 4, ea := true, mod := 0x84000, reuse := 5 }),
  /- HADD2.F16 v1, s2, vz; yield -/ (0x505C01408FF000480000401D, .hadd2 { blank with d := .v 1, a := .s 2, b := .v 255, mod := 0x90000, yld := true }),
  /- RCP.F32.A v9, v9 -/ (0x609C09024000004000080018, .rcp { blank with d := .v 9, a := .v 9, mod := 0x80001 }),
  /- CALLV v10:v11 -/ (0x701C00028000000000880011, .callv { blank with a := .v 10, mod := 0x11 }),
  /- LD.N64 v20:v21, b3[v2], 16 -/ (0x801C1480C020003000800007, .ld { blank with d := .v 20, a := .k 3, b := .v 2, mod := 0x60010 }),
  /- BRSET.EXTENT b9, s6 -/ (0x905E09418000000000080015, .brset { blank with d := .k 9, a := .s 6, mod := 0x1 }),
  /- ATOM.CAS.B32 v30, b1[v2], v4 -/ (0xA1DC1E804020103800000019, .atomCas { blank with d := .v 30, a := .k 1, b := .v 2, c := .v 4, mod := 0x70000 }),
  /- GTHR.F32.HASH v40, b5[v3] -/ (0xB01C28814030004000100007, .gthr { blank with d := .v 40, a := .k 5, b := .v 3, mod := 0x80002 }),
  /- MPOLL p0, s7 -/ (0xC15E4041C000000000000010, .mpoll { blank with d := .k 64, a := .s 7 }),
  /- BAR 3 -/ (0xD05C00000000000004180018, .bar { blank with mod := 0x83 }),
  /- SFQPOP s20, p4 -/ (0xE15D1400000000000020001E, .sfqpop { blank with d := .s 20, mod := 0x4 })]

/-- The forms with one result or one predicate, their instruction and opcode. -/
def resultOps : List ((Fields → Instr) × Nat) :=
  (arithmeticForms ++ bitForms ++ moveForms ++ scalarForms ++ packedForms ++ convertForms ++ budgetForms ++ [brgetForm]).map
    (fun x => (x.instr, x.op)) ++ predForms.map (fun x => (x.instr, x.op))

/-- Forms that a thread with a false guard passes at once. -/
def passOps : List ((Fields → Instr) × Nat) :=
  resultOps ++ memForms.map (fun x => (x.1, x.2.op)) ++ scratchForms.map (fun x => (x.1, x.2.op)) ++
    specialForms.map (fun x => (x.1, x.2.1)) ++ [(.exitI, 0x006), (.yieldI, 0x007), (.nop, 0x008), (.setpri, 0x009), (.bpt, 0x00A), (.trapI, 0x00B)]

/-- One ready thread with a settled and true guard. -/
structure Guarded (s : State) (f : Fields) (t : Nat) : Prop where
  group : s.group = [t]
  ready : (s.thread t).sched = .ready
  settled : (s.thread t).pending f.gp.toNat = false
  guard : guardTrue s t f = true

/-- The integer arithmetic instructions give the exact result, clamped or wrapped (R133, R142, R149, R151). -/
def Rule.ArithmeticResultsAreExactThenNarrowed : Prop := ∀ x ∈ arithmeticForms, x.Completes

/-- Logic, shifts, bit fields, counts and byte shuffles give the results of R144 to R148. -/
def Rule.BitInstructionsGiveTheirResults : Prop := ∀ x ∈ bitForms, x.Completes

/-- Moves and constants (R154 to R156). -/
def Rule.MovesGiveTheirResults : Prop := ∀ x ∈ moveForms, x.Completes

/-- Scalar floating point rounds each exact result once (R194 to R199). -/
def Rule.ScalarFloatResultsRoundOnce : Prop := ∀ x ∈ scalarForms, x.Completes

/-- Packed floating point works half by half (R201). -/
def Rule.PackedFloatResultsHalfByHalf : Prop := ∀ x ∈ packedForms, x.Completes

/-- Conversion and packing (R205 to R207). -/
def Rule.ConversionsGiveTheirResults : Prop := ∀ x ∈ convertForms, x.Completes

/-- Comparisons, predicate logic, MPOLL and LBLTST write one predicate (R150, R156, R197, R343, R416). -/
def Rule.ComparisonsAndLogicWriteTheirPredicate : Prop := ∀ x ∈ predForms, x.Completes

/-- HSETP2 writes the comparison of the low halves to its destination and that of the high halves to the predicate that its modifier
names; where both are one predicate the second write remains (R202). -/
def Rule.PackedComparisonWritesBothHalves : Prop :=
  ∀ f s t, Issues s 0x148 f (modPred (f.bits 5 3)) [] t → ∃ s', exec (.hsetp2 f) s = .next s' ∧
    PredIs s' t (f.bits 5 3) (combine (f.bits 3 2) (fcompare (f.bits 0 3) (halfA f s t 1) (halfB f s t 1)) (readPred s t f.c)) ∧
    (resultPreds f.d ≠ [f.bits 5 3] →
      PredIn s' t f.d (combine (f.bits 3 2) (fcompare (f.bits 0 3) (halfA f s t 0) (halfB f s t 0)) (readPred s t f.c))) ∧
    Labelled s s' 0x148 f (modPred (f.bits 5 3)) [] t [] [] (f.bits 5 3 :: resultPreds f.d) (labelOf s 0x148 f) ∧
    (s'.thread t).pc = nextPc s.pc ∧ Untouched s s' t [] (f.bits 5 3 :: resultPreds f.d) [] [] ∧ Unsent s s'

/-- IADDC and ISUBC write the wrapped sum or difference and its carry or borrow; index 7 discards the predicate (R143). -/
def Rule.CarryFormsWriteResultAndCarry : Prop :=
  ∀ f s t,
    (Issues s 0x042 f (modPred (f.bits 0 3)) [] t → ∃ s', exec (.iaddc f) s = .next s' ∧
      ResultIn s s' f t .b32 (fun u => BitVec.ofInt 64 (sumOf f s u)) ∧
      PredIs s' t (f.bits 0 3) (decide (2 ^ 32 ≤ sumOf f s t)) ∧
      Labelled s s' 0x042 f (modPred (f.bits 0 3)) [] t (resultRegs .b32 f.d) (resultUnis .b32 f.d) [f.bits 0 3] (labelOf s 0x042 f) ∧
      (s'.thread t).pc = nextPc s.pc ∧ Untouched s s' t (resultRegs .b32 f.d) [f.bits 0 3] (resultUnis .b32 f.d) [] ∧ Unsent s s') ∧
    (Issues s 0x043 f (modPred (f.bits 0 3)) [] t → ∃ s', exec (.isubc f) s = .next s' ∧
      ResultIn s s' f t .b32 (fun u => BitVec.ofInt 64 (differenceOf f s u)) ∧
      PredIs s' t (f.bits 0 3) (decide (differenceOf f s t < 0)) ∧
      Labelled s s' 0x043 f (modPred (f.bits 0 3)) [] t (resultRegs .b32 f.d) (resultUnis .b32 f.d) [f.bits 0 3] (labelOf s 0x043 f) ∧
      (s'.thread t).pc = nextPc s.pc ∧ Untouched s s' t (resultRegs .b32 f.d) [f.bits 0 3] (resultUnis .b32 f.d) [] ∧ Unsent s s')

/-- V2P writes the predicates of p0 to p6 that its mask names from the bits of A, and no other (R156). -/
def Rule.V2pWritesTheMaskedPredicates : Prop :=
  ∀ f s t, Issues s 0x089 f (v2pIx f) [] t → ∃ s', exec (.v2p f) s = .next s' ∧
    (∀ k, k < 7 → f.bit k = true → PredIs s' t k ((read32 s t f.a).getLsbD k)) ∧
    Labelled s s' 0x089 f (v2pIx f) [] t [] [] (v2pIx f) (labelOf s 0x089 f) ∧
    (s'.thread t).pc = nextPc s.pc ∧ Untouched s s' t [] (v2pIx f) [] [] ∧ Unsent s s'

/-- RDLANE reads the register of the lane that B names, modulo 32; a lane never launched reads 0 (R157). The register is full. -/
def Rule.RdlaneReadsTheNamedLane : Prop :=
  ∀ f s t, Issues s 0x08A f [] [] t →
    (∀ u ∈ s.group, sourceEmpty s (threadAt (gangOf u) ((read32 s u f.b).toNat % 32)) (slotsOf 0x08A f).a f.a = none) →
    ∃ s', exec (.rdlane f) s = .next s' ∧
      ResultIn s s' f t f.ty (fun u =>
        if (s.gang (gangOf u)).lanes ≤ (read32 s u f.b).toNat % 32 then 0
        else readTy s (threadAt (gangOf u) ((read32 s u f.b).toNat % 32)) f.ty f.a) ∧
      Labelled s s' 0x08A f [] [] t (resultRegs f.ty f.d) (resultUnis f.ty f.d) [] (labelOf s 0x08A f) ∧
      (s'.thread t).pc = nextPc s.pc ∧ Untouched s s' t (resultRegs f.ty f.d) [] (resultUnis f.ty f.d) [] ∧ Unsent s s'

/-- The special registers hold what the table Special Registers says (R87). That the partition register is read as it stood before a PART of the
same clk is the model's reading (log 13). -/
def Rule.SpecialRegistersHoldTheirValues : Prop := ∀ x ∈ specialTable, ∀ s t, special s t x.1 = x.2 s t

/-- SRD writes the special register, or for a high half the value that the thread's last SRD of the low half captured (R158). -/
def Rule.SrdReadsSpecialRegisters : Prop :=
  ∀ f s t, Issues s 0x08B f [] [] t → (∀ u ∈ s.group, trapRegOutside (kIndex f.a) s u = false) →
    ∃ s', exec (.srd f) s = .next s' ∧
      ResultIn s s' f t .b32 (fun u =>
        (match (s.thread u).highShadow with
        | some (lo, h) => if kIndex f.a = lo + 1 then h else special s u (kIndex f.a)
        | none => special s u (kIndex f.a)).setWidth 64) ∧
      (s'.thread t).highShadow =
        (if kIndex f.a = 144 ∨ kIndex f.a = 146 then some (kIndex f.a, special s t (kIndex f.a + 1)) else none) ∧
      Labelled s s' 0x08B f [] [] t (resultRegs .b32 f.d) (resultUnis .b32 f.d) [] (labelOf s 0x08B f) ∧
      (s'.thread t).pc = nextPc s.pc ∧ Untouched s s' t (resultRegs .b32 f.d) [] (resultUnis .b32 f.d) [] ∧ Unsent s s'

/-- SWR writes the low 32 or the high 16 bits of the return address of a thread in its handler; its label joins the control label (R87, R158,
R276). -/
def Rule.SwrWritesTheReturnAddress : Prop :=
  ∀ f s t, Issues s 0x08C f [] [] t → (∀ u ∈ s.group, (s.thread u).inTrap = true) → kIndex f.d = 225 ∨ kIndex f.d = 226 →
    ∃ s', exec (.swr f) s = .next s' ∧
      (s'.thread t).trappc.toNat =
        (if kIndex f.d = 225 then (s.thread t).trappc.toNat / 2 ^ 32 * 2 ^ 32 + (read32 s t f.a).toNat
        else (read32 s t f.a).toNat % 2 ^ 16 * 2 ^ 32 + (s.thread t).trappc.toNat % 2 ^ 32) ∧
      Label.subset (labelOf s 0x08C f t) (s'.gang (gangOf t)).ctl = true ∧ (s'.thread t).pc = nextPc s.pc ∧
      Kept { s.thread t with trappc := (s'.thread t).trappc } (s'.thread t) [] [] ∧ Others s s' ∧ Unsent s s'

/-- SETMODE writes the bits of the mode register that its mask names (R159). -/
def Rule.SetmodeWritesTheMaskedBits : Prop :=
  ∀ f s t, Issues s 0x08D f [] [] t → ∃ s', exec (.setmode f) s = .next s' ∧
    (∀ i, i < 32 → (s'.thread t).mode.getLsbD i =
      if f.low.testBit i then (read32 s t f.a).getLsbD i else (s.thread t).mode.getLsbD i) ∧
    (s'.thread t).pc = nextPc s.pc ∧ Kept { s.thread t with mode := (s'.thread t).mode } (s'.thread t) [] [] ∧ Others s s' ∧
    Unsent s s'

/-- PART writes the gang's partition register once, for the gangs of the group with an executing thread (R160). -/
def Rule.PartWritesThePartitionRegister : Prop :=
  ∀ f s t, Issues s 0x08E f [] [] t → ∃ s', exec (.partW f) s = .next s' ∧
    (s'.gang (gangOf t)).part = BitVec.ofNat 3 (f.bits 0 3) ∧ (∀ g, g ∉ gangsOf s.group → (s'.gang g).part = (s.gang g).part) ∧
    (s'.thread t).pc = nextPc s.pc ∧ Kept (s.thread t) (s'.thread t) [] [] ∧ (∀ a, s'.mem.get a = s.mem.get a) ∧
    (∀ g, GangKept { s.gang g with part := (s'.gang g).part } (s'.gang g) [] [] [] []) ∧ Unsent s s'

/-- A taken branch with a legal target reaches it exactly; CALL and CALLX write the address of the next instruction into the link
pair; the guard's label and that of a register target join the control label (R131, R135). -/
def Rule.BranchesReachTheirTargets : Prop :=
  ∀ x ∈ branchForms, ∀ f s t, Alone s x.op f [] [] t → goodTarget (x.target f s t) → s.mustDeliver t = false →
    ∃ s', exec (x.instr f) s = .next s' ∧ ((s'.thread t).pc.toNat : Int) = x.target f s t ∧
      (x.links = true → ResultTy s' t .n64 f.d ((nextPc s.pc).setWidth 64)) ∧
      (s'.gang (gangOf t)).ctl = (s.gang (gangOf t)).ctl ||| branchLabel s x.op f (gangOf t) ∧
      Kept (s.thread t) (s'.thread t) (x.linkRegs f) [] ∧ (isUni f.d = false → Others s s' [] (x.linkRegs f))

/-- A target below 0, at or above 2^48 or off a 4-byte boundary raises the instruction-address trap at the branch, and no link is
written (R81, R135, R140). -/
def Rule.BadBranchTargetsTrap : Prop :=
  ∀ x ∈ branchForms, ∀ f s t h, Alone s x.op f [] [] t → ¬ goodTarget (x.target f s t) → (s.launchOf t).handler = some h →
    (s.thread t).inTrap = false → ∃ s', exec (x.instr f) s = .next s' ∧ Trapped s s' t 3 s.pc (BitVec.ofInt 32 (x.target f s t)) h

/-- EXIT ends a thread whose own writes have landed and whose gang has no pending record (R136). -/
def Rule.ExitEndsTheThread : Prop :=
  ∀ f s t, Alone s 0x006 f [] [] t → s.ownWrites t = [] → s.mustDeliver t = false →
    ∃ s', exec (.exitI f) s = .next s' ∧ (s'.thread t).sched = .exited ∧ Kept (s.thread t) (s'.thread t) [] [] ∧ Others s s'

/-- NOP has no effect, and YIELD none but that of the yield hint: the thread stands at the next instruction and is ready; every register,
predicate and special register of it, and everything outside its thread, is as it was (R97, R137). -/
def Rule.NopAndYieldOnlyAdvance : Prop :=
  ∀ f s t,
    (Issues s 0x008 f [] [] t → ∃ s', exec (.nop f) s = .next s' ∧ (s'.thread t).pc = nextPc s.pc ∧ (s'.thread t).sched = .ready ∧
      Kept (s.thread t) (s'.thread t) [] [] ∧ Still s s') ∧
    (Issues s 0x007 f [] [] t → ∃ s', exec (.yieldI f) s = .next s' ∧ (s'.thread t).pc = nextPc s.pc ∧ (s'.thread t).sched = .ready ∧
      Kept (s.thread t) (s'.thread t) [] [] ∧ Still s s')

/-- SETPRI sets the thread's own class to the least of A, 3 and the unit's ceiling (R138). -/
def Rule.SetpriCapsTheClass : Prop :=
  ∀ f s t, Issues s 0x009 f [] [] t → ∃ s', exec (.setpri f) s = .next s' ∧
    (s'.thread t).cls = min (min (read32 s t f.a).toNat 3) (s.unit (unitOfThread t)).ceiling ∧
    (s'.thread t).pc = nextPc s.pc ∧ Kept { s.thread t with cls := (s'.thread t).cls } (s'.thread t) [] [] ∧ Others s s' ∧
    Unsent s s'

/-- BPT raises the breakpoint trap at itself and TRAP the software trap before the next instruction, each with its 13-bit code in
trapinfo (R139). -/
def Rule.BptAndTrapEnterTheHandler : Prop :=
  ∀ f s t h, (s.launchOf t).handler = some h → (s.thread t).inTrap = false →
    (Alone s 0x00A f [] [] t → ∃ s', exec (.bpt f) s = .next s' ∧ Trapped s s' t 7 s.pc (BitVec.ofNat 32 (f.mod.toNat % 2 ^ 13)) h) ∧
    (Alone s 0x00B f [] [] t → ∃ s', exec (.trapI f) s = .next s' ∧
      Trapped s s' t 8 (nextPc s.pc) (BitVec.ofNat 32 (f.mod.toNat % 2 ^ 13)) h)

/-- A shuffle gives every lane of a gang that arrives whole the value of the lane that it names, where that lane is a present member,
and false; else its own value, and true (R120, R121, R163, R164). -/
def Rule.ShufflesReadTheNamedLane : Prop :=
  ∀ x ∈ shuffleForms, ∀ f s g, GangArrives s x.2.1 f (modPred (f.bits 0 3)) g →
    (∀ t ∈ s.group, ∀ u ∈ s.group, maskRead s f t = maskRead s f u) →
    ∃ s', exec (x.1 f) s = .next s' ∧ ∀ t ∈ s.group,
      (isUni f.d = false → ResultTy s' t f.ty f.d (match shuffleLane x.2.2 f s t with
        | some l => laneBits f s t l
        | none => srcBits f s t f.a)) ∧
      PredIs s' t (f.bits 0 3) (shuffleLane x.2.2 f s t).isNone ∧
      Labelled s s' x.2.1 f (modPred (f.bits 0 3)) [] t (resultRegs f.ty f.d) (resultUnis f.ty f.d) [f.bits 0 3] (labelOf s x.2.1 f) ∧
      (s'.thread t).pc = nextPc s.pc ∧
      Kept (s.thread t) (s'.thread t) (resultRegs f.ty f.d) [f.bits 0 3] ∧ ∀ a, s'.mem.get a = s.mem.get a

/-- VOTE.ALL, VOTE.ANY and ELECT give every lane of a gang that arrives whole its predicate (R163, R165, R168). -/
def Rule.VotesAndElectWriteTheirPredicate : Prop :=
  ∀ x ∈ voteForms, ∀ f s g, GangArrives s x.2.1 f [] g → (∀ t ∈ s.group, ∀ u ∈ s.group, maskRead s f t = maskRead s f u) →
    ∃ s', exec (x.1 f) s = .next s' ∧ ∀ t ∈ s.group, PredIn s' t f.d (x.2.2 f s t) ∧
      Labelled s s' x.2.1 f [] [] t [] [] (resultPreds f.d) (labelOf s x.2.1 f) ∧ (s'.thread t).pc = nextPc s.pc ∧
      Kept (s.thread t) (s'.thread t) [] (resultPreds f.d) ∧ ∀ a, s'.mem.get a = s.mem.get a

/-- Ballots, reductions, scans and MATCH give every lane of a gang that arrives whole its result (R163, R165 to R168). -/
def Rule.GangReductionsGiveTheirResults : Prop :=
  ∀ x ∈ gangForms, ∀ f s g, GangArrives s x.2.1 f [] g → (∀ t ∈ s.group, ∀ u ∈ s.group, maskRead s f t = maskRead s f u) →
    ∃ s', exec (x.1 f) s = .next s' ∧ ∀ t ∈ s.group, ResultIn s s' f t (x.2.2.1 f) (x.2.2.2 f s) ∧
      Labelled s s' x.2.1 f [] [] t (resultRegs (x.2.2.1 f) f.d) (resultUnis (x.2.2.1 f) f.d) [] (labelOf s x.2.1 f) ∧
      (s'.thread t).pc = nextPc s.pc ∧ Kept (s.thread t) (s'.thread t) (resultRegs (x.2.2.1 f) f.d) [] ∧
      ∀ a, s'.mem.get a = s.mem.get a

/-- CALLV with a legal table address and room for a frame sends its table read and waits at itself for it (R222, R225). -/
def Rule.CallvReadsItsTable : Prop :=
  ∀ f s t, Alone s 0x1C0 f (modPred (f.bits 2 3)) [] t → (read64 s t f.a).toNat % 64 = 0 → (read64 s t f.a).toNat < 2 ^ 48 →
    (s.thread t).frames.length ≠ 8 → ∃ s', exec (.callv f) s = .next s' ∧
      (∃ a, Sends s s' t a ∧ a.kind = .table ∧ a.addr = (read64 s t f.a).toNat ∧ a.width = 544 ∧ a.label = labelOf s 0x1C0 f t ∧
        a.aux = s.time) ∧
      (s'.thread t).pc = s.pc ∧ (s'.thread t).sched = .blocked (.landing s.issue.serial) ∧
      Kept (s.thread t) (s'.thread t) [] [] ∧ Others s s'

/-- RETV ends the innermost frame: the caller's limits come back, charged with the time and the energy since the call, and the thread
continues after its CALLV; the entry's fields marked H take the sample unless the frame was disturbed, and no other byte changes
(R218 to R223). -/
def Rule.RetvChargesReturnsAndTags : Prop :=
  ∀ f s t fr rest, Alone s 0x1C1 f [] [] t → (s.thread t).frames = fr :: rest → s.mustDeliver t = false →
    ∃ s', exec (.retv f) s = .next s' ∧ (s'.thread t).pc = fr.ret ∧ (s'.thread t).frames = rest ∧
      ((s'.thread t).bt = if fr.bt = 0xFFFFFFFF#32 then fr.bt else BitVec.ofNat 32 (fr.bt.toNat - clksBetween s t fr.issued s.time)) ∧
      ((s'.thread t).be =
        if fr.be = 0xFFFFFFFF#32 then fr.be else BitVec.ofNat 32 (fr.be.toNat - ((s.thread t).energy - fr.energy) / 65536)) ∧
      (s'.thread t).bq = fr.bq ∧ Kept ((s.thread t).setBudget (s'.thread t).budget) (s'.thread t) [] [] ∧
      (fr.disturbed = true → ∀ b, s'.mem.get b = s.mem.get b) ∧
      (fr.disturbed = false → ∀ l pa, walk s (s.partOf t) fr.entry = .leaf l → homeOf s (s.partOf t) fr.entry l = .ok (.phys pa) →
        bytesAre s'.mem pa (((VEntry.ofBytes (s.mem.read pa 32)).sample (min (clksBetween s t fr.issued s.time) (2 ^ 32 - 1))
          (min (((s.thread t).energy - fr.energy) / 65536) (2 ^ 32 - 1)) (s.passCodeOf (s.coreOf t))).into (s.mem.read pa 32)) ∧
        bytesElse s.mem s'.mem pa 32)

/-- BSET writes one budget register, the quality floor capped at 65,535 (R227). -/
def Rule.BsetWritesOneBudget : Prop :=
  ∀ f s t, Issues s 0x1C2 f [] [] t → ∃ s', exec (.bset f) s = .next s' ∧
    (s'.thread t).budget = (match f.bits 0 2 with
      | 0 => { (s.thread t).budget with bt := read32 s t f.a }
      | 1 => { (s.thread t).budget with be := read32 s t f.a }
      | _ => { (s.thread t).budget with bq := BitVec.ofNat 32 (min (read32 s t f.a).toNat 65535) }) ∧
    (s'.thread t).pc = nextPc s.pc ∧ Kept ((s.thread t).setBudget (s'.thread t).budget) (s'.thread t) [] [] ∧ Others s s'

/-- BGET reads a budget register; METER reads the time or the energy since the innermost call, or since the thread's first issue, or
the index of the selected entry (R227). -/
def Rule.BudgetsAndMetersAreRead : Prop := ∀ x ∈ budgetForms, x.Completes

/-- BSPLIT sets the share of a budget to k/256 of it, unlimited staying unlimited for k above 0, and writes the share (R227). -/
def Rule.BsplitSetsAShare : Prop :=
  ∀ f s t, Issues s 0x1C4 f [] [] t → ∃ s', exec (.bsplit f) s = .next s' ∧
    ResultIn s s' f t .b32 (fun u => (shareOf f s u).setWidth 64) ∧
    (s'.thread t).budget = (if f.bit 0 then { (s.thread t).budget with shareE := some (shareOf f s t) }
      else { (s.thread t).budget with shareT := some (shareOf f s t) }) ∧
    (s'.thread t).pc = nextPc s.pc ∧
    Labelled s s' 0x1C4 f [] [] t (resultRegs .b32 f.d) (resultUnis .b32 f.d) [] (labelOf s 0x1C4 f) ∧
    Kept ((s.thread t).setBudget (s'.thread t).budget) (s'.thread t) (resultRegs .b32 f.d) [] ∧ ∀ a, s'.mem.get a = s.mem.get a

/-- A record instruction whose tests pass sends its access at the address of R232 with its data and label; a destination register goes
empty, an existence predicate becomes pending, p6 is written under .BP, and a gang-uniform destination blocks its thread
(R123, R232, R286 to R293). -/
def Rule.MemoryAccessesLeaveAtIssue : Prop :=
  ∀ x ∈ memForms, ∀ f s t, Alone s x.2.op f (bpPreds f) [] t → InBounds x.2 f s t → ∃ s', exec (x.1 f) s = .next s' ∧
    Sends s s' t (accessOf s x.2 f t false) ∧
    ((accessOf s x.2 f t false).addr : Int) = (recOf s t f.a).addr (read32 s t f.b).toNat (x.2.disp f) ∧
    (s'.thread t).pc = nextPc s.pc ∧
    (returns x.2 = true → ∀ r ∈ destRegs x.2 f, r ≠ 255 → (s'.thread t).full r = false) ∧
    (∀ n ∈ existIx x.2 f, (s'.thread t).pending n = true) ∧
    (hasBp f = true → 6 ∉ existIx x.2 f → PredIs s' t 6 false) ∧
    (isUni f.d = true → (s'.thread t).sched = .blocked (.landing s.issue.serial)) ∧
    Kept (s.thread t) (s'.thread t) (destRegs x.2 f) (bpPreds f ++ existIx x.2 f) ∧ Others s s' (bpPreds f)

/-- A lane out of bounds of a record without the trap bit writes zero into a destination that takes a value, true into p6
under .BP, and false into an existence predicate; it sends nothing (R233, R293, R295, R296). That zero and false are written at issue is the
model's reading: log 16. -/
def Rule.OutOfBoundsLanesReadZero : Prop :=
  ∀ x ∈ memForms, ∀ f s t, Alone s x.2.op f (bpPreds f) [] t → (recOf s t f.a).bad = false → sfqBlocks s x.2 t = false →
    oobOf s x.2 f t = true → (recOf s t f.a).trap = false → ∃ s', exec (x.1 f) s = .next s' ∧ s'.accesses = s.accesses ∧
      (returns x.2 = true → ResultTy s' t f.ty f.d 0) ∧
      (hasBp f = true → 6 ∉ existIx x.2 f → PredIs s' t 6 true) ∧ (∀ n ∈ existIx x.2 f, PredIs s' t n false) ∧
      (s'.thread t).pc = nextPc s.pc ∧ ∀ a, s'.mem.get a = s.mem.get a

/-- A malformed record raises trap 12 before any other test, and a misaligned address in bounds raises trap 14 (R231, R235, R289). -/
def Rule.RecordAndAlignmentTraps : Prop :=
  ∀ x ∈ memForms, ∀ f s t h, Alone s x.2.op f (bpPreds f) [] t → (s.launchOf t).handler = some h → (s.thread t).inTrap = false →
    ((recOf s t f.a).bad = true → ∃ s', exec (x.1 f) s = .next s' ∧ Trapped s s' t 12 s.pc 0 h) ∧
    ((recOf s t f.a).bad = false → sfqBlocks s x.2 t = false → oobOf s x.2 f t = false → misaligned s x.2 f t = true →
      ∃ s', exec (x.1 f) s = .next s' ∧ Trapped s s' t 14 s.pc 0 h)

/-- PREF changes no register, no predicate and no byte (R299). -/
def Rule.PrefChangesNoRegisterAndNoByte : Prop :=
  ∀ f s t, Alone s 0x206 f [] [] t → (recOf s t f.a).bad = false → ∃ s', exec (.pref f) s = .next s' ∧
    (s'.thread t).pc = nextPc s.pc ∧ Kept (s.thread t) (s'.thread t) [] [] ∧ Others s s'

/-- BRMAKE builds a record from its sources and its modifier; with .PG it reads the page's geometry first and waits (R302). -/
def Rule.BrmakeBuildsARecord : Prop :=
  ∀ f s t, Alone s 0x240 f [] [] t → ¬ (recIx f.d = 31 ∧ (s.thread t).inTrap = true) →
    (f.bits 4 3 ≠ 3 → ∃ s', exec (.brmake f) s = .next s' ∧
      tabGetD 0 (s'.gang (gangOf t)).brecs (recIx f.d) =
        Rec.toBits { base := (read64 s t f.a).toNat % 2 ^ 48, extent := (read32 s t f.b).toNat, stride := (read32 s t f.c).toNat % 2 ^ 16,
                     size := f.bits 0 4, swizzle := f.bits 4 3, trap := f.bit 7, reserved := 0 } ∧
      (s'.thread t).pc = nextPc s.pc ∧ Untouched s s' t [] [] [] [recIx f.d]) ∧
    (f.bits 4 3 = 3 → ∃ s', exec (.brmake f) s = .next s' ∧
      (∃ a, Sends s s' t a ∧ a.kind = .recPage ∧ a.addr = (read64 s t f.a).toNat % 2 ^ 48) ∧
      (s'.thread t).sched = .blocked (.landing s.issue.serial) ∧ (s'.thread t).pc = nextPc s.pc ∧ Untouched s s' t [] [] [] [])

/-- BRSET patches one field of a record and leaves the others (R303). -/
def Rule.BrsetPatchesOneField : Prop :=
  ∀ f s t, Alone s 0x241 f [] [] t → ¬ (recIx f.d = 31 ∧ (s.thread t).inTrap = true) → ∃ s', exec (.brset f) s = .next s' ∧
    tabGetD 0 (s'.gang (gangOf t)).brecs (recIx f.d) =
      (let r := recOf s t f.d
      let x := (read32 s t f.a).toNat
      (match f.bits 0 3 with
      | 0 => { r with base := (read64 s t f.a).toNat % 2 ^ 48 }
      | 1 => { r with extent := x }
      | 2 => { r with stride := x % 2 ^ 16 }
      | 3 => { r with size := x % 16 }
      | 4 => { r with swizzle := x % 4 }
      | 5 => { r with trap := x % 2 == 1 }
      | _ => { r with base := (((r.base : Int) + (read32 s t f.a).toInt) % (2 : Int) ^ 48).toNat }).toBits) ∧
    (s'.thread t).pc = nextPc s.pc ∧ Untouched s s' t [] [] [] [recIx f.d]

/-- BRGET reads one field of a record, a pair for .BASE (R303). -/
def Rule.BrgetReadsOneField : Prop := brgetForm.Completes

/-- A scratchpad instruction whose operand lies in its unit's run and is aligned sends its access; LDS and ATOMS mark their
destination empty (R307, R308). -/
def Rule.ScratchpadAccessesLeaveAtIssue : Prop :=
  ∀ x ∈ scratchForms, ∀ f s t, Alone s x.2.op f [] [] t → ScratchFits x.2 f s t → ∃ s', exec (x.1 f) s = .next s' ∧
    (∃ a, Sends s s' t a ∧ a.kind = x.2.kind ∧ a.op = x.2.op ∧ (a.addr : Int) = soff s x.2 f t ∧ a.width = x.2.width f ∧
      a.c = dataOf s t f ∧ a.d = readTy s t f.ty f.d ∧ a.label = labelOf s x.2.op f t) ∧
    (s'.thread t).pc = nextPc s.pc ∧
    (x.2.dest = true → ∀ r ∈ opndRegs (slotsOf x.2.op f).d f.d, r ≠ 255 → (s'.thread t).full r = false) ∧
    Kept (s.thread t) (s'.thread t) (opndRegs (slotsOf x.2.op f).d f.d) [] ∧ Others s s'

/-- A scratchpad operand outside the run raises trap 15, and one within it that is misaligned raises trap 14 (R307). -/
def Rule.ScratchpadRangeAndAlignmentTraps : Prop :=
  ∀ x ∈ scratchForms, ∀ f s t h, Alone s x.2.op f [] [] t → (s.launchOf t).handler = some h → (s.thread t).inTrap = false →
    (spOutside s x.2 f t = true → ∃ s', exec (x.1 f) s = .next s' ∧ Trapped s s' t 15 s.pc 0 h) ∧
    (spOutside s x.2 f t = false → soff s x.2 f t % (x.2.width f : Int) ≠ 0 →
      ∃ s', exec (x.1 f) s = .next s' ∧ Trapped s s' t 14 s.pc 0 h)

/-- A special function on the fast path writes its result at issue; on the exact path the correctly rounded result leaves for its own
write-back, and the destination goes empty or, gang-uniform, blocks its thread (R185, R186, R208, R210). -/
def Rule.SpecialFunctionsTakeTheirPath : Prop :=
  ∀ x ∈ specialForms, ∀ f s t, Alone s x.2.1 f [] [] t →
    (takesFast s t f x.2.2 = true → ∃ s', exec (x.1 f) s = .next s' ∧
      ResultTy s' t .b32 f.d (BitVec.ofNat 64 (specialFast (fmtI f) x.2.2 (readF s t (fmtI f) f.a)).bits) ∧
      Labelled s s' x.2.1 f [] [] t (resultRegs .b32 f.d) (resultUnis .b32 f.d) [] (labelOf s x.2.1 f) ∧
      (s'.thread t).pc = nextPc s.pc ∧ Untouched s s' t (resultRegs .b32 f.d) [] (resultUnis .b32 f.d) []) ∧
    (takesFast s t f x.2.2 = false → ∃ s', exec (x.1 f) s = .next s' ∧
      (∃ a, Sends s s' t a ∧ a.kind = .exact ∧ a.f = f ∧ a.label = labelOf s x.2.1 f t ∧
        a.value = BitVec.ofNat 32 (specialExact (fmtI f) (rm s t f) x.2.2 (readF s t (fmtI f) f.a)).bits) ∧
      (∀ r ∈ opndRegs vS f.d, (s'.thread t).full r = false) ∧
      (isUni f.d = true → (s'.thread t).sched = .blocked (.landing s.issue.serial)) ∧
      (s'.thread t).pc = nextPc s.pc ∧ Kept (s.thread t) (s'.thread t) (opndRegs vS f.d) [] ∧ Others s s')

/-- An exact-path result is written back with its register full, and the waiting threads of a gang-uniform destination go on
(R188, R210). -/
def Rule.ExactResultsAreWrittenBack : Prop :=
  ∀ id s a, tabGet s.accesses id = some a → a.kind = .exact → a.due ≤ s.time → (s.thread a.thread).sched ≠ .exited → ∃ s',
    exec (.exactPathWriteback id) s = .next s' ∧ tabGet s'.accesses id = none ∧ Result32 s' a.thread a.f.d a.value ∧
    LandLabel s s' a .b32 a.label ∧
    ∀ b, s'.mem.get b = s.mem.get b

/-- A load that lands on plain memory delivers the bytes that stand there, converted by its type, into its full register; the access
is over and no byte changes; LDX finds that the bytes exist (R123, R287, R295). -/
def Rule.LoadsDeliverMemoryBytes : Prop :=
  ∀ id s a pick p pa, LandsOn s id a { r := true } pick p pa → a.kind = .load ∨ a.kind = .ldx → bookAwaited s id a p.leaf.slot = false →
    formatFits a.f.ty p.leaf.format = true → pick.l1 = false → (s.thread a.thread).sched ≠ .exited → ∃ s',
      exec (.loadWriteback id pick) s = .next s' ∧ tabGet s'.accesses id = none ∧
      ResultTy s' a.thread a.f.ty a.f.d (loadValue a.f.ty (accessBook s a p.leaf.slot).entries (s.mem.read pa a.width)) ∧
      LandLabel s s' a a.f.ty (a.label ||| p.leaf.label |||
        (if a.f.ty = .c4 ∨ a.f.ty = .f8e4 ∨ a.f.ty = .f8e5 then (accessBook s a p.leaf.slot).label else 0)) ∧
      (a.kind = .ldx → PredIn s' a.thread a.f.c true) ∧ ∀ b, s'.mem.get b = s.mem.get b

/-- A store that lands on plain memory whose page label holds its label writes its bytes there and no other byte (R279, R287, R296). -/
def Rule.StoresWriteTheirBytes : Prop :=
  ∀ id s a pick p pa, LandsOn s id a { w := true } pick p pa → a.kind = .store ∨ a.kind = .stx → bookAwaited s id a p.leaf.slot = false → a.width = typeWidth a.f.ty →
    formatFits a.f.ty p.leaf.format = true → Label.subset a.label p.leaf.label = true → ∃ s',
      exec (.writePerform id pick) s = .next s' ∧ tabGet s'.accesses id = none ∧ bytesAre s'.mem pa (storeBytes a.f.ty (accessBook s a p.leaf.slot).entries a.c).1 ∧
      bytesElse s.mem s'.mem pa a.width ∧ (a.kind = .stx → (s.thread a.thread).sched ≠ .exited → PredIn s' a.thread a.f.d true)

/-- A store whose label its page does not hold writes nothing: it makes a record of kind 3, where the queue has room, and an STX's predicate
is false (R279, R290, R397 to R400). -/
def Rule.LabelFailuresAreRecorded : Prop :=
  ∀ id s a pick p pa, LandsOn s id a { w := true } pick p pa → a.kind = .store ∨ a.kind = .stx → bookAwaited s id a p.leaf.slot = false →
    formatFits a.f.ty p.leaf.format = true → Label.subset a.label p.leaf.label = false → s.sfqFull (s.coreOf a.thread) = false →
    (s.gang (gangOf a.thread)).ended = false → ∃ s' r,
      exec (.writePerform id pick) s = .next s' ∧ tabGet s'.accesses id = none ∧
      s'.pendingRecords (gangOf a.thread) = s.pendingRecords (gangOf a.thread) ++ [r] ∧ r.kind = 3 ∧ r.addr = p.va ∧
      r.lane = laneOf a.thread ∧ r.label = a.label ∧ r.pc = a.pc ∧ r.op = a.op ∧
      (a.kind = .stx → (s.thread a.thread).sched ≠ .exited → PredIn s' a.thread a.f.d false) ∧ ∀ b, s'.mem.get b = s.mem.get b

/-- An atomic that lands on plain memory writes the new value of the table Atomic Operations there and no other byte, and an ATOM
returns the old one (R305, R308). -/
def Rule.AtomicsReadModifyWrite : Prop :=
  ∀ id s a pick p pa, LandsOn s id a { r := true, w := true } pick p pa → a.kind = .atom ∨ a.kind = .red → p.leaf.format = 0 →
    a.width = atomicWidth a.f.ty → Label.subset a.label p.leaf.label = true → (s.thread a.thread).sched ≠ .exited → ∃ s',
      exec (.atomicPerform id pick) s = .next s' ∧ tabGet s'.accesses id = none ∧
      bytesAre s'.mem pa (leBytes a.width (atomicNew (atomicOp a.op) a.f.ty (Round.ofCode a.mode)
        (BitVec.ofNat 64 (leNat (s.mem.read pa a.width))) a.c a.d).1.toNat) ∧
      bytesElse s.mem s'.mem pa a.width ∧
      (a.kind = .atom → ResultTy s' a.thread a.f.ty a.f.d (BitVec.ofNat 64 (leNat (s.mem.read pa a.width))) ∧
        LandLabel s s' a a.f.ty (a.label ||| p.leaf.label))

/-- The new values of the atomics, each operation under the types that it has: ADD, MIN and MAX of 32- and 64-bit integers, the bitwise
operations, EXCH and CAS of 32- and 64-bit raw words, and FADD of FP32 values, and of FP16 and BF16 pairs half by half, rounded once (R305). -/
def Rule.AtomicOperationsOfTheTable : Prop :=
  ∀ (md : Round) (m c d : DWord),
    (∀ ty : Ty, ty = .s32 ∨ ty = .n32 → m.toNat < 2 ^ 32 → c.toNat < 2 ^ 32 →
      (atomicNew .add ty md m c d).1.toNat = (m.toNat + c.toNat) % 2 ^ 32 ∧
      asInt ty (atomicNew .min ty md m c d).1 = min (asInt ty m) (asInt ty c) ∧
      asInt ty (atomicNew .max ty md m c d).1 = max (asInt ty m) (asInt ty c)) ∧
    (∀ ty : Ty, ty = .s64 ∨ ty = .n64 → (atomicNew .add ty md m c d).1 = m + c ∧
      asInt ty (atomicNew .min ty md m c d).1 = min (asInt ty m) (asInt ty c) ∧
      asInt ty (atomicNew .max ty md m c d).1 = max (asInt ty m) (asInt ty c)) ∧
    (m.toNat < 2 ^ 32 → c.toNat < 2 ^ 32 → d.toNat < 2 ^ 32 →
      (atomicNew .and .b32 md m c d).1 = m &&& c ∧ (atomicNew .or .b32 md m c d).1 = m ||| c ∧ (atomicNew .xor .b32 md m c d).1 = m ^^^ c ∧
      (atomicNew .exch .b32 md m c d).1 = c ∧ (atomicNew .cas .b32 md m c d).1 = if m = d then c else m) ∧
    (atomicNew .and .n64 md m c d).1 = m &&& c ∧ (atomicNew .or .n64 md m c d).1 = m ||| c ∧ (atomicNew .xor .n64 md m c d).1 = m ^^^ c ∧
    (atomicNew .exch .n64 md m c d).1 = c ∧ ((atomicNew .cas .n64 md m c d).1 = if m = d then c else m) ∧
    (m.toNat < 2 ^ 32 → c.toNat < 2 ^ 32 →
      (atomicNew .fadd .f32 md m c d).1 = BitVec.ofNat 64 (fmtF32.sum md [fmtF32.decode m.toNat, fmtF32.decode c.toNat]).bits ∧
      ∀ x ∈ ([(.f16, fmtF16), (.bf16, fmtBF16)] : List (Ty × Fmt)), (atomicNew .fadd x.1 md m c d).1 = BitVec.ofNat 64
        ((x.2.sum md [x.2.decode (m.toNat % 2 ^ 16), x.2.decode (c.toNat % 2 ^ 16)]).bits +
          (x.2.sum md [x.2.decode (m.toNat / 2 ^ 16), x.2.decode (c.toNat / 2 ^ 16)]).bits * 2 ^ 16))
/-- The remapped index: itself, its remainder, the hashed remainder, or the table's entry for an index below 4,096; a modulus of 0
stands for 2^32 (R316). -/
def Rule.RemapModesOfTheGather : Prop :=
  ∀ (r : Remap) (i : Word),
    remapIndex r 0 i = some i.toNat ∧
    remapIndex r 1 i = some (i.toNat % (if r.modulus = 0 then 2 ^ 32 else r.modulus.toNat)) ∧
    remapIndex r 2 i = some ((hashIndex i r.key).toNat % (if r.modulus = 0 then 2 ^ 32 else r.modulus.toNat)) ∧
    (i.toNat < 4096 → remapIndex r 3 i = some (tabGetD 0 r.table i.toNat).toNat) ∧ (4096 ≤ i.toNat → remapIndex r 3 i = none)

/-- GTHR sends a read of the remapped element to its register, which goes empty (R314, R331); GTHRS sends a read of its row, whose lines
in the run go empty (R317, R333). -/
def Rule.GathersLeaveAtIssue : Prop :=
  ∀ f s t, GatherFits f s t →
    (Alone s 0x2C0 f (bpPreds f) [] t → gatherOob s f t (typeWidth f.ty) = false →
      straddles s t (gatherAddr s f t).toNat (typeWidth f.ty) = false →
      ((recOf s t f.a).size = 0 → (gatherIndex s f t).getD 0 % 2 = 0) → ∃ s', exec (.gthr f) s = .next s' ∧
        (∃ a, Sends s s' t a ∧ a.kind = .gthr ∧ (a.addr : Int) = gatherAddr s f t ∧ a.width = typeWidth f.ty ∧
          a.label = labelOf s 0x2C0 f t) ∧
        (∀ r ∈ destRegs opGthr f, r ≠ 255 → (s'.thread t).full r = false) ∧ (s'.thread t).pc = nextPc s.pc ∧
        Kept (s.thread t) (s'.thread t) (destRegs opGthr f) (bpPreds f) ∧ Others s s' (bpPreds f)) ∧
    (Alone s 0x2C1 f (bpPreds f) [] t → rowsOutside s f t = false → gatherAddr s f t % 32 = 0 → rowOob s f t = false →
      ∃ s', exec (.gthrs f) s = .next s' ∧
        (∃ a, Sends s s' t a ∧ a.kind = .gthrs ∧ (a.addr : Int) = gatherAddr s f t ∧ a.width = rowBytes f ∧
          a.aux = (read32 s t f.c).toNat) ∧
        (∀ k, k < rowBytes f / 128 → (s'.unit (unitOfThread t)).lineFull ((read32 s t f.c).toNat / 128 + k) = false) ∧
        (s'.thread t).pc = nextPc s.pc ∧ Kept (s.thread t) (s'.thread t) [] (bpPreds f) ∧ Others s s' (bpPreds f))

/-- REMAP makes its context the owner on every core of its unit and sets the modulus or the key there; REMAP.TAB sends the read of the
table and waits (R315, R332). -/
def Rule.RemapTakesAndSetsTheState : Prop :=
  ∀ f s t, Alone s 0x2C2 f [] [] t → remapTaken s t = false →
    (f.bits 0 2 = 2 → (recOf s t f.a).bad = false ∧ ¬ ((recOf s t f.a).trap = true ∧ anyTabOob (recOf s t f.a) (read32 s t f.b).toNat = true)) →
    ∃ s', exec (.remap f) s = .next s' ∧
      (∀ c ∈ s.unitCores (unitOfThread t), (s'.core c).remap.owner = some (launchNo s t) ∧
        (f.bits 0 2 = 0 → (s'.core c).remap.modulus = read32 s t f.a) ∧ (f.bits 0 2 = 1 → (s'.core c).remap.key = read32 s t f.a)) ∧
      (f.bits 0 2 = 2 → (∃ a, Sends s s' t a ∧ a.kind = .remapTab ∧ a.addr = (read32 s t f.b).toNat) ∧
        (s'.thread t).sched = .blocked (.landing s.issue.serial)) ∧
      (s'.thread t).pc = nextPc s.pc ∧ Kept (s.thread t) (s'.thread t) [] [] ∧ Others s s'

/-- CBLOAD in bounds sends its read and waits. Out of bounds without the trap bit it fills its slot with +0, at once where no read of the
slot is in flight, and else it waits to write after that read (R340). -/
def Rule.CbloadReadsItsSlot : Prop :=
  ∀ f s t, Alone s 0x300 f (bpPreds f) [] t → (recOf s t f.a).bad = false →
    (cbOob s f t = false → ∃ s', exec (.cbload f) s = .next s' ∧
      (∃ a, Sends s s' t a ∧ a.kind = .codebook ∧ (a.addr : Int) = cbAddr s f t ∧ a.width = 32 ∧ a.aux = f.bits 0 6) ∧
      (s'.thread t).sched = .blocked (.landing s.issue.serial) ∧ (s'.thread t).pc = nextPc s.pc ∧
      Kept (s.thread t) (s'.thread t) [] (bpPreds f) ∧ Others s s' (bpPreds f)) ∧
    (cbOob s f t = true → (recOf s t f.a).trap = false → slotBusy s f t = true → ∃ s', exec (.cbload f) s = .next s' ∧
      (∃ a, Sends s s' t a ∧ a.kind = .codebook ∧ a.width = 0 ∧ a.aux = f.bits 0 6) ∧
      (s'.thread t).sched = .blocked (.landing s.issue.serial) ∧ (s'.thread t).pc = nextPc s.pc ∧
      Kept (s.thread t) (s'.thread t) [] (bpPreds f) ∧ Others s s' (bpPreds f)) ∧
    (cbOob s f t = true → (recOf s t f.a).trap = false → slotBusy s f t = false → ∃ s', exec (.cbload f) s = .next s' ∧
      (∀ c ∈ s.unitCores (unitOfThread t),
        (codebookOf s' c (contextOf s c (launchNo s t)) (f.bits 0 6)).entries = List.replicate 16 0) ∧
      (s'.thread t).pc = nextPc s.pc ∧ Kept (s.thread t) (s'.thread t) [] (bpPreds f) ∧ Others s s' (bpPreds f))

/-- The reads of the gather path bring their data: a row into its lines, which are full; a table's 4,096 entries and a slot's 16 entries
on every core of the unit, each at once; a CBLOAD out of bounds that has waited brings +0 (R317, R332, R340). -/
def Rule.GatherReadsBringTheirData : Prop :=
  ∀ id s a pick, tabGet s.accesses id = some a → enabled s id a = true → a.oob = false →
    (raceOn s a = true → s.sfqFull (s.coreOf a.thread) = false) →
    (∀ ps bs g s1, a.kind = .gthrs → reach s (s.coreOf a.thread) (s.partOf a.thread) a.addr a.width (a.via pick) { r := true } = .ok ps →
      readAll s a ps pick = (some (bs, g), s1) → ∃ s', exec (.gthrsLineFill id pick) s = .next s' ∧ tabGet s'.accesses id = none ∧
        bytesAre (s'.unit (unitOfThread a.thread)).run a.aux bs ∧
        ∀ k, k < bs.length / 128 → (s'.unit (unitOfThread a.thread)).lineFull (a.aux / 128 + k) = true) ∧
    (∀ bs l g s1, a.kind = .remapTab → earlierTab s id a = false →
      readTab a (Rec.ofBits (BitVec.ofNat 128 a.aux)) pick 4096 0 [] 0 0 s = .ok bs l g s1 →
      ∃ s', exec (.remapTableWrite id pick) s = .next s' ∧ tabGet s'.accesses id = none ∧
        ∀ c ∈ s1.unitCores (unitOfThread a.thread), (s'.core c).remap.label = a.label ||| l ∧ ∀ e, e < 4096 →
          tabGetD 0 (s'.core c).remap.table e = BitVec.ofNat 32 (leNat ((bs.drop (4 * e)).take 4))) ∧
    (∀ bs l g s1, a.kind = .codebook → a.width = 32 → earlierTab s id a = false → readSpan s a a.addr 32 pick = .ok bs l g s1 →
      ∃ s', exec (.codebookSlotWrite id pick) s = .next s' ∧ tabGet s'.accesses id = none ∧
        ∀ c ∈ s1.unitCores (unitOfThread a.thread),
          codebookOf s' c (contextOf s1 c (s1.unit (unitOfThread a.thread)).launch) a.aux =
            { entries := bookEntries bs, label := a.label ||| l }) ∧
    (a.kind = .codebook → a.width = 0 → earlierTab s id a = false →
      ∃ s', exec (.codebookSlotWrite id pick) s = .next s' ∧ tabGet s'.accesses id = none ∧
        ∀ c ∈ s.unitCores (unitOfThread a.thread),
          codebookOf s' c (contextOf s c (s.unit (unitOfThread a.thread)).launch) a.aux =
            { entries := List.replicate 16 0, label := a.label })

/-- COPY and COPYM of a gang that arrives whole supply its slice to the unit's next command, a new one or one that another gang has begun,
and count it; every thread goes on (R318, R336, R337). -/
def Rule.CopiesSupplyTheirSlice : Prop :=
  ∀ x ∈ copyForms, ∀ f s g sl, GangArrives s x.2.1 f [] g → CopyFits s f x.2.2 g →
    sliceOf s x.2.1 f (leaderOf s) x.2.2 = .ok sl → ∃ s' id c, exec (x.1 f) s = .next s' ∧ tabGet s'.copies id = some c ∧
      (match unitCommand s (unitOf g) ((s.gang g).copyCount + 1) with
        | none => c.unit = some (unitOf g, (s.gang g).copyCount + 1) ∧ c.started = false ∧ c.supplied = [g] ∧
            c.slices = (if sl.bytes = 0 then [] else [sl])
        | some e => id = e.1 ∧ c.unit = e.2.unit ∧ c.started = e.2.started ∧ c.supplied = e.2.supplied ++ [g] ∧
            c.slices = e.2.slices ++ (if sl.bytes = 0 then [] else [sl])) ∧
      (s'.gang g).copyCount = (s.gang g).copyCount + 1 ∧
      (∀ t ∈ s.group, (s'.thread t).pc = nextPc s.pc ∧ Kept (s.thread t) (s'.thread t) [] []) ∧ ∀ a, s'.mem.get a = s.mem.get a

/-- A unit command starts once every gang has supplied its slice; a free engine whose journal has room takes the foremost waiting command,
or a suspended one that goes ahead of it (R73, R318, R319, R323). -/
def Rule.CopyCommandsStartAndAreAccepted : Prop :=
  ∀ s,
    (∀ id c, firstWith s.copies (fun _ c => c.unit.isSome && !c.started && !c.done && c.stop.isNone && !copyStopped s c &&
        allSupplied s c) = some (id, c) →
      ∃ s' c', exec .unitCommandStart s = .next s' ∧ tabGet s'.copies id = some c' ∧ c'.started = true ∧ c'.slices = c.slices) ∧
    (∀ e x, nextAccept s = some (e, x) →
      ∃ s' c', exec .copyEngineAccept s = .next s' ∧ tabGet s'.copies x.1 = some c' ∧ c'.engine = some e ∧ c'.journalOf = some e ∧
        c'.slices = x.2.slices) ∧
    (∀ e x, nextResume s = some (e, x) →
      ∃ s' c', exec .copyResume s = .next s' ∧ tabGet s'.copies x.1 = some c' ∧ c'.engine = some e ∧ c'.suspended = false)

/-- A chunk from plain memory to plain memory carries up to 4 KiB of its slice to the destination and no other byte, where the
destination's page holds its label. It counts as written once its completion time has passed, and the next chunk of the slice follows only
then (R279, R319, R323, R370). -/
def Rule.CopyChunksCarryBytes : Prop :=
  ∀ id i pick s c sl0 sl, tabGet s.copies id = some c → c.engine.isSome = true → c.carries = true → c.suspended = false →
    copyStopped s c = false → mustSuspend s id c = false → c.slices[i]? = some sl0 → sl = sl0.settle s.time → sl0.left = true →
    (sl.pending = 0 → ∀ ps qs pa qa n, sl.srcMem = true → sl.dstMem = true → n = min 4096 (sl.bytes - sl.done) → chunkShot s c sl n = false →
      reach s 0 c.part (sl.src + sl.done) n {} { r := true } = .ok ps →
      reach s 0 c.part (sl.dst + sl.done) n {} { w := true } = .ok qs → Along ps (sl.src + sl.done) pa →
      Along qs (sl.dst + sl.done) qa → (∀ q ∈ qs, Label.subset (pagesLabel ps ||| sl.label) q.leaf.label = true) →
      ∃ s' c' g, exec (.copyChunk id i pick) s = .next s' ∧ bytesAre s'.mem qa (s.mem.read pa n) ∧ bytesElse s.mem s'.mem qa n ∧
        tabGet s'.copies id = some c' ∧ c'.bytes = c.bytes + n ∧ g ≤ c'.g ∧
        c'.slices[i]? = some { sl with pending := n, pendG := g }) ∧
    (sl.pending ≠ 0 → exec (.copyChunk id i pick) s = .next s)

/-- A unit command that has carried everything completes with an event record in its cluster's queue (R320, R321). -/
def Rule.CopiesCompleteWithARecord : Prop :=
  ∀ s id c, firstWith s.copies (fun _ c => copyEnds s c && (c.unfilled || recordFits s c)) = some (id, c) →
    c.level = none → c.stop = none → c.skipped = 0 → c.slices ≠ [] → ∃ s' c' e, exec .copyComplete s = .next s' ∧
      tabGet s'.copies id = some c' ∧ c'.done = true ∧ (s'.cluster c.cluster).events = (s.cluster c.cluster).events ++ [e] ∧
      e.kind = 1 ∧ e.status = 0 ∧ e.tag = c.tag ∧ e.unit = c.unitid ∧ e.bytes = min c.bytes (2 ^ 32 - 1) ∧ e.label = c.label ∧
      ∀ a, s'.mem.get a = s.mem.get a

/-- MREADY counts for its thread and waits for its completion (R325, R344). -/
def Rule.MreadyCountsAndWaits : Prop :=
  ∀ f s t, Alone s 0x301 f [] [] t → ∃ s', exec (.mready f) s = .next s' ∧ mreadyCount s' t = mreadyCount s t + 1 ∧
    (s'.thread t).sched = .blocked (.mready (mreadyCount s t + 1)) ∧ (s'.thread t).pc = nextPc s.pc ∧
    Kept (s.thread t) (s'.thread t) [] [] ∧ Others s s'

/-- MMA and MMAS take the lowest free entry, write the ticket, and leave the accumulators of every launched lane empty (R327, R342,
R343). -/
def Rule.MatrixOperationsTakeAnEntry : Prop :=
  ∀ x ∈ matrixForms, ∀ f s t e, Alone s x.2 f [] [] t → isUni f.d = true → MatrixFits x.2 f s t e → ∃ s' o, exec (x.1 f) s = .next s' ∧
    ResultTy s' t .b32 f.d (BitVec.ofNat 64 (e + (s.cluster (s.clusterOf t)).opCount % 2 ^ 27 * 32)) ∧
    tabGet (s'.cluster (s.clusterOf t)).mma e = some o ∧ o.gang = gangOf t ∧ o.ktiles = (paramsOf s f t).ktiles ∧
    o.n = (paramsOf s f t).n ∧ o.chunk = 0 ∧
    (∀ j, j < o.n → Label.subset ((s.gang (gangOf t)).tileLabel ((paramsOf s f t).acc + j)) o.label = true) ∧
    ((s.thread t).mmaBlock = none → Label.subset (labelOf s (asMma x.2 f) f t) o.label = true) ∧ (s'.cluster (s.clusterOf t)).opCount = ((s.cluster (s.clusterOf t)).opCount + 1) % 2 ^ 27 ∧
    (∀ u ∈ s.threadsOfGang (gangOf t), ∀ j, j < (paramsOf s f t).n → (paramsOf s f t).acc + j ≠ 255 →
      (s'.thread u).full ((paramsOf s f t).acc + j) = false) ∧
    (∀ u r, (s'.thread u).reg r = (s.thread u).reg r) ∧ (s'.thread t).pc = nextPc s.pc ∧ ∀ a, s'.mem.get a = s.mem.get a

/-- An operation's label grows with what a chunk reads: the register tiles of A and B and the lines of the chunk (R273). -/
def ChunkLabels (s : State) (o o' : MmaOp) : Prop :=
  Label.subset o.label o'.label = true ∧
    (∀ k, k < o.aRegs → Label.subset ((s.gang o.gang).tileLabel (o.aReg + k)) o'.label = true) ∧
    (∀ k, k < o.bRegs → Label.subset ((s.gang o.gang).tileLabel (o.bReg + k)) o'.label = true) ∧
    ∀ k ∈ o.chunkLines o.chunk, Label.subset (tabGetD 0 (s.unit o.unit).lineLabel k) o'.label = true

/-- A granted chunk without an index fault adds to every accumulator the rounded exact sum of its products, and rounds the addition
(R184, R324, R328). -/
def Rule.ChunksAccumulateRoundedSums : Prop :=
  ∀ cluster s i o, arbiter s cluster = some (i, o) → o.chunkFault s o.chunk = false → ∃ s' o', exec (.mmaChunkGrant cluster) s = .next s' ∧
    tabGet (s'.cluster cluster).mma i = some o' ∧ o'.chunk = o.chunk + 1 ∧ ChunkLabels s o o' ∧
    ∀ r, r < 32 → ∀ c, c < o.n → ((o'.accs.getD r []).getD c 0).toNat =
      (fmtF32.add (Round.ofCode o.mode) (fmtF32.decode ((o.accs.getD r []).getD c 0).toNat)
        (fmtF32.decode (chunkSum (Round.ofCode o.mode) ((o.kept s r o.chunk).map (fun e =>
          fprod (elemVal o.fmt o.aBook.entries (o.aBits s r e.1)) (elemVal o.fmt o.bBook.entries (o.bBits s c e.2))))).bits)).bits % 2 ^ 32

/-- A completed operation writes its accumulators, full, into every lane that has not exited, under the operation's label and its codebooks',
and frees its entry (R273, R327). -/
def Rule.MatrixCompletionWritesAccumulators : Prop :=
  ∀ s cl o i, nextMmaEnd s = some (cl, i, o) → o.fault = false → (s.gang o.gang).ended = false → (s.unit o.unit).live = true →
    o.acc + o.n ≤ 255 → (s.gang o.gang).lanes ≤ 32 → ∃ s', exec .mmaComplete s = .next s' ∧ tabGet (s'.cluster cl).mma i = none ∧
      (∀ j, j < o.n → (s'.gang o.gang).tileLabel (o.acc + j) = o.label ||| o.aBook.label ||| o.bBook.label) ∧
      (∀ t ∈ s.threadsOfGang o.gang, (s.thread t).sched ≠ .exited → ∀ j, j < o.n →
        (s'.thread t).reg (o.acc + j) = (o.accs.getD (laneOf t) []).getD j 0 ∧ (s'.thread t).full (o.acc + j) = true) ∧
      ∀ a, s'.mem.get a = s.mem.get a

/-- MWAIT of a ticket that is not outstanding, FENCE whose conditions hold, DRAIN without own writes, and FEWAIT at or below its count
let the thread go on and change no register and no byte (R343, R359, R376, R381, R382). That the threads of a gang that issue one FENCE or
DRAIN together go on together is the model's reading (log 16). -/
def Rule.WaitsThatAreOverLetTheThreadGoOn : Prop :=
  ∀ f s t,
    (Issues s 0x304 f [] [] t → outstanding s t (read32 s t f.a) = false → ∃ s', exec (.mwait f) s = .next s' ∧
      (s'.thread t).pc = nextPc s.pc ∧ Untouched s s' t [] [] [] []) ∧
    (Issues s 0x340 f [] [] t → (∀ u ∈ s.gangIssuers 0x340 f t, fenceDone s u (f.bits 0 3 + 1) = true) → ∃ s', exec (.fence f) s = .next s' ∧
      (s'.thread t).pc = nextPc s.pc ∧ Untouched s s' t [] [] [] []) ∧
    (Alone s 0x344 f [] [] t → s.ownWrites t = [] → s.mustDeliver t = false → ∃ s', exec (.drain f) s = .next s' ∧
      (s'.thread t).pc = nextPc s.pc ∧ Untouched s s' t [] [] [] []) ∧
    (Issues s 0x345 f [] [] t → incompleteCopies s (gangOf t) ≤ (read32 s t f.a).toNat → ∃ s', exec (.fewait f) s = .next s' ∧
      (s'.thread t).pc = nextPc s.pc ∧ Untouched s s' t [] [] [] [])

/-- BAR and BARA of a gang that arrives whole, without an open arrival, records to deliver at the check point or unfinished fences, arrive at
the barrier's phase; BAR waits there and BARA goes on. BARW waits at the phase of an open arrival and goes on without one (R377, R378). -/
def Rule.BarriersArriveAndWait : Prop :=
  ∀ f s g,
    (∀ x ∈ arriveForms, GangArrives s x.2.1 f [] g → openArrival s g (f.bits 0 4) = none →
      (∀ t ∈ s.group, s.meetsCheck t = false ∧ fenceDone s t (barScope s g f) = true) → ∃ s', exec (x.1 f) s = .next s' ∧
        tabGet (s'.gang g).arrivals (f.bits 0 4) = some (s.phase g (f.bits 0 4)) ∧
        (∀ t ∈ s.group, (s'.thread t).pc = nextPc s.pc ∧ Kept (s.thread t) (s'.thread t) [] [] ∧
          (s'.thread t).sched = if x.2.2 then .blocked (.barrier (f.bits 0 4) (s.phase g (f.bits 0 4))) else .ready) ∧ Others s s') ∧
    (GangArrives s 0x343 f [] g → ∃ s', exec (.barw f) s = .next s' ∧
      (∀ t ∈ s.group, (s'.thread t).pc = nextPc s.pc ∧ Kept (s.thread t) (s'.thread t) [] [] ∧
        (s'.thread t).sched = match openArrival s g (f.bits 0 4) with
          | some p => .blocked (.barrier (f.bits 0 4) p)
          | none => .ready) ∧ Others s s')

/-- A phase that every gang of the unit has reached is over: its number advances and the threads that wait at it go on (R377, R378). -/
def Rule.BarrierPhasesComplete : Prop :=
  ∀ s u k, nextPhase s = some (u, k) → ∃ s', exec .barrierPhaseComplete s = .next s' ∧
    tabGetD 0 (s'.unit u).phases k = (tabGetD 0 (s.unit u).phases k + 1) % 2 ^ 32 ∧
    ∀ t ∈ s.threadsOfUnit u, (s.thread t).sched = .blocked (.barrier k (tabGetD 0 (s.unit u).phases k)) → (s'.thread t).sched = .ready

/-- EVPOST appends its record to the cluster's queue; EVWAIT and EVPOLL on a control core take the oldest record into four registers,
and EVPOLL says whether there was one (R346, R347). -/
def Rule.EventQueueIsFirstInFirstOut : Prop :=
  ∀ f s t,
    (Alone s 0x346 f [] [] t → (s.cluster (s.clusterOf t)).events.length < 256 → ∃ s' e, exec (.evpost f) s = .next s' ∧
      (s'.cluster (s.clusterOf t)).events = (s.cluster (s.clusterOf t)).events ++ [e] ∧ e.kind = 3 ∧ e.tag = read32 s t f.a ∧
      e.unit = (s.unit (unitOfThread t)).unitid ∧ (s'.thread t).pc = nextPc s.pc ∧ Untouched s s' t [] [] [] []) ∧
    (∀ e rest n, f.d = .v n → n.toNat ≤ 251 → s.coreOf t % 5 = 4 → (s.cluster (s.clusterOf t)).events = e :: rest →
      (Alone s 0x347 f [] [] t → ∃ s', exec (.evwait f) s = .next s' ∧ (s'.cluster (s.clusterOf t)).events = rest ∧
        (∀ i, i < 4 → (s'.thread t).reg (n.toNat + i) = e.words.getD i 0) ∧ (s'.thread t).pc = nextPc s.pc ∧
        Untouched s s' t [n.toNat, n.toNat + 1, n.toNat + 2, n.toNat + 3] [] [] []) ∧
      (Alone s 0x348 f (modPred (f.bits 0 3)) [] t → ∃ s', exec (.evpoll f) s = .next s' ∧ (s'.cluster (s.clusterOf t)).events = rest ∧
        (∀ i, i < 4 → (s'.thread t).reg (n.toNat + i) = e.words.getD i 0) ∧ PredIs s' t (f.bits 0 3) true ∧
        (s'.thread t).pc = nextPc s.pc ∧
        Untouched s s' t [n.toNat, n.toNat + 1, n.toNat + 2, n.toNat + 3] [f.bits 0 3] [] [])) ∧
    (Alone s 0x348 f (modPred (f.bits 0 3)) [] t → s.coreOf t % 5 = 4 → (s.cluster (s.clusterOf t)).events = [] →
      ∃ s', exec (.evpoll f) s = .next s' ∧ PredIs s' t (f.bits 0 3) false ∧ (s'.thread t).pc = nextPc s.pc ∧
        Untouched s s' t [] [f.bits 0 3] [] [])

/-- LAUNCH and GARM on a control core, with an aligned address, a queue number, the fence done and room in the child table, send the
read of their entry and wait at themselves for it (R384, R385). -/
def Rule.LaunchesSendTheirRead : Prop :=
  ∀ x ∈ startForms, ∀ f s t, Alone s x.2.1 f [] [] t → s.coreOf t % 5 = 4 → (read64 s t f.a).toNat % 64 = 0 →
    (read64 s t f.a).toNat < 2 ^ 48 → (read32 s t f.b).toNat ≤ 255 → fenceDone s t 5 = true → (freeChild s (s.coreOf t)).isSome = true →
    ∃ s', exec (x.1 f) s = .next s' ∧
      (∃ a, Sends s s' t a ∧ a.kind = x.2.2 ∧ a.addr = (read64 s t f.a).toNat ∧ a.aux = (read32 s t f.b).toNat) ∧
      (s'.thread t).pc = s.pc ∧ (s'.thread t).sched = .blocked (.landing s.issue.serial) ∧
      Kept (s.thread t) (s'.thread t) [] [] ∧ Others s s'

/-- CNTRD writes the counter of its level or, under .ST, its status, with the values of the table CNTRD Results for a level that is
still open or that no handle names; a counter that no word holds is free (R388). CANCEL writes whether it took effect (R389). -/
def Rule.LevelsAreReadAndCancelled : Prop :=
  ∀ f s t,
    (Alone s 0x34B f [] [] t → levelCode f ≠ 0 ∨ s.coreOf t % 5 = 4 → ∃ s', exec (.cntrd f) s = .next s' ∧
      (∀ x, (namedLevel s f t).bind (fun k => s.levelAt k.1) = some x → x.outcome = none →
        (f.bit 3 = true → ResultTy s' t .b32 f.d 0xFFFFFFFF) ∧
        (f.bit 3 = false → x.counter < 2 ^ 32 → ResultTy s' t .b32 f.d (BitVec.ofNat 64 x.counter))) ∧
      (∀ x v, (namedLevel s f t).bind (fun k => s.levelAt k.1) = some x → x.outcome = some v →
        ResultTy s' t .b32 f.d (if f.bit 3 then BitVec.ofNat 64 v else 0)) ∧
      ((namedLevel s f t).bind (fun k => s.levelAt k.1) = none → ResultTy s' t .b32 f.d (if f.bit 3 then 0xFFFFFFFE else 0)) ∧
      (s'.thread t).pc = nextPc s.pc ∧ Untouched s s' t (resultRegs .b32 f.d) [] (resultUnis .b32 f.d) []) ∧
    (Alone s 0x34C f [] [] t → levelCode f ≠ 0 ∨ s.coreOf t % 5 = 4 → (∀ k, namedLevel s f t = some k → cancelTakes s k.1 = false) →
      ∃ s', exec (.cancelLevel f) s = .next s' ∧ PredIn s' t f.d false ∧ (s'.thread t).pc = nextPc s.pc ∧
        Untouched s s' t [] (resultPreds f.d) [] [])

/-- LBLRD writes the label of an operand, the gang's control label, or, once the thread's own accesses of it have landed, the label of a
scratchpad line; for a page's label it sends the read and waits (R307, R416; that it waits on every page is the model's reading: log 15). -/
def Rule.LblrdReadsLabels : Prop :=
  ∀ f s t, Alone s 0x380 f [] [] t →
    (f.bits 0 2 = 0 → ∃ s', exec (.lblrd f) s = .next s' ∧ ResultTy s' t .b32 f.d ((operandLabel s t f.a).setWidth 64) ∧
      (s'.thread t).pc = nextPc s.pc ∧ Untouched s s' t (resultRegs .b32 f.d) [] (resultUnis .b32 f.d) []) ∧
    (f.bits 0 2 = 1 → ∃ s', exec (.lblrd f) s = .next s' ∧ ResultTy s' t .b32 f.d ((s.gang (gangOf t)).ctl.setWidth 64) ∧
      (s'.thread t).pc = nextPc s.pc ∧ Untouched s s' t (resultRegs .b32 f.d) [] (resultUnis .b32 f.d) []) ∧
    (f.bits 0 2 = 2 → InBounds opLabelPage f s t → ∃ s', exec (.lblrd f) s = .next s' ∧
      Sends s s' t (accessOf s opLabelPage f t false) ∧ (s'.thread t).sched = .blocked (.landing s.issue.serial) ∧
      (s'.thread t).pc = nextPc s.pc ∧ Kept (s.thread t) (s'.thread t) [] (bpPreds f) ∧ Others s s' (bpPreds f)) ∧
    (f.bits 0 2 = 3 → (read32 s t f.a).toNat < (s.unit (unitOfThread t)).runBytes →
      (∀ e ∈ s.accesses, e.2.thread = t → e.2.kind.isScratch = true → e.2.addr / 128 ≠ (read32 s t f.a).toNat / 128) → ∃ s', exec (.lblrd f) s = .next s' ∧
      ResultTy s' t .b32 f.d ((tabGetD 0 (s.unit (unitOfThread t)).lineLabel ((read32 s t f.a).toNat / 128)).setWidth 64) ∧
      (s'.thread t).pc = nextPc s.pc ∧ Untouched s s' t (resultRegs .b32 f.d) [] (resultUnis .b32 f.d) [])

/-- EGRESS within its record's range sends its bytes for Teasel's decision, and its register goes empty (R422). -/
def Rule.EgressSendsItsRange : Prop :=
  ∀ f s t, Alone s 0x382 f [] [] t → (recOf s t f.a).bad = false → egressOob s f t = false → ∃ s', exec (.egress f) s = .next s' ∧
    (∃ a, Sends s s' t a ∧ a.kind = .egress ∧ (a.addr : Int) = (recOf s t f.a).addr (read32 s t f.b).toNat 0 ∧
      a.width = (read32 s t f.c).toNat ∧ a.aux = f.bits 0 6) ∧
    (∀ r ∈ opndRegs (slotsOf 0x382 f).d f.d, r ≠ 255 → (s'.thread t).full r = false) ∧ (s'.thread t).pc = nextPc s.pc ∧
    Kept (s.thread t) (s'.thread t) (opndRegs (slotsOf 0x382 f).d f.d) [] ∧ Others s s'

/-- RGN of a gang that arrives whole outside a region, and RGNE of one inside, without own writes or records to deliver, enter and leave
it, and their threads wait for the unit (R417). -/
def Rule.RegionsAreEnteredAndLeft : Prop :=
  ∀ f s g, (∀ t ∈ s.group, s.ownWrites t = [] ∧ s.mustDeliver t = false) →
    (GangArrives s 0x383 f [] g → (s.gang g).inRegion = false → ∃ s', exec (.rgn f) s = .next s' ∧
      (s'.gang g).inRegion = true ∧ (s'.gang g).rgn = true ∧ (s'.gang g).regionEntry = nextPc s.pc ∧
      (∀ t ∈ s.group, (s'.thread t).sched = .blocked .region ∧ (s'.thread t).pc = nextPc s.pc ∧
        Kept (s.thread t) (s'.thread t) [] []) ∧ Others s s') ∧
    (GangArrives s 0x384 f [] g → (s.gang g).inRegion = true → ∃ s', exec (.rgne f) s = .next s' ∧ (s'.gang g).rgne = true ∧
      (∀ t ∈ s.group, (s'.thread t).sched = .blocked .region ∧ (s'.thread t).pc = nextPc s.pc ∧
        Kept (s.thread t) (s'.thread t) [] []) ∧ Others s s')

/-- A region opens when every live gang of its unit has performed RGN, and commits when every one has performed RGNE and no page aborts it; the threads that
wait for it go on (R409, R417). -/
def Rule.RegionsOpenAndCommit : Prop :=
  ∀ s u x,
    (firstWith s.units (fun u x => x.live && !x.regionOpen && gangsAll s u Gang.rgn) = some (u, x) → ∃ s',
      exec .regionOpen s = .next s' ∧ (s'.unit u).regionOpen = true ∧
      ∀ t ∈ s.threadsOfUnit u, (s.thread t).sched = .blocked .region → (s'.thread t).sched = .ready) ∧
    (firstWith s.units (fun u x => x.live && x.regionOpen && x.awaits.isEmpty && gangsAll s u Gang.rgne) = some (u, x) → ∃ s',
      exec .regionCommit s = .next s' ∧ (s'.unit u).regionOpen = false ∧ (∀ g ∈ s.gangsOfUnit u, (s'.gang g).inRegion = false) ∧
      ∀ t ∈ s.threadsOfUnit u, (s.thread t).sched = .blocked .region → (s'.thread t).sched = .ready)

/-- SFQPOP writes the oldest pending record of the gang into nine gang-uniform registers and true into its predicate, and the record is
gone, so that records which waited for room enter the queue; without one it writes false (R399, R400, R418). -/
def Rule.SfqpopTakesTheOldestRecord : Prop :=
  ∀ f s t, Alone s 0x385 f (modPred (f.bits 0 3)) [] t →
    (∀ r rest k, s.pendingRecords (gangOf t) = r :: rest → f.d = .s k → k.toNat ≤ 118 → ∃ s', exec (.sfqpop f) s = .next s' ∧
      (∀ w, w < 9 → (s'.gang (gangOf t)).sreg (k.toNat + w) = BitVec.ofNat 32 (r.bits rest.length / 2 ^ (32 * w))) ∧
      PredIs s' t (f.bits 0 3) true ∧ s'.pendingRecords (gangOf t) = rest ++ entering s (gangOf t) ∧ (s'.thread t).pc = nextPc s.pc ∧
      Untouched s s' t [] [f.bits 0 3] ((List.range 9).map (k.toNat + ·)) []) ∧
    (s.pendingRecords (gangOf t) = [] → ∃ s', exec (.sfqpop f) s = .next s' ∧ PredIs s' t (f.bits 0 3) false ∧
      (s'.thread t).pc = nextPc s.pc ∧ Untouched s s' t [] [f.bits 0 3] [] [])

/-- RFT in a handler continues at the return address with p0 to p6 as they stood when the trap was taken, each label united with the one kept
then (R419). -/
def Rule.RftReturnsFromTheHandler : Prop :=
  ∀ f s t, Alone s 0x386 f (List.range 7) [] t → (s.thread t).inTrap = true → (s.thread t).trappc.toNat % 4 = 0 → ∃ s',
    exec (.rft f) s = .next s' ∧ (s'.thread t).pc = (s.thread t).trappc ∧ (s'.thread t).inTrap = false ∧
    (s'.thread t).preds = (s.thread t).shadow ∧ (∀ r, (s'.thread t).reg r = (s.thread t).reg r ∧ (s'.thread t).full r = (s.thread t).full r) ∧
    (∀ n, n < 7 → (s'.gang (gangOf t)).predLabel n = (s.gang (gangOf t)).predLabel n ||| tabGetD 0 (s.thread t).shadowLabels n) ∧
    Others s s' (List.range 7)

/-- TERM.G ends every thread of the gang and TERM.U every thread of the unit, which fails; HALT marks the unit halted and sends a notice
(R420, R421). -/
def Rule.TerminationAndHalt : Prop :=
  ∀ f s t,
    (Alone s 0x387 f [] [] t → ∃ s', exec (.termG f) s = .next s' ∧ (s'.gang (gangOf t)).ended = true ∧
      (∀ u ∈ s.threadsOfGang (gangOf t), (s'.thread u).sched = .exited) ∧ s'.pendingRecords (gangOf t) = [] ∧ Others s s') ∧
    (Alone s 0x388 f [] [] t → ∃ s', exec (.termU f) s = .next s' ∧ (s'.unit (unitOfThread t)).faulted = true ∧
      (∀ u ∈ s.threadsOfUnit (unitOfThread t), (s'.thread u).sched = .exited) ∧ Others s s') ∧
    (Alone s 0x389 f [] [] t → ∃ s', exec (.halt f) s = .next s' ∧ (s'.unit (unitOfThread t)).halted = true ∧
      (s'.thread t).pc = nextPc s.pc ∧ Untouched s s' t [] [] [] [])

/-! Commands. -/

/-- A message to a disabled command endpoint is refused (R57), and one that waits for a reconfiguration joins the messages that wait (R64).
A sequenced command with number 0 is a bad header, one in order that its header refuses is acknowledged with the refusal, one accepted
before is a duplicate, and any other is a gap (R39). -/
def Rule.MessagesAreSequenced : Prop :=
  (∀ x ∈ commandForms, ∀ m s, m.command = x.2 → reachable s m.ep = true → m.toMgmt = false → (s.endpoint m.ep).enabled = false →
    ∃ s', exec (x.1 m) s = .next s' ∧ s'.mem = s.mem ∧ s'.outbox = s.outbox ++ [if m.data.length < 32 then plainNotice m stEndpointDisabled 0
      else { plainNotice m stEndpointDisabled m.tag with hseq := m.hseq }]) ∧
  (∀ x ∈ commandForms, ∀ m s, m.command = x.2 → reachable s m.ep = true → (m.toMgmt = true ∨ (s.endpoint m.ep).enabled = true) →
    mustWait s m = true → exec (x.1 m) s = .next { s with waiting := s.waiting ++ [m] }) ∧
  (∀ x ∈ sequencedForms, ∀ m s, Heard s x.2 m → ∃ s', exec (x.1 m) s = .next s' ∧
    (m.hseq = 0 → s'.outbox = s.outbox ++ [plainNotice m stBadHeader m.tag]) ∧
    (∀ k, m.hseq ≠ 0 → m.hseq = nextHost (s.endpoint m.ep).lastAccepted → headerRefusal s m = some k →
      s'.outbox = s.outbox ++ [ackOf s m k] ∧ (s'.endpoint m.ep).lastAccepted = m.hseq ∧ s'.mem = s.mem) ∧
    (m.hseq ≠ 0 → m.hseq ≠ nextHost (s.endpoint m.ep).lastAccepted → s'.mem = s.mem ∧
      (s'.endpoint m.ep).lastAccepted = (s.endpoint m.ep).lastAccepted ∧
      s'.outbox = s.outbox ++ [{ ackOf s m (if (s.endpoint m.ep).isDuplicate m.hseq then stDuplicate else stSeqGap) with
        kind := 3, detail := if (s.endpoint m.ep).isDuplicate m.hseq then 0 else (s.endpoint m.ep).lastAccepted }]))

/-- QUERY_STATE completes: it answers with the endpoint's last accepted, last completed and next device number (R40). -/
def Rule.QueryStateAnswers : Prop :=
  ∀ m s, Unsequenced s .queryState m → ∃ s', exec (.queryState m) s = .next s' ∧ s'.mem = s.mem ∧
    s'.outbox = s.outbox ++ [answerOf m { status := stOk, payload := (leBytes 4 (s.endpoint m.ep).lastAccepted ++
      leBytes 4 (s.endpoint m.ep).lastCompleted ++ leBytes 4 (s.endpoint m.ep).nextDev) }]

/-- REPLAY completes: the stored messages from the number that it gives go out again, in order, and then its answer; where the oldest of
them is no longer stored it answers REPLAY_LOST alone (R43). That a REPLAY from the next number completes with OK is the model's choice
(log 28). -/
def Rule.ReplayResends : Prop :=
  ∀ m s, Unsequenced s .replay m → ∃ s', exec (.replay m) s = .next s' ∧ s'.mem = s.mem ∧
    (fieldAt m.payload 0 4 = (s.endpoint m.ep).nextDev → s'.outbox = s.outbox ++ [answerOf m Reply.ok]) ∧
    (∀ before o after, (s.endpoint m.ep).stored = before ++ o :: after → o.seq = fieldAt m.payload 0 4 →
      (∀ b ∈ before, b.seq ≠ o.seq) → o.seq ≠ (s.endpoint m.ep).nextDev →
      s'.outbox = s.outbox ++ (o :: after).map (fun o => { o with dest := m.sender }) ++ [answerOf m Reply.ok]) ∧
    (fieldAt m.payload 0 4 ≠ (s.endpoint m.ep).nextDev → (∀ o ∈ (s.endpoint m.ep).stored, o.seq ≠ fieldAt m.payload 0 4) →
      s'.outbox = s.outbox ++ [answerOf m { status := stReplayLost }])

/-- A message shorter than its header, or of another length than its header says, completes with its answer: a message of kind 3 with
BAD_HEADER and tag 0, and nothing else happens (R449). -/
def Rule.ShortMessagesAreAnswered : Prop :=
  ∀ m s, reachable s m.ep = true → mustWait s m = false → (m.toMgmt = true ∨ (s.endpoint m.ep).enabled = true) → m.short = true →
    m.command = .short → ∃ s', exec (.shortMessage m) s = .next s' ∧ s' = { s with outbox := s.outbox ++ [plainNotice m stBadHeader 0] }

/-- JOB_OPEN opens a job with its phase 0; PHASE_NEXT closes the open phase and opens the next; JOB_CLOSE closes both; SAVE_AREA registers
the area; RESUME_JOB gives the saved units back to dispatch. A job that is not there is a bad entry (R50, R51, R59, R412, R448). That RESUME_JOB
completes at once, its units only given back to dispatch, is the model's reading: log 20. -/
def Rule.JobCommandsTakeEffect : Prop :=
  ∀ m s,
    (InOrder s .jobOpen m → ∃ s', exec (.jobOpen m) s = .next s' ∧
      (m.job = 0 ∨ (tabGet (s.endpoint m.ep).jobs m.job).isSome = true → Completed s s' m Reply.badJob) ∧
      (m.job ≠ 0 → tabGet (s.endpoint m.ep).jobs m.job = none → 8 ≤ openJobs (s.endpoint m.ep) →
        Completed s s' m { status := stJobLimit }) ∧
      (m.job ≠ 0 → tabGet (s.endpoint m.ep).jobs m.job = none → openJobs (s.endpoint m.ep) < 8 → Completed s s' m Reply.ok ∧
        tabGet (s'.endpoint m.ep).jobs m.job = some { level := s.nextId, phase := s.nextId + 1, parts := (s.endpoint m.ep).bound.toList } ∧
        s'.levelAt s.nextId = some { kind := 4, ident := m.job, parent := none, ep := m.ep, job := s.nextId, counter := 1 } ∧
        s'.levelAt (s.nextId + 1) = some { kind := 3, ident := 0, parent := some s.nextId, ep := m.ep, job := s.nextId })) ∧
    (∀ x, tabGet (s.endpoint m.ep).jobs m.job = some x → x.isOpen = true →
      (InOrder s .jobClose m → ∃ s', exec (.jobClose m) s = .next s' ∧ Completed s s' m Reply.ok ∧
        tabGet (s'.endpoint m.ep).jobs m.job = some { x with isOpen := false } ∧
        ∀ k ∈ [x.phase, x.level], ∀ l, s.levelAt k = some l → s'.levelAt k = some { l with closed := true }) ∧
      (InOrder s .phaseNext m → x.phase < s.nextId → x.level < s.nextId → x.phase ≠ x.level → ∃ s', exec (.phaseNext m) s = .next s' ∧
        Completed s s' m Reply.ok ∧
        tabGet (s'.endpoint m.ep).jobs m.job = some { x with phase := s.nextId, phaseNumber := x.phaseNumber + 1 } ∧
        s'.levelAt s.nextId = some { kind := 3, ident := x.phaseNumber + 1, parent := some x.level, ep := m.ep, job := x.level,
                                     fail := if x.failed then some stDependencyFailed else none } ∧
        (∀ l, s.levelAt x.phase = some l → s'.levelAt x.phase = some { l with closed := true }) ∧
        ∀ l, s.levelAt x.level = some l → s'.levelAt x.level = some { l with counter := l.counter + 1 }) ∧
      (InOrder s .saveArea m → fieldAt m.payload 0 8 % 4096 = 0 → fieldAt m.payload 0 8 < vaTop → fieldAt m.payload 8 8 % 4096 = 0 →
        fieldAt m.payload 8 8 < 2 ^ 40 → ∃ s', exec (.saveArea m) s = .next s' ∧ Completed s s' m Reply.ok ∧
        tabGet (s'.endpoint m.ep).jobs m.job = some { x with
          saveArea := if fieldAt m.payload 8 8 = 0 then none else some (fieldAt m.payload 0 8, fieldAt m.payload 8 8)
          areaPart := partOfEp s m.ep })) ∧
    (∀ x, InOrder s .resumeJob m → tabGet (s.endpoint m.ep).jobs m.job = some x → hasSaved s x = true →
      imageIntact s x = true → ∃ s', exec (.resumeJob m) s = .next s' ∧ Completed s s' m Reply.ok ∧
        tabGet (s'.endpoint m.ep).jobs m.job = some { x with saved := false, image := none, copies := [] } ∧
        ∀ k y, tabGet s.saved k = some y → tabGet s'.saved k = some (if y.job = x.level then { y with wanted := true } else y)) ∧
    (∀ x ∈ ([(.jobClose, .jobClose), (.phaseNext, .phaseNext), (.resumeJob, .resumeJob)] : List ((Message → Instr) × Command)),
      InOrder s x.2 m → tabGet (s.endpoint m.ep).jobs m.job = none →
      ∃ s', exec (x.1 m) s = .next s' ∧ Completed s s' m Reply.badJob ∧ s'.levels = s.levels)

/-- QUEUE_CONFIG takes a queue with a depth from 16 to 4,096 that is a power of two; SUBMIT appends its entries in order under the job's
phase, or none of them, and what joins a cancelled phase enters no queue; CANCEL cancels what it names, or says that nothing was left; a status read
gives the level's record (R44 to R46, R50 to R53). That a failed dependency is answered before the queue's room is tested is the model's reading:
log 21. -/
def Rule.QueueCommandsTakeEffect : Prop :=
  ∀ m s p q x, p = partOfEp s m.ep → q = fieldAt m.payload 0 1 → x = tabGetD {} (s.part p).queues q →
    (InOrder s .queueConfig m → zeroBytes m.payload 1 4 = true → (∃ k, 4 ≤ k ∧ k ≤ 12 ∧ fieldAt m.payload 4 4 = 2 ^ k) →
      ∃ s', exec (.queueConfig m) s = .next s' ∧
        ((∃ e, x.owner = some e ∧ e ≠ m.ep) → Completed s s' m { status := stNotOwner }) ∧
        (x.owner = none ∨ x.owner = some m.ep → fieldAt m.payload 4 4 < x.entries.length → Completed s s' m { status := stQueueFull }) ∧
        (x.owner = none ∨ x.owner = some m.ep → x.entries.length ≤ fieldAt m.payload 4 4 → Completed s s' m Reply.ok ∧
          tabGet (s'.part p).queues q = some { x with owner := some m.ep, depth := fieldAt m.payload 4 4 })) ∧
    (∀ j l, InOrder s .submit m → zeroBytes m.payload 1 2 = true → fieldAt m.payload 2 2 ≠ 0 → fieldAt m.payload 2 2 ≤ 1023 →
      zeroBytes m.payload 4 8 = true → (∀ b ∈ entriesOf m, entryOk b = true) → x.owner = some m.ep →
      tabGet (s.endpoint m.ep).jobs m.job = some j → j.isOpen = true → s.levelAt j.phase = some l →
      ∃ s', exec (.submit m) s = .next s' ∧ s'.mem = s.mem ∧
        (j.failed = true → Completed s s' m { status := stDependencyFailed } ∧ s'.parts = s.parts) ∧
        (j.failed = false → x.depth < x.entries.length + fieldAt m.payload 2 2 →
          Completed s s' m { status := stQueueFull } ∧ s'.parts = s.parts) ∧
        (j.failed = false → l.cancelled = true → x.entries.length + fieldAt m.payload 2 2 ≤ x.depth → Completed s s' m Reply.ok ∧ s'.parts = s.parts) ∧
        (j.failed = false → l.cancelled = false → x.entries.length + fieldAt m.payload 2 2 ≤ x.depth → Completed s s' m Reply.ok ∧
          ∃ es, (tabGetD {} (s'.part p).queues q).entries = x.entries ++ es ∧ es.map QEntry.bytes = entriesOf m ∧
            ∀ e ∈ es, e.ep = m.ep ∧ e.job = j.level ∧ e.phase = j.phase ∧ e.begun = none)) ∧
    (∀ j, InOrder s .cancel m → 1 ≤ q → q ≤ 4 → zeroBytes m.payload 1 4 = true → (q = 4 → fieldAt m.payload 4 4 = 0) →
      tabGet (s.endpoint m.ep).jobs m.job = some j → ∃ s', exec (.cancelCmd m) s = .next s' ∧ s'.mem = s.mem ∧
        (toCancel s j q (fieldAt m.payload 4 4) = [] → Completed s s' m { status := stAlreadyDone } ∧ s'.levels = s.levels) ∧
        (toCancel s j q (fieldAt m.payload 4 4) ≠ [] → Completed s s' m Reply.ok ∧
          ∀ k ∈ toCancel s j q (fieldAt m.payload 4 4), cancelTakes s k = true →
            ∃ l, s'.levelAt k = some l ∧ l.cancelled = true ∧ l.closed = true)) ∧
    (∀ kind ident, InOrder s .statusWindowRead m → fieldAt m.payload 0 8 % 2 ^ 62 = kind * 2 ^ 32 + ident → ident < 2 ^ 32 → 1 ≤ kind →
      kind ≤ 4 → (kind = 4 → ident = 0) → fieldAt m.payload 8 4 = 16 → zeroBytes m.payload 12 16 = true →
      ∃ s', exec (.statusWindowRead m) s = .next s' ∧ s'.levels = s.levels ∧
        (shownLevel s m kind ident = none →
          Completed s s' m { status := stOk, payload := [0, 0, 0, 0, 0xFE#8, 0xFF#8, 0, 0, 0, 0, 0, 0, 0, 0, 0, 0] }) ∧
        (∀ l, shownLevel s m kind ident = some l →
          ∃ b : List Byte, Completed s s' m { status := stOk, payload := b ++ [0, 0] ++ leBytes 4 l.message ++ [0, 0, 0, 0] } ∧
            (∀ k, l.status = some k → b = leBytes 4 0 ++ leBytes 2 k) ∧
            (l.status = none → l.counter < 2 ^ 32 → b = leBytes 4 l.counter ++ [0xFF#8, 0xFF#8])))

/-- A host write whose pages its ingress label may enter writes its bytes and no other byte; in the control area it writes the ring. A
host read that nothing labels returns the bytes; one that Teasel refuses returns none and is logged (R41, R242, R243, R280 to R283). That a write
to the control area may overwrite the head and the ring error too is the model's reading: log 21. -/
def Rule.HostTransfersMoveBytes : Prop :=
  ∀ m s p a, p = partOfEp s m.ep → m.toMgmt = false →
    (∀ ps pa, InOrder s .memWrite m → a = plainAddress (fieldAt m.payload 0 8) →
      ringPart (isPhysical (fieldAt m.payload 0 8)) a (m.payload.length - 8) = 0 →
      hostPieces s p (isPhysical (fieldAt m.payload 0 8)) { shared := true, unheld := true } a (m.payload.length - 8) = .ok ps →
      (∀ x ∈ ps, ingressFails s p (isPhysical (fieldAt m.payload 0 8)) (ingressLabel s p m.sender) x = false) → Along ps a pa →
      8 < m.payload.length → ∃ s', exec (.memWrite m) s = .next s' ∧ Completed s s' m Reply.ok ∧
        bytesAre s'.mem pa (m.payload.drop 8) ∧ bytesElse s.mem s'.mem pa (m.payload.length - 8)) ∧
    (InOrder s .memWrite m → a = fieldAt m.payload 0 8 → a + (m.payload.length - 8) ≤ controlBytes → 8 < m.payload.length →
      ∃ s', exec (.memWrite m) s = .next s' ∧ Completed s s' m Reply.ok ∧ bytesAre (s'.part p).ring a (m.payload.drop 8) ∧
        bytesElse (s.part p).ring (s'.part p).ring a (m.payload.length - 8) ∧ s'.mem = s.mem) ∧
    (∀ ps pa n, InOrder s .memRead m → a = plainAddress (fieldAt m.payload 0 8) → n = fieldAt m.payload 8 4 → n ≠ 0 → n ≤ 65504 →
      zeroBytes m.payload 12 16 = true → ringPart (isPhysical (fieldAt m.payload 0 8)) a n = 0 →
      hostPieces s p (isPhysical (fieldAt m.payload 0 8)) { shared := true, unheld := false } a n = .ok ps → Along ps a pa →
      ∃ s', exec (.memRead m) s = .next s' ∧ s'.mem = s.mem ∧
        (pagesLabel ps = 0 → Completed s s' m { status := stOk, payload := s.mem.read pa n }) ∧
        (∀ before x after, ps = before ++ x :: after → (∀ y ∈ before, y.leaf.label = 0) → x.leaf.label ≠ 0 → peerIndex s p m.sender = none →
          Completed s s' m { status := stNotPermitted, index := x.va - a } ∧
          ∃ e, (s'.part p).refusals = ((s.part p).refusals ++ [e]).drop ((s.part p).refusals.length + 1 - 256) ∧
            e.reason = 1 ∧ e.label = pagesLabel ps ∧ e.bytes = n ∧ e.path = 1))

/-- LOAD_OBJECT of an image that passes every check enters the object at its base under its label and completes with its handle, and
leaves no trace of one that fails; UNLOAD_OBJECT removes an object that no work names (R30 to R32). Which unused handle it takes is the model's
choice (log 22), and so is the order of its frames and which of two overlapping records fails (log 27). -/
def Rule.ObjectsAreLoadedAndUnloaded : Prop :=
  ∀ m s p, p = partOfEp s m.ep →
    (∀ ps, InOrder s .loadObject m → 64 ≤ fieldAt m.payload 8 4 → zeroBytes m.payload 14 16 = true →
      stagePieces s p (isPhysical (fieldAt m.payload 0 8)) (BitVec.ofNat 16 (fieldAt m.payload 12 2))
        (plainAddress (fieldAt m.payload 0 8)) (fieldAt m.payload 8 4) = .ok ps → ∃ s', exec (.loadObject m) s = .next s' ∧
        (∀ im base frames secs secs', Loads s p (ps.flatMap (pieceBytes s)) im base frames secs secs' →
          Completed s s' m { status := stOk, detail := freeHandle (s.part p).objects (s.nextId + 1) } ∧
          ∃ o, tabGet (s'.part p).objects (freeHandle (s.part p).objects (s.nextId + 1)) = some o ∧ o.base = base ∧ o.size = im.size ∧ o.frames = frames ∧
            o.label = BitVec.ofNat 16 (fieldAt m.payload 12 2) ∧ o.kernels.length = im.kernels) ∧
        (∀ st i, checkImageBytes (ps.flatMap (pieceBytes s)) = .error (st, i) → Completed s s' m { status := st, index := i } ∧
          s'.mem = s.mem ∧ s'.parts = s.parts)) ∧
    (InOrder s .unloadObject m → zeroBytes m.payload 4 8 = true → ∃ s', exec (.unloadObject m) s = .next s' ∧
      (tabGet (s.part p).objects (fieldAt m.payload 0 4) = none → Completed s s' m { status := stNoObject } ∧ s'.mem = s.mem) ∧
      (∀ o, tabGet (s.part p).objects (fieldAt m.payload 0 4) = some o →
        (objectBusy s p (fieldAt m.payload 0 4) o = true → Completed s s' m { status := stObjectBusy } ∧ s'.mem = s.mem) ∧
        (objectBusy s p (fieldAt m.payload 0 4) o = false → Completed s s' m Reply.ok ∧
          tabGet (s'.part p).objects (fieldAt m.payload 0 4) = none)))

/-! The management endpoint. -/

/-- A record of Teasel that is well formed, fresh, made for this device and signed as it must be changes its table and the partition's
serial; any other leaves everything (R282 to R285). That a replacing policy counts from 0 and what a REVOKE leaves are the model's reading (log 24);
so are the layout of the tables (log 6) and the lesser length of a read at their end (log 21). -/
def Rule.TeaselRecordsAreInstalled : Prop :=
  (∀ x ∈ teaselForms, ∀ m s a r p, InOrder s x.command m → a = fieldAt m.payload 0 8 → r = m.payload.drop 8 → p = a / 2 ^ 8 % 16 →
    a / 2 ^ 12 = 0 → badRecord s x.form a r = none → ∃ s', exec (x.instr m) s = .next s' ∧ s'.mem = s.mem ∧
      (recordFresh s p r = true → x.allowed s p r = true → Completed s s' m Reply.ok ∧ x.leaves (s.part p) (s'.part p) r) ∧
      (recordFresh s p r = false ∨ x.allowed s p r = false → Completed s s' m { status := stNotPermitted } ∧ s'.parts = s.parts)) ∧
  (∀ m s x, InOrder s .teaselTableRead m → fieldAt m.payload 0 8 / 2 ^ 12 = 0 → fieldAt m.payload 8 4 ≠ 0 → fieldAt m.payload 8 4 ≤ 65504 →
    zeroBytes m.payload 12 16 = true → tabGet s.parts (fieldAt m.payload 0 8 / 2 ^ 8 % 16) = some x →
    ∃ s', exec (.teaselTableRead m) s = .next s' ∧ s'.parts = s.parts ∧
      Completed s s' m { status := stOk, payload := (x.table (fieldAt m.payload 0 8 % 256)).take (fieldAt m.payload 8 4) }) ∧
  (∀ s, (s.periods + 1) * periodTicks ≤ s.time → ∃ s', exec .policyPeriod s = .next s' ∧ s'.periods = s.periods + 1 ∧
    ∀ p x k y, tabGet s.parts p = some x → tabGet x.policies k = some y →
      tabGet (s'.part p).policies k = some { y with count := 0 })

/-- ENDPOINT_ENABLE starts a disabled endpoint afresh and begins to disable an enabled one, bit by bit; NONCE is kept; the report and the
boot status are read; a replacement image is gathered while the boot ROM waits for one, and where it verifies it is flashed and booted; a
genuine configuration record configures the device once (R57, R442 to R446). That a transfer beyond 64 MiB and one that does not verify are
NOT_PERMITTED, the latter dropped, and a record that is not whole a bad entry at byte 8, is the model's reading (log 25), and so is the lesser
length of a read at a window's end (log 21). -/
def Rule.ManagementCommandsTakeEffect : Prop :=
  ∀ m s,
    (InOrder s .endpointEnable m → ∃ s', exec (.endpointEnable m) s = .next s' ∧ Completed s s' m Reply.ok ∧ ∀ n, n < 64 →
      s'.endpoint n = match (fieldAt m.payload 0 8).testBit n, (s.endpoint n).enabled with
        | true, false => (s.endpoint n).enable
        | false, true => { s.endpoint n with enabled := false, disabling := true }
        | _, _ => s.endpoint n) ∧
    (InOrder s .nonce m → fieldAt m.payload 0 8 / 2 ^ 8 = 0 → (m.payload.drop 8).length = 32 → ∃ s', exec (.nonce m) s = .next s' ∧
      Completed s s' m Reply.ok ∧ s'.boot = { s.boot with nonce := m.payload.drop 8 }) ∧
    (∀ x ∈ ([(.attestationReport, .attestationReport, Boot.report), (.bootStatus, .bootStatus, Boot.status)] :
        List ((Message → Instr) × Command × (Boot → List Byte))),
      InOrder s x.2.1 m → fieldAt m.payload 0 8 / 2 ^ 8 = 0 → fieldAt m.payload 8 4 ≠ 0 → fieldAt m.payload 8 4 ≤ 65504 →
      zeroBytes m.payload 12 16 = true → ∃ s', exec (x.1 m) s = .next s' ∧ s'.boot = s.boot ∧
        Completed s s' m { status := stOk, payload := (x.2.2 s.boot).take (fieldAt m.payload 8 4) }) ∧
    (InOrder s .replacementImage m → fieldAt m.payload 0 8 / 2 ^ 8 = 0 → ∃ s', exec (.replacementImage m) s = .next s' ∧ s'.time = s.time ∧
      (3 ≤ s.boot.state → Completed s s' m { status := stNotPermitted } ∧ s'.boot = s.boot) ∧
      (s.boot.state < 3 → 8 < m.payload.length → s.boot.transfer.length + (m.payload.length - 8) ≤ 2 ^ 26 → Completed s s' m Reply.ok ∧
        s'.boot = { s.boot with transfer := s.boot.transfer ++ m.payload.drop 8 }) ∧
      (s.boot.state < 3 → 2 ^ 26 < s.boot.transfer.length + (m.payload.length - 8) → 8 < m.payload.length →
        Completed s s' m { status := stNotPermitted } ∧ s'.boot = s.boot) ∧
      (s.boot.state < 3 → m.payload.length = 8 → imageVerifies s.boot.transfer = true → Completed s s' m Reply.ok ∧
        s'.boot = { state := 0, since := s.time, flash := s.boot.transfer, boots := s.boot.boots + 1 }) ∧
      (s.boot.state < 3 → m.payload.length = 8 → imageVerifies s.boot.transfer = false → Completed s s' m { status := stNotPermitted } ∧
        s'.boot = { s.boot with transfer := [] })) ∧
    (InOrder s .configurationRecord m → fieldAt m.payload 0 8 / 2 ^ 8 = 0 →
      ∃ s', exec (.configurationRecord m) s = .next s' ∧
        (s.boot.state ≠ 4 → Completed s s' m { status := stNotPermitted } ∧ s'.boot = s.boot) ∧
        (s.boot.state = 4 → Config.configRecord (m.payload.drop 8) = none → Completed s s' m (Reply.badField 8) ∧ s'.boot = s.boot) ∧
        ∀ r, s.boot.state = 4 → Config.configRecord (m.payload.drop 8) = some r →
          (r.addresses.length ≠ 65 ∨ 64 ≤ r.device → Completed s s' m (Reply.badField 8) ∧ s'.boot = s.boot) ∧
          (r.addresses.length = 65 → r.device < 64 → recordGenuine s r = true → Completed s s' m Reply.ok ∧ s'.boot = { s.boot with
              state := 5, serial := r.serial, device := r.device, configDigest := shake256 (m.payload.drop 8) 32 } ∧
            ∀ n, n ≤ 64 → (s'.endpoint n).addr = r.addresses[n]?) ∧
          (r.addresses.length = 65 → r.device < 64 → recordGenuine s r = false → Completed s s' m { status := stNotPermitted } ∧ s'.boot = s.boot))

/-- RECONFIGURE refuses a list whole, with the first entry that fails and its reason, or accepts it and completes when its entries have
applied one by one: a partition is created, destroyed once it is still, given engines or endpoints, and released stacks read zero
(R60 to R64). That a CREATE over stacks being cleared waits until they are clear is the model's reading: log 25. -/
def Rule.ReconfigurationAppliesEntryByEntry : Prop :=
  (∀ m s, InOrder s .reconfigure m → fieldAt m.payload 0 2 ≠ 0 → fieldAt m.payload 0 2 ≤ 64 → zeroBytes m.payload 2 8 = true →
    ∃ s', exec (.reconfigure m) s = .next s' ∧ s'.parts = s.parts ∧ s'.mem = s.mem ∧
      (∀ i k, checkList s 0 (planOf s) (recEntries m) = some (i, k) →
        Completed s s' m { status := stBadEntry, index := i, detail := k } ∧ s'.boot = s.boot) ∧
      (checkList s 0 (planOf s) (recEntries m) = none → s'.outbox = s.outbox ++ [ackOf s m stAccepted] ∧
        ∃ r, s'.boot.reconf = some r ∧ r.hseq = m.hseq ∧ r.entries = recEntries m)) ∧
  (∀ s r e rest, s.boot.reconf = some r → r.entries = e :: rest →
    (∀ i ∈ ([(1, .createPart), (2, .destroyPart), (3, .assignCopy), (4, .bindEndpoint)] : List (Nat × Instr)), recKind e = i.1 →
      ∃ s', exec i.2 s = .next s' ∧ (s' = s ∨ s'.boot.reconf = s.boot.reconf ∨
        s'.boot.reconf = some { r with entries := rest } ∧ (rest ≠ [] ∨ s'.boot.clearing ≠ []) ∨
        s'.boot.reconf = none ∧ rest = [] ∧ s'.boot.clearing = [] ∧ ∃ o, s'.outbox = s.outbox ++ [o] ∧ o.kind = 2 ∧ o.ep = 64 ∧
          o.hseq = r.hseq ∧ o.tag = r.tag ∧ o.status = stOk)) ∧
    (recKind e = 1 → (∀ k ∈ s.boot.clearing, k < fieldAt e 4 1 ∨ fieldAt e 4 1 + fieldAt e 5 1 ≤ k) → ∃ s', exec .createPart s = .next s' ∧
      tabGet s'.parts (recPart e) = some { first := fieldAt e 4 1, size := fieldAt e 5 1 } ∧
      s'.boot.reconf = (if rest = [] ∧ s.boot.clearing = [] then none else some { r with entries := rest })) ∧
    (recKind e = 1 → (∃ k ∈ s.boot.clearing, fieldAt e 4 1 ≤ k ∧ k < fieldAt e 4 1 + fieldAt e 5 1) → exec .createPart s = .next s) ∧
    (∀ ep j x l, recKind e = 2 → (jobsOfPart s (recPart e)).filter (fun x => jobStands s x.2.2) = [(ep, j, x)] →
      s.levelAt x.level = some l → ∃ s', exec .destroyPart s = .next s' ∧ s'.boot.reconf = s.boot.reconf ∧
        (x.saved = false → ∃ l', s'.levelAt x.level = some l' ∧ l'.fail = some stPartitionGone ∧ l'.closed = true) ∧
        (x.saved = true → tabGet (s'.endpoint ep).jobs j = none ∧ s'.outbox = s.outbox)) ∧
    (recKind e = 2 → (jobsOfPart s (recPart e)).filter (fun x => jobStands s x.2.2) = [] → partStill s (recPart e) = true →
      ∃ s', exec .destroyPart s = .next s' ∧ tabGet s'.parts (recPart e) = none ∧
        s'.boot.clearing = s.boot.clearing ++ (List.range (s.part (recPart e)).size).map (fun i => (s.part (recPart e)).first + i) ∧
        (∀ n, (s.endpoint n).bound = some (recPart e) → (s'.endpoint n).bound = none) ∧ ∀ x ∈ s'.engines, x.2 ≠ recPart e) ∧
    (recKind e = 3 → ∃ s', exec .assignCopy s = .next s' ∧
      ∀ i, i < 24 → tabGet s'.engines i = if (fieldAt e 4 4).testBit i then some (recPart e) else tabGet s.engines i) ∧
    (recKind e = 4 → ∃ s', exec .bindEndpoint s = .next s' ∧ (s'.endpoint (fieldAt e 4 1)).bound = some (recPart e))) ∧
  (∀ s, s.boot.clearing ≠ [] → ∃ s', exec .stackClear s = .next s' ∧ s'.boot.clearing = [] ∧
    (∀ r, s.boot.reconf = some r → r.entries = [] → s'.boot.reconf = none) ∧ ∀ a,
    s'.mem.get a = if s.boot.clearing.any (fun k => k * 2 ^ 36 ≤ a && a < (k + 1) * 2 ^ 36) then 0 else s.mem.get a)

/-- Power-up keeps the image in flash and nothing else that a program left: memory reads zero (the model's choice, log 1); the count of boots,
the numbers and counters of the model, what has been sent and the agenda go on (log 25). The boot then goes on step by step: the boot ROM
verifies the image, which runs and derives the identity into state 4, or state 2 where it does not verify and 7 where the device's response
is not corrected (R442, R443, R446; that each takes time is the model's choice: log 25). An endpoint being disabled quiesces or cancels its
jobs, those too that their area no longer holds, and at last sends its final notice, which takes its last number and carries it (R58; log 28). -/
def Rule.PowerUpAndDisableEndThings : Prop :=
  (∀ s, exec .powerUpReset s = .next { State.reset with
    endpoints := [(64, { addr := some Config.fusedAddress })],
    boot := { state := 0, since := 0, flash := s.boot.flash, boots := s.boot.boots + 1 }, fresh := s.fresh, nextId := s.nextId,
    outbox := s.outbox, agenda := s.agenda }) ∧
  (∀ s, s.boot.boots ≠ 0 → s.boot.since < s.time →
    (s.boot.state = 0 → step s = .next (s.setBoot { s.boot with state := 1, since := s.time })) ∧
    (s.boot.state = 1 → imageVerifies s.boot.flash = true → step s = .next (s.setBoot { s.boot with
      state := 3, since := s.time, imageDigest := shake256 (Config.imageParts s.boot.flash).1 32 })) ∧
    (s.boot.state = 1 → imageVerifies s.boot.flash = false → step s = .next (s.setBoot { s.boot with state := 2, since := s.time })) ∧
    (s.boot.state = 3 → Config.pufCorrects s.boot.boots = false → step s = .next (s.setBoot { s.boot with state := 7, since := s.time })) ∧
    (s.boot.state = 3 → Config.pufCorrects s.boot.boots = true → ∃ key, key.length = 1793 ∧
      (∃ zeros, Config.falconPublic (shake256 Config.pufResponse 48) ++ List.replicate zeros 0 =
        key ++ (Config.falconPublic (shake256 Config.pufResponse 48) ++ List.replicate zeros 0).drop 1793) ∧
      step s = .next (s.setBoot { s.boot with
        state := 4, since := s.time, seed := shake256 Config.pufResponse 48, publicKey := key, identity := shake256 key 32 }))) ∧
  (∀ s ep e, firstWith s.endpoints (fun _ e => e.disabling) = some (ep, e) → tabGet s.endpoints ep = some e →
    (∀ j x, jobToQuiesce s ep = some (j, x) → areaValid s x = true → ∃ s' x', exec .endpointDisable s = .next s' ∧
      tabGet (s'.endpoint ep).jobs j = some x' ∧ x'.saved = true) ∧
    (∀ j x, jobToQuiesce s ep = some (j, x) → (s.levelAt x.level).map Level.status = some none → areaValid s x = false →
      ∃ s' l, exec .endpointDisable s = .next s' ∧
      s'.levelAt x.level = some l ∧ l.fail = some stEndpointDisabled ∧ l.closed = true) ∧
    (∀ x, jobToQuiesce s ep = none → strandedJob s ep = some x → (s.levelAt x.level).map Level.status = some none →
      ∃ s' l, exec .endpointDisable s = .next s' ∧
      s'.levelAt x.level = some l ∧ l.fail = some stEndpointDisabled ∧ l.closed = true) ∧
    (jobToQuiesce s ep = none → endpointStill s ep = true → ∃ s', exec .endpointDisable s = .next s' ∧
      (s'.endpoint ep).disabling = false ∧
      s'.outbox = s.outbox ++ [{ blankOut 3 stEndpointDisabled with dest := e.host, ep := ep, seq := e.nextDev, detail := e.nextDev }]))
/-! The page table's requests. -/

/-- The firmware takes the records of a ring in order: an overrun stops it, a record that fails its checks is refused with the first
reason that applies and changes nothing, MAP, UNMAP, PROTECT and EVICT of one page write its entry, an EVICT of a page with accesses in
flight is held until they end or 50 µs have passed, a region's page is not evicted, and a record is done once every TLB has dropped the
range and no access stands that was translated through it (R242 to R244, R249, R250, R268, R277). That the EVICT of a device-private page
changes nothing for it is the model's choice (log 9); when an EVICT is held, and that a tail behind the head is an overrun whatever is held,
are its reading (log 23). -/
def Rule.RingRecordsAreServed : Prop :=
  (∀ s p x, tabGet s.parts p = some x →
    (2047 < (x.tail + 2 ^ 32 - x.ringBase) % 2 ^ 32 ∨ 2047 < (x.tail + 2 ^ 32 - x.head) % 2 ^ 32 → x.overrun = true) ∧
    (x.overrun = true → x.takes = false ∧ ∃ s', exec (.ringTailCheck p) s = .next s' ∧ (s'.part p).ringError = 1 ∧ s'.mem = s.mem) ∧
    (x.overrun = false → x.ringError ≠ 0 → x.tailWritten = true →
      ∃ s', exec (.ringTailCheck p) s = .next s' ∧ (s'.part p).ringError = 0 ∧ s'.mem = s.mem) ∧
    (x.overrun = false → x.ringError ≠ 0 → x.tailWritten = false → exec (.ringTailCheck p) s = .next s) ∧
    (x.takes = true → x.nextRequest.op = 0 ∨ 4 < x.nextRequest.op → ∃ s', exec (.ringTailCheck p) s = .next s' ∧
      RequestRefused s' p x 1 ∧ s'.mem = s.mem) ∧
    (∀ y ∈ ringForms, ∀ k, x.takes = true → x.nextRequest.op = y.2 → requestReason s p x.nextRequest = some k →
      ∃ s', exec (y.1 p) s = .next s' ∧ RequestRefused s' p x k ∧ s'.mem = s.mem) ∧
    (∀ va l, x.takes = true → x.nextRequest.op = 4 → va ∈ x.nextRequest.pages → presentLeaf s p x.nextRequest.level va = some l → l.cls = 1 →
      ∃ s', exec (.evict p) s = .next s' ∧ RequestRefused s' p x 1 ∧ s'.mem = s.mem)) ∧
  (∀ s p x r l, RequestTaken s p x 1 → r = x.nextRequest → r.count = 1 → l = leafOf r.entry r.level → l.cls ≠ 1 →
    (∀ f ∈ leafFrames s p l, x.phys (4096 * f) + 4096 ≤ entryAddr x (tableOf s p r.addr r.level) r.addr r.level ∨
      entryAddr x (tableOf s p r.addr r.level) r.addr r.level + 8 ≤ x.phys (4096 * f)) →
    ∃ s', exec (.mapPages p) s = .next s' ∧ readEntry s' p (tableOf s p r.addr r.level) r.addr r.level = r.entry ∧
      (∀ f ∈ leafFrames s p l, frameLabel s' p f = l.label ∧
        (Label.subset (frameLabel s p f) l.label = false → ∀ o, o < 4096 → s'.mem.get (x.phys (4096 * f) + o) = 0)) ∧
      (s'.part p).shooting = x.shooting ++ [(x.ringSlot, r.addr, r.bytes)]) ∧
  (∀ s p x r, RequestTaken s p x 2 → r = x.nextRequest → r.count = 1 → ∃ s', exec (.unmapPages p) s = .next s' ∧
    (s'.part p).shooting = x.shooting ++ [(x.ringSlot, r.addr, r.bytes)] ∧
    (∀ t, findTable s p r.addr r.level 4 tableBase = some t → readEntry s' p t r.addr r.level = 0) ∧
    (findTable s p r.addr r.level 4 tableBase = none → s'.mem = s.mem)) ∧
  (∀ s p x r, RequestTaken s p x 3 → r = x.nextRequest → r.count = 1 → ∃ s', exec (.protect p) s = .next s' ∧
    (s'.part p).shooting = x.shooting ++ [(x.ringSlot, r.addr, r.bytes)] ∧
    (∀ t, findTable s p r.addr r.level 4 tableBase = some t → readEntry s p t r.addr r.level % 4 = 3 →
      ∀ i, (readEntry s' p t r.addr r.level).testBit i =
        if 2 ≤ i ∧ i < 5 then r.entry.testBit i else (readEntry s p t r.addr r.level).testBit i) ∧
    (findTable s p r.addr r.level 4 tableBase = none → s'.mem = s.mem)) ∧
  (∀ s p x r, RequestTaken s p x 4 → r = x.nextRequest →
    (mustHold s p r = true → ∃ s', exec (.evict p) s = .next s' ∧ s'.mem = s.mem ∧
      Memory.read (s'.part p).ring (slotOffset x.ringSlot + 2) 2 = [3#8, 0#8] ∧ (s'.part p).head = (x.head + 1) % 2 ^ 32 ∧
      (s'.part p).held = x.held ++ [{ slot := x.ringSlot, addr := r.addr, count := r.count, level := r.level, since := s.time }]) ∧
    (mustHold s p r = false → r.count = 1 → ∃ s', exec (.evict p) s = .next s' ∧
      (s'.part p).shooting = x.shooting ++ [(x.ringSlot, r.addr, r.bytes)] ∧
      ((∀ l, presentLeaf s p r.level r.addr = some l → l.cls = 0) → readEntry s' p (tableOf s p r.addr r.level) r.addr r.level = 2) ∧
      (∀ l, presentLeaf s p r.level r.addr = some l → l.cls ≠ 0 → s'.mem = s.mem))) ∧
  (∀ s p h, nextHeld s = some (p, h) → h.count = 1 → meetsPage s p h.level h.addr ≠ .other →
    (∀ l, presentLeaf s p h.level h.addr = some l → l.cls = 0) → ∃ s', exec .evictHeldPerform s = .next s' ∧
    readEntry s' p (tableOf s p h.addr h.level) h.addr h.level = 2 ∧
    (s'.part p).shooting = (s.part p).shooting ++ [(h.slot, h.addr, pageSize h.level)]) ∧
  (∀ s p x h, s.parts = [(p, x)] → x.held = [h] → x.shooting = [] → (nextHeld s = some (p, h) ↔
    (h.since + 600000 ≤ s.time ∨ inFlightOn s p h.addr (h.count * pageSize h.level) = false))) ∧
  (∀ s p slot va n x, nextShoot s = some (p, slot, va, n) → tabGet s.parts p = some x → ∃ s', exec .shootDown s = .next s' ∧
      (s'.part p).shooting = x.shooting.filter (fun z => z.1 != slot) ∧ s'.mem = s.mem ∧
      (∀ c, x.hasCore c = true → ∀ e ∈ (s'.core c).tlb, tlbMeets va n e = false) ∧
      (∀ k, x.hasSlice k = true → ∀ e ∈ (s'.slice k).tlb, tlbMeets va n e = false) ∧
      Memory.read (s'.part p).ring (slotOffset slot + 2) 2 = [1#8, 0#8] ∧
      (x.held.any (fun h => h.slot == slot) = false → (s'.part p).head = (x.head + 1) % 2 ^ 32) ∧
      (x.held.any (fun h => h.slot == slot) = true → (s'.part p).head = x.head ∧
        (s'.part p).held = x.held.filter (fun h => h.slot != slot))) ∧
  (∀ s p x slot va n e q, s.parts = [(p, x)] → x.shooting = [(slot, va, n)] → e ∈ s.accesses → s.partOf e.2.thread = p →
    e.2.held = false → s.gatedCore (s.coreOf e.2.thread) = false → q ∈ e.2.pins → rangesMeet (128 * q.1) 128 va n = true → exec .shootDown s = .next s) ∧
  (∀ s p key, nextResend s = some (p, key) → ∃ s', exec .migrationNoticeResend s = .next s' ∧ tabGet (s'.part p).resends key = none ∧
    s'.mem = s.mem ∧ (heldOn s p (key / 4096 * 4096) (pageSize (key % 4)) = none → s'.outbox = s.outbox) ∧
    (∀ n, heldOn s p (key / 4096 * 4096) (pageSize (key % 4)) = some n → s.mayTalk n = true → ∃ o,
      s'.outbox = s.outbox ++ [o] ∧ o.kind = 3 ∧ o.detail = 1 ∧ o.ep = n ∧
      o.payload = leBytes 8 (key / 4096 * 4096 + key % 4)))
/-! Work at its queue head. -/

/-- A launch entry at its queue head that passes its checks begins a launch with its start point and its argument area, and one that
fails them completes with the status; a graph entry is read, checked and armed, or fails, and one whose cluster is not the partition's is a
bad entry; a copy entry's command waits for an engine, its entry at the head, and a copy of 0 bytes needs none; a wait entry completes once nothing that it names is left (R46 to R48, R51, R54, R55, R75, R451). That a cluster
outside the partition is a bad entry and that a copy needs a bind record of its queue are the model's reading: log 19. -/
def Rule.QueueHeadsStartTheirWork : Prop :=
  (∀ s p q e, readyHead s p q 1 = some e →
    (∀ l pc s0 bs lab s1 a s2, launchRecord s p q e = .ok l → startPoint s p l = (.at' pc, s0) →
      readArgs s0 p (fieldAt e.bytes 24 8) l.kernel.args = .ok bs lab s1 → placeArgs s1 p bs lab = some (a, s2) →
      ∃ s', exec (.launchEntryStart p q) s = .next s' ∧ tabGet s'.launches s2.nextId = some { l with start := pc, argBase := a } ∧
        s'.mem = s2.mem ∧ (bs ≠ [] → bs.length ≤ 4096 → bytesAre s'.mem ((s2.part p).phys (windowFrame a)) bs) ∧
        ∀ y, s'.queue p q = some y → ∀ z ∈ y.entries ++ y.device, z.level = e.level → z.begun = some s2.nextId) ∧
    (∀ k x, launchRecord s p q e = .error k → s.levelAt e.level = some x → ∃ s', exec (.launchEntryStart p q) s = .next s' ∧
      s'.levelAt e.level = some { x with counter := 0, closed := true, fail := some k, failIndex := noIndex } ∧ s'.mem = s.mem)) ∧
  (∀ s p q e n ps bs x, readyHead s p q 2 = some e → graphCluster s p e = true → n = fieldAt e.bytes 16 2 →
    reach s 0 p (fieldAt e.bytes 8 8) (64 + 128 * n) {} { r := true } = .ok ps → (∃ g, rawPieces s p ps = (some (bs, g), s)) →
    s.levelAt e.level = some x → ∃ s', exec (.graphEntryArm p q) s = .next s' ∧ s'.mem = s.mem ∧
      (∀ y, s'.queue p q = some y → ∀ z ∈ y.entries, z.level ≠ e.level) ∧
      (∀ l, checkImage n (bs.take 64) (bs.drop 64) = .ok l → x.armed = false → ∃ k g, tabGet s'.graphs k = some g ∧ g.level = e.level ∧
        g.queue = q ∧ g.phase = e.phase ∧ g.nodes.length = l.length ∧ (s'.levelAt e.level).map Level.counter = some l.length) ∧
      (∀ k i, checkImage n (bs.take 64) (bs.drop 64) = .error (k, i) →
        s'.levelAt e.level = some { x with counter := 0, closed := true, fail := some k, failIndex := i })) ∧
  (∀ s p q e x, readyHead s p q 2 = some e → graphCluster s p e = false → s.levelAt e.level = some x →
    ∃ s', exec (.graphEntryArm p q) s = .next s' ∧ s'.mem = s.mem ∧
      s'.levelAt e.level = some { x with counter := 0, closed := true, fail := some stBadEntry, failIndex := noIndex }) ∧
  (∀ s p q e, readyHead s p q 3 = some e →
    (fieldAt e.bytes 24 8 = 0 → ∃ s' c, exec (.copyEntry p q) s = .next s' ∧ tabGet s'.copies s.nextId = some c ∧ c.slices = [] ∧
      c.level = some e.level ∧ (∀ y, s'.queue p q = some y → ∀ z ∈ y.entries, z.level ≠ e.level) ∧ s'.mem = s.mem) ∧
    (∀ b, bindOfQueue s p q = some b → fieldAt e.bytes 24 8 ≠ 0 → ∃ s' c, exec (.copyEntry p q) s = .next s' ∧ tabGet s'.copies s.nextId = some c ∧
      c.engine = none ∧ c.level = some e.level ∧ c.cls = b.ceiling ∧ c.account = b.account ∧
      c.slices = [{ gang := 0, srcMem := true, dstMem := true, src := fieldAt e.bytes 8 8, dst := fieldAt e.bytes 16 8,
                    bytes := fieldAt e.bytes 24 8 }] ∧
      (∀ y, s'.queue p q = some y → ∀ z ∈ y.entries ++ y.device, z.level = e.level → z.begun = some s.nextId) ∧ s'.mem = s.mem)) ∧
  (∀ s p x q y e l, s.parts = [(p, x)] → x.queues = [(q, y)] → readyHead s p q 4 = some e → waitOver s e = true →
    s.levelAt e.level = some l → ∃ s', exec .waitEntry s = .next s' ∧
      s'.levelAt e.level = some { l with counter := 0, closed := true } ∧ s'.mem = s.mem)

/-- A completed node of a graph lowers the counts of its successors, or fails them with DEPENDENCY_FAILED; a node without open
predecessors starts: a launch joins the device list of its queue, a copy waits for an engine (R52, R55, R386). That a node's launch joins its
queue's device list is the model's reading (R386 says it of LAUNCH and GARM): log 19. -/
def Rule.GraphNodesStartAndSettle : Prop :=
  ∀ s k g i x, s.graphs = [(k, g)] →
    (firstWith g.nodes (fun _ x => unsettled s x) = some (i, x) → ∃ s' g', exec .graphNodeStart s = .next s' ∧
      tabGet s'.graphs k = some g' ∧
      (∀ j y, tabGet g.nodes j = some y → ∃ y', tabGet g'.nodes j = some y' ∧ y'.started = y.started ∧
        y'.preds = y.preds - (x.succs.filter (· == j)).length) ∧
      ∀ n v, x.level = some n → (s.levelAt n).bind Level.status = some v → v ≠ stOk → ∀ j ∈ x.succs, ∀ y m l,
        tabGet g.nodes j = some y → y.level = some m → s.levelAt m = some l → l.status = none →
        ∃ l', s'.levelAt m = some l' ∧ l'.counter = 0 ∧ l'.closed = true ∧ l'.fail = some stDependencyFailed) ∧
    (∀ n b, firstWith g.nodes (fun _ x => unsettled s x) = none →
      firstWith g.nodes (fun _ x => mayStart s g x && (nodeBind s g x).isSome) = some (i, x) → x.level = some n → nodeBind s g x = some b →
      ∃ s', exec .graphNodeStart s = .next s' ∧ s'.mem = s.mem ∧
        (∃ g', tabGet s'.graphs k = some g' ∧ tabGet g'.nodes i = some { x with started := true }) ∧
        (entryKind x.entry = 1 → ∃ y, s'.queue g.part g.queue = some y ∧
          y.device = (tabGetD {} (s.part g.part).queues g.queue).device ++
            [{ bytes := x.entry, ep := g.ep, job := g.job, phase := g.phase, level := n, prev := none }]) ∧
        (entryKind x.entry ≠ 1 → ∃ c, tabGet s'.copies s.nextId = some c ∧ c.level = some n ∧ c.engine = none))

/-- A new unit stands in its slot with every gang and thread at its entry; a restarted one resumes its gangs at their region entries; a
resumed one brings its registers back (R68, R113, R114, R410, R412). A unit that ends frees its slot and lowers its launch's counter,
with UNIT_FAULT where it faulted (R52, R431). That a resumed unit keeps its number, and what a saved one carries, is the model's reading: log 20. -/
def Rule.UnitsAreDispatchedAndEnd : Prop :=
  (∀ s x k l r a, nextDispatch s = some x → x.offer = .fresh k → l = s.launch k → l.kernel.gangs ≤ 32 →
    findRun s (8 * x.bind.slice + x.cluster) ((l.kernel.scratch + 127) / 128) = some r →
    findStack s x.part (l.kernel.stack * l.kernel.gangs) = some a → ∃ s', exec .unitDispatch s = .next s' ∧
      (s'.unit s.nextId).launch = k ∧ (s'.unit s.nextId).unitid = l.next ∧ (s'.unit s.nextId).live = true ∧
      (s'.unit s.nextId).core = x.core ∧ (s'.unit s.nextId).ceiling = x.bind.ceiling ∧ (s'.launch k).next = l.next + 1 ∧
      ∀ i, i < l.kernel.gangs → GangAtEntry s' (32 * s.nextId + i) l ∧
        ∀ j, j < (if l.residency = 3 then 1 else 32) → ThreadAtEntry s' (threadAt (32 * s.nextId + i) j) l x.bind.ceiling s.time) ∧
  (∀ s x id old l r a, nextDispatch s = some x → x.offer = .again id old → old.restart = true → l = s.launch old.unit.launch →
    l.kernel.gangs ≤ 32 → findRun s (8 * x.bind.slice + x.cluster) ((l.kernel.scratch + 127) / 128) = some r →
    findStack s x.part (l.kernel.stack * l.kernel.gangs) = some a → ∃ s', exec .regionRestart s = .next s' ∧
      tabGet s'.saved id = none ∧ (s'.unit s.nextId).launch = old.unit.launch ∧ (s'.unit s.nextId).live = true ∧
      ∀ i, i < l.kernel.gangs → i < old.unit.gangs → (tabGetD {} old.gangs i).inRegion = true →
        (s'.gang (32 * s.nextId + i)).inRegion = true ∧ ∀ j, j < (if l.residency = 3 then 1 else 32) →
          (s'.thread (threadAt (32 * s.nextId + i) j)).pc = (tabGetD {} old.gangs i).regionEntry) ∧
  (∀ s x id old l r, nextDispatch s = some x → x.offer = .again id old → old.restart = false → l = s.launch old.unit.launch →
    findRun s (8 * x.bind.slice + x.cluster) ((l.kernel.scratch + 127) / 128) = some r → tabRising none old.threads = true →
    ∃ s', exec .unitDispatch s = .next s' ∧ tabGet s'.saved id = none ∧ (s'.unit old.unitNo).live = true ∧
      (s'.unit old.unitNo).stopped = false ∧ ∀ k y, tabGet old.threads k = some y →
        (s'.thread (1024 * old.unitNo + k)).pc = y.pc ∧ (∀ v, (s'.thread (1024 * old.unitNo + k)).reg v = y.reg v ∧
          (s'.thread (1024 * old.unitNo + k)).full v = y.full v) ∧ (s'.thread (1024 * old.unitNo + k)).preds = y.preds) ∧
  (∀ s u x y, s.units = [(u, x)] → unitEnds s u x = true → s.levelAt (s.launch x.launch).level = some y → y.armed = false →
    ∃ s' y', exec .unitEnd s = .next s' ∧ (s'.unit u).live = false ∧ (∀ e ∈ s'.threads, unitOfThread e.1 ≠ u) ∧
      (∀ e ∈ s'.gangs, unitOf e.1 ≠ u) ∧ s'.levelAt (s.launch x.launch).level = some y' ∧ y'.counter = y.counter - 1 ∧
      y'.fail = (if y.fail = none ∧ x.faulted = true then some stUnitFault else y.fail) ∧
      (s'.launch x.launch).ended = (s.launch x.launch).ended + 1 ∧ s'.mem = s.mem)

/-- A level that is due takes its final status and sends the message that it asks for, and its parent has one child fewer
(R50, R52, R430). -/
def Rule.LevelsComplete : Prop :=
  ∀ s k x, s.levels.find? (fun e => e.2.due) = some (k, x) → tabGet s.levels k = some x → ∃ s' y, exec .levelCompletion s = .next s' ∧
    s'.levelAt k = some y ∧
    y.status = some (if x.cancelled then stCancelled else x.fail.getD stOk) ∧
    (x.ask = true → x.hidden = false → s.mayTalk x.ep = true → ∃ o more, s'.outbox = s.outbox ++ o :: more ∧ o.kind = 2 ∧ o.ep = x.ep ∧
      o.level = x.kind ∧ o.detail = x.ident ∧ o.index = (if x.cancelled then noIndex else x.failIndex) ∧ o.seq = (s.endpoint x.ep).nextDev ∧
      o.status = (if x.cancelled then stCancelled else x.fail.getD stOk)) ∧
    (∀ p z, x.kind = 1 ∨ x.kind = 2 → x.parent = some p → p ≠ k → x.armed = false → s.levelAt p = some z → z.armed = false → 2 ≤ z.counter →
      ∃ z', s'.levelAt p = some z' ∧ z'.counter = z.counter - 1 ∧ z'.status = z.status)

/-- A unit that a not-present page of its region stops is aborted and kept as a restart entry; a quiescence stops a unit's issue, and a
drained unit leaves its slot with its registers and memory of its run, its open frames disturbed, and without the reads of its LAUNCHes and
GARMs, which are executed again (R220, R390, R409 to R412; what a saved unit carries: log 20). -/
def Rule.UnitsLeaveTheirSlots : Prop :=
  (∀ s u x, s.units = [(u, x)] → x.live = true → x.awaits ≠ [] → ∃ s' e, exec .regionAbort s = .next s' ∧
    tabGet s'.saved s.nextId = some e ∧ e.restart = true ∧ e.wanted = true ∧ e.unitNo = u ∧ e.unit.awaits = x.awaits ∧
    (s'.unit u).live = false ∧ (∀ t ∈ s'.threads, unitOfThread t.1 ≠ u) ∧ (∀ a ∈ s'.accesses, unitOfThread a.2.thread ≠ u) ∧
    s'.mem = s.mem) ∧
  (∀ s u q, savable s = some u → ∃ s' e, exec (.quiescence q) s = .next s' ∧ tabGet s'.saved s.nextId = some e ∧ e.restart = false ∧
    e.unitNo = u ∧ e.unit = s.unit u ∧ (∀ z ∈ e.accesses, z.2.kind ≠ .launch ∧ z.2.kind ≠ .graph) ∧
    (∀ t x, unitOfThread t = u → tabGet s.threads t = some x → (∀ z ∈ s.accesses, gangOf z.2.thread = gangOf t → z.2.kind ≠ .launch ∧ z.2.kind ≠ .graph) → ∃ y, tabGet e.threads (t - 1024 * u) = some y ∧
      { y with frames := x.frames } = x ∧ y.frames.length = x.frames.length ∧ ∀ fr ∈ y.frames, fr.disturbed = true) ∧
    (s'.unit u).live = false ∧ (∀ t ∈ s'.threads, unitOfThread t.1 ≠ u) ∧ s'.mem = s.mem) ∧
  (∀ s u, savable s = none → imagable s = none → (s.unit u).live = true →
    (∀ g ∈ s.gangsOfUnit u, (s.gang g).inRegion = false ∨ (s.gang g).ended = true) → ∃ s', exec (.quiescence (.unit u)) s = .next s' ∧
      s'.unit u = { s.unit u with stopped := true, stoppedAt := if (s.unit u).stopped then (s.unit u).stoppedAt else s.time } ∧ s'.threads = s.threads ∧ s'.mem = s.mem)

/-- A held access whose page has come back, its MAP complete, goes on to its own event, and a blocked thread whose condition has cleared is
ready from the next clk on, with every thread of its hold and every thread of its gang that waits in one FENCE or DRAIN with it (the latter is
the model's reading: log 16): no register, no predicate and no byte changes (R115, R120, R249, R408). -/
def Rule.HeldWorkGoesOn : Prop :=
  (∀ s id a, firstWith s.accesses (fun _ a => a.held && pageBack s a) = some (id, a) → ∃ s', exec .heldAccessReplay s = .next s' ∧
    tabGet s'.accesses id = some { a with held := false } ∧ s'.threads = s.threads ∧ s'.mem = s.mem) ∧
  (∀ s t, unblocks s t = true → ∃ s', exec (.threadUnblock t) s = .next s' ∧
    ((s.thread t).isHeld = false → (∀ k n, (s.thread t).sched ≠ .blocked (.together k n)) → s'.thread t = { s.thread t with
        sched := .ready, readySince := s.time, stallUntil := max (s.thread t).stallUntil (s.clkOf t + 5) } ∧
      ∀ u, u ≠ t → s'.thread u = s.thread u) ∧
    ((s.thread t).isHeld = true → ∀ u ∈ s.heldAt (gangOf t) (s.thread t).pc, (s'.thread u).sched = .ready ∧
      s.clkOf u + 5 ≤ (s'.thread u).stallUntil) ∧
    (∀ k n, (s.thread t).sched = .blocked (.together k n) → ∀ u ∈ s.threadsOfGang (gangOf t), (s.thread u).sched = .blocked (.together k n) →
      (s'.thread u).sched = .ready ∧ s.clkOf u + 5 ≤ (s'.thread u).stallUntil) ∧ Others s s')

/-! Landings. -/

/-- At its event an LDS reads its full line, and under .TAKE empties it; an STS writes its bytes and under .FILL fills the line; SFILL and
SEMPTY mark it; ATOMS and REDS read, modify and write (R307 to R309). -/
def Rule.ScratchpadAccessesLand : Prop :=
  ∀ s id a u pick, ScratchAt s id a u →
    (a.kind = .lds → u.lineFull (a.addr / 128) = true → a.f.bit 12 = false → ∃ s', exec (.loadWriteback id pick) s = .next s' ∧
      tabGet s'.accesses id = none ∧ ResultTy s' a.thread a.f.ty a.f.d (loadValue a.f.ty [] (Memory.read u.run a.addr a.width)) ∧
      (s'.unit (unitOfThread a.thread)).run = u.run ∧ s'.mem = s.mem) ∧
    (a.kind = .lds → u.lineFull (a.addr / 128) = true → a.f.bit 12 = true → takers s a = [(id, a)] →
      ∃ s', exec (.loadWriteback id pick) s = .next s' ∧ tabGet s'.accesses id = none ∧
        ResultTy s' a.thread a.f.ty a.f.d (loadValue a.f.ty [] (Memory.read u.run a.addr a.width)) ∧
        (s'.unit (unitOfThread a.thread)).lineFull (a.addr / 128) = false ∧ s'.mem = s.mem) ∧
    (a.kind = .sts → ∃ s', exec (.writePerform id pick) s = .next s' ∧ tabGet s'.accesses id = none ∧
      bytesAre (s'.unit (unitOfThread a.thread)).run a.addr (leBytes a.width a.c.toNat) ∧
      bytesElse u.run (s'.unit (unitOfThread a.thread)).run a.addr a.width ∧
      (s'.unit (unitOfThread a.thread)).lineFull (a.addr / 128) = (a.f.bit 12 || u.lineFull (a.addr / 128)) ∧ s'.mem = s.mem) ∧
    (a.kind = .sfill ∨ a.kind = .sempty → ∃ s', exec (.writePerform id pick) s = .next s' ∧ tabGet s'.accesses id = none ∧
      (s'.unit (unitOfThread a.thread)).lineFull (a.addr / 128) = (a.kind == .sfill) ∧
      (s'.unit (unitOfThread a.thread)).run = u.run ∧ s'.mem = s.mem) ∧
    (a.kind = .atoms ∨ a.kind = .reds → u.lineFull (a.addr / 128) = true → ∃ s', exec (.atomicPerform id pick) s = .next s' ∧
      tabGet s'.accesses id = none ∧
      bytesAre (s'.unit (unitOfThread a.thread)).run a.addr (leBytes a.width (atomicNew (atomicOp a.op) a.f.ty (Round.ofCode a.mode)
        (BitVec.ofNat 64 (leNat (Memory.read u.run a.addr a.width))) a.c a.d).1.toNat) ∧
      bytesElse u.run (s'.unit (unitOfThread a.thread)).run a.addr a.width ∧
      (a.kind = .atoms → ResultTy s' a.thread a.f.ty a.f.d (BitVec.ofNat 64 (leNat (Memory.read u.run a.addr a.width)))) ∧ s'.mem = s.mem)

/-- ERASE of a tile that exists takes it out of existence; EXQ reads the existence bits of the 32 tiles around its own, and all ones on a
page without tiles; an STX to an absent tile writes nothing and leaves its predicate false (R260, R296 to R298). -/
def Rule.TilesAreErasedAndQueried : Prop :=
  ∀ s id a pick p,
    (∀ r i, TileAt s id a { w := true } pick p → p.home = .tile r i → a.kind = .erase → Label.subset a.label p.leaf.label = true →
      r.exists s i = true → (r.map + i / 8 < r.desc + 28 ∨ r.desc + 40 ≤ r.map + i / 8) → ∃ s', exec (.writePerform id pick) s = .next s' ∧
        tabGet s'.accesses id = none ∧ r.exists s' i = false) ∧
    (TileAt s id a { r := true } pick p → a.kind = .exq → (s.thread a.thread).sched ≠ .exited →
      ∃ s' w, exec (.loadWriteback id pick) s = .next s' ∧ tabGet s'.accesses id = none ∧ Result32 s' a.thread a.f.d w ∧ s'.mem = s.mem ∧
        (∀ r i, p.home = .tile r i → ∀ j, j < 32 →
          w.getLsbD j = (decide (i / 32 * 32 + j < r.tiles) && r.exists s (i / 32 * 32 + j))) ∧
        ((∀ r i, p.home ≠ .tile r i) → w = 0xFFFFFFFF#32)) ∧
    (∀ r i, tabGet s.accesses id = some a → enabled s id a = true → pastMemory s a = false → a.oob = false → a.kind = .stx →
      s.mates id a (a.sector pick) = [id] → (raceOn s a = true → s.sfqFull (s.coreOf a.thread) = false) → bookAwaited s id a p.leaf.slot = false →
      reach s (s.coreOf a.thread) (s.partOf a.thread) a.addr a.width (a.via pick) { w := true } = .ok [p] → p.home = .tile r i →
      r.exists s i = false → formatFits a.f.ty p.leaf.format = true → Label.subset a.label p.leaf.label = true →
      (s.thread a.thread).sched ≠ .exited → ∃ s', exec (.writePerform id pick) s = .next s' ∧ tabGet s'.accesses id = none ∧
        PredIn s' a.thread a.f.d false ∧ s'.mem = s.mem)

/-- The selection takes the best of the entries that qualify, the lowest index on a tie, else the fallback; and the call that reads a
good table enters the entry selected, with a frame that keeps the caller's address, limits and meters (R214 to R217, R223, R225). -/
def Rule.VariantsAreSelectedAndEntered : Prop :=
  (∀ c es, match selectEntry c es with
    | some (i, e, false) => es[i]? = some e ∧ qualifies c e = true ∧ ∀ j e', es[j]? = some e' → qualifies c e' = true →
        better c e' e = false ∧ (better c e e' = false → i ≤ j)
    | some (i, e, true) => (∀ e' ∈ es, qualifies c e' = false) ∧ es[i]? = some e ∧ e.fallback = true ∧ e.passCode ≠ 3 ∧
        (c.exact = true → e.exact = true)
    | none => (∀ e' ∈ es, qualifies c e' = false) ∧
        ∀ e' ∈ es, e'.fallback = false ∨ e'.passCode = 3 ∨ (c.exact = true ∧ e'.exact = false)) ∧
  (∀ s id a pick es l g s1 i e fb, tabGet s.accesses id = some a → a.kind = .table → enabled s id a = true →
    readTable s (s.coreOf a.thread) (s.partOf a.thread) a.addr (a.via pick) = (.ok es l g, s1) → selectEntry (choiceOf s a) es = some (i, e, fb) →
    s.mustDeliver a.thread = false → ∃ s' fr, exec (.variantTableRead id pick) s = .next s' ∧ tabGet s'.accesses id = none ∧
      (s'.thread a.thread).pc = BitVec.ofNat 48 e.code ∧ (s'.thread a.thread).sched = .ready ∧
      (s'.thread a.thread).frames = fr :: (s.thread a.thread).frames ∧ fr.ret = nextPc a.pc ∧ fr.entry = a.addr + 32 + 32 * i ∧ fr.index = i ∧
      fr.issued = a.aux ∧ fr.energy = (s.thread a.thread).energy ∧ fr.bt = (s.thread a.thread).bt ∧ fr.be = (s.thread a.thread).be ∧
      fr.bq = (s.thread a.thread).bq ∧ (s'.thread a.thread).bt = ((s.thread a.thread).shareT.getD (s.thread a.thread).bt) ∧
      (s'.thread a.thread).be = ((s.thread a.thread).shareE.getD (s.thread a.thread).be) ∧ (s'.thread a.thread).shareT = none ∧
      (s'.thread a.thread).shareE = none ∧ PredIs s' a.thread (a.f.bits 2 3) fb ∧
      (fr.disturbed = true ↔ a.wasSaved = true ∨ a.disturbed = true) ∧ s'.mem = s.mem)

/-- The record that a LAUNCH has read gives a child launch under the graph of its unit, its handle goes to the destination, and the
thread goes on; GARM's image gives an armed graph with its nodes (R383 to R386). -/
def Rule.ChildrenAreStarted : Prop :=
  ∀ s id a pick ps pa e g lv, LandsAlong s id a { r := true } pick ps pa → a.width = 64 → freeChild s (s.coreOf a.thread) = some e →
    enclosing s (s.launchLevel a.thread) 2 = some g → s.levelAt g = some lv → g < s.nextId → lv.armed = false → lv.cancelled = false →
    (a.kind = .launch → entryOk (s.mem.read pa 64) = true → entryKind (s.mem.read pa 64) = 1 → entryWaits (s.mem.read pa 64) = false →
      ∃ s' x, exec (.loadWriteback id pick) s = .next s' ∧ tabGet s'.accesses id = none ∧
        Result32 s' a.thread a.f.d (BitVec.ofNat 32 (nextGen s (s.coreOf a.thread) e * 256 + e)) ∧
        (s'.thread a.thread).pc = nextPc a.pc ∧ s'.levelAt s.nextId = some x ∧ x.kind = 1 ∧ x.parent = some g ∧
        x.counter = entryUnits (s.mem.read pa 64) ∧ s'.levelAt g = some { lv with counter := lv.counter + 1 } ∧
        (∃ q d, s'.queue (s.partOf a.thread) a.aux = some q ∧
          q.device = (tabGetD {} (s.part (s.partOf a.thread)).queues a.aux).device ++ [d] ∧ d.bytes = s.mem.read pa 64 ∧
          d.level = s.nextId) ∧ s'.mem = s.mem) ∧
    (∀ qs qa ns, a.kind = .graph →
      reach s (s.coreOf a.thread) (s.partOf a.thread) (a.addr + 64) (imageBytes (s.mem.read pa 64)) (a.via pick) { r := true } = .ok qs →
      Along qs (a.addr + 64) qa →
      checkImage (fieldAt (s.mem.read pa 64) 0 2) (s.mem.read pa 64) (s.mem.read qa (imageBytes (s.mem.read pa 64))) = .ok ns →
      ∃ s' x k y, exec (.loadWriteback id pick) s = .next s' ∧ tabGet s'.accesses id = none ∧
        Result32 s' a.thread a.f.d (BitVec.ofNat 32 (nextGen s (s.coreOf a.thread) e * 256 + e)) ∧
        (s'.thread a.thread).pc = nextPc a.pc ∧ s'.levelAt s.nextId = some x ∧ x.armed = true ∧ x.parent = some g ∧ x.counter = ns.length ∧
        s'.levelAt g = some { lv with counter := lv.counter + ns.length } ∧ tabGet s'.graphs k = some y ∧ y.level = s.nextId ∧
        y.nodes.length = ns.length ∧ y.device = true ∧ s'.mem = s.mem)

/-- A CANCEL that takes effect cancels and closes its level and writes true; one whose level is no more, or has its outcome or a cancel
already, changes no level and writes false (R389). -/
def Rule.CancelTakesEffect : Prop :=
  ∀ f s t, Alone s 0x34C f [] [] t → levelCode f ≠ 0 ∨ s.coreOf t % 5 = 4 → ∃ s', exec (.cancelLevel f) s = .next s' ∧
    (s'.thread t).pc = nextPc s.pc ∧ Untouched s s' t [] (resultPreds f.d) [] [] ∧
    (∀ k, namedLevel s f t = some k → cancelTakes s k.1 = true → PredIn s' t f.d true ∧
      ∃ l, s'.levelAt k.1 = some l ∧ l.cancelled = true ∧ l.closed = true) ∧
    ((∀ k, namedLevel s f t = some k → cancelTakes s k.1 = false) → PredIn s' t f.d false ∧ s'.levels = s.levels)

/-- An EGRESS to a peer entry that is empty comes back with reason 1; one that nothing labels leaves for the peer's address and comes back
with 1 (R281, R422, R423). -/
def Rule.EgressIsDecided : Prop :=
  ∀ s id a pick ps pa, LandsAlong s id a { r := true } pick ps pa → a.kind = .egress → (s.thread a.thread).sched ≠ .exited →
    (s.launchOf a.thread).race = false →
    ((∀ y, tabGet (s.part (s.partOf a.thread)).peers a.aux = some y → y.mask = 0) → ∃ s', exec (.loadWriteback id pick) s = .next s' ∧
      tabGet s'.accesses id = none ∧ Result32 s' a.thread a.f.d 0x11 ∧ s'.outbox = s.outbox ∧ s'.mem = s.mem) ∧
    (∀ y, tabGet (s.part (s.partOf a.thread)).peers a.aux = some y → y.mask ≠ 0 → a.label = 0 → pagesLabel ps = 0 →
      ∃ s', exec (.loadWriteback id pick) s = .next s' ∧ tabGet s'.accesses id = none ∧ Result32 s' a.thread a.f.d 1 ∧
        s'.outbox = s.outbox ++ [{ blankOut 3 stOk with
          dest := y.addr, ep := s.threadEp a.thread, detail := 2, payload := s.mem.read pa a.width }] ∧ s'.mem = s.mem)

/-! Issue. -/

/-- A thread whose guard is false passes: it stands at the next instruction, and no register, predicate, label, access or byte changes
(R90). -/
def Rule.FalseGuardsPass : Prop :=
  ∀ x ∈ passOps, ∀ f s t, s.group = [t] → (s.thread t).sched = .ready → (s.thread t).pending f.gp.toNat = false → guardTrue s t f = false →
    ∃ s', exec (x.1 f) s = .next s' ∧ (s'.thread t).pc = nextPc s.pc ∧ (s'.thread t).sched = .ready ∧
      Kept (s.thread t) (s'.thread t) [] [] ∧ s'.gangs = s.gangs ∧ s'.accesses = s.accesses ∧ s'.mem = s.mem

/-- An empty source register under the empty action traps with the number of its field, the first such field before any that waits;
otherwise the thread waits for the first empty source, where it stands (R92, R124; that the trap comes before any wait is the model's reading:
log 13). -/
def Rule.EmptySourcesTrapOrWait : Prop :=
  ∀ x ∈ resultOps, ∀ f s t, Guarded s f t →
    (∀ q h, (sourcesOf x.2 f).find? (fun q => q.2.2.1 && (sourceEmpty s t q.1 q.2.1).isSome) = some q → (s.launchOf t).handler = some h →
      (s.thread t).inTrap = false → ∃ s', exec (x.1 f) s = .next s' ∧ Trapped s s' t 5 s.pc (BitVec.ofNat 32 q.2.2.2) h) ∧
    (∀ r, (sourcesOf x.2 f).find? (fun q => q.2.2.1 && (sourceEmpty s t q.1 q.2.1).isSome) = none →
      (sourcesOf x.2 f).findSome? (fun q => sourceEmpty s t q.1 q.2.1) = some r → ∃ s', exec (x.1 f) s = .next s' ∧
        s'.thread t = { s.thread t with sched := .blocked (.reg r), aged := false, turns := (s.thread t).turns + 1 } ∧ Others s s')

/-- A trap without a handler, or inside one, terminates the unit (R404, R407). -/
def Rule.TrapsWithoutHandlerTerminate : Prop :=
  ∀ f s t, (s.launchOf t).handler = none ∨ (s.thread t).inTrap = true →
    (Alone s 0x00A f [] [] t → ∃ s', exec (.bpt f) s = .next s' ∧ (s'.unit (unitOfThread t)).faulted = true ∧
      ∀ u ∈ s.threadsOfUnit (unitOfThread t), (s'.thread u).sched = .exited) ∧
    (Alone s 0x00B f [] [] t → ∃ s', exec (.trapI f) s = .next s' ∧ (s'.unit (unitOfThread t)).faulted = true ∧
      ∀ u ∈ s.threadsOfUnit (unitOfThread t), (s'.thread u).sched = .exited)

/-! Scheduling. -/

/-- A thread that has been ready for 4,096 clk outside a handler ages; one at the skid limit waits for its writes, or takes its gang's
records (R127, R401, R402). -/
def Rule.ThreadsAgeAndMeetTheSkidLimit : Prop :=
  (∀ s t, nextAged s = some t → ∃ s', exec .aging s = .next s' ∧ s'.thread t = { s.thread t with aged := true } ∧
    (s.thread t).inTrap = false ∧ (s.thread t).readySince + 5 * 4096 ≤ s.time ∧ (∀ u, u ≠ t → s'.thread u = s.thread u) ∧
    s'.mem = s.mem) ∧
  (∀ s t, nextSkid s = some t →
    (skidWrite s t = true → ∃ s', exec .skidLimit s = .next s' ∧ s'.thread t = { s.thread t with
        sched := .blocked .skid, aged := false, turns := (s.thread t).turns + 1 } ∧ Others s s') ∧
    (∀ h, skidWrite s t = false → (s.launchOf t).handler = some h → ∃ s', exec .skidLimit s = .next s' ∧
      Trapped s s' t 23 (s.thread t).pc (BitVec.ofNat 32 ((s.pendingRecords (gangOf t)).length % 32)) h))

/-- In Glason compatibility mode a waiting gang joins a set of fewer than 8, takes the place of a starved gang, or after 4,096 clk that of
the least recent one (R128). That an entrant joins while fewer than 8 are active is the model's reading: log 13. -/
def Rule.GlasonSetsSwap : Prop :=
  (∀ s g, nextEntrant s = some g → ∃ s', exec .glasonSwap s = .next s' ∧ (s'.gang g).active = true ∧
    (∀ h, h ≠ g → s'.gang h = s.gang h) ∧ s'.threads = s.threads ∧ s'.mem = s.mem) ∧
  (∀ s o i, nextEntrant s = none → nextSwap s = some (o, i) → o ≠ i → ∃ s', exec .glasonSwap s = .next s' ∧ Swapped s s' o i) ∧
  (∀ s o i, nextPendingAged s = some (o, i) → o ≠ i → ∃ s', exec .glasonPendingAging s = .next s' ∧ Swapped s s' o i)

/-- A change of a cluster's fusion state takes 256 clk and leaves its L1s without a line (R76; which record wants one is the model's reading:
log 19). -/
def Rule.FusionChanges : Prop :=
  (∀ s cl, (List.range 96).find? (changeOver s) = some cl → ∃ s', exec .fusionChange s = .next s' ∧
    (s'.cluster cl).fused = !(s.cluster cl).fused ∧ (s'.cluster cl).fusing = none ∧ (∀ c, c < 4 → (s'.core (5 * cl + c)).l1 = []) ∧
    s'.mem = s.mem) ∧
  (∀ s cl, (List.range 96).find? (changeOver s) = none → (List.range 96).find? (wantsChange s) = some cl → ∃ s',
    exec .fusionChange s = .next s' ∧ (s'.cluster cl).fusing = some (s.time + 256 * 5) ∧ (s'.cluster cl).fused = (s.cluster cl).fused ∧
    s'.mem = s.mem)

/-- Every 100 µs an account's debt is repaid out of at most half its refill and its balance is the lesser of itself and 0 with the rest;
the pool is what idle lenders held. An account that asks may draw an eighth of its refill, as debt, in order of request and in one instant
in account order (R70, R71). -/
def Rule.AccountsAreRefilledAndBorrow : Prop :=
  (∀ s p x, s.parts = [(p, x)] → (s.refills + 1) * 1200000 ≤ s.time → ∃ s', exec .budgetRefill s = .next s' ∧
    s'.refills = s.refills + 1 ∧ s'.mem = s.mem ∧
    (s'.part p).pool = (x.accounts.map (fun a => if a.2.lend && !a.2.busy then a.2.balance.toNat else 0)).sum ∧
    ∀ a y, tabGet x.accounts a = some y → ∃ z, tabGet (s'.part p).accounts a = some z ∧ z.debt = y.debt - min y.debt (y.refill / 2) ∧
      z.balance = min y.balance 0 + (y.refill : Int) - (min y.debt (y.refill / 2) : Nat)) ∧
  (∀ s p a x y n, nextDraw (noteRequests s) = some (p, a) → x = (noteRequests s).part p → y = tabGetD {} x.accounts a →
    n = min (y.refill / 8) x.pool → ∃ s', exec .borrow s = .next s' ∧ (s'.part p).pool = x.pool - n ∧
    tabGet (s'.part p).accounts a = some { y with balance := y.balance + (n : Int), debt := y.debt + n, asked := none } ∧ s'.mem = s.mem) ∧
  (∀ s, nextDraw (noteRequests s) = none → exec .borrow s = .next (noteRequests s)) ∧
  (∀ (x : Partition) a, drawer x = some a → ∃ y t, (a, y) ∈ x.accounts ∧ y.asked = some t ∧ 0 < min (y.refill / 8) x.pool ∧
    ∀ b z u, (b, z) ∈ x.accounts → z.asked = some u → 0 < min (z.refill / 8) x.pool → t < u ∨ t = u ∧ a ≤ b)

/-! Firmware registers and power. -/

/-- Speedwell's writes while its firmware runs: a bind record whole, its write-error flag where a reserved bit is set (R65; that such a record is
stored as it was written is the model's reading: log 25); the lease length in 13 bits. Thresholds, accounts and the exposed window, which the
model holds by its base (log 10), of a partition that is there; and what the power controller measures: the times since which the current has
exceeded the allocation and has lain below it (R69, R70, R189, R355, R432, R439). -/
def Rule.FirmwareRegistersAreWritten : Prop :=
  (∀ s k i v, speedwellRuns s = true → k < 12 → i < 64 → ∃ s', exec (.bindRecordWrite k i v) s = .next s' ∧ tabGetD 0 (s'.slice k).slots i = v ∧
    (∀ j, j ≠ i → tabGetD 0 (s'.slice k).slots j = tabGetD 0 (s.slice k).slots j) ∧
    (s'.slice k).writeError = ((s.slice k).writeError || decide (v.toNat / 2 ^ 57 ≠ 0)) ∧ s'.mem = s.mem) ∧
  (∀ s k v, speedwellRuns s = true → k < 12 → ∃ s', exec (.leaseLengthWrite k v) s = .next s' ∧ (s'.slice k).lease.toNat = v.toNat % 2 ^ 13 ∧
    (∀ j, j ≠ k → s'.slice j = s.slice j) ∧ s'.mem = s.mem) ∧
  (∀ s, speedwellRuns s = false → (∀ k i v, exec (.bindRecordWrite k i v) s = .next s) ∧ ∀ k v, exec (.leaseLengthWrite k v) s = .next s) ∧
  (∀ s p x, tabGet s.parts p = some x →
    (∀ code v, code < 20 → ∃ s', exec (.registerWrite (.threshold p code v)) s = .next s' ∧
      tabGetD 0 (s'.part p).thresholds code = v ∧ s'.mem = s.mem) ∧
    (∀ a r l, a < 64 → ∃ s', exec (.registerWrite (.account p a r l)) s = .next s' ∧
      tabGet (s'.part p).accounts a = some { tabGetD {} x.accounts a with refill := r, lend := l } ∧ s'.mem = s.mem) ∧
    (∀ b, ∃ s', exec (.registerWrite (.window p b)) s = .next s' ∧ s'.part p = { x with exposed := some b } ∧ s'.mem = s.mem)) ∧
  (∀ s k c l, k < 12 → ∃ s', exec (.registerWrite (.power k c l)) s = .next s' ∧ s'.mem = s.mem ∧
    (s'.slice k).current = c ∧ (s'.slice k).allocation = l ∧
    (s'.slice k).overSince = (if l < c then some ((s.slice k).overSince.getD s.time) else none) ∧
    (s'.slice k).underSince = (if c < l then some ((s.slice k).underSince.getD s.time) else none))

/-- A vote of 0 or of 650 to 1,000 mV is taken and its rail's target is the highest vote with 25 mV of headroom; another is ignored and sets
the write-error flag (R436, R437; that a vote of 0 takes the ready bit away is the model's reading: log 13). -/
def Rule.VotesMoveTheirRail : Prop :=
  ∀ s k (v : Word) n, speedwellRuns s = true → k < 12 → n = v.toNat % 2 ^ 11 →
    (n = 0 ∨ 650 ≤ n ∧ n ≤ 1000 → ∃ s', exec (.voteWrite k v) s = .next s' ∧ (s'.slice k).vote = n ∧
      (s'.rail (k / 3)).target = (if railVote s' (k / 3) = 0 then 0 else railVote s' (k / 3) + 25) ∧ (n = 0 → (s'.slice k).ready = false) ∧
      (∀ j, j ≠ k / 3 → s'.rail j = s.rail j) ∧ s'.mem = s.mem) ∧
    (¬ (n = 0 ∨ 650 ≤ n ∧ n ≤ 1000) → ∃ s', exec (.voteWrite k v) s = .next s' ∧ (s'.slice k).vote = (s.slice k).vote ∧
      (s'.slice k).writeError = true ∧ s'.rails = s.rails ∧ s'.mem = s.mem)

/-- A domain is gated once its fade is over: none runs or is to start, no lane pass has issued since the last interval, and its load record is
zero or a fade has ended since it last issued; its vote is withdrawn, and its TLBs and L1s are empty. It is ungated while its rail is ready, when its
clk count starts again; the time in which it was gated makes no thread older (R87, R127, R244, R436). -/
def Rule.DomainsAreGatedAndUngated : Prop :=
  ∀ s k, speedwellRuns s = true → k < 12 →
    ((s.slice k).ungated = true → (s.slice k).fade = none → (s.slice k).fall = false → (s.slice k).passes = 0 →
      (s.slice k).loadRecord = 0 ∨ (s.slice k).spent = true → ∃ s', exec (.domainGate k) s = .next s' ∧
      (s'.slice k).ungated = false ∧ (s'.slice k).vote = 0 ∧ (s'.slice k).ready = false ∧ (s'.slice k).gatedAt = s.time ∧
      (s'.slice k).tlb = [] ∧ (∀ c, c / 40 = k → (s'.core c).tlb = [] ∧ (s'.core c).l1 = []) ∧ s'.mem = s.mem) ∧
    ((s.slice k).fade ≠ none ∨ (s.slice k).fall = true ∨ (s.slice k).passes ≠ 0 ∨ ((s.slice k).loadRecord ≠ 0 ∧ (s.slice k).spent = false) →
      exec (.domainGate k) s = .next s) ∧
    ((s.slice k).ready = true → (s.slice k).ungated = false → ∃ s', exec (.domainUngate k) s = .next s' ∧
      s'.slice k = { s.slice k with ungated := true, clkBase := s.time } ∧ s'.mem = s.mem ∧
      ∀ t x, tabGet s.threads t = some x → s.coreOf t / 40 = k → (s'.thread t).readySince =
        (if x.readySince ≤ (s.slice k).gatedAt then x.readySince + (s.time - (s.slice k).gatedAt) else s.time) ∧
        (s'.thread t).pc = x.pc ∧ (s'.thread t).sched = x.sched ∧ ∀ r, (s'.thread t).reg r = x.reg r)

/-- A rail whose hold has ended falls at 10 mV/µs to its target (R437 has up to 10: log 25); a chiplet is ready once its rail stands at its vote
with headroom; and a cluster's count moves one step within 0 to 2, up where the chiplet's current has exceeded its allocation for 1 µs, down
where it has lain below it for 100 µs, its open frames disturbed where its cores' count changes (R220, R438, R439; that a raise too is of one
step and counts its 1 µs from the last step is the model's choice: log 25). -/
def Rule.RailsAndPassCountsMove : Prop :=
  (∀ s k r e, firstWith s.rails (fun _ r => r.holdEnd.any (· ≤ s.time)) = some (k, r) → r.holdEnd = some e → ∃ s',
    exec .railHoldExpiry s = .next s' ∧ (s'.rail k).holdEnd = none ∧ (s'.rail k).target = r.target ∧ s'.mem = s.mem ∧
    (r.stays = false → r.target < r.mv → ∀ t, (s'.rail k).volts t = max r.target (r.mv - 10 * (t - e) / 12000))) ∧
  (∀ s k, nextReady s = some k → ∃ s', exec .railReady s = .next s' ∧ (s'.slice k).ready = true ∧
    (s.slice k).vote + 25 ≤ (s.rail (k / 3)).volts s.time ∧ s'.mem = s.mem) ∧
  (∀ s cl, cl < 96 →
    (∀ t, (s.slice (cl / 8)).overSince = some t → max t (s.cluster cl).stepped + 12000 ≤ s.time → ∃ s', exec (.passCountRaise cl) s = .next s' ∧
      (s'.cluster cl).passCode = min 2 ((s.cluster cl).passCode + 1) ∧ (s'.cluster cl).stepped = s.time ∧
      CountSettles s s' cl ∧ s'.mem = s.mem) ∧
    (∀ t, (s.slice (cl / 8)).underSince = some t → max t (s.cluster cl).stepped + 1200000 ≤ s.time →
      ∃ s', exec (.passCountLower cl) s = .next s' ∧ (s'.cluster cl).passCode = (s.cluster cl).passCode - 1 ∧
      (s'.cluster cl).stepped = s.time ∧ CountSettles s s' cl ∧ s'.mem = s.mem) ∧
    (((s.slice (cl / 8)).overSince = none ∨ ∃ t, (s.slice (cl / 8)).overSince = some t ∧ s.time < max t (s.cluster cl).stepped + 12000) →
      exec (.passCountRaise cl) s = .next s) ∧
    (((s.slice (cl / 8)).underSince = none ∨ ∃ t, (s.slice (cl / 8)).underSince = some t ∧ s.time < max t (s.cluster cl).stepped + 1200000) →
      exec (.passCountLower cl) s = .next s))

/-- Every 0.1 µs a chiplet's load record is the sum of its last 40 intervals, without ballast. A fall below half their mean starts a fade from the
record, which ends after 2 µs; clk by clk, ballast fills what real issue leaves below a level that falls from the record's to zero (R440, R441). -/
def Rule.LoadRecordsAndFades : Prop :=
  (∀ s k x, tabGet s.slices k = some x → (x.loadTicks + 1) * 1200 ≤ s.time → ∃ s', exec .loadRecordUpdate s = .next s' ∧
    (s'.slice k).loadRecord = ((x.passes :: x.window).take 40).sum ∧ (s'.slice k).passes = 0 ∧ (s'.slice k).loadTicks = x.loadTicks + 1 ∧
    ((s'.slice k).fall = true ↔ x.fall = true ∨ 80 * x.passes < ((x.passes :: x.window).take 40).sum ∧ x.below = false ∧ x.fade = none) ∧
    s'.mem = s.mem) ∧
  (∀ s k x, firstWith s.slices (fun _ x => x.fall) = some (k, x) → ∃ s', exec .fadeStart s = .next s' ∧
    (s'.slice k).fade = some (x.loadRecord, s.time) ∧ (s'.slice k).fall = false ∧ (s'.slice k).ballast = 0 ∧ s'.mem = s.mem) ∧
  (∀ (x : Slice) n t clk, x.fade = some (n, t) → t ≤ clk → clk + 5 ≤ t + 24000 → (x.endClk clk).clkPasses = 0 ∧
    (x.endClk clk).ballast = x.ballast +
      (n * ((clk + 5 - t) * (48000 - (clk + 5 - t))) / (48000 * 48000) - n * ((clk - t) * (48000 - (clk - t))) / (48000 * 48000) - x.clkPasses)) ∧
  (∀ s k x, firstWith s.slices (fun _ x => x.fadeOver s.time) = some (k, x) → ∃ s', exec .fadeEnd s = .next s' ∧
    (s'.slice k).fade = none ∧ (s'.slice k).spent = true ∧ s'.mem = s.mem)
/-! Outside. -/

/-- A counter rises by one event and saturates; the first time that it reaches a nonzero threshold of its code is its crossing, and the first
crossing that stands sends one notice with its code, its identifier and the value at the crossing (R187 to R189; that a threshold is looked
at when its counter counts is the model's choice: log 13). -/
def Rule.ThresholdNoticesAreSentOnce : Prop :=
  (∀ th (x : Launch) e n, n = min (2 ^ 48 - 1) (tabGetD 0 x.counters e + 1) → tabGetD 0 (x.count th e).counters e = n ∧
    (∀ c, c ≠ e → tabGetD 0 (x.count th e).counters c = tabGetD 0 x.counters c) ∧
    (tabGet x.crossed e = none → e ∉ x.noticed → (tabGetD 0 th e).toNat ≠ 0 → (tabGetD 0 th e).toNat ≤ n →
      tabGet (x.count th e).crossed e = some n) ∧
    ((tabGetD 0 th e).toNat = 0 ∨ n < (tabGetD 0 th e).toNat ∨ e ∈ x.noticed → (x.count th e).crossed = x.crossed)) ∧
  (∀ s l c t, nextThreshold s = some (l, c, t) → ∃ s', exec .eventThresholdNotice s = .next s' ∧ s'.mem = s.mem ∧
    (s'.launch l).noticed = (s.launch l).noticed ++ [c] ∧ tabGet (s'.launch l).crossed c = none ∧
    (s.mayTalk (s.launchEp l) = true → ∃ o, s'.outbox = s.outbox ++ [o] ∧ o.kind = 3 ∧ o.level = 1 ∧ o.index = c ∧
      o.detail = (s.launch l).ident ∧ o.payload = leBytes 8 t ∧ o.ep = s.launchEp l ∧ o.seq = (s.endpoint (s.launchEp l)).nextDev))

/-- An access from another device: a load that nothing labels returns the bytes, a store that its sender's ingress label allows writes them,
an atomic writes the new value and returns the old; one without an exposed window, and one whose label the page does not hold, is answered
with an error and writes nothing (R239, R280, R281, R291, R432). The window held by its virtual base, its translation through the partition's leaves,
and what an atomic answers are the model's choice (log 10); the release decision on an atomic's old bytes is its reading (log 25). -/
def Rule.RemoteAccessesAreServed : Prop :=
  ∀ s r base ps pa,
    ((tabGet s.parts r.part).bind Partition.exposed = none → ∃ s', exec (.remoteAccessIn r) s = .next s' ∧ s'.mem = s.mem ∧
      s'.replies = s.replies ++ [{ dest := r.sender, failed := true, data := [] }]) ∧
    (∀ n, r.op = .load n → Exposed s r n { r := true } base ps pa → pagesLabel ps = 0 → ∃ s', exec (.remoteAccessIn r) s = .next s' ∧
      s'.mem = s.mem ∧ s'.replies = s.replies ++ [{ dest := r.sender, failed := false, data := s.mem.read pa n }]) ∧
    (∀ bs, r.op = .store bs → Exposed s r bs.length { w := true } base ps pa →
      ((∀ p ∈ ps, Label.subset (ingressLabel s r.part r.sender) p.leaf.label = true) → ∃ s', exec (.remoteAccessIn r) s = .next s' ∧
        bytesAre s'.mem pa bs ∧ bytesElse s.mem s'.mem pa bs.length ∧
        s'.replies = s.replies ++ [{ dest := r.sender, failed := false, data := [] }]) ∧
      ((∃ p ∈ ps, Label.subset (ingressLabel s r.part r.sender) p.leaf.label = false) → ∃ s', exec (.remoteAccessIn r) s = .next s' ∧
        s'.mem = s.mem ∧ s'.replies = s.replies ++ [{ dest := r.sender, failed := true, data := [] }])) ∧
    (∀ op ty c d mode answers, r.op = .atomic op ty c d mode answers → (answers = true → pagesLabel ps = 0) → Exposed s r (atomicWidth ty) { r := true, w := true } base ps pa →
      (∀ p ∈ ps, p.leaf.format = 0 ∧ Label.subset (ingressLabel s r.part r.sender) p.leaf.label = true) →
      ∃ s', exec (.remoteAccessIn r) s = .next s' ∧
        bytesAre s'.mem pa (leBytes (atomicWidth ty) (atomicNew (rowOp op) ty (Round.ofCode mode)
          (BitVec.ofNat 64 (leNat (s.mem.read pa (atomicWidth ty)))) c d).1.toNat) ∧
        bytesElse s.mem s'.mem pa (atomicWidth ty) ∧
        s'.replies = s.replies ++ [{ dest := r.sender, failed := false, data := if answers then s.mem.read pa (atomicWidth ty) else [] }])

/-! The step. -/

/-- A step takes what is due first: power-up, the boot's next step, a message held during a reconfiguration, what a moment has brought, then the agenda, and
without one what the state calls for (log 2). Where a core's turn finds a group, the bytes at the group's address are read and the
instruction that they decode to runs on the latched state, one of the core's two ports being taken for its passes (R80, R116, R118, R129). -/
def Rule.StepRunsTheDecodedInstruction : Prop :=
  (∀ s, s.boot.state = 0 → s.boot.boots = 0 → step s = exec .powerUpReset s) ∧
  (∀ s, unbooted s = false → bootDue s = true → step s = .next (s.setBoot (s.boot.proceed s.time))) ∧
  (∀ s m s' i, unbooted s = false → bootDue s = false → heldMessage s = some (m, s') → decodeMessage m = some i → step s = exec i s') ∧
  (∀ s i, unbooted s = false → bootDue s = false → heldMessage s = none → timedDue s = some i → step s = exec i s) ∧
  (∀ s i, unbooted s = false → bootDue s = false → heldMessage s = none → timedDue s = none → s.agenda = [] → dueNow s = some i → step s = exec i s) ∧
  (∀ s d m rest i, AgendaMoves s d (.message m) rest → decodeMessage m = some i → step s = exec i (afterDelay s d rest)) ∧
  (∀ s d rest i, AgendaMoves s d (.event i) rest → step s = exec i (afterDelay s d rest)) ∧
  (∀ s d m rest k, unbooted s = false → bootDue s = false → heldMessage s = none → timedDue s = none → s.agenda = { delay := d, move := m } :: rest →
    nextMoment s = some k → k < s.time + d →
    step s = .next ((advance s (k - s.time)).setAgenda ({ delay := d - (k - s.time), move := m } :: rest))) ∧
  (∀ s d rest core s1 s2 ts bs i, AgendaMoves s d (.issue core) rest → Fetches (afterDelay s d rest) s1 s2 core ts bs →
    decodeBytes (s2.launchOf (ts.headD 0)).kernel.regs bs = .ok i → ∃ s3, step s = exec i s3 ∧ Issuing s (afterDelay s d rest) s2 s3 core ts i) ∧
  (∀ s core s1 s2 ts bs i, unbooted s = false → bootDue s = false → heldMessage s = none → timedDue s = none → s.agenda = [] → dueNow s = none →
    nextCore s = some core → Fetches s s1 s2 core ts bs → decodeBytes (s2.launchOf (ts.headD 0)).kernel.regs bs = .ok i →
    ∃ s3, step s = exec i s3 ∧ Issuing s s s2 s3 core ts i) ∧
  (∀ s, unbooted s = false → bootDue s = false → heldMessage s = none → timedDue s = none → s.agenda = [] → dueNow s = none → nextCore s = none →
    step s = .next (pass s 5).2)

/-- Words of every family decode to the instructions that they stand for, and a word with one bit of its check field changed to
none (R77 to R79, R98). -/
def Rule.KnownWordsDecode : Prop :=
  ∀ x ∈ knownWords, decodeWord 255 (BitVec.ofNat 96 x.1) = .ok x.2 ∧ decodeWord 255 (BitVec.ofNat 96 x.1 ^^^ 1) = .error .check

/-- The decoder gives back every program instruction that its form permits under a launch's register count, with every operand, and a word
that decodes is the word of its instruction: no two words mean one instruction, and no bit is dropped (R77 to R98). -/
def Rule.DecodingInvertsEncoding : Prop :=
  (∀ i f x rc w, i.fields = some f → formOf (opcodeOf i) = some x → x.reason rc f = none → encode i = some w → decodeWord rc w = .ok i) ∧
  (∀ rc w i, decodeWord rc w = .ok i → encode i = some w)

/-- A step keeps memory in its canonical form. -/
def Rule.StepKeepsMemoryCanonical : Prop := ∀ s s', s.mem.wf = true → step s = .next s' → s'.mem.wf = true

/-- The machine right after reset: memory in canonical form with nothing listed, boot state 0, every endpoint unbound with device number 1
to come, every lease length 512, no vote, no ready bit, every chiplet gated, every pass count 1, no partition, no unit, and the time 0
(R34, R59, R87, R355, R436, R439, R446; that memory lists nothing, so that it reads 0, is the model's choice: log 1; the values of registers of
which the spec states none are those of log 7). -/
def Rule.ResetLeavesTheseValues : Prop :=
  State.reset.mem.wf = true ∧ State.reset.mem = [] ∧ State.reset.boot.state = 0 ∧ State.reset.time = 0 ∧ State.reset.parts = [] ∧
  State.reset.units = [] ∧ State.reset.threads = [] ∧
  (∀ n, (State.reset.endpoint n).bound = none ∧ (State.reset.endpoint n).nextDev = 1 ∧ (State.reset.endpoint n).lastAccepted = 0) ∧
  (∀ k, (State.reset.slice k).lease = 512 ∧ (State.reset.slice k).vote = 0 ∧ (State.reset.slice k).ready = false ∧
    (State.reset.slice k).ungated = false ∧ ∀ i, tabGetD 0 (State.reset.slice k).slots i = 0) ∧
  (∀ c, (State.reset.cluster c).passCode = 0) ∧ ∀ k, (State.reset.rail k).mv = 0

end Sys2Proof.Machine

open Sys2Proof Sys2Proof.Machine

/-- Integer, bit and move instructions give their exact results under their label and leave every other register, label and byte. -/
def Obligations.IntegerResults : Prop := Rule.ArithmeticResultsAreExactThenNarrowed ∧ Rule.BitInstructionsGiveTheirResults ∧ Rule.MovesGiveTheirResults

/-- Floating-point instructions round the exact result once, packed ones half by half. -/
def Obligations.FloatResults : Prop := Rule.ScalarFloatResultsRoundOnce ∧ Rule.PackedFloatResultsHalfByHalf ∧ Rule.ConversionsGiveTheirResults

/-- Comparisons, predicate logic, carries and V2P write their predicates. -/
def Obligations.PredicateResults : Prop := Rule.ComparisonsAndLogicWriteTheirPredicate ∧ Rule.PackedComparisonWritesBothHalves ∧ Rule.CarryFormsWriteResultAndCarry ∧ Rule.V2pWritesTheMaskedPredicates

/-- Special functions: a fast result at issue, or the correctly rounded one by its own write-back. -/
def Obligations.SpecialFunctionResults : Prop := Rule.SpecialFunctionsTakeTheirPath ∧ Rule.ExactResultsAreWrittenBack

/-- SRD and SWR read and write the special registers. -/
def Obligations.SpecialRegisters : Prop := Rule.SpecialRegistersHoldTheirValues ∧ Rule.SrdReadsSpecialRegisters ∧ Rule.SwrWritesTheReturnAddress

/-- SETMODE writes the masked mode bits; PART writes the partition register once for the gang. -/
def Obligations.ControlRegisters : Prop := Rule.SetmodeWritesTheMaskedBits ∧ Rule.PartWritesThePartitionRegister

/-- NOP and YIELD change nothing but issue; SETPRI caps the class at 3 and the ceiling. -/
def Obligations.NopYieldSetpri : Prop := Rule.NopAndYieldOnlyAdvance ∧ Rule.SetpriCapsTheClass

/-- Branches reach their exact targets with their link, or trap at themselves. -/
def Obligations.Branches : Prop := Rule.BranchesReachTheirTargets ∧ Rule.BadBranchTargetsTrap

/-- BPT traps at itself, TRAP before the next instruction, with their codes; RFT returns. -/
def Obligations.BreakpointTrapReturn : Prop := Rule.BptAndTrapEnterTheHandler ∧ Rule.RftReturnsFromTheHandler

/-- EXIT, TERM.G, TERM.U and HALT end or stop their thread, gang and unit. -/
def Obligations.ExitAndTermination : Prop := Rule.ExitEndsTheThread ∧ Rule.TerminationAndHalt

/-- False guards pass, empty sources trap or wait, a trap without a handler ends the unit. -/
def Obligations.GuardsSourcesAndHandlers : Prop := Rule.FalseGuardsPass ∧ Rule.EmptySourcesTrapOrWait ∧ Rule.TrapsWithoutHandlerTerminate

/-- Shuffles and RDLANE read the lane that they name. -/
def Obligations.ShufflesAndLaneReads : Prop := Rule.ShufflesReadTheNamedLane ∧ Rule.RdlaneReadsTheNamedLane

/-- Votes, ballots, reductions, scans, MATCH and ELECT give every lane its result. -/
def Obligations.VotesAndReductions : Prop := Rule.VotesAndElectWriteTheirPredicate ∧ Rule.GangReductionsGiveTheirResults

/-- CALLV reads its table and enters the entry selected; RETV returns, charges and samples. -/
def Obligations.VariantCalls : Prop := Rule.CallvReadsItsTable ∧ Rule.VariantsAreSelectedAndEntered ∧ Rule.RetvChargesReturnsAndTags

/-- BSET, BGET, BSPLIT and METER write and read budgets and meters. -/
def Obligations.Budgets : Prop := Rule.BsetWritesOneBudget ∧ Rule.BudgetsAndMetersAreRead ∧ Rule.BsplitSetsAShare

/-- Record instructions send their access at the address of R232 and write nothing at issue. -/
def Obligations.MemoryIssue : Prop := Rule.MemoryAccessesLeaveAtIssue ∧ Rule.PrefChangesNoRegisterAndNoByte

/-- Out-of-bounds lanes read zero; malformed records and misaligned addresses trap. -/
def Obligations.MemoryTraps : Prop := Rule.OutOfBoundsLanesReadZero ∧ Rule.RecordAndAlignmentTraps

/-- BRMAKE builds a record, BRSET patches a field, BRGET reads one. -/
def Obligations.BufferRecords : Prop := Rule.BrmakeBuildsARecord ∧ Rule.BrsetPatchesOneField ∧ Rule.BrgetReadsOneField

/-- Scratchpad instructions send their access within the run, or trap. -/
def Obligations.ScratchpadIssue : Prop := Rule.ScratchpadAccessesLeaveAtIssue ∧ Rule.ScratchpadRangeAndAlignmentTraps

/-- Scratchpad accesses read, write, fill and empty their lines. -/
def Obligations.ScratchpadLandings : Prop := Rule.ScratchpadAccessesLand

/-- Loads deliver the bytes in memory; stores write theirs and no other. -/
def Obligations.LoadsAndStores : Prop := Rule.LoadsDeliverMemoryBytes ∧ Rule.StoresWriteTheirBytes

/-- A label failure writes nothing and makes a record; SFQPOP takes the oldest. -/
def Obligations.StoreFaultRecords : Prop := Rule.LabelFailuresAreRecorded ∧ Rule.SfqpopTakesTheOldestRecord

/-- Atomics write the new value of their operation and return the old one. -/
def Obligations.Atomics : Prop := Rule.AtomicsReadModifyWrite ∧ Rule.AtomicOperationsOfTheTable

/-- GTHR, GTHRS, REMAP and CBLOAD send their reads and set their state. -/
def Obligations.GatherIssue : Prop := Rule.RemapModesOfTheGather ∧ Rule.GathersLeaveAtIssue ∧ Rule.RemapTakesAndSetsTheState ∧ Rule.CbloadReadsItsSlot

/-- Rows, remap tables and codebooks arrive whole. -/
def Obligations.GatherData : Prop := Rule.GatherReadsBringTheirData

/-- COPY and COPYM supply slices; commands start and engines take them. -/
def Obligations.CopyCommands : Prop := Rule.CopiesSupplyTheirSlice ∧ Rule.CopyCommandsStartAndAreAccepted

/-- Copy chunks carry their bytes and no other; a completed command posts its record. -/
def Obligations.CopyTransfers : Prop := Rule.CopyChunksCarryBytes ∧ Rule.CopiesCompleteWithARecord

/-- MREADY counts and waits; MMA and MMAS take an entry and empty their accumulators. -/
def Obligations.MatrixIssue : Prop := Rule.MreadyCountsAndWaits ∧ Rule.MatrixOperationsTakeAnEntry

/-- Matrix chunks add rounded exact sums; completion writes the accumulators. -/
def Obligations.MatrixResults : Prop := Rule.ChunksAccumulateRoundedSums ∧ Rule.MatrixCompletionWritesAccumulators

/-- Waits that are over let their thread go on; cleared conditions make it ready. -/
def Obligations.WaitsAndBlockedThreads : Prop := Rule.WaitsThatAreOverLetTheThreadGoOn ∧ Rule.HeldWorkGoesOn

/-- Barriers arrive, wait and complete; the event queue is first in, first out. -/
def Obligations.BarriersAndEvents : Prop := Rule.BarriersArriveAndWait ∧ Rule.BarrierPhasesComplete ∧ Rule.EventQueueIsFirstInFirstOut

/-- LAUNCH and GARM read their entry, then start a child and write its handle. -/
def Obligations.DeviceLaunches : Prop := Rule.LaunchesSendTheirRead ∧ Rule.ChildrenAreStarted

/-- CNTRD reads counters and statuses; CANCEL cancels a level and says so. -/
def Obligations.LevelsFromTheDevice : Prop := Rule.LevelsAreReadAndCancelled ∧ Rule.CancelTakesEffect

/-- LBLRD reads the label of an operand, the gang, a page or a line. -/
def Obligations.LabelReads : Prop := Rule.LblrdReadsLabels

/-- EGRESS sends its range; what the gate passes leaves, what it refuses comes back with a reason. -/
def Obligations.Egress : Prop := Rule.EgressSendsItsRange ∧ Rule.EgressIsDecided

/-- Idempotent regions are entered, opened, left and committed by the whole unit. -/
def Obligations.Regions : Prop := Rule.RegionsAreEnteredAndLeft ∧ Rule.RegionsOpenAndCommit

/-- ERASE ends a tile, EXQ reads existence, STX to an absent tile writes nothing. -/
def Obligations.SparseTiles : Prop := Rule.TilesAreErasedAndQueried

/-- A message is refused, waits, or is taken in sequence. -/
def Obligations.MessageSequence : Prop := Rule.MessagesAreSequenced

/-- QUERY_STATE, REPLAY and a short message complete with their answer. -/
def Obligations.UnsequencedMessages : Prop := Rule.QueryStateAnswers ∧ Rule.ReplayResends ∧ Rule.ShortMessagesAreAnswered

/-- Jobs and phases are opened and closed, save areas registered, jobs resumed. -/
def Obligations.JobCommands : Prop := Rule.JobCommandsTakeEffect

/-- Queues are configured, entries submitted whole, work cancelled, the status window read. -/
def Obligations.QueueCommands : Prop := Rule.QueueCommandsTakeEffect

/-- MEM_WRITE and MEM_READ move exactly their bytes under the labels. -/
def Obligations.HostTransfers : Prop := Rule.HostTransfersMoveBytes

/-- LOAD_OBJECT enters a checked object under its label or leaves no trace; UNLOAD_OBJECT removes it. -/
def Obligations.Objects : Prop := Rule.ObjectsAreLoadedAndUnloaded

/-- Signed records of Teasel change their table or nothing. -/
def Obligations.TeaselRecords : Prop := Rule.TeaselRecordsAreInstalled

/-- Endpoint enables, nonce, report, boot status, replacement image, configuration record. -/
def Obligations.ManagementCommands : Prop := Rule.ManagementCommandsTakeEffect

/-- RECONFIGURE is refused whole or applied entry by entry; released stacks read zero. -/
def Obligations.Reconfiguration : Prop := Rule.ReconfigurationAppliesEntryByEntry

/-- Power-up boots by its image and identity; a disabled endpoint quiesces and sends its final notice. -/
def Obligations.PowerUpAndDisable : Prop := Rule.PowerUpAndDisableEndThings

/-- The request ring: refusals, MAP, UNMAP, PROTECT, EVICT and the shoot-down. -/
def Obligations.PageRequests : Prop := Rule.RingRecordsAreServed

/-- Queue heads start launches, graphs and copies, and end waits. -/
def Obligations.QueueHeads : Prop := Rule.QueueHeadsStartTheirWork

/-- Graph nodes settle and start; levels complete upwards with their status. -/
def Obligations.GraphsAndLevels : Prop := Rule.GraphNodesStartAndSettle ∧ Rule.LevelsComplete

/-- Units are dispatched at their entry, restarted, resumed, ended, aborted and saved. -/
def Obligations.Units : Prop := Rule.UnitsAreDispatchedAndEnd ∧ Rule.UnitsLeaveTheirSlots

/-- Aging, the skid limit and Glason's active sets. -/
def Obligations.Scheduling : Prop := Rule.ThreadsAgeAndMeetTheSkidLimit ∧ Rule.GlasonSetsSwap

/-- Fusion changes, budget accounts and the firmware's registers. -/
def Obligations.FusionAccountsAndRegisters : Prop := Rule.FusionChanges ∧ Rule.AccountsAreRefilledAndBorrow ∧ Rule.FirmwareRegistersAreWritten

/-- Votes, domains, rails, pass counts, load records and fades. -/
def Obligations.Power : Prop := Rule.VotesMoveTheirRail ∧ Rule.DomainsAreGatedAndUngated ∧ Rule.RailsAndPassCountsMove ∧ Rule.LoadRecordsAndFades

/-- Threshold notices, and accesses from other devices. -/
def Obligations.NoticesAndRemoteAccesses : Prop := Rule.ThresholdNoticesAreSentOnce ∧ Rule.RemoteAccessesAreServed

/-- A step runs the instruction that the bytes at the group's address decode to. -/
def Obligations.StepRunsTheDecodedInstruction : Prop := Rule.StepRunsTheDecodedInstruction

/-- Words written out from the encoding tables decode to their instructions. -/
def Obligations.KnownWordsDecode : Prop := Rule.KnownWordsDecode

/-- Decoding and encoding are inverse: no bit of a word is dropped. -/
def Obligations.DecodingInvertsEncoding : Prop := Rule.DecodingInvertsEncoding

/-- Every step keeps memory in its canonical form. -/
def Obligations.StepKeepsMemoryCanonical : Prop := Rule.StepKeepsMemoryCanonical

/-- What the machine holds right after reset. -/
def Obligations.ResetValues : Prop := Rule.ResetLeavesTheseValues
end

