-- ==== Sys2Proof/Laws/Encode.lean ====
section
/-! SUPPORT. The encoder's word read back field by field: its check matches, its opcode and every field come out as they went in. -/

namespace Sys2Proof

/-- A Bool as a bit. -/
theorem ite_bit (b : Bool) (k : Nat) : (if b then k else 0) = b.toNat * k := by cases b <;> simp

theorem Opnd.toBits_lt (o : Opnd) : o.toBits < 1024 := by
  cases o with
  | v n | s n | k n | imm n => have := n.isLt; simp only [Opnd.toBits]; omega

theorem Opnd.ofBits_toBits (o : Opnd) : Opnd.ofBits o.toBits = o := by
  cases o with
  | v n =>
    have := n.isLt
    simp only [Opnd.toBits, Opnd.ofBits, show n.toNat / 256 % 4 = 0 by omega, Nat.mod_eq_of_lt this]
    simp
  | s n =>
    have := n.isLt
    simp only [Opnd.toBits, Opnd.ofBits, show (256 + n.toNat) / 256 % 4 = 1 by omega, show (256 + n.toNat) % 256 = n.toNat by omega]
    simp
  | k n =>
    have := n.isLt
    simp only [Opnd.toBits, Opnd.ofBits, show (512 + n.toNat) / 256 % 4 = 2 by omega, show (512 + n.toNat) % 256 = n.toNat by omega]
    simp
  | imm n =>
    have := n.isLt
    simp only [Opnd.toBits, Opnd.ofBits, show (768 + n.toNat) / 256 % 4 = 3 by omega, show (768 + n.toNat) % 256 = n.toNat by omega]
    simp

/-- The fields at their places. -/
theorem fields_apart {r y st m ec eb ea c b a d gp ng op n : Nat} (hr : r < 8) (hy : y < 2) (hst : st < 16) (hm : m < 2 ^ 20) (hec : ec < 2)
    (heb : eb < 2) (hea : ea < 2) (hc : c < 1024) (hb : b < 1024) (ha : a < 1024) (hd : d < 1024) (hgp : gp < 8) (hng : ng < 2) (hop : op < 1024)
    (h : n = r * 2 ^ 11 + y * 2 ^ 14 + st * 2 ^ 15 + m * 2 ^ 19 + ec * 2 ^ 39 + eb * 2 ^ 40 + ea * 2 ^ 41 + c * 2 ^ 42 + b * 2 ^ 52 + a * 2 ^ 62 +
      d * 2 ^ 72 + gp * 2 ^ 82 + ng * 2 ^ 85 + op * 2 ^ 86) :
    n < 2 ^ 96 ∧ n % 2 ^ 5 = 0 ∧ n / 2 ^ 5 % 2 ^ 6 = 0 ∧ n / 2 ^ 11 % 2 ^ 3 = r ∧ n / 2 ^ 14 % 2 ^ 1 = y ∧ n / 2 ^ 15 % 2 ^ 4 = st ∧
    n / 2 ^ 19 % 2 ^ 20 = m ∧ n / 2 ^ 39 % 2 ^ 1 = ec ∧ n / 2 ^ 40 % 2 ^ 1 = eb ∧ n / 2 ^ 41 % 2 ^ 1 = ea ∧ n / 2 ^ 42 % 2 ^ 10 = c ∧
    n / 2 ^ 52 % 2 ^ 10 = b ∧ n / 2 ^ 62 % 2 ^ 10 = a ∧ n / 2 ^ 72 % 2 ^ 10 = d ∧ n / 2 ^ 82 % 2 ^ 3 = gp ∧ n / 2 ^ 85 % 2 ^ 1 = ng ∧
    n / 2 ^ 86 % 2 ^ 10 = op := by
  refine ⟨?_, ?_, ?_, ?_, ?_, ?_, ?_, ?_, ?_, ?_, ?_, ?_, ?_, ?_, ?_, ?_, ?_⟩ <;> omega

/-- A fold of XORs of five-bit groups stays below 32. -/
theorem foldl_xor_lt (g : Nat → Nat) (h : ∀ k, g k < 32) (l : List Nat) (a : Nat) (ha : a < 32) :
    l.foldl (fun acc k => acc ^^^ g k) a < 32 := by
  induction l generalizing a with
  | nil => exact ha
  | cons k l ih => exact ih _ (Nat.xor_lt_two_pow (n := 5) ha (h k))

theorem checkOf_lt (n : Nat) : checkOf n < 32 :=
  foldl_xor_lt (fun k => n / 2 ^ (5 * (k + 1)) % 32) (fun _ => Nat.mod_lt _ (by omega)) _ _ (by omega)

/-- The check looks at the bits above its own field alone. -/
theorem checkOf_congr (m n : Nat) (h : m / 32 = n / 32) : checkOf m = checkOf n := by
  have key : ∀ k, m / 2 ^ (5 * (k + 1)) % 32 = n / 2 ^ (5 * (k + 1)) % 32 := by
    intro k
    have e : 2 ^ (5 * (k + 1)) = 32 * 2 ^ (5 * k) := by rw [Nat.mul_add, Nat.pow_add, Nat.mul_comm]
    rw [e, ← Nat.div_div_eq_div_mul, ← Nat.div_div_eq_div_mul, h]
  simp only [checkOf, key]

/-- The word that the encoder makes of a number: above the check field it is the number. -/
theorem withCheck_toNat (n : Nat) (h : n < 2 ^ 96) : (withCheck n).toNat = n / 32 * 32 + checkOf n := by
  have := checkOf_lt n
  rw [withCheck, BitVec.toNat_ofNat, Nat.mod_eq_of_lt (by omega)]

theorem withCheck_ok (n : Nat) (h : n < 2 ^ 96) : (withCheck n).checkOk = true := by
  have hc := checkOf_lt n
  have h1 := withCheck_toNat n h
  have h2 : checkOf (n / 32 * 32 + checkOf n) = checkOf n := checkOf_congr _ _ (by omega)
  simp only [IWord.checkOk, h1, h2, beq_iff_eq]
  omega

theorem withCheck_field (n lo len : Nat) (h : n < 2 ^ 96) (hlo : 5 ≤ lo) : (withCheck n).field lo len = n / 2 ^ lo % 2 ^ len := by
  have hc := checkOf_lt n
  have e : 2 ^ lo = 32 * 2 ^ (lo - 5) := by
    have : lo = 5 + (lo - 5) := by omega
    rw [this, Nat.pow_add]
    simp
  rw [IWord.field, withCheck_toNat n h, e, ← Nat.div_div_eq_div_mul, ← Nat.div_div_eq_div_mul,
    show (n / 32 * 32 + checkOf n) / 32 = n / 32 by omega]

theorem bit_beq (b : Bool) : (b.toNat == 1) = b := by cases b <;> rfl

/-- The fields of an assembled word, its opcode, its zero field and its check. -/
theorem assembled (op : Nat) (f : Fields) (h : op < 1024) :
    (withCheck (assemble op f)).checkOk = true ∧ (withCheck (assemble op f)).field 86 10 = op ∧ (withCheck (assemble op f)).field 5 6 = 0 ∧
      Fields.ofWord (withCheck (assemble op f)) = f := by
  have hb := fields_apart (r := f.reuse.toNat) (y := f.yld.toNat) (st := f.stall.toNat) (m := f.mod.toNat) (ec := f.ec.toNat)
    (eb := f.eb.toNat) (ea := f.ea.toNat) (c := f.c.toBits) (b := f.b.toBits) (a := f.a.toBits) (d := f.d.toBits) (gp := f.gp.toNat)
    (ng := f.neg.toNat) (op := op) f.reuse.isLt f.yld.toNat_lt f.stall.isLt f.mod.isLt f.ec.toNat_lt f.eb.toNat_lt f.ea.toNat_lt
    f.c.toBits_lt f.b.toBits_lt f.a.toBits_lt f.d.toBits_lt f.gp.isLt f.neg.toNat_lt h (n := assemble op f) (by simp only [assemble, ite_bit])
  obtain ⟨hn, -, hz, hr, hy, hst, hm, hec, heb, hea, hc, hb, ha, hd, hgp, hng, hop⟩ := hb
  have F := fun lo len hlo => withCheck_field (assemble op f) lo len hn hlo
  refine ⟨withCheck_ok _ hn, ?_, ?_, ?_⟩
  · rw [F 86 10 (by omega), hop]
  · rw [F 5 6 (by omega), hz]
  · simp only [Fields.ofWord, F 85 1 (by omega), F 82 3 (by omega), F 72 10 (by omega), F 62 10 (by omega), F 52 10 (by omega),
      F 42 10 (by omega), F 41 1 (by omega), F 40 1 (by omega), F 39 1 (by omega), F 19 20 (by omega), F 15 4 (by omega),
      F 14 1 (by omega), F 11 3 (by omega), hr, hy, hst, hm, hec, heb, hea, hc, hb, ha, hd, hgp, hng, bit_beq, Opnd.ofBits_toBits,
      BitVec.ofNat_toNat, BitVec.setWidth_eq]

end Sys2Proof
end

