-- ==== Sys2Proof/Laws/Tab.lean ====
section
/-! SUPPORT. The laws of tables: reading after writing and deleting, and the canonical form kept. None needs an order of the keys but
those about the form. -/

namespace Sys2Proof.Machine

variable {α : Type}

theorem tabGet_put_same (t : Tab α) (i : Nat) (x : α) : tabGet (tabPut t i x) i = some x := by
  induction t with
  | nil => simp [tabPut, tabGet]
  | cons e t ih =>
    obtain ⟨k, v⟩ := e
    simp only [tabPut]
    split
    · simp [tabGet]
    · split
      · simp [tabGet]
      · simp [tabGet, *]

theorem tabGet_put_ne (t : Tab α) {i j : Nat} (x : α) (h : j ≠ i) : tabGet (tabPut t i x) j = tabGet t j := by
  induction t with
  | nil => simp [tabPut, tabGet, h]
  | cons e t ih =>
    obtain ⟨k, v⟩ := e
    simp only [tabPut]
    split
    · simp [tabGet, h]
    · split
      · simp [tabGet, ← ‹i = k›, h]
      · simp [tabGet, ih]

@[simp] theorem tabGet_put (t : Tab α) (i j : Nat) (x : α) :
    tabGet (tabPut t i x) j = if j = i then some x else tabGet t j := by
  split
  · subst j; exact tabGet_put_same t i x
  · exact tabGet_put_ne t x ‹_›

@[simp] theorem tabGet_del (t : Tab α) (i j : Nat) : tabGet (tabDel t i) j = if j = i then none else tabGet t j := by
  induction t with
  | nil => simp [tabDel, tabGet]
  | cons e t ih =>
    obtain ⟨k, v⟩ := e
    by_cases h : i = k
    · subst h
      by_cases h' : j = i
      · subst h'; simpa [tabDel] using ih
      · simp [tabDel, tabGet, ih, h']
    · by_cases h' : j = k
      · subst h'; simp [tabDel, tabGet, h, Ne.symm h]
      · simp [tabDel, tabGet, ih, h, h']

@[simp] theorem tabGetD_put (d : α) (t : Tab α) (i j : Nat) (x : α) :
    tabGetD d (tabPut t i x) j = if j = i then x else tabGetD d t j := by
  simp only [tabGetD, tabGet_put]; split <;> rfl

@[simp] theorem tabGetD_del (d : α) (t : Tab α) (i j : Nat) :
    tabGetD d (tabDel t i) j = if j = i then d else tabGetD d t j := by
  simp only [tabGetD, tabGet_del]; split <;> rfl

@[simp] theorem tabGetD_set [DecidableEq α] (d : α) (t : Tab α) (i j : Nat) (x : α) :
    tabGetD d (tabSetD d t i x) j = if j = i then x else tabGetD d t j := by
  unfold tabSetD
  split
  · subst x; simp
  · simp

@[simp] theorem tabGet_nil (i : Nat) : tabGet ([] : Tab α) i = none := rfl
@[simp] theorem tabGetD_nil (d : α) (i : Nat) : tabGetD d ([] : Tab α) i = d := rfl

/-! The canonical form. -/

/-- A lower bound of the keys may be lowered. -/
theorem tabRising_mono {lo lo' : Option Nat} {t : Tab α} (h : ∀ k, (∀ l ∈ lo, l < k) → ∀ l ∈ lo', l < k)
    (ht : tabRising lo t = true) : tabRising lo' t = true := by
  cases t with
  | nil => rfl
  | cons e t =>
    obtain ⟨k, v⟩ := e
    simp only [tabRising, Bool.and_eq_true] at ht ⊢
    refine ⟨?_, ht.2⟩
    have := h k (by cases lo <;> simp_all)
    cases lo' <;> simp_all

theorem tabRising_put (t : Tab α) (i : Nat) (x : α) (lo : Option Nat) (hi : ∀ l ∈ lo, l < i)
    (h : tabRising lo t = true) : tabRising lo (tabPut t i x) = true := by
  induction t generalizing lo with
  | nil => cases lo <;> simp_all [tabPut, tabRising]
  | cons e t ih =>
    obtain ⟨k, v⟩ := e
    simp only [tabRising, Bool.and_eq_true] at h
    simp only [tabPut]
    split
    · cases lo <;> simp_all [tabRising]
    · split
      · subst i; cases lo <;> simp_all [tabRising]
      · have := ih (some k) (by simp; omega) h.2
        simp [tabRising, this, h.1]

theorem tabRising_del (t : Tab α) (i : Nat) (lo : Option Nat) (h : tabRising lo t = true) :
    tabRising lo (tabDel t i) = true := by
  induction t generalizing lo with
  | nil => rfl
  | cons e t ih =>
    obtain ⟨k, v⟩ := e
    simp only [tabRising, Bool.and_eq_true] at h
    simp only [tabDel]
    split
    · refine ih lo (tabRising_mono ?_ h.2)
      intro m hm l hl
      cases lo with
      | none => simp at hl
      | some a =>
        have h1 : a < k := by simpa using h.1
        have h2 := hm k rfl
        have h3 : l = a := by simpa [eq_comm] using hl
        omega
    · simp [tabRising, ih (some k) h.2, h.1]

theorem tabPut_all {p : Nat × α → Bool} (t : Tab α) (i : Nat) (x : α) (hx : p (i, x) = true) (h : t.all p = true) :
    (tabPut t i x).all p = true := by
  induction t with
  | nil => simp [tabPut, hx]
  | cons e t ih =>
    obtain ⟨k, v⟩ := e
    simp only [List.all_cons, Bool.and_eq_true] at h
    simp only [tabPut]
    split
    · simp_all
    · split <;> simp_all

theorem tabDel_all {p : Nat × α → Bool} (t : Tab α) (i : Nat) (h : t.all p = true) : (tabDel t i).all p = true := by
  induction t with
  | nil => rfl
  | cons e t ih =>
    obtain ⟨k, v⟩ := e
    simp only [List.all_cons, Bool.and_eq_true] at h
    simp only [tabDel]
    split <;> simp_all

/-- Every write keeps the canonical form. -/
theorem tabWf_set [DecidableEq α] (d : α) (t : Tab α) (i : Nat) (x : α) (h : tabWf d t = true) :
    tabWf d (tabSetD d t i x) = true := by
  simp only [tabWf, Bool.and_eq_true] at h ⊢
  unfold tabSetD
  split
  · exact ⟨tabRising_del t i none h.1, tabDel_all t i h.2⟩
  · exact ⟨tabRising_put t i x none (by simp) h.1, tabPut_all t i x (by simpa using ‹¬x = d›) h.2⟩

/-- Leaving entries out keeps the canonical form. -/
theorem tabRising_filter (p : Nat × α → Bool) (t : Tab α) (lo : Option Nat) (h : tabRising lo t = true) :
    tabRising lo (t.filter p) = true := by
  induction t generalizing lo with
  | nil => rfl
  | cons e t ih =>
    obtain ⟨k, v⟩ := e
    simp only [tabRising, Bool.and_eq_true] at h
    simp only [List.filter_cons]
    split
    · simp [tabRising, ih (some k) h.2, h.1]
    · refine ih lo (tabRising_mono ?_ h.2)
      intro m hm l hl
      cases lo with
      | none => simp at hl
      | some a =>
        have h1 : a < k := by simpa using h.1
        have h2 := hm k rfl
        have h3 : l = a := by simpa [eq_comm] using hl
        omega

theorem tabWf_filter [DecidableEq α] (d : α) (p : Nat × α → Bool) (t : Tab α) (h : tabWf d t = true) :
    tabWf d (t.filter p) = true := by
  simp only [tabWf, Bool.and_eq_true] at h ⊢
  refine ⟨tabRising_filter p t none h.1, ?_⟩
  rw [List.all_eq_true] at h ⊢
  exact fun x hx => h.2 x (List.mem_of_mem_filter hx)

end Sys2Proof.Machine
end

