-- ==== Sys2Proof/Laws/State.lean ====
section
/-! SUPPORT. What each setter of the state leaves in each field, and what the accessors read after it. -/

namespace Sys2Proof.Machine

/-! Fields after setters. -/

@[simp] theorem State.setThread_time (s : State) (k : Nat) (x : Thread) : (s.setThread k x).time = s.time := rfl
@[simp] theorem State.setThread_agenda (s : State) (k : Nat) (x : Thread) : (s.setThread k x).agenda = s.agenda := rfl
@[simp] theorem State.setThread_issue (s : State) (k : Nat) (x : Thread) : (s.setThread k x).issue = s.issue := rfl
@[simp] theorem State.setThread_fresh (s : State) (k : Nat) (x : Thread) : (s.setThread k x).fresh = s.fresh := rfl
@[simp] theorem State.setThread_nextId (s : State) (k : Nat) (x : Thread) : (s.setThread k x).nextId = s.nextId := rfl
@[simp] theorem State.setThread_refills (s : State) (k : Nat) (x : Thread) : (s.setThread k x).refills = s.refills := rfl
@[simp] theorem State.setThread_periods (s : State) (k : Nat) (x : Thread) : (s.setThread k x).periods = s.periods := rfl
@[simp] theorem State.setThread_mem (s : State) (k : Nat) (x : Thread) : (s.setThread k x).mem = s.mem := rfl
@[simp] theorem State.setThread_boot (s : State) (k : Nat) (x : Thread) : (s.setThread k x).boot = s.boot := rfl
@[simp] theorem State.setThread_endpoints (s : State) (k : Nat) (x : Thread) : (s.setThread k x).endpoints = s.endpoints := rfl
@[simp] theorem State.setThread_parts (s : State) (k : Nat) (x : Thread) : (s.setThread k x).parts = s.parts := rfl
@[simp] theorem State.setThread_slices (s : State) (k : Nat) (x : Thread) : (s.setThread k x).slices = s.slices := rfl
@[simp] theorem State.setThread_rails (s : State) (k : Nat) (x : Thread) : (s.setThread k x).rails = s.rails := rfl
@[simp] theorem State.setThread_clusters (s : State) (k : Nat) (x : Thread) : (s.setThread k x).clusters = s.clusters := rfl
@[simp] theorem State.setThread_cores (s : State) (k : Nat) (x : Thread) : (s.setThread k x).cores = s.cores := rfl
@[simp] theorem State.setThread_levels (s : State) (k : Nat) (x : Thread) : (s.setThread k x).levels = s.levels := rfl
@[simp] theorem State.setThread_launches (s : State) (k : Nat) (x : Thread) : (s.setThread k x).launches = s.launches := rfl
@[simp] theorem State.setThread_graphs (s : State) (k : Nat) (x : Thread) : (s.setThread k x).graphs = s.graphs := rfl
@[simp] theorem State.setThread_units (s : State) (k : Nat) (x : Thread) : (s.setThread k x).units = s.units := rfl
@[simp] theorem State.setThread_gangs (s : State) (k : Nat) (x : Thread) : (s.setThread k x).gangs = s.gangs := rfl
@[simp] theorem State.setThread_threads (s : State) (k : Nat) (x : Thread) : (s.setThread k x).threads = tabPut s.threads k x := rfl
@[simp] theorem State.setThread_accesses (s : State) (k : Nat) (x : Thread) : (s.setThread k x).accesses = s.accesses := rfl
@[simp] theorem State.setThread_copies (s : State) (k : Nat) (x : Thread) : (s.setThread k x).copies = s.copies := rfl
@[simp] theorem State.setThread_engines (s : State) (k : Nat) (x : Thread) : (s.setThread k x).engines = s.engines := rfl
@[simp] theorem State.setThread_saved (s : State) (k : Nat) (x : Thread) : (s.setThread k x).saved = s.saved := rfl
@[simp] theorem State.setThread_outbox (s : State) (k : Nat) (x : Thread) : (s.setThread k x).outbox = s.outbox := rfl
@[simp] theorem State.setThread_waiting (s : State) (k : Nat) (x : Thread) : (s.setThread k x).waiting = s.waiting := rfl
@[simp] theorem State.setThread_replies (s : State) (k : Nat) (x : Thread) : (s.setThread k x).replies = s.replies := rfl
@[simp] theorem State.setGang_time (s : State) (k : Nat) (x : Gang) : (s.setGang k x).time = s.time := rfl
@[simp] theorem State.setGang_agenda (s : State) (k : Nat) (x : Gang) : (s.setGang k x).agenda = s.agenda := rfl
@[simp] theorem State.setGang_issue (s : State) (k : Nat) (x : Gang) : (s.setGang k x).issue = s.issue := rfl
@[simp] theorem State.setGang_fresh (s : State) (k : Nat) (x : Gang) : (s.setGang k x).fresh = s.fresh := rfl
@[simp] theorem State.setGang_nextId (s : State) (k : Nat) (x : Gang) : (s.setGang k x).nextId = s.nextId := rfl
@[simp] theorem State.setGang_refills (s : State) (k : Nat) (x : Gang) : (s.setGang k x).refills = s.refills := rfl
@[simp] theorem State.setGang_periods (s : State) (k : Nat) (x : Gang) : (s.setGang k x).periods = s.periods := rfl
@[simp] theorem State.setGang_mem (s : State) (k : Nat) (x : Gang) : (s.setGang k x).mem = s.mem := rfl
@[simp] theorem State.setGang_boot (s : State) (k : Nat) (x : Gang) : (s.setGang k x).boot = s.boot := rfl
@[simp] theorem State.setGang_endpoints (s : State) (k : Nat) (x : Gang) : (s.setGang k x).endpoints = s.endpoints := rfl
@[simp] theorem State.setGang_parts (s : State) (k : Nat) (x : Gang) : (s.setGang k x).parts = s.parts := rfl
@[simp] theorem State.setGang_slices (s : State) (k : Nat) (x : Gang) : (s.setGang k x).slices = s.slices := rfl
@[simp] theorem State.setGang_rails (s : State) (k : Nat) (x : Gang) : (s.setGang k x).rails = s.rails := rfl
@[simp] theorem State.setGang_clusters (s : State) (k : Nat) (x : Gang) : (s.setGang k x).clusters = s.clusters := rfl
@[simp] theorem State.setGang_cores (s : State) (k : Nat) (x : Gang) : (s.setGang k x).cores = s.cores := rfl
@[simp] theorem State.setGang_levels (s : State) (k : Nat) (x : Gang) : (s.setGang k x).levels = s.levels := rfl
@[simp] theorem State.setGang_launches (s : State) (k : Nat) (x : Gang) : (s.setGang k x).launches = s.launches := rfl
@[simp] theorem State.setGang_graphs (s : State) (k : Nat) (x : Gang) : (s.setGang k x).graphs = s.graphs := rfl
@[simp] theorem State.setGang_units (s : State) (k : Nat) (x : Gang) : (s.setGang k x).units = s.units := rfl
@[simp] theorem State.setGang_gangs (s : State) (k : Nat) (x : Gang) : (s.setGang k x).gangs = tabPut s.gangs k x := rfl
@[simp] theorem State.setGang_threads (s : State) (k : Nat) (x : Gang) : (s.setGang k x).threads = s.threads := rfl
@[simp] theorem State.setGang_accesses (s : State) (k : Nat) (x : Gang) : (s.setGang k x).accesses = s.accesses := rfl
@[simp] theorem State.setGang_copies (s : State) (k : Nat) (x : Gang) : (s.setGang k x).copies = s.copies := rfl
@[simp] theorem State.setGang_engines (s : State) (k : Nat) (x : Gang) : (s.setGang k x).engines = s.engines := rfl
@[simp] theorem State.setGang_saved (s : State) (k : Nat) (x : Gang) : (s.setGang k x).saved = s.saved := rfl
@[simp] theorem State.setGang_outbox (s : State) (k : Nat) (x : Gang) : (s.setGang k x).outbox = s.outbox := rfl
@[simp] theorem State.setGang_waiting (s : State) (k : Nat) (x : Gang) : (s.setGang k x).waiting = s.waiting := rfl
@[simp] theorem State.setGang_replies (s : State) (k : Nat) (x : Gang) : (s.setGang k x).replies = s.replies := rfl
@[simp] theorem State.setUnit_time (s : State) (k : Nat) (x : Unit) : (s.setUnit k x).time = s.time := rfl
@[simp] theorem State.setUnit_agenda (s : State) (k : Nat) (x : Unit) : (s.setUnit k x).agenda = s.agenda := rfl
@[simp] theorem State.setUnit_issue (s : State) (k : Nat) (x : Unit) : (s.setUnit k x).issue = s.issue := rfl
@[simp] theorem State.setUnit_fresh (s : State) (k : Nat) (x : Unit) : (s.setUnit k x).fresh = s.fresh := rfl
@[simp] theorem State.setUnit_nextId (s : State) (k : Nat) (x : Unit) : (s.setUnit k x).nextId = s.nextId := rfl
@[simp] theorem State.setUnit_refills (s : State) (k : Nat) (x : Unit) : (s.setUnit k x).refills = s.refills := rfl
@[simp] theorem State.setUnit_periods (s : State) (k : Nat) (x : Unit) : (s.setUnit k x).periods = s.periods := rfl
@[simp] theorem State.setUnit_mem (s : State) (k : Nat) (x : Unit) : (s.setUnit k x).mem = s.mem := rfl
@[simp] theorem State.setUnit_boot (s : State) (k : Nat) (x : Unit) : (s.setUnit k x).boot = s.boot := rfl
@[simp] theorem State.setUnit_endpoints (s : State) (k : Nat) (x : Unit) : (s.setUnit k x).endpoints = s.endpoints := rfl
@[simp] theorem State.setUnit_parts (s : State) (k : Nat) (x : Unit) : (s.setUnit k x).parts = s.parts := rfl
@[simp] theorem State.setUnit_slices (s : State) (k : Nat) (x : Unit) : (s.setUnit k x).slices = s.slices := rfl
@[simp] theorem State.setUnit_rails (s : State) (k : Nat) (x : Unit) : (s.setUnit k x).rails = s.rails := rfl
@[simp] theorem State.setUnit_clusters (s : State) (k : Nat) (x : Unit) : (s.setUnit k x).clusters = s.clusters := rfl
@[simp] theorem State.setUnit_cores (s : State) (k : Nat) (x : Unit) : (s.setUnit k x).cores = s.cores := rfl
@[simp] theorem State.setUnit_levels (s : State) (k : Nat) (x : Unit) : (s.setUnit k x).levels = s.levels := rfl
@[simp] theorem State.setUnit_launches (s : State) (k : Nat) (x : Unit) : (s.setUnit k x).launches = s.launches := rfl
@[simp] theorem State.setUnit_graphs (s : State) (k : Nat) (x : Unit) : (s.setUnit k x).graphs = s.graphs := rfl
@[simp] theorem State.setUnit_units (s : State) (k : Nat) (x : Unit) : (s.setUnit k x).units = tabPut s.units k x := rfl
@[simp] theorem State.setUnit_gangs (s : State) (k : Nat) (x : Unit) : (s.setUnit k x).gangs = s.gangs := rfl
@[simp] theorem State.setUnit_threads (s : State) (k : Nat) (x : Unit) : (s.setUnit k x).threads = s.threads := rfl
@[simp] theorem State.setUnit_accesses (s : State) (k : Nat) (x : Unit) : (s.setUnit k x).accesses = s.accesses := rfl
@[simp] theorem State.setUnit_copies (s : State) (k : Nat) (x : Unit) : (s.setUnit k x).copies = s.copies := rfl
@[simp] theorem State.setUnit_engines (s : State) (k : Nat) (x : Unit) : (s.setUnit k x).engines = s.engines := rfl
@[simp] theorem State.setUnit_saved (s : State) (k : Nat) (x : Unit) : (s.setUnit k x).saved = s.saved := rfl
@[simp] theorem State.setUnit_outbox (s : State) (k : Nat) (x : Unit) : (s.setUnit k x).outbox = s.outbox := rfl
@[simp] theorem State.setUnit_waiting (s : State) (k : Nat) (x : Unit) : (s.setUnit k x).waiting = s.waiting := rfl
@[simp] theorem State.setUnit_replies (s : State) (k : Nat) (x : Unit) : (s.setUnit k x).replies = s.replies := rfl
@[simp] theorem State.setCore_time (s : State) (k : Nat) (x : Core) : (s.setCore k x).time = s.time := rfl
@[simp] theorem State.setCore_agenda (s : State) (k : Nat) (x : Core) : (s.setCore k x).agenda = s.agenda := rfl
@[simp] theorem State.setCore_issue (s : State) (k : Nat) (x : Core) : (s.setCore k x).issue = s.issue := rfl
@[simp] theorem State.setCore_fresh (s : State) (k : Nat) (x : Core) : (s.setCore k x).fresh = s.fresh := rfl
@[simp] theorem State.setCore_nextId (s : State) (k : Nat) (x : Core) : (s.setCore k x).nextId = s.nextId := rfl
@[simp] theorem State.setCore_refills (s : State) (k : Nat) (x : Core) : (s.setCore k x).refills = s.refills := rfl
@[simp] theorem State.setCore_periods (s : State) (k : Nat) (x : Core) : (s.setCore k x).periods = s.periods := rfl
@[simp] theorem State.setCore_mem (s : State) (k : Nat) (x : Core) : (s.setCore k x).mem = s.mem := rfl
@[simp] theorem State.setCore_boot (s : State) (k : Nat) (x : Core) : (s.setCore k x).boot = s.boot := rfl
@[simp] theorem State.setCore_endpoints (s : State) (k : Nat) (x : Core) : (s.setCore k x).endpoints = s.endpoints := rfl
@[simp] theorem State.setCore_parts (s : State) (k : Nat) (x : Core) : (s.setCore k x).parts = s.parts := rfl
@[simp] theorem State.setCore_slices (s : State) (k : Nat) (x : Core) : (s.setCore k x).slices = s.slices := rfl
@[simp] theorem State.setCore_rails (s : State) (k : Nat) (x : Core) : (s.setCore k x).rails = s.rails := rfl
@[simp] theorem State.setCore_clusters (s : State) (k : Nat) (x : Core) : (s.setCore k x).clusters = s.clusters := rfl
@[simp] theorem State.setCore_cores (s : State) (k : Nat) (x : Core) : (s.setCore k x).cores = tabPut s.cores k x := rfl
@[simp] theorem State.setCore_levels (s : State) (k : Nat) (x : Core) : (s.setCore k x).levels = s.levels := rfl
@[simp] theorem State.setCore_launches (s : State) (k : Nat) (x : Core) : (s.setCore k x).launches = s.launches := rfl
@[simp] theorem State.setCore_graphs (s : State) (k : Nat) (x : Core) : (s.setCore k x).graphs = s.graphs := rfl
@[simp] theorem State.setCore_units (s : State) (k : Nat) (x : Core) : (s.setCore k x).units = s.units := rfl
@[simp] theorem State.setCore_gangs (s : State) (k : Nat) (x : Core) : (s.setCore k x).gangs = s.gangs := rfl
@[simp] theorem State.setCore_threads (s : State) (k : Nat) (x : Core) : (s.setCore k x).threads = s.threads := rfl
@[simp] theorem State.setCore_accesses (s : State) (k : Nat) (x : Core) : (s.setCore k x).accesses = s.accesses := rfl
@[simp] theorem State.setCore_copies (s : State) (k : Nat) (x : Core) : (s.setCore k x).copies = s.copies := rfl
@[simp] theorem State.setCore_engines (s : State) (k : Nat) (x : Core) : (s.setCore k x).engines = s.engines := rfl
@[simp] theorem State.setCore_saved (s : State) (k : Nat) (x : Core) : (s.setCore k x).saved = s.saved := rfl
@[simp] theorem State.setCore_outbox (s : State) (k : Nat) (x : Core) : (s.setCore k x).outbox = s.outbox := rfl
@[simp] theorem State.setCore_waiting (s : State) (k : Nat) (x : Core) : (s.setCore k x).waiting = s.waiting := rfl
@[simp] theorem State.setCore_replies (s : State) (k : Nat) (x : Core) : (s.setCore k x).replies = s.replies := rfl
@[simp] theorem State.setCluster_time (s : State) (k : Nat) (x : Cluster) : (s.setCluster k x).time = s.time := rfl
@[simp] theorem State.setCluster_agenda (s : State) (k : Nat) (x : Cluster) : (s.setCluster k x).agenda = s.agenda := rfl
@[simp] theorem State.setCluster_issue (s : State) (k : Nat) (x : Cluster) : (s.setCluster k x).issue = s.issue := rfl
@[simp] theorem State.setCluster_fresh (s : State) (k : Nat) (x : Cluster) : (s.setCluster k x).fresh = s.fresh := rfl
@[simp] theorem State.setCluster_nextId (s : State) (k : Nat) (x : Cluster) : (s.setCluster k x).nextId = s.nextId := rfl
@[simp] theorem State.setCluster_refills (s : State) (k : Nat) (x : Cluster) : (s.setCluster k x).refills = s.refills := rfl
@[simp] theorem State.setCluster_periods (s : State) (k : Nat) (x : Cluster) : (s.setCluster k x).periods = s.periods := rfl
@[simp] theorem State.setCluster_mem (s : State) (k : Nat) (x : Cluster) : (s.setCluster k x).mem = s.mem := rfl
@[simp] theorem State.setCluster_boot (s : State) (k : Nat) (x : Cluster) : (s.setCluster k x).boot = s.boot := rfl
@[simp] theorem State.setCluster_endpoints (s : State) (k : Nat) (x : Cluster) : (s.setCluster k x).endpoints = s.endpoints := rfl
@[simp] theorem State.setCluster_parts (s : State) (k : Nat) (x : Cluster) : (s.setCluster k x).parts = s.parts := rfl
@[simp] theorem State.setCluster_slices (s : State) (k : Nat) (x : Cluster) : (s.setCluster k x).slices = s.slices := rfl
@[simp] theorem State.setCluster_rails (s : State) (k : Nat) (x : Cluster) : (s.setCluster k x).rails = s.rails := rfl
@[simp] theorem State.setCluster_clusters (s : State) (k : Nat) (x : Cluster) : (s.setCluster k x).clusters = tabPut s.clusters k x := rfl
@[simp] theorem State.setCluster_cores (s : State) (k : Nat) (x : Cluster) : (s.setCluster k x).cores = s.cores := rfl
@[simp] theorem State.setCluster_levels (s : State) (k : Nat) (x : Cluster) : (s.setCluster k x).levels = s.levels := rfl
@[simp] theorem State.setCluster_launches (s : State) (k : Nat) (x : Cluster) : (s.setCluster k x).launches = s.launches := rfl
@[simp] theorem State.setCluster_graphs (s : State) (k : Nat) (x : Cluster) : (s.setCluster k x).graphs = s.graphs := rfl
@[simp] theorem State.setCluster_units (s : State) (k : Nat) (x : Cluster) : (s.setCluster k x).units = s.units := rfl
@[simp] theorem State.setCluster_gangs (s : State) (k : Nat) (x : Cluster) : (s.setCluster k x).gangs = s.gangs := rfl
@[simp] theorem State.setCluster_threads (s : State) (k : Nat) (x : Cluster) : (s.setCluster k x).threads = s.threads := rfl
@[simp] theorem State.setCluster_accesses (s : State) (k : Nat) (x : Cluster) : (s.setCluster k x).accesses = s.accesses := rfl
@[simp] theorem State.setCluster_copies (s : State) (k : Nat) (x : Cluster) : (s.setCluster k x).copies = s.copies := rfl
@[simp] theorem State.setCluster_engines (s : State) (k : Nat) (x : Cluster) : (s.setCluster k x).engines = s.engines := rfl
@[simp] theorem State.setCluster_saved (s : State) (k : Nat) (x : Cluster) : (s.setCluster k x).saved = s.saved := rfl
@[simp] theorem State.setCluster_outbox (s : State) (k : Nat) (x : Cluster) : (s.setCluster k x).outbox = s.outbox := rfl
@[simp] theorem State.setCluster_waiting (s : State) (k : Nat) (x : Cluster) : (s.setCluster k x).waiting = s.waiting := rfl
@[simp] theorem State.setCluster_replies (s : State) (k : Nat) (x : Cluster) : (s.setCluster k x).replies = s.replies := rfl
@[simp] theorem State.setSlice_time (s : State) (k : Nat) (x : Slice) : (s.setSlice k x).time = s.time := rfl
@[simp] theorem State.setSlice_agenda (s : State) (k : Nat) (x : Slice) : (s.setSlice k x).agenda = s.agenda := rfl
@[simp] theorem State.setSlice_issue (s : State) (k : Nat) (x : Slice) : (s.setSlice k x).issue = s.issue := rfl
@[simp] theorem State.setSlice_fresh (s : State) (k : Nat) (x : Slice) : (s.setSlice k x).fresh = s.fresh := rfl
@[simp] theorem State.setSlice_nextId (s : State) (k : Nat) (x : Slice) : (s.setSlice k x).nextId = s.nextId := rfl
@[simp] theorem State.setSlice_refills (s : State) (k : Nat) (x : Slice) : (s.setSlice k x).refills = s.refills := rfl
@[simp] theorem State.setSlice_periods (s : State) (k : Nat) (x : Slice) : (s.setSlice k x).periods = s.periods := rfl
@[simp] theorem State.setSlice_mem (s : State) (k : Nat) (x : Slice) : (s.setSlice k x).mem = s.mem := rfl
@[simp] theorem State.setSlice_boot (s : State) (k : Nat) (x : Slice) : (s.setSlice k x).boot = s.boot := rfl
@[simp] theorem State.setSlice_endpoints (s : State) (k : Nat) (x : Slice) : (s.setSlice k x).endpoints = s.endpoints := rfl
@[simp] theorem State.setSlice_parts (s : State) (k : Nat) (x : Slice) : (s.setSlice k x).parts = s.parts := rfl
@[simp] theorem State.setSlice_slices (s : State) (k : Nat) (x : Slice) : (s.setSlice k x).slices = tabPut s.slices k x := rfl
@[simp] theorem State.setSlice_rails (s : State) (k : Nat) (x : Slice) : (s.setSlice k x).rails = s.rails := rfl
@[simp] theorem State.setSlice_clusters (s : State) (k : Nat) (x : Slice) : (s.setSlice k x).clusters = s.clusters := rfl
@[simp] theorem State.setSlice_cores (s : State) (k : Nat) (x : Slice) : (s.setSlice k x).cores = s.cores := rfl
@[simp] theorem State.setSlice_levels (s : State) (k : Nat) (x : Slice) : (s.setSlice k x).levels = s.levels := rfl
@[simp] theorem State.setSlice_launches (s : State) (k : Nat) (x : Slice) : (s.setSlice k x).launches = s.launches := rfl
@[simp] theorem State.setSlice_graphs (s : State) (k : Nat) (x : Slice) : (s.setSlice k x).graphs = s.graphs := rfl
@[simp] theorem State.setSlice_units (s : State) (k : Nat) (x : Slice) : (s.setSlice k x).units = s.units := rfl
@[simp] theorem State.setSlice_gangs (s : State) (k : Nat) (x : Slice) : (s.setSlice k x).gangs = s.gangs := rfl
@[simp] theorem State.setSlice_threads (s : State) (k : Nat) (x : Slice) : (s.setSlice k x).threads = s.threads := rfl
@[simp] theorem State.setSlice_accesses (s : State) (k : Nat) (x : Slice) : (s.setSlice k x).accesses = s.accesses := rfl
@[simp] theorem State.setSlice_copies (s : State) (k : Nat) (x : Slice) : (s.setSlice k x).copies = s.copies := rfl
@[simp] theorem State.setSlice_engines (s : State) (k : Nat) (x : Slice) : (s.setSlice k x).engines = s.engines := rfl
@[simp] theorem State.setSlice_saved (s : State) (k : Nat) (x : Slice) : (s.setSlice k x).saved = s.saved := rfl
@[simp] theorem State.setSlice_outbox (s : State) (k : Nat) (x : Slice) : (s.setSlice k x).outbox = s.outbox := rfl
@[simp] theorem State.setSlice_waiting (s : State) (k : Nat) (x : Slice) : (s.setSlice k x).waiting = s.waiting := rfl
@[simp] theorem State.setSlice_replies (s : State) (k : Nat) (x : Slice) : (s.setSlice k x).replies = s.replies := rfl
@[simp] theorem State.setRail_time (s : State) (k : Nat) (x : Rail) : (s.setRail k x).time = s.time := rfl
@[simp] theorem State.setRail_agenda (s : State) (k : Nat) (x : Rail) : (s.setRail k x).agenda = s.agenda := rfl
@[simp] theorem State.setRail_issue (s : State) (k : Nat) (x : Rail) : (s.setRail k x).issue = s.issue := rfl
@[simp] theorem State.setRail_fresh (s : State) (k : Nat) (x : Rail) : (s.setRail k x).fresh = s.fresh := rfl
@[simp] theorem State.setRail_nextId (s : State) (k : Nat) (x : Rail) : (s.setRail k x).nextId = s.nextId := rfl
@[simp] theorem State.setRail_refills (s : State) (k : Nat) (x : Rail) : (s.setRail k x).refills = s.refills := rfl
@[simp] theorem State.setRail_periods (s : State) (k : Nat) (x : Rail) : (s.setRail k x).periods = s.periods := rfl
@[simp] theorem State.setRail_mem (s : State) (k : Nat) (x : Rail) : (s.setRail k x).mem = s.mem := rfl
@[simp] theorem State.setRail_boot (s : State) (k : Nat) (x : Rail) : (s.setRail k x).boot = s.boot := rfl
@[simp] theorem State.setRail_endpoints (s : State) (k : Nat) (x : Rail) : (s.setRail k x).endpoints = s.endpoints := rfl
@[simp] theorem State.setRail_parts (s : State) (k : Nat) (x : Rail) : (s.setRail k x).parts = s.parts := rfl
@[simp] theorem State.setRail_slices (s : State) (k : Nat) (x : Rail) : (s.setRail k x).slices = s.slices := rfl
@[simp] theorem State.setRail_rails (s : State) (k : Nat) (x : Rail) : (s.setRail k x).rails = tabPut s.rails k x := rfl
@[simp] theorem State.setRail_clusters (s : State) (k : Nat) (x : Rail) : (s.setRail k x).clusters = s.clusters := rfl
@[simp] theorem State.setRail_cores (s : State) (k : Nat) (x : Rail) : (s.setRail k x).cores = s.cores := rfl
@[simp] theorem State.setRail_levels (s : State) (k : Nat) (x : Rail) : (s.setRail k x).levels = s.levels := rfl
@[simp] theorem State.setRail_launches (s : State) (k : Nat) (x : Rail) : (s.setRail k x).launches = s.launches := rfl
@[simp] theorem State.setRail_graphs (s : State) (k : Nat) (x : Rail) : (s.setRail k x).graphs = s.graphs := rfl
@[simp] theorem State.setRail_units (s : State) (k : Nat) (x : Rail) : (s.setRail k x).units = s.units := rfl
@[simp] theorem State.setRail_gangs (s : State) (k : Nat) (x : Rail) : (s.setRail k x).gangs = s.gangs := rfl
@[simp] theorem State.setRail_threads (s : State) (k : Nat) (x : Rail) : (s.setRail k x).threads = s.threads := rfl
@[simp] theorem State.setRail_accesses (s : State) (k : Nat) (x : Rail) : (s.setRail k x).accesses = s.accesses := rfl
@[simp] theorem State.setRail_copies (s : State) (k : Nat) (x : Rail) : (s.setRail k x).copies = s.copies := rfl
@[simp] theorem State.setRail_engines (s : State) (k : Nat) (x : Rail) : (s.setRail k x).engines = s.engines := rfl
@[simp] theorem State.setRail_saved (s : State) (k : Nat) (x : Rail) : (s.setRail k x).saved = s.saved := rfl
@[simp] theorem State.setRail_outbox (s : State) (k : Nat) (x : Rail) : (s.setRail k x).outbox = s.outbox := rfl
@[simp] theorem State.setRail_waiting (s : State) (k : Nat) (x : Rail) : (s.setRail k x).waiting = s.waiting := rfl
@[simp] theorem State.setRail_replies (s : State) (k : Nat) (x : Rail) : (s.setRail k x).replies = s.replies := rfl
@[simp] theorem State.setPart_time (s : State) (k : Nat) (x : Partition) : (s.setPart k x).time = s.time := rfl
@[simp] theorem State.setPart_agenda (s : State) (k : Nat) (x : Partition) : (s.setPart k x).agenda = s.agenda := rfl
@[simp] theorem State.setPart_issue (s : State) (k : Nat) (x : Partition) : (s.setPart k x).issue = s.issue := rfl
@[simp] theorem State.setPart_fresh (s : State) (k : Nat) (x : Partition) : (s.setPart k x).fresh = s.fresh := rfl
@[simp] theorem State.setPart_nextId (s : State) (k : Nat) (x : Partition) : (s.setPart k x).nextId = s.nextId := rfl
@[simp] theorem State.setPart_refills (s : State) (k : Nat) (x : Partition) : (s.setPart k x).refills = s.refills := rfl
@[simp] theorem State.setPart_periods (s : State) (k : Nat) (x : Partition) : (s.setPart k x).periods = s.periods := rfl
@[simp] theorem State.setPart_mem (s : State) (k : Nat) (x : Partition) : (s.setPart k x).mem = s.mem := rfl
@[simp] theorem State.setPart_boot (s : State) (k : Nat) (x : Partition) : (s.setPart k x).boot = s.boot := rfl
@[simp] theorem State.setPart_endpoints (s : State) (k : Nat) (x : Partition) : (s.setPart k x).endpoints = s.endpoints := rfl
@[simp] theorem State.setPart_parts (s : State) (k : Nat) (x : Partition) : (s.setPart k x).parts = tabPut s.parts k x := rfl
@[simp] theorem State.setPart_slices (s : State) (k : Nat) (x : Partition) : (s.setPart k x).slices = s.slices := rfl
@[simp] theorem State.setPart_rails (s : State) (k : Nat) (x : Partition) : (s.setPart k x).rails = s.rails := rfl
@[simp] theorem State.setPart_clusters (s : State) (k : Nat) (x : Partition) : (s.setPart k x).clusters = s.clusters := rfl
@[simp] theorem State.setPart_cores (s : State) (k : Nat) (x : Partition) : (s.setPart k x).cores = s.cores := rfl
@[simp] theorem State.setPart_levels (s : State) (k : Nat) (x : Partition) : (s.setPart k x).levels = s.levels := rfl
@[simp] theorem State.setPart_launches (s : State) (k : Nat) (x : Partition) : (s.setPart k x).launches = s.launches := rfl
@[simp] theorem State.setPart_graphs (s : State) (k : Nat) (x : Partition) : (s.setPart k x).graphs = s.graphs := rfl
@[simp] theorem State.setPart_units (s : State) (k : Nat) (x : Partition) : (s.setPart k x).units = s.units := rfl
@[simp] theorem State.setPart_gangs (s : State) (k : Nat) (x : Partition) : (s.setPart k x).gangs = s.gangs := rfl
@[simp] theorem State.setPart_threads (s : State) (k : Nat) (x : Partition) : (s.setPart k x).threads = s.threads := rfl
@[simp] theorem State.setPart_accesses (s : State) (k : Nat) (x : Partition) : (s.setPart k x).accesses = s.accesses := rfl
@[simp] theorem State.setPart_copies (s : State) (k : Nat) (x : Partition) : (s.setPart k x).copies = s.copies := rfl
@[simp] theorem State.setPart_engines (s : State) (k : Nat) (x : Partition) : (s.setPart k x).engines = s.engines := rfl
@[simp] theorem State.setPart_saved (s : State) (k : Nat) (x : Partition) : (s.setPart k x).saved = s.saved := rfl
@[simp] theorem State.setPart_outbox (s : State) (k : Nat) (x : Partition) : (s.setPart k x).outbox = s.outbox := rfl
@[simp] theorem State.setPart_waiting (s : State) (k : Nat) (x : Partition) : (s.setPart k x).waiting = s.waiting := rfl
@[simp] theorem State.setPart_replies (s : State) (k : Nat) (x : Partition) : (s.setPart k x).replies = s.replies := rfl
@[simp] theorem State.setLaunch_time (s : State) (k : Nat) (x : Launch) : (s.setLaunch k x).time = s.time := rfl
@[simp] theorem State.setLaunch_agenda (s : State) (k : Nat) (x : Launch) : (s.setLaunch k x).agenda = s.agenda := rfl
@[simp] theorem State.setLaunch_issue (s : State) (k : Nat) (x : Launch) : (s.setLaunch k x).issue = s.issue := rfl
@[simp] theorem State.setLaunch_fresh (s : State) (k : Nat) (x : Launch) : (s.setLaunch k x).fresh = s.fresh := rfl
@[simp] theorem State.setLaunch_nextId (s : State) (k : Nat) (x : Launch) : (s.setLaunch k x).nextId = s.nextId := rfl
@[simp] theorem State.setLaunch_refills (s : State) (k : Nat) (x : Launch) : (s.setLaunch k x).refills = s.refills := rfl
@[simp] theorem State.setLaunch_periods (s : State) (k : Nat) (x : Launch) : (s.setLaunch k x).periods = s.periods := rfl
@[simp] theorem State.setLaunch_mem (s : State) (k : Nat) (x : Launch) : (s.setLaunch k x).mem = s.mem := rfl
@[simp] theorem State.setLaunch_boot (s : State) (k : Nat) (x : Launch) : (s.setLaunch k x).boot = s.boot := rfl
@[simp] theorem State.setLaunch_endpoints (s : State) (k : Nat) (x : Launch) : (s.setLaunch k x).endpoints = s.endpoints := rfl
@[simp] theorem State.setLaunch_parts (s : State) (k : Nat) (x : Launch) : (s.setLaunch k x).parts = s.parts := rfl
@[simp] theorem State.setLaunch_slices (s : State) (k : Nat) (x : Launch) : (s.setLaunch k x).slices = s.slices := rfl
@[simp] theorem State.setLaunch_rails (s : State) (k : Nat) (x : Launch) : (s.setLaunch k x).rails = s.rails := rfl
@[simp] theorem State.setLaunch_clusters (s : State) (k : Nat) (x : Launch) : (s.setLaunch k x).clusters = s.clusters := rfl
@[simp] theorem State.setLaunch_cores (s : State) (k : Nat) (x : Launch) : (s.setLaunch k x).cores = s.cores := rfl
@[simp] theorem State.setLaunch_levels (s : State) (k : Nat) (x : Launch) : (s.setLaunch k x).levels = s.levels := rfl
@[simp] theorem State.setLaunch_launches (s : State) (k : Nat) (x : Launch) : (s.setLaunch k x).launches = tabPut s.launches k x := rfl
@[simp] theorem State.setLaunch_graphs (s : State) (k : Nat) (x : Launch) : (s.setLaunch k x).graphs = s.graphs := rfl
@[simp] theorem State.setLaunch_units (s : State) (k : Nat) (x : Launch) : (s.setLaunch k x).units = s.units := rfl
@[simp] theorem State.setLaunch_gangs (s : State) (k : Nat) (x : Launch) : (s.setLaunch k x).gangs = s.gangs := rfl
@[simp] theorem State.setLaunch_threads (s : State) (k : Nat) (x : Launch) : (s.setLaunch k x).threads = s.threads := rfl
@[simp] theorem State.setLaunch_accesses (s : State) (k : Nat) (x : Launch) : (s.setLaunch k x).accesses = s.accesses := rfl
@[simp] theorem State.setLaunch_copies (s : State) (k : Nat) (x : Launch) : (s.setLaunch k x).copies = s.copies := rfl
@[simp] theorem State.setLaunch_engines (s : State) (k : Nat) (x : Launch) : (s.setLaunch k x).engines = s.engines := rfl
@[simp] theorem State.setLaunch_saved (s : State) (k : Nat) (x : Launch) : (s.setLaunch k x).saved = s.saved := rfl
@[simp] theorem State.setLaunch_outbox (s : State) (k : Nat) (x : Launch) : (s.setLaunch k x).outbox = s.outbox := rfl
@[simp] theorem State.setLaunch_waiting (s : State) (k : Nat) (x : Launch) : (s.setLaunch k x).waiting = s.waiting := rfl
@[simp] theorem State.setLaunch_replies (s : State) (k : Nat) (x : Launch) : (s.setLaunch k x).replies = s.replies := rfl
@[simp] theorem State.setLevel_time (s : State) (k : Nat) (x : Level) : (s.setLevel k x).time = s.time := rfl
@[simp] theorem State.setLevel_agenda (s : State) (k : Nat) (x : Level) : (s.setLevel k x).agenda = s.agenda := rfl
@[simp] theorem State.setLevel_issue (s : State) (k : Nat) (x : Level) : (s.setLevel k x).issue = s.issue := rfl
@[simp] theorem State.setLevel_fresh (s : State) (k : Nat) (x : Level) : (s.setLevel k x).fresh = s.fresh := rfl
@[simp] theorem State.setLevel_nextId (s : State) (k : Nat) (x : Level) : (s.setLevel k x).nextId = s.nextId := rfl
@[simp] theorem State.setLevel_refills (s : State) (k : Nat) (x : Level) : (s.setLevel k x).refills = s.refills := rfl
@[simp] theorem State.setLevel_periods (s : State) (k : Nat) (x : Level) : (s.setLevel k x).periods = s.periods := rfl
@[simp] theorem State.setLevel_mem (s : State) (k : Nat) (x : Level) : (s.setLevel k x).mem = s.mem := rfl
@[simp] theorem State.setLevel_boot (s : State) (k : Nat) (x : Level) : (s.setLevel k x).boot = s.boot := rfl
@[simp] theorem State.setLevel_endpoints (s : State) (k : Nat) (x : Level) : (s.setLevel k x).endpoints = s.endpoints := rfl
@[simp] theorem State.setLevel_parts (s : State) (k : Nat) (x : Level) : (s.setLevel k x).parts = s.parts := rfl
@[simp] theorem State.setLevel_slices (s : State) (k : Nat) (x : Level) : (s.setLevel k x).slices = s.slices := rfl
@[simp] theorem State.setLevel_rails (s : State) (k : Nat) (x : Level) : (s.setLevel k x).rails = s.rails := rfl
@[simp] theorem State.setLevel_clusters (s : State) (k : Nat) (x : Level) : (s.setLevel k x).clusters = s.clusters := rfl
@[simp] theorem State.setLevel_cores (s : State) (k : Nat) (x : Level) : (s.setLevel k x).cores = s.cores := rfl
@[simp] theorem State.setLevel_levels (s : State) (k : Nat) (x : Level) : (s.setLevel k x).levels = tabPut s.levels k x := rfl
@[simp] theorem State.setLevel_launches (s : State) (k : Nat) (x : Level) : (s.setLevel k x).launches = s.launches := rfl
@[simp] theorem State.setLevel_graphs (s : State) (k : Nat) (x : Level) : (s.setLevel k x).graphs = s.graphs := rfl
@[simp] theorem State.setLevel_units (s : State) (k : Nat) (x : Level) : (s.setLevel k x).units = s.units := rfl
@[simp] theorem State.setLevel_gangs (s : State) (k : Nat) (x : Level) : (s.setLevel k x).gangs = s.gangs := rfl
@[simp] theorem State.setLevel_threads (s : State) (k : Nat) (x : Level) : (s.setLevel k x).threads = s.threads := rfl
@[simp] theorem State.setLevel_accesses (s : State) (k : Nat) (x : Level) : (s.setLevel k x).accesses = s.accesses := rfl
@[simp] theorem State.setLevel_copies (s : State) (k : Nat) (x : Level) : (s.setLevel k x).copies = s.copies := rfl
@[simp] theorem State.setLevel_engines (s : State) (k : Nat) (x : Level) : (s.setLevel k x).engines = s.engines := rfl
@[simp] theorem State.setLevel_saved (s : State) (k : Nat) (x : Level) : (s.setLevel k x).saved = s.saved := rfl
@[simp] theorem State.setLevel_outbox (s : State) (k : Nat) (x : Level) : (s.setLevel k x).outbox = s.outbox := rfl
@[simp] theorem State.setLevel_waiting (s : State) (k : Nat) (x : Level) : (s.setLevel k x).waiting = s.waiting := rfl
@[simp] theorem State.setLevel_replies (s : State) (k : Nat) (x : Level) : (s.setLevel k x).replies = s.replies := rfl
@[simp] theorem State.setGraph_time (s : State) (k : Nat) (x : Graph) : (s.setGraph k x).time = s.time := rfl
@[simp] theorem State.setGraph_agenda (s : State) (k : Nat) (x : Graph) : (s.setGraph k x).agenda = s.agenda := rfl
@[simp] theorem State.setGraph_issue (s : State) (k : Nat) (x : Graph) : (s.setGraph k x).issue = s.issue := rfl
@[simp] theorem State.setGraph_fresh (s : State) (k : Nat) (x : Graph) : (s.setGraph k x).fresh = s.fresh := rfl
@[simp] theorem State.setGraph_nextId (s : State) (k : Nat) (x : Graph) : (s.setGraph k x).nextId = s.nextId := rfl
@[simp] theorem State.setGraph_refills (s : State) (k : Nat) (x : Graph) : (s.setGraph k x).refills = s.refills := rfl
@[simp] theorem State.setGraph_periods (s : State) (k : Nat) (x : Graph) : (s.setGraph k x).periods = s.periods := rfl
@[simp] theorem State.setGraph_mem (s : State) (k : Nat) (x : Graph) : (s.setGraph k x).mem = s.mem := rfl
@[simp] theorem State.setGraph_boot (s : State) (k : Nat) (x : Graph) : (s.setGraph k x).boot = s.boot := rfl
@[simp] theorem State.setGraph_endpoints (s : State) (k : Nat) (x : Graph) : (s.setGraph k x).endpoints = s.endpoints := rfl
@[simp] theorem State.setGraph_parts (s : State) (k : Nat) (x : Graph) : (s.setGraph k x).parts = s.parts := rfl
@[simp] theorem State.setGraph_slices (s : State) (k : Nat) (x : Graph) : (s.setGraph k x).slices = s.slices := rfl
@[simp] theorem State.setGraph_rails (s : State) (k : Nat) (x : Graph) : (s.setGraph k x).rails = s.rails := rfl
@[simp] theorem State.setGraph_clusters (s : State) (k : Nat) (x : Graph) : (s.setGraph k x).clusters = s.clusters := rfl
@[simp] theorem State.setGraph_cores (s : State) (k : Nat) (x : Graph) : (s.setGraph k x).cores = s.cores := rfl
@[simp] theorem State.setGraph_levels (s : State) (k : Nat) (x : Graph) : (s.setGraph k x).levels = s.levels := rfl
@[simp] theorem State.setGraph_launches (s : State) (k : Nat) (x : Graph) : (s.setGraph k x).launches = s.launches := rfl
@[simp] theorem State.setGraph_graphs (s : State) (k : Nat) (x : Graph) : (s.setGraph k x).graphs = tabPut s.graphs k x := rfl
@[simp] theorem State.setGraph_units (s : State) (k : Nat) (x : Graph) : (s.setGraph k x).units = s.units := rfl
@[simp] theorem State.setGraph_gangs (s : State) (k : Nat) (x : Graph) : (s.setGraph k x).gangs = s.gangs := rfl
@[simp] theorem State.setGraph_threads (s : State) (k : Nat) (x : Graph) : (s.setGraph k x).threads = s.threads := rfl
@[simp] theorem State.setGraph_accesses (s : State) (k : Nat) (x : Graph) : (s.setGraph k x).accesses = s.accesses := rfl
@[simp] theorem State.setGraph_copies (s : State) (k : Nat) (x : Graph) : (s.setGraph k x).copies = s.copies := rfl
@[simp] theorem State.setGraph_engines (s : State) (k : Nat) (x : Graph) : (s.setGraph k x).engines = s.engines := rfl
@[simp] theorem State.setGraph_saved (s : State) (k : Nat) (x : Graph) : (s.setGraph k x).saved = s.saved := rfl
@[simp] theorem State.setGraph_outbox (s : State) (k : Nat) (x : Graph) : (s.setGraph k x).outbox = s.outbox := rfl
@[simp] theorem State.setGraph_waiting (s : State) (k : Nat) (x : Graph) : (s.setGraph k x).waiting = s.waiting := rfl
@[simp] theorem State.setGraph_replies (s : State) (k : Nat) (x : Graph) : (s.setGraph k x).replies = s.replies := rfl
@[simp] theorem State.setCopy_time (s : State) (k : Nat) (x : Copy) : (s.setCopy k x).time = s.time := rfl
@[simp] theorem State.setCopy_agenda (s : State) (k : Nat) (x : Copy) : (s.setCopy k x).agenda = s.agenda := rfl
@[simp] theorem State.setCopy_issue (s : State) (k : Nat) (x : Copy) : (s.setCopy k x).issue = s.issue := rfl
@[simp] theorem State.setCopy_fresh (s : State) (k : Nat) (x : Copy) : (s.setCopy k x).fresh = s.fresh := rfl
@[simp] theorem State.setCopy_nextId (s : State) (k : Nat) (x : Copy) : (s.setCopy k x).nextId = s.nextId := rfl
@[simp] theorem State.setCopy_refills (s : State) (k : Nat) (x : Copy) : (s.setCopy k x).refills = s.refills := rfl
@[simp] theorem State.setCopy_periods (s : State) (k : Nat) (x : Copy) : (s.setCopy k x).periods = s.periods := rfl
@[simp] theorem State.setCopy_mem (s : State) (k : Nat) (x : Copy) : (s.setCopy k x).mem = s.mem := rfl
@[simp] theorem State.setCopy_boot (s : State) (k : Nat) (x : Copy) : (s.setCopy k x).boot = s.boot := rfl
@[simp] theorem State.setCopy_endpoints (s : State) (k : Nat) (x : Copy) : (s.setCopy k x).endpoints = s.endpoints := rfl
@[simp] theorem State.setCopy_parts (s : State) (k : Nat) (x : Copy) : (s.setCopy k x).parts = s.parts := rfl
@[simp] theorem State.setCopy_slices (s : State) (k : Nat) (x : Copy) : (s.setCopy k x).slices = s.slices := rfl
@[simp] theorem State.setCopy_rails (s : State) (k : Nat) (x : Copy) : (s.setCopy k x).rails = s.rails := rfl
@[simp] theorem State.setCopy_clusters (s : State) (k : Nat) (x : Copy) : (s.setCopy k x).clusters = s.clusters := rfl
@[simp] theorem State.setCopy_cores (s : State) (k : Nat) (x : Copy) : (s.setCopy k x).cores = s.cores := rfl
@[simp] theorem State.setCopy_levels (s : State) (k : Nat) (x : Copy) : (s.setCopy k x).levels = s.levels := rfl
@[simp] theorem State.setCopy_launches (s : State) (k : Nat) (x : Copy) : (s.setCopy k x).launches = s.launches := rfl
@[simp] theorem State.setCopy_graphs (s : State) (k : Nat) (x : Copy) : (s.setCopy k x).graphs = s.graphs := rfl
@[simp] theorem State.setCopy_units (s : State) (k : Nat) (x : Copy) : (s.setCopy k x).units = s.units := rfl
@[simp] theorem State.setCopy_gangs (s : State) (k : Nat) (x : Copy) : (s.setCopy k x).gangs = s.gangs := rfl
@[simp] theorem State.setCopy_threads (s : State) (k : Nat) (x : Copy) : (s.setCopy k x).threads = s.threads := rfl
@[simp] theorem State.setCopy_accesses (s : State) (k : Nat) (x : Copy) : (s.setCopy k x).accesses = s.accesses := rfl
@[simp] theorem State.setCopy_copies (s : State) (k : Nat) (x : Copy) : (s.setCopy k x).copies = tabPut s.copies k x := rfl
@[simp] theorem State.setCopy_engines (s : State) (k : Nat) (x : Copy) : (s.setCopy k x).engines = s.engines := rfl
@[simp] theorem State.setCopy_saved (s : State) (k : Nat) (x : Copy) : (s.setCopy k x).saved = s.saved := rfl
@[simp] theorem State.setCopy_outbox (s : State) (k : Nat) (x : Copy) : (s.setCopy k x).outbox = s.outbox := rfl
@[simp] theorem State.setCopy_waiting (s : State) (k : Nat) (x : Copy) : (s.setCopy k x).waiting = s.waiting := rfl
@[simp] theorem State.setCopy_replies (s : State) (k : Nat) (x : Copy) : (s.setCopy k x).replies = s.replies := rfl
@[simp] theorem State.setEndpoint_time (s : State) (k : Nat) (x : Endpoint) : (s.setEndpoint k x).time = s.time := rfl
@[simp] theorem State.setEndpoint_agenda (s : State) (k : Nat) (x : Endpoint) : (s.setEndpoint k x).agenda = s.agenda := rfl
@[simp] theorem State.setEndpoint_issue (s : State) (k : Nat) (x : Endpoint) : (s.setEndpoint k x).issue = s.issue := rfl
@[simp] theorem State.setEndpoint_fresh (s : State) (k : Nat) (x : Endpoint) : (s.setEndpoint k x).fresh = s.fresh := rfl
@[simp] theorem State.setEndpoint_nextId (s : State) (k : Nat) (x : Endpoint) : (s.setEndpoint k x).nextId = s.nextId := rfl
@[simp] theorem State.setEndpoint_refills (s : State) (k : Nat) (x : Endpoint) : (s.setEndpoint k x).refills = s.refills := rfl
@[simp] theorem State.setEndpoint_periods (s : State) (k : Nat) (x : Endpoint) : (s.setEndpoint k x).periods = s.periods := rfl
@[simp] theorem State.setEndpoint_mem (s : State) (k : Nat) (x : Endpoint) : (s.setEndpoint k x).mem = s.mem := rfl
@[simp] theorem State.setEndpoint_boot (s : State) (k : Nat) (x : Endpoint) : (s.setEndpoint k x).boot = s.boot := rfl
@[simp] theorem State.setEndpoint_endpoints (s : State) (k : Nat) (x : Endpoint) : (s.setEndpoint k x).endpoints = tabPut s.endpoints k x := rfl
@[simp] theorem State.setEndpoint_parts (s : State) (k : Nat) (x : Endpoint) : (s.setEndpoint k x).parts = s.parts := rfl
@[simp] theorem State.setEndpoint_slices (s : State) (k : Nat) (x : Endpoint) : (s.setEndpoint k x).slices = s.slices := rfl
@[simp] theorem State.setEndpoint_rails (s : State) (k : Nat) (x : Endpoint) : (s.setEndpoint k x).rails = s.rails := rfl
@[simp] theorem State.setEndpoint_clusters (s : State) (k : Nat) (x : Endpoint) : (s.setEndpoint k x).clusters = s.clusters := rfl
@[simp] theorem State.setEndpoint_cores (s : State) (k : Nat) (x : Endpoint) : (s.setEndpoint k x).cores = s.cores := rfl
@[simp] theorem State.setEndpoint_levels (s : State) (k : Nat) (x : Endpoint) : (s.setEndpoint k x).levels = s.levels := rfl
@[simp] theorem State.setEndpoint_launches (s : State) (k : Nat) (x : Endpoint) : (s.setEndpoint k x).launches = s.launches := rfl
@[simp] theorem State.setEndpoint_graphs (s : State) (k : Nat) (x : Endpoint) : (s.setEndpoint k x).graphs = s.graphs := rfl
@[simp] theorem State.setEndpoint_units (s : State) (k : Nat) (x : Endpoint) : (s.setEndpoint k x).units = s.units := rfl
@[simp] theorem State.setEndpoint_gangs (s : State) (k : Nat) (x : Endpoint) : (s.setEndpoint k x).gangs = s.gangs := rfl
@[simp] theorem State.setEndpoint_threads (s : State) (k : Nat) (x : Endpoint) : (s.setEndpoint k x).threads = s.threads := rfl
@[simp] theorem State.setEndpoint_accesses (s : State) (k : Nat) (x : Endpoint) : (s.setEndpoint k x).accesses = s.accesses := rfl
@[simp] theorem State.setEndpoint_copies (s : State) (k : Nat) (x : Endpoint) : (s.setEndpoint k x).copies = s.copies := rfl
@[simp] theorem State.setEndpoint_engines (s : State) (k : Nat) (x : Endpoint) : (s.setEndpoint k x).engines = s.engines := rfl
@[simp] theorem State.setEndpoint_saved (s : State) (k : Nat) (x : Endpoint) : (s.setEndpoint k x).saved = s.saved := rfl
@[simp] theorem State.setEndpoint_outbox (s : State) (k : Nat) (x : Endpoint) : (s.setEndpoint k x).outbox = s.outbox := rfl
@[simp] theorem State.setEndpoint_waiting (s : State) (k : Nat) (x : Endpoint) : (s.setEndpoint k x).waiting = s.waiting := rfl
@[simp] theorem State.setEndpoint_replies (s : State) (k : Nat) (x : Endpoint) : (s.setEndpoint k x).replies = s.replies := rfl
@[simp] theorem State.setSaved_time (s : State) (k : Nat) (x : Saved) : (s.setSaved k x).time = s.time := rfl
@[simp] theorem State.setSaved_agenda (s : State) (k : Nat) (x : Saved) : (s.setSaved k x).agenda = s.agenda := rfl
@[simp] theorem State.setSaved_issue (s : State) (k : Nat) (x : Saved) : (s.setSaved k x).issue = s.issue := rfl
@[simp] theorem State.setSaved_fresh (s : State) (k : Nat) (x : Saved) : (s.setSaved k x).fresh = s.fresh := rfl
@[simp] theorem State.setSaved_nextId (s : State) (k : Nat) (x : Saved) : (s.setSaved k x).nextId = s.nextId := rfl
@[simp] theorem State.setSaved_refills (s : State) (k : Nat) (x : Saved) : (s.setSaved k x).refills = s.refills := rfl
@[simp] theorem State.setSaved_periods (s : State) (k : Nat) (x : Saved) : (s.setSaved k x).periods = s.periods := rfl
@[simp] theorem State.setSaved_mem (s : State) (k : Nat) (x : Saved) : (s.setSaved k x).mem = s.mem := rfl
@[simp] theorem State.setSaved_boot (s : State) (k : Nat) (x : Saved) : (s.setSaved k x).boot = s.boot := rfl
@[simp] theorem State.setSaved_endpoints (s : State) (k : Nat) (x : Saved) : (s.setSaved k x).endpoints = s.endpoints := rfl
@[simp] theorem State.setSaved_parts (s : State) (k : Nat) (x : Saved) : (s.setSaved k x).parts = s.parts := rfl
@[simp] theorem State.setSaved_slices (s : State) (k : Nat) (x : Saved) : (s.setSaved k x).slices = s.slices := rfl
@[simp] theorem State.setSaved_rails (s : State) (k : Nat) (x : Saved) : (s.setSaved k x).rails = s.rails := rfl
@[simp] theorem State.setSaved_clusters (s : State) (k : Nat) (x : Saved) : (s.setSaved k x).clusters = s.clusters := rfl
@[simp] theorem State.setSaved_cores (s : State) (k : Nat) (x : Saved) : (s.setSaved k x).cores = s.cores := rfl
@[simp] theorem State.setSaved_levels (s : State) (k : Nat) (x : Saved) : (s.setSaved k x).levels = s.levels := rfl
@[simp] theorem State.setSaved_launches (s : State) (k : Nat) (x : Saved) : (s.setSaved k x).launches = s.launches := rfl
@[simp] theorem State.setSaved_graphs (s : State) (k : Nat) (x : Saved) : (s.setSaved k x).graphs = s.graphs := rfl
@[simp] theorem State.setSaved_units (s : State) (k : Nat) (x : Saved) : (s.setSaved k x).units = s.units := rfl
@[simp] theorem State.setSaved_gangs (s : State) (k : Nat) (x : Saved) : (s.setSaved k x).gangs = s.gangs := rfl
@[simp] theorem State.setSaved_threads (s : State) (k : Nat) (x : Saved) : (s.setSaved k x).threads = s.threads := rfl
@[simp] theorem State.setSaved_accesses (s : State) (k : Nat) (x : Saved) : (s.setSaved k x).accesses = s.accesses := rfl
@[simp] theorem State.setSaved_copies (s : State) (k : Nat) (x : Saved) : (s.setSaved k x).copies = s.copies := rfl
@[simp] theorem State.setSaved_engines (s : State) (k : Nat) (x : Saved) : (s.setSaved k x).engines = s.engines := rfl
@[simp] theorem State.setSaved_saved (s : State) (k : Nat) (x : Saved) : (s.setSaved k x).saved = tabPut s.saved k x := rfl
@[simp] theorem State.setSaved_outbox (s : State) (k : Nat) (x : Saved) : (s.setSaved k x).outbox = s.outbox := rfl
@[simp] theorem State.setSaved_waiting (s : State) (k : Nat) (x : Saved) : (s.setSaved k x).waiting = s.waiting := rfl
@[simp] theorem State.setSaved_replies (s : State) (k : Nat) (x : Saved) : (s.setSaved k x).replies = s.replies := rfl
@[simp] theorem State.setAccess_time (s : State) (k : Nat) (x : Access) : (s.setAccess k x).time = s.time := rfl
@[simp] theorem State.setAccess_agenda (s : State) (k : Nat) (x : Access) : (s.setAccess k x).agenda = s.agenda := rfl
@[simp] theorem State.setAccess_issue (s : State) (k : Nat) (x : Access) : (s.setAccess k x).issue = s.issue := rfl
@[simp] theorem State.setAccess_fresh (s : State) (k : Nat) (x : Access) : (s.setAccess k x).fresh = s.fresh := rfl
@[simp] theorem State.setAccess_nextId (s : State) (k : Nat) (x : Access) : (s.setAccess k x).nextId = s.nextId := rfl
@[simp] theorem State.setAccess_refills (s : State) (k : Nat) (x : Access) : (s.setAccess k x).refills = s.refills := rfl
@[simp] theorem State.setAccess_periods (s : State) (k : Nat) (x : Access) : (s.setAccess k x).periods = s.periods := rfl
@[simp] theorem State.setAccess_mem (s : State) (k : Nat) (x : Access) : (s.setAccess k x).mem = s.mem := rfl
@[simp] theorem State.setAccess_boot (s : State) (k : Nat) (x : Access) : (s.setAccess k x).boot = s.boot := rfl
@[simp] theorem State.setAccess_endpoints (s : State) (k : Nat) (x : Access) : (s.setAccess k x).endpoints = s.endpoints := rfl
@[simp] theorem State.setAccess_parts (s : State) (k : Nat) (x : Access) : (s.setAccess k x).parts = s.parts := rfl
@[simp] theorem State.setAccess_slices (s : State) (k : Nat) (x : Access) : (s.setAccess k x).slices = s.slices := rfl
@[simp] theorem State.setAccess_rails (s : State) (k : Nat) (x : Access) : (s.setAccess k x).rails = s.rails := rfl
@[simp] theorem State.setAccess_clusters (s : State) (k : Nat) (x : Access) : (s.setAccess k x).clusters = s.clusters := rfl
@[simp] theorem State.setAccess_cores (s : State) (k : Nat) (x : Access) : (s.setAccess k x).cores = s.cores := rfl
@[simp] theorem State.setAccess_levels (s : State) (k : Nat) (x : Access) : (s.setAccess k x).levels = s.levels := rfl
@[simp] theorem State.setAccess_launches (s : State) (k : Nat) (x : Access) : (s.setAccess k x).launches = s.launches := rfl
@[simp] theorem State.setAccess_graphs (s : State) (k : Nat) (x : Access) : (s.setAccess k x).graphs = s.graphs := rfl
@[simp] theorem State.setAccess_units (s : State) (k : Nat) (x : Access) : (s.setAccess k x).units = s.units := rfl
@[simp] theorem State.setAccess_gangs (s : State) (k : Nat) (x : Access) : (s.setAccess k x).gangs = s.gangs := rfl
@[simp] theorem State.setAccess_threads (s : State) (k : Nat) (x : Access) : (s.setAccess k x).threads = s.threads := rfl
@[simp] theorem State.setAccess_accesses (s : State) (k : Nat) (x : Access) : (s.setAccess k x).accesses = tabPut s.accesses k x := rfl
@[simp] theorem State.setAccess_copies (s : State) (k : Nat) (x : Access) : (s.setAccess k x).copies = s.copies := rfl
@[simp] theorem State.setAccess_engines (s : State) (k : Nat) (x : Access) : (s.setAccess k x).engines = s.engines := rfl
@[simp] theorem State.setAccess_saved (s : State) (k : Nat) (x : Access) : (s.setAccess k x).saved = s.saved := rfl
@[simp] theorem State.setAccess_outbox (s : State) (k : Nat) (x : Access) : (s.setAccess k x).outbox = s.outbox := rfl
@[simp] theorem State.setAccess_waiting (s : State) (k : Nat) (x : Access) : (s.setAccess k x).waiting = s.waiting := rfl
@[simp] theorem State.setAccess_replies (s : State) (k : Nat) (x : Access) : (s.setAccess k x).replies = s.replies := rfl
@[simp] theorem State.setMem_time (s : State) (x : Memory) : (s.setMem x).time = s.time := rfl
@[simp] theorem State.setMem_agenda (s : State) (x : Memory) : (s.setMem x).agenda = s.agenda := rfl
@[simp] theorem State.setMem_issue (s : State) (x : Memory) : (s.setMem x).issue = s.issue := rfl
@[simp] theorem State.setMem_fresh (s : State) (x : Memory) : (s.setMem x).fresh = s.fresh := rfl
@[simp] theorem State.setMem_nextId (s : State) (x : Memory) : (s.setMem x).nextId = s.nextId := rfl
@[simp] theorem State.setMem_refills (s : State) (x : Memory) : (s.setMem x).refills = s.refills := rfl
@[simp] theorem State.setMem_periods (s : State) (x : Memory) : (s.setMem x).periods = s.periods := rfl
@[simp] theorem State.setMem_mem (s : State) (x : Memory) : (s.setMem x).mem = x := rfl
@[simp] theorem State.setMem_boot (s : State) (x : Memory) : (s.setMem x).boot = s.boot := rfl
@[simp] theorem State.setMem_endpoints (s : State) (x : Memory) : (s.setMem x).endpoints = s.endpoints := rfl
@[simp] theorem State.setMem_parts (s : State) (x : Memory) : (s.setMem x).parts = s.parts := rfl
@[simp] theorem State.setMem_slices (s : State) (x : Memory) : (s.setMem x).slices = s.slices := rfl
@[simp] theorem State.setMem_rails (s : State) (x : Memory) : (s.setMem x).rails = s.rails := rfl
@[simp] theorem State.setMem_clusters (s : State) (x : Memory) : (s.setMem x).clusters = s.clusters := rfl
@[simp] theorem State.setMem_cores (s : State) (x : Memory) : (s.setMem x).cores = s.cores := rfl
@[simp] theorem State.setMem_levels (s : State) (x : Memory) : (s.setMem x).levels = s.levels := rfl
@[simp] theorem State.setMem_launches (s : State) (x : Memory) : (s.setMem x).launches = s.launches := rfl
@[simp] theorem State.setMem_graphs (s : State) (x : Memory) : (s.setMem x).graphs = s.graphs := rfl
@[simp] theorem State.setMem_units (s : State) (x : Memory) : (s.setMem x).units = s.units := rfl
@[simp] theorem State.setMem_gangs (s : State) (x : Memory) : (s.setMem x).gangs = s.gangs := rfl
@[simp] theorem State.setMem_threads (s : State) (x : Memory) : (s.setMem x).threads = s.threads := rfl
@[simp] theorem State.setMem_accesses (s : State) (x : Memory) : (s.setMem x).accesses = s.accesses := rfl
@[simp] theorem State.setMem_copies (s : State) (x : Memory) : (s.setMem x).copies = s.copies := rfl
@[simp] theorem State.setMem_engines (s : State) (x : Memory) : (s.setMem x).engines = s.engines := rfl
@[simp] theorem State.setMem_saved (s : State) (x : Memory) : (s.setMem x).saved = s.saved := rfl
@[simp] theorem State.setMem_outbox (s : State) (x : Memory) : (s.setMem x).outbox = s.outbox := rfl
@[simp] theorem State.setMem_waiting (s : State) (x : Memory) : (s.setMem x).waiting = s.waiting := rfl
@[simp] theorem State.setMem_replies (s : State) (x : Memory) : (s.setMem x).replies = s.replies := rfl
@[simp] theorem State.setBoot_time (s : State) (x : Boot) : (s.setBoot x).time = s.time := rfl
@[simp] theorem State.setBoot_agenda (s : State) (x : Boot) : (s.setBoot x).agenda = s.agenda := rfl
@[simp] theorem State.setBoot_issue (s : State) (x : Boot) : (s.setBoot x).issue = s.issue := rfl
@[simp] theorem State.setBoot_fresh (s : State) (x : Boot) : (s.setBoot x).fresh = s.fresh := rfl
@[simp] theorem State.setBoot_nextId (s : State) (x : Boot) : (s.setBoot x).nextId = s.nextId := rfl
@[simp] theorem State.setBoot_refills (s : State) (x : Boot) : (s.setBoot x).refills = s.refills := rfl
@[simp] theorem State.setBoot_periods (s : State) (x : Boot) : (s.setBoot x).periods = s.periods := rfl
@[simp] theorem State.setBoot_mem (s : State) (x : Boot) : (s.setBoot x).mem = s.mem := rfl
@[simp] theorem State.setBoot_boot (s : State) (x : Boot) : (s.setBoot x).boot = x := rfl
@[simp] theorem State.setBoot_endpoints (s : State) (x : Boot) : (s.setBoot x).endpoints = s.endpoints := rfl
@[simp] theorem State.setBoot_parts (s : State) (x : Boot) : (s.setBoot x).parts = s.parts := rfl
@[simp] theorem State.setBoot_slices (s : State) (x : Boot) : (s.setBoot x).slices = s.slices := rfl
@[simp] theorem State.setBoot_rails (s : State) (x : Boot) : (s.setBoot x).rails = s.rails := rfl
@[simp] theorem State.setBoot_clusters (s : State) (x : Boot) : (s.setBoot x).clusters = s.clusters := rfl
@[simp] theorem State.setBoot_cores (s : State) (x : Boot) : (s.setBoot x).cores = s.cores := rfl
@[simp] theorem State.setBoot_levels (s : State) (x : Boot) : (s.setBoot x).levels = s.levels := rfl
@[simp] theorem State.setBoot_launches (s : State) (x : Boot) : (s.setBoot x).launches = s.launches := rfl
@[simp] theorem State.setBoot_graphs (s : State) (x : Boot) : (s.setBoot x).graphs = s.graphs := rfl
@[simp] theorem State.setBoot_units (s : State) (x : Boot) : (s.setBoot x).units = s.units := rfl
@[simp] theorem State.setBoot_gangs (s : State) (x : Boot) : (s.setBoot x).gangs = s.gangs := rfl
@[simp] theorem State.setBoot_threads (s : State) (x : Boot) : (s.setBoot x).threads = s.threads := rfl
@[simp] theorem State.setBoot_accesses (s : State) (x : Boot) : (s.setBoot x).accesses = s.accesses := rfl
@[simp] theorem State.setBoot_copies (s : State) (x : Boot) : (s.setBoot x).copies = s.copies := rfl
@[simp] theorem State.setBoot_engines (s : State) (x : Boot) : (s.setBoot x).engines = s.engines := rfl
@[simp] theorem State.setBoot_saved (s : State) (x : Boot) : (s.setBoot x).saved = s.saved := rfl
@[simp] theorem State.setBoot_outbox (s : State) (x : Boot) : (s.setBoot x).outbox = s.outbox := rfl
@[simp] theorem State.setBoot_waiting (s : State) (x : Boot) : (s.setBoot x).waiting = s.waiting := rfl
@[simp] theorem State.setBoot_replies (s : State) (x : Boot) : (s.setBoot x).replies = s.replies := rfl
@[simp] theorem State.setTime_time (s : State) (x : Nat) : (s.setTime x).time = x := rfl
@[simp] theorem State.setTime_agenda (s : State) (x : Nat) : (s.setTime x).agenda = s.agenda := rfl
@[simp] theorem State.setTime_issue (s : State) (x : Nat) : (s.setTime x).issue = s.issue := rfl
@[simp] theorem State.setTime_fresh (s : State) (x : Nat) : (s.setTime x).fresh = s.fresh := rfl
@[simp] theorem State.setTime_nextId (s : State) (x : Nat) : (s.setTime x).nextId = s.nextId := rfl
@[simp] theorem State.setTime_refills (s : State) (x : Nat) : (s.setTime x).refills = s.refills := rfl
@[simp] theorem State.setTime_periods (s : State) (x : Nat) : (s.setTime x).periods = s.periods := rfl
@[simp] theorem State.setTime_mem (s : State) (x : Nat) : (s.setTime x).mem = s.mem := rfl
@[simp] theorem State.setTime_boot (s : State) (x : Nat) : (s.setTime x).boot = s.boot := rfl
@[simp] theorem State.setTime_endpoints (s : State) (x : Nat) : (s.setTime x).endpoints = s.endpoints := rfl
@[simp] theorem State.setTime_parts (s : State) (x : Nat) : (s.setTime x).parts = s.parts := rfl
@[simp] theorem State.setTime_slices (s : State) (x : Nat) : (s.setTime x).slices = s.slices := rfl
@[simp] theorem State.setTime_rails (s : State) (x : Nat) : (s.setTime x).rails = s.rails := rfl
@[simp] theorem State.setTime_clusters (s : State) (x : Nat) : (s.setTime x).clusters = s.clusters := rfl
@[simp] theorem State.setTime_cores (s : State) (x : Nat) : (s.setTime x).cores = s.cores := rfl
@[simp] theorem State.setTime_levels (s : State) (x : Nat) : (s.setTime x).levels = s.levels := rfl
@[simp] theorem State.setTime_launches (s : State) (x : Nat) : (s.setTime x).launches = s.launches := rfl
@[simp] theorem State.setTime_graphs (s : State) (x : Nat) : (s.setTime x).graphs = s.graphs := rfl
@[simp] theorem State.setTime_units (s : State) (x : Nat) : (s.setTime x).units = s.units := rfl
@[simp] theorem State.setTime_gangs (s : State) (x : Nat) : (s.setTime x).gangs = s.gangs := rfl
@[simp] theorem State.setTime_threads (s : State) (x : Nat) : (s.setTime x).threads = s.threads := rfl
@[simp] theorem State.setTime_accesses (s : State) (x : Nat) : (s.setTime x).accesses = s.accesses := rfl
@[simp] theorem State.setTime_copies (s : State) (x : Nat) : (s.setTime x).copies = s.copies := rfl
@[simp] theorem State.setTime_engines (s : State) (x : Nat) : (s.setTime x).engines = s.engines := rfl
@[simp] theorem State.setTime_saved (s : State) (x : Nat) : (s.setTime x).saved = s.saved := rfl
@[simp] theorem State.setTime_outbox (s : State) (x : Nat) : (s.setTime x).outbox = s.outbox := rfl
@[simp] theorem State.setTime_waiting (s : State) (x : Nat) : (s.setTime x).waiting = s.waiting := rfl
@[simp] theorem State.setTime_replies (s : State) (x : Nat) : (s.setTime x).replies = s.replies := rfl
@[simp] theorem State.setAgenda_time (s : State) (x : List Turn) : (s.setAgenda x).time = s.time := rfl
@[simp] theorem State.setAgenda_agenda (s : State) (x : List Turn) : (s.setAgenda x).agenda = x := rfl
@[simp] theorem State.setAgenda_issue (s : State) (x : List Turn) : (s.setAgenda x).issue = s.issue := rfl
@[simp] theorem State.setAgenda_fresh (s : State) (x : List Turn) : (s.setAgenda x).fresh = s.fresh := rfl
@[simp] theorem State.setAgenda_nextId (s : State) (x : List Turn) : (s.setAgenda x).nextId = s.nextId := rfl
@[simp] theorem State.setAgenda_refills (s : State) (x : List Turn) : (s.setAgenda x).refills = s.refills := rfl
@[simp] theorem State.setAgenda_periods (s : State) (x : List Turn) : (s.setAgenda x).periods = s.periods := rfl
@[simp] theorem State.setAgenda_mem (s : State) (x : List Turn) : (s.setAgenda x).mem = s.mem := rfl
@[simp] theorem State.setAgenda_boot (s : State) (x : List Turn) : (s.setAgenda x).boot = s.boot := rfl
@[simp] theorem State.setAgenda_endpoints (s : State) (x : List Turn) : (s.setAgenda x).endpoints = s.endpoints := rfl
@[simp] theorem State.setAgenda_parts (s : State) (x : List Turn) : (s.setAgenda x).parts = s.parts := rfl
@[simp] theorem State.setAgenda_slices (s : State) (x : List Turn) : (s.setAgenda x).slices = s.slices := rfl
@[simp] theorem State.setAgenda_rails (s : State) (x : List Turn) : (s.setAgenda x).rails = s.rails := rfl
@[simp] theorem State.setAgenda_clusters (s : State) (x : List Turn) : (s.setAgenda x).clusters = s.clusters := rfl
@[simp] theorem State.setAgenda_cores (s : State) (x : List Turn) : (s.setAgenda x).cores = s.cores := rfl
@[simp] theorem State.setAgenda_levels (s : State) (x : List Turn) : (s.setAgenda x).levels = s.levels := rfl
@[simp] theorem State.setAgenda_launches (s : State) (x : List Turn) : (s.setAgenda x).launches = s.launches := rfl
@[simp] theorem State.setAgenda_graphs (s : State) (x : List Turn) : (s.setAgenda x).graphs = s.graphs := rfl
@[simp] theorem State.setAgenda_units (s : State) (x : List Turn) : (s.setAgenda x).units = s.units := rfl
@[simp] theorem State.setAgenda_gangs (s : State) (x : List Turn) : (s.setAgenda x).gangs = s.gangs := rfl
@[simp] theorem State.setAgenda_threads (s : State) (x : List Turn) : (s.setAgenda x).threads = s.threads := rfl
@[simp] theorem State.setAgenda_accesses (s : State) (x : List Turn) : (s.setAgenda x).accesses = s.accesses := rfl
@[simp] theorem State.setAgenda_copies (s : State) (x : List Turn) : (s.setAgenda x).copies = s.copies := rfl
@[simp] theorem State.setAgenda_engines (s : State) (x : List Turn) : (s.setAgenda x).engines = s.engines := rfl
@[simp] theorem State.setAgenda_saved (s : State) (x : List Turn) : (s.setAgenda x).saved = s.saved := rfl
@[simp] theorem State.setAgenda_outbox (s : State) (x : List Turn) : (s.setAgenda x).outbox = s.outbox := rfl
@[simp] theorem State.setAgenda_waiting (s : State) (x : List Turn) : (s.setAgenda x).waiting = s.waiting := rfl
@[simp] theorem State.setAgenda_replies (s : State) (x : List Turn) : (s.setAgenda x).replies = s.replies := rfl
@[simp] theorem State.setIssue_time (s : State) (x : Issue) : (s.setIssue x).time = s.time := rfl
@[simp] theorem State.setIssue_agenda (s : State) (x : Issue) : (s.setIssue x).agenda = s.agenda := rfl
@[simp] theorem State.setIssue_issue (s : State) (x : Issue) : (s.setIssue x).issue = x := rfl
@[simp] theorem State.setIssue_fresh (s : State) (x : Issue) : (s.setIssue x).fresh = s.fresh := rfl
@[simp] theorem State.setIssue_nextId (s : State) (x : Issue) : (s.setIssue x).nextId = s.nextId := rfl
@[simp] theorem State.setIssue_refills (s : State) (x : Issue) : (s.setIssue x).refills = s.refills := rfl
@[simp] theorem State.setIssue_periods (s : State) (x : Issue) : (s.setIssue x).periods = s.periods := rfl
@[simp] theorem State.setIssue_mem (s : State) (x : Issue) : (s.setIssue x).mem = s.mem := rfl
@[simp] theorem State.setIssue_boot (s : State) (x : Issue) : (s.setIssue x).boot = s.boot := rfl
@[simp] theorem State.setIssue_endpoints (s : State) (x : Issue) : (s.setIssue x).endpoints = s.endpoints := rfl
@[simp] theorem State.setIssue_parts (s : State) (x : Issue) : (s.setIssue x).parts = s.parts := rfl
@[simp] theorem State.setIssue_slices (s : State) (x : Issue) : (s.setIssue x).slices = s.slices := rfl
@[simp] theorem State.setIssue_rails (s : State) (x : Issue) : (s.setIssue x).rails = s.rails := rfl
@[simp] theorem State.setIssue_clusters (s : State) (x : Issue) : (s.setIssue x).clusters = s.clusters := rfl
@[simp] theorem State.setIssue_cores (s : State) (x : Issue) : (s.setIssue x).cores = s.cores := rfl
@[simp] theorem State.setIssue_levels (s : State) (x : Issue) : (s.setIssue x).levels = s.levels := rfl
@[simp] theorem State.setIssue_launches (s : State) (x : Issue) : (s.setIssue x).launches = s.launches := rfl
@[simp] theorem State.setIssue_graphs (s : State) (x : Issue) : (s.setIssue x).graphs = s.graphs := rfl
@[simp] theorem State.setIssue_units (s : State) (x : Issue) : (s.setIssue x).units = s.units := rfl
@[simp] theorem State.setIssue_gangs (s : State) (x : Issue) : (s.setIssue x).gangs = s.gangs := rfl
@[simp] theorem State.setIssue_threads (s : State) (x : Issue) : (s.setIssue x).threads = s.threads := rfl
@[simp] theorem State.setIssue_accesses (s : State) (x : Issue) : (s.setIssue x).accesses = s.accesses := rfl
@[simp] theorem State.setIssue_copies (s : State) (x : Issue) : (s.setIssue x).copies = s.copies := rfl
@[simp] theorem State.setIssue_engines (s : State) (x : Issue) : (s.setIssue x).engines = s.engines := rfl
@[simp] theorem State.setIssue_saved (s : State) (x : Issue) : (s.setIssue x).saved = s.saved := rfl
@[simp] theorem State.setIssue_outbox (s : State) (x : Issue) : (s.setIssue x).outbox = s.outbox := rfl
@[simp] theorem State.setIssue_waiting (s : State) (x : Issue) : (s.setIssue x).waiting = s.waiting := rfl
@[simp] theorem State.setIssue_replies (s : State) (x : Issue) : (s.setIssue x).replies = s.replies := rfl
@[simp] theorem State.setFresh_time (s : State) (x : Nat) : (s.setFresh x).time = s.time := rfl
@[simp] theorem State.setFresh_agenda (s : State) (x : Nat) : (s.setFresh x).agenda = s.agenda := rfl
@[simp] theorem State.setFresh_issue (s : State) (x : Nat) : (s.setFresh x).issue = s.issue := rfl
@[simp] theorem State.setFresh_fresh (s : State) (x : Nat) : (s.setFresh x).fresh = x := rfl
@[simp] theorem State.setFresh_nextId (s : State) (x : Nat) : (s.setFresh x).nextId = s.nextId := rfl
@[simp] theorem State.setFresh_refills (s : State) (x : Nat) : (s.setFresh x).refills = s.refills := rfl
@[simp] theorem State.setFresh_periods (s : State) (x : Nat) : (s.setFresh x).periods = s.periods := rfl
@[simp] theorem State.setFresh_mem (s : State) (x : Nat) : (s.setFresh x).mem = s.mem := rfl
@[simp] theorem State.setFresh_boot (s : State) (x : Nat) : (s.setFresh x).boot = s.boot := rfl
@[simp] theorem State.setFresh_endpoints (s : State) (x : Nat) : (s.setFresh x).endpoints = s.endpoints := rfl
@[simp] theorem State.setFresh_parts (s : State) (x : Nat) : (s.setFresh x).parts = s.parts := rfl
@[simp] theorem State.setFresh_slices (s : State) (x : Nat) : (s.setFresh x).slices = s.slices := rfl
@[simp] theorem State.setFresh_rails (s : State) (x : Nat) : (s.setFresh x).rails = s.rails := rfl
@[simp] theorem State.setFresh_clusters (s : State) (x : Nat) : (s.setFresh x).clusters = s.clusters := rfl
@[simp] theorem State.setFresh_cores (s : State) (x : Nat) : (s.setFresh x).cores = s.cores := rfl
@[simp] theorem State.setFresh_levels (s : State) (x : Nat) : (s.setFresh x).levels = s.levels := rfl
@[simp] theorem State.setFresh_launches (s : State) (x : Nat) : (s.setFresh x).launches = s.launches := rfl
@[simp] theorem State.setFresh_graphs (s : State) (x : Nat) : (s.setFresh x).graphs = s.graphs := rfl
@[simp] theorem State.setFresh_units (s : State) (x : Nat) : (s.setFresh x).units = s.units := rfl
@[simp] theorem State.setFresh_gangs (s : State) (x : Nat) : (s.setFresh x).gangs = s.gangs := rfl
@[simp] theorem State.setFresh_threads (s : State) (x : Nat) : (s.setFresh x).threads = s.threads := rfl
@[simp] theorem State.setFresh_accesses (s : State) (x : Nat) : (s.setFresh x).accesses = s.accesses := rfl
@[simp] theorem State.setFresh_copies (s : State) (x : Nat) : (s.setFresh x).copies = s.copies := rfl
@[simp] theorem State.setFresh_engines (s : State) (x : Nat) : (s.setFresh x).engines = s.engines := rfl
@[simp] theorem State.setFresh_saved (s : State) (x : Nat) : (s.setFresh x).saved = s.saved := rfl
@[simp] theorem State.setFresh_outbox (s : State) (x : Nat) : (s.setFresh x).outbox = s.outbox := rfl
@[simp] theorem State.setFresh_waiting (s : State) (x : Nat) : (s.setFresh x).waiting = s.waiting := rfl
@[simp] theorem State.setFresh_replies (s : State) (x : Nat) : (s.setFresh x).replies = s.replies := rfl
@[simp] theorem State.setNextId_time (s : State) (x : Nat) : (s.setNextId x).time = s.time := rfl
@[simp] theorem State.setNextId_agenda (s : State) (x : Nat) : (s.setNextId x).agenda = s.agenda := rfl
@[simp] theorem State.setNextId_issue (s : State) (x : Nat) : (s.setNextId x).issue = s.issue := rfl
@[simp] theorem State.setNextId_fresh (s : State) (x : Nat) : (s.setNextId x).fresh = s.fresh := rfl
@[simp] theorem State.setNextId_nextId (s : State) (x : Nat) : (s.setNextId x).nextId = x := rfl
@[simp] theorem State.setNextId_refills (s : State) (x : Nat) : (s.setNextId x).refills = s.refills := rfl
@[simp] theorem State.setNextId_periods (s : State) (x : Nat) : (s.setNextId x).periods = s.periods := rfl
@[simp] theorem State.setNextId_mem (s : State) (x : Nat) : (s.setNextId x).mem = s.mem := rfl
@[simp] theorem State.setNextId_boot (s : State) (x : Nat) : (s.setNextId x).boot = s.boot := rfl
@[simp] theorem State.setNextId_endpoints (s : State) (x : Nat) : (s.setNextId x).endpoints = s.endpoints := rfl
@[simp] theorem State.setNextId_parts (s : State) (x : Nat) : (s.setNextId x).parts = s.parts := rfl
@[simp] theorem State.setNextId_slices (s : State) (x : Nat) : (s.setNextId x).slices = s.slices := rfl
@[simp] theorem State.setNextId_rails (s : State) (x : Nat) : (s.setNextId x).rails = s.rails := rfl
@[simp] theorem State.setNextId_clusters (s : State) (x : Nat) : (s.setNextId x).clusters = s.clusters := rfl
@[simp] theorem State.setNextId_cores (s : State) (x : Nat) : (s.setNextId x).cores = s.cores := rfl
@[simp] theorem State.setNextId_levels (s : State) (x : Nat) : (s.setNextId x).levels = s.levels := rfl
@[simp] theorem State.setNextId_launches (s : State) (x : Nat) : (s.setNextId x).launches = s.launches := rfl
@[simp] theorem State.setNextId_graphs (s : State) (x : Nat) : (s.setNextId x).graphs = s.graphs := rfl
@[simp] theorem State.setNextId_units (s : State) (x : Nat) : (s.setNextId x).units = s.units := rfl
@[simp] theorem State.setNextId_gangs (s : State) (x : Nat) : (s.setNextId x).gangs = s.gangs := rfl
@[simp] theorem State.setNextId_threads (s : State) (x : Nat) : (s.setNextId x).threads = s.threads := rfl
@[simp] theorem State.setNextId_accesses (s : State) (x : Nat) : (s.setNextId x).accesses = s.accesses := rfl
@[simp] theorem State.setNextId_copies (s : State) (x : Nat) : (s.setNextId x).copies = s.copies := rfl
@[simp] theorem State.setNextId_engines (s : State) (x : Nat) : (s.setNextId x).engines = s.engines := rfl
@[simp] theorem State.setNextId_saved (s : State) (x : Nat) : (s.setNextId x).saved = s.saved := rfl
@[simp] theorem State.setNextId_outbox (s : State) (x : Nat) : (s.setNextId x).outbox = s.outbox := rfl
@[simp] theorem State.setNextId_waiting (s : State) (x : Nat) : (s.setNextId x).waiting = s.waiting := rfl
@[simp] theorem State.setNextId_replies (s : State) (x : Nat) : (s.setNextId x).replies = s.replies := rfl
@[simp] theorem State.setOutbox_time (s : State) (x : List Out) : (s.setOutbox x).time = s.time := rfl
@[simp] theorem State.setOutbox_agenda (s : State) (x : List Out) : (s.setOutbox x).agenda = s.agenda := rfl
@[simp] theorem State.setOutbox_issue (s : State) (x : List Out) : (s.setOutbox x).issue = s.issue := rfl
@[simp] theorem State.setOutbox_fresh (s : State) (x : List Out) : (s.setOutbox x).fresh = s.fresh := rfl
@[simp] theorem State.setOutbox_nextId (s : State) (x : List Out) : (s.setOutbox x).nextId = s.nextId := rfl
@[simp] theorem State.setOutbox_refills (s : State) (x : List Out) : (s.setOutbox x).refills = s.refills := rfl
@[simp] theorem State.setOutbox_periods (s : State) (x : List Out) : (s.setOutbox x).periods = s.periods := rfl
@[simp] theorem State.setOutbox_mem (s : State) (x : List Out) : (s.setOutbox x).mem = s.mem := rfl
@[simp] theorem State.setOutbox_boot (s : State) (x : List Out) : (s.setOutbox x).boot = s.boot := rfl
@[simp] theorem State.setOutbox_endpoints (s : State) (x : List Out) : (s.setOutbox x).endpoints = s.endpoints := rfl
@[simp] theorem State.setOutbox_parts (s : State) (x : List Out) : (s.setOutbox x).parts = s.parts := rfl
@[simp] theorem State.setOutbox_slices (s : State) (x : List Out) : (s.setOutbox x).slices = s.slices := rfl
@[simp] theorem State.setOutbox_rails (s : State) (x : List Out) : (s.setOutbox x).rails = s.rails := rfl
@[simp] theorem State.setOutbox_clusters (s : State) (x : List Out) : (s.setOutbox x).clusters = s.clusters := rfl
@[simp] theorem State.setOutbox_cores (s : State) (x : List Out) : (s.setOutbox x).cores = s.cores := rfl
@[simp] theorem State.setOutbox_levels (s : State) (x : List Out) : (s.setOutbox x).levels = s.levels := rfl
@[simp] theorem State.setOutbox_launches (s : State) (x : List Out) : (s.setOutbox x).launches = s.launches := rfl
@[simp] theorem State.setOutbox_graphs (s : State) (x : List Out) : (s.setOutbox x).graphs = s.graphs := rfl
@[simp] theorem State.setOutbox_units (s : State) (x : List Out) : (s.setOutbox x).units = s.units := rfl
@[simp] theorem State.setOutbox_gangs (s : State) (x : List Out) : (s.setOutbox x).gangs = s.gangs := rfl
@[simp] theorem State.setOutbox_threads (s : State) (x : List Out) : (s.setOutbox x).threads = s.threads := rfl
@[simp] theorem State.setOutbox_accesses (s : State) (x : List Out) : (s.setOutbox x).accesses = s.accesses := rfl
@[simp] theorem State.setOutbox_copies (s : State) (x : List Out) : (s.setOutbox x).copies = s.copies := rfl
@[simp] theorem State.setOutbox_engines (s : State) (x : List Out) : (s.setOutbox x).engines = s.engines := rfl
@[simp] theorem State.setOutbox_saved (s : State) (x : List Out) : (s.setOutbox x).saved = s.saved := rfl
@[simp] theorem State.setOutbox_outbox (s : State) (x : List Out) : (s.setOutbox x).outbox = x := rfl
@[simp] theorem State.setOutbox_waiting (s : State) (x : List Out) : (s.setOutbox x).waiting = s.waiting := rfl
@[simp] theorem State.setOutbox_replies (s : State) (x : List Out) : (s.setOutbox x).replies = s.replies := rfl
@[simp] theorem State.setEngines_time (s : State) (x : Tab Nat) : (s.setEngines x).time = s.time := rfl
@[simp] theorem State.setEngines_agenda (s : State) (x : Tab Nat) : (s.setEngines x).agenda = s.agenda := rfl
@[simp] theorem State.setEngines_issue (s : State) (x : Tab Nat) : (s.setEngines x).issue = s.issue := rfl
@[simp] theorem State.setEngines_fresh (s : State) (x : Tab Nat) : (s.setEngines x).fresh = s.fresh := rfl
@[simp] theorem State.setEngines_nextId (s : State) (x : Tab Nat) : (s.setEngines x).nextId = s.nextId := rfl
@[simp] theorem State.setEngines_refills (s : State) (x : Tab Nat) : (s.setEngines x).refills = s.refills := rfl
@[simp] theorem State.setEngines_periods (s : State) (x : Tab Nat) : (s.setEngines x).periods = s.periods := rfl
@[simp] theorem State.setEngines_mem (s : State) (x : Tab Nat) : (s.setEngines x).mem = s.mem := rfl
@[simp] theorem State.setEngines_boot (s : State) (x : Tab Nat) : (s.setEngines x).boot = s.boot := rfl
@[simp] theorem State.setEngines_endpoints (s : State) (x : Tab Nat) : (s.setEngines x).endpoints = s.endpoints := rfl
@[simp] theorem State.setEngines_parts (s : State) (x : Tab Nat) : (s.setEngines x).parts = s.parts := rfl
@[simp] theorem State.setEngines_slices (s : State) (x : Tab Nat) : (s.setEngines x).slices = s.slices := rfl
@[simp] theorem State.setEngines_rails (s : State) (x : Tab Nat) : (s.setEngines x).rails = s.rails := rfl
@[simp] theorem State.setEngines_clusters (s : State) (x : Tab Nat) : (s.setEngines x).clusters = s.clusters := rfl
@[simp] theorem State.setEngines_cores (s : State) (x : Tab Nat) : (s.setEngines x).cores = s.cores := rfl
@[simp] theorem State.setEngines_levels (s : State) (x : Tab Nat) : (s.setEngines x).levels = s.levels := rfl
@[simp] theorem State.setEngines_launches (s : State) (x : Tab Nat) : (s.setEngines x).launches = s.launches := rfl
@[simp] theorem State.setEngines_graphs (s : State) (x : Tab Nat) : (s.setEngines x).graphs = s.graphs := rfl
@[simp] theorem State.setEngines_units (s : State) (x : Tab Nat) : (s.setEngines x).units = s.units := rfl
@[simp] theorem State.setEngines_gangs (s : State) (x : Tab Nat) : (s.setEngines x).gangs = s.gangs := rfl
@[simp] theorem State.setEngines_threads (s : State) (x : Tab Nat) : (s.setEngines x).threads = s.threads := rfl
@[simp] theorem State.setEngines_accesses (s : State) (x : Tab Nat) : (s.setEngines x).accesses = s.accesses := rfl
@[simp] theorem State.setEngines_copies (s : State) (x : Tab Nat) : (s.setEngines x).copies = s.copies := rfl
@[simp] theorem State.setEngines_engines (s : State) (x : Tab Nat) : (s.setEngines x).engines = x := rfl
@[simp] theorem State.setEngines_saved (s : State) (x : Tab Nat) : (s.setEngines x).saved = s.saved := rfl
@[simp] theorem State.setEngines_outbox (s : State) (x : Tab Nat) : (s.setEngines x).outbox = s.outbox := rfl
@[simp] theorem State.setEngines_waiting (s : State) (x : Tab Nat) : (s.setEngines x).waiting = s.waiting := rfl
@[simp] theorem State.setEngines_replies (s : State) (x : Tab Nat) : (s.setEngines x).replies = s.replies := rfl
@[simp] theorem State.dropAccess_time (s : State) (k : Nat) : (s.dropAccess k).time = s.time := rfl
@[simp] theorem State.dropAccess_agenda (s : State) (k : Nat) : (s.dropAccess k).agenda = s.agenda := rfl
@[simp] theorem State.dropAccess_issue (s : State) (k : Nat) : (s.dropAccess k).issue = s.issue := rfl
@[simp] theorem State.dropAccess_fresh (s : State) (k : Nat) : (s.dropAccess k).fresh = s.fresh := rfl
@[simp] theorem State.dropAccess_nextId (s : State) (k : Nat) : (s.dropAccess k).nextId = s.nextId := rfl
@[simp] theorem State.dropAccess_refills (s : State) (k : Nat) : (s.dropAccess k).refills = s.refills := rfl
@[simp] theorem State.dropAccess_periods (s : State) (k : Nat) : (s.dropAccess k).periods = s.periods := rfl
@[simp] theorem State.dropAccess_mem (s : State) (k : Nat) : (s.dropAccess k).mem = s.mem := rfl
@[simp] theorem State.dropAccess_boot (s : State) (k : Nat) : (s.dropAccess k).boot = s.boot := rfl
@[simp] theorem State.dropAccess_endpoints (s : State) (k : Nat) : (s.dropAccess k).endpoints = s.endpoints := rfl
@[simp] theorem State.dropAccess_parts (s : State) (k : Nat) : (s.dropAccess k).parts = s.parts := rfl
@[simp] theorem State.dropAccess_slices (s : State) (k : Nat) : (s.dropAccess k).slices = s.slices := rfl
@[simp] theorem State.dropAccess_rails (s : State) (k : Nat) : (s.dropAccess k).rails = s.rails := rfl
@[simp] theorem State.dropAccess_clusters (s : State) (k : Nat) : (s.dropAccess k).clusters = s.clusters := rfl
@[simp] theorem State.dropAccess_cores (s : State) (k : Nat) : (s.dropAccess k).cores = s.cores := rfl
@[simp] theorem State.dropAccess_levels (s : State) (k : Nat) : (s.dropAccess k).levels = s.levels := rfl
@[simp] theorem State.dropAccess_launches (s : State) (k : Nat) : (s.dropAccess k).launches = s.launches := rfl
@[simp] theorem State.dropAccess_graphs (s : State) (k : Nat) : (s.dropAccess k).graphs = s.graphs := rfl
@[simp] theorem State.dropAccess_units (s : State) (k : Nat) : (s.dropAccess k).units = s.units := rfl
@[simp] theorem State.dropAccess_gangs (s : State) (k : Nat) : (s.dropAccess k).gangs = s.gangs := rfl
@[simp] theorem State.dropAccess_threads (s : State) (k : Nat) : (s.dropAccess k).threads = s.threads := rfl
@[simp] theorem State.dropAccess_accesses (s : State) (k : Nat) : (s.dropAccess k).accesses = tabDel s.accesses k := rfl
@[simp] theorem State.dropAccess_copies (s : State) (k : Nat) : (s.dropAccess k).copies = s.copies := rfl
@[simp] theorem State.dropAccess_engines (s : State) (k : Nat) : (s.dropAccess k).engines = s.engines := rfl
@[simp] theorem State.dropAccess_saved (s : State) (k : Nat) : (s.dropAccess k).saved = s.saved := rfl
@[simp] theorem State.dropAccess_outbox (s : State) (k : Nat) : (s.dropAccess k).outbox = s.outbox := rfl
@[simp] theorem State.dropAccess_waiting (s : State) (k : Nat) : (s.dropAccess k).waiting = s.waiting := rfl
@[simp] theorem State.dropAccess_replies (s : State) (k : Nat) : (s.dropAccess k).replies = s.replies := rfl

/-! Accessors after setters. -/

@[simp] theorem State.thread_setThread (s : State) (k j : Nat) (x : Thread) : (s.setThread k x).thread j = if j = k then x else s.thread j := by simp [State.thread]
@[simp] theorem State.thread_setGang (s : State) (k j : Nat) (x : Gang) : (s.setGang k x).thread j = s.thread j := rfl
@[simp] theorem State.thread_setUnit (s : State) (k j : Nat) (x : Unit) : (s.setUnit k x).thread j = s.thread j := rfl
@[simp] theorem State.thread_setCore (s : State) (k j : Nat) (x : Core) : (s.setCore k x).thread j = s.thread j := rfl
@[simp] theorem State.thread_setCluster (s : State) (k j : Nat) (x : Cluster) : (s.setCluster k x).thread j = s.thread j := rfl
@[simp] theorem State.thread_setSlice (s : State) (k j : Nat) (x : Slice) : (s.setSlice k x).thread j = s.thread j := rfl
@[simp] theorem State.thread_setRail (s : State) (k j : Nat) (x : Rail) : (s.setRail k x).thread j = s.thread j := rfl
@[simp] theorem State.thread_setPart (s : State) (k j : Nat) (x : Partition) : (s.setPart k x).thread j = s.thread j := rfl
@[simp] theorem State.thread_setLaunch (s : State) (k j : Nat) (x : Launch) : (s.setLaunch k x).thread j = s.thread j := rfl
@[simp] theorem State.thread_setLevel (s : State) (k j : Nat) (x : Level) : (s.setLevel k x).thread j = s.thread j := rfl
@[simp] theorem State.thread_setGraph (s : State) (k j : Nat) (x : Graph) : (s.setGraph k x).thread j = s.thread j := rfl
@[simp] theorem State.thread_setCopy (s : State) (k j : Nat) (x : Copy) : (s.setCopy k x).thread j = s.thread j := rfl
@[simp] theorem State.thread_setEndpoint (s : State) (k j : Nat) (x : Endpoint) : (s.setEndpoint k x).thread j = s.thread j := rfl
@[simp] theorem State.thread_setSaved (s : State) (k j : Nat) (x : Saved) : (s.setSaved k x).thread j = s.thread j := rfl
@[simp] theorem State.thread_setAccess (s : State) (k j : Nat) (x : Access) : (s.setAccess k x).thread j = s.thread j := rfl
@[simp] theorem State.thread_setMem (s : State) (j : Nat) (x : Memory) : (s.setMem x).thread j = s.thread j := rfl
@[simp] theorem State.thread_setBoot (s : State) (j : Nat) (x : Boot) : (s.setBoot x).thread j = s.thread j := rfl
@[simp] theorem State.thread_setTime (s : State) (j : Nat) (x : Nat) : (s.setTime x).thread j = s.thread j := rfl
@[simp] theorem State.thread_setAgenda (s : State) (j : Nat) (x : List Turn) : (s.setAgenda x).thread j = s.thread j := rfl
@[simp] theorem State.thread_setIssue (s : State) (j : Nat) (x : Issue) : (s.setIssue x).thread j = s.thread j := rfl
@[simp] theorem State.thread_setFresh (s : State) (j : Nat) (x : Nat) : (s.setFresh x).thread j = s.thread j := rfl
@[simp] theorem State.thread_setNextId (s : State) (j : Nat) (x : Nat) : (s.setNextId x).thread j = s.thread j := rfl
@[simp] theorem State.thread_setOutbox (s : State) (j : Nat) (x : List Out) : (s.setOutbox x).thread j = s.thread j := rfl
@[simp] theorem State.thread_setEngines (s : State) (j : Nat) (x : Tab Nat) : (s.setEngines x).thread j = s.thread j := rfl
@[simp] theorem State.thread_dropAccess (s : State) (k j : Nat) : (s.dropAccess k).thread j = s.thread j := rfl
@[simp] theorem State.gang_setThread (s : State) (k j : Nat) (x : Thread) : (s.setThread k x).gang j = s.gang j := rfl
@[simp] theorem State.gang_setGang (s : State) (k j : Nat) (x : Gang) : (s.setGang k x).gang j = if j = k then x else s.gang j := by simp [State.gang]
@[simp] theorem State.gang_setUnit (s : State) (k j : Nat) (x : Unit) : (s.setUnit k x).gang j = s.gang j := rfl
@[simp] theorem State.gang_setCore (s : State) (k j : Nat) (x : Core) : (s.setCore k x).gang j = s.gang j := rfl
@[simp] theorem State.gang_setCluster (s : State) (k j : Nat) (x : Cluster) : (s.setCluster k x).gang j = s.gang j := rfl
@[simp] theorem State.gang_setSlice (s : State) (k j : Nat) (x : Slice) : (s.setSlice k x).gang j = s.gang j := rfl
@[simp] theorem State.gang_setRail (s : State) (k j : Nat) (x : Rail) : (s.setRail k x).gang j = s.gang j := rfl
@[simp] theorem State.gang_setPart (s : State) (k j : Nat) (x : Partition) : (s.setPart k x).gang j = s.gang j := rfl
@[simp] theorem State.gang_setLaunch (s : State) (k j : Nat) (x : Launch) : (s.setLaunch k x).gang j = s.gang j := rfl
@[simp] theorem State.gang_setLevel (s : State) (k j : Nat) (x : Level) : (s.setLevel k x).gang j = s.gang j := rfl
@[simp] theorem State.gang_setGraph (s : State) (k j : Nat) (x : Graph) : (s.setGraph k x).gang j = s.gang j := rfl
@[simp] theorem State.gang_setCopy (s : State) (k j : Nat) (x : Copy) : (s.setCopy k x).gang j = s.gang j := rfl
@[simp] theorem State.gang_setEndpoint (s : State) (k j : Nat) (x : Endpoint) : (s.setEndpoint k x).gang j = s.gang j := rfl
@[simp] theorem State.gang_setSaved (s : State) (k j : Nat) (x : Saved) : (s.setSaved k x).gang j = s.gang j := rfl
@[simp] theorem State.gang_setAccess (s : State) (k j : Nat) (x : Access) : (s.setAccess k x).gang j = s.gang j := rfl
@[simp] theorem State.gang_setMem (s : State) (j : Nat) (x : Memory) : (s.setMem x).gang j = s.gang j := rfl
@[simp] theorem State.gang_setBoot (s : State) (j : Nat) (x : Boot) : (s.setBoot x).gang j = s.gang j := rfl
@[simp] theorem State.gang_setTime (s : State) (j : Nat) (x : Nat) : (s.setTime x).gang j = s.gang j := rfl
@[simp] theorem State.gang_setAgenda (s : State) (j : Nat) (x : List Turn) : (s.setAgenda x).gang j = s.gang j := rfl
@[simp] theorem State.gang_setIssue (s : State) (j : Nat) (x : Issue) : (s.setIssue x).gang j = s.gang j := rfl
@[simp] theorem State.gang_setFresh (s : State) (j : Nat) (x : Nat) : (s.setFresh x).gang j = s.gang j := rfl
@[simp] theorem State.gang_setNextId (s : State) (j : Nat) (x : Nat) : (s.setNextId x).gang j = s.gang j := rfl
@[simp] theorem State.gang_setOutbox (s : State) (j : Nat) (x : List Out) : (s.setOutbox x).gang j = s.gang j := rfl
@[simp] theorem State.gang_setEngines (s : State) (j : Nat) (x : Tab Nat) : (s.setEngines x).gang j = s.gang j := rfl
@[simp] theorem State.gang_dropAccess (s : State) (k j : Nat) : (s.dropAccess k).gang j = s.gang j := rfl
@[simp] theorem State.unit_setThread (s : State) (k j : Nat) (x : Thread) : (s.setThread k x).unit j = s.unit j := rfl
@[simp] theorem State.unit_setGang (s : State) (k j : Nat) (x : Gang) : (s.setGang k x).unit j = s.unit j := rfl
@[simp] theorem State.unit_setUnit (s : State) (k j : Nat) (x : Unit) : (s.setUnit k x).unit j = if j = k then x else s.unit j := by simp [State.unit]
@[simp] theorem State.unit_setCore (s : State) (k j : Nat) (x : Core) : (s.setCore k x).unit j = s.unit j := rfl
@[simp] theorem State.unit_setCluster (s : State) (k j : Nat) (x : Cluster) : (s.setCluster k x).unit j = s.unit j := rfl
@[simp] theorem State.unit_setSlice (s : State) (k j : Nat) (x : Slice) : (s.setSlice k x).unit j = s.unit j := rfl
@[simp] theorem State.unit_setRail (s : State) (k j : Nat) (x : Rail) : (s.setRail k x).unit j = s.unit j := rfl
@[simp] theorem State.unit_setPart (s : State) (k j : Nat) (x : Partition) : (s.setPart k x).unit j = s.unit j := rfl
@[simp] theorem State.unit_setLaunch (s : State) (k j : Nat) (x : Launch) : (s.setLaunch k x).unit j = s.unit j := rfl
@[simp] theorem State.unit_setLevel (s : State) (k j : Nat) (x : Level) : (s.setLevel k x).unit j = s.unit j := rfl
@[simp] theorem State.unit_setGraph (s : State) (k j : Nat) (x : Graph) : (s.setGraph k x).unit j = s.unit j := rfl
@[simp] theorem State.unit_setCopy (s : State) (k j : Nat) (x : Copy) : (s.setCopy k x).unit j = s.unit j := rfl
@[simp] theorem State.unit_setEndpoint (s : State) (k j : Nat) (x : Endpoint) : (s.setEndpoint k x).unit j = s.unit j := rfl
@[simp] theorem State.unit_setSaved (s : State) (k j : Nat) (x : Saved) : (s.setSaved k x).unit j = s.unit j := rfl
@[simp] theorem State.unit_setAccess (s : State) (k j : Nat) (x : Access) : (s.setAccess k x).unit j = s.unit j := rfl
@[simp] theorem State.unit_setMem (s : State) (j : Nat) (x : Memory) : (s.setMem x).unit j = s.unit j := rfl
@[simp] theorem State.unit_setBoot (s : State) (j : Nat) (x : Boot) : (s.setBoot x).unit j = s.unit j := rfl
@[simp] theorem State.unit_setTime (s : State) (j : Nat) (x : Nat) : (s.setTime x).unit j = s.unit j := rfl
@[simp] theorem State.unit_setAgenda (s : State) (j : Nat) (x : List Turn) : (s.setAgenda x).unit j = s.unit j := rfl
@[simp] theorem State.unit_setIssue (s : State) (j : Nat) (x : Issue) : (s.setIssue x).unit j = s.unit j := rfl
@[simp] theorem State.unit_setFresh (s : State) (j : Nat) (x : Nat) : (s.setFresh x).unit j = s.unit j := rfl
@[simp] theorem State.unit_setNextId (s : State) (j : Nat) (x : Nat) : (s.setNextId x).unit j = s.unit j := rfl
@[simp] theorem State.unit_setOutbox (s : State) (j : Nat) (x : List Out) : (s.setOutbox x).unit j = s.unit j := rfl
@[simp] theorem State.unit_setEngines (s : State) (j : Nat) (x : Tab Nat) : (s.setEngines x).unit j = s.unit j := rfl
@[simp] theorem State.unit_dropAccess (s : State) (k j : Nat) : (s.dropAccess k).unit j = s.unit j := rfl
@[simp] theorem State.core_setThread (s : State) (k j : Nat) (x : Thread) : (s.setThread k x).core j = s.core j := rfl
@[simp] theorem State.core_setGang (s : State) (k j : Nat) (x : Gang) : (s.setGang k x).core j = s.core j := rfl
@[simp] theorem State.core_setUnit (s : State) (k j : Nat) (x : Unit) : (s.setUnit k x).core j = s.core j := rfl
@[simp] theorem State.core_setCore (s : State) (k j : Nat) (x : Core) : (s.setCore k x).core j = if j = k then x else s.core j := by simp [State.core]
@[simp] theorem State.core_setCluster (s : State) (k j : Nat) (x : Cluster) : (s.setCluster k x).core j = s.core j := rfl
@[simp] theorem State.core_setSlice (s : State) (k j : Nat) (x : Slice) : (s.setSlice k x).core j = s.core j := rfl
@[simp] theorem State.core_setRail (s : State) (k j : Nat) (x : Rail) : (s.setRail k x).core j = s.core j := rfl
@[simp] theorem State.core_setPart (s : State) (k j : Nat) (x : Partition) : (s.setPart k x).core j = s.core j := rfl
@[simp] theorem State.core_setLaunch (s : State) (k j : Nat) (x : Launch) : (s.setLaunch k x).core j = s.core j := rfl
@[simp] theorem State.core_setLevel (s : State) (k j : Nat) (x : Level) : (s.setLevel k x).core j = s.core j := rfl
@[simp] theorem State.core_setGraph (s : State) (k j : Nat) (x : Graph) : (s.setGraph k x).core j = s.core j := rfl
@[simp] theorem State.core_setCopy (s : State) (k j : Nat) (x : Copy) : (s.setCopy k x).core j = s.core j := rfl
@[simp] theorem State.core_setEndpoint (s : State) (k j : Nat) (x : Endpoint) : (s.setEndpoint k x).core j = s.core j := rfl
@[simp] theorem State.core_setSaved (s : State) (k j : Nat) (x : Saved) : (s.setSaved k x).core j = s.core j := rfl
@[simp] theorem State.core_setAccess (s : State) (k j : Nat) (x : Access) : (s.setAccess k x).core j = s.core j := rfl
@[simp] theorem State.core_setMem (s : State) (j : Nat) (x : Memory) : (s.setMem x).core j = s.core j := rfl
@[simp] theorem State.core_setBoot (s : State) (j : Nat) (x : Boot) : (s.setBoot x).core j = s.core j := rfl
@[simp] theorem State.core_setTime (s : State) (j : Nat) (x : Nat) : (s.setTime x).core j = s.core j := rfl
@[simp] theorem State.core_setAgenda (s : State) (j : Nat) (x : List Turn) : (s.setAgenda x).core j = s.core j := rfl
@[simp] theorem State.core_setIssue (s : State) (j : Nat) (x : Issue) : (s.setIssue x).core j = s.core j := rfl
@[simp] theorem State.core_setFresh (s : State) (j : Nat) (x : Nat) : (s.setFresh x).core j = s.core j := rfl
@[simp] theorem State.core_setNextId (s : State) (j : Nat) (x : Nat) : (s.setNextId x).core j = s.core j := rfl
@[simp] theorem State.core_setOutbox (s : State) (j : Nat) (x : List Out) : (s.setOutbox x).core j = s.core j := rfl
@[simp] theorem State.core_setEngines (s : State) (j : Nat) (x : Tab Nat) : (s.setEngines x).core j = s.core j := rfl
@[simp] theorem State.core_dropAccess (s : State) (k j : Nat) : (s.dropAccess k).core j = s.core j := rfl
@[simp] theorem State.cluster_setThread (s : State) (k j : Nat) (x : Thread) : (s.setThread k x).cluster j = s.cluster j := rfl
@[simp] theorem State.cluster_setGang (s : State) (k j : Nat) (x : Gang) : (s.setGang k x).cluster j = s.cluster j := rfl
@[simp] theorem State.cluster_setUnit (s : State) (k j : Nat) (x : Unit) : (s.setUnit k x).cluster j = s.cluster j := rfl
@[simp] theorem State.cluster_setCore (s : State) (k j : Nat) (x : Core) : (s.setCore k x).cluster j = s.cluster j := rfl
@[simp] theorem State.cluster_setCluster (s : State) (k j : Nat) (x : Cluster) : (s.setCluster k x).cluster j = if j = k then x else s.cluster j := by simp [State.cluster]
@[simp] theorem State.cluster_setSlice (s : State) (k j : Nat) (x : Slice) : (s.setSlice k x).cluster j = s.cluster j := rfl
@[simp] theorem State.cluster_setRail (s : State) (k j : Nat) (x : Rail) : (s.setRail k x).cluster j = s.cluster j := rfl
@[simp] theorem State.cluster_setPart (s : State) (k j : Nat) (x : Partition) : (s.setPart k x).cluster j = s.cluster j := rfl
@[simp] theorem State.cluster_setLaunch (s : State) (k j : Nat) (x : Launch) : (s.setLaunch k x).cluster j = s.cluster j := rfl
@[simp] theorem State.cluster_setLevel (s : State) (k j : Nat) (x : Level) : (s.setLevel k x).cluster j = s.cluster j := rfl
@[simp] theorem State.cluster_setGraph (s : State) (k j : Nat) (x : Graph) : (s.setGraph k x).cluster j = s.cluster j := rfl
@[simp] theorem State.cluster_setCopy (s : State) (k j : Nat) (x : Copy) : (s.setCopy k x).cluster j = s.cluster j := rfl
@[simp] theorem State.cluster_setEndpoint (s : State) (k j : Nat) (x : Endpoint) : (s.setEndpoint k x).cluster j = s.cluster j := rfl
@[simp] theorem State.cluster_setSaved (s : State) (k j : Nat) (x : Saved) : (s.setSaved k x).cluster j = s.cluster j := rfl
@[simp] theorem State.cluster_setAccess (s : State) (k j : Nat) (x : Access) : (s.setAccess k x).cluster j = s.cluster j := rfl
@[simp] theorem State.cluster_setMem (s : State) (j : Nat) (x : Memory) : (s.setMem x).cluster j = s.cluster j := rfl
@[simp] theorem State.cluster_setBoot (s : State) (j : Nat) (x : Boot) : (s.setBoot x).cluster j = s.cluster j := rfl
@[simp] theorem State.cluster_setTime (s : State) (j : Nat) (x : Nat) : (s.setTime x).cluster j = s.cluster j := rfl
@[simp] theorem State.cluster_setAgenda (s : State) (j : Nat) (x : List Turn) : (s.setAgenda x).cluster j = s.cluster j := rfl
@[simp] theorem State.cluster_setIssue (s : State) (j : Nat) (x : Issue) : (s.setIssue x).cluster j = s.cluster j := rfl
@[simp] theorem State.cluster_setFresh (s : State) (j : Nat) (x : Nat) : (s.setFresh x).cluster j = s.cluster j := rfl
@[simp] theorem State.cluster_setNextId (s : State) (j : Nat) (x : Nat) : (s.setNextId x).cluster j = s.cluster j := rfl
@[simp] theorem State.cluster_setOutbox (s : State) (j : Nat) (x : List Out) : (s.setOutbox x).cluster j = s.cluster j := rfl
@[simp] theorem State.cluster_setEngines (s : State) (j : Nat) (x : Tab Nat) : (s.setEngines x).cluster j = s.cluster j := rfl
@[simp] theorem State.cluster_dropAccess (s : State) (k j : Nat) : (s.dropAccess k).cluster j = s.cluster j := rfl
@[simp] theorem State.slice_setThread (s : State) (k j : Nat) (x : Thread) : (s.setThread k x).slice j = s.slice j := rfl
@[simp] theorem State.slice_setGang (s : State) (k j : Nat) (x : Gang) : (s.setGang k x).slice j = s.slice j := rfl
@[simp] theorem State.slice_setUnit (s : State) (k j : Nat) (x : Unit) : (s.setUnit k x).slice j = s.slice j := rfl
@[simp] theorem State.slice_setCore (s : State) (k j : Nat) (x : Core) : (s.setCore k x).slice j = s.slice j := rfl
@[simp] theorem State.slice_setCluster (s : State) (k j : Nat) (x : Cluster) : (s.setCluster k x).slice j = s.slice j := rfl
@[simp] theorem State.slice_setSlice (s : State) (k j : Nat) (x : Slice) : (s.setSlice k x).slice j = if j = k then x else s.slice j := by simp [State.slice]
@[simp] theorem State.slice_setRail (s : State) (k j : Nat) (x : Rail) : (s.setRail k x).slice j = s.slice j := rfl
@[simp] theorem State.slice_setPart (s : State) (k j : Nat) (x : Partition) : (s.setPart k x).slice j = s.slice j := rfl
@[simp] theorem State.slice_setLaunch (s : State) (k j : Nat) (x : Launch) : (s.setLaunch k x).slice j = s.slice j := rfl
@[simp] theorem State.slice_setLevel (s : State) (k j : Nat) (x : Level) : (s.setLevel k x).slice j = s.slice j := rfl
@[simp] theorem State.slice_setGraph (s : State) (k j : Nat) (x : Graph) : (s.setGraph k x).slice j = s.slice j := rfl
@[simp] theorem State.slice_setCopy (s : State) (k j : Nat) (x : Copy) : (s.setCopy k x).slice j = s.slice j := rfl
@[simp] theorem State.slice_setEndpoint (s : State) (k j : Nat) (x : Endpoint) : (s.setEndpoint k x).slice j = s.slice j := rfl
@[simp] theorem State.slice_setSaved (s : State) (k j : Nat) (x : Saved) : (s.setSaved k x).slice j = s.slice j := rfl
@[simp] theorem State.slice_setAccess (s : State) (k j : Nat) (x : Access) : (s.setAccess k x).slice j = s.slice j := rfl
@[simp] theorem State.slice_setMem (s : State) (j : Nat) (x : Memory) : (s.setMem x).slice j = s.slice j := rfl
@[simp] theorem State.slice_setBoot (s : State) (j : Nat) (x : Boot) : (s.setBoot x).slice j = s.slice j := rfl
@[simp] theorem State.slice_setTime (s : State) (j : Nat) (x : Nat) : (s.setTime x).slice j = s.slice j := rfl
@[simp] theorem State.slice_setAgenda (s : State) (j : Nat) (x : List Turn) : (s.setAgenda x).slice j = s.slice j := rfl
@[simp] theorem State.slice_setIssue (s : State) (j : Nat) (x : Issue) : (s.setIssue x).slice j = s.slice j := rfl
@[simp] theorem State.slice_setFresh (s : State) (j : Nat) (x : Nat) : (s.setFresh x).slice j = s.slice j := rfl
@[simp] theorem State.slice_setNextId (s : State) (j : Nat) (x : Nat) : (s.setNextId x).slice j = s.slice j := rfl
@[simp] theorem State.slice_setOutbox (s : State) (j : Nat) (x : List Out) : (s.setOutbox x).slice j = s.slice j := rfl
@[simp] theorem State.slice_setEngines (s : State) (j : Nat) (x : Tab Nat) : (s.setEngines x).slice j = s.slice j := rfl
@[simp] theorem State.slice_dropAccess (s : State) (k j : Nat) : (s.dropAccess k).slice j = s.slice j := rfl
@[simp] theorem State.rail_setThread (s : State) (k j : Nat) (x : Thread) : (s.setThread k x).rail j = s.rail j := rfl
@[simp] theorem State.rail_setGang (s : State) (k j : Nat) (x : Gang) : (s.setGang k x).rail j = s.rail j := rfl
@[simp] theorem State.rail_setUnit (s : State) (k j : Nat) (x : Unit) : (s.setUnit k x).rail j = s.rail j := rfl
@[simp] theorem State.rail_setCore (s : State) (k j : Nat) (x : Core) : (s.setCore k x).rail j = s.rail j := rfl
@[simp] theorem State.rail_setCluster (s : State) (k j : Nat) (x : Cluster) : (s.setCluster k x).rail j = s.rail j := rfl
@[simp] theorem State.rail_setSlice (s : State) (k j : Nat) (x : Slice) : (s.setSlice k x).rail j = s.rail j := rfl
@[simp] theorem State.rail_setRail (s : State) (k j : Nat) (x : Rail) : (s.setRail k x).rail j = if j = k then x else s.rail j := by simp [State.rail]
@[simp] theorem State.rail_setPart (s : State) (k j : Nat) (x : Partition) : (s.setPart k x).rail j = s.rail j := rfl
@[simp] theorem State.rail_setLaunch (s : State) (k j : Nat) (x : Launch) : (s.setLaunch k x).rail j = s.rail j := rfl
@[simp] theorem State.rail_setLevel (s : State) (k j : Nat) (x : Level) : (s.setLevel k x).rail j = s.rail j := rfl
@[simp] theorem State.rail_setGraph (s : State) (k j : Nat) (x : Graph) : (s.setGraph k x).rail j = s.rail j := rfl
@[simp] theorem State.rail_setCopy (s : State) (k j : Nat) (x : Copy) : (s.setCopy k x).rail j = s.rail j := rfl
@[simp] theorem State.rail_setEndpoint (s : State) (k j : Nat) (x : Endpoint) : (s.setEndpoint k x).rail j = s.rail j := rfl
@[simp] theorem State.rail_setSaved (s : State) (k j : Nat) (x : Saved) : (s.setSaved k x).rail j = s.rail j := rfl
@[simp] theorem State.rail_setAccess (s : State) (k j : Nat) (x : Access) : (s.setAccess k x).rail j = s.rail j := rfl
@[simp] theorem State.rail_setMem (s : State) (j : Nat) (x : Memory) : (s.setMem x).rail j = s.rail j := rfl
@[simp] theorem State.rail_setBoot (s : State) (j : Nat) (x : Boot) : (s.setBoot x).rail j = s.rail j := rfl
@[simp] theorem State.rail_setTime (s : State) (j : Nat) (x : Nat) : (s.setTime x).rail j = s.rail j := rfl
@[simp] theorem State.rail_setAgenda (s : State) (j : Nat) (x : List Turn) : (s.setAgenda x).rail j = s.rail j := rfl
@[simp] theorem State.rail_setIssue (s : State) (j : Nat) (x : Issue) : (s.setIssue x).rail j = s.rail j := rfl
@[simp] theorem State.rail_setFresh (s : State) (j : Nat) (x : Nat) : (s.setFresh x).rail j = s.rail j := rfl
@[simp] theorem State.rail_setNextId (s : State) (j : Nat) (x : Nat) : (s.setNextId x).rail j = s.rail j := rfl
@[simp] theorem State.rail_setOutbox (s : State) (j : Nat) (x : List Out) : (s.setOutbox x).rail j = s.rail j := rfl
@[simp] theorem State.rail_setEngines (s : State) (j : Nat) (x : Tab Nat) : (s.setEngines x).rail j = s.rail j := rfl
@[simp] theorem State.rail_dropAccess (s : State) (k j : Nat) : (s.dropAccess k).rail j = s.rail j := rfl
@[simp] theorem State.part_setThread (s : State) (k j : Nat) (x : Thread) : (s.setThread k x).part j = s.part j := rfl
@[simp] theorem State.part_setGang (s : State) (k j : Nat) (x : Gang) : (s.setGang k x).part j = s.part j := rfl
@[simp] theorem State.part_setUnit (s : State) (k j : Nat) (x : Unit) : (s.setUnit k x).part j = s.part j := rfl
@[simp] theorem State.part_setCore (s : State) (k j : Nat) (x : Core) : (s.setCore k x).part j = s.part j := rfl
@[simp] theorem State.part_setCluster (s : State) (k j : Nat) (x : Cluster) : (s.setCluster k x).part j = s.part j := rfl
@[simp] theorem State.part_setSlice (s : State) (k j : Nat) (x : Slice) : (s.setSlice k x).part j = s.part j := rfl
@[simp] theorem State.part_setRail (s : State) (k j : Nat) (x : Rail) : (s.setRail k x).part j = s.part j := rfl
@[simp] theorem State.part_setPart (s : State) (k j : Nat) (x : Partition) : (s.setPart k x).part j = if j = k then x else s.part j := by simp [State.part]
@[simp] theorem State.part_setLaunch (s : State) (k j : Nat) (x : Launch) : (s.setLaunch k x).part j = s.part j := rfl
@[simp] theorem State.part_setLevel (s : State) (k j : Nat) (x : Level) : (s.setLevel k x).part j = s.part j := rfl
@[simp] theorem State.part_setGraph (s : State) (k j : Nat) (x : Graph) : (s.setGraph k x).part j = s.part j := rfl
@[simp] theorem State.part_setCopy (s : State) (k j : Nat) (x : Copy) : (s.setCopy k x).part j = s.part j := rfl
@[simp] theorem State.part_setEndpoint (s : State) (k j : Nat) (x : Endpoint) : (s.setEndpoint k x).part j = s.part j := rfl
@[simp] theorem State.part_setSaved (s : State) (k j : Nat) (x : Saved) : (s.setSaved k x).part j = s.part j := rfl
@[simp] theorem State.part_setAccess (s : State) (k j : Nat) (x : Access) : (s.setAccess k x).part j = s.part j := rfl
@[simp] theorem State.part_setMem (s : State) (j : Nat) (x : Memory) : (s.setMem x).part j = s.part j := rfl
@[simp] theorem State.part_setBoot (s : State) (j : Nat) (x : Boot) : (s.setBoot x).part j = s.part j := rfl
@[simp] theorem State.part_setTime (s : State) (j : Nat) (x : Nat) : (s.setTime x).part j = s.part j := rfl
@[simp] theorem State.part_setAgenda (s : State) (j : Nat) (x : List Turn) : (s.setAgenda x).part j = s.part j := rfl
@[simp] theorem State.part_setIssue (s : State) (j : Nat) (x : Issue) : (s.setIssue x).part j = s.part j := rfl
@[simp] theorem State.part_setFresh (s : State) (j : Nat) (x : Nat) : (s.setFresh x).part j = s.part j := rfl
@[simp] theorem State.part_setNextId (s : State) (j : Nat) (x : Nat) : (s.setNextId x).part j = s.part j := rfl
@[simp] theorem State.part_setOutbox (s : State) (j : Nat) (x : List Out) : (s.setOutbox x).part j = s.part j := rfl
@[simp] theorem State.part_setEngines (s : State) (j : Nat) (x : Tab Nat) : (s.setEngines x).part j = s.part j := rfl
@[simp] theorem State.part_dropAccess (s : State) (k j : Nat) : (s.dropAccess k).part j = s.part j := rfl
@[simp] theorem State.launch_setThread (s : State) (k j : Nat) (x : Thread) : (s.setThread k x).launch j = s.launch j := rfl
@[simp] theorem State.launch_setGang (s : State) (k j : Nat) (x : Gang) : (s.setGang k x).launch j = s.launch j := rfl
@[simp] theorem State.launch_setUnit (s : State) (k j : Nat) (x : Unit) : (s.setUnit k x).launch j = s.launch j := rfl
@[simp] theorem State.launch_setCore (s : State) (k j : Nat) (x : Core) : (s.setCore k x).launch j = s.launch j := rfl
@[simp] theorem State.launch_setCluster (s : State) (k j : Nat) (x : Cluster) : (s.setCluster k x).launch j = s.launch j := rfl
@[simp] theorem State.launch_setSlice (s : State) (k j : Nat) (x : Slice) : (s.setSlice k x).launch j = s.launch j := rfl
@[simp] theorem State.launch_setRail (s : State) (k j : Nat) (x : Rail) : (s.setRail k x).launch j = s.launch j := rfl
@[simp] theorem State.launch_setPart (s : State) (k j : Nat) (x : Partition) : (s.setPart k x).launch j = s.launch j := rfl
@[simp] theorem State.launch_setLaunch (s : State) (k j : Nat) (x : Launch) : (s.setLaunch k x).launch j = if j = k then x else s.launch j := by simp [State.launch]
@[simp] theorem State.launch_setLevel (s : State) (k j : Nat) (x : Level) : (s.setLevel k x).launch j = s.launch j := rfl
@[simp] theorem State.launch_setGraph (s : State) (k j : Nat) (x : Graph) : (s.setGraph k x).launch j = s.launch j := rfl
@[simp] theorem State.launch_setCopy (s : State) (k j : Nat) (x : Copy) : (s.setCopy k x).launch j = s.launch j := rfl
@[simp] theorem State.launch_setEndpoint (s : State) (k j : Nat) (x : Endpoint) : (s.setEndpoint k x).launch j = s.launch j := rfl
@[simp] theorem State.launch_setSaved (s : State) (k j : Nat) (x : Saved) : (s.setSaved k x).launch j = s.launch j := rfl
@[simp] theorem State.launch_setAccess (s : State) (k j : Nat) (x : Access) : (s.setAccess k x).launch j = s.launch j := rfl
@[simp] theorem State.launch_setMem (s : State) (j : Nat) (x : Memory) : (s.setMem x).launch j = s.launch j := rfl
@[simp] theorem State.launch_setBoot (s : State) (j : Nat) (x : Boot) : (s.setBoot x).launch j = s.launch j := rfl
@[simp] theorem State.launch_setTime (s : State) (j : Nat) (x : Nat) : (s.setTime x).launch j = s.launch j := rfl
@[simp] theorem State.launch_setAgenda (s : State) (j : Nat) (x : List Turn) : (s.setAgenda x).launch j = s.launch j := rfl
@[simp] theorem State.launch_setIssue (s : State) (j : Nat) (x : Issue) : (s.setIssue x).launch j = s.launch j := rfl
@[simp] theorem State.launch_setFresh (s : State) (j : Nat) (x : Nat) : (s.setFresh x).launch j = s.launch j := rfl
@[simp] theorem State.launch_setNextId (s : State) (j : Nat) (x : Nat) : (s.setNextId x).launch j = s.launch j := rfl
@[simp] theorem State.launch_setOutbox (s : State) (j : Nat) (x : List Out) : (s.setOutbox x).launch j = s.launch j := rfl
@[simp] theorem State.launch_setEngines (s : State) (j : Nat) (x : Tab Nat) : (s.setEngines x).launch j = s.launch j := rfl
@[simp] theorem State.launch_dropAccess (s : State) (k j : Nat) : (s.dropAccess k).launch j = s.launch j := rfl
@[simp] theorem State.endpoint_setThread (s : State) (k j : Nat) (x : Thread) : (s.setThread k x).endpoint j = s.endpoint j := rfl
@[simp] theorem State.endpoint_setGang (s : State) (k j : Nat) (x : Gang) : (s.setGang k x).endpoint j = s.endpoint j := rfl
@[simp] theorem State.endpoint_setUnit (s : State) (k j : Nat) (x : Unit) : (s.setUnit k x).endpoint j = s.endpoint j := rfl
@[simp] theorem State.endpoint_setCore (s : State) (k j : Nat) (x : Core) : (s.setCore k x).endpoint j = s.endpoint j := rfl
@[simp] theorem State.endpoint_setCluster (s : State) (k j : Nat) (x : Cluster) : (s.setCluster k x).endpoint j = s.endpoint j := rfl
@[simp] theorem State.endpoint_setSlice (s : State) (k j : Nat) (x : Slice) : (s.setSlice k x).endpoint j = s.endpoint j := rfl
@[simp] theorem State.endpoint_setRail (s : State) (k j : Nat) (x : Rail) : (s.setRail k x).endpoint j = s.endpoint j := rfl
@[simp] theorem State.endpoint_setPart (s : State) (k j : Nat) (x : Partition) : (s.setPart k x).endpoint j = s.endpoint j := rfl
@[simp] theorem State.endpoint_setLaunch (s : State) (k j : Nat) (x : Launch) : (s.setLaunch k x).endpoint j = s.endpoint j := rfl
@[simp] theorem State.endpoint_setLevel (s : State) (k j : Nat) (x : Level) : (s.setLevel k x).endpoint j = s.endpoint j := rfl
@[simp] theorem State.endpoint_setGraph (s : State) (k j : Nat) (x : Graph) : (s.setGraph k x).endpoint j = s.endpoint j := rfl
@[simp] theorem State.endpoint_setCopy (s : State) (k j : Nat) (x : Copy) : (s.setCopy k x).endpoint j = s.endpoint j := rfl
@[simp] theorem State.endpoint_setEndpoint (s : State) (k j : Nat) (x : Endpoint) : (s.setEndpoint k x).endpoint j = if j = k then x else s.endpoint j := by simp [State.endpoint]
@[simp] theorem State.endpoint_setSaved (s : State) (k j : Nat) (x : Saved) : (s.setSaved k x).endpoint j = s.endpoint j := rfl
@[simp] theorem State.endpoint_setAccess (s : State) (k j : Nat) (x : Access) : (s.setAccess k x).endpoint j = s.endpoint j := rfl
@[simp] theorem State.endpoint_setMem (s : State) (j : Nat) (x : Memory) : (s.setMem x).endpoint j = s.endpoint j := rfl
@[simp] theorem State.endpoint_setBoot (s : State) (j : Nat) (x : Boot) : (s.setBoot x).endpoint j = s.endpoint j := rfl
@[simp] theorem State.endpoint_setTime (s : State) (j : Nat) (x : Nat) : (s.setTime x).endpoint j = s.endpoint j := rfl
@[simp] theorem State.endpoint_setAgenda (s : State) (j : Nat) (x : List Turn) : (s.setAgenda x).endpoint j = s.endpoint j := rfl
@[simp] theorem State.endpoint_setIssue (s : State) (j : Nat) (x : Issue) : (s.setIssue x).endpoint j = s.endpoint j := rfl
@[simp] theorem State.endpoint_setFresh (s : State) (j : Nat) (x : Nat) : (s.setFresh x).endpoint j = s.endpoint j := rfl
@[simp] theorem State.endpoint_setNextId (s : State) (j : Nat) (x : Nat) : (s.setNextId x).endpoint j = s.endpoint j := rfl
@[simp] theorem State.endpoint_setOutbox (s : State) (j : Nat) (x : List Out) : (s.setOutbox x).endpoint j = s.endpoint j := rfl
@[simp] theorem State.endpoint_setEngines (s : State) (j : Nat) (x : Tab Nat) : (s.setEngines x).endpoint j = s.endpoint j := rfl
@[simp] theorem State.endpoint_dropAccess (s : State) (k j : Nat) : (s.dropAccess k).endpoint j = s.endpoint j := rfl

/-! A change of one entry is a setter. -/

theorem State.modThread_eq (s : State) (k : Nat) (g : Thread → Thread) : s.modThread k g = s.setThread k (g (s.thread k)) := rfl
theorem State.modGang_eq (s : State) (k : Nat) (g : Gang → Gang) : s.modGang k g = s.setGang k (g (s.gang k)) := rfl
theorem State.modUnit_eq (s : State) (k : Nat) (g : Unit → Unit) : s.modUnit k g = s.setUnit k (g (s.unit k)) := rfl
theorem State.modCore_eq (s : State) (k : Nat) (g : Core → Core) : s.modCore k g = s.setCore k (g (s.core k)) := rfl
theorem State.modCluster_eq (s : State) (k : Nat) (g : Cluster → Cluster) : s.modCluster k g = s.setCluster k (g (s.cluster k)) := rfl
theorem State.modSlice_eq (s : State) (k : Nat) (g : Slice → Slice) : s.modSlice k g = s.setSlice k (g (s.slice k)) := rfl
theorem State.modPart_eq (s : State) (k : Nat) (g : Partition → Partition) : s.modPart k g = s.setPart k (g (s.part k)) := rfl
theorem State.modLaunch_eq (s : State) (k : Nat) (g : Launch → Launch) : s.modLaunch k g = s.setLaunch k (g (s.launch k)) := rfl
theorem State.modEndpoint_eq (s : State) (k : Nat) (g : Endpoint → Endpoint) : s.modEndpoint k g = s.setEndpoint k (g (s.endpoint k)) := rfl

theorem Thread.goTo_ready {x : Thread} (h : x.sched = .ready) (w : Sched) : x.goTo w = w := by simp [Thread.goTo, h]

theorem Thread.goTo_blocked {x : Thread} {b : Why} (h : x.sched = .blocked b) (w : Sched) : x.goTo w = w := by simp [Thread.goTo, h]

end Sys2Proof.Machine
end

