-- ==== Sys2Proof/Laws/Group.lean ====
section
/-! SUPPORT. What the issue of a group does to one thread: `runGroup_body` says it once for every instruction that runs through
`runGroup`, and the lemmas before it say what each shared operation leaves of a thread and of memory. -/

namespace Sys2Proof.Machine

/-- What a thread holds apart from its scheduling, which another thread's trap may end, and from what an issue of the same clk must
still see. -/
def Thread.body (x : Thread) : Thread := { x with sched := .ready, inTrap := false, turns := 0, aged := false, before := {} }

@[simp] theorem Thread.body_reg (x : Thread) (n : Nat) : x.body.reg n = x.reg n := rfl
@[simp] theorem Thread.body_regs (x : Thread) : x.body.regs = x.regs := rfl
@[simp] theorem Thread.body_full (x : Thread) (n : Nat) : x.body.full n = x.full n := rfl
@[simp] theorem Thread.body_pred (x : Thread) (n : Nat) : x.body.pred n = x.pred n := rfl
@[simp] theorem Thread.body_preds (x : Thread) : x.body.preds = x.preds := rfl
@[simp] theorem Thread.body_pending (x : Thread) (n : Nat) : x.body.pending n = x.pending n := rfl
@[simp] theorem Thread.body_pc (x : Thread) : x.body.pc = x.pc := rfl
@[simp] theorem Thread.body_mode (x : Thread) : x.body.mode = x.mode := rfl
@[simp] theorem Thread.body_cls (x : Thread) : x.body.cls = x.cls := rfl
@[simp] theorem Thread.body_trappc (x : Thread) : x.body.trappc = x.trappc := rfl
@[simp] theorem Thread.body_trapkind (x : Thread) : x.body.trapkind = x.trapkind := rfl
@[simp] theorem Thread.body_trapinfo (x : Thread) : x.body.trapinfo = x.trapinfo := rfl
@[simp] theorem Thread.body_shadow (x : Thread) : x.body.shadow = x.shadow := rfl
@[simp] theorem Thread.body_bt (x : Thread) : x.body.bt = x.bt := rfl
@[simp] theorem Thread.body_be (x : Thread) : x.body.be = x.be := rfl
@[simp] theorem Thread.body_bq (x : Thread) : x.body.bq = x.bq := rfl

theorem State.threads_thread {s s' : State} (h : s'.threads = s.threads) (t : Nat) : s'.thread t = s.thread t := by
  simp [State.thread, h]

/-! Memory is left alone. -/

theorem foldl_keeps {α β γ : Type} (F : β → α → β) (v : β → γ) (l : List α) (b : β)
    (h : ∀ b, ∀ a ∈ l, v (F b a) = v b) : v (l.foldl F b) = v b := by
  induction l generalizing b with
  | nil => rfl
  | cons a l ih => rw [List.foldl_cons, ih _ (fun b a ha => h b a (by simp [ha])), h b a (by simp)]

@[simp] theorem State.modThread_mem (s : State) (t : Nat) (g : Thread → Thread) : (s.modThread t g).mem = s.mem := rfl
@[simp] theorem State.modGang_mem (s : State) (k : Nat) (g : Gang → Gang) : (s.modGang k g).mem = s.mem := rfl
@[simp] theorem State.modUnit_mem (s : State) (k : Nat) (g : Unit → Unit) : (s.modUnit k g).mem = s.mem := rfl
@[simp] theorem State.modCore_mem (s : State) (k : Nat) (g : Core → Core) : (s.modCore k g).mem = s.mem := rfl
@[simp] theorem State.modLaunch_mem (s : State) (k : Nat) (g : Launch → Launch) : (s.modLaunch k g).mem = s.mem := rfl
@[simp] theorem State.dropRecords_mem (s : State) (g : Nat) : (s.dropRecords g).mem = s.mem := rfl
@[simp] theorem State.endGang_mem (s : State) (g : Nat) : (s.endGang g).mem = s.mem := rfl
@[simp] theorem State.block_mem (s : State) (t : Nat) (w : Why) : (s.block t w).mem = s.mem := rfl
@[simp] theorem State.unblock_mem (s : State) (t : Nat) : (s.unblock t).mem = s.mem := rfl

@[simp] theorem State.charge_mem (s : State) (t : Nat) : (s.charge t).mem = s.mem := rfl

@[simp] theorem State.exitThread_mem (s : State) (t : Nat) : (s.exitThread t).mem = s.mem := by
  simp only [State.exitThread]; split <;> simp

@[simp] theorem State.terminateGang_mem (s : State) (g : Nat) : (s.terminateGang g).mem = s.mem := by
  simp only [State.terminateGang, State.endGang_mem]
  exact foldl_keeps _ State.mem _ _ (fun _ _ _ => rfl)

@[simp] theorem State.terminateUnit_mem (s : State) (u : Nat) : (s.terminateUnit u).mem = s.mem := by
  simp only [State.terminateUnit, State.modUnit_mem]
  exact foldl_keeps _ State.mem _ _ (fun _ _ _ => by simp)

@[simp] theorem takeTrap_mem (s : State) (t kind : Nat) (ret : Pc) (info : Word) (l : Label) :
    (takeTrap s t kind ret info l).mem = s.mem := by
  unfold takeTrap
  split
  · simp
  · split <;> simp

@[simp] theorem deliver_mem (s : State) (t : Nat) (ret : Pc) (l : Label) : (deliver s t ret l).mem = s.mem := by
  simp [deliver]

@[simp] theorem issueTrap_mem (s : State) (t kind : Nat) (ret : Pc) (info : Word) (l : Label) :
    (issueTrap s t kind ret info l).mem = s.mem := by simp [issueTrap]

@[simp] theorem applyTrap_mem (op : Nat) (f : Fields) (s0 : State) (t kind : Nat) (info : Word) (after : Bool) (s : State) :
    (applyTrap op f s0 t kind info after s).mem = s.mem := by simp [applyTrap]

@[simp] theorem applyWr_mem (a b : Bool) (t : Nat) (s : State) (w : Wr) : (applyWr a b t s w).mem = s.mem := by
  cases w <;> simp only [applyWr] <;> (try split) <;> simp

@[simp] theorem applyWrs_mem (a b : Bool) (t : Nat) (s : State) (ws : List Wr) : (applyWrs a b t s ws).mem = s.mem :=
  foldl_keeps _ State.mem _ _ (fun _ _ _ => by simp)

@[simp] theorem State.countEvents_mem (s : State) (k : Nat) (es : List Nat) : (s.countEvents k es).mem = s.mem := by
  simp only [State.countEvents]; split <;> simp

@[simp] theorem State.addAccesses_mem (s : State) (l : List Access) : (s.addAccesses l).mem = s.mem :=
  foldl_keeps _ State.mem _ _ (fun _ _ _ => by simp [State.takeId])

@[simp] theorem retire_mem (s : State) (f : Fields) (y : Bool) (p : Pc) (t : Nat) : (retire s f y p t).mem = s.mem := rfl

@[simp] theorem Eff.act_mem (e : Eff) (a b : Bool) (t : Nat) (s : State) : (e.act a b t s).mem = s.mem := by
  simp only [Eff.act, State.countEvents_mem, State.setTiles]
  split <;> simp

@[simp] theorem Eff.leave_mem (e : Eff) (f : Fields) (a b : Bool) (t : Nat) (p : Pc) (s : State) : (e.leave f a b t p s).mem = s.mem := by
  simp [Eff.leave]

@[simp] theorem Eff.close_mem (e : Eff) (l : Label) (t : Nat) (p : Pc) (s : State) : (e.close l t p s).mem = s.mem := by
  simp only [Eff.close]
  split
  · simp
  · split
    · simp
    · split <;> simp

@[simp] theorem applyEff_mem (f : Fields) (l : Label) (a b c : Bool) (t : Nat) (s : State) (e : Eff) :
    (applyEff f l a b c t s e).mem = s.mem := by simp [applyEff]

/-- An instruction that runs for a group leaves every byte of memory as it was: stores are performed by their own events. -/
@[simp] theorem runGroup_mem (op : Nat) (f : Fields) (preds regs : List Nat) (eff : State → Nat → Res) (s : State) :
    (runGroup op f preds regs eff s).mem = s.mem := by
  simp only [runGroup]
  refine foldl_keeps _ State.mem _ _ (fun b a _ => ?_)
  simp only [applyRes]
  split <;> simp

/-! The latch is left alone. -/

@[simp] theorem State.modThread_issue (s : State) (t : Nat) (g : Thread → Thread) : (s.modThread t g).issue = s.issue := rfl
@[simp] theorem State.modGang_issue (s : State) (k : Nat) (g : Gang → Gang) : (s.modGang k g).issue = s.issue := rfl
@[simp] theorem State.modUnit_issue (s : State) (k : Nat) (g : Unit → Unit) : (s.modUnit k g).issue = s.issue := rfl
@[simp] theorem State.modCore_issue (s : State) (k : Nat) (g : Core → Core) : (s.modCore k g).issue = s.issue := rfl
@[simp] theorem State.modLaunch_issue (s : State) (k : Nat) (g : Launch → Launch) : (s.modLaunch k g).issue = s.issue := rfl
@[simp] theorem State.dropRecords_issue (s : State) (g : Nat) : (s.dropRecords g).issue = s.issue := rfl
@[simp] theorem State.endGang_issue (s : State) (g : Nat) : (s.endGang g).issue = s.issue := rfl
@[simp] theorem State.block_issue (s : State) (t : Nat) (w : Why) : (s.block t w).issue = s.issue := rfl
@[simp] theorem State.unblock_issue (s : State) (t : Nat) : (s.unblock t).issue = s.issue := rfl

@[simp] theorem State.charge_issue (s : State) (t : Nat) : (s.charge t).issue = s.issue := rfl

@[simp] theorem State.exitThread_issue (s : State) (t : Nat) : (s.exitThread t).issue = s.issue := by
  simp only [State.exitThread]; split <;> simp

@[simp] theorem State.terminateGang_issue (s : State) (g : Nat) : (s.terminateGang g).issue = s.issue := by
  simp only [State.terminateGang, State.endGang_issue]
  exact foldl_keeps _ State.issue _ _ (fun _ _ _ => rfl)

@[simp] theorem State.terminateUnit_issue (s : State) (u : Nat) : (s.terminateUnit u).issue = s.issue := by
  simp only [State.terminateUnit, State.modUnit_issue]
  exact foldl_keeps _ State.issue _ _ (fun _ _ _ => by simp)

@[simp] theorem takeTrap_issue (s : State) (t kind : Nat) (ret : Pc) (info : Word) (l : Label) :
    (takeTrap s t kind ret info l).issue = s.issue := by
  unfold takeTrap
  split
  · simp
  · split <;> simp

@[simp] theorem deliver_issue (s : State) (t : Nat) (ret : Pc) (l : Label) : (deliver s t ret l).issue = s.issue := by
  simp [deliver]

@[simp] theorem issueTrap_issue (s : State) (t kind : Nat) (ret : Pc) (info : Word) (l : Label) :
    (issueTrap s t kind ret info l).issue = s.issue := by simp [issueTrap]

@[simp] theorem applyTrap_issue (op : Nat) (f : Fields) (s0 : State) (t kind : Nat) (info : Word) (after : Bool) (s : State) :
    (applyTrap op f s0 t kind info after s).issue = s.issue := by simp [applyTrap]

@[simp] theorem applyWr_issue (a b : Bool) (t : Nat) (s : State) (w : Wr) : (applyWr a b t s w).issue = s.issue := by
  cases w <;> simp only [applyWr] <;> (try split) <;> simp

@[simp] theorem applyWrs_issue (a b : Bool) (t : Nat) (s : State) (ws : List Wr) : (applyWrs a b t s ws).issue = s.issue :=
  foldl_keeps _ State.issue _ _ (fun _ _ _ => by simp)

@[simp] theorem State.countEvents_issue (s : State) (k : Nat) (es : List Nat) : (s.countEvents k es).issue = s.issue := by
  simp only [State.countEvents]; split <;> simp

@[simp] theorem State.addAccesses_issue (s : State) (l : List Access) : (s.addAccesses l).issue = s.issue :=
  foldl_keeps _ State.issue _ _ (fun _ _ _ => by simp [State.takeId])

@[simp] theorem retire_issue (s : State) (f : Fields) (y : Bool) (p : Pc) (t : Nat) : (retire s f y p t).issue = s.issue := rfl

@[simp] theorem Eff.act_issue (e : Eff) (a b : Bool) (t : Nat) (s : State) : (e.act a b t s).issue = s.issue := by
  simp only [Eff.act, State.countEvents_issue, State.setTiles]
  split <;> simp

@[simp] theorem Eff.leave_issue (e : Eff) (f : Fields) (a b : Bool) (t : Nat) (p : Pc) (s : State) : (e.leave f a b t p s).issue = s.issue := by
  simp [Eff.leave]

@[simp] theorem Eff.close_issue (e : Eff) (l : Label) (t : Nat) (p : Pc) (s : State) : (e.close l t p s).issue = s.issue := by
  simp only [Eff.close]
  split
  · simp
  · split
    · simp
    · split <;> simp

@[simp] theorem applyEff_issue (f : Fields) (l : Label) (a b c : Bool) (t : Nat) (s : State) (e : Eff) :
    (applyEff f l a b c t s e).issue = s.issue := by simp [applyEff]

@[simp] theorem runGroup_issue (op : Nat) (f : Fields) (preds regs : List Nat) (eff : State → Nat → Res) (s : State) :
    (runGroup op f preds regs eff s).issue = s.issue := by
  simp only [runGroup]
  refine foldl_keeps _ State.issue _ _ (fun b a _ => ?_)
  simp only [applyRes]
  split <;> simp

/-! Another thread's issue leaves what a thread holds. -/

@[simp] theorem State.thread_modThread (s : State) (t u : Nat) (g : Thread → Thread) :
    (s.modThread u g).thread t = if t = u then g (s.thread t) else s.thread t := by
  simp only [State.modThread, State.thread_setThread]
  split
  · subst t; rfl
  · rfl

theorem State.thread_charge_ne (s : State) {t u : Nat} (h : t ≠ u) : (s.charge u).thread t = s.thread t := by simp [State.charge, h]

@[simp] theorem State.charge_regs (s : State) (t u : Nat) : ((s.charge t).thread u).regs = (s.thread u).regs := by
  simp only [State.charge, State.thread_modThread]; split <;> rfl
@[simp] theorem State.charge_empty (s : State) (t u : Nat) : ((s.charge t).thread u).empty = (s.thread u).empty := by
  simp only [State.charge, State.thread_modThread]; split <;> rfl
@[simp] theorem State.charge_preds (s : State) (t u : Nat) : ((s.charge t).thread u).preds = (s.thread u).preds := by
  simp only [State.charge, State.thread_modThread]; split <;> rfl
@[simp] theorem State.charge_pend (s : State) (t u : Nat) : ((s.charge t).thread u).pend = (s.thread u).pend := by
  simp only [State.charge, State.thread_modThread]; split <;> rfl
@[simp] theorem State.charge_inTrap (s : State) (t u : Nat) : ((s.charge t).thread u).inTrap = (s.thread u).inTrap := by
  simp only [State.charge, State.thread_modThread]; split <;> rfl
@[simp] theorem State.charge_sched (s : State) (t u : Nat) : ((s.charge t).thread u).sched = (s.thread u).sched := by
  simp only [State.charge, State.thread_modThread]; split <;> rfl

@[simp] theorem State.gang_charge (s : State) (t g : Nat) : (s.charge t).gang g = s.gang g := rfl

@[simp] theorem State.thread_modGang (s : State) (t k : Nat) (g : Gang → Gang) : (s.modGang k g).thread t = s.thread t := rfl
@[simp] theorem State.thread_modUnit (s : State) (t k : Nat) (g : Unit → Unit) : (s.modUnit k g).thread t = s.thread t := rfl
@[simp] theorem State.thread_modCore (s : State) (t k : Nat) (g : Core → Core) : (s.modCore k g).thread t = s.thread t := rfl
@[simp] theorem State.thread_modLaunch (s : State) (t k : Nat) (g : Launch → Launch) :
    (s.modLaunch k g).thread t = s.thread t := rfl
@[simp] theorem State.thread_dropRecords (s : State) (t g : Nat) : (s.dropRecords g).thread t = s.thread t := rfl
@[simp] theorem State.thread_endGang (s : State) (t g : Nat) : (s.endGang g).thread t = s.thread t := rfl

@[simp] theorem State.gang_modGang (s : State) (k j : Nat) (g : Gang → Gang) :
    (s.modGang k g).gang j = if j = k then g (s.gang j) else s.gang j := by
  simp only [State.modGang, State.gang_setGang]
  split
  · subst j; rfl
  · rfl

@[simp] theorem State.gang_modThread (s : State) (t k : Nat) (g : Thread → Thread) : (s.modThread t g).gang k = s.gang k := rfl
@[simp] theorem State.gang_modUnit (s : State) (t k : Nat) (g : Unit → Unit) : (s.modUnit t g).gang k = s.gang k := rfl
@[simp] theorem State.gang_modCore (s : State) (t k : Nat) (g : Core → Core) : (s.modCore t g).gang k = s.gang k := rfl
@[simp] theorem State.gang_modLaunch (s : State) (t k : Nat) (g : Launch → Launch) : (s.modLaunch t g).gang k = s.gang k := rfl
@[simp] theorem State.gang_dropRecords (s : State) (g k : Nat) : (s.dropRecords g).gang k = s.gang k := rfl

theorem State.thread_exitThread_ne (s : State) {t u : Nat} (h : t ≠ u) : (s.exitThread u).thread t = s.thread t := by
  simp only [State.exitThread]
  split <;> simp [h]

theorem State.terminateGang_body (s : State) (g t : Nat) : ((s.terminateGang g).thread t).body = (s.thread t).body := by
  simp only [State.terminateGang, State.thread_endGang]
  refine foldl_keeps _ (fun s => (State.thread s t).body) _ s (fun b a _ => ?_)
  simp only [State.thread_modThread]
  split <;> rfl

theorem State.terminateUnit_body (s : State) (u t : Nat) : ((s.terminateUnit u).thread t).body = (s.thread t).body := by
  simp only [State.terminateUnit, State.thread_modUnit]
  exact foldl_keeps _ (fun s => (State.thread s t).body) _ s (fun b a _ => State.terminateGang_body b a t)

theorem takeTrap_body_ne (s : State) {t u : Nat} (h : t ≠ u) (kind : Nat) (ret : Pc) (info : Word) (l : Label) :
    ((takeTrap s u kind ret info l).thread t).body = (s.thread t).body := by
  unfold takeTrap
  split
  · exact State.terminateUnit_body _ _ _
  · split
    · exact State.terminateUnit_body _ _ _
    · simp [h]

theorem applyTrap_body_ne (op : Nat) (f : Fields) (s0 s : State) {t u : Nat} (h : t ≠ u) (kind : Nat) (info : Word) (after : Bool) :
    ((applyTrap op f s0 u kind info after s).thread t).body = (s.thread t).body := by
  simp only [applyTrap, issueTrap, State.thread_modThread, if_neg h]
  rw [takeTrap_body_ne _ h, State.thread_charge_ne _ h]

theorem deliver_body_ne (s : State) {t u : Nat} (h : t ≠ u) (ret : Pc) (l : Label) :
    ((deliver s u ret l).thread t).body = (s.thread t).body := takeTrap_body_ne s h _ _ _ _

theorem applyWr_thread_ne (a b : Bool) {t u : Nat} (h : t ≠ u) (s : State) (w : Wr) :
    (applyWr a b u s w).thread t = s.thread t := by
  cases w <;> simp only [applyWr] <;> (try split) <;> simp [h]

theorem applyWrs_thread_ne (a b : Bool) {t u : Nat} (h : t ≠ u) (s : State) (ws : List Wr) :
    (applyWrs a b u s ws).thread t = s.thread t :=
  foldl_keeps _ (fun s => State.thread s t) _ _ (fun _ _ _ => applyWr_thread_ne a b h _ _)

@[simp] theorem State.thread_countEvents (s : State) (t k : Nat) (es : List Nat) : (s.countEvents k es).thread t = s.thread t := by
  simp only [State.countEvents]; split <;> simp

@[simp] theorem State.thread_addAccesses (s : State) (t : Nat) (l : List Access) : (s.addAccesses l).thread t = s.thread t :=
  foldl_keeps _ (fun s => State.thread s t) _ _ (fun _ _ _ => by simp [State.takeId])

theorem retire_thread_ne (s : State) (f : Fields) (y : Bool) (p : Pc) {t u : Nat} (h : t ≠ u) :
    (retire s f y p u).thread t = s.thread t := by simp [retire, State.thread_charge_ne, h]

theorem State.thread_block_ne (s : State) {t u : Nat} (h : t ≠ u) (w : Why) : (s.block u w).thread t = s.thread t := by
  simp [State.block, h]

theorem State.block_body (s : State) (t u : Nat) (w : Why) : ((s.block u w).thread t).body = (s.thread t).body := by
  simp only [State.block, State.thread_modThread]
  split <;> rfl

theorem Eff.act_thread_ne (e : Eff) (a b : Bool) {t u : Nat} (h : t ≠ u) (s : State) : (e.act a b u s).thread t = s.thread t := by
  simp only [Eff.act, State.thread_countEvents, State.setTiles]
  split <;> simp [applyWrs_thread_ne, h]

theorem Eff.leave_thread_ne (e : Eff) (f : Fields) (a b : Bool) {t u : Nat} (h : t ≠ u) (p : Pc) (s : State) :
    (e.leave f a b u p s).thread t = s.thread t := by
  simp [Eff.leave, retire_thread_ne, h]

theorem Eff.close_body_ne (e : Eff) (l : Label) {t u : Nat} (h : t ≠ u) (p : Pc) (s : State) :
    ((e.close l u p s).thread t).body = (s.thread t).body := by
  simp only [Eff.close]
  split
  · rw [State.thread_exitThread_ne _ h]
  · split
    · exact deliver_body_ne _ h _ _
    · split
      · rw [State.thread_block_ne _ h]
      · rfl

theorem applyEff_body_ne (f : Fields) (l : Label) (a b c : Bool) {t u : Nat} (h : t ≠ u) (s : State) (e : Eff) :
    ((applyEff f l a b c u s e).thread t).body = (s.thread t).body := by
  simp only [applyEff]
  rw [Eff.close_body_ne _ _ h, Eff.leave_thread_ne _ _ _ _ h, Eff.act_thread_ne _ _ _ h]

/-! What a thread's own issue leaves of it. -/

/-- A write as its thread sees it. -/
def Wr.onThread (x : Thread) : Wr → Thread
  | .reg r v _ => if r = 255 then x else (x.setReg r v).markFull r
  | .pred n b _ => if n < 7 then (x.setPred n b).setPend n false else x
  | _ => x

theorem Wr.onThread_body (x : Thread) (w : Wr) : (w.onThread x).body = w.onThread x.body := by
  cases w <;> simp only [Wr.onThread] <;> (try split) <;> (try rfl)
  all_goals simp only [Thread.setReg, Thread.setPred, Thread.setPend, Thread.markFull]; (repeat' split) <;> rfl

theorem Wr.foldl_body (ws : List Wr) {x y : Thread} (h : x.body = y.body) : (ws.foldl Wr.onThread x).body = (ws.foldl Wr.onThread y).body := by
  induction ws generalizing x y with
  | nil => exact h
  | cons w ws ih => exact ih (by rw [Wr.onThread_body, Wr.onThread_body, h])

/-- What is kept for issues of the same clk is no part of what a thread holds. -/
theorem Thread.keepReg_body (x : Thread) (clk n : Nat) : (x.keepReg clk n).body = x.body := rfl

theorem applyWr_body_self (a b : Bool) (t : Nat) (s : State) (w : Wr) :
    ((applyWr a b t s w).thread t).body = (w.onThread (s.thread t)).body := by
  cases w with
  | reg r x l =>
    simp only [applyWr, Wr.onThread]
    split
    · rfl
    · simp only [State.thread_modGang, State.thread_modThread, if_true, Thread.setReg, Thread.markFull]
      repeat' split
      all_goals rfl
  | _ => simp only [applyWr, Wr.onThread]; (try split) <;> simp

theorem applyWrs_body_self (a b : Bool) (t : Nat) (s : State) (ws : List Wr) :
    ((applyWrs a b t s ws).thread t).body = (ws.foldl Wr.onThread (s.thread t)).body := by
  induction ws generalizing s with
  | nil => rfl
  | cons w ws ih => rw [applyWrs, List.foldl_cons, ← applyWrs, ih, List.foldl_cons]; exact Wr.foldl_body ws (applyWr_body_self a b t s w)

/-- The thread after what an effect changes besides its writes. -/
def Eff.changed (e : Eff) (x : Thread) : Thread :=
  let x := e.empties.foldl Thread.markEmpty x
  let x := e.pend.foldl (fun x n => x.setPend n true) x
  let x := x.setBudget (e.budget.getD x.budget)
  { x with cls := e.cls.getD x.cls, mode := e.mode.getD x.mode, highShadow := e.high.getD x.highShadow,
           trappc := e.trappc.getD x.trappc }

/-- The thread after its writes and the other changes of an effect, before it moves on. -/
def Eff.onThread (e : Eff) (x : Thread) : Thread := e.changed (e.writes.foldl Wr.onThread x)

theorem Eff.alter_body (e : Eff) (clk : Nat) (x : Thread) : (e.alter clk x).body = (e.changed x).body := by
  simp only [Eff.alter, Eff.changed]
  cases e.cls <;> rfl

/-- The thread moved past its instruction: the fields that programs see. -/
structure Thread.Moved (x y : Thread) (next : Pc) : Prop where
  pc : y.pc = next
  regs : y.regs = x.regs
  empty : y.empty = x.empty
  preds : y.preds = x.preds
  pend : y.pend = x.pend
  mode : y.mode = x.mode
  cls : y.cls = x.cls
  highShadow : y.highShadow = x.highShadow
  trapkind : y.trapkind = x.trapkind
  trappc : y.trappc = x.trappc
  trapinfo : y.trapinfo = x.trapinfo
  shadow : y.shadow = x.shadow
  budget : y.budget = x.budget

theorem retire_moved (s : State) (f : Fields) (y : Bool) (p : Pc) (t : Nat) :
    Thread.Moved (s.thread t) ((retire s f y p t).thread t) p := by
  constructor <;> simp [retire, Thread.budget]
  all_goals simp [State.charge]

theorem Thread.Moved.of_body {x y z : Thread} {p : Pc} (h : Thread.Moved x y p) (hb : z.body = y.body) :
    Thread.Moved x z p := by
  have e : ∀ {β : Type} (g : Thread → β), (∀ w : Thread, g w.body = g w) → g z = g y := by
    intro β g hg
    rw [← hg z, ← hg y, hb]
  exact ⟨(e Thread.pc (fun _ => rfl)).trans h.pc, (e Thread.regs (fun _ => rfl)).trans h.regs,
    (e Thread.empty (fun _ => rfl)).trans h.empty, (e Thread.preds (fun _ => rfl)).trans h.preds,
    (e Thread.pend (fun _ => rfl)).trans h.pend, (e Thread.mode (fun _ => rfl)).trans h.mode,
    (e Thread.cls (fun _ => rfl)).trans h.cls, (e Thread.highShadow (fun _ => rfl)).trans h.highShadow,
    (e Thread.trapkind (fun _ => rfl)).trans h.trapkind, (e Thread.trappc (fun _ => rfl)).trans h.trappc,
    (e Thread.trapinfo (fun _ => rfl)).trans h.trapinfo, (e Thread.shadow (fun _ => rfl)).trans h.shadow,
    (e Thread.budget (fun _ => rfl)).trans h.budget⟩

theorem Eff.changed_body (e : Eff) {x y : Thread} (h : x.body = y.body) : (e.changed x).body = (e.changed y).body := by
  have h2 : ∀ (rs : List Nat) (x y : Thread), x.body = y.body →
      (rs.foldl Thread.markEmpty x).body = (rs.foldl Thread.markEmpty y).body := by
    intro rs
    induction rs with
    | nil => exact fun _ _ h => h
    | cons r rs ih =>
      have hb : ∀ z : Thread, (z.markEmpty r).body = z.body.markEmpty r := by
        intro z; simp only [Thread.markEmpty]; split <;> rfl
      exact fun x y h => ih _ _ (by rw [hb, hb, h])
  have h3 : ∀ (rs : List Nat) (x y : Thread), x.body = y.body →
      (rs.foldl (fun x n => x.setPend n true) x).body = (rs.foldl (fun x n => x.setPend n true) y).body := by
    intro rs
    induction rs with
    | nil => exact fun _ _ h => h
    | cons r rs ih =>
      have hb : ∀ z : Thread, (z.setPend r true).body = z.body.setPend r true := by
        intro z; simp only [Thread.setPend]; split <;> rfl
      exact fun x y h => ih _ _ (by simp only; rw [hb, hb, h])
  have h4 : ∀ x y : Thread, x.body = y.body →
      ({ (x.setBudget (e.budget.getD x.budget)) with
          cls := e.cls.getD x.cls, mode := e.mode.getD x.mode, highShadow := e.high.getD x.highShadow,
          trappc := e.trappc.getD x.trappc } : Thread).body =
      ({ (y.setBudget (e.budget.getD y.budget)) with
          cls := e.cls.getD y.cls, mode := e.mode.getD y.mode, highShadow := e.high.getD y.highShadow,
          trappc := e.trappc.getD y.trappc } : Thread).body := by
    intro x y h
    have := congrArg (fun z : Thread => ({ (z.setBudget (e.budget.getD z.budget)) with
          cls := e.cls.getD z.cls, mode := e.mode.getD z.mode, highShadow := e.high.getD z.highShadow,
          trappc := e.trappc.getD z.trappc } : Thread)) h
    exact this
  exact h4 _ _ (h3 _ _ _ (h2 _ _ _ h))

theorem Eff.onThread_congr (e : Eff) {x y : Thread} (h : x.body = y.body) : (e.onThread x).body = (e.onThread y).body :=
  e.changed_body (Wr.foldl_body _ h)

theorem Eff.act_body (e : Eff) (a b : Bool) (t : Nat) (s : State) : ((e.act a b t s).thread t).body = (e.onThread (s.thread t)).body := by
  have h : ((e.act a b t s).thread t) = e.alter (s.clkOf t) ((applyWrs a b t s e.writes).thread t) := by
    simp only [Eff.act, State.thread_countEvents, State.setTiles]
    split <;> simp
  rw [h, Eff.alter_body]
  exact e.changed_body (applyWrs_body_self a b t s e.writes)

theorem Eff.leave_moved (e : Eff) (f : Fields) (a b : Bool) (t : Nat) (p : Pc) (s : State) :
    Thread.Moved (s.thread t) ((e.leave f a b t p s).thread t) p := by
  have h := retire_moved (s.addAccesses (e.accesses.map (stampAccess s t (a && !b)))) f (f.yld || e.yields) p t
  rwa [State.thread_addAccesses] at h

theorem Eff.close_body (e : Eff) (l : Label) (t : Nat) (p : Pc) (s : State) (hx : e.exits = false) (hc : e.check = false) (u : Nat) :
    ((e.close l t p s).thread u).body = (s.thread u).body := by
  simp only [Eff.close, hx, hc, Bool.false_and, Bool.false_eq_true, if_false]
  split
  · exact State.block_body _ _ _ _
  · rfl

theorem Thread.Moved.of_body_left {x x' y : Thread} {p : Pc} (h : Thread.Moved x y p) (hb : x.body = x'.body) :
    Thread.Moved x' y p := by
  have e : ∀ {β : Type} (g : Thread → β), (∀ w : Thread, g w.body = g w) → g x = g x' := by
    intro β g hg
    rw [← hg x, ← hg x', hb]
  exact ⟨h.pc, h.regs.trans (e Thread.regs (fun _ => rfl)), h.empty.trans (e Thread.empty (fun _ => rfl)),
    h.preds.trans (e Thread.preds (fun _ => rfl)), h.pend.trans (e Thread.pend (fun _ => rfl)),
    h.mode.trans (e Thread.mode (fun _ => rfl)), h.cls.trans (e Thread.cls (fun _ => rfl)),
    h.highShadow.trans (e Thread.highShadow (fun _ => rfl)), h.trapkind.trans (e Thread.trapkind (fun _ => rfl)),
    h.trappc.trans (e Thread.trappc (fun _ => rfl)), h.trapinfo.trans (e Thread.trapinfo (fun _ => rfl)),
    h.shadow.trans (e Thread.shadow (fun _ => rfl)), h.budget.trans (e Thread.budget (fun _ => rfl))⟩

/-- A thread's own issue, where it neither exits nor delivers a record: its effect, then the next instruction. -/
theorem applyEff_moved (f : Fields) (l : Label) (a b c : Bool) (t : Nat) (s : State) (e : Eff) (hx : e.exits = false)
    (hc : e.check = false) :
    Thread.Moved (e.onThread (s.thread t)) ((applyEff f l a b c t s e).thread t) (e.next.getD (nextPc s.pc)) := by
  simp only [applyEff]
  exact ((e.leave_moved f a c t _ _).of_body (e.close_body l t _ _ hx hc t)).of_body_left (e.act_body a b t s)

/-! The group. -/

/-- An effect whose gang-uniform writes are dropped does to its thread what it does with them. -/
theorem uniOnce_onThread (serial : Nat) (c : List (Nat × List Wr)) (t : Nat) (e : Eff) (x : Thread) :
    (uniOnce serial c t e).onThread x = e.onThread x := by
  simp only [uniOnce]
  split
  · have : ∀ (ws : List Wr) (x : Thread), (ws.filter (fun w => !w.isUni)).foldl Wr.onThread x = ws.foldl Wr.onThread x := by
      intro ws
      induction ws with
      | nil => exact fun _ => rfl
      | cons w ws ih =>
        intro x
        have hd : ∀ z : Thread, z = (Wr.onThread z w) ∨ w.isUni = false := by
          intro z; cases w <;> simp [Wr.isUni, Wr.onThread]
        rw [List.filter_cons, List.foldl_cons]
        split
        · rw [List.foldl_cons, ih]
        · rcases hd x with h | h
          · rw [ih, ← h]
          · simp_all
    simp [Eff.onThread, Eff.changed, this]
  · rfl

@[simp] theorem uniOnce_exits (serial : Nat) (c : List (Nat × List Wr)) (t : Nat) (e : Eff) :
    (uniOnce serial c t e).exits = e.exits := by simp only [uniOnce]; split <;> rfl
@[simp] theorem uniOnce_check (serial : Nat) (c : List (Nat × List Wr)) (t : Nat) (e : Eff) :
    (uniOnce serial c t e).check = e.check := by simp only [uniOnce]; split <;> rfl
@[simp] theorem uniOnce_next (serial : Nat) (c : List (Nat × List Wr)) (t : Nat) (e : Eff) :
    (uniOnce serial c t e).next = e.next := by simp only [uniOnce]; split <;> rfl

theorem applyRes_body_ne {t u : Nat} (h : t ≠ u) (op : Nat) (f : Fields) (s : State) (l : List (Nat × Option Res)) (b : State) (r : Option Res) :
    ((applyRes op f s l b (u, r)).thread t).body = (b.thread t).body := by
  simp only [applyRes]
  split
  · rw [retire_thread_ne _ _ _ _ h]
  · exact State.block_body _ _ _ _
  · exact applyTrap_body_ne _ _ _ _ h _ _ _
  · exact applyEff_body_ne _ _ _ _ _ h _ _

theorem applyRes_issue (op : Nat) (f : Fields) (s : State) (l : List (Nat × Option Res)) (b : State) (x : Nat × Option Res) :
    (applyRes op f s l b x).issue = b.issue := by
  simp only [applyRes]
  split <;> simp

/-- The issue of a group for one of its threads that executes: the thread's effect, then its next instruction; the issue of the
others leaves what it holds. -/
theorem runGroup_go {op : Nat} {f : Fields} {preds regs : List Nat} {eff : State → Nat → Res} {s : State} {t : Nat} {e : Eff}
    (hm : t ∈ s.group) (hn : s.group.Nodup) (hr : (s.thread t).sched = .ready) (ha : checkIn s op f preds regs t = .run)
    (he : eff s t = .go e) (hx : e.exits = false) (hc : e.check = false) :
    Thread.Moved (e.onThread (s.thread t)) ((runGroup op f preds regs eff s).thread t) (e.next.getD (nextPc s.pc)) := by
  have hm' : t ∈ s.readyGroup := List.mem_filter.mpr ⟨hm, by simp [hr]⟩
  obtain ⟨l1, l2, hl⟩ := List.append_of_mem hm'
  have hn' : (l1 ++ t :: l2).Nodup := hl ▸ hn.filter _
  have ht1 : t ∉ l1 := fun h => (List.nodup_append.mp hn').2.2 t h t (by simp) rfl
  have ht2 : t ∉ l2 := (List.nodup_cons.mp (List.nodup_append.mp hn').2.1).1
  have hj : judgeOne s op f preds regs eff t = some (.go e) := by simp [judgeOne, ha, he]
  simp only [runGroup]
  generalize hL : judge s op f preds regs eff = L
  rw [judge, hl, List.map_append, List.map_cons, hj] at hL
  have other : ∀ (l : List Nat) (b : State), t ∉ l →
      (((l.map (fun t => (t, judgeOne s op f preds regs eff t))).foldl (applyRes op f s L) b).thread t).body =
        (b.thread t).body := by
    intro l b hb
    refine foldl_keeps _ (fun s => (State.thread s t).body) _ b (fun b a h => ?_)
    obtain ⟨u, hu, rfl⟩ := List.mem_map.mp h
    exact applyRes_body_ne (show t ≠ u from fun h => hb (by rw [h]; exact hu)) _ _ _ _ _ _
  have hf : L.foldl (applyRes op f s L) s =
      (l2.map (fun t => (t, judgeOne s op f preds regs eff t))).foldl (applyRes op f s L)
        (applyRes op f s L ((l1.map (fun t => (t, judgeOne s op f preds regs eff t))).foldl (applyRes op f s L) s)
          (t, some (.go e))) := by
    conv => lhs; arg 3; rw [← hL]
    rw [List.foldl_append, List.foldl_cons]
  have hb := other l1 s ht1
  have hi : ((l1.map (fun t => (t, judgeOne s op f preds regs eff t))).foldl (applyRes op f s L) s).issue = s.issue :=
    foldl_keeps _ State.issue _ _ (fun b a _ => applyRes_issue _ _ _ _ _ _)
  rw [hf]
  generalize (l1.map (fun t => (t, judgeOne s op f preds regs eff t))).foldl (applyRes op f s L) s = b at hb hi
  refine Thread.Moved.of_body ?_ (other l2 _ ht2)
  simp only [applyRes]
  have hmv := applyEff_moved f (labelOf s op f t) (fullGang s (gangOf t) (goers L)) (isFirst (earlyWriters L) t)
    ((earlyWriters L).any (fun u => gangOf u == gangOf t)) t b (uniOnce s.issue.serial (uniWrites L (gangOf t)) t e)
    (by simpa using hx) (by simpa using hc)
  rw [uniOnce_onThread, uniOnce_next, show b.pc = s.pc by simp [State.pc, hi]] at hmv
  exact hmv.of_body_left (e.onThread_congr hb)

/-! Gangs. -/

/-- What a program sees of a gang's own registers: gang-uniform registers with their labels, buffer records, the partition register. -/
structure Gang.Own where
  sregs : Tab Word
  slabel : Tab Label
  brecs : Tab (BitVec 128)
  part : BitVec 3

def Gang.own (g : Gang) : Gang.Own := { sregs := g.sregs, slabel := g.slabel, brecs := g.brecs, part := g.part }

/-- A write as its gang sees it. -/
def Wr.onOwn (x : Gang.Own) : Wr → Gang.Own
  | .uni r v l => if r = 127 then x else { x with sregs := tabSetD 0 x.sregs r v, slabel := tabSetD 0 x.slabel r l }
  | .rcd r v _ => { x with brecs := tabSetD 0 x.brecs r v }
  | _ => x

@[simp] theorem Gang.own_widen (g : Gang) (l : Label) : (g.widen l).own = g.own := rfl

theorem State.own_endGang (s : State) (k g : Nat) : ((s.endGang k).gang g).own = (s.gang g).own := by
  simp only [State.endGang, State.gang_modGang]
  split <;> simp [Gang.own]

theorem State.own_exitThread (s : State) (t g : Nat) : ((s.exitThread t).gang g).own = (s.gang g).own := by
  simp only [State.exitThread]
  split
  · rw [State.own_endGang]; simp
  · simp

theorem State.own_terminateGang (s : State) (k g : Nat) : ((s.terminateGang k).gang g).own = (s.gang g).own := by
  simp only [State.terminateGang, State.own_endGang]
  exact foldl_keeps _ (fun s => (State.gang s g).own) _ s (fun _ _ _ => by simp)

theorem State.own_terminateUnit (s : State) (u g : Nat) : ((s.terminateUnit u).gang g).own = (s.gang g).own := by
  simp only [State.terminateUnit, State.gang_modUnit]
  exact foldl_keeps _ (fun s => (State.gang s g).own) _ s (fun b a _ => State.own_terminateGang b a g)

theorem own_takeTrap (s : State) (t kind : Nat) (ret : Pc) (info : Word) (l : Label) (g : Nat) :
    ((takeTrap s t kind ret info l).gang g).own = (s.gang g).own := by
  unfold takeTrap
  split
  · exact State.own_terminateUnit _ _ _
  · split
    · exact State.own_terminateUnit _ _ _
    · simp only [State.gang_modGang]
      split <;> simp

theorem own_deliver (s : State) (t : Nat) (ret : Pc) (l : Label) (g : Nat) :
    ((deliver s t ret l).gang g).own = (s.gang g).own := own_takeTrap _ _ _ _ _ _ _

theorem Gang.own_setTile (g : Gang) (n : Nat) (l : Label) : (g.setTile n l).own = g.own := by
  simp only [Gang.setTile]; split <;> rfl
theorem Gang.own_setPredLabel (g : Gang) (n : Nat) (l : Label) : (g.setPredLabel n l).own = g.own := by
  simp only [Gang.setPredLabel]; split <;> rfl
theorem Gang.own_setRecLabel (g : Gang) (n : Nat) (l : Label) : (g.setRecLabel n l).own = g.own := rfl

theorem applyWr_own (a b : Bool) (t : Nat) (s : State) (w : Wr) (g : Nat) :
    ((applyWr a b t s w).gang g).own = if g = gangOf t then w.onOwn (s.gang g).own else (s.gang g).own := by
  cases w with
  | reg r x l =>
    simp only [applyWr, Wr.onOwn]
    split
    · split <;> rfl
    · simp only [State.gang_modGang, State.gang_modThread]
      split <;> simp [Gang.own_setTile]
  | uni r x l =>
    simp only [applyWr, Wr.onOwn, State.gang_modGang]
    split
    · simp only [Gang.setSregLabel, Gang.setSreg]
      split <;> rfl
    · rfl
  | rcd r x l =>
    simp only [applyWr, Wr.onOwn, State.gang_modGang]
    split <;> rfl
  | pred n v l =>
    simp only [applyWr, Wr.onOwn]
    split
    · simp only [State.gang_modGang, State.gang_modThread]
      split <;> simp [Gang.own_setPredLabel]
    · split <;> rfl
  | ctl l =>
    simp only [applyWr, Wr.onOwn, State.gang_modGang]
    split <;> simp

theorem applyWrs_own (a b : Bool) (t : Nat) (s : State) (ws : List Wr) (g : Nat) :
    ((applyWrs a b t s ws).gang g).own = if g = gangOf t then ws.foldl Wr.onOwn (s.gang g).own else (s.gang g).own := by
  induction ws generalizing s with
  | nil => simp [applyWrs]
  | cons w ws ih =>
    rw [applyWrs, List.foldl_cons, ← applyWrs, ih, applyWr_own]
    split <;> rfl

@[simp] theorem State.gang_countEvents (s : State) (g k : Nat) (es : List Nat) : (s.countEvents k es).gang g = s.gang g := by
  simp only [State.countEvents]; split <;> simp

@[simp] theorem State.gang_addAccesses (s : State) (g : Nat) (l : List Access) : (s.addAccesses l).gang g = s.gang g :=
  foldl_keeps _ (fun s => State.gang s g) _ _ (fun _ _ _ => by simp [State.takeId])

@[simp] theorem State.gang_block (s : State) (t : Nat) (w : Why) (g : Nat) : (s.block t w).gang g = s.gang g := rfl
@[simp] theorem State.gang_retire (s : State) (f : Fields) (y : Bool) (p : Pc) (t g : Nat) : (retire s f y p t).gang g = s.gang g := rfl

/-- An effect as its gang sees it. -/
def Eff.onOwn (e : Eff) (x : Gang.Own) : Gang.Own :=
  let x := e.writes.foldl Wr.onOwn x
  { x with part := e.part.getD x.part }

theorem Eff.act_own (e : Eff) (a b : Bool) (t : Nat) (s : State) (g : Nat) :
    ((e.act a b t s).gang g).own = if g = gangOf t then e.onOwn (s.gang g).own else (s.gang g).own := by
  have hw := applyWrs_own a b t s e.writes g
  simp only [Eff.act, State.gang_countEvents, State.setTiles]
  cases hp : e.part with
  | none =>
    simp only [State.gang_modThread, hw, Eff.onOwn, hp]
    split <;> rfl
  | some p =>
    simp only [State.gang_modGang, State.gang_modThread, Eff.onOwn, hp]
    by_cases hg : g = gangOf t
    · subst hg
      simp only [if_true] at hw ⊢
      rw [← hw]
      rfl
    · simp only [hg, if_false] at hw ⊢
      exact hw

theorem Eff.close_own (e : Eff) (l : Label) (t : Nat) (p : Pc) (s : State) (g : Nat) : ((e.close l t p s).gang g).own = (s.gang g).own := by
  simp only [Eff.close]
  split
  · rw [State.own_exitThread]
  · split
    · rw [own_deliver]
    · split <;> simp

@[simp] theorem Eff.leave_gang (e : Eff) (f : Fields) (a b : Bool) (t : Nat) (p : Pc) (s : State) (g : Nat) :
    (e.leave f a b t p s).gang g = s.gang g := by simp [Eff.leave]

theorem applyEff_own (f : Fields) (l : Label) (a b c : Bool) (t : Nat) (s : State) (e : Eff) (g : Nat) :
    ((applyEff f l a b c t s e).gang g).own = if g = gangOf t then e.onOwn (s.gang g).own else (s.gang g).own := by
  simp only [applyEff, Eff.close_own, Eff.leave_gang, Eff.act_own]

theorem applyRes_own (op : Nat) (f : Fields) (s : State) (l : List (Nat × Option Res)) (b : State) (x : Nat × Option Res) (g : Nat) :
    ((applyRes op f s l b x).gang g).own =
      match x.2 with
      | some (.go e) => if g = gangOf x.1 then (uniOnce s.issue.serial (uniWrites l (gangOf x.1)) x.1 e).onOwn (b.gang g).own
          else (b.gang g).own
      | _ => (b.gang g).own := by
  simp only [applyRes]
  split
  · simp_all
  · simp_all
  · simp_all [applyTrap, issueTrap, own_takeTrap]
  · rename_i e he
    simp only [he]
    exact applyEff_own _ _ _ _ _ _ _ _ _

/-! The frame of a group's instruction, for what every effect of the group leaves alone. -/

theorem runGroup_own (op : Nat) (f : Fields) (preds regs : List Nat) (eff : State → Nat → Res) (s : State) (g : Nat)
    {β : Type} (v : Gang.Own → β) (h : ∀ u e, eff s u = .go e → ∀ c x, v ((uniOnce s.issue.serial c u e).onOwn x) = v x) :
    v ((runGroup op f preds regs eff s).gang g).own = v (s.gang g).own := by
  simp only [runGroup]
  refine foldl_keeps _ (fun s => v (State.gang s g).own) _ s (fun b a ha => ?_)
  rw [applyRes_own]
  obtain ⟨u, _, rfl⟩ := List.mem_map.mp ha
  simp only
  split
  · rename_i e he
    split
    · refine h u e ?_ _ _
      simp only [judgeOne] at he
      split at he <;> simp_all
    · rfl
  · rfl

/-- Writes of an effect of which none is left for the gang. -/
theorem uniOnce_writes_sub (serial : Nat) (c : List (Nat × List Wr)) (t : Nat) (e : Eff) :
    ∀ w ∈ (uniOnce serial c t e).writes, w ∈ e.writes := by
  simp only [uniOnce]
  split
  · simp only [List.mem_filter]; exact fun w h => h.1
  · exact fun w h => h

theorem Eff.onOwn_sregs {e : Eff} {r : Nat} (h : ∀ w ∈ e.writes, ∀ x l, w ≠ .uni r x l) (x : Gang.Own) :
    tabGetD 0 (e.onOwn x).sregs r = tabGetD 0 x.sregs r := by
  simp only [Eff.onOwn]
  refine foldl_keeps _ (fun x : Gang.Own => tabGetD 0 x.sregs r) _ x (fun b w hw => ?_)
  cases w with
  | uni k v l =>
    have : r ≠ k := fun hk => h _ hw v l (by rw [hk])
    simp only [Wr.onOwn]
    split <;> simp [this]
  | _ => rfl

theorem Eff.onOwn_brecs {e : Eff} {r : Nat} (h : ∀ w ∈ e.writes, ∀ x l, w ≠ .rcd r x l) (x : Gang.Own) :
    tabGetD 0 (e.onOwn x).brecs r = tabGetD 0 x.brecs r := by
  simp only [Eff.onOwn]
  refine foldl_keeps _ (fun x : Gang.Own => tabGetD 0 x.brecs r) _ x (fun b w hw => ?_)
  cases w with
  | rcd k v l =>
    have : r ≠ k := fun hk => h _ hw v l (by rw [hk])
    simp [Wr.onOwn, this]
  | uni k v l => simp only [Wr.onOwn]; split <;> rfl
  | _ => rfl

theorem Wr.onOwn_part (ws : List Wr) (x : Gang.Own) : (ws.foldl Wr.onOwn x).part = x.part := by
  refine foldl_keeps _ Gang.Own.part _ x (fun b w _ => ?_)
  cases w <;> (simp only [Wr.onOwn]; try split) <;> rfl

/-- What a group's instruction leaves of every gang: the gang-uniform registers and the records that no effect writes, and the
partition register where no effect changes it. -/
theorem runGroup_gang (op : Nat) (f : Fields) (preds regs : List Nat) (eff : State → Nat → Res) (s : State) (us bs : List Nat)
    (hu : ∀ u e, eff s u = .go e → ∀ w ∈ e.writes, ∀ r x l, w = .uni r x l → r ∈ us)
    (hb : ∀ u e, eff s u = .go e → ∀ w ∈ e.writes, ∀ r x l, w = .rcd r x l → r ∈ bs)
    (hp : ∀ u e, eff s u = .go e → e.part = none) (g : Nat) :
    (∀ r, r ∉ us → ((runGroup op f preds regs eff s).gang g).sreg r = (s.gang g).sreg r) ∧
    (∀ r, r ∉ bs → tabGetD 0 ((runGroup op f preds regs eff s).gang g).brecs r = tabGetD 0 (s.gang g).brecs r) ∧
    ((runGroup op f preds regs eff s).gang g).part = (s.gang g).part := by
  refine ⟨fun r hr => ?_, fun r hr => ?_, ?_⟩
  · have := runGroup_own op f preds regs eff s g (fun x => tabGetD 0 x.sregs r) (fun u e he c x =>
      Eff.onOwn_sregs (fun w hw y l hwy => hr (hu u e he w (uniOnce_writes_sub _ _ _ _ w hw) r y l hwy)) x)
    simp only [Gang.sreg]
    split
    · rfl
    · exact this
  · exact runGroup_own op f preds regs eff s g (fun x => tabGetD 0 x.brecs r) (fun u e he c x =>
      Eff.onOwn_brecs (fun w hw y l hwy => hr (hb u e he w (uniOnce_writes_sub _ _ _ _ w hw) r y l hwy)) x)
  · refine runGroup_own op f preds regs eff s g Gang.Own.part (fun u e he c x => ?_)
    have : (uniOnce s.issue.serial c u e).part = none := by
      simp only [uniOnce]; split <;> exact hp u e he
    simp [Eff.onOwn, this, Wr.onOwn_part]

end Sys2Proof.Machine
end

