-- ==== Sys2Proof/Laws/Labels.lean ====
section
/-! SUPPORT. What the issue of a group leaves of labels and of the accesses in flight. -/

namespace Sys2Proof.Machine

/-! The frame of a gang's labels. -/

/-- Every label of a gang outside the registers `ds`, the predicates `ps`, the gang-uniform registers `us` and the records `bs` stays, and
its control label does not narrow. -/
structure Gang.LabelFrame (ds ps us bs : List Nat) (x y : Gang) : Prop where
  tile : ∀ r, r ∉ ds → y.tileLabel r = x.tileLabel r
  pred : ∀ n, n ∉ ps → y.predLabel n = x.predLabel n
  sreg : ∀ r, r ∉ us → y.sregLabel r = x.sregLabel r
  record : ∀ r, r ∉ bs → tabGetD 0 y.blabel r = tabGetD 0 x.blabel r
  control : ∀ i, x.ctl.getLsbD i = true → y.ctl.getLsbD i = true

theorem Gang.LabelFrame.refl (ds ps us bs : List Nat) (x : Gang) : Gang.LabelFrame ds ps us bs x x :=
  ⟨fun _ _ => rfl, fun _ _ => rfl, fun _ _ => rfl, fun _ _ => rfl, fun _ h => h⟩

theorem Gang.LabelFrame.trans {ds ps us bs : List Nat} {x y z : Gang} (h : Gang.LabelFrame ds ps us bs x y)
    (k : Gang.LabelFrame ds ps us bs y z) : Gang.LabelFrame ds ps us bs x z :=
  ⟨fun r hr => (k.tile r hr).trans (h.tile r hr), fun r hr => (k.pred r hr).trans (h.pred r hr),
    fun r hr => (k.sreg r hr).trans (h.sreg r hr), fun r hr => (k.record r hr).trans (h.record r hr),
    fun i hi => k.control i (h.control i hi)⟩

/-- Gangs that hold the same labels. -/
theorem Gang.LabelFrame.of_eq {ds ps us bs : List Nat} {x y : Gang} (ht : y.tile = x.tile) (hp : y.plabel = x.plabel)
    (hs : y.slabel = x.slabel) (hb : y.blabel = x.blabel) (hc : y.ctl = x.ctl) : Gang.LabelFrame ds ps us bs x y := by
  refine ⟨fun r _ => ?_, fun r _ => ?_, fun r _ => ?_, fun r _ => ?_, fun i hi => ?_⟩
  · simp [Gang.tileLabel, ht]
  · simp [Gang.predLabel, hp]
  · simp [Gang.sregLabel, hs]
  · rw [hb]
  · rw [hc]; exact hi

theorem Gang.labelFrame_widen (ds ps us bs : List Nat) (x : Gang) (l : Label) : Gang.LabelFrame ds ps us bs x (x.widen l) :=
  ⟨fun _ _ => rfl, fun _ _ => rfl, fun _ _ => rfl, fun _ _ => rfl, fun i hi => by simp [Gang.widen, hi]⟩

theorem Gang.labelFrame_setTile {ds : List Nat} (ps us bs : List Nat) (x : Gang) {n : Nat} (l : Label) (h : n ∈ ds) :
    Gang.LabelFrame ds ps us bs x (x.setTile n l) := by
  simp only [Gang.setTile]
  split
  · exact .refl _ _ _ _ _
  · refine ⟨fun r hr => ?_, fun _ _ => rfl, fun _ _ => rfl, fun _ _ => rfl, fun _ h => h⟩
    have : r ≠ n := fun e => hr (e ▸ h)
    simp [Gang.tileLabel, this]

theorem Gang.labelFrame_setPredLabel {ps : List Nat} (ds us bs : List Nat) (x : Gang) {n : Nat} (l : Label) (h : n ∈ ps) :
    Gang.LabelFrame ds ps us bs x (x.setPredLabel n l) := by
  simp only [Gang.setPredLabel]
  split
  · refine ⟨fun _ _ => rfl, fun r hr => ?_, fun _ _ => rfl, fun _ _ => rfl, fun _ h => h⟩
    have : r ≠ n := fun e => hr (e ▸ h)
    simp [Gang.predLabel, this]
  · exact .refl _ _ _ _ _

theorem Gang.labelFrame_setSregLabel {us : List Nat} (ds ps bs : List Nat) (x : Gang) {n : Nat} (l : Label) (h : n ∈ us) :
    Gang.LabelFrame ds ps us bs x (x.setSregLabel n l) := by
  simp only [Gang.setSregLabel]
  split
  · exact .refl _ _ _ _ _
  · refine ⟨fun _ _ => rfl, fun _ _ => rfl, fun r hr => ?_, fun _ _ => rfl, fun _ h => h⟩
    have : r ≠ n := fun e => hr (e ▸ h)
    simp [Gang.sregLabel, this]

theorem Gang.labelFrame_setRecLabel {bs : List Nat} (ds ps us : List Nat) (x : Gang) {n : Nat} (l : Label) (h : n ∈ bs) :
    Gang.LabelFrame ds ps us bs x (x.setRecLabel n l) := by
  refine ⟨fun _ _ => rfl, fun _ _ => rfl, fun _ _ => rfl, fun r hr => ?_, fun _ h => h⟩
  have : r ≠ n := fun e => hr (e ▸ h)
  simp [Gang.setRecLabel, this]

/-! What an issue does to it. -/

/-- A write lies within the frame. -/
def Wr.within (ds ps us bs : List Nat) : Wr → Prop
  | .reg r _ _ => r ∈ ds
  | .uni r _ _ => r ∈ us
  | .rcd r _ _ => r ∈ bs
  | .pred n _ _ => n ∈ ps
  | .ctl _ => True

/-- Every gang's labels keep within a frame from one state to another. -/
def State.LabelFrame (ds ps us bs : List Nat) (s s' : State) : Prop := ∀ g, Gang.LabelFrame ds ps us bs (s.gang g) (s'.gang g)

theorem State.LabelFrame.refl (ds ps us bs : List Nat) (s : State) : State.LabelFrame ds ps us bs s s := fun _ => .refl _ _ _ _ _

theorem State.LabelFrame.trans {ds ps us bs : List Nat} {s s' s'' : State} (h : State.LabelFrame ds ps us bs s s')
    (k : State.LabelFrame ds ps us bs s' s'') : State.LabelFrame ds ps us bs s s'' := fun g => (h g).trans (k g)

theorem State.LabelFrame.of_gang {ds ps us bs : List Nat} {s s' : State} (h : ∀ g, s'.gang g = s.gang g) :
    State.LabelFrame ds ps us bs s s' := fun g => by rw [h]; exact .refl _ _ _ _ _

theorem State.labelFrame_modGang {ds ps us bs : List Nat} (s : State) (k : Nat) (F : Gang → Gang)
    (h : Gang.LabelFrame ds ps us bs (s.gang k) (F (s.gang k))) : State.LabelFrame ds ps us bs s (s.modGang k F) := fun g => by
  rw [State.gang_modGang]
  split
  · rename_i e; subst e; exact h
  · exact .refl _ _ _ _ _

theorem State.labelFrame_modBoth {ds ps us bs : List Nat} (s : State) (t k : Nat) (G : Thread → Thread) (F : Gang → Gang)
    (h : Gang.LabelFrame ds ps us bs (s.gang k) (F (s.gang k))) : State.LabelFrame ds ps us bs s ((s.modThread t G).modGang k F) :=
  fun g => State.labelFrame_modGang (s.modThread t G) k F h g

theorem State.labelFrame_foldl {ds ps us bs : List Nat} {α : Type} (F : State → α → State) (l : List α) (s : State)
    (h : ∀ b, ∀ a ∈ l, State.LabelFrame ds ps us bs b (F b a)) : State.LabelFrame ds ps us bs s (l.foldl F s) := by
  induction l generalizing s with
  | nil => exact .refl _ _ _ _ _
  | cons a l ih => exact (h s a (by simp)).trans (ih _ (fun b c hc => h b c (by simp [hc])))

theorem State.labelFrame_endGang (ds ps us bs : List Nat) (s : State) (g : Nat) : State.LabelFrame ds ps us bs s (s.endGang g) :=
  fun k => by
    simp only [State.endGang, State.gang_modGang, State.gang_dropRecords]
    split
    · rename_i e; subst e; exact .of_eq rfl rfl rfl rfl rfl
    · exact .refl _ _ _ _ _

theorem State.labelFrame_exitThread (ds ps us bs : List Nat) (s : State) (t : Nat) : State.LabelFrame ds ps us bs s (s.exitThread t) := by
  simp only [State.exitThread]
  split
  · exact State.labelFrame_endGang ds ps us bs _ _
  · exact .of_gang (fun _ => rfl)

theorem State.labelFrame_terminateGang (ds ps us bs : List Nat) (s : State) (g : Nat) :
    State.LabelFrame ds ps us bs s (s.terminateGang g) := by
  simp only [State.terminateGang]
  refine State.LabelFrame.trans (s' := _) ?_ (State.labelFrame_endGang ds ps us bs _ _)
  exact .of_gang (fun k => foldl_keeps _ (fun s => State.gang s k) _ _ (fun _ _ _ => rfl))

theorem State.labelFrame_terminateUnit (ds ps us bs : List Nat) (s : State) (u : Nat) :
    State.LabelFrame ds ps us bs s (s.terminateUnit u) := by
  simp only [State.terminateUnit]
  exact (State.labelFrame_foldl _ _ _ (fun b a _ => State.labelFrame_terminateGang ds ps us bs b a)).trans (.of_gang (fun _ => rfl))

theorem labelFrame_takeTrap (ds ps us bs : List Nat) (s : State) (t kind : Nat) (ret : Pc) (info : Word) (l : Label) :
    State.LabelFrame ds ps us bs s (takeTrap s t kind ret info l) := by
  unfold takeTrap
  split
  · exact State.labelFrame_terminateUnit ds ps us bs _ _
  · split
    · exact State.labelFrame_terminateUnit ds ps us bs _ _
    · exact State.labelFrame_modBoth _ _ _ _ _ (Gang.labelFrame_widen _ _ _ _ _ _)

theorem labelFrame_applyWr {ds ps us bs : List Nat} (a b : Bool) (t : Nat) (s : State) (w : Wr) (h : w.within ds ps us bs) :
    State.LabelFrame ds ps us bs s (applyWr a b t s w) := by
  cases w with
  | reg r x l =>
    simp only [applyWr]
    split
    · exact .refl _ _ _ _ _
    · exact State.labelFrame_modBoth _ _ _ _ _ (Gang.labelFrame_setTile _ _ _ _ _ h)
  | uni r x l =>
    refine State.labelFrame_modGang _ _ _ (Gang.LabelFrame.trans (.of_eq ?_ ?_ ?_ ?_ ?_) (Gang.labelFrame_setSregLabel _ _ _ _ _ h)) <;>
      (simp only [Gang.setSreg]; split <;> rfl)
  | rcd r x l =>
    refine State.labelFrame_modGang _ _ _ (Gang.LabelFrame.trans
      (y := { (s.gang (gangOf t)).keepRec (s.clkOf t) r with brecs := tabSetD 0 (s.gang (gangOf t)).brecs r x }) (.of_eq rfl rfl rfl rfl rfl) ?_)
    exact Gang.labelFrame_setRecLabel _ _ _ _ _ h
  | pred n v l =>
    simp only [applyWr]
    split
    · exact State.labelFrame_modBoth _ _ _ _ _ ((Gang.labelFrame_setPredLabel _ _ _ _ _ h).trans (Gang.labelFrame_widen _ _ _ _ _ _))
    · exact .refl _ _ _ _ _
  | ctl l => exact State.labelFrame_modGang _ _ _ (Gang.labelFrame_widen _ _ _ _ _ _)

theorem labelFrame_applyEff {ds ps us bs : List Nat} (f : Fields) (l : Label) (a b c : Bool) (t : Nat) (s : State) (e : Eff)
    (h : ∀ w ∈ e.writes, w.within ds ps us bs) : State.LabelFrame ds ps us bs s (applyEff f l a b c t s e) := by
  have ha : State.LabelFrame ds ps us bs s (e.act a b t s) := by
    have h1 : State.LabelFrame ds ps us bs s (applyWrs a b t s e.writes) :=
      State.labelFrame_foldl _ _ _ (fun b' w hw => labelFrame_applyWr _ _ _ b' w (h w hw))
    simp only [Eff.act]
    refine (h1.trans (State.LabelFrame.trans (s' := (applyWrs a b t s e.writes).modThread t (e.alter (s.clkOf t)))
      (.of_gang (fun _ => rfl)) ?_)).trans (.of_gang (fun _ => State.gang_countEvents _ _ _ _))
    simp only [State.setTiles]
    split
    · exact State.labelFrame_modGang _ _ _ (.of_eq rfl rfl rfl rfl rfl)
    · exact .refl _ _ _ _ _
  simp only [applyEff]
  refine (ha.trans (.of_gang (fun g => Eff.leave_gang e f a c t (e.next.getD (nextPc s.pc)) _ g))).trans ?_
  simp only [Eff.close]
  split
  · exact State.labelFrame_exitThread _ _ _ _ _ _
  · split
    · exact labelFrame_takeTrap _ _ _ _ _ _ _ _ _ _
    · split
      · exact .of_gang (fun _ => rfl)
      · exact .refl _ _ _ _ _

/-- An instruction that runs for a group keeps every label outside what its effects write, and narrows no control label. -/
theorem runGroup_labels {ds ps us bs : List Nat} {op : Nat} {f : Fields} {preds regs : List Nat} {eff : State → Nat → Res} {s : State}
    (h : ∀ u e, eff s u = .go e → ∀ w ∈ e.writes, w.within ds ps us bs) :
    State.LabelFrame ds ps us bs s (runGroup op f preds regs eff s) := by
  simp only [runGroup]
  refine State.labelFrame_foldl _ _ _ (fun b a ha => ?_)
  obtain ⟨u, _, rfl⟩ := List.mem_map.mp ha
  simp only [applyRes]
  split
  · exact .of_gang (fun _ => rfl)
  · exact .of_gang (fun _ => rfl)
  · simp only [applyTrap, issueTrap]
    refine State.LabelFrame.trans (s' := b.charge u) (.of_gang (fun _ => rfl)) ?_
    exact (labelFrame_takeTrap _ _ _ _ _ _ _ _ _ _).trans (.of_gang (fun _ => rfl))
  · rename_i e he
    refine labelFrame_applyEff _ _ _ _ _ _ _ _ (fun w hw => h u e ?_ w (uniOnce_writes_sub _ _ _ _ w hw))
    simp only [judgeOne] at he
    split at he <;> simp_all

/-! Accesses. -/

theorem Unsent.trans {s s' s'' : State} (h : Unsent s s') (k : Unsent s' s'') : Unsent s s'' := fun e he => h e (k e he)

theorem Unsent.of_eq {s s' : State} (h : s'.accesses = s.accesses) : Unsent s s' := fun e he => by rwa [h] at he

theorem Unsent.foldl {α : Type} (F : State → α → State) (l : List α) (s : State) (h : ∀ b, ∀ a ∈ l, Unsent b (F b a)) :
    Unsent s (l.foldl F s) := by
  induction l generalizing s with
  | nil => exact fun _ h => h
  | cons a l ih => exact (h s a (by simp)).trans (ih _ (fun b c hc => h b c (by simp [hc])))

theorem unsent_terminateUnit (s : State) (u : Nat) : Unsent s (s.terminateUnit u) := by
  simp only [State.terminateUnit]
  refine (Unsent.foldl _ _ _ (fun b g _ => ?_)).trans (.of_eq rfl)
  refine Unsent.trans (s' := (b.threadsOfGang g).foldl (fun s t =>
    s.modThread t (fun x => { x with sched := .exited, inTrap := false, turns := x.turns + 1 })) b) ?_ ?_
  · exact .of_eq (foldl_keeps _ State.accesses _ _ (fun _ _ _ => rfl))
  · intro e he
    exact (List.mem_filter.mp he).1

theorem unsent_takeTrap (s : State) (t kind : Nat) (ret : Pc) (info : Word) (l : Label) : Unsent s (takeTrap s t kind ret info l) := by
  unfold takeTrap
  split
  · exact unsent_terminateUnit _ _
  · split
    · exact unsent_terminateUnit _ _
    · exact .of_eq rfl

theorem unsent_applyWrs (a b : Bool) (t : Nat) (s : State) (ws : List Wr) : (applyWrs a b t s ws).accesses = s.accesses :=
  foldl_keeps _ State.accesses _ _ (fun _ w _ => by cases w <;> simp only [applyWr] <;> (try split) <;> rfl)

theorem unsent_applyEff (f : Fields) (l : Label) (a b c : Bool) (t : Nat) (s : State) (e : Eff) (h : e.accesses = []) :
    Unsent s (applyEff f l a b c t s e) := by
  have h1 : (e.leave f a c t (e.next.getD (nextPc s.pc)) (e.act a b t s)).accesses = s.accesses := by
    simp only [Eff.leave, h, List.map_nil, State.addAccesses, List.foldl_nil]
    show (e.act a b t s).accesses = _
    simp only [Eff.act, State.countEvents, State.setTiles]
    split <;> split <;> exact unsent_applyWrs _ _ _ _ _
  simp only [applyEff]
  refine (Unsent.of_eq h1).trans ?_
  simp only [Eff.close]
  split
  · simp only [State.exitThread]
    split <;> exact .of_eq rfl
  · split
    · exact unsent_takeTrap _ _ _ _ _ _
    · split <;> exact .of_eq rfl

/-- An instruction none of whose effects sends an access leaves no further access in flight. -/
theorem runGroup_unsent {op : Nat} {f : Fields} {preds regs : List Nat} {eff : State → Nat → Res} {s : State}
    (h : ∀ u e, eff s u = .go e → e.accesses = []) : Unsent s (runGroup op f preds regs eff s) := by
  simp only [runGroup]
  refine Unsent.foldl _ _ _ (fun b a ha => ?_)
  obtain ⟨u, _, rfl⟩ := List.mem_map.mp ha
  simp only [applyRes]
  split
  · exact .of_eq rfl
  · exact .of_eq rfl
  · simp only [applyTrap, issueTrap]
    exact Unsent.trans (s' := b.charge u) (.of_eq rfl) ((unsent_takeTrap _ _ _ _ _ _).trans (.of_eq rfl))
  · rename_i e he
    refine unsent_applyEff _ _ _ _ _ _ _ _ ?_
    have : (uniOnce s.issue.serial (uniWrites (judge s op f preds regs eff) (gangOf u)) u e).accesses = e.accesses := by
      simp only [uniOnce]; split <;> rfl
    rw [this]
    refine h u e ?_
    simp only [judgeOne] at he
    split at he <;> simp_all

end Sys2Proof.Machine
end

