-- ==== Sys2Proof/Laws/Issue.lean ====
section
/-! SUPPORT. A thread that issues: the tests at issue let it run, and what its writes leave in its registers and in its gang's. -/

namespace Sys2Proof.Machine

/-- The tests at issue let an issuing thread run. -/
theorem Issues.checkIn {s : State} {op : Nat} {f : Fields} {preds regs : List Nat} {t : Nat} (h : Issues s op f preds regs t) :
    Machine.checkIn s op f preds regs t = .run := by
  have h1 : (sourcesOf op f).find? (fun q => q.2.2.1 && (sourceEmpty s t q.1 q.2.1).isSome) = none := by
    rw [List.find?_eq_none]
    intro q hq
    simp [h.sources q hq]
  have h2 : (sourcesOf op f).findSome? (fun q => sourceEmpty s t q.1 q.2.1) = none := by
    rw [List.findSome?_eq_none_iff]
    exact h.sources
  have h3 : (opndRegs (slotsOf op f).d f.d ++ regs).find? (fun r => !(s.thread t).seenFull (s.clkOf t) r || s.lent t r) = none := by
    rw [List.find?_eq_none]
    intro r hr
    simp [h.dest r hr]
  have h4 : ((sourcesOf op f).flatMap (fun q => opndPreds q.1 q.2.1) ++ opndPreds (slotsOf op f).d f.d ++ preds).find?
      (fun n => (s.thread t).pending n) = none := by
    rw [List.find?_eq_none]
    intro n hn
    simp [h.preds n hn]
  simp only [Machine.checkIn, h.settled, h.guard, h1, h2, h3, h4]
  rfl

/-! Registers after writes. -/

@[simp] theorem Thread.reg_setReg (x : Thread) (n r : Nat) (v : Word) :
    (x.setReg n v).reg r = if r = n ∧ n ≠ 255 then v else x.reg r := by
  simp only [Thread.setReg, Thread.reg]
  by_cases h : n = 255
  · simp [h]
  · by_cases hr : r = 255
    · have : ¬ r = n := fun e => h (by omega)
      simp [h, hr]
      omega
    · simp [h, hr]

@[simp] theorem Thread.reg_markFull (x : Thread) (n r : Nat) : (x.markFull n).reg r = x.reg r := rfl
@[simp] theorem Thread.full_setReg (x : Thread) (n r : Nat) (v : Word) : (x.setReg n v).full r = x.full r := by
  simp only [Thread.setReg]; split <;> rfl
@[simp] theorem Thread.full_markFull (x : Thread) (n r : Nat) : (x.markFull n).full r = (decide (r = n) || x.full r) := by
  simp only [Thread.full, Thread.markFull, tabGetD_del]
  by_cases h : r = n <;> simp [h]

theorem wrTy_onThread_other (ty : Ty) (d : Opnd) (v : DWord) (l : Label) (x : Thread) (e : Thread → β)
    (he : ∀ y n w, e (y.setReg n w) = e y) (hf : ∀ y n, e (y.markFull n) = e y) :
    e ((wrTy ty d v l).foldl Wr.onThread x) = e x := by
  simp only [wrTy, wr64, wr32]
  cases d <;> (repeat' split) <;> simp [Wr.onThread] <;> (repeat' split) <;> simp [he, hf]

/-- The registers of the thread after a result. -/
theorem wrTy_reg (ty : Ty) (d : Opnd) (v : DWord) (l : Label) (x : Thread) (r : Nat) (hr : r ∉ resultRegs ty d) :
    ((wrTy ty d v l).foldl Wr.onThread x).reg r = x.reg r ∧ ((wrTy ty d v l).foldl Wr.onThread x).full r = x.full r := by
  simp only [wrTy, wr64, wr32]
  cases d <;> simp only [resultRegs] at hr <;> (repeat' split) <;> simp_all [Wr.onThread] <;> (repeat' split) <;> simp_all

/-- The thread's own view of a result in its registers. -/
theorem wrTy_result (ty : Ty) (d : Opnd) (v : DWord) (l : Label) (x : Thread) (hd : isUni d = false) :
    let y := (wrTy ty d v l).foldl Wr.onThread x
    match d with
    | .v n => if ty.is64 then 254 ≤ n.toNat ∨ y.reg n.toNat = v.lo ∧ y.reg (n.toNat + 1) = v.hi ∧
        y.full n.toNat = true ∧ y.full (n.toNat + 1) = true
      else n = 255 ∨ y.reg n.toNat = v.lo ∧ y.full n.toNat = true
    | _ => True := by
  cases d with
  | v n =>
    simp only [wrTy]
    by_cases h64 : ty.is64 = true
    · simp only [h64, if_true, wr64]
      by_cases h : 254 ≤ n.toNat
      · exact .inl h
      · have h1 : n ≠ 255#8 := fun e => h (by simp [e])
        have h2 : n.toNat ≠ 255 := by omega
        have h3 : n.toNat + 1 ≠ 255 := by omega
        simp [h1, Wr.onThread, h2, h3, h]
    · simp only [h64, wr32]
      by_cases h1 : n = 255#8
      · simp [h1]
      · have h2 : n.toNat ≠ 255 := fun e => h1 (BitVec.eq_of_toNat_eq (by simpa using e))
        simp [h1, Wr.onThread, h2]
  | _ => trivial

/-- The gang's view of a result in its gang-uniform registers. -/
theorem wrTy_own_value (ty : Ty) (n : BitVec 8) (v : DWord) (l : Label) (x : Gang.Own) :
    let y := (wrTy ty (.s n) v l).foldl Wr.onOwn x
    if ty.is64 then 126 ≤ n.toNat ∨ tabGetD 0 y.sregs n.toNat = v.lo ∧ tabGetD 0 y.sregs (n.toNat + 1) = v.hi
    else n = 127 ∨ tabGetD 0 y.sregs n.toNat = v.lo := by
  simp only [wrTy]
  by_cases h64 : ty.is64 = true
  · simp only [h64, if_true, wr64]
    by_cases h : 126 ≤ n.toNat
    · exact .inl h
    · have h1 : n ≠ 127#8 := fun e => h (by simp [e])
      have h2 : n.toNat ≠ 127 := by omega
      have h3 : n.toNat + 1 ≠ 127 := by omega
      simp [h1, Wr.onOwn, h2, h3, h]
  · simp only [h64, wr32]
    by_cases h1 : n = 127#8
    · simp [h1]
    · have h2 : n.toNat ≠ 127 := fun e => h1 (BitVec.eq_of_toNat_eq (by simpa using e))
      simp [h1, Wr.onOwn, h2]

theorem wrTy_own (ty : Ty) (n : BitVec 8) (v : DWord) (l : Label) (x : Gang.Own) :
    let y := (wrTy ty (.s n) v l).foldl Wr.onOwn x
    (if ty.is64 then 126 ≤ n.toNat ∨ tabGetD 0 y.sregs n.toNat = v.lo ∧ tabGetD 0 y.sregs (n.toNat + 1) = v.hi
    else n = 127 ∨ tabGetD 0 y.sregs n.toNat = v.lo) ∧
    ∀ r ∈ resultUnis ty (.s n), r < 127 → tabGetD 0 y.slabel r = l := by
  refine ⟨?_, fun r hr h127 => ?_⟩
  · exact wrTy_own_value ty n v l x
  · have hn : ∀ k : Nat, k < 127 → n.toNat = k ∨ n.toNat + 1 = k → n ≠ 127#8 ∧ n.toNat ≠ 127 := by
      intro k hk h
      have h2 : n.toNat ≠ 127 := by omega
      exact ⟨fun e => h2 (by rw [e]; rfl), h2⟩
    by_cases h64 : ty.is64 = true
    · have hr' : r = n.toNat ∨ r = n.toNat + 1 := by simpa [resultUnis, h64] using hr
      obtain ⟨h1, h2⟩ := hn r h127 (by omega)
      by_cases h3 : n.toNat + 1 = 127
      · have : r = n.toNat := by omega
        simp [wrTy, h64, wr64, h1, Wr.onOwn, h2, h3, this]
      · rcases hr' with h | h <;> simp [wrTy, h64, wr64, h1, Wr.onOwn, h2, h3, h]
    · have hr' : r = n.toNat := by simpa [resultUnis, h64] using hr
      obtain ⟨h1, h2⟩ := hn r h127 (by omega)
      simp [wrTy, h64, wr32, Wr.onOwn, h2, hr']

theorem wrTy_mem_uni {ty : Ty} {d : Opnd} {v : DWord} {l : Label} {w : Wr} (hw : w ∈ wrTy ty d v l) (r : Nat) (x : Word) (k : Label)
    (h : w = .uni r x k) : r ∈ resultUnis ty d := by
  subst h
  simp only [wrTy, wr64, wr32] at hw
  cases d <;> (repeat' split at hw) <;> simp_all [resultUnis]
  rcases hw with h | h <;> simp [h.1]

theorem wrTy_mem_rcd {ty : Ty} {d : Opnd} {v : DWord} {l : Label} {w : Wr} (hw : w ∈ wrTy ty d v l) (r : Nat) (x : BitVec 128) (k : Label)
    (h : w = .rcd r x k) : r ∈ ([] : List Nat) := by
  subst h
  simp only [wrTy, wr64, wr32] at hw
  cases d <;> (repeat' split at hw) <;> simp_all

/-- A result writes its own registers alone. -/
theorem wrTy_within {ty : Ty} {d : Opnd} {v : DWord} {l : Label} {w : Wr} (hw : w ∈ wrTy ty d v l) :
    w.within (resultRegs ty d) [] (resultUnis ty d) [] := by
  cases w with
  | reg r x k =>
    simp only [wrTy, wr64, wr32] at hw
    cases d <;> (repeat' split at hw) <;> simp_all [Wr.within, resultRegs]
    rcases hw with h | h <;> simp [h.1]
  | uni r x k => exact wrTy_mem_uni hw r x k rfl
  | rcd r x k => exact absurd (wrTy_mem_rcd hw r x k rfl) (by simp)
  | pred n b k =>
    simp only [wrTy, wr64, wr32] at hw
    cases d <;> (repeat' split at hw) <;> simp_all
  | ctl k => trivial

theorem wrTy_isUni {ty : Ty} {n : BitVec 8} {v : DWord} {l : Label} (h : (wrTy ty (.s n) v l).any Wr.isUni = false) :
    wrTy ty (.s n) v l = [] := by
  simp only [wrTy, wr64, wr32] at h ⊢
  (repeat' split at h) <;> simp_all [Wr.isUni]

/-! The instructions whose effect is one result. -/

/-- The effect of such an instruction on a thread. -/
def resultEff (ty : Ty) (d : Opnd) (v : DWord) (l : Label) (evs : List Nat) : Eff :=
  { writes := wrTy ty d v l, events := evs }

theorem uniWriter_mem {serial : Nat} {ws : List (Nat × List Wr)} (h : ws ≠ []) :
    ∃ x ∈ ws, uniWriter serial ws = some x.1 := by
  simp only [uniWriter]
  have key : ∀ k, k < ws.length → ∃ x ∈ ws, (ws.drop k).head?.map Prod.fst = some x.1 := by
    intro k hk
    refine ⟨ws.get ⟨k, hk⟩, List.get_mem _ _, ?_⟩
    simp [List.head?_drop, List.getElem?_eq_getElem hk]
  have hl : 0 < ws.length := List.length_pos_iff.mpr h
  split
  · exact key _ (Nat.mod_lt _ hl)
  · simpa using key 0 hl

/-- The thread of a judgement's entry stands in the ready group and has been judged so. -/
theorem judge_mem {op : Nat} {f : Fields} {preds regs : List Nat} {eff : State → Nat → Res} {s : State} {x : Nat × Option Res}
    (h : x ∈ judge s op f preds regs eff) : x.1 ∈ s.group ∧ x.2 = judgeOne s op f preds regs eff x.1 := by
  obtain ⟨u, hu, rfl⟩ := List.mem_map.mp h
  exact ⟨(List.mem_filter.mp hu).1, rfl⟩

theorem judgeOne_go {op : Nat} {f : Fields} {preds regs : List Nat} {eff : State → Nat → Res} {s : State} {u : Nat} {e : Eff}
    (h : judgeOne s op f preds regs eff u = some (.go e)) : eff s u = .go e ∧ guardTrue s u f = true := by
  simp only [judgeOne] at h
  split at h <;> simp_all
  rename_i ha
  simp only [checkIn] at ha
  split at ha
  · simp at ha
  · split at ha
    · simp at ha
    · simp_all

theorem resultEff_exits (ty : Ty) (d : Opnd) (v : DWord) (l : Label) (evs : List Nat) : (resultEff ty d v l evs).exits = false := rfl

/-- Of a list of writes that ends with none of a gang-uniform register, those that are left when the gang's are taken away write
nothing that a gang holds for itself. -/
theorem onOwn_rest {ws : List Wr} (h : ∀ w ∈ ws, w.isUni = false ∧ ∀ r x l, w ≠ .rcd r x l) (x : Gang.Own) :
    ws.foldl Wr.onOwn x = x := by
  induction ws generalizing x with
  | nil => rfl
  | cons w ws ih =>
    have hw := h w (by simp)
    have : w.onOwn x = x := by
      cases w with
      | uni r y l => simp [Wr.isUni] at hw
      | rcd r y l => exact absurd rfl (hw.2 r y l)
      | _ => rfl
    rw [List.foldl_cons, this]
    exact ih (fun v hv => h v (by simp [hv])) x

/-- A gang-uniform result among the writes of an instruction: the register holds the result of one of the gang's executing threads. -/
theorem runGroup_uni {op : Nat} {f : Fields} {preds regs : List Nat} {s : State} {t : Nat} {ty : Ty} {n : BitVec 8}
    {eff : State → Nat → Res} {val : Nat → DWord} {lab : Nat → Label} {e : Nat → Eff} {rest : Nat → List Wr}
    (h : Issues s op f preds regs t) (he : ∀ u ∈ s.group, eff s u = .go (e u))
    (hw : ∀ u ∈ s.group, (e u).writes = wrTy ty (.s n) (val u) (lab u) ++ rest u)
    (hr : ∀ u ∈ s.group, ∀ w ∈ rest u, w.isUni = false ∧ ∀ r x l, w ≠ .rcd r x l) (hp : ∀ u ∈ s.group, (e u).part = none) :
    let s' := runGroup op f preds regs eff s
    ∃ u ∈ s.group, gangOf u = gangOf t ∧ guardTrue s u f = true ∧ ResultTy s' t ty (.s n) (val u) ∧
      ∀ r ∈ resultUnis ty (.s n), r < 127 → (s'.gang (gangOf t)).sregLabel r = lab u := by
  intro s'
  -- a destination that discards
  by_cases hv : (wrTy ty (.s n) (val t) (lab t)).any Wr.isUni = false
  · have hz := wrTy_isUni hv
    refine ⟨t, h.mem, rfl, h.guard, ?_, fun r hr h127 => ?_⟩
    · simp only [ResultTy, Result64, Result32]
      have := wrTy_own_value ty n (val t) (lab t) { sregs := [], slabel := [], brecs := [], part := 0 }
      simp only [wrTy, wr64, wr32] at hz
      (repeat' split at hz) <;> simp_all
    · simp only [wrTy, wr64, wr32] at hz
      (repeat' split at hz) <;> simp_all [resultUnis]
      omega
  -- the writer
  set L := judge s op f preds regs eff with hL
  set c := uniWrites L (gangOf t) with hc
  have hj : judgeOne s op f preds regs eff t = some (.go (e t)) := by
    simp [judgeOne, h.checkIn, he t h.mem]
  have htL : (t, judgeOne s op f preds regs eff t) ∈ L :=
    List.mem_map.mpr ⟨t, List.mem_filter.mpr ⟨h.mem, by simp [h.ready]⟩, rfl⟩
  have hcne : c ≠ [] := by
    intro hn
    have : (t, (e t).writes.filter Wr.isUni) ∈ c := List.mem_filterMap.mpr ⟨_, htL, by simp [hj]⟩
    rw [hn] at this
    simp at this
  obtain ⟨y, hy, hwr⟩ := uniWriter_mem (serial := s.issue.serial) hcne
  obtain ⟨x, hxL, hxy⟩ := List.mem_filterMap.mp hy
  obtain ⟨hxg, hx2⟩ := judge_mem hxL
  -- the writer's effect
  obtain ⟨w, r⟩ := x
  simp only at hxg hx2 hxy
  rw [hx2] at hxy
  cases hr' : judgeOne s op f preds regs eff w with
  | none => simp [hr'] at hxy
  | some r =>
    cases r with
    | block _ => simp [hr'] at hxy
    | trap _ _ _ => simp [hr'] at hxy
    | go e' =>
      simp only [hr'] at hxy
      split at hxy
      · rename_i hg
        have hg' : gangOf w = gangOf t := by simpa using hg
        have hyw : y.1 = w := by
          have := Option.some.inj hxy
          rw [← this]
        obtain ⟨hew, hgw⟩ := judgeOne_go hr'
        have he' : e' = e w := by
          have := hew.symm.trans (he w hxg)
          injection this
        -- the fold
        have hws : ∀ b : State, ∀ z ∈ L, z.1 ≠ w → ((applyRes op f s L b z).gang (gangOf t)).own = (b.gang (gangOf t)).own := by
          intro b z hz hzw
          rw [applyRes_own]
          obtain ⟨hzg, hz2⟩ := judge_mem hz
          split
          · rename_i e'' hze
            split
            · rename_i hgz
              rw [hz2] at hze
              have h4 : e'' = e z.1 := by
                have := (judgeOne_go hze).1.symm.trans (he z.1 hzg)
                injection this
              rw [← hgz, ← hc]
              have h5 : uniWriter s.issue.serial c ≠ some z.1 := by
                rw [hwr, hyw]; simpa using fun e => hzw e.symm
              have h7 : ∀ v ∈ (uniOnce s.issue.serial c z.1 e'').writes, v.isUni = false ∧ ∀ r x l, v ≠ .rcd r x l := by
                intro v hv
                have hmem : v ∈ wrTy ty (.s n) (val z.1) (lab z.1) ++ rest z.1 ∧ v.isUni = false := by
                  simp only [uniOnce] at hv
                  split at hv
                  · rw [h4] at hv
                    simp only [List.mem_filter, hw z.1 hzg] at hv
                    exact ⟨hv.1, by simpa using hv.2⟩
                  · rename_i hn
                    rw [h4] at hn hv
                    have ha : (e z.1).writes.any Wr.isUni = false := by simpa [h5] using hn
                    refine ⟨hw z.1 hzg ▸ hv, ?_⟩
                    have := List.any_eq_false.mp ha v hv
                    simpa using this
                rcases List.mem_append.mp hmem.1 with hm | hm
                · refine ⟨hmem.2, fun r x l hv => ?_⟩
                  have := wrTy_mem_rcd hm r x l hv
                  simp at this
                · exact hr z.1 hzg v hm
              have h8 : (uniOnce s.issue.serial c z.1 e'').part = none := by
                simp only [uniOnce]; split <;> simp [h4, hp z.1 hzg]
              simp only [Eff.onOwn, h8, onOwn_rest h7]
              rfl
            · rfl
          · rfl
        have hself : ∀ b : State, ((applyRes op f s L b (w, some (.go e'))).gang (gangOf t)).own =
            (wrTy ty (.s n) (val w) (lab w)).foldl Wr.onOwn (b.gang (gangOf t)).own := by
          intro b
          rw [applyRes_own]
          simp only [hg', if_true, ← hc]
          have : uniOnce s.issue.serial c w e' = e' := by
            simp [uniOnce, hwr, hyw]
          rw [this, he']
          simp only [Eff.onOwn, hp w hxg, hw w hxg, List.foldl_append, onOwn_rest (hr w hxg)]
          rfl
        have hnd : (L.map Prod.fst).Nodup := by
          rw [hL, judge, List.map_map]
          have : (Prod.fst ∘ fun t => (t, judgeOne s op f preds regs eff t)) = id := rfl
          rw [this, List.map_id]
          exact h.nodup.filter _
        obtain ⟨l1, l2, hl⟩ := List.append_of_mem hxL
        rw [hx2, hr'] at hl
        have hn1 : ∀ z ∈ l1, z.1 ≠ w := by
          intro z hz e
          rw [hl, List.map_append, List.map_cons] at hnd
          exact (List.nodup_append.mp hnd).2.2 z.1 (List.mem_map_of_mem hz) w (by simp) e
        have hn2 : ∀ z ∈ l2, z.1 ≠ w := by
          intro z hz e
          rw [hl, List.map_append, List.map_cons] at hnd
          exact (List.nodup_cons.mp (List.nodup_append.mp hnd).2.1).1 (by
            have := List.mem_map_of_mem (f := Prod.fst) hz
            rwa [e] at this)
        have hend : (s'.gang (gangOf t)).own = (wrTy ty (.s n) (val w) (lab w)).foldl Wr.onOwn (s.gang (gangOf t)).own := by
          show ((L.foldl (applyRes op f s L) s).gang (gangOf t)).own = _
          conv => lhs; arg 1; arg 1; arg 3; rw [hl]
          rw [List.foldl_append, List.foldl_cons]
          rw [foldl_keeps _ (fun b => (State.gang b (gangOf t)).own) l2 _
            (fun b z hz => hws b z (by rw [hl]; simp [hz]) (hn2 z hz)), hself,
            foldl_keeps _ (fun b => (State.gang b (gangOf t)).own) l1 _
            (fun b z hz => hws b z (by rw [hl]; simp [hz]) (hn1 z hz))]
        obtain ⟨hfin, hlab⟩ := wrTy_own ty n (val w) (lab w) (s.gang (gangOf t)).own
        have hsl : (s'.gang (gangOf t)).slabel = _ := congrArg Gang.Own.slabel hend
        refine ⟨w, hxg, hg', hgw, ?_, fun r hr h127 => ?_⟩
        swap
        · rw [Gang.sregLabel, if_neg (by omega), hsl]
          exact hlab r hr h127
        have hsr : ∀ r, r ≠ 127 → (s'.gang (gangOf t)).sreg r =
            tabGetD 0 ((wrTy ty (.s n) (val w) (lab w)).foldl Wr.onOwn (s.gang (gangOf t)).own).sregs r := by
          intro r hr
          have : (s'.gang (gangOf t)).sregs = _ := congrArg Gang.Own.sregs hend
          simp only [Gang.sreg, hr, if_false, this]
        simp only [ResultTy, Result64, Result32]
        split
        · rename_i h64
          simp only [h64, if_true] at hfin
          rcases hfin with hf | hf
          · exact .inl hf
          · by_cases h126 : 126 ≤ n.toNat
            · exact .inl h126
            · exact .inr ⟨(hsr _ (by omega)).trans hf.1, (hsr _ (by omega)).trans hf.2⟩
        · rename_i h64
          simp only [h64] at hfin
          rcases hfin with hf | hf
          · exact .inl hf
          · by_cases h127 : n = 127#8
            · exact .inl h127
            · have : n.toNat ≠ 127 := fun e => h127 (BitVec.eq_of_toNat_eq (by simpa using e))
              exact .inr ((hsr _ this).trans hf)
      · simp at hxy

/-- A result changes a thread in its registers and their full/empty bits alone. -/
theorem wrTy_only (ty : Ty) (d : Opnd) (v : DWord) (l : Label) (x : Thread) :
    ∃ rs es, (wrTy ty d v l).foldl Wr.onThread x = { x with regs := rs, empty := es } := by
  have h1 : ∀ y : Thread, (∃ rs es, y = { x with regs := rs, empty := es }) → ∀ n w k,
      ∃ rs es, (Wr.reg n w k).onThread y = { x with regs := rs, empty := es } := by
    rintro y ⟨rs, es, rfl⟩ n w k
    simp only [Wr.onThread, Thread.setReg, Thread.markFull]
    split
    · exact ⟨rs, es, rfl⟩
    · exact ⟨_, _, rfl⟩
  have h0 : ∃ rs es, x = { x with regs := rs, empty := es } := ⟨x.regs, x.empty, rfl⟩
  simp only [wrTy, wr64, wr32]
  cases d with
  | v n =>
    have h2 := h1 _ (h1 _ h0 n.toNat v.lo l) (n.toNat + 1) v.hi l
    have h3 := h1 _ h0 n.toNat v.lo l
    by_cases h64 : ty.is64 = true
    · by_cases h255 : n = 255
      · rw [if_pos h64]; dsimp only; rw [if_pos h255]
        exact h0
      · rw [if_pos h64]; dsimp only; rw [if_neg h255]
        exact h2
    · rw [if_neg h64]
      exact h3
  | s n =>
    by_cases h64 : ty.is64 = true
    · by_cases h127 : n = 127
      · rw [if_pos h64]; dsimp only; rw [if_pos h127]
        exact h0
      · rw [if_pos h64]; dsimp only; rw [if_neg h127]
        exact h0
    · rw [if_neg h64]
      exact h0
  | k n => split <;> exact h0
  | imm n => split <;> exact h0

theorem resultEff_onThread (ty : Ty) (d : Opnd) (v : DWord) (l : Label) (evs : List Nat) (x : Thread) :
    (resultEff ty d v l evs).onThread x = (wrTy ty d v l).foldl Wr.onThread x := by
  obtain ⟨rs, es, h⟩ := wrTy_only ty d v l x
  simp only [Eff.onThread, resultEff, h]
  rfl

/-- A per-thread result, with everything that the instruction leaves of its thread. -/
theorem runGroup_thread {op : Nat} {f : Fields} {preds regs : List Nat} {s : State} {t : Nat} {ty : Ty} {d : Opnd}
    {val : State → Nat → DWord} {lab : State → Nat → Label} {evs : State → Nat → List Nat}
    (h : Issues s op f preds regs t) :
    let s' := runGroup op f preds regs (fun s t => .go (resultEff ty d (val s t) (lab s t) (evs s t))) s
    (isUni d = false → ResultTy s' t ty d (val s t)) ∧ (s'.thread t).pc = nextPc s.pc ∧
      Kept (s.thread t) (s'.thread t) (resultRegs ty d) [] := by
  intro s'
  have hm : Thread.Moved _ (s'.thread t) _ := runGroup_go (e := resultEff ty d (val s t) (lab s t) (evs s t)) h.mem h.nodup h.ready
    h.checkIn rfl rfl rfl
  rw [resultEff_onThread] at hm
  have hw := fun r hr => wrTy_reg ty d (val s t) (lab s t) (s.thread t) r hr
  have hv := fun hu => wrTy_result ty d (val s t) (lab s t) (s.thread t) hu
  obtain ⟨rs, es, hx⟩ := wrTy_only ty d (val s t) (lab s t) (s.thread t)
  rw [hx] at hm
  simp only [hx] at hw hv
  simp only [ResultTy, Result64, Result32]
  generalize s'.thread t = y at hm ⊢
  generalize s.thread t = x at hm hw hv ⊢
  have hreg : ∀ r, y.reg r = ({ x with regs := rs, empty := es } : Thread).reg r := by
    intro r
    simp only [Thread.reg, hm.regs]
  have hfull : ∀ r, y.full r = ({ x with regs := rs, empty := es } : Thread).full r := by
    intro r
    simp only [Thread.full, hm.empty]
  refine ⟨fun hu => ?_, hm.pc, ?_⟩
  · have hv := hv hu
    cases d with
    | v n =>
      simp only [hreg, hfull]
      split <;> simp_all
    | s n => simp [isUni] at hu
    | k n => split <;> trivial
    | imm n => split <;> trivial
  · refine ⟨fun r hr => ?_, fun n _ => ?_, hm.mode, hm.cls, ⟨hm.trapkind, hm.trappc, hm.trapinfo, hm.shadow⟩, hm.budget⟩
    · rw [hreg, hfull]
      exact hw r hr
    · simp only [Thread.pred, Thread.pending, hm.preds, hm.pend]
      exact ⟨trivial, trivial⟩

/-- What a thread holds, unchanged. -/
theorem Kept.of_body {x y : Thread} (h : y.body = x.body) : y.pc = x.pc ∧ Kept x y [] [] := by
  have e : ∀ {β : Type} (g : Thread → β), (∀ w : Thread, g w.body = g w) → g y = g x := by
    intro β g hg
    rw [← hg y, ← hg x, h]
  exact ⟨e Thread.pc (fun _ => rfl), fun r _ => ⟨e (Thread.reg · r) (fun _ => rfl), e (Thread.full · r) (fun _ => rfl)⟩,
    fun n _ => ⟨e (Thread.pred · n) (fun _ => rfl), e (Thread.pending · n) (fun _ => rfl)⟩, e Thread.mode (fun _ => rfl),
    e Thread.cls (fun _ => rfl), ⟨e Thread.trapkind (fun _ => rfl), e Thread.trappc (fun _ => rfl), e Thread.trapinfo (fun _ => rfl),
    e Thread.shadow (fun _ => rfl)⟩, e Thread.budget (fun _ => rfl)⟩

/-- An instruction of a group leaves what the threads outside the group hold. -/
theorem runGroup_outside (op : Nat) (f : Fields) (preds regs : List Nat) (eff : State → Nat → Res) (s : State) {u : Nat} (h : u ∉ s.group) :
    ((runGroup op f preds regs eff s).thread u).body = (s.thread u).body := by
  simp only [runGroup]
  refine foldl_keeps _ (fun s => (State.thread s u).body) _ s (fun b a ha => ?_)
  obtain ⟨v, hv, rfl⟩ := List.mem_map.mp ha
  exact applyRes_body_ne (show u ≠ v from fun e => h (e ▸ (List.mem_filter.mp hv).1)) _ _ _ _ _ _

/-- What a group's instruction leaves of every gang, where its effects write within a frame and leave the partition register. -/
theorem runGroup_gangKept {ds ps us bs : List Nat} {op : Nat} {f : Fields} {preds regs : List Nat} {eff : State → Nat → Res} {s : State}
    (h : ∀ u e, eff s u = .go e → (∀ w ∈ e.writes, w.within ds ps us bs) ∧ e.part = none) (g : Nat) :
    GangKept (s.gang g) ((runGroup op f preds regs eff s).gang g) ds ps us bs := by
  have hg := runGroup_gang op f preds regs eff s us bs (fun u e he w hw r x l hr => by have := (h u e he).1 w hw; rw [hr] at this; exact this)
    (fun u e he w hw r x l hr => by have := (h u e he).1 w hw; rw [hr] at this; exact this) (fun u e he => (h u e he).2) g
  have hl := runGroup_labels (op := op) (f := f) (preds := preds) (regs := regs) (fun u e he => (h u e he).1) g
  exact ⟨fun r hr => ⟨hg.1 r hr, hl.sreg r hr⟩, fun r hr => ⟨hg.2.1 r hr, hl.record r hr⟩, hl.tile, hl.pred, hl.control, hg.2.2⟩

/-- Everything about an instruction whose effect is one result: the result, the next instruction, and what is left alone. -/
theorem runGroup_result {op : Nat} {f : Fields} {preds regs : List Nat} {s : State} {t : Nat} {ty : Ty} {d : Opnd}
    {val : State → Nat → DWord} {lab : State → Nat → Label} {evs : State → Nat → List Nat}
    (h : Issues s op f preds regs t) :
    let s' := runGroup op f preds regs (fun s t => .go (resultEff ty d (val s t) (lab s t) (evs s t))) s
    (∃ u ∈ s.group, gangOf u = gangOf t ∧ guardTrue s u f = true ∧ (isUni d = false → u = t) ∧ ResultTy s' t ty d (val s u)) ∧
      (s'.thread t).pc = nextPc s.pc ∧ Untouched s s' t (resultRegs ty d) [] (resultUnis ty d) [] := by
  intro s'
  obtain ⟨h1, h2, h3⟩ := runGroup_thread (ty := ty) (d := d) (val := val) (lab := lab) (evs := evs) h
  refine ⟨?_, h2, h3, fun u hu => Kept.of_body (runGroup_outside _ _ _ _ _ _ hu), fun g => ?_, fun a => ?_⟩
  · by_cases hu : isUni d = false
    · exact ⟨t, h.mem, rfl, h.guard, fun _ => rfl, h1 hu⟩
    · cases d with
      | s n =>
        obtain ⟨u, hu1, hu2, hu3, hu4, _⟩ := runGroup_uni (ty := ty) (n := n) (val := val s) (lab := lab s)
          (e := fun u => resultEff ty (.s n) (val s u) (lab s u) (evs s u)) (rest := fun _ => [])
          (eff := fun s t => .go (resultEff ty (.s n) (val s t) (lab s t) (evs s t))) h
          (fun _ _ => rfl) (fun _ _ => by simp [resultEff]) (fun _ _ _ h => by simp at h) (fun _ _ => rfl)
        exact ⟨u, hu1, hu2, hu3, fun e => absurd e hu, hu4⟩
      | _ => simp [isUni] at hu
  · exact runGroup_gangKept (fun u e he => by cases he; exact ⟨fun w hw => wrTy_within hw, rfl⟩) g
  · show (runGroup _ _ _ _ _ _).mem.get a = _
    rw [runGroup_mem]

/-- What `Moved` says of the registers, the predicates and the rest of a thread. -/
theorem Thread.Moved.kept {x y : Thread} {p : Pc} (h : Thread.Moved x y p) : Kept x y [] [] :=
  ⟨fun r _ => by simp only [Thread.reg, Thread.full, h.regs, h.empty]; exact ⟨trivial, trivial⟩,
    fun n _ => by simp only [Thread.pred, Thread.pending, h.preds, h.pend]; exact ⟨trivial, trivial⟩,
    h.mode, h.cls, ⟨h.trapkind, h.trappc, h.trapinfo, h.shadow⟩, h.budget⟩

/-- An instruction that writes no gang-uniform register, no record and no partition register leaves every gang and all memory. -/
theorem runGroup_others {ps ds : List Nat} {op : Nat} {f : Fields} {preds regs : List Nat} {eff : State → Nat → Res} {s : State}
    (h : ∀ u e, eff s u = .go e → (∀ w ∈ e.writes, w.within ds ps [] []) ∧ e.part = none) :
    Others s (runGroup op f preds regs eff s) ps ds :=
  ⟨fun g => runGroup_gangKept h g, fun a => by rw [runGroup_mem]⟩

/-- The thread of an executing instruction that neither exits nor checks for records. -/
theorem runGroup_moved {op : Nat} {f : Fields} {preds regs : List Nat} {eff : State → Nat → Res} {s : State} {t : Nat} {e : Eff}
    (h : Issues s op f preds regs t) (he : eff s t = .go e) (hx : e.exits = false) (hc : e.check = false) :
    Thread.Moved (e.onThread (s.thread t)) ((runGroup op f preds regs eff s).thread t) (e.next.getD (nextPc s.pc)) :=
  runGroup_go h.mem h.nodup h.ready h.checkIn he hx hc

/-! A thread that issues alone. -/

/-- An instruction of a thread that issues alone is its own effect, applied once. -/
theorem runGroup_alone {op : Nat} {f : Fields} {preds regs : List Nat} {s : State} {t : Nat} {eff : State → Nat → Res} {r : Res}
    (h : Alone s op f preds regs t) (he : eff s t = r) :
    runGroup op f preds regs eff s = applyRes op f s [(t, some r)] s (t, some r) := by
  have hj : judge s op f preds regs eff = [(t, some r)] := by
    simp [judge, State.readyGroup, h.alone, h.ready, judgeOne, h.toIssues.checkIn, he]
  simp only [runGroup, hj, List.foldl_cons, List.foldl_nil]

/-- The threads that execute, when one issues alone. -/
theorem goers_alone {op : Nat} {f : Fields} {preds regs : List Nat} {s : State} {t : Nat} {eff : State → Nat → Res} {e : Eff}
    (h : Alone s op f preds regs t) (he : eff s t = .go e) : goers (judge s op f preds regs eff) = [t] := by
  have hj : judge s op f preds regs eff = [(t, some (.go e))] := by
    simp [judge, State.readyGroup, h.alone, h.ready, judgeOne, h.toIssues.checkIn, he]
  simp [hj, goers]

/-- A thread that issues alone writes its gang-uniform registers itself. -/
theorem uniOnce_alone {serial t : Nat} {e : Eff} : uniOnce serial (uniWrites [(t, some (.go e))] (gangOf t)) t e = e := by
  have : uniWriter serial (uniWrites [(t, some (.go e))] (gangOf t)) = some t := by
    simp [uniWrites, uniWriter]
  simp [uniOnce, this]

/-- The state that an effect leaves for a thread that issues alone, before it ends, delivers a record or waits. -/
def appliedAlone (op : Nat) (f : Fields) (s : State) (t : Nat) (e : Eff) : State :=
  applyEff f (labelOf s op f t) (fullGang s (gangOf t) [t]) (isFirst (earlyWriters [(t, some (.go e))]) t)
    ((earlyWriters [(t, some (.go e))]).any (fun u => gangOf u == gangOf t)) t s e

theorem runGroup_go_alone {op : Nat} {f : Fields} {preds regs : List Nat} {s : State} {t : Nat} {eff : State → Nat → Res} {e : Eff}
    (h : Alone s op f preds regs t) (he : eff s t = .go e) :
    runGroup op f preds regs eff s = appliedAlone op f s t e := by
  rw [runGroup_alone h he]
  simp only [applyRes, appliedAlone, uniOnce_alone]
  rfl

theorem runGroup_trap_alone {op : Nat} {f : Fields} {preds regs : List Nat} {s : State} {t : Nat} {eff : State → Nat → Res} {kind : Nat}
    {info : Word} {after : Bool} (h : Alone s op f preds regs t) (he : eff s t = .trap kind info after) :
    runGroup op f preds regs eff s = issueTrap s t kind (if after then nextPc s.pc else s.pc) info (labelOf s op f t) := by
  rw [runGroup_alone h he]
  rfl

/-- A trap with a handler, for a ready thread outside one, taken at its issue. -/
theorem issueTrap_trapped {s : State} {t kind : Nat} {ret : Pc} {info : Word} {l : Label} {pc : Pc} (hr : (s.thread t).sched = .ready)
    (hh : (s.launchOf t).handler = some pc) (hi : (s.thread t).inTrap = false) :
    Trapped s (issueTrap s t kind ret info l) t kind ret info pc := by
  have hc : ((s.charge t).thread t).inTrap = false := by simp [hi]
  have hh' : ((s.charge t).launchOf t).handler = some pc := hh
  have hr' : ((s.charge t).thread t).sched = .ready := by simp [hr]
  have hg : ∀ g, (issueTrap s t kind ret info l).gang g = ((takeTrap (s.charge t) t kind ret info l)).gang g := fun _ => rfl
  refine ⟨?_, ?_, ?_, ?_, ?_, ?_, ?_, fun r => ?_, fun g => ?_, fun a => by simp⟩
  iterate 8
    simp [issueTrap, takeTrap, hh', hc, Thread.goTo_ready hr', Thread.reg, Thread.full]
  have h := own_takeTrap (s.charge t) t kind ret info l g
  have k := labelFrame_takeTrap [] [] [] [] (s.charge t) t kind ret info l g
  rw [hg]
  simp only [Gang.own, State.gang_charge] at h k
  injection h with h1 _ h2 h3
  exact ⟨fun r hr => ⟨by simp [Gang.sreg, h1], k.sreg r hr⟩, fun r hr => ⟨by rw [h2], k.record r hr⟩, k.tile, k.pred, k.control, h3⟩

end Sys2Proof.Machine
end

