-- ==== Sys2Proof/Laws/Landing.lean ====
section
/-! SUPPORT. What a landing comes to, for an access that nothing stands before and whose sector access carries it alone. -/

namespace Sys2Proof.Machine

/-- A landing that adds no record to those waiting for a full queue is what its access does (R374, R400). -/
theorem landOne_room {land : State → Nat → Access → Pick → Nat → State} {pick : Pick} {x id : Nat} {s : State} {a : Access}
    (ha : tabGet s.accesses id = some a) (he : enabled s id a = true)
    (hr : s.sfqFull (s.coreOf a.thread) = true →
      ((land s id a pick x).core (s.coreOf a.thread)).late.length ≤ (s.core (s.coreOf a.thread)).late.length) : landOne land pick x s id = land s id a pick x := by
  simp only [landOne, ha, he, if_true, State.orWait]
  by_cases hq : s.sfqFull (s.coreOf a.thread) = true
  · have := hr hq
    simp [Nat.not_lt.2 this]
  · simp [hq]

/-- The one access of a sector access lands. -/
theorem landWith_alone {land : State → Nat → Access → Pick → Nat → State} {pick : Pick} {id : Nat} {s : State} {a : Access}
    (ha : tabGet s.accesses id = some a) (he : enabled s id a = true) (hp : pastMemory s a = false)
    (hm : s.mates id a (a.sector pick) = [id])
    (hr : s.sfqFull (s.coreOf a.thread) = true →
      ((land s id a pick (a.sector pick)).core (s.coreOf a.thread)).late.length ≤ (s.core (s.coreOf a.thread)).late.length) :
    landWith land id pick s = .next (land s id a pick (a.sector pick)) := by
  simp only [landWith, ha, hm, he, List.any_cons, List.any_nil, Option.map_some, Option.getD_some, hp, List.foldl_cons, List.foldl_nil,
    landOne_room ha he hr]
  rfl

/-- An access before which something stands does not land: the event leaves the state as it is. -/
theorem landWith_waits {land : State → Nat → Access → Pick → Nat → State} {pick : Pick} {id : Nat} {s : State} {a : Access}
    (ha : tabGet s.accesses id = some a) (he : enabled s id a = false) : landWith land id pick s = .next s := by
  simp [landWith, ha, he]

end Sys2Proof.Machine
end

