-- ==== Sys2Proof/Laws/Memory.lean ====
section
/-! SUPPORT. The laws of memory bytes: a read after a write, what a write leaves alone, and the canonical form kept. -/

namespace Sys2Proof.Machine

@[simp] theorem Memory.get_put (m : Memory) (a b : Nat) (x : Byte) : (m.put a x).get b = if b = a then x else m.get b := by
  simp [Memory.get, Memory.put]

/-- A write of bytes below or above an address leaves the byte there. -/
theorem Memory.get_write_out (m : Memory) (a b : Nat) (bs : List Byte) (h : b < a ∨ a + bs.length ≤ b) :
    (m.write a bs).get b = m.get b := by
  induction bs generalizing m a with
  | nil => rfl
  | cons x l ih =>
    simp only [List.length_cons] at h
    rw [Memory.write, ih _ _ (by omega), Memory.get_put, if_neg (by omega)]

/-- A write of bytes puts each at its place. -/
theorem Memory.get_write_in (m : Memory) (a i : Nat) (bs : List Byte) (h : i < bs.length) :
    (m.write a bs).get (a + i) = bs[i] := by
  induction bs generalizing m a i with
  | nil => simp at h
  | cons x l ih =>
    cases i with
    | zero =>
      rw [Memory.write, Memory.get_write_out _ _ _ _ (by omega), Memory.get_put]
      simp
    | succ i =>
      have := ih (m.put a x) (a + 1) i (by simpa using h)
      rw [Memory.write, show a + (i + 1) = a + 1 + i by omega, this]
      simp

/-- What was written is read back. -/
theorem Memory.read_write (m : Memory) (a : Nat) (bs : List Byte) : (m.write a bs).read a bs.length = bs := by
  apply List.ext_getElem
  · simp [Memory.read]
  · intro i h1 h2
    simp [Memory.read, Memory.get_write_in _ _ _ _ h2]

theorem Memory.wf_put (m : Memory) (a : Nat) (x : Byte) (h : m.wf = true) : (m.put a x).wf = true :=
  tabWf_set 0 m a x h

theorem Memory.wf_write (m : Memory) (a : Nat) (bs : List Byte) (h : m.wf = true) : (m.write a bs).wf = true := by
  induction bs generalizing m a with
  | nil => exact h
  | cons x l ih => exact ih _ _ (Memory.wf_put m a x h)

theorem Memory.wf_clear (m : Memory) (a n : Nat) (h : m.wf = true) : (m.clear a n).wf = true := tabWf_filter 0 _ m h

/-- Clearing leaves 0 in the range and the rest alone. -/
theorem Memory.get_clear (m : Memory) (a n b : Nat) : (m.clear a n).get b = if a ≤ b ∧ b < a + n then 0 else m.get b := by
  induction m with
  | nil => simp [Memory.get, Memory.clear]
  | cons e m ih =>
    obtain ⟨k, v⟩ := e
    simp only [Memory.get, Memory.clear, tabGetD, List.filter_cons] at ih ⊢
    by_cases hk : b = k
    · subst hk
      by_cases hr : a ≤ b ∧ b < a + n
      · have h1 : ¬(b < a ∨ a + n ≤ b) := by omega
        simpa [hr, h1] using ih
      · have h1 : b < a ∨ a + n ≤ b := by omega
        simp [hr, h1, tabGet]
    · split <;> simp_all [tabGet]

end Sys2Proof.Machine
end

