-- ==== Sys2Proof/Laws/PerInstr.lean ====
section
/-! SUPPORT. The family Row: the form of an instruction's opcode builds it from its fields, one lemma for each constructor. -/

namespace Sys2Proof.Laws.Row

/-- The row of the table Opcode Map at the instruction's opcode builds the instruction from its fields (R77, R99). -/
def Statement (i : Instr) : Prop := ∀ f, i.fields = some f → ∃ x, formOf (opcodeOf i) = some x ∧ x.build f = i

theorem queryState (m : Message) : Statement (.queryState m) := fun _ h => by cases h
theorem replay (m : Message) : Statement (.replay m) := fun _ h => by cases h
theorem loadObject (m : Message) : Statement (.loadObject m) := fun _ h => by cases h
theorem unloadObject (m : Message) : Statement (.unloadObject m) := fun _ h => by cases h
theorem jobOpen (m : Message) : Statement (.jobOpen m) := fun _ h => by cases h
theorem jobClose (m : Message) : Statement (.jobClose m) := fun _ h => by cases h
theorem phaseNext (m : Message) : Statement (.phaseNext m) := fun _ h => by cases h
theorem saveArea (m : Message) : Statement (.saveArea m) := fun _ h => by cases h
theorem resumeJob (m : Message) : Statement (.resumeJob m) := fun _ h => by cases h
theorem submit (m : Message) : Statement (.submit m) := fun _ h => by cases h
theorem cancelCmd (m : Message) : Statement (.cancelCmd m) := fun _ h => by cases h
theorem queueConfig (m : Message) : Statement (.queueConfig m) := fun _ h => by cases h
theorem memWrite (m : Message) : Statement (.memWrite m) := fun _ h => by cases h
theorem memRead (m : Message) : Statement (.memRead m) := fun _ h => by cases h
theorem statusWindowRead (m : Message) : Statement (.statusWindowRead m) := fun _ h => by cases h
theorem endpointEnable (m : Message) : Statement (.endpointEnable m) := fun _ h => by cases h
theorem shortMessage (m : Message) : Statement (.shortMessage m) := fun _ h => by cases h
theorem bindSlot (m : Message) : Statement (.bindSlot m) := fun _ h => by cases h
theorem peer (m : Message) : Statement (.peer m) := fun _ h => by cases h
theorem policy (m : Message) : Statement (.policy m) := fun _ h => by cases h
theorem revoke (m : Message) : Statement (.revoke m) := fun _ h => by cases h
theorem teaselTableRead (m : Message) : Statement (.teaselTableRead m) := fun _ h => by cases h
theorem replacementImage (m : Message) : Statement (.replacementImage m) := fun _ h => by cases h
theorem configurationRecord (m : Message) : Statement (.configurationRecord m) := fun _ h => by cases h
theorem nonce (m : Message) : Statement (.nonce m) := fun _ h => by cases h
theorem attestationReport (m : Message) : Statement (.attestationReport m) := fun _ h => by cases h
theorem bootStatus (m : Message) : Statement (.bootStatus m) := fun _ h => by cases h
theorem ringTailCheck (p : Nat) : Statement (.ringTailCheck p) := fun _ h => by cases h
theorem mapPages (p : Nat) : Statement (.mapPages p) := fun _ h => by cases h
theorem unmapPages (p : Nat) : Statement (.unmapPages p) := fun _ h => by cases h
theorem protect (p : Nat) : Statement (.protect p) := fun _ h => by cases h
theorem evict (p : Nat) : Statement (.evict p) := fun _ h => by cases h
theorem launchEntryStart (p q : Nat) : Statement (.launchEntryStart p q) := fun _ h => by cases h
theorem graphEntryArm (p q : Nat) : Statement (.graphEntryArm p q) := fun _ h => by cases h
theorem copyEntry (p q : Nat) : Statement (.copyEntry p q) := fun _ h => by cases h
theorem bindRecordWrite (slice index : Nat) (value : BitVec 64) : Statement (.bindRecordWrite slice index value) := fun _ h => by cases h
theorem leaseLengthWrite (slice : Nat) (value : Word) : Statement (.leaseLengthWrite slice value) := fun _ h => by cases h
theorem voteWrite (slice : Nat) (value : Word) : Statement (.voteWrite slice value) := fun _ h => by cases h
theorem domainGate (slice : Nat) : Statement (.domainGate slice) := fun _ h => by cases h
theorem domainUngate (slice : Nat) : Statement (.domainUngate slice) := fun _ h => by cases h
theorem registerWrite (w : RegWrite) : Statement (.registerWrite w) := fun _ h => by cases h
theorem threadUnblock (t : Nat) : Statement (.threadUnblock t) := fun _ h => by cases h
theorem loadWriteback (id : Nat) (pick : Pick) : Statement (.loadWriteback id pick) := fun _ h => by cases h
theorem writePerform (id : Nat) (pick : Pick) : Statement (.writePerform id pick) := fun _ h => by cases h
theorem atomicPerform (id : Nat) (pick : Pick) : Statement (.atomicPerform id pick) := fun _ h => by cases h
theorem exactPathWriteback (id : Nat) : Statement (.exactPathWriteback id) := fun _ h => by cases h
theorem remoteAccessIn (r : RemoteAccess) : Statement (.remoteAccessIn r) := fun _ h => by cases h
theorem copyChunk (c slice : Nat) (pick : Pick) : Statement (.copyChunk c slice pick) := fun _ h => by cases h
theorem mmaChunkGrant (cluster : Nat) : Statement (.mmaChunkGrant cluster) := fun _ h => by cases h
theorem gthrsLineFill (id : Nat) (pick : Pick) : Statement (.gthrsLineFill id pick) := fun _ h => by cases h
theorem remapTableWrite (id : Nat) (pick : Pick) : Statement (.remapTableWrite id pick) := fun _ h => by cases h
theorem codebookSlotWrite (id : Nat) (pick : Pick) : Statement (.codebookSlotWrite id pick) := fun _ h => by cases h
theorem variantTableRead (id : Nat) (pick : Pick) : Statement (.variantTableRead id pick) := fun _ h => by cases h
theorem quiescence (target : Quiesce) : Statement (.quiescence target) := fun _ h => by cases h
theorem passCountRaise (cluster : Nat) : Statement (.passCountRaise cluster) := fun _ h => by cases h
theorem passCountLower (cluster : Nat) : Statement (.passCountLower cluster) := fun _ h => by cases h
theorem reconfigure (m : Message) : Statement (.reconfigure m) := fun _ h => by cases h
theorem bra (f : Fields) : Statement (.bra f) := fun _ h => by cases h; exact ⟨_, rfl, rfl⟩
theorem brx (f : Fields) : Statement (.brx f) := fun _ h => by cases h; exact ⟨_, rfl, rfl⟩
theorem call (f : Fields) : Statement (.call f) := fun _ h => by cases h; exact ⟨_, rfl, rfl⟩
theorem callx (f : Fields) : Statement (.callx f) := fun _ h => by cases h; exact ⟨_, rfl, rfl⟩
theorem ret (f : Fields) : Statement (.ret f) := fun _ h => by cases h; exact ⟨_, rfl, rfl⟩
theorem exitI (f : Fields) : Statement (.exitI f) := fun _ h => by cases h; exact ⟨_, rfl, rfl⟩
theorem yieldI (f : Fields) : Statement (.yieldI f) := fun _ h => by cases h; exact ⟨_, rfl, rfl⟩
theorem nop (f : Fields) : Statement (.nop f) := fun _ h => by cases h; exact ⟨_, rfl, rfl⟩
theorem setpri (f : Fields) : Statement (.setpri f) := fun _ h => by cases h; exact ⟨_, rfl, rfl⟩
theorem bpt (f : Fields) : Statement (.bpt f) := fun _ h => by cases h; exact ⟨_, rfl, rfl⟩
theorem trapI (f : Fields) : Statement (.trapI f) := fun _ h => by cases h; exact ⟨_, rfl, rfl⟩
theorem iadd (f : Fields) : Statement (.iadd f) := fun _ h => by cases h; exact ⟨_, rfl, rfl⟩
theorem isub (f : Fields) : Statement (.isub f) := fun _ h => by cases h; exact ⟨_, rfl, rfl⟩
theorem iaddc (f : Fields) : Statement (.iaddc f) := fun _ h => by cases h; exact ⟨_, rfl, rfl⟩
theorem isubc (f : Fields) : Statement (.isubc f) := fun _ h => by cases h; exact ⟨_, rfl, rfl⟩
theorem imul (f : Fields) : Statement (.imul f) := fun _ h => by cases h; exact ⟨_, rfl, rfl⟩
theorem imulh (f : Fields) : Statement (.imulh f) := fun _ h => by cases h; exact ⟨_, rfl, rfl⟩
theorem imad (f : Fields) : Statement (.imad f) := fun _ h => by cases h; exact ⟨_, rfl, rfl⟩
theorem imin (f : Fields) : Statement (.imin f) := fun _ h => by cases h; exact ⟨_, rfl, rfl⟩
theorem imax (f : Fields) : Statement (.imax f) := fun _ h => by cases h; exact ⟨_, rfl, rfl⟩
theorem iabs (f : Fields) : Statement (.iabs f) := fun _ h => by cases h; exact ⟨_, rfl, rfl⟩
theorem band (f : Fields) : Statement (.band f) := fun _ h => by cases h; exact ⟨_, rfl, rfl⟩
theorem bor (f : Fields) : Statement (.bor f) := fun _ h => by cases h; exact ⟨_, rfl, rfl⟩
theorem bxor (f : Fields) : Statement (.bxor f) := fun _ h => by cases h; exact ⟨_, rfl, rfl⟩
theorem bnot (f : Fields) : Statement (.bnot f) := fun _ h => by cases h; exact ⟨_, rfl, rfl⟩
theorem logt (f : Fields) : Statement (.logt f) := fun _ h => by cases h; exact ⟨_, rfl, rfl⟩
theorem shl (f : Fields) : Statement (.shl f) := fun _ h => by cases h; exact ⟨_, rfl, rfl⟩
theorem shr (f : Fields) : Statement (.shr f) := fun _ h => by cases h; exact ⟨_, rfl, rfl⟩
theorem sar (f : Fields) : Statement (.sar f) := fun _ h => by cases h; exact ⟨_, rfl, rfl⟩
theorem dsh (f : Fields) : Statement (.dsh f) := fun _ h => by cases h; exact ⟨_, rfl, rfl⟩
theorem bfe (f : Fields) : Statement (.bfe f) := fun _ h => by cases h; exact ⟨_, rfl, rfl⟩
theorem bfi (f : Fields) : Statement (.bfi f) := fun _ h => by cases h; exact ⟨_, rfl, rfl⟩
theorem maskB (f : Fields) : Statement (.maskB f) := fun _ h => by cases h; exact ⟨_, rfl, rfl⟩
theorem popc (f : Fields) : Statement (.popc f) := fun _ h => by cases h; exact ⟨_, rfl, rfl⟩
theorem clz (f : Fields) : Statement (.clz f) := fun _ h => by cases h; exact ⟨_, rfl, rfl⟩
theorem brev (f : Fields) : Statement (.brev f) := fun _ h => by cases h; exact ⟨_, rfl, rfl⟩
theorem bswz (f : Fields) : Statement (.bswz f) := fun _ h => by cases h; exact ⟨_, rfl, rfl⟩
theorem bdot (f : Fields) : Statement (.bdot f) := fun _ h => by cases h; exact ⟨_, rfl, rfl⟩
theorem bsad (f : Fields) : Statement (.bsad f) := fun _ h => by cases h; exact ⟨_, rfl, rfl⟩
theorem isetp (f : Fields) : Statement (.isetp f) := fun _ h => by cases h; exact ⟨_, rfl, rfl⟩
theorem sel (f : Fields) : Statement (.sel f) := fun _ h => by cases h; exact ⟨_, rfl, rfl⟩
theorem lea (f : Fields) : Statement (.lea f) := fun _ h => by cases h; exact ⟨_, rfl, rfl⟩
theorem mov (f : Fields) : Statement (.mov f) := fun _ h => by cases h; exact ⟨_, rfl, rfl⟩
theorem movh (f : Fields) : Statement (.movh f) := fun _ h => by cases h; exact ⟨_, rfl, rfl⟩
theorem addi (f : Fields) : Statement (.addi f) := fun _ h => by cases h; exact ⟨_, rfl, rfl⟩
theorem movx (f : Fields) : Statement (.movx f) := fun _ h => by cases h; exact ⟨_, rfl, rfl⟩
theorem pand (f : Fields) : Statement (.pand f) := fun _ h => by cases h; exact ⟨_, rfl, rfl⟩
theorem por (f : Fields) : Statement (.por f) := fun _ h => by cases h; exact ⟨_, rfl, rfl⟩
theorem pxor (f : Fields) : Statement (.pxor f) := fun _ h => by cases h; exact ⟨_, rfl, rfl⟩
theorem pnot (f : Fields) : Statement (.pnot f) := fun _ h => by cases h; exact ⟨_, rfl, rfl⟩
theorem p2v (f : Fields) : Statement (.p2v f) := fun _ h => by cases h; exact ⟨_, rfl, rfl⟩
theorem v2p (f : Fields) : Statement (.v2p f) := fun _ h => by cases h; exact ⟨_, rfl, rfl⟩
theorem rdlane (f : Fields) : Statement (.rdlane f) := fun _ h => by cases h; exact ⟨_, rfl, rfl⟩
theorem srd (f : Fields) : Statement (.srd f) := fun _ h => by cases h; exact ⟨_, rfl, rfl⟩
theorem swr (f : Fields) : Statement (.swr f) := fun _ h => by cases h; exact ⟨_, rfl, rfl⟩
theorem setmode (f : Fields) : Statement (.setmode f) := fun _ h => by cases h; exact ⟨_, rfl, rfl⟩
theorem partW (f : Fields) : Statement (.partW f) := fun _ h => by cases h; exact ⟨_, rfl, rfl⟩
theorem shflIdx (f : Fields) : Statement (.shflIdx f) := fun _ h => by cases h; exact ⟨_, rfl, rfl⟩
theorem shflRot (f : Fields) : Statement (.shflRot f) := fun _ h => by cases h; exact ⟨_, rfl, rfl⟩
theorem shflXor (f : Fields) : Statement (.shflXor f) := fun _ h => by cases h; exact ⟨_, rfl, rfl⟩
theorem shflRev (f : Fields) : Statement (.shflRev f) := fun _ h => by cases h; exact ⟨_, rfl, rfl⟩
theorem voteAll (f : Fields) : Statement (.voteAll f) := fun _ h => by cases h; exact ⟨_, rfl, rfl⟩
theorem voteAny (f : Fields) : Statement (.voteAny f) := fun _ h => by cases h; exact ⟨_, rfl, rfl⟩
theorem voteBallot (f : Fields) : Statement (.voteBallot f) := fun _ h => by cases h; exact ⟨_, rfl, rfl⟩
theorem redgAdd (f : Fields) : Statement (.redgAdd f) := fun _ h => by cases h; exact ⟨_, rfl, rfl⟩
theorem redgMin (f : Fields) : Statement (.redgMin f) := fun _ h => by cases h; exact ⟨_, rfl, rfl⟩
theorem redgMax (f : Fields) : Statement (.redgMax f) := fun _ h => by cases h; exact ⟨_, rfl, rfl⟩
theorem scang (f : Fields) : Statement (.scang f) := fun _ h => by cases h; exact ⟨_, rfl, rfl⟩
theorem matchG (f : Fields) : Statement (.matchG f) := fun _ h => by cases h; exact ⟨_, rfl, rfl⟩
theorem elect (f : Fields) : Statement (.elect f) := fun _ h => by cases h; exact ⟨_, rfl, rfl⟩
theorem fadd (f : Fields) : Statement (.fadd f) := fun _ h => by cases h; exact ⟨_, rfl, rfl⟩
theorem fsub (f : Fields) : Statement (.fsub f) := fun _ h => by cases h; exact ⟨_, rfl, rfl⟩
theorem fmul (f : Fields) : Statement (.fmul f) := fun _ h => by cases h; exact ⟨_, rfl, rfl⟩
theorem ffma (f : Fields) : Statement (.ffma f) := fun _ h => by cases h; exact ⟨_, rfl, rfl⟩
theorem fmin (f : Fields) : Statement (.fmin f) := fun _ h => by cases h; exact ⟨_, rfl, rfl⟩
theorem fmax (f : Fields) : Statement (.fmax f) := fun _ h => by cases h; exact ⟨_, rfl, rfl⟩
theorem fneg (f : Fields) : Statement (.fneg f) := fun _ h => by cases h; exact ⟨_, rfl, rfl⟩
theorem fabs (f : Fields) : Statement (.fabs f) := fun _ h => by cases h; exact ⟨_, rfl, rfl⟩
theorem fscale (f : Fields) : Statement (.fscale f) := fun _ h => by cases h; exact ⟨_, rfl, rfl⟩
theorem fsetp (f : Fields) : Statement (.fsetp f) := fun _ h => by cases h; exact ⟨_, rfl, rfl⟩
theorem fclass (f : Fields) : Statement (.fclass f) := fun _ h => by cases h; exact ⟨_, rfl, rfl⟩
theorem frnd (f : Fields) : Statement (.frnd f) := fun _ h => by cases h; exact ⟨_, rfl, rfl⟩
theorem hfma2 (f : Fields) : Statement (.hfma2 f) := fun _ h => by cases h; exact ⟨_, rfl, rfl⟩
theorem hadd2 (f : Fields) : Statement (.hadd2 f) := fun _ h => by cases h; exact ⟨_, rfl, rfl⟩
theorem hsub2 (f : Fields) : Statement (.hsub2 f) := fun _ h => by cases h; exact ⟨_, rfl, rfl⟩
theorem hmul2 (f : Fields) : Statement (.hmul2 f) := fun _ h => by cases h; exact ⟨_, rfl, rfl⟩
theorem hmin2 (f : Fields) : Statement (.hmin2 f) := fun _ h => by cases h; exact ⟨_, rfl, rfl⟩
theorem hmax2 (f : Fields) : Statement (.hmax2 f) := fun _ h => by cases h; exact ⟨_, rfl, rfl⟩
theorem hneg2 (f : Fields) : Statement (.hneg2 f) := fun _ h => by cases h; exact ⟨_, rfl, rfl⟩
theorem habs2 (f : Fields) : Statement (.habs2 f) := fun _ h => by cases h; exact ⟨_, rfl, rfl⟩
theorem hsetp2 (f : Fields) : Statement (.hsetp2 f) := fun _ h => by cases h; exact ⟨_, rfl, rfl⟩
theorem cvt (f : Fields) : Statement (.cvt f) := fun _ h => by cases h; exact ⟨_, rfl, rfl⟩
theorem pack2 (f : Fields) : Statement (.pack2 f) := fun _ h => by cases h; exact ⟨_, rfl, rfl⟩
theorem rcp (f : Fields) : Statement (.rcp f) := fun _ h => by cases h; exact ⟨_, rfl, rfl⟩
theorem rsq (f : Fields) : Statement (.rsq f) := fun _ h => by cases h; exact ⟨_, rfl, rfl⟩
theorem sqrt (f : Fields) : Statement (.sqrt f) := fun _ h => by cases h; exact ⟨_, rfl, rfl⟩
theorem exp2 (f : Fields) : Statement (.exp2 f) := fun _ h => by cases h; exact ⟨_, rfl, rfl⟩
theorem log2 (f : Fields) : Statement (.log2 f) := fun _ h => by cases h; exact ⟨_, rfl, rfl⟩
theorem sin (f : Fields) : Statement (.sin f) := fun _ h => by cases h; exact ⟨_, rfl, rfl⟩
theorem cos (f : Fields) : Statement (.cos f) := fun _ h => by cases h; exact ⟨_, rfl, rfl⟩
theorem tanh (f : Fields) : Statement (.tanh f) := fun _ h => by cases h; exact ⟨_, rfl, rfl⟩
theorem callv (f : Fields) : Statement (.callv f) := fun _ h => by cases h; exact ⟨_, rfl, rfl⟩
theorem retv (f : Fields) : Statement (.retv f) := fun _ h => by cases h; exact ⟨_, rfl, rfl⟩
theorem bset (f : Fields) : Statement (.bset f) := fun _ h => by cases h; exact ⟨_, rfl, rfl⟩
theorem bget (f : Fields) : Statement (.bget f) := fun _ h => by cases h; exact ⟨_, rfl, rfl⟩
theorem bsplit (f : Fields) : Statement (.bsplit f) := fun _ h => by cases h; exact ⟨_, rfl, rfl⟩
theorem meter (f : Fields) : Statement (.meter f) := fun _ h => by cases h; exact ⟨_, rfl, rfl⟩
theorem ld (f : Fields) : Statement (.ld f) := fun _ h => by cases h; exact ⟨_, rfl, rfl⟩
theorem st (f : Fields) : Statement (.st f) := fun _ h => by cases h; exact ⟨_, rfl, rfl⟩
theorem ldx (f : Fields) : Statement (.ldx f) := fun _ h => by cases h; exact ⟨_, rfl, rfl⟩
theorem stx (f : Fields) : Statement (.stx f) := fun _ h => by cases h; exact ⟨_, rfl, rfl⟩
theorem erase (f : Fields) : Statement (.erase f) := fun _ h => by cases h; exact ⟨_, rfl, rfl⟩
theorem exq (f : Fields) : Statement (.exq f) := fun _ h => by cases h; exact ⟨_, rfl, rfl⟩
theorem pref (f : Fields) : Statement (.pref f) := fun _ h => by cases h; exact ⟨_, rfl, rfl⟩
theorem brmake (f : Fields) : Statement (.brmake f) := fun _ h => by cases h; exact ⟨_, rfl, rfl⟩
theorem brset (f : Fields) : Statement (.brset f) := fun _ h => by cases h; exact ⟨_, rfl, rfl⟩
theorem brget (f : Fields) : Statement (.brget f) := fun _ h => by cases h; exact ⟨_, rfl, rfl⟩
theorem atomAdd (f : Fields) : Statement (.atomAdd f) := fun _ h => by cases h; exact ⟨_, rfl, rfl⟩
theorem atomMin (f : Fields) : Statement (.atomMin f) := fun _ h => by cases h; exact ⟨_, rfl, rfl⟩
theorem atomMax (f : Fields) : Statement (.atomMax f) := fun _ h => by cases h; exact ⟨_, rfl, rfl⟩
theorem atomAnd (f : Fields) : Statement (.atomAnd f) := fun _ h => by cases h; exact ⟨_, rfl, rfl⟩
theorem atomOr (f : Fields) : Statement (.atomOr f) := fun _ h => by cases h; exact ⟨_, rfl, rfl⟩
theorem atomXor (f : Fields) : Statement (.atomXor f) := fun _ h => by cases h; exact ⟨_, rfl, rfl⟩
theorem atomExch (f : Fields) : Statement (.atomExch f) := fun _ h => by cases h; exact ⟨_, rfl, rfl⟩
theorem atomCas (f : Fields) : Statement (.atomCas f) := fun _ h => by cases h; exact ⟨_, rfl, rfl⟩
theorem atomFadd (f : Fields) : Statement (.atomFadd f) := fun _ h => by cases h; exact ⟨_, rfl, rfl⟩
theorem redAdd (f : Fields) : Statement (.redAdd f) := fun _ h => by cases h; exact ⟨_, rfl, rfl⟩
theorem redMin (f : Fields) : Statement (.redMin f) := fun _ h => by cases h; exact ⟨_, rfl, rfl⟩
theorem redMax (f : Fields) : Statement (.redMax f) := fun _ h => by cases h; exact ⟨_, rfl, rfl⟩
theorem redAnd (f : Fields) : Statement (.redAnd f) := fun _ h => by cases h; exact ⟨_, rfl, rfl⟩
theorem redOr (f : Fields) : Statement (.redOr f) := fun _ h => by cases h; exact ⟨_, rfl, rfl⟩
theorem redXor (f : Fields) : Statement (.redXor f) := fun _ h => by cases h; exact ⟨_, rfl, rfl⟩
theorem redFadd (f : Fields) : Statement (.redFadd f) := fun _ h => by cases h; exact ⟨_, rfl, rfl⟩
theorem atomsAdd (f : Fields) : Statement (.atomsAdd f) := fun _ h => by cases h; exact ⟨_, rfl, rfl⟩
theorem atomsMin (f : Fields) : Statement (.atomsMin f) := fun _ h => by cases h; exact ⟨_, rfl, rfl⟩
theorem atomsMax (f : Fields) : Statement (.atomsMax f) := fun _ h => by cases h; exact ⟨_, rfl, rfl⟩
theorem atomsAnd (f : Fields) : Statement (.atomsAnd f) := fun _ h => by cases h; exact ⟨_, rfl, rfl⟩
theorem atomsOr (f : Fields) : Statement (.atomsOr f) := fun _ h => by cases h; exact ⟨_, rfl, rfl⟩
theorem atomsXor (f : Fields) : Statement (.atomsXor f) := fun _ h => by cases h; exact ⟨_, rfl, rfl⟩
theorem atomsExch (f : Fields) : Statement (.atomsExch f) := fun _ h => by cases h; exact ⟨_, rfl, rfl⟩
theorem atomsCas (f : Fields) : Statement (.atomsCas f) := fun _ h => by cases h; exact ⟨_, rfl, rfl⟩
theorem atomsFadd (f : Fields) : Statement (.atomsFadd f) := fun _ h => by cases h; exact ⟨_, rfl, rfl⟩
theorem redsAdd (f : Fields) : Statement (.redsAdd f) := fun _ h => by cases h; exact ⟨_, rfl, rfl⟩
theorem redsMin (f : Fields) : Statement (.redsMin f) := fun _ h => by cases h; exact ⟨_, rfl, rfl⟩
theorem redsMax (f : Fields) : Statement (.redsMax f) := fun _ h => by cases h; exact ⟨_, rfl, rfl⟩
theorem redsAnd (f : Fields) : Statement (.redsAnd f) := fun _ h => by cases h; exact ⟨_, rfl, rfl⟩
theorem redsOr (f : Fields) : Statement (.redsOr f) := fun _ h => by cases h; exact ⟨_, rfl, rfl⟩
theorem redsXor (f : Fields) : Statement (.redsXor f) := fun _ h => by cases h; exact ⟨_, rfl, rfl⟩
theorem redsFadd (f : Fields) : Statement (.redsFadd f) := fun _ h => by cases h; exact ⟨_, rfl, rfl⟩
theorem lds (f : Fields) : Statement (.lds f) := fun _ h => by cases h; exact ⟨_, rfl, rfl⟩
theorem sts (f : Fields) : Statement (.sts f) := fun _ h => by cases h; exact ⟨_, rfl, rfl⟩
theorem sfill (f : Fields) : Statement (.sfill f) := fun _ h => by cases h; exact ⟨_, rfl, rfl⟩
theorem sempty (f : Fields) : Statement (.sempty f) := fun _ h => by cases h; exact ⟨_, rfl, rfl⟩
theorem gthr (f : Fields) : Statement (.gthr f) := fun _ h => by cases h; exact ⟨_, rfl, rfl⟩
theorem gthrs (f : Fields) : Statement (.gthrs f) := fun _ h => by cases h; exact ⟨_, rfl, rfl⟩
theorem remap (f : Fields) : Statement (.remap f) := fun _ h => by cases h; exact ⟨_, rfl, rfl⟩
theorem copyI (f : Fields) : Statement (.copyI f) := fun _ h => by cases h; exact ⟨_, rfl, rfl⟩
theorem copym (f : Fields) : Statement (.copym f) := fun _ h => by cases h; exact ⟨_, rfl, rfl⟩
theorem cbload (f : Fields) : Statement (.cbload f) := fun _ h => by cases h; exact ⟨_, rfl, rfl⟩
theorem mready (f : Fields) : Statement (.mready f) := fun _ h => by cases h; exact ⟨_, rfl, rfl⟩
theorem mma (f : Fields) : Statement (.mma f) := fun _ h => by cases h; exact ⟨_, rfl, rfl⟩
theorem mmas (f : Fields) : Statement (.mmas f) := fun _ h => by cases h; exact ⟨_, rfl, rfl⟩
theorem mwait (f : Fields) : Statement (.mwait f) := fun _ h => by cases h; exact ⟨_, rfl, rfl⟩
theorem mpoll (f : Fields) : Statement (.mpoll f) := fun _ h => by cases h; exact ⟨_, rfl, rfl⟩
theorem fence (f : Fields) : Statement (.fence f) := fun _ h => by cases h; exact ⟨_, rfl, rfl⟩
theorem bar (f : Fields) : Statement (.bar f) := fun _ h => by cases h; exact ⟨_, rfl, rfl⟩
theorem bara (f : Fields) : Statement (.bara f) := fun _ h => by cases h; exact ⟨_, rfl, rfl⟩
theorem barw (f : Fields) : Statement (.barw f) := fun _ h => by cases h; exact ⟨_, rfl, rfl⟩
theorem drain (f : Fields) : Statement (.drain f) := fun _ h => by cases h; exact ⟨_, rfl, rfl⟩
theorem fewait (f : Fields) : Statement (.fewait f) := fun _ h => by cases h; exact ⟨_, rfl, rfl⟩
theorem evpost (f : Fields) : Statement (.evpost f) := fun _ h => by cases h; exact ⟨_, rfl, rfl⟩
theorem evwait (f : Fields) : Statement (.evwait f) := fun _ h => by cases h; exact ⟨_, rfl, rfl⟩
theorem evpoll (f : Fields) : Statement (.evpoll f) := fun _ h => by cases h; exact ⟨_, rfl, rfl⟩
theorem launchI (f : Fields) : Statement (.launchI f) := fun _ h => by cases h; exact ⟨_, rfl, rfl⟩
theorem garm (f : Fields) : Statement (.garm f) := fun _ h => by cases h; exact ⟨_, rfl, rfl⟩
theorem cntrd (f : Fields) : Statement (.cntrd f) := fun _ h => by cases h; exact ⟨_, rfl, rfl⟩
theorem cancelLevel (f : Fields) : Statement (.cancelLevel f) := fun _ h => by cases h; exact ⟨_, rfl, rfl⟩
theorem lblrd (f : Fields) : Statement (.lblrd f) := fun _ h => by cases h; exact ⟨_, rfl, rfl⟩
theorem lbltst (f : Fields) : Statement (.lbltst f) := fun _ h => by cases h; exact ⟨_, rfl, rfl⟩
theorem egress (f : Fields) : Statement (.egress f) := fun _ h => by cases h; exact ⟨_, rfl, rfl⟩
theorem rgn (f : Fields) : Statement (.rgn f) := fun _ h => by cases h; exact ⟨_, rfl, rfl⟩
theorem rgne (f : Fields) : Statement (.rgne f) := fun _ h => by cases h; exact ⟨_, rfl, rfl⟩
theorem sfqpop (f : Fields) : Statement (.sfqpop f) := fun _ h => by cases h; exact ⟨_, rfl, rfl⟩
theorem rft (f : Fields) : Statement (.rft f) := fun _ h => by cases h; exact ⟨_, rfl, rfl⟩
theorem termG (f : Fields) : Statement (.termG f) := fun _ h => by cases h; exact ⟨_, rfl, rfl⟩
theorem termU (f : Fields) : Statement (.termU f) := fun _ h => by cases h; exact ⟨_, rfl, rfl⟩
theorem halt (f : Fields) : Statement (.halt f) := fun _ h => by cases h; exact ⟨_, rfl, rfl⟩
theorem endpointDisable  : Statement (.endpointDisable) := fun _ h => by cases h
theorem createPart  : Statement (.createPart) := fun _ h => by cases h
theorem destroyPart  : Statement (.destroyPart) := fun _ h => by cases h
theorem assignCopy  : Statement (.assignCopy) := fun _ h => by cases h
theorem bindEndpoint  : Statement (.bindEndpoint) := fun _ h => by cases h
theorem stackClear  : Statement (.stackClear) := fun _ h => by cases h
theorem policyPeriod  : Statement (.policyPeriod) := fun _ h => by cases h
theorem powerUpReset  : Statement (.powerUpReset) := fun _ h => by cases h
theorem evictHeldPerform  : Statement (.evictHeldPerform) := fun _ h => by cases h
theorem shootDown  : Statement (.shootDown) := fun _ h => by cases h
theorem migrationNoticeResend  : Statement (.migrationNoticeResend) := fun _ h => by cases h
theorem graphNodeStart  : Statement (.graphNodeStart) := fun _ h => by cases h
theorem waitEntry  : Statement (.waitEntry) := fun _ h => by cases h
theorem unitDispatch  : Statement (.unitDispatch) := fun _ h => by cases h
theorem fusionChange  : Statement (.fusionChange) := fun _ h => by cases h
theorem unitEnd  : Statement (.unitEnd) := fun _ h => by cases h
theorem levelCompletion  : Statement (.levelCompletion) := fun _ h => by cases h
theorem budgetRefill  : Statement (.budgetRefill) := fun _ h => by cases h
theorem borrow  : Statement (.borrow) := fun _ h => by cases h
theorem aging  : Statement (.aging) := fun _ h => by cases h
theorem glasonSwap  : Statement (.glasonSwap) := fun _ h => by cases h
theorem glasonPendingAging  : Statement (.glasonPendingAging) := fun _ h => by cases h
theorem skidLimit  : Statement (.skidLimit) := fun _ h => by cases h
theorem barrierPhaseComplete  : Statement (.barrierPhaseComplete) := fun _ h => by cases h
theorem regionOpen  : Statement (.regionOpen) := fun _ h => by cases h
theorem regionCommit  : Statement (.regionCommit) := fun _ h => by cases h
theorem heldAccessReplay  : Statement (.heldAccessReplay) := fun _ h => by cases h
theorem eventThresholdNotice  : Statement (.eventThresholdNotice) := fun _ h => by cases h
theorem unitCommandStart  : Statement (.unitCommandStart) := fun _ h => by cases h
theorem copyEngineAccept  : Statement (.copyEngineAccept) := fun _ h => by cases h
theorem copyResume  : Statement (.copyResume) := fun _ h => by cases h
theorem copyComplete  : Statement (.copyComplete) := fun _ h => by cases h
theorem mmaComplete  : Statement (.mmaComplete) := fun _ h => by cases h
theorem regionAbort  : Statement (.regionAbort) := fun _ h => by cases h
theorem regionRestart  : Statement (.regionRestart) := fun _ h => by cases h
theorem railHoldExpiry  : Statement (.railHoldExpiry) := fun _ h => by cases h
theorem railReady  : Statement (.railReady) := fun _ h => by cases h
theorem loadRecordUpdate  : Statement (.loadRecordUpdate) := fun _ h => by cases h
theorem fadeStart  : Statement (.fadeStart) := fun _ h => by cases h
theorem fadeEnd  : Statement (.fadeEnd) := fun _ h => by cases h

end Sys2Proof.Laws.Row
end

