-- ==== Sys2Proof/Laws/Results.lean ====
section
/-! SUPPORT. The labels of the results that a group's instruction writes (R131, R273, R274). -/

namespace Sys2Proof.Machine

/-! One register tile. -/

/-- The label that a write brings to a register tile. -/
def Wr.onTile (r : Nat) : Wr → Option Label
  | .reg k _ l => if k = r then some l else none
  | _ => none

/-- The labels of a list of writes brought to a tile one after another. -/
def tileAfter (isFull first : Bool) (r : Nat) (ws : List Wr) (x : Label) : Label :=
  (ws.filterMap (Wr.onTile r)).foldl (fun x l => tileLabelAfter x isFull first l) x

theorem applyWr_tile (a b : Bool) (t : Nat) (s : State) (w : Wr) (g : Nat) {r : Nat} (hr : r < 255) :
    ((applyWr a b t s w).gang g).tileLabel r =
      if g = gangOf t then tileAfter a b r [w] ((s.gang g).tileLabel r) else (s.gang g).tileLabel r := by
  have other : ∀ {ds ps us bs : List Nat}, w.within ds ps us bs → r ∉ ds → [w].filterMap (Wr.onTile r) = [] →
      ((applyWr a b t s w).gang g).tileLabel r =
        if g = gangOf t then tileAfter a b r [w] ((s.gang g).tileLabel r) else (s.gang g).tileLabel r := by
    intro ds ps us bs hw hn hf
    rw [(labelFrame_applyWr a b t s w hw g).tile r hn]
    simp [tileAfter, hf]
  cases w with
  | reg k x l =>
    by_cases hk : k = r
    · subst hk
      have h1 : k ≠ 255 := by omega
      simp only [applyWr, if_neg h1, State.gang_modGang, State.gang_modThread]
      split
      · simp [tileAfter, Wr.onTile, Gang.setTile, Gang.tileLabel, h1]
      · rfl
    · exact other (ds := [k]) (ps := []) (us := []) (bs := []) (by simp [Wr.within]) (by simpa using fun e => hk e.symm)
        (by simp [Wr.onTile, hk])
  | uni k x l => exact other (ds := []) (ps := []) (us := [k]) (bs := []) (by simp [Wr.within]) (by simp) rfl
  | rcd k x l => exact other (ds := []) (ps := []) (us := []) (bs := [k]) (by simp [Wr.within]) (by simp) rfl
  | pred k x l => exact other (ds := []) (ps := [k]) (us := []) (bs := []) (by simp [Wr.within]) (by simp) rfl
  | ctl l => exact other (ds := []) (ps := []) (us := []) (bs := []) (by simp [Wr.within]) (by simp) rfl

theorem applyWrs_tile (a b : Bool) (t : Nat) (s : State) (ws : List Wr) (g : Nat) {r : Nat} (hr : r < 255) :
    ((applyWrs a b t s ws).gang g).tileLabel r =
      if g = gangOf t then tileAfter a b r ws ((s.gang g).tileLabel r) else (s.gang g).tileLabel r := by
  induction ws generalizing s with
  | nil => simp [applyWrs, tileAfter]
  | cons w ws ih =>
    rw [applyWrs, List.foldl_cons, ← applyWrs, ih, applyWr_tile _ _ _ _ _ _ hr]
    split
    · simp only [tileAfter, ← List.foldl_append, ← List.filterMap_append]
      rfl
    · rfl

theorem applyEff_tile (f : Fields) (l : Label) (a b c : Bool) (t : Nat) (s : State) (e : Eff) (g : Nat) {r : Nat} (hr : r < 255) :
    ((applyEff f l a b c t s e).gang g).tileLabel r =
      if g = gangOf t then tileAfter a b r e.writes ((s.gang g).tileLabel r) else (s.gang g).tileLabel r := by
  have ha : ((e.act a b t s).gang g).tileLabel r = ((applyWrs a b t s e.writes).gang g).tileLabel r := by
    simp only [Eff.act, State.gang_countEvents, State.setTiles]
    split
    · simp only [State.gang_modGang, State.gang_modThread]
      split
      · rename_i h; subst h; rfl
      · rfl
    · rfl
  rw [← applyWrs_tile a b t s e.writes g hr, ← ha]
  have hl := Eff.leave_gang e f a c t (e.next.getD (nextPc s.pc)) (e.act a b t s) g
  rw [← hl]
  simp only [applyEff, Eff.close]
  split
  · exact (State.labelFrame_exitThread [] [] [] [] _ t g).tile r (by simp)
  · split
    · exact (labelFrame_takeTrap [] [] [] [] _ t _ _ _ _ g).tile r (by simp)
    · split <;> rfl

/-! The tile after a group. -/

/-- The step of one thread of a judged group at the tile of gang g. -/
def tileStep (g : Nat) (isFull : Bool) (ws : List Nat) (lab : Nat → Label) (x : Label) (z : Nat × Option Res) : Label :=
  match z.2 with
  | some (.go _) => if gangOf z.1 = g then tileLabelAfter x isFull (isFirst ws z.1) (lab z.1) else x
  | _ => x

theorem uniOnce_onTile (serial : Nat) (c : List (Nat × List Wr)) (t : Nat) (e : Eff) (r : Nat) :
    (uniOnce serial c t e).writes.filterMap (Wr.onTile r) = e.writes.filterMap (Wr.onTile r) := by
  simp only [uniOnce]
  split
  · rw [List.filterMap_filter]
    congr 1
    funext w
    cases w <;> simp [Wr.isUni, Wr.onTile]
  · rfl

/-- The tile's label after a group each of whose executing threads brings it one label. -/
theorem runGroup_tileStep {op : Nat} {f : Fields} {preds regs : List Nat} {eff : State → Nat → Res} {s : State} {lab : Nat → Label} {r : Nat}
    (hr : r < 255) (he : ∀ u e, eff s u = .go e → e.writes.filterMap (Wr.onTile r) = [lab u]) (g : Nat) :
    ((runGroup op f preds regs eff s).gang g).tileLabel r =
      (judge s op f preds regs eff).foldl
        (tileStep g (fullGang s g (goers (judge s op f preds regs eff))) (earlyWriters (judge s op f preds regs eff)) lab)
        ((s.gang g).tileLabel r) := by
  simp only [runGroup]
  generalize hL : judge s op f preds regs eff = L
  have hs : ∀ b : State, ∀ z ∈ L, ((applyRes op f s L b z).gang g).tileLabel r =
      tileStep g (fullGang s g (goers L)) (earlyWriters L) lab ((b.gang g).tileLabel r) z := by
    intro b z hz
    rw [← hL] at hz
    obtain ⟨_, hz2⟩ := judge_mem hz
    simp only [applyRes, tileStep]
    split
    · rename_i h
      simp only [h]
      rfl
    · rename_i h
      simp only [h]
      rfl
    · rename_i h
      simp only [h]
      simp only [applyTrap, issueTrap]
      exact ((labelFrame_takeTrap [] [] [] [] (b.charge z.1) z.1 _ _ _ _ g).tile r (by simp)).trans rfl
    · rename_i e h
      simp only [h]
      rw [applyEff_tile _ _ _ _ _ _ _ _ _ hr]
      rw [hz2] at h
      rw [tileAfter, uniOnce_onTile, he _ _ (judgeOne_go h).1]
      by_cases hg : gangOf z.1 = g
      · subst hg; simp
      · rw [if_neg (fun h => hg h.symm), if_neg hg]
  clear hL
  have : ∀ (l : List (Nat × Option Res)) (b : State), (∀ z ∈ l, z ∈ L) →
      ((l.foldl (applyRes op f s L) b).gang g).tileLabel r =
        l.foldl (tileStep g (fullGang s g (goers L)) (earlyWriters L) lab) ((b.gang g).tileLabel r) := by
    intro l
    induction l with
    | nil => exact fun _ _ => rfl
    | cons z l ih =>
      intro b hb
      rw [List.foldl_cons, List.foldl_cons, ih _ (fun z hz => hb z (by simp [hz])), hs b z (hb z (by simp))]
  exact this L s (fun _ h => h)

theorem tileStep_bits {g : Nat} {isFull : Bool} {ws : List Nat} {lab : Nat → Label} {x : Label} {z : Nat × Option Res} {i : Nat}
    (h : (tileStep g isFull ws lab x z).getLsbD i = true) :
    x.getLsbD i = true ∨ (∃ e, z.2 = some (.go e)) ∧ gangOf z.1 = g ∧ (lab z.1).getLsbD i = true := by
  simp only [tileStep] at h
  split at h
  · rename_i e he
    split at h
    · rename_i hg
      simp only [tileLabelAfter] at h
      split at h
      · exact .inr ⟨⟨e, he⟩, hg, h⟩
      · simp only [BitVec.getLsbD_or, Bool.or_eq_true] at h
        exact h.imp id (fun h => ⟨⟨e, he⟩, hg, h⟩)
    · exact .inl h
  · exact .inl h

/-- The origins of a tile's label: the old ones, and those of the executing threads of the gang. -/
theorem tileStep_origins {g : Nat} {isFull : Bool} {ws : List Nat} {lab : Nat → Label} (l : List (Nat × Option Res)) (x : Label) {i : Nat}
    (h : ((l.foldl (tileStep g isFull ws lab) x)).getLsbD i = true) :
    x.getLsbD i = true ∨ ∃ z ∈ l, (∃ e, z.2 = some (.go e)) ∧ gangOf z.1 = g ∧ (lab z.1).getLsbD i = true := by
  induction l generalizing x with
  | nil => exact .inl h
  | cons z l ih =>
    rcases ih _ h with h | ⟨y, hy, h⟩
    · exact (tileStep_bits h).imp id (fun h => ⟨z, by simp, h⟩)
    · exact .inr ⟨y, by simp [hy], h⟩

/-- Where no thread of the list is the gang's first writer, or the gang is not written whole, what the label holds stays. -/
theorem tileStep_keeps {g : Nat} {isFull : Bool} {ws : List Nat} {lab : Nat → Label} (l : List (Nat × Option Res)) (x : Label)
    (h : isFull = false ∨ ∀ z ∈ l, gangOf z.1 = g → isFirst ws z.1 = false) {i : Nat} (hi : x.getLsbD i = true) :
    (l.foldl (tileStep g isFull ws lab) x).getLsbD i = true := by
  induction l generalizing x with
  | nil => exact hi
  | cons z l ih =>
    refine ih _ (h.imp id (fun h y hy => h y (by simp [hy]))) ?_
    simp only [tileStep]
    split
    · split
      · rename_i hg
        have : (isFull && isFirst ws z.1) = false := by
          rcases h with h | h
          · simp [h]
          · simp [h z (by simp) hg]
        simp [tileLabelAfter, this, hi]
      · exact hi
    · exact hi

/-! The labels of a group's results. -/

theorem mem_goers {l : List (Nat × Option Res)} {u : Nat} : u ∈ goers l ↔ ∃ e, (u, some (.go e)) ∈ l := by
  simp only [goers, List.mem_filterMap]
  constructor
  · rintro ⟨⟨v, r⟩, hv, h⟩
    cases r with
    | none => simp at h
    | some r => cases r <;> simp_all; exact ⟨_, hv⟩
  · rintro ⟨e, h⟩
    exact ⟨_, h, rfl⟩

/-- An executing thread of a judgement stands in the group with a true guard. -/
theorem goer_guard {op : Nat} {f : Fields} {preds regs : List Nat} {eff : State → Nat → Res} {s : State} {u : Nat} {e : Eff}
    (h : (u, some (.go e)) ∈ judge s op f preds regs eff) : u ∈ s.group ∧ guardTrue s u f = true ∧ eff s u = .go e := by
  obtain ⟨hg, hj⟩ := judge_mem h
  obtain ⟨he, hu⟩ := judgeOne_go hj.symm
  exact ⟨hg, hu, he⟩

theorem earlyWriters_append (l m : List (Nat × Option Res)) : earlyWriters (l ++ m) = earlyWriters l ++ earlyWriters m := by
  simp [earlyWriters]

theorem earlyWriters_cons {u : Nat} {e : Eff} (h : e.writes.any Wr.isReg = true) (m : List (Nat × Option Res)) :
    earlyWriters ((u, some (.go e)) :: m) = u :: earlyWriters m := by
  simp only [earlyWriters, List.filterMap_cons, h, if_true]

theorem mem_earlyWriters {l : List (Nat × Option Res)} {u : Nat} (h : u ∈ earlyWriters l) : ∃ e, (u, some (.go e)) ∈ l := by
  simp only [earlyWriters, List.mem_filterMap] at h
  obtain ⟨⟨v, r⟩, hv, h⟩ := h
  cases r with
  | none => simp at h
  | some r => cases r <;> simp_all; exact ⟨_, hv⟩

/-- A tile that every executing thread writes once: it holds the label of each; the rest of its label comes from them and, where the gang
is not written whole, from before. -/
theorem runGroup_tiles {op : Nat} {f : Fields} {preds regs : List Nat} {eff : State → Nat → Res} {s : State} {t r : Nat} {lab : Nat → Label}
    (h : Issues s op f preds regs t) (hr : r < 255) (hgo : ∀ u, ∃ e, eff s u = .go e)
    (he : ∀ u e, eff s u = .go e → e.writes.filterMap (Wr.onTile r) = [lab u]) :
    let s' := runGroup op f preds regs eff s
    Label.subset (lab t) ((s'.gang (gangOf t)).tileLabel r) = true ∧
    (∀ i, ((s'.gang (gangOf t)).tileLabel r).getLsbD i = true → ((s.gang (gangOf t)).tileLabel r).getLsbD i = true ∨
      ∃ u ∈ s.group, gangOf u = gangOf t ∧ guardTrue s u f = true ∧ (lab u).getLsbD i = true) ∧
    ((∀ u ∈ s.threadsOfGang (gangOf t), Issues s op f preds regs u) → ∀ i, ((s'.gang (gangOf t)).tileLabel r).getLsbD i = true →
      ∃ u ∈ s.group, gangOf u = gangOf t ∧ (lab u).getLsbD i = true) ∧
    ((∃ u ∈ s.threadsOfGang (gangOf t), u ∉ s.group ∨ (s.thread u).sched = .exited ∨ guardTrue s u f = false) →
      Label.subset ((s.gang (gangOf t)).tileLabel r) ((s'.gang (gangOf t)).tileLabel r) = true) := by
  intro s'
  have sub : ∀ {x y : Label}, (∀ i, x.getLsbD i = true → y.getLsbD i = true) → Label.subset x y = true := by
    intro x y h
    simp only [Label.subset, beq_iff_eq]
    refine BitVec.eq_of_getLsbD_eq (fun i hi => ?_)
    have := h i
    cases hx : x.getLsbD i <;> simp_all
  have hs := runGroup_tileStep (op := op) (f := f) (preds := preds) (regs := regs) hr he (gangOf t)
  obtain ⟨et, het⟩ := hgo t
  have htL : (t, some (.go et)) ∈ judge s op f preds regs eff := by
    refine List.mem_map.mpr ⟨t, List.mem_filter.mpr ⟨h.mem, by simp [h.ready]⟩, ?_⟩
    simp [judgeOne, h.checkIn, het]
  have hnd : ((judge s op f preds regs eff).map Prod.fst).Nodup := by
    rw [judge, List.map_map]
    have : (Prod.fst ∘ fun t => (t, judgeOne s op f preds regs eff t)) = id := rfl
    rw [this, List.map_id]
    exact h.nodup.filter _
  have hgoer : ∀ z ∈ judge s op f preds regs eff, (∃ e, z.2 = some (.go e)) → z.1 ∈ s.group ∧ guardTrue s z.1 f = true := by
    rintro ⟨u, q⟩ hz ⟨e, hq⟩
    simp only at hq
    subst hq
    exact ⟨(goer_guard hz).1, (goer_guard hz).2.1⟩
  have hew : ∀ u e, (u, some (.go e)) ∈ judge s op f preds regs eff → e.writes.any Wr.isReg = true := by
    intro u e hu
    have := he u e (goer_guard hu).2.2
    have hm : lab u ∈ e.writes.filterMap (Wr.onTile r) := by rw [this]; simp
    obtain ⟨w, hw, hl⟩ := List.mem_filterMap.mp hm
    refine List.any_eq_true.mpr ⟨w, hw, ?_⟩
    cases w <;> simp_all [Wr.onTile, Wr.isReg]
  simp only [s', hs]
  have hfull : (∃ u ∈ s.threadsOfGang (gangOf t), u ∉ s.group ∨ (s.thread u).sched = .exited ∨ guardTrue s u f = false) →
      fullGang s (gangOf t) (goers (judge s op f preds regs eff)) = false := by
    rintro ⟨u, hu, hx⟩
    refine List.all_eq_false.mpr ⟨u, hu, ?_⟩
    simp only [Bool.and_eq_true, bne_iff_ne, ne_eq, not_and, Decidable.not_not, List.contains_iff_mem]
    intro hm
    obtain ⟨e, hm⟩ := mem_goers.mp hm
    have := goer_guard hm
    rcases hx with hx | hx | hx
    · exact absurd this.1 hx
    · exact hx
    · rw [this.2.1] at hx; exact absurd hx (by simp)
  have hwhole : (∀ u ∈ s.threadsOfGang (gangOf t), Issues s op f preds regs u) →
      fullGang s (gangOf t) (goers (judge s op f preds regs eff)) = true := by
    intro ha
    refine List.all_eq_true.mpr (fun u hu => ?_)
    have hi := ha u hu
    obtain ⟨e, hue⟩ := hgo u
    have : u ∈ goers (judge s op f preds regs eff) := mem_goers.mpr ⟨e, List.mem_map.mpr
      ⟨u, List.mem_filter.mpr ⟨hi.mem, by simp [hi.ready]⟩, by simp [judgeOne, hi.checkIn, hue]⟩⟩
    simp [this, hi.ready]
  generalize hF : fullGang s (gangOf t) (goers (judge s op f preds regs eff)) = isFull at hfull hwhole
  generalize judge s op f preds regs eff = L at htL hnd hgoer hew
  obtain ⟨l1, l2, hl⟩ := List.append_of_mem htL
  -- a thread of the list after an early writer of its gang is no first writer
  have later : ∀ m1 m2 : List (Nat × Option Res), ∀ u e, L = m1 ++ (u, some (.go e)) :: m2 → gangOf u = gangOf t →
      ∀ z ∈ m2, gangOf z.1 = gangOf t → isFirst (earlyWriters L) z.1 = false := by
    intro m1 m2 u e hL hu z hz hzg
    have hwu : earlyWriters [(u, some (.go e))] = [u] := earlyWriters_cons (hew u e (by rw [hL]; simp)) []
    have hws : earlyWriters L = (earlyWriters m1 ++ [u]) ++ earlyWriters m2 := by
      rw [hL, show m1 ++ (u, some (Res.go e)) :: m2 = (m1 ++ [(u, some (.go e))]) ++ m2 by simp, earlyWriters_append,
        earlyWriters_append, hwu]
    have hfind : ∃ v ∈ earlyWriters m1 ++ [u], (earlyWriters L).find? (fun v => gangOf v == gangOf z.1) = some v := by
      rw [hws, List.find?_append]
      have : (earlyWriters m1 ++ [u]).find? (fun v => gangOf v == gangOf z.1) ≠ none := by
        intro hn
        have := List.find?_eq_none.mp hn u (by simp)
        simp [hu, hzg] at this
      obtain ⟨v, hv⟩ := Option.ne_none_iff_exists'.mp this
      exact ⟨v, List.mem_of_find?_eq_some hv, by rw [hv]; rfl⟩
    obtain ⟨v, hv, hf⟩ := hfind
    simp only [isFirst, hf, beq_eq_false_iff_ne, ne_eq, Option.some.injEq]
    intro e2
    subst e2
    rw [hL, List.map_append, List.map_cons] at hnd
    have hz' : z.1 ∈ m2.map Prod.fst := List.mem_map_of_mem hz
    rcases List.mem_append.mp hv with hv | hv
    · obtain ⟨e3, h3⟩ := mem_earlyWriters hv
      exact (List.nodup_append.mp hnd).2.2 z.1 (List.mem_map.mpr ⟨_, h3, rfl⟩) z.1 (List.mem_cons_of_mem _ hz') rfl
    · have : z.1 = u := by simpa using hv
      exact (List.nodup_cons.mp (List.nodup_append.mp hnd).2.1).1 (this ▸ hz')
  refine ⟨sub (fun i hi => ?_), fun i hi => ?_, fun ha i hi => ?_, fun hx => sub (fun i hi => ?_)⟩
  · conv => lhs; arg 1; arg 3; rw [hl]
    rw [List.foldl_append, List.foldl_cons]
    refine tileStep_keeps l2 _ (.inr (later l1 l2 t et hl rfl)) ?_
    simp only [tileStep, if_true, tileLabelAfter]
    split
    · exact hi
    · simp [hi]
  · rcases tileStep_origins _ _ hi with h | ⟨z, hz, hg, hzg, hzl⟩
    · exact .inl h
    · exact .inr ⟨z.1, (hgoer z hz hg).1, hzg, (hgoer z hz hg).2, hzl⟩
  · -- the gang's first writer replaces the label
    let goes (z : Nat × Option Res) : Bool := (match z.2 with | some (.go _) => true | _ => false) && gangOf z.1 == gangOf t
    obtain ⟨z, hz⟩ : ∃ z, L.find? goes = some z := by
      refine Option.ne_none_iff_exists'.mp (fun hn => ?_)
      have := List.find?_eq_none.mp hn _ htL
      simp [goes] at this
    obtain ⟨hzp, m1, m2, hL, hm1⟩ := List.find?_eq_some_iff_append.mp hz
    obtain ⟨u, q⟩ := z
    have hq : (∃ e, q = some (.go e)) ∧ gangOf u = gangOf t := by
      simp only [goes, Bool.and_eq_true, beq_iff_eq] at hzp
      refine ⟨?_, hzp.2⟩
      have := hzp.1
      split at this
      · exact ⟨_, rfl⟩
      · simp at this
    obtain ⟨⟨e, rfl⟩, hu⟩ := hq
    have huL : (u, some (Res.go e)) ∈ L := by rw [hL]; simp
    have hfst : isFirst (earlyWriters L) u = true := by
      have hn : (earlyWriters m1).find? (fun v => gangOf v == gangOf u) = none := by
        refine List.find?_eq_none.mpr (fun v hv => ?_)
        obtain ⟨e3, h3⟩ := mem_earlyWriters hv
        have := hm1 _ h3
        simpa [goes, hu] using this
      simp only [isFirst, hL, earlyWriters_append, List.find?_append, hn, Option.none_or]
      simp [earlyWriters_cons (hew u e huL)]
    rw [hL, List.foldl_append, List.foldl_cons, ← hL] at hi
    have hst : tileStep (gangOf t) isFull (earlyWriters L) lab
        (m1.foldl (tileStep (gangOf t) isFull (earlyWriters L) lab) ((s.gang (gangOf t)).tileLabel r)) (u, some (.go e)) = lab u := by
      simp [tileStep, hu, tileLabelAfter, hwhole ha, hfst]
    rw [hst] at hi
    rcases tileStep_origins _ _ hi with h | ⟨z, hz, hg, hzg, hzl⟩
    · exact ⟨u, (hgoer _ huL ⟨e, rfl⟩).1, hu, h⟩
    · have : z ∈ L := by rw [hL]; simp [hz]
      exact ⟨z.1, (hgoer z this hg).1, hzg, hzl⟩
  · exact tileStep_keeps _ _ (.inl (hfull hx)) hi

theorem wrTy_onTile {ty : Ty} {d : Opnd} {v : DWord} {l : Label} {r : Nat} (hr : r ∈ resultRegs ty d) (h : r < 255) :
    (wrTy ty d v l).filterMap (Wr.onTile r) = [l] := by
  cases d with
  | v n =>
    by_cases h64 : ty.is64 = true
    · have hr' : r = n.toNat ∨ r = n.toNat + 1 := by simpa [resultRegs, h64] using hr
      have h1 : n ≠ 255#8 := fun e => by subst e; simp at hr'; omega
      rcases hr' with rfl | rfl <;> simp [wrTy, h64, wr64, h1, Wr.onTile]
    · have hr' : r = n.toNat := by simpa [resultRegs, h64] using hr
      subst hr'
      simp [wrTy, h64, wr32, Wr.onTile]
  | _ => simp [resultRegs] at hr

/-- At a form that the builder does not hold an executing thread is ready. -/
theorem Executes.issues {s : State} {op : Nat} {f : Fields} {preds regs : List Nat} {t : Nat} (h : Executes s op f preds regs t)
    (hop : holdOf op f = none) : Issues s op f preds regs t :=
  ⟨h.1, h.2.elim id (fun ⟨k, hk, _⟩ => by rw [hop] at hk; cases hk)⟩

/-- The labels of an instruction whose effect is one result. -/
theorem runGroup_resultLabels {op : Nat} {f : Fields} {preds regs : List Nat} {s : State} {t : Nat} {ty : Ty} {d : Opnd}
    {val : State → Nat → DWord} {lab : State → Nat → Label} {evs : State → Nat → List Nat} (h : Issues s op f preds regs t)
    (hop : holdOf op f = none) :
    Labelled s (runGroup op f preds regs (fun s t => .go (resultEff ty d (val s t) (lab s t) (evs s t))) s) op f preds regs t
      (resultRegs ty d) (resultUnis ty d) [] (lab s) := by
  have ht : ∀ r ∈ resultRegs ty d, r < 255 → _ := fun r hr h255 =>
    runGroup_tiles (eff := fun s t => .go (resultEff ty d (val s t) (lab s t) (evs s t))) (lab := lab s) h h255 (fun u => ⟨_, rfl⟩)
      (fun u e he => by cases he; exact wrTy_onTile hr h255)
  refine ⟨fun r hr k => (ht r hr k).1, fun r hr k => (ht r hr k).2.1, fun ha r hr k => (ht r hr k).2.2.1 (fun u hu => (ha u hu).issues hop),
    fun hx r hr k => (ht r hr k).2.2.2 hx, fun r hr k => ?_, fun n hn => by simp at hn⟩
  cases d with
  | s n =>
    obtain ⟨u, h1, h2, h3, _, h5⟩ := runGroup_uni (ty := ty) (n := n) (val := val s) (lab := lab s)
      (e := fun u => resultEff ty (.s n) (val s u) (lab s u) (evs s u)) (rest := fun _ => [])
      (eff := fun s t => .go (resultEff ty (.s n) (val s t) (lab s t) (evs s t))) h
      (fun _ _ => rfl) (fun _ _ => by simp [resultEff]) (fun _ _ _ h => by simp at h) (fun _ _ => rfl)
    exact ⟨u, h1, h2, h3, h5 r hr k⟩
  | _ => simp [resultUnis] at hr

end Sys2Proof.Machine
end

