-- ==== Sys2Proof/Tests/Slice0.lean ====
section
/-! SUPPORT. Tests: decoding of words written out from the encoding tables, a smoke test of WellFormed, small tests of single steps, and
states that meet the hypotheses of the statements. -/

namespace Sys2Proof.Tests
open Sys2Proof Sys2Proof.Machine

set_option Elab.async false

/-! Small states. -/

/-- A launch on single cores with a handler, whose code may use 255 registers. -/
def tLaunch : Launch := { Launch.absent with kernel := { Kernel.absent with regs := 255 }, handler := some 0x9000#48, units := 1, next := 1 }

/-- Unit 0 on core 0 with one gang and a run of 8 lines. -/
def tUnit : Machine.Unit := { Unit.absent with core := 0, regs := 255, gangs := 1, ceiling := 3, runBytes := 1024 }

/-- The launch's level and its job. -/
def tLevels : Tab Level := [
  (10, { kind := 4, ident := 7, parent := none, ep := 1, job := 10, counter := 1 }),
  (11, { kind := 3, ident := 0, parent := some 10, ep := 1, job := 10, counter := 1 }),
  (12, { kind := 2, ident := 0, parent := some 11, ep := 1, job := 10, counter := 1, hidden := true }),
  (13, { kind := 1, ident := 5, parent := some 12, ep := 1, job := 10, counter := 1 })]

/-- A state with one unit of one gang, whose lane 0 issues at 0x1000. -/
def s1 : State := {
  time := 1000000, nextId := 50, fresh := 7, boot := { state := 5 },
  parts := [(0, { first := 0, size := 1 })],
  slices := [(0, { ready := true, ungated := true })],
  levels := tLevels, launches := [(0, { tLaunch with level := 13 })],
  units := [(0, tUnit)], gangs := [(0, { lanes := 1 })],
  threads := [(0, { pc := 0x1000, regs := [(2, 40), (3, 2)], preds := 1 })],
  issue := { core := 0, pc := 0x1000, threads := [0], serial := 7 } }

/-- Operands v1, v2, v3, v4. -/
def fv : Fields := { blank with d := .v 1, a := .v 2, b := .v 3, c := .v 4 }
/-- Operands p1, p0, p2, p3. -/
def fp : Fields := { blank with d := .k 65, a := .k 64, b := .k 66, c := .k 67 }

/-! Checkers of hypotheses. -/

/-- Fits and Issues, as values. -/
def fitsB (s : State) (op : Nat) (f : Fields) (preds regs : List Nat) (t : Nat) : Bool :=
  s.group.contains t && decide s.group.Nodup && !(s.thread t).pending f.gp.toNat &&
    guardTrue s t f && (sourcesOf op f).all (fun q => (sourceEmpty s t q.1 q.2.1).isNone) &&
    (opndRegs (slotsOf op f).d f.d ++ regs).all (fun r => (s.thread t).seenFull (s.clkOf t) r && !s.lent t r) &&
    ((sourcesOf op f).flatMap (fun q => opndPreds q.1 q.2.1) ++ opndPreds (slotsOf op f).d f.d ++ preds).all
      (fun n => !(s.thread t).pending n)
def issuesB (s : State) (op : Nat) (f : Fields) (preds regs : List Nat) (t : Nat) : Bool :=
  decide ((s.thread t).sched = .ready) && fitsB s op f preds regs t

theorem fits_of {s : State} {op : Nat} {f : Fields} {preds regs : List Nat} {t : Nat} (h : fitsB s op f preds regs t = true) :
    Fits s op f preds regs t := by
  simp only [fitsB, Bool.and_eq_true, List.all_eq_true, Bool.not_eq_true', decide_eq_true_eq, Option.isNone_iff_eq_none,
    List.contains_iff_mem] at h
  obtain ⟨⟨⟨⟨⟨⟨a, b⟩, d⟩, e⟩, g⟩, i⟩, j⟩ := h
  exact ⟨a, b, d, e, g, i, j⟩

theorem issues_of {s : State} {op : Nat} {f : Fields} {preds regs : List Nat} {t : Nat} (h : issuesB s op f preds regs t = true) :
    Issues s op f preds regs t := by
  simp only [issuesB, Bool.and_eq_true, decide_eq_true_eq] at h
  exact ⟨fits_of h.2, h.1⟩

theorem alone_of {s : State} {op : Nat} {f : Fields} {preds regs : List Nat} {t : Nat} (h : issuesB s op f preds regs t = true)
    (g : s.group = [t]) : Alone s op f preds regs t := ⟨issues_of h, g⟩

/-- Executes, as a value. -/
def executesB (s : State) (op : Nat) (f : Fields) (preds : List Nat) (t : Nat) : Bool :=
  fitsB s op f preds [] t && (decide ((s.thread t).sched = .ready) || (holdOf op f).any (fun h => decide ((s.thread t).sched = .blocked h)))

/-- A live gang that arrives whole, as a value. -/
def arrivesB (s : State) (op : Nat) (f : Fields) (preds : List Nat) (g : Nat) : Bool :=
  decide ((s.gang g).lanes ≤ 32) && s.group == (s.threadsOfGang g).filter (fun t => (s.thread t).sched != .exited) &&
    !s.group.isEmpty && s.group.all (fun t => executesB s op f preds t && (s.thread t).pc == s.pc)

theorem executes_of {s : State} {op : Nat} {f : Fields} {preds : List Nat} {t : Nat} (h : executesB s op f preds t = true) :
    Executes s op f preds [] t := by
  simp only [executesB, Bool.and_eq_true, Bool.or_eq_true, decide_eq_true_eq, Option.any_eq_true] at h
  exact ⟨fits_of h.1, h.2.elim .inl (fun ⟨k, a, b⟩ => .inr ⟨k, a, b⟩)⟩

theorem arrives_of {s : State} {op : Nat} {f : Fields} {preds : List Nat} {g : Nat} (h : arrivesB s op f preds g = true) :
    GangArrives s op f preds g := by
  simp only [arrivesB, Bool.and_eq_true, List.all_eq_true, Bool.not_eq_true', decide_eq_true_eq, beq_iff_eq] at h
  obtain ⟨⟨⟨a, b⟩, c⟩, d⟩ := h
  exact ⟨a, b, by intro e; simp [e] at c, fun t ht => ⟨executes_of (d t ht).1, (d t ht).2⟩⟩

/-! One result, one predicate. -/

theorem witness_arithmeticForms : ∀ x ∈ arithmeticForms, Issues s1 x.op fv x.preds [] 0 := by
  have h : ∀ x ∈ arithmeticForms, issuesB s1 x.op fv x.preds [] 0 = true := by decide
  exact fun x hx => issues_of (h x hx)


theorem witness_bitForms : ∀ x ∈ bitForms, Issues s1 x.op fv x.preds [] 0 := by
  have h : ∀ x ∈ bitForms, issuesB s1 x.op fv x.preds [] 0 = true := by decide
  exact fun x hx => issues_of (h x hx)

theorem witness_moveForms : ∀ x ∈ moveForms, Issues s1 x.op fv x.preds [] 0 := by
  have h : ∀ x ∈ moveForms, issuesB s1 x.op fv x.preds [] 0 = true := by decide
  exact fun x hx => issues_of (h x hx)

theorem witness_scalarForms : ∀ x ∈ scalarForms, Issues s1 x.op fv x.preds [] 0 := by
  have h : ∀ x ∈ scalarForms, issuesB s1 x.op fv x.preds [] 0 = true := by decide
  exact fun x hx => issues_of (h x hx)

theorem witness_packedForms : ∀ x ∈ packedForms, Issues s1 x.op fv x.preds [] 0 := by
  have h : ∀ x ∈ packedForms, issuesB s1 x.op fv x.preds [] 0 = true := by decide
  exact fun x hx => issues_of (h x hx)

theorem witness_convertForms : ∀ x ∈ convertForms, Issues s1 x.op fv x.preds [] 0 := by
  have h : ∀ x ∈ convertForms, issuesB s1 x.op fv x.preds [] 0 = true := by decide
  exact fun x hx => issues_of (h x hx)

theorem witness_budgetForms : ∀ x ∈ budgetForms, Issues s1 x.op fv x.preds [] 0 := by
  have h : ∀ x ∈ budgetForms, issuesB s1 x.op fv x.preds [] 0 = true := by decide
  exact fun x hx => issues_of (h x hx)

/-- BRGET v1, b4. -/
def fRec : Fields := { blank with d := .v 1, a := .k 4 }

theorem witness_brget : Issues s1 brgetForm.op fRec brgetForm.preds [] 0 := issues_of (by decide)

theorem witness_predForms : ∀ x ∈ predForms, Issues s1 x.op { fv with d := .k 65 } [] [] 0 := by
  have h : ∀ x ∈ predForms, issuesB s1 x.op { fv with d := .k 65 } [] [] 0 = true := by decide
  exact fun x hx => issues_of (h x hx)

theorem witness_hsetp2 : Issues s1 0x148 { fv with d := .k 65, mod := 0x40 } (modPred 2) [] 0 ∧
    resultPreds (Opnd.k 65) ≠ [2] := ⟨issues_of (by decide), by decide⟩

theorem witness_carryForms : Issues s1 0x042 { fv with c := .k 64 } (modPred 1) [] 0 ∧
    Issues s1 0x043 { fv with c := .k 64 } (modPred 1) [] 0 := ⟨issues_of (by decide), issues_of (by decide)⟩

theorem witness_v2p : Issues s1 0x089 { fv with mod := 0x7f } (v2pIx { fv with mod := 0x7f }) [] 0 ∧
    ({ fv with mod := 0x7f } : Fields).bit 6 = true := ⟨issues_of (by decide), by decide⟩

theorem witness_rdlane : Issues s1 0x08A fv [] [] 0 ∧
    ∀ u ∈ s1.group, sourceEmpty s1 (threadAt (gangOf u) ((read32 s1 u fv.b).toNat % 32)) (slotsOf 0x08A fv).a fv.a = none :=
  ⟨issues_of (by decide), by decide⟩

/-- SRD v1, clklo and SRD v1, trapkind in a handler. -/
def fSrd (n : BitVec 8) : Fields := { blank with d := .v 1, a := .k n }

/-- A thread in its handler. -/
def sTrap : State := { s1 with threads := [(0, { pc := 0x1000, inTrap := true, trappc := 0x2000, regs := [(2, 40), (3, 2)] })] }

theorem witness_srd : Issues s1 0x08B (fSrd 144) [] [] 0 ∧ (∀ u ∈ s1.group, trapRegOutside (kIndex (fSrd 144).a) s1 u = false) ∧
    Issues sTrap 0x08B (fSrd 225) [] [] 0 ∧ ∀ u ∈ sTrap.group, trapRegOutside (kIndex (fSrd 225).a) sTrap u = false :=
  ⟨issues_of (by decide), by decide, issues_of (by decide), by decide⟩

theorem witness_swr : ∀ n : BitVec 8, n = 225 ∨ n = 226 →
    Issues sTrap 0x08C { blank with d := .k n, a := .v 2 } [] [] 0 ∧ (∀ u ∈ sTrap.group, (sTrap.thread u).inTrap = true) := by
  rintro n (rfl | rfl)
  · exact ⟨issues_of (by decide), by decide⟩
  · exact ⟨issues_of (by decide), by decide⟩

theorem witness_setmode : Issues s1 0x08D { blank with a := .v 2, mod := 7 } [] [] 0 := issues_of (by decide)

theorem witness_part : Issues s1 0x08E { blank with mod := 5 } [] [] 0 := issues_of (by decide)

theorem witness_bset : Issues s1 0x1C2 { blank with a := .v 2, mod := 1 } [] [] 0 := issues_of (by decide)

theorem witness_bsplit : Issues s1 0x1C4 fv [] [] 0 := issues_of (by decide)

/-! Control. -/

/-- Branch operands: 16 instructions ahead, or the pair v4:v5, which holds 0x2000 in sBr and 0x2002 in sBad. -/
def fBr : Fields := { blank with d := .v 6, a := .v 4, mod := 16 }
def fBack : Fields := { blank with d := .v 6, a := .v 4, mod := 0x80000 }
def sBr : State := { s1 with threads := [(0, { pc := 0x1000, regs := [(4, 0x2000)] })] }
def sBad : State := { s1 with threads := [(0, { pc := 0x1000, regs := [(4, 0x2002)] })] }

theorem witness_branches : ∀ x ∈ branchForms, Alone sBr x.op fBr [] [] 0 ∧ goodTarget (x.target fBr sBr 0) ∧ sBr.mustDeliver 0 = false := by
  have h : ∀ x ∈ branchForms, issuesB sBr x.op fBr [] [] 0 = true := by decide
  have g : ∀ x ∈ branchForms, 0 ≤ x.target fBr sBr 0 ∧ x.target fBr sBr 0 < 2 ^ 48 ∧ x.target fBr sBr 0 % 4 = 0 := by decide
  exact fun x hx => ⟨alone_of (h x hx) (by decide), g x hx, by decide⟩

theorem witness_badBranches : ∀ x ∈ branchForms, Alone sBad x.op fBack [] [] 0 ∧ ¬ goodTarget (x.target fBack sBad 0) ∧
    (sBad.launchOf 0).handler = some 0x9000#48 ∧ (sBad.thread 0).inTrap = false := by
  have h : ∀ x ∈ branchForms, issuesB sBad x.op fBack [] [] 0 = true := by decide
  have g : ∀ x ∈ branchForms, x.target fBack sBad 0 < 0 ∨ x.target fBack sBad 0 % 4 ≠ 0 := by decide
  refine fun x hx => ⟨alone_of (h x hx) (by decide), fun e => ?_, by decide, by decide⟩
  rcases g x hx with k | k
  · exact absurd e.1 (by omega)
  · exact k e.2.2

theorem witness_exit : Alone s1 0x006 blank [] [] 0 ∧ s1.ownWrites 0 = [] ∧ s1.mustDeliver 0 = false :=
  ⟨alone_of (by decide) (by decide), by decide, by decide⟩

theorem witness_nopYieldSetpri : Issues s1 0x008 blank [] [] 0 ∧ Issues s1 0x007 blank [] [] 0 ∧
    Issues s1 0x009 { blank with a := .v 2 } [] [] 0 := ⟨issues_of (by decide), issues_of (by decide), issues_of (by decide)⟩

theorem witness_bptTrap : Alone s1 0x00A { blank with mod := 5 } [] [] 0 ∧ Alone s1 0x00B { blank with mod := 5 } [] [] 0 ∧
    (s1.launchOf 0).handler = some 0x9000#48 ∧ (s1.thread 0).inTrap = false :=
  ⟨alone_of (by decide) (by decide), alone_of (by decide) (by decide), by decide, by decide⟩

/-- A launch without a handler. -/
def sBare : State := { s1 with launches := [(0, { tLaunch with level := 13, handler := none })] }

theorem witness_noHandler : (sBare.launchOf 0).handler = none ∧ Alone sBare 0x00A blank [] [] 0 ∧ Alone sBare 0x00B blank [] [] 0 ∧
    (sTrap.thread 0).inTrap = true ∧ Alone sTrap 0x00A blank [] [] 0 ∧ Alone sTrap 0x00B blank [] [] 0 :=
  ⟨by decide, alone_of (by decide) (by decide), alone_of (by decide) (by decide), by decide, alone_of (by decide) (by decide),
    alone_of (by decide) (by decide)⟩

/-! Collectives: a gang of two lanes. -/

def s2 : State := { s1 with
  gangs := [(0, { lanes := 2 })]
  threads := [(0, { pc := 0x1000, regs := [(2, 40), (3, 1)], preds := 1 }), (1, { pc := 0x1000, regs := [(2, 41), (3, 0)] })]
  issue := { core := 0, pc := 0x1000, threads := [0, 1], serial := 7 } }

/-- A shuffle into v1 of v2 by v3, with the predicate p1 and no mask. -/
def fSh : Fields := { blank with d := .v 1, a := .v 2, b := .v 3, c := .v 255, mod := 1 }

theorem witness_shuffles : ∀ x ∈ shuffleForms, GangArrives s2 x.2.1 fSh (modPred (fSh.bits 0 3)) 0 ∧
    ∀ t ∈ s2.group, ∀ u ∈ s2.group, maskRead s2 fSh t = maskRead s2 fSh u := by
  have h : ∀ x ∈ shuffleForms, arrivesB s2 x.2.1 fSh (modPred (fSh.bits 0 3)) 0 = true := by decide
  exact fun x hx => ⟨arrives_of (h x hx), by decide⟩

def fVote : Fields := { blank with d := .k 65, a := .k 64, c := .v 255 }

theorem witness_votes : ∀ x ∈ voteForms, GangArrives s2 x.2.1 fVote [] 0 ∧
    ∀ t ∈ s2.group, ∀ u ∈ s2.group, maskRead s2 fVote t = maskRead s2 fVote u := by
  have h : ∀ x ∈ voteForms, arrivesB s2 x.2.1 fVote [] 0 = true := by decide
  exact fun x hx => ⟨arrives_of (h x hx), by decide⟩

theorem witness_gangForms : ∀ x ∈ gangForms, GangArrives s2 x.2.1 { fSh with b := .k 64 } [] 0 ∧
    ∀ t ∈ s2.group, ∀ u ∈ s2.group, maskRead s2 fSh t = maskRead s2 fSh u := by
  have h : ∀ x ∈ gangForms, arrivesB s2 x.2.1 { fSh with b := .k 64 } [] 0 = true := by decide
  exact fun x hx => ⟨arrives_of (h x hx), by decide⟩

/-- The same gang, held at its collective by the issue-group builder. -/
def s2Held : State := { s2 with threads := s2.threads.map (fun e => (e.1, { e.2 with sched := .blocked (.member none) })) }

theorem witness_heldGang : ∀ x ∈ shuffleForms, GangArrives s2Held x.2.1 fSh (modPred (fSh.bits 0 3)) 0 := by
  have h : ∀ x ∈ shuffleForms, arrivesB s2Held x.2.1 fSh (modPred (fSh.bits 0 3)) 0 = true := by decide
  exact fun x hx => arrives_of (h x hx)


/-! Memory at issue. -/

/-- A record of 16 words at the page below. -/
def rec4 : Rec := { base := 2 ^ 30, extent := 16, stride := 0, size := 3, swizzle := 0, trap := false, reserved := 0 }

/-- A page that may be read and written, with a label that holds label bit 0, at its frame in stack 0. -/
def dataLeaf : Nat := 3 + 12 + 1 * 2 ^ 20 + 2 ^ 21 / 2 ^ 12 * 2 ^ 36

/-- The records b4: good, b5: malformed, b6: of 4-bit elements, b7: good with the trap bit. -/
def sMem : State := { s1 with gangs := [(0, { lanes := 1, brecs := [(4, rec4.toBits), (5, { rec4 with size := 7 }.toBits),
  (6, { rec4 with size := 0 }.toBits), (7, { rec4 with trap := true }.toBits)] })] }

/-- v1, bK[v3], v4 under B32 with the .BP hint. -/
def fMem (k : BitVec 8) : Fields := { blank with d := .v 1, a := .k k, b := .v 3, c := .v 4, mod := 0x71000 }
/-- The same at element 200, past the extent. -/
def fFar : Fields := { blank with d := .v 1, a := .k 4, b := .imm 200, c := .v 4, mod := 0x71000 }

theorem witness_memForms : ∀ x ∈ memForms, Alone sMem x.2.op (fMem 4) (bpPreds (fMem 4)) [] 0 ∧ InBounds x.2 (fMem 4) sMem 0 := by
  have h : ∀ x ∈ memForms, issuesB sMem x.2.op (fMem 4) (bpPreds (fMem 4)) [] 0 = true := by decide
  have g : ∀ x ∈ memForms, sfqBlocks sMem x.2 0 = false ∧ oobOf sMem x.2 (fMem 4) 0 = false ∧ misaligned sMem x.2 (fMem 4) 0 = false := by
    decide
  exact fun x hx => ⟨alone_of (h x hx) (by decide), ⟨by decide, (g x hx).1, (g x hx).2.1, (g x hx).2.2⟩⟩

theorem witness_outOfBounds : ∀ x ∈ memForms, Alone sMem x.2.op fFar (bpPreds fFar) [] 0 ∧ (recOf sMem 0 fFar.a).bad = false ∧
    sfqBlocks sMem x.2 0 = false ∧ oobOf sMem x.2 fFar 0 = true ∧ (recOf sMem 0 fFar.a).trap = false := by
  have h : ∀ x ∈ memForms, issuesB sMem x.2.op fFar (bpPreds fFar) [] 0 = true := by decide
  have g : ∀ x ∈ memForms, sfqBlocks sMem x.2 0 = false ∧ oobOf sMem x.2 fFar 0 = true := by decide
  exact fun x hx => ⟨alone_of (h x hx) (by decide), by decide, (g x hx).1, (g x hx).2, by decide⟩

theorem witness_badRecord : ∀ x ∈ memForms, Alone sMem x.2.op (fMem 5) (bpPreds (fMem 5)) [] 0 ∧ (recOf sMem 0 (fMem 5).a).bad = true := by
  have h : ∀ x ∈ memForms, issuesB sMem x.2.op (fMem 5) (bpPreds (fMem 5)) [] 0 = true := by decide
  exact fun x hx => ⟨alone_of (h x hx) (by decide), by decide⟩

/-- The odd element of a record of 4-bit elements. -/
def fOdd : Fields := { blank with d := .v 1, a := .k 6, b := .imm 3, c := .v 4, mod := 0x71000 }

theorem witness_misaligned : ∀ x ∈ memForms, Alone sMem x.2.op fOdd (bpPreds fOdd) [] 0 ∧ (recOf sMem 0 fOdd.a).bad = false ∧
    sfqBlocks sMem x.2 0 = false ∧ oobOf sMem x.2 fOdd 0 = false ∧ misaligned sMem x.2 fOdd 0 = true ∧
    (sMem.launchOf 0).handler = some 0x9000#48 ∧ (sMem.thread 0).inTrap = false := by
  have h : ∀ x ∈ memForms, issuesB sMem x.2.op fOdd (bpPreds fOdd) [] 0 = true := by decide
  have g : ∀ x ∈ memForms, sfqBlocks sMem x.2 0 = false ∧ oobOf sMem x.2 fOdd 0 = false ∧ misaligned sMem x.2 fOdd 0 = true := by decide
  exact fun x hx => ⟨alone_of (h x hx) (by decide), by decide, (g x hx).1, (g x hx).2.1, (g x hx).2.2, by decide, by decide⟩

theorem witness_pref : Alone sMem 0x206 (fMem 4) [] [] 0 ∧ (recOf sMem 0 (fMem 4).a).bad = false :=
  ⟨alone_of (by decide) (by decide), by decide⟩

/-- BRMAKE b9, v2:v3, v3, v4 without and with .PG. -/
def fMake (pg : Bool) : Fields := { blank with d := .k 9, a := .v 2, b := .v 3, c := .v 4, mod := if pg then 0x33 else 3 }

theorem witness_brmake : ∀ pg, Alone sMem 0x240 (fMake pg) [] [] 0 ∧ ¬ (recIx (fMake pg).d = 31 ∧ (sMem.thread 0).inTrap = true) ∧
    ((fMake pg).bits 4 3 = 3 ↔ pg = true) := by
  intro pg
  cases pg
  · exact ⟨alone_of (by decide) (by decide), by decide, by decide⟩
  · exact ⟨alone_of (by decide) (by decide), by decide, by decide⟩

theorem witness_brset : Alone sMem 0x241 { blank with d := .k 4, a := .v 2, mod := 1 } [] [] 0 ∧
    ¬ (recIx (Opnd.k 4) = 31 ∧ (sMem.thread 0).inTrap = true) := ⟨alone_of (by decide) (by decide), by decide⟩

/-- Scratchpad operands at bytes 8, 2000 and 9 of a run of 1,024. -/
def fSp (o : BitVec 8) : Fields := { blank with d := .v 1, a := .imm o, c := .v 4, mod := 0x70000 }
def sSp : State := { s1 with threads := [(0, { pc := 0x1000, regs := [(2, 2000)] })] }

theorem witness_scratchpad : ∀ x ∈ scratchForms, Alone sSp x.2.op (fSp 8) [] [] 0 ∧ ScratchFits x.2 (fSp 8) sSp 0 := by
  have h : ∀ x ∈ scratchForms, issuesB sSp x.2.op (fSp 8) [] [] 0 = true := by decide
  have g : ∀ x ∈ scratchForms, 0 ≤ soff sSp x.2 (fSp 8) 0 ∧ soff sSp x.2 (fSp 8) 0 + x.2.width (fSp 8) ≤ (sSp.unit (unitOfThread 0)).runBytes ∧
      soff sSp x.2 (fSp 8) 0 % (x.2.width (fSp 8) : Int) = 0 := by decide
  exact fun x hx => ⟨alone_of (h x hx) (by decide), g x hx⟩

theorem witness_scratchpadOutside : ∀ x ∈ scratchForms, Alone sSp x.2.op { fSp 0 with a := .v 2 } [] [] 0 ∧
    (sSp.launchOf 0).handler = some 0x9000#48 ∧ (sSp.thread 0).inTrap = false ∧ spOutside sSp x.2 { fSp 0 with a := .v 2 } 0 = true := by
  have h : ∀ x ∈ scratchForms, issuesB sSp x.2.op { fSp 0 with a := .v 2 } [] [] 0 = true := by decide
  have g : ∀ x ∈ scratchForms, spOutside sSp x.2 { fSp 0 with a := .v 2 } 0 = true := by decide
  exact fun x hx => ⟨alone_of (h x hx) (by decide), by decide, by decide, g x hx⟩

theorem witness_scratchpadMisaligned : ∀ x ∈ scratchForms, x.2.op ≠ 0x2A2 → x.2.op ≠ 0x2A3 → Alone sSp x.2.op (fSp 9) [] [] 0 ∧
    spOutside sSp x.2 (fSp 9) 0 = false ∧ soff sSp x.2 (fSp 9) 0 % (x.2.width (fSp 9) : Int) ≠ 0 := by
  have h : ∀ x ∈ scratchForms, issuesB sSp x.2.op (fSp 9) [] [] 0 = true := by decide
  have g : ∀ x ∈ scratchForms, spOutside sSp x.2 (fSp 9) 0 = false ∧
      (x.2.op ≠ 0x2A2 → x.2.op ≠ 0x2A3 → soff sSp x.2 (fSp 9) 0 % (x.2.width (fSp 9) : Int) ≠ 0) := by decide
  exact fun x hx k l => ⟨alone_of (h x hx) (by decide), (g x hx).1, (g x hx).2 k l⟩

/-- Special functions of F32 on the fast path, and of v2 as the exact path. -/
def fFn (fast : Bool) : Fields := { blank with d := .v 1, a := .v 2, mod := if fast then 0x80001 else 0x80000 }

/-- v2 holds 0.25. -/
def sFn : State := { s1 with threads := [(0, { pc := 0x1000, regs := [(2, 0x3E800000)] })] }

theorem witness_specialFunctions : ∀ x ∈ specialForms, ∀ b, Alone sFn x.2.1 (fFn b) [] [] 0 ∧ takesFast sFn 0 (fFn b) x.2.2 = b := by
  have h : ∀ x ∈ specialForms, ∀ b, issuesB sFn x.2.1 (fFn b) [] [] 0 = true := by decide
  have g : ∀ x ∈ specialForms, ∀ b, takesFast sFn 0 (fFn b) x.2.2 = b := by decide
  exact fun x hx b => ⟨alone_of (h x hx b) (by decide), g x hx b⟩

/-! Landings. -/

/-- An access of lane 0 to the page, of four bytes. -/
def access (k : AKind) : Access :=
  { kind := k, thread := 0, group := 7, pc := 0x1000, op := 0x280, f := fMem 4, addr := 2 ^ 30 + 8, width := 4, c := 5, label := 1 }

/-- The page is mapped and one access is on its way. -/
def sLand (a : Access) : State := { putEntry s1 0 0 (2 ^ 30) dataLeaf with accesses := [(20, a)] }

/-- The access's piece. -/
def piece (n : Nat) : Piece := { va := 2 ^ 30 + 8, n := n, leaf := leafOf dataLeaf 0, home := .phys (2 ^ 21 + 8) }

def noPick : Pick := { tlb := false, l1 := false }

theorem landsOn_of {a : Access} {need : Need} (h : a.addr = 2 ^ 30 + 8 ∧ a.width = 4 ∧ a.thread = 0 ∧ a.got = [])
    (e : enabled (sLand a) 20 a = true) (i : pastMemory (sLand a) a = false) (o : a.oob = false)
    (m : (sLand a).mates 20 a (a.sector noPick) = [20] ∧ (sLand a).sfqFull 0 = false)
    (r : reach (sLand a) 0 0 (2 ^ 30 + 8) 4 (a.via noPick) need = .ok [piece 4])
    (c : (sLand a).coreOf a.thread = 0 ∧ (sLand a).partOf a.thread = 0) :
    LandsOn (sLand a) 20 a need noPick (piece 4) (2 ^ 21 + 8) := by
  refine ⟨by simp [sLand, tabGet], e, i, o, h.2.2.2, m.1, fun _ => ?_, ?_, rfl, ?_⟩
  · rw [c.1]; exact m.2
  · rw [c.1, c.2, h.1, h.2.1]; exact r
  · rw [h.2.1]; rfl

theorem witness_exactResult : tabGet (sLand (access .exact)).accesses 20 = some (access .exact) ∧ (access .exact).kind = .exact ∧ (access .exact).due ≤ s1.time ∧
    ((sLand (access .exact)).thread (access .exact).thread).sched ≠ .exited := by decide

theorem witness_loads : ∀ k, k = .load ∨ k = .ldx → LandsOn (sLand (access k)) 20 (access k) { r := true } noPick (piece 4) (2 ^ 21 + 8) ∧
    bookAwaited (sLand (access k)) 20 (access k) (piece 4).leaf.slot = false ∧ formatFits (access k).f.ty (piece 4).leaf.format = true ∧ noPick.l1 = false ∧
    ((sLand (access k)).thread (access k).thread).sched ≠ .exited := by
  rintro k (rfl | rfl)
  · exact ⟨landsOn_of (by decide) (by decide) (by decide) (by decide) (by decide) (by decide) (by decide), by decide, by decide, rfl, by decide⟩
  · exact ⟨landsOn_of (by decide) (by decide) (by decide) (by decide) (by decide) (by decide) (by decide), by decide, by decide, rfl, by decide⟩

theorem witness_stores : ∀ k, k = .store ∨ k = .stx → LandsOn (sLand (access k)) 20 (access k) { w := true } noPick (piece 4) (2 ^ 21 + 8) ∧
    bookAwaited (sLand (access k)) 20 (access k) (piece 4).leaf.slot = false ∧ (access k).width = typeWidth (access k).f.ty ∧
    formatFits (access k).f.ty (piece 4).leaf.format = true ∧ Label.subset (access k).label (piece 4).leaf.label = true := by
  rintro k (rfl | rfl)
  · exact ⟨landsOn_of (by decide) (by decide) (by decide) (by decide) (by decide) (by decide) (by decide), by decide, by decide, by decide, by decide⟩
  · exact ⟨landsOn_of (by decide) (by decide) (by decide) (by decide) (by decide) (by decide) (by decide), by decide, by decide, by decide, by decide⟩

/-- A store under label bit 1, which the page does not hold. -/
def badStore : Access := { access .store with label := 2 }

theorem witness_labelFailures : LandsOn (sLand badStore) 20 badStore { w := true } noPick (piece 4) (2 ^ 21 + 8) ∧
    bookAwaited (sLand badStore) 20 badStore (piece 4).leaf.slot = false ∧ formatFits badStore.f.ty (piece 4).leaf.format = true ∧
    Label.subset badStore.label (piece 4).leaf.label = false ∧ (sLand badStore).sfqFull ((sLand badStore).coreOf badStore.thread) = false ∧
    ((sLand badStore).gang (gangOf badStore.thread)).ended = false :=
  ⟨landsOn_of (by decide) (by decide) (by decide) (by decide) (by decide) (by decide) (by decide), by decide, by decide, by decide, by decide, by decide⟩

theorem witness_atomics : ∀ k, k = .atom ∨ k = .red →
    LandsOn (sLand (access k)) 20 (access k) { r := true, w := true } noPick (piece 4) (2 ^ 21 + 8) ∧ (piece 4).leaf.format = 0 ∧
    (access k).width = atomicWidth (access k).f.ty ∧ Label.subset (access k).label (piece 4).leaf.label = true ∧
    ((sLand (access k)).thread (access k).thread).sched ≠ .exited := by
  rintro k (rfl | rfl)
  · exact ⟨landsOn_of (by decide) (by decide) (by decide) (by decide) (by decide) (by decide) (by decide), by decide, by decide, by decide, by decide⟩
  · exact ⟨landsOn_of (by decide) (by decide) (by decide) (by decide) (by decide) (by decide) (by decide), by decide, by decide, by decide, by decide⟩

theorem witness_atomicOperands : (Ty.s32 = .s32 ∨ Ty.s32 = .n32) ∧ (0xFFFFFFFF#64).toNat < 2 ^ 32 ∧ (5#64).toNat < 2 ^ 32 := by decide

/-! Variants. -/

/-- CALLV of the table at 0x4000, which the pair v6:v7 holds. -/
def fCall : Fields := { blank with a := .v 6 }
def sCall : State := { s1 with threads := [(0, { pc := 0x1000, regs := [(6, 0x4000)] })] }

theorem witness_callv : Alone sCall 0x1C0 fCall (modPred (fCall.bits 2 3)) [] 0 ∧ (read64 sCall 0 fCall.a).toNat % 64 = 0 ∧
    (read64 sCall 0 fCall.a).toNat < 2 ^ 48 ∧ (sCall.thread 0).frames.length ≠ 8 :=
  ⟨alone_of (by decide) (by decide), by decide, by decide, by decide⟩

/-- A call that stands open on an entry of the page. -/
def frame (d : Bool) : Frame :=
  { ret := 0x2000, entry := 2 ^ 30 + 32, index := 1, issued := 999000, energy := 0, bt := 500, be := 500, bq := 3, disturbed := d }
def sRet (d : Bool) : State :=
  { putEntry s1 0 0 (2 ^ 30) dataLeaf with threads := [(0, { pc := 0x1000, energy := 70000, frames := [frame d] })] }

theorem witness_retv : ∀ d, Alone (sRet d) 0x1C1 blank [] [] 0 ∧ ((sRet d).thread 0).frames = [frame d] ∧ (sRet d).mustDeliver 0 = false ∧
    walk (sRet d) ((sRet d).partOf 0) (frame d).entry = .leaf (leafOf dataLeaf 0) ∧
    homeOf (sRet d) ((sRet d).partOf 0) (frame d).entry (leafOf dataLeaf 0) = .ok (.phys (2 ^ 21 + 32)) := by
  intro d
  cases d
  · exact ⟨alone_of (by decide) (by decide), by decide, by decide, by decide, by rfl⟩
  · exact ⟨alone_of (by decide) (by decide), by decide, by decide, by decide, by rfl⟩


/-! The gather path and the codebooks. -/

/-- b4 of words, b5 past its extent, b6 of rows; the context owns its core's remap state. -/
def sGat : State := { s1 with
  gangs := [(0, { lanes := 1, brecs := [(4, { rec4 with extent := 5000 }.toBits), (5, { rec4 with extent := 0 }.toBits)] })]
  cores := [(0, { remap := { modulus := 5, owner := some 0 } })]
  threads := [(0, { pc := 0x1000, regs := [(3, 8), (4, 256)] })] }

/-- GTHR.MOD v1, b4[v3]; GTHRS b4[v3], v4 without remap. -/
def fGthr : Fields := { blank with d := .v 1, a := .k 4, b := .v 3, mod := 0x70001 }
def fGthrs : Fields := { blank with a := .k 4, b := .v 3, c := .v 4, mod := 0x70000 }

theorem witness_gthr : GatherFits fGthr sGat 0 ∧ Alone sGat 0x2C0 fGthr (bpPreds fGthr) [] 0 ∧ gatherOob sGat fGthr 0 (typeWidth fGthr.ty) = false ∧
    straddles sGat 0 (gatherAddr sGat fGthr 0).toNat (typeWidth fGthr.ty) = false ∧
    ((recOf sGat 0 fGthr.a).size = 0 → (gatherIndex sGat fGthr 0).getD 0 % 2 = 0) :=
  ⟨⟨by decide, by decide, by decide⟩, alone_of (by decide) (by decide), by decide, by decide, by decide⟩

theorem witness_gthrs : GatherFits fGthrs sGat 0 ∧ Alone sGat 0x2C1 fGthrs (bpPreds fGthrs) [] 0 ∧ rowsOutside sGat fGthrs 0 = false ∧
    gatherAddr sGat fGthrs 0 % 32 = 0 ∧ rowOob sGat fGthrs 0 = false :=
  ⟨⟨by decide, by decide, by decide⟩, alone_of (by decide) (by decide), by decide, by decide, by decide⟩

/-- REMAP of the modulus, the key, and the table from b4. -/
def fRemap (k : BitVec 20) : Fields := { blank with a := if k = 2 then .k 4 else .v 3, b := .v 3, mod := k }

theorem witness_remap : ∀ k : BitVec 20, k = 0 ∨ k = 1 ∨ k = 2 → Alone sGat 0x2C2 (fRemap k) [] [] 0 ∧ remapTaken sGat 0 = false ∧
    (recOf sGat 0 (fRemap 2).a).bad = false ∧ (recOf sGat 0 (fRemap 2).a).trap = false := by
  rintro k (rfl | rfl | rfl)
  · exact ⟨alone_of (by decide) (by decide), by decide, by decide, by decide⟩
  · exact ⟨alone_of (by decide) (by decide), by decide, by decide, by decide⟩
  · exact ⟨alone_of (by decide) (by decide), by decide, by decide, by decide⟩

/-- CBLOAD slot 3 from b4 or b5 at v3. -/
def fCb (k : BitVec 8) : Fields := { blank with a := .k k, b := .v 3, mod := 3 }

/-- The same while a CBLOAD of the slot is on its way. -/
def sBusy : State := { sGat with accesses := [(20, { access .codebook with width := 32, aux := 3 })] }

theorem witness_cbload : Alone sGat 0x300 (fCb 4) (bpPreds (fCb 4)) [] 0 ∧ (recOf sGat 0 (fCb 4).a).bad = false ∧ cbOob sGat (fCb 4) 0 = false ∧
    ∀ s, s = sGat ∨ s = sBusy → Alone s 0x300 (fCb 5) (bpPreds (fCb 5)) [] 0 ∧ (recOf s 0 (fCb 5).a).bad = false ∧ cbOob s (fCb 5) 0 = true ∧
      (recOf s 0 (fCb 5).a).trap = false ∧ (slotBusy s (fCb 5) 0 = true ↔ s = sBusy) := by
  refine ⟨alone_of (by decide) (by decide), by decide, by decide, ?_⟩
  rintro s (rfl | rfl)
  · exact ⟨alone_of (by decide) (by decide), by decide, by decide, by decide, by decide⟩
  · exact ⟨alone_of (by decide) (by decide), by decide, by decide, by decide, by decide⟩

/-- A row, a table whose every index is out of bounds, and a codebook on their way. -/
def aRow : Access := { access .gthrs with addr := 2 ^ 30, width := 128 }
def aTab : Access := { access .remapTab with addr := 0, aux := { rec4 with extent := 0 }.toBits.toNat }
def aBook : Access := { access .codebook with addr := 2 ^ 30, width := 32, aux := 3 }

theorem witness_row : tabGet (sLand aRow).accesses 20 = some aRow ∧ enabled (sLand aRow) 20 aRow = true ∧ aRow.oob = false ∧
    (sLand aRow).sfqFull ((sLand aRow).coreOf aRow.thread) = false ∧ aRow.kind = .gthrs ∧
    ∃ ps bs g s', reach (sLand aRow) ((sLand aRow).coreOf aRow.thread) ((sLand aRow).partOf aRow.thread) aRow.addr aRow.width
      (aRow.via noPick) { r := true } = .ok ps ∧ readAll (sLand aRow) aRow ps noPick = (some (bs, g), s') := by
  have h : (match reach (sLand aRow) ((sLand aRow).coreOf aRow.thread) ((sLand aRow).partOf aRow.thread) aRow.addr aRow.width
      (aRow.via noPick) { r := true } with
    | .ok ps => (readAll (sLand aRow) aRow ps noPick).1.isSome
    | _ => false) = true := by decide
  refine ⟨by decide, by decide, by decide, by decide, by decide, ?_⟩
  split at h
  next ps e =>
    match r : readAll (sLand aRow) aRow ps noPick with
    | (some (bs, g), s') => exact ⟨ps, bs, g, s', e, r⟩
    | (none, s') => simp [r] at h
  next => cases h

theorem witness_book : tabGet (sLand aBook).accesses 20 = some aBook ∧ enabled (sLand aBook) 20 aBook = true ∧ aBook.oob = false ∧
    (sLand aBook).sfqFull ((sLand aBook).coreOf aBook.thread) = false ∧ aBook.kind = .codebook ∧ aBook.width = 32 ∧
    earlierTab (sLand aBook) 20 aBook = false ∧ ∃ bs l g s', readSpan (sLand aBook) aBook aBook.addr 32 noPick = .ok bs l g s' := by
  have h : (match readSpan (sLand aBook) aBook aBook.addr 32 noPick with
    | .ok _ _ _ _ => true
    | _ => false) = true := by decide
  refine ⟨by decide, by decide, by decide, by decide, by decide, by decide, by decide, ?_⟩
  split at h
  next bs l g s' e => exact ⟨bs, l, g, s', e⟩
  next => cases h

/-- A CBLOAD out of bounds that has waited. -/
theorem witness_bookOutside : enabled (sLand { aBook with width := 0 }) 20 { aBook with width := 0 } = true ∧
    earlierTab (sLand { aBook with width := 0 }) 20 { aBook with width := 0 } = false := by decide

/-- A table without an entry in bounds reads as zeros. -/
theorem readTab_outside {a : Access} {r : Rec} {pick : Pick} (h : r.extent = 0) : ∀ n e acc l g s, ∃ bs, readTab a r pick n e acc l g s = .ok bs l g s
  | 0, _, acc, _, _, _ => ⟨acc, rfl⟩
  | n + 1, e, acc, l, g, s => by
    have o : tabOob r a.addr e = true := by simp [tabOob, Rec.oob, h]
    simp only [readTab, o, if_true]
    exact readTab_outside h n (e + 1) _ l g s

theorem witness_table : tabGet (sLand aTab).accesses 20 = some aTab ∧ enabled (sLand aTab) 20 aTab = true ∧ aTab.oob = false ∧
    (sLand aTab).sfqFull ((sLand aTab).coreOf aTab.thread) = false ∧ aTab.kind = .remapTab ∧
    earlierTab (sLand aTab) 20 aTab = false ∧
    ∃ bs l g s', readTab aTab (Rec.ofBits (BitVec.ofNat 128 aTab.aux)) noPick 4096 0 [] 0 0 (sLand aTab) = .ok bs l g s' := by
  obtain ⟨bs, h⟩ := readTab_outside (a := aTab) (pick := noPick) (show (Rec.ofBits (BitVec.ofNat 128 aTab.aux)).extent = 0 by decide)
    4096 0 [] 0 0 (sLand aTab)
  exact ⟨by decide, by decide, by decide, by decide, by decide, by decide, bs, 0, 0, sLand aTab, h⟩

/-! Copies. -/

/-- COPY of 128 bytes in the run, and COPYM to unit 0, from s16 onwards. -/
def fCopy : Fields := { blank with b := .s 16, mod := 3 }
def fCopym : Fields := { blank with b := .s 16, mod := 7 }
def sCopy : State := { s1 with gangs := [(0, { lanes := 1, sregs := [(17, 512), (18, 128), (19, 9)] })] }

/-- The unit's next command, begun by another gang to the same receivers. -/
def begun (m : Bool) : Copy :=
  { part := 0, unit := some (0, 1), level := none, slices := [], supplied := [1], multicast := m, mask := 1, receivers := [0] }
def sBegun (m : Bool) : State := { sCopy with copies := [(30, begun m)] }

theorem witness_copies : ∀ x ∈ copyForms, ∀ s, s = sCopy ∨ s = sBegun x.2.2 → GangArrives s x.2.1 fCopym [] 0 ∧ CopyFits s fCopym x.2.2 0 ∧
    ∃ sl, sliceOf s x.2.1 fCopym (leaderOf s) x.2.2 = .ok sl := by
  have k : ∀ x ∈ copyForms, (arrivesB sCopy x.2.1 fCopym [] 0 && arrivesB (sBegun x.2.2) x.2.1 fCopym [] 0) = true := by decide
  have g : ∀ x ∈ copyForms, ((match sliceOf sCopy x.2.1 fCopym (leaderOf sCopy) x.2.2 with | .ok _ => true | _ => false) &&
    (match sliceOf (sBegun x.2.2) x.2.1 fCopym (leaderOf (sBegun x.2.2)) x.2.2 with | .ok _ => true | _ => false)) = true := by decide
  have c : (∀ x ∈ copyForms, CopyFits sCopy fCopym x.2.2 0) ∧ ∀ x ∈ copyForms, CopyFits (sBegun x.2.2) fCopym x.2.2 0 := by
    constructor <;> intro x hx <;> simp only [copyForms, List.mem_cons, List.not_mem_nil, or_false] at hx <;> rcases hx with rfl | rfl <;>
      refine ⟨by decide, ?_⟩
    · exact (show _ ∧ _ from ⟨by decide, by decide⟩)
    · exact (show _ ∧ _ from ⟨by decide, by decide⟩)
    · exact (show _ ∧ _ from ⟨by decide, by decide⟩)
    · exact (show _ ∧ _ from ⟨by decide, by decide⟩)
  intro x hx s e
  have h := k x hx
  have o := g x hx
  rw [Bool.and_eq_true] at h o
  rcases e with rfl | rfl
  · refine ⟨arrives_of h.1, c.1 x hx, ?_⟩
    have e := o.1
    split at e
    next sl r => exact ⟨sl, r⟩
    next => cases e
  · refine ⟨arrives_of h.2, c.2 x hx, ?_⟩
    have e := o.2
    split at e
    next sl r => exact ⟨sl, r⟩
    next => cases e

/-- A command of unit 0 with one slice from memory to memory. -/
def slice0 : CopySlice := { gang := 0, srcMem := true, dstMem := true, src := 2 ^ 30, dst := 2 ^ 30 + 256, bytes := 64 }
def cmd : Copy := { part := 0, unit := some (0, 1), level := none, slices := [slice0], supplied := [0] }
/-- A state with the page and a command; engine 0 belongs to the partition. -/
def sCmd (c : Copy) : State := { putEntry s1 0 0 (2 ^ 30) dataLeaf with
  parts := [(0, { first := 0, size := 1 })], copies := [(30, c)], engines := [(0, 0)] }

theorem witness_commandStart : firstWith (sCmd cmd).copies (fun _ c => c.unit.isSome && !c.started && !c.done && c.stop.isNone &&
    !copyStopped (sCmd cmd) c && allSupplied (sCmd cmd) c) = some (30, cmd) := by decide

theorem witness_accept : nextAccept (sCmd { cmd with started := true }) = some (0, 30, { cmd with started := true }) := by decide

/-- A suspended command whose account has a balance. -/
def cmdS : Copy := { cmd with started := true, suspended := true, journalOf := some 0 }
def sSus : State := { sCmd cmdS with parts := [(0, { first := 0, size := 1, accounts := [(0, { refill := 5, balance := 5 })] })] }

theorem witness_resume : nextResume sSus = some (0, 30, cmdS) := by decide

/-- A running command. -/
def cmdR : Copy := { cmd with started := true, engine := some 0 }

/-- The pieces of a range of the page. -/
def pieces (o n : Nat) : List Piece := (spans (n / 32 + 2) (2 ^ 30 + o) n).map (fun x =>
  { va := x.1, n := x.2, leaf := leafOf dataLeaf 0, home := .phys (2 ^ 21 + (x.1 - 2 ^ 30)) })

theorem along_of {ps : List Piece} {a pa : Nat} (h : ps.all (fun p => p.home == .phys (pa + (p.va - a))) = true) : Along ps a pa := by
  simpa [Along, List.all_eq_true] using h

theorem witness_chunk : tabGet (sCmd cmdR).copies 30 = some cmdR ∧ cmdR.engine.isSome = true ∧ cmdR.carries = true ∧ cmdR.suspended = false ∧
    copyStopped (sCmd cmdR) cmdR = false ∧ mustSuspend (sCmd cmdR) 30 cmdR = false ∧ cmdR.slices[0]? = some slice0 ∧
    slice0.settle (sCmd cmdR).time = slice0 ∧ slice0.left = true ∧ slice0.pending = 0 ∧ chunkShot (sCmd cmdR) cmdR slice0 64 = false ∧
    reach (sCmd cmdR) 0 0 (2 ^ 30) 64 {} { r := true } = .ok (pieces 0 64) ∧
    reach (sCmd cmdR) 0 0 (2 ^ 30 + 256) 64 {} { w := true } = .ok (pieces 256 64) ∧ Along (pieces 0 64) (2 ^ 30) (2 ^ 21) ∧
    Along (pieces 256 64) (2 ^ 30 + 256) (2 ^ 21 + 256) ∧
    ∀ q ∈ pieces 256 64, Label.subset (pagesLabel (pieces 0 64) ||| slice0.label) q.leaf.label = true :=
  ⟨by decide, by decide, by decide, by decide, by decide, by decide, by decide, by decide, by decide, by decide, by decide, by decide, by decide,
    along_of (by decide), along_of (by decide), by decide⟩

/-- A slice whose chunk is performed and whose completion time has not passed. -/
def sliceP : CopySlice := { slice0 with bytes := 8192, pending := 4096, pendG := 2000000 }

theorem witness_chunkPending : tabGet (sCmd { cmdR with slices := [sliceP] }).copies 30 = some { cmdR with slices := [sliceP] } ∧
    mustSuspend (sCmd { cmdR with slices := [sliceP] }) 30 { cmdR with slices := [sliceP] } = false ∧ sliceP.settle (sCmd cmdR).time = sliceP ∧
    sliceP.left = true ∧ sliceP.pending ≠ 0 := by decide

/-- A command that has carried everything. -/
def cmdD : Copy := { cmdR with slices := [{ slice0 with done := 64 }], bytes := 64, tag := 9 }

theorem witness_copyComplete : firstWith (sCmd cmdD).copies (fun _ c => copyEnds (sCmd cmdD) c &&
    (c.unfilled || recordFits (sCmd cmdD) c)) = some (30, cmdD) ∧ cmdD.level = none ∧ cmdD.stop = none ∧
    cmdD.skipped = 0 ∧ cmdD.slices ≠ [] := by decide


/-! The matrix engine and the event queue. -/

theorem witness_mready : Alone s1 0x301 blank [] [] 0 := alone_of (by decide) (by decide)

/-- MMA s0, s16 of one K tile with A in v2 to v17, B in v20 to v35 and accumulators from v64. -/
def fMma : Fields := { blank with d := .s 0, a := .s 16, b := .s 40 }
def sMma : State := { s1 with gangs := [(0, { lanes := 1, sregs := [(16, 1), (17, 0x00401402)] })] }

theorem witness_mma : ∀ x ∈ matrixForms, Alone sMma x.2 fMma [] [] 0 ∧ isUni fMma.d = true ∧ MatrixFits x.2 fMma sMma 0 0 := by
  have h : ∀ x ∈ matrixForms, issuesB sMma x.2 fMma [] [] 0 = true := by decide +kernel
  have g : ∀ x ∈ matrixForms, recordBad (paramsOf sMma fMma 0) (patternOf x.2 fMma) (metaOf sMma x.2 fMma 0) = false ∧
      rangeBad sMma 0 (paramsOf sMma fMma 0) (patternOf x.2 fMma) (metaOf sMma x.2 fMma 0) = false ∧
      runsBad sMma 0 (paramsOf sMma fMma 0) (patternOf x.2 fMma) = false := by decide +kernel
  exact fun x hx => ⟨alone_of (h x hx) (by decide +kernel), by decide +kernel, ⟨fun _ => by decide +kernel, fun _ => (g x hx).1, fun _ => (g x hx).2.1, (g x hx).2.2,
    by decide +kernel, by decide +kernel⟩⟩

/-- An operation of that form with its two rows of ones. -/
def mmaOp : MmaOp :=
  { unit := 0, gang := 0, thread := 0, opno := 0, pc := 0x1000, op := 0x302, ktiles := 1, n := 32, aScratch := false, bScratch := false, fmt := 0,
    aReg := 2, aRegs := 16, bReg := 20, bRegs := 16, acc := 64, aRec := 0, bRec := 0, metaBase := 0, pattern := 0, mode := 0, cls := 1, seq := 7,
    label := 0, accs := List.replicate 32 (List.replicate 32 0x3F800000) }
def sOp (o : MmaOp) : State := { s1 with clusters := [(0, { mma := [(3, o)] })] }

theorem witness_grant : arbiter (sOp mmaOp) 0 = some (3, mmaOp) ∧ mmaOp.chunkFault (sOp mmaOp) mmaOp.chunk = false := by decide

theorem witness_mmaComplete : nextMmaEnd (sOp { mmaOp with chunk := 1 }) = some (0, 3, { mmaOp with chunk := 1 }) ∧
    mmaOp.fault = false ∧ ((sOp { mmaOp with chunk := 1 }).gang mmaOp.gang).ended = false ∧
    ((sOp { mmaOp with chunk := 1 }).unit mmaOp.unit).live = true ∧ mmaOp.acc + mmaOp.n ≤ 255 ∧
    ((sOp { mmaOp with chunk := 1 }).gang mmaOp.gang).lanes ≤ 32 := by decide

/-! Waits, barriers, events, launches, levels. -/

theorem witness_waits : Issues s1 0x304 fv [] [] 0 ∧ outstanding s1 0 (read32 s1 0 fv.a) = false ∧ Issues s1 0x340 { blank with mod := 5 } [] [] 0 ∧
    (∀ u ∈ s1.gangIssuers 0x340 { blank with mod := 5 } 0, fenceDone s1 u (({ blank with mod := 5 } : Fields).bits 0 3 + 1) = true) ∧ Alone s1 0x344 blank [] [] 0 ∧ s1.ownWrites 0 = [] ∧
    s1.mustDeliver 0 = false ∧ Issues s1 0x345 fv [] [] 0 ∧ incompleteCopies s1 (gangOf 0) ≤ (read32 s1 0 fv.a).toNat :=
  ⟨issues_of (by decide), by decide, issues_of (by decide), by decide, alone_of (by decide) (by decide), by decide, by decide,
    issues_of (by decide), by decide⟩

/-- BAR 3. -/
def fBar : Fields := { blank with mod := 3 }

theorem witness_barriers : (∀ x ∈ arriveForms, GangArrives s2 x.2.1 fBar [] 0) ∧ GangArrives s2 0x343 fBar [] 0 ∧
    openArrival s2 0 (fBar.bits 0 4) = none ∧ ∀ t ∈ s2.group, s2.meetsCheck t = false ∧ fenceDone s2 t (barScope s2 0 fBar) = true := by
  have h : ∀ x ∈ arriveForms, arrivesB s2 x.2.1 fBar [] 0 = true := by decide
  exact ⟨fun x hx => arrives_of (h x hx), arrives_of (by decide), by decide, by decide⟩

/-- The gang has arrived at phase 0 of barrier 3, and its thread waits there. -/
def sPhase : State := { s1 with
  gangs := [(0, { lanes := 1, arrivals := [(3, 0)] })]
  threads := [(0, { pc := 0x1000, sched := .blocked (.barrier 3 0) })] }

theorem witness_phase : nextPhase sPhase = some (0, 3) ∧
    (sPhase.thread 0).sched = .blocked (.barrier 3 (tabGetD 0 tUnit.phases 3)) := by decide

/-- A control core: v4:v5 holds an address. -/
def sCtl : State := { s1 with
  units := [(0, { tUnit with core := 4 })], clusters := [(0, { events := [{ kind := 3, status := 0, core := 1, context := 0, tag := 9, unit := 4, bytes := 0, label := 0 }] })]
  cores := [(4, { children := [(2, { gen := 3, level := some 13 })] })]
  threads := [(0, { pc := 0x1000, regs := [(3, 5), (4, 0x4040), (6, 770)] })]
  issue := { core := 4, pc := 0x1000, threads := [0], serial := 7 } }

theorem witness_events : Alone s1 0x346 fv [] [] 0 ∧ (s1.cluster (s1.clusterOf 0)).events.length < 256 ∧ sCtl.coreOf 0 % 5 = 4 ∧
    (sCtl.cluster (sCtl.clusterOf 0)).events ≠ [] ∧ Alone sCtl 0x347 { blank with d := .v 251 } [] [] 0 ∧
    Alone sCtl 0x348 { blank with d := .v 0, mod := 2 } (modPred 2) [] 0 ∧ ({ sCtl with clusters := [] }.cluster 0).events = [] ∧
    Alone { sCtl with clusters := [] } 0x348 { blank with d := .v 0, mod := 2 } (modPred 2) [] 0 :=
  ⟨alone_of (by decide) (by decide), by decide, by decide, by decide, alone_of (by decide) (by decide), alone_of (by decide) (by decide), by decide,
    alone_of (by decide) (by decide)⟩

/-- LAUNCH v1, v4:v5, v3. -/
def fStart : Fields := { blank with d := .v 1, a := .v 4, b := .v 3 }

theorem witness_starts : ∀ x ∈ startForms, Alone sCtl x.2.1 fStart [] [] 0 ∧ sCtl.coreOf 0 % 5 = 4 ∧ (read64 sCtl 0 fStart.a).toNat % 64 = 0 ∧
    (read64 sCtl 0 fStart.a).toNat < 2 ^ 48 ∧ (read32 sCtl 0 fStart.b).toNat ≤ 255 ∧ fenceDone sCtl 0 5 = true ∧
    (freeChild sCtl (sCtl.coreOf 0)).isSome = true := by
  have h : ∀ x ∈ startForms, issuesB sCtl x.2.1 fStart [] [] 0 = true := by decide
  exact fun x hx => ⟨alone_of (h x hx) (by decide), by decide, by decide, by decide, by decide, by decide, by decide⟩

/-- CNTRD.CHILD and CANCEL.CHILD of the handle in v6; of its own launch; of a handle that names nothing. -/
def fLev (m : BitVec 20) (o : Opnd) : Fields := { blank with d := .k 65, a := o, mod := m }

theorem witness_levels : Alone sCtl 0x34B (fLev 0 (.v 6)) [] [] 0 ∧ (namedLevel sCtl (fLev 0 (.v 6)) 0).map Prod.fst = some 13 ∧
    Alone s1 0x34B (fLev 1 (.v 6)) [] [] 0 ∧ levelCode (fLev 1 (.v 6)) ≠ 0 ∧ (namedLevel s1 (fLev 1 (.v 6)) 0).map Prod.fst = some 13 ∧
    Alone sCtl 0x34B (fLev 0 (.v 3)) [] [] 0 ∧ namedLevel sCtl (fLev 0 (.v 3)) 0 = none ∧
    Alone sCtl 0x34C (fLev 0 (.v 3)) [] [] 0 ∧ Alone sCtl 0x34C (fLev 0 (.v 6)) [] [] 0 ∧ cancelTakes sCtl 13 = true :=
  ⟨alone_of (by decide) (by decide), by decide, alone_of (by decide) (by decide), by decide, by decide, alone_of (by decide) (by decide), by decide,
    alone_of (by decide) (by decide), alone_of (by decide) (by decide), by decide⟩

/-- A CNTRD of a level that is open, and a CANCEL of one that has its outcome. -/
theorem witness_openLevel : ((namedLevel sCtl (fLev 0 (.v 6)) 0).bind (fun k => sCtl.levelAt k.1)).map Level.outcome = some none ∧
    cancelTakes (sCtl.modLevel 13 (fun x => { x with status := some 5 })) 13 = false := by decide

/-- A level with a final status. -/
theorem witness_finalLevel : ((sCtl.modLevel 13 (fun x => { x with status := some 5 })).levelAt 13).map Level.outcome = some (some 5) ∧
    (namedLevel (sCtl.modLevel 13 (fun x => { x with status := some 5 })) (fLev 8 (.v 6)) 0).map Prod.fst = some 13 := by decide

/-! Labels, EGRESS, regions, records, handlers. -/

theorem witness_lblrd : Alone sMem 0x380 { fv with mod := 0 } [] [] 0 ∧ Alone sMem 0x380 { fv with mod := 1 } [] [] 0 ∧
    Alone sMem 0x380 { fMem 4 with mod := 2 } [] [] 0 ∧ InBounds opLabelPage { fMem 4 with mod := 2 } sMem 0 ∧
    Alone sMem 0x380 { fv with mod := 3 } [] [] 0 ∧ (read32 sMem 0 fv.a).toNat < (sMem.unit (unitOfThread 0)).runBytes ∧
    sMem.accesses = [] :=
  ⟨alone_of (by decide) (by decide), alone_of (by decide) (by decide), alone_of (by decide) (by decide), ⟨by decide, by decide, by decide, by decide⟩,
    alone_of (by decide) (by decide), by decide, by decide⟩

/-- EGRESS v1, b4[v3] of 16 bytes. -/
def fEg : Fields := { blank with d := .v 1, a := .k 4, b := .v 3, c := .imm 16, mod := 5 }

theorem witness_egress : Alone sMem 0x382 fEg [] [] 0 ∧ (recOf sMem 0 fEg.a).bad = false ∧ egressOob sMem fEg 0 = false :=
  ⟨alone_of (by decide) (by decide), by decide, by decide⟩

/-- A gang inside a region. -/
def sIn : State := { s2 with gangs := [(0, { lanes := 2, inRegion := true, rgn := true })] }

theorem witness_regions : (∀ t ∈ s2.group, s2.ownWrites t = [] ∧ s2.mustDeliver t = false) ∧ GangArrives s2 0x383 blank [] 0 ∧
    (s2.gang 0).inRegion = false ∧ (∀ t ∈ sIn.group, sIn.ownWrites t = [] ∧ sIn.mustDeliver t = false) ∧ GangArrives sIn 0x384 blank [] 0 ∧
    (sIn.gang 0).inRegion = true :=
  ⟨by decide, arrives_of (by decide), by decide, by decide, arrives_of (by decide), by decide⟩

/-- A region that every gang has entered, and one that every gang has left. -/
def sOpen (o : Bool) : State := { s1 with
  units := [(0, { tUnit with regionOpen := o })], gangs := [(0, { lanes := 1, inRegion := true, rgn := true, rgne := o })]
  threads := [(0, { pc := 0x1000, sched := .blocked .region })] }

theorem witness_regionMoves :
    firstWith (sOpen false).units (fun u x => x.live && !x.regionOpen && gangsAll (sOpen false) u Gang.rgn) = some (0, tUnit) ∧
    firstWith (sOpen true).units (fun u x => x.live && x.regionOpen && gangsAll (sOpen true) u Gang.rgne) =
      some (0, { tUnit with regionOpen := true }) := by decide

/-- A record that is pending. -/
def rec0 : Record :=
  { gang := 0, kind := 3, lane := 0, bytes := 4, type := 7, reason := 0, addr := 0x12345678, label := 2, pc := 0x2000, op := 0x201, data := 0xABCD,
    thread := 0 }
def sRec : State := { s1 with cores := [(0, { sfq := [rec0] })] }

theorem witness_sfqpop : Alone sRec 0x385 { blank with d := .s 118, mod := 1 } (modPred 1) [] 0 ∧ sRec.pendingRecords (gangOf 0) = [rec0] ∧
    Alone s1 0x385 { blank with d := .s 118, mod := 1 } (modPred 1) [] 0 ∧ s1.pendingRecords (gangOf 0) = [] :=
  ⟨alone_of (by decide) (by decide), by decide, alone_of (by decide) (by decide), by decide⟩

theorem witness_rft : Alone sTrap 0x386 blank [] [] 0 ∧ (sTrap.thread 0).inTrap = true ∧ (sTrap.thread 0).trappc.toNat % 4 = 0 :=
  ⟨alone_of (by decide) (by decide), by decide, by decide⟩

theorem witness_termHalt : Alone s1 0x387 blank [] [] 0 ∧ Alone s1 0x388 blank [] [] 0 ∧ Alone s1 0x389 blank [] [] 0 :=
  ⟨alone_of (by decide) (by decide), alone_of (by decide) (by decide), alone_of (by decide) (by decide)⟩


/-! Messages. -/

/-- A message of an opcode to an endpoint, with a job, a number and a payload. -/
def msg (ep op job hseq : Nat) (payload : List Byte) : Message :=
  { ep := ep, sender := 9
    data := leBytes 2 op ++ leBytes 2 ep ++ leBytes 4 hseq ++ leBytes 4 payload.length ++ leBytes 4 job ++ leBytes 8 0xAB ++ leBytes 8 0 ++
      payload }

/-- A queue entry of 64 bytes: its kind, flags and identifier 5, and the rest. -/
def entryBytes (kind flags : Byte) (rest : List Byte) : List Byte :=
  let b : List Byte := [kind, flags, 0, 0, 5, 0, 0, 0] ++ rest
  b ++ List.replicate (64 - b.length) 0

/-- A good payload of each command. -/
def payloadOf : Command → List Byte
  | .replay => leBytes 8 1
  | .loadObject => leBytes 8 0x80010000 ++ leBytes 8 128
  | .unloadObject => leBytes 8 3
  | .saveArea => leBytes 8 (2 ^ 30) ++ leBytes 8 8192
  | .submit => [2, 0] ++ leBytes 6 2 ++ entryBytes 4 0 [3, 0, 0, 0, 9, 0, 0, 0] ++ entryBytes 4 1 [3, 0, 0, 0, 9, 0, 0, 0]
  | .cancel => leBytes 8 4
  | .queueConfig => leBytes 4 2 ++ leBytes 4 64
  | .memWrite => leBytes 8 (2 ^ 30 + 8) ++ [1, 2, 3, 4]
  | .memRead => leBytes 8 (2 ^ 30 + 8) ++ leBytes 8 4
  | .statusWindowRead => leBytes 8 (2 ^ 62 + 4 * 2 ^ 32) ++ leBytes 8 16
  | .endpointEnable => leBytes 8 0b101
  | .reconfigure => leBytes 8 1 ++ [1, 0, 1, 0, 4, 2] ++ leBytes 10 0
  | .bindSlot => leBytes 8 1
  | .peer => leBytes 8 2
  | .policy => leBytes 8 3
  | .revoke => leBytes 8 4
  | .teaselTableRead => leBytes 8 4 ++ leBytes 8 64
  | .replacementImage => leBytes 8 0x21 ++ [1, 2, 3]
  | .configurationRecord => leBytes 8 0x23 ++ [1, 2, 3]
  | .nonce => leBytes 8 0x22 ++ leBytes 32 77
  | .attestationReport => leBytes 8 0x22 ++ leBytes 8 64
  | .bootStatus => leBytes 8 0x20 ++ leBytes 8 64
  | _ => []

def opOf : Command → Nat
  | .queryState => 1 | .replay => 2 | .loadObject => 0x10 | .unloadObject => 0x11 | .jobOpen => 0x20 | .jobClose => 0x21 | .phaseNext => 0x22
  | .saveArea => 0x23 | .resumeJob => 0x24 | .submit => 0x30 | .cancel => 0x31 | .queueConfig => 0x32
  | .memRead | .statusWindowRead | .teaselTableRead | .attestationReport | .bootStatus => 0x41
  | .reconfigure => 0x60 | .endpointEnable => 0x61
  | _ => 0x40

/-- Commands of the management endpoint. -/
def isMgmt : Command → Bool
  | .endpointEnable | .reconfigure | .bindSlot | .peer | .policy | .revoke | .teaselTableRead | .replacementImage | .configurationRecord | .nonce
  | .attestationReport | .bootStatus => true
  | _ => false

/-- A good message of a command for job 7 with a number; a short one has 12 bytes. -/
def sample (c : Command) (hseq : Nat) : Message :=
  if c = .short then { ep := 1, sender := 9, data := leBytes 12 1 } else msg (if isMgmt c then 64 else 1) (opOf c) 7 hseq (payloadOf c)

/-- Endpoint 1 of partition 0 with job 7, and the management endpoint. -/
def sHost : State := { s1 with
  endpoints := [(1, { enabled := true, bound := some 0, addr := some 1, lastAccepted := 5, accepted := 5, nextDev := 3,
                      stored := [{ blankOut 3 0 with seq := 1 }, { blankOut 3 0 with seq := 2 }], jobs := [(7, { level := 10, phase := 11 })] }),
                (64, { addr := some 2, lastAccepted := 5, accepted := 5 })]
  levels := tLevels.map (fun l => (l.1, { l.2 with message := 4 })) }

/-- Heard and in order, as values. -/
def heardB (s : State) (c : Command) (m : Message) : Bool :=
  reachable s m.ep && !mustWait s m && (m.toMgmt || (s.endpoint m.ep).enabled) && !m.short && m.command == c

theorem heard_of {s : State} {c : Command} {m : Message} (h : heardB s c m = true) : Heard s c m := by
  simp only [heardB, Bool.and_eq_true, Bool.not_eq_true', Bool.or_eq_true, beq_iff_eq] at h
  obtain ⟨⟨⟨⟨a, b⟩, c⟩, d⟩, e⟩ := h
  exact ⟨a, b, c, d, e⟩

def inOrderB (s : State) (c : Command) (m : Message) : Bool :=
  heardB s c m && m.hseq != 0 && m.hseq == nextHost (s.endpoint m.ep).lastAccepted && (headerRefusal s m).isNone

theorem inOrder_of {s : State} {c : Command} {m : Message} (h : inOrderB s c m = true) : InOrder s c m := by
  simp only [inOrderB, Bool.and_eq_true, bne_iff_ne, ne_eq, beq_iff_eq, Option.isNone_iff_eq_none] at h
  obtain ⟨⟨⟨a, b⟩, c⟩, d⟩ := h
  exact { heard_of a with number := ⟨b, c⟩, header := d }

/-- Every message that is not for the management endpoint at a disabled endpoint. -/
theorem witness_disabledEndpoint : ∀ x ∈ commandForms, isMgmt x.2 = false → (sample x.2 6).command = x.2 ∧
    reachable (sHost.modEndpoint 1 (fun e => { e with enabled := false })) (sample x.2 6).ep = true ∧
    mustWait (sHost.modEndpoint 1 (fun e => { e with enabled := false })) (sample x.2 6) = false ∧ (sample x.2 6).toMgmt = false ∧
    ((sHost.modEndpoint 1 (fun e => { e with enabled := false })).endpoint (sample x.2 6).ep).enabled = false ∧
    ((sample x.2 6).data.length < 32 ↔ x.2 = .short) := by decide +kernel

/-- A reconfiguration whose list names partition 0. -/
def sReconf : State := { sHost with boot := { state := 5, reconf := some { hseq := 5, tag := 0, entries := [[2, 0, 0, 0] ++ List.replicate 12 0], named := [0] } } }

/-- A message waits for it. -/
theorem witness_waiting : ∀ x ∈ commandForms, isMgmt x.2 = false → (sample x.2 6).command = x.2 ∧ reachable sReconf (sample x.2 6).ep = true ∧
    (sReconf.endpoint (sample x.2 6).ep).enabled = true ∧ mustWait sReconf (sample x.2 6) = true := by decide +kernel

/-- Without a number; with the next and a refused header; with one accepted before; with a gap. -/
theorem witness_sequence : ∀ x ∈ sequencedForms, Heard sHost x.2 (sample x.2 0) ∧ (sample x.2 0).hseq = 0 ∧ Heard sHost x.2 (sample x.2 4) ∧
    (sHost.endpoint (sample x.2 4).ep).isDuplicate (sample x.2 4).hseq = true ∧ Heard sHost x.2 (sample x.2 8) ∧
    (sHost.endpoint (sample x.2 8).ep).isDuplicate (sample x.2 8).hseq = false := by
  have h : ∀ x ∈ sequencedForms, (heardB sHost x.2 (sample x.2 0) && heardB sHost x.2 (sample x.2 4) && heardB sHost x.2 (sample x.2 8)) = true := by
    decide +kernel
  have g : ∀ x ∈ sequencedForms, (sample x.2 0).hseq = 0 ∧ (sHost.endpoint (sample x.2 4).ep).isDuplicate (sample x.2 4).hseq = true ∧
      (sHost.endpoint (sample x.2 8).ep).isDuplicate (sample x.2 8).hseq = false := by decide +kernel
  intro x hx
  have a := h x hx
  simp only [Bool.and_eq_true] at a
  exact ⟨heard_of a.1.1, (g x hx).1, heard_of a.1.2, (g x hx).2.1, heard_of a.2, (g x hx).2.2⟩

theorem witness_refusedHeader : ∀ x ∈ sequencedForms,
    headerRefusal { sHost with boot := { state := 7 }, endpoints := sHost.endpoints.map (fun e => (e.1, { e.2 with bound := none })) }
      (sample x.2 6) = if x.2 = .bootStatus then none else some stNotPermitted := by decide +kernel

theorem witness_shortMessage : reachable sHost (sample .short 0).ep = true ∧ mustWait sHost (sample .short 0) = false ∧
    (sHost.endpoint (sample .short 0).ep).enabled = true ∧ (sample .short 0).short = true ∧ (sample .short 0).command = .short := by decide +kernel

/-- The query and replays of the next number, of a stored one, and of one that is lost. -/
def replayOf (n : Nat) : Message := msg 1 2 0 0 (leBytes 8 n)

theorem witness_unsequenced : (∀ c m, c = .queryState ∧ m = sample .queryState 0 ∨ c = .replay ∧ (m = replayOf 3 ∨ m = replayOf 1 ∨ m = replayOf 9) →
      Unsequenced sHost c m) ∧ zeroBytes (replayOf 3).payload 4 8 = true ∧ fieldAt (replayOf 3).payload 0 4 = (sHost.endpoint 1).nextDev ∧
    (sHost.endpoint 1).stored = [] ++ { blankOut 3 0 with seq := 1 } :: [{ blankOut 3 0 with seq := 2 }] ∧ fieldAt (replayOf 1).payload 0 4 = 1 ∧
    fieldAt (replayOf 9).payload 0 4 ≠ (sHost.endpoint 1).nextDev ∧ ∀ o ∈ (sHost.endpoint 1).stored, o.seq ≠ fieldAt (replayOf 9).payload 0 4 := by
  refine ⟨?_, by decide +kernel, by decide +kernel, by decide +kernel, by decide +kernel, by decide +kernel, by decide +kernel⟩
  rintro c m (⟨rfl, rfl⟩ | ⟨rfl, rfl | rfl | rfl⟩)
  all_goals exact { heard_of (by decide +kernel) with place := by decide +kernel, number := by decide +kernel, header := by decide +kernel, answered := by decide +kernel }

theorem witness_inOrder : ∀ x ∈ sequencedForms, x.2 ≠ .replacementImage → InOrder sHost x.2 (sample x.2 6) := by
  have h : ∀ x ∈ sequencedForms, x.2 ≠ .replacementImage → inOrderB sHost x.2 (sample x.2 6) = true := by decide +kernel
  exact fun x hx n => inOrder_of (h x hx n)

/-- JOB_OPEN of job 7, which is open; of job 8; and where 8 jobs are open. -/
def sFull : State := sHost.modEndpoint 1 (fun e => { e with jobs := (List.range 8).map (fun i => (20 + i, { level := 10, phase := 11 })) })

theorem witness_jobOpen : InOrder sHost .jobOpen (msg 1 0x20 8 6 []) ∧ tabGet (sHost.endpoint 1).jobs 8 = none ∧ openJobs (sHost.endpoint 1) < 8 ∧
    InOrder sFull .jobOpen (msg 1 0x20 8 6 []) ∧ tabGet (sFull.endpoint 1).jobs 8 = none ∧ 8 ≤ openJobs (sFull.endpoint 1) ∧
    (tabGet (sHost.endpoint 1).jobs (sample .jobOpen 6).job).isSome = true :=
  ⟨inOrder_of (by decide +kernel), by decide +kernel, by decide +kernel, inOrder_of (by decide +kernel), by decide +kernel, by decide +kernel, by decide +kernel⟩

/-- Job 7 with a unit that is saved. -/
def sSaved : State := { sHost with
  endpoints := tabMod sHost.endpoints 1 (fun e => { e with jobs := [(7, { level := 10, phase := 11, saved := true })] })
  saved := [(3, { ep := 1, job := 10, unitNo := 4, unit := tUnit, restart := false, gangs := [(0, { lanes := 1, stackBase := 2 ^ 46 })],
                  threads := [(0, { pc := 0x1000, regs := [(2, 40)], preds := 5 })], accesses := [], records := [], codebooks := [], remap := {},
                  savedAt := 900000 })] }

theorem witness_jobCommands : tabGet (sHost.endpoint 1).jobs (sample .jobClose 6).job = some { level := 10, phase := 11 } ∧
    fieldAt (payloadOf .saveArea) 0 8 % 4096 = 0 ∧ fieldAt (payloadOf .saveArea) 0 8 < vaTop ∧ fieldAt (payloadOf .saveArea) 8 8 % 4096 = 0 ∧
    fieldAt (payloadOf .saveArea) 8 8 < 2 ^ 40 ∧ InOrder sSaved .resumeJob (sample .resumeJob 6) ∧
    tabGet (sSaved.endpoint 1).jobs 7 = some { level := 10, phase := 11, saved := true } ∧
    hasSaved sSaved { level := 10, phase := 11, saved := true } = true ∧
    imageIntact sSaved { level := 10, phase := 11, saved := true } = true ∧
    (∀ x ∈ ([(.jobClose, .jobClose), (.phaseNext, .phaseNext), (.resumeJob, .resumeJob)] : List ((Message → Instr) × Command)),
      InOrder sHost x.2 (msg 1 (opOf x.2) 8 6 []) ∧ tabGet (sHost.endpoint 1).jobs 8 = none) := by
  have h : ∀ x ∈ ([(.jobClose, .jobClose), (.phaseNext, .phaseNext), (.resumeJob, .resumeJob)] : List ((Message → Instr) × Command)),
      inOrderB sHost x.2 (msg 1 (opOf x.2) 8 6 []) = true := by decide +kernel
  exact ⟨by decide +kernel, by decide +kernel, by decide +kernel, by decide +kernel, by decide +kernel, inOrder_of (by decide +kernel), by decide +kernel, by decide +kernel, by decide +kernel,
    fun x hx => ⟨inOrder_of (h x hx), by decide +kernel⟩⟩

/-- Queue 2 of endpoint 1 holds 15 entries of its depth of 16; or is another endpoint's. -/
def qEntry (b : List Byte) : QEntry := { bytes := b, ep := 1, job := 10, phase := 11, level := 12, prev := none }
def sQueue (own : Nat) (n : Nat) : State := sHost.modPart 0 (fun p => { p with
  queues := [(2, { owner := some own, depth := 16, entries := List.replicate n (qEntry (entryBytes 4 0 [3, 0, 0, 0, 9, 0, 0, 0])) })] })

theorem witness_queueConfig : ∀ x, x = sQueue 1 15 ∨ x = sQueue 2 15 ∨ x = sQueue 1 16 → InOrder x .queueConfig (sample .queueConfig 6) ∧
    zeroBytes (payloadOf .queueConfig) 1 4 = true ∧ fieldAt (payloadOf .queueConfig) 4 4 = 2 ^ 6 := by
  rintro x (rfl | rfl | rfl)
  all_goals exact ⟨inOrder_of (by decide +kernel), by decide +kernel, by decide +kernel⟩

/-- QUEUE_CONFIG to a depth of 16 where 17 entries stand in the queue. -/
theorem witness_queueConfigFull : InOrder (sQueue 1 17) .queueConfig (msg 1 0x32 0 6 (leBytes 4 2 ++ leBytes 4 16)) ∧
    fieldAt (leBytes 4 2 ++ leBytes 4 16) 4 4 < (tabGetD {} ((sQueue 1 17).part 0).queues 2).entries.length := ⟨inOrder_of (by decide +kernel), by decide +kernel⟩

theorem witness_submit : ∀ n, n = 14 ∨ n = 15 → InOrder (sQueue 1 n) .submit (sample .submit 6) ∧ zeroBytes (payloadOf .submit) 1 2 = true ∧
    fieldAt (payloadOf .submit) 2 2 = 2 ∧ zeroBytes (payloadOf .submit) 4 8 = true ∧ (∀ b ∈ entriesOf (sample .submit 6), entryOk b = true) ∧
    (tabGetD {} ((sQueue 1 n).part 0).queues 2).owner = some 1 ∧
    tabGet ((sQueue 1 n).endpoint 1).jobs (sample .submit 6).job = some { level := 10, phase := 11 } ∧
    (((sQueue 1 n).levelAt 11).map Level.cancelled) = some false := by
  rintro n (rfl | rfl)
  all_goals exact ⟨inOrder_of (by decide +kernel), by decide +kernel, by decide +kernel, by decide +kernel, by decide +kernel, by decide +kernel, by decide +kernel, by decide +kernel⟩

/-- A SUBMIT to a job with a failed phase, and one to a cancelled phase. -/
theorem witness_submitEnds : (∀ s, s = (sQueue 1 14).modEndpoint 1 (fun e => { e with jobs := [(7, { level := 10, phase := 11, failed := true })] }) ∨
      s = (sQueue 1 14).modLevel 11 (fun x => { x with cancelled := true }) → InOrder s .submit (sample .submit 6)) ∧
    (((sQueue 1 14).modLevel 11 (fun x => { x with cancelled := true })).levelAt 11).map Level.cancelled = some true := by
  refine ⟨?_, by decide +kernel⟩
  rintro s (rfl | rfl)
  all_goals exact inOrder_of (by decide +kernel)

theorem witness_cancelCommand : (∀ k i, k = 4 ∧ i = 0 ∨ k = 2 ∧ i = 99 → InOrder sHost .cancel (msg 1 0x31 7 6 (leBytes 4 k ++ leBytes 4 i))) ∧
    toCancel sHost { level := 10, phase := 11 } 4 0 = [10] ∧ cancelTakes sHost 10 = true ∧ toCancel sHost { level := 10, phase := 11 } 2 99 = [] := by
  refine ⟨?_, by decide +kernel, by decide +kernel, by decide +kernel⟩
  rintro k i (⟨rfl, rfl⟩ | ⟨rfl, rfl⟩)
  all_goals exact inOrder_of (by decide +kernel)

theorem witness_statusWindow : fieldAt (payloadOf .statusWindowRead) 0 8 % 2 ^ 62 = 4 * 2 ^ 32 + 0 ∧ fieldAt (payloadOf .statusWindowRead) 8 4 = 16 ∧
    zeroBytes (payloadOf .statusWindowRead) 12 16 = true ∧ InOrder sHost .statusWindowRead (msg 1 0x41 8 6 (payloadOf .statusWindowRead)) ∧
    tabGet (sHost.endpoint 1).jobs 8 = none ∧ sHost.levelAt 10 = some { kind := 4, ident := 7, parent := none, ep := 1, job := 10, counter := 1, message := 4 } :=
  ⟨by decide +kernel, by decide +kernel, by decide +kernel, inOrder_of (by decide +kernel), by decide +kernel, by decide +kernel⟩


/-! Host transfers. -/

/-- The page under a label. -/
def pageOf (l : Nat) : Nat := dataLeaf - 2 ^ 20 + l * 2 ^ 20
def sPg (l : Nat) : State := (putEntry sHost 0 0 (2 ^ 30) (pageOf l)).setMem
  (Memory.write (putEntry sHost 0 0 (2 ^ 30) (pageOf l)).mem (2 ^ 21 + 8) [11, 12, 13, 14])

/-- Four bytes of the page. -/
def hostPiece (l : Nat) : Piece := { va := 2 ^ 30 + 8, n := 4, leaf := leafOf (pageOf l) 0, home := .phys (2 ^ 21 + 8) }

theorem witness_hostWrite : InOrder (sPg 0) .memWrite (sample .memWrite 6) ∧
    ringPart (isPhysical (fieldAt (payloadOf .memWrite) 0 8)) (2 ^ 30 + 8) 4 = 0 ∧
    hostPieces (sPg 0) 0 (isPhysical (fieldAt (payloadOf .memWrite) 0 8)) { shared := true, unheld := true } (2 ^ 30 + 8) 4 = .ok [hostPiece 0] ∧
    ingressFails (sPg 0) 0 (isPhysical (fieldAt (payloadOf .memWrite) 0 8)) (ingressLabel (sPg 0) 0 9) (hostPiece 0) = false ∧
    Along [hostPiece 0] (2 ^ 30 + 8) (2 ^ 21 + 8) ∧ (sample .memWrite 6).toMgmt = false ∧ partOfEp (sPg 0) 1 = 0 := by
  refine ⟨inOrder_of (by decide +kernel), by decide +kernel, by decide +kernel, by decide +kernel, ?_, by decide +kernel, by decide +kernel⟩
  intro p hp
  simp only [List.mem_singleton] at hp
  subst hp
  rfl

/-- A write of the tail word. -/
def tailWrite : Message := msg 1 0x40 7 6 (leBytes 8 0 ++ leBytes 4 9)

theorem witness_hostRing : InOrder sHost .memWrite tailWrite ∧ fieldAt tailWrite.payload 0 8 + (tailWrite.payload.length - 8) ≤ controlBytes ∧
    8 < tailWrite.payload.length := ⟨inOrder_of (by decide +kernel), by decide +kernel, by decide +kernel⟩

/-- A read of a page without a label, and of one with label bit 1 by an address that no peer entry holds. -/
theorem witness_hostRead : ∀ l, l = 0 ∨ l = 2 → InOrder (sPg l) .memRead (sample .memRead 6) ∧ fieldAt (payloadOf .memRead) 8 4 = 4 ∧
    zeroBytes (payloadOf .memRead) 12 16 = true ∧ ringPart (isPhysical (fieldAt (payloadOf .memRead) 0 8)) (2 ^ 30 + 8) 4 = 0 ∧
    hostPieces (sPg l) 0 (isPhysical (fieldAt (payloadOf .memRead) 0 8)) { shared := true, unheld := false } (2 ^ 30 + 8) 4 = .ok [hostPiece l] ∧
    (l = 0 ↔ pagesLabel [hostPiece l] = 0) ∧ peerIndex (sPg l) 0 9 = none := by
  rintro l (rfl | rfl)
  all_goals exact ⟨inOrder_of (by decide +kernel), by decide +kernel, by decide +kernel, by decide +kernel, by decide +kernel, by decide +kernel,
    by decide +kernel⟩

/-! Objects. -/

/-- An object of one data section of 16 bytes, its tables after its header, with a header hash. -/
def objBytes (hash : Nat) : List Byte :=
  leBytes 4 0x4F4D5244 ++ leBytes 4 3 ++ leBytes 8 hash ++ leBytes 8 (2 ^ 30) ++ leBytes 4 4096 ++ leBytes 2 1 ++ leBytes 2 0 ++ leBytes 4 64 ++
    leBytes 4 96 ++ leBytes 4 0 ++ leBytes 4 96 ++ leBytes 4 0 ++ leBytes 4 96 ++ leBytes 8 0 ++
    ([3, 6, 0, 0] ++ leBytes 4 96 ++ leBytes 8 16 ++ leBytes 8 0 ++ leBytes 8 0) ++ leBytes 16 0x11

/-- The object staged in the second stack of its partition, and the command that loads it from there. -/
def sStage (hash : Nat) : State := { sHost with parts := [(0, { first := 0, size := 2 })], mem := Memory.write [] (2 ^ 36 + 4096) (objBytes hash) }
def loadMsg : Message := msg 1 0x10 7 6 (leBytes 8 (2 ^ 63 + 2 ^ 36 + 4096) ++ leBytes 4 112 ++ leBytes 4 0)

/-- The object's section. -/
def objSec : Sec := { kind := 3, align := 6, fo := 96, size := 16, voff := 0, hash := 0, reservedOk := true, data := leBytes 16 0x11 }
def objImage : Image := { preferred := 2 ^ 30, size := 4096, hash := Config.encHash, kernels := 0, secs := [objSec], syms := [], relocs := [] }

theorem witness_loadObject : InOrder (sStage Config.encHash.toNat) .loadObject loadMsg ∧ 64 ≤ fieldAt loadMsg.payload 8 4 ∧
    zeroBytes loadMsg.payload 14 16 = true ∧
    ∃ ps, stagePieces (sStage Config.encHash.toNat) 0 (isPhysical (fieldAt loadMsg.payload 0 8)) (BitVec.ofNat 16 (fieldAt loadMsg.payload 12 2))
      (plainAddress (fieldAt loadMsg.payload 0 8)) (fieldAt loadMsg.payload 8 4) = .ok ps ∧
      Loads (sStage Config.encHash.toNat) 0 (ps.flatMap (pieceBytes (sStage Config.encHash.toNat))) objImage (2 ^ 30) [2 ^ 25 - 1] [objSec]
        [objSec] := by
  have h : (match stagePieces (sStage Config.encHash.toNat) 0 (isPhysical (fieldAt loadMsg.payload 0 8))
      (BitVec.ofNat 16 (fieldAt loadMsg.payload 12 2)) (plainAddress (fieldAt loadMsg.payload 0 8)) (fieldAt loadMsg.payload 8 4) with
    | .ok ps => decide (checkImageBytes (ps.flatMap (pieceBytes (sStage Config.encHash.toNat))) = .ok objImage)
    | .error _ => false) = true := by decide +kernel
  refine ⟨inOrder_of (by decide +kernel), by decide +kernel, by decide +kernel, ?_⟩
  split at h
  next ps e =>
    exact ⟨ps, e, of_decide_eq_true h, by decide +kernel, by decide +kernel, by decide +kernel, by decide +kernel⟩
  next => cases h

theorem witness_loadRefused : InOrder (sStage 1) .loadObject loadMsg ∧ ∃ ps,
    stagePieces (sStage 1) 0 (isPhysical (fieldAt loadMsg.payload 0 8)) (BitVec.ofNat 16 (fieldAt loadMsg.payload 12 2))
      (plainAddress (fieldAt loadMsg.payload 0 8)) (fieldAt loadMsg.payload 8 4) = .ok ps ∧
    checkImageBytes (ps.flatMap (pieceBytes (sStage 1))) = .error (stEncodingHash, 0xFFFF) := by
  have h : (match stagePieces (sStage 1) 0 (isPhysical (fieldAt loadMsg.payload 0 8))
      (BitVec.ofNat 16 (fieldAt loadMsg.payload 12 2)) (plainAddress (fieldAt loadMsg.payload 0 8)) (fieldAt loadMsg.payload 8 4) with
    | .ok ps => decide (checkImageBytes (ps.flatMap (pieceBytes (sStage 1))) = .error (stEncodingHash, 0xFFFF))
    | .error _ => false) = true := by decide +kernel
  refine ⟨inOrder_of (by decide +kernel), ?_⟩
  split at h
  next ps e => exact ⟨ps, e, of_decide_eq_true h⟩
  next => cases h

/-- Object 3 loaded, and a launch of it that has not completed. -/
def sObj (busy : Bool) : State := { sHost.modPart 0 (fun p => { p with
    objects := [(3, { base := 2 ^ 30, size := 4096, sections := [{ kind := 3, voff := 0, size := 16, hash := 0 }], frames := [2 ^ 24 - 2 ^ 18 - 1], kernels := [],
                      handler := none, label := 0 })] }) with
  launches := if busy then [(0, { tLaunch with level := 13, obj := 3 })] else [] }

theorem witness_unloadObject : ∀ b, InOrder (sObj b) .unloadObject (sample .unloadObject 6) ∧ zeroBytes (payloadOf .unloadObject) 4 8 = true ∧
    (tabGet ((sObj b).part 0).objects (fieldAt (payloadOf .unloadObject) 0 4)).map (objectBusy (sObj b) 0 3) = some b ∧
    tabGet (sHost.part 0).objects (fieldAt (payloadOf .unloadObject) 0 4) = none := by
  intro b
  cases b
  all_goals exact ⟨inOrder_of (by decide +kernel), by decide +kernel, by decide +kernel, by decide +kernel⟩

/-! The management endpoint. -/

/-- The body of a record for index 1: a key; address 9 for slot 0; a policy of slots 0 and 1; the end of a policy. -/
def bodyOf : Command → List Byte
  | .bindSlot => List.replicate 1793 0x55
  | .peer => leBytes 16 9 ++ [0]
  | .policy => leBytes 2 3 ++ leBytes 8 2 ++ leBytes 8 0 ++ leBytes 8 4096 ++ leBytes 8 100
  | _ => [1]

/-- A record with a serial and signatures. -/
def teaselMsg (c : Command) (serial n : Nat) : Message :=
  let kind := fieldAt (payloadOf c) 0 8
  msg 64 0x40 0 6 (leBytes 8 kind ++ ([BitVec.ofNat 8 kind, 0, 1, 0] ++ leBytes 4 n ++ leBytes 8 serial ++ List.replicate 32 0 ++ List.replicate 16 0) ++
    bodyOf c ++ List.replicate (1280 * n) 0x77)

/-- Slots 0 and 1 bound, with a policy 1 of slot 0. -/
def sTeasel : State := sHost.modPart 0 (fun p => { p with
  slots := [(0, [1, 2, 3]), (5, [4])]
  policies := [(1, { mask := 1, peers := 2, base := 0, length := 4096, cap := 100, count := 40 })] })

/-- A stale record. -/
theorem witness_teaselRefused : ∀ x ∈ teaselForms, InOrder sTeasel x.command (teaselMsg x.command 0 1) ∧
    fieldAt (teaselMsg x.command 0 1).payload 0 8 / 2 ^ 12 = 0 ∧
    badRecord sTeasel x.form (fieldAt (teaselMsg x.command 0 1).payload 0 8) ((teaselMsg x.command 0 1).payload.drop 8) = none ∧
    recordFresh sTeasel 0 ((teaselMsg x.command 0 1).payload.drop 8) = false := by
  have h : ∀ x ∈ teaselForms, inOrderB sTeasel x.command (teaselMsg x.command 0 1) = true ∧
      fieldAt (teaselMsg x.command 0 1).payload 0 8 / 2 ^ 12 = 0 ∧
      badRecord sTeasel x.form (fieldAt (teaselMsg x.command 0 1).payload 0 8) ((teaselMsg x.command 0 1).payload.drop 8) = none ∧
      recordFresh sTeasel 0 ((teaselMsg x.command 0 1).payload.drop 8) = false := by
    rw [teaselForms]
    simp only [List.forall_mem_cons, List.not_mem_nil, false_imp_iff, implies_true, and_true]
    refine ⟨⟨?_, ?_, ?_, ?_⟩, ⟨?_, ?_, ?_, ?_⟩, ⟨?_, ?_, ?_, ?_⟩, ?_, ?_, ?_, ?_⟩ <;> decide +kernel
  exact fun x hx => ⟨inOrder_of (h x hx).1, (h x hx).2⟩

/-- A fresh BIND, which takes effect wherever its signature verifies. -/
theorem witness_teaselAccepted : InOrder sTeasel .bindSlot (teaselMsg .bindSlot 1 1) ∧
    badRecord sTeasel formBind 1 ((teaselMsg .bindSlot 1 1).payload.drop 8) = none ∧
    recordFresh sTeasel 0 ((teaselMsg .bindSlot 1 1).payload.drop 8) = true ∧
    ((∀ k d g, Config.falconVerify k d g = true) → mayBind sTeasel 0 ((teaselMsg .bindSlot 1 1).payload.drop 8) = true) := by
  refine ⟨inOrder_of (by decide +kernel), by decide +kernel, by decide +kernel, fun h => ?_⟩
  rw [mayBind, signedBy, h, Bool.and_true]
  decide +kernel

theorem witness_teaselTables : InOrder sTeasel .teaselTableRead (sample .teaselTableRead 6) ∧ fieldAt (payloadOf .teaselTableRead) 0 8 / 2 ^ 12 = 0 ∧
    fieldAt (payloadOf .teaselTableRead) 8 4 = 64 ∧ zeroBytes (payloadOf .teaselTableRead) 12 16 = true ∧
    (tabGet sTeasel.parts (fieldAt (payloadOf .teaselTableRead) 0 8 / 2 ^ 8 % 16)).isSome = true :=
  ⟨inOrder_of (by decide +kernel), by decide +kernel, by decide +kernel, by decide +kernel, by decide +kernel⟩

theorem witness_policyPeriod : ({ sTeasel with time := 1200000 }.periods + 1) * periodTicks ≤ 1200000 ∧
    ((tabGet sTeasel.parts 0).bind (fun x => tabGet x.policies 1)).isSome = true := by decide +kernel

theorem witness_management : InOrder sHost .endpointEnable (sample .endpointEnable 6) ∧ InOrder sHost .nonce (sample .nonce 6) ∧
    fieldAt (payloadOf .nonce) 0 8 / 2 ^ 8 = 0 ∧ ((payloadOf .nonce).drop 8).length = 32 ∧
    (∀ c, c = .attestationReport ∨ c = .bootStatus → InOrder sHost c (sample c 6) ∧ fieldAt (payloadOf c) 0 8 / 2 ^ 8 = 0 ∧
      fieldAt (payloadOf c) 8 4 = 64 ∧ zeroBytes (payloadOf c) 12 16 = true) := by
  refine ⟨inOrder_of (by decide +kernel), inOrder_of (by decide +kernel), by decide +kernel, by decide +kernel, ?_⟩
  rintro c (rfl | rfl)
  all_goals exact ⟨inOrder_of (by decide +kernel), by decide +kernel, by decide +kernel, by decide +kernel⟩

/-- A device that awaits a replacement image, with three bytes of it; and one that awaits its configuration record. -/
def sBoot : State := { sHost with boot := { state := 2, transfer := [7, 8, 9] } }
def sFour : State := { sHost with boot := { state := 4 } }

/-- The empty chunk that ends an image. -/
def lastChunk : Message := msg 64 0x40 0 6 (leBytes 8 0x21)

theorem witness_replacement : InOrder sBoot .replacementImage (sample .replacementImage 6) ∧ 8 < (sample .replacementImage 6).payload.length ∧
    sBoot.boot.transfer.length + ((sample .replacementImage 6).payload.length - 8) ≤ 2 ^ 26 ∧ InOrder sBoot .replacementImage lastChunk ∧
    lastChunk.payload.length = 8 ∧ fieldAt (leBytes 8 0x21) 0 8 / 2 ^ 8 = 0 ∧ sBoot.boot.state < 3 ∧
    InOrder sFour .replacementImage (sample .replacementImage 6) ∧ 3 ≤ sFour.boot.state :=
  ⟨inOrder_of (by decide +kernel), by decide +kernel, by decide +kernel, inOrder_of (by decide +kernel), by decide +kernel, by decide +kernel,
    by decide +kernel, inOrder_of (by decide +kernel), by decide +kernel⟩

/-- A chunk past 64 MiB. -/
theorem witness_imageTooLong : InOrder { sBoot with boot := { state := 2, transfer := List.replicate (2 ^ 26) 0 } } .replacementImage
      (sample .replacementImage 6) ∧
    2 ^ 26 < (List.replicate (2 ^ 26) (0 : Byte)).length + ((sample .replacementImage 6).payload.length - 8) :=
  ⟨inOrder_of (by decide +kernel), by rw [List.length_replicate]; decide +kernel⟩

/-- The transfer verifies or not as the signature scheme says. -/
theorem witness_imageVerifies : (∀ b, (∀ k d g, Config.falconVerify k d g = b) → imageVerifies sBoot.boot.transfer = b) :=
  fun _ h => h _ _ _

theorem witness_configuration : InOrder sHost .configurationRecord (sample .configurationRecord 6) ∧ sHost.boot.state = 5 ∧ InOrder sFour .configurationRecord (sample .configurationRecord 6) ∧ sFour.boot.state ≠ 5 ∧
    fieldAt (payloadOf .configurationRecord) 0 8 / 2 ^ 8 = 0 := ⟨inOrder_of (by decide +kernel), by decide +kernel, inOrder_of (by decide +kernel), by decide +kernel, by decide +kernel⟩

/-- CREATE of partition 1, without a copy engine and with engine 3. -/
def recOne : List Byte := [1, 0, 1, 0, 4, 2] ++ leBytes 10 0
def recEngines : List Byte := [3, 0, 1, 0] ++ leBytes 4 8 ++ leBytes 8 0
def recMsg (l : List (List Byte)) : Message := msg 64 0x60 0 6 (leBytes 8 l.length ++ l.flatten)
def sOwn : State := { sHost with engines := [(0, 0)] }

theorem witness_reconfigure : (∀ l, l = [recOne] ∨ l = [recOne, recEngines] → InOrder sOwn .reconfigure (recMsg l)) ∧
    checkList sOwn 0 (planOf sOwn) (recEntries (recMsg [recOne])) = some (1, 6) ∧
    checkList sOwn 0 (planOf sOwn) (recEntries (recMsg [recOne, recEngines])) = none := by
  refine ⟨?_, by decide +kernel, by decide +kernel⟩
  rintro l (rfl | rfl)
  all_goals exact inOrder_of (by decide +kernel)

/-- A list of one entry being applied to a partition without work. -/
def recDestroy : List Byte := [2, 0, 0, 0] ++ leBytes 12 0
def recBind : List Byte := [4, 0, 0, 0, 3] ++ leBytes 11 0
def sApply (e : List Byte) : State := { sOwn with
  boot := { state := 5, reconf := some { hseq := 6, tag := 0, entries := [e], named := [] } }
  endpoints := sOwn.endpoints.map (fun e => (e.1, { e.2 with jobs := [] })), units := [] }

theorem witness_entriesApply : recKind recOne = 1 ∧ (sApply recOne).boot.clearing = [] ∧ recKind recDestroy = 2 ∧
    (jobsOfPart (sApply recDestroy) (recPart recDestroy)).filter (fun x => jobStands (sApply recDestroy) x.2.2) = [] ∧
    partStill (sApply recDestroy) (recPart recDestroy) = true ∧ recKind recEngines = 3 ∧ recKind recBind = 4 ∧
    (sApply recOne).boot.reconf = some { hseq := 6, tag := 0, entries := recOne :: [], named := [] } := by decide +kernel

/-- Partition 1 to be created on a stack that is still being cleared. -/
theorem witness_createWaits : ∃ k ∈ [5], fieldAt recOne 4 1 ≤ k ∧ k < fieldAt recOne 4 1 + fieldAt recOne 5 1 := by decide +kernel

/-- A partition to be destroyed with one job that runs, or that is saved. -/
def sOneJob (b : Bool) : State := { sApply recDestroy with
  endpoints := [(1, { enabled := true, bound := some 0, jobs := [(7, { level := 10, phase := 11, parts := [0], saved := b })] })] }

theorem witness_destroyJob : ∀ b, (sOneJob b).boot.reconf = (sApply recDestroy).boot.reconf ∧ ((sOneJob b).levelAt 10).isSome = true ∧
    (jobsOfPart (sOneJob b) (recPart recDestroy)).filter (fun x => jobStands (sOneJob b) x.2.2) =
      [(1, 7, { level := 10, phase := 11, parts := [0], saved := b })] := by decide +kernel

/-- Stack 4 being cleared, with a byte in it and a byte below. -/
def sClear : State := { sHost with boot := { state := 5, clearing := [4] }, mem := [(5, 1), (4 * 2 ^ 36 + 5, 2)] }

theorem witness_stackClear : sClear.boot.clearing ≠ [] := by decide +kernel

/-- Endpoint 1 being disabled: with a copy entry in flight and no area, or the page for its area; with nothing left. -/
def sDis (area : Option (Nat × Nat)) (busy : Bool) : State := { sPg 0 with
  endpoints := [(1, { enabled := false, disabling := true, bound := some 0, nextDev := 3, jobs := [(7, { level := 10, phase := 11, saveArea := area })] })]
  units := [], copies := if busy then [(30, { part := 0, unit := none, level := some 12 })] else [] }

theorem witness_disable : (firstWith (sDis none true).endpoints (fun _ e => e.disabling)).map Prod.fst = some 1 ∧
    jobToQuiesce (sDis none true) 1 = some (7, { level := 10, phase := 11 }) ∧
    areaValid (sDis none true) { level := 10, phase := 11 } = false ∧
    (((sDis none true).levelAt 10).map Level.status) = some none ∧ jobToQuiesce (sDis none false) 1 = none ∧
    endpointStill (sDis none false) 1 = true := by decide +kernel

theorem witness_disableSave : jobToQuiesce (sDis (some (2 ^ 30, 4096)) true) 1 = some (7, { level := 10, phase := 11, saveArea := some (2 ^ 30, 4096) }) ∧
    areaValid (sDis (some (2 ^ 30, 4096)) true) { level := 10, phase := 11, saveArea := some (2 ^ 30, 4096) } = true := by decide +kernel

/-- A job that was quiesced and whose copies the area no longer takes. -/
def xStranded : Job := { level := 10, phase := 11, saved := true, copies := [(30, cmd)] }
def sStranded : State := { sDis none false with
  endpoints := [(1, { enabled := false, disabling := true, bound := some 0, nextDev := 3, jobs := [(7, xStranded)] })] }

theorem witness_disableStranded : jobToQuiesce sStranded 1 = none ∧ (strandedJob sStranded 1).isSome = true ∧
    strandedJob sStranded 1 = some xStranded ∧ ((sStranded.levelAt 10).map Level.status) = some none := by decide +kernel


/-! The request ring. -/

/-- A ring with one record at its head: an op, an address and an entry, for one page of level 0. -/
def ringOf (op va e : Nat) : Memory :=
  Memory.write (Memory.write [] 0 (leBytes 4 1)) 32 (leBytes 4 op ++ leBytes 4 1 ++ leBytes 8 va ++ leBytes 8 e)

/-- The page at 2^30 is mapped; the ring holds a record; an access to the page is in flight or not. -/
def sRing (op va e : Nat) (busy : Bool) : State := { (sPg 2).modPart 0 (fun p => { p with ring := ringOf op va e }) with
  accesses := if busy then [(20, access .load)] else [] }

theorem witness_ringTail : ({ (sRing 1 0 0 false).part 0 with ring := Memory.write [] 0 (leBytes 4 3000) } : Partition).overrun = true ∧
    (∀ b, ({ (sRing 1 0 0 false).part 0 with ring := Memory.write [] 8 (leBytes 4 1), tailWritten := b } : Partition).overrun = false ∧
      ({ (sRing 1 0 0 false).part 0 with ring := Memory.write [] 8 (leBytes 4 1), tailWritten := b } : Partition).ringError ≠ 0) ∧
    ((sRing 5 0 0 false).part 0).takes = true ∧ ((sRing 5 0 0 false).part 0).nextRequest.op = 5 := by decide +kernel

theorem witness_ringRefused : ∀ y ∈ ringForms, ((sRing y.2 8 0 false).part 0).takes = true ∧
    ((sRing y.2 8 0 false).part 0).nextRequest.op = y.2 ∧ requestReason (sRing y.2 8 0 false) 0 ((sRing y.2 8 0 false).part 0).nextRequest = some 2 := by
  decide +kernel

/-- A record to be taken, as a value. -/
def takenB (s : State) (op : Nat) : Bool :=
  (tabGet s.parts 0).isSome && (s.part 0).takes && (s.part 0).nextRequest.op == op && (requestReason s 0 (s.part 0).nextRequest).isNone

theorem taken_of {s : State} {op : Nat} (h : takenB s op = true) : RequestTaken s 0 (s.part 0) op := by
  simp only [takenB, Bool.and_eq_true, beq_iff_eq, Option.isNone_iff_eq_none, Option.isSome_iff_exists] at h
  obtain ⟨⟨⟨⟨x, a⟩, b⟩, c⟩, d⟩ := h
  exact ⟨by simp [State.part, tabGetD, a], b, c, d⟩

/-- MAP of the next page to the next frame. -/
def mapVa : Nat := 2 ^ 30 + 4096
def mapEntry : Nat := pageOf 4 + 2 ^ 36
def sMap : State := sRing 1 mapVa mapEntry false

theorem witness_map : RequestTaken sMap 0 (sMap.part 0) 1 ∧ (sMap.part 0).nextRequest.count = 1 ∧ (leafOf mapEntry 0).cls ≠ 1 ∧
    (sMap.part 0).nextRequest.entry = mapEntry ∧
    ∀ f ∈ leafFrames sMap 0 (leafOf mapEntry 0), (sMap.part 0).phys (4096 * f) + 4096 ≤ entryAddr (sMap.part 0) (tableOf sMap 0 mapVa 0) mapVa 0 := by
  refine ⟨taken_of (by decide +kernel), by decide +kernel, by decide +kernel, by decide +kernel, by decide +kernel⟩

theorem witness_unmap : RequestTaken (sRing 2 (2 ^ 30) 0 false) 0 ((sRing 2 (2 ^ 30) 0 false).part 0) 2 ∧
    ((sRing 2 (2 ^ 30) 0 false).part 0).nextRequest.count = 1 ∧ (findTable (sRing 2 (2 ^ 30) 0 false) 0 (2 ^ 30) 0 4 tableBase).isSome = true ∧
    RequestTaken (sRing 2 (2 ^ 40) 0 false) 0 ((sRing 2 (2 ^ 40) 0 false).part 0) 2 ∧
    findTable (sRing 2 (2 ^ 40) 0 false) 0 (2 ^ 40) 0 4 tableBase = none :=
  ⟨taken_of (by decide +kernel), by decide +kernel, by decide +kernel, taken_of (by decide +kernel), by decide +kernel⟩

/-- PROTECT to read and execute. -/
theorem witness_protect : RequestTaken (sRing 3 (2 ^ 30) 20 false) 0 ((sRing 3 (2 ^ 30) 20 false).part 0) 3 ∧
    ((sRing 3 (2 ^ 30) 20 false).part 0).nextRequest.count = 1 ∧
    ((findTable (sRing 3 (2 ^ 30) 20 false) 0 (2 ^ 30) 0 4 tableBase).map (fun t => readEntry (sRing 3 (2 ^ 30) 20 false) 0 t (2 ^ 30) 0 % 4)) =
      some 3 ∧ RequestTaken (sRing 3 (2 ^ 40) 20 false) 0 ((sRing 3 (2 ^ 40) 20 false).part 0) 3 ∧
    findTable (sRing 3 (2 ^ 40) 20 false) 0 (2 ^ 40) 0 4 tableBase = none :=
  ⟨taken_of (by decide +kernel), by decide +kernel, by decide +kernel, taken_of (by decide +kernel), by decide +kernel⟩

theorem witness_evict : ∀ b, RequestTaken (sRing 4 (2 ^ 30) 0 b) 0 ((sRing 4 (2 ^ 30) 0 b).part 0) 4 ∧
    ((sRing 4 (2 ^ 30) 0 b).part 0).nextRequest.count = 1 ∧ mustHold (sRing 4 (2 ^ 30) 0 b) 0 ((sRing 4 (2 ^ 30) 0 b).part 0).nextRequest = b := by
  intro b
  cases b
  all_goals exact ⟨taken_of (by decide +kernel), by decide +kernel, by decide +kernel⟩

/-- An EVICT of a region's page, and of a device-private one. -/
def sEvictOf (c : Nat) : State := { (putEntry sHost 0 0 (2 ^ 30) (pageOf 0 + c * 2 ^ 5)).modPart 0 (fun p => { p with ring := ringOf 4 (2 ^ 30) 0 }) with
  accesses := [] }

theorem witness_evictClasses : ((sEvictOf 1).part 0).takes = true ∧ ((sEvictOf 1).part 0).nextRequest.op = 4 ∧
    2 ^ 30 ∈ ((sEvictOf 1).part 0).nextRequest.pages ∧
    ((presentLeaf (sEvictOf 1) 0 ((sEvictOf 1).part 0).nextRequest.level (2 ^ 30)).map Leaf.cls) = some 1 ∧
    RequestTaken (sEvictOf 2) 0 ((sEvictOf 2).part 0) 4 ∧ mustHold (sEvictOf 2) 0 ((sEvictOf 2).part 0).nextRequest = false ∧
    ((presentLeaf (sEvictOf 2) 0 0 (2 ^ 30)).map Leaf.cls) = some 2 :=
  ⟨by decide +kernel, by decide +kernel, by decide +kernel, by decide +kernel, taken_of (by decide +kernel), by decide +kernel, by decide +kernel⟩

/-- A held EVICT; a shoot-down of the head's record and of a held one; a page whose notice is to be sent again. -/
def hEvict : HeldEvict := { slot := 5, addr := 2 ^ 30, count := 1, level := 0, since := 0 }
def sHeld : State := (sPg 2).modPart 0 (fun p => { p with held := [hEvict] })
def sShoot (slot : Nat) : State := sHeld.modPart 0 (fun p => { p with shooting := [(slot, 2 ^ 30, 4096)] })
def sAgain (b : Bool) : State := { (sPg 2).modPart 0 (fun p => { p with resends := [(2 ^ 30, 1000)] }) with
  accesses := if b then [(20, { access .load with held := true, heldVa := 2 ^ 30 + 8 })] else [] }

theorem witness_ringEvents : nextHeld sHeld = some (0, hEvict) ∧ hEvict.count = 1 ∧ meetsPage sHeld 0 0 (2 ^ 30) = .same ∧
    ((presentLeaf sHeld 0 0 (2 ^ 30)).map Leaf.cls) = some 0 ∧
    (∀ k, k = 0 ∨ k = 5 → nextShoot (sShoot k) = some (0, k, 2 ^ 30, 4096) ∧ (tabGet (sShoot k).parts 0).isSome = true ∧
      (((sShoot k).part 0).held.any (fun h => h.slot == k)) = (k == 5)) ∧
    ∀ b, nextResend (sAgain b) = some (0, 2 ^ 30) ∧ heldOn (sAgain b) 0 (2 ^ 30) 4096 = (if b then some 1 else none) ∧
      (sAgain b).mayTalk 1 = true := by
  refine ⟨by decide +kernel, by decide +kernel, by decide +kernel, by decide +kernel, ?_, by decide +kernel⟩
  rintro k (rfl | rfl)
  all_goals decide +kernel

/-- One partition with one held EVICT and no shoot-down, and one with a shoot-down that an access translated through the range keeps open. -/
def onePart (x : Partition) : State := { sPg 2 with parts := [(0, x)] }
def aPinned : Access := { access .load with pins := [(2 ^ 23, 0, 0)] }

theorem witness_ringWaits : (onePart { (sPg 2).part 0 with held := [hEvict] }).parts = [(0, { (sPg 2).part 0 with held := [hEvict] })] ∧
    ({ (sPg 2).part 0 with held := [hEvict] } : Partition).shooting = [] ∧
    ({ onePart { (sPg 2).part 0 with shooting := [(0, 2 ^ 30, 4096)] } with accesses := [(20, aPinned)] } : State).partOf aPinned.thread = 0 ∧
    aPinned.held = false ∧ (sPg 2).gatedCore ((sPg 2).coreOf aPinned.thread) = false ∧ (2 ^ 23, 0, 0) ∈ aPinned.pins ∧ rangesMeet (128 * 2 ^ 23) 128 (2 ^ 30) 4096 = true := by decide +kernel

/-! Work at its queue head. -/

/-- A launch entry of object 3, kernel 0, with 2 units; a graph of one node at the page; a copy of 64 bytes; a copy of nothing; a wait. -/
def bLaunch (k : Byte) : List Byte := entryBytes 1 2 (leBytes 4 3 ++ [k, 0, 0, 0] ++ leBytes 4 1)
def bGraph : List Byte := entryBytes 2 2 (leBytes 8 (2 ^ 30) ++ [1, 0, 0])
def bCopy (n : Nat) : List Byte := entryBytes 3 2 (leBytes 8 (2 ^ 30) ++ leBytes 8 (2 ^ 30 + 256) ++ leBytes 8 n)
def bWait : List Byte := entryBytes 4 0 [3, 0, 0, 0, 9, 0, 0, 0]

/-- The entry at the head of queue 2, bound to slot 0 of slice 0 at class 2 on account 1, with its level 14 under phase 11; an object with
one kernel of one gang without arguments. -/
def oKernel : Kernel := { Kernel.absent with regs := 32, gangs := 1, entry := 2 ^ 30, stack := 1024, codeSection := 0 }
def sHead (b : List Byte) (kind : Nat) : State := { (sPg 0).modPart 0 (fun p => { p with
    queues := [(2, { owner := some 1, depth := 16, entries := [{ bytes := b, ep := 1, job := 10, phase := 11, level := 14, prev := none }] })]
    objects := [(3, { base := 2 ^ 30, size := 4096, sections := [{ kind := 1, voff := 0, size := 1200, hash := Config.encHash }], frames := [],
                      kernels := [oKernel], handler := none, label := 0 })]
    accounts := [(1, { balance := 5 })] }) with
  slices := [(0, { ready := true, ungated := true, slots := [(0, BitVec.ofNat 64 (1 + 2 * 2 + 2 ^ 9 * (2 ^ 32 - 1) + 2 ^ 41 * 2 + 2 ^ 43))] })]
  engines := [(0, 0)], units := [], gangs := [], threads := []
  levels := (sPg 0).levels ++ [(14, { kind := kind, ident := 5, parent := some 11, ep := 1, job := 10, counter := 2, closed := true, ask := true })] }

theorem witness_launchHead : (∃ e l, readyHead (sHead (bLaunch 0) 1) 0 2 1 = some e ∧ launchRecord (sHead (bLaunch 0) 1) 0 2 e = .ok l ∧
      startPoint (sHead (bLaunch 0) 1) 0 l = (.at' l.start, sHead (bLaunch 0) 1) ∧
      readArgs (sHead (bLaunch 0) 1) 0 (fieldAt e.bytes 24 8) l.kernel.args = .ok [] 0 (sHead (bLaunch 0) 1) ∧
      placeArgs (sHead (bLaunch 0) 1) 0 [] 0 = some (windowBase, sHead (bLaunch 0) 1)) ∧
    ∃ e x, readyHead (sHead (bLaunch 1) 1) 0 2 1 = some e ∧ launchRecord (sHead (bLaunch 1) 1) 0 2 e = .error stBadKernel ∧
      (sHead (bLaunch 1) 1).levelAt e.level = some x := by
  have h : (match readyHead (sHead (bLaunch 0) 1) 0 2 1 with
    | some e => (match launchRecord (sHead (bLaunch 0) 1) 0 2 e with
      | .ok l => l.kernel.vtable.isNone && l.kernel.args == 0
      | .error _ => false)
    | none => false) = true := by decide +kernel
  have g : (match readyHead (sHead (bLaunch 1) 1) 0 2 1 with
    | some e => decide (launchRecord (sHead (bLaunch 1) 1) 0 2 e = .error stBadKernel) && ((sHead (bLaunch 1) 1).levelAt e.level).isSome
    | none => false) = true := by decide +kernel
  constructor
  · split at h
    next e i =>
      split at h
      next l j =>
        simp only [Bool.and_eq_true, Option.isNone_iff_eq_none, beq_iff_eq] at h
        exact ⟨e, l, i, j, by simp [startPoint, h.1], by simp [readArgs, h.2], rfl⟩
      next => cases h
    next => cases h
  · split at g
    next e i =>
      simp only [Bool.and_eq_true, decide_eq_true_eq, Option.isSome_iff_exists] at g
      exact ⟨e, g.2.choose, i, g.1, g.2.choose_spec⟩
    next => cases g

/-- An image of one node, a launch; and one whose node's count is wrong. -/
def bNode (preds : Byte) : List Byte := [1] ++ List.replicate 63 0 ++ bLaunch 0 ++ [preds] ++ List.replicate 63 0
def sGraph (preds : Byte) : State := (sHead bGraph 2).setMem (Memory.write (sHead bGraph 2).mem (2 ^ 21) (bNode preds))
def graphPieces : List Piece := (spans 8 (2 ^ 30) 192).map (fun x => { va := x.1, n := x.2, leaf := leafOf (pageOf 0) 0, home := .phys (x.1 - 2 ^ 30 + 2 ^ 21) })

theorem witness_graphHead : ∀ k, k = 0 ∨ k = 1 → ((readyHead (sGraph k) 0 2 2).map QEntry.bytes) = some bGraph ∧
    ((readyHead (sGraph k) 0 2 2).map (graphCluster (sGraph k) 0)) = some true ∧
    reach (sGraph k) 0 0 (fieldAt bGraph 8 8) (64 + 128 * fieldAt bGraph 16 2) {} { r := true } = .ok graphPieces ∧
    (∃ g, rawPieces (sGraph k) 0 graphPieces = (some (bNode k, g), sGraph k)) ∧ ((sGraph k).levelAt 14).map Level.armed = some false ∧
    (if k = 0 then (checkImage 1 ((bNode k).take 64) ((bNode k).drop 64)).toOption.isSome = true
     else checkImage 1 ((bNode k).take 64) ((bNode k).drop 64) = .error (stGraphCycle, noIndex)) := by
  rintro k (rfl | rfl)
  all_goals exact ⟨by decide +kernel, by decide +kernel, by decide +kernel, ⟨0, by decide +kernel⟩, by decide +kernel, by decide +kernel⟩

/-- A graph entry for a cluster that the partition does not have. -/
def sBadGraph : State := sHead (entryBytes 2 2 (leBytes 8 (2 ^ 30) ++ [1, 0, 200])) 2

theorem witness_graphCluster : ((readyHead sBadGraph 0 2 2).map (graphCluster sBadGraph 0)) = some false ∧
    (sBadGraph.levelAt 14).isSome = true := by decide +kernel

theorem witness_copyHead : ∀ n, n = 0 ∨ n = 64 → ((readyHead (sHead (bCopy n) 2) 0 2 3).map QEntry.bytes) = some (bCopy n) ∧
    fieldAt (bCopy n) 24 8 = n ∧ ((bindOfQueue (sHead (bCopy n) 2) 0 2).map (fun b => (b.ceiling, b.account))) = some (2, 1) := by
  rintro n (rfl | rfl)
  all_goals decide +kernel

theorem witness_waitHead : ((sHead bWait 2).parts.map (fun p => (p.1, p.2.queues.map Prod.fst))) = [(0, [2])] ∧
    (match readyHead (sHead bWait 2) 0 2 4 with
      | some e => waitOver (sHead bWait 2) e && ((sHead bWait 2).levelAt e.level).isSome
      | none => false) = true := by decide +kernel

/-! Graph nodes. -/

/-- A graph of two launches, the second after the first, whose first has failed; one whose first may start; one of a copy. -/
def node (b : List Byte) (preds lv : Nat) (succs : List Nat) : Node := { entry := b, preds := preds, succs := succs, level := some lv }
def graph (l : Tab Node) : Graph := { level := 14, part := 0, queue := 2, ep := 1, job := 10, phase := 11, device := false, nodes := l }
def sNodes (l : Tab Node) (st : Option Nat) : State := { (sHead bGraph 2).modPart 0 (fun p => { p with queues := [] }) with
  graphs := [(8, graph l)]
  levels := (sHead bGraph 2).levels ++ [(15, { kind := 1, ident := 5, parent := some 14, ep := 1, job := 10, counter := 2, closed := true, status := st }),
    (16, { kind := 1, ident := 5, parent := some 14, ep := 1, job := 10, counter := 2, closed := true })] }
def chain : Tab Node := [(0, node (bLaunch 0) 0 15 [1]), (1, node (bLaunch 0) 1 16 [])]

theorem witness_nodeSettles : firstWith chain (fun _ x => unsettled (sNodes chain (some stUnitFault)) x) = some (0, node (bLaunch 0) 0 15 [1]) ∧
    ((sNodes chain (some stUnitFault)).levelAt 15).bind Level.status = some stUnitFault ∧ tabGet chain 1 = some (node (bLaunch 0) 1 16 []) ∧
    ((sNodes chain (some stUnitFault)).levelAt 16).map Level.status = some none := by decide +kernel

theorem witness_nodeStarts : ∀ b, b = bLaunch 0 ∨ b = bCopy 64 →
    firstWith (graph [(0, node b 0 15 [])]).nodes (fun _ x => unsettled (sNodes [(0, node b 0 15 [])] none) x) = none ∧
    firstWith (graph [(0, node b 0 15 [])]).nodes (fun _ x => mayStart (sNodes [(0, node b 0 15 [])] none) (graph [(0, node b 0 15 [])]) x &&
      (nodeBind (sNodes [(0, node b 0 15 [])] none) (graph [(0, node b 0 15 [])]) x).isSome) = some (0, node b 0 15 []) := by
  rintro b (rfl | rfl)
  all_goals decide +kernel

/-! Units. -/

/-- A launch of kernel oKernel that has begun, with its entry at the head. -/
def uLaunch : Launch := { Launch.absent with
  level := 14, part := 0, queue := 2, kernel := oKernel, start := 2 ^ 30, units := 2, argBase := windowBase, residency := 1, cls := 3 }
def sUnits : State := { (sHead (bLaunch 0) 1).modPart 0 (fun p => { p with
    queues := [(2, { owner := some 1, depth := 16,
                     entries := [{ bytes := bLaunch 0, ep := 1, job := 10, phase := 11, level := 14, prev := none, begun := some 0 }] })] }) with
  launches := [(0, uLaunch)] }

/-- The record of slot 0. -/
def bind0 : Bind := { slice := 0, queue := 2, mask := 2 ^ 32 - 1, ceiling := 2, account := 1, control := 0 }

theorem witness_dispatch : nextDispatch sUnits = some { part := 0, bind := bind0, offer := .fresh 0, cluster := 0, core := 0 } ∧
    (sUnits.launch 0).kernel.gangs ≤ 32 ∧ (findRun sUnits (8 * bind0.slice + 0) (((sUnits.launch 0).kernel.scratch + 127) / 128)).isSome = true ∧
    (findStack sUnits 0 ((sUnits.launch 0).kernel.stack * (sUnits.launch 0).kernel.gangs)).isSome = true := by decide +kernel

/-- A unit of the launch that waits to be dispatched again: a restart entry inside a region, and a saved one. -/
def oldUnit (again : Bool) : Saved := {
  ep := 1, job := 10, unitNo := 4, unit := { Unit.absent with launch := 0, core := 0, regs := 32, gangs := 1, entry := 2 ^ 30, live := false }
  restart := again, gangs := [(0, { lanes := 32, inRegion := true, rgn := true, regionEntry := 0x40000C#48, stackBase := 2 ^ 46 })]
  threads := [(0, { pc := 0x1000, regs := [(2, 40)], empty := [(3, true)], preds := 5 })], accesses := [], records := [], codebooks := [], remap := {}
  wanted := true, savedAt := 900000 }
def sBack (again : Bool) : State := { sUnits with saved := [(3, oldUnit again)] }

theorem witness_dispatchAgain : ∀ b, nextDispatch (sBack b) = some { part := 0, bind := bind0, offer := .again 3 (oldUnit b), cluster := 0, core := 0 } ∧
    (oldUnit b).restart = b ∧ ((sBack b).launch (oldUnit b).unit.launch).kernel.gangs = 1 ∧ (oldUnit b).unit.gangs = 1 ∧
    (findRun (sBack b) (8 * bind0.slice + 0) ((((sBack b).launch 0).kernel.scratch + 127) / 128)).isSome = true ∧
    (findStack (sBack b) 0 1024).isSome = true ∧ (tabGetD {} (oldUnit b).gangs 0).inRegion = true ∧ tabRising none (oldUnit b).threads = true := by
  decide +kernel

/-- A unit all of whose gangs have ended. -/
def sEnd (bad : Bool) : State := { s1 with
  units := [(0, { tUnit with faulted := bad })], gangs := [(0, { lanes := 1, ended := true })], threads := [(0, { pc := 0x1000, sched := .exited })] }

theorem witness_unitEnd : ∀ b, (sEnd b).units = [(0, { tUnit with faulted := b })] ∧ unitEnds (sEnd b) 0 { tUnit with faulted := b } = true ∧
    ((sEnd b).levelAt ((sEnd b).launch tUnit.launch).level).map Level.armed = some false := by decide +kernel

/-! Levels. -/

/-- The launch's level with no child left, asking for its message; its graph has two children. -/
def sDue (cancelled : Bool) : State := { sHost with
  levels := [(10, { kind := 4, ident := 7, parent := none, ep := 1, job := 10, counter := 1 }),
    (11, { kind := 3, ident := 0, parent := some 10, ep := 1, job := 10, counter := 1 }),
    (12, { kind := 2, ident := 0, parent := some 11, ep := 1, job := 10, counter := 2, hidden := true }),
    (13, { kind := 1, ident := 5, parent := some 12, ep := 1, job := 10, closed := true, ask := true, cancelled := cancelled,
           fail := some stUnitFault })] }

theorem witness_levelDue : ∀ b, ((sDue b).levels.find? (fun e => e.2.due)).map Prod.fst = some 13 ∧
    ((sDue b).levelAt 13).map (fun x => (x.ask, x.hidden, x.kind, x.parent, x.armed)) = some (true, false, 1, some 12, false) ∧
    (sDue b).mayTalk 1 = true ∧ ((sDue b).levelAt 12).map (fun x => (x.armed, x.counter)) = some (false, 2) := by
  intro b
  refine ⟨?_, ?_, ?_, ?_⟩ <;> cases b <;> decide +kernel

/-! Units that leave their slots, and held work. -/

/-- A unit that awaits a page; a unit that is stopped; the unit of s1. -/
def sAbort : State := { s1 with units := [(0, { tUnit with awaits := [2 ^ 30] })] }
def sStop : State := { s1 with units := [(0, { tUnit with stopped := true })] }

theorem witness_leave : sAbort.units = [(0, { tUnit with awaits := [2 ^ 30] })] ∧ savable sStop = some 0 ∧
    (unitOfThread 0 = 0 ∧ (tabGet sStop.threads 0).isSome = true) ∧ savable s1 = none ∧ imagable s1 = none ∧ (s1.unit 0).live = true ∧
    ∀ g ∈ s1.gangsOfUnit 0, (s1.gang g).inRegion = false := by decide +kernel

/-- An access held on the page, which is back; and threads whose conditions have cleared. -/
def sBackPage : State := sLand { access .load with held := true, heldVa := 2 ^ 30 + 8 }
def sBlock (w : Why) : State := { s1 with threads := [(0, { pc := 0x1000, sched := .blocked w, regs := [(2, 40)] })] }

theorem witness_held : (firstWith sBackPage.accesses (fun _ a => a.held && pageBack sBackPage a)).map Prod.fst = some 20 ∧
    (∀ w ∈ [Why.reg 2, .lane 0 2, .pred 1, .landing 9, .behind 9, .writes, .fence 4, .entry, .queue, .child], unblocks (sBlock w) 0 = true ∧
      ((sBlock w).thread 0).isHeld = false) ∧
    ∀ w ∈ [Why.held, .member none], unblocks (sBlock w) 0 = true ∧ ((sBlock w).thread 0).isHeld = true ∧ 0 ∈ (sBlock w).heldAt 0 0x1000 := by
  decide +kernel

/-- Threads that wait in one FENCE together. -/
theorem witness_together : unblocks (sBlock (.together 4 9)) 0 = true ∧ ((sBlock (.together 4 9)).thread 0).sched = .blocked (.together 4 9) ∧
    0 ∈ (sBlock (.together 4 9)).threadsOfGang (gangOf 0) := by decide +kernel


/-! Landings in the scratchpad. -/

/-- An access to word 2 of the run's first line, which is full, with the .TAKE or .FILL bit or without. -/
def spAccess (k : AKind) (b : Bool) : Access :=
  { kind := k, thread := 0, group := 7, pc := 0x1000, op := 0x294, f := { blank with d := .v 1, mod := if b then 0x71000 else 0x70000 }, addr := 8, width := 4,
    c := 5 }
def sScr (k : AKind) (b : Bool) : State := { s1 with
  accesses := [(20, spAccess k b)], units := [(0, { tUnit with run := [(8, 9), (9, 1)] })] }

theorem witness_scratchLandings : ∀ k ∈ [AKind.lds, .sts, .sfill, .sempty, .atoms, .reds], ∀ b,
    ScratchAt (sScr k b) 20 (spAccess k b) ((sScr k b).unit 0) ∧ ((sScr k b).unit 0).lineFull 0 = true ∧ (spAccess k b).f.bit 12 = b ∧
    (k = .lds → takers (sScr k b) (spAccess k b) = [(20, spAccess k b)]) := by
  have h : ∀ k ∈ [AKind.lds, .sts, .sfill, .sempty, .atoms, .reds], ∀ b, tabGet (sScr k b).accesses 20 = some (spAccess k b) ∧
      enabled (sScr k b) 20 (spAccess k b) = true ∧ ((sScr k b).thread (spAccess k b).thread).sched ≠ .exited ∧ (spAccess k b).kind.isMem = false ∧
      ((sScr k b).unit 0).lineFull 0 = true ∧ (spAccess k b).f.bit 12 = b ∧
      (k = .lds → takers (sScr k b) (spAccess k b) = [(20, spAccess k b)]) := by decide +kernel
  intro k hk b
  obtain ⟨a, c, d, e, f⟩ := h k hk b
  exact ⟨⟨a, c, by simp [spAccess, unitOfThread], d, e⟩, f⟩

/-! Tiles. -/

/-- A region of 70 tiles of 256 bytes from 2^30, of which tiles 0 and 5 exist. -/
def regionBytes : List Byte :=
  leBytes 64 (2 ^ 30 + 70 * 2 ^ 64 + 8 * 2 ^ 160 + 8 * 2 ^ 192 + 0x210000 * 2 ^ 320 + 0x209000 * 2 ^ 384 + 0x20A000 * 2 ^ 448)
def sTile (a : Access) : State := { (putEntry s1 0 0 (2 ^ 30) (3 + 12 + 2 ^ 5 + 2 ^ 20 + 0x208000 / 2 ^ 12 * 2 ^ 36)) with
  accesses := [(20, a)]
  mem := Memory.write (Memory.write (putEntry s1 0 0 (2 ^ 30) (3 + 12 + 2 ^ 5 + 2 ^ 20 + 0x208000 / 2 ^ 12 * 2 ^ 36)).mem 0x208000 regionBytes) 0x209000
    [33] }

/-- ERASE and EXQ of tile 5, and STX to tile 3. -/
def tileAccess (k : AKind) : Access := { access k with
  addr := if k = .stx then 2 ^ 30 + 768 else 2 ^ 30 + 1280, width := if k = .stx then 4 else 1
  f := { fMem 4 with d := if k = .stx then .k 65 else .v 1 } }
def tilePiece (k : AKind) : Option Piece :=
  match reach (sTile (tileAccess k)) 0 0 (tileAccess k).addr (tileAccess k).width ((tileAccess k).via noPick)
      { r := k == .exq, w := k != .exq } with
  | .ok [p] => some p
  | _ => none

/-- The tile of a piece exists. -/
def pieceTile (s : State) (p : Piece) : Option Bool :=
  match p.home with
  | .tile r i => some (r.exists s i && (r.map + i / 8 < r.desc + 28 || r.desc + 40 ≤ r.map + i / 8))
  | _ => none

theorem witness_tiles : ∀ k ∈ [AKind.erase, .exq, .stx], tabGet (sTile (tileAccess k)).accesses 20 = some (tileAccess k) ∧
    enabled (sTile (tileAccess k)) 20 (tileAccess k) = true ∧ pastMemory (sTile (tileAccess k)) (tileAccess k) = false ∧ (tileAccess k).oob = false ∧
    (tileAccess k).kind = k ∧
    (sTile (tileAccess k)).mates 20 (tileAccess k) ((tileAccess k).sector noPick) = [20] ∧ (sTile (tileAccess k)).sfqFull 0 = false ∧
    ((tilePiece k).bind (pieceTile (sTile (tileAccess k)))) = some (k != .stx) ∧
    ((tilePiece k).map (fun p => (Label.subset (tileAccess k).label p.leaf.label, formatFits (tileAccess k).f.ty p.leaf.format,
      bookAwaited (sTile (tileAccess k)) 20 (tileAccess k) p.leaf.slot))) = some (true, true, false) ∧
    ((sTile (tileAccess k)).thread 0).sched ≠ .exited := by
  intro k hk
  simp only [List.mem_cons, List.not_mem_nil, or_false] at hk
  obtain rfl | rfl | rfl := hk
  all_goals refine ⟨?_, ?_, ?_, ?_, ?_, ?_, ?_, ?_, ?_, ?_⟩ <;> decide +kernel

/-! Variants, children, cancel, EGRESS. -/

/-- A table of two entries at the page, the second the better one in time. -/
def tableBytes2 : List Byte := leBytes 32 2 ++ leBytes 32 (0x2000 + 500 * 2 ^ 64) ++ leBytes 32 (0x3000 + 90 * 2 ^ 64 + 4 * 2 ^ 192)
def tabAccess : Access := { access .table with f := blank, addr := 2 ^ 30, width := 32, aux := 999000 }
def sTab : State := { sLand tabAccess with mem := Memory.write (sLand tabAccess).mem (2 ^ 21) tableBytes2 }

theorem witness_variant : tabGet sTab.accesses 20 = some tabAccess ∧ tabAccess.kind = .table ∧ enabled sTab 20 tabAccess = true ∧
    (∃ es l g s' x, readTable sTab (sTab.coreOf tabAccess.thread) (sTab.partOf tabAccess.thread) tabAccess.addr (tabAccess.via noPick) = (.ok es l g, s') ∧
      selectEntry (choiceOf sTab tabAccess) es = some x) ∧ sTab.mustDeliver tabAccess.thread = false := by
  have h : (match (readTable sTab (sTab.coreOf tabAccess.thread) (sTab.partOf tabAccess.thread) tabAccess.addr (tabAccess.via noPick)).1 with
    | .ok es _ _ => (selectEntry (choiceOf sTab tabAccess) es).isSome
    | _ => false) = true := by decide +kernel
  refine ⟨by decide +kernel, by decide +kernel, by decide +kernel, ?_, by decide +kernel⟩
  match e : readTable sTab (sTab.coreOf tabAccess.thread) (sTab.partOf tabAccess.thread) tabAccess.addr (tabAccess.via noPick) with
  | (.ok es l g, s') => rw [e] at h; exact ⟨es, l, g, s', _, rfl, (Option.isSome_iff_exists.mp h).choose_spec⟩
  | (.held _ _ _, s') => rw [e] at h; cases h
  | (.bad _, s') => rw [e] at h; cases h

/-- A LAUNCH of the entry at the page on queue 2, and a GARM of the image at the page, on a control core. -/
def childAccess (k : AKind) : Access := { access k with op := 0x349, f := { blank with d := .v 1 }, addr := 2 ^ 30, width := 64, aux := 2 }
def sChild (k : AKind) : State := { sLand (childAccess k) with
  units := [(0, { tUnit with core := 4 })]
  mem := Memory.write (sLand (childAccess k)).mem (2 ^ 21) (if k = .launch then bLaunch 0 else bNode 0) }
def childPieces (a n : Nat) : List Piece :=
  (spans 8 a n).map (fun x => { va := x.1, n := x.2, leaf := leafOf dataLeaf 0, home := .phys (2 ^ 21 + (x.1 - 2 ^ 30)) })

theorem witness_childLands : ∀ k, k = .launch ∨ k = .graph →
    LandsAlong (sChild k) 20 (childAccess k) { r := true } noPick (childPieces (2 ^ 30) 64) (2 ^ 21) ∧ (childAccess k).width = 64 ∧
    freeChild (sChild k) ((sChild k).coreOf 0) = some 0 ∧ enclosing (sChild k) ((sChild k).launchLevel 0) 2 = some 12 ∧
    ((sChild k).levelAt 12).map (fun x => (x.armed, x.cancelled)) = some (false, false) ∧ 12 < (sChild k).nextId := by
  rintro k (rfl | rfl)
  all_goals
    refine ⟨⟨by decide +kernel, by decide +kernel, by decide +kernel, by decide +kernel, by decide +kernel, fun _ => by decide +kernel,
      by decide +kernel, ?_⟩, by decide +kernel, by decide +kernel, by decide +kernel, by decide +kernel, by decide +kernel⟩
    intro p hp
    simp only [childPieces, List.mem_map] at hp
    obtain ⟨x, _, rfl⟩ := hp
    rfl

theorem witness_childEntries : entryOk ((sChild .launch).mem.read (2 ^ 21) 64) = true ∧ entryKind ((sChild .launch).mem.read (2 ^ 21) 64) = 1 ∧
    entryWaits ((sChild .launch).mem.read (2 ^ 21) 64) = false ∧ imageBytes ((sChild .graph).mem.read (2 ^ 21) 64) = 128 ∧
    reach (sChild .graph) 4 0 (2 ^ 30 + 64) 128 ((childAccess .graph).via noPick) { r := true } = .ok (childPieces (2 ^ 30 + 64) 128) ∧ (sChild .graph).coreOf 0 = 4 ∧
    ((checkImage 1 ((sChild .graph).mem.read (2 ^ 21) 64) ((sChild .graph).mem.read (2 ^ 21 + 64) 128)).toOption.map List.length) = some 1 := by
  decide +kernel

theorem witness_childImage : Along (childPieces (2 ^ 30 + 64) 128) (2 ^ 30 + 64) (2 ^ 21 + 64) := by
  unfold Along
  decide +kernel

/-- CANCEL of a level that runs, of one that is cancelled, and of a handle that names nothing. -/
theorem witness_cancel : Alone sCtl 0x34C (fLev 0 (.v 6)) [] [] 0 ∧ sCtl.coreOf 0 % 5 = 4 ∧ (namedLevel sCtl (fLev 0 (.v 6)) 0).map Prod.fst = some 13 ∧
    cancelTakes sCtl 13 = true ∧ cancelTakes (sCtl.modLevel 13 (fun x => { x with cancelled := true })) 13 = false ∧
    Alone sCtl 0x34C (fLev 0 (.v 3)) [] [] 0 ∧ namedLevel sCtl (fLev 0 (.v 3)) 0 = none :=
  ⟨alone_of (by decide) (by decide), by decide, by decide, by decide, by decide, alone_of (by decide) (by decide), by decide⟩

/-- An EGRESS of 16 bytes of a page without a label to peer entry 1, which holds an address for slot 0 or for no slot. -/
def egAccess : Access := { access .egress with label := 0, f := fEg, addr := 2 ^ 30 + 8, width := 16, aux := 1 }
def sEgress (peer : Bool) : State := { putEntry s1 0 0 (2 ^ 30) (pageOf 0) with
  accesses := [(20, egAccess)], parts := (putEntry s1 0 0 (2 ^ 30) (pageOf 0)).parts.map (fun p => (p.1, { p.2 with
    peers := [(1, { addr := 77, mask := if peer then 1 else 0 })] })) }
def egPieces : List Piece := [{ va := 2 ^ 30 + 8, n := 16, leaf := leafOf (pageOf 0) 0, home := .phys (2 ^ 21 + 8) }]

theorem witness_egressLands : ∀ b, LandsAlong (sEgress b) 20 egAccess { r := true } noPick egPieces (2 ^ 21 + 8) ∧ egAccess.kind = .egress ∧
    ((sEgress b).thread egAccess.thread).sched ≠ .exited ∧ ((sEgress b).launchOf egAccess.thread).race = false ∧
    tabGet ((sEgress b).part ((sEgress b).partOf egAccess.thread)).peers egAccess.aux = some { addr := 77, mask := if b then 1 else 0 } ∧
    egAccess.label = 0 ∧ pagesLabel egPieces = 0 := by
  intro b
  cases b
  all_goals
    refine ⟨⟨by decide +kernel, by decide +kernel, by decide +kernel, by decide +kernel, by decide +kernel, fun _ => by decide +kernel,
      by decide +kernel, ?_⟩, by decide +kernel, by decide +kernel, by decide +kernel, by decide +kernel, by decide +kernel, by decide +kernel⟩
    intro p hp
    simp only [egPieces, List.mem_singleton] at hp
    subst hp
    rfl


/-! Guards, empty sources, traps without a handler. -/

/-- Guard p1, which is false. -/
theorem witness_falseGuard : s1.group = [0] ∧ (s1.thread 0).sched = .ready ∧ (s1.thread 0).pending ({ fv with gp := 1 } : Fields).gp.toNat = false ∧
    guardTrue s1 0 { fv with gp := 1 } = false := by decide

/-- v2 is empty; a has the empty action or not. -/
def sEmp : State := { s1 with threads := [(0, { pc := 0x1000, regs := [(3, 2)], empty := [(2, true)] })] }

theorem witness_emptySources : (∀ e, Guarded sEmp { fv with ea := e } 0) ∧
    (((sourcesOf 0x040 { fv with ea := true }).find? (fun q => q.2.2.1 && (sourceEmpty sEmp 0 q.1 q.2.1).isSome)).map (fun q => q.2.2.2)) = some 1 ∧
    (sEmp.launchOf 0).handler = some 0x9000#48 ∧ (sEmp.thread 0).inTrap = false ∧
    ((sourcesOf 0x040 { fv with ea := false }).find? (fun q => q.2.2.1 && (sourceEmpty sEmp 0 q.1 q.2.1).isSome)).isNone = true ∧
    (sourcesOf 0x040 { fv with ea := false }).findSome? (fun q => sourceEmpty sEmp 0 q.1 q.2.1) = some 2 :=
  ⟨fun e => by cases e <;> exact ⟨by decide, by decide, by decide, by decide⟩, by decide, by decide, by decide, by decide, by decide⟩

theorem witness_trapInHandler : (sTrap.thread 0).inTrap = true ∧ Alone sTrap 0x00A blank [] [] 0 ∧ Alone sTrap 0x00B blank [] [] 0 :=
  ⟨by decide, alone_of (by decide) (by decide), alone_of (by decide) (by decide)⟩

/-! Scheduling. -/

/-- A thread at the skid limit, by a write and by a record. -/
def sSkid (write : Bool) : State := { s1 with
  threads := [(0, { pc := 0x1000, issued := 40 })]
  accesses := if write then [(20, access .store)] else [], cores := if write then [] else [(0, { sfq := [rec0] })] }

theorem witness_agingAndSkid : nextAged s1 = some 0 ∧ (∀ b, nextSkid (sSkid b) = some 0 ∧ skidWrite (sSkid b) 0 = b) ∧
    ((sSkid false).launchOf 0).handler = some 0x9000#48 := by decide +kernel

/-- A Glason launch of nine gangs of which the last waits; the first k are active, and gang 0 is starved or not. -/
def sGlason (k : Nat) (starved : Bool) : State := { s1 with
  launches := [(0, { tLaunch with level := 13, glason := true })], units := [(0, { tUnit with gangs := 9 })]
  gangs := (List.range 9).map (fun i => (i, { lanes := 1, active := decide (i < k) }))
  threads := (List.range 9).map (fun i => (32 * i, { pc := 0x1000, sched := if starved && i == 0 then .blocked (.reg 2) else .ready, empty := [(2, true)] })) }

theorem witness_glason : nextEntrant (sGlason 7 false) = some 7 ∧ nextEntrant (sGlason 8 true) = none ∧ nextSwap (sGlason 8 true) = some (0, 8) ∧
    nextPendingAged (sGlason 8 false) = some (0, 8) := by decide +kernel

/-- A change of fusion that is over, and one that is wanted. -/
def sFused : State := { s1 with clusters := [(3, { fusing := some 5 })], cores := [(16, { l1 := [(0, { bytes := [], expiry := 9 })] })] }
def sWants : State := { sUnits with launches := [(0, { uLaunch with fused := true })] }

theorem witness_fusion : (List.range 96).find? (changeOver sFused) = some 3 ∧ (List.range 96).find? (changeOver sWants) = none ∧
    (List.range 96).find? (wantsChange sWants) = some 0 := by decide +kernel

/-- The moment of a refill, and an account that may draw. -/
def sPoor : State := { sUnits.modPart 0 (fun p => { p with accounts := [(1, { refill := 80, balance := -3, debt := 7, lend := true })], pool := 100 }) with
  time := 1200000 }

theorem witness_accounts : (sPoor.parts.map Prod.fst) = [0] ∧ (sPoor.refills + 1) * 1200000 ≤ sPoor.time ∧
    nextDraw (noteRequests sPoor) = some (0, 1) ∧ nextDraw (noteRequests sUnits) = none ∧
    ((noteRequests sPoor).part 0).accounts.map (fun a => a.2.asked) = [some 1200000] := by decide +kernel

/-! Firmware registers and power. -/

theorem witness_firmware : (0 < 12 ∧ 5 < 64) ∧ (tabGet s1.parts 0).isSome = true ∧ speedwellRuns s1 = true ∧ speedwellRuns State.reset = false := by
  decide

theorem witness_voteValues : (0 = 0 ∨ 650 ≤ 0 ∧ 0 ≤ 1000) ∧ ((650#32 : Word).toNat % 2 ^ 11 = 650) ∧ ((1000#32 : Word).toNat % 2 ^ 11 = 1000) ∧
    ¬ ((649#32 : Word).toNat % 2 ^ 11 = 0 ∨ 650 ≤ (649#32 : Word).toNat % 2 ^ 11 ∧ (649#32 : Word).toNat % 2 ^ 11 ≤ 1000) ∧
    ¬ ((1001#32 : Word).toNat % 2 ^ 11 = 0 ∨ 650 ≤ (1001#32 : Word).toNat % 2 ^ 11 ∧ (1001#32 : Word).toNat % 2 ^ 11 ≤ 1000) := by decide

/-- A domain whose fade is over, in the two ways; one that has issued; and one in a fade. -/
def sGate (x : Slice) : State := { s1 with slices := [(0, x)] }

theorem witness_domains : (∀ x ∈ ([{ ungated := true }, { ungated := true, loadRecord := 7, spent := true }] : List Slice),
      ((sGate x).slice 0).ungated = true ∧ ((sGate x).slice 0).fade = none ∧ ((sGate x).slice 0).fall = false ∧ ((sGate x).slice 0).passes = 0 ∧
        (((sGate x).slice 0).loadRecord = 0 ∨ ((sGate x).slice 0).spent = true)) ∧
    (∀ x ∈ ([{ fade := some (7, 0) }, { fall := true }, { passes := 1 }, { loadRecord := 7 }] : List Slice),
      ((sGate x).slice 0).fade ≠ none ∨ ((sGate x).slice 0).fall = true ∨ ((sGate x).slice 0).passes ≠ 0 ∨
        (((sGate x).slice 0).loadRecord ≠ 0 ∧ ((sGate x).slice 0).spent = false)) ∧
    ({ s1 with slices := [(0, { ready := true })] }.slice 0).ready = true ∧ ({ s1 with slices := [(0, { ready := true })] }.slice 0).ungated = false := by
  decide

/-- A rail whose hold is over, and one that has reached a chiplet's vote. -/
def sRail : State := { s1 with rails := [(0, { mv := 900, target := 700, holdEnd := some 400000 })] }
def sVoted : State := { s1 with slices := [(1, { vote := 700 })], rails := [(0, { mv := 730, target := 725 })] }

theorem witness_rails : (firstWith sRail.rails (fun _ r => r.holdEnd.any (· ≤ sRail.time))).map Prod.fst = some 0 ∧ nextReady sVoted = some 1 := by
  decide +kernel

/-- Currents that have lain above or below the allocation for long enough, and for too short a time or not at all. -/
theorem witness_passCounts : ((sGate { overSince := some 0 }).slice (0 / 8)).overSince = some 0 ∧
    max 0 ((sGate { overSince := some 0 }).cluster 0).stepped + 12000 ≤ (sGate { overSince := some 0 }).time ∧
    ((sGate { overSince := some 999999 }).slice (0 / 8)).overSince = some 999999 ∧
    (sGate { overSince := some 999999 }).time < max 999999 ((sGate { overSince := some 999999 }).cluster 0).stepped + 12000 ∧
    ((sGate { underSince := some 5 }).slice (0 / 8)).underSince = some 5 ∧
    max 5 ((sGate { underSince := some 5 }).cluster 0).stepped + 1200000 ≤ ({ sGate { underSince := some 5 } with time := 1200005 } : State).time ∧
    (sGate { underSince := some 5 }).time < max 5 ((sGate { underSince := some 5 }).cluster 0).stepped + 1200000 ∧
    ((sGate {}).slice (0 / 8)).overSince = none ∧ ((sGate {}).slice (0 / 8)).underSince = none := by decide +kernel

/-- A clk of a fade. -/
theorem witness_fadeClk : ({ fade := some (7, 100), clkPasses := 1 } : Slice).fade = some (7, 100) ∧ 100 ≤ 105 ∧ 105 + 5 ≤ 100 + 24000 := by decide

/-- A chiplet whose interval is over; one with a fall; one whose fade is over. -/
def sLoad (fade : Option (Nat × Nat)) : State := { s1 with slices := [(2, { passes := 3, window := [5, 6], loadRecord := 11, fall := fade.isNone, fade := fade })] }

theorem witness_loadRecords : ((tabGet (sLoad none).slices 2).map (fun x => decide ((x.loadTicks + 1) * 1200 ≤ (sLoad none).time))) = some true ∧
    (firstWith (sLoad none).slices (fun _ x => x.fall)).map Prod.fst = some 2 ∧
    (firstWith (sLoad (some (9, 0))).slices (fun _ x => x.fadeOver (sLoad (some (9, 0))).time)).map Prod.fst = some 2 := by decide +kernel

/-! Outside. -/

/-- A counter at its threshold. -/
def sThreshold : State := { sHost.modPart 0 (fun p => { p with thresholds := [(3, 5)] }) with
  launches := [(0, { tLaunch with level := 13, counters := [(3, 5)], crossed := [(3, 5)], ident := 5 })] }

/-- A count that reaches its threshold, and one below it. -/
theorem witness_crossing : tabGet ({ tLaunch with counters := [(3, 4)] } : Launch).crossed 3 = none ∧ 3 ∉ tLaunch.noticed ∧
    (tabGetD 0 [(3, (5 : Word))] 3).toNat ≠ 0 ∧ (tabGetD 0 [(3, (5 : Word))] 3).toNat ≤ min (2 ^ 48 - 1) (4 + 1) ∧
    min (2 ^ 48 - 1) (3 + 1) < (tabGetD 0 [(3, (5 : Word))] 3).toNat := by decide

theorem witness_threshold : nextThreshold sThreshold = some (0, 3, 5) ∧ sThreshold.mayTalk (sThreshold.launchEp 0) = true := by decide +kernel

/-- The page exposed to the load-store domain, with label l; a load, a store and an atomic of four bytes at offset 8. -/
def sExposed (l : Nat) : State := (sPg l).modPart 0 (fun p => { p with exposed := some (2 ^ 30) })
def remoteOf (op : RemoteOp) : RemoteAccess := { part := 0, sender := 9, offset := 8, op := op }

theorem exposed_of {l : Nat} {op : RemoteOp} {need : Need} (h : reach (sExposed l) 0 0 (2 ^ 30 + 8) 4 {} need = .ok [hostPiece l])
    (g : ∃ x, tabGet (sExposed l).parts 0 = some x ∧ x.exposed = some (2 ^ 30)) (c : (hostPiece l).leaf.cls ≠ 2)
    (o : outside (sExposed l) 0 [hostPiece l] = false) : Exposed (sExposed l) (remoteOf op) 4 need (2 ^ 30) [hostPiece l] (2 ^ 21 + 8) := by
  refine ⟨g, by simp [remoteOf], h, ?_, ?_, o⟩
  · intro p hp
    simp only [List.mem_singleton] at hp
    subst hp
    simp [hostPiece, remoteOf]
  · intro p hp
    simp only [List.mem_singleton] at hp
    subst hp
    exact c

theorem witness_remote : (tabGet (sPg 0).parts 0).bind Partition.exposed = none ∧
    (∀ op, Exposed (sExposed 0) (remoteOf op) 4 { r := true } (2 ^ 30) [hostPiece 0] (2 ^ 21 + 8)) ∧ pagesLabel [hostPiece 0] = 0 ∧
    (∀ op, Exposed (sExposed 0) (remoteOf op) 4 { w := true } (2 ^ 30) [hostPiece 0] (2 ^ 21 + 8)) ∧
    (∀ op, Exposed (sExposed 0) (remoteOf op) 4 { r := true, w := true } (2 ^ 30) [hostPiece 0] (2 ^ 21 + 8)) ∧
    Label.subset (ingressLabel (sExposed 0) 0 9) (hostPiece 0).leaf.label = true ∧ (hostPiece 0).leaf.format = 0 ∧ atomicWidth .b32 = 4 := by
  have g : ∃ x, tabGet (sExposed 0).parts 0 = some x ∧ x.exposed = some (2 ^ 30) := by
    have h : ((tabGet (sExposed 0).parts 0).bind Partition.exposed) = some (2 ^ 30) := by decide +kernel
    exact Option.bind_eq_some_iff.mp h
  exact ⟨by decide +kernel, fun _ => exposed_of (by decide +kernel) g (by decide +kernel) (by decide +kernel), by decide +kernel,
    fun _ => exposed_of (by decide +kernel) g (by decide +kernel) (by decide +kernel),
    fun _ => exposed_of (by decide +kernel) g (by decide +kernel) (by decide +kernel), by decide +kernel, by decide +kernel, by decide⟩

/-- A sender whose label the page does not hold. -/
def sPeer : State := (sExposed 1).modPart 0 (fun p => { p with peers := [(3, { addr := 9, mask := 2 })] })

theorem witness_remoteRefused : Label.subset (ingressLabel sPeer 0 9) (hostPiece 1).leaf.label = false ∧
    reach sPeer 0 0 (2 ^ 30 + 8) 4 {} { w := true } = .ok [hostPiece 1] := by decide +kernel

/-! The step. -/

/-- A message that has waited; a moment that has come; a level that is due. -/
def sWaiting : State := { sHost with waiting := [sample .jobOpen 6] }
def sTimed : State := { sHost with time := 1200000 }
/-- No moment has come: the chiplet's intervals have been counted up to now, and the thread has just become ready. -/
def calm (s : State) : State := { s with
  slices := s.slices.map (fun e => (e.1, { e.2 with loadTicks := 833 })), threads := s.threads.map (fun e => (e.1, { e.2 with readySince := s.time })) }

theorem witness_stepOrder : State.reset.boot.state = 0 ∧ State.reset.boot.boots = 0 ∧ unbooted sWaiting = false ∧
    bootDue sWaiting = false ∧ ((heldMessage sWaiting).map Prod.fst) = some (sample .jobOpen 6) ∧
    (decodeMessage (sample .jobOpen 6)).isSome = true ∧ heldMessage sTimed = none ∧ timedDue sTimed = some .budgetRefill ∧
    unbooted sTimed = false ∧ bootDue sTimed = false := by decide +kernel

theorem witness_stepDue : unbooted (calm (sDue false)) = false ∧ bootDue (calm (sDue false)) = false ∧ heldMessage (calm (sDue false)) = none ∧ timedDue (calm (sDue false)) = none ∧ (calm (sDue false)).agenda = [] ∧
    dueNow (calm (sDue false)) = some .levelCompletion := by decide +kernel

/-- The boot's next step is due: in states 0, 1 and 3. -/
def sPowered (n boots : Nat) : State := { State.reset with time := 60, boot := { state := n, boots := boots, since := 0 } }

theorem witness_bootSteps : ([0, 1, 3].all (fun n => !unbooted (sPowered n 1) && bootDue (sPowered n 1) &&
    (sPowered n 1).boot.boots != 0 && decide ((sPowered n 1).boot.since < (sPowered n 1).time))) = true := by decide +kernel

/-- One turn on the agenda, with no moment before it. -/
def sTurn (m : Move) : State := { calm sHost with agenda := [{ delay := 7, move := m }] }

theorem agenda_of {m : Move} (a : heldMessage (sTurn m) = none) (b : timedDue (sTurn m) = none)
    (c : (nextMoment (sTurn m)).all (fun k => (sTurn m).time + 7 ≤ k) = true) : AgendaMoves (sTurn m) 7 m [] := by
  refine ⟨⟨rfl, rfl⟩, a, b, rfl, fun k hk => ?_⟩
  rw [hk] at c
  simpa using c

theorem witness_agenda : AgendaMoves (sTurn (.message (sample .jobOpen 6))) 7 (.message (sample .jobOpen 6)) [] ∧
    AgendaMoves (sTurn (.event .policyPeriod)) 7 (.event .policyPeriod) [] ∧ AgendaMoves (sTurn (.issue 0)) 7 (.issue 0) [] :=
  ⟨agenda_of (by decide +kernel) (by decide +kernel) (by decide +kernel), agenda_of (by decide +kernel) (by decide +kernel) (by decide +kernel),
    agenda_of (by decide +kernel) (by decide +kernel) (by decide +kernel)⟩

/-- A turn whose delay passes a moment. -/
def sLong : State := { calm sHost with agenda := [{ delay := 10 ^ 9, move := .issue 0 }] }

theorem witness_moment : unbooted sLong = false ∧ bootDue sLong = false ∧ heldMessage sLong = none ∧ timedDue sLong = none ∧
    (nextMoment sLong).any (fun k => decide (k < sLong.time + 10 ^ 9)) = true := by decide +kernel

/-- The thread stands at an IADD on a page that may be executed, and core 0 is the next to move: by the agenda, or as nothing else is due. -/
def wIadd : Nat := 0x10040501B0C000180000801C
def sIdle : State := { putEntry (calm s1) 0 0 (2 ^ 30) (dataLeaf + 16) with
  threads := [(0, { pc := 0x40000000#48, regs := [(6, 40)], preds := 2, readySince := 1000000 })]
  mem := Memory.write (putEntry (calm s1) 0 0 (2 ^ 30) (dataLeaf + 16)).mem (2 ^ 21) (leBytes 12 wIadd) }
def sFetch : State := { sIdle with agenda := [{ delay := 7, move := .issue 0 }] }
def latched (s : State) : State := latch (refresh s 0) 0 [0]

theorem fetches_of {s : State} (a : chooseGroup (refresh s 0) 0 = [0]) (b : ∀ t ∈ [0], ((latched s).unit (unitOfThread t)).cancelled = false)
    (c : ∀ t ∈ [0], mustEnter (latched s) t = false)
    (h : (match reach (latched s) 0 ((latched s).partOf 0) (latched s).pc.toNat 12 {} { x := true } with
      | .ok ps => !(outside (latched s) ((latched s).partOf 0) ps) &&
          (rawPieces (latched s) ((latched s).partOf 0) ps).1.map Prod.fst == some (leBytes 12 wIadd)
      | _ => false) = true) : Fetches s (refresh s 0) (latched s) 0 [0] (leBytes 12 wIadd) := by
  refine ⟨rfl, a, by decide, rfl, b, c, ?_⟩
  split at h
  next ps e =>
    simp only [Bool.and_eq_true, Bool.not_eq_true', beq_iff_eq] at h
    exact ⟨ps, e, h.1, h.2⟩
  next => cases h

theorem witness_fetch : heldMessage sFetch = none ∧ timedDue sFetch = none ∧ sFetch.agenda = { delay := 7, move := .issue 0 } :: [] ∧
    ((nextMoment sFetch).all (fun k => sFetch.time + 7 ≤ k) = true) ∧ unbooted sFetch = false ∧ bootDue sFetch = false ∧
    Fetches (afterDelay sFetch 7 []) (refresh (afterDelay sFetch 7 []) 0) (latched (afterDelay sFetch 7 [])) 0 [0] (leBytes 12 wIadd) ∧
    decodeBytes ((latched (afterDelay sFetch 7 [])).launchOf 0).kernel.regs (leBytes 12 wIadd) =
      .ok (.iadd { blank with gp := 1, d := .v 5, a := .v 6, b := .imm 12, mod := 0x30000, stall := 1 }) :=
  ⟨by decide +kernel, by decide +kernel, by decide +kernel, by decide +kernel, by decide +kernel, by decide +kernel,
    fetches_of (by decide +kernel) (by decide +kernel) (by decide +kernel) (by decide +kernel), by decide +kernel⟩

theorem witness_idleFetch : unbooted sIdle = false ∧ bootDue sIdle = false ∧ heldMessage sIdle = none ∧ timedDue sIdle = none ∧ sIdle.agenda = [] ∧ dueNow sIdle = none ∧
    nextCore sIdle = some 0 ∧ Fetches sIdle (refresh sIdle 0) (latched sIdle) 0 [0] (leBytes 12 wIadd) ∧
    decodeBytes ((latched sIdle).launchOf 0).kernel.regs (leBytes 12 wIadd) =
      .ok (.iadd { blank with gp := 1, d := .v 5, a := .v 6, b := .imm 12, mod := 0x30000, stall := 1 }) :=
  ⟨by decide +kernel, by decide +kernel, by decide +kernel, by decide +kernel, by decide +kernel, by decide +kernel, by decide +kernel,
    fetches_of (by decide +kernel) (by decide +kernel) (by decide +kernel) (by decide +kernel), by decide +kernel⟩

/-- A device without work. -/
def sStill : State := { State.reset with boot := { state := 5 } }

theorem witness_idle : unbooted sStill = false ∧ bootDue sStill = false ∧ heldMessage sStill = none ∧ timedDue sStill = none ∧ sStill.agenda = [] ∧ dueNow sStill = none ∧
    nextCore sStill = none := by decide +kernel

/-- A word with a good check field, and one that decodes. -/
theorem witness_decoding : decodeWord 255 (BitVec.ofNat 96 wIadd) =
    .ok (.iadd { blank with gp := 1, d := .v 5, a := .v 6, b := .imm 12, mod := 0x30000, stall := 1 }) := by decide +kernel

/-- A step from a state with canonical memory. -/
theorem witness_canonical : sHost.mem.wf = true ∧ (match step (sTurn (.event .policyPeriod)) with
    | .next _ => true
    | _ => false) = true := by decide +kernel


/-! Decoding: for every opcode of the Opcode Map a word put together from the Instruction Word table (opcode, guard @!p3, the operand fields,
the modifier, stall 6, yield, the check bits of R78). -/

/-- Guard @!p3, stall 6, yield. -/
def fd : Fields := { blank with neg := true, gp := 3, stall := 6, yld := true }

theorem test_decode_control : ∀ x ∈ ([
  (0x006C000000000000000B4009, .bra { fd with d := .v 0, a := .v 0, b := .v 0, c := .v 0, mod := 0x00001 }),
  (0x00AC00038000000000034006, .brx { fd with d := .v 0, a := .v 14, b := .v 0, c := .v 0, mod := 0x00000 }),
  (0x00EC0A0000000000000B4004, .call { fd with d := .v 10, a := .v 0, b := .v 0, c := .v 0, mod := 0x00001 }),
  (0x012C0A038000000000034003, .callx { fd with d := .v 10, a := .v 14, b := .v 0, c := .v 0, mod := 0x00000 }),
  (0x016C00038000000000034008, .ret { fd with d := .v 0, a := .v 14, b := .v 0, c := .v 0, mod := 0x00000 }),
  (0x01AC00000000000000034017, .exitI { fd with d := .v 0, a := .v 0, b := .v 0, c := .v 0, mod := 0x00000 }),
  (0x01EC00000000000000034015, .yieldI { fd with d := .v 0, a := .v 0, b := .v 0, c := .v 0, mod := 0x00000 }),
  (0x022C0000000000000003400B, .nop { fd with d := .v 0, a := .v 0, b := .v 0, c := .v 0, mod := 0x00000 }),
  (0x026C00038000000000034010, .setpri { fd with d := .v 0, a := .v 14, b := .v 0, c := .v 0, mod := 0x00000 }),
  (0x02AC000000000000000B401F, .bpt { fd with d := .v 0, a := .v 0, b := .v 0, c := .v 0, mod := 0x00001 }),
  (0x02EC000000000000000B401D, .trapI { fd with d := .v 0, a := .v 0, b := .v 0, c := .v 0, mod := 0x00001 })] : List (Nat × Instr)), decodeWord 255 (BitVec.ofNat 96 x.1) = .ok x.2 := by
  decide +kernel

theorem test_decode_integer : ∀ x ∈ ([
  (0x102C0A0381200018000B4016, .iadd { fd with d := .v 10, a := .v 14, b := .v 18, c := .v 0, mod := 0x30001 }),
  (0x106C0A0381200018000B4014, .isub { fd with d := .v 10, a := .v 14, b := .v 18, c := .v 0, mod := 0x30001 }),
  (0x10AC0A0381291020000B400F, .iaddc { fd with d := .v 10, a := .v 14, b := .v 18, c := .k 68, mod := 0x40001 }),
  (0x10EC0A0381291020000B400D, .isubc { fd with d := .v 10, a := .v 14, b := .v 18, c := .k 68, mod := 0x40001 }),
  (0x112C0A03812000180003400E, .imul { fd with d := .v 10, a := .v 14, b := .v 18, c := .v 0, mod := 0x30000 }),
  (0x116C0A03812000180003400C, .imulh { fd with d := .v 10, a := .v 14, b := .v 18, c := .v 0, mod := 0x30000 }),
  (0x11AC0A0381205818000B4000, .imad { fd with d := .v 10, a := .v 14, b := .v 18, c := .v 22, mod := 0x30001 }),
  (0x11EC0A038120001800034008, .imin { fd with d := .v 10, a := .v 14, b := .v 18, c := .v 0, mod := 0x30000 }),
  (0x122C0A038120001800034016, .imax { fd with d := .v 10, a := .v 14, b := .v 18, c := .v 0, mod := 0x30000 }),
  (0x126C0A0380000018000B400E, .iabs { fd with d := .v 10, a := .v 14, b := .v 0, c := .v 0, mod := 0x30001 }),
  (0x12AC0A038120003800034016, .band { fd with d := .v 10, a := .v 14, b := .v 18, c := .v 0, mod := 0x70000 }),
  (0x12EC0A038120003800034014, .bor { fd with d := .v 10, a := .v 14, b := .v 18, c := .v 0, mod := 0x70000 }),
  (0x132C0A03812000380003401A, .bxor { fd with d := .v 10, a := .v 14, b := .v 18, c := .v 0, mod := 0x70000 }),
  (0x136C0A038000003800034012, .bnot { fd with d := .v 10, a := .v 14, b := .v 0, c := .v 0, mod := 0x70000 }),
  (0x13AC0A0381205838000B4014, .logt { fd with d := .v 10, a := .v 14, b := .v 18, c := .v 22, mod := 0x70001 }),
  (0x13EC0A03812000380003401C, .shl { fd with d := .v 10, a := .v 14, b := .v 18, c := .v 0, mod := 0x70000 }),
  (0x142C0A038120002000034000, .shr { fd with d := .v 10, a := .v 14, b := .v 18, c := .v 0, mod := 0x40000 }),
  (0x146C0A038120001800034005, .sar { fd with d := .v 10, a := .v 14, b := .v 18, c := .v 0, mod := 0x30000 }),
  (0x14AC0A0381200038000B4017, .dsh { fd with d := .v 10, a := .v 14, b := .v 18, c := .v 0, mod := 0x70001 }),
  (0x14EC0A038120001800034001, .bfe { fd with d := .v 10, a := .v 14, b := .v 18, c := .v 0, mod := 0x30000 }),
  (0x152C0A038120583800034011, .bfi { fd with d := .v 10, a := .v 14, b := .v 18, c := .v 22, mod := 0x70000 }),
  (0x156C0A0380000038000B4013, .maskB { fd with d := .v 10, a := .v 14, b := .v 0, c := .v 0, mod := 0x70001 }),
  (0x15AC0A038000003800034005, .popc { fd with d := .v 10, a := .v 14, b := .v 0, c := .v 0, mod := 0x70000 }),
  (0x15EC0A038000003800034007, .clz { fd with d := .v 10, a := .v 14, b := .v 0, c := .v 0, mod := 0x70000 }),
  (0x162C0A038000003800034019, .brev { fd with d := .v 10, a := .v 14, b := .v 0, c := .v 0, mod := 0x70000 }),
  (0x166C0A03812058380003400B, .bswz { fd with d := .v 10, a := .v 14, b := .v 18, c := .v 22, mod := 0x70000 }),
  (0x16AC0A0381205818000B4019, .bdot { fd with d := .v 10, a := .v 14, b := .v 18, c := .v 22, mod := 0x30001 }),
  (0x16EC0A0381205820000B401C, .bsad { fd with d := .v 10, a := .v 14, b := .v 18, c := .v 22, mod := 0x40001 }),
  (0x172E410381200018000B4008, .isetp { fd with d := .k 65, a := .v 14, b := .v 18, c := .v 0, mod := 0x30001 }),
  (0x176C0A038129103800034003, .sel { fd with d := .v 10, a := .v 14, b := .v 18, c := .k 68, mod := 0x70000 }),
  (0x17AC0A0381200020000B400C, .lea { fd with d := .v 10, a := .v 14, b := .v 18, c := .v 0, mod := 0x40001 })] : List (Nat × Instr)), decodeWord 255 (BitVec.ofNat 96 x.1) = .ok x.2 := by
  decide +kernel

theorem test_decode_move : ∀ x ∈ ([
  (0x202C0A038000003800034004, .mov { fd with d := .v 10, a := .v 14, b := .v 0, c := .v 0, mod := 0x70000 }),
  (0x206C0A0000000000000B4008, .movh { fd with d := .v 10, a := .v 0, b := .v 0, c := .v 0, mod := 0x00001 }),
  (0x20AC0A0380000000000B4017, .addi { fd with d := .v 10, a := .v 14, b := .v 0, c := .v 0, mod := 0x00001 }),
  (0x20EC0A0000000000000B400C, .movx { fd with d := .v 10, a := .v 0, b := .v 0, c := .v 0, mod := 0x00001 }),
  (0x212E4190A4300000000B4001, .pand { fd with d := .k 65, a := .k 66, b := .k 67, c := .v 0, mod := 0x00001 }),
  (0x216E4190A4300000000B4003, .por { fd with d := .k 65, a := .k 66, b := .k 67, c := .v 0, mod := 0x00001 }),
  (0x21AE4190A4300000000B4005, .pxor { fd with d := .k 65, a := .k 66, b := .k 67, c := .v 0, mod := 0x00001 }),
  (0x21EE419080000000000B4001, .pnot { fd with d := .k 65, a := .k 66, b := .v 0, c := .v 0, mod := 0x00001 }),
  (0x222C0A00000000000003400A, .p2v { fd with d := .v 10, a := .v 0, b := .v 0, c := .v 0, mod := 0x00000 }),
  (0x226C000380000000000B4008, .v2p { fd with d := .v 0, a := .v 14, b := .v 0, c := .v 0, mod := 0x00001 }),
  (0x22AC0A039180003800034012, .rdlane { fd with d := .v 10, a := .v 14, b := .s 24, c := .v 0, mod := 0x70000 }),
  (0x22EC0AA48000000000034014, .srd { fd with d := .v 10, a := .k 146, b := .v 0, c := .v 0, mod := 0x00000 }),
  (0x232EE1038000000000034008, .swr { fd with d := .k 225, a := .v 14, b := .v 0, c := .v 0, mod := 0x00000 }),
  (0x236C000380000000000B4000, .setmode { fd with d := .v 0, a := .v 14, b := .v 0, c := .v 0, mod := 0x00001 }),
  (0x23AC000000000000000B401F, .partW { fd with d := .v 0, a := .v 0, b := .v 0, c := .v 0, mod := 0x00001 })] : List (Nat × Instr)), decodeWord 255 (BitVec.ofNat 96 x.1) = .ok x.2 := by
  decide +kernel

theorem test_decode_collective : ∀ x ∈ ([
  (0x302C0A0381200038000B401A, .shflIdx { fd with d := .v 10, a := .v 14, b := .v 18, c := .v 0, mod := 0x70001 }),
  (0x306C0A0381200038000B4018, .shflRot { fd with d := .v 10, a := .v 14, b := .v 18, c := .v 0, mod := 0x70001 }),
  (0x30AC0A0381200038000B401E, .shflXor { fd with d := .v 10, a := .v 14, b := .v 18, c := .v 0, mod := 0x70001 }),
  (0x30EC0A0381200038000B401C, .shflRev { fd with d := .v 10, a := .v 14, b := .v 18, c := .v 0, mod := 0x70001 }),
  (0x312E4190800058000043400D, .voteAll { fd with d := .k 65, a := .k 66, b := .v 0, c := .v 22, mod := 0x00008 }),
  (0x316E4190800058000043400F, .voteAny { fd with d := .k 65, a := .k 66, b := .v 0, c := .v 22, mod := 0x00008 }),
  (0x31AC0A90800058000043400E, .voteBallot { fd with d := .v 10, a := .k 66, b := .v 0, c := .v 22, mod := 0x00008 }),
  (0x31EC0A038000581800434014, .redgAdd { fd with d := .v 10, a := .v 14, b := .v 0, c := .v 22, mod := 0x30008 }),
  (0x322C0A03800058180043400A, .redgMin { fd with d := .v 10, a := .v 14, b := .v 0, c := .v 22, mod := 0x30008 }),
  (0x326C0A038000581800434008, .redgMax { fd with d := .v 10, a := .v 14, b := .v 0, c := .v 22, mod := 0x30008 }),
  (0x32AC0A03A430581800434008, .scang { fd with d := .v 10, a := .v 14, b := .k 67, c := .v 22, mod := 0x30008 }),
  (0x32EC0A038000583800434008, .matchG { fd with d := .v 10, a := .v 14, b := .v 0, c := .v 22, mod := 0x70008 }),
  (0x332E4100000058000043401F, .elect { fd with d := .k 65, a := .v 0, b := .v 0, c := .v 22, mod := 0x00008 })] : List (Nat × Instr)), decodeWord 255 (BitVec.ofNat 96 x.1) = .ok x.2 := by
  decide +kernel

theorem test_decode_scalar : ∀ x ∈ ([
  (0x402C0A038120004000034019, .fadd { fd with d := .v 10, a := .v 14, b := .v 18, c := .v 0, mod := 0x80000 }),
  (0x406C0A03812000400003401B, .fsub { fd with d := .v 10, a := .v 14, b := .v 18, c := .v 0, mod := 0x80000 }),
  (0x40AC0A03812000400003401D, .fmul { fd with d := .v 10, a := .v 14, b := .v 18, c := .v 0, mod := 0x80000 }),
  (0x40EC0A038120584000034005, .ffma { fd with d := .v 10, a := .v 14, b := .v 18, c := .v 22, mod := 0x80000 }),
  (0x412C0A038120004000034011, .fmin { fd with d := .v 10, a := .v 14, b := .v 18, c := .v 0, mod := 0x80000 }),
  (0x416C0A038120004000034013, .fmax { fd with d := .v 10, a := .v 14, b := .v 18, c := .v 0, mod := 0x80000 }),
  (0x41AC0A03800000400003401F, .fneg { fd with d := .v 10, a := .v 14, b := .v 0, c := .v 0, mod := 0x80000 }),
  (0x41EC0A03800000400003401D, .fabs { fd with d := .v 10, a := .v 14, b := .v 0, c := .v 0, mod := 0x80000 }),
  (0x422C0A038120004000034009, .fscale { fd with d := .v 10, a := .v 14, b := .v 18, c := .v 0, mod := 0x80000 }),
  (0x426E410381200040000B401C, .fsetp { fd with d := .k 65, a := .v 14, b := .v 18, c := .v 0, mod := 0x80001 }),
  (0x42AC0A038000004000034007, .fclass { fd with d := .v 10, a := .v 14, b := .v 0, c := .v 0, mod := 0x80000 }),
  (0x42EC0A038000004000034005, .frnd { fd with d := .v 10, a := .v 14, b := .v 0, c := .v 0, mod := 0x80000 })] : List (Nat × Instr)), decodeWord 255 (BitVec.ofNat 96 x.1) = .ok x.2 := by
  decide +kernel

theorem test_decode_packed : ∀ x ∈ ([
  (0x502C0A038120584800034006, .hfma2 { fd with d := .v 10, a := .v 14, b := .v 18, c := .v 22, mod := 0x90000 }),
  (0x506C0A03812000480003401E, .hadd2 { fd with d := .v 10, a := .v 14, b := .v 18, c := .v 0, mod := 0x90000 }),
  (0x50AC0A038120004800034018, .hsub2 { fd with d := .v 10, a := .v 14, b := .v 18, c := .v 0, mod := 0x90000 }),
  (0x50EC0A03812000480003401A, .hmul2 { fd with d := .v 10, a := .v 14, b := .v 18, c := .v 0, mod := 0x90000 }),
  (0x512C0A038120004800034014, .hmin2 { fd with d := .v 10, a := .v 14, b := .v 18, c := .v 0, mod := 0x90000 }),
  (0x516C0A038120004800034016, .hmax2 { fd with d := .v 10, a := .v 14, b := .v 18, c := .v 0, mod := 0x90000 }),
  (0x51AC0A03800000480003401A, .hneg2 { fd with d := .v 10, a := .v 14, b := .v 0, c := .v 0, mod := 0x90000 }),
  (0x51EC0A038000004800034018, .habs2 { fd with d := .v 10, a := .v 14, b := .v 0, c := .v 0, mod := 0x90000 }),
  (0x522E410381200048000B401B, .hsetp2 { fd with d := .k 65, a := .v 14, b := .v 18, c := .v 0, mod := 0x90001 })] : List (Nat × Instr)), decodeWord 255 (BitVec.ofNat 96 x.1) = .ok x.2 := by
  decide +kernel

theorem test_decode_convert : ∀ x ∈ ([
  (0x602C0A0380000064C03B401F, .cvt { fd with d := .v 10, a := .v 14, b := .v 0, c := .v 0, mod := 0xc9807 }),
  (0x606C0A0381200048000B4002, .pack2 { fd with d := .v 10, a := .v 14, b := .v 18, c := .v 0, mod := 0x90001 }),
  (0x60AC0A0380000040000B400F, .rcp { fd with d := .v 10, a := .v 14, b := .v 0, c := .v 0, mod := 0x80001 }),
  (0x60EC0A0380000040000B400D, .rsq { fd with d := .v 10, a := .v 14, b := .v 0, c := .v 0, mod := 0x80001 }),
  (0x612C0A0380000040000B4003, .sqrt { fd with d := .v 10, a := .v 14, b := .v 0, c := .v 0, mod := 0x80001 }),
  (0x616C0A0380000040000B4001, .exp2 { fd with d := .v 10, a := .v 14, b := .v 0, c := .v 0, mod := 0x80001 }),
  (0x61AC0A0380000040000B4007, .log2 { fd with d := .v 10, a := .v 14, b := .v 0, c := .v 0, mod := 0x80001 }),
  (0x61EC0A0380000040000B4005, .sin { fd with d := .v 10, a := .v 14, b := .v 0, c := .v 0, mod := 0x80001 }),
  (0x622C0A0380000040000B401B, .cos { fd with d := .v 10, a := .v 14, b := .v 0, c := .v 0, mod := 0x80001 }),
  (0x626C0A0380000040000B4019, .tanh { fd with d := .v 10, a := .v 14, b := .v 0, c := .v 0, mod := 0x80001 })] : List (Nat × Instr)), decodeWord 255 (BitVec.ofNat 96 x.1) = .ok x.2 := by
  decide +kernel

theorem test_decode_variant : ∀ x ∈ ([
  (0x702C000380000000000B400E, .callv { fd with d := .v 0, a := .v 14, b := .v 0, c := .v 0, mod := 0x00001 }),
  (0x706C00000000000000034005, .retv { fd with d := .v 0, a := .v 0, b := .v 0, c := .v 0, mod := 0x00000 }),
  (0x70AC000380000000000B400A, .bset { fd with d := .v 0, a := .v 14, b := .v 0, c := .v 0, mod := 0x00001 }),
  (0x70EC0A0000000000000B4018, .bget { fd with d := .v 10, a := .v 0, b := .v 0, c := .v 0, mod := 0x00001 }),
  (0x712C0A0380000000000B400F, .bsplit { fd with d := .v 10, a := .v 14, b := .v 0, c := .v 0, mod := 0x00001 }),
  (0x716C0A0000000000000B4014, .meter { fd with d := .v 10, a := .v 0, b := .v 0, c := .v 0, mod := 0x00001 })] : List (Nat × Instr)), decodeWord 255 (BitVec.ofNat 96 x.1) = .ok x.2 := by
  decide +kernel

theorem test_decode_memory : ∀ x ∈ ([
  (0x802C0A8101200008000B401A, .ld { fd with d := .v 10, a := .k 4, b := .v 18, c := .v 0, mod := 0x10001 }),
  (0x806C008101205808000B400B, .st { fd with d := .v 0, a := .k 4, b := .v 18, c := .v 22, mod := 0x10001 }),
  (0x80AC0A8101291008000B4004, .ldx { fd with d := .v 10, a := .k 4, b := .v 18, c := .k 68, mod := 0x10001 }),
  (0x80EE418101205808000B4001, .stx { fd with d := .k 65, a := .k 4, b := .v 18, c := .v 22, mod := 0x10001 }),
  (0x812C0081012000000003400A, .erase { fd with d := .v 0, a := .k 4, b := .v 18, c := .v 0, mod := 0x00000 }),
  (0x816C0A810120000000034001, .exq { fd with d := .v 10, a := .k 4, b := .v 18, c := .v 0, mod := 0x00000 }),
  (0x81AC008101200000000B401E, .pref { fd with d := .v 0, a := .k 4, b := .v 18, c := .v 0, mod := 0x00001 })] : List (Nat × Instr)), decodeWord 255 (BitVec.ofNat 96 x.1) = .ok x.2 := by
  decide +kernel

theorem test_decode_records : ∀ x ∈ ([
  (0x902E094411847000000B401A, .brmake { fd with d := .k 9, a := .s 16, b := .s 24, c := .s 28, mod := 0x00001 }),
  (0x906E094400000000000B4008, .brset { fd with d := .k 9, a := .s 16, b := .v 0, c := .v 0, mod := 0x00001 }),
  (0x90AC0A8100000000000B4011, .brget { fd with d := .v 10, a := .k 4, b := .v 0, c := .v 0, mod := 0x00001 })] : List (Nat × Instr)), decodeWord 255 (BitVec.ofNat 96 x.1) = .ok x.2 := by
  decide +kernel

theorem test_decode_atomics : ∀ x ∈ ([
  (0xA02C0A8101205818000B400A, .atomAdd { fd with d := .v 10, a := .k 4, b := .v 18, c := .v 22, mod := 0x30001 }),
  (0xA06C0A8101205818000B4008, .atomMin { fd with d := .v 10, a := .k 4, b := .v 18, c := .v 22, mod := 0x30001 }),
  (0xA0AC0A8101205818000B400E, .atomMax { fd with d := .v 10, a := .k 4, b := .v 18, c := .v 22, mod := 0x30001 }),
  (0xA0EC0A8101205838000B4008, .atomAnd { fd with d := .v 10, a := .k 4, b := .v 18, c := .v 22, mod := 0x70001 }),
  (0xA12C0A8101205838000B4006, .atomOr { fd with d := .v 10, a := .k 4, b := .v 18, c := .v 22, mod := 0x70001 }),
  (0xA16C0A8101205838000B4004, .atomXor { fd with d := .v 10, a := .k 4, b := .v 18, c := .v 22, mod := 0x70001 }),
  (0xA1AC0A8101205838000B4002, .atomExch { fd with d := .v 10, a := .k 4, b := .v 18, c := .v 22, mod := 0x70001 }),
  (0xA1EC0A8101205838000B4000, .atomCas { fd with d := .v 10, a := .k 4, b := .v 18, c := .v 22, mod := 0x70001 }),
  (0xA22C0A8101205840000B4011, .atomFadd { fd with d := .v 10, a := .k 4, b := .v 18, c := .v 22, mod := 0x80001 }),
  (0xA26C008101205818000B4011, .redAdd { fd with d := .v 0, a := .k 4, b := .v 18, c := .v 22, mod := 0x30001 }),
  (0xA2AC008101205818000B4017, .redMin { fd with d := .v 0, a := .k 4, b := .v 18, c := .v 22, mod := 0x30001 }),
  (0xA2EC008101205818000B4015, .redMax { fd with d := .v 0, a := .k 4, b := .v 18, c := .v 22, mod := 0x30001 }),
  (0xA32C008101205838000B401F, .redAnd { fd with d := .v 0, a := .k 4, b := .v 18, c := .v 22, mod := 0x70001 }),
  (0xA36C008101205838000B401D, .redOr { fd with d := .v 0, a := .k 4, b := .v 18, c := .v 22, mod := 0x70001 }),
  (0xA3AC008101205838000B401B, .redXor { fd with d := .v 0, a := .k 4, b := .v 18, c := .v 22, mod := 0x70001 }),
  (0xA3EC008101205840000B4016, .redFadd { fd with d := .v 0, a := .k 4, b := .v 18, c := .v 22, mod := 0x80001 }),
  (0xA42C0A0380005818000B400A, .atomsAdd { fd with d := .v 10, a := .v 14, b := .v 0, c := .v 22, mod := 0x30001 }),
  (0xA46C0A0380005818000B4008, .atomsMin { fd with d := .v 10, a := .v 14, b := .v 0, c := .v 22, mod := 0x30001 }),
  (0xA4AC0A0380005818000B400E, .atomsMax { fd with d := .v 10, a := .v 14, b := .v 0, c := .v 22, mod := 0x30001 }),
  (0xA4EC0A0380005838000B4008, .atomsAnd { fd with d := .v 10, a := .v 14, b := .v 0, c := .v 22, mod := 0x70001 }),
  (0xA52C0A0380005838000B4006, .atomsOr { fd with d := .v 10, a := .v 14, b := .v 0, c := .v 22, mod := 0x70001 }),
  (0xA56C0A0380005838000B4004, .atomsXor { fd with d := .v 10, a := .v 14, b := .v 0, c := .v 22, mod := 0x70001 }),
  (0xA5AC0A0380005838000B4002, .atomsExch { fd with d := .v 10, a := .v 14, b := .v 0, c := .v 22, mod := 0x70001 }),
  (0xA5EC0A0380005838000B4000, .atomsCas { fd with d := .v 10, a := .v 14, b := .v 0, c := .v 22, mod := 0x70001 }),
  (0xA62C0A0380005840000B4011, .atomsFadd { fd with d := .v 10, a := .v 14, b := .v 0, c := .v 22, mod := 0x80001 }),
  (0xA66C000380005818000B4011, .redsAdd { fd with d := .v 0, a := .v 14, b := .v 0, c := .v 22, mod := 0x30001 }),
  (0xA6AC000380005818000B4017, .redsMin { fd with d := .v 0, a := .v 14, b := .v 0, c := .v 22, mod := 0x30001 }),
  (0xA6EC000380005818000B4015, .redsMax { fd with d := .v 0, a := .v 14, b := .v 0, c := .v 22, mod := 0x30001 }),
  (0xA72C000380005838000B401F, .redsAnd { fd with d := .v 0, a := .v 14, b := .v 0, c := .v 22, mod := 0x70001 }),
  (0xA76C000380005838000B401D, .redsOr { fd with d := .v 0, a := .v 14, b := .v 0, c := .v 22, mod := 0x70001 }),
  (0xA7AC000380005838000B401B, .redsXor { fd with d := .v 0, a := .v 14, b := .v 0, c := .v 22, mod := 0x70001 }),
  (0xA7EC000380005840000B4016, .redsFadd { fd with d := .v 0, a := .v 14, b := .v 0, c := .v 22, mod := 0x80001 }),
  (0xA82C0A0380000008000B4011, .lds { fd with d := .v 10, a := .v 14, b := .v 0, c := .v 0, mod := 0x10001 }),
  (0xA86C000380005808000B4000, .sts { fd with d := .v 0, a := .v 14, b := .v 0, c := .v 22, mod := 0x10001 }),
  (0xA8AC0003800000000003400D, .sfill { fd with d := .v 0, a := .v 14, b := .v 0, c := .v 0, mod := 0x00000 }),
  (0xA8EC0003800000000003400F, .sempty { fd with d := .v 0, a := .v 14, b := .v 0, c := .v 0, mod := 0x00000 })] : List (Nat × Instr)), decodeWord 255 (BitVec.ofNat 96 x.1) = .ok x.2 := by
  decide +kernel

theorem test_decode_gather : ∀ x ∈ ([
  (0xB02C0A8101200008000B4016, .gthr { fd with d := .v 10, a := .k 4, b := .v 18, c := .v 0, mod := 0x10001 }),
  (0xB06C008101247000000B400E, .gthrs { fd with d := .v 0, a := .k 4, b := .v 18, c := .s 28, mod := 0x00001 }),
  (0xB0AC004400000000000B4001, .remap { fd with d := .v 0, a := .s 16, b := .v 0, c := .v 0, mod := 0x00001 }),
  (0xB0DC008111800000000B4001, .copyI { fd with neg := false, gp := 7, d := .v 0, a := .k 4, b := .s 24, c := .v 0, mod := 0x00001 }),
  (0xB11C008111800000002B400D, .copym { fd with neg := false, gp := 7, d := .v 0, a := .k 4, b := .s 24, c := .v 0, mod := 0x00005 })] : List (Nat × Instr)), decodeWord 255 (BitVec.ofNat 96 x.1) = .ok x.2 := by
  decide +kernel

theorem test_decode_matrix : ∀ x ∈ ([
  (0xC02C008111800000000B400A, .cbload { fd with d := .v 0, a := .k 4, b := .s 24, c := .v 0, mod := 0x00001 }),
  (0xC05C00000000000000034019, .mready { fd with neg := false, gp := 7, d := .v 0, a := .v 0, b := .v 0, c := .v 0, mod := 0x00000 }),
  (0xC0AD1444000000000003401E, .mma { fd with d := .s 20, a := .s 16, b := .v 0, c := .v 0, mod := 0x00000 }),
  (0xC0ED144411800000000B400E, .mmas { fd with d := .s 20, a := .s 16, b := .s 24, c := .v 0, mod := 0x00001 }),
  (0xC12C0003800000000003401B, .mwait { fd with d := .v 0, a := .v 14, b := .v 0, c := .v 0, mod := 0x00000 }),
  (0xC16E41038000000000034017, .mpoll { fd with d := .k 65, a := .v 14, b := .v 0, c := .v 0, mod := 0x00000 })] : List (Nat × Instr)), decodeWord 255 (BitVec.ofNat 96 x.1) = .ok x.2 := by
  decide +kernel

theorem test_decode_sync : ∀ x ∈ ([
  (0xD02C000000000000000B401E, .fence { fd with d := .v 0, a := .v 0, b := .v 0, c := .v 0, mod := 0x00001 }),
  (0xD05C000000000000000B400D, .bar { fd with neg := false, gp := 7, d := .v 0, a := .v 0, b := .v 0, c := .v 0, mod := 0x00001 }),
  (0xD09C000000000000000B400B, .bara { fd with neg := false, gp := 7, d := .v 0, a := .v 0, b := .v 0, c := .v 0, mod := 0x00001 }),
  (0xD0DC000000000000000B4009, .barw { fd with neg := false, gp := 7, d := .v 0, a := .v 0, b := .v 0, c := .v 0, mod := 0x00001 }),
  (0xD12C00000000000000034006, .drain { fd with d := .v 0, a := .v 0, b := .v 0, c := .v 0, mod := 0x00000 }),
  (0xD16C0003800000000003401D, .fewait { fd with d := .v 0, a := .v 14, b := .v 0, c := .v 0, mod := 0x00000 }),
  (0xD1AC00440000000000034001, .evpost { fd with d := .v 0, a := .s 16, b := .v 0, c := .v 0, mod := 0x00000 }),
  (0xD1EC0A000000000000034009, .evwait { fd with d := .v 10, a := .v 0, b := .v 0, c := .v 0, mod := 0x00000 }),
  (0xD22C0A0000000000000B4007, .evpoll { fd with d := .v 10, a := .v 0, b := .v 0, c := .v 0, mod := 0x00001 }),
  (0xD26C0A0381200000000B4016, .launchI { fd with d := .v 10, a := .v 14, b := .v 18, c := .v 0, mod := 0x00001 }),
  (0xD2AC0A0381200000000B4010, .garm { fd with d := .v 10, a := .v 14, b := .v 18, c := .v 0, mod := 0x00001 }),
  (0xD2EC0A0000000000000B4001, .cntrd { fd with d := .v 10, a := .v 0, b := .v 0, c := .v 0, mod := 0x00001 }),
  (0xD32E410000000000000B4008, .cancelLevel { fd with d := .k 65, a := .v 0, b := .v 0, c := .v 0, mod := 0x00001 })] : List (Nat × Instr)), decodeWord 255 (BitVec.ofNat 96 x.1) = .ok x.2 := by
  decide +kernel

theorem test_decode_system : ∀ x ∈ ([
  (0xE02C0A0000000000000B401B, .lblrd { fd with d := .v 10, a := .v 0, b := .v 0, c := .v 0, mod := 0x00001 }),
  (0xE06E410001200000000B4014, .lbltst { fd with d := .k 65, a := .v 0, b := .v 18, c := .v 0, mod := 0x00001 }),
  (0xE0AC0A8101205800000B401D, .egress { fd with d := .v 10, a := .k 4, b := .v 18, c := .v 22, mod := 0x00001 }),
  (0xE0DC00000000000000034015, .rgn { fd with neg := false, gp := 7, d := .v 0, a := .v 0, b := .v 0, c := .v 0, mod := 0x00000 }),
  (0xE11C0000000000000003401B, .rgne { fd with neg := false, gp := 7, d := .v 0, a := .v 0, b := .v 0, c := .v 0, mod := 0x00000 }),
  (0xE16D140000000000000B400B, .sfqpop { fd with d := .s 20, a := .v 0, b := .v 0, c := .v 0, mod := 0x00001 }),
  (0xE19C0000000000000003401F, .rft { fd with neg := false, gp := 7, d := .v 0, a := .v 0, b := .v 0, c := .v 0, mod := 0x00000 }),
  (0xE1EC0000000000000003400C, .termG { fd with d := .v 0, a := .v 0, b := .v 0, c := .v 0, mod := 0x00000 }),
  (0xE22C00000000000000034012, .termU { fd with d := .v 0, a := .v 0, b := .v 0, c := .v 0, mod := 0x00000 }),
  (0xE26C000000000000000B4000, .halt { fd with d := .v 0, a := .v 0, b := .v 0, c := .v 0, mod := 0x00001 })] : List (Nat × Instr)), decodeWord 255 (BitVec.ofNat 96 x.1) = .ok x.2 := by
  decide +kernel


/-! The worked word of the chapter Instruction Words as it lies in memory, commands, and knownWords. -/

theorem test_decode_bytes : decodeBytes 255 [0x1C#8, 0x80#8, 0x00#8, 0x00#8, 0x18#8, 0x00#8, 0xC0#8, 0xB0#8, 0x01#8, 0x05#8, 0x04#8, 0x10#8] =
    .ok (.iadd { blank with gp := 1, d := .v 5, a := .v 6, b := .imm 12, mod := 0x30000, stall := 1 }) := by decide +kernel

/-- Opcodes of the table Command Opcodes: the message decodes to its own row. -/
theorem test_decode_commands : ∀ x ∈ commandForms, decodeMessage (sample x.2 6) = some (x.1 (sample x.2 6)) := by decide +kernel

/-- A word of zeros takes reason 1, a word of ones fails the check (R98). -/
theorem test_decode_erased : decodeWord 255 0 = .error (.illegal 1) ∧ decodeWord 255 (BitVec.allOnes 96) = .error .check := by decide +kernel

/-! Smoke tests of well-formedness: one ill-formed term for each check, and one that passes. -/

theorem test_wf_fields : (Instr.iadd { fv with mod := 0x30000, c := .v 0 }).wf = true ∧
    (Instr.iadd { fv with mod := 0x30002, c := .v 0 }).wf = false ∧ (Instr.iadd { fv with mod := 0x90000, c := .v 0 }).wf = false ∧
    (Instr.iadd { fv with mod := 0x30000, c := .v 4 }).wf = false ∧ (Instr.iadd { fv with d := .s 1, mod := 0x30000, c := .v 0 }).wf = false ∧
    (Instr.iadd { fv with a := .s 200, mod := 0x30000, c := .v 0 }).wf = false := by decide +kernel
theorem test_wf_message : (Instr.jobOpen (sample .jobOpen 6)).wf = true ∧ (Instr.jobClose (sample .jobOpen 6)).wf = false ∧
    (Instr.jobOpen { sample .jobOpen 6 with ep := 65 }).wf = false := by decide +kernel
theorem test_wf_events : (Instr.ringTailCheck 11).wf = true ∧ (Instr.ringTailCheck 12).wf = false ∧ (Instr.evict 12).wf = false ∧
    (Instr.launchEntryStart 0 256).wf = false ∧ (Instr.copyEntry 12 0).wf = false ∧ (Instr.bindRecordWrite 12 0 0).wf = false ∧
    (Instr.bindRecordWrite 0 64 0).wf = false ∧ (Instr.leaseLengthWrite 12 0).wf = false ∧ (Instr.voteWrite 12 0).wf = false ∧
    (Instr.domainGate 12).wf = false ∧ (Instr.mmaChunkGrant 96).wf = false ∧ (Instr.passCountLower 96).wf = false := by decide +kernel
theorem test_wf_registers : (Instr.registerWrite (.threshold 0 19 5)).wf = true ∧ (Instr.registerWrite (.threshold 0 20 5)).wf = false ∧
    (Instr.registerWrite (.account 0 64 1 true)).wf = false ∧ (Instr.registerWrite (.window 0 (2 ^ 48))).wf = false ∧
    (Instr.remoteAccessIn { part := 12, sender := 0, offset := 0, op := .load 4 }).wf = false ∧
    (Instr.remoteAccessIn { part := 0, sender := 0, offset := 2 ^ 32, op := .load 4 }).wf = false := by decide +kernel

/-! Single steps. The expected values are worked by hand from the entries of the chapters. -/

/-- Lane 0 with values in v2, v3, v4 and in the pairs v12, v14, v16. -/
def svRegs (a b c : Nat) : Tab Word :=
  [(2, a), (3, b), (4, c), (12, a % 2 ^ 32), (13, a / 2 ^ 32), (14, b % 2 ^ 32), (15, b / 2 ^ 32), (16, c % 2 ^ 32), (17, c / 2 ^ 32)].map
    (fun e => (e.1, BitVec.ofNat 32 e.2))
def sv (a b c : Nat) : State := { s1 with threads := [(0, { pc := 0x1000, preds := 1, regs := svRegs a b c })] }
/-- What v1 holds after D, A, B, C = v1, v2, v3, v4. -/
def v1After (i : Fields → Instr) (mod : BitVec 20) (a b c : Nat) (f : Fields := fv) : Option Nat :=
  match exec (i { f with mod := mod }) (sv a b c) with
  | .next t => some ((t.thread 0).reg 1).toNat
  | _ => none
/-- What the pair v10 holds after D, A, B, C = v10, v12, v14, v16. -/
def v10After (i : Fields → Instr) (mod : BitVec 20) (a b c : Nat) : Option Nat :=
  match exec (i { blank with d := .v 10, a := .v 12, b := .v 14, c := .v 16, mod := mod }) (sv a b c) with
  | .next t => some (((t.thread 0).reg 11).toNat * 2 ^ 32 + ((t.thread 0).reg 10).toNat)
  | _ => none
/-- Predicate n after the instruction, with C and the destination predicates. -/
def predAfter (i : Fields → Instr) (f : Fields) (n a b c : Nat) : Option Bool :=
  match exec (i f) (sv a b c) with
  | .next t => some ((t.thread 0).pred n)
  | _ => none

/- R142: 7FFFFFFF + 1 wraps, and stays under .SAT. -/
theorem test_iadd : v1After .iadd 0x30000 0x7FFFFFFF 1 0 = some 0x80000000 ∧ v1After .iadd 0x30001 0x7FFFFFFF 1 0 = some 0x7FFFFFFF ∧
    v10After .iadd 0x60000 0xFFFFFFFF 1 0 = some 0x100000000 := by decide +kernel
theorem test_isub : v1After .isub 0x40000 3 5 0 = some 0xFFFFFFFE ∧ v1After .isub 0x40001 3 5 0 = some 0 := by decide +kernel
/- R142: -2 times 3 is -6, whose high half is all ones; as naturals FFFFFFFE * 3 = 2_FFFFFFFA. -/
theorem test_imulh : v1After .imulh 0x30000 0xFFFFFFFE 3 0 = some 0xFFFFFFFF ∧ v1After .imulh 0x40000 0xFFFFFFFE 3 0 = some 2 := by decide +kernel
theorem test_imad : v1After .imad 0x30000 7 6 0xFFFFFFFE = some 40 ∧ v1After .imad 0x30001 0x10000 0x10000 0 = some 0x7FFFFFFF := by decide +kernel
theorem test_imin : v1After .imin 0x30000 0xFFFFFFFF 1 0 = some 0xFFFFFFFF ∧ v1After .imin 0x40000 0xFFFFFFFF 1 0 = some 1 ∧
    v1After .imax 0x30000 0xFFFFFFFF 1 0 = some 1 := by decide +kernel
theorem test_iabs : v1After .iabs 0x30000 0x80000000 0 0 = some 0x80000000 ∧ v1After .iabs 0x30001 0x80000000 0 0 = some 0x7FFFFFFF := by decide +kernel
/- R143: FFFFFFFF + 0 + 1 writes 0 and the carry into p2; 0 - 0 - 1 borrows. The carry-in is p0. -/
theorem test_iaddc : v1After .iaddc 0x40002 0xFFFFFFFF 0 0 { fv with c := .k 64 } = some 0 ∧
    predAfter .iaddc { fv with c := .k 64, mod := 0x40002 } 2 0xFFFFFFFF 0 0 = some true := by decide +kernel
theorem test_isubc : v1After .isubc 0x40002 0 0 0 { fv with c := .k 64 } = some 0xFFFFFFFF ∧
    predAfter .isubc { fv with c := .v 255, mod := 0x40002 } 2 5 5 0 = some false := by decide +kernel
/- R141: the truth tables AA, CC, F0 return A, B, C, and 96 their XOR. -/
theorem test_logt : v1After .logt 0x700AA 0x12 0x34 0x56 = some 0x12 ∧ v1After .logt 0x700CC 0x12 0x34 0x56 = some 0x34 ∧
    v1After .logt 0x700F0 0x12 0x34 0x56 = some 0x56 ∧ v1After .logt 0x70096 0x12 0x34 0x56 = some 0x70 := by decide +kernel
/- R145: amounts at and past the width. -/
theorem test_shifts : v1After .shl 0x70000 1 32 0 = some 0 ∧ v1After .shr 0x40000 0x80000000 31 0 = some 1 ∧
    v1After .sar 0x30000 0x80000000 99 0 = some 0xFFFFFFFF ∧ v1After .shl 0x70000 3 31 0 = some 0x80000000 := by decide +kernel
/- R145: the high word of the pair shifted left by 8; rotated right by 64 + 4 it is the low word of a rotation by 4. -/
theorem test_dsh : v1After .dsh 0x70000 0x11223344AABBCCDD 8 0 { fv with a := .v 12 } = some 0x223344AA ∧
    v1After .dsh 0x70003 0x11223344AABBCCDD 68 0 { fv with a := .v 12 } = some 0x4AABBCCD := by decide +kernel
/- R146: four bits from bit 4; length 0; a signed field. -/
theorem test_bfe : v1After .bfe 0x40000 0xABCD 0x0404 0 = some 0xC ∧ v1After .bfe 0x40000 0xABCD 0x0004 0 = some 0 ∧
    v1After .bfe 0x30000 0xABCD 0x0404 0 = some 0xFFFFFFFC := by decide +kernel
theorem test_bfi : v1After .bfi 0x70000 0x5 0x0408 0xFFFFFFFF = some 0xFFFFF5FF ∧ v1After .bfi 0x70000 0x5 0x0008 0x77 = some 0x77 ∧
    v1After .maskB 0x70000 0x0408 0 0 = some 0xF00 ∧ v1After .maskB 0x70001 0x0408 0 0 = some 0xFFFFF0FF := by decide +kernel
/- R147. -/
theorem test_counts : v1After .popc 0x70000 0xF0F 0 0 = some 8 ∧ v1After .clz 0x70000 0 0 0 = some 32 ∧ v1After .clz 0x70000 1 0 0 = some 31 ∧
    v1After .brev 0x70000 0x1 0 0 = some 0x80000000 := by decide +kernel
/- R148: the selectors 03020100 and 04050607, a copied sign, a forced zero. -/
theorem test_bswz : v1After .bswz 0x70000 0xA1B2C3D4 0x11223344 0x03020100 = some 0xA1B2C3D4 ∧
    v1After .bswz 0x70000 0xA1B2C3D4 0x11223344 0x04050607 = some 0x44332211 ∧
    v1After .bswz 0x70000 0xA1B2C3D4 0x11223344 0x180B0810 = some 0x00FFFF00 := by decide +kernel
/- R149: (-1)*2 + 1*3 with A signed; sums of absolute differences. -/
theorem test_bdot : v1After .bdot 0x30001 0x01FF 0x0302 10 = some 11 ∧ v1After .bsad 0x40000 0x0105 0x0302 10 = some 15 := by decide +kernel
/- R150: -1 < 1 as S32 and not as N32; AND with p2, which is false. -/
theorem test_isetp : predAfter .isetp { fv with d := .k 65, mod := 0x30002 } 1 0xFFFFFFFF 1 0 = some true ∧
    predAfter .isetp { fv with d := .k 65, mod := 0x40002 } 1 0xFFFFFFFF 1 0 = some false ∧
    predAfter .isetp { fv with d := .k 65, c := .k 66, mod := 0x3000A } 1 0xFFFFFFFF 1 0 = some false := by decide +kernel
/- R151: base + index * 2^s. -/
theorem test_lea : v1After .lea 0x40003 0x100 5 0 = some 0x128 ∧ v1After .sel 0x70000 7 8 0 { fv with c := .k 64 } = some 7 := by decide +kernel
/- R155: MOVH writes imm20 above twelve zeros; ADDI adds a signed imm12. -/
theorem test_constants : v1After .movh 0x12345 0 0 0 = some 0x12345000 ∧ v1After .addi 0x70FFF 5 0 0 = some 4 := by decide +kernel
/- R156, P2V and V2P under a mask. -/
theorem test_predicates : predAfter .pand { fp with mod := 2 } 1 0 0 0 = some true ∧ predAfter .v2p { fv with d := .v 0, mod := 0x6 } 2 4 0 0 = some true ∧
    predAfter .v2p { fv with d := .v 0, mod := 0x6 } 0 4 0 0 = some true ∧ v1After .p2v 0 0 0 0 = some 1 := by decide +kernel
/- R194: 1 + 2^-24 is a tie to even under RNE and rounds up under RUP; infinity less infinity is the default NaN (R195). -/
theorem test_fadd : v1After .fadd 0x80000 0x3F800000 0x33800000 0 = some 0x3F800000 ∧ v1After .fadd 0x86000 0x3F800000 0x33800000 0 = some 0x3F800001 ∧
    v1After .fsub 0x80000 0x7F800000 0x7F800000 0 = some 0x7FC00000 := by decide +kernel
/- One rounding: (1 + 2^-23)(1 - 2^-23) - 1 is -2^-46. -/
theorem test_ffma : v1After .ffma 0x80000 0x3F800001 0x3F7FFFFE 0xBF800000 = some 0xA8800000 ∧
    v1After .fmul 0x80000 0 0x7F800000 0 = some 0x7FC00000 := by decide +kernel
/- R196: -0 below +0, a NaN is ignored. R198: classes. -/
theorem test_fmin : v1After .fmin 0x80000 0 0x80000000 0 = some 0x80000000 ∧ v1After .fmax 0x80000 0x7FC00000 0xBF800000 0 = some 0xBF800000 ∧
    v1After .fclass 0x80000 0x80000001 0 0 = some 8 ∧ v1After .fclass 0x80000 0x7F800000 0 0 = some 256 := by decide +kernel
/- FRND of 2.5 and -0.25 under RNE; FSCALE of 1.0 by -149, the least subnormal. -/
theorem test_frnd : v1After .frnd 0x80000 0x40200000 0 0 = some 0x40000000 ∧ v1After .frnd 0x80000 0xBE800000 0 0 = some 0x80000000 ∧
    v1After .fscale 0x80000 0x3F800000 0xFFFFFF6B 0 = some 1 := by decide +kernel
/- R201: halves on their own: 1.0 + 1.0 and inf - inf in F16. -/
theorem test_hadd2 : v1After .hadd2 0x90000 0x7C003C00 0xFC003C00 0 = some 0x7E004000 := by decide +kernel
/- The table CVT Results in the Worked Set. -/
theorem test_cvt_rne : ∀ x ∈ ([(0x43740000, 0x77), (0x43780000, 0x78), (0xC3960000, 0xF8), (0x3A800000, 0), (0x7FC00000, 0x7C)] : List (Nat × Nat)),
    v1After .cvt 0xB1000 x.1 0 0 { fv with b := .v 0, c := .v 0 } = some x.2 := by decide +kernel
theorem test_cvt_rz : ∀ x ∈ ([(0x43740000, 0x77, 0x7F), (0x43780000, 0x77, 0x7F), (0xC3960000, 0xF7, 0xFFFFFF80), (0x3A800000, 0, 0), (0x7FC00000, 0x7C, 0)] :
    List (Nat × Nat × Nat)), v1After .cvt 0xB5000 x.1 0 0 = some x.2.1 ∧ v1After .cvt 0x11000 x.1 0 0 = some x.2.2 := by decide +kernel
/- R135: a branch of -2 instructions goes 24 bytes back. R76: two instructions lie 12 bytes apart. -/
theorem test_bra : (match exec (.bra { blank with mod := 0xFFFFE }) s1 with
    | .next t => some (t.thread 0).pc.toNat
    | _ => none) = some (0x1000 - 24) := by decide +kernel
theorem test_nop : (match exec (.nop blank) s1 with
    | .next t => some (t.thread 0).pc.toNat
    | _ => none) = some 0x100C := by decide +kernel

end Sys2Proof.Tests
end

section
/-! SUPPORT. A step keeps memory in canonical form. Most operations leave memory alone, and their lemmas say so (`f_mem`); an answer that is
not a pair with a state has a lemma for the case that carries one (`f_ok`). A proof opens the branches of its definition, and the lemmas
of the operations that stand there close each. -/

namespace Sys2Proof.Machine

@[simp] theorem foldl_mem {α : Type} (F : State → α → State) (l : List α) (s : State) (h : ∀ s a, (F s a).mem = s.mem) :
    (l.foldl F s).mem = s.mem := foldl_keeps F State.mem l s fun s a _ => h s a

theorem foldl_snd_mem {α β : Type} (F : α × State → β → α × State) (l : List β) (x : α × State)
    (h : ∀ x b, (F x b).2.mem = x.2.mem) : (l.foldl F x).2.mem = x.2.mem := foldl_keeps F (fun x => x.2.mem) l x fun x b _ => h x b

@[simp] theorem ite_mem (c : Prop) [Decidable c] (a b : State) : (if c then a else b).mem = if c then a.mem else b.mem :=
  apply_ite State.mem c a b

@[simp] theorem ite_snd {α : Type} (c : Prop) [Decidable c] (a b : α × State) : (if c then a else b).2 = if c then a.2 else b.2 :=
  apply_ite Prod.snd c a b

/-- The state of an answer that is known to be a pair. -/
theorem snd_mem {α : Type} {x : α × State} {a : α} {s : State} {m : Memory} (e : x = (a, s)) (h : x.2.mem = m) : s.mem = m := by
  rw [← h, e]

/-! Memory is left alone: tables, records, threads and gangs. -/

@[simp] theorem State.takeId_mem (s : State) : s.takeId.2.mem = s.mem := by simp [State.takeId]

@[simp] theorem State.modCluster_mem (s : State) (c : Nat) (g : Cluster → Cluster) : (s.modCluster c g).mem = s.mem := by
  simp [State.modCluster]

@[simp] theorem State.modSlice_mem (s : State) (k : Nat) (g : Slice → Slice) : (s.modSlice k g).mem = s.mem := by simp [State.modSlice]

@[simp] theorem State.modPart_mem (s : State) (p : Nat) (g : Partition → Partition) : (s.modPart p g).mem = s.mem := by
  simp [State.modPart]

@[simp] theorem State.modEndpoint_mem (s : State) (e : Nat) (g : Endpoint → Endpoint) : (s.modEndpoint e g).mem = s.mem := by
  simp [State.modEndpoint]

@[simp] theorem State.pushRecord_mem (s : State) (r : Record) : (s.pushRecord r).mem = s.mem := by simp [State.pushRecord]

/-- A landing waits or is done: memory is either state's (R400). -/
@[simp] theorem State.orWait_mem (s : State) (core : Nat) (s' : State) (h : s'.mem = s.mem) : (s.orWait core s').mem = s.mem := by
  simp [State.orWait, h]

@[simp] theorem leaveTrap_mem (s : State) (t : Nat) : (leaveTrap s t).mem = s.mem := by simp [leaveTrap]

/-! Memory is left alone: the issue of a group. -/

@[simp] theorem State.withGroup_mem (s : State) (ts : List Nat) : (s.withGroup ts).mem = s.mem := by simp [State.withGroup]

@[simp] theorem runPerGang_mem (run : State → State) (s : State) (h : ∀ s, (run s).mem = s.mem) : (runPerGang run s).mem = s.mem := by
  simp [runPerGang, h]

@[simp] theorem runLegal_mem (op : Nat) (f : Fields) (reason : Nat) (bad : State → Nat → Bool) (run : State → State) (s : State)
    (h : ∀ s, (run s).mem = s.mem) : (runLegal op f reason bad run s).mem = s.mem := by
  simp [runLegal, h]

@[simp] theorem runWrites_mem (op : Nat) (f : Fields) (preds : List Nat) (ws : State → Nat → List Wr) (s : State) :
    (runWrites op f preds ws s).mem = s.mem := by
  simp [runWrites]

@[simp] theorem arrive_mem (op : Nat) (f : Fields) (preds regs : List Nat) (hold : Why) (s : State) :
    (arrive op f preds regs hold s).mem = s.mem :=
  foldl_mem _ _ _ fun _ _ => by split <;> simp

@[simp] theorem State.release_mem (s : State) (ts : List Nat) : (s.release ts).mem = s.mem :=
  foldl_mem _ _ _ fun _ _ => by rfl

/-- A hold that is tested again leaves memory alone: where some thread leaves it, and where all stay and `d` follows. -/
theorem recheck_getD_mem (op : Nat) (f : Fields) (preds regs ts : List Nat) (s d : State) (h : d.mem = s.mem) :
    ((recheck op f preds regs ts s).getD d).mem = s.mem := by
  unfold recheck
  split
  · exact h
  · exact foldl_mem _ _ _ fun _ _ => by split <;> simp

@[simp] theorem perform_mem (op : Nat) (f : Fields) (ts : List Nat) (eff : State → Nat → Eff) (s : State) :
    (perform op f ts eff s).mem = s.mem := by
  simp [perform]

/-! Memory is left alone: collectives. -/

@[simp] theorem collectGang_mem (op : Nat) (f : Fields) (preds : List Nat) (out : Coll → Nat → Label → CollOut) (s : State)
    (g : Nat) : (collectGang op f preds out s g).mem = s.mem := by
  simp [collectGang, recheck_getD_mem]

@[simp] theorem runCollective_mem (op : Nat) (f : Fields) (preds : List Nat) (out : Coll → Nat → Label → CollOut) (s : State) :
    (runCollective op f preds out s).mem = s.mem := by
  simp [runCollective]

@[simp] theorem runShfl_mem (op : Nat) (k : Shfl) (f : Fields) (s : State) : (runShfl op k f s).mem = s.mem := by simp [runShfl]

/-! Memory is left alone: branches. -/

@[simp] theorem runBranch_mem (op : Nat) (f : Fields) (eff : State → Nat → Res) (s : State) : (runBranch op f eff s).mem = s.mem := by
  simp only [runBranch]
  exact (foldl_mem _ _ _ fun _ _ => by rfl).trans (runGroup_mem ..)

/-! Memory is left alone: leases, caches and pieces. -/

@[simp] theorem State.setLineG_mem (s : State) (slice key g : Nat) : (s.setLineG slice key g).mem = s.mem := by simp [State.setLineG]

@[simp] theorem State.grant_mem (s : State) (slice key expiry : Nat) : (s.grant slice key expiry).mem = s.mem := by simp [State.grant]

@[simp] theorem State.cacheLeaf_mem (s : State) (core va : Nat) (l : Leaf) : (s.cacheLeaf core va l).mem = s.mem := by
  simp [State.cacheLeaf]

@[simp] theorem State.cachePieces_mem (s : State) (core : Nat) (ps : List Piece) : (s.cachePieces core ps).mem = s.mem :=
  foldl_mem _ _ _ fun _ _ => by split <;> simp

@[simp] theorem State.useMap_mem (s : State) (r : Region) (i : Nat) : (s.useMap r i).mem = s.mem := by simp [State.useMap]

@[simp] theorem State.atL2_mem (s : State) (part : Nat) (p : Piece) (prio : Nat) : (s.atL2 part p prio).mem = s.mem := by
  simp only [State.atL2]
  split <;> simp

@[simp] theorem State.allAtL2_mem (s : State) (part : Nat) (ps : List Piece) : (s.allAtL2 part ps).mem = s.mem := by simp [State.allAtL2]

@[simp] theorem State.dropL1_mem (s : State) (core part : Nat) (p : Piece) : (s.dropL1 core part p).mem = s.mem := by simp [State.dropL1]

@[simp] theorem readPiece_mem (s : State) (core part : Nat) (p : Piece) (prio : Option Nat) (l1 : Bool) :
    (readPiece s core part p prio l1).2.2.mem = s.mem := by
  simp only [readPiece]
  split
  · simp
  · split
    · simp
    · split <;> simp

@[simp] theorem State.patchL1_mem (s : State) (core : Nat) (key o g : Nat) (bs : List Byte) :
    (s.patchL1 core key o g bs).mem = s.mem := by
  simp [State.patchL1]

@[simp] theorem State.tileWritten_mem (s : State) (core : Option Nat) (part : Nat) (r : Region) (i : Nat) (wrote : Bool) :
    (s.tileWritten core part r i wrote).2.mem = s.mem := by
  unfold State.tileWritten
  split <;> simp

/-! Memory is left alone: messages and release decisions. -/

@[simp] theorem sendNumbered_mem (s : State) (ep : Nat) (o : Out) : (sendNumbered s ep o).mem = s.mem := by simp [sendNumbered]

@[simp] theorem sendPlain_mem (s : State) (ep : Nat) (dest : BitVec 128) (o : Out) : (sendPlain s ep dest o).mem = s.mem := by
  simp [sendPlain]

@[simp] theorem notice_mem (s : State) (ep level detail index : Nat) (payload : List Byte) :
    (notice s ep level detail index payload).mem = s.mem := by
  simp [notice]

@[simp] theorem decideOn_mem (s : State) (part : Nat) (l : Label) (peer : Option Nat) (src bytes : Nat) :
    (decideOn s part l peer src bytes).2.mem = s.mem := by
  unfold decideOn
  split
  · simp
  · split
    · simp
    · split
      · simp
      · split
        · simp
        · split <;> simp

@[simp] theorem logRefusal_mem (s : State) (part : Nat) (e : RefusalEntry) : (logRefusal s part e).mem = s.mem := by simp [logRefusal]

@[simp] theorem release_mem (s : State) (part : Nat) (l : Label) (peer : Option Nat) (src bytes path peerByte : Nat) :
    (release s part l peer src bytes path peerByte).2.mem = s.mem := by
  unfold release
  split
  · next h => simp [snd_mem h (decideOn_mem ..)]
  · next h => simp [snd_mem h (decideOn_mem ..)]

/-! Memory is left alone: the race detector. -/

@[simp] theorem raceReport_mem (s : State) (a : Access) (va sector : Nat) (k : RKind) (e : Shadow) :
    (raceReport s a va sector k e).mem = s.mem := by
  simp [raceReport]

@[simp] theorem raceEntry_mem (s : State) (a : Access) (slice : Nat) (tile : Bool) (key va : Nat) (k : RKind) :
    (raceEntry s a slice tile key va k).mem = s.mem := by
  unfold raceEntry
  split
  · simp
  · split <;> simp

@[simp] theorem raceTile_mem (s : State) (a : Access) (r : Region) (i va : Nat) (k : RKind) : (raceTile s a r i va k).mem = s.mem := by
  simp [raceTile]

@[simp] theorem racePieces_mem (s : State) (a : Access) (ps : List Piece) (k : RKind) : (racePieces s a ps k).mem = s.mem := by
  unfold racePieces
  split
  · exact foldl_mem _ _ _ fun _ _ => by split <;> simp
  · rfl

@[simp] theorem raceTileWrite_mem (s : State) (a : Access) (r : Region) (i : Nat) : (raceTileWrite s a r i).mem = s.mem := by
  simp [raceTileWrite]

@[simp] theorem raceQuery_mem (s : State) (a : Access) (ps : List Piece) : (raceQuery s a ps).mem = s.mem := by
  unfold raceQuery
  split
  · split
    · split <;> simp
    · simp
  · simp

/-! Memory is left alone: accesses. -/

@[simp] theorem State.pinPass_mem (s : State) (a : Access) (ps : List Piece) : (s.pinPass a ps).mem = s.mem := by simp [State.pinPass]

@[simp] theorem State.tileTaken_mem (s : State) (a : Access) : (s.tileTaken a).mem = s.mem := by simp [State.tileTaken]

@[simp] theorem State.landed_mem (s : State) (a : Access) : (s.landed a).mem = s.mem := by simp [State.landed]

@[simp] theorem State.wake_mem (s : State) (a : Access) : (s.wake a).mem = s.mem := by simp [State.wake]

@[simp] theorem fill_mem (s : State) (a : Access) (ws : List Wr) : (fill s a ws).mem = s.mem := by simp [fill]

@[simp] theorem State.sawG_mem (s : State) (t g : Nat) : (s.sawG t g).mem = s.mem := by simp [State.sawG]

@[simp] theorem State.sawFor_mem (s : State) (a : Access) (g : Nat) : (s.sawFor a g).mem = s.mem := by simp [State.sawFor]

@[simp] theorem State.wroteG_mem (s : State) (t g : Nat) : (s.wroteG t g).mem = s.mem := by simp [State.wroteG]

@[simp] theorem migrationNotice_mem (s : State) (part ep va level : Nat) : (migrationNotice s part ep va level).mem = s.mem := by
  simp [migrationNotice]

@[simp] theorem holdAccess_mem (s : State) (id : Nat) (a : Access) (va : Nat) (hostResident : Bool) (level : Nat) :
    (holdAccess s id a va hostResident level).mem = s.mem := by
  simp [holdAccess]

@[simp] theorem holdPass_mem (s : State) (id : Nat) (a : Access) (va : Nat) (hostResident : Bool) (level : Nat) :
    (holdPass s id a va hostResident level).mem = s.mem := by
  simp [holdPass]

@[simp] theorem State.force_mem (s : State) (a : Access) : (s.force a).mem = s.mem :=
  foldl_mem _ _ _ fun _ _ => by simp

@[simp] theorem existPred_mem (s : State) (a : Access) (b : Bool) (l : Label) : (existPred s a b l).mem = s.mem := by simp [existPred]

@[simp] theorem loadFault_mem (s : State) (id : Nat) (a : Access) (reason va : Nat) : (loadFault s id a reason va).mem = s.mem := by
  simp [loadFault]

@[simp] theorem State.remote_mem (s : State) : s.remote.2.2.mem = s.mem := by simp [State.remote]

@[simp] theorem rawPieces_mem (s : State) (part : Nat) (ps : List Piece) : (rawPieces s part ps).2.mem = s.mem :=
  foldl_snd_mem _ _ _ fun _ _ => by split <;> simp

@[simp] theorem coreRead_mem (s : State) (core part : Nat) (ps : List Piece) : (coreRead s core part ps).2.mem = s.mem := by
  simp [coreRead]

@[simp] theorem readAll_mem (s : State) (a : Access) (ps : List Piece) (pick : Pick) : (readAll s a ps pick).2.mem = s.mem := by
  simp only [readAll]
  rw [foldl_snd_mem _ _ _ fun _ _ => by split <;> simp]
  simp

@[simp] theorem finishLoad_mem (s : State) (id : Nat) (a : Access) (ps : List Piece) (bs : List Byte) (g : Nat) :
    (finishLoad s id a ps bs g).mem = s.mem := by
  simp [finishLoad]

@[simp] theorem landLoad_mem (s : State) (id : Nat) (a : Access) (pick : Pick) (x : Nat) : (landLoad s id a pick x).mem = s.mem := by
  unfold landLoad
  split
  · simp
  · simp
  · split
    · simp
    · split
      · rfl
      · dsimp only
        split
        · next h => simp [snd_mem h (readAll_mem ..)]
        · next h => simp [snd_mem h (readAll_mem ..)]

@[simp] theorem landExq_mem (s : State) (id : Nat) (a : Access) (pick : Pick) : (landExq s id a pick).mem = s.mem := by
  unfold landExq
  split
  · simp
  · simp
  · split <;> simp

@[simp] theorem holdLabel_mem (s : State) (id : Nat) (a : Access) (va : Nat) (hostResident : Bool) (level : Nat) :
    (holdLabel s id a va hostResident level).mem = s.mem := by
  simp only [holdLabel]
  split <;> simp

@[simp] theorem landPage_mem (s : State) (id : Nat) (a : Access) (pick : Pick) : (landPage s id a pick).mem = s.mem := by
  simp only [landPage]
  split <;> simp

@[simp] theorem labelStack_mem (s : State) (ps : List Piece) (l : Label) : (labelStack s ps l).mem = s.mem :=
  foldl_mem _ _ _ fun _ _ => by split <;> simp

@[simp] theorem releasePieces_mem (a : Access) (ps : List Piece) (s : State) : (releasePieces a ps s).2.mem = s.mem := by
  induction ps generalizing s with
  | nil => rfl
  | cons p ps ih =>
    simp only [releasePieces]
    split
    · split
      · next h => exact snd_mem h (release_mem ..)
      · next h => exact (ih _).trans (snd_mem h (release_mem ..))
    · exact ih s

/-- A refused write waits in the state before it, or leaves its record in the state that it came to; memory is that state's. -/
@[simp] theorem refuseWrite_mem (s0 s : State) (id : Nat) (a : Access) (kind va : Nat) :
    (refuseWrite s0 s id a kind va).mem = if s0.sfqRoom a.thread then s.mem else s0.mem := by
  cases h : s0.sfqRoom a.thread <;> simp [refuseWrite, h]

@[simp] theorem State.lineEmptied_mem (s : State) (u line : Nat) : (s.lineEmptied u line).mem = s.mem :=
  foldl_mem _ _ _ fun _ _ => by simp

@[simp] theorem fillLds_mem (s : State) (id : Nat) (a : Access) : (fillLds s id a).mem = s.mem := by simp [fillLds]

@[simp] theorem landLds_mem (s : State) (id : Nat) (a : Access) : (landLds s id a).mem = s.mem := by simp [landLds]

@[simp] theorem landSts_mem (s : State) (id : Nat) (a : Access) : (landSts s id a).mem = s.mem := by simp [landSts]

@[simp] theorem landMark_mem (s : State) (id : Nat) (a : Access) : (landMark s id a).mem = s.mem := by simp [landMark]

@[simp] theorem landAtoms_mem (s : State) (id : Nat) (a : Access) : (landAtoms s id a).mem = s.mem := by simp [landAtoms]

/-! Memory is left alone: memory instructions. -/

@[simp] theorem runMem_mem (m : MemOp) (f : Fields) (s : State) : (runMem m f s).mem = s.mem := by simp [runMem]

@[simp] theorem prefetch_mem (f : Fields) (s0 : State) (s : State) (t : Nat) : (prefetch f s0 s t).mem = s.mem := by
  simp only [prefetch]
  split
  · simp
  · split <;> simp

@[simp] theorem runSp_mem (m : SpOp) (f : Fields) (s : State) : (runSp m f s).mem = s.mem := by simp [runSp]

/-! Memory is left alone: gathers, remap tables and codebooks. -/

@[simp] theorem markRow_mem (f : Fields) (s0 : State) (s : State) (t : Nat) : (markRow f s0 s t).mem = s.mem := by simp [markRow]

@[simp] theorem landRow_mem (s : State) (id : Nat) (a : Access) (pick : Pick) : (landRow s id a pick).mem = s.mem := by
  unfold landRow
  split
  · simp
  · rfl
  · split
    · rfl
    · next h => simp [snd_mem h (readAll_mem ..)]

@[simp] theorem State.modRemap_mem (s : State) (u : Nat) (g : Remap → Remap) : (s.modRemap u g).mem = s.mem :=
  foldl_mem _ _ _ fun _ _ => by simp

@[simp] theorem State.keepRemap_mem (s : State) (u : Nat) : (s.keepRemap u).mem = s.mem :=
  foldl_mem _ _ _ fun _ _ => by simp

@[simp] theorem State.takeRemap_mem (s : State) (u launch : Nat) : (s.takeRemap u launch).mem = s.mem :=
  foldl_mem _ _ _ fun _ _ => by simp

@[simp] theorem remapSet_mem (f : Fields) (s0 s : State) (t : Nat) : (remapSet f s0 s t).mem = s.mem := by
  simp only [remapSet]
  split <;> simp

@[simp] theorem runRemap_mem (f : Fields) (s : State) : (runRemap f s).mem = s.mem := by
  simp only [runRemap]
  split <;> simp

theorem readSpan_ok {s s' : State} {a : Access} {va n g : Nat} {pick : Pick} {bs : List Byte} {l : Label}
    (h : readSpan s a va n pick = .ok bs l g s') : s'.mem = s.mem := by
  unfold readSpan at h
  split at h
  · cases h
  · cases h
  · split at h
    · cases h
    · next e => cases h; simp [snd_mem e (readAll_mem ..)]

theorem readTab_ok {s s' : State} {a : Access} {r : Rec} {pick : Pick} {fuel e g g' : Nat} {acc bs : List Byte} {l l' : Label}
    (h : readTab a r pick fuel e acc l g s = .ok bs l' g' s') : s'.mem = s.mem := by
  induction fuel generalizing e acc l g s with
  | zero => cases h; rfl
  | succ fuel ih =>
    simp only [readTab] at h
    split at h
    · exact ih h
    · split at h
      · next e => exact (ih h).trans (readSpan_ok e)
      · next e => exact absurd h (e _ _ _ _)

@[simp] theorem faultAll_mem (s : State) (id : Nat) (a : Access) (reason va : Nat) : (faultAll s id a reason va).mem = s.mem := by
  simp [faultAll]

@[simp] theorem landTab_mem (s : State) (id : Nat) (a : Access) (pick : Pick) : (landTab s id a pick).mem = s.mem := by
  unfold landTab
  split
  · simp
  · split
    · simp
    · simp
    · next h => simp [readTab_ok h]

@[simp] theorem writeBook_mem (s : State) (u slot due : Nat) (b : Codebook) : (writeBook s u slot due b).mem = s.mem :=
  foldl_mem _ _ _ fun _ _ => by simp

@[simp] theorem runCbload_mem (f : Fields) (s : State) : (runCbload f s).mem = s.mem := by
  simp only [runCbload]
  split <;> simp

@[simp] theorem landBook_mem (s : State) (id : Nat) (a : Access) (pick : Pick) : (landBook s id a pick).mem = s.mem := by
  unfold landBook
  split
  · simp
  · split
    · simp
    · split
      · simp
      · simp
      · next h => simp [readSpan_ok h]

/-! Memory is left alone: page tables. -/

@[simp] theorem allocTable_mem (s : State) (part level : Nat) : (allocTable s part level).2.mem = s.mem := by simp [allocTable]

@[simp] theorem State.setFrameLabel_mem (s : State) (part f : Nat) (l : Label) : (s.setFrameLabel part f l).mem = s.mem := by
  simp [State.setFrameLabel]

@[simp] theorem dropL1_mem (s : State) (part : Nat) : (dropL1 s part).mem = s.mem := by simp [dropL1]

@[simp] theorem flushTlb_mem (s : State) (part va n : Nat) : (flushTlb s part va n).mem = s.mem := by simp [flushTlb]

/-! Memory is left alone: levels. -/

@[simp] theorem State.modLevel_mem (s : State) (k : Nat) (g : Level → Level) : (s.modLevel k g).mem = s.mem := by simp [State.modLevel]

@[simp] theorem newLevel_mem (s : State) (x : Level) : (newLevel s x).2.mem = s.mem := by simp [newLevel]

@[simp] theorem lowerLevel_mem (s : State) (k status index : Nat) : (lowerLevel s k status index).mem = s.mem := by simp [lowerLevel]

@[simp] theorem childDone_mem (s : State) (k status index : Nat) : (childDone s k status index).mem = s.mem := by simp [childDone]

@[simp] theorem addChildren_mem (s : State) (k n : Nat) : (addChildren s k n).mem = s.mem := by simp [addChildren]

@[simp] theorem gainChildren_mem (s : State) (k n : Nat) : (gainChildren s k n).mem = s.mem := by simp [gainChildren]

@[simp] theorem failUnstarted_mem (s : State) (k status : Nat) : (failUnstarted s k status).mem = s.mem := by simp [failUnstarted]

@[simp] theorem failJob_mem (s : State) (ep job ident : Nat) : (failJob s ep job ident).mem = s.mem := by
  simp only [failJob]
  split <;> simp

@[simp] theorem levelMessage_mem (s : State) (k : Nat) (x : Level) (status : Nat) : (levelMessage s k x status).mem = s.mem := by
  simp [levelMessage]

@[simp] theorem freeChildren_mem (s : State) (k : Nat) : (freeChildren s k).mem = s.mem := by simp [freeChildren]

@[simp] theorem pruneQueues_mem (s : State) : (pruneQueues s).mem = s.mem := by simp [pruneQueues]

@[simp] theorem cancelUnits_mem (s : State) (launches : List Nat) : (cancelUnits s launches).mem = s.mem := by simp [cancelUnits]

@[simp] theorem dropSaved_mem (s : State) (launches : List Nat) : (dropSaved s launches).mem = s.mem := by simp [dropSaved]

@[simp] theorem stopCopies_mem (s : State) (ls launches : List Nat) : (stopCopies s ls launches).mem = s.mem := by simp [stopCopies]

@[simp] theorem dropEntries_mem (s : State) (ls : List Nat) : (dropEntries s ls).mem = s.mem := by simp [dropEntries]

@[simp] theorem dropBegun_mem (s : State) (ls : List Nat) : (dropBegun s ls).mem = s.mem := by simp [dropBegun]

@[simp] theorem closeJobs_mem (s : State) (ls : List Nat) : (closeJobs s ls).mem = s.mem := by simp [closeJobs]

@[simp] theorem cancelAt_mem (s : State) (k : Nat) : (cancelAt s k).mem = s.mem := by
  simp only [cancelAt, closeJobs_mem, dropBegun_mem]
  rw [foldl_mem _ _ _ fun _ _ => by split <;> simp]
  simp

/-! Memory is left alone: copy commands. -/

@[simp] theorem supplyCopy_mem (op : Nat) (f : Fields) (multicast : Bool) (s : State) (g : Nat) :
    (supplyCopy op f multicast s g).mem = s.mem := by
  simp only [supplyCopy]
  split
  · exact foldl_mem _ _ _ fun _ _ => by rfl
  · split
    · exact foldl_mem _ _ _ fun _ _ => by rfl
    · cases unitCommand s (unitOf g) ((s.gang g).copyCount + 1) with
      | none => dsimp only; split <;> simp
      | some e => dsimp only; split <;> simp

@[simp] theorem runCopy_mem (op : Nat) (f : Fields) (multicast : Bool) (s : State) : (runCopy op f multicast s).mem = s.mem := by
  simp [runCopy]

@[simp] theorem State.returnSlot_mem (s : State) (c : Copy) (r : Nat) : (s.returnSlot c r).mem = s.mem := by
  simp only [State.returnSlot]
  split <;> simp

@[simp] theorem startCommand_mem (s : State) (id : Nat) (c : Copy) : (startCommand s id c).mem = s.mem := by simp [startCommand]

@[simp] theorem markBusy_mem (s : State) (p a : Nat) : (markBusy s p a).mem = s.mem := by simp [markBusy]

@[simp] theorem giveEngine_mem (s : State) (x : Nat × Copy) (e : Nat) : (giveEngine s x e).mem = s.mem := by simp [giveEngine]

theorem chunkSource_ok {s s' : State} {c : Copy} {sl : CopySlice} {n : Nat} {bs : List Byte} {l : Label}
    (h : chunkSource s c sl n = .ok bs l s') : s'.mem = s.mem := by
  unfold chunkSource at h
  dsimp only at h
  split at h
  · split at h
    · cases h
    · cases h
    · split at h
      · cases h
      · next e => cases h; simp [snd_mem e (rawPieces_mem ..)]
  · split at h
    · cases h
    · cases h; rfl

@[simp] theorem releaseChunk_mem (c : Copy) (sl : CopySlice) (ps : List Piece) (l : Label) (s : State) :
    (releaseChunk c sl ps l s).2.mem = s.mem :=
  foldl_snd_mem _ _ _ fun _ _ => by split <;> simp

@[simp] theorem deliverSlot_mem (s : State) (c : Copy) (r v : Nat) (lines : List Nat) : (deliverSlot s c r v lines).mem = s.mem := by
  simp only [deliverSlot]
  split <;> simp

@[simp] theorem chunkToRuns_mem (s : State) (c : Copy) (sl : CopySlice) (o : Nat) (bs : List Byte) (l : Label) :
    (chunkToRuns s c sl o bs l).mem = s.mem := by
  simp [chunkToRuns]

@[simp] theorem holdChunk_mem (s : State) (c : Copy) (va : Nat) (hostResident : Bool) (level : Nat) :
    (holdChunk s c va hostResident level).mem = s.mem := by
  simp [holdChunk]

@[simp] theorem stopCopy_mem (s : State) (id : Nat) (c : Copy) (status : Nat) : (stopCopy s id c status).mem = s.mem := by
  simp [stopCopy]

@[simp] theorem zeroRest_mem (s : State) (c : Copy) : (zeroRest s c).mem = s.mem := by simp [zeroRest]

@[simp] theorem completeCopy_mem (s : State) (id : Nat) (c : Copy) : (completeCopy s id c).mem = s.mem := by
  simp only [completeCopy]
  split <;> simp

/-! Memory is left alone: matrix operations and event queues. -/

@[simp] theorem startMma_mem (op : Nat) (f : Fields) (s0 s : State) (t : Nat) : (startMma op f s0 s t).mem = s.mem := by
  cases h : freeEntry s0 (s0.clusterOf t) with
  | none => simp [startMma, h]
  | some i =>
    simp only [startMma, h]
    exact foldl_mem _ _ _ fun _ _ => by rfl

@[simp] theorem keepBlock_mem (op : Nat) (f : Fields) (s : State) (t : Nat) : (keepBlock op f s t).mem = s.mem := by simp [keepBlock]

@[simp] theorem runMma_mem (op : Nat) (f : Fields) (s : State) : (runMma op f s).mem = s.mem := by
  simp only [runMma]
  split <;> simp

@[simp] theorem writeAccs_mem (o : MmaOp) (s : State) (t : Nat) : (writeAccs o s t).mem = s.mem := by simp [writeAccs]

@[simp] theorem completeMma_mem (s : State) (cluster i : Nat) (o : MmaOp) : (completeMma s cluster i o).mem = s.mem := by
  simp [completeMma]

@[simp] theorem countMready_mem (s : State) (t : Nat) : (countMready s t).mem = s.mem := by simp [countMready]

@[simp] theorem runEvpost_mem (f : Fields) (s : State) : (runEvpost f s).mem = s.mem := by
  simp only [runEvpost]
  split <;> simp

@[simp] theorem popEvent_mem (s : State) (t : Nat) : (popEvent s t).mem = s.mem := by simp [popEvent]

@[simp] theorem runEvpop_mem (op : Nat) (poll : Bool) (f : Fields) (s : State) : (runEvpop op poll f s).mem = s.mem := by simp [runEvpop]

/-! Memory is left alone: variant tables. -/

@[simp] theorem readEntries_mem (s : State) (core part tbl n : Nat) (via : Via) (hs : List Piece) (g : Nat) :
    (readEntries s core part tbl n via hs g).2.mem = s.mem := by
  unfold readEntries
  split
  · rfl
  · rfl
  · split
    · next h => exact snd_mem h (rawPieces_mem ..)
    · next h => exact snd_mem h (rawPieces_mem ..)

@[simp] theorem readTable_mem (s : State) (core part tbl : Nat) (via : Via) : (readTable s core part tbl via).2.mem = s.mem := by
  unfold readTable
  split
  · rfl
  · rfl
  · split
    · next h => exact snd_mem h (rawPieces_mem ..)
    · next h => simp [snd_mem h (rawPieces_mem ..)]

@[simp] theorem enterVariant_mem (s : State) (a : Access) (l : Label) (i : Nat) (e : VEntry) (fallback : Bool) :
    (enterVariant s a l i e fallback).mem = s.mem := by
  simp [enterVariant]

@[simp] theorem State.tableRead_mem (s : State) (a : Access) (pick : Pick) (n : Nat) : (s.tableRead a pick n).mem = s.mem := by
  simp only [State.tableRead]
  split <;> simp

@[simp] theorem landTable_mem (s : State) (id : Nat) (a : Access) (pick : Pick) : (landTable s id a pick).mem = s.mem := by
  simp only [landTable]
  split
  · next h => simp [snd_mem h (readTable_mem ..)]
  · next h => simp [snd_mem h (readTable_mem ..)]
  · next h => split <;> simp [snd_mem h (readTable_mem ..)]

/-! Memory is left alone: launches and graphs. -/

@[simp] theorem State.modQueue_mem (s : State) (p q : Nat) (g : QEntry → Option QEntry) : (s.modQueue p q g).mem = s.mem := by
  simp [State.modQueue]

@[simp] theorem markBegun_mem (s : State) (p q level id : Nat) : (markBegun s p q level id).mem = s.mem := by simp [markBegun]

@[simp] theorem leaveQueue_mem (s : State) (p q level : Nat) : (leaveQueue s p q level).mem = s.mem := by simp [leaveQueue]

@[simp] theorem failEntry_mem (s : State) (e : QEntry) (status index : Nat) : (failEntry s e status index).mem = s.mem := by
  simp [failEntry]

theorem readArgs_ok {s s' : State} {p addr n : Nat} {bs : List Byte} {l : Label} (h : readArgs s p addr n = .ok bs l s') :
    s'.mem = s.mem := by
  unfold readArgs at h
  split at h
  · cases h; rfl
  · split at h
    · cases h
    · split at h
      · cases h
      · cases h
      · split at h
        · cases h
        · next e => cases h; exact snd_mem e (rawPieces_mem ..)

@[simp] theorem startPoint_mem (s : State) (p : Nat) (l : Launch) : (startPoint s p l).2.mem = s.mem := by
  unfold startPoint
  split
  · rfl
  · split
    · next h => exact snd_mem h (readTable_mem ..)
    · next h => exact snd_mem h (readTable_mem ..)
    · next h => split <;> exact snd_mem h (readTable_mem ..)

@[simp] theorem beginLaunch_mem (s : State) (p q : Nat) (e : QEntry) (l : Launch) : (beginLaunch s p q e l).mem = s.mem := by
  simp [beginLaunch]

@[simp] theorem startCopyEntry_mem (s : State) (p q : Nat) (e : QEntry) (b : Bind) : (startCopyEntry s p q e b).mem = s.mem := by
  simp [startCopyEntry]

@[simp] theorem armNodes_mem (g : Nat) (x : Level) (l : List Node) (i : Nat) (acc : Tab Node) (s : State) :
    (armNodes g x l i acc s).2.mem = s.mem := by
  induction l generalizing i acc s with
  | nil => rfl
  | cons n rest ih => simp [armNodes, ih]

@[simp] theorem armGraph_mem (s : State) (g p q phase : Nat) (device : Bool) (l : List Node) :
    (armGraph s g p q phase device l).mem = s.mem := by
  unfold armGraph
  split <;> simp

@[simp] theorem startGraph_mem (s : State) (p q : Nat) (e : QEntry) : (startGraph s p q e).mem = s.mem := by
  simp only [startGraph]
  split
  · simp
  · simp
  · split
    · next h => simp [snd_mem h (rawPieces_mem ..)]
    · next h => split <;> simp [snd_mem h (rawPieces_mem ..)]

@[simp] theorem joinDevice_mem (s : State) (p q : Nat) (e : QEntry) : (joinDevice s p q e).mem = s.mem := by simp [joinDevice]

@[simp] theorem startNode_mem (s : State) (k : Nat) (g : Graph) (i : Nat) (x : Node) (level : Nat) (b : Bind) :
    (startNode s k g i x level b).mem = s.mem := by
  simp [startNode]

@[simp] theorem settleNode_mem (s : State) (k : Nat) (g : Graph) (i : Nat) (x : Node) : (settleNode s k g i x).mem = s.mem := by
  unfold settleNode
  dsimp only
  split
  · rfl
  · exact foldl_mem _ _ _ fun _ _ => by split <;> simp

/-! Memory is left alone: dispatch, accounts and time. -/

@[simp] theorem takeContext_mem (s : State) (launch core : Nat) : (takeContext s launch core).mem = s.mem := by
  simp only [takeContext]
  split <;> simp

@[simp] theorem createGang_mem (launch : Nat) (l : Launch) (ceiling stack : Nat) (s : State) (g : Nat) :
    (createGang launch l ceiling stack s g).mem = s.mem :=
  foldl_mem _ _ _ fun _ _ => by simp

@[simp] theorem enterUnit_mem (s : State) (u : Nat) (x : Unit) : (enterUnit s u x).mem = s.mem := by simp [enterUnit]

@[simp] theorem createUnit_mem (s : State) (x : Spot) (launch unitid run stack : Nat) :
    (createUnit s x launch unitid run stack).2.mem = s.mem := by
  simp [createUnit]

@[simp] theorem restartGang_mem (old : Saved) (u : Nat) (s : State) (i : Nat) : (restartGang old u s i).mem = s.mem := by
  unfold restartGang
  dsimp only
  split
  · exact foldl_mem _ _ _ fun _ _ => by rfl
  · split
    · exact foldl_mem _ _ _ fun _ _ => by rfl
    · rfl

@[simp] theorem resumeCore_mem (x : Saved) (s : State) (core : Nat) : (resumeCore x s core).mem = s.mem := by simp [resumeCore]

@[simp] theorem resumeGang_mem (u launch : Nat) (s : State) (e : Nat × Gang) : (resumeGang u launch s e).mem = s.mem := by
  simp [resumeGang]

@[simp] theorem State.clearL1_mem (s : State) (core : Nat) : (s.clearL1 core).mem = s.mem :=
  foldl_mem _ _ _ fun _ _ => by simp

@[simp] theorem resumeUnit_mem (s : State) (x : Spot) (old : Saved) (run : Nat) : (resumeUnit s x old run).mem = s.mem := by
  simp only [resumeUnit]
  iterate 7 refine (foldl_mem _ _ _ fun _ _ => by simp).trans ?_
  exact enterUnit_mem ..

@[simp] theorem dispatchFresh_mem (s : State) (x : Spot) (launch run stack : Nat) : (dispatchFresh s x launch run stack).mem = s.mem := by
  simp [dispatchFresh]

@[simp] theorem dispatchRestart_mem (s : State) (x : Spot) (id : Nat) (old : Saved) (run stack : Nat) :
    (dispatchRestart s x id old run stack).mem = s.mem := by
  simp [dispatchRestart]

@[simp] theorem dispatchAt_mem (s : State) (x : Spot) : (dispatchAt s x).mem = s.mem := by
  simp only [dispatchAt]
  split
  · simp
  · split
    · split <;> simp
    · simp
  · simp

@[simp] theorem endFusion_mem (s : State) (cl : Nat) : (endFusion s cl).mem = s.mem :=
  foldl_mem _ _ _ fun _ _ => by simp

@[simp] theorem dropContext_mem (s : State) (launch core : Nat) : (dropContext s launch core).mem = s.mem := by simp [dropContext]

@[simp] theorem releaseUnit_mem (s : State) (u : Nat) : (releaseUnit s u).mem = s.mem := by
  simp only [releaseUnit]
  refine (foldl_mem _ _ _ fun _ _ => by simp).trans ?_
  exact foldl_mem _ _ _ fun _ _ => by rfl

@[simp] theorem endUnit_mem (s : State) (u : Nat) : (endUnit s u).mem = s.mem := by simp [endUnit]

@[simp] theorem refillPart_mem (s : State) (p : Nat) : (refillPart s p).mem = s.mem := by simp [refillPart]

@[simp] theorem noteRequestsOf_mem (s : State) (p : Nat) : (noteRequestsOf s p).mem = s.mem := by simp [noteRequestsOf]

@[simp] theorem noteRequests_mem (s : State) : (noteRequests s).mem = s.mem := by simp [noteRequests]

@[simp] theorem drawTokens_mem (s : State) (p a : Nat) : (drawTokens s p a).mem = s.mem := by simp [drawTokens]

@[simp] theorem chargeAccount_mem (s : State) (p a n : Nat) : (chargeAccount s p a n).mem = s.mem := by simp [chargeAccount]

@[simp] theorem advance_mem (s : State) (dt : Nat) : (advance s dt).mem = s.mem := by simp [advance]

/-! Memory is left alone: fences, barriers and children. -/

@[simp] theorem publishAll_mem (scope : Nat) (s : State) (ts : List Nat) : (publishAll scope s ts).mem = s.mem :=
  foldl_mem _ _ _ fun _ _ => by simp

@[simp] theorem blockAll_mem (w : Why) (s : State) (ts : List Nat) : (blockAll w s ts).mem = s.mem :=
  foldl_mem _ _ _ fun _ _ => by simp

@[simp] theorem deliverAll_mem (pc : Pc) (s : State) (ts : List Nat) : (deliverAll pc s ts).mem = s.mem := by simp [deliverAll]

@[simp] theorem markPast_mem (b : Bool) (s : State) (ts : List Nat) : (markPast b s ts).mem = s.mem :=
  foldl_mem _ _ _ fun _ _ => by simp

@[simp] theorem arriveBar_mem (op : Nat) (f : Fields) (waits : Bool) (s : State) (g : Nat) : (arriveBar op f waits s g).mem = s.mem := by
  simp only [arriveBar]
  split <;> simp

@[simp] theorem waitBar_mem (f : Fields) (s : State) (g : Nat) : (waitBar f s g).mem = s.mem := by simp [waitBar]

@[simp] theorem runBar_mem (op : Nat) (f : Fields) (act : State → Nat → State) (s : State) (h : ∀ s g, (act s g).mem = s.mem) :
    (runBar op f act s).mem = s.mem := by
  simp [runBar, h]

@[simp] theorem completePhase_mem (s : State) (u k : Nat) : (completePhase s u k).mem = s.mem := by simp [completePhase]

@[simp] theorem takeChild_mem (s : State) (core e level unit : Nat) (nr : Bool) (l : Label) :
    (takeChild s core e level unit nr l).2.mem = s.mem := by
  simp [takeChild]

@[simp] theorem runStart_mem (op : Nat) (kind : AKind) (f : Fields) (s : State) : (runStart op kind f s).mem = s.mem := by
  simp [runStart]

@[simp] theorem startFault_mem (s : State) (id : Nat) (a : Access) (reason va : Nat) : (startFault s id a reason va).mem = s.mem := by
  simp [startFault]

@[simp] theorem startDone_mem (s : State) (id : Nat) (a : Access) (h : Word) (l : Label) : (startDone s id a h l).mem = s.mem := by
  simp [startDone]

@[simp] theorem landLaunch_mem (s : State) (id : Nat) (a : Access) (pick : Pick) : (landLaunch s id a pick).mem = s.mem := by
  unfold landLaunch
  dsimp only
  split
  · simp
  · simp
  · split
    · next h => simp [snd_mem h (coreRead_mem ..)]
    · next h _ _ => simp [snd_mem h (coreRead_mem ..)]
    · rfl

@[simp] theorem armImage_mem (s : State) (id : Nat) (a : Access) (e g : Nat) (head body : List Byte) (l : Label) :
    (armImage s id a e g head body l).mem = s.mem := by
  simp only [armImage]
  split <;> simp

@[simp] theorem landGarm_mem (s : State) (id : Nat) (a : Access) (pick : Pick) : (landGarm s id a pick).mem = s.mem := by
  unfold landGarm
  dsimp only
  split
  · simp
  · simp
  · split
    · next h => simp [snd_mem h (coreRead_mem ..)]
    · next h =>
      have hs := snd_mem h (coreRead_mem ..)
      split
      · simp
      · simp
      · split
        · next h2 => simp [snd_mem h2 (coreRead_mem ..), hs]
        · next h2 _ _ => simp [snd_mem h2 (coreRead_mem ..), hs]
        · rfl

@[simp] theorem freeRead_mem (f : Fields) (s0 s : State) (t : Nat) : (freeRead f s0 s t).mem = s.mem := by
  unfold freeRead
  split
  · split <;> simp
  · simp

/-! Memory is left alone: EGRESS, regions and termination. -/

@[simp] theorem decideEgress_mem (s : State) (a : Access) (l : Label) : (decideEgress s a l).2.mem = s.mem := by
  simp only [decideEgress]
  split <;> simp

@[simp] theorem landEgress_mem (s : State) (id : Nat) (a : Access) (pick : Pick) : (landEgress s id a pick).mem = s.mem := by
  unfold landEgress
  dsimp only
  split
  · simp
  · simp
  · split
    · next h => simp [snd_mem h (readAll_mem ..)]
    · next h => split <;> simp [snd_mem h (readAll_mem ..)]

@[simp] theorem enterRegion_mem (f : Fields) (s : State) (g : Nat) : (enterRegion f s g).mem = s.mem := by simp [enterRegion]

@[simp] theorem leaveRegion_mem (f : Fields) (s : State) (g : Nat) : (leaveRegion f s g).mem = s.mem := by simp [leaveRegion]

@[simp] theorem releaseRegion_mem (s : State) (u : Nat) : (releaseRegion s u).mem = s.mem := by simp [releaseRegion]

@[simp] theorem commitRegion_mem (s : State) (u : Nat) : (commitRegion s u).mem = s.mem := by
  simp only [commitRegion, releaseRegion_mem, State.modUnit_mem]
  exact foldl_mem _ _ _ fun _ _ => by rfl

@[simp] theorem stopUnitCopies_mem (s : State) (u : Nat) : (stopUnitCopies s u).mem = s.mem := by simp [stopUnitCopies]

@[simp] theorem abortUnit_mem (s : State) (u : Nat) (wanted : Bool) : (abortUnit s u wanted).mem = s.mem := by simp [abortUnit]

@[simp] theorem State.popRecord_mem (s : State) (g : Nat) : (s.popRecord g).mem = s.mem := by simp [State.popRecord]

@[simp] theorem runSfqpop_mem (f : Fields) (s : State) : (runSfqpop f s).mem = s.mem := by
  simp only [runSfqpop]
  split <;> simp

@[simp] theorem haltUnit_mem (f : Fields) (ts : List Nat) (pc : Pc) (s : State) (u : Nat) : (haltUnit f ts pc s u).mem = s.mem := by
  simp [haltUnit]

/-! Memory is left alone: landings. -/

@[simp] theorem landValue_mem (s : State) (id : Nat) (a : Access) (pick : Pick) (x : Nat) : (landValue s id a pick x).mem = s.mem := by
  simp only [landValue]
  split <;> simp

@[simp] theorem landExact_mem (s : State) (id : Nat) (a : Access) : (landExact s id a).mem = s.mem := by simp [landExact]

/-! Memory is left alone: saved work and disabling. -/

@[simp] theorem quiesceUnit_mem (s : State) (u : Nat) : (quiesceUnit s u).mem = s.mem := by simp [quiesceUnit]

@[simp] theorem quiesceJob_mem (s : State) (ep j : Nat) (x : Job) : (quiesceJob s ep j x).mem = s.mem := by simp [quiesceJob]

@[simp] theorem dropStarts_mem (s : State) (u : Nat) : (dropStarts s u).mem = s.mem := by simp [dropStarts]

@[simp] theorem saveUnit_mem (s0 : State) (u : Nat) : (saveUnit s0 u).mem = s0.mem := by simp [saveUnit]

@[simp] theorem quiesceStart_mem (s : State) (q : Quiesce) : (quiesceStart s q).mem = s.mem := by
  unfold quiesceStart
  split
  · simp
  · split <;> simp

@[simp] theorem resumeJob_mem (s : State) (ep j : Nat) (x : Job) : (resumeJob s ep j x).mem = s.mem :=
  foldl_mem _ _ _ fun _ _ => by simp

@[simp] theorem cancelJobAs_mem (s : State) (k status : Nat) : (cancelJobAs s k status).mem = s.mem := by simp [cancelJobAs]

@[simp] theorem disableJob_mem (s : State) (ep j : Nat) (x : Job) : (disableJob s ep j x).mem = s.mem := by simp [disableJob]

@[simp] theorem finishDisable_mem (s : State) (ep : Nat) : (finishDisable s ep).mem = s.mem := by simp [finishDisable]

/-! Memory is left alone: commands. -/

@[simp] theorem acknowledge_mem (s : State) (m : Message) (status : Nat) : (acknowledge s m status).mem = s.mem := by simp [acknowledge]

@[simp] theorem complete_mem (s : State) (ep hseq tag : Nat) (r : Reply) : (complete s ep hseq tag r).mem = s.mem := by simp [complete]

@[simp] theorem answer_mem (s : State) (m : Message) (r : Reply) : (answer s m r).mem = s.mem := by simp [answer]

@[simp] theorem noteAccepted_mem (s : State) (m : Message) : (noteAccepted s m).mem = s.mem := by simp [noteAccepted]

@[simp] theorem sequenceNotice_mem (s : State) (m : Message) (status detail : Nat) : (sequenceNotice s m status detail).mem = s.mem := by
  simp [sequenceNotice]

@[simp] theorem runShort_mem (m : Message) (s : State) : (runShort m s).mem = s.mem := by simp [runShort]

@[simp] theorem noteSender_mem (s : State) (m : Message) : (noteSender s m).mem = s.mem := by simp [noteSender]

@[simp] theorem actQueryState_mem (m : Message) (s : State) : (actQueryState m s).2.mem = s.mem := by simp [actQueryState]

@[simp] theorem actReplay_mem (m : Message) (s : State) : (actReplay m s).2.mem = s.mem := by
  simp only [actReplay]
  split
  · simp
  · split <;> simp

/-! Memory is left alone: floating point. -/

@[simp] theorem runScalar_mem (op : Nat) (x : FOp) (f : Fields) (s : State) : (runScalar op x f s).mem = s.mem := by simp [runScalar]

@[simp] theorem runPacked_mem (op : Nat) (x : FOp) (f : Fields) (s : State) : (runPacked op x f s).mem = s.mem := by simp [runPacked]

/-! Memory is left alone: conversions. -/

@[simp] theorem runSpecial_mem (op : Nat) (fn : Fn) (f : Fields) (s : State) : (runSpecial op fn f s).mem = s.mem := by simp [runSpecial]

/-! Memory is left alone: predicate logic. -/

@[simp] theorem runLogic_mem (op : Nat) (f : Fields) (g : Bool → Bool → Bool) (s : State) : (runLogic op f g s).mem = s.mem := by
  simp [runLogic]

/-! Memory is left alone: jobs. -/

@[simp] theorem State.setJob_mem (s : State) (ep j : Nat) (x : Job) : (s.setJob ep j x).mem = s.mem := by simp [State.setJob]

@[simp] theorem newPhase_mem (s : State) (ep job number : Nat) (isFailed : Bool) : (newPhase s ep job number isFailed).2.mem = s.mem := by
  simp [newPhase]

@[simp] theorem openNewJob_mem (s : State) (ep j : Nat) : (openNewJob s ep j).mem = s.mem := by simp [openNewJob]

@[simp] theorem actJobOpen_mem (m : Message) (s : State) : (actJobOpen m s).2.mem = s.mem := by simp [actJobOpen]

@[simp] theorem closeLevel_mem (s : State) (k : Nat) : (closeLevel s k).mem = s.mem := by simp [closeLevel]

@[simp] theorem actJobClose_mem (m : Message) (s : State) : (actJobClose m s).2.mem = s.mem := by
  simp only [actJobClose]
  split <;> simp

@[simp] theorem actPhaseNext_mem (m : Message) (s : State) : (actPhaseNext m s).2.mem = s.mem := by
  simp only [actPhaseNext]
  split <;> simp

@[simp] theorem actSaveArea_mem (m : Message) (s : State) : (actSaveArea m s).2.mem = s.mem := by
  unfold actSaveArea
  split <;> simp

@[simp] theorem actQueueConfig_mem (m : Message) (s : State) : (actQueueConfig m s).2.mem = s.mem := by simp [actQueueConfig]

@[simp] theorem entryLevel_mem (s : State) (ep job phase : Nat) (b : List Byte) (isCancelled : Bool) :
    (entryLevel s ep job phase b isCancelled).2.mem = s.mem := by
  simp [entryLevel]

@[simp] theorem askAbove_mem (s : State) (x : Job) (b : List Byte) : (askAbove s x b).mem = s.mem := by simp [askAbove]

@[simp] theorem appendEntry_mem (ep p q : Nat) (x : Job) (isCancelled : Bool) (s : State) (b : List Byte) :
    (appendEntry ep p q x isCancelled s b).mem = s.mem := by
  simp [appendEntry]

@[simp] theorem actSubmit_mem (m : Message) (s : State) : (actSubmit m s).2.mem = s.mem := by
  unfold actSubmit
  split
  · simp
  · split
    · simp
    · split
      · simp
      · split <;> simp

@[simp] theorem actCancel_mem (m : Message) (s : State) : (actCancel m s).2.mem = s.mem := by
  simp only [actCancel]
  split
  · simp
  · split
    · simp
    · split
      · simp
      · split <;> simp

@[simp] theorem actStatusWindowRead_mem (m : Message) (s : State) : (actStatusWindowRead m s).2.mem = s.mem := by
  simp [actStatusWindowRead]

/-! Memory is left alone: host transfers. -/

@[simp] theorem labelFrames_mem (s : State) (part : Nat) (l : Label) (ps : List Piece) : (labelFrames s part l ps).mem = s.mem := by
  simp [labelFrames]

@[simp] theorem writeRing_mem (s : State) (part a : Nat) (bs : List Byte) : (writeRing s part a bs).mem = s.mem := by simp [writeRing]

@[simp] theorem actMemRead_mem (m : Message) (s : State) : (actMemRead m s).2.mem = s.mem := by
  simp only [actMemRead]
  iterate 3 (split; · rfl)
  split
  · rfl
  · split
    · next h => exact snd_mem h (release_mem ..)
    · next h => exact snd_mem h (release_mem ..)

/-! Memory is left alone: the request ring. -/

@[simp] theorem refuseRequest_mem (s : State) (p reason : Nat) : (refuseRequest s p reason).mem = s.mem := by simp [refuseRequest]

@[simp] theorem startShoot_mem (s : State) (p slot : Nat) (r : Request) : (startShoot s p slot r).mem = s.mem := by simp [startShoot]

@[simp] theorem checkTail_mem (s : State) (p : Nat) : (checkTail s p).mem = s.mem := by simp [checkTail]

@[simp] theorem forgetNotice_mem (s : State) (p va : Nat) : (forgetNotice s p va).mem = s.mem := by simp [forgetNotice]

@[simp] theorem noteResends_mem (s : State) (p : Nat) (r : Request) : (noteResends s p r).mem = s.mem := by simp [noteResends]

@[simp] theorem finishShoot_mem (s : State) (p slot va n : Nat) : (finishShoot s p slot va n).mem = s.mem := by simp [finishShoot]

@[simp] theorem resendNotice_mem (s : State) (p key : Nat) : (resendNotice s p key).mem = s.mem := by
  simp only [resendNotice]
  split <;> simp

/-! Memory is left alone: Teasel's tables. -/

@[simp] theorem teaselRecord_mem (f : RecordForm) (allowed : State → Nat → List Byte → Bool)
    (install : Partition → List Byte → Partition) (m : Message) (s : State) :
    (teaselRecord f allowed install m s).2.mem = s.mem := by
  simp only [teaselRecord]
  split
  · simp
  · split <;> simp

@[simp] theorem actTeaselTableRead_mem (m : Message) (s : State) : (actTeaselTableRead m s).2.mem = s.mem := by
  simp only [actTeaselTableRead]
  split <;> simp

/-! Memory is left alone: partitions and boot. -/

@[simp] theorem writeEnable_mem (mask : Nat) (s : State) (n : Nat) : (writeEnable mask s n).mem = s.mem := by simp [writeEnable]

@[simp] theorem actEndpointEnable_mem (m : Message) (s : State) : (actEndpointEnable m s).2.mem = s.mem := by simp [actEndpointEnable]

@[simp] theorem actReconfigure_mem (m : Message) (s : State) : (actReconfigure m s).2.mem = s.mem := by
  unfold actReconfigure
  split
  · simp
  · split <;> simp

@[simp] theorem finishReconf_mem (s : State) : (finishReconf s).mem = s.mem := by
  simp only [finishReconf]
  split <;> simp

@[simp] theorem entryApplied_mem (s : State) : (entryApplied s).mem = s.mem := by
  simp only [entryApplied]
  split <;> simp

@[simp] theorem removePart_mem (s : State) (p : Nat) : (removePart s p).mem = s.mem := by simp [removePart]

@[simp] theorem moveEngines_mem (s : State) (p mask : Nat) : (moveEngines s p mask).mem = s.mem := by simp [moveEngines]

@[simp] theorem actReplacementImage_mem (m : Message) (s : State) : (actReplacementImage m s).2.mem = s.mem := by
  simp [actReplacementImage]

@[simp] theorem giveAddresses_mem (r : ConfigRecord) (s : State) : (giveAddresses r s).mem = s.mem := by simp [giveAddresses]

@[simp] theorem actConfigurationRecord_mem (m : Message) (s : State) : (actConfigurationRecord m s).2.mem = s.mem := by
  simp only [actConfigurationRecord]
  split
  · simp
  · split
    · simp
    · split <;> simp

@[simp] theorem actNonce_mem (m : Message) (s : State) : (actNonce m s).2.mem = s.mem := by simp [actNonce]

@[simp] theorem actWindow_mem (bs : Boot → List Byte) (m : Message) (s : State) : (actWindow bs m s).2.mem = s.mem := by
  simp only [actWindow]
  split <;> simp

/-! Memory is left alone: power and remote accesses. -/

@[simp] theorem disturbClusters_mem (s : State) (cls : List Nat) : (disturbClusters s cls).mem = s.mem := by simp [disturbClusters]

@[simp] theorem settleCounts_mem (s s' : State) (cls : List Nat) : (settleCounts s s' cls).mem = s'.mem := by
  simp [settleCounts]

@[simp] theorem setReady_mem (s : State) (slice : Nat) (b : Bool) : (setReady s slice b).mem = s.mem := by simp [setReady]

@[simp] theorem castVote_mem (s : State) (slice vote : Nat) : (castVote s slice vote).mem = s.mem := by simp [castVote]

@[simp] theorem gateCores_mem (s : State) (slice : Nat) : (gateCores s slice).mem = s.mem := by simp [gateCores]

@[simp] theorem pauseSlice_mem (s : State) (slice : Nat) : (pauseSlice s slice).mem = s.mem := by simp [pauseSlice]

@[simp] theorem setPassCode_mem (s : State) (cluster code : Nat) : (setPassCode s cluster code).mem = s.mem := by simp [setPassCode]

@[simp] theorem stepCount_mem (s : State) (cluster code : Nat) : (stepCount s cluster code).mem = s.mem := by simp [stepCount]

@[simp] theorem thresholdNotice_mem (s : State) (launch code n : Nat) : (thresholdNotice s launch code n).mem = s.mem := by
  simp [thresholdNotice]

@[simp] theorem State.reply_mem (s : State) (dest : BitVec 128) (data : Option (List Byte)) : (s.reply dest data).mem = s.mem := by
  simp [State.reply]

@[simp] theorem serveRelease_mem (s : State) (r : RemoteAccess) (va : Nat) (ps : List Piece) :
    (serveRelease s r va ps).2.mem = s.mem := by
  simp [serveRelease]

@[simp] theorem serveLoad_mem (s : State) (r : RemoteAccess) (va : Nat) (ps : List Piece) : (serveLoad s r va ps).mem = s.mem := by
  unfold serveLoad
  split
  · next h => simp [snd_mem h (serveRelease_mem ..)]
  · next h => simp [snd_mem h (serveRelease_mem ..)]

/-! Memory is left alone: the turn of a core. -/

@[simp] theorem swapGangs_mem (s : State) (out into : Nat) : (swapGangs s out into).mem = s.mem :=
  foldl_mem _ _ _ fun _ _ => by simp

@[simp] theorem updateTable_mem (s : State) (core : Nat) : (updateTable s core).mem = s.mem := by simp [updateTable]

@[simp] theorem refresh_mem (s : State) (core : Nat) : (refresh s core).mem = s.mem := by
  unfold refresh
  split
  · rfl
  · exact (foldl_mem _ _ _ fun _ _ => by rfl).trans (updateTable_mem s core)

@[simp] theorem State.takeEntry_mem (s : State) (core : Nat) (ts : List Nat) : (s.takeEntry core ts).mem = s.mem := by
  simp [State.takeEntry]

@[simp] theorem latch_mem (s : State) (core : Nat) (ts : List Nat) : (latch s core ts).mem = s.mem := by simp [latch]

@[simp] theorem occupyPort_mem (gs : List Nat) (s : State) : (occupyPort gs s).mem = s.mem := by simp [occupyPort]

@[simp] theorem occupy_mem (i : Option Instr) (s : State) : (occupy i s).mem = s.mem := by
  simp only [occupy]
  split <;> simp

@[simp] theorem dropCancelled_mem (s : State) : (dropCancelled s).mem = s.mem := by simp [dropCancelled]

@[simp] theorem enterHandlers_mem (s : State) : (enterHandlers s).mem = s.mem := by simp [enterHandlers]

@[simp] theorem holdFetch_mem (s : State) (va : Nat) (hostResident : Bool) (level : Nat) :
    (holdFetch s va hostResident level).mem = s.mem := by
  simp [holdFetch]

@[simp] theorem trapGroup_mem (s : State) (kind : Nat) (info : Word) (word : Option (Nat × Fields)) :
    (trapGroup s kind info word).mem = s.mem := by
  simp [trapGroup]

/-! Memory is left alone: integer and bit instructions. -/

@[simp] theorem runInt_mem (op : Nat) (f : Fields) (sat : Bool) (g : Int → Int → Int → Int) (s : State) :
    (runInt op f sat g s).mem = s.mem := by
  simp [runInt]

@[simp] theorem runNat_mem (op : Nat) (f : Fields) (g : State → Nat → Nat) (s : State) : (runNat op f g s).mem = s.mem := by
  simp [runNat]

@[simp] theorem runWord_mem (op : Nat) (f : Fields) (g : State → Nat → Word) (s : State) : (runWord op f g s).mem = s.mem := by
  simp [runWord]

@[simp] theorem runCarry_mem (op : Nat) (add : Bool) (f : Fields) (s : State) : (runCarry op add f s).mem = s.mem := by simp [runCarry]

@[simp] theorem runBits_mem (op : Nat) (f : Fields) (g : DWord → DWord → DWord → DWord) (s : State) :
    (runBits op f g s).mem = s.mem := by
  simp [runBits]

/-! Memory is left alone: the step. -/

/-- What holds of every advance of the time holds of a pass. The definition is opened unapplied: the kernel, asked whether `pass s dt` is
its `match`, would compute `nextMoment s` and count up the numerals in it. -/
theorem pass_advances (P : Bool × State → Prop) (s : State) (dt : Nat) (h : ∀ b n, P (b, advance s n)) : P (pass s dt) := by
  have e : pass = pass := rfl
  conv_rhs at e => delta pass
  rw [e]
  beta_reduce
  generalize nextMoment s = o
  cases o with
  | none => exact h ..
  | some t => dsimp only; split <;> exact h ..

@[simp] theorem pass_mem (s : State) (dt : Nat) : (pass s dt).2.mem = s.mem :=
  pass_advances (fun r => r.2.mem = s.mem) s dt fun _ n => advance_mem s n

theorem heldMessage_mem {s s' : State} {m : Message} (h : heldMessage s = some (m, s')) : s'.mem = s.mem := by
  unfold heldMessage at h
  split at h
  · cases h; rfl
  · cases h

end Sys2Proof.Machine
end

section
/-! SUPPORT. The operations that write memory keep its canonical form (`f_wf`): all of them come down to `Memory.write`, `Memory.put` and
`Memory.clear`. -/

namespace Sys2Proof.Machine

/-- A pass over a list keeps the canonical form where each step does. -/
theorem foldl_wf {α : Type} (F : State → α → State) (l : List α) (s : State) (h : s.mem.wf = true)
    (hF : ∀ s a, s.mem.wf = true → (F s a).mem.wf = true) : (l.foldl F s).mem.wf = true := by
  induction l generalizing s with
  | nil => exact h
  | cons a l ih => exact ih _ (hF s a h)

theorem wf_of_mem {s s' : State} (h : s.mem.wf = true) (e : s'.mem = s.mem) : s'.mem.wf = true := by rw [e]; exact h

@[simp] theorem ite_wf (c : Prop) [Decidable c] (a b : Memory) : (if c then a else b).wf = if c then a.wf else b.wf :=
  apply_ite Memory.wf c a b

/-! Canonical form: births, erasures and the pieces of a write. -/

@[simp] theorem State.setH_wf (s : State) (r : Region) (h : HFields) (hs : s.mem.wf = true) : (s.setH r h).mem.wf = true := by
  have put (m : Memory) (hm : m.wf = true) (o x y : Nat) : (if x = y then m else m.write (r.desc + o) (leBytes 4 y)).wf = true := by
    simp [hm, Memory.wf_write]
  exact put _ (put _ (put _ hs _ _ _) _ _ _) _ _ _

theorem setMapBit_wf (m : Memory) (r : Region) (i : Nat) (b : Bool) (h : m.wf = true) : (setMapBit m r i b).wf = true :=
  Memory.wf_put _ _ _ h

/-- A tile taken for a birth: its pattern, its number and its map bit are written. -/
theorem birthWrites_wf (s : State) (core : Option Nat) (part : Nat) (r : Region) (i a b : Nat) (bs cs : List Byte) (h : HFields)
    (hs : s.mem.wf = true) :
    (((s.setMem (setMapBit ((s.mem.write a bs).write b cs) r i true)).setH r h).tileWritten core part r i true).2.mem.wf = true := by
  rw [State.tileWritten_mem]
  exact State.setH_wf _ _ _ (setMapBit_wf _ _ _ _ (Memory.wf_write _ _ _ (Memory.wf_write _ _ _ hs)))

/-- A birth takes a tile of the free list or a fresh one, or counts its failure (R258, R264). -/
@[simp] theorem birth_wf (s : State) (core : Option Nat) (part : Nat) (r : Region) (i : Nat) (h : s.mem.wf = true) :
    (birth s core part r i).2.mem.wf = true := by
  have ht := birthWrites_wf (s.useMap r i) core part r i
  have hs := State.setH_wf (s.useMap r i) r
  simp only [birth, ite_snd]
  repeat' split
  all_goals simp_all

@[simp] theorem erase_wf (s : State) (core : Option Nat) (part : Nat) (r : Region) (i : Nat) (h : s.mem.wf = true) :
    (erase s core part r i).2.mem.wf = true := by
  simp only [erase]
  split
  · rw [State.tileWritten_mem]
    exact State.setH_wf _ _ _ (setMapBit_wf _ _ _ _ (Memory.wf_write _ _ _ h))
  · simp [h]

@[simp] theorem birthPiece_wf (s : State) (core : Option Nat) (part : Nat) (p : Piece) (h : s.mem.wf = true) :
    (birthPiece s core part p).2.mem.wf = true := by
  unfold birthPiece
  split
  · simp [h]
  · exact h

@[simp] theorem writePiece_wf (s : State) (core : Option Nat) (part : Nat) (p : Piece) (bs : List Byte) (h : s.mem.wf = true) :
    (writePiece s core part p bs).2.mem.wf = true := by
  unfold writePiece
  split
  · exact h
  · exact h
  · split
    · exact h
    · cases core <;> simp [h, Memory.wf_write]

@[simp] theorem writePieces_wf (s : State) (core : Option Nat) (part : Nat) (ps : List Piece) (bs : List Byte) (h : s.mem.wf = true) :
    (writePieces s core part ps bs).2.mem.wf = true := by
  unfold writePieces
  dsimp only
  generalize s.time = g
  induction ps generalizing s bs g with
  | nil => exact h
  | cons p ps ih => exact ih _ _ (writePiece_wf _ _ _ _ _ h) _

@[simp] theorem writeBorn_wf (core : Option Nat) (part : Nat) (ps : List Piece) (bs : List Byte) (g : Nat) (s : State)
    (h : s.mem.wf = true) : (writeBorn core part ps bs g s).2.2.mem.wf = true := by
  induction ps generalizing bs g s with
  | nil => exact h
  | cons p ps ih =>
    have hb := birthPiece_wf s core part p h
    simp only [writeBorn]
    split
    · next e => rw [e] at hb; exact hb
    · next e => rw [e] at hb; exact ih _ _ _ (writePiece_wf _ _ _ _ _ hb)

@[simp] theorem writeHost_wf (part : Nat) (ps : List Piece) (bs : List Byte) (s : State) (h : s.mem.wf = true) :
    (writeHost part ps bs s).2.mem.wf = true := by
  induction ps generalizing bs s with
  | nil => exact h
  | cons p ps ih =>
    have hb := birthPiece_wf s none part p h
    simp only [writeHost]
    split
    · next e => rw [e] at hb; exact hb
    · next e => rw [e] at hb; exact ih _ _ (writePiece_wf _ _ _ _ _ hb)

/-! Canonical form: writes of accesses. -/

@[simp] theorem refusal_wf (a : Access) (ps : List Piece) (s : State) (h : s.mem.wf = true) : (refusal a ps s).2.mem.wf = true := by
  simp only [refusal]
  split
  · simp [h]
  · split
    · next e => exact wf_of_mem h (snd_mem e (releasePieces_mem ..))
    · next e => exact wf_of_mem h (snd_mem e (releasePieces_mem ..))

/-- Memory is in canonical form in the state that a landing has come to. -/
def Landing.wf : Landing → Prop
  | .held _ _ _ => True
  | .record _ _ s | .missed s _ | .done _ _ s _ => s.mem.wf = true

theorem performPieces_wf (a : Access) (rk : RKind) (new : List Byte → List Byte) (ps : List Piece) (old : List Byte) (g : Nat) (s : State)
    (h : s.mem.wf = true) : (performPieces a rk new ps old g s).wf := by
  induction ps generalizing old g s with
  | nil => exact h
  | cons p ps ih =>
    simp only [performPieces]
    split
    · split
      · next e => exact wf_of_mem h (congrArg (·.2.2.mem) e).symm
      · next e => exact ih _ _ _ (by simpa using wf_of_mem h (congrArg (·.2.2.mem) e).symm)
    · have hb := birthPiece_wf s (some (s.coreOf a.thread)) (s.partOf a.thread) p h
      split
      · next e => rw [e] at hb; exact hb
      · next e =>
        rw [e] at hb
        refine ih _ _ _ ?_
        simp only [State.wroteG_mem, racePieces_mem]
        split <;> simp_all

theorem performWrite_wf (s : State) (a : Access) (pick : Pick) (x : Nat) (need : Need) (rk : RKind) (fits : Leaf → Bool)
    (new : List Byte → List Byte) (h : s.mem.wf = true) : (performWrite s a pick x need rk fits new).wf := by
  simp only [performWrite]
  split
  · trivial
  · exact h
  · next ps _ =>
    split
    · exact h
    · split
      · exact h
      · have hq : (if a.kind == .stx then raceQuery ((s.pinPass a ps).cachePieces (s.coreOf a.thread) ps) a ps
            else (s.pinPass a ps).cachePieces (s.coreOf a.thread) ps).mem.wf = true := by simp [h]
        generalize (if a.kind == .stx then raceQuery ((s.pinPass a ps).cachePieces (s.coreOf a.thread) ps) a ps
            else (s.pinPass a ps).cachePieces (s.coreOf a.thread) ps) = s1 at hq ⊢
        have hr : (if a.got.isEmpty then refusal a ps s1 else (none, s1)).2.mem.wf = true := by simp [hq]
        split
        · simpa [Landing.wf] using hq
        · split
          · next e => rw [e] at hr; exact hr
          · next e =>
            rw [e] at hr
            have hp := performPieces_wf a rk new
              ((a.piecesIn x ps).filter Piece.isRemote ++ (a.piecesIn x ps).filter (fun p => !p.isRemote)) [] 0 _ hr
            split
            · next e => rw [e] at hp; exact hp
            · exact hp

/-! What a write comes to, read off the case that it is in. -/

section
variable {s s' : State} {a : Access} {pick : Pick} {x : Nat} {need : Need} {rk : RKind} {fits : Leaf → Bool}
  {new : List Byte → List Byte}

theorem performWrite_record {kind va : Nat} (h : s.mem.wf = true) (e : performWrite s a pick x need rk fits new = .record kind va s') :
    s'.mem.wf = true := by
  have := performWrite_wf s a pick x need rk fits new h
  rwa [e] at this

theorem performWrite_missed {l : Label} (h : s.mem.wf = true) (e : performWrite s a pick x need rk fits new = .missed s' l) :
    s'.mem.wf = true := by
  have := performWrite_wf s a pick x need rk fits new h
  rwa [e] at this

theorem performWrite_done {old : List Byte} {g : Nat} {l : Label} (h : s.mem.wf = true)
    (e : performWrite s a pick x need rk fits new = .done old g s' l) : s'.mem.wf = true := by
  have := performWrite_wf s a pick x need rk fits new h
  rwa [e] at this
end

@[simp] theorem landStore_wf (s : State) (id : Nat) (a : Access) (pick : Pick) (x : Nat) (h : s.mem.wf = true) :
    (landStore s id a pick x).mem.wf = true := by
  simp only [landStore]
  split
  · simp [h]
  · split
    all_goals
      split
      · exact h
      · split
        · simp [h]
        · next e => simp [h, performWrite_record h e]
        · next e => simp [performWrite_missed h e]
        · next e => simp [performWrite_done h e]

@[simp] theorem landErase_wf (s : State) (id : Nat) (a : Access) (pick : Pick) (h : s.mem.wf = true) :
    (landErase s id a pick).mem.wf = true := by
  simp only [landErase]
  split
  · simp [h]
  · split
    · simp [h]
    · simp [h]
    · split
      · simp [h]
      · split <;> simp [h]

@[simp] theorem landAtomic_wf (s : State) (id : Nat) (a : Access) (pick : Pick) (h : s.mem.wf = true) :
    (landAtomic s id a pick).mem.wf = true := by
  simp only [landAtomic]
  split
  · simp [h]
  · split
    · simp [h]
    · next e => simp [h, performWrite_record h e]
    · next e => simp [performWrite_missed h e]
    · next e => simp [performWrite_done h e]

@[simp] theorem landWrite_wf (s : State) (id : Nat) (a : Access) (pick : Pick) (x : Nat) (h : s.mem.wf = true) :
    (landWrite s id a pick x).mem.wf = true := by
  unfold landWrite
  split <;> simp [h]

@[simp] theorem landRmw_wf (s : State) (id : Nat) (a : Access) (pick : Pick) (x : Nat) (h : s.mem.wf = true) :
    (landRmw s id a pick x).mem.wf = true := by
  unfold landRmw
  split <;> simp [h]

theorem landOne_wf (land : State → Nat → Access → Pick → Nat → State) (pick : Pick) (x : Nat) (s : State) (id : Nat)
    (h : s.mem.wf = true) (hl : ∀ s id a pick x, s.mem.wf = true → (land s id a pick x).mem.wf = true) :
    (landOne land pick x s id).mem.wf = true := by
  unfold landOne
  split
  · split
    · simp [State.orWait, h, hl]
    · exact h
  · exact h

/-! Canonical form: page tables and windows. -/

@[simp] theorem writeEntry_wf (s : State) (part table va level e : Nat) (h : s.mem.wf = true) :
    (writeEntry s part table va level e).mem.wf = true :=
  Memory.wf_write _ _ _ h

@[simp] theorem pathTo_wf (part va level n table : Nat) (s : State) (h : s.mem.wf = true) :
    (pathTo part va level n table s).2.mem.wf = true := by
  induction n generalizing table s with
  | zero => exact h
  | succ n ih =>
    simp only [pathTo]
    split
    · exact h
    · split
      · exact ih _ _ h
      · exact ih _ _ (by simp [h])

@[simp] theorem putEntry_wf (s : State) (part level va e : Nat) (h : s.mem.wf = true) : (putEntry s part level va e).mem.wf = true := by
  simp [putEntry, h]

@[simp] theorem setEntry_wf (s : State) (part level va e : Nat) (h : s.mem.wf = true) : (setEntry s part level va e).mem.wf = true := by
  unfold setEntry
  split <;> simp [h]

@[simp] theorem relabelFrame_wf (part : Nat) (l : Label) (s : State) (f : Nat) (h : s.mem.wf = true) :
    (relabelFrame part l s f).mem.wf = true := by
  simp [relabelFrame, h, Memory.wf_clear]

@[simp] theorem mapLeaf_wf (s : State) (part va level e : Nat) (h : s.mem.wf = true) : (mapLeaf s part va level e).mem.wf = true :=
  foldl_wf _ _ _ (putEntry_wf _ _ _ _ _ h) fun _ _ h => relabelFrame_wf _ _ _ _ h

@[simp] theorem unmapRange_wf (s : State) (part va n : Nat) (h : s.mem.wf = true) : (unmapRange s part va n).mem.wf = true := by
  rw [unmapRange, flushTlb_mem]
  exact foldl_wf _ _ _ h fun _ _ h => setEntry_wf _ _ _ _ _ h

@[simp] theorem placeWindow_wf (s : State) (part base : Nat) (bs : List Byte) (l : Label) (h : s.mem.wf = true) :
    (placeWindow s part base bs l).mem.wf = true := by
  simp only [placeWindow, State.modPart_mem]
  exact foldl_wf _ _ _ h fun _ _ h => Memory.wf_write _ _ _ (Memory.wf_clear _ _ _ (putEntry_wf _ _ _ _ _ h))

@[simp] theorem freeWindow_wf (s : State) (part base : Nat) (h : s.mem.wf = true) : (freeWindow s part base).mem.wf = true := by
  unfold freeWindow
  split <;> simp [h]

/-! Canonical form: ends of levels. -/

@[simp] theorem levelEnded_wf (s : State) (k : Nat) (x : Level) (status : Nat) (h : s.mem.wf = true) :
    (levelEnded s k x status).mem.wf = true := by
  unfold levelEnded
  split
  · split <;> simp [h]
  · simp only [ite_mem, ite_wf]
    split
    · split <;> simp [h]
    · exact h
  · split <;> simp [h]
  · exact h

@[simp] theorem finishLevel_wf (s : State) (k : Nat) (x : Level) (h : s.mem.wf = true) : (finishLevel s k x).mem.wf = true := by
  simp only [finishLevel]
  split <;> simp [h]

@[simp] theorem finishUp_wf (fuel k : Nat) (s : State) (h : s.mem.wf = true) : (finishUp fuel k s).mem.wf = true := by
  induction fuel generalizing k s with
  | zero => exact h
  | succ fuel ih =>
    simp only [finishUp]
    split
    · exact h
    · split
      · split
        · exact ih _ _ (by simp [h])
        · simp [h]
      · exact h

/-! Canonical form: chunks of copies. -/

/-- Memory is in canonical form in the state that a chunk's destination has come to. -/
def ChunkDest.wf : ChunkDest → Prop
  | .held _ _ _ => True
  | .stops _ s | .ok _ s => s.mem.wf = true

theorem chunkToMemory_wf (s : State) (c : Copy) (sl : CopySlice) (bs : List Byte) (l : Label) (h : s.mem.wf = true) :
    (chunkToMemory s c sl bs l).wf := by
  simp only [chunkToMemory]
  split
  · trivial
  · exact h
  · split
    · exact h
    · split
      · next e => exact wf_of_mem h (snd_mem e (releaseChunk_mem ..))
      · next s' e =>
        have h' : s'.mem.wf = true := wf_of_mem h (snd_mem e (releaseChunk_mem ..))
        generalize hsent : List.foldl _ (true, 0, s') _ = sent
        have hs : sent.2.2.mem.wf = true := by
          rw [← hsent]
          exact wf_of_mem h' (foldl_keeps _ (fun x : Bool × Nat × State => x.2.2.mem) _ _ fun _ _ _ => State.remote_mem _)
        split
        · exact hs
        · split <;> simp [ChunkDest.wf, hs]

theorem chunkToMemory_stops {s s' : State} {c : Copy} {sl : CopySlice} {bs : List Byte} {l : Label} {k : Nat} (h : s.mem.wf = true)
    (e : chunkToMemory s c sl bs l = .stops k s') : s'.mem.wf = true := by
  have := chunkToMemory_wf s c sl bs l h
  rwa [e] at this

theorem chunkToMemory_ok {s s' : State} {c : Copy} {sl : CopySlice} {bs : List Byte} {l : Label} {g : Nat} (h : s.mem.wf = true)
    (e : chunkToMemory s c sl bs l = .ok g s') : s'.mem.wf = true := by
  have := chunkToMemory_wf s c sl bs l h
  rwa [e] at this

@[simp] theorem runChunk_wf (s : State) (id : Nat) (c : Copy) (i : Nat) (sl : CopySlice) (h : s.mem.wf = true) :
    (runChunk s id c i sl).mem.wf = true := by
  simp only [runChunk]
  iterate 4 (split; · simp [h])
  split
  · exact h
  · simp [h]
  · simp [h]
  · next e =>
    have hs := wf_of_mem h (chunkSource_ok e)
    split
    · split
      · simp [h]
      · next e => simp [chunkToMemory_stops hs e]
      · next e => simp [chunkToMemory_ok hs e]
    · simp [hs]

/-! Canonical form: samples of RETV. -/

@[simp] theorem writeTags_wf (s0 s : State) (t : Nat) (h : s.mem.wf = true) : (writeTags s0 s t).mem.wf = true := by
  simp only [writeTags]
  split
  · simp [h]
  · split
    · simp [h]
    · split
      · split <;> simp [h]
      · simp [h]

/-! Canonical form: the start of a launch. -/

theorem placeArgs_wf {s s' : State} {p a : Nat} {bs : List Byte} {l : Label} (h : s.mem.wf = true)
    (e : placeArgs s p bs l = some (a, s')) : s'.mem.wf = true := by
  unfold placeArgs at e
  split at e
  · cases e; exact h
  · obtain ⟨b, _, hb⟩ := Option.map_eq_some_iff.mp e
    cases hb
    simp [h]

@[simp] theorem startLaunch_wf (s : State) (p q : Nat) (e : QEntry) (h : s.mem.wf = true) : (startLaunch s p q e).mem.wf = true := by
  simp only [startLaunch]
  split
  · simp [h]
  · split
    · next e => simp [snd_mem e (startPoint_mem ..), h]
    · next e => simp [snd_mem e (startPoint_mem ..), h]
    · next e =>
      have hs := wf_of_mem h (snd_mem e (startPoint_mem ..))
      split
      · simp [hs]
      · simp [hs]
      · next e =>
        have hr := wf_of_mem hs (readArgs_ok e)
        split
        · exact hr
        · next e => simp [placeArgs_wf hr e]

/-! Canonical form: saved and discarded work. -/

@[simp] theorem writeImage_wf (s : State) (ep j : Nat) (x : Job) (h : s.mem.wf = true) : (writeImage s ep j x).mem.wf = true := by
  unfold writeImage
  split
  · exact h
  · dsimp only
    split <;> simp [h]

@[simp] theorem quiesceStep_wf (s : State) (h : s.mem.wf = true) : (quiesceStep s).mem.wf = true := by
  unfold quiesceStep
  split
  · simp [h]
  · split <;> simp [h]

@[simp] theorem freeAreas_wf (s : State) (ls : List Nat) (h : s.mem.wf = true) : (freeAreas s ls).mem.wf = true :=
  foldl_wf _ _ _ h fun _ _ h => freeWindow_wf _ _ _ h

@[simp] theorem discardJob_wf (s : State) (ep j : Nat) (x : Job) (h : s.mem.wf = true) : (discardJob s ep j x).mem.wf = true := by
  simp only [discardJob, State.modEndpoint_mem, dropEntries_mem]
  rw [foldl_mem _ _ _ fun _ _ => by rfl, foldl_mem _ _ _ fun _ _ => by rfl]
  simp [h]

@[simp] theorem endJob_wf (s : State) (x : Nat × Nat × Job) (h : s.mem.wf = true) : (endJob s x).mem.wf = true := by
  simp [endJob, h]

/-! Canonical form: commands of the host. -/

@[simp] theorem actResumeJob_wf (m : Message) (s : State) (h : s.mem.wf = true) : (actResumeJob m s).2.mem.wf = true := by
  unfold actResumeJob
  split <;> simp [h]

@[simp] theorem performHost_wf (s : State) (part : Nat) (phys : Bool) (a r : Nat) (l : Label) (ps : List Piece) (bs : List Byte)
    (h : s.mem.wf = true) : (performHost s part phys a r l ps bs).2.mem.wf = true := by
  simp only [performHost]
  have hw := writeHost_wf part ps (bs.drop r) (if r = 0 then s else writeRing s part a (bs.take r)) (by simp [h])
  split
  · next e => rw [e] at hw; exact hw
  · next e => rw [e] at hw; simpa using hw

@[simp] theorem actMemWrite_wf (m : Message) (s : State) (h : s.mem.wf = true) : (actMemWrite m s).2.mem.wf = true := by
  simp only [actMemWrite]
  split
  · exact h
  · split
    · exact h
    · split <;> simp [h]

/-! Canonical form: objects. -/

@[simp] theorem mapObjectPage_wf (part : Nat) (l : Label) (s : State) (e : (Nat × Nat × List Byte) × Nat) (h : s.mem.wf = true) :
    (mapObjectPage part l s e).mem.wf = true :=
  putEntry_wf _ _ _ _ _ (Memory.wf_write _ _ _ (Memory.wf_clear _ _ _ h))

@[simp] theorem installObject_wf (s : State) (part handle base : Nat) (l : Label) (im : Image) (secs : List Sec) (frames : List Nat)
    (h : s.mem.wf = true) : (installObject s part handle base l im secs frames).mem.wf = true := by
  simp only [installObject, State.modPart_mem]
  exact foldl_wf _ _ _ (by simp [h]) fun _ _ h => mapObjectPage_wf _ _ _ _ h

/-- Of the branches of `placeObject` the last alone answers a state, the one into which the object is installed. -/
theorem placeObject_wf {s s' : State} {part k : Nat} {l : Label} {im : Image} (h : s.mem.wf = true)
    (e : placeObject s part l im = .ok (k, s')) : s'.mem.wf = true := by
  simp only [placeObject] at e
  repeat' split at e
  all_goals cases e
  simp [h]

theorem loadImage_wf {s s' : State} {part k : Nat} {l : Label} {img : List Byte} (h : s.mem.wf = true)
    (e : loadImage s part l img = .ok (k, s')) : s'.mem.wf = true := by
  unfold loadImage at e
  split at e
  · cases e
  · exact placeObject_wf h e

@[simp] theorem actLoadObject_wf (m : Message) (s : State) (h : s.mem.wf = true) : (actLoadObject m s).2.mem.wf = true := by
  simp only [actLoadObject]
  iterate 2 (split; · exact h)
  split
  · exact h
  · split
    · exact h
    · next e => exact loadImage_wf h e

@[simp] theorem removeObject_wf (s : State) (part k : Nat) (o : Obj) (h : s.mem.wf = true) : (removeObject s part k o).mem.wf = true := by
  simp only [removeObject, State.modPart_mem]
  exact foldl_wf _ _ _ h fun _ _ h => by simp [h]

@[simp] theorem actUnloadObject_wf (m : Message) (s : State) (h : s.mem.wf = true) : (actUnloadObject m s).2.mem.wf = true := by
  simp only [actUnloadObject]
  split
  · exact h
  · split <;> simp [h]

/-! Canonical form: requests of the ring. -/

@[simp] theorem mapRequest_wf (p : Nat) (s : State) (r : Request) (h : s.mem.wf = true) : (mapRequest p s r).mem.wf = true := by
  simp only [mapRequest, startShoot_mem]
  exact foldl_wf _ _ _ h fun _ _ h => by simp [h]

@[simp] theorem unmapRequest_wf (p : Nat) (s : State) (r : Request) (h : s.mem.wf = true) : (unmapRequest p s r).mem.wf = true := by
  simp only [unmapRequest, startShoot_mem]
  exact foldl_wf _ _ _ h fun _ _ h => by simp [h]

@[simp] theorem protectPage_wf (p level perms : Nat) (s : State) (va : Nat) (h : s.mem.wf = true) :
    (protectPage p level perms s va).mem.wf = true := by
  unfold protectPage
  split <;> simp [h]

@[simp] theorem protectRequest_wf (p : Nat) (s : State) (r : Request) (h : s.mem.wf = true) : (protectRequest p s r).mem.wf = true := by
  simp only [protectRequest, startShoot_mem]
  exact foldl_wf _ _ _ h fun _ _ h => by simp [h]

@[simp] theorem evictPage_wf (p level : Nat) (s : State) (va : Nat) (h : s.mem.wf = true) : (evictPage p level s va).mem.wf = true := by
  unfold evictPage
  split <;> simp [h]

@[simp] theorem evictRange_wf (s : State) (p : Nat) (r : Request) (h : s.mem.wf = true) : (evictRange s p r).mem.wf = true :=
  foldl_wf _ _ _ h fun _ _ h => evictPage_wf _ _ _ _ h

@[simp] theorem evictRequest_wf (p : Nat) (s : State) (r : Request) (h : s.mem.wf = true) : (evictRequest p s r).mem.wf = true := by
  simp [evictRequest, h]

theorem serve_wf (p op : Nat) (act : State → Request → State) (s : State) (h : s.mem.wf = true)
    (ha : ∀ s r, s.mem.wf = true → (act s r).mem.wf = true) : (serve p op act s).mem.wf = true := by
  unfold serve
  split
  · exact h
  · split
    · simp [h]
    · exact ha _ _ h

/-! Canonical form: the clearing of stacks. -/

@[simp] theorem clearStacks_wf (s : State) (h : s.mem.wf = true) : (clearStacks s).mem.wf = true :=
  foldl_wf _ _ _ h fun _ _ h => Memory.wf_clear _ _ _ h

/-! Canonical form: remote accesses. -/

@[simp] theorem serveWrite_wf (s : State) (r : RemoteAccess) (ps : List Piece) (new back : List Byte → List Byte) (h : s.mem.wf = true) :
    (serveWrite s r ps new back).mem.wf = true := by
  simp [serveWrite, h]

@[simp] theorem serveAtomic_wf (s : State) (r : RemoteAccess) (va : Nat) (ps : List Piece) (new : List Byte → List Byte) (answers : Bool)
    (h : s.mem.wf = true) : (serveAtomic s r va ps new answers).mem.wf = true := by
  unfold serveAtomic
  split
  · simp [h]
  · split
    · next e => simp [snd_mem e (serveRelease_mem ..), h]
    · next e => simp [snd_mem e (serveRelease_mem ..), h]

@[simp] theorem serveRemote_wf (s : State) (r : RemoteAccess) (va : Nat) (ps : List Piece) (h : s.mem.wf = true) :
    (serveRemote s r va ps).mem.wf = true := by
  unfold serveRemote
  split <;> simp [h]

end Sys2Proof.Machine
end

section
/-! O59: every instruction, command and event, every turn and so every step keeps memory in canonical form. -/

namespace Sys2Proof.Machine

/-! Canonical form of what an instruction, a command or an event answers. -/

/-- The next state that an outcome answers, where it answers one, holds memory in canonical form. -/
def NextWf (o : Host.Outcome State Fault Refusal) : Prop := ∀ s, o = .next s → s.mem.wf = true

@[simp] theorem nextWf_next (s : State) : NextWf (.next s) ↔ s.mem.wf = true :=
  ⟨fun h => h s rfl, fun h _ e => by cases e; exact h⟩

@[simp] theorem nextWf_fault (r : Fault) : NextWf (.fault r) := fun _ e => by cases e

theorem nextWf_of_mem {s s' : State} (h : s.mem.wf = true) (e : s'.mem = s.mem) : NextWf (.next s') :=
  (nextWf_next s').2 (wf_of_mem h e)

@[simp] theorem ite_nextWf (c : Prop) [Decidable c] (a b : Host.Outcome State Fault Refusal) :
    NextWf (if c then a else b) ↔ if c then NextWf a else NextWf b := by
  split <;> rfl

theorem landWith_wf {land : State → Nat → Access → Pick → Nat → State} {id : Nat} {pick : Pick} {s : State} (h : s.mem.wf = true)
    (hl : ∀ s id a pick x, s.mem.wf = true → (land s id a pick x).mem.wf = true) : NextWf (landWith land id pick s) := by
  unfold landWith
  split
  · dsimp only
    split
    · simpa using h
    · split
      · simp
      · simpa using foldl_wf _ _ _ h fun _ _ h => landOne_wf _ _ _ _ _ h hl
  · simpa using h

theorem runSequenced_wf {act : Action} {m : Message} {s : State} (h : s.mem.wf = true)
    (ha : ∀ m s, s.mem.wf = true → (act m s).2.mem.wf = true) : (runSequenced act m s).mem.wf = true := by
  simp only [runSequenced]
  split
  · simp [h]
  · split
    · split
      · simp [h]
      · have hs := ha m (acknowledge (noteAccepted s m) m stAccepted) (by simp [h])
        split
        · next e => rw [e] at hs; simpa using hs
        · next e => rw [e] at hs; exact hs
    · simp [h]

theorem runUnsequenced_wf {act : Message → State → Reply × State} {m : Message} {s : State} (h : s.mem.wf = true)
    (ha : ∀ m s, s.mem.wf = true → (act m s).2.mem.wf = true) : (runUnsequenced act m s).mem.wf = true := by
  simp [runUnsequenced, h, ha]

theorem receive_wf {run : Message → State → State} {m : Message} {s : State} (h : s.mem.wf = true)
    (hr : ∀ m s, s.mem.wf = true → (run m s).mem.wf = true) : (receive run m s).mem.wf = true := by
  simp [receive, h, hr]

theorem hostCommand_wf {c : Command} {run : Message → State → State} {m : Message} {s : State} (h : s.mem.wf = true)
    (hr : ∀ m s, s.mem.wf = true → (run m s).mem.wf = true) : NextWf (hostCommand c run m s) := by
  simp [hostCommand, h, receive_wf h hr]

theorem sequencedCommand_wf {c : Command} {act : Message → State → Reply × State} {m : Message} {s : State} (h : s.mem.wf = true)
    (ha : ∀ m s, s.mem.wf = true → (act m s).2.mem.wf = true) : NextWf (hostCommand c (sequenced act) m s) :=
  hostCommand_wf h fun _ _ h => runSequenced_wf h ha

theorem sequencedCommand_of_mem {c : Command} {act : Message → State → Reply × State} {m : Message} {s : State} (h : s.mem.wf = true)
    (ha : ∀ m s, (act m s).2.mem = s.mem) : NextWf (hostCommand c (sequenced act) m s) :=
  sequencedCommand_wf h fun m s h => wf_of_mem h (ha m s)

/-! The events. -/

theorem execGthrsLineFill_wf (id : Nat) (pick : Pick) (s : State) (h : s.mem.wf = true) : NextWf (execGthrsLineFill id pick s) := by
  simp only [execGthrsLineFill]
  split <;> simp [h]

theorem execRemapTableWrite_wf (id : Nat) (pick : Pick) (s : State) (h : s.mem.wf = true) : NextWf (execRemapTableWrite id pick s) := by
  simp only [execRemapTableWrite]
  split <;> simp [h]

theorem execCodebookSlotWrite_wf (id : Nat) (pick : Pick) (s : State) (h : s.mem.wf = true) : NextWf (execCodebookSlotWrite id pick s) := by
  simp only [execCodebookSlotWrite]
  split <;> simp [h]

theorem execLevelCompletion_wf (s : State) (h : s.mem.wf = true) : NextWf (execLevelCompletion s) := by
  simp only [execLevelCompletion]
  split <;> simp [h]

theorem execUnitCommandStart_wf (s : State) (h : s.mem.wf = true) : NextWf (execUnitCommandStart s) := by
  simp only [execUnitCommandStart]
  split <;> simp [h]

theorem execCopyEngineAccept_wf (s : State) (h : s.mem.wf = true) : NextWf (execCopyEngineAccept s) := by
  simp only [execCopyEngineAccept]
  split <;> simp [h]

theorem execCopyResume_wf (s : State) (h : s.mem.wf = true) : NextWf (execCopyResume s) := by
  simp only [execCopyResume]
  split <;> simp [h]

theorem execCopyChunk_wf (id slice : Nat) (_pick : Pick) (s : State) (h : s.mem.wf = true) : NextWf (execCopyChunk id slice _pick s) := by
  simp only [execCopyChunk]
  split
  · simp [h]
  · split
    · simp [h]
    · split
      · simp [h]
      · split <;> simp [h]

theorem execCopyComplete_wf (s : State) (h : s.mem.wf = true) : NextWf (execCopyComplete s) := by
  simp only [execCopyComplete]
  split <;> simp [h]

theorem execMmaChunkGrant_wf (cluster : Nat) (s : State) (h : s.mem.wf = true) : NextWf (execMmaChunkGrant cluster s) := by
  simp only [execMmaChunkGrant]
  split <;> simp [h]

theorem execMmaComplete_wf (s : State) (h : s.mem.wf = true) : NextWf (execMmaComplete s) := by
  simp only [execMmaComplete]
  split <;> simp [h]

theorem execVariantTableRead_wf (id : Nat) (pick : Pick) (s : State) (h : s.mem.wf = true) : NextWf (execVariantTableRead id pick s) := by
  simp only [execVariantTableRead]
  split <;> simp [h]

theorem execRetv_wf (f : Fields) (s : State) (h : s.mem.wf = true) : NextWf (execRetv f s) :=
  (nextWf_next _).2 (foldl_wf _ _ _ (by simp [h]) fun _ _ h => writeTags_wf _ _ _ h)

theorem execLaunchEntryStart_wf (p q : Nat) (s : State) (h : s.mem.wf = true) : NextWf (execLaunchEntryStart p q s) := by
  simp only [execLaunchEntryStart]
  split <;> simp [h]

theorem execCopyEntry_wf (p q : Nat) (s : State) (h : s.mem.wf = true) : NextWf (execCopyEntry p q s) := by
  simp only [execCopyEntry]
  split
  · split <;> simp [h]
  · simp [h]

theorem execWaitEntry_wf (s : State) (h : s.mem.wf = true) : NextWf (execWaitEntry s) := by
  simp only [execWaitEntry]
  split <;> simp [h]

theorem execGraphEntryArm_wf (p q : Nat) (s : State) (h : s.mem.wf = true) : NextWf (execGraphEntryArm p q s) := by
  simp only [execGraphEntryArm]
  split <;> simp [h]

theorem execGraphNodeStart_wf (s : State) (h : s.mem.wf = true) : NextWf (execGraphNodeStart s) := by
  simp only [execGraphNodeStart]
  split
  · simp [h]
  · split
    · split <;> simp [h]
    · simp [h]

theorem execUnitDispatch_wf (s : State) (h : s.mem.wf = true) : NextWf (execUnitDispatch s) := by
  simp only [execUnitDispatch]
  split <;> simp [h]

theorem execFusionChange_wf (s : State) (h : s.mem.wf = true) : NextWf (execFusionChange s) := by
  simp only [execFusionChange]
  split
  · simp [h]
  · split <;> simp [h]

theorem execUnitEnd_wf (s : State) (h : s.mem.wf = true) : NextWf (execUnitEnd s) := by
  simp only [execUnitEnd]
  split <;> simp [h]

theorem execBudgetRefill_wf (s : State) (h : s.mem.wf = true) : NextWf (execBudgetRefill s) := by
  simp [execBudgetRefill, h]

theorem execBorrow_wf (s : State) (h : s.mem.wf = true) : NextWf (execBorrow s) := by
  simp only [execBorrow]
  split <;> simp [h]

theorem execBarrierPhaseComplete_wf (s : State) (h : s.mem.wf = true) : NextWf (execBarrierPhaseComplete s) := by
  simp only [execBarrierPhaseComplete]
  split <;> simp [h]

theorem execCancelLevel_wf (f : Fields) (s : State) (h : s.mem.wf = true) : NextWf (execCancelLevel f s) := by
  refine nextWf_of_mem h ((foldl_mem _ _ _ fun _ _ => ?_).trans (runGroup_mem ..))
  split
  · split <;> simp
  · rfl

theorem execRegionOpen_wf (s : State) (h : s.mem.wf = true) : NextWf (execRegionOpen s) := by
  simp only [execRegionOpen]
  split <;> simp [h]

theorem execRegionCommit_wf (s : State) (h : s.mem.wf = true) : NextWf (execRegionCommit s) := by
  simp only [execRegionCommit]
  split <;> simp [h]

theorem execRegionAbort_wf (s : State) (h : s.mem.wf = true) : NextWf (execRegionAbort s) := by
  simp only [execRegionAbort]
  split <;> simp [h]

theorem execRegionRestart_wf (s : State) (h : s.mem.wf = true) : NextWf (execRegionRestart s) := by
  simp only [execRegionRestart]
  split
  · split <;> simp [h]
  · simp [h]

theorem execLoadWriteback_wf (id : Nat) (pick : Pick) (s : State) (h : s.mem.wf = true) : NextWf (execLoadWriteback id pick s) :=
  landWith_wf h fun _ _ _ _ _ h => wf_of_mem h (landValue_mem ..)

theorem execWritePerform_wf (id : Nat) (pick : Pick) (s : State) (h : s.mem.wf = true) : NextWf (execWritePerform id pick s) :=
  landWith_wf h landWrite_wf

theorem execAtomicPerform_wf (id : Nat) (pick : Pick) (s : State) (h : s.mem.wf = true) : NextWf (execAtomicPerform id pick s) :=
  landWith_wf h landRmw_wf

theorem execExactPathWriteback_wf (id : Nat) (s : State) (h : s.mem.wf = true) : NextWf (execExactPathWriteback id s) := by
  simp only [execExactPathWriteback]
  split <;> simp [h]

theorem execHeldAccessReplay_wf (s : State) (h : s.mem.wf = true) : NextWf (execHeldAccessReplay s) := by
  simp only [execHeldAccessReplay]
  split <;> simp [h]

theorem execQuiescence_wf (q : Quiesce) (s : State) (h : s.mem.wf = true) : NextWf (execQuiescence q s) := by
  simp [execQuiescence, h]

theorem execEndpointDisable_wf (s : State) (h : s.mem.wf = true) : NextWf (execEndpointDisable s) := by
  simp only [execEndpointDisable]
  split
  · simp [h]
  · split
    · simp [h]
    · split <;> simp [h]

theorem execRingTailCheck_wf (p : Nat) (s : State) (h : s.mem.wf = true) : NextWf (execRingTailCheck p s) := by
  simp [execRingTailCheck, h]

theorem execMapPages_wf (p : Nat) (s : State) (h : s.mem.wf = true) : NextWf (execMapPages p s) :=
  (nextWf_next _).2 (serve_wf _ _ _ _ h (mapRequest_wf p))

theorem execUnmapPages_wf (p : Nat) (s : State) (h : s.mem.wf = true) : NextWf (execUnmapPages p s) :=
  (nextWf_next _).2 (serve_wf _ _ _ _ h (unmapRequest_wf p))

theorem execProtect_wf (p : Nat) (s : State) (h : s.mem.wf = true) : NextWf (execProtect p s) :=
  (nextWf_next _).2 (serve_wf _ _ _ _ h (protectRequest_wf p))

theorem execEvict_wf (p : Nat) (s : State) (h : s.mem.wf = true) : NextWf (execEvict p s) :=
  (nextWf_next _).2 (serve_wf _ _ _ _ h (evictRequest_wf p))

theorem execEvictHeldPerform_wf (s : State) (h : s.mem.wf = true) : NextWf (execEvictHeldPerform s) := by
  simp only [execEvictHeldPerform]
  split <;> simp [h]

theorem execShootDown_wf (s : State) (h : s.mem.wf = true) : NextWf (execShootDown s) := by
  simp only [execShootDown]
  split <;> simp [h]

theorem execMigrationNoticeResend_wf (s : State) (h : s.mem.wf = true) : NextWf (execMigrationNoticeResend s) := by
  simp only [execMigrationNoticeResend]
  split <;> simp [h]

theorem execPolicyPeriod_wf (s : State) (h : s.mem.wf = true) : NextWf (execPolicyPeriod s) := by
  simp [execPolicyPeriod, h]

theorem execCreatePart_wf (s : State) (h : s.mem.wf = true) : NextWf (execCreatePart s) := by
  simp only [execCreatePart]
  split <;> simp [h]

theorem execDestroyPart_wf (s : State) (h : s.mem.wf = true) : NextWf (execDestroyPart s) := by
  unfold execDestroyPart
  split
  · split
    · exact (nextWf_next _).2 (foldl_wf _ _ _ h endJob_wf)
    · simp [h]
  · simp [h]

theorem execAssignCopy_wf (s : State) (h : s.mem.wf = true) : NextWf (execAssignCopy s) := by
  simp only [execAssignCopy]
  split <;> simp [h]

theorem execBindEndpoint_wf (s : State) (h : s.mem.wf = true) : NextWf (execBindEndpoint s) := by
  simp only [execBindEndpoint]
  split <;> simp [h]

theorem execStackClear_wf (s : State) (h : s.mem.wf = true) : NextWf (execStackClear s) := by
  simp [execStackClear, h]

theorem execBindRecordWrite_wf (slice index : Nat) (value : BitVec 64) (s : State) (h : s.mem.wf = true) :
    NextWf (execBindRecordWrite slice index value s) := by
  simp [execBindRecordWrite, h]

theorem execLeaseLengthWrite_wf (slice : Nat) (value : Word) (s : State) (h : s.mem.wf = true) :
    NextWf (execLeaseLengthWrite slice value s) := by
  simp [execLeaseLengthWrite, h]

theorem execVoteWrite_wf (slice : Nat) (value : Word) (s : State) (h : s.mem.wf = true) : NextWf (execVoteWrite slice value s) := by
  simp [execVoteWrite, h]

theorem execDomainGate_wf (slice : Nat) (s : State) (h : s.mem.wf = true) : NextWf (execDomainGate slice s) := by
  simp [execDomainGate, h]

theorem execDomainUngate_wf (slice : Nat) (s : State) (h : s.mem.wf = true) : NextWf (execDomainUngate slice s) := by
  simp [execDomainUngate, h]

theorem execRailHoldExpiry_wf (s : State) (h : s.mem.wf = true) : NextWf (execRailHoldExpiry s) := by
  simp only [execRailHoldExpiry]
  split <;> simp [h]

theorem execRailReady_wf (s : State) (h : s.mem.wf = true) : NextWf (execRailReady s) := by
  simp only [execRailReady]
  split <;> simp [h]

theorem execPassCountRaise_wf (cluster : Nat) (s : State) (h : s.mem.wf = true) : NextWf (execPassCountRaise cluster s) := by
  simp [execPassCountRaise, h]

theorem execPassCountLower_wf (cluster : Nat) (s : State) (h : s.mem.wf = true) : NextWf (execPassCountLower cluster s) := by
  simp [execPassCountLower, h]

theorem execLoadRecordUpdate_wf (s : State) (h : s.mem.wf = true) : NextWf (execLoadRecordUpdate s) := by
  simp [execLoadRecordUpdate, h]

theorem execFadeStart_wf (s : State) (h : s.mem.wf = true) : NextWf (execFadeStart s) := by
  simp only [execFadeStart]
  split <;> simp [h]

theorem execFadeEnd_wf (s : State) (h : s.mem.wf = true) : NextWf (execFadeEnd s) := by
  simp only [execFadeEnd]
  split <;> simp [h]

theorem execRegisterWrite_wf (w : RegWrite) (s : State) (h : s.mem.wf = true) : NextWf (execRegisterWrite w s) := by
  simp only [execRegisterWrite]
  split <;> simp [h]

theorem execEventThresholdNotice_wf (s : State) (h : s.mem.wf = true) : NextWf (execEventThresholdNotice s) := by
  simp only [execEventThresholdNotice]
  split <;> simp [h]

theorem execRemoteAccessIn_wf (r : RemoteAccess) (s : State) (h : s.mem.wf = true) : NextWf (execRemoteAccessIn r s) := by
  simp only [execRemoteAccessIn]
  split
  · simp [h]
  · split
    · simp [h]
    · split <;> simp [h]

theorem execThreadUnblock_wf (t : Nat) (s : State) (h : s.mem.wf = true) : NextWf (execThreadUnblock t s) := by
  simp [execThreadUnblock, h]

theorem execAging_wf (s : State) (h : s.mem.wf = true) : NextWf (execAging s) := by
  simp only [execAging]
  split <;> simp [h]

theorem execGlasonSwap_wf (s : State) (h : s.mem.wf = true) : NextWf (execGlasonSwap s) := by
  simp only [execGlasonSwap]
  split
  · simp [h]
  · split <;> simp [h]

theorem execGlasonPendingAging_wf (s : State) (h : s.mem.wf = true) : NextWf (execGlasonPendingAging s) := by
  simp only [execGlasonPendingAging]
  split <;> simp [h]

theorem execSkidLimit_wf (s : State) (h : s.mem.wf = true) : NextWf (execSkidLimit s) := by
  simp only [execSkidLimit]
  split <;> simp [h]

/-- Every instruction, command and event keeps memory in canonical form. Those of a program leave memory alone, their stores
being performed by events of their own; RETV alone writes the samples of its frames. -/
theorem exec_wf (i : Instr) (s : State) (h : s.mem.wf = true) : NextWf (exec i s) := by
  cases i with
  | queryState m => exact hostCommand_wf h fun _ _ h => runUnsequenced_wf h fun m s h => wf_of_mem h (actQueryState_mem m s)
  | replay m => exact hostCommand_wf h fun _ _ h => runUnsequenced_wf h fun m s h => wf_of_mem h (actReplay_mem m s)
  | loadObject m => exact sequencedCommand_wf h actLoadObject_wf
  | unloadObject m => exact sequencedCommand_wf h actUnloadObject_wf
  | jobOpen m => exact sequencedCommand_of_mem h actJobOpen_mem
  | jobClose m => exact sequencedCommand_of_mem h actJobClose_mem
  | phaseNext m => exact sequencedCommand_of_mem h actPhaseNext_mem
  | saveArea m => exact sequencedCommand_of_mem h actSaveArea_mem
  | resumeJob m => exact sequencedCommand_wf h actResumeJob_wf
  | submit m => exact sequencedCommand_of_mem h actSubmit_mem
  | cancelCmd m => exact sequencedCommand_of_mem h actCancel_mem
  | queueConfig m => exact sequencedCommand_of_mem h actQueueConfig_mem
  | memWrite m => exact sequencedCommand_wf h actMemWrite_wf
  | memRead m => exact sequencedCommand_of_mem h actMemRead_mem
  | statusWindowRead m => exact sequencedCommand_of_mem h actStatusWindowRead_mem
  | endpointEnable m => exact sequencedCommand_of_mem h actEndpointEnable_mem
  | shortMessage m => exact hostCommand_wf h fun m s h => wf_of_mem h (runShort_mem m s)
  | bindSlot m => exact sequencedCommand_of_mem h (teaselRecord_mem formBind mayBind installBind)
  | peer m => exact sequencedCommand_of_mem h (teaselRecord_mem formPeer mayPeer installPeer)
  | policy m => exact sequencedCommand_of_mem h (teaselRecord_mem formPolicy mayPolicy installPolicy)
  | revoke m => exact sequencedCommand_of_mem h (teaselRecord_mem formRevoke mayRevoke installRevoke)
  | teaselTableRead m => exact sequencedCommand_of_mem h actTeaselTableRead_mem
  | replacementImage m => exact sequencedCommand_of_mem h actReplacementImage_mem
  | configurationRecord m => exact sequencedCommand_of_mem h actConfigurationRecord_mem
  | nonce m => exact sequencedCommand_of_mem h actNonce_mem
  | attestationReport m => exact sequencedCommand_of_mem h (actWindow_mem Boot.report)
  | bootStatus m => exact sequencedCommand_of_mem h (actWindow_mem Boot.status)
  | ringTailCheck p => exact execRingTailCheck_wf p s h
  | mapPages p => exact execMapPages_wf p s h
  | unmapPages p => exact execUnmapPages_wf p s h
  | protect p => exact execProtect_wf p s h
  | evict p => exact execEvict_wf p s h
  | launchEntryStart p q => exact execLaunchEntryStart_wf p q s h
  | graphEntryArm p q => exact execGraphEntryArm_wf p q s h
  | copyEntry p q => exact execCopyEntry_wf p q s h
  | bindRecordWrite slice index value => exact execBindRecordWrite_wf slice index value s h
  | leaseLengthWrite slice value => exact execLeaseLengthWrite_wf slice value s h
  | voteWrite slice value => exact execVoteWrite_wf slice value s h
  | domainGate slice => exact execDomainGate_wf slice s h
  | domainUngate slice => exact execDomainUngate_wf slice s h
  | registerWrite w => exact execRegisterWrite_wf w s h
  | threadUnblock t => exact execThreadUnblock_wf t s h
  | loadWriteback id pick => exact execLoadWriteback_wf id pick s h
  | writePerform id pick => exact execWritePerform_wf id pick s h
  | atomicPerform id pick => exact execAtomicPerform_wf id pick s h
  | exactPathWriteback id => exact execExactPathWriteback_wf id s h
  | remoteAccessIn r => exact execRemoteAccessIn_wf r s h
  | copyChunk c slice pick => exact execCopyChunk_wf c slice pick s h
  | mmaChunkGrant cluster => exact execMmaChunkGrant_wf cluster s h
  | gthrsLineFill id pick => exact execGthrsLineFill_wf id pick s h
  | remapTableWrite id pick => exact execRemapTableWrite_wf id pick s h
  | codebookSlotWrite id pick => exact execCodebookSlotWrite_wf id pick s h
  | variantTableRead id pick => exact execVariantTableRead_wf id pick s h
  | quiescence target => exact execQuiescence_wf target s h
  | passCountRaise cluster => exact execPassCountRaise_wf cluster s h
  | passCountLower cluster => exact execPassCountLower_wf cluster s h
  | reconfigure m => exact hostCommand_wf h fun _ _ h => runSequenced_wf h fun m s h => wf_of_mem h (actReconfigure_mem m s)
  | bra f | brx f | call f | callx f | ret f => exact nextWf_of_mem h (runBranch_mem ..)
  | exitI f | yieldI f | nop f | setpri f | bpt f | trapI f | rdlane f | setmode f | partW f | fscale f | cvt f | pack2 f
    | callv f | bset f | bsplit f | brmake f | gthr f | mwait f | drain f | fewait f | lblrd f | egress f =>
    exact nextWf_of_mem h (runGroup_mem ..)
  | iadd f | isub f | imul f | imulh f | imad f | imin f | imax f | iabs f => exact nextWf_of_mem h (runInt_mem ..)
  | iaddc f | isubc f => exact nextWf_of_mem h (runCarry_mem ..)
  | band f | bor f | bxor f | bnot f | logt f => exact nextWf_of_mem h (runBits_mem ..)
  | shl f | shr f | bfi f | brev f => exact nextWf_of_mem h (runNat_mem ..)
  | sar f | bfe f | bdot f | bsad f | isetp f | sel f | lea f | mov f | movh f | addi f | movx f | p2v f | v2p f | fsetp f
    | fclass f | hsetp2 f | bget f | meter f | brset f | brget f | mpoll f | lbltst f => exact nextWf_of_mem h (runWrites_mem ..)
  | dsh f | maskB f | popc f | clz f | bswz f => exact nextWf_of_mem h (runWord_mem ..)
  | pand f | por f | pxor f | pnot f => exact nextWf_of_mem h (runLogic_mem ..)
  | srd f | swr f | pref f | gthrs f | mready f | fence f | cntrd f | rft f | termG f | termU f | halt f =>
    exact nextWf_of_mem h (by simp)
  | shflIdx f | shflRot f | shflXor f | shflRev f => exact nextWf_of_mem h (runShfl_mem ..)
  | voteAll f | voteAny f | voteBallot f | redgAdd f | redgMin f | redgMax f | scang f | matchG f | elect f =>
    exact nextWf_of_mem h (runCollective_mem ..)
  | fadd f | fsub f | fmul f | ffma f | fmin f | fmax f | fneg f | fabs f | frnd f => exact nextWf_of_mem h (runScalar_mem ..)
  | hfma2 f | hadd2 f | hsub2 f | hmul2 f | hmin2 f | hmax2 f | hneg2 f | habs2 f => exact nextWf_of_mem h (runPacked_mem ..)
  | rcp f | rsq f | sqrt f | exp2 f | log2 f | sin f | cos f | tanh f => exact nextWf_of_mem h (runSpecial_mem ..)
  | retv f => exact execRetv_wf f s h
  | ld f | st f | ldx f | stx f | erase f | exq f | atomAdd f | atomMin f | atomMax f | atomAnd f | atomOr f | atomXor f
    | atomExch f | atomCas f | atomFadd f | redAdd f | redMin f | redMax f | redAnd f | redOr f | redXor f | redFadd f =>
    exact nextWf_of_mem h (runMem_mem ..)
  | atomsAdd f | atomsMin f | atomsMax f | atomsAnd f | atomsOr f | atomsXor f | atomsExch f | atomsCas f | atomsFadd f
    | redsAdd f | redsMin f | redsMax f | redsAnd f | redsOr f | redsXor f | redsFadd f | lds f | sts f | sfill f | sempty f =>
    exact nextWf_of_mem h (runSp_mem ..)
  | remap f => exact nextWf_of_mem h (runPerGang_mem _ s (runRemap_mem f))
  | copyI f | copym f => exact nextWf_of_mem h (runCopy_mem ..)
  | cbload f => exact nextWf_of_mem h (runPerGang_mem _ s (runCbload_mem f))
  | mma f => exact nextWf_of_mem h (runPerGang_mem _ s (runMma_mem 0x302 f))
  | mmas f => exact nextWf_of_mem h (runPerGang_mem _ s (runMma_mem 0x303 f))
  | bar f => exact nextWf_of_mem h (runBar_mem _ f _ s (arriveBar_mem 0x341 f true))
  | bara f => exact nextWf_of_mem h (runBar_mem _ f _ s (arriveBar_mem 0x342 f false))
  | barw f => exact nextWf_of_mem h (runBar_mem _ f _ s (waitBar_mem f))
  | evpost f => exact nextWf_of_mem h (runPerGang_mem _ s (runEvpost_mem f))
  | evwait f | evpoll f => exact nextWf_of_mem h (runEvpop_mem ..)
  | launchI f | garm f => exact nextWf_of_mem h (runStart_mem ..)
  | cancelLevel f => exact execCancelLevel_wf f s h
  | rgn f => exact nextWf_of_mem h (runBar_mem _ f _ s (enterRegion_mem f))
  | rgne f => exact nextWf_of_mem h (runBar_mem _ f _ s (leaveRegion_mem f))
  | sfqpop f => exact nextWf_of_mem h (runPerGang_mem _ s (runSfqpop_mem f))
  | endpointDisable => exact execEndpointDisable_wf s h
  | createPart => exact execCreatePart_wf s h
  | destroyPart => exact execDestroyPart_wf s h
  | assignCopy => exact execAssignCopy_wf s h
  | bindEndpoint => exact execBindEndpoint_wf s h
  | stackClear => exact execStackClear_wf s h
  | policyPeriod => exact execPolicyPeriod_wf s h
  | powerUpReset => exact (nextWf_next _).2 rfl
  | evictHeldPerform => exact execEvictHeldPerform_wf s h
  | shootDown => exact execShootDown_wf s h
  | migrationNoticeResend => exact execMigrationNoticeResend_wf s h
  | graphNodeStart => exact execGraphNodeStart_wf s h
  | waitEntry => exact execWaitEntry_wf s h
  | unitDispatch => exact execUnitDispatch_wf s h
  | fusionChange => exact execFusionChange_wf s h
  | unitEnd => exact execUnitEnd_wf s h
  | levelCompletion => exact execLevelCompletion_wf s h
  | budgetRefill => exact execBudgetRefill_wf s h
  | borrow => exact execBorrow_wf s h
  | aging => exact execAging_wf s h
  | glasonSwap => exact execGlasonSwap_wf s h
  | glasonPendingAging => exact execGlasonPendingAging_wf s h
  | skidLimit => exact execSkidLimit_wf s h
  | barrierPhaseComplete => exact execBarrierPhaseComplete_wf s h
  | regionOpen => exact execRegionOpen_wf s h
  | regionCommit => exact execRegionCommit_wf s h
  | heldAccessReplay => exact execHeldAccessReplay_wf s h
  | eventThresholdNotice => exact execEventThresholdNotice_wf s h
  | unitCommandStart => exact execUnitCommandStart_wf s h
  | copyEngineAccept => exact execCopyEngineAccept_wf s h
  | copyResume => exact execCopyResume_wf s h
  | copyComplete => exact execCopyComplete_wf s h
  | mmaComplete => exact execMmaComplete_wf s h
  | regionAbort => exact execRegionAbort_wf s h
  | regionRestart => exact execRegionRestart_wf s h
  | railHoldExpiry => exact execRailHoldExpiry_wf s h
  | railReady => exact execRailReady_wf s h
  | loadRecordUpdate => exact execLoadRecordUpdate_wf s h
  | fadeStart => exact execFadeStart_wf s h
  | fadeEnd => exact execFadeEnd_wf s h

/-! The step. -/

theorem runMessage_wf (m : Message) (s : State) (h : s.mem.wf = true) : NextWf (runMessage m s) := by
  unfold runMessage
  split
  · exact exec_wf _ s h
  · exact (nextWf_next _).2 (receive_wf h fun _ _ h => runSequenced_wf h fun _ _ h => h)

/-- What a core's turn comes to keeps memory in canonical form. -/
def Turning.wf : Turning → Prop
  | .run _ s => s.mem.wf = true
  | .over o => NextWf o

theorem fetchTurn_wf (s : State) (h : s.mem.wf = true) : (fetchTurn s).wf := by
  unfold fetchTurn
  split
  · simpa [Turning.wf] using h
  · split <;> simp [Turning.wf, h]

theorem coreTurn_wf (s : State) (core : Nat) (h : s.mem.wf = true) : (coreTurn s core).wf := by
  simp only [coreTurn]
  split
  · simpa [Turning.wf] using h
  · exact fetchTurn_wf _ (by simpa using h)

theorem runCore_wf (core : Nat) (s : State) (h : s.mem.wf = true) : NextWf (runCore core s) := by
  have ht := coreTurn_wf s core h
  unfold runCore
  split
  · next e => rw [e] at ht; exact exec_wf _ _ ht
  · next e => rw [e] at ht; exact ht

theorem runMove_wf (m : Move) (s : State) (h : s.mem.wf = true) : NextWf (runMove m s) := by
  cases m with
  | message x => exact runMessage_wf x s h
  | event i => exact exec_wf i s h
  | issue core => exact runCore_wf core s h

/-- By `pass_advances`, since the kernel must not compute `pass` either where `runTurn` branches on it. -/
theorem runTurn_wf (x : Turn) (rest : List Turn) (s : State) (h : s.mem.wf = true) : NextWf (runTurn x rest s) := by
  refine pass_advances (fun r => NextWf (if r.1 then runMove x.move (r.2.setAgenda rest)
    else .next (r.2.setAgenda ({ x with delay := x.delay - (r.2.time - s.time) } :: rest)))) s x.delay fun b n => ?_
  have hs : (advance s n).mem.wf = true := by simpa using h
  cases b with
  | true => exact runMove_wf _ _ hs
  | false => exact (nextWf_next _).2 hs

theorem runIdle_wf (s : State) (h : s.mem.wf = true) : NextWf (runIdle s) := by
  unfold runIdle
  split
  · exact exec_wf _ s h
  · split
    · exact runCore_wf _ s h
    · simpa using h

theorem step_wf (s : State) (h : s.mem.wf = true) : NextWf (step s) := by
  unfold step
  split
  · exact exec_wf _ s h
  · split
    · simpa using h
    · split
      · next e => exact runMessage_wf _ _ (wf_of_mem h (heldMessage_mem e))
      · split
        · exact exec_wf _ s h
        · split
          · exact runTurn_wf _ _ s h
          · exact runIdle_wf s h

/-- Settles O59: `step_wf` at the state that the step answers. -/
theorem stepKeepsMemoryCanonical : Obligations.StepKeepsMemoryCanonical :=
  fun s s' h e => step_wf s h s' e

end Sys2Proof.Machine
end

section
/-! SUPPORT. A sequenced command whose header nothing refuses: the state in which its action runs, and the two messages that it sends
(R38 to R40). An action that leaves the endpoints and what was sent (`State.mail`) completes with its reply. -/

namespace Sys2Proof.Machine

theorem tabPut_tabPut {α : Type} (t : Tab α) (i : Nat) (x y : α) : tabPut (tabPut t i x) i y = tabPut t i y := by
  induction t with
  | nil => simp [tabPut]
  | cons e t ih =>
    obtain ⟨k, v⟩ := e
    rcases Nat.lt_trichotomy i k with h | rfl | h
    · simp [tabPut, h]
    · simp [tabPut]
    · simp [tabPut, ih, Nat.not_lt.2 h.le, h.ne']

theorem mem_of_tabGet {α : Type} {t : Tab α} {i : Nat} {x : α} (h : tabGet t i = some x) : (i, x) ∈ t := by
  induction t with
  | nil => cases h
  | cons e t ih =>
    obtain ⟨k, v⟩ := e
    simp only [tabGet] at h
    split at h
    · cases h; subst i; exact List.mem_cons_self
    · exact List.mem_cons_of_mem _ (ih h)

/-- A test of some entry sees no difference in an entry put in the place of one that answers as it does. -/
theorem tabPut_any {α : Type} (p : Nat × α → Bool) (t : Tab α) (i : Nat) (x : α)
    (h : p (i, x) = (tabGet t i).any (fun y => p (i, y))) : (tabPut t i x).any p = t.any p := by
  induction t with
  | nil => simpa [tabPut] using h
  | cons e t ih =>
    obtain ⟨k, v⟩ := e
    rcases Nat.lt_trichotomy i k with hk | rfl | hk
    · cases hp : p (i, x) with
      | false => simp [tabPut, hk, hp]
      | true =>
        obtain ⟨y, hy, hpy⟩ := (Option.any_eq_true _ _).1 (h.symm.trans hp)
        rw [tabPut, if_pos hk, List.any_cons, hp, Bool.true_or, List.any_eq_true.2 ⟨_, mem_of_tabGet hy, hpy⟩]
    · rw [tabGet, if_pos rfl] at h
      simpa [tabPut] using congrArg (· || t.any p) h
    · rw [tabGet, if_neg hk.ne'] at h
      simp [tabPut, Nat.not_lt.2 hk.le, hk.ne', ih h]

theorem State.setEndpoint_setEndpoint (s : State) (ep : Nat) (x y : Endpoint) :
    (s.setEndpoint ep x).setEndpoint ep y = s.setEndpoint ep y := by
  simp [State.setEndpoint, tabPut_tabPut]

/-- The endpoint of a command that has been accepted and acknowledged. -/
def acceptedEndpoint (s : State) (m : Message) : Endpoint :=
  let e := s.endpoint m.ep
  { e with host := m.sender, lastAccepted := m.hseq, accepted := e.accepted + 1, nextDev := nextDevSeq e.nextDev,
           stored := (e.stored ++ [ackOf s m stAccepted]).drop (e.stored.length + 1 - 1024) }

/-- The state in which an accepted command is carried out. -/
def acceptedState (s : State) (m : Message) : State :=
  (s.setEndpoint m.ep (acceptedEndpoint s m)).setOutbox (s.outbox ++ [ackOf s m stAccepted])

section
variable {s t : State} {c : Command} {m : Message}

theorem InOrder.mayTalk (h : InOrder s c m) : s.mayTalk m.ep = true := by
  rcases h.enabled with e | e
  · simp [State.mayTalk, show m.ep = mgmtEp by simpa [Message.toMgmt] using e]
  · simp [State.mayTalk, e]

theorem noteAccepted_noteSender : noteAccepted (noteSender s m) m =
    s.setEndpoint m.ep { s.endpoint m.ep with host := m.sender, lastAccepted := m.hseq, accepted := (s.endpoint m.ep).accepted + 1 } := by
  simp [noteAccepted, noteSender, State.modEndpoint_eq, State.setEndpoint_setEndpoint]

theorem acknowledge_noteAccepted (h : s.mayTalk m.ep = true) :
    acknowledge (noteAccepted (noteSender s m) m) m stAccepted = acceptedState s m := by
  have ht : (noteAccepted (noteSender s m) m).mayTalk m.ep = true := by
    simpa [State.mayTalk, noteAccepted_noteSender] using h
  rw [acknowledge, sendNumbered, if_pos ht]
  simp [noteAccepted_noteSender, State.setEndpoint_setEndpoint, acceptedState, acceptedEndpoint, ackOf]

theorem headerRefusal_noteSender : headerRefusal (noteSender s m) m = headerRefusal s m := by
  have hp : permitted (noteSender s m) m = permitted s m := by
    have hb : ((noteSender s m).endpoint m.ep).bound = (s.endpoint m.ep).bound := by simp [noteSender, State.modEndpoint_eq]
    rw [permitted, hb]
    rfl
  simp only [headerRefusal, hp]

theorem receive_of_heard (h : Heard s c m) (run : Message → State → State) : receive run m s = run m (noteSender s m) := by
  have he : (!m.toMgmt && !(s.endpoint m.ep).enabled) = false := by rcases h.enabled with e | e <;> simp [e]
  simp [receive, h.reachable, he, h.free, h.whole]

theorem sequenced_of_inOrder (h : InOrder s c m) (act : Message → State → Reply × State) :
    sequenced act m (noteSender s m) =
      complete (act m (acceptedState s m)).2 m.ep m.hseq m.tag (act m (acceptedState s m)).1 := by
  obtain ⟨h0, hn⟩ := h.number
  have hl : ((noteSender s m).endpoint m.ep).lastAccepted = (s.endpoint m.ep).lastAccepted := by
    simp [noteSender, State.modEndpoint_eq]
  simp only [sequenced, runSequenced, h0, hl, ← hn, headerRefusal_noteSender, h.header, acknowledge_noteAccepted h.mayTalk, if_true, if_false]

theorem hostCommand_of_inOrder (h : InOrder s c m) (act : Message → State → Reply × State) :
    hostCommand c (sequenced act) m s =
      .next (complete (act m (acceptedState s m)).2 m.ep m.hseq m.tag (act m (acceptedState s m)).1) := by
  rw [hostCommand, if_pos h.command, receive_of_heard h.toHeard, sequenced_of_inOrder h]

/-- The endpoints and what the device has sent. -/
def State.mail (s : State) : Tab Endpoint × List Out := (s.endpoints, s.outbox)

theorem completed_of_mail (h : InOrder s c m) (r : Reply) (ht : t.mail = (acceptedState s m).mail) :
    Completed s (complete t m.ep m.hseq m.tag r) m r := by
  obtain ⟨he, ho⟩ := Prod.mk.inj ht
  have hx : t.endpoint m.ep = acceptedEndpoint s m := by simp [State.endpoint, he, acceptedState]
  have hk : t.mayTalk m.ep = true := by simpa [State.mayTalk, hx, acceptedEndpoint] using h.mayTalk
  constructor
  · simp [complete, sendNumbered, hk, hx, ho, acceptedState, acceptedEndpoint, doneOf]
  · simp [complete, sendNumbered, hk, hx, acceptedEndpoint]
end

@[simp] theorem sendNumbered_parts (s : State) (ep : Nat) (o : Out) : (sendNumbered s ep o).parts = s.parts := by
  unfold sendNumbered
  split <;> rfl

@[simp] theorem complete_parts (s : State) (ep hseq tag : Nat) (r : Reply) : (complete s ep hseq tag r).parts = s.parts :=
  sendNumbered_parts ..

@[simp] theorem complete_part (s : State) (ep hseq tag p : Nat) (r : Reply) : (complete s ep hseq tag r).part p = s.part p := by
  simp [State.part]

@[simp] theorem partOfEp_acceptedState (s : State) (m : Message) (ep : Nat) : partOfEp (acceptedState s m) ep = partOfEp s ep := by
  simp only [partOfEp, acceptedState, State.endpoint_setOutbox, State.endpoint_setEndpoint]
  split <;> simp [acceptedEndpoint, *]

@[simp] theorem acceptedState_mem (s : State) (m : Message) : (acceptedState s m).mem = s.mem := rfl
@[simp] theorem acceptedState_parts (s : State) (m : Message) : (acceptedState s m).parts = s.parts := rfl
@[simp] theorem acceptedState_launches (s : State) (m : Message) : (acceptedState s m).launches = s.launches := rfl
@[simp] theorem acceptedState_graphs (s : State) (m : Message) : (acceptedState s m).graphs = s.graphs := rfl
@[simp] theorem acceptedState_part (s : State) (m : Message) (p : Nat) : (acceptedState s m).part p = s.part p := rfl

end Sys2Proof.Machine
end

section
/-! SUPPORT. The loader's commands: what writes page tables and objects leaves the endpoints and what was sent alone (`f_mail`), what an accepted
command reads of its state is what it read before, and what a load that passes every check comes to (R30 to R32). -/

namespace Sys2Proof.Machine

/-! The endpoints and the messages are left alone. -/

@[simp] theorem State.modPart_mail (s : State) (p : Nat) (g : Partition → Partition) : (s.modPart p g).mail = s.mail := rfl
@[simp] theorem State.setMem_mail (s : State) (x : Memory) : (s.setMem x).mail = s.mail := rfl
@[simp] theorem State.takeId_mail (s : State) : s.takeId.2.mail = s.mail := rfl
@[simp] theorem State.setFrameLabel_mail (s : State) (p f : Nat) (l : Label) : (s.setFrameLabel p f l).mail = s.mail := rfl
@[simp] theorem dropL1_mail (s : State) (p : Nat) : (dropL1 s p).mail = s.mail := rfl
@[simp] theorem flushTlb_mail (s : State) (p va n : Nat) : (flushTlb s p va n).mail = s.mail := rfl
@[simp] theorem allocTable_mail (s : State) (p level : Nat) : (allocTable s p level).2.mail = s.mail := rfl
@[simp] theorem writeEntry_mail (s : State) (p table va level e : Nat) : (writeEntry s p table va level e).mail = s.mail := rfl

@[simp] theorem pathTo_mail (p va level n table : Nat) (s : State) : (pathTo p va level n table s).2.mail = s.mail := by
  induction n generalizing table s with
  | zero => rfl
  | succ n ih =>
    simp only [pathTo]
    split
    · rfl
    · split
      · exact ih _ _
      · simp [ih]

@[simp] theorem putEntry_mail (s : State) (p level va e : Nat) : (putEntry s p level va e).mail = s.mail := by simp [putEntry]

@[simp] theorem setEntry_mail (s : State) (p level va e : Nat) : (setEntry s p level va e).mail = s.mail := by
  unfold setEntry
  split <;> simp

@[simp] theorem unmapRange_mail (s : State) (p va n : Nat) : (unmapRange s p va n).mail = s.mail := by
  rw [unmapRange, flushTlb_mail]
  exact foldl_keeps _ State.mail _ _ fun _ _ _ => setEntry_mail ..

@[simp] theorem mapObjectPage_mail (p : Nat) (l : Label) (s : State) (e : (Nat × Nat × List Byte) × Nat) :
    (mapObjectPage p l s e).mail = s.mail := by simp [mapObjectPage]

@[simp] theorem installObject_mail (s : State) (p handle base : Nat) (l : Label) (im : Image) (secs : List Sec) (frames : List Nat) :
    (installObject s p handle base l im secs frames).mail = s.mail :=
  (foldl_keeps _ State.mail _ (dropL1 s p) fun _ _ _ => mapObjectPage_mail ..).trans (dropL1_mail s p)

@[simp] theorem removeObject_mail (s : State) (p handle : Nat) (o : Obj) : (removeObject s p handle o).mail = s.mail :=
  foldl_keeps _ State.mail _ s fun s x _ => show (if x.kind = 7 then s else unmapRange s p _ _).mail = s.mail by split <;> simp

/-! What an accepted command reads. -/

section
variable {s : State} {m : Message} {p : Nat}

theorem walk_acceptedState : walk (acceptedState s m) = walk s := rfl

theorem homeOf_acceptedState : homeOf (acceptedState s m) = homeOf s := rfl

theorem outside_acceptedState : outside (acceptedState s m) = outside s := rfl

theorem virtualSpan_acceptedState (need : HostNeed) : virtualSpan (acceptedState s m) p need = virtualSpan s p need := by
  funext sp
  rw [virtualSpan, virtualSpan, walk_acceptedState, homeOf_acceptedState, outside_acceptedState]

theorem physicalSpan_acceptedState : physicalSpan (acceptedState s m) = physicalSpan s := rfl

theorem hostSpan_acceptedState (phys : Bool) (need : HostNeed) (sp : Nat × Nat) :
    hostSpan (acceptedState s m) p phys need sp = hostSpan s p phys need sp := by
  rw [hostSpan, hostSpan, virtualSpan_acceptedState, physicalSpan_acceptedState]

theorem stagePieces_acceptedState (phys : Bool) (l : Label) (a n : Nat) :
    stagePieces (acceptedState s m) p phys l a n = stagePieces s p phys l a n := by
  simp only [stagePieces, stageSpan, hostSpan_acceptedState]

theorem pieceBytes_acceptedState : pieceBytes (acceptedState s m) = pieceBytes s := rfl

theorem takenRanges_acceptedState : takenRanges (acceptedState s m) p = takenRanges s p := rfl

theorem findFrames_acceptedState (n : Nat) : findFrames (acceptedState s m) p n = findFrames s p n := rfl

theorem Loads.acceptedState {img : List Byte} {im : Image} {base : Nat} {frames : List Nat} {secs secs' : List Sec}
    (h : Loads s p img im base frames secs secs') : Loads (acceptedState s m) p img im base frames secs secs' where
  checks := h.checks
  place := (congrArg (chooseBase · _ _) takenRanges_acceptedState).trans h.place
  free := (findFrames_acceptedState _).trans h.free
  sites := h.sites
  tables := h.tables

/-- The jobs of the endpoint are left as they were, and so are their copies. -/
theorem allCopies_any_acceptedState (q : Copy → Bool) : (acceptedState s m).allCopies.any q = s.allCopies.any q := by
  have h := tabPut_any (fun e => (e.2.jobs.flatMap (fun j => j.2.copies.map Prod.snd)).any q) s.endpoints m.ep (acceptedEndpoint s m) (by
    simp only [acceptedEndpoint, State.endpoint, tabGetD]
    cases tabGet s.endpoints m.ep <;> simp)
  simp only [State.allCopies, List.any_append, List.any_flatMap (l := State.endpoints _)]
  exact congrArg (_ || ·) h

theorem reach_acceptedState (core va n : Nat) (via : Via) (need : Need) :
    reach (acceptedState s m) core p va n via need = reach s core p va n via need := rfl

theorem graphNames_acceptedState : graphNames (acceptedState s m) = graphNames s := by
  funext p handle o b
  simp only [graphNames, reach_acceptedState, pieceBytes_acceptedState]

theorem levelDone_acceptedState : levelDone (acceptedState s m) = levelDone s := rfl

theorem objectBusy_acceptedState (handle : Nat) (o : Obj) : objectBusy (acceptedState s m) p handle o = objectBusy s p handle o := by
  simp only [objectBusy, acceptedState_part, acceptedState_launches, acceptedState_graphs, graphNames_acceptedState, levelDone_acceptedState,
    allCopies_any_acceptedState]

/-! What the loader's commands come to. -/

theorem placeObject_of_loads {l : Label} {img : List Byte} {im : Image} {base : Nat} {frames : List Nat} {secs secs' : List Sec}
    (h : Loads s p img im base frames secs secs') :
    placeObject s p l im = .ok (freeHandle (s.part p).objects (s.nextId + 1),
      installObject s.takeId.2 p (freeHandle (s.part p).objects (s.nextId + 1)) base l im secs' frames) := by
  simp only [placeObject, h.place, h.free, h.sites, h.tables]
  rfl

/-- An image that passes every check is installed under the first handle that is free (R31). -/
theorem loadImage_of_loads {l : Label} {img : List Byte} {im : Image} {base : Nat} {frames : List Nat} {secs secs' : List Sec}
    (h : Loads s p img im base frames secs secs') :
    loadImage s p l img = .ok (freeHandle (s.part p).objects (s.nextId + 1),
      installObject s.takeId.2 p (freeHandle (s.part p).objects (s.nextId + 1)) base l im secs' frames) := by
  unfold loadImage
  rw [h.checks, ← placeObject_of_loads h]

theorem loadImage_of_refused {l : Label} {img : List Byte} {e : Refused} (h : checkImageBytes img = .error e) :
    loadImage s p l img = .error e := by
  unfold loadImage
  rw [h]

theorem tabGet_installObject (handle base : Nat) (l : Label) (im : Image) (secs : List Sec) (frames : List Nat) :
    ∃ o, tabGet ((installObject s p handle base l im secs frames).part p).objects handle = some o ∧ o.base = base ∧ o.size = im.size ∧
      o.frames = frames ∧ o.label = l ∧ o.kernels.length = im.kernels := by
  simp [installObject, State.modPart_eq]

theorem tabGet_removeObject (handle : Nat) (o : Obj) : tabGet ((removeObject s p handle o).part p).objects handle = none := by
  simp [removeObject, State.modPart_eq]

/-- The fields of a LOAD_OBJECT are good, and its image stands in pieces that it may read (R41). -/
structure Staged (s : State) (m : Message) (p : Nat) (img : List Byte) : Prop where
  part : partOfEp s m.ep = p
  length : 64 ≤ fieldAt m.payload 8 4
  reserved : zeroBytes m.payload 14 16 = true
  image : ∃ ps, stagePieces s p (isPhysical (fieldAt m.payload 0 8)) (BitVec.ofNat 16 (fieldAt m.payload 12 2))
    (plainAddress (fieldAt m.payload 0 8)) (fieldAt m.payload 8 4) = .ok ps ∧ ps.flatMap (pieceBytes s) = img

theorem Staged.acceptedState {img : List Byte} (h : Staged s m p img) : Staged (acceptedState s m) m p img where
  part := (partOfEp_acceptedState ..).trans h.part
  length := h.length
  reserved := h.reserved
  image := by
    rw [pieceBytes_acceptedState, stagePieces_acceptedState]
    exact h.image

/-- A LOAD_OBJECT with a good image in readable pieces installs it and answers its handle. -/
theorem actLoadObject_of_loads {img : List Byte} {im : Image} {base : Nat} {frames : List Nat} {secs secs' : List Sec}
    (h : Staged s m p img) (hl : Loads s p img im base frames secs secs') :
    actLoadObject m s = ({ status := stOk, detail := freeHandle (s.part p).objects (s.nextId + 1) },
      installObject s.takeId.2 p (freeHandle (s.part p).objects (s.nextId + 1)) base (BitVec.ofNat 16 (fieldAt m.payload 12 2)) im secs' frames) := by
  obtain ⟨ps, hs, rfl⟩ := h.image
  rw [actLoadObject, if_neg (Nat.not_lt.2 h.length), h.reserved, if_neg (by decide), h.part, hs]
  simp only [loadImage_of_loads hl]

theorem actLoadObject_of_refused {img : List Byte} {st i : Nat} (h : Staged s m p img) (he : checkImageBytes img = .error (st, i)) :
    actLoadObject m s = ({ status := st, index := i }, s) := by
  obtain ⟨ps, hs, rfl⟩ := h.image
  rw [actLoadObject, if_neg (Nat.not_lt.2 h.length), h.reserved, if_neg (by decide), h.part, hs]
  simp only [loadImage_of_refused he]

section
variable (h : zeroBytes m.payload 4 8 = true)
include h

theorem actUnloadObject_of_absent (ho : tabGet (s.part (partOfEp s m.ep)).objects (fieldAt m.payload 0 4) = none) :
    actUnloadObject m s = ({ status := stNoObject }, s) := by
  rw [actUnloadObject, h, if_neg (by decide), ho]

theorem actUnloadObject_of_busy {o : Obj} (ho : tabGet (s.part (partOfEp s m.ep)).objects (fieldAt m.payload 0 4) = some o)
    (hb : objectBusy s (partOfEp s m.ep) (fieldAt m.payload 0 4) o = true) :
    actUnloadObject m s = ({ status := stObjectBusy }, s) := by
  rw [actUnloadObject, h, if_neg (by decide), ho]
  exact if_pos hb

theorem actUnloadObject_of_idle {o : Obj} (ho : tabGet (s.part (partOfEp s m.ep)).objects (fieldAt m.payload 0 4) = some o)
    (hb : objectBusy s (partOfEp s m.ep) (fieldAt m.payload 0 4) o = false) :
    actUnloadObject m s = (Reply.ok, removeObject s (partOfEp s m.ep) (fieldAt m.payload 0 4) o) := by
  rw [actUnloadObject, h, if_neg (by decide), ho]
  exact if_neg (by simp [hb])
end
end

/-- Settles O43: each command ends in the state that its action leaves, which has the mail of the accepted command. A load passes every
check or fails one of the image's own; an unload finds no object, one that work names, or one that it removes. -/
theorem objects : Obligations.Objects := by
  rintro m s _ rfl
  have hp := partOfEp_acceptedState s m m.ep
  refine ⟨fun ps hi hn hz hs => ⟨_, hostCommand_of_inOrder hi actLoadObject, ?loads, ?refused⟩,
    fun hi hz => ⟨_, hostCommand_of_inOrder hi actUnloadObject, fun ho => ?absent, fun o ho => ⟨fun hb => ?busy, fun hb => ?idle⟩⟩⟩
  case loads =>
    intro im base frames secs secs' hl
    have hst : Staged s m (partOfEp s m.ep) _ := ⟨rfl, hn, hz, ps, hs, rfl⟩
    rw [actLoadObject_of_loads hst.acceptedState hl.acceptedState]
    refine ⟨completed_of_mail hi _ (by simp), ?_⟩
    rw [complete_part]
    exact tabGet_installObject ..
  case refused =>
    intro st i he
    have hst : Staged s m (partOfEp s m.ep) _ := ⟨rfl, hn, hz, ps, hs, rfl⟩
    rw [actLoadObject_of_refused hst.acceptedState he]
    exact ⟨completed_of_mail hi _ rfl, by simp, by simp⟩
  case absent =>
    rw [actUnloadObject_of_absent hz (by rwa [hp])]
    exact ⟨completed_of_mail hi _ rfl, by simp⟩
  case busy =>
    rw [actUnloadObject_of_busy hz (by rwa [hp]) (by rwa [hp, objectBusy_acceptedState])]
    exact ⟨completed_of_mail hi _ rfl, by simp⟩
  case idle =>
    rw [actUnloadObject_of_idle hz (by rwa [hp]) (by rwa [hp, objectBusy_acceptedState]), hp]
    refine ⟨completed_of_mail hi _ (by simp), ?_⟩
    rw [complete_part]
    exact tabGet_removeObject ..

end Sys2Proof.Machine
end

section
/-! SUPPORT. What the machine holds right after reset: every table is empty, so that each accessor reads its structure's reset values. -/

namespace Sys2Proof.Machine

/-- Settles O60: the tables of the reset state list nothing, and an absent entry reads as its structure's reset value. -/
theorem resetValues : Obligations.ResetValues :=
  ⟨rfl, rfl, rfl, rfl, rfl, rfl, rfl, fun _ => ⟨rfl, rfl, rfl⟩, fun _ => ⟨rfl, rfl, rfl, rfl, fun _ => rfl⟩, fun _ => rfl, fun _ => rfl⟩

end Sys2Proof.Machine
end

section
/-! SUPPORT. Messages at an endpoint: which message its reception answers, and with what (R37 to R43, R57, R64, R449). -/

namespace Sys2Proof.Machine

variable {s : State} {c : Command} {m : Message}

/-! Every command is a message received by its endpoint. -/

theorem exec_sequencedForms : ∀ x ∈ sequencedForms, ∃ act, ∀ m, exec (x.1 m) = hostCommand x.2 (runSequenced act) m := by
  simp only [sequencedForms, List.forall_mem_cons, List.not_mem_nil, false_implies, implies_true, and_true]
  and_intros <;> exact ⟨_, fun _ => rfl⟩

theorem exec_commandForms : ∀ x ∈ commandForms, ∃ run, ∀ m, exec (x.1 m) = hostCommand x.2 run m := by
  refine List.forall_mem_append.2 ⟨?_, fun x hx => (exec_sequencedForms x hx).imp' _ fun _ h => h⟩
  simp only [List.forall_mem_cons, List.not_mem_nil, false_implies, implies_true, and_true]
  and_intros <;> exact ⟨_, fun _ => rfl⟩

/-! Reception. -/

theorem receive_of_disabled (run : Message → State → State) (hr : reachable s m.ep = true) (hg : m.toMgmt = false)
    (he : (s.endpoint m.ep).enabled = false) : receive run m s = sendPlain s m.ep m.sender (disabledNotice m) := by
  simp [receive, hr, hg, he]

theorem receive_of_mustWait (run : Message → State → State) (hr : reachable s m.ep = true)
    (he : m.toMgmt = true ∨ (s.endpoint m.ep).enabled = true) (hw : mustWait s m = true) :
    receive run m s = { s with waiting := s.waiting ++ [m] } := by
  have ho : (!m.toMgmt && !(s.endpoint m.ep).enabled) = false := by rcases he with e | e <;> simp [e]
  simp [receive, hr, ho, hw]

theorem receive_of_short (run : Message → State → State) (hr : reachable s m.ep = true)
    (he : m.toMgmt = true ∨ (s.endpoint m.ep).enabled = true) (hw : mustWait s m = false) (hs : m.short = true) :
    receive run m s = { s with outbox := s.outbox ++ [plainNotice m stBadHeader 0] } := by
  have ho : (!m.toMgmt && !(s.endpoint m.ep).enabled) = false := by rcases he with e | e <;> simp [e]
  simp only [receive, hr, ho, hw, hs]
  rfl

theorem disabledNotice_outbox : (sendPlain s m.ep m.sender (disabledNotice m)).outbox =
    s.outbox ++ [if m.data.length < 32 then plainNotice m stEndpointDisabled 0
      else { plainNotice m stEndpointDisabled m.tag with hseq := m.hseq }] := by
  unfold disabledNotice
  split <;> rfl

/-! What an endpoint that hears a message sends. -/

theorem Heard.mayTalk (h : Heard s c m) : s.mayTalk m.ep = true := by
  rcases h.enabled with e | e
  · simp [State.mayTalk, show m.ep = mgmtEp by simpa [Message.toMgmt] using e]
  · simp [State.mayTalk, e]

@[simp] theorem noteSender_mayTalk (ep : Nat) : (noteSender s m).mayTalk ep = s.mayTalk ep := by
  simp only [State.mayTalk, noteSender, State.modEndpoint_eq, State.endpoint_setEndpoint]
  split <;> simp_all

theorem noteSender_endpoint : (noteSender s m).endpoint m.ep = { s.endpoint m.ep with host := m.sender } := by
  simp [noteSender, State.modEndpoint_eq]

theorem sendNumbered_outbox {ep : Nat} (h : s.mayTalk ep = true) (o : Out) : (sendNumbered s ep o).outbox =
    s.outbox ++ [{ o with dest := (s.endpoint ep).host, ep := ep, seq := (s.endpoint ep).nextDev }] := by
  rw [sendNumbered, if_pos h]
  rfl

@[simp] theorem sendNumbered_lastAccepted (ep : Nat) (o : Out) :
    ((sendNumbered s ep o).endpoint ep).lastAccepted = (s.endpoint ep).lastAccepted := by
  unfold sendNumbered
  split <;> simp

/-- A notice about a sequence number takes the endpoint's next device number and leaves its host numbers (R39). -/
theorem sequenceNotice_of_heard (h : Heard s c m) (status detail : Nat) :
    (sequenceNotice (noteSender s m) m status detail).outbox = s.outbox ++ [{ ackOf s m status with kind := 3, detail := detail }] ∧
      ((sequenceNotice (noteSender s m) m status detail).endpoint m.ep).lastAccepted = (s.endpoint m.ep).lastAccepted := by
  have ht : (noteSender s m).mayTalk m.ep = true := by simpa using h.mayTalk
  constructor
  · rw [sequenceNotice, sendNumbered_outbox ht, noteSender_endpoint]
    rfl
  · rw [sequenceNotice, sendNumbered_lastAccepted, noteSender_endpoint]

/-- An acknowledgement of a number just accepted (R39). -/
theorem acknowledge_of_heard (h : Heard s c m) (status : Nat) :
    (acknowledge (noteAccepted (noteSender s m) m) m status).outbox = s.outbox ++ [ackOf s m status] ∧
      ((acknowledge (noteAccepted (noteSender s m) m) m status).endpoint m.ep).lastAccepted = m.hseq := by
  have ht : (noteAccepted (noteSender s m) m).mayTalk m.ep = true := by
    simpa [State.mayTalk, noteAccepted_noteSender] using h.mayTalk
  constructor
  · rw [acknowledge, sendNumbered_outbox ht]
    simp [noteAccepted_noteSender, ackOf]
  · rw [acknowledge, sendNumbered_lastAccepted]
    simp [noteAccepted_noteSender]

/-! A sequenced command by its number and header (R39). -/

section
variable (act : Action)

theorem runSequenced_of_zero (h : m.hseq = 0) :
    runSequenced act m (noteSender s m) = sendPlain (noteSender s m) m.ep m.sender { blankOut 3 stBadHeader with tag := m.tag } := by
  rw [runSequenced, if_pos h]

theorem runSequenced_of_refused {k : Nat} (h0 : m.hseq ≠ 0) (hn : m.hseq = nextHost (s.endpoint m.ep).lastAccepted)
    (hk : headerRefusal s m = some k) :
    runSequenced act m (noteSender s m) = acknowledge (noteAccepted (noteSender s m) m) m k := by
  simp only [runSequenced, noteSender_endpoint, if_neg h0, ← hn, if_true, headerRefusal_noteSender, hk]

theorem runSequenced_of_wrong_number (h0 : m.hseq ≠ 0) (hn : m.hseq ≠ nextHost (s.endpoint m.ep).lastAccepted) :
    runSequenced act m (noteSender s m) = sequenceNotice (noteSender s m) m
      (if (s.endpoint m.ep).isDuplicate m.hseq then stDuplicate else stSeqGap)
      (if (s.endpoint m.ep).isDuplicate m.hseq then 0 else (s.endpoint m.ep).lastAccepted) := by
  have hl : ((noteSender s m).endpoint m.ep).lastAccepted = (s.endpoint m.ep).lastAccepted := by rw [noteSender_endpoint]
  have hd : ((noteSender s m).endpoint m.ep).isDuplicate m.hseq = (s.endpoint m.ep).isDuplicate m.hseq := by
    rw [noteSender_endpoint]
    rfl
  rw [runSequenced, if_neg h0, hl, hd, if_neg hn]
  split <;> rfl
end

/-- Settles O38: reception refuses, keeps or runs the message, and a sequenced run is one of four by its number and header. -/
theorem messageSequence : Obligations.MessageSequence := by
  refine ⟨fun x hx m s hc hr hg he => ?_, fun x hx m s hc hr he hw => ?_, fun x hx m s h => ?_⟩
  · obtain ⟨run, hrun⟩ := exec_commandForms x hx
    refine ⟨_, by rw [hrun, hostCommand, if_pos hc], ?_, ?_⟩ <;> rw [receive_of_disabled run hr hg he]
    · exact sendPlain_mem ..
    · exact disabledNotice_outbox
  · obtain ⟨run, hrun⟩ := exec_commandForms x hx
    rw [hrun, hostCommand, if_pos hc, receive_of_mustWait run hr he hw]
  · obtain ⟨act, hact⟩ := exec_sequencedForms x hx
    refine ⟨_, by rw [hact, hostCommand, if_pos h.command, receive_of_heard h], fun h0 => ?_, fun k h0 hn hk => ?_, fun h0 hn => ?_⟩
    · rw [runSequenced_of_zero act h0]
      rfl
    · rw [runSequenced_of_refused act h0 hn hk]
      obtain ⟨ho, hl⟩ := acknowledge_of_heard h k
      exact ⟨ho, hl, by simp⟩
    · rw [runSequenced_of_wrong_number act h0 hn]
      obtain ⟨ho, hl⟩ := sequenceNotice_of_heard h (if (s.endpoint m.ep).isDuplicate m.hseq then stDuplicate else stSeqGap)
        (if (s.endpoint m.ep).isDuplicate m.hseq then 0 else (s.endpoint m.ep).lastAccepted)
      exact ⟨by simp, hl, ho⟩

/-! The unsequenced commands (R40, R43, R449). -/

theorem answersFreely_noteSender : answersFreely (noteSender s m) m = answersFreely s m := rfl

theorem hostCommand_of_unsequenced (h : Unsequenced s c m) (act : Message → State → Reply × State) :
    hostCommand c (runUnsequenced act) m s = .next (answer (act m (noteSender s m)).2 m (act m (noteSender s m)).1) := by
  obtain ⟨hr, hs, hp⟩ := h.header
  rw [hostCommand, if_pos h.command, receive_of_heard h.toHeard]
  simp [runUnsequenced, h.place, h.number, hr, hs, hp, answersFreely_noteSender, h.answered]

theorem answer_outbox (t : State) (r : Reply) : (answer t m r).outbox = t.outbox ++ [answerOf m r] := rfl

/-- The stored messages from the first with a number onwards. -/
theorem storedFrom_append {first : Nat} {before after : List Out} {o : Out} (ho : o.seq = first) (hb : ∀ b ∈ before, b.seq ≠ first) :
    storedFrom first (before ++ o :: after) = some (o :: after) := by
  induction before with
  | nil => simp [storedFrom, ho]
  | cons b before ih =>
    obtain ⟨hne, hrest⟩ := List.forall_mem_cons.1 hb
    rw [List.cons_append, storedFrom, if_neg hne, ih hrest]

theorem storedFrom_eq_none {first : Nat} {l : List Out} (h : ∀ o ∈ l, o.seq ≠ first) : storedFrom first l = none := by
  induction l with
  | nil => rfl
  | cons o l ih =>
    obtain ⟨hne, hrest⟩ := List.forall_mem_cons.1 h
    rw [storedFrom, if_neg hne, ih hrest]

theorem queryStateAnswers : Rule.QueryStateAnswers := by
  intro m s h
  refine ⟨_, hostCommand_of_unsequenced h actQueryState, by simp, ?_⟩
  rw [answer_outbox]
  simp only [actQueryState, noteSender_endpoint]
  rfl

theorem replayResends : Rule.ReplayResends := by
  intro m s h
  have he := noteSender_endpoint (s := s) (m := m)
  refine ⟨_, hostCommand_of_unsequenced h actReplay, by simp, fun hn => ?_, fun before o after hst ho hb hne => ?_, fun hn hb => ?_⟩ <;>
    rw [answer_outbox]
  · simp only [actReplay, he, if_pos hn]
    rfl
  · simp only [actReplay, he, if_neg (ho ▸ hne), hst, storedFrom_append ho (ho ▸ hb)]
    rfl
  · simp only [actReplay, he, if_neg hn, storedFrom_eq_none hb]
    rfl

/-- Settles O39: an unsequenced command with a good header answers once, and a short message is answered at reception. -/
theorem unsequencedMessages : Obligations.UnsequencedMessages := by
  refine ⟨queryStateAnswers, replayResends, fun m s hr hw he hs hc => ⟨_, if_pos hc, ?_⟩⟩
  exact receive_of_short runShort hr he hw hs

end Sys2Proof.Machine
end

section
/-! SUPPORT. The laws of tables changed at a key or at every key, and what the levels read after the operations over them. -/

namespace Sys2Proof.Machine

@[simp] theorem tabGet_tabMap {α β : Type} (g : α → β) (t : Tab α) (i : Nat) : tabGet (tabMap g t) i = (tabGet t i).map g := by
  induction t with
  | nil => rfl
  | cons e t ih =>
    obtain ⟨k, v⟩ := e
    rw [tabMap, List.map_cons, tabGet, tabGet]
    split
    · rfl
    · exact ih

@[simp] theorem tabGet_tabMod {α : Type} (t : Tab α) (i j : Nat) (g : α → α) :
    tabGet (tabMod t i g) j = if j = i then (tabGet t i).map g else tabGet t j := by
  unfold tabMod
  cases h : tabGet t i with
  | none => split <;> simp_all
  | some x => simp

/-! Levels after the operations. -/

@[simp] theorem State.levelAt_setLevel (s : State) (i j : Nat) (x : Level) :
    (s.setLevel i x).levelAt j = if j = i then some x else s.levelAt j := by simp [State.levelAt]

@[simp] theorem State.levelAt_modLevel (s : State) (i j : Nat) (g : Level → Level) :
    (s.modLevel i g).levelAt j = if j = i then (s.levelAt i).map g else s.levelAt j := by simp [State.levelAt, State.modLevel]

@[simp] theorem State.levelAt_setNextId (s : State) (n k : Nat) : (s.setNextId n).levelAt k = s.levelAt k := rfl
@[simp] theorem State.levelAt_takeId (s : State) (k : Nat) : s.takeId.2.levelAt k = s.levelAt k := rfl
@[simp] theorem State.levelAt_setJob (s : State) (ep j k : Nat) (x : Job) : (s.setJob ep j x).levelAt k = s.levelAt k := rfl
@[simp] theorem State.levelAt_modEndpoint (s : State) (ep k : Nat) (g : Endpoint → Endpoint) :
    (s.modEndpoint ep g).levelAt k = s.levelAt k := rfl
@[simp] theorem State.levelAt_modPart (s : State) (p k : Nat) (g : Partition → Partition) : (s.modPart p g).levelAt k = s.levelAt k := rfl
@[simp] theorem State.takeId_fst (s : State) : s.takeId.1 = s.nextId := rfl
@[simp] theorem State.takeId_nextId (s : State) : s.takeId.2.nextId = s.nextId + 1 := rfl

@[simp] theorem State.modLevel_nextId (s : State) (k : Nat) (g : Level → Level) : (s.modLevel k g).nextId = s.nextId := rfl
@[simp] theorem State.modLevel_endpoints (s : State) (k : Nat) (g : Level → Level) : (s.modLevel k g).endpoints = s.endpoints := rfl
@[simp] theorem State.modLevel_outbox (s : State) (k : Nat) (g : Level → Level) : (s.modLevel k g).outbox = s.outbox := rfl
@[simp] theorem State.modLevel_parts (s : State) (k : Nat) (g : Level → Level) : (s.modLevel k g).parts = s.parts := rfl
@[simp] theorem State.endpoint_modLevel (s : State) (k ep : Nat) (g : Level → Level) : (s.modLevel k g).endpoint ep = s.endpoint ep := rfl

@[simp] theorem newLevel_fst (s : State) (x : Level) : (newLevel s x).1 = s.nextId := rfl
@[simp] theorem newLevel_nextId (s : State) (x : Level) : (newLevel s x).2.nextId = s.nextId + 1 := rfl
@[simp] theorem levelAt_newLevel (s : State) (x : Level) (k : Nat) :
    (newLevel s x).2.levelAt k = if k = s.nextId then some x else s.levelAt k := by simp [newLevel]

@[simp] theorem levelAt_addChildren (s : State) (i n k : Nat) : (addChildren s i n).levelAt k =
    if k = i then (s.levelAt i).map (fun x => { x with counter := x.counter + n }) else s.levelAt k := by simp [addChildren]

@[simp] theorem levelAt_closeLevel (s : State) (i k : Nat) : (closeLevel s i).levelAt k =
    if k = i then (s.levelAt i).map (fun x => { x with closed := true }) else s.levelAt k := by simp [closeLevel]

@[simp] theorem sendNumbered_levelAt (s : State) (ep k : Nat) (o : Out) : (sendNumbered s ep o).levelAt k = s.levelAt k := by
  unfold sendNumbered
  split <;> rfl

end Sys2Proof.Machine
end

section
/-! SUPPORT. What a completion needs of its endpoint, and what an accepted command and its completion leave alone: an action may change
the endpoint's jobs and every other part of the state (R38 to R40). -/

namespace Sys2Proof.Machine

/-- What the next device message of an endpoint depends on, and its last accepted number. -/
def Endpoint.voice (e : Endpoint) : Bool × Bool × BitVec 128 × Nat × Nat := (e.enabled, e.disabling, e.host, e.nextDev, e.lastAccepted)

def State.voice (s : State) (ep : Nat) : List Out × Bool × Bool × BitVec 128 × Nat × Nat := (s.outbox, (s.endpoint ep).voice)

section
variable {s t : State} {c : Command} {m : Message}

/-- An accepted command completes with its reply where its action leaves its endpoint's voice. -/
theorem completed_of_voice (h : InOrder s c m) (r : Reply) (ht : t.voice m.ep = (acceptedState s m).voice m.ep) :
    Completed s (complete t m.ep m.hseq m.tag r) m r := by
  simp only [State.voice, Endpoint.voice, Prod.mk.injEq, acceptedState, State.endpoint_setOutbox, State.endpoint_setEndpoint, if_true,
    acceptedEndpoint, State.setOutbox_outbox] at ht
  obtain ⟨ho, he, hd, hh, hn, hl⟩ := ht
  have hk : t.mayTalk m.ep = true := by simpa [State.mayTalk, he, hd] using h.mayTalk
  constructor
  · rw [complete, sendNumbered_outbox hk, ho, hh, hn, List.append_assoc]
    rfl
  · rw [complete, sendNumbered_lastAccepted, hl]

@[simp] theorem acceptedState_levelAt (k : Nat) : (acceptedState s m).levelAt k = s.levelAt k := rfl
@[simp] theorem acceptedState_levels : (acceptedState s m).levels = s.levels := rfl
@[simp] theorem acceptedState_nextId : (acceptedState s m).nextId = s.nextId := rfl
@[simp] theorem acceptedState_saved : (acceptedState s m).saved = s.saved := rfl
@[simp] theorem acceptedState_boot : (acceptedState s m).boot = s.boot := rfl
@[simp] theorem acceptedState_jobs (ep : Nat) : ((acceptedState s m).endpoint ep).jobs = (s.endpoint ep).jobs := by
  simp only [acceptedState, State.endpoint_setOutbox, State.endpoint_setEndpoint]
  split <;> simp_all [acceptedEndpoint]
@[simp] theorem acceptedState_bound (ep : Nat) : ((acceptedState s m).endpoint ep).bound = (s.endpoint ep).bound := by
  simp only [acceptedState, State.endpoint_setOutbox, State.endpoint_setEndpoint]
  split <;> simp_all [acceptedEndpoint]
end

section
variable (s : State) (ep hseq tag : Nat) (r : Reply)

@[simp] theorem complete_levelAt (k : Nat) : (complete s ep hseq tag r).levelAt k = s.levelAt k := sendNumbered_levelAt ..
@[simp] theorem complete_levels : (complete s ep hseq tag r).levels = s.levels := by
  simp only [complete, sendNumbered]
  split <;> rfl
@[simp] theorem complete_saved : (complete s ep hseq tag r).saved = s.saved := by
  simp only [complete, sendNumbered]
  split <;> rfl
@[simp] theorem complete_boot : (complete s ep hseq tag r).boot = s.boot := by
  simp only [complete, sendNumbered]
  split <;> rfl
@[simp] theorem complete_jobs (e : Nat) : ((complete s ep hseq tag r).endpoint e).jobs = (s.endpoint e).jobs := by
  simp only [complete, sendNumbered]
  split
  · simp only [State.endpoint_setOutbox, State.endpoint_setEndpoint]
    split <;> simp_all
  · rfl
end

/-! The voice of an endpoint after the operations over levels and jobs. -/

@[simp] theorem State.modLevel_voice (s : State) (k ep : Nat) (g : Level → Level) : (s.modLevel k g).voice ep = s.voice ep := rfl
@[simp] theorem closeLevel_voice (s : State) (k ep : Nat) : (closeLevel s k).voice ep = s.voice ep := rfl
@[simp] theorem addChildren_voice (s : State) (k n ep : Nat) : (addChildren s k n).voice ep = s.voice ep := rfl
@[simp] theorem newLevel_voice (s : State) (x : Level) (ep : Nat) : (newLevel s x).2.voice ep = s.voice ep := rfl
@[simp] theorem newPhase_voice (s : State) (e job n : Nat) (b : Bool) (ep : Nat) : (newPhase s e job n b).2.voice ep = s.voice ep := rfl
@[simp] theorem State.takeId_voice (s : State) (ep : Nat) : s.takeId.2.voice ep = s.voice ep := rfl
@[simp] theorem State.setLevel_voice (s : State) (k ep : Nat) (x : Level) : (s.setLevel k x).voice ep = s.voice ep := rfl
@[simp] theorem State.modPart_voice (s : State) (p ep : Nat) (g : Partition → Partition) : (s.modPart p g).voice ep = s.voice ep := rfl
@[simp] theorem State.setCopy_voice (s : State) (k ep : Nat) (x : Copy) : (s.setCopy k x).voice ep = s.voice ep := rfl

theorem State.voice_of_jobs {s t : State} {ep : Nat} (ho : t.outbox = s.outbox)
    (he : ∃ js, t.endpoint ep = { s.endpoint ep with jobs := js }) : t.voice ep = s.voice ep := by
  obtain ⟨js, he⟩ := he
  simp [State.voice, ho, he, Endpoint.voice]

theorem State.modEndpoint_jobs_voice (s : State) (e ep : Nat) (g : Tab Job → Tab Job) :
    (s.modEndpoint e (fun x => { x with jobs := g x.jobs })).voice ep = s.voice ep := by
  by_cases h : ep = e
  · subst h
    exact State.voice_of_jobs rfl ⟨g (s.endpoint ep).jobs, by simp [State.modEndpoint_eq]⟩
  · exact State.voice_of_jobs rfl ⟨(s.endpoint ep).jobs, by simp [State.modEndpoint_eq, h]⟩

@[simp] theorem State.setJob_voice (s : State) (e j ep : Nat) (x : Job) : (s.setJob e j x).voice ep = s.voice ep :=
  State.modEndpoint_jobs_voice s e ep (tabPut · j x)

@[simp] theorem State.setJob_jobs (s : State) (e j : Nat) (x : Job) : ((s.setJob e j x).endpoint e).jobs = tabPut (s.endpoint e).jobs j x := by
  simp [State.setJob, State.modEndpoint_eq]

end Sys2Proof.Machine
end

section
/-! SUPPORT. The commands on jobs: what each comes to in the state in which it is carried out (R50, R51, R59, R412, R448). -/

namespace Sys2Proof.Machine

variable {s : State} {m : Message} {x : Job}

theorem openJob_of_open (h : tabGet (s.endpoint m.ep).jobs m.job = some x) (ho : x.isOpen = true) : openJob s m = some x := by
  simp [openJob, jobOf, h, ho]

theorem openJob_of_absent (h : tabGet (s.endpoint m.ep).jobs m.job = none) : openJob s m = none := by
  simp [openJob, jobOf, h]

/-! JOB_OPEN. -/

theorem actJobOpen_of_taken (h : m.job = 0 ∨ (tabGet (s.endpoint m.ep).jobs m.job).isSome = true) : actJobOpen m s = (Reply.badJob, s) := by
  rw [actJobOpen, if_pos (by simpa [jobOf] using h)]

theorem actJobOpen_of_limit (h0 : m.job ≠ 0) (hj : tabGet (s.endpoint m.ep).jobs m.job = none) (hn : 8 ≤ openJobs (s.endpoint m.ep)) :
    actJobOpen m s = ({ status := stJobLimit }, s) := by
  rw [actJobOpen, if_neg (by simp [jobOf, h0, hj]), if_pos hn]

theorem actJobOpen_of_room (h0 : m.job ≠ 0) (hj : tabGet (s.endpoint m.ep).jobs m.job = none) (hn : openJobs (s.endpoint m.ep) < 8) :
    actJobOpen m s = (Reply.ok, openNewJob s m.ep m.job) := by
  rw [actJobOpen, if_neg (by simp [jobOf, h0, hj]), if_neg (Nat.not_le.2 hn)]

@[simp] theorem openNewJob_voice (ep j e : Nat) : (openNewJob s ep j).voice e = s.voice e := by simp [openNewJob]

theorem openNewJob_job (ep j : Nat) : tabGet ((openNewJob s ep j).endpoint ep).jobs j =
    some { level := s.nextId, phase := s.nextId + 1, parts := (s.endpoint ep).bound.toList } := by
  simp [openNewJob, newPhase, addChildren]
  rfl

theorem openNewJob_level (ep j : Nat) : (openNewJob s ep j).levelAt s.nextId =
    some { kind := 4, ident := j, parent := none, ep := ep, job := s.nextId, counter := 1 } := by
  simp [openNewJob, newPhase, addChildren]

theorem openNewJob_phase (ep j : Nat) : (openNewJob s ep j).levelAt (s.nextId + 1) =
    some { kind := 3, ident := 0, parent := some s.nextId, ep := ep, job := s.nextId } := by
  simp [openNewJob, newPhase, addChildren]

/-! JOB_CLOSE, PHASE_NEXT and SAVE_AREA of an open job. -/

/-- The state that JOB_CLOSE leaves. -/
def closedJob (s : State) (ep j : Nat) (x : Job) : State :=
  (closeLevel (closeLevel s x.phase) x.level).setJob ep j { x with isOpen := false }

theorem actJobClose_of_open (h : openJob s m = some x) : actJobClose m s = (Reply.ok, closedJob s m.ep m.job x) := by
  rw [actJobClose, h]
  rfl

theorem closedJob_levelAt {ep j k : Nat} {l : Level} (hk : k ∈ [x.phase, x.level]) (hl : s.levelAt k = some l) :
    (closedJob s ep j x).levelAt k = some { l with closed := true } := by
  rw [closedJob, State.levelAt_setJob, levelAt_closeLevel, levelAt_closeLevel, levelAt_closeLevel]
  by_cases hp : x.level = x.phase
  · rcases List.mem_pair.1 hk with rfl | rfl <;> simp_all
  · have hq : x.phase ≠ x.level := Ne.symm hp
    rcases List.mem_pair.1 hk with rfl | rfl <;> simp_all

/-- The state that PHASE_NEXT leaves. -/
def advancedJob (s : State) (ep j : Nat) (x : Job) : State :=
  (newPhase (closeLevel s x.phase) ep x.level (x.phaseNumber + 1) x.failed).2.setJob ep j
    { x with phase := s.nextId, phaseNumber := x.phaseNumber + 1 }

theorem actPhaseNext_of_open (h : openJob s m = some x) : actPhaseNext m s = (Reply.ok, advancedJob s m.ep m.job x) := by
  rw [actPhaseNext, h]
  rfl

theorem advancedJob_levelAt (ep j k : Nat) : (advancedJob s ep j x).levelAt k =
    if k = s.nextId then some { kind := 3, ident := x.phaseNumber + 1, parent := some x.level, ep := ep, job := x.level,
                                fail := if x.failed then some stDependencyFailed else none }
    else (addChildren (closeLevel s x.phase) x.level 1).levelAt k := by
  rw [advancedJob, State.levelAt_setJob, newPhase, levelAt_newLevel]
  rfl

theorem actSaveArea_of_open (h : openJob s m = some x) (ha : fieldAt m.payload 0 8 % 4096 = 0) (ht : fieldAt m.payload 0 8 < vaTop)
    (hn : fieldAt m.payload 8 8 % 4096 = 0) (hs : fieldAt m.payload 8 8 < 2 ^ 40) :
    actSaveArea m s = (Reply.ok, s.setJob m.ep m.job { x with
      saveArea := if fieldAt m.payload 8 8 = 0 then none else some (fieldAt m.payload 0 8, fieldAt m.payload 8 8)
      areaPart := partOfEp s m.ep }) := by
  rw [actSaveArea, if_neg (by simp [ha, ht]), if_neg (by simp only [hn]; simpa using hs), h]

/-! RESUME_JOB. -/

theorem hasSaved_acceptedState : hasSaved (acceptedState s m) x = hasSaved s x := by simp only [hasSaved, acceptedState_saved]

theorem imageIntact_acceptedState : imageIntact (acceptedState s m) x = imageIntact s x := by
  unfold imageIntact
  rw [pieceBytes_acceptedState]
  simp only [reach_acceptedState]

theorem actResumeJob_of_intact (hj : tabGet (s.endpoint m.ep).jobs m.job = some x) (hs : hasSaved s x = true) (hi : imageIntact s x = true) :
    actResumeJob m s = (Reply.ok, resumeJob s m.ep m.job x) := by
  simp [actResumeJob, jobOf, hj, hs, hi]

@[simp] theorem resumeJob_voice (ep j e : Nat) : (resumeJob s ep j x).voice e = s.voice e := by
  rw [resumeJob, State.modEndpoint_jobs_voice _ _ _ (tabPut · j _)]
  exact foldl_keeps _ (State.voice · e) _ _ fun _ _ _ => State.setCopy_voice ..

theorem resumeJob_job (ep j : Nat) :
    tabGet ((resumeJob s ep j x).endpoint ep).jobs j = some { x with saved := false, image := none, copies := [] } := by
  simp [resumeJob, State.modEndpoint_eq]

theorem resumeJob_saved (ep j : Nat) :
    (resumeJob s ep j x).saved = tabMap (fun y : Saved => if y.job = x.level then { y with wanted := true } else y) s.saved :=
  foldl_keeps (fun (s : State) (c : Nat × Copy) => s.setCopy c.1 c.2) State.saved _ _ fun _ _ _ => rfl

/-! A job that is not there. -/

/-- The commands that name a job that must stand. -/
theorem act_of_absentJob (h : tabGet (s.endpoint m.ep).jobs m.job = none) :
    actJobClose m s = (Reply.badJob, s) ∧ actPhaseNext m s = (Reply.badJob, s) ∧ actResumeJob m s = (Reply.badJob, s) := by
  refine ⟨?_, ?_, ?_⟩
  · rw [actJobClose, openJob_of_absent h]
  · rw [actPhaseNext, openJob_of_absent h]
  · rw [actResumeJob, jobOf, h]

theorem completed_of_absentJob {c : Command} (h : InOrder s c m) {act : Message → State → Reply × State}
    (ha : act m (acceptedState s m) = (Reply.badJob, acceptedState s m)) :
    ∃ s', hostCommand c (sequenced act) m s = .next s' ∧ Completed s s' m Reply.badJob ∧ s'.levels = s.levels := by
  refine ⟨_, hostCommand_of_inOrder h act, ?_⟩
  rw [ha]
  exact ⟨completed_of_voice h _ rfl, by simp⟩

/-- Settles O40: each command runs in the accepted state, whose jobs and levels are those before it. -/
theorem jobCommands : Obligations.JobCommands := by
  intro m s
  have hjobs : ((acceptedState s m).endpoint m.ep).jobs = (s.endpoint m.ep).jobs := acceptedState_jobs m.ep
  have hopen : openJobs ((acceptedState s m).endpoint m.ep) = openJobs (s.endpoint m.ep) := by rw [openJobs, hjobs, openJobs]
  refine ⟨fun hi => ⟨_, hostCommand_of_inOrder hi actJobOpen, fun ht => ?taken, fun h0 hj hn => ?limit, fun h0 hj hn => ?room⟩,
    fun x hx ho => ?_, fun x hi hx hs hw => ?resume, ?absent⟩
  case taken =>
    rw [actJobOpen_of_taken (by rwa [hjobs])]
    exact completed_of_voice hi _ rfl
  case limit =>
    rw [actJobOpen_of_limit h0 (by rwa [hjobs]) (by rwa [hopen])]
    exact completed_of_voice hi _ rfl
  case room =>
    rw [actJobOpen_of_room h0 (by rwa [hjobs]) (by rwa [hopen])]
    refine ⟨completed_of_voice hi _ (by simp), ?_, ?_, ?_⟩
    · rw [complete_jobs, openNewJob_job, acceptedState_bound, acceptedState_nextId]
    · rw [complete_levelAt]
      exact openNewJob_level ..
    · rw [complete_levelAt]
      exact openNewJob_phase ..
  case resume =>
    refine ⟨_, hostCommand_of_inOrder hi actResumeJob, ?_⟩
    rw [actResumeJob_of_intact (by rwa [hjobs]) (hasSaved_acceptedState.trans hs) (imageIntact_acceptedState.trans hw)]
    refine ⟨completed_of_voice hi _ (by simp), ?_, fun k y hy => ?_⟩
    · rw [complete_jobs, resumeJob_job]
    · rw [complete_saved, resumeJob_saved, tabGet_tabMap, acceptedState_saved, hy]
      rfl
  case absent =>
    have ha (h : tabGet (s.endpoint m.ep).jobs m.job = none) := act_of_absentJob (s := acceptedState s m) (m := m) (by rwa [hjobs])
    simp only [List.forall_mem_cons, List.not_mem_nil, false_implies, implies_true, and_true]
    exact ⟨fun hi hn => completed_of_absentJob hi (ha hn).1, fun hi hn => completed_of_absentJob hi (ha hn).2.1,
      fun hi hn => completed_of_absentJob hi (ha hn).2.2⟩
  have hj : openJob (acceptedState s m) m = some x := openJob_of_open (by rwa [hjobs]) ho
  refine ⟨fun hi => ⟨_, hostCommand_of_inOrder hi actJobClose, ?close⟩,
    fun hi hp hl hpl => ⟨_, hostCommand_of_inOrder hi actPhaseNext, ?next⟩,
    fun hi ha ht hn hs => ⟨_, hostCommand_of_inOrder hi actSaveArea, ?area⟩⟩
  case close =>
    rw [actJobClose_of_open hj]
    refine ⟨completed_of_voice hi _ (by simp [closedJob]), ?_, fun k hk l hl => ?_⟩
    · rw [complete_jobs, closedJob, State.setJob_jobs, tabGet_put, if_pos rfl]
    · rw [complete_levelAt]
      exact closedJob_levelAt hk hl
  case next =>
    rw [actPhaseNext_of_open hj]
    refine ⟨completed_of_voice hi _ (by simp [advancedJob]), ?_, ?_, fun l hl' => ?_, fun l hl' => ?_⟩
    · rw [complete_jobs, advancedJob, State.setJob_jobs, tabGet_put, if_pos rfl]
      rfl
    · rw [complete_levelAt, advancedJob_levelAt, acceptedState_nextId, if_pos rfl]
    · rw [complete_levelAt, advancedJob_levelAt, acceptedState_nextId, if_neg hp.ne]
      simp [hpl, hl']
    · rw [complete_levelAt, advancedJob_levelAt, acceptedState_nextId, if_neg hl.ne]
      simp [Ne.symm hpl, hl']
  case area =>
    rw [actSaveArea_of_open hj ha ht hn hs]
    refine ⟨completed_of_voice hi _ (by simp), ?_⟩
    rw [complete_jobs, State.setJob_jobs, tabGet_put, if_pos rfl, partOfEp_acceptedState]

end Sys2Proof.Machine
end

section
/-! SUPPORT. What a cancel leaves of each level, and of what its endpoints say (R53). -/

namespace Sys2Proof.Machine

/-! Levels changed one after another. -/

theorem levelAt_foldl_modLevel (g : Level → Level) (hg : ∀ x, g (g x) = g x) (ls : List Nat) (s : State) (k : Nat) :
    (ls.foldl (fun s n => s.modLevel n g) s).levelAt k = if k ∈ ls then (s.levelAt k).map g else s.levelAt k := by
  induction ls generalizing s with
  | nil => rfl
  | cons n ls ih =>
    rw [List.foldl_cons, ih, State.levelAt_modLevel]
    by_cases hn : k = n
    · subst hn
      by_cases hl : k ∈ ls <;> simp [hl, Option.map_map, Function.comp_def, hg]
    · by_cases hl : k ∈ ls <;> simp [hl, hn]

/-- The levels that a cancel takes along: those at or below it that have no outcome yet. -/
def cancelSet (s : State) (k : Nat) : List Nat :=
  (withDescendants s k).filter (fun n => ((s.levelAt n).map (fun x => x.outcome.isNone)).getD false)

/-- The launches of the levels that a cancel takes along. -/
def cancelLaunches (s : State) (k : Nat) : List Nat := (s.launches.filter (fun e => (cancelSet s k).contains e.2.level)).map Prod.fst

/-- A level as a cancel marks it. -/
def Level.marked (x : Level) : Level := { x with cancelled := true, closed := true }

/-- A state with the levels of a list marked. -/
def markLevels (s : State) (ls : List Nat) : State := ls.foldl (fun s n => s.modLevel n Level.marked) s

/-- The counter of a cancelled level is the number of its children that are still to stop. -/
def recountLevel (s : State) (n : Nat) : State :=
  match s.levelAt n with
  | some x => s.modLevel n (fun y => { y with counter := runningChildren s n x })
  | none => s

/-- The state whose units, saved units and copies a cancel has stopped. -/
def stopWork (s : State) (k : Nat) : State :=
  stopCopies (dropSaved (cancelUnits s (cancelLaunches s k)) (cancelLaunches s k)) (cancelSet s k) (cancelLaunches s k)

theorem cancelAt_eq (s : State) (k : Nat) : cancelAt s k =
    closeJobs (dropBegun ((cancelSet s k).foldl recountLevel (markLevels (stopWork s k) (cancelSet s k))) (cancelSet s k)) (cancelSet s k) := rfl

theorem levelAt_markLevels (s : State) (ls : List Nat) (k : Nat) :
    (markLevels s ls).levelAt k = if k ∈ ls then (s.levelAt k).map Level.marked else s.levelAt k :=
  levelAt_foldl_modLevel Level.marked (fun _ => rfl) ls s k

theorem levelAt_recountLevel (s : State) (n k : Nat) :
    ∃ c, (recountLevel s n).levelAt k = if k = n then (s.levelAt k).map (fun x => { x with counter := c }) else s.levelAt k := by
  unfold recountLevel
  cases hn : s.levelAt n with
  | none => exact ⟨0, by split <;> simp_all⟩
  | some x =>
    refine ⟨runningChildren s n x, ?_⟩
    rw [State.levelAt_modLevel]
    split
    · subst k; rfl
    · rfl

theorem levelAt_recount_of_not_mem {ls : List Nat} {k : Nat} (h : k ∉ ls) (s : State) :
    (ls.foldl recountLevel s).levelAt k = s.levelAt k := by
  refine foldl_keeps recountLevel (State.levelAt · k) ls s fun s n hn => ?_
  obtain ⟨c, hc⟩ := levelAt_recountLevel s n k
  rw [hc, if_neg (by rintro rfl; exact h hn)]

theorem levelAt_recount (ls : List Nat) (s : State) {k : Nat} {x : Level} (h : s.levelAt k = some x) :
    ∃ c, (ls.foldl recountLevel s).levelAt k = some { x with counter := c } := by
  induction ls generalizing s x with
  | nil => exact ⟨x.counter, h⟩
  | cons n ls ih =>
    obtain ⟨c, hc⟩ := levelAt_recountLevel s n k
    rw [h] at hc
    rw [List.foldl_cons]
    split at hc
    · obtain ⟨d, hd⟩ := ih _ hc
      exact ⟨d, hd⟩
    · exact ih _ hc

/-- A cancel leaves every level outside its set. -/
theorem levelAt_cancelAt_of_not_mem {s : State} {k n : Nat} (h : n ∉ cancelSet s k) : (cancelAt s k).levelAt n = s.levelAt n := by
  rw [cancelAt_eq]
  show (List.foldl recountLevel (markLevels (stopWork s k) (cancelSet s k)) (cancelSet s k)).levelAt n = _
  rw [levelAt_recount_of_not_mem h, levelAt_markLevels, if_neg h]
  rfl

/-- A cancel marks every level of its set, and counts its children again. -/
theorem levelAt_cancelAt_of_mem {s : State} {k n : Nat} {x : Level} (h : n ∈ cancelSet s k) (hx : s.levelAt n = some x) :
    ∃ c, (cancelAt s k).levelAt n = some { x with cancelled := true, closed := true, counter := c } := by
  rw [cancelAt_eq]
  have hm : (markLevels (stopWork s k) (cancelSet s k)).levelAt n = some x.marked := by
    rw [levelAt_markLevels, if_pos h]
    exact congrArg (Option.map Level.marked) hx
  exact levelAt_recount (cancelSet s k) _ hm

theorem mem_cancelSet_self {s : State} {k : Nat} {x : Level} (hx : s.levelAt k = some x) (ho : x.outcome = none) : k ∈ cancelSet s k :=
  List.mem_filter.2 ⟨List.mem_cons_self, by simp [hx, ho]⟩

/-! The voices of the endpoints. -/

theorem voice_of_tabMap (g : Tab Job → Tab Job) (t : Tab Endpoint) (ep : Nat) :
    (tabGetD ({} : Endpoint) (tabMap (fun e : Endpoint => { e with jobs := g e.jobs }) t) ep).voice = (tabGetD {} t ep).voice := by
  simp only [tabGetD, tabGet_tabMap]
  cases tabGet t ep <;> rfl

theorem stopCopies_voice (s : State) (ls launches : List Nat) (ep : Nat) : (stopCopies s ls launches).voice ep = s.voice ep :=
  congrArg (Prod.mk s.outbox) (voice_of_tabMap
    (tabMap (fun j : Job => { j with copies := j.copies.filter (fun e => !copyOf s ls launches e.2) })) s.endpoints ep)

theorem closeJobs_voice (s : State) (ls : List Nat) (ep : Nat) : (closeJobs s ls).voice ep = s.voice ep :=
  congrArg (Prod.mk s.outbox) (voice_of_tabMap
    (tabMap (fun j : Job => if ls.contains j.level then { j with isOpen := false } else j)) s.endpoints ep)

theorem recountLevel_voice (s : State) (n ep : Nat) : (recountLevel s n).voice ep = s.voice ep := by
  unfold recountLevel
  split <;> rfl

@[simp] theorem cancelAt_voice (s : State) (k ep : Nat) : (cancelAt s k).voice ep = s.voice ep := by
  rw [cancelAt_eq, closeJobs_voice]
  calc State.voice (List.foldl recountLevel (markLevels (stopWork s k) (cancelSet s k)) (cancelSet s k)) ep
      = (markLevels (stopWork s k) (cancelSet s k)).voice ep :=
        foldl_keeps recountLevel (State.voice · ep) _ _ fun _ _ _ => recountLevel_voice ..
    _ = (stopWork s k).voice ep := foldl_keeps _ (State.voice · ep) _ _ fun _ _ _ => State.modLevel_voice ..
    _ = s.voice ep := stopCopies_voice ..

end Sys2Proof.Machine
end

section
/-! SUPPORT. The commands on queues: QUEUE_CONFIG, SUBMIT, CANCEL and the status window, and what each comes to in the state in which it is carried
out (R44 to R46, R50 to R53). -/

namespace Sys2Proof.Machine

variable {s : State} {m : Message}

/-! QUEUE_CONFIG. -/

/-- The queue that a command's first byte names in its endpoint's partition. -/
def namedQueue (s : State) (m : Message) : Queue := tabGetD {} (s.part (partOfEp s m.ep)).queues (fieldAt m.payload 0 1)

@[simp] theorem namedQueue_acceptedState : namedQueue (acceptedState s m) m = namedQueue s m := by
  rw [namedQueue, namedQueue, partOfEp_acceptedState, acceptedState_part]

/-- The fields of a QUEUE_CONFIG are good. -/
structure ConfigOk (m : Message) : Prop where
  reserved : zeroBytes m.payload 1 4 = true
  depth : ∃ k, 4 ≤ k ∧ k ≤ 12 ∧ fieldAt m.payload 4 4 = 2 ^ k

theorem ConfigOk.depthOk (h : ConfigOk m) :
    (!isPowerOfTwo (fieldAt m.payload 4 4) || fieldAt m.payload 4 4 < 16 || 4096 < fieldAt m.payload 4 4 : Bool) = false := by
  obtain ⟨k, h4, h12, hk⟩ := h.depth
  have hp : isPowerOfTwo (2 ^ k) = true := List.any_eq_true.2 ⟨k, List.mem_range.2 (by omega), by simp⟩
  have hlo : 2 ^ 4 ≤ 2 ^ k := Nat.pow_le_pow_right (by decide) h4
  have hhi : 2 ^ k ≤ 2 ^ 12 := Nat.pow_le_pow_right (by decide) h12
  rw [hk, hp]
  simp
  omega

theorem actQueueConfig_of_ok (h : ConfigOk m) : actQueueConfig m s =
    if (namedQueue s m).owner.any (· != m.ep) then ({ status := stNotOwner }, s)
    else if fieldAt m.payload 4 4 < (namedQueue s m).entries.length then ({ status := stQueueFull }, s)
    else (Reply.ok, s.modPart (partOfEp s m.ep) (fun y => { y with
      queues := tabPut y.queues (fieldAt m.payload 0 1) { namedQueue s m with owner := some m.ep, depth := fieldAt m.payload 4 4 } })) := by
  rw [actQueueConfig, h.reserved, if_neg (by decide), h.depthOk, if_neg (by decide)]
  rfl

theorem queueConfigTakesEffect (hi : InOrder s .queueConfig m) (h : ConfigOk m) :
    ∃ s', exec (.queueConfig m) s = .next s' ∧
      ((∃ e, (namedQueue s m).owner = some e ∧ e ≠ m.ep) → Completed s s' m { status := stNotOwner }) ∧
      ((namedQueue s m).owner = none ∨ (namedQueue s m).owner = some m.ep → fieldAt m.payload 4 4 < (namedQueue s m).entries.length →
        Completed s s' m { status := stQueueFull }) ∧
      ((namedQueue s m).owner = none ∨ (namedQueue s m).owner = some m.ep → (namedQueue s m).entries.length ≤ fieldAt m.payload 4 4 →
        Completed s s' m Reply.ok ∧ tabGet (s'.part (partOfEp s m.ep)).queues (fieldAt m.payload 0 1) =
          some { namedQueue s m with owner := some m.ep, depth := fieldAt m.payload 4 4 }) := by
  have hmine (ho : (namedQueue s m).owner = none ∨ (namedQueue s m).owner = some m.ep) : (namedQueue s m).owner.any (· != m.ep) = false := by
    rcases ho with ho | ho <;> simp [ho]
  refine ⟨_, hostCommand_of_inOrder hi actQueueConfig, fun ⟨e, he, hne⟩ => ?_, fun ho hn => ?_, fun ho hn => ?_⟩ <;>
    rw [actQueueConfig_of_ok h, namedQueue_acceptedState]
  · rw [if_pos (by simp [he, hne])]
    exact completed_of_voice hi _ rfl
  · rw [if_neg (by simp [hmine ho]), if_pos hn]
    exact completed_of_voice hi _ rfl
  · rw [if_neg (by simp [hmine ho]), if_neg (Nat.not_lt.2 hn)]
    refine ⟨completed_of_voice hi _ rfl, ?_⟩
    simp [State.modPart_eq]

/-! SUBMIT. -/

theorem firstBad_eq_none {l : List (List Byte)} (h : ∀ b ∈ l, entryOk b = true) (i : Nat) : firstBad i l = none := by
  induction l generalizing i with
  | nil => rfl
  | cons b l ih =>
    obtain ⟨hb, hl⟩ := List.forall_mem_cons.1 h
    rw [firstBad, if_pos hb, ih hl]

@[simp] theorem askAbove_parts (s : State) (x : Job) (b : List Byte) : (askAbove s x b).parts = s.parts := by
  unfold askAbove
  split <;> rfl

@[simp] theorem askAbove_voice (s : State) (x : Job) (b : List Byte) (ep : Nat) : (askAbove s x b).voice ep = s.voice ep := by
  unfold askAbove
  split <;> rfl

@[simp] theorem entryLevel_parts (s : State) (ep job phase : Nat) (b : List Byte) (c : Bool) :
    (entryLevel s ep job phase b c).2.parts = s.parts := by
  by_cases h : entryKind b = 1 <;> simp only [entryLevel, h, if_true, if_false] <;> rfl

@[simp] theorem entryLevel_voice (s : State) (ep job phase : Nat) (b : List Byte) (c : Bool) (e : Nat) :
    (entryLevel s ep job phase b c).2.voice e = s.voice e := by
  by_cases h : entryKind b = 1 <;> simp only [entryLevel, h, if_true, if_false] <;> rfl

@[simp] theorem appendEntry_voice (ep p q : Nat) (x : Job) (c : Bool) (s : State) (b : List Byte) (e : Nat) :
    (appendEntry ep p q x c s b).voice e = s.voice e := by
  unfold appendEntry
  split <;> simp

/-- What joins a cancelled phase enters no queue (R53). -/
theorem appendEntry_cancelled_parts (ep p q : Nat) (x : Job) (s : State) (b : List Byte) :
    (appendEntry ep p q x true s b).parts = s.parts := by simp [appendEntry]

/-- The entry stands under the job and its phase, not begun. -/
def Submitted (ep : Nat) (x : Job) (e : QEntry) : Prop := e.ep = ep ∧ e.job = x.level ∧ e.phase = x.phase ∧ e.begun = none

theorem appendEntry_queue (ep p q : Nat) (x : Job) (s : State) (b : List Byte) :
    ∃ e, (tabGetD {} ((appendEntry ep p q x false s b).part p).queues q).entries = (tabGetD {} (s.part p).queues q).entries ++ [e] ∧
      e.bytes = b ∧ Submitted ep x e := by
  have hp (t : State) (h : t.parts = s.parts) : t.part p = s.part p := by rw [State.part, State.part, h]
  simp only [appendEntry, State.modPart_eq, hp _ (show (entryLevel (askAbove s x b) ep x.level x.phase b false).2.parts =
    s.parts by simp)]
  exact ⟨_, by simp; rfl, rfl, rfl, rfl, rfl, rfl⟩

theorem appendEntries_queue (ep p q : Nat) (x : Job) (s : State) (l : List (List Byte)) :
    ∃ es, (tabGetD {} ((l.foldl (appendEntry ep p q x false) s).part p).queues q).entries = (tabGetD {} (s.part p).queues q).entries ++ es ∧
      es.map QEntry.bytes = l ∧ ∀ e ∈ es, Submitted ep x e := by
  induction l generalizing s with
  | nil => exact ⟨[], by simp⟩
  | cons b l ih =>
    obtain ⟨e, he, hb, hs⟩ := appendEntry_queue ep p q x s b
    obtain ⟨es, hes, hl, hall⟩ := ih (appendEntry ep p q x false s b)
    refine ⟨e :: es, ?_, by rw [List.map_cons, hb, hl], List.forall_mem_cons.2 ⟨hs, hall⟩⟩
    rw [List.foldl_cons, hes, he, List.append_assoc]
    rfl

/-- The fields and entries of a SUBMIT are good, its queue is its endpoint's, and its job and phase are there. -/
structure SubmitOk (s : State) (m : Message) (j : Job) (l : Level) : Prop where
  reserved : zeroBytes m.payload 1 2 = true ∧ zeroBytes m.payload 4 8 = true
  count : fieldAt m.payload 2 2 ≠ 0 ∧ fieldAt m.payload 2 2 ≤ 1023
  entries : ∀ b ∈ entriesOf m, entryOk b = true
  owner : (namedQueue s m).owner = some m.ep
  job : tabGet (s.endpoint m.ep).jobs m.job = some j ∧ j.isOpen = true
  phase : s.levelAt j.phase = some l

variable {j : Job} {l : Level}

theorem SubmitOk.acceptedState (h : SubmitOk s m j l) : SubmitOk (acceptedState s m) m j l where
  reserved := h.reserved
  count := h.count
  entries := h.entries
  owner := by rw [namedQueue_acceptedState]; exact h.owner
  job := by rw [acceptedState_jobs]; exact h.job
  phase := h.phase

theorem actSubmit_of_ok (h : SubmitOk s m j l) : actSubmit m s =
    if j.failed then ({ status := stDependencyFailed }, s)
    else if (namedQueue s m).depth < (namedQueue s m).entries.length + fieldAt m.payload 2 2 then ({ status := stQueueFull }, s)
    else (Reply.ok, (entriesOf m).foldl (appendEntry m.ep (partOfEp s m.ep) (fieldAt m.payload 0 1) j l.cancelled) s) := by
  obtain ⟨h1, h4⟩ := h.reserved
  obtain ⟨h0, hn⟩ := h.count
  rw [actSubmit, h1, if_neg (by decide), if_neg (by simp; omega), h4, if_neg (by decide), firstBad_eq_none h.entries]
  have ho : (tabGetD {} (s.part (partOfEp s m.ep)).queues (fieldAt m.payload 0 1)).owner = some m.ep := h.owner
  simp only [ho, bne_self_eq_false, Bool.false_eq_true, if_false, openJob_of_open h.job.1 h.job.2, h.phase]
  rfl

theorem submitTakesEffect (hi : InOrder s .submit m) (h : SubmitOk s m j l) :
    ∃ s', exec (.submit m) s = .next s' ∧ s'.mem = s.mem ∧
      (j.failed = true → Completed s s' m { status := stDependencyFailed } ∧ s'.parts = s.parts) ∧
      (j.failed = false → (namedQueue s m).depth < (namedQueue s m).entries.length + fieldAt m.payload 2 2 →
        Completed s s' m { status := stQueueFull } ∧ s'.parts = s.parts) ∧
      (j.failed = false → l.cancelled = true → (namedQueue s m).entries.length + fieldAt m.payload 2 2 ≤ (namedQueue s m).depth →
        Completed s s' m Reply.ok ∧ s'.parts = s.parts) ∧
      (j.failed = false → l.cancelled = false → (namedQueue s m).entries.length + fieldAt m.payload 2 2 ≤ (namedQueue s m).depth →
        Completed s s' m Reply.ok ∧
        ∃ es, (tabGetD {} (s'.part (partOfEp s m.ep)).queues (fieldAt m.payload 0 1)).entries = (namedQueue s m).entries ++ es ∧
          es.map QEntry.bytes = entriesOf m ∧ ∀ e ∈ es, Submitted m.ep j e) := by
  have hv (c : Bool) (t : State) : ((entriesOf m).foldl (appendEntry m.ep (partOfEp s m.ep) (fieldAt m.payload 0 1) j c) t).voice m.ep =
      t.voice m.ep := foldl_keeps _ (State.voice · m.ep) _ _ fun _ _ _ => appendEntry_voice ..
  refine ⟨_, hostCommand_of_inOrder hi actSubmit, by simp, fun hf => ?_, fun hf hn => ?_, fun hf hc hn => ?_, fun hf hc hn => ?_⟩ <;>
    rw [actSubmit_of_ok h.acceptedState, namedQueue_acceptedState, hf, partOfEp_acceptedState]
  · exact ⟨completed_of_voice hi _ rfl, by simp⟩
  · rw [if_neg (by decide), if_pos hn]
    exact ⟨completed_of_voice hi _ rfl, by simp⟩
  · rw [if_neg (by decide), if_neg (Nat.not_lt.2 hn), hc]
    refine ⟨completed_of_voice hi _ (hv ..), (complete_parts ..).trans ?_⟩
    exact foldl_keeps _ State.parts _ _ fun _ _ _ => appendEntry_cancelled_parts ..
  · rw [if_neg (by decide), if_neg (Nat.not_lt.2 hn), hc]
    refine ⟨completed_of_voice hi _ (hv ..), ?_⟩
    rw [complete_part]
    exact appendEntries_queue ..

/-! CANCEL. -/

/-- A cancel of each of some levels in turn, where it takes effect. -/
def cancelAll (s : State) (ks : List Nat) : State := ks.foldl (fun s k => if cancelTakes s k then cancelAt s k else s) s

@[simp] theorem cancelAll_voice (s : State) (ks : List Nat) (ep : Nat) : (cancelAll s ks).voice ep = s.voice ep :=
  foldl_keeps _ (State.voice · ep) _ _ fun s k _ => by split <;> simp

/-- The level has been cancelled. -/
def CancelledAt (s : State) (k : Nat) : Prop := ∃ l, s.levelAt k = some l ∧ l.cancelled = true ∧ l.closed = true

theorem CancelledAt.cancelAt {k : Nat} (h : CancelledAt s k) (n : Nat) : CancelledAt (cancelAt s n) k := by
  obtain ⟨l, hl, hc, hd⟩ := h
  by_cases hm : k ∈ cancelSet s n
  · obtain ⟨c, hl'⟩ := levelAt_cancelAt_of_mem hm hl
    exact ⟨_, hl', rfl, rfl⟩
  · exact ⟨l, (levelAt_cancelAt_of_not_mem hm).trans hl, hc, hd⟩

/-- A cancel either cancels another level too or leaves it as it was. -/
theorem cancelledAt_or_takes {k : Nat} (h : cancelTakes s k = true) (n : Nat) :
    CancelledAt (cancelAt s n) k ∨ cancelTakes (cancelAt s n) k = true := by
  by_cases hm : k ∈ cancelSet s n
  · left
    unfold cancelTakes at h
    split at h
    · next l hl =>
      obtain ⟨c, hl'⟩ := levelAt_cancelAt_of_mem hm hl
      exact ⟨_, hl', rfl, rfl⟩
    · cases h
  · right
    rwa [cancelTakes, levelAt_cancelAt_of_not_mem hm]

theorem cancelledAt_self {k : Nat} (h : cancelTakes s k = true) : CancelledAt (cancelAt s k) k := by
  unfold cancelTakes at h
  split at h
  · next l hl =>
    rw [Bool.and_eq_true] at h
    obtain ⟨c, hl'⟩ := levelAt_cancelAt_of_mem (mem_cancelSet_self hl (Option.isNone_iff_eq_none.1 h.1)) hl
    exact ⟨_, hl', rfl, rfl⟩
  · cases h

theorem CancelledAt.cancelAll {k : Nat} (h : CancelledAt s k) (ks : List Nat) : CancelledAt (cancelAll s ks) k := by
  induction ks generalizing s with
  | nil => exact h
  | cons n ks ih =>
    refine ih (s := if cancelTakes s n then Machine.cancelAt s n else s) ?_
    split
    · exact h.cancelAt n
    · exact h

/-- Every level of a list on which a cancel takes effect is cancelled in its turn or before it. -/
theorem cancelledAt_cancelAll {k : Nat} {ks : List Nat} (hk : k ∈ ks) (h : cancelTakes s k = true) : CancelledAt (cancelAll s ks) k := by
  induction ks generalizing s with
  | nil => cases hk
  | cons n ks ih =>
    by_cases hn : k = n
    · subst hn
      show CancelledAt (Machine.cancelAll (if cancelTakes s k then cancelAt s k else s) ks) k
      rw [if_pos h]
      exact (cancelledAt_self h).cancelAll ks
    · have hks : k ∈ ks := (List.mem_cons.1 hk).resolve_left hn
      show CancelledAt (Machine.cancelAll (if cancelTakes s n then cancelAt s n else s) ks) k
      split
      · exact (cancelledAt_or_takes h n).elim (fun hc => hc.cancelAll ks) (fun ht => ih hks ht)
      · exact ih hks h

/-- The fields of a CANCEL are good and its job is there. -/
structure CancelOk (s : State) (m : Message) (j : Job) : Prop where
  kind : 1 ≤ fieldAt m.payload 0 1 ∧ fieldAt m.payload 0 1 ≤ 4
  reserved : zeroBytes m.payload 1 4 = true
  ident : fieldAt m.payload 0 1 = 4 → fieldAt m.payload 4 4 = 0
  job : tabGet (s.endpoint m.ep).jobs m.job = some j

theorem actCancel_of_ok (h : CancelOk s m j) : actCancel m s =
    if toCancel s j (fieldAt m.payload 0 1) (fieldAt m.payload 4 4) = [] then ({ status := stAlreadyDone }, s)
    else (Reply.ok, cancelAll s (toCancel s j (fieldAt m.payload 0 1) (fieldAt m.payload 4 4))) := by
  obtain ⟨h1, h4⟩ := h.kind
  have hz : (decide (fieldAt m.payload 0 1 = 4) && fieldAt m.payload 4 4 != 0) = false := by
    by_cases hk : fieldAt m.payload 0 1 = 4
    · simp [h.ident hk]
    · simp [hk]
  rw [actCancel, if_neg (by simp; omega), h.reserved, if_neg (by decide), hz, if_neg (by decide), jobOf, h.job, Option.map_some]
  cases toCancel s j (fieldAt m.payload 0 1) (fieldAt m.payload 4 4) <;> rfl

theorem cancelTakesEffect (hi : InOrder s .cancel m) (h : CancelOk s m j) :
    ∃ s', exec (.cancelCmd m) s = .next s' ∧ s'.mem = s.mem ∧
      (toCancel s j (fieldAt m.payload 0 1) (fieldAt m.payload 4 4) = [] →
        Completed s s' m { status := stAlreadyDone } ∧ s'.levels = s.levels) ∧
      (toCancel s j (fieldAt m.payload 0 1) (fieldAt m.payload 4 4) ≠ [] → Completed s s' m Reply.ok ∧
        ∀ k ∈ toCancel s j (fieldAt m.payload 0 1) (fieldAt m.payload 4 4), cancelTakes s k = true → CancelledAt s' k) := by
  have ha : CancelOk (acceptedState s m) m j := { h with job := by rw [acceptedState_jobs]; exact h.job }
  have ht : toCancel (acceptedState s m) j = toCancel s j := rfl
  refine ⟨_, hostCommand_of_inOrder hi actCancel, by simp, fun hn => ?_, fun hn => ?_⟩ <;> rw [actCancel_of_ok ha, ht]
  · rw [if_pos hn]
    exact ⟨completed_of_voice hi _ rfl, by simp⟩
  · rw [if_neg hn]
    refine ⟨completed_of_voice hi _ (by simp), fun k hk hc => ?_⟩
    simp only [CancelledAt, complete_levelAt]
    exact cancelledAt_cancelAll hk hc

/-! The status window. -/

/-- The address and the fields of a read of the status window name a level's record (R44). -/
structure WindowOk (m : Message) (kind ident : Nat) : Prop where
  address : fieldAt m.payload 0 8 % 2 ^ 62 = kind * 2 ^ 32 + ident
  small : ident < 2 ^ 32
  level : 1 ≤ kind ∧ kind ≤ 4
  job : kind = 4 → ident = 0
  length : fieldAt m.payload 8 4 = 16
  reserved : zeroBytes m.payload 12 16 = true

theorem actStatusWindowRead_of_ok {kind ident : Nat} (h : WindowOk m kind ident) : actStatusWindowRead m s =
    ({ status := stOk, payload := ((shownLevel s m kind ident).map (statusRecord s)).getD noStatusRecord }, s) := by
  obtain ⟨h1, h4⟩ := h.level
  have ha := h.address
  have hi := h.small
  have hj := h.job
  have hk : fieldAt m.payload 0 8 / 2 ^ 32 % 8 = kind := by omega
  have hn : fieldAt m.payload 0 8 % 2 ^ 32 = ident := by omega
  have hr : fieldAt m.payload 0 8 / 2 ^ 35 % 2 ^ 27 = 0 := by omega
  have hz : (decide (kind = 4) && ident != 0) = false := by
    by_cases hc : kind = 4
    · simp [hj hc]
    · simp [hc]
  simp only [actStatusWindowRead, hk, hn, hr, hz, h.length, h.reserved]
  rw [if_neg (by simp; omega), if_neg (by decide), if_neg (by decide), jobOf, shownLevel]
  cases tabGet (s.endpoint m.ep).jobs m.job <;> rfl

theorem statusRecord_acceptedState : statusRecord (acceptedState s m) = statusRecord s := rfl

theorem shownLevel_acceptedState (kind ident : Nat) : shownLevel (acceptedState s m) m kind ident = shownLevel s m kind ident := by
  rw [shownLevel, acceptedState_jobs]
  rfl

/-- A record's bytes: of a level that has completed and of one that runs. -/
theorem statusRecord_eq (l : Level) : ∃ b : List Byte, statusRecord s l = b ++ [0, 0] ++ leBytes 4 l.message ++ [0, 0, 0, 0] ∧
    (∀ k, l.status = some k → b = leBytes 4 0 ++ leBytes 2 k) ∧
    (l.status = none → l.counter < 2 ^ 32 → b = leBytes 4 l.counter ++ [0xFF#8, 0xFF#8]) := by
  refine ⟨_, rfl, fun k hk => by rw [hk], fun hn hc => ?_⟩
  rw [hn, counterWord, if_pos hc, BitVec.toNat_ofNat, Nat.mod_eq_of_lt hc]
  rfl

theorem statusReadTakesEffect (hi : InOrder s .statusWindowRead m) {kind ident : Nat} (h : WindowOk m kind ident) :
    ∃ s', exec (.statusWindowRead m) s = .next s' ∧ s'.levels = s.levels ∧
      Completed s s' m { status := stOk, payload := ((shownLevel s m kind ident).map (statusRecord s)).getD noStatusRecord } := by
  refine ⟨_, hostCommand_of_inOrder hi actStatusWindowRead, ?_, ?_⟩ <;> rw [actStatusWindowRead_of_ok h]
  · simp
  · rw [shownLevel_acceptedState, statusRecord_acceptedState]
    exact completed_of_voice hi _ rfl

/-- Settles O41: each command with good fields, by the case that it meets in its queue, its job or the level that it names. -/
theorem queueCommands : Obligations.QueueCommands := by
  rintro m s p q x rfl rfl rfl
  refine ⟨fun hi hz hd => queueConfigTakesEffect hi ⟨hz, hd⟩,
    fun j l hi h1 h0 hn h4 he ho hj hop hl => submitTakesEffect hi ⟨⟨h1, h4⟩, ⟨h0, hn⟩, he, ho, ⟨hj, hop⟩, hl⟩,
    fun j hi h1 h4 hz hk hj => cancelTakesEffect hi ⟨⟨h1, h4⟩, hz, hk, hj⟩,
    fun kind ident hi ha hid h1 h4 hj hl hz => ?_⟩
  obtain ⟨s', he, hlev, hc⟩ := statusReadTakesEffect hi (kind := kind) (ident := ident) ⟨ha, hid, ⟨h1, h4⟩, hj, hl, hz⟩
  refine ⟨s', he, hlev, fun hs => ?_, fun l hs => ?_⟩ <;> rw [hs] at hc
  · exact hc
  · obtain ⟨b, hb, hdone, hrun⟩ := statusRecord_eq (s := s) l
    exact ⟨b, hb ▸ hc, hdone, hrun⟩

end Sys2Proof.Machine
end

section
/-! SUPPORT. Host transfers: the pieces of a transfer follow one another through its range, and over plain memory they are one range of bytes, written
and read as such (R41, R242, R243, R280 to R283). -/

namespace Sys2Proof.Machine

/-! Ranges of memory in parts. -/

theorem Memory.write_append (m : Memory) (a : Nat) (xs ys : List Byte) : m.write a (xs ++ ys) = (m.write a xs).write (a + xs.length) ys := by
  induction xs generalizing m a with
  | nil => rfl
  | cons x xs ih =>
    rw [List.cons_append, Memory.write, Memory.write, ih, List.length_cons, Nat.add_assoc, Nat.add_comm 1]

theorem Memory.read_append (m : Memory) (a j k : Nat) : m.read a (j + k) = m.read a j ++ m.read (a + j) k := by
  simp [Memory.read, List.range_add, Nat.add_assoc]

/-! The pieces of a transfer. -/

/-- Pieces that follow one another from an address through n bytes. -/
def Contiguous : Nat → Nat → List Piece → Prop
  | _, n, [] => n = 0
  | a, n, p :: ps => p.va = a ∧ p.n ≤ n ∧ Contiguous (a + p.n) (n - p.n) ps

variable {s : State} {part : Nat} {phys : Bool} {need : HostNeed}

theorem hostSpan_place {sp : Nat × Nat} {x : Piece} (h : hostSpan s part phys need sp = some x) : x.va = sp.1 ∧ x.n = sp.2 := by
  unfold hostSpan at h
  split at h
  · unfold physicalSpan at h
    simp only at h
    split at h
    · cases h
    · cases h; exact ⟨rfl, rfl⟩
  · unfold virtualSpan at h
    split at h
    · cases h
    · split at h
      · split at h
        · cases h
        · split at h
          · cases h
          · simp only at h
            split at h
            · cases h
            · cases h; exact ⟨rfl, rfl⟩
          · cases h
      · cases h

/-- The pieces of a list of spans, or the address of the first that may not be touched. -/
def piecesOver (s : State) (part : Nat) (phys : Bool) (need : HostNeed) (l : List (Nat × Nat)) : Except Nat (List Piece) :=
  l.foldr (fun sp acc => match hostSpan s part phys need sp with
    | some x => acc.map (x :: ·)
    | none => .error sp.1) (.ok [])

theorem hostPieces_eq (a n : Nat) : hostPieces s part phys need a n = piecesOver s part phys need (spans (n / 32 + 2) a n) := rfl

theorem piecesOver_cons {sp : Nat × Nat} {l : List (Nat × Nat)} {ps : List Piece} (h : piecesOver s part phys need (sp :: l) = .ok ps) :
    ∃ x qs, hostSpan s part phys need sp = some x ∧ piecesOver s part phys need l = .ok qs ∧ ps = x :: qs := by
  rw [piecesOver, List.foldr_cons] at h
  split at h
  · next x hx =>
    cases hq : piecesOver s part phys need l with
    | error e =>
      rw [piecesOver] at hq
      rw [hq] at h
      cases h
    | ok qs =>
      rw [piecesOver] at hq
      rw [hq] at h
      cases h
      exact ⟨x, qs, hx, rfl, rfl⟩
  · cases h

/-- The pieces over as many spans as the range touches follow one another through it. -/
theorem contiguous_of_spans {fuel a n : Nat} {ps : List Piece} (hf : n = 0 ∨ n + a % 32 ≤ 32 * fuel)
    (h : piecesOver s part phys need (spans fuel a n) = .ok ps) : Contiguous a n ps := by
  induction fuel generalizing a n ps with
  | zero =>
    obtain rfl : n = 0 := by omega
    cases h
    rfl
  | succ fuel ih =>
    rw [spans] at h
    split at h
    · subst n
      cases h
      rfl
    · obtain ⟨x, qs, hx, hq, rfl⟩ := piecesOver_cons h
      obtain ⟨hv, hn⟩ := hostSpan_place hx
      have hk : x.n = min n (32 - a % 32) := hn
      refine ⟨hv, by omega, ?_⟩
      rw [hk]
      exact ih (by omega) hq

theorem contiguous_of_hostPieces {a n : Nat} {ps : List Piece} (h : hostPieces s part phys need a n = .ok ps) : Contiguous a n ps :=
  contiguous_of_spans (.inr (by omega)) (hostPieces_eq .. ▸ h)

theorem hostPieces_zero (a : Nat) : hostPieces s part phys need a 0 = .ok [] := rfl

/-! Bytes along plain memory. -/

/-- The bytes of pieces that follow one another along plain memory are one range. -/
theorem pieceBytes_along {ps : List Piece} {a₀ a n pa : Nat} (h : Contiguous a n ps) (ha : a₀ ≤ a) (hp : Along ps a₀ pa) :
    ps.flatMap (pieceBytes s) = s.mem.read (pa + (a - a₀)) n := by
  induction ps generalizing a n with
  | nil =>
    obtain rfl : n = 0 := h
    rfl
  | cons p ps ih =>
    obtain ⟨rfl, hn, hrest⟩ := h
    obtain ⟨hhome, hhomes⟩ := List.forall_mem_cons.1 hp
    have hb : pieceBytes s p = s.mem.read (pa + (p.va - a₀)) p.n := by rw [pieceBytes, hhome]
    rw [List.flatMap_cons, ih hrest (by omega) hhomes, hb, ← show p.n + (n - p.n) = n by omega, Memory.read_append]
    congr 2 <;> omega

theorem writePiece_phys {p : Piece} {pa : Nat} (h : p.home = .phys pa) (bs : List Byte) :
    (writePiece s none part p bs).2.mem = s.mem.write pa bs ∧ (writePiece s none part p bs).2.mail = s.mail := by
  simp only [writePiece, pieceAddr, State.atL2, h]
  exact ⟨rfl, rfl⟩

/-- Pieces that follow one another along plain memory are written as one range. -/
theorem writeHost_along {ps : List Piece} {a₀ a pa : Nat} {bs : List Byte} (h : Contiguous a bs.length ps) (ha : a₀ ≤ a) (hp : Along ps a₀ pa) :
    ∃ t, writeHost part ps bs s = (none, t) ∧ t.mem = s.mem.write (pa + (a - a₀)) bs ∧ t.mail = s.mail := by
  induction ps generalizing a bs s with
  | nil =>
    obtain rfl : bs = [] := List.eq_nil_of_length_eq_zero h
    exact ⟨s, rfl, rfl, rfl⟩
  | cons p ps ih =>
    obtain ⟨rfl, hn, hrest⟩ := h
    obtain ⟨hhome, hhomes⟩ := List.forall_mem_cons.1 hp
    obtain ⟨hmem, hmail⟩ := writePiece_phys (s := s) (part := part) hhome (bs.take p.n)
    obtain ⟨t, ht, htm, htl⟩ := ih (s := (writePiece s none part p (bs.take p.n)).2) (bs := bs.drop p.n) (by rwa [List.length_drop])
      (show a₀ ≤ p.va + p.n by omega) hhomes
    refine ⟨t, ?_, ?_, htl.trans hmail⟩
    · rw [writeHost, birthPiece, hhome]
      exact ht
    · rw [htm, hmem, show pa + (p.va + p.n - a₀) = pa + (p.va - a₀) + (bs.take p.n).length by rw [List.length_take]; omega,
        ← Memory.write_append, List.take_append_drop]

@[simp] theorem labelFrames_mail (l : Label) (ps : List Piece) : (labelFrames s part l ps).mail = s.mail :=
  foldl_keeps _ State.mail _ _ fun _ _ _ => rfl

/-- A transfer that no byte of the control area belongs to, along plain memory, writes its range. -/
theorem performHost_along {ps : List Piece} {a pa : Nat} {bs : List Byte} (l : Label) (h : Contiguous a bs.length ps) (hp : Along ps a pa) :
    ∃ t, performHost s part phys a 0 l ps bs = (Reply.ok, t) ∧ t.mem = s.mem.write pa bs ∧ t.mail = s.mail := by
  obtain ⟨t, ht, hmem, hmail⟩ := writeHost_along (s := s) (part := part) h le_rfl hp
  refine ⟨if phys then labelFrames t part l ps else t, ?_, ?_, ?_⟩
  · rw [performHost, if_pos rfl, List.drop_zero, ht]
  · rw [ite_mem, labelFrames_mem, ite_self, hmem, Nat.sub_self, Nat.add_zero]
  · cases phys
    · exact hmail
    · exact (labelFrames_mail ..).trans hmail

/-! What an accepted transfer reads. -/

variable {m : Message}

theorem hostPieces_acceptedState (a n : Nat) : hostPieces (acceptedState s m) part phys need a n = hostPieces s part phys need a n := by
  simp only [hostPieces, hostSpan_acceptedState]

theorem ingressFails_acceptedState : ingressFails (acceptedState s m) part phys = ingressFails s part phys := rfl

theorem ingressLabel_acceptedState (x : BitVec 128) : ingressLabel (acceptedState s m) part x = ingressLabel s part x := rfl

theorem peerIndex_acceptedState (x : BitVec 128) : peerIndex (acceptedState s m) part x = peerIndex s part x := rfl

/-! MEM_WRITE. -/

/-- The pages of a host write are there, and its ingress label may enter them. -/
structure MayEnter (s : State) (m : Message) (ps : List Piece) : Prop where
  command : m.toMgmt = false
  pages : ringPart (isPhysical (fieldAt m.payload 0 8)) (plainAddress (fieldAt m.payload 0 8)) (m.payload.length - 8) = 0
  pieces : hostPieces s (partOfEp s m.ep) (isPhysical (fieldAt m.payload 0 8)) { shared := true, unheld := true }
    (plainAddress (fieldAt m.payload 0 8)) (m.payload.length - 8) = .ok ps
  enters : ∀ x ∈ ps, ingressFails s (partOfEp s m.ep) (isPhysical (fieldAt m.payload 0 8)) (ingressLabel s (partOfEp s m.ep) m.sender) x = false

theorem MayEnter.acceptedState {ps : List Piece} (h : MayEnter s m ps) : MayEnter (acceptedState s m) m ps where
  command := h.command
  pages := h.pages
  pieces := by rw [hostPieces_acceptedState, partOfEp_acceptedState]; exact h.pieces
  enters := by rw [partOfEp_acceptedState]; exact h.enters

theorem actMemWrite_of_mayEnter {ps : List Piece} {pa : Nat} (h : MayEnter s m ps) (hp : Along ps (plainAddress (fieldAt m.payload 0 8)) pa) :
    ∃ t, actMemWrite m s = (Reply.ok, t) ∧ t.mem = s.mem.write pa (m.payload.drop 8) ∧ t.mail = s.mail := by
  have hn : (m.payload.drop 8).length = m.payload.length - 8 := List.length_drop
  have hc : Contiguous (plainAddress (fieldAt m.payload 0 8)) (m.payload.drop 8).length ps := hn ▸ contiguous_of_hostPieces h.pieces
  have hf : ps.find? (ingressFails s (partOfEp s m.ep) (isPhysical (fieldAt m.payload 0 8)) (ingressLabel s (partOfEp s m.ep) m.sender)) = none :=
    List.find?_eq_none.2 fun x hx => by simp [h.enters x hx]
  obtain ⟨t, ht, hmem, hmail⟩ := performHost_along (s := s) (part := partOfEp s m.ep) (phys := isPhysical (fieldAt m.payload 0 8))
    (ingressLabel s (partOfEp s m.ep) m.sender) hc hp
  refine ⟨t, ?_, hmem, hmail⟩
  simp only [actMemWrite, h.command, hn, h.pages, Nat.add_zero, Nat.sub_zero, h.pieces, hf]
  exact ht

/-- A write that ends below the end of the control area lies in it whole (R242, R243). -/
structure InRing (m : Message) : Prop where
  command : m.toMgmt = false
  fits : fieldAt m.payload 0 8 + (m.payload.length - 8) ≤ controlBytes
  some : 8 < m.payload.length

theorem actMemWrite_of_inRing (h : InRing m) : actMemWrite m s =
    (Reply.ok, writeRing s (partOfEp s m.ep) (fieldAt m.payload 0 8) (m.payload.drop 8)) := by
  have hfit := h.fits
  have hsome := h.some
  have hsmall : fieldAt m.payload 0 8 < 2 ^ 63 := by unfold controlBytes at hfit; omega
  have hp : isPhysical (fieldAt m.payload 0 8) = false := Nat.testBit_lt_two_pow hsmall
  have ha : plainAddress (fieldAt m.payload 0 8) = fieldAt m.payload 0 8 := Nat.mod_eq_of_lt hsmall
  have hn : (m.payload.drop 8).length = m.payload.length - 8 := List.length_drop
  have hr : ringPart false (fieldAt m.payload 0 8) (m.payload.length - 8) = m.payload.length - 8 := by
    simp only [ringPart, Bool.false_eq_true, if_false]
    omega
  have htake : (m.payload.drop 8).take (m.payload.length - 8) = m.payload.drop 8 := List.take_of_length_le hn.le
  have hdrop : (m.payload.drop 8).drop (m.payload.length - 8) = [] := List.drop_eq_nil_of_le hn.le
  simp only [actMemWrite, h.command, hp, ha, hn, hr, Nat.sub_self, hostPieces_zero, List.find?_nil, performHost,
    if_neg (show m.payload.length - 8 ≠ 0 by omega), htake, hdrop]
  rfl

@[simp] theorem writeRing_mail (a : Nat) (bs : List Byte) : (writeRing s part a bs).mail = s.mail := rfl

theorem writeRing_ring (a : Nat) (bs : List Byte) : ((writeRing s part a bs).part part).ring = (s.part part).ring.write a bs := by
  simp [writeRing, State.modPart_eq]

/-! MEM_READ. -/

theorem pagesLabel_foldl (ps : List Piece) (l : Label) : ps.foldl (fun l p => l ||| p.leaf.label) l = l ||| pagesLabel ps := by
  induction ps generalizing l with
  | nil => simp [pagesLabel]
  | cons p ps ih =>
    rw [List.foldl_cons, ih]
    show _ = l ||| ps.foldl (fun l p => l ||| p.leaf.label) (0 ||| p.leaf.label)
    rw [ih]
    simp [BitVec.or_assoc]

theorem pagesLabel_cons (p : Piece) (ps : List Piece) : pagesLabel (p :: ps) = p.leaf.label ||| pagesLabel ps := by
  rw [pagesLabel, List.foldl_cons, pagesLabel_foldl]
  simp

theorem pagesLabel_ne_zero {ps : List Piece} {x : Piece} (hx : x ∈ ps) (h : x.leaf.label ≠ 0) : pagesLabel ps ≠ 0 := by
  induction ps with
  | nil => cases hx
  | cons p ps ih =>
    rw [pagesLabel_cons]
    intro h0
    obtain ⟨hp, hps⟩ := BitVec.or_eq_zero_iff.1 h0
    rcases List.mem_cons.1 hx with rfl | hx
    · exact h hp
    · exact ih hx hps

/-- The fields of a host read are good, and its pages are there. -/
structure MayRead (s : State) (m : Message) (ps : List Piece) : Prop where
  command : m.toMgmt = false
  length : fieldAt m.payload 8 4 ≠ 0 ∧ fieldAt m.payload 8 4 ≤ 65504
  reserved : zeroBytes m.payload 12 16 = true
  pages : ringPart (isPhysical (fieldAt m.payload 0 8)) (plainAddress (fieldAt m.payload 0 8)) (fieldAt m.payload 8 4) = 0
  pieces : hostPieces s (partOfEp s m.ep) (isPhysical (fieldAt m.payload 0 8)) { shared := true, unheld := false }
    (plainAddress (fieldAt m.payload 0 8)) (fieldAt m.payload 8 4) = .ok ps

theorem MayRead.acceptedState {ps : List Piece} (h : MayRead s m ps) : MayRead (acceptedState s m) m ps where
  command := h.command
  length := h.length
  reserved := h.reserved
  pages := h.pages
  pieces := by rw [hostPieces_acceptedState, partOfEp_acceptedState]; exact h.pieces

/-- A read of pages that are there, by Teasel's decision. -/
theorem actMemRead_of_mayRead {ps : List Piece} (h : MayRead s m ps) : actMemRead m s =
    match release s (partOfEp s m.ep) (pagesLabel ps) (peerIndex s (partOfEp s m.ep) m.sender) (fieldAt m.payload 0 8) (fieldAt m.payload 8 4) 1
        ((peerIndex s (partOfEp s m.ep) m.sender).getD 0xFF) with
    | (some _, t) => (Reply.notPermitted (refusedOffset t (partOfEp s m.ep) (peerIndex s (partOfEp s m.ep) m.sender)
        (plainAddress (fieldAt m.payload 0 8)) ps), t)
    | (none, t) => ({ status := stOk, payload := ps.flatMap (pieceBytes t) }, t) := by
  obtain ⟨h0, hn⟩ := h.length
  simp only [actMemRead, h.command, h.reserved, h.pages, Nat.add_zero, Nat.sub_zero, h.pieces]
  rw [if_neg (by decide), if_neg (by simp; omega), if_neg (by decide)] <;> rfl

theorem actMemRead_of_unlabelled {ps : List Piece} {pa : Nat} (h : MayRead s m ps) (hp : Along ps (plainAddress (fieldAt m.payload 0 8)) pa)
    (hl : pagesLabel ps = 0) : actMemRead m s = ({ status := stOk, payload := s.mem.read pa (fieldAt m.payload 8 4) }, s) := by
  have hb : ps.flatMap (pieceBytes s) = s.mem.read pa (fieldAt m.payload 8 4) := by
    rw [pieceBytes_along (contiguous_of_hostPieces h.pieces) le_rfl hp, Nat.sub_self, Nat.add_zero]
  rw [actMemRead_of_mayRead h, hl, ← hb]
  simp only [release, decideOn, if_true]

/-- The refusal that the log keeps of a read by a host that has no peer entry (R283). -/
def readRefusal (s : State) (m : Message) (ps : List Piece) : RefusalEntry :=
  { time := s.ns, addr := fieldAt m.payload 0 8, label := pagesLabel ps, path := 1, reason := 1, peer := 0xFF, policy := 0xFF,
    bytes := fieldAt m.payload 8 4 }

/-- The first piece that carries a label is the one that Teasel refuses to a host without a peer entry. -/
theorem refusedOffset_of_stranger {before after : List Piece} {x : Piece} (a : Nat) (hb : ∀ y ∈ before, y.leaf.label = 0)
    (hx : x.leaf.label ≠ 0) : refusedOffset s part none a (before ++ x :: after) = x.va - a := by
  have hfirst : (before ++ x :: after).find? (fun y => !passesAlone s part none y.leaf.label) = some x := by
    rw [List.find?_append, List.find?_eq_none.2 (by intro y hy; simp [passesAlone, hb y hy]), Option.none_or, List.find?_cons_of_pos]
    simpa [passesAlone] using hx
  rw [refusedOffset, hfirst]
  rfl

theorem actMemRead_of_stranger {before after : List Piece} {x : Piece} (h : MayRead s m (before ++ x :: after))
    (hb : ∀ y ∈ before, y.leaf.label = 0) (hx : x.leaf.label ≠ 0) (hpeer : peerIndex s (partOfEp s m.ep) m.sender = none) :
    actMemRead m s = ({ status := stNotPermitted, index := x.va - plainAddress (fieldAt m.payload 0 8) },
      logRefusal s (partOfEp s m.ep) (readRefusal s m (before ++ x :: after))) := by
  have hl : pagesLabel (before ++ x :: after) ≠ 0 := pagesLabel_ne_zero (by simp) hx
  rw [actMemRead_of_mayRead h, hpeer]
  simp only [release, decideOn, if_neg hl, refusedOffset_of_stranger _ hb hx]
  rfl

@[simp] theorem logRefusal_mail (e : RefusalEntry) : (logRefusal s part e).mail = s.mail := rfl

theorem logRefusal_refusals (e : RefusalEntry) : ((logRefusal s part e).part part).refusals =
    ((s.part part).refusals ++ [e]).drop ((s.part part).refusals.length + 1 - 256) := by
  simp [logRefusal, State.modPart_eq]

/-- Settles O42: a transfer's pieces follow one another, so that along plain memory its bytes are one range; the control area is written
as the ring; Teasel passes what nothing labels, and logs the first piece that it refuses. -/
theorem hostTransfers : Obligations.HostTransfers := by
  rintro m s p a rfl hg
  refine ⟨?pages, ?ring, ?read⟩
  case pages =>
    rintro ps pa hi rfl hr hps hin hal hlen
    have ha : MayEnter s m ps := ⟨hg, hr, hps, hin⟩
    obtain ⟨t, ht, hmem, hmail⟩ := actMemWrite_of_mayEnter ha.acceptedState hal
    refine ⟨_, hostCommand_of_inOrder hi actMemWrite, ?_⟩
    rw [ht]
    refine ⟨completed_of_mail hi _ hmail, ?_, ?_⟩ <;> simp only [complete_mem, hmem, acceptedState_mem]
    · exact Memory.read_write ..
    · exact fun b hb => Memory.get_write_out _ _ _ _ (by rwa [List.length_drop])
  case ring =>
    rintro hi rfl hfit hlen
    refine ⟨_, hostCommand_of_inOrder hi actMemWrite, ?_⟩
    rw [actMemWrite_of_inRing ⟨hg, hfit, hlen⟩, partOfEp_acceptedState]
    refine ⟨completed_of_mail hi _ (by simp), ?_, ?_, by simp⟩ <;> simp only [complete_part, writeRing_ring, acceptedState_part]
    · exact Memory.read_write ..
    · exact fun b hb => Memory.get_write_out _ _ _ _ (by rwa [List.length_drop])
  case read =>
    rintro ps pa n hi rfl rfl h0 hn hz hr hps hal
    have ha : MayRead s m ps := ⟨hg, ⟨h0, hn⟩, hz, hr, hps⟩
    refine ⟨_, hostCommand_of_inOrder hi actMemRead, by simp, fun hl => ?_, ?_⟩
    · rw [actMemRead_of_unlabelled ha.acceptedState hal hl]
      exact completed_of_mail hi _ rfl
    · rintro before x after rfl hb hx hpeer
      rw [actMemRead_of_stranger ha.acceptedState hb hx (by rwa [partOfEp_acceptedState, peerIndex_acceptedState]), partOfEp_acceptedState]
      refine ⟨completed_of_mail hi _ (by simp), readRefusal (acceptedState s m) m (before ++ x :: after), ?_, rfl, rfl, rfl, rfl⟩
      rw [complete_part, logRefusal_refusals, acceptedState_part]

end Sys2Proof.Machine
end

section
/-! SUPPORT. The commands of the management endpoint: what each comes to in the state in which it is carried out (R57, R442 to R446). -/

namespace Sys2Proof.Machine

variable {s : State} {m : Message}

/-! ENDPOINT_ENABLE. -/

/-- The command decoder reads ENDPOINT_ENABLE from its opcode alone. -/
theorem op_of_decode_endpointEnable {x : Message} (h : decodeMessage m = some (.endpointEnable x)) : m.op = 0x0061 := by
  unfold decodeMessage at h
  split at h
  · cases h
  · simp only at h
    split at h
    case h_16 => assumption
    case h_13 | h_14 => (repeat' split at h) <;> cases h
    all_goals cases h

theorem op_of_endpointEnable (h : m.command = .endpointEnable) : m.op = 0x0061 := by
  unfold Message.command at h
  split at h
  case h_16 hd => exact op_of_decode_endpointEnable hd
  all_goals cases h

theorem permitted_of_header (h : headerRefusal s m = none) : permitted s m = true := by
  unfold headerRefusal at h
  repeat' split at h
  all_goals simp_all

/-- ENDPOINT_ENABLE is permitted at the management endpoint alone. -/
theorem toMgmt_of_endpointEnable (h : InOrder s .endpointEnable m) : m.toMgmt = true := by
  by_contra hg
  have hp : permitted s m = false := by simp [permitted, hg, op_of_endpointEnable h.command]
  exact Bool.false_ne_true (hp.symm.trans (permitted_of_header h.header))

/-- What one enable bit leaves of its endpoint (R57 to R59). -/
def enabledBy (mask n : Nat) (e : Endpoint) : Endpoint :=
  match mask.testBit n, e.enabled with
  | true, false => e.enable
  | false, true => { e with enabled := false, disabling := true }
  | _, _ => e

theorem endpoint_writeEnable (mask n k : Nat) :
    (writeEnable mask s n).endpoint k = if k = n then enabledBy mask n (s.endpoint n) else s.endpoint k := by
  simp only [writeEnable, enabledBy]
  by_cases hk : k = n
  · subst hk
    cases mask.testBit k <;> cases he : (s.endpoint k).enabled <;> simp
  · cases mask.testBit n <;> cases he : (s.endpoint n).enabled <;> simp [hk]

theorem writeEnable_outbox (mask n : Nat) : (writeEnable mask s n).outbox = s.outbox := by
  simp only [writeEnable]
  split <;> split <;> rfl

theorem endpoint_writeEnables (mask n k : Nat) : ((List.range n).foldl (writeEnable mask) s).endpoint k =
    if k < n then enabledBy mask k (s.endpoint k) else s.endpoint k := by
  induction n with
  | zero => rfl
  | succ n ih =>
    rw [List.range_succ, List.foldl_append, List.foldl_cons, List.foldl_nil, endpoint_writeEnable]
    by_cases hk : k = n
    · subst hk
      simp [ih]
    · rw [if_neg hk, ih]
      simp [show k < n + 1 ↔ k < n by omega]

theorem writeEnables_voice (mask : Nat) : ((List.range 64).foldl (writeEnable mask) s).voice 64 = s.voice 64 :=
  Prod.ext (foldl_keeps _ State.outbox _ s fun _ _ _ => writeEnable_outbox ..)
    (congrArg Endpoint.voice (endpoint_writeEnables mask 64 64))

/-- The completion of a command changes no endpoint but its own. -/
theorem complete_endpoint_ne (t : State) {ep k hseq tag : Nat} (r : Reply) (h : k ≠ ep) : (complete t ep hseq tag r).endpoint k = t.endpoint k := by
  simp only [complete, sendNumbered]
  split
  · simp [h]
  · rfl

theorem acceptedState_endpoint_ne {k : Nat} (h : k ≠ m.ep) : (acceptedState s m).endpoint k = s.endpoint k := by
  simp [acceptedState, h]

theorem endpointEnableTakesEffect (hi : InOrder s .endpointEnable m) : ∃ s', exec (.endpointEnable m) s = .next s' ∧
    Completed s s' m Reply.ok ∧ ∀ n, n < 64 → s'.endpoint n = enabledBy (fieldAt m.payload 0 8) n (s.endpoint n) := by
  have hep : m.ep = 64 := by simpa [Message.toMgmt] using toMgmt_of_endpointEnable hi
  refine ⟨_, hostCommand_of_inOrder hi actEndpointEnable, completed_of_voice hi _ ?_, fun n hn => ?_⟩
  · rw [hep]
    exact writeEnables_voice ..
  · rw [complete_endpoint_ne _ _ (by omega)]
    simp only [actEndpointEnable]
    rw [endpoint_writeEnables, if_pos hn, acceptedState_endpoint_ne (by omega)]

/-! NONCE and the windows. -/

theorem actNonce_of_ok (ha : fieldAt m.payload 0 8 / 2 ^ 8 = 0) (hl : (m.payload.drop 8).length = 32) :
    actNonce m s = (Reply.ok, s.setBoot { s.boot with nonce := m.payload.drop 8 }) := by
  rw [actNonce, if_neg (by rw [ha]; decide), if_neg (by simp only [hl]; decide)]

theorem badWindowRead_eq_none {used : Nat} (ha : fieldAt m.payload 0 8 / 2 ^ used = 0) (h0 : fieldAt m.payload 8 4 ≠ 0)
    (hn : fieldAt m.payload 8 4 ≤ 65504) (hz : zeroBytes m.payload 12 16 = true) : badWindowRead m used = none := by
  rw [badWindowRead, if_neg (by simp only [ha]; decide), if_neg (by simp; omega), if_neg (by simp [hz])]

theorem windowTakesEffect {c : Command} (bs : Boot → List Byte) (hi : InOrder s c m) (ha : fieldAt m.payload 0 8 / 2 ^ 8 = 0)
    (h0 : fieldAt m.payload 8 4 ≠ 0) (hn : fieldAt m.payload 8 4 ≤ 65504) (hz : zeroBytes m.payload 12 16 = true) :
    ∃ s', hostCommand c (sequenced (actWindow bs)) m s = .next s' ∧ s'.boot = s.boot ∧
      Completed s s' m { status := stOk, payload := (bs s.boot).take (fieldAt m.payload 8 4) } := by
  refine ⟨_, hostCommand_of_inOrder hi (actWindow bs), ?_⟩
  rw [actWindow, badWindowRead_eq_none ha h0 hn hz]
  exact ⟨by simp, completed_of_voice hi _ rfl⟩

/-! REPLACEMENT_IMAGE. -/

theorem actReplacementImage_eq (ha : fieldAt m.payload 0 8 / 2 ^ 8 = 0) : actReplacementImage m s =
    if 3 ≤ s.boot.state then ({ status := stNotPermitted }, s)
    else if 8 < m.payload.length then
      if 2 ^ 26 < s.boot.transfer.length + (m.payload.length - 8) then ({ status := stNotPermitted }, s)
      else (Reply.ok, s.setBoot { s.boot with transfer := s.boot.transfer ++ m.payload.drop 8 })
    else if imageVerifies s.boot.transfer then
      (Reply.ok, s.setBoot { state := 0, since := s.time, flash := s.boot.transfer, boots := s.boot.boots + 1 })
    else ({ status := stNotPermitted }, s.setBoot { s.boot with transfer := [] }) := by
  have he : (!(m.payload.drop 8).isEmpty) = decide (8 < m.payload.length) := by
    rw [Bool.eq_iff_iff]
    simp
  rw [actReplacementImage, if_neg (by rw [ha]; decide), he]
  simp only [decide_eq_true_eq, List.length_drop]
  rfl

@[simp] theorem complete_time (t : State) (ep hseq tag : Nat) (r : Reply) : (complete t ep hseq tag r).time = t.time := by
  simp only [complete, sendNumbered]
  split <;> rfl

theorem actReplacementImage_time : (actReplacementImage m s).2.time = s.time := by
  unfold actReplacementImage
  simp only
  repeat' split
  all_goals rfl

theorem replacementImageTakesEffect (hi : InOrder s .replacementImage m) (ha : fieldAt m.payload 0 8 / 2 ^ 8 = 0) :
    ∃ s', exec (.replacementImage m) s = .next s' ∧ s'.time = s.time ∧
      (3 ≤ s.boot.state → Completed s s' m { status := stNotPermitted } ∧ s'.boot = s.boot) ∧
      (s.boot.state < 3 → 8 < m.payload.length → s.boot.transfer.length + (m.payload.length - 8) ≤ 2 ^ 26 → Completed s s' m Reply.ok ∧
        s'.boot = { s.boot with transfer := s.boot.transfer ++ m.payload.drop 8 }) ∧
      (s.boot.state < 3 → 2 ^ 26 < s.boot.transfer.length + (m.payload.length - 8) → 8 < m.payload.length →
        Completed s s' m { status := stNotPermitted } ∧ s'.boot = s.boot) ∧
      (s.boot.state < 3 → m.payload.length = 8 → imageVerifies s.boot.transfer = true → Completed s s' m Reply.ok ∧
        s'.boot = { state := 0, since := s.time, flash := s.boot.transfer, boots := s.boot.boots + 1 }) ∧
      (s.boot.state < 3 → m.payload.length = 8 → imageVerifies s.boot.transfer = false → Completed s s' m { status := stNotPermitted } ∧
        s'.boot = { s.boot with transfer := [] }) := by
  refine ⟨_, hostCommand_of_inOrder hi actReplacementImage, (complete_time ..).trans actReplacementImage_time, fun h3 => ?late,
    fun h3 h8 hn => ?gathered, fun h3 hn h8 => ?tooLong, fun h3 h8 hv => ?booted, fun h3 h8 hv => ?dropped⟩ <;>
    rw [actReplacementImage_eq ha, acceptedState_boot]
  case late =>
    rw [if_pos h3]
    exact ⟨completed_of_voice hi _ rfl, by simp⟩
  case gathered =>
    rw [if_neg (Nat.not_le.2 h3), if_pos h8, if_neg (Nat.not_lt.2 hn)]
    exact ⟨completed_of_voice hi _ rfl, by simp⟩
  case tooLong =>
    rw [if_neg (Nat.not_le.2 h3), if_pos h8, if_pos hn]
    exact ⟨completed_of_voice hi _ rfl, by simp⟩
  case booted =>
    rw [if_neg (Nat.not_le.2 h3), if_neg (by omega), if_pos hv]
    exact ⟨completed_of_voice hi _ rfl, complete_boot ..⟩
  case dropped =>
    rw [if_neg (Nat.not_le.2 h3), if_neg (by omega), if_neg (by simp [hv])]
    exact ⟨completed_of_voice hi _ rfl, complete_boot ..⟩

/-! CONFIGURATION_RECORD. -/

theorem endpoint_giveAddresses (r : ConfigRecord) (k : Nat) : (giveAddresses r s).endpoint k =
    if k < 65 then { s.endpoint k with addr := r.addresses[k]? } else s.endpoint k := by
  rw [giveAddresses]
  induction 65 with
  | zero => rfl
  | succ n ih =>
    rw [List.range_succ, List.foldl_append, List.foldl_cons, List.foldl_nil, State.modEndpoint_eq, State.endpoint_setEndpoint]
    by_cases hk : k = n
    · subst hk
      simp [ih]
    · rw [if_neg hk, ih]
      simp [show k < n + 1 ↔ k < n by omega]

theorem giveAddresses_voice (r : ConfigRecord) (ep : Nat) : (giveAddresses r s).voice ep = s.voice ep := by
  have ho : (giveAddresses r s).outbox = s.outbox := by
    unfold giveAddresses
    exact foldl_keeps _ State.outbox _ s fun _ _ _ => rfl
  have he : ((giveAddresses r s).endpoint ep).voice = (s.endpoint ep).voice := by
    rw [endpoint_giveAddresses]
    split <;> rfl
  rw [State.voice, State.voice, ho, he]

@[simp] theorem State.setBoot_voice (x : Boot) (ep : Nat) : (s.setBoot x).voice ep = s.voice ep := rfl

theorem actConfigurationRecord_of_late (h4 : s.boot.state ≠ 4) : actConfigurationRecord m s = ({ status := stNotPermitted }, s) := by
  rw [actConfigurationRecord, if_pos (by simpa using h4)]

theorem actConfigurationRecord_of_malformed (h4 : s.boot.state = 4) (ha : fieldAt m.payload 0 8 / 2 ^ 8 = 0)
    (hr : Config.configRecord (m.payload.drop 8) = none) : actConfigurationRecord m s = (Reply.badField 8, s) := by
  rw [actConfigurationRecord, if_neg (by simp [h4]), if_neg (by rw [ha]; decide), hr]

theorem actConfigurationRecord_of_some {r : ConfigRecord} (h4 : s.boot.state = 4) (ha : fieldAt m.payload 0 8 / 2 ^ 8 = 0)
    (hr : Config.configRecord (m.payload.drop 8) = some r) : actConfigurationRecord m s =
    if r.addresses.length = 65 ∧ r.device < 64 then
      if recordGenuine s r then (Reply.ok, (giveAddresses r s).setBoot
        { s.boot with state := 5, serial := r.serial, device := r.device, configDigest := shake256 (m.payload.drop 8) 32 })
      else ({ status := stNotPermitted }, s)
    else (Reply.badField 8, s) := by
  have hw : recordWhole r = decide (r.addresses.length = 65 ∧ r.device < 64) := by
    rw [Bool.eq_iff_iff]
    simp [recordWhole]
  rw [actConfigurationRecord, if_neg (by simp [h4]), if_neg (by rw [ha]; decide), hr]
  simp only [hw]
  by_cases hd : r.addresses.length = 65 ∧ r.device < 64 <;> simp [hd]

theorem recordGenuine_acceptedState : recordGenuine (acceptedState s m) = recordGenuine s := rfl

@[simp] theorem complete_addr (t : State) (ep hseq tag k : Nat) (r : Reply) :
    ((complete t ep hseq tag r).endpoint k).addr = (t.endpoint k).addr := by
  simp only [complete, sendNumbered]
  split
  · simp only [State.endpoint_setOutbox, State.endpoint_setEndpoint]
    split <;> simp_all
  · rfl

theorem configurationRecordTakesEffect (hi : InOrder s .configurationRecord m) (ha : fieldAt m.payload 0 8 / 2 ^ 8 = 0) :
    ∃ s', exec (.configurationRecord m) s = .next s' ∧
      (s.boot.state ≠ 4 → Completed s s' m { status := stNotPermitted } ∧ s'.boot = s.boot) ∧
      (s.boot.state = 4 → Config.configRecord (m.payload.drop 8) = none → Completed s s' m (Reply.badField 8) ∧ s'.boot = s.boot) ∧
      ∀ r, s.boot.state = 4 → Config.configRecord (m.payload.drop 8) = some r →
        (r.addresses.length ≠ 65 ∨ 64 ≤ r.device → Completed s s' m (Reply.badField 8) ∧ s'.boot = s.boot) ∧
        (r.addresses.length = 65 → r.device < 64 → recordGenuine s r = true → Completed s s' m Reply.ok ∧ s'.boot = { s.boot with
            state := 5, serial := r.serial, device := r.device, configDigest := shake256 (m.payload.drop 8) 32 } ∧
          ∀ n, n ≤ 64 → (s'.endpoint n).addr = r.addresses[n]?) ∧
        (r.addresses.length = 65 → r.device < 64 → recordGenuine s r = false →
          Completed s s' m { status := stNotPermitted } ∧ s'.boot = s.boot) := by
  refine ⟨_, hostCommand_of_inOrder hi actConfigurationRecord, fun h4 => ?late, fun h4 hr => ?malformed,
    fun r h4 hr => ⟨fun hw => ?incomplete, fun ha' hd hg => ?genuine, fun ha' hd hg => ?forged⟩⟩
  case late =>
    rw [actConfigurationRecord_of_late (by simpa using h4)]
    exact ⟨completed_of_voice hi _ rfl, by simp⟩
  case malformed =>
    rw [actConfigurationRecord_of_malformed (by simpa using h4) ha hr]
    exact ⟨completed_of_voice hi _ rfl, by simp⟩
  all_goals rw [actConfigurationRecord_of_some (by simpa using h4) ha hr]
  case incomplete =>
    rw [if_neg (by omega)]
    exact ⟨completed_of_voice hi _ rfl, by simp⟩
  case genuine =>
    rw [if_pos ⟨ha', hd⟩, recordGenuine_acceptedState, if_pos hg]
    refine ⟨completed_of_voice hi _ ?_, complete_boot .., fun n hn => ?_⟩
    · rw [State.setBoot_voice, giveAddresses_voice]
    · rw [complete_addr, State.endpoint_setBoot, endpoint_giveAddresses, if_pos (by omega)]
  case forged =>
    rw [if_pos ⟨ha', hd⟩, recordGenuine_acceptedState, if_neg (by simp [hg])]
    exact ⟨completed_of_voice hi _ rfl, by simp⟩

/-- Settles O45: each command's cases by the boot state and its payload. -/
theorem managementCommands : Obligations.ManagementCommands := by
  intro m s
  refine ⟨endpointEnableTakesEffect, fun hi ha hl => ?nonce, ?windows, replacementImageTakesEffect, configurationRecordTakesEffect⟩
  case nonce =>
    refine ⟨_, hostCommand_of_inOrder hi actNonce, ?_⟩
    rw [actNonce_of_ok ha hl]
    exact ⟨completed_of_voice hi _ rfl, complete_boot ..⟩
  case windows =>
    simp only [List.forall_mem_cons, List.not_mem_nil, false_implies, implies_true, and_true]
    exact ⟨windowTakesEffect Boot.report, windowTakesEffect Boot.status⟩

end Sys2Proof.Machine
end

section
/-! SUPPORT. Power-up, the steps of the boot, and the steps in which an endpoint is disabled (R57, R58, R442, R443, R446). -/

namespace Sys2Proof.Machine

variable {s : State}

/-! The boot. -/

theorem step_of_bootDue (hb : s.boot.boots ≠ 0) (hd : bootDue s = true) : step s = .next (s.setBoot (s.boot.proceed s.time)) := by
  rw [step, if_neg (by simp [unbooted, hb]), if_pos hd]

/-- The boot goes on from a state that stands since an earlier time. -/
theorem step_of_boot {n : Nat} (hb : s.boot.boots ≠ 0) (ht : s.boot.since < s.time) (hn : s.boot.state = n) (h : n = 0 ∨ n = 1 ∨ n = 3) :
    step s = .next (s.setBoot (s.boot.proceed s.time)) := by
  refine step_of_bootDue hb ?_
  rcases h with rfl | rfl | rfl <;> simp [bootDue, hn, hb, ht]

section
variable {b : Boot} {now : Nat}

theorem Boot.proceed_of_zero (h : b.state = 0) : b.proceed now = { b with state := 1, since := now } := by simp [Boot.proceed, h]

theorem Boot.proceed_of_one (h : b.state = 1) : b.proceed now =
    if imageVerifies b.flash then { b with state := 3, since := now, imageDigest := shake256 (Config.imageParts b.flash).1 32 }
    else { b with state := 2, since := now } := by
  simp [Boot.proceed, verifyImage, h]

theorem Boot.proceed_of_three (h : b.state = 3) : b.proceed now =
    if Config.pufCorrects b.boots then { b with
      state := 4, since := now, seed := shake256 Config.pufResponse 48, publicKey := identityKey (shake256 Config.pufResponse 48),
      identity := shake256 (identityKey (shake256 Config.pufResponse 48)) 32 }
    else { b with state := 7, since := now } := by
  simp [Boot.proceed, deriveIdentity, h]
end

theorem identityKey_length (seed : List Byte) : (identityKey seed).length = 1793 := by
  rw [identityKey, padTo, List.length_take, List.length_append, List.length_replicate]
  omega

/-- The identity key is the start of the public key with zero bytes after it (R443). -/
theorem identityKey_append (seed : List Byte) : Config.falconPublic seed ++ List.replicate 1793 0 =
    identityKey seed ++ (Config.falconPublic seed ++ List.replicate 1793 0).drop 1793 :=
  (List.take_append_drop 1793 _).symm

theorem bootGoesOn (hb : s.boot.boots ≠ 0) (ht : s.boot.since < s.time) :
    (s.boot.state = 0 → step s = .next (s.setBoot { s.boot with state := 1, since := s.time })) ∧
    (s.boot.state = 1 → imageVerifies s.boot.flash = true → step s = .next (s.setBoot { s.boot with
      state := 3, since := s.time, imageDigest := shake256 (Config.imageParts s.boot.flash).1 32 })) ∧
    (s.boot.state = 1 → imageVerifies s.boot.flash = false → step s = .next (s.setBoot { s.boot with state := 2, since := s.time })) ∧
    (s.boot.state = 3 → Config.pufCorrects s.boot.boots = false → step s = .next (s.setBoot { s.boot with state := 7, since := s.time })) ∧
    (s.boot.state = 3 → Config.pufCorrects s.boot.boots = true → ∃ key, key.length = 1793 ∧
      (∃ zeros, Config.falconPublic (shake256 Config.pufResponse 48) ++ List.replicate zeros 0 =
        key ++ (Config.falconPublic (shake256 Config.pufResponse 48) ++ List.replicate zeros 0).drop 1793) ∧
      step s = .next (s.setBoot { s.boot with
        state := 4, since := s.time, seed := shake256 Config.pufResponse 48, publicKey := key, identity := shake256 key 32 })) := by
  refine ⟨fun h => ?_, fun h hv => ?_, fun h hv => ?_, fun h hp => ?_,
    fun h hp => ⟨identityKey (shake256 Config.pufResponse 48), identityKey_length _, ⟨1793, identityKey_append _⟩, ?_⟩⟩ <;>
    rw [step_of_boot hb ht h (by decide)]
  · rw [Boot.proceed_of_zero h]
  · rw [Boot.proceed_of_one h, if_pos hv]
  · rw [Boot.proceed_of_one h, if_neg (by simp [hv])]
  · rw [Boot.proceed_of_three h, if_neg (by simp [hp])]
  · rw [Boot.proceed_of_three h, if_pos hp]

/-! What quiescence leaves of the endpoints. -/

/-- What a core keeps of a unit that has left it. -/
def vacateCore (x : Unit) (u : Nat) (s : State) (c : Nat) : State :=
  (dropContext s x.launch c).modCore c (fun y => { y with
    children := tabMap (fun c : Child => if c.unit = u then { c with level := none } else c) y.children
    converge := y.converge.filter (fun e => (s.threads.any (fun t => t.2.pc == e.2.2 && s.coreOf t.1 == c))) })

/-- The threads, gangs and accesses of a unit go. -/
def dropUnit (s : State) (u : Nat) : State :=
  { s with
    threads := s.threads.filter (fun e => unitOfThread e.1 != u), gangs := s.gangs.filter (fun e => unitOf e.1 != u),
    accesses := s.accesses.filter (fun e => unitOfThread e.2.thread != u) }

theorem releaseUnit_eq (s : State) (u : Nat) : releaseUnit s u =
    (s.unitCores u).foldl (vacateCore (s.unit u) u) ((dropUnit ((s.gangsOfUnit u).foldl State.dropRecords s) u).setUnit u
      { s.unit u with live := false, run := [], lineEmpty := [], lineLabel := [] }) := rfl

/-- A part of the state that neither the cores nor the unit's own tables make up is left by its release. -/
theorem releaseUnit_keeps {α : Type} (v : State → α) (hcore : ∀ s c x, v (s.setCore c x) = v s)
    (hunit : ∀ s u x, v ((dropUnit s u).setUnit u x) = v s) (s : State) (u : Nat) : v (releaseUnit s u) = v s := by
  have hctx (s : State) (l c : Nat) : v (dropContext s l c) = v s := by
    simp only [dropContext]
    split
    · rfl
    · exact hcore ..
  rw [releaseUnit_eq]
  calc v (List.foldl _ _ _) = v ((dropUnit ((s.gangsOfUnit u).foldl State.dropRecords s) u).setUnit u _) :=
        foldl_keeps _ v _ _ fun _ _ _ => (hcore ..).trans (hctx ..)
    _ = v ((s.gangsOfUnit u).foldl State.dropRecords s) := hunit ..
    _ = v s := foldl_keeps _ v _ _ fun _ _ _ => hcore ..

@[simp] theorem releaseUnit_endpoints (s : State) (u : Nat) : (releaseUnit s u).endpoints = s.endpoints :=
  releaseUnit_keeps State.endpoints (fun _ _ _ => rfl) (fun _ _ _ => rfl) s u

@[simp] theorem abortUnit_endpoints (s : State) (u : Nat) (w : Bool) : (abortUnit s u w).endpoints = s.endpoints :=
  releaseUnit_endpoints (stopUnitCopies s u) u

@[simp] theorem quiesceUnit_endpoints (s : State) (u : Nat) : (quiesceUnit s u).endpoints = s.endpoints := by
  unfold quiesceUnit
  split
  · rfl
  · split
    · simp
    · rfl

/-- A job that is quiesced is marked saved. -/
theorem quiesceJob_job (s : State) (ep j : Nat) (x : Job) :
    ∃ x', tabGet ((quiesceJob s ep j x).endpoint ep).jobs j = some x' ∧ x'.saved = true := by
  simp only [quiesceJob, State.endpoint]
  rw [foldl_keeps quiesceUnit State.endpoints _ _ fun _ _ _ => quiesceUnit_endpoints ..]
  simp only [State.modEndpoint_eq, State.setEndpoint_endpoints, tabGetD_put, if_true, tabGet_put]
  exact ⟨_, rfl, rfl⟩

/-! Jobs that the device ends. -/

/-- A job whose level has not completed is closed and fails with the status. -/
theorem levelAt_cancelJobAs {k : Nat} (status : Nat) (h : (s.levelAt k).map Level.status = some none) :
    ∃ l, (cancelJobAs s k status).levelAt k = some l ∧ l.fail = some status ∧ l.closed = true := by
  obtain ⟨x, hx, hs⟩ := Option.map_eq_some_iff.1 h
  rw [cancelJobAs, State.levelAt_modLevel, if_pos rfl]
  by_cases hm : k ∈ cancelSet s k
  · obtain ⟨c, hc⟩ := levelAt_cancelAt_of_mem hm hx
    rw [hc]
    exact ⟨_, rfl, rfl, rfl⟩
  · rw [levelAt_cancelAt_of_not_mem hm, hx]
    refine ⟨_, rfl, rfl, ?_⟩
    by_contra hclosed
    have hopen : x.closed = false := by simpa using hclosed
    exact hm (mem_cancelSet_self hx (by simp [Level.outcome, Level.due, hs, hopen]))

theorem firstWith_some {α : Type} {t : Tab α} {p : Nat → α → Bool} {i : Nat} {x : α} (h : firstWith t p = some (i, x)) : p i x = true :=
  List.find?_some (p := fun e : Nat × α => p e.1 e.2) h

theorem firstWith_mem {α : Type} {t : Tab α} {p : Nat → α → Bool} {i : Nat} {x : α} (h : firstWith t p = some (i, x)) : (i, x) ∈ t :=
  List.mem_of_find?_eq_some h

/-- No job of an endpoint that is still waits for its image. -/
theorem strandedJob_of_still {ep : Nat} (h : endpointStill s ep = true) : strandedJob s ep = none := by
  rw [strandedJob, Option.map_eq_none_iff, firstWith, List.find?_eq_none]
  intro e he
  simp only [endpointStill, Bool.and_eq_true, List.all_eq_true] at h
  obtain ⟨⟨hjobs, -⟩, -⟩ := h
  have hw := hjobs e he
  simp_all

/-- The final notice of an endpoint that is being disabled. -/
theorem finishDisable_sends {ep : Nat} (h : (s.endpoint ep).disabling = true) : ((finishDisable s ep).endpoint ep).disabling = false ∧
    (finishDisable s ep).outbox = s.outbox ++ [{ blankOut 3 stEndpointDisabled with
      dest := (s.endpoint ep).host, ep := ep, seq := (s.endpoint ep).nextDev, detail := (s.endpoint ep).nextDev }] := by
  have ht : s.mayTalk ep = true := by simp [State.mayTalk, h]
  refine ⟨by simp [finishDisable, State.modEndpoint_eq], ?_⟩
  rw [finishDisable, State.modEndpoint_eq, State.setEndpoint_outbox, sendNumbered_outbox ht]

theorem exec_endpointDisable {ep : Nat} {e : Endpoint} (h : firstWith s.endpoints (fun _ e => e.disabling) = some (ep, e)) :
    exec .endpointDisable s = match jobToQuiesce s ep with
      | some (j, x) => .next (disableJob s ep j x)
      | none =>
        match strandedJob s ep with
        | some x => .next (cancelJobAs s x.level stEndpointDisabled)
        | none => if endpointStill s ep then .next (finishDisable s ep) else .next s := by
  show execEndpointDisable s = _
  simp only [execEndpointDisable, h] <;> rfl

/-- Settles O47: power-up keeps the fields that it names; each boot state proceeds; each step of a disable by the first job that it meets. -/
theorem powerUpAndDisable : Obligations.PowerUpAndDisable := by
  refine ⟨fun _ => rfl, fun s hb ht => bootGoesOn hb ht, fun s ep e hf hg => ?_⟩
  have hex := exec_endpointDisable hf
  refine ⟨fun j x hj ha => ?_, fun j x hj hl ha => ?_, fun x hj hx hl => ?_, fun hj hs => ?_⟩ <;> rw [hj] at hex
  · obtain ⟨x', hx', hsaved⟩ := quiesceJob_job s ep j x
    exact ⟨_, x', hex, by rwa [disableJob, if_pos ha], hsaved⟩
  · obtain ⟨l, hl, hfail, hclosed⟩ := levelAt_cancelJobAs stEndpointDisabled hl
    exact ⟨_, l, hex, by rwa [disableJob, if_neg (by simp [ha])], hfail, hclosed⟩
  · obtain ⟨l, hl, hfail, hclosed⟩ := levelAt_cancelJobAs stEndpointDisabled hl
    rw [hx] at hex
    exact ⟨_, l, hex, hl, hfail, hclosed⟩
  · have he : s.endpoint ep = e := by rw [State.endpoint, tabGetD, hg, Option.getD_some]
    obtain ⟨hd, ho⟩ := finishDisable_sends (s := s) (ep := ep) (by rw [he]; exact firstWith_some hf)
    rw [strandedJob_of_still hs] at hex
    refine ⟨_, hex.trans (if_pos hs), hd, ?_⟩
    rw [ho, he]

end Sys2Proof.Machine
end

section
/-! SUPPORT. Work at its queue head: what a change of a queue's entries leaves of the queue, and how each kind of entry starts (R46 to R48, R51,
R54, R55, R75, R451). -/

namespace Sys2Proof.Machine

variable {s : State} {p q : Nat} {e : QEntry}

/-! A queue whose entries have changed. -/

theorem queue_modQueue (g : QEntry → Option QEntry) : (s.modQueue p q g).queue p q =
    (s.queue p q).map (fun y => { y with entries := y.entries.filterMap g, device := y.device.filterMap g }) := by
  simp [State.modQueue, State.queue, State.modPart_eq]

/-- Every entry of a level whose entry has begun bears its number. -/
theorem begun_of_markBegun {level id : Nat} {y : Queue} (h : (markBegun s p q level id).queue p q = some y) :
    ∀ z ∈ y.entries ++ y.device, z.level = level → z.begun = some id := by
  rw [markBegun, queue_modQueue] at h
  obtain ⟨w, -, rfl⟩ := Option.map_eq_some_iff.1 h
  intro z hz hl
  rw [← List.filterMap_append, List.filterMap_eq_map', List.mem_map] at hz
  obtain ⟨e, -, rfl⟩ := hz
  split at hl
  · next he => rw [if_pos he]
  · next he => exact absurd hl he

/-- No entry of a level that has left its queue is left. -/
theorem ne_of_leaveQueue {level : Nat} {y : Queue} (h : (leaveQueue s p q level).queue p q = some y) :
    ∀ z ∈ y.entries, z.level ≠ level := by
  rw [leaveQueue, queue_modQueue] at h
  obtain ⟨w, -, rfl⟩ := Option.map_eq_some_iff.1 h
  intro z hz
  obtain ⟨e, -, he⟩ := List.mem_filterMap.1 hz
  split at he
  · cases he
  · next hne => cases he; exact hne

section
variable (level id k : Nat)
@[simp] theorem markBegun_launches : (markBegun s p q level id).launches = s.launches := rfl
@[simp] theorem markBegun_copies : (markBegun s p q level id).copies = s.copies := rfl
@[simp] theorem leaveQueue_copies : (leaveQueue s p q level).copies = s.copies := rfl
@[simp] theorem leaveQueue_graphs : (leaveQueue s p q level).graphs = s.graphs := rfl
@[simp] theorem leaveQueue_levelAt : (leaveQueue s p q level).levelAt k = s.levelAt k := rfl
end

theorem failEntry_levelAt {x : Level} (status index : Nat) (h : s.levelAt e.level = some x) : (failEntry s e status index).levelAt e.level =
    some { x with counter := 0, closed := true, fail := some status, failIndex := index } := by
  simp [failEntry, h]

/-! Launch entries. -/

theorem startLaunch_of_error {k : Nat} (h : launchRecord s p q e = .error k) : startLaunch s p q e = failEntry s e k noIndex := by
  rw [startLaunch, h]

theorem startLaunch_of_ok {l : Launch} {pc : Pc} {s0 s1 s2 : State} {bs : List Byte} {lab : Label} {a : Nat}
    (hl : launchRecord s p q e = .ok l) (hp : startPoint s p l = (.at' pc, s0)) (hr : readArgs s0 p (fieldAt e.bytes 24 8) l.kernel.args = .ok bs lab s1)
    (ha : placeArgs s1 p bs lab = some (a, s2)) : startLaunch s p q e = beginLaunch s2 p q e { l with start := pc, argBase := a } := by
  simp only [startLaunch, hl, hp, hr, ha]

theorem beginLaunch_launch (l : Launch) : tabGet (beginLaunch s p q e l).launches s.nextId = some l := by
  simp [beginLaunch]

/-! The argument area. -/

/-- A frame of a partition filled with at most a page of bytes; no L1 keeps a line of it. -/
def fillFrame (p f : Nat) (bs : List Byte) (s : State) : State :=
  let pa := (s.part p).phys f
  (dropLines s p pa 4096).setMem ((s.mem.clear pa 4096).write pa bs)

theorem fillFrame_bytes (f : Nat) (bs : List Byte) : bytesAre (fillFrame p f bs s).mem (((fillFrame p f bs s).part p).phys f) bs :=
  Memory.read_write ((s.mem.clear ((s.part p).phys f) 4096)) ((s.part p).phys f) bs

/-- One page of an area: its entry, and the bytes of its frame. -/
def windowPage (p base : Nat) (bs : List Byte) (l : Label) (s : State) (k : Nat) : State :=
  fillFrame p (windowFrame (base + 4096 * k)) ((bs.drop (4096 * k)).take 4096)
    (putEntry s p 0 (base + 4096 * k) (3 + 4 + 2 * 2 ^ 5 + l.toNat * 2 ^ 20 + windowFrame (base + 4096 * k) / 4096 * 2 ^ 36))

theorem placeWindow_eq (base : Nat) (bs : List Byte) (l : Label) : placeWindow s p base bs l =
    ((List.range (alignUp bs.length 4096 / 4096)).foldl (windowPage p base bs l) s).modPart p
      (fun x => { x with windows := x.windows ++ [(base, alignUp bs.length 4096)] }) := rfl

theorem phys_windows (x : Partition) (w : List (Nat × Nat)) (y : Nat) : ({ x with windows := w } : Partition).phys y = x.phys y := rfl

/-- The frame of an argument area that takes one page holds the argument bytes (R451). -/
theorem placeWindow_onePage {base : Nat} {bs : List Byte} (l : Label) (h0 : bs ≠ []) (hn : bs.length ≤ 4096) :
    bytesAre (placeWindow s p base bs l).mem (((placeWindow s p base bs l).part p).phys (windowFrame base)) bs := by
  have hlen : alignUp bs.length 4096 / 4096 = 1 := by
    have := List.length_pos_iff.2 h0
    unfold alignUp
    omega
  have hbs : (bs.drop (4096 * 0)).take 4096 = bs := by rw [Nat.mul_zero, List.drop_zero, List.take_of_length_le hn]
  rw [placeWindow_eq, hlen, List.range_one, List.foldl_cons, List.foldl_nil, State.modPart_mem, State.modPart_eq, State.part_setPart, if_pos rfl,
    windowPage, hbs, Nat.mul_zero, Nat.add_zero, phys_windows]
  exact fillFrame_bytes _ _

theorem placeArgs_bytes {a : Nat} {bs : List Byte} {l : Label} {s' : State} (h : placeArgs s p bs l = some (a, s')) (h0 : bs ≠ [])
    (hn : bs.length ≤ 4096) : bytesAre s'.mem ((s'.part p).phys (windowFrame a)) bs := by
  rw [placeArgs, if_neg (by simp [h0])] at h
  obtain ⟨b, -, hb⟩ := Option.map_eq_some_iff.1 h
  cases hb
  exact placeWindow_onePage l h0 hn

/-! Graph entries. -/

/-- The levels of a graph's nodes are new; its own level is given its nodes' count afterwards. -/
theorem armNodes_length (g : Nat) (x : Level) (l : List Node) (i : Nat) (acc : Tab Node) :
    (armNodes g x l i acc s).1.length = acc.length + l.length := by
  induction l generalizing i acc s with
  | nil => rfl
  | cons n l ih =>
    rw [armNodes, ih]
    simp
    omega

/-- A level below a graph that is not armed by GARM stays one. -/
theorem armNodes_level (g k : Nat) (x : Level) (l : List Node) (i : Nat) (acc : Tab Node) {y : Level} (h : s.levelAt k = some y)
    (ha : y.armed = false) : ∃ z, (armNodes g x l i acc s).2.levelAt k = some z ∧ z.armed = false := by
  induction l generalizing i acc s y with
  | nil => exact ⟨y, h, ha⟩
  | cons n l ih =>
    rw [armNodes]
    by_cases hk : k = s.nextId
    · exact ih _ _ (y := nodeLevel g x n.entry) (by rw [levelAt_newLevel, if_pos hk]) rfl
    · exact ih _ _ (y := y) (by rw [levelAt_newLevel, if_neg hk, h]) ha

/-- A level that is not armed by GARM counts for itself alone (R385). -/
theorem counts_of_not_armed {k : Nat} {x : Level} (h : s.levelAt k = some x) (ha : x.armed = false) : s.counts k = [k] := by
  unfold State.counts
  cases s.levels.length with
  | zero => rfl
  | succ n => simp [countedIn, h, ha]

theorem armGraph_arms {g phase : Nat} {device : Bool} {x : Level} (l : List Node) (h : s.levelAt g = some x) (ha : x.armed = false) :
    ∃ k y, tabGet (armGraph s g p q phase device l).graphs k = some y ∧ y.level = g ∧ y.queue = q ∧ y.phase = phase ∧
      y.nodes.length = l.length ∧ ((armGraph s g p q phase device l).levelAt g).map Level.counter = some l.length := by
  obtain ⟨z, hz, hza⟩ := armNodes_level g g x l 0 [] h ha
  have hc : ((armNodes g x l 0 [] s).2.modLevel g (fun y => { y with counter := l.length, closed := true })).levelAt g =
      some { z with counter := l.length, closed := true } := by simp [hz]
  simp only [armGraph, h, counts_of_not_armed hc hza, List.tail_cons, List.foldl_nil]
  refine ⟨_, _, tabGet_put_same _ _ _, rfl, rfl, rfl, by simp [armNodes_length], ?_⟩
  show Option.map Level.counter (((armNodes g x l 0 [] s).2.modLevel g _).levelAt g) = _
  rw [hc]
  rfl

section
variable {ps : List Piece} {bs : List Byte} {g : Nat}

theorem startGraph_of_read (hr : reach s 0 p (fieldAt e.bytes 8 8) (64 + 128 * fieldAt e.bytes 16 2) {} { r := true } = .ok ps)
    (hb : rawPieces s p ps = (some (bs, g), s)) : startGraph s p q e =
    match checkImage (fieldAt e.bytes 16 2) (bs.take 64) (bs.drop 64) with
    | .error (k, i) => leaveQueue (failEntry s e k i) p q e.level
    | .ok l => leaveQueue (armGraph s e.level p q e.phase false l) p q e.level := by
  simp only [startGraph, hr, hb] <;> rfl

/-- The entry of a graph leaves its queue whether it is armed or fails. -/
theorem startGraph_leaves (hr : reach s 0 p (fieldAt e.bytes 8 8) (64 + 128 * fieldAt e.bytes 16 2) {} { r := true } = .ok ps)
    (hb : rawPieces s p ps = (some (bs, g), s)) : ∃ t, startGraph s p q e = leaveQueue t p q e.level := by
  rw [startGraph_of_read hr hb]
  split
  · exact ⟨_, rfl⟩
  · exact ⟨_, rfl⟩
end

/-! Copy entries. -/

theorem bindFor_of_bind {b : Bind} {bs : List Byte} (h : bindOfQueue s p q = some b) : bindFor s p q bs = some b := by rw [bindFor, h]

theorem bindFor_of_empty {bs : List Byte} (h : fieldAt bs 24 8 = 0) : ∃ b, bindFor s p q bs = some b := by
  unfold bindFor
  split
  · exact ⟨_, rfl⟩
  · rw [if_pos (by simp [h])]
    exact ⟨_, rfl⟩

theorem startCopyEntry_of_empty (b : Bind) (h : fieldAt e.bytes 24 8 = 0) : startCopyEntry s p q e b =
    leaveQueue (s.takeId.2.setCopy s.nextId (copyOfEntry s p e.level b e.bytes)) p q e.level := by
  have hs : (copyOfEntry s p e.level b e.bytes).slices = [] := by rw [copyOfEntry, if_pos h]
  rw [startCopyEntry, if_pos (by rw [hs]; rfl)]
  rfl

theorem startCopyEntry_of_bytes (b : Bind) (h : fieldAt e.bytes 24 8 ≠ 0) : startCopyEntry s p q e b =
    markBegun (s.takeId.2.setCopy s.nextId (copyOfEntry s p e.level b e.bytes)) p q e.level s.nextId := by
  have hs : (copyOfEntry s p e.level b e.bytes).slices.isEmpty = false := by
    simp [copyOfEntry, h]
  rw [startCopyEntry, if_neg (by rw [hs]; decide)]
  rfl

/-! The rows. -/

theorem exec_launchEntryStart (h : readyHead s p q 1 = some e) : exec (.launchEntryStart p q) s = .next (startLaunch s p q e) := by
  show execLaunchEntryStart p q s = _
  rw [execLaunchEntryStart, h]

theorem exec_graphEntryArm (h : readyHead s p q 2 = some e) (hc : graphCluster s p e = true) :
    exec (.graphEntryArm p q) s = .next (startGraph s p q e) := by
  show execGraphEntryArm p q s = _
  rw [execGraphEntryArm, h]
  exact if_pos hc

theorem exec_graphEntryArm_outside (h : readyHead s p q 2 = some e) (hc : graphCluster s p e = false) :
    exec (.graphEntryArm p q) s = .next (leaveQueue (failEntry s e stBadEntry noIndex) p q e.level) := by
  show execGraphEntryArm p q s = _
  rw [execGraphEntryArm, h]
  exact if_neg (by simp [hc])

theorem exec_copyEntry {b : Bind} (h : readyHead s p q 3 = some e) (hb : bindFor s p q e.bytes = some b) :
    exec (.copyEntry p q) s = .next (startCopyEntry s p q e b) := by
  show execCopyEntry p q s = _
  rw [execCopyEntry, h]
  simp only [hb]

theorem exec_waitEntry {x : Partition} {y : Queue} (hp : s.parts = [(p, x)]) (hq : x.queues = [(q, y)]) (h : readyHead s p q 4 = some e)
    (hw : waitOver s e = true) : exec .waitEntry s = .next (s.modLevel e.level (fun x => { x with counter := 0, closed := true })) := by
  show execWaitEntry s = _
  simp only [execWaitEntry, hp, hq, List.findSome?_cons, h, hw, if_true]

/-- Settles O49: each kind of entry that stands ready at its queue's head, by what its start finds. -/
theorem queueHeads : Obligations.QueueHeads := by
  refine ⟨fun s p q e h => ⟨?launch, ?refused⟩, ?graph, ?outside, fun s p q e h => ⟨fun h0 => ?empty, fun b hb h0 => ?copy⟩, ?wait⟩
  case launch =>
    intro l pc s0 bs lab s1 a s2 hl hp hr ha
    refine ⟨_, (exec_launchEntryStart h).trans (congrArg _ (startLaunch_of_ok hl hp hr ha)), beginLaunch_launch _, beginLaunch_mem .., ?_, ?_⟩
    · intro h0 hn
      rw [beginLaunch_mem]
      exact placeArgs_bytes ha h0 hn
    · intro y hy z hz hlev
      exact begun_of_markBegun hy z hz hlev
  case refused =>
    intro k x hl hx
    exact ⟨_, (exec_launchEntryStart h).trans (congrArg _ (startLaunch_of_error hl)), failEntry_levelAt _ _ hx, failEntry_mem ..⟩
  case graph =>
    rintro s p q e n ps bs x h hc rfl hr ⟨g, hb⟩ hx
    obtain ⟨t, ht⟩ := startGraph_leaves (q := q) hr hb
    refine ⟨_, exec_graphEntryArm h hc, startGraph_mem .., fun y hy => ?_, fun l hl ha => ?_, fun k i hl => ?_⟩
    · rw [ht] at hy
      exact ne_of_leaveQueue hy
    · rw [startGraph_of_read hr hb, hl]
      exact armGraph_arms l hx ha
    · rw [startGraph_of_read hr hb, hl]
      exact failEntry_levelAt _ _ hx
  case outside =>
    intro s p q e x h hc hx
    exact ⟨_, exec_graphEntryArm_outside h hc, by simp, failEntry_levelAt _ _ hx⟩
  case empty =>
    obtain ⟨b, hb⟩ := bindFor_of_empty (s := s) (p := p) (q := q) h0
    refine ⟨_, _, (exec_copyEntry h hb).trans (congrArg _ (startCopyEntry_of_empty b h0)), tabGet_put_same _ _ _, ?_, rfl, fun y hy => ne_of_leaveQueue hy, by simp⟩
    rw [copyOfEntry, if_pos h0]
  case copy =>
    refine ⟨_, _, (exec_copyEntry h (bindFor_of_bind hb)).trans (congrArg _ (startCopyEntry_of_bytes b h0)), tabGet_put_same _ _ _, rfl, rfl, rfl, rfl, ?_,
      fun y hy => begun_of_markBegun hy, by simp⟩
    rw [copyOfEntry, if_neg h0]
  case wait =>
    intro s p x q y e l hp hq h hw hl
    exact ⟨_, exec_waitEntry hp hq h hw, by simp [hl], by simp⟩

end Sys2Proof.Machine
end

section
/-! SUPPORT. The nodes of graphs and the completion of levels: what a delivered completion leaves of the other nodes, how a node starts, and what
the completions above a level leave of it and of what was sent (R50, R52, R55, R386, R430). -/

namespace Sys2Proof.Machine

variable {s : State}

/-! Graph nodes. -/

/-- The counts of the successors of a completed node. -/
def lowerPreds (t : Tab Node) (j : Nat) : Tab Node := tabMod t j (fun y => { y with preds := y.preds - 1 })

theorem tabGet_lowerPreds {t : Tab Node} {j : Nat} {y : Node} (h : tabGet t j = some y) (i : Nat) :
    tabGet (lowerPreds t i) j = some { y with preds := y.preds - if i = j then 1 else 0 } := by
  rw [lowerPreds, tabGet_tabMod]
  by_cases hij : j = i
  · subst hij
    simp [h]
  · rw [if_neg hij, if_neg (Ne.symm hij), h, Nat.sub_zero]

theorem tabGet_lowerPreds_foldl (succs : List Nat) {t : Tab Node} {j : Nat} {y : Node} (h : tabGet t j = some y) :
    tabGet (succs.foldl lowerPreds t) j = some { y with preds := y.preds - (succs.filter (· == j)).length } := by
  induction succs generalizing t y with
  | nil => exact h
  | cons i succs ih =>
    rw [List.foldl_cons, ih (tabGet_lowerPreds h i), List.filter_cons]
    by_cases hij : i = j
    · simp [hij, Nat.sub_sub, Nat.add_comm]
    · simp [hij]

/-- The graph of which a node's completion has been delivered. -/
def settledGraph (g : Graph) (i : Nat) (x : Node) : Graph :=
  { g with nodes := tabMod (x.succs.foldl lowerPreds g.nodes) i (fun y => { y with settled := true }) }

theorem tabGet_settledGraph {g : Graph} {i j : Nat} {x y : Node} (h : tabGet g.nodes j = some y) :
    ∃ y', tabGet (settledGraph g i x).nodes j = some y' ∧ y'.started = y.started ∧ y'.preds = y.preds - (x.succs.filter (· == j)).length := by
  have hl := tabGet_lowerPreds_foldl x.succs h
  rw [settledGraph, tabGet_tabMod]
  split
  · subst j
    rw [hl]
    exact ⟨_, rfl, rfl, rfl⟩
  · exact ⟨_, hl, rfl, rfl⟩

/-- An entry level that fails because a node before it has failed (R52). -/
def Level.dependencyFailed (y : Level) : Level :=
  if y.status.isSome then y else { y with counter := 0, closed := true, fail := some stDependencyFailed }

theorem Level.dependencyFailed_idem (y : Level) : y.dependencyFailed.dependencyFailed = y.dependencyFailed := by
  unfold Level.dependencyFailed
  split <;> simp_all

/-- The level of a successor fails. -/
def failSuccessor (g : Graph) (s : State) (j : Nat) : State :=
  match (tabGet g.nodes j).bind Node.level with
  | some n => s.modLevel n Level.dependencyFailed
  | none => s

theorem failSuccessor_graphs (g : Graph) (j : Nat) : (failSuccessor g s j).graphs = s.graphs := by
  unfold failSuccessor
  split <;> rfl

theorem failSuccessor_or (g : Graph) (j : Nat) {m : Nat} {l : Level} (h : s.levelAt m = some l) :
    (failSuccessor g s j).levelAt m = some l ∨ (failSuccessor g s j).levelAt m = some l.dependencyFailed := by
  unfold failSuccessor
  split
  · rw [State.levelAt_modLevel]
    split
    · subst m
      exact .inr (by rw [h, Option.map_some])
    · exact .inl h
  · exact .inl h

theorem failSuccessors_keeps (g : Graph) (succs : List Nat) {m : Nat} {l : Level} (h : s.levelAt m = some l.dependencyFailed) :
    (succs.foldl (failSuccessor g) s).levelAt m = some l.dependencyFailed := by
  induction succs generalizing s with
  | nil => exact h
  | cons j succs ih =>
    refine ih ?_
    rcases failSuccessor_or g j h with hj | hj
    · exact hj
    · rwa [Level.dependencyFailed_idem] at hj

/-- The level of each successor has failed in the end. -/
theorem failSuccessors_fails {g : Graph} {succs : List Nat} {j m : Nat} {y : Node} {l : Level} (hj : j ∈ succs) (hy : tabGet g.nodes j = some y)
    (hm : y.level = some m) (h : s.levelAt m = some l) : (succs.foldl (failSuccessor g) s).levelAt m = some l.dependencyFailed := by
  induction succs generalizing s with
  | nil => cases hj
  | cons i succs ih =>
    rw [List.foldl_cons]
    rcases List.mem_cons.1 hj with rfl | hj
    · exact failSuccessors_keeps g succs (by simp [failSuccessor, hy, hm, h])
    · rcases failSuccessor_or g i h with hi | hi
      · exact ih hj hi
      · exact failSuccessors_keeps g succs hi

theorem settleNode_eq (k : Nat) (g : Graph) (i : Nat) (x : Node) : settleNode s k g i x =
    if (x.level.bind (fun n => (s.levelAt n).bind Level.status)).getD stOk = stOk then s.setGraph k (settledGraph g i x)
    else x.succs.foldl (failSuccessor g) (s.setGraph k (settledGraph g i x)) := rfl

theorem settleNode_graph (k : Nat) (g : Graph) (i : Nat) (x : Node) : tabGet (settleNode s k g i x).graphs k = some (settledGraph g i x) := by
  rw [settleNode_eq]
  split
  · exact tabGet_put_same ..
  · rw [foldl_keeps (failSuccessor g) State.graphs _ _ fun _ _ _ => failSuccessor_graphs ..]
    exact tabGet_put_same ..

/-- The levels of the successors of a node that has failed. -/
theorem settleNode_fails {k i n v j m : Nat} {g : Graph} {x y : Node} {l : Level} (hn : x.level = some n)
    (hs : (s.levelAt n).bind Level.status = some v) (hv : v ≠ stOk) (hj : j ∈ x.succs) (hy : tabGet g.nodes j = some y) (hm : y.level = some m)
    (hl : s.levelAt m = some l) (hr : l.status = none) :
    (settleNode s k g i x).levelAt m = some { l with counter := 0, closed := true, fail := some stDependencyFailed } := by
  rw [settleNode_eq, if_neg (by simp [hn, hs, hv]), failSuccessors_fails (s := s.setGraph k (settledGraph g i x)) hj hy hm hl, Level.dependencyFailed, if_neg (by simp [hr])]

/-! A node that starts. -/

section
variable (k : Nat) (g : Graph) (i : Nat) (x : Node) (n : Nat) (b : Bind)

theorem startNode_graph : ∃ g', tabGet (startNode s k g i x n b).graphs k = some g' ∧ tabGet g'.nodes i = some { x with started := true } := by
  unfold startNode
  refine ⟨{ g with nodes := tabPut g.nodes i { x with started := true } }, ?_, tabGet_put_same ..⟩
  dsimp only
  split <;> exact tabGet_put_same ..

/-- The entry with which a launch node joins its queue's device list. -/
def nodeEntry (g : Graph) (x : Node) (n : Nat) : QEntry := { bytes := x.entry, ep := g.ep, job := g.job, phase := g.phase, level := n, prev := none }

theorem startNode_joins (h : entryKind x.entry = 1) : ∃ y, (startNode s k g i x n b).queue g.part g.queue = some y ∧
    y.device = (tabGetD {} (s.part g.part).queues g.queue).device ++ [nodeEntry g x n] := by
  rw [startNode, if_pos h]
  refine ⟨{ tabGetD {} (s.part g.part).queues g.queue with
    device := (tabGetD {} (s.part g.part).queues g.queue).device ++ [nodeEntry g x n] }, ?_, rfl⟩
  simp [joinDevice, State.queue, State.modPart_eq, nodeEntry]

theorem startNode_copies (h : entryKind x.entry ≠ 1) :
    ∃ c, tabGet (startNode s k g i x n b).copies s.nextId = some c ∧ c.level = some n ∧ c.engine = none := by
  rw [startNode, if_neg h]
  exact ⟨_, tabGet_put_same _ _ _, rfl, rfl⟩
end

/-! One graph. -/

section
variable {k i : Nat} {g : Graph} {x : Node} (hg : s.graphs = [(k, g)])
include hg

theorem exec_graphNodeStart_settles (h : firstWith g.nodes (fun _ x => unsettled s x) = some (i, x)) :
    exec .graphNodeStart s = .next (settleNode s k g i x) := by
  show execGraphNodeStart s = _
  simp only [execGraphNodeStart, hg, List.findSome?_cons, h, Option.map_some]

theorem exec_graphNodeStart_starts {n : Nat} {b : Bind} (hu : firstWith g.nodes (fun _ x => unsettled s x) = none)
    (h : firstWith g.nodes (fun _ x => mayStart s g x && (nodeBind s g x).isSome) = some (i, x)) (hn : x.level = some n)
    (hb : nodeBind s g x = some b) : exec .graphNodeStart s = .next (startNode s k g i x n b) := by
  show execGraphNodeStart s = _
  simp only [execGraphNodeStart, hg, List.findSome?_cons, List.findSome?_nil, hu, h, Option.map_some, Option.map_none, hn, hb]
end

theorem graphNodesStartAndSettle : Rule.GraphNodesStartAndSettle := by
  refine fun s k g i x hg => ⟨fun h => ?_, fun n b hu h hn hb => ?_⟩
  · refine ⟨_, _, exec_graphNodeStart_settles hg h, settleNode_graph .., fun j y hy => tabGet_settledGraph hy, ?_⟩
    intro n v hn hs hv j hj y m l hy hm hl hr
    exact ⟨_, settleNode_fails hn hs hv hj hy hm hl hr, rfl, rfl, rfl⟩
  · exact ⟨_, exec_graphNodeStart_starts hg hu h hn hb, startNode_mem .., startNode_graph .., startNode_joins k g i x n b, startNode_copies k g i x n b⟩

/-! What the completion of a level leaves of other levels. -/

/-- A level's status is what it was, its level there. -/
def HasStatus (s : State) (n v : Nat) : Prop := (s.levelAt n).bind Level.status = some v

theorem HasStatus.modLevel {n v : Nat} (h : HasStatus s n v) (k : Nat) {g : Level → Level} (hg : ∀ x, x.status = some v → (g x).status = some v) :
    HasStatus (s.modLevel k g) n v := by
  obtain ⟨x, hx, hs⟩ := Option.bind_eq_some_iff.1 h
  rw [HasStatus, State.levelAt_modLevel]
  split
  · subst n
    rw [hx]
    exact hg x hs
  · exact h

theorem HasStatus.of_levelAt {t : State} {n v : Nat} (h : HasStatus s n v) (ht : t.levelAt n = s.levelAt n) : HasStatus t n v := by
  rwa [HasStatus, ht]

theorem HasStatus.foldl {α : Type} {n v : Nat} {F : State → α → State} (hF : ∀ s a, HasStatus s n v → HasStatus (F s a) n v) (l : List α)
    (h : HasStatus s n v) : HasStatus (l.foldl F s) n v := by
  induction l generalizing s with
  | nil => exact h
  | cons a l ih => exact ih (hF s a h)

theorem HasStatus.lowerLevel {n v : Nat} (h : HasStatus s n v) (k status index : Nat) : HasStatus (lowerLevel s k status index) n v :=
  h.modLevel k fun _ hx => hx

theorem HasStatus.childDone {n v : Nat} (h : HasStatus s n v) (k status index : Nat) : HasStatus (Machine.childDone s k status index) n v :=
  HasStatus.foldl (F := fun s k => Machine.lowerLevel s k status index) (fun _ k h => h.lowerLevel k status index) (s.counts k) h

@[simp] theorem setEntry_levels (s : State) (p level va e : Nat) : (setEntry s p level va e).levels = s.levels := by
  unfold setEntry
  split <;> rfl

@[simp] theorem freeWindow_levels (s : State) (p base : Nat) : (freeWindow s p base).levels = s.levels := by
  unfold freeWindow
  split
  · exact foldl_keeps _ State.levels _ s fun _ _ _ => setEntry_levels ..
  · rfl

@[simp] theorem freeWindow_mail (s : State) (p base : Nat) : (freeWindow s p base).mail = s.mail := by
  unfold freeWindow
  split <;> simp

/-- The endpoint's job of a phase is marked failed. -/
def failJobEntry (ep job : Nat) (s : State) : State :=
  match jobAt s ep job with
  | some (j, x) => s.modEndpoint ep (fun e => { e with jobs := tabPut e.jobs j { x with failed := true } })
  | none => s

/-- A later phase fails. -/
def failPhase (s : State) (e : Nat × Level) : State := s.modLevel e.1 (fun x => { x with fail := some stDependencyFailed })

/-- What stands in a later phase fails. -/
def failInside (s : State) (e : Nat × Level) : State := failUnstarted s e.1 stDependencyFailed

/-- The levels of a job's later phases, and of what stands in them, fail. -/
def failLater (later inside : List (Nat × Level)) (s : State) : State := inside.foldl failInside (later.foldl failPhase s)

theorem failJob_eq (ep job ident : Nat) : ∃ later inside, failJob s ep job ident = failJobEntry ep job (failLater later inside s) :=
  ⟨_, _, rfl⟩

theorem failJobEntry_levels (ep job : Nat) : (failJobEntry ep job s).levels = s.levels := by
  unfold failJobEntry
  split <;> rfl

theorem failJobEntry_outbox (ep job : Nat) : (failJobEntry ep job s).outbox = s.outbox := by
  unfold failJobEntry
  split <;> rfl

theorem failLater_outbox (later inside : List (Nat × Level)) : (failLater later inside s).outbox = s.outbox :=
  (foldl_keeps failInside State.outbox _ _ fun _ _ _ => rfl).trans (foldl_keeps failPhase State.outbox _ _ fun _ _ _ => rfl)

theorem HasStatus.failInside {n v : Nat} (h : HasStatus s n v) (e : Nat × Level) : HasStatus (failInside s e) n v :=
  h.modLevel e.1 fun x hx => by rw [hx]; exact hx

theorem HasStatus.failLater {n v : Nat} (h : HasStatus s n v) (later inside : List (Nat × Level)) : HasStatus (Machine.failLater later inside s) n v :=
  HasStatus.foldl (F := Machine.failInside) (fun _ e h => h.failInside e) inside
    (HasStatus.foldl (F := failPhase) (fun _ e h => h.modLevel e.1 fun _ hx => hx) later h)

/-- A failed phase leaves the status that a level has (R52). -/
theorem HasStatus.failJob {n v : Nat} (h : HasStatus s n v) (ep job ident : Nat) : HasStatus (Machine.failJob s ep job ident) n v := by
  obtain ⟨later, inside, he⟩ := failJob_eq (s := s) ep job ident
  rw [he]
  exact (h.failLater later inside).of_levelAt (by rw [State.levelAt, failJobEntry_levels]; rfl)

theorem failJob_outbox (ep job ident : Nat) : (failJob s ep job ident).outbox = s.outbox := by
  obtain ⟨later, inside, he⟩ := failJob_eq (s := s) ep job ident
  rw [he, failJobEntry_outbox, failLater_outbox]

theorem HasStatus.levelEnded {n v : Nat} (h : HasStatus s n v) (k : Nat) (x : Level) (status : Nat) : HasStatus (Machine.levelEnded s k x status) n v := by
  unfold Machine.levelEnded
  split
  · split
    · split
      · exact h
      · exact h.of_levelAt (by rw [State.levelAt, freeWindow_levels]; rfl)
    · exact h
  · split
    · split
      · exact h.failJob ..
      · exact h
    · exact h
  · split <;> exact h
  · exact h

theorem levelEnded_outbox (k : Nat) (x : Level) (status : Nat) : (levelEnded s k x status).outbox = s.outbox := by
  unfold levelEnded
  split
  · split
    · split
      · rfl
      · exact congrArg Prod.snd (freeWindow_mail ..)
    · rfl
  · split
    · split
      · exact failJob_outbox ..
      · rfl
    · rfl
  · split <;> rfl
  · rfl

/-- The end of a launch or of a graph leaves every level. -/
theorem levelEnded_levels {k : Nat} {x : Level} (h : x.kind = 1 ∨ x.kind = 2) (status : Nat) : (levelEnded s k x status).levels = s.levels := by
  rcases h with h | h <;> simp only [levelEnded, h]
  split
  · split
    · rfl
    · exact freeWindow_levels ..
  · rfl

@[simp] theorem levelMessage_levels (k : Nat) (x : Level) (status : Nat) : (levelMessage s k x status).levels = s.levels := by
  unfold levelMessage sendNumbered
  split
  · split <;> rfl
  · rfl

/-! A level that completes. -/

/-- The level as it completes, with its status and the number of its message. -/
def finished (s : State) (k : Nat) (x : Level) : State :=
  s.setLevel k { x with status := some x.final, counter := 0, message := if x.ask && !x.hidden && s.mayTalk x.ep then (s.endpoint x.ep).nextDev else 0 }

/-- What follows from its completion, before its parent learns of it. -/
def afterLevel (s : State) (k : Nat) (x : Level) : State :=
  freeChildren (levelEnded (levelMessage (finished s k x) k x x.final) k x x.final) k

theorem finishLevel_eq (k : Nat) (x : Level) : finishLevel s k x =
    match x.parent with
    | some p => if x.armed then afterLevel s k x else childDone (afterLevel s k x) p x.final x.index
    | none => afterLevel s k x := rfl

theorem HasStatus.afterLevel {n v k : Nat} {x : Level} (h : HasStatus (finished s k x) n v) : HasStatus (afterLevel s k x) n v :=
  ((h.of_levelAt (by rw [State.levelAt, levelMessage_levels]; rfl)).levelEnded k x x.final).of_levelAt rfl

theorem HasStatus.finishLevel {n v k : Nat} {x : Level} (h : HasStatus (finished s k x) n v) : HasStatus (finishLevel s k x) n v := by
  rw [finishLevel_eq]
  split
  · split
    · exact h.afterLevel
    · exact h.afterLevel.childDone ..
  · exact h.afterLevel

theorem hasStatus_finished_self (k : Nat) (x : Level) : HasStatus (finished s k x) k x.final := by
  simp [HasStatus, finished]

theorem HasStatus.finished {n v k : Nat} (h : HasStatus s n v) (hk : n ≠ k) (x : Level) : HasStatus (finished s k x) n v :=
  h.of_levelAt (by simp [Machine.finished, hk])

theorem Level.not_due_of_status {x : Level} {v : Nat} (h : x.status = some v) : x.due = false := by simp [Level.due, h]

/-- The completions above a level leave the status that a level has. -/
theorem HasStatus.finishUp {n v : Nat} (h : HasStatus s n v) (fuel k : Nat) : HasStatus (finishUp fuel k s) n v := by
  induction fuel generalizing k s with
  | zero => exact h
  | succ fuel ih =>
    unfold Machine.finishUp
    split
    · exact h
    · next x hx =>
      split
      · next hd =>
        have hk : n ≠ k := by
          rintro rfl
          rw [HasStatus, hx] at h
          exact Bool.false_ne_true ((Level.not_due_of_status h).symm.trans hd)
        have hf : HasStatus (Machine.finishLevel s k x) n v := (h.finished hk x).finishLevel
        dsimp only
        split
        · exact ih hf _
        · exact hf
      · exact h

/-! What completions send. -/

/-- Only further messages have been sent. -/
def SendsMore (s t : State) : Prop := ∃ more, t.outbox = s.outbox ++ more

theorem SendsMore.of_eq {t : State} (h : t.outbox = s.outbox) : SendsMore s t := ⟨[], by rw [h, List.append_nil]⟩

theorem SendsMore.trans {t u : State} (h : SendsMore s t) (h' : SendsMore t u) : SendsMore s u := by
  obtain ⟨a, ha⟩ := h
  obtain ⟨b, hb⟩ := h'
  exact ⟨a ++ b, by rw [hb, ha, List.append_assoc]⟩

theorem levelMessage_sendsMore (k : Nat) (x : Level) (status : Nat) : SendsMore s (levelMessage s k x status) := by
  unfold levelMessage sendNumbered
  split
  · split
    · exact ⟨_, rfl⟩
    · exact .of_eq rfl
  · exact .of_eq rfl

theorem childDone_outbox (k status index : Nat) : (childDone s k status index).outbox = s.outbox :=
  foldl_keeps _ State.outbox _ _ fun _ _ _ => rfl

/-- After its own message a level sends nothing. -/
theorem finishLevel_outbox (k : Nat) (x : Level) : (finishLevel s k x).outbox = (levelMessage (finished s k x) k x x.final).outbox := by
  have ha : (afterLevel s k x).outbox = (levelMessage (finished s k x) k x x.final).outbox := levelEnded_outbox ..
  rw [finishLevel_eq]
  split
  · split
    · exact ha
    · exact (childDone_outbox ..).trans ha
  · exact ha

theorem finishLevel_sendsMore (k : Nat) (x : Level) : SendsMore s (finishLevel s k x) :=
  (levelMessage_sendsMore (s := finished s k x) k x x.final).trans (.of_eq (finishLevel_outbox k x))

theorem finishUp_sendsMore (fuel k : Nat) : SendsMore s (finishUp fuel k s) := by
  induction fuel generalizing k s with
  | zero => exact .of_eq rfl
  | succ fuel ih =>
    unfold finishUp
    split
    · exact .of_eq rfl
    · split
      · dsimp only
        split
        · exact (finishLevel_sendsMore ..).trans (ih _)
        · exact finishLevel_sendsMore ..
      · exact .of_eq rfl

/-- The message of a level that asks for one (R430). -/
theorem levelMessage_outbox {k : Nat} {x : Level} (ha : x.ask = true) (hh : x.hidden = false) (ht : s.mayTalk x.ep = true) (status : Nat) :
    ∃ o, (levelMessage s k x status).outbox = s.outbox ++ [o] ∧ o.kind = 2 ∧ o.ep = x.ep ∧ o.level = x.kind ∧ o.detail = x.ident ∧
      o.index = x.index ∧ o.seq = (s.endpoint x.ep).nextDev ∧ o.status = status := by
  rw [levelMessage, if_pos (by simp [ha, hh]), sendNumbered_outbox ht]
  exact ⟨_, rfl, rfl, rfl, rfl, rfl, rfl, rfl, rfl⟩

/-! The first level that is due. -/

/-- A level that is due completes, and then what completes above it. -/
theorem finishUp_of_due {fuel k : Nat} {x : Level} (hx : s.levelAt k = some x) (hd : x.due = true) : finishUp (fuel + 1) k s =
    match x.parent with
    | some p => finishUp fuel p (finishLevel s k x)
    | none => finishLevel s k x := by
  rw [finishUp, hx]
  simp only [hd, if_true] <;> rfl

/-- The state before the completions above a level is its completion. -/
theorem finishUp_from {fuel k : Nat} {x : Level} (hx : s.levelAt k = some x) (hd : x.due = true) :
    ∃ n p, finishUp (fuel + 1) k s = finishUp n p (finishLevel s k x) ∧ ∀ q, x.parent = some q → p = q := by
  rw [finishUp_of_due hx hd]
  split
  · next p hp => exact ⟨fuel, p, rfl, fun q hq => by rw [hp] at hq; exact Option.some.inj hq⟩
  · next hp => exact ⟨0, 0, rfl, fun q hq => by rw [hp] at hq; cases hq⟩

/-- The level in which a child that completes counts alone. -/
theorem childDone_levelAt {p : Nat} {z : Level} (hz : s.levelAt p = some z) (hza : z.armed = false) (status index : Nat) :
    ∃ z', (childDone s p status index).levelAt p = some z' ∧ z'.counter = z.counter - 1 ∧ z'.status = z.status ∧
      z'.fail = if z.fail = none ∧ status ≠ stOk then some status else z.fail := by
  have he : childDone s p status index = lowerLevel s p status index := by
    rw [childDone, counts_of_not_armed hz hza, List.foldl_cons, List.foldl_nil]
  rw [he, lowerLevel, State.levelAt_modLevel, if_pos rfl, hz]
  refine ⟨_, rfl, rfl, rfl, ?_⟩
  dsimp only
  split <;> simp_all

/-- The parent of a launch or a graph that has completed has one child fewer. -/
theorem finishLevel_parent {k p : Nat} {x z : Level} (hk : x.kind = 1 ∨ x.kind = 2) (hp : x.parent = some p) (hpk : p ≠ k) (ha : x.armed = false)
    (hz : s.levelAt p = some z) (hza : z.armed = false) :
    ∃ z', (finishLevel s k x).levelAt p = some z' ∧ z'.counter = z.counter - 1 ∧ z'.status = z.status := by
  have hl : (afterLevel s k x).levelAt p = some z := by
    rw [State.levelAt, afterLevel]
    show tabGet (levelEnded _ k x x.final).levels p = _
    rw [levelEnded_levels hk, levelMessage_levels]
    show (finished s k x).levelAt p = _
    rw [finished, State.levelAt_setLevel, if_neg hpk, hz]
  obtain ⟨z', hz', hc, hs, -⟩ := childDone_levelAt hl hza x.final x.index
  exact ⟨z', by simp [finishLevel_eq, hp, ha, hz'], hc, hs⟩

theorem finishUp_of_counter {fuel k : Nat} {z : Level} (h : s.levelAt k = some z) (hc : z.counter ≠ 0) : finishUp fuel k s = s := by
  cases fuel with
  | zero => rfl
  | succ fuel =>
    rw [finishUp, h]
    exact if_neg (by simp [Level.due, hc])

theorem pruneQueues_levelAt (k : Nat) : (pruneQueues s).levelAt k = s.levelAt k := rfl

theorem exec_levelCompletion {k : Nat} {x : Level} (h : s.levels.find? (fun e => e.2.due) = some (k, x)) :
    exec .levelCompletion s = .next (pruneQueues (finishUp s.levels.length k s)) := by
  show execLevelCompletion s = _
  rw [execLevelCompletion, h]

theorem levelsComplete : Rule.LevelsComplete := by
  intro s k x hf hx
  have hd : x.due = true := List.find?_some (p := fun e : Nat × Level => e.2.due) hf
  obtain ⟨fuel, hfuel⟩ : ∃ n, s.levels.length = n + 1 :=
    Nat.exists_eq_succ_of_ne_zero (List.length_pos_of_mem (List.mem_of_find?_eq_some hf)).ne'
  obtain ⟨n, p, hup, hpar⟩ := finishUp_from (fuel := fuel) hx hd
  have hex := exec_levelCompletion hf
  rw [hfuel, hup] at hex
  obtain ⟨y, hy, hs⟩ := Option.bind_eq_some_iff.1 ((hasStatus_finished_self (s := s) k x).finishLevel.finishUp n p)
  refine ⟨_, y, hex, hy, hs, fun ha hh ht => ?_, fun q z hk hq hqk ha hz hza hc => ?_⟩
  · obtain ⟨o, ho, hrest⟩ := levelMessage_outbox (s := finished s k x) (k := k) ha hh ht x.final
    obtain ⟨more, hmore⟩ := finishUp_sendsMore (s := finishLevel s k x) n p
    refine ⟨o, more, ?_, hrest⟩
    show (finishUp n p (finishLevel s k x)).outbox = _
    rw [hmore, finishLevel_outbox, ho, List.append_assoc]
    rfl
  · obtain rfl := hpar q hq
    obtain ⟨z', hz', hcount, hstatus⟩ := finishLevel_parent hk hq hqk ha hz hza
    refine ⟨z', ?_, hcount, hstatus⟩
    rw [pruneQueues_levelAt, finishUp_of_counter hz' (by omega), hz']

/-- Settles O50: a graph settles or starts its first node that can, and the first level that is due completes and then what completes above it. -/
theorem graphsAndLevels : Obligations.GraphsAndLevels := ⟨graphNodesStartAndSettle, levelsComplete⟩

end Sys2Proof.Machine
end

section
/-! SUPPORT. Why the statement about units that leave their slots fails: it speaks of every state, and in a state with a gang of more than 32
lanes the landing of that gang's LAUNCH reaches threads of the next gang (R113, R390). -/

namespace Sys2Proof.Machine

/-- A thread of gang 1 that waits for the landing of issue group 0. -/
def waitingThread : Thread := { sched := .blocked (.landing 0) }

/-- A stopped unit of two gangs, gang 0 with 64 lanes, so that thread 32 of gang 1 counts as one of them too; gang 0 has a LAUNCH in flight. No
dispatch makes such a gang: it launches 32 lanes, or 1 on a control core (R113). -/
def wideGang : State :=
  { units := [(0, { Unit.absent with gangs := 2, stopped := true })], gangs := [(0, { lanes := 64 }), (1, {})], threads := [(32, waitingThread)],
    accesses := [(0, { kind := .launch, thread := 0, group := 0, pc := 0, op := 0, f := blank, addr := 0, width := 0 })] }

theorem savable_wideGang : savable wideGang = some 0 := by decide

theorem exec_quiescence_wideGang : exec (.quiescence (.unit 0)) wideGang = .next (saveUnit wideGang 0) := by
  show execQuiescence (.unit 0) wideGang = _
  rw [execQuiescence, quiesceStep, savable_wideGang]
  rfl

/-- The thread is saved as ready: dropping the LAUNCH of gang 0 has unblocked it. -/
theorem wideGang_saves_ready :
    ((tabGet (saveUnit wideGang 0).saved wideGang.nextId).bind (fun e => tabGet e.threads 32)).map Thread.sched = some .ready := by
  decide +kernel

/-- Refutes O51: a thread of another gang than the LAUNCH's is not saved as it stood where that gang has more than 32 lanes. -/
theorem not_units : ¬ Obligations.Units := by
  rintro ⟨-, -, hsaved, -⟩
  obtain ⟨s', e, hex, he, -, -, -, -, hthreads, -⟩ := hsaved wideGang 0 (.unit 0) savable_wideGang
  obtain ⟨y, hy, hyx, -⟩ := hthreads 32 waitingThread (by decide) rfl (by decide)
  rw [exec_quiescence_wideGang] at hex
  obtain rfl := Host.Outcome.next.inj hex
  have hready : some y.sched = some .ready := by rw [← wideGang_saves_ready, he, Option.bind_some, hy, Option.map_some]
  have hwaits : y.sched = .blocked (.landing 0) := congrArg Thread.sched hyx
  rw [hwaits] at hready
  cases hready

end Sys2Proof.Machine
end

section
/-! SUPPORT. A gang that arrives whole at a form that the builder holds: each of its threads is held, the hold ends at once, and what is performed for
the gang moves each thread past the form (R120, R336, R378). -/

namespace Sys2Proof.Machine

/-! The arrival. -/

/-- The state with other threads. -/
def State.withThreads (s : State) (T : Tab Thread) : State := { s with threads := T }

/-- Threads held one after another. -/
def holdAll (w : Why) (ts : List Nat) (s : State) : State := ts.foldl (fun s t => s.block t w) s

theorem holdAll_eq (w : Why) (ts : List Nat) (s : State) : holdAll w ts s = s.withThreads (holdAll w ts s).threads := by
  induction ts generalizing s with
  | nil => rfl
  | cons t ts ih => exact ih (s.block t w)

theorem holdAll_thread_of_not_mem (w : Why) {ts : List Nat} {u : Nat} (h : u ∉ ts) (s : State) : (holdAll w ts s).thread u = s.thread u :=
  foldl_keeps _ (State.thread · u) ts s fun _ t ht => State.thread_block_ne _ (show u ≠ t from fun hu => h (hu ▸ ht)) w

theorem holdAll_body (w : Why) (ts : List Nat) (s : State) (u : Nat) : ((holdAll w ts s).thread u).body = (s.thread u).body :=
  foldl_keeps _ (fun s => (State.thread s u).body) ts s fun _ _ _ => State.block_body ..

theorem holdAll_inTrap (w : Why) (ts : List Nat) (s : State) (u : Nat) : ((holdAll w ts s).thread u).inTrap = (s.thread u).inTrap := by
  refine foldl_keeps _ (fun s => (State.thread s u).inTrap) ts s fun s t _ => ?_
  simp only [State.block, State.thread_modThread]
  split
  · subst u; rfl
  · rfl

theorem State.sched_block (s : State) (t u : Nat) (w : Why) :
    ((s.block t w).thread u).sched = if u = t then (s.thread t).goTo (.blocked w) else (s.thread u).sched := by
  simp only [State.block, State.thread_modThread]
  split
  · subst u; rfl
  · rfl

/-- A thread that has not exited is held in the end where it is named. -/
theorem holdAll_sched (w : Why) {ts : List Nat} {u : Nat} (h : u ∈ ts) (s : State) (hx : (s.thread u).sched ≠ .exited) :
    ((holdAll w ts s).thread u).sched = .blocked w := by
  induction ts generalizing s with
  | nil => cases h
  | cons t ts ih =>
    have hgo : (s.thread t).sched ≠ .exited → (s.thread t).goTo (.blocked w) = .blocked w := fun h => by simp [Thread.goTo, h]
    by_cases hm : u ∈ ts
    · refine ih hm _ ?_
      rw [State.sched_block]
      split
      · subst u; simp [hgo hx]
      · exact hx
    · obtain rfl : u = t := (List.mem_cons.1 h).resolve_right hm
      show ((holdAll w ts (s.block u w)).thread u).sched = _
      rw [holdAll_thread_of_not_mem w hm, State.sched_block, if_pos rfl, hgo hx]

theorem distinct_of_constant {l : List Nat} {g : Nat} (h : l ≠ []) (hl : ∀ x ∈ l, x = g) : distinct l = [g] := by
  obtain ⟨x, l, rfl⟩ := List.exists_cons_of_ne_nil h
  obtain ⟨rfl, hrest⟩ := List.forall_mem_cons.1 hl
  show l.foldl (fun acc x => if acc.contains x then acc else acc ++ [x]) [x] = [x]
  clear h hl
  induction l with
  | nil => rfl
  | cons y l ih =>
    obtain ⟨rfl, hrest⟩ := List.forall_mem_cons.1 hrest
    rw [List.foldl_cons, if_pos (by simp)]
    exact ih hrest

section
variable {s : State} {op : Nat} {f : Fields} {preds : List Nat} {g : Nat}

theorem GangArrives.nodup (h : GangArrives s op f preds g) : s.group.Nodup := by
  obtain ⟨t, ht⟩ := List.exists_mem_of_ne_nil _ h.nonempty
  exact (h.issues t ht).1.1.nodup

theorem GangArrives.mem_group (h : GangArrives s op f preds g) {t : Nat} :
    t ∈ s.group ↔ t ∈ s.threadsOfGang g ∧ (s.thread t).sched ≠ .exited := by
  rw [h.group, List.mem_filter, bne_iff_ne]

theorem GangArrives.gangOf (h : GangArrives s op f preds g) {t : Nat} (ht : t ∈ s.group) : gangOf t = g := by
  obtain ⟨l, hl, rfl⟩ := List.mem_map.1 (h.mem_group.1 ht).1
  have hlanes := h.lanes
  rw [List.mem_range] at hl
  simp only [Machine.gangOf, threadAt]
  omega

theorem GangArrives.gangOf_leaderOf (h : GangArrives s op f preds g) : Machine.gangOf (leaderOf s) = g := by
  obtain ⟨t, l, hgroup⟩ := List.exists_cons_of_ne_nil h.nonempty
  have hmem : t ∈ s.group := by rw [hgroup]; exact List.mem_cons_self
  rw [leaderOf, hgroup]
  exact h.gangOf hmem

/-- The threads of the group that the arrival holds. -/
theorem GangArrives.ready_or_held (h : GangArrives s op f preds g) (hh : holdOf op f = some .held) {t : Nat} (ht : t ∈ s.group) :
    (s.thread t).sched = .ready ∨ (s.thread t).sched = .blocked .held := by
  obtain ⟨⟨-, hsched⟩, -⟩ := h.issues t ht
  rcases hsched with hr | ⟨w, hw, hb⟩
  · exact .inl hr
  · rw [hh] at hw
    obtain rfl := Option.some.inj hw
    exact .inr hb

/-- The state in which the whole gang is held. -/
def arrived (s : State) : State := holdAll .held s.readyGroup s

theorem arrive_of_gangArrives (h : GangArrives s op f preds g) : arrive op f preds [] .held s = arrived s := by
  refine List.foldl_ext _ _ _ fun b t ht => ?_
  obtain ⟨hmem, hready⟩ := List.mem_filter.1 ht
  have hissues : Issues s op f preds [] t := ⟨(h.issues t hmem).1.1, by simpa using hready⟩
  rw [hissues.checkIn]

theorem arrived_eq (s : State) : arrived s = s.withThreads (arrived s).threads := holdAll_eq ..

theorem arrived_body (s : State) (t : Nat) : ((arrived s).thread t).body = (s.thread t).body := holdAll_body ..

theorem arrived_inTrap (s : State) (t : Nat) : ((arrived s).thread t).inTrap = (s.thread t).inTrap := holdAll_inTrap ..

theorem arrived_sched (h : GangArrives s op f preds g) (hh : holdOf op f = some .held) {t : Nat} (ht : t ∈ s.group) :
    ((arrived s).thread t).sched = .blocked .held := by
  rcases h.ready_or_held hh ht with hr | hb
  · exact holdAll_sched .held (List.mem_filter.2 ⟨ht, by simp [hr]⟩) s (by simp [hr])
  · have hn : t ∉ s.readyGroup := fun hm => by simp [State.readyGroup, hb] at hm
    rw [arrived, holdAll_thread_of_not_mem _ hn, hb]

theorem arrived_thread_of_not_mem {t : Nat} (ht : t ∉ s.group) : (arrived s).thread t = s.thread t :=
  holdAll_thread_of_not_mem _ (fun hm => ht (List.mem_filter.1 hm).1) s

theorem arrived_gang (s : State) (g : Nat) : (arrived s).gang g = s.gang g := by rw [arrived_eq]; rfl
theorem arrived_issue (s : State) : (arrived s).issue = s.issue := by rw [arrived_eq]; rfl
theorem arrived_pc (s : State) : (arrived s).pc = s.pc := congrArg Issue.pc (arrived_issue s)
theorem arrived_group (s : State) : (arrived s).group = s.group := congrArg Issue.threads (arrived_issue s)

theorem arrived_threadsOfGang (s : State) (g : Nat) : (arrived s).threadsOfGang g = s.threadsOfGang g := by
  rw [State.threadsOfGang, arrived_gang]
  rfl

theorem arrived_guard (s : State) (f : Fields) (t : Nat) : guardTrue (arrived s) t f = guardTrue s t f := by
  rw [guardTrue, ← Thread.body_pred, arrived_body, Thread.body_pred]
  rfl

/-- The held threads of the gang are those of the group. -/
theorem heldAt_arrived (h : GangArrives s op f preds g) (hh : holdOf op f = some .held) : (arrived s).heldAt g s.pc = s.group := by
  rw [State.heldAt, arrived_threadsOfGang]
  refine Eq.trans (List.filter_congr fun t ht => ?_) h.group.symm
  by_cases hm : t ∈ s.group
  · have hpc : ((arrived s).thread t).pc = s.pc := by
      rw [← Thread.body_pc, arrived_body, Thread.body_pc, (h.issues t hm).2]
    have hx := (h.mem_group.1 hm).2
    simp [Thread.isHeld, arrived_sched h hh hm, hpc, hx]
  · have hx : (s.thread t).sched = .exited := by
      by_contra hx
      exact hm (h.mem_group.2 ⟨ht, hx⟩)
    simp [Thread.isHeld, arrived_thread_of_not_mem hm, hx]

/-- A gang that arrives whole issues. -/
theorem holdIssues_arrived (h : GangArrives s op f preds g) (hh : holdOf op f = some .held) : (arrived s).holdIssues g = true := by
  have hlane : ∀ l ∈ List.range (s.gang g).lanes, (s.group.contains (threadAt g l) || !(arrived s).laneLive g l) = true := by
    intro l hl
    have hthread : threadAt g l ∈ s.threadsOfGang g := List.mem_map.2 ⟨l, hl, rfl⟩
    by_cases hm : threadAt g l ∈ s.group
    · simp [hm]
    · have hx : (s.thread (threadAt g l)).sched = .exited := by
        by_contra hx
        exact hm (h.mem_group.2 ⟨hthread, hx⟩)
      simp [State.laneLive, arrived_thread_of_not_mem hm, hx]
  have hends : ∀ t ∈ s.group, (arrived s).lanesArrived g s.pc (((arrived s).holdLanes t).getD []) = true := by
    intro t ht
    have hlanes : (arrived s).holdLanes t = some (List.range (s.gang g).lanes) := by
      rw [State.holdLanes, arrived_sched h hh ht, h.gangOf ht, arrived_gang]
    rw [hlanes, Option.getD_some, State.lanesArrived, heldAt_arrived h hh]
    exact List.all_eq_true.2 hlane
  have hne : s.group.isEmpty = false := by simpa using h.nonempty
  simp only [State.holdIssues, State.holdEnds, arrived_pc, arrived_group, heldAt_arrived h hh, hne, List.all_eq_true.2 hends, Bool.not_false,
    Bool.true_and]
  exact List.all_eq_true.2 fun t ht => by simpa using ht

/-- The group is of one gang. -/
theorem gangsOf_of_gangArrives (h : GangArrives s op f preds g) : gangsOf s.group = [g] := by
  refine distinct_of_constant (by simpa using h.nonempty) fun x hx => ?_
  obtain ⟨t, ht, rfl⟩ := List.mem_map.1 hx
  exact h.gangOf ht
end

/-! What is performed. -/

/-- Threads that move past an instruction one after another, each leaving what the others hold. -/
theorem foldl_moved (F : State → Nat → State) {ts : List Nat} (hne : ∀ b u t, t ≠ u → ((F b u).thread t).body = (b.thread t).body)
    (hissue : ∀ b u, (F b u).issue = b.issue) (hself : ∀ b, ∀ u ∈ ts, Thread.Moved (b.thread u) ((F b u).thread u) (nextPc b.pc))
    (hn : ts.Nodup) {t : Nat} (ht : t ∈ ts) (b : State) : Thread.Moved (b.thread t) ((ts.foldl F b).thread t) (nextPc b.pc) := by
  induction ts generalizing b with
  | nil => cases ht
  | cons u us ih =>
    obtain ⟨hu, hus⟩ := List.nodup_cons.1 hn
    rw [List.foldl_cons]
    by_cases htu : t = u
    · subst htu
      refine (hself b t List.mem_cons_self).of_body ?_
      exact foldl_keeps F (fun s => (State.thread s t).body) us _ fun b v hv => hne b v t fun h => hu (h ▸ hv)
    · have hmoved := ih (fun b v hv => hself b v (List.mem_cons_of_mem _ hv)) hus ((List.mem_cons.1 ht).resolve_left htu) (F b u)
      rw [show (F b u).pc = b.pc from congrArg Issue.pc (hissue b u)] at hmoved
      exact hmoved.of_body_left (hne b u t htu)

theorem Thread.Moved.trans {x y z : Thread} {p q : Pc} (h : Thread.Moved x y p) (k : Thread.Moved y z q) : Thread.Moved x z q :=
  ⟨k.pc, k.regs.trans h.regs, k.empty.trans h.empty, k.preds.trans h.preds, k.pend.trans h.pend, k.mode.trans h.mode, k.cls.trans h.cls,
    k.highShadow.trans h.highShadow, k.trapkind.trans h.trapkind, k.trappc.trans h.trappc, k.trapinfo.trans h.trapinfo,
    k.shadow.trans h.shadow, k.budget.trans h.budget⟩

/-- A thread that is released keeps what it holds and stays where it stands. -/
theorem State.unblock_moved (s : State) (t u : Nat) : Thread.Moved (s.thread u) ((s.unblock t).thread u) (s.thread u).pc := by
  simp only [State.unblock, State.thread_modThread]
  split
  · subst u; constructor <;> rfl
  · constructor <;> rfl

theorem State.release_moved (ts : List Nat) (s : State) (u : Nat) : Thread.Moved (s.thread u) ((s.release ts).thread u) (s.thread u).pc := by
  induction ts generalizing s with
  | nil => constructor <;> rfl
  | cons t ts ih =>
    have hrest := ih (s.unblock t)
    rw [(s.unblock_moved t u).pc] at hrest
    exact (s.unblock_moved t u).trans hrest

theorem State.release_issue (ts : List Nat) (s : State) : (s.release ts).issue = s.issue :=
  foldl_keeps _ State.issue ts s fun _ _ _ => State.unblock_issue ..

/-- An effect that does nothing lets its thread go on. -/
theorem applyEff_idle_moved (f : Fields) (l : Label) (a b c : Bool) (t : Nat) (s : State) (serial : Nat) (ws : List (Nat × List Wr)) :
    Thread.Moved (s.thread t) ((applyEff f l a b c t s (uniOnce serial ws t {})).thread t) (nextPc s.pc) := by
  have hmoved := applyEff_moved f l a b c t s (uniOnce serial ws t {}) (uniOnce_exits ..) (uniOnce_check ..)
  rw [uniOnce_onThread, uniOnce_next] at hmoved
  exact hmoved

/-- What is performed for threads with a true guard, where it does nothing to a thread but let it go on. -/
theorem perform_moved (op : Nat) (f : Fields) {ts : List Nat} (hn : ts.Nodup) {s : State} (hg : ∀ t ∈ ts, guardTrue s t f = true) {t : Nat}
    (ht : t ∈ ts) : Thread.Moved (s.thread t) ((perform op f ts (fun _ _ => {}) s).thread t) (nextPc s.pc) := by
  have hpc : (s.release ts).pc = s.pc := congrArg Issue.pc (State.release_issue ts s)
  refine (s.release_moved ts t).trans (hpc ▸ foldl_moved _ (fun b u t htu => ?_) (fun b u => ?_) (fun b u hu => ?_) hn ht _)
  · dsimp only
    split
    · exact applyEff_body_ne _ _ _ _ _ htu _ _
    · rw [retire_thread_ne _ _ _ _ htu]
  · dsimp only
    split
    · exact applyEff_issue ..
    · exact retire_issue ..
  · dsimp only
    rw [if_pos (hg u hu)]
    exact applyEff_idle_moved ..

end Sys2Proof.Machine
end

section
/-! SUPPORT. Copies: the slice that a gang supplies to its unit's next command, the start of commands, and the engines that take them (R73, R318,
R319, R336, R337). -/

namespace Sys2Proof.Machine

variable {s : State} {op : Nat} {f : Fields} {multicast : Bool} {g : Nat} {sl : CopySlice}

/-! A slice. -/

/-- The number of a gang's next command. -/
def nextCommand (s : State) (g : Nat) : Nat := (s.gang g).copyCount + 1

/-- The first of the held threads, which acts for the gang. -/
def heldLeader (s : State) (g : Nat) : Nat := (s.heldAt g s.pc).headD (threadAt g 0)

/-- A command with a gang's slice entered. -/
def withSlice (f : Fields) (op : Nat) (multicast : Bool) (s : State) (g : Nat) (sl : CopySlice) (c : Copy) : Copy :=
  c.supply g ((s.heldAt g s.pc).foldl (fun c t => max c (s.thread t).cls) 0) (descOf s f g).tag
    (descLabel s op f (heldLeader s g) (if multicast then 8 else 4)) (some sl)

/-- A gang's slice supplied to a command under a key, in the state that has given the key: the threads go on, the command stands with the slice, the
gang has counted it, and the slots and lines are taken. -/
def supplied (op : Nat) (f : Fields) (multicast : Bool) (s : State) (g : Nat) (sl : CopySlice) (takes : Bool) (base : Copy) (key : Nat × State) :
    State :=
  let s1 := perform op f (s.heldAt g s.pc) (fun _ _ => {}) key.2
  let s2 := (s1.setCopy key.1 (withSlice f op multicast s g sl base)).modGang g (fun x => { x with copyCount := nextCommand s g })
  let s3 := if takes then s2.modUnit (unitOf g) (fun u => u.takeSlots (descOf s f g).receivers) else s2
  if sl.dstMem || multicast then s3 else s3.modUnit (unitOf g) (fun u => u.emptyLines sl.dst sl.bytes)

/-- A new command of the gang's unit, before its first slice. -/
def freshCommand (f : Fields) (multicast : Bool) (s : State) (g : Nat) : Copy :=
  { newCommand s (heldLeader s g) (nextCommand s g) with
    multicast := multicast, receivers := (descOf s f g).receivers, mask := if multicast then (descOf s f g).mask else 0,
    slotsOut := if multicast then distinct (descOf s f g).receivers else [] }

/-- A gang whose command is new. -/
theorem supplyCopy_of_none (hfit : CopyFits s f multicast g) (hsl : sliceOf s op f (heldLeader s g) multicast = .ok sl)
    (hu : unitCommand s (unitOf g) (nextCommand s g) = none) :
    supplyCopy op f multicast s g = supplied op f multicast s g sl multicast (freshCommand f multicast s g) s.takeId := by
  obtain ⟨hfifth, hroom⟩ := hfit
  rw [show (s.gang g).copyCount + 1 = nextCommand s g from rfl, hu] at hroom
  obtain ⟨hwait, hslots⟩ := hroom
  have hfew : decide (8 ≤ waitingCommands s (unitOf g)) = false := by simpa using hwait
  have hnofifth : (multicast && fifthReceiver (s.unit (unitOf g)) (descOf s f g).receivers) = false := by
    cases multicast <;> simp_all
  have hfree : (multicast && (descOf s f g).receivers.any (fun r => decide (slotsLeft (s.unit (unitOf g)) r = 0))) = false := by
    cases multicast <;> simp_all
  simp only [heldLeader] at hsl
  simp only [supplyCopy, show (s.gang g).copyCount + 1 = nextCommand s g from rfl, hu, hfew, hnofifth, hfree, hsl, Option.isNone_none, Bool.and_true,
    Bool.true_and, Bool.not_false, Bool.false_eq_true, if_false, Bool.or_self]
  rfl

/-- A gang whose command another gang of its unit has begun. -/
theorem supplyCopy_of_some (hfit : CopyFits s f multicast g) (hsl : sliceOf s op f (heldLeader s g) multicast = .ok sl) {e : Nat × Copy}
    (hu : unitCommand s (unitOf g) (nextCommand s g) = some e) :
    supplyCopy op f multicast s g = supplied op f multicast s g sl false e.2 (e.1, s) := by
  obtain ⟨hfifth, hsame⟩ := hfit
  rw [show (s.gang g).copyCount + 1 = nextCommand s g from rfl, hu] at hsame
  obtain ⟨hkind, hreceivers⟩ := hsame
  have hnofifth : (multicast && fifthReceiver (s.unit (unitOf g)) (descOf s f g).receivers) = false := by
    cases multicast <;> simp_all
  have hagree : (e.2.multicast != multicast ||
      (multicast && (e.2.mask != (descOf s f g).mask || e.2.receivers != (descOf s f g).receivers))) = false := by
    cases multicast <;> simp_all
  simp only [heldLeader] at hsl
  simp only [supplyCopy, show (s.gang g).copyCount + 1 = nextCommand s g from rfl, hu, hnofifth, hagree, hsl, Option.isNone_some, Bool.and_false,
    Bool.false_and, Bool.false_eq_true, if_false, Bool.or_self]
  rfl

section
variable {takes : Bool} {base : Copy} {key : Nat × State}

theorem supplied_copy : tabGet (supplied op f multicast s g sl takes base key).copies key.1 = some (withSlice f op multicast s g sl base) := by
  unfold supplied
  split <;> split <;> exact tabGet_put_same ..

theorem supplied_copyCount : ((supplied op f multicast s g sl takes base key).gang g).copyCount = nextCommand s g := by
  have hcount : ∀ s' : State, ((s'.modGang g (fun x => { x with copyCount := nextCommand s g })).gang g).copyCount = nextCommand s g :=
    fun s' => by rw [State.gang_modGang, if_pos rfl]
  unfold supplied
  split <;> split <;> exact hcount _

theorem supplied_thread (t : Nat) :
    (supplied op f multicast s g sl takes base key).thread t = (perform op f (s.heldAt g s.pc) (fun _ _ => {}) key.2).thread t := by
  unfold supplied
  split <;> split <;> simp only [State.thread_modUnit, State.thread_modGang, State.thread_setCopy]

theorem supplied_mem : (supplied op f multicast s g sl takes base key).mem = key.2.mem := by
  rw [← perform_mem op f (s.heldAt g s.pc) (fun _ _ => {}) key.2]
  unfold supplied
  split <;> split <;> simp only [State.modUnit_mem, State.modGang_mem, State.setCopy_mem]
end

/-- The slice list of a command with a slice entered: an empty slice adds none (R336). -/
theorem withSlice_slices (c : Copy) : (withSlice f op multicast s g sl c).slices = c.slices ++ (if sl.bytes = 0 then [] else [sl]) := by
  simp only [withSlice, Copy.supply]
  split <;> simp

/-! The gang. -/

section
variable {T : Tab Thread} {t : Nat} (hin : ((s.withThreads T).thread t).inTrap = (s.thread t).inTrap)
include hin

/-- Of its threads, a record is read by the handler's mark alone (R406). -/
theorem recOf_withThreads (o : Opnd) : recOf (s.withThreads T) t o = recOf s t o := by
  cases o with
  | k n =>
    simp only [recOf, State.record, hin]
    rfl
  | _ => rfl

theorem opndLabel_withThreads (x : Slot) (o : Opnd) : opndLabel (s.withThreads T) t x o = opndLabel s t x o := by
  cases o with
  | k n =>
    simp only [opndLabel, hin]
    rfl
  | _ => rfl

theorem descLabel_withThreads (n : Nat) : descLabel (s.withThreads T) op f t n = descLabel s op f t n := by
  simp only [descLabel, labelOf, opndLabel_withThreads hin]
  rfl

theorem memSide_withThreads (o : Opnd) (q n : Nat) : memSide (s.withThreads T) t o q n = memSide s t o q n := by
  simp only [memSide, recOf_withThreads hin]

/-- What a slice is read from: of the threads, no more than the handler's mark. -/
theorem sliceOf_withThreads : sliceOf (s.withThreads T) op f t multicast = sliceOf s op f t multicast := by
  simp only [sliceOf, memSide_withThreads hin, descLabel_withThreads hin]
  rfl
end

theorem sliceOf_arrived (t : Nat) : sliceOf (arrived s) op f t multicast = sliceOf s op f t multicast := by
  have hin := arrived_inTrap s t
  rw [arrived_eq] at hin ⊢
  exact sliceOf_withThreads hin
theorem unitCommand_arrived (u n : Nat) : unitCommand (arrived s) u n = unitCommand s u n := by rw [arrived_eq]; rfl
theorem nextCommand_arrived : nextCommand (arrived s) g = nextCommand s g := by rw [arrived_eq]; rfl
theorem copyFits_arrived (h : CopyFits s f multicast g) : CopyFits (arrived s) f multicast g := by rw [arrived_eq]; exact h

section
variable (h : GangArrives s op f [] g) (hh : holdOf op f = some .held)
include h hh

theorem heldLeader_arrived : heldLeader (arrived s) g = leaderOf s := by
  obtain ⟨t, l, hgroup⟩ := List.exists_cons_of_ne_nil h.nonempty
  rw [heldLeader, arrived_pc, heldAt_arrived h hh, leaderOf, hgroup]
  rfl

theorem runCopy_of_gangArrives : runCopy op f multicast s = supplyCopy op f multicast (arrived s) g := by
  rw [runCopy, arrive_of_gangArrives h, gangsOf_of_gangArrives h, List.foldl_cons, List.foldl_nil, if_pos (holdIssues_arrived h hh)]

section
variable {takes : Bool} {base : Copy} {key : Nat × State} (ht : key.2.threads = (arrived s).threads) (hi : key.2.issue = (arrived s).issue)
include ht hi

/-- Every thread of the gang goes on, whatever number the state has given for the command. -/
theorem supplied_moves {t : Nat} (hm : t ∈ s.group) :
    ((supplied op f multicast (arrived s) g sl takes base key).thread t).pc = nextPc s.pc ∧
      Kept (s.thread t) ((supplied op f multicast (arrived s) g sl takes base key).thread t) [] [] := by
  have hthread : ∀ u, key.2.thread u = (arrived s).thread u := State.threads_thread ht
  have hguard : ∀ u ∈ s.group, guardTrue key.2 u f = true := fun u hu => by
    rw [guardTrue, hthread u, ← guardTrue, arrived_guard]
    exact (h.issues u hu).1.1.guard
  have hmoved := perform_moved op f h.nodup hguard hm
  rw [hthread t, show key.2.pc = s.pc from congrArg Issue.pc (hi.trans (arrived_issue s))] at hmoved
  rw [supplied_thread, arrived_pc, heldAt_arrived h hh]
  have hkept := hmoved.of_body_left (arrived_body s t)
  exact ⟨hkept.pc, hkept.kept⟩

/-- What a supplied slice leaves besides the command. -/
theorem supplied_leaves (hm : key.2.mem = s.mem) {s' : State} (hs : s' = supplied op f multicast (arrived s) g sl takes base key) :
    (s'.gang g).copyCount = (s.gang g).copyCount + 1 ∧
      (∀ t ∈ s.group, (s'.thread t).pc = nextPc s.pc ∧ Kept (s.thread t) (s'.thread t) [] []) ∧ ∀ a, s'.mem.get a = s.mem.get a := by
  subst hs
  exact ⟨supplied_copyCount.trans nextCommand_arrived, fun t hg => supplied_moves h hh ht hi hg, fun a => by rw [supplied_mem, hm]⟩
end
end

/-- A gang-uniform copy form runs as a copy of its own opcode, and the builder holds it. -/
theorem exec_copyForms : ∀ x ∈ copyForms, ∀ f s, exec (x.1 f) s = .next (runCopy x.2.1 f x.2.2 s) ∧ holdOf x.2.1 f = some .held := by
  intro x hx f s
  simp only [copyForms, List.mem_cons, List.not_mem_nil, or_false] at hx
  rcases hx with rfl | rfl <;> exact ⟨rfl, rfl⟩

/-- A new command belongs to the gang's unit, under its next number. -/
theorem freshCommand_unit (h : gangOf (heldLeader s g) = g) : (freshCommand f multicast s g).unit = some (unitOf g, nextCommand s g) := by
  have hunit : unitOfThread (heldLeader s g) = unitOf g := by
    simp only [unitOfThread, unitOf, gangOf] at h ⊢
    omega
  show some (unitOfThread (heldLeader s g), nextCommand s g) = _
  rw [hunit]

theorem copiesSupplyTheirSlice : Rule.CopiesSupplyTheirSlice := by
  intro x hx f s g sl h hfit hsl
  obtain ⟨hex, hh⟩ := exec_copyForms x hx f s
  rw [runCopy_of_gangArrives h hh] at hex
  have hlead := heldLeader_arrived h hh
  have hslice : sliceOf (arrived s) x.2.1 f (heldLeader (arrived s) g) x.2.2 = .ok sl := by rw [hlead, sliceOf_arrived, hsl]
  have hmem : (arrived s).mem = s.mem := by rw [arrived_eq]; rfl
  have hcount : nextCommand (arrived s) g = (s.gang g).copyCount + 1 := nextCommand_arrived
  cases hu : unitCommand s (unitOf g) ((s.gang g).copyCount + 1) with
  | none =>
    rw [supplyCopy_of_none (copyFits_arrived hfit) hslice (by rw [unitCommand_arrived, hcount, hu])] at hex
    have hunit := freshCommand_unit (f := f) (multicast := x.2.2) (hlead ▸ h.gangOf_leaderOf)
    rw [hcount] at hunit
    exact ⟨_, _, _, hex, supplied_copy, ⟨hunit, rfl, rfl, withSlice_slices _⟩,
      supplied_leaves (key := (arrived s).takeId) h hh rfl rfl hmem rfl⟩
  | some e =>
    rw [supplyCopy_of_some (copyFits_arrived hfit) hslice (by rw [unitCommand_arrived, hcount, hu])] at hex
    exact ⟨_, _, _, hex, supplied_copy, ⟨rfl, rfl, rfl, rfl, withSlice_slices _⟩,
      supplied_leaves (key := (e.1, arrived s)) h hh rfl rfl hmem rfl⟩

/-! Starts and engines. -/

theorem copyCommandsStartAndAreAccepted : Rule.CopyCommandsStartAndAreAccepted := by
  refine fun s => ⟨fun id c h => ?_, fun e x h => ?_, fun e x h => ?_⟩
  · refine ⟨startCommand s id c, _, ?_, tabGet_put_same .., rfl, rfl⟩
    show execUnitCommandStart s = _
    rw [execUnitCommandStart, h]
  · refine ⟨giveEngine s x e, _, ?_, tabGet_put_same .., rfl, rfl, rfl⟩
    show execCopyEngineAccept s = _
    rw [execCopyEngineAccept, h]
  · refine ⟨giveEngine s x e, _, ?_, tabGet_put_same .., rfl, rfl⟩
    show execCopyResume s = _
    rw [execCopyResume, h]

/-- Settles O26: a gang that arrives whole is held and issues at once, so that its slice is entered once, and each thread goes on. -/
theorem copyCommands : Obligations.CopyCommands := ⟨copiesSupplyTheirSlice, copyCommandsStartAndAreAccepted⟩

end Sys2Proof.Machine
end

section
/-! SUPPORT. RECONFIGURE: what its check reads, when the command completes, what an applied entry leaves alone, and what the end of a job leaves of
the boot and of the messages (R60 to R64). -/

namespace Sys2Proof.Machine

variable {s t : State} {m : Message} {r : Reconf} {e : List Byte} {rest : List (List Byte)}

/-! The check of a list. -/

/-- Two plans differ in the order and the repetition of their jobs alone, which no reason of a refusal depends on. -/
structure Plan.Same (y z : Plan) : Prop where
  parts : y.parts = z.parts
  engines : y.engines = z.engines
  jobs : ∀ j, j ∈ y.jobs ↔ j ∈ z.jobs

theorem Plan.Same.any_jobs {y z : Plan} (h : y.Same z) (f : Nat × List Nat → Bool) : y.jobs.any f = z.jobs.any f := by
  rw [Bool.eq_iff_iff, List.any_eq_true, List.any_eq_true]
  simp only [h.jobs]

theorem Plan.Same.after {y z : Plan} (h : y.Same z) (e : List Byte) : (y.after e).Same (z.after e) := by
  obtain ⟨hparts, hengines, hjobs⟩ := h
  unfold Plan.after
  split
  · exact ⟨by rw [hparts], hengines, hjobs⟩
  · exact ⟨by rw [hparts], by rw [hengines], fun j => by simp only [List.mem_filter, hjobs]⟩
  · exact ⟨hparts, by rw [hengines], hjobs⟩
  · exact ⟨hparts, hengines, fun j => by simp only [List.mem_map, hjobs]⟩
  · exact ⟨hparts, hengines, hjobs⟩

theorem recReason_congr (he : ∀ n, (t.endpoint n).enabled = (s.endpoint n).enabled) {y z : Plan} (h : y.Same z) (e : List Byte) :
    recReason t y e = recReason s z e := by
  simp only [recReason, h.parts, h.any_jobs, he]

theorem checkList_congr (he : ∀ n, (t.endpoint n).enabled = (s.endpoint n).enabled) (l : List (List Byte)) (i : Nat) {y z : Plan} (h : y.Same z) :
    checkList t i y l = checkList s i z l := by
  induction l generalizing i y z with
  | nil => simp only [checkList, h.parts, h.engines]
  | cons e l ih => simp only [checkList, recReason_congr he h e, ih (i + 1) (h.after e)]

/-- The open and saved jobs of one endpoint, as the check counts them. -/
def heldOf (ep : Nat) (e : Endpoint) : List (Nat × List Nat) := (e.jobs.filter (fun j => j.2.isOpen || j.2.saved)).map (fun j => (ep, j.2.parts))

theorem mem_jobsHeld (s : State) (j : Nat × List Nat) : j ∈ jobsHeld s ↔ s.endpoints.any (fun e => decide (j ∈ heldOf e.1 e.2)) = true := by
  simp only [jobsHeld, List.mem_flatMap, List.any_eq_true, decide_eq_true_iff]
  rfl

/-- Accepting a command changes no job. -/
theorem planOf_acceptedState (s : State) (m : Message) : (planOf (acceptedState s m)).Same (planOf s) := by
  refine ⟨rfl, rfl, fun j => ?_⟩
  have hput : (acceptedState s m).endpoints = tabPut s.endpoints m.ep (acceptedEndpoint s m) := rfl
  have hjobs : (acceptedEndpoint s m).jobs = (s.endpoint m.ep).jobs := rfl
  show j ∈ jobsHeld _ ↔ j ∈ jobsHeld _
  rw [mem_jobsHeld, mem_jobsHeld, hput, tabPut_any]
  dsimp only
  rw [heldOf, hjobs, State.endpoint, tabGetD]
  cases tabGet s.endpoints m.ep <;> rfl

@[simp] theorem acceptedState_enabled (n : Nat) : ((acceptedState s m).endpoint n).enabled = (s.endpoint n).enabled := by
  simp only [acceptedState, State.endpoint_setOutbox, State.endpoint_setEndpoint]
  split <;> simp_all [acceptedEndpoint]

theorem checkList_acceptedState (l : List (List Byte)) :
    checkList (acceptedState s m) 0 (planOf (acceptedState s m)) l = checkList s 0 (planOf s) l :=
  checkList_congr acceptedState_enabled l 0 (planOf_acceptedState s m)

/-! The command. -/

/-- What follows an action: its completion where it answers, or nothing yet. -/
def afterAction (m : Message) : Option Reply × State → State
  | (some r, s') => complete s' m.ep m.hseq m.tag r
  | (none, s') => s'

/-- A command in order whose action may leave its completion to later events. -/
theorem runSequenced_of_inOrder {c : Command} (h : InOrder s c m) (act : Action) :
    runSequenced act m (noteSender s m) = afterAction m (act m (acceptedState s m)) := by
  obtain ⟨h0, hn⟩ := h.number
  have hl : ((noteSender s m).endpoint m.ep).lastAccepted = (s.endpoint m.ep).lastAccepted := by rw [noteSender_endpoint]
  rw [runSequenced, if_neg h0, hl, if_pos hn, headerRefusal_noteSender, h.header]
  dsimp only
  rw [acknowledge_noteAccepted h.mayTalk]
  rfl

/-- The state in which an accepted list begins to apply. -/
def reconfStarted (s : State) (m : Message) : State :=
  ((acceptedState s m).setBoot { s.boot with
    reconf := some { hseq := m.hseq, tag := m.tag, entries := recEntries m, named := distinct ((recEntries m).map recPart) } }).modEndpoint mgmtEp
    (fun e => { e with running := e.running ++ [{ hseq := m.hseq, tag := m.tag, sender := m.sender }] })

theorem exec_reconfigure (h : InOrder s .reconfigure m) (h0 : fieldAt m.payload 0 2 ≠ 0) (h64 : fieldAt m.payload 0 2 ≤ 64)
    (hz : zeroBytes m.payload 2 8 = true) : exec (.reconfigure m) s = .next (match checkList s 0 (planOf s) (recEntries m) with
      | some (i, k) => complete (acceptedState s m) m.ep m.hseq m.tag { status := stBadEntry, index := i, detail := k }
      | none => reconfStarted s m) := by
  show execReconfigure m s = _
  rw [execReconfigure, hostCommand, if_pos h.command, receive_of_heard h.toHeard, runSequenced_of_inOrder h]
  have hcount : (fieldAt m.payload 0 2 = 0 || 64 < fieldAt m.payload 0 2 : Bool) = false := by simp [h0]; omega
  simp only [actReconfigure, hcount, hz, Bool.not_true, Bool.false_eq_true, if_false, checkList_acceptedState]
  cases checkList s 0 (planOf s) (recEntries m) <;> rfl

theorem reconfigureIsRefusedOrAccepted (h : InOrder s .reconfigure m) (h0 : fieldAt m.payload 0 2 ≠ 0) (h64 : fieldAt m.payload 0 2 ≤ 64)
    (hz : zeroBytes m.payload 2 8 = true) : ∃ s', exec (.reconfigure m) s = .next s' ∧ s'.parts = s.parts ∧ s'.mem = s.mem ∧
      (∀ i k, checkList s 0 (planOf s) (recEntries m) = some (i, k) →
        Completed s s' m { status := stBadEntry, index := i, detail := k } ∧ s'.boot = s.boot) ∧
      (checkList s 0 (planOf s) (recEntries m) = none → s'.outbox = s.outbox ++ [ackOf s m stAccepted] ∧
        ∃ r, s'.boot.reconf = some r ∧ r.hseq = m.hseq ∧ r.entries = recEntries m) := by
  refine ⟨_, exec_reconfigure h h0 h64 hz, ?_⟩
  cases hc : checkList s 0 (planOf s) (recEntries m) with
  | none => exact ⟨rfl, rfl, fun i k hik => by simp at hik, fun _ => ⟨rfl, _, rfl, rfl, rfl⟩⟩
  | some x =>
    refine ⟨by simp, by simp, fun i k hik => ?_, fun hn => by simp at hn⟩
    obtain rfl := Option.some.inj hik
    exact ⟨completed_of_mail h _ rfl, by simp⟩

/-! The end of the command, and the end of an entry. -/

/-- The state in which a RECONFIGURE completes: its list is gone, and the management endpoint runs it no longer. -/
def reconfEnded (s : State) (r : Reconf) : State :=
  (s.setBoot { s.boot with reconf := none }).modEndpoint mgmtEp (fun e => { e with running := e.running.filter (fun x => x.hseq != r.hseq) })

theorem finishReconf_of_done (hr : s.boot.reconf = some r) (he : r.entries = []) (hc : s.boot.clearing = []) :
    finishReconf s = complete (reconfEnded s r) mgmtEp r.hseq r.tag Reply.ok := by
  rw [finishReconf, hr]
  dsimp only
  rw [if_pos (by simp [he, hc])]
  rfl

theorem finishReconf_of_left (hr : s.boot.reconf = some r) (h : r.entries ≠ [] ∨ s.boot.clearing ≠ []) : finishReconf s = s := by
  have hleft : (r.entries.isEmpty && s.boot.clearing.isEmpty) = false := by
    rcases h with h | h <;> simp [h]
  simp only [finishReconf, hr, hleft, Bool.false_eq_true, if_false]

/-- What neither the list, nor the running commands of an endpoint, nor a completion changes is left by the end of the command. -/
theorem finishReconf_keeps {α : Type} (v : State → α) (hcomplete : ∀ s ep h n a, v (complete s ep h n a) = v s)
    (hended : ∀ s r, v (reconfEnded s r) = v s) (s : State) : v (finishReconf s) = v s := by
  unfold finishReconf
  split
  · split
    · exact (hcomplete ..).trans (hended s _)
    · rfl
  · rfl

/-- The list without its head entry. -/
def headApplied (s : State) (r : Reconf) (rest : List (List Byte)) : State := s.setBoot { s.boot with reconf := some { r with entries := rest } }

theorem entryApplied_eq (hr : s.boot.reconf = some r) (he : r.entries = e :: rest) : entryApplied s = finishReconf (headApplied s r rest) := by
  simp only [entryApplied, hr, he, List.drop_one, List.tail_cons]
  rfl

theorem entryApplied_keeps {α : Type} (v : State → α) (hcomplete : ∀ s ep h n a, v (complete s ep h n a) = v s)
    (hended : ∀ s r, v (reconfEnded s r) = v s) (hhead : ∀ s r l, v (headApplied s r l) = v s) (s : State) : v (entryApplied s) = v s := by
  unfold entryApplied
  split
  · exact (finishReconf_keeps v hcomplete hended _).trans (hhead s _ _)
  · rfl

@[simp] theorem complete_engines (s : State) (ep hseq tag : Nat) (a : Reply) : (complete s ep hseq tag a).engines = s.engines := by
  simp only [complete, sendNumbered]
  split <;> rfl

@[simp] theorem complete_bound (s : State) (ep hseq tag n : Nat) (a : Reply) :
    ((complete s ep hseq tag a).endpoint n).bound = (s.endpoint n).bound := by
  simp only [complete, sendNumbered]
  split
  · simp only [State.endpoint_setOutbox, State.endpoint_setEndpoint]
    split <;> simp_all
  · rfl

theorem reconfEnded_bound (s : State) (r : Reconf) (n : Nat) : ((reconfEnded s r).endpoint n).bound = (s.endpoint n).bound := by
  simp only [reconfEnded, State.modEndpoint_eq, State.endpoint_setEndpoint, State.endpoint_setBoot]
  split <;> simp_all

@[simp] theorem entryApplied_parts (s : State) : (entryApplied s).parts = s.parts :=
  entryApplied_keeps State.parts complete_parts (fun _ _ => rfl) (fun _ _ _ => rfl) s

@[simp] theorem entryApplied_engines (s : State) : (entryApplied s).engines = s.engines :=
  entryApplied_keeps State.engines complete_engines (fun _ _ => rfl) (fun _ _ _ => rfl) s

@[simp] theorem entryApplied_bound (s : State) (n : Nat) : ((entryApplied s).endpoint n).bound = (s.endpoint n).bound :=
  entryApplied_keeps (fun s => (State.endpoint s n).bound) (fun _ _ _ _ _ => complete_bound ..) (fun _ _ => reconfEnded_bound ..) (fun _ _ _ => rfl) s

@[simp] theorem finishReconf_clearing (s : State) : (finishReconf s).boot.clearing = s.boot.clearing :=
  finishReconf_keeps (fun s => (State.boot s).clearing) (fun _ _ _ _ _ => by rw [complete_boot]) (fun _ _ => rfl) s

@[simp] theorem entryApplied_clearing (s : State) : (entryApplied s).boot.clearing = s.boot.clearing :=
  entryApplied_keeps (fun s => (State.boot s).clearing) (fun _ _ _ _ _ => by rw [complete_boot]) (fun _ _ => rfl) (fun _ _ _ => rfl) s

/-- An entry that has applied leaves the rest of the list, or the command is over. -/
theorem entryApplied_reconf (hr : s.boot.reconf = some r) (he : r.entries = e :: rest) : (entryApplied s).boot.reconf =
    if rest = [] ∧ s.boot.clearing = [] then none else some { r with entries := rest } := by
  rw [entryApplied_eq hr he]
  split
  case isTrue h =>
    rw [finishReconf_of_done (s := headApplied s r rest) rfl h.1 h.2, complete_boot]
    rfl
  case isFalse h =>
    rw [finishReconf_of_left (s := headApplied s r rest) rfl (Classical.not_and_iff_not_or_not.1 h)]
    rfl

/-- The completion that a RECONFIGURE sends (R40). -/
theorem complete_reconfEnded_sends (s : State) (r : Reconf) :
    ∃ o, (complete (reconfEnded s r) mgmtEp r.hseq r.tag Reply.ok).outbox = s.outbox ++ [o] ∧
    o.kind = 2 ∧ o.ep = 64 ∧ o.hseq = r.hseq ∧ o.tag = r.tag ∧ o.status = stOk :=
  ⟨_, sendNumbered_outbox rfl _, rfl, rfl, rfl, rfl, rfl⟩

/-- What the event of an entry comes to: it waits, it works on, the entry has applied, or the command has completed. -/
def EntryProgress (s s' : State) (r : Reconf) (rest : List (List Byte)) : Prop :=
  s' = s ∨ s'.boot.reconf = s.boot.reconf ∨ s'.boot.reconf = some { r with entries := rest } ∧ (rest ≠ [] ∨ s'.boot.clearing ≠ []) ∨
    s'.boot.reconf = none ∧ rest = [] ∧ s'.boot.clearing = [] ∧ ∃ o, s'.outbox = s.outbox ++ [o] ∧ o.kind = 2 ∧ o.ep = 64 ∧
      o.hseq = r.hseq ∧ o.tag = r.tag ∧ o.status = stOk

theorem entryApplied_progress (hr : t.boot.reconf = some r) (he : r.entries = e :: rest) (ho : t.outbox = s.outbox) :
    EntryProgress s (entryApplied t) r rest := by
  have hreconf := entryApplied_reconf hr he
  rw [← entryApplied_clearing] at hreconf
  split at hreconf
  case isTrue h =>
    obtain ⟨hrest, hclear⟩ := h
    refine .inr (.inr (.inr ⟨hreconf, hrest, hclear, ?_⟩))
    rw [entryApplied_clearing] at hclear
    rw [entryApplied_eq hr he, finishReconf_of_done (s := headApplied t r rest) rfl hrest hclear, ← ho]
    exact complete_reconfEnded_sends (headApplied t r rest) { r with entries := rest }
  case isFalse h => exact .inr (.inr (.inl ⟨hreconf, Classical.not_and_iff_not_or_not.1 h⟩))

/-! The end of a job of a destroyed partition. -/

@[simp] theorem pathTo_boot (p va level n table : Nat) (s : State) : (pathTo p va level n table s).2.boot = s.boot := by
  induction n generalizing table s with
  | zero => rfl
  | succ n ih =>
    simp only [pathTo]
    split
    · rfl
    · split
      · exact ih _ _
      · rw [ih]; rfl

@[simp] theorem setEntry_boot (s : State) (p level va e : Nat) : (setEntry s p level va e).boot = s.boot := by
  unfold setEntry
  split <;> rfl

@[simp] theorem unmapRange_boot (s : State) (p va n : Nat) : (unmapRange s p va n).boot = s.boot :=
  foldl_keeps _ State.boot _ s fun _ _ _ => setEntry_boot ..

/-- What the device says of itself and to the host: its boot and its messages. -/
def State.bootMail (s : State) : Boot × List Out := (s.boot, s.outbox)

theorem freeWindow_bootMail (s : State) (p base : Nat) : (freeWindow s p base).bootMail = s.bootMail := by
  unfold freeWindow
  split
  · exact Prod.ext (unmapRange_boot s p _ _) (Prod.mk.inj (unmapRange_mail s p _ _)).2
  · rfl

theorem recountLevel_bootMail (s : State) (n : Nat) : (recountLevel s n).bootMail = s.bootMail := by
  unfold recountLevel
  split <;> rfl

theorem cancelAt_bootMail (s : State) (k : Nat) : (cancelAt s k).bootMail = s.bootMail := by
  rw [cancelAt_eq]
  calc State.bootMail (List.foldl recountLevel (markLevels (stopWork s k) (cancelSet s k)) (cancelSet s k))
      = (markLevels (stopWork s k) (cancelSet s k)).bootMail := foldl_keeps recountLevel State.bootMail _ _ fun _ _ _ => recountLevel_bootMail ..
    _ = (stopWork s k).bootMail := foldl_keeps _ State.bootMail _ _ fun _ _ _ => rfl
    _ = s.bootMail := rfl

theorem freeAreas_bootMail (s : State) (ls : List Nat) : (freeAreas s ls).bootMail = s.bootMail :=
  foldl_keeps _ State.bootMail _ s fun _ _ _ => freeWindow_bootMail ..

theorem modEndpoint_bootMail (s : State) (ep : Nat) (g : Endpoint → Endpoint) : (s.modEndpoint ep g).bootMail = s.bootMail := rfl
theorem dropEntries_bootMail (s : State) (ls : List Nat) : (dropEntries s ls).bootMail = s.bootMail := rfl

theorem discardJob_bootMail (s : State) (ep j : Nat) (x : Job) : (discardJob s ep j x).bootMail = s.bootMail := by
  rw [discardJob, modEndpoint_bootMail, dropEntries_bootMail, foldl_keeps _ State.bootMail, foldl_keeps _ State.bootMail,
    freeAreas_bootMail, cancelAt_bootMail]
  · exact fun _ _ _ => rfl
  · exact fun _ _ _ => rfl

theorem endJob_bootMail (s : State) (x : Nat × Nat × Job) : (endJob s x).bootMail = s.bootMail := by
  unfold endJob
  split
  · exact discardJob_bootMail ..
  · exact cancelAt_bootMail ..

theorem discardJob_job (s : State) (ep j : Nat) (x : Job) : tabGet ((discardJob s ep j x).endpoint ep).jobs j = none := by
  simp [discardJob, State.modEndpoint_eq]

/-- A job that is not saved and stands in the way of a DESTROY has not completed. -/
theorem status_of_jobStands {x : Job} {l : Level} (h : jobStands s x = true) (hs : x.saved = false) (hl : s.levelAt x.level = some l) :
    (s.levelAt x.level).map Level.status = some none := by
  simp only [jobStands, hs, hl, Bool.false_or, Option.map_some, Option.getD_some, Bool.and_eq_true, Option.isNone_iff_eq_none] at h ⊢
  rw [h.1.1]

/-! The entries. -/

/-- Engines given to a partition are its own, and the others keep their owner. -/
theorem tabGet_giveEngines (l : Tab Nat) (p mask : Nat) {i : Nat} (hi : i < 24) :
    tabGet (giveEngines l p mask) i = if mask.testBit i then some p else tabGet l i := by
  have hfold : ∀ (es : List Nat) (l : Tab Nat), tabGet (es.foldl (fun l i => tabPut l i p) l) i = if i ∈ es then some p else tabGet l i := by
    intro es
    induction es with
    | nil => exact fun _ => rfl
    | cons k es ih =>
      intro l
      rw [List.foldl_cons, ih, tabGet_put]
      by_cases hk : i = k <;> by_cases hm : i ∈ es <;> simp [hk, hm]
  simp [giveEngines, hfold, enginesIn, hi]

section
variable (hr : s.boot.reconf = some r) (he : r.entries = e :: rest)
include hr he

theorem nextRec_of_head {k : Nat} (hk : recKind e = k) : nextRec s k = some e := by
  simp only [nextRec, hr, he, if_pos hk]

theorem exec_createPart (hk : recKind e = 1) : exec .createPart s =
    if runClear s (fieldAt e 4 1) (fieldAt e 5 1) then
      .next (entryApplied (s.setPart (recPart e) { first := fieldAt e 4 1, size := fieldAt e 5 1 }))
    else .next s := by
  show execCreatePart s = _
  rw [execCreatePart, nextRec_of_head hr he hk]

theorem exec_destroyPart_of_job (hk : recKind e = 2) {x : Nat × Nat × Job} {l : List (Nat × Nat × Job)}
    (h : (jobsOfPart s (recPart e)).filter (fun x => jobStands s x.2.2) = x :: l) : exec .destroyPart s = .next ((x :: l).foldl endJob s) := by
  show execDestroyPart s = _
  simp only [execDestroyPart, nextRec_of_head hr he hk, h]

theorem exec_destroyPart_of_none (hk : recKind e = 2) (h : (jobsOfPart s (recPart e)).filter (fun x => jobStands s x.2.2) = []) :
    exec .destroyPart s = if partStill s (recPart e) then .next (entryApplied (removePart s (recPart e))) else .next s := by
  show execDestroyPart s = _
  simp only [execDestroyPart, nextRec_of_head hr he hk, h]

theorem exec_assignCopy (hk : recKind e = 3) :
    exec .assignCopy s = .next (entryApplied (moveEngines s (recPart e) (fieldAt e 4 4))) := by
  show execAssignCopy s = _
  rw [execAssignCopy, nextRec_of_head hr he hk]

theorem exec_bindEndpoint (hk : recKind e = 4) :
    exec .bindEndpoint s = .next (entryApplied (s.modEndpoint (fieldAt e 4 1) (fun x => x.bind (recPart e)))) := by
  show execBindEndpoint s = _
  rw [execBindEndpoint, nextRec_of_head hr he hk]

theorem createPart_progress (hk : recKind e = 1) : ∃ s', exec .createPart s = .next s' ∧ EntryProgress s s' r rest := by
  rw [exec_createPart hr he hk]
  split
  · exact ⟨_, rfl, entryApplied_progress (t := s.setPart ..) hr he rfl⟩
  · exact ⟨s, rfl, .inl rfl⟩

theorem destroyPart_progress (hk : recKind e = 2) : ∃ s', exec .destroyPart s = .next s' ∧ EntryProgress s s' r rest := by
  cases h : (jobsOfPart s (recPart e)).filter (fun x => jobStands s x.2.2) with
  | cons x l =>
    refine ⟨_, exec_destroyPart_of_job hr he hk h, .inr (.inl ?_)⟩
    have hmail := foldl_keeps endJob State.bootMail (x :: l) s fun s x _ => endJob_bootMail s x
    exact congrArg Boot.reconf (Prod.mk.inj hmail).1
  | nil =>
    rw [exec_destroyPart_of_none hr he hk h]
    split
    · exact ⟨_, rfl, entryApplied_progress (t := removePart s (recPart e)) hr he rfl⟩
    · exact ⟨s, rfl, .inl rfl⟩

theorem assignCopy_progress (hk : recKind e = 3) : ∃ s', exec .assignCopy s = .next s' ∧ EntryProgress s s' r rest :=
  ⟨_, exec_assignCopy hr he hk, entryApplied_progress (t := moveEngines ..) hr he rfl⟩

theorem bindEndpoint_progress (hk : recKind e = 4) : ∃ s', exec .bindEndpoint s = .next s' ∧ EntryProgress s s' r rest :=
  ⟨_, exec_bindEndpoint hr he hk, entryApplied_progress (t := s.modEndpoint ..) hr he rfl⟩

theorem entry_progress (i : Nat × Instr)
    (hi : i ∈ ([(1, .createPart), (2, .destroyPart), (3, .assignCopy), (4, .bindEndpoint)] : List (Nat × Instr)))
    (hk : recKind e = i.1) : ∃ s', exec i.2 s = .next s' ∧ EntryProgress s s' r rest := by
  simp only [List.mem_cons, List.not_mem_nil, or_false] at hi
  rcases hi with rfl | rfl | rfl | rfl
  · exact createPart_progress hr he hk
  · exact destroyPart_progress hr he hk
  · exact assignCopy_progress hr he hk
  · exact bindEndpoint_progress hr he hk

theorem partIsCreated (hk : recKind e = 1) (hc : ∀ k ∈ s.boot.clearing, k < fieldAt e 4 1 ∨ fieldAt e 4 1 + fieldAt e 5 1 ≤ k) :
    ∃ s', exec .createPart s = .next s' ∧ tabGet s'.parts (recPart e) = some { first := fieldAt e 4 1, size := fieldAt e 5 1 } ∧
      s'.boot.reconf = (if rest = [] ∧ s.boot.clearing = [] then none else some { r with entries := rest }) := by
  have hclear : runClear s (fieldAt e 4 1) (fieldAt e 5 1) = true :=
    List.all_eq_true.2 fun k hk => by simpa using hc k hk
  refine ⟨_, (exec_createPart hr he hk).trans (if_pos hclear), ?_, entryApplied_reconf (s := s.setPart ..) hr he⟩
  rw [entryApplied_parts, State.setPart_parts, tabGet_put_same]

theorem createPart_waits (hk : recKind e = 1) (hc : ∃ k ∈ s.boot.clearing, fieldAt e 4 1 ≤ k ∧ k < fieldAt e 4 1 + fieldAt e 5 1) :
    exec .createPart s = .next s := by
  obtain ⟨k, hmem, hfirst, hlast⟩ := hc
  refine (exec_createPart hr he hk).trans (if_neg fun hclear => ?_)
  have hk := List.all_eq_true.1 hclear k hmem
  simp at hk
  omega

theorem jobIsEnded (hk : recKind e = 2) {ep j : Nat} {x : Job} {l : Level}
    (h : (jobsOfPart s (recPart e)).filter (fun x => jobStands s x.2.2) = [(ep, j, x)]) (hl : s.levelAt x.level = some l) :
    ∃ s', exec .destroyPart s = .next s' ∧ s'.boot.reconf = s.boot.reconf ∧
      (x.saved = false → ∃ l', s'.levelAt x.level = some l' ∧ l'.fail = some stPartitionGone ∧ l'.closed = true) ∧
      (x.saved = true → tabGet (s'.endpoint ep).jobs j = none ∧ s'.outbox = s.outbox) := by
  obtain ⟨hboot, hout⟩ := Prod.mk.inj (endJob_bootMail s (ep, j, x))
  refine ⟨_, exec_destroyPart_of_job hr he hk h, congrArg Boot.reconf hboot, fun hs => ?_, fun hs => ⟨?_, hout⟩⟩
  · have hmem : (ep, j, x) ∈ (jobsOfPart s (recPart e)).filter (fun x => jobStands s x.2.2) := h ▸ List.mem_cons_self
    rw [List.foldl_cons, List.foldl_nil, endJob, if_neg (by simp [hs])]
    exact levelAt_cancelJobAs stPartitionGone (status_of_jobStands (List.mem_filter.1 hmem).2 hs hl)
  · rw [List.foldl_cons, List.foldl_nil, endJob, if_pos hs]
    exact discardJob_job ..

theorem partIsDestroyed (hk : recKind e = 2) (h : (jobsOfPart s (recPart e)).filter (fun x => jobStands s x.2.2) = [])
    (hstill : partStill s (recPart e) = true) : ∃ s', exec .destroyPart s = .next s' ∧ tabGet s'.parts (recPart e) = none ∧
      s'.boot.clearing = s.boot.clearing ++ (List.range (s.part (recPart e)).size).map (fun i => (s.part (recPart e)).first + i) ∧
      (∀ n, (s.endpoint n).bound = some (recPart e) → (s'.endpoint n).bound = none) ∧ ∀ x ∈ s'.engines, x.2 ≠ recPart e := by
  refine ⟨_, (exec_destroyPart_of_none hr he hk h).trans (if_pos hstill), ?_, entryApplied_clearing _, fun n hn => ?_, fun x hx => ?_⟩
  · rw [entryApplied_parts]
    exact (tabGet_del ..).trans (if_pos rfl)
  · rw [entryApplied_bound]
    simp only [State.endpoint, tabGetD, removePart, State.setBoot_endpoints, tabGet_tabMap] at hn ⊢
    cases hg : tabGet s.endpoints n with
    | none => rfl
    | some y => simp_all
  · rw [entryApplied_engines] at hx
    simpa using (List.mem_filter.1 hx).2

theorem enginesAreAssigned (hk : recKind e = 3) : ∃ s', exec .assignCopy s = .next s' ∧
    ∀ i, i < 24 → tabGet s'.engines i = if (fieldAt e 4 4).testBit i then some (recPart e) else tabGet s.engines i :=
  ⟨_, exec_assignCopy hr he hk, fun i hi => (congrArg (tabGet · i) (entryApplied_engines _)).trans (tabGet_giveEngines s.engines _ _ hi)⟩

theorem endpointIsBound (hk : recKind e = 4) : ∃ s', exec .bindEndpoint s = .next s' ∧ (s'.endpoint (fieldAt e 4 1)).bound = some (recPart e) := by
  refine ⟨_, exec_bindEndpoint hr he hk, ?_⟩
  rw [entryApplied_bound, State.modEndpoint_eq, State.endpoint_setEndpoint, if_pos rfl]
  rfl
end

/-! The stacks being cleared. -/

theorem foldl_clear_get (n : Nat) (ks : List Nat) (s : State) (a : Nat) :
    (ks.foldl (fun s k => s.setMem (s.mem.clear (k * n) n)) s).mem.get a =
      if ks.any (fun k => k * n ≤ a && a < (k + 1) * n) then 0 else s.mem.get a := by
  induction ks generalizing s with
  | nil => rfl
  | cons k ks ih =>
    rw [List.foldl_cons, ih, State.setMem_mem, Memory.get_clear, List.any_cons, Nat.succ_mul]
    cases ks.any (fun k => k * n ≤ a && a < (k + 1) * n) with
    | true => simp
    | false => simp

theorem clearStacks_reconf (s : State) : (clearStacks s).boot.reconf = s.boot.reconf := by
  show (List.foldl _ s _).boot.reconf = _
  exact foldl_keeps _ (fun s => (State.boot s).reconf) _ s fun _ _ _ => rfl

theorem stacksAreCleared (h : s.boot.clearing ≠ []) : ∃ s', exec .stackClear s = .next s' ∧ s'.boot.clearing = [] ∧
    (∀ r, s.boot.reconf = some r → r.entries = [] → s'.boot.reconf = none) ∧ ∀ a,
    s'.mem.get a = if s.boot.clearing.any (fun k => k * 2 ^ 36 ≤ a && a < (k + 1) * 2 ^ 36) then 0 else s.mem.get a := by
  refine ⟨finishReconf (clearStacks s), ?_, finishReconf_clearing _, fun r hr he => ?_, fun a => ?_⟩
  · show execStackClear s = _
    rw [execStackClear, if_neg (by simpa using h)]
  · rw [finishReconf_of_done ((clearStacks_reconf s).trans hr) he rfl, complete_boot]
    rfl
  · rw [finishReconf_mem]
    exact foldl_clear_get (2 ^ 36) _ s a

/-- Settles O46: the check reads no more than the accepted state keeps; an applied entry leaves what later entries do not name. -/
theorem reconfiguration : Obligations.Reconfiguration :=
  ⟨fun _ _ h h0 h64 hz => reconfigureIsRefusedOrAccepted h h0 h64 hz,
    fun _ _ _ _ hr he => ⟨entry_progress hr he, partIsCreated hr he, createPart_waits hr he, fun _ _ _ _ hk => jobIsEnded hr he hk,
      partIsDestroyed hr he, enginesAreAssigned hr he, endpointIsBound hr he⟩,
    fun _ h => stacksAreCleared h⟩

end Sys2Proof.Machine
end

section
/-! SUPPORT. Fusion changes, the accounts and the firmware's registers: what each leaves in the entry that it writes (R65, R70, R71, R76, R355,
R432, R439). -/

namespace Sys2Proof.Machine

variable {s : State}

/-! Fusion (R76). -/

theorem endFusion_cluster (s : State) (cl : Nat) :
    (endFusion s cl).cluster cl = { s.cluster cl with fused := !(s.cluster cl).fused, fusing := none } := by
  rw [endFusion, foldl_keeps _ (State.cluster · cl), State.modCluster_eq, State.cluster_setCluster, if_pos rfl]
  exact fun _ _ _ => rfl

/-- A core's L1 stays empty while L1s are emptied, and each core that is named is emptied. -/
theorem foldl_emptyL1 (g : Nat → Nat) (ls : List Nat) (s : State) (k : Nat) (h : k ∈ ls.map g ∨ (s.core k).l1 = []) :
    ((ls.foldl (fun s c => s.modCore (g c) (fun x => { x with l1 := [] })) s).core k).l1 = [] := by
  induction ls generalizing s with
  | nil => simpa using h
  | cons c ls ih =>
    refine ih _ ?_
    simp only [State.modCore_eq, State.core_setCore]
    by_cases hk : k = g c
    · simp [hk]
    · rw [if_neg hk]
      simpa [hk] using h

theorem endFusion_l1 (s : State) (cl : Nat) {c : Nat} (h : c < 4) : ((endFusion s cl).core (5 * cl + c)).l1 = [] :=
  foldl_emptyL1 (5 * cl + ·) (List.range 4) _ _ (.inl (List.mem_map.2 ⟨c, List.mem_range.2 h, rfl⟩))

theorem fusionChanges : Rule.FusionChanges := by
  refine ⟨fun s cl h => ⟨endFusion s cl, ?_, ?_, ?_, fun c hc => endFusion_l1 s cl hc, endFusion_mem s cl⟩, fun s cl h hw => ?_⟩
  · show execFusionChange s = _
    rw [execFusionChange, h]
  · rw [endFusion_cluster]
  · rw [endFusion_cluster]
  · refine ⟨s.modCluster cl (fun x => { x with fusing := some (s.time + 256 * 5) }), ?_, ?_, ?_, rfl⟩
    · show execFusionChange s = _
      rw [execFusionChange, h, hw]
    · rw [State.modCluster_eq, State.cluster_setCluster, if_pos rfl]
    · rw [State.modCluster_eq, State.cluster_setCluster, if_pos rfl]

/-! Accounts (R70, R71). -/

/-- A table whose values change by their keys. -/
theorem tabGet_map_keyed {α β : Type} (g : Nat → α → β) (t : Tab α) (i : Nat) :
    tabGet (t.map (fun e => (e.1, g e.1 e.2))) i = (tabGet t i).map (g i) := by
  induction t with
  | nil => rfl
  | cons e t ih =>
    obtain ⟨k, v⟩ := e
    rw [List.map_cons, tabGet, tabGet]
    split
    · subst i; rfl
    · exact ih

/-- What a refill makes of a partition's accounts and of its pool. -/
def Partition.refilled (x : Partition) (busy : Nat → Bool) : Partition :=
  { x with pool := (x.accounts.map (fun a => a.2.lent)).sum, accounts := x.accounts.map (fun a => (a.1, a.2.refilled (busy a.1))) }

theorem refillPart_part (s : State) (p : Nat) : (refillPart s p).part p = (s.part p).refilled (accountBusy s p) := by
  rw [refillPart, State.modPart_eq, State.part_setPart, if_pos rfl]
  rfl

theorem Partition.refilled_account {x : Partition} {a : Nat} {y : Account} (h : tabGet x.accounts a = some y) (busy : Nat → Bool) :
    tabGet (x.refilled busy).accounts a = some (y.refilled (busy a)) := by
  rw [refilled, tabGet_map_keyed (fun k z => Account.refilled z (busy k)), h]
  rfl

theorem Partition.refilled_pool (x : Partition) (busy : Nat → Bool) :
    (x.refilled busy).pool = (x.accounts.map (fun a => if a.2.lend && !a.2.busy then a.2.balance.toNat else 0)).sum := by
  simp only [refilled, Account.lent, Bool.and_comm]

theorem exec_budgetRefill {p : Nat} {x : Partition} (hp : s.parts = [(p, x)]) (ht : (s.refills + 1) * 1200000 ≤ s.time) :
    exec .budgetRefill s = .next (refillPart { s with refills := s.refills + 1 } p) := by
  show execBudgetRefill s = _
  rw [execBudgetRefill, periodTicks, if_pos ht, hp]
  rfl

theorem accountsRefilled {p : Nat} {x : Partition} (hp : s.parts = [(p, x)]) (ht : (s.refills + 1) * 1200000 ≤ s.time) :
    ∃ s', exec .budgetRefill s = .next s' ∧ s'.refills = s.refills + 1 ∧ s'.mem = s.mem ∧
      (s'.part p).pool = (x.accounts.map (fun a => if a.2.lend && !a.2.busy then a.2.balance.toNat else 0)).sum ∧
      ∀ a y, tabGet x.accounts a = some y → ∃ z, tabGet (s'.part p).accounts a = some z ∧ z.debt = y.debt - min y.debt (y.refill / 2) ∧
        z.balance = min y.balance 0 + (y.refill : Int) - (min y.debt (y.refill / 2) : Nat) := by
  have hx : ({ s with refills := s.refills + 1 } : State).part p = x := by simp [State.part, hp, tabGetD, tabGet]
  refine ⟨_, exec_budgetRefill hp ht, rfl, refillPart_mem .., ?_, fun a y hy => ?_⟩
  · rw [refillPart_part, hx, Partition.refilled_pool]
  · rw [refillPart_part, hx]
    exact ⟨_, Partition.refilled_account hy _, rfl, rfl⟩

theorem drawTokens_part (s : State) (p a : Nat) {y : Account} {n : Nat} (hy : y = tabGetD {} (s.part p).accounts a)
    (hn : n = min (y.refill / 8) (s.part p).pool) : ((drawTokens s p a).part p).pool = (s.part p).pool - n ∧
      tabGet ((drawTokens s p a).part p).accounts a = some { y with balance := y.balance + (n : Int), debt := y.debt + n, asked := none } := by
  subst hy hn
  simp [drawTokens, State.modPart_eq]

/-- The account that draws next asks earlier than any other that may draw, or in the same instant with a lower number. -/
theorem drawer_first {x : Partition} {a : Nat} (h : drawer x = some a) :
    ∃ y t, (a, y) ∈ x.accounts ∧ y.asked = some t ∧ 0 < min (y.refill / 8) x.pool ∧
      ∀ b z u, (b, z) ∈ x.accounts → z.asked = some u → 0 < min (z.refill / 8) x.pool → t < u ∨ t = u ∧ a ≤ b := by
  simp only [drawer] at h
  split at h
  case h_2 => cases h
  case h_1 t ht =>
    obtain ⟨-, hearliest⟩ := List.min?_eq_some_iff.1 ht
    obtain ⟨ha, hlowest⟩ := List.min?_eq_some_iff.1 h
    obtain ⟨⟨k, y⟩, hy, rfl⟩ := List.mem_map.1 ha
    simp only [List.mem_filter, Bool.and_eq_true, decide_eq_true_eq, beq_iff_eq] at hy
    obtain ⟨⟨hmem, -, hdraws⟩, hasked⟩ := hy
    refine ⟨y, t, hmem, hasked, hdraws, fun b z u hz hu hd => ?_⟩
    have hasks : (b, z) ∈ x.accounts.filter (fun a => a.2.asked.isSome && decide (0 < min (a.2.refill / 8) x.pool)) :=
      List.mem_filter.2 ⟨hz, by simp [hu]; omega⟩
    have htu : t ≤ u := hearliest u (List.mem_filterMap.2 ⟨(b, z), hasks, hu⟩)
    rcases Nat.lt_or_eq_of_le htu with hlt | rfl
    · exact .inl hlt
    · exact .inr ⟨rfl, hlowest b (List.mem_map.2 ⟨(b, z), List.mem_filter.2 ⟨hasks, by simp [hu]⟩, rfl⟩)⟩

theorem accountsAreRefilledAndBorrow : Rule.AccountsAreRefilledAndBorrow := by
  refine ⟨fun s p x hp ht => accountsRefilled hp ht, fun s p a x y n hd hx hy hn => ?_, fun s hd => ?_, fun x a h => drawer_first h⟩
  · subst hx
    obtain ⟨hpool, haccount⟩ := drawTokens_part (noteRequests s) p a hy hn
    refine ⟨drawTokens (noteRequests s) p a, ?_, hpool, haccount, by rw [drawTokens_mem, noteRequests_mem]⟩
    show execBorrow s = _
    rw [execBorrow, hd]
  · show execBorrow s = _
    rw [execBorrow, hd]

/-! The firmware's registers. -/

theorem badBind_eq (v : BitVec 64) : badBind v = decide (v.toNat / 2 ^ 57 ≠ 0) := by
  rw [Bool.eq_iff_iff, badBind, bne_iff_ne, decide_eq_true_iff]

theorem bindRecordWritten {k i : Nat} (v : BitVec 64) (hs : speedwellRuns s = true) (hk : k < 12) (hi : i < 64) :
    ∃ s', exec (.bindRecordWrite k i v) s = .next s' ∧ tabGetD 0 (s'.slice k).slots i = v ∧
      (∀ j, j ≠ i → tabGetD 0 (s'.slice k).slots j = tabGetD 0 (s.slice k).slots j) ∧
      (s'.slice k).writeError = ((s.slice k).writeError || decide (v.toNat / 2 ^ 57 ≠ 0)) ∧ s'.mem = s.mem := by
  refine ⟨s.modSlice k (fun x => { x with slots := tabSetD 0 x.slots i v, writeError := x.writeError || badBind v }), ?_, ?_, fun j hj => ?_, ?_, rfl⟩
  · show execBindRecordWrite k i v s = _
    rw [execBindRecordWrite, if_pos (by simp [hs, hk, hi])]
  · simp [State.modSlice_eq]
  · simp [State.modSlice_eq, hj]
  · rw [State.modSlice_eq, State.slice_setSlice, if_pos rfl, badBind_eq]

theorem leaseLengthWritten {k : Nat} (v : Word) (hs : speedwellRuns s = true) (hk : k < 12) :
    ∃ s', exec (.leaseLengthWrite k v) s = .next s' ∧ (s'.slice k).lease.toNat = v.toNat % 2 ^ 13 ∧
      (∀ j, j ≠ k → s'.slice j = s.slice j) ∧ s'.mem = s.mem := by
  refine ⟨s.modSlice k (fun x => { x with lease := BitVec.ofNat 32 (v.toNat % 2 ^ 13) }), ?_, ?_, fun j hj => ?_, rfl⟩
  · show execLeaseLengthWrite k v s = _
    rw [execLeaseLengthWrite, if_pos (by simp [hs, hk])]
  · rw [State.modSlice_eq, State.slice_setSlice, if_pos rfl, BitVec.toNat_ofNat]
    omega
  · rw [State.modSlice_eq, State.slice_setSlice, if_neg hj]

theorem firmwareWrites_of_stopped (hs : speedwellRuns s = false) :
    (∀ k i v, exec (.bindRecordWrite k i v) s = .next s) ∧ ∀ k v, exec (.leaseLengthWrite k v) s = .next s :=
  ⟨fun k i v => show execBindRecordWrite k i v s = _ by simp [execBindRecordWrite, hs],
    fun k v => show execLeaseLengthWrite k v s = _ by simp [execLeaseLengthWrite, hs]⟩

theorem exec_registerWrite (w : RegWrite) (s : State) : exec (.registerWrite w) s = execRegisterWrite w s := rfl

section
variable {p : Nat} {x : Partition} (hp : tabGet s.parts p = some x)
include hp

theorem part_of_tabGet : s.part p = x := by rw [State.part, tabGetD, hp, Option.getD_some]

theorem thresholdWritten {code : Nat} (v : Word) (hc : code < 20) : ∃ s', exec (.registerWrite (.threshold p code v)) s = .next s' ∧
    tabGetD 0 (s'.part p).thresholds code = v ∧ s'.mem = s.mem := by
  refine ⟨s.modPart p (fun x => { x with thresholds := tabSetD 0 x.thresholds code v }), ?_, ?_, rfl⟩
  · simp [exec_registerWrite, execRegisterWrite, hp, hc]
  · simp [State.modPart_eq]

theorem accountWritten {a : Nat} (r : Nat) (l : Bool) (ha : a < 64) : ∃ s', exec (.registerWrite (.account p a r l)) s = .next s' ∧
    tabGet (s'.part p).accounts a = some { tabGetD {} x.accounts a with refill := r, lend := l } ∧ s'.mem = s.mem := by
  refine ⟨s.modPart p (fun x => { x with accounts := tabPut x.accounts a { tabGetD {} x.accounts a with refill := r, lend := l } }), ?_, ?_, rfl⟩
  · simp [exec_registerWrite, execRegisterWrite, hp, ha]
  · simp [State.modPart_eq, part_of_tabGet hp]

theorem windowWritten (b : Nat) : ∃ s', exec (.registerWrite (.window p b)) s = .next s' ∧ s'.part p = { x with exposed := some b } ∧
    s'.mem = s.mem := by
  refine ⟨s.modPart p (fun x => { x with exposed := some b }), ?_, ?_, rfl⟩
  · simp [exec_registerWrite, execRegisterWrite, hp]
  · rw [State.modPart_eq, State.part_setPart, if_pos rfl, part_of_tabGet hp]
end

theorem powerMeasured {k : Nat} (c l : Nat) (hk : k < 12) : ∃ s', exec (.registerWrite (.power k c l)) s = .next s' ∧ s'.mem = s.mem ∧
    (s'.slice k).current = c ∧ (s'.slice k).allocation = l ∧
    (s'.slice k).overSince = (if l < c then some ((s.slice k).overSince.getD s.time) else none) ∧
    (s'.slice k).underSince = (if c < l then some ((s.slice k).underSince.getD s.time) else none) := by
  have hslice : (s.modSlice k (Slice.measured s.time c l)).slice k = (s.slice k).measured s.time c l := by
    rw [State.modSlice_eq, State.slice_setSlice, if_pos rfl]
  refine ⟨s.modSlice k (Slice.measured s.time c l), ?_, rfl, ?_⟩
  · simp [exec_registerWrite, execRegisterWrite, hk]
  · rw [hslice]
    exact ⟨rfl, rfl, rfl, rfl⟩

theorem firmwareRegistersAreWritten : Rule.FirmwareRegistersAreWritten :=
  ⟨fun _ _ _ v hs hk hi => bindRecordWritten v hs hk hi, fun _ _ v hs hk => leaseLengthWritten v hs hk,
    fun _ hs => firmwareWrites_of_stopped hs,
    fun _ _ _ hp => ⟨fun _ v hc => thresholdWritten hp v hc, fun _ r l ha => accountWritten hp r l ha, fun b => windowWritten hp b⟩,
    fun _ _ c l hk => powerMeasured c l hk⟩

/-- Settles O53: each change writes the entry that it names, and the next draw is the least request by time and number. -/
theorem fusionAccountsAndRegisters : Obligations.FusionAccountsAndRegisters :=
  ⟨fusionChanges, accountsAreRefilledAndBorrow, firmwareRegistersAreWritten⟩

end Sys2Proof.Machine
end

section
/-! O58: the decoder and the encoder are inverse. -/

namespace Sys2Proof

/-! An operand and a bit read from a word and put back. -/

theorem Opnd.toBits_ofBits {x : Nat} (h : x < 1024) : (Opnd.ofBits x).toBits = x := by
  have hclass : x / 256 % 4 = 0 ∨ x / 256 % 4 = 1 ∨ x / 256 % 4 = 2 ∨ x / 256 % 4 = 3 := by omega
  have hindex : (BitVec.ofNat 8 (x % 256)).toNat = x % 256 := by rw [BitVec.toNat_ofNat]; omega
  rcases hclass with h0 | h1 | h2 | h3
  · simp only [Opnd.ofBits, h0, Opnd.toBits, hindex]; omega
  · simp only [Opnd.ofBits, h1, Opnd.toBits, hindex]; omega
  · simp only [Opnd.ofBits, h2, Opnd.toBits, hindex]; omega
  · simp only [Opnd.ofBits, h3, Opnd.toBits, hindex]; omega

theorem toNat_beq_one {x : Nat} (h : x < 2) : (x == 1).toNat = x := by
  interval_cases x <;> rfl

theorem IWord.field_lt (w : IWord) (lo len : Nat) : w.field lo len < 2 ^ len := Nat.mod_lt _ (Nat.two_pow_pos len)

/-- The fields of a number whose bits [10:5] are zero, put back at their places, give the number without its check field. -/
theorem fields_joined {n : Nat} (hn : n < 2 ^ 96) (hz : n / 2 ^ 5 % 2 ^ 6 = 0) :
    n / 2 ^ 11 % 2 ^ 3 * 2 ^ 11 + n / 2 ^ 14 % 2 ^ 1 * 2 ^ 14 + n / 2 ^ 15 % 2 ^ 4 * 2 ^ 15 + n / 2 ^ 19 % 2 ^ 20 * 2 ^ 19 +
      n / 2 ^ 39 % 2 ^ 1 * 2 ^ 39 + n / 2 ^ 40 % 2 ^ 1 * 2 ^ 40 + n / 2 ^ 41 % 2 ^ 1 * 2 ^ 41 + n / 2 ^ 42 % 2 ^ 10 * 2 ^ 42 +
      n / 2 ^ 52 % 2 ^ 10 * 2 ^ 52 + n / 2 ^ 62 % 2 ^ 10 * 2 ^ 62 + n / 2 ^ 72 % 2 ^ 10 * 2 ^ 72 + n / 2 ^ 82 % 2 ^ 3 * 2 ^ 82 +
      n / 2 ^ 85 % 2 ^ 1 * 2 ^ 85 + n / 2 ^ 86 % 2 ^ 10 * 2 ^ 86 = n / 32 * 32 := by
  omega

theorem assemble_eq (op : Nat) (f : Fields) : assemble op f =
    f.reuse.toNat * 2 ^ 11 + f.yld.toNat * 2 ^ 14 + f.stall.toNat * 2 ^ 15 + f.mod.toNat * 2 ^ 19 + f.ec.toNat * 2 ^ 39 +
      f.eb.toNat * 2 ^ 40 + f.ea.toNat * 2 ^ 41 + f.c.toBits * 2 ^ 42 + f.b.toBits * 2 ^ 52 + f.a.toBits * 2 ^ 62 + f.d.toBits * 2 ^ 72 +
      f.gp.toNat * 2 ^ 82 + f.neg.toNat * 2 ^ 85 + op * 2 ^ 86 := by
  simp only [assemble, ite_bit]

/-- A word whose zero field is zero is, above its check field, its fields and its opcode assembled. -/
theorem assemble_ofWord {w : IWord} (hz : w.field 5 6 = 0) : assemble (w.field 86 10) (Fields.ofWord w) = w.toNat / 32 * 32 := by
  have hbit : ∀ lo, (w.field lo 1 == 1).toNat = w.field lo 1 := fun lo => toNat_beq_one (w.field_lt lo 1)
  have hopnd : ∀ lo, (Opnd.ofBits (w.field lo 10)).toBits = w.field lo 10 := fun lo => Opnd.toBits_ofBits (w.field_lt lo 10)
  have hvec : ∀ lo len, (BitVec.ofNat len (w.field lo len)).toNat = w.field lo len := fun lo len => by
    rw [BitVec.toNat_ofNat, Nat.mod_eq_of_lt (w.field_lt lo len)]
  rw [assemble_eq]
  simp only [Fields.ofWord, hbit, hopnd, hvec]
  exact fields_joined w.isLt hz

theorem withCheck_of_checkOk {w : IWord} {n : Nat} (hc : w.checkOk = true) (hn : n = w.toNat / 32 * 32) : withCheck n = w := by
  have hw := w.isLt
  have hcheck : checkOf n = w.toNat % 32 := by
    rw [checkOf_congr n w.toNat (by omega)]
    exact beq_iff_eq.mp hc
  refine BitVec.eq_of_toNat_eq ?_
  rw [withCheck_toNat n (by omega), hcheck]
  omega

/-! The table Opcode Map read in both directions. -/

/-- A form builds an instruction that has the form's opcode and holds the fields that it was built from. -/
def Form.BuildsRow (x : Form) : Prop := ∀ f, (x.build f).fields = some f ∧ opcodeOf (x.build f) = x.op

theorem buildsRow_of_map {l : List Form}
    (h : l.map (fun x f => ((x.build f).fields, opcodeOf (x.build f))) = l.map (fun x f => (some f, x.op))) : ∀ x ∈ l, x.BuildsRow :=
  fun x hx f => Prod.mk.inj (congrFun (List.map_inj_left.mp h x hx) f)

/-- Every form of the table does, group by group. -/
theorem forms_buildsRow : ∀ x ∈ forms, x.BuildsRow := by
  unfold forms
  iterate 14
    refine List.forall_mem_append.mpr ⟨?_, ?_⟩
    on_goal 2 => exact buildsRow_of_map rfl
  exact buildsRow_of_map rfl

theorem formOf_mem {op : Nat} {x : Form} (h : formOf op = some x) : x ∈ forms ∧ x.op = op :=
  ⟨List.mem_of_find?_eq_some h, by simpa using List.find?_some h⟩

theorem opcode_lt_of_formOf {op : Nat} {x : Form} (h : formOf op = some x) : op < 1024 := by
  have hall : ∀ x ∈ forms, x.op < 1024 := by decide +kernel
  obtain ⟨hx, rfl⟩ := formOf_mem h
  exact hall x hx

section
open Laws.Row

/-- The row at an instruction's opcode builds it. -/
theorem formOf_builds (i : Instr) : Statement i := by
  cases i
  exacts [queryState _, replay _, loadObject _, unloadObject _, jobOpen _, jobClose _, phaseNext _, saveArea _, resumeJob _, submit _,
    cancelCmd _, queueConfig _, memWrite _, memRead _, statusWindowRead _, endpointEnable _, shortMessage _, bindSlot _, peer _,
    policy _, revoke _, teaselTableRead _, replacementImage _, configurationRecord _, nonce _, attestationReport _, bootStatus _,
    ringTailCheck _, mapPages _, unmapPages _, protect _, evict _, launchEntryStart _ _, graphEntryArm _ _, copyEntry _ _,
    bindRecordWrite _ _ _, leaseLengthWrite _ _, voteWrite _ _, domainGate _, domainUngate _, registerWrite _, threadUnblock _,
    loadWriteback _ _, writePerform _ _, atomicPerform _ _, exactPathWriteback _, remoteAccessIn _, copyChunk _ _ _, mmaChunkGrant _,
    gthrsLineFill _ _, remapTableWrite _ _, codebookSlotWrite _ _, variantTableRead _ _, quiescence _, passCountRaise _,
    passCountLower _, reconfigure _, bra _, brx _, call _, callx _, ret _, exitI _, yieldI _, nop _, setpri _, bpt _, trapI _, iadd _,
    isub _, iaddc _, isubc _, imul _, imulh _, imad _, imin _, imax _, iabs _, band _, bor _, bxor _, bnot _, logt _, shl _, shr _,
    sar _, dsh _, bfe _, bfi _, maskB _, popc _, clz _, brev _, bswz _, bdot _, bsad _, isetp _, sel _, lea _, mov _, movh _, addi _,
    movx _, pand _, por _, pxor _, pnot _, p2v _, v2p _, rdlane _, srd _, swr _, setmode _, partW _, shflIdx _, shflRot _, shflXor _,
    shflRev _, voteAll _, voteAny _, voteBallot _, redgAdd _, redgMin _, redgMax _, scang _, matchG _, elect _, fadd _, fsub _, fmul _,
    ffma _, fmin _, fmax _, fneg _, fabs _, fscale _, fsetp _, fclass _, frnd _, hfma2 _, hadd2 _, hsub2 _, hmul2 _, hmin2 _, hmax2 _,
    hneg2 _, habs2 _, hsetp2 _, cvt _, pack2 _, rcp _, rsq _, sqrt _, exp2 _, log2 _, sin _, cos _, tanh _, callv _, retv _, bset _,
    bget _, bsplit _, meter _, ld _, st _, ldx _, stx _, erase _, exq _, pref _, brmake _, brset _, brget _, atomAdd _, atomMin _,
    atomMax _, atomAnd _, atomOr _, atomXor _, atomExch _, atomCas _, atomFadd _, redAdd _, redMin _, redMax _, redAnd _, redOr _,
    redXor _, redFadd _, atomsAdd _, atomsMin _, atomsMax _, atomsAnd _, atomsOr _, atomsXor _, atomsExch _, atomsCas _, atomsFadd _,
    redsAdd _, redsMin _, redsMax _, redsAnd _, redsOr _, redsXor _, redsFadd _, lds _, sts _, sfill _, sempty _, gthr _, gthrs _,
    remap _, copyI _, copym _, cbload _, mready _, mma _, mmas _, mwait _, mpoll _, fence _, bar _, bara _, barw _, drain _, fewait _,
    evpost _, evwait _, evpoll _, launchI _, garm _, cntrd _, cancelLevel _, lblrd _, lbltst _, egress _, rgn _, rgne _, sfqpop _, rft _,
    termG _, termU _, halt _, endpointDisable, createPart, destroyPart, assignCopy, bindEndpoint, stackClear, policyPeriod, powerUpReset,
    evictHeldPerform, shootDown, migrationNoticeResend, graphNodeStart, waitEntry, unitDispatch, fusionChange, unitEnd, levelCompletion,
    budgetRefill, borrow, aging, glasonSwap, glasonPendingAging, skidLimit, barrierPhaseComplete, regionOpen, regionCommit,
    heldAccessReplay, eventThresholdNotice, unitCommandStart, copyEngineAccept, copyResume, copyComplete, mmaComplete, regionAbort,
    regionRestart, railHoldExpiry, railReady, loadRecordUpdate, fadeStart, fadeEnd]

end

/-! The decoder as its tests in row order. -/

theorem decodeWord_ok_iff {rc : Nat} {w : IWord} {i : Instr} : decodeWord rc w = .ok i ↔
    w.checkOk = true ∧ w.field 5 6 = 0 ∧ ∃ x, formOf (w.field 86 10) = some x ∧ x.reason rc (Fields.ofWord w) = none ∧
      x.build (Fields.ofWord w) = i := by
  simp only [decodeWord]
  cases hc : w.checkOk with
  | false => simp
  | true =>
    cases hx : formOf (w.field 86 10) with
    | none => simp
    | some x =>
      cases hr : x.reason rc (Fields.ofWord w) <;> by_cases hz : w.field 5 6 = 0 <;> simp [hz, hr]

theorem decode_of_encode {i : Instr} {f : Fields} {x : Form} {rc : Nat} {w : IWord} (hf : i.fields = some f)
    (hx : formOf (opcodeOf i) = some x) (hr : x.reason rc f = none) (hw : encode i = some w) : decodeWord rc w = .ok i := by
  obtain rfl : withCheck (assemble (opcodeOf i) f) = w := by simpa [encode, hf] using hw
  obtain ⟨hcheck, hop, hzero, hfields⟩ := assembled (opcodeOf i) f (opcode_lt_of_formOf hx)
  obtain ⟨y, hy, hbuild⟩ := formOf_builds i f hf
  obtain rfl : x = y := Option.some.inj (hx.symm.trans hy)
  exact decodeWord_ok_iff.mpr ⟨hcheck, hzero, x, by rw [hop, hx], by rw [hfields, hr], by rw [hfields, hbuild]⟩

theorem encode_of_decode {rc : Nat} {w : IWord} {i : Instr} (h : decodeWord rc w = .ok i) : encode i = some w := by
  obtain ⟨hcheck, hzero, x, hx, -, rfl⟩ := decodeWord_ok_iff.mp h
  obtain ⟨hmem, hop⟩ := formOf_mem hx
  obtain ⟨hfields, hopcode⟩ := forms_buildsRow x hmem (Fields.ofWord w)
  have hword := withCheck_of_checkOk hcheck (assemble_ofWord hzero)
  rw [encode, hfields, hopcode, hop, Option.map_some, hword]

/-- Settles O58: a word is its fields at their places and its check, and each row of the table builds from the fields the instruction of
its opcode. -/
theorem decodingInvertsEncoding : Obligations.DecodingInvertsEncoding :=
  ⟨fun _ _ _ _ _ hf hx hr hw => decode_of_encode hf hx hr hw, fun _ _ _ h => encode_of_decode h⟩

end Sys2Proof
end

section
/-! O57: the words that the statement writes out, decoded one by one. -/

namespace Sys2Proof.Machine

/-- Settles O57: each word is decoded as it stands and with bit 0 of its check field changed. -/
theorem knownWordsDecode : Obligations.KnownWordsDecode := by
  unfold Obligations.KnownWordsDecode Rule.KnownWordsDecode
  decide +kernel

end Sys2Proof.Machine
end

section
/-! SUPPORT. An instruction that writes a result and predicates under one label: what its thread and its gang hold afterwards (R131, R273,
R274). -/

namespace Sys2Proof.Machine

/-! What a thread keeps. -/

theorem Kept.trans {x y z : Thread} {ds ps : List Nat} (h : Kept x y ds ps) (k : Kept y z ds ps) : Kept x z ds ps :=
  ⟨fun r hr => ⟨(k.regs r hr).1.trans (h.regs r hr).1, (k.regs r hr).2.trans (h.regs r hr).2⟩,
    fun n hn => ⟨(k.preds n hn).1.trans (h.preds n hn).1, (k.preds n hn).2.trans (h.preds n hn).2⟩, k.mode.trans h.mode, k.cls.trans h.cls,
    ⟨k.traps.1.trans h.traps.1, k.traps.2.1.trans h.traps.2.1, k.traps.2.2.1.trans h.traps.2.2.1, k.traps.2.2.2.trans h.traps.2.2.2⟩,
    k.budget.trans h.budget⟩

theorem Kept.mono {x y : Thread} {ds ps ds' ps' : List Nat} (h : Kept x y ds ps) (hd : ds ⊆ ds') (hp : ps ⊆ ps') : Kept x y ds' ps' :=
  ⟨fun r hr => h.regs r (fun m => hr (hd m)), fun n hn => h.preds n (fun m => hn (hp m)), h.mode, h.cls, h.traps, h.budget⟩

theorem Kept.refl (x : Thread) (ds ps : List Nat) : Kept x x ds ps :=
  ⟨fun _ _ => ⟨rfl, rfl⟩, fun _ _ => ⟨rfl, rfl⟩, rfl, rfl, ⟨rfl, rfl, rfl, rfl⟩, rfl⟩

theorem Thread.pred_setPred (x : Thread) {n : Nat} (h : n < 7) (b : Bool) (k : Nat) :
    (x.setPred n b).pred k = if k = n then b else x.pred k := by
  by_cases hk : k = n
  · subst hk
    have h8 : k < 8 := by omega
    have h7 : k ≠ 7 := by omega
    cases b <;> simp [Thread.setPred, Thread.pred, h, h8, h7]
  · have hn : ¬ n = k := fun e => hk e.symm
    cases b with
    | true => simp [Thread.setPred, Thread.pred, h, hk, hn]
    | false =>
      by_cases h8 : k < 8
      · simp [Thread.setPred, Thread.pred, h, hk, h8]
      · simp [Thread.setPred, Thread.pred, h, hk, BitVec.getLsbD_of_ge _ _ (Nat.le_of_not_lt h8)]

theorem Thread.pending_setPend (x : Thread) {n : Nat} (h : n < 7) (b : Bool) (k : Nat) :
    (x.setPend n b).pending k = if k = n then b else x.pending k := by
  by_cases hk : k = n
  · subst hk
    have h8 : k < 8 := by omega
    cases b <;> simp [Thread.setPend, Thread.pending, h, h8]
  · have hn : ¬ n = k := fun e => hk e.symm
    cases b with
    | true => simp [Thread.setPend, Thread.pending, h, hk, hn]
    | false =>
      by_cases h8 : k < 8
      · simp [Thread.setPend, Thread.pending, h, hk, h8]
      · simp [Thread.setPend, Thread.pending, h, hk, BitVec.getLsbD_of_ge _ _ (Nat.le_of_not_lt h8)]

@[simp] theorem Thread.pending_setPred (x : Thread) (n : Nat) (b : Bool) (k : Nat) : (x.setPred n b).pending k = x.pending k := by
  simp only [Thread.setPred]; split <;> rfl
@[simp] theorem Thread.pred_setPend (x : Thread) (n : Nat) (b : Bool) (k : Nat) : (x.setPend n b).pred k = x.pred k := by
  simp only [Thread.setPend]; split <;> rfl

/-- A write of predicate n as its thread sees it. -/
theorem Wr.onThread_pred (x : Thread) {n : Nat} (h : n < 7) (b : Bool) (l : Label) (k : Nat) :
    ((Wr.pred n b l).onThread x).pred k = (if k = n then b else x.pred k) ∧
      ((Wr.pred n b l).onThread x).pending k = if k = n then false else x.pending k := by
  simp only [Wr.onThread, if_pos h, Thread.pred_setPend, Thread.pred_setPred x h, Thread.pending_setPend _ h, Thread.pending_setPred, and_self]

/-- A write leaves what its frame does not name. -/
theorem Wr.onThread_kept {w : Wr} {ds ps us bs : List Nat} (h : w.within ds ps us bs) (x : Thread) : Kept x (w.onThread x) ds ps := by
  cases w with
  | reg r v l =>
    simp only [Wr.onThread]
    split
    · exact .refl _ _ _
    · refine ⟨fun k hk => ?_, fun n _ => ?_, ?_, ?_, ?_, ?_⟩
      · have : k ≠ r := fun e => hk (e ▸ h)
        simp [this]
      all_goals simp only [Thread.setReg, Thread.markFull]; split <;> simp [Thread.pred, Thread.pending, Thread.budget]
  | pred n b l =>
    by_cases hn : n < 7
    · refine ⟨fun k _ => ?_, fun k hk => ?_, ?_, ?_, ?_, ?_⟩
      · simp [Wr.onThread, hn, Thread.setPred, Thread.setPend, Thread.reg, Thread.full]
      · have : k ≠ n := fun e => hk (e ▸ h)
        simp [Wr.onThread_pred x hn, this]
      all_goals simp [Wr.onThread, hn, Thread.setPred, Thread.setPend, Thread.budget]
    · simp only [Wr.onThread, if_neg hn]
      exact .refl _ _ _
  | _ => exact .refl _ _ _

theorem Wr.foldl_kept {ws : List Wr} {ds ps us bs : List Nat} (h : ∀ w ∈ ws, w.within ds ps us bs) (x : Thread) :
    Kept x (ws.foldl Wr.onThread x) ds ps := by
  induction ws generalizing x with
  | nil => exact .refl _ _ _
  | cons w ws ih => exact (Wr.onThread_kept (h w (by simp)) x).trans (ih (fun v hv => h v (by simp [hv])) _)

/-! Predicates under one label. -/

/-- The writes of predicates under one label. -/
def predWrs (l : Label) (ps : List (Nat × Bool)) : List Wr := ps.map (fun p => .pred p.1 p.2 l)

/-- The predicate of a class-10 destination with its value. -/
def destPred (d : Opnd) (b : Bool) : List (Nat × Bool) :=
  match d with
  | .k n => [(n.toNat - 64, b)]
  | _ => []

theorem wrPred_eq (d : Opnd) (b : Bool) (l : Label) : wrPred d b l = predWrs l (destPred d b) := by cases d <;> rfl
theorem destPred_fst (d : Opnd) (b : Bool) : (destPred d b).map Prod.fst = resultPreds d := by cases d <;> rfl

theorem mem_predWrs {l : Label} {ps : List (Nat × Bool)} {w : Wr} (h : w ∈ predWrs l ps) : ∃ n b, n ∈ ps.map Prod.fst ∧ w = .pred n b l := by
  obtain ⟨p, hp, rfl⟩ := List.mem_map.mp h
  exact ⟨p.1, p.2, List.mem_map_of_mem hp, rfl⟩

/-- The last write of a predicate remains. -/
theorem predWrs_last {l : Label} {ps₁ ps₂ : List (Nat × Bool)} {n : Nat} {b : Bool} (hn : n < 7) (h : n ∉ ps₂.map Prod.fst) (x : Thread) :
    ((predWrs l (ps₁ ++ (n, b) :: ps₂)).foldl Wr.onThread x).pred n = b ∧
      ((predWrs l (ps₁ ++ (n, b) :: ps₂)).foldl Wr.onThread x).pending n = false := by
  have hk := fun y => (Wr.foldl_kept (ds := []) (ps := ps₂.map Prod.fst) (us := []) (bs := []) (ws := predWrs l ps₂) (fun w hw => by
    obtain ⟨k, c, hkc, rfl⟩ := mem_predWrs hw; exact hkc) y).preds n h
  simp only [predWrs, List.map_append, List.map_cons, List.foldl_append, List.foldl_cons]
  rw [← predWrs, ← predWrs]
  simp only [hk, Wr.onThread_pred _ hn, if_true, and_self]

/-! One predicate's label. -/

/-- The label that a predicate has after a write. -/
def Wr.onPredLabel (n : Nat) (x : Label) : Wr → Label
  | .pred k _ l => if k = n then l else x
  | _ => x

theorem applyWr_predLabel (a b : Bool) (t : Nat) (s : State) (w : Wr) (g : Nat) {n : Nat} (hn : n < 7) :
    ((applyWr a b t s w).gang g).predLabel n = if g = gangOf t then w.onPredLabel n ((s.gang g).predLabel n) else (s.gang g).predLabel n := by
  have other : ∀ {ds ps us bs : List Nat}, w.within ds ps us bs → n ∉ ps → w.onPredLabel n ((s.gang g).predLabel n) = (s.gang g).predLabel n →
      ((applyWr a b t s w).gang g).predLabel n =
        if g = gangOf t then w.onPredLabel n ((s.gang g).predLabel n) else (s.gang g).predLabel n := by
    intro ds ps us bs hw hm hl
    rw [(labelFrame_applyWr a b t s w hw g).pred n hm, hl, ite_self]
  cases w with
  | pred k v l =>
    by_cases hk : k = n
    · subst hk
      simp only [applyWr, if_pos hn, State.gang_modGang, State.gang_modThread]
      split
      · simp [Wr.onPredLabel, Gang.setPredLabel, Gang.predLabel, Gang.widen, hn]
      · rfl
    · exact other (ds := []) (ps := [k]) (us := []) (bs := []) (by simp [Wr.within]) (by simpa using fun e => hk e.symm)
        (by simp [Wr.onPredLabel, hk])
  | reg k x l => exact other (ds := [k]) (ps := []) (us := []) (bs := []) (by simp [Wr.within]) (by simp) rfl
  | uni k x l => exact other (ds := []) (ps := []) (us := [k]) (bs := []) (by simp [Wr.within]) (by simp) rfl
  | rcd k x l => exact other (ds := []) (ps := []) (us := []) (bs := [k]) (by simp [Wr.within]) (by simp) rfl
  | ctl l => exact other (ds := []) (ps := []) (us := []) (bs := []) (by simp [Wr.within]) (by simp) rfl

theorem applyWrs_predLabel (a b : Bool) (t : Nat) (s : State) (ws : List Wr) (g : Nat) {n : Nat} (hn : n < 7) :
    ((applyWrs a b t s ws).gang g).predLabel n =
      if g = gangOf t then ws.foldl (Wr.onPredLabel n) ((s.gang g).predLabel n) else (s.gang g).predLabel n := by
  induction ws generalizing s with
  | nil => simp [applyWrs]
  | cons w ws ih =>
    rw [applyWrs, List.foldl_cons, ← applyWrs, ih, applyWr_predLabel _ _ _ _ _ _ hn]
    split <;> rfl

/-- After its writes an effect changes no label, and narrows no control label. -/
theorem labelFrame_afterWrites (f : Fields) (l : Label) (a b c : Bool) (t : Nat) (s : State) (e : Eff) :
    State.LabelFrame [] [] [] [] (applyWrs a b t s e.writes) (applyEff f l a b c t s e) := by
  have hact : State.LabelFrame [] [] [] [] (applyWrs a b t s e.writes) (e.act a b t s) := by
    simp only [Eff.act]
    refine State.LabelFrame.trans (s' := (applyWrs a b t s e.writes).modThread t (e.alter (s.clkOf t))) (.of_gang (fun _ => rfl))
      (State.LabelFrame.trans ?_ (.of_gang (fun _ => State.gang_countEvents _ _ _ _)))
    simp only [State.setTiles]
    split
    · exact State.labelFrame_modGang _ _ _ (.of_eq rfl rfl rfl rfl rfl)
    · exact .refl _ _ _ _ _
  refine (hact.trans (.of_gang (fun g => Eff.leave_gang e f a c t (e.next.getD (nextPc s.pc)) _ g))).trans ?_
  simp only [applyEff, Eff.close]
  split
  · exact State.labelFrame_exitThread _ _ _ _ _ _
  · split
    · exact labelFrame_takeTrap _ _ _ _ _ _ _ _ _ _
    · split
      · exact .of_gang (fun _ => rfl)
      · exact .refl _ _ _ _ _

theorem applyEff_predLabel (f : Fields) (l : Label) (a b c : Bool) (t : Nat) (s : State) (e : Eff) (g : Nat) {n : Nat} (hn : n < 7) :
    ((applyEff f l a b c t s e).gang g).predLabel n =
      if g = gangOf t then e.writes.foldl (Wr.onPredLabel n) ((s.gang g).predLabel n) else (s.gang g).predLabel n := by
  rw [(labelFrame_afterWrites f l a b c t s e g).pred n (by simp), applyWrs_predLabel _ _ _ _ _ _ hn]

/-! The control label. -/

theorem Label.subset_of_bits {x y : Label} (h : ∀ i, x.getLsbD i = true → y.getLsbD i = true) : Label.subset x y = true := by
  simp only [Label.subset, beq_iff_eq]
  refine BitVec.eq_of_getLsbD_eq (fun i hi => ?_)
  have := h i
  cases hx : x.getLsbD i <;> simp_all

theorem Label.bit_of_subset {x y : Label} (h : Label.subset x y = true) {i : Nat} (hi : x.getLsbD i = true) : y.getLsbD i = true := by
  have : (x &&& y).getLsbD i = true := by rw [beq_iff_eq.mp h]; exact hi
  simp_all

/-- A write that joins a label to the control label (R131, R276). -/
def Wr.joins (l : Label) : Wr → Prop
  | .pred n _ k => n < 7 ∧ k = l
  | .ctl k => k = l
  | _ => False

theorem Wr.within_own (w : Wr) : ∃ ds ps us bs, w.within ds ps us bs := by
  cases w with
  | reg r _ _ => exact ⟨[r], [], [], [], List.mem_singleton_self r⟩
  | uni r _ _ => exact ⟨[], [], [r], [], List.mem_singleton_self r⟩
  | rcd r _ _ => exact ⟨[], [], [], [r], List.mem_singleton_self r⟩
  | pred n _ _ => exact ⟨[], [n], [], [], List.mem_singleton_self n⟩
  | ctl _ => exact ⟨[], [], [], [], trivial⟩

theorem applyWr_joins (a b : Bool) (t : Nat) (s : State) {w : Wr} {l : Label} (h : w.joins l) :
    Label.subset l ((applyWr a b t s w).gang (gangOf t)).ctl = true := by
  refine Label.subset_of_bits (fun i hi => ?_)
  cases w with
  | pred n v k =>
    obtain ⟨hn, rfl⟩ := h
    simp [applyWr, hn, Gang.widen, hi]
  | ctl k =>
    obtain rfl := h
    simp [applyWr, Gang.widen, hi]
  | _ => exact absurd h (by simp [Wr.joins])

theorem applyWrs_joins (a b : Bool) (t : Nat) (s : State) {ws : List Wr} {l : Label} (h : ∃ w ∈ ws, w.joins l) :
    Label.subset l ((applyWrs a b t s ws).gang (gangOf t)).ctl = true := by
  obtain ⟨w, hw, hl⟩ := h
  obtain ⟨ws₁, ws₂, rfl⟩ := List.append_of_mem hw
  rw [applyWrs, List.foldl_append, List.foldl_cons]
  refine Label.subset_of_bits (fun i hi => ?_)
  have hb := Label.bit_of_subset (applyWr_joins a b t (ws₁.foldl (applyWr a b t) s) hl) hi
  clear hi
  generalize applyWr a b t (ws₁.foldl (applyWr a b t) s) w = s' at hb
  clear hw
  induction ws₂ generalizing s' with
  | nil => exact hb
  | cons v vs ih =>
    obtain ⟨ds, ps, us, bs, hv⟩ := v.within_own
    exact ih _ ((labelFrame_applyWr a b t s' v hv (gangOf t)).control i hb)

theorem applyEff_joins (f : Fields) (k : Label) (a b c : Bool) (t : Nat) (s : State) {e : Eff} {l : Label} (h : ∃ w ∈ e.writes, w.joins l) :
    Label.subset l ((applyEff f k a b c t s e).gang (gangOf t)).ctl = true :=
  Label.subset_of_bits (fun i hi => (labelFrame_afterWrites f k a b c t s e (gangOf t)).control i
    (Label.bit_of_subset (applyWrs_joins a b t s h) hi))

/-! The group. -/

/-- A write of another kind than a gang-uniform register stays with each thread. -/
theorem uniOnce_mem {serial : Nat} {c : List (Nat × List Wr)} {t : Nat} {e : Eff} {w : Wr} (h : w ∈ e.writes) (hu : w.isUni = false) :
    w ∈ (uniOnce serial c t e).writes := by
  simp only [uniOnce]
  split
  · exact List.mem_filter.mpr ⟨h, by simp [hu]⟩
  · exact h

theorem filter_onPredLabel (n : Nat) (ws : List Wr) (x : Label) :
    (ws.filter (fun w => !w.isUni)).foldl (Wr.onPredLabel n) x = ws.foldl (Wr.onPredLabel n) x := by
  induction ws generalizing x with
  | nil => rfl
  | cons w ws ih => cases w <;> exact ih _

theorem uniOnce_onPredLabel (serial : Nat) (c : List (Nat × List Wr)) (t : Nat) (e : Eff) (n : Nat) (x : Label) :
    (uniOnce serial c t e).writes.foldl (Wr.onPredLabel n) x = e.writes.foldl (Wr.onPredLabel n) x := by
  simp only [uniOnce]
  split
  · exact filter_onPredLabel n e.writes x
  · rfl

section
variable {op : Nat} {f : Fields} {preds regs : List Nat} {eff : State → Nat → Res} {s : State} {t : Nat}

theorem labelFrame_applyRes {ds ps us bs : List Nat} (h : ∀ u e, eff s u = .go e → ∀ w ∈ e.writes, w.within ds ps us bs)
    {z : Nat × Option Res} (hz : z ∈ judge s op f preds regs eff) (l : List (Nat × Option Res)) (b : State) :
    State.LabelFrame ds ps us bs b (applyRes op f s l b z) := by
  obtain ⟨u, -, rfl⟩ := List.mem_map.mp hz
  simp only [applyRes]
  split
  · exact .of_gang (fun _ => rfl)
  · exact .of_gang (fun _ => rfl)
  · simp only [applyTrap, issueTrap]
    refine State.LabelFrame.trans (s' := b.charge u) (.of_gang (fun _ => rfl)) ?_
    exact (labelFrame_takeTrap _ _ _ _ _ _ _ _ _ _).trans (.of_gang (fun _ => rfl))
  · rename_i e he
    exact labelFrame_applyEff _ _ _ _ _ _ _ _ (fun w hw => h u e (judgeOne_go he).1 w (uniOnce_writes_sub _ _ _ _ w hw))

/-- What holds once a thread's own result is applied, and is kept by each result after it, holds after the group. -/
theorem runGroup_after {P : State → Prop} (ht : t ∈ s.group) (hr : (s.thread t).sched = .ready)
    (own : ∀ b, P (applyRes op f s (judge s op f preds regs eff) b (t, judgeOne s op f preds regs eff t)))
    (later : ∀ b, ∀ z ∈ judge s op f preds regs eff, P b → P (applyRes op f s (judge s op f preds regs eff) b z)) :
    P (runGroup op f preds regs eff s) := by
  have hm : (t, judgeOne s op f preds regs eff t) ∈ judge s op f preds regs eff :=
    List.mem_map.mpr ⟨t, List.mem_filter.mpr ⟨ht, by simp [hr]⟩, rfl⟩
  obtain ⟨l₁, l₂, hl⟩ := List.append_of_mem hm
  have hsub : ∀ z ∈ l₂, z ∈ judge s op f preds regs eff := fun z hz => by rw [hl]; simp [hz]
  simp only [runGroup]
  generalize judge s op f preds regs eff = L at own later hl hsub
  conv => arg 1; arg 3; rw [hl]
  rw [List.foldl_append, List.foldl_cons]
  have h0 := own (l₁.foldl (applyRes op f s L) s)
  clear hl
  generalize applyRes op f s L (l₁.foldl (applyRes op f s L) s) (t, judgeOne s op f preds regs eff t) = b at h0
  induction l₂ generalizing b with
  | nil => exact h0
  | cons z l₂ ih => exact ih (fun y hy => hsub y (by simp [hy])) _ (later b z (hsub z (by simp)) h0)

theorem applyRes_predLabel (l : List (Nat × Option Res)) (b : State) (z : Nat × Option Res) (g : Nat) {n : Nat} (hn : n < 7) :
    ((applyRes op f s l b z).gang g).predLabel n =
      match z.2 with
      | some (.go e) => if g = gangOf z.1 then e.writes.foldl (Wr.onPredLabel n) ((b.gang g).predLabel n) else (b.gang g).predLabel n
      | _ => (b.gang g).predLabel n := by
  obtain ⟨u, r⟩ := z
  match r with
  | none => rfl
  | some (.block w) => rfl
  | some (.trap k i a) =>
    exact (labelFrame_takeTrap [] [] [] [] (b.charge u) u _ _ _ _ g).pred n (by simp)
  | some (.go e) => simp only [applyRes, applyEff_predLabel _ _ _ _ _ _ _ _ _ hn, uniOnce_onPredLabel]

/-- A predicate that every executing thread writes under its label carries the label of one of the gang's. -/
theorem runGroup_predLabel {lab : Nat → Label} {e : Nat → Eff} {n : Nat} (h : Issues s op f preds regs t) (hn : n < 7)
    (he : ∀ u, eff s u = .go (e u)) (hw : ∀ u x, (e u).writes.foldl (Wr.onPredLabel n) x = lab u) :
    ∃ u ∈ s.group, gangOf u = gangOf t ∧ guardTrue s u f = true ∧
      ((runGroup op f preds regs eff s).gang (gangOf t)).predLabel n = lab u := by
  refine runGroup_after (P := fun b => ∃ u ∈ s.group, gangOf u = gangOf t ∧ guardTrue s u f = true ∧
    (b.gang (gangOf t)).predLabel n = lab u) h.mem h.ready (fun b => ⟨t, h.mem, rfl, h.guard, ?_⟩) (fun b z hz ⟨u, hu, hg, hgu, hl⟩ => ?_)
  · rw [applyRes_predLabel _ _ _ _ hn, show judgeOne s op f preds regs eff t = some (.go (e t)) by simp [judgeOne, h.checkIn, he]]
    simp only [if_true, hw]
  · rw [applyRes_predLabel _ _ _ _ hn]
    obtain ⟨v, hv, rfl⟩ := List.mem_map.mp hz
    by_cases hgo : judgeOne s op f preds regs eff v = some (.go (e v)) ∧ gangOf t = gangOf v
    · exact ⟨v, (List.mem_filter.mp hv).1, hgo.2.symm, (judgeOne_go hgo.1).2, by simp only [hgo.1, if_pos hgo.2, hw]⟩
    · refine ⟨u, hu, hg, hgu, ?_⟩
      split
      · rename_i e' he'
        have hev : e' = e v := Res.go.inj ((judgeOne_go he').1.symm.trans (he v))
        rw [if_neg (fun hgv => hgo ⟨he'.trans (by rw [hev]), hgv⟩), hl]
      · exact hl

/-- A label that an executing thread's writes join to the control label is in it. -/
theorem runGroup_joins {l : Label} {e : Eff} (h : Issues s op f preds regs t) (he : eff s t = .go e)
    {ds ps us bs : List Nat} (hin : ∀ u e, eff s u = .go e → ∀ w ∈ e.writes, w.within ds ps us bs) (hw : ∃ w ∈ e.writes, w.joins l) :
    Label.subset l ((runGroup op f preds regs eff s).gang (gangOf t)).ctl = true := by
  refine runGroup_after (P := fun b => Label.subset l (b.gang (gangOf t)).ctl = true) h.mem h.ready (fun b => ?_) (fun b z hz hb => ?_)
  · rw [show judgeOne s op f preds regs eff t = some (.go e) by simp [judgeOne, h.checkIn, he]]
    obtain ⟨w, hw, hl⟩ := hw
    exact applyEff_joins _ _ _ _ _ _ _ ⟨w, uniOnce_mem hw (by cases w <;> first | rfl | exact absurd hl (by simp [Wr.joins])), hl⟩
  · exact Label.subset_of_bits (fun i hi => (labelFrame_applyRes hin hz _ b (gangOf t)).control i (Label.bit_of_subset hb hi))

end

/-! A result and predicates under one label. -/

/-- The effect of an instruction that writes a result and predicates under one label; `high` is what SRD captures (R158). -/
def resultPredsEff (ty : Ty) (d : Opnd) (v : DWord) (l : Label) (ps : List (Nat × Bool)) (high : Option (Option (Nat × Word))) : Eff :=
  { writes := wrTy ty d v l ++ predWrs l ps, high := high }

theorem resultPredsEff_within {ty : Ty} {d : Opnd} {v : DWord} {l : Label} {ps : List (Nat × Bool)} {high : Option (Option (Nat × Word))}
    {ns : List Nat} (h : ∀ n ∈ ps.map Prod.fst, n ∈ ns) :
    ∀ w ∈ (resultPredsEff ty d v l ps high).writes, w.within (resultRegs ty d) ns (resultUnis ty d) [] := by
  intro w hw
  rcases List.mem_append.mp hw with hw | hw
  · have := wrTy_within hw
    cases w with
    | pred n b k => exact absurd this (by simp [Wr.within])
    | _ => exact this
  · obtain ⟨n, b, hn, rfl⟩ := mem_predWrs hw
    exact h n hn

theorem predWrs_onTile (l : Label) (ps : List (Nat × Bool)) (r : Nat) : (predWrs l ps).filterMap (Wr.onTile r) = [] := by
  refine List.filterMap_eq_nil_iff.mpr (fun w hw => ?_)
  obtain ⟨n, b, -, rfl⟩ := mem_predWrs hw
  rfl

theorem predWrs_onPredLabel {l : Label} {n : Nat} (ps : List (Nat × Bool)) (x : Label) (h : x = l ∨ n ∈ ps.map Prod.fst) :
    (predWrs l ps).foldl (Wr.onPredLabel n) x = l := by
  induction ps generalizing x with
  | nil => simpa [predWrs] using h
  | cons p ps ih =>
    refine ih _ ?_
    simp only [Wr.onPredLabel]
    by_cases hp : p.1 = n
    · exact .inl (if_pos hp)
    · rw [if_neg hp]
      exact h.imp id (fun h => (List.mem_cons.mp h).resolve_left (fun e => hp e.symm))

theorem resultPredsEff_onPredLabel {ty : Ty} {d : Opnd} {v : DWord} {l : Label} {ps : List (Nat × Bool)}
    {high : Option (Option (Nat × Word))} {n : Nat} (h : n ∈ ps.map Prod.fst) (x : Label) :
    (resultPredsEff ty d v l ps high).writes.foldl (Wr.onPredLabel n) x = l := by
  simp only [resultPredsEff, List.foldl_append]
  exact predWrs_onPredLabel ps _ (.inr h)

/-! An instruction whose every executing thread has such an effect. -/

section
variable {op : Nat} {f : Fields} {preds regs : List Nat} {eff : State → Nat → Res} {s : State} {t : Nat} {ty : Ty} {d : Opnd}
  {val : Nat → DWord} {lab : Nat → Label} {ps : Nat → List (Nat × Bool)} {high : Nat → Option (Option (Nat × Word))} {ns : List Nat}

theorem runGroup_resultPreds_within (he : ∀ u, eff s u = .go (resultPredsEff ty d (val u) (lab u) (ps u) (high u)))
    (hns : ∀ u n, n ∈ (ps u).map Prod.fst ↔ n ∈ ns) :
    ∀ u e, eff s u = .go e → (∀ w ∈ e.writes, w.within (resultRegs ty d) ns (resultUnis ty d) []) ∧ e.part = none ∧ e.accesses = [] := by
  intro u e h
  obtain rfl := Res.go.inj (h.symm.trans (he u))
  exact ⟨resultPredsEff_within (fun n => (hns u n).mp), rfl, rfl⟩

/-- What the thread holds after its writes, before it moves on, apart from what SRD captures. -/
theorem resultPredsEff_onThread_kept (v : DWord) (l : Label) (qs : List (Nat × Bool)) (k : Option (Option (Nat × Word))) (x : Thread) :
    Kept ((wrTy ty d v l ++ predWrs l qs).foldl Wr.onThread x) ((resultPredsEff ty d v l qs k).onThread x) [] [] := by
  simp only [resultPredsEff, Eff.onThread, Eff.changed]
  generalize (wrTy ty d v l ++ predWrs l qs).foldl Wr.onThread x = y
  exact ⟨fun _ _ => ⟨rfl, rfl⟩, fun _ _ => ⟨rfl, rfl⟩, rfl, rfl, ⟨rfl, rfl, rfl, rfl⟩, rfl⟩

theorem runGroup_resultPreds_kept (h : Issues s op f preds regs t)
    (he : ∀ u, eff s u = .go (resultPredsEff ty d (val u) (lab u) (ps u) (high u))) :
    Kept ((wrTy ty d (val t) (lab t) ++ predWrs (lab t) (ps t)).foldl Wr.onThread (s.thread t))
      ((runGroup op f preds regs eff s).thread t) [] [] :=
  (resultPredsEff_onThread_kept _ _ _ _ _).trans (runGroup_moved h (he t) rfl rfl).kept

/-- A result in per-thread registers, from the thread's own view of its write. -/
theorem resultTy_of_wrTy {s' : State} {v : DWord} {l : Label} {x : Thread} (hd : isUni d = false)
    (hr : ∀ r, (s'.thread t).reg r = ((wrTy ty d v l).foldl Wr.onThread x).reg r ∧
      (s'.thread t).full r = ((wrTy ty d v l).foldl Wr.onThread x).full r) : ResultTy s' t ty d v := by
  have hv := wrTy_result ty d v l x hd
  simp only [ResultTy, Result64, Result32]
  cases d with
  | v n => simp only [hr]; split <;> simp_all
  | s n => simp [isUni] at hd
  | k n => split <;> trivial
  | imm n => split <;> trivial

theorem predWrs_within (l : Label) (qs : List (Nat × Bool)) : ∀ w ∈ predWrs l qs, w.within [] (qs.map Prod.fst) [] [] := by
  intro w hw
  obtain ⟨n, b, hn, rfl⟩ := mem_predWrs hw
  exact hn

theorem runGroup_resultPreds_result (h : Issues s op f preds regs t)
    (he : ∀ u, eff s u = .go (resultPredsEff ty d (val u) (lab u) (ps u) (high u))) :
    ∃ u ∈ s.group, gangOf u = gangOf t ∧ guardTrue s u f = true ∧ (isUni d = false → u = t) ∧
      ResultTy (runGroup op f preds regs eff s) t ty d (val u) ∧
      ∀ r ∈ resultUnis ty d, r < 127 → ((runGroup op f preds regs eff s).gang (gangOf t)).sregLabel r = lab u := by
  by_cases hd : isUni d = false
  · refine ⟨t, h.mem, rfl, h.guard, fun _ => rfl, resultTy_of_wrTy (l := lab t) (x := s.thread t) hd (fun r => ?_), fun r hr => ?_⟩
    · have hk := (runGroup_resultPreds_kept h he).regs r (by simp)
      rw [List.foldl_append] at hk
      have hp := (Wr.foldl_kept (predWrs_within (lab t) (ps t)) ((wrTy ty d (val t) (lab t)).foldl Wr.onThread (s.thread t))).regs r (by simp)
      exact ⟨hk.1.trans hp.1, hk.2.trans hp.2⟩
    · cases d <;> simp_all [isUni, resultUnis]
  · cases d with
    | s n =>
      obtain ⟨u, hu, hg, hgu, hv, hl⟩ := runGroup_uni (ty := ty) (n := n) (val := val) (lab := lab) (eff := eff)
        (e := fun u => resultPredsEff ty (.s n) (val u) (lab u) (ps u) (high u)) (rest := fun u => predWrs (lab u) (ps u)) h
        (fun u _ => he u) (fun _ _ => rfl) (fun u _ w hw => by obtain ⟨n, b, -, rfl⟩ := mem_predWrs hw; exact ⟨rfl, fun _ _ _ => by simp⟩)
        (fun _ _ => rfl)
      exact ⟨u, hu, hg, hgu, fun e => absurd e hd, hv, hl⟩
    | _ => simp [isUni] at hd

/-- The last write of a predicate is its value. -/
theorem runGroup_resultPreds_pred (h : Issues s op f preds regs t)
    (he : ∀ u, eff s u = .go (resultPredsEff ty d (val u) (lab u) (ps u) (high u))) {qs₁ qs₂ : List (Nat × Bool)} {n : Nat} {b : Bool}
    (hp : ps t = qs₁ ++ (n, b) :: qs₂) (hq : n ∉ qs₂.map Prod.fst) : PredIs (runGroup op f preds regs eff s) t n b := by
  intro hn
  have hk := (runGroup_resultPreds_kept h he).preds n (by simp)
  rw [List.foldl_append, hp] at hk
  have hv := predWrs_last (l := lab t) (ps₁ := qs₁) (b := b) hn hq ((wrTy ty d (val t) (lab t)).foldl Wr.onThread (s.thread t))
  exact ⟨hk.1.trans hv.1, hk.2.trans hv.2⟩

theorem runGroup_resultPreds_labelled (h : Issues s op f preds regs t) (hop : holdOf op f = none)
    (he : ∀ u, eff s u = .go (resultPredsEff ty d (val u) (lab u) (ps u) (high u))) (hns : ∀ u n, n ∈ (ps u).map Prod.fst ↔ n ∈ ns) :
    Labelled s (runGroup op f preds regs eff s) op f preds regs t (resultRegs ty d) (resultUnis ty d) ns lab := by
  have ht : ∀ r ∈ resultRegs ty d, r < 255 → _ := fun r hr h255 =>
    runGroup_tiles (eff := eff) (lab := lab) h h255 (fun u => ⟨_, he u⟩) (fun u e hu => by
      obtain rfl := Res.go.inj (hu.symm.trans (he u))
      rw [resultPredsEff, List.filterMap_append, wrTy_onTile hr h255, predWrs_onTile, List.append_nil])
  obtain ⟨u, hu, hg, hgu, -, -, hl⟩ := runGroup_resultPreds_result h he
  refine ⟨fun r hr k => (ht r hr k).1, fun r hr k => (ht r hr k).2.1, fun ha r hr k => (ht r hr k).2.2.1 (fun u hu => (ha u hu).issues hop),
    fun hx r hr k => (ht r hr k).2.2.2 hx, fun r hr k => ⟨u, hu, hg, hgu, hl r hr k⟩, fun n hn h7 => ⟨?_, ?_⟩⟩
  · exact runGroup_predLabel h h7 he (fun u x => resultPredsEff_onPredLabel ((hns u n).mpr hn) x)
  · obtain ⟨p, hp, rfl⟩ := List.mem_map.mp ((hns t n).mpr hn)
    exact runGroup_joins h (he t) (fun u e hu => (runGroup_resultPreds_within he hns u e hu).1)
      ⟨.pred p.1 p.2 (lab t), List.mem_append_right _ (List.mem_map_of_mem (f := fun p => Wr.pred p.1 p.2 (lab t)) hp), h7, rfl⟩

theorem runGroup_resultPreds_untouched (h : Issues s op f preds regs t)
    (he : ∀ u, eff s u = .go (resultPredsEff ty d (val u) (lab u) (ps u) (high u))) (hns : ∀ u n, n ∈ (ps u).map Prod.fst ↔ n ∈ ns) :
    Untouched s (runGroup op f preds regs eff s) t (resultRegs ty d) ns (resultUnis ty d) [] where
  thread := (Wr.foldl_kept (resultPredsEff_within (high := high t) (fun n => (hns t n).mp)) (s.thread t)).trans
    ((runGroup_resultPreds_kept h he).mono (List.nil_subset _) (List.nil_subset _))
  threads u hu := Kept.of_body (runGroup_outside _ _ _ _ _ _ hu)
  gangs g := runGroup_gangKept (fun u e hu => ⟨(runGroup_resultPreds_within he hns u e hu).1, (runGroup_resultPreds_within he hns u e hu).2.1⟩) g
  memory a := by rw [runGroup_mem]

/-- Everything about such an instruction but the values of its predicates: its result, labels and next instruction, and what is left alone. -/
theorem runGroup_resultPreds (h : Issues s op f preds regs t) (hop : holdOf op f = none)
    (he : ∀ u, eff s u = .go (resultPredsEff ty d (val u) (lab u) (ps u) (high u))) (hns : ∀ u n, n ∈ (ps u).map Prod.fst ↔ n ∈ ns) :
    Labelled s (runGroup op f preds regs eff s) op f preds regs t (resultRegs ty d) (resultUnis ty d) ns lab ∧
      ((runGroup op f preds regs eff s).thread t).pc = nextPc s.pc ∧
      Untouched s (runGroup op f preds regs eff s) t (resultRegs ty d) ns (resultUnis ty d) [] ∧ Unsent s (runGroup op f preds regs eff s) :=
  ⟨runGroup_resultPreds_labelled h hop he hns, (runGroup_moved h (he t) rfl rfl).pc, runGroup_resultPreds_untouched h he hns,
    runGroup_unsent (fun u e hu => (runGroup_resultPreds_within he hns u e hu).2.2)⟩

end

/-! The same for a form whose effect is its writes. -/

section
variable {op : Nat} {f : Fields} {preds : List Nat} {ws : State → Nat → List Wr} {s : State} {t : Nat} {ty : Ty} {d : Opnd}
  {val : Nat → DWord} {lab : Nat → Label} {ps : Nat → List (Nat × Bool)} {ns : List Nat}

theorem runWrites_eff (hw : ∀ u, ws s u = wrTy ty d (val u) (lab u) ++ predWrs (lab u) (ps u)) (u : Nat) :
    (fun s t => Res.go { writes := ws s t }) s u = .go (resultPredsEff ty d (val u) (lab u) (ps u) none) := by
  simp only [hw]
  rfl

theorem runWrites_resultPreds (h : Issues s op f preds [] t) (hop : holdOf op f = none)
    (hw : ∀ u, ws s u = wrTy ty d (val u) (lab u) ++ predWrs (lab u) (ps u)) (hns : ∀ u n, n ∈ (ps u).map Prod.fst ↔ n ∈ ns) :
    Labelled s (runWrites op f preds ws s) op f preds [] t (resultRegs ty d) (resultUnis ty d) ns lab ∧
      ((runWrites op f preds ws s).thread t).pc = nextPc s.pc ∧
      Untouched s (runWrites op f preds ws s) t (resultRegs ty d) ns (resultUnis ty d) [] ∧ Unsent s (runWrites op f preds ws s) :=
  runGroup_resultPreds h hop (runWrites_eff hw) hns

theorem runWrites_result (h : Issues s op f preds [] t) (hw : ∀ u, ws s u = wrTy ty f.d (val u) (lab u) ++ predWrs (lab u) (ps u)) :
    ResultIn s (runWrites op f preds ws s) f t ty val := by
  obtain ⟨u, hu, hg, hgu, hun, hv, -⟩ := runGroup_resultPreds_result (eff := fun s t => .go { writes := ws s t }) h (runWrites_eff hw)
  exact ⟨u, hu, hg, hgu, hun, hv⟩

theorem runWrites_pred (h : Issues s op f preds [] t) (hw : ∀ u, ws s u = wrTy ty d (val u) (lab u) ++ predWrs (lab u) (ps u))
    (qs₁ qs₂ : List (Nat × Bool)) {n : Nat} {b : Bool} (hp : ps t = qs₁ ++ (n, b) :: qs₂) (hq : n ∉ qs₂.map Prod.fst) :
    PredIs (runWrites op f preds ws s) t n b :=
  runGroup_resultPreds_pred h (runWrites_eff hw) hp hq

/-- A form that writes predicates alone. -/
theorem runWrites_preds (h : Issues s op f preds [] t) (hop : holdOf op f = none) (hw : ∀ u, ws s u = predWrs (lab u) (ps u))
    (hns : ∀ u n, n ∈ (ps u).map Prod.fst ↔ n ∈ ns) :
    Labelled s (runWrites op f preds ws s) op f preds [] t [] [] ns lab ∧ ((runWrites op f preds ws s).thread t).pc = nextPc s.pc ∧
      Untouched s (runWrites op f preds ws s) t [] ns [] [] ∧ Unsent s (runWrites op f preds ws s) :=
  runWrites_resultPreds (ty := .b32) (d := .imm 0) (val := fun _ => 0) h hop hw hns

theorem runWrites_preds_pred (h : Issues s op f preds [] t) (hw : ∀ u, ws s u = predWrs (lab u) (ps u)) (qs₁ qs₂ : List (Nat × Bool))
    {n : Nat} {b : Bool} (hp : ps t = qs₁ ++ (n, b) :: qs₂) (hq : n ∉ qs₂.map Prod.fst) : PredIs (runWrites op f preds ws s) t n b :=
  runWrites_pred (ty := .b32) (d := .imm 0) (val := fun _ => 0) h hw qs₁ qs₂ hp hq

end

end Sys2Proof.Machine
end

section
/-! O3: the forms that write predicates (R143, R150, R156, R197, R202, R343, R416). -/

namespace Sys2Proof.Machine

theorem Label.subset_eq_and_not (x y : Label) : Label.subset x y = (x &&& ~~~y == 0) := by
  rw [Label.subset, Bool.eq_iff_iff, beq_iff_eq, beq_iff_eq]
  refine ⟨fun h => BitVec.eq_of_getLsbD_eq fun i hi => ?_, fun h => BitVec.eq_of_getLsbD_eq fun i hi => ?_⟩
  all_goals
    have hbit := congrArg (fun z : Label => z.getLsbD i) h
    clear h
    simp only [BitVec.getLsbD_and, BitVec.getLsbD_not, hi, decide_true, Bool.true_and] at hbit ⊢
    cases hx : x.getLsbD i <;> cases hy : y.getLsbD i <;> simp_all

/-- What a form of `predForms` runs: the predicate in its destination under the form's label. -/
theorem exec_predForms : ∀ x ∈ predForms, ∀ f s,
    exec (x.instr f) s = .next (runWrites x.op f [] (fun s t => wrPred f.d (x.value f s t) (x.label f s t)) s) ∧ holdOf x.op f = none := by
  intro x hx f s
  simp only [predForms, List.mem_cons, List.not_mem_nil, or_false] at hx
  rcases hx with rfl | rfl | rfl | rfl | rfl | rfl | rfl | rfl
  iterate 7 exact ⟨rfl, rfl⟩
  refine ⟨?_, rfl⟩
  simp only [Label.subset_eq_and_not]
  rfl

/-- A predicate in its destination: nothing to show but of a destination that is a predicate. -/
theorem predIn_of {s' : State} {t : Nat} {d : Opnd} {b : Bool} (h : ∀ n, d = .k n → PredIs s' t (n.toNat - 64) b) : PredIn s' t d b := by
  cases d with
  | k n => exact h n rfl
  | _ => trivial

theorem comparisonsAndLogicWriteTheirPredicate : Rule.ComparisonsAndLogicWriteTheirPredicate := by
  intro x hx f s t h
  obtain ⟨hexec, hop⟩ := exec_predForms x hx f s
  refine ⟨_, hexec, predIn_of (fun n hd => ?_), runWrites_preds h hop (fun u => wrPred_eq _ _ _) (fun u n => by rw [destPred_fst])⟩
  exact runWrites_preds_pred h (fun u => wrPred_eq _ _ _) [] [] (by rw [hd]; rfl) (by simp)

/-- The predicates of HSETP2: the low half's, then the high half's. -/
def hsetp2Preds (f : Fields) (s : State) (u : Nat) : List (Nat × Bool) :=
  destPred f.d (hsetp2 s f u 0) ++ [(f.bits 5 3, hsetp2 s f u 1)]

theorem hsetp2_writes (f : Fields) (s : State) (u : Nat) (l : Label) :
    wrPred f.d (hsetp2 s f u 0) l ++ [.pred (f.bits 5 3) (hsetp2 s f u 1) l] = predWrs l (hsetp2Preds f s u) := by
  simp [hsetp2Preds, wrPred_eq, predWrs]

theorem hsetp2Preds_fst (f : Fields) (s : State) (u n : Nat) :
    n ∈ (hsetp2Preds f s u).map Prod.fst ↔ n ∈ f.bits 5 3 :: resultPreds f.d := by
  simp [hsetp2Preds, destPred_fst, or_comm]

theorem packedComparisonWritesBothHalves : Rule.PackedComparisonWritesBothHalves := by
  intro f s t h
  refine ⟨_, rfl, ?_, fun hne => ?_, runWrites_preds h rfl (fun u => hsetp2_writes f s u _) (hsetp2Preds_fst f s)⟩
  · exact runWrites_preds_pred h (fun u => hsetp2_writes f s u _) _ [] rfl (by simp)
  · refine predIn_of (fun n hd => ?_)
    have hne : n.toNat - 64 ≠ f.bits 5 3 := fun e => hne (by rw [hd, ← e]; rfl)
    exact runWrites_preds_pred h (fun u => hsetp2_writes f s u _) [] [(f.bits 5 3, hsetp2 s f t 1)] (by rw [hsetp2Preds, hd]; rfl)
      (by simpa using hne)

/-- A 32-bit result is the low word of one as wide as a pair. -/
theorem wr32_wrap32 (d : Opnd) (x : Int) (l : Label) : wr32 d (wrap32 x) l = wrTy .b32 d (BitVec.ofInt 64 x) l := by
  have hlo : DWord.lo (BitVec.ofInt 64 x) = wrap32 x := by
    refine BitVec.eq_of_toNat_eq ?_
    simp only [DWord.lo, wrap32, BitVec.toNat_setWidth, BitVec.toNat_ofInt]
    omega
  rw [← hlo]
  rfl

theorem carry_writes {op : Nat} (add : Bool) (f : Fields) (s : State) (u : Nat) :
    wr32 f.d (wrap32 (carrySum add s f u)) (labelOf s op f u) ++ [.pred (carryIx f) (carryOut (carrySum add s f u)) (labelOf s op f u)] =
      wrTy .b32 f.d (BitVec.ofInt 64 (carrySum add s f u)) (labelOf s op f u) ++
        predWrs (labelOf s op f u) [(f.bits 0 3, carryOut (carrySum add s f u))] := by
  rw [wr32_wrap32]
  rfl

/-- What IADDC and ISUBC leave. -/
theorem runCarry_completes {op : Nat} (add : Bool) {f : Fields} {s : State} {t : Nat} (hop : holdOf op f = none)
    (h : Issues s op f (modPred (f.bits 0 3)) [] t) :
    ResultIn s (runCarry op add f s) f t .b32 (fun u => BitVec.ofInt 64 (carrySum add s f u)) ∧
      PredIs (runCarry op add f s) t (f.bits 0 3) (carryOut (carrySum add s f t)) ∧
      Labelled s (runCarry op add f s) op f (modPred (f.bits 0 3)) [] t (resultRegs .b32 f.d) (resultUnis .b32 f.d) [f.bits 0 3]
        (labelOf s op f) ∧
      ((runCarry op add f s).thread t).pc = nextPc s.pc ∧
      Untouched s (runCarry op add f s) t (resultRegs .b32 f.d) [f.bits 0 3] (resultUnis .b32 f.d) [] ∧ Unsent s (runCarry op add f s) :=
  ⟨runWrites_result h (carry_writes add f s), runWrites_pred h (carry_writes add f s) [] [] rfl (by simp),
    runWrites_resultPreds h hop (carry_writes add f s) (fun _ _ => by simp)⟩

/-- A sum is not negative, and a difference is below 2^32. -/
theorem carryOut_add (f : Fields) (s : State) (t : Nat) : carryOut (carrySum true s f t) = decide (2 ^ 32 ≤ sumOf f s t) := by
  have hs : carrySum true s f t = sumOf f s t := rfl
  have hnn : ¬ sumOf f s t < 0 := by simp only [sumOf, carryIn]; split <;> omega
  simp [hs, carryOut, hnn]

theorem carryOut_sub (f : Fields) (s : State) (t : Nat) : carryOut (carrySum false s f t) = decide (differenceOf f s t < 0) := by
  have hs : carrySum false s f t = differenceOf f s t := rfl
  have ha := (read32 s t f.a).isLt
  have hlt : ¬ 2 ^ 32 ≤ differenceOf f s t := by simp only [differenceOf, carryIn]; split <;> omega
  rw [hs, carryOut, decide_eq_false hlt, Bool.or_false]

theorem carryFormsWriteResultAndCarry : Rule.CarryFormsWriteResultAndCarry := by
  intro f s t
  refine ⟨fun h => ⟨_, rfl, ?_⟩, fun h => ⟨_, rfl, ?_⟩⟩
  · rw [← carryOut_add]
    exact runCarry_completes true rfl h
  · rw [← carryOut_sub]
    exact runCarry_completes false rfl h

theorem v2p_writes (f : Fields) (s : State) (u : Nat) (l : Label) :
    (v2pIx f).map (fun k => .pred k ((read32 s u f.a).getLsbD k) l) =
      predWrs l ((v2pIx f).map (fun k => (k, (read32 s u f.a).getLsbD k))) := by
  rw [predWrs, List.map_map]
  rfl

theorem v2pWritesTheMaskedPredicates : Rule.V2pWritesTheMaskedPredicates := by
  intro f s t h
  have hfst : ∀ (ks : List Nat) (g : Nat → Bool), (ks.map (fun k => (k, g k))).map Prod.fst = ks := fun ks g => by
    rw [List.map_map]; exact List.map_id ks
  refine ⟨_, rfl, fun k hk hbit => ?_, runWrites_preds h rfl (fun u => v2p_writes f s u _) (fun u n => by rw [hfst])⟩
  have hmem : k ∈ v2pIx f := List.mem_filter.mpr ⟨List.mem_range.mpr hk, hbit⟩
  have hnodup : (v2pIx f).Nodup := List.nodup_range.filter _
  obtain ⟨ks₁, ks₂, hks⟩ := List.append_of_mem hmem
  rw [hks] at hnodup
  refine runWrites_preds_pred h (fun u => v2p_writes f s u _) (ks₁.map (fun k => (k, (read32 s t f.a).getLsbD k)))
    (ks₂.map (fun k => (k, (read32 s t f.a).getLsbD k))) (by rw [hks, List.map_append, List.map_cons]) ?_
  rw [hfst]
  exact (List.nodup_cons.mp (List.nodup_append.mp hnodup).2.1).1

/-- Settles O3: each form's effect is a result and predicates under one label. -/
theorem predicateResults : Obligations.PredicateResults :=
  ⟨comparisonsAndLogicWriteTheirPredicate, packedComparisonWritesBothHalves, carryFormsWriteResultAndCarry, v2pWritesTheMaskedPredicates⟩

end Sys2Proof.Machine
end

section
/-! O5: the special registers (R87, R158). -/

namespace Sys2Proof.Machine

/-- A group none of whose threads is refused runs whole. -/
theorem runLegal_of_legal {op : Nat} {f : Fields} {reason : Nat} {bad : State → Nat → Bool} {run : State → State} {s : State}
    (h : ∀ u ∈ s.group, bad s u = false) : runLegal op f reason bad run s = run s := by
  have hts : s.group.filter (fun t => (s.thread t).sched == .ready && bad s t) = [] :=
    List.filter_eq_nil_iff.mpr (fun u hu => by simp [h u hu])
  have hall : s.group.filter (fun t => !([] : List Nat).contains t) = s.group := List.filter_eq_self.mpr (fun _ _ => rfl)
  simp only [runLegal, hts, List.foldl_nil, hall]
  rfl

theorem specialRegistersHoldTheirValues : Rule.SpecialRegistersHoldTheirValues := by
  intro x hx s t
  simp only [specialTable, List.mem_cons, List.not_mem_nil, or_false] at hx
  rcases hx with rfl | rfl | rfl | rfl | rfl | rfl | rfl | rfl | rfl | rfl | rfl | rfl | rfl | rfl | rfl | rfl | rfl | rfl | rfl | rfl |
    rfl | rfl | rfl
  all_goals rfl

/-! SRD. -/

theorem wr32_setWidth (d : Opnd) (x : Word) (l : Label) : wr32 d x l = wrTy .b32 d (x.setWidth 64) l := by
  have hlo : DWord.lo (x.setWidth 64) = x := by simp [DWord.lo]
  conv => lhs; rw [← hlo]
  rfl

/-- What SRD does for a thread. -/
def srdEff (f : Fields) (s : State) (t : Nat) : Res :=
  .go { writes := wr32 f.d (srdValue s t (kIndex f.a)) (labelOf s 0x08B f t), high := some (srdShadow s t (kIndex f.a)) }

theorem srdEff_eq (f : Fields) (s : State) (u : Nat) : srdEff f s u =
    .go (resultPredsEff .b32 f.d ((srdValue s u (kIndex f.a)).setWidth 64) (labelOf s 0x08B f u) [] (some (srdShadow s u (kIndex f.a)))) := by
  rw [srdEff, wr32_setWidth, resultPredsEff, predWrs, List.map_nil, List.append_nil]

theorem exec_srd {f : Fields} {s : State} (h : ∀ u ∈ s.group, trapRegOutside (kIndex f.a) s u = false) :
    exec (.srd f) s = .next (runGroup 0x08B f [] [] (srdEff f) s) :=
  congrArg Host.Outcome.next (runLegal_of_legal (run := runGroup 0x08B f [] [] (srdEff f)) h)

theorem srdValue_eq (s : State) (t n : Nat) : srdValue s t n = match (s.thread t).highShadow with
    | some (lo, h) => if n = lo + 1 then h else special s t n
    | none => special s t n := by
  rw [srdValue]
  rcases (s.thread t).highShadow with - | ⟨lo, h⟩
  · rfl
  · exact if_congr eq_comm rfl rfl

theorem srdReadsSpecialRegisters : Rule.SrdReadsSpecialRegisters := by
  intro f s t h hlegal
  obtain ⟨u, hu, hg, hgu, hun, hv, -⟩ := runGroup_resultPreds_result h (srdEff_eq f s)
  refine ⟨_, exec_srd hlegal, ⟨u, hu, hg, hgu, hun, ?_⟩, (runGroup_moved h (srdEff_eq f s t) rfl rfl).highShadow,
    runGroup_resultPreds h rfl (srdEff_eq f s) (fun _ _ => by simp)⟩
  rw [srdValue_eq] at hv
  exact hv

/-! SWR. -/

/-- What SWR does for a thread. -/
def swrEff (f : Fields) (s : State) (t : Nat) : Res :=
  .go { writes := [.ctl (labelOf s 0x08C f t)], trappc := some (swrPc (s.thread t).trappc (kIndex f.d) (read32 s t f.a)) }

theorem exec_swr {f : Fields} {s : State} (h : ∀ u ∈ s.group, trapRegOutside (kIndex f.d) s u = false) :
    exec (.swr f) s = .next (runGroup 0x08C f [] [] (swrEff f) s) :=
  congrArg Host.Outcome.next (runLegal_of_legal (run := runGroup 0x08C f [] [] (swrEff f)) h)

theorem swrPc_toNat (old : Pc) (n : Nat) (x : Word) : (swrPc old n x).toNat =
    if n = 225 then old.toNat / 2 ^ 32 * 2 ^ 32 + x.toNat else x.toNat % 2 ^ 16 * 2 ^ 32 + old.toNat % 2 ^ 32 := by
  have ho := old.isLt
  have hx := x.isLt
  simp only [swrPc]
  split <;> rw [BitVec.toNat_ofNat] <;> omega

theorem swrWritesTheReturnAddress : Rule.SwrWritesTheReturnAddress := by
  intro f s t h hin _
  have hlegal : ∀ u ∈ s.group, trapRegOutside (kIndex f.d) s u = false := fun u hu => by simp [trapRegOutside, hin u hu]
  have heff : ∀ u e, swrEff f s u = .go e → (∀ w ∈ e.writes, w.within [] [] [] []) ∧ e.part = none ∧ e.accesses = [] := by
    intro u e he
    obtain rfl := Res.go.inj he
    exact ⟨fun w hw => by rw [List.mem_singleton.mp hw]; trivial, rfl, rfl⟩
  have hm := runGroup_moved (eff := swrEff f) h rfl rfl rfl
  refine ⟨_, exec_swr hlegal, ?_, ?_, hm.pc, ?_, runGroup_others (fun u e he => ⟨(heff u e he).1, (heff u e he).2.1⟩),
    runGroup_unsent (fun u e he => (heff u e he).2.2)⟩
  · rw [hm.trappc]
    exact swrPc_toNat _ _ _
  · exact runGroup_joins h rfl (fun u e he => (heff u e he).1) ⟨_, List.mem_singleton_self _, rfl⟩
  · rw [hm.trappc]
    exact hm.kept

/-- Settles O5: the table by its rows; SRD and SWR run for the whole group where no thread of it is refused. -/
theorem specialRegisters : Obligations.SpecialRegisters :=
  ⟨specialRegistersHoldTheirValues, srdReadsSpecialRegisters, swrWritesTheReturnAddress⟩

end Sys2Proof.Machine
end

section
/-! O8: branches (R81, R131, R135, R140, R401). -/

namespace Sys2Proof.Machine

/-! What an issue leaves of the machine around the threads. -/

/-- The cores with their record queues and the units. -/
def State.slots (s : State) : Tab Core × Tab Unit := (s.cores, s.units)

theorem applyWr_slots (a b : Bool) (t : Nat) (s : State) (w : Wr) : (applyWr a b t s w).slots = s.slots := by
  cases w <;> simp only [applyWr] <;> (try split) <;> rfl

theorem applyWrs_slots (a b : Bool) (t : Nat) (s : State) (ws : List Wr) : (applyWrs a b t s ws).slots = s.slots :=
  foldl_keeps _ State.slots _ _ (fun _ _ _ => applyWr_slots _ _ _ _ _)

theorem applyWr_inTrap (a b : Bool) (t u : Nat) (s : State) (w : Wr) : ((applyWr a b t s w).thread u).inTrap = (s.thread u).inTrap := by
  by_cases hu : u = t
  · subst hu
    cases w with
    | reg r x l =>
      simp only [applyWr]
      split
      · rfl
      · simp only [State.thread_modGang, State.thread_modThread, if_true, Thread.setReg, Thread.markFull]
        split <;> rfl
    | pred n v l =>
      simp only [applyWr]
      split
      · rename_i hn
        simp [Thread.setPred, Thread.setPend, hn]
      · rfl
    | _ => rfl
  · rw [applyWr_thread_ne a b hu]

theorem applyWrs_inTrap (a b : Bool) (t u : Nat) (s : State) (ws : List Wr) :
    ((applyWrs a b t s ws).thread u).inTrap = (s.thread u).inTrap :=
  foldl_keeps _ (fun s => (State.thread s u).inTrap) _ _ (fun _ _ _ => applyWr_inTrap _ _ _ _ _ _)

theorem applyWr_ctl (a b : Bool) (t : Nat) (s : State) {w : Wr} (h : ∀ l, ¬ w.joins l) (g : Nat) :
    ((applyWr a b t s w).gang g).ctl = (s.gang g).ctl := by
  cases w with
  | reg r x l =>
    simp only [applyWr]
    split
    · rfl
    · simp only [State.gang_modGang, State.gang_modThread, Gang.setTile]
      repeat' split
      all_goals rfl
  | uni r x l =>
    simp only [applyWr, State.gang_modGang, Gang.setSregLabel, Gang.setSreg]
    repeat' split
    all_goals rfl
  | rcd r x l =>
    simp only [applyWr, State.gang_modGang]
    split <;> rfl
  | pred n v l =>
    have hn : ¬ n < 7 := fun hn => h l ⟨hn, rfl⟩
    simp only [applyWr, if_neg hn]
  | ctl l => exact absurd rfl (h l)

theorem applyWrs_ctl (a b : Bool) (t : Nat) (s : State) {ws : List Wr} (h : ∀ w ∈ ws, ∀ l, ¬ w.joins l) (g : Nat) :
    ((applyWrs a b t s ws).gang g).ctl = (s.gang g).ctl :=
  foldl_keeps _ (fun s => (State.gang s g).ctl) _ _ (fun _ w hw => applyWr_ctl _ _ _ _ (h w hw) _)

theorem wrTy_joins {ty : Ty} {d : Opnd} {v : DWord} {l : Label} {w : Wr} (hw : w ∈ wrTy ty d v l) (k : Label) : ¬ w.joins k := by
  simp only [wrTy, wr64, wr32] at hw
  cases d <;> (repeat' split at hw) <;> simp_all [Wr.joins]
  all_goals rcases hw with rfl | rfl <;> exact id

/-- Whether a thread must take a record, from the machine around the threads. -/
theorem State.mustDeliver_congr {s s' : State} {t : Nat} (hs : s'.slots = s.slots) (ht : (s'.thread t).inTrap = (s.thread t).inTrap) :
    s'.mustDeliver t = s.mustDeliver t := by
  obtain ⟨hc, hu⟩ := Prod.mk.inj hs
  simp only [State.mustDeliver, ht, State.pendingRecords, State.coreOfGang, State.core, State.unit, hc, hu]
  rfl

/-! A jump: writes, then another address than the next instruction's. -/

def jumpEff (ws : List Wr) (p : Pc) : Eff := { writes := ws, next := some p }

/-- A jump that is a trap-check point. -/
def checkedJump (ws : List Wr) (p : Pc) : Eff := { writes := ws, next := some p, check := true }

theorem jump_mustDeliver (f : Fields) (ws : List Wr) (p q : Pc) (a b c : Bool) (t : Nat) (s : State) :
    ((jumpEff ws p).leave f a c t q ((jumpEff ws p).act a b t s)).mustDeliver t = s.mustDeliver t := by
  refine State.mustDeliver_congr (applyWrs_slots a b t s ws) (Eq.trans ?_ (applyWrs_inTrap a b t t s ws))
  simp only [Eff.leave, retire, State.thread_modThread, if_true, State.charge_inTrap, State.thread_addAccesses]
  simp only [Eff.act, State.thread_countEvents, State.setTiles, jumpEff, State.thread_modThread, if_true]
  rfl

theorem jump_ctl (f : Fields) (l : Label) (ws : List Wr) (p : Pc) (a b c : Bool) (t : Nat) (s : State) (h : ∀ w ∈ ws, ∀ l, ¬ w.joins l) (g : Nat) :
    ((applyEff f l a b c t s (jumpEff ws p)).gang g).ctl = (s.gang g).ctl := applyWrs_ctl a b t s h g

/-- Where the thread has no record to take, the check at a jump finds none. -/
theorem applyEff_checkedJump (f : Fields) (l : Label) (ws : List Wr) (p : Pc) (a b c : Bool) (t : Nat) (s : State) (h : s.mustDeliver t = false) :
    applyEff f l a b c t s (checkedJump ws p) = applyEff f l a b c t s (jumpEff ws p) := by
  have hm := jump_mustDeliver f ws p p a b c t s
  rw [h] at hm
  show (checkedJump ws p).close l t p ((jumpEff ws p).leave f a c t p ((jumpEff ws p).act a b t s)) = _
  simp only [Eff.close, checkedJump, hm]
  rfl

section
variable {op : Nat} {f : Fields} {s : State} {t : Nat}

/-- A thread alone that jumps with no record to take. -/
theorem appliedAlone_checkedJump (ws : List Wr) (p : Pc) (h : s.mustDeliver t = false) :
    appliedAlone op f s t (checkedJump ws p) = appliedAlone op f s t (jumpEff ws p) :=
  applyEff_checkedJump _ _ _ _ _ _ _ _ _ h

/-- The control label that a branch leaves its only gang. -/
theorem runBranch_alone {eff : State → Nat → Res} {r : Res} (h : Alone s op f [] [] t) (he : eff s t = r) (hr : ∀ w, r ≠ .block w) :
    runBranch op f eff s =
      (runGroup op f [] [] eff s).modGang (gangOf t) (fun x => x.widen (branchLabel s op f (gangOf t))) := by
  have hj : judge s op f [] [] eff = [(t, some r)] := by
    simp [judge, State.readyGroup, h.alone, h.ready, judgeOne, h.toIssues.checkIn, he]
  simp only [runBranch, hj]
  cases r with
  | block w => exact absurd rfl (hr w)
  | trap k i a => rfl
  | go e => rfl

end

/-! The frame under a widened control label. -/

theorem GangKept.widen {x y : Gang} {ds ps us bs : List Nat} (h : GangKept x y ds ps us bs) (l : Label) : GangKept x (y.widen l) ds ps us bs :=
  ⟨h.sregs, h.records, h.tiles, h.preds, fun i hi => by simp [Gang.widen, h.control i hi], h.part⟩

theorem Others.widen {s s' : State} {ps ds : List Nat} (h : Others s s' ps ds) (g : Nat) (l : Label) :
    Others s (s'.modGang g (fun x => x.widen l)) ps ds := by
  refine ⟨fun k => ?_, h.memory⟩
  rw [State.gang_modGang]
  split
  · exact (h.gangs k).widen l
  · exact h.gangs k

theorem ResultTy.widen {s' : State} {t : Nat} {ty : Ty} {d : Opnd} {v : DWord} (h : ResultTy s' t ty d v) (g : Nat) (l : Label) :
    ResultTy (s'.modGang g (fun x => x.widen l)) t ty d v := by
  have hs : ∀ k n, ((s'.modGang g (fun x => x.widen l)).gang k).sreg n = (s'.gang k).sreg n := by
    intro k n
    rw [State.gang_modGang]
    split <;> rfl
  simp only [ResultTy, Result64, Result32, State.thread_modGang, hs] at h ⊢
  exact h

theorem Trapped.widen {s s' : State} {t kind : Nat} {ret : Pc} {info : Word} {handler : Pc} (h : Trapped s s' t kind ret info handler)
    (g : Nat) (l : Label) : Trapped s (s'.modGang g (fun x => x.widen l)) t kind ret info handler :=
  ⟨h.kind, h.ret, h.info, h.shadow, h.inTrap, h.pc, h.ready, h.regs, h.others.widen g l⟩

/-! The forms. -/

theorem badTarget_iff (x : Int) : badTarget x = true ↔ ¬ goodTarget x := by
  simp only [badTarget, goodTarget, Bool.or_eq_true, decide_eq_true_eq, bne_iff_ne]
  omega

/-- The link that a form writes. -/
def BranchForm.link (x : BranchForm) (f : Fields) (s : State) (t : Nat) : List Wr := if x.links then linkOf s x.op f t else []

def BranchForm.eff (x : BranchForm) (f : Fields) (s : State) (t : Nat) : Res := branchTo (x.target f s t) (x.link f s t)

theorem exec_branchForms : ∀ x ∈ branchForms, ∀ f s, exec (x.instr f) s = .next (runBranch x.op f (x.eff f) s) := by
  intro x hx f s
  simp only [branchForms, List.mem_cons, List.not_mem_nil, or_false] at hx
  rcases hx with rfl | rfl | rfl | rfl | rfl <;> rfl

theorem BranchForm.eff_good {x : BranchForm} {f : Fields} {s : State} {t : Nat} (h : goodTarget (x.target f s t)) :
    x.eff f s t = .go (checkedJump (x.link f s t) (BitVec.ofInt 48 (x.target f s t))) := by
  have hb : badTarget (x.target f s t) = false := Bool.eq_false_iff.mpr (fun hb => (badTarget_iff _).mp hb h)
  rw [BranchForm.eff, branchTo, hb]
  rfl

theorem BranchForm.eff_bad {x : BranchForm} {f : Fields} {s : State} {t : Nat} (h : ¬ goodTarget (x.target f s t)) :
    x.eff f s t = .trap 3 (BitVec.ofInt 32 (x.target f s t)) false := by
  rw [BranchForm.eff, branchTo, if_pos ((badTarget_iff _).mpr h)]
  rfl

theorem BranchForm.link_joins {x : BranchForm} {f : Fields} {s : State} {t : Nat} : ∀ w ∈ x.link f s t, ∀ l, ¬ w.joins l := by
  intro w hw
  simp only [BranchForm.link] at hw
  split at hw
  · exact wrTy_joins (ty := .n64) hw
  · simp at hw

theorem BranchForm.link_within {x : BranchForm} {f : Fields} {s : State} {t : Nat} :
    ∀ w ∈ x.link f s t, w.within (x.linkRegs f) [] (resultUnis .n64 f.d) [] := by
  intro w hw
  simp only [BranchForm.link, BranchForm.linkRegs] at hw ⊢
  split at hw
  · rename_i hl
    rw [if_pos hl]
    exact wrTy_within (ty := .n64) hw
  · simp at hw

/-- A target of the address space is its own address. -/
theorem goodTarget_toNat {x : Int} (h : goodTarget x) : ((BitVec.ofInt 48 x).toNat : Int) = x := by
  obtain ⟨h0, h1, -⟩ := h
  rw [BitVec.toNat_ofInt]
  omega

section
variable {op : Nat} {f : Fields} {s : State} {t : Nat} {ws : List Wr} {p : Pc} {ds us : List Nat}

/-- A thread alone that jumps, as the one thread of a group. -/
theorem runGroup_jump (h : Alone s op f [] [] t) :
    runGroup op f [] [] (fun _ _ => .go (jumpEff ws p)) s = appliedAlone op f s t (jumpEff ws p) := runGroup_go_alone h rfl

theorem jump_onThread (x : Thread) : Kept (ws.foldl Wr.onThread x) ((jumpEff ws p).onThread x) [] [] := by
  simp only [jumpEff, Eff.onThread, Eff.changed]
  generalize ws.foldl Wr.onThread x = y
  exact ⟨fun _ _ => ⟨rfl, rfl⟩, fun _ _ => ⟨rfl, rfl⟩, rfl, rfl, ⟨rfl, rfl, rfl, rfl⟩, rfl⟩

theorem jump_moved (h : Alone s op f [] [] t) :
    Thread.Moved ((jumpEff ws p).onThread (s.thread t)) ((appliedAlone op f s t (jumpEff ws p)).thread t) p := by
  rw [← runGroup_jump h]
  exact runGroup_moved h.toIssues rfl rfl rfl

theorem jump_kept (h : Alone s op f [] [] t) (hw : ∀ w ∈ ws, w.within ds [] us []) :
    Kept (s.thread t) ((appliedAlone op f s t (jumpEff ws p)).thread t) ds [] :=
  (Wr.foldl_kept hw _).trans (((jump_onThread _).trans (jump_moved h).kept).mono (List.nil_subset _) (List.nil_subset _))

theorem jump_others (h : Alone s op f [] [] t) (hw : ∀ w ∈ ws, w.within ds [] [] []) :
    Others s (appliedAlone op f s t (jumpEff ws p)) [] ds := by
  rw [← runGroup_jump h]
  exact runGroup_others (fun u e he => by obtain rfl := Res.go.inj he; exact ⟨hw, rfl⟩)

/-- The link of a jump: in per-thread registers, or in gang-uniform ones. -/
theorem jump_link {ty : Ty} {d : Opnd} {v : DWord} {l : Label} (h : Alone s op f [] [] t) :
    ResultTy (appliedAlone op f s t (jumpEff (wrTy ty d v l) p)) t ty d v := by
  by_cases hd : isUni d = false
  · exact resultTy_of_wrTy (l := l) (x := s.thread t) hd
      (fun r => ((jump_onThread (ws := wrTy ty d v l) (p := p) _).trans (jump_moved h).kept).regs r (by simp))
  · cases d with
    | s n =>
      have hu := runGroup_uni (ty := ty) (n := n) (val := fun _ => v) (lab := fun _ => l) (rest := fun _ => [])
        (e := fun _ => jumpEff (wrTy ty (.s n) v l) p) (eff := fun _ _ => .go (jumpEff (wrTy ty (.s n) v l) p)) h.toIssues
        (fun _ _ => rfl) (fun _ _ => by simp [jumpEff]) (fun _ _ _ h => by simp at h) (fun _ _ => rfl)
      rw [runGroup_jump h] at hu
      obtain ⟨u, -, -, -, hv, -⟩ := hu
      exact hv
    | _ => simp [isUni] at hd

end

theorem branchesReachTheirTargets : Rule.BranchesReachTheirTargets := by
  intro x hx f s t h hgood hd
  refine ⟨_, exec_branchForms x hx f s, ?_⟩
  rw [runBranch_alone h (BranchForm.eff_good hgood) (fun w => by simp), runGroup_go_alone h (BranchForm.eff_good hgood),
    appliedAlone_checkedJump _ _ hd]
  have hw := x.link_within (f := f) (s := s) (t := t)
  refine ⟨?_, fun hl => ?_, ?_, jump_kept h hw, fun hu => Others.widen (jump_others h (fun w hm => ?_)) _ _⟩
  · rw [State.thread_modGang, (jump_moved h).pc]
    exact goodTarget_toNat hgood
  · rw [BranchForm.link, if_pos hl]
    exact (jump_link (ty := .n64) h).widen _ _
  · rw [State.gang_modGang, if_pos rfl]
    exact congrArg (· ||| branchLabel s x.op f (gangOf t)) (jump_ctl f _ _ _ _ _ _ t s x.link_joins (gangOf t))
  · have := hw w hm
    cases hd : f.d with
    | s n => rw [hd] at hu; cases hu
    | _ => rw [hd] at this; exact this

theorem badBranchTargetsTrap : Rule.BadBranchTargetsTrap := by
  intro x hx f s t p h hbad hh hin
  refine ⟨_, exec_branchForms x hx f s, ?_⟩
  rw [runBranch_alone h (BranchForm.eff_bad hbad) (fun w => by simp), runGroup_trap_alone h (BranchForm.eff_bad hbad)]
  exact (issueTrap_trapped h.ready hh hin).widen _ _

/-- Settles O8: a branch is a jump of its thread, after which the control label widens; a bad target is a trap. -/
theorem branches : Obligations.Branches := ⟨branchesReachTheirTargets, badBranchTargetsTrap⟩

end Sys2Proof.Machine
end

section
/-! O11: false guards, empty sources, and traps that no handler takes (R90, R92, R124, R404, R407, R420). -/

namespace Sys2Proof.Machine

/-! Forms that run for their group. -/

/-- A form runs for its group through `runGroup` at its opcode. -/
def RunsGroup (x : (Fields → Instr) × Nat) : Prop :=
  ∀ f s, ∃ preds regs eff, exec (x.1 f) s = .next (runGroup x.2 f preds regs eff s)

theorem passOps_runGroup : ∀ x ∈ passOps, RunsGroup x := by
  repeat refine List.forall_mem_cons.mpr ⟨fun f s => ⟨_, _, _, rfl⟩, ?_⟩
  exact List.forall_mem_nil _

theorem resultOps_runGroup (x : (Fields → Instr) × Nat) (hx : x ∈ resultOps) : RunsGroup x :=
  passOps_runGroup x (by simp only [passOps, List.append_assoc]; exact List.mem_append_left _ hx)

/-! One thread at its tests. -/

section
variable {op : Nat} {f : Fields} {preds regs : List Nat} {eff : State → Nat → Res} {s : State} {t : Nat}

theorem runGroup_judged (hg : s.group = [t]) (hr : (s.thread t).sched = .ready) {r : Option Res} (hj : judgeOne s op f preds regs eff t = r) :
    runGroup op f preds regs eff s = applyRes op f s [(t, r)] s (t, r) := by
  have hl : judge s op f preds regs eff = [(t, r)] := by simp [judge, State.readyGroup, hg, hr, hj]
  simp only [runGroup, hl, List.foldl_cons, List.foldl_nil]

theorem judgeOne_falseGuard (hp : (s.thread t).pending f.gp.toNat = false) (hf : guardTrue s t f = false) :
    judgeOne s op f preds regs eff t = none := by
  simp [judgeOne, checkIn, hp, hf]

theorem judgeOne_emptyTraps (h : Guarded s f t) {q : Slot × Opnd × Bool × Nat}
    (hq : (sourcesOf op f).find? (fun q => q.2.2.1 && (sourceEmpty s t q.1 q.2.1).isSome) = some q) :
    judgeOne s op f preds regs eff t = some (.trap 5 (BitVec.ofNat 32 q.2.2.2) false) := by
  simp [judgeOne, checkIn, h.settled, h.guard, hq]

theorem judgeOne_emptyWaits (h : Guarded s f t) {r : Nat}
    (hn : (sourcesOf op f).find? (fun q => q.2.2.1 && (sourceEmpty s t q.1 q.2.1).isSome) = none)
    (hr : (sourcesOf op f).findSome? (fun q => sourceEmpty s t q.1 q.2.1) = some r) :
    judgeOne s op f preds regs eff t = some (.block (.reg r)) := by
  simp [judgeOne, checkIn, h.settled, h.guard, hn, hr]

end

theorem falseGuardsPass : Rule.FalseGuardsPass := by
  intro x hx f s t hg hr hp hf
  obtain ⟨preds, regs, eff, hexec⟩ := passOps_runGroup x hx f s
  rw [runGroup_judged hg hr (judgeOne_falseGuard hp hf)] at hexec
  have hm := retire_moved s f f.yld (nextPc s.pc) t
  refine ⟨_, hexec, hm.pc, ?_, hm.kept, rfl, rfl, rfl⟩
  show ((retire s f f.yld (nextPc s.pc) t).thread t).sched = .ready
  simp [retire, hr]

theorem GangKept.refl (x : Gang) (ds ps us bs : List Nat) : GangKept x x ds ps us bs :=
  ⟨fun _ _ => ⟨rfl, rfl⟩, fun _ _ => ⟨rfl, rfl⟩, fun _ _ => rfl, fun _ _ => rfl, fun _ h => h, rfl⟩

theorem emptySourcesTrapOrWait : Rule.EmptySourcesTrapOrWait := by
  intro x hx f s t h
  obtain ⟨preds, regs, eff, hexec⟩ := resultOps_runGroup x hx f s
  refine ⟨fun q p hq hh hin => ?_, fun r hn hr => ?_⟩
  · rw [runGroup_judged h.group h.ready (judgeOne_emptyTraps h hq)] at hexec
    exact ⟨_, hexec, issueTrap_trapped h.ready hh hin⟩
  · rw [runGroup_judged h.group h.ready (judgeOne_emptyWaits h hn hr)] at hexec
    refine ⟨_, hexec, ?_, fun g => .refl _ _ _ _ _, fun _ => rfl⟩
    show (s.block t (.reg r)).thread t = _
    simp [State.block, Thread.goTo, h.ready]

/-! The end of a unit. -/

/-- A thread as the end of its gang leaves it. -/
def exitAll (s : State) (ts : List Nat) : State :=
  ts.foldl (fun s t => s.modThread t (fun x => { x with sched := .exited, inTrap := false, turns := x.turns + 1 })) s

theorem exitAll_sched {ts : List Nat} {u : Nat} (s : State) (h : (s.thread u).sched = .exited ∨ u ∈ ts) :
    ((exitAll s ts).thread u).sched = .exited := by
  induction ts generalizing s with
  | nil => exact h.resolve_right (by simp)
  | cons t ts ih =>
    refine ih _ ?_
    by_cases hu : u = t
    · exact .inl (by simp [hu])
    · exact h.imp (fun h => by simpa [hu] using h) (fun h => (List.mem_cons.mp h).resolve_left hu)

theorem exitAll_gang (s : State) (ts : List Nat) (g : Nat) : (exitAll s ts).gang g = s.gang g :=
  foldl_keeps _ (fun s => State.gang s g) _ _ (fun _ _ _ => rfl)

theorem terminateGang_sched {s : State} {g u : Nat} (h : (s.thread u).sched = .exited ∨ u ∈ s.threadsOfGang g) :
    ((s.terminateGang g).thread u).sched = .exited := exitAll_sched s h

theorem terminateGang_lanes (s : State) (g k : Nat) : ((s.terminateGang g).gang k).lanes = (s.gang k).lanes := by
  have hend : ∀ b : State, ((b.endGang g).gang k).lanes = (b.gang k).lanes := by
    intro b
    simp only [State.endGang, State.gang_modGang, State.gang_dropRecords]
    split <;> rfl
  exact (hend _).trans (congrArg Gang.lanes (exitAll_gang s (s.threadsOfGang g) k))

theorem terminateGang_threadsOfGang (s : State) (g k : Nat) : (s.terminateGang g).threadsOfGang k = s.threadsOfGang k := by
  simp only [State.threadsOfGang, terminateGang_lanes]

/-- Every thread of the gangs that end is exited. -/
theorem terminateGangs_sched {gs : List Nat} {u : Nat} (s : State) (h : (s.thread u).sched = .exited ∨ ∃ g ∈ gs, u ∈ s.threadsOfGang g) :
    ((gs.foldl State.terminateGang s).thread u).sched = .exited := by
  induction gs generalizing s with
  | nil => exact h.resolve_right (by simp)
  | cons g gs ih =>
    refine ih _ ?_
    simp only [terminateGang_threadsOfGang]
    rcases h with h | ⟨k, hk, hu⟩
    · exact .inl (terminateGang_sched (.inl h))
    · rcases List.mem_cons.mp hk with rfl | hk
      · exact .inl (terminateGang_sched (.inr hu))
      · exact .inr ⟨k, hk, hu⟩

theorem terminateUnit_sched {s : State} {k u : Nat} (h : u ∈ s.threadsOfUnit k) : ((s.terminateUnit k).thread u).sched = .exited :=
  terminateGangs_sched s (.inr (List.mem_flatMap.mp h))

theorem terminateUnit_faulted (s : State) (k : Nat) : ((s.terminateUnit k).unit k).faulted = true := by
  simp [State.terminateUnit, State.modUnit]

/-- A trap that no handler takes ends the unit. -/
theorem takeTrap_ends {s : State} {t kind : Nat} {ret : Pc} {info : Word} {l : Label}
    (h : (s.launchOf t).handler = none ∨ (s.thread t).inTrap = true) : takeTrap s t kind ret info l = s.terminateUnit (unitOfThread t) := by
  unfold takeTrap
  split
  · rfl
  · rename_i p hp
    rw [if_pos (h.resolve_left (by rw [hp]; simp))]

theorem issueTrap_ends {s : State} {t kind : Nat} {ret : Pc} {info : Word} {l : Label}
    (h : (s.launchOf t).handler = none ∨ (s.thread t).inTrap = true) :
    ((issueTrap s t kind ret info l).unit (unitOfThread t)).faulted = true ∧
      ∀ u ∈ s.threadsOfUnit (unitOfThread t), ((issueTrap s t kind ret info l).thread u).sched = .exited := by
  have ht : takeTrap (s.charge t) t kind ret info l = (s.charge t).terminateUnit (unitOfThread t) :=
    takeTrap_ends (h.imp id (fun h => by simpa using h))
  rw [issueTrap, ht]
  refine ⟨terminateUnit_faulted (s.charge t) _, fun u hu => ?_⟩
  rw [State.thread_modThread]
  have hx := terminateUnit_sched (s := s.charge t) hu
  split <;> exact hx

theorem trapsWithoutHandlerTerminate : Rule.TrapsWithoutHandlerTerminate := by
  intro f s t h
  refine ⟨fun ha => ⟨_, rfl, ?_⟩, fun ha => ⟨_, rfl, ?_⟩⟩
  · rw [runGroup_trap_alone ha rfl]
    exact issueTrap_ends h
  · rw [runGroup_trap_alone ha rfl]
    exact issueTrap_ends h

/-- Settles O11: one thread is judged by its guard and its sources, and a trap without a handler is the end of its unit. -/
theorem guardsSourcesAndHandlers : Obligations.GuardsSourcesAndHandlers :=
  ⟨falseGuardsPass, emptySourcesTrapOrWait, trapsWithoutHandlerTerminate⟩

end Sys2Proof.Machine
end

section
/-! O56: what a step takes, and what a core's turn leaves before its instruction runs (R80, R116, R118, R120, R124, R129). -/

namespace Sys2Proof.Machine

/-! What a step takes. -/

section
variable {s : State}

theorem step_of_unbooted (h : unbooted s = true) : step s = exec .powerUpReset s := by rw [step, if_pos h]

theorem step_of_due (hu : unbooted s = false) (h : bootDue s = true) : step s = .next (s.setBoot (s.boot.proceed s.time)) := by
  rw [step, if_neg (by simp [hu]), if_pos h]

theorem step_of_held {m : Message} {s' : State} (hu : unbooted s = false) (hb : bootDue s = false) (h : heldMessage s = some (m, s')) :
    step s = runMessage m s' := by
  rw [step, if_neg (by simp [hu]), if_neg (by simp [hb]), h]

theorem step_of_timed {i : Instr} (hu : unbooted s = false) (hb : bootDue s = false) (hm : heldMessage s = none) (h : timedDue s = some i) :
    step s = exec i s := by
  rw [step, if_neg (by simp [hu]), if_neg (by simp [hb]), hm]
  simp only [h]

theorem step_of_agenda {x : Turn} {rest : List Turn} (hu : unbooted s = false) (hb : bootDue s = false) (hm : heldMessage s = none)
    (ht : timedDue s = none) (h : s.agenda = x :: rest) : step s = runTurn x rest s := by
  rw [step, if_neg (by simp [hu]), if_neg (by simp [hb]), hm]
  simp only [ht, h]

theorem step_of_idle (hu : unbooted s = false) (hb : bootDue s = false) (hm : heldMessage s = none)
    (ht : timedDue s = none) (h : s.agenda = []) : step s = runIdle s := by
  rw [step, if_neg (by simp [hu]), if_neg (by simp [hb]), hm]
  simp only [ht, h]

theorem runMessage_of_decodes {m : Message} {i : Instr} (h : decodeMessage m = some i) : runMessage m s = exec i s := by
  simp only [runMessage, h]

/-! The passing of time. The definition is opened unapplied, as in `pass_advances`. -/

theorem pass_before {k dt : Nat} (h : nextMoment s = some k) (hk : k < s.time + dt) : pass s dt = (false, advance s (k - s.time)) := by
  have e : pass = pass := rfl
  conv_rhs at e => delta pass
  rw [e]
  beta_reduce
  rw [h]
  exact if_pos hk

theorem pass_whole {dt : Nat} (h : ∀ k, nextMoment s = some k → s.time + dt ≤ k) : pass s dt = (true, advance s dt) := by
  have e : pass = pass := rfl
  conv_rhs at e => delta pass
  rw [e]
  beta_reduce
  generalize nextMoment s = o at h
  cases o with
  | none => rfl
  | some k => exact if_neg (Nat.not_lt.mpr (h k rfl))

theorem AgendaMoves.step_eq {d : Nat} {m : Move} {rest : List Turn} (h : AgendaMoves s d m rest) :
    step s = runMove m (afterDelay s d rest) := by
  rw [step_of_agenda h.boot.1 h.boot.2 h.waiting h.timed h.agenda, runTurn, pass_whole h.moment]
  rfl

/-- A moment within a delay comes first, and the delay that is left stays. -/
theorem runTurn_before {k d : Nat} {m : Move} {rest : List Turn} (h : nextMoment s = some k) (hk : k < s.time + d) :
    runTurn { delay := d, move := m } rest s =
      .next ((advance s (k - s.time)).setAgenda ({ delay := d - (k - s.time), move := m } :: rest)) := by
  have ht : (advance s (k - s.time)).time - s.time = k - s.time := Nat.add_sub_cancel_left s.time (k - s.time)
  rw [runTurn, pass_before h hk]
  simp only [Bool.false_eq_true, if_false, ht]

theorem runIdle_of_due {i : Instr} (h : dueNow s = some i) : runIdle s = exec i s := by simp only [runIdle, h]

theorem runIdle_of_core {c : Nat} (hd : dueNow s = none) (h : nextCore s = some c) : runIdle s = runCore c s := by simp only [runIdle, hd, h]

theorem runIdle_of_none (hd : dueNow s = none) (h : nextCore s = none) : runIdle s = .next (pass s 5).2 := by simp only [runIdle, hd, h]

end

/-! What the passing of time and the core's table leave. -/

/-- A thread stands as before, but for what issue keeps of it. -/
def Thread.Stands (x y : Thread) : Prop := y.pc = x.pc ∧ Kept x y [] [] ∧ y.sched = x.sched

theorem Thread.Stands.refl (x : Thread) : x.Stands x := ⟨rfl, .refl _ _ _, rfl⟩

theorem Thread.Stands.trans {x y z : Thread} (h : x.Stands y) (k : y.Stands z) : x.Stands z :=
  ⟨k.1.trans h.1, h.2.1.trans k.2.1, k.2.2.trans h.2.2⟩

theorem Thread.stands_overflowed (x : Thread) (b : Bool) : x.Stands { x with overflowed := b } :=
  ⟨rfl, ⟨fun _ _ => ⟨rfl, rfl⟩, fun _ _ => ⟨rfl, rfl⟩, rfl, rfl, ⟨rfl, rfl, rfl, rfl⟩, rfl⟩, rfl⟩

/-- What stands around the threads: gangs, units, memory, the last serial number. -/
def State.around (s : State) : Tab Gang × Tab Unit × Memory × Nat := (s.gangs, s.units, s.mem, s.fresh)

theorem noteRequestsOf_ground (s : State) (p : Nat) : (noteRequestsOf s p).around = s.around ∧ (noteRequestsOf s p).threads = s.threads :=
  ⟨rfl, rfl⟩

theorem advance_ground (s : State) (dt : Nat) : (advance s dt).around = s.around ∧ (advance s dt).threads = s.threads := by
  have hsteps : ∀ {β : Type} (v : State → β), (∀ s p, v (noteRequestsOf s p) = v s) → (∀ s p a n, v (chargeAccount s p a n) = v s) →
      (∀ (s : State) t x, v { s with time := t, slices := x } = v s) → v (advance s dt) = v s := by
    intro β v hn hc ht
    rw [advance]
    refine (ht _ _ _).trans ((foldl_keeps _ v _ _ (fun b a _ => ?_)).trans ((foldl_keeps _ v _ _ (fun b a _ => ?_)).trans
      (foldl_keeps _ v _ _ (fun b a _ => hn b a))))
    · split
      · exact hc _ _ _ _
      · rfl
    · split
      · exact hc _ _ _ _
      · rfl
  exact ⟨hsteps State.around (fun _ _ => rfl) (fun _ _ _ _ => rfl) (fun _ _ _ => rfl),
    hsteps State.threads (fun _ _ => rfl) (fun _ _ _ _ => rfl) (fun _ _ _ => rfl)⟩

theorem updateTable_around (s : State) (core : Nat) : (updateTable s core).around = s.around :=
  foldl_keeps _ State.around _ _ (fun b t _ => by split <;> rfl)

theorem updateTable_stands (s : State) (core t : Nat) : (s.thread t).Stands ((updateTable s core).thread t) := by
  refine List.foldlRecOn (motive := fun b : State => (s.thread t).Stands (b.thread t)) _ _ (Thread.Stands.refl _) (fun b hb u _ => ?_)
  split
  · exact hb
  · rw [State.thread_modThread]
    split
    · exact hb.trans (Thread.stands_overflowed _ _)
    · exact hb

/-- What the builder has done to a thread: nothing, or it holds it as it reached its form. -/
def Builds (s0 s3 : State) (core t : Nat) : Prop :=
  (s3.thread t).pc = (s0.thread t).pc ∧ Kept (s0.thread t) (s3.thread t) [] [] ∧ ((s3.thread t).sched = (s0.thread t).sched ∨
    ∃ h, s0.coreOf t = core ∧ reaches (updateTable s0 core) t = some h ∧ (s3.thread t).sched = .blocked h)

theorem coreOf_congr {s s' : State} (h : s'.around = s.around) (t : Nat) : s'.coreOf t = s.coreOf t := by
  have hu : s'.units = s.units := congrArg (fun x => x.2.1) h
  simp only [State.coreOf, State.coreOfGang, State.unit, hu]
  rfl

theorem mem_reachers {s : State} {core : Nat} {e : Nat × Why} (h : e ∈ reachers s core) : s.coreOf e.1 = core ∧ reaches s e.1 = some e.2 := by
  obtain ⟨x, hx, he⟩ := List.mem_filterMap.mp h
  obtain ⟨w, hw, rfl⟩ := Option.map_eq_some_iff.mp he
  exact ⟨beq_iff_eq.mp (List.mem_filter.mp hx).2, hw⟩

theorem refresh_around (s : State) (core : Nat) : (refresh s core).around = s.around := by
  rw [refresh]
  split
  · rfl
  · exact (foldl_keeps (fun (s' : State) (e : Nat × Why) => s'.block e.1 e.2) State.around _ _ (fun _ _ _ => rfl)).trans
      (updateTable_around s core)

/-- A thread that the builder blocks was not exited and is held as it reached its form; one that had exited stays so. -/
theorem Builds.block {s0 b : State} {core t : Nat} (h : Builds s0 b core t) {e : Nat × Why} (he : s0.coreOf e.1 = core)
    (hr : reaches (updateTable s0 core) e.1 = some e.2) : Builds s0 (b.block e.1 e.2) core t := by
  obtain ⟨hpc, hk, hs⟩ := h
  have hb := Kept.of_body (b.block_body t e.1 e.2)
  refine ⟨hb.1.trans hpc, hk.trans hb.2, ?_⟩
  simp only [State.block, State.thread_modThread]
  split
  · rename_i ht
    subst ht
    by_cases hx : (b.thread e.1).sched = .exited
    · rcases hs with hs | ⟨w, -, -, hw⟩
      · exact .inl (by simp [Thread.goTo, hx, ← hs])
      · rw [hw] at hx; cases hx
    · exact .inr ⟨e.2, he, hr, by simp [Thread.goTo, hx]⟩
  · exact hs

theorem refresh_builds (s : State) (core t : Nat) : Builds s (refresh s core) core t := by
  rw [refresh]
  split
  · exact ⟨rfl, .refl _ _ _, .inl rfl⟩
  · obtain ⟨hpc, hk, hs⟩ := updateTable_stands s core t
    refine List.foldlRecOn (motive := fun b : State => Builds s b core t) _ _ ⟨hpc, hk, .inl hs⟩ (fun b hb e he => ?_)
    obtain ⟨hc, hr⟩ := mem_reachers he
    exact hb.block ((coreOf_congr (updateTable_around s core) e.1).symm.trans hc) hr

/-! The latch and the port. -/

theorem latch_threads (s : State) (core : Nat) (ts : List Nat) : (latch s core ts).threads = s.threads := rfl

section
variable {s s0 s1 s2 : State} {core : Nat} {ts : List Nat} {bs : List Byte} {i : Instr}

theorem Fetches.group_eq (h : Fetches s0 s1 s2 core ts bs) : s2.group = ts := by rw [h.latched]; rfl
theorem Fetches.core_eq (h : Fetches s0 s1 s2 core ts bs) : s2.issue.core = core := by rw [h.latched]; rfl

theorem withGroup_all (p : Nat → Bool) (h : ∀ t ∈ s.group, p t = true) : s.withGroup (s.group.filter p) = s := by
  rw [List.filter_eq_self.mpr h]
  rfl

theorem mem_of_mem_distinct {l : List Nat} {u : Nat} (h : u ∈ distinct l) : u ∈ l := by
  have hall : ∀ v ∈ distinct l, v ∈ l := by
    refine List.foldlRecOn (motive := fun acc => ∀ v ∈ acc, v ∈ l) l _ (by simp) (fun acc ha x hx v hv => ?_)
    split at hv
    · exact ha v hv
    · rcases List.mem_append.mp hv with hv | hv
      · exact ha v hv
      · exact List.mem_singleton.mp hv ▸ hx
  exact hall u h

theorem dropCancelled_of_live (h : ∀ t ∈ s.group, (s.unit (unitOfThread t)).cancelled = false) : dropCancelled s = s := by
  have hus : (distinct (s.group.map unitOfThread)).filter (fun u => (s.unit u).cancelled) = [] := by
    refine List.filter_eq_nil_iff.mpr (fun u hu => ?_)
    obtain ⟨t, ht, rfl⟩ := List.mem_map.mp (mem_of_mem_distinct hu)
    simp [h t ht]
  simp only [dropCancelled, hus, List.foldl_nil]
  exact withGroup_all _ (fun _ _ => rfl)

theorem enterHandlers_of_none (h : ∀ t ∈ s.group, mustEnter s t = false) : enterHandlers s = s := by
  have hts : s.group.filter (mustEnter s) = [] := List.filter_eq_nil_iff.mpr (fun t ht => by simp [h t ht])
  simp only [enterHandlers, hts, List.foldl_nil]
  exact withGroup_all _ (fun _ _ => rfl)

/-- The fetch of the latched group comes to the instruction that its bytes decode to. -/
theorem Fetches.fetchGroup_eq (h : Fetches s0 s1 s2 core ts bs) (hi : decodeBytes (s2.launchOf (ts.headD 0)).kernel.regs bs = .ok i) :
    fetchGroup s2 = .ok i := by
  obtain ⟨ps, hreach, hout, hraw⟩ := h.page
  obtain ⟨x, hx, rfl⟩ := Option.map_eq_some_iff.mp hraw
  simp only [fetchGroup, h.group_eq, h.core_eq, fetchAt, hreach, hout, hx, fetched, hi]
  rfl

theorem Fetches.runCore_eq (h : Fetches s0 s1 s2 core ts bs) (hi : decodeBytes (s2.launchOf (ts.headD 0)).kernel.regs bs = .ok i) :
    runCore core s0 = exec i (occupy (some i) s2) := by
  have hg := h.group_eq
  have hdrop : dropCancelled s2 = s2 := dropCancelled_of_live (by rw [hg]; exact h.live)
  have henter : enterHandlers s2 = s2 := enterHandlers_of_none (by rw [hg]; exact h.entering)
  have hgroup : chooseGroup (refresh s0 core) core = ts := h.table ▸ h.group
  have hlatch : latch (refresh s0 core) core ts = s2 := h.table ▸ h.latched.symm
  have hturn : coreTurn s0 core = fetchTurn s2 := by
    obtain ⟨t, ts', rfl⟩ := List.exists_cons_of_ne_nil h.nonempty
    simp only [coreTurn, hgroup, hlatch, hdrop, henter]
  have hne : s2.group.isEmpty = false := by rw [hg]; exact List.isEmpty_eq_false_iff.mpr h.nonempty
  simp only [runCore, hturn, fetchTurn, hne, h.fetchGroup_eq hi]
  rfl

end

end Sys2Proof.Machine
end

section
/-! O56: the port that a group takes, and the step that runs its instruction (R98, R120, R129). -/

namespace Sys2Proof.Machine

section
variable {s s0 s1 s2 : State} {core : Nat} {ts : List Nat} {bs : List Byte} {i : Instr}

/-! The port that a group takes. -/

theorem slice_issued (s : State) (k n j : Nat) : ((s.modSlice k (fun x => x.issued n)).slice j).ready = (s.slice j).ready ∧
    ((s.modSlice k (fun x => x.issued n)).slice j).clkBase = (s.slice j).clkBase := by
  simp only [State.modSlice, State.slice_setSlice]
  split
  · rename_i h
    subst h
    exact ⟨rfl, rfl⟩
  · exact ⟨rfl, rfl⟩

theorem passCodeOf_issued (s : State) (k n core : Nat) : (s.modSlice k (fun x => x.issued n)).passCodeOf core = s.passCodeOf core := by
  simp only [State.passCodeOf, slice_issued]
  rfl

theorem coreClk_issued (s : State) (k n core : Nat) : coreClk (s.modSlice k (fun x => x.issued n)) core = coreClk s core := by
  simp only [coreClk, State.clkStart, slice_issued]
  rfl

/-- The ports of a core after a group has taken one. -/
theorem occupyPort_ports (gs : List Nat) (s : State) :
    (((occupyPort gs s).core s.issue.core).portA, ((occupyPort gs s).core s.issue.core).portB) =
      if (s.core s.issue.core).portA ≤ coreClk s s.issue.core then (coreClk s s.issue.core + 5 * (occupyPort gs s).issue.span, (s.core s.issue.core).portB)
      else ((s.core s.issue.core).portA, coreClk s s.issue.core + 5 * (occupyPort gs s).issue.span) := by
  have hcore : (occupyPort gs s).core s.issue.core = if (s.core s.issue.core).portA ≤ coreClk s s.issue.core
      then { s.core s.issue.core with portA := coreClk s s.issue.core + 5 * (occupyPort gs s).issue.span }
      else { s.core s.issue.core with portB := coreClk s s.issue.core + 5 * (occupyPort gs s).issue.span } := by
    simp only [occupyPort, State.modCore, State.core_setCore, if_true]
    rfl
  rw [hcore]
  split <;> rfl

/-- What an issuing group's state is before its instruction runs. -/
theorem occupy_of_issuers (h : s.issuers i ≠ []) : occupy (some i) s =
    occupyPort (passGangs i (s.issuers i)) (s.modSlice (s.issue.core / 40) (fun x => x.issued (s.issuers i).length)) := by
  have hne : (s.issuers i).isEmpty = false := List.isEmpty_eq_false_iff.mpr h
  simp only [occupy, hne]
  rfl

theorem occupy_of_no_issuers (h : s.issuers i = []) : occupy (some i) s = s := by
  simp only [occupy, h]
  rfl

theorem occupy_ground (i : Instr) (s : State) : (occupy (some i) s).around = s.around ∧ (occupy (some i) s).threads = s.threads := by
  by_cases h : s.issuers i = []
  · rw [occupy_of_no_issuers h]
    exact ⟨rfl, rfl⟩
  · rw [occupy_of_issuers h]
    exact ⟨rfl, rfl⟩

theorem occupy_latch (i : Instr) (s : State) : (occupy (some i) s).issue.core = s.issue.core ∧ (occupy (some i) s).issue.pc = s.issue.pc ∧
    (occupy (some i) s).issue.threads = s.issue.threads ∧ (occupy (some i) s).issue.serial = s.issue.serial := by
  by_cases h : s.issuers i = []
  · rw [occupy_of_no_issuers h]
    exact ⟨rfl, rfl, rfl, rfl⟩
  · rw [occupy_of_issuers h]
    exact ⟨rfl, rfl, rfl, rfl⟩

theorem passGangs_of_fields {f : Fields} (h : i.fields = some f) (ts : List Nat) :
    passGangs i ts = if takesPasses (opcodeOf i) f then gangsOf ts else [] := by
  simp only [passGangs, h]

/-- The state that a core's turn leaves for its instruction, from the state at the turn. -/
theorem Fetches.issuing (h : Fetches s0 s1 s2 core ts bs) (hg : s0.around = s.around ∧ s0.threads = s.threads) (i : Instr) :
    Issuing s s0 s2 (occupy (some i) s2) core ts i := by
  obtain ⟨hcore, hpc, hthreads, hserial⟩ := occupy_latch i s2
  have hl := h.latched
  have ht := h.table
  have haround : s1.around = s.around := by rw [ht, refresh_around, hg.1]
  have hfresh : s1.fresh = s.fresh := congrArg (fun x => x.2.2.2) haround
  have hground := occupy_ground i s2
  have h2 : s2.gangs = s1.gangs ∧ s2.mem = s1.mem ∧ s2.threads = s1.threads := by rw [hl]; exact ⟨rfl, rfl, rfl⟩
  refine ⟨hcore.trans h.core_eq, hpc.trans ?_, hthreads.trans ?_, hserial.trans ?_, fun f hf hne => ?_, fun hne => ?_, ?_, ?_, ?_, fun t => ?_⟩
  · rw [hl]; rfl
  · rw [hl]; rfl
  · rw [hl]; exact congrArg (· + 1) hfresh
  · rw [occupy_of_issuers hne, ← passGangs_of_fields hf]
    rfl
  · rw [occupy_of_issuers hne, ← h.core_eq, ← passCodeOf_issued s2 (s2.issue.core / 40) (s2.issuers i).length]
    rfl
  · split
    · rename_i hno
      rw [occupy_of_no_issuers hno]
    · rename_i hne
      rw [occupy_of_issuers hne, ← h.core_eq, ← coreClk_issued s2 (s2.issue.core / 40) (s2.issuers i).length]
      exact occupyPort_ports (passGangs i (s2.issuers i)) (s2.modSlice (s2.issue.core / 40) (fun x => x.issued (s2.issuers i).length))
  · exact (congrArg (fun x => x.2.2.1) hground.1).trans (h2.2.1.trans (congrArg (fun x => x.2.2.1) haround))
  · exact (congrArg (fun x => x.1) hground.1).trans (h2.1.trans (congrArg (fun x => x.1) haround))
  · have hthread : (occupy (some i) s2).thread t = (refresh s0 core).thread t :=
      (State.threads_thread (hground.2.trans h2.2.2) t).trans (by rw [ht])
    obtain ⟨hp, hk, hs⟩ := refresh_builds s0 core t
    rw [hthread, ← State.threads_thread hg.2 t, ← coreOf_congr hg.1 t]
    exact ⟨hp, hk, hs⟩

end

/-- Settles O56: the order of `step`, and a core's turn whose group's bytes decode. -/
theorem stepRunsTheDecodedInstruction : Obligations.StepRunsTheDecodedInstruction := by
  refine ⟨fun s h0 h1 => step_of_unbooted (by simp [unbooted, h0, h1]), fun s hu h => step_of_due hu h,
    fun s m s' i hu hb hm hi => (step_of_held hu hb hm).trans (runMessage_of_decodes hi),
    fun s i hu hb hm ht => step_of_timed hu hb hm ht,
    fun s i hu hb hm ht ha hd => (step_of_idle hu hb hm ht ha).trans (runIdle_of_due hd),
    fun s d m rest i h hi => h.step_eq.trans (runMessage_of_decodes hi), fun s d rest i h => h.step_eq,
    fun s d m rest k hu hb hm ht ha hk hlt => (step_of_agenda hu hb hm ht ha).trans (runTurn_before hk hlt), ?_, ?_,
    fun s hu hb hm ht ha hd hc => (step_of_idle hu hb hm ht ha).trans (runIdle_of_none hd hc)⟩
  · intro s d rest core s1 s2 ts bs i h hf hi
    exact ⟨_, h.step_eq.trans (hf.runCore_eq hi), hf.issuing (advance_ground s d) i⟩
  · intro s core s1 s2 ts bs i hu hb hm ht ha hd hc hf hi
    exact ⟨_, (step_of_idle hu hb hm ht ha).trans ((runIdle_of_core hd hc).trans (hf.runCore_eq hi)), hf.issuing ⟨rfl, rfl⟩ i⟩

end Sys2Proof.Machine
end

section
/-! O54: votes, domains, rails, pass counts, load records and fades (R436 to R441). -/

namespace Sys2Proof.Machine

/-- A table whose values change where their key meets a test. -/
theorem tabGet_map_where {α : Type} (p : Nat → Prop) [DecidablePred p] (g : Nat → α → α) (t : Tab α) (i : Nat) :
    tabGet (t.map (fun e => if p e.1 then (e.1, g e.1 e.2) else e)) i = (tabGet t i).map (fun x => if p i then g i x else x) := by
  rw [← tabGet_map_keyed (fun k x => if p k then g k x else x)]
  congr 1
  exact List.map_congr_left fun e _ => by split <;> rfl

section
variable {s : State} {k : Nat}

/-! What a change of the counts leaves, and what it disturbs. -/

theorem slice_settleCounts (s s' : State) (cls : List Nat) (j : Nat) : (settleCounts s s' cls).slice j = s'.slice j := rfl

theorem rail_settleCounts (s s' : State) (cls : List Nat) (j : Nat) : (settleCounts s s' cls).rail j = s'.rail j := rfl

theorem cluster_settleCounts (s s' : State) (cls : List Nat) (j : Nat) : (settleCounts s s' cls).cluster j = s'.cluster j := rfl

theorem passCodeOf_settleCounts (s s' : State) (cls : List Nat) (core : Nat) : (settleCounts s s' cls).passCodeOf core = s'.passCodeOf core := rfl

theorem Thread.disturbed_of_mem {x : Thread} {fr : Frame} (h : fr ∈ x.disturb.frames) : fr.disturbed = true := by
  obtain ⟨f, -, rfl⟩ := List.mem_map.1 h
  rfl

/-- The threads of the clusters, but for those on control cores, are disturbed. -/
theorem thread_disturbClusters {cls : List Nat} {t : Nat} {x : Thread} (hx : tabGet s.threads t = some x) (hc : s.clusterOf t ∈ cls)
    (hcore : s.coreOf t % 5 ≠ 4) : (disturbClusters s cls).thread t = x.disturb := by
  have hmeets : (cls.contains (s.clusterOf t) && !isControl (s.coreOf t)) = true := by simp [hc, isControl, hcore]
  rw [State.thread, tabGetD, disturbClusters,
    tabGet_map_where (fun t => (cls.contains (s.clusterOf t) && !isControl (s.coreOf t)) = true) (fun _ => Thread.disturb), hx]
  simp only [Option.map_some, if_pos hmeets, Option.getD_some]

/-! Pass counts. -/

/-- The time of a step moves no count. -/
theorem passCodeOf_stepped (s : State) (cl n core : Nat) :
    (s.modCluster cl (fun x => { x with stepped := n })).passCodeOf core = s.passCodeOf core := by
  have hcode : ((s.modCluster cl (fun x => { x with stepped := n })).cluster (core / 5)).passCode = (s.cluster (core / 5)).passCode := by
    rw [State.modCluster_eq, State.cluster_setCluster]
    split
    · next h => rw [h]
    · rfl
  rw [State.passCodeOf, hcode]
  rfl

theorem stepCount_cluster (s : State) (cl code : Nat) :
    (stepCount s cl code).cluster cl = { s.cluster cl with stepped := s.time, passCode := code } := by
  simp only [stepCount, setPassCode, cluster_settleCounts, State.modCluster_eq, State.cluster_setCluster, if_true]

theorem stepCount_settles (s : State) (cl code : Nat) : CountSettles s (stepCount s cl code) cl := by
  intro t x hx hcl hcore hchanged fr hfr
  have hin : cl ∈ changedCounts (s.modCluster cl (fun x => { x with stepped := s.time }))
      ((s.modCluster cl (fun x => { x with stepped := s.time })).modCluster cl (fun x => { x with passCode := code })) [cl] := by
    rw [changedCounts, List.mem_filter, bne_iff_ne, passCodeOf_stepped]
    exact ⟨List.mem_singleton_self cl, hchanged⟩
  have hthread : (stepCount s cl code).thread t = x.disturb := thread_disturbClusters hx (hcl ▸ hin) hcore
  rw [hthread] at hfr
  exact Thread.disturbed_of_mem hfr

theorem stoodFor_some (t stepped now span : Nat) : stoodFor (some t) stepped now span = decide (max t stepped + span ≤ now) := rfl

theorem stoodFor_eq_false {since : Option Nat} {stepped now span : Nat}
    (h : since = none ∨ ∃ t, since = some t ∧ now < max t stepped + span) : stoodFor since stepped now span = false := by
  rcases h with rfl | ⟨t, rfl, ht⟩
  · rfl
  · rw [stoodFor_some, decide_eq_false (by omega)]

theorem mayRaise_eq {cl : Nat} (s : State) (h : cl < 96) :
    mayRaise s cl = stoodFor (s.slice (cl / 8)).overSince (s.cluster cl).stepped s.time 12000 := by
  rw [mayRaise, decide_eq_true h, Bool.true_and, microTicks]

theorem mayLower_eq {cl : Nat} (s : State) (h : cl < 96) :
    mayLower s cl = stoodFor (s.slice (cl / 8)).underSince (s.cluster cl).stepped s.time 1200000 := by
  rw [mayLower, decide_eq_true h, Bool.true_and, microTicks]

/-- A count that is stepped, with all that its step leaves. -/
theorem stepCount_steps (s : State) (cl code : Nat) : ((stepCount s cl code).cluster cl).passCode = code ∧
    ((stepCount s cl code).cluster cl).stepped = s.time ∧ CountSettles s (stepCount s cl code) cl ∧ (stepCount s cl code).mem = s.mem := by
  rw [stepCount_cluster]
  exact ⟨rfl, rfl, stepCount_settles s cl code, stepCount_mem s cl code⟩

theorem exec_passCountRaise (s : State) (cl : Nat) : exec (.passCountRaise cl) s =
    if mayRaise s cl then .next (stepCount s cl (min 2 ((s.cluster cl).passCode + 1))) else .next s := rfl

theorem exec_passCountLower (s : State) (cl : Nat) : exec (.passCountLower cl) s =
    if mayLower s cl then .next (stepCount s cl ((s.cluster cl).passCode - 1)) else .next s := rfl

/-! Rails. -/

theorem Rail.volts_falling {r : Rail} (hs : r.stays = false) (ht : r.target < r.mv) (e t : Nat) :
    Rail.volts { r with holdEnd := none, at' := e } t = max r.target (r.mv - 10 * (t - e) / 12000) := by
  simp [Rail.volts, hs, Nat.not_le.2 ht, microTicks]

theorem Rail.retarget_target (r : Rail) (t n : Nat) : (r.retarget t n).target = n := by
  simp only [Rail.retarget]
  split
  · next h => exact h.symm
  · split
    · rfl
    · split <;> rfl

theorem exec_railHoldExpiry {r : Rail} {e : Nat} (h : firstWith s.rails (fun _ r => r.holdEnd.any (· ≤ s.time)) = some (k, r))
    (he : r.holdEnd = some e) : exec .railHoldExpiry s = .next (s.setRail k { r with holdEnd := none, at' := e }) := by
  show execRailHoldExpiry s = _
  simp only [execRailHoldExpiry, h, he, Option.getD_some]

theorem exec_railReady (h : nextReady s = some k) : exec .railReady s = .next (setReady s k true) := by
  show execRailReady s = _
  rw [execRailReady, h]

/-- The chiplet that becomes ready stands at its vote with headroom. -/
theorem volts_of_nextReady (h : nextReady s = some k) : (s.slice k).vote + 25 ≤ (s.rail (k / 3)).volts s.time := by
  obtain ⟨⟨j, x⟩, hfirst, rfl⟩ := Option.map_eq_some_iff.1 h
  have hready := firstWith_some hfirst
  simp only [readyNow, railOf, headroom, Bool.and_eq_true] at hready
  obtain ⟨-, -, hstands⟩ := hready
  exact of_decide_eq_true hstands

theorem railsAndPassCountsMove : Rule.RailsAndPassCountsMove := by
  refine ⟨fun s k r e h he => ?_, fun s k h => ?_, fun s cl hcl => ⟨fun t ht hstood => ?_, fun t ht hstood => ?_, fun h => ?_, fun h => ?_⟩⟩
  · refine ⟨_, exec_railHoldExpiry h he, ?_⟩
    rw [State.rail_setRail, if_pos rfl]
    exact ⟨rfl, rfl, rfl, fun hs hr t => Rail.volts_falling hs hr e t⟩
  · refine ⟨_, exec_railReady h, ?_, volts_of_nextReady h, setReady_mem s k true⟩
    rw [setReady, slice_settleCounts, State.modSlice_eq, State.slice_setSlice, if_pos rfl]
  · have hmay : mayRaise s cl = true := by rw [mayRaise_eq s hcl, ht, stoodFor_some, decide_eq_true hstood]
    exact ⟨_, (exec_passCountRaise s cl).trans (if_pos hmay), stepCount_steps s cl _⟩
  · have hmay : mayLower s cl = true := by rw [mayLower_eq s hcl, ht, stoodFor_some, decide_eq_true hstood]
    exact ⟨_, (exec_passCountLower s cl).trans (if_pos hmay), stepCount_steps s cl _⟩
  · exact (exec_passCountRaise s cl).trans (if_neg (Bool.eq_false_iff.1 ((mayRaise_eq s hcl).trans (stoodFor_eq_false h))))
  · exact (exec_passCountLower s cl).trans (if_neg (Bool.eq_false_iff.1 ((mayLower_eq s hcl).trans (stoodFor_eq_false h))))

/-! Votes. -/

/-- The vote of a chiplet cast, its rail not yet moved. -/
def voted (s : State) (k n : Nat) : State := s.modSlice k (fun x => { x with vote := n })

/-- The vote cast and its rail given its target, the ready bit not yet moved. -/
def retargeted (s : State) (k n : Nat) : State :=
  (voted s k n).setRail (k / 3) (((voted s k n).rail (k / 3)).retarget (voted s k n).time (targetOf (voted s k n) (k / 3)))

theorem castVote_eq (s : State) (k n : Nat) : castVote s k n = setReady (retargeted s k n) k (readyNow (retargeted s k n) k) := rfl

theorem slice_setReady (s : State) (k : Nat) (b : Bool) (j : Nat) :
    (setReady s k b).slice j = if j = k then { s.slice k with ready := b } else s.slice j := by
  rw [setReady, slice_settleCounts, State.modSlice_eq, State.slice_setSlice]

theorem vote_setReady (s : State) (k : Nat) (b : Bool) (j : Nat) : ((setReady s k b).slice j).vote = (s.slice j).vote := by
  rw [slice_setReady]
  split
  · next h => rw [h]
  · rfl

theorem rail_setReady (s : State) (k : Nat) (b : Bool) (j : Nat) : (setReady s k b).rail j = s.rail j := rfl

/-- The chiplet whose vote is cast. -/
theorem castVote_slice (s : State) (k n : Nat) :
    (castVote s k n).slice k = { s.slice k with vote := n, ready := readyNow (retargeted s k n) k } := by
  have hslice : (retargeted s k n).slice k = { s.slice k with vote := n } := by
    rw [retargeted, State.slice_setRail, voted, State.modSlice_eq, State.slice_setSlice, if_pos rfl]
  rw [castVote_eq, slice_setReady, if_pos rfl, hslice]

theorem castVote_vote (s : State) (k n : Nat) : ((castVote s k n).slice k).vote = n := by rw [castVote_slice]

/-- A vote of 0 is not ready. -/
theorem castVote_zero_ready (s : State) (k : Nat) : ((castVote s k 0).slice k).ready = false := by
  have hvote : ((retargeted s k 0).slice k).vote = 0 := by rw [← vote_setReady _ k _ k, ← castVote_eq, castVote_vote]
  rw [castVote_slice, readyNow, hvote]
  rfl

theorem railVote_castVote (s : State) (k n r : Nat) : railVote (castVote s k n) r = railVote (voted s k n) r := by
  simp only [railVote, castVote_eq, vote_setReady]
  rfl

theorem castVote_target (s : State) (k n : Nat) : ((castVote s k n).rail (k / 3)).target =
    if railVote (castVote s k n) (k / 3) = 0 then 0 else railVote (castVote s k n) (k / 3) + 25 := by
  rw [railVote_castVote, castVote_eq, rail_setReady, retargeted, State.rail_setRail, if_pos rfl, Rail.retarget_target]
  rfl

theorem castVote_rail {j : Nat} (s : State) (n : Nat) (h : j ≠ k / 3) : (castVote s k n).rail j = s.rail j := by
  rw [castVote_eq, rail_setReady, retargeted, State.rail_setRail, if_neg h]
  rfl

theorem goodVote_iff (n : Nat) : goodVote n = true ↔ n = 0 ∨ 650 ≤ n ∧ n ≤ 1000 := by simp [goodVote]

theorem exec_voteWrite {v : Word} (hs : speedwellRuns s = true) (hk : k < 12) : exec (.voteWrite k v) s =
    if goodVote (v.toNat % 2 ^ 11) then .next (castVote s k (v.toNat % 2 ^ 11))
    else .next (s.modSlice k (fun x => { x with writeError := true })) := by
  show execVoteWrite k v s = _
  rw [execVoteWrite, if_neg (by simp [hs, hk])]

theorem votesMoveTheirRail : Rule.VotesMoveTheirRail := by
  rintro s k v n hs hk rfl
  rw [exec_voteWrite hs hk, ← goodVote_iff]
  refine ⟨fun hgood => ?_, fun hbad => ?_⟩
  · refine ⟨_, if_pos hgood, castVote_vote .., castVote_target .., fun h0 => ?_, fun j hj => castVote_rail s _ hj, castVote_mem ..⟩
    rw [h0, castVote_zero_ready]
  · refine ⟨_, if_neg hbad, ?_⟩
    rw [State.modSlice_eq, State.slice_setSlice, if_pos rfl]
    exact ⟨rfl, rfl, rfl, rfl⟩

theorem castVote_core (s : State) (k n c : Nat) : (castVote s k n).core c = s.core c := by
  rw [castVote_eq]
  rfl

/-! Domains. -/

theorem gateCores_core (s : State) {k c : Nat} (h : c / 40 = k) : ((gateCores s k).core c).tlb = [] ∧ ((gateCores s k).core c).l1 = [] := by
  rw [State.core, tabGetD, gateCores, tabGet_map_where (fun c => c / 40 = k) (fun _ => Core.forget)]
  simp only [if_pos h]
  cases tabGet s.cores c with
  | none => exact ⟨rfl, rfl⟩
  | some x => exact ⟨rfl, rfl⟩

/-- A domain gated, its vote not yet withdrawn. -/
def gated (s : State) (k : Nat) : State := (gateCores s k).modSlice k (fun x => { x with ungated := false, tlb := [], gatedAt := s.time })

theorem gated_slice (s : State) (k : Nat) : (gated s k).slice k = { s.slice k with ungated := false, tlb := [], gatedAt := s.time } := by
  rw [gated, State.modSlice_eq, State.slice_setSlice, if_pos rfl]
  rfl

theorem exec_domainGate (hs : speedwellRuns s = true) (hk : k < 12) : exec (.domainGate k) s =
    if (s.slice k).ungated && (s.slice k).faded then .next (castVote (gated s k) k 0) else .next s := by
  show execDomainGate k s = _
  rw [execDomainGate, hs, decide_eq_true hk]
  rfl

theorem Slice.faded_iff (x : Slice) : x.faded = true ↔ x.fade = none ∧ x.fall = false ∧ x.passes = 0 ∧ (x.loadRecord = 0 ∨ x.spent = true) := by
  simp [Slice.faded, and_assoc]

theorem domainGated (hs : speedwellRuns s = true) (hk : k < 12) (hu : (s.slice k).ungated = true) (hf : (s.slice k).faded = true) :
    ∃ s', exec (.domainGate k) s = .next s' ∧ (s'.slice k).ungated = false ∧ (s'.slice k).vote = 0 ∧ (s'.slice k).ready = false ∧
      (s'.slice k).gatedAt = s.time ∧ (s'.slice k).tlb = [] ∧ (∀ c, c / 40 = k → (s'.core c).tlb = [] ∧ (s'.core c).l1 = []) ∧ s'.mem = s.mem := by
  refine ⟨_, (exec_domainGate hs hk).trans (if_pos (by rw [hu, hf]; rfl)), ?_, castVote_vote .., castVote_zero_ready .., ?_, ?_,
    fun c hc => ?_, by simp [gated]⟩
  case refine_4 =>
    rw [castVote_core, gated, State.modSlice_eq, State.core_setSlice]
    exact gateCores_core s hc
  all_goals rw [castVote_slice, gated_slice]

/-- A thread of a domain that is ungated. -/
theorem pauseSlice_thread {t : Nat} {x : Thread} (hx : tabGet s.threads t = some x) (hk : s.coreOf t / 40 = k) :
    (pauseSlice s k).thread t =
      x.pause (s.slice k).gatedAt s.time ((s.unit (unitOfThread t)).paused (s.slice k).gatedAt s.time) := by
  have hthreads : (pauseSlice s k).threads = s.threads.map (fun e => if s.coreOf e.1 / 40 = k then
      (e.1, e.2.pause (s.slice k).gatedAt s.time ((s.unit (unitOfThread e.1)).paused (s.slice k).gatedAt s.time)) else e) := rfl
  rw [State.thread, tabGetD, hthreads, tabGet_map_where (fun t => s.coreOf t / 40 = k)
    (fun t (y : Thread) => y.pause (s.slice k).gatedAt s.time ((s.unit (unitOfThread t)).paused (s.slice k).gatedAt s.time)), hx]
  simp only [Option.map_some, if_pos hk, Option.getD_some]

theorem exec_domainUngate (hs : speedwellRuns s = true) (hk : k < 12) (hr : (s.slice k).ready = true) (hu : (s.slice k).ungated = false) :
    exec (.domainUngate k) s = .next ((pauseSlice s k).modSlice k (fun x => { x with ungated := true, clkBase := s.time })) := by
  show execDomainUngate k s = _
  rw [execDomainUngate, if_pos (by simp [hs, hk, hr, hu])]

theorem domainsAreGatedAndUngated : Rule.DomainsAreGatedAndUngated := by
  refine fun s k hs hk => ⟨fun hu h1 h2 h3 h4 => domainGated hs hk hu ((s.slice k).faded_iff.2 ⟨h1, h2, h3, h4⟩), fun h => ?_, fun hr hu => ?_⟩
  · have hfaded : (s.slice k).faded = false := by
      rw [Bool.eq_false_iff, Ne, Slice.faded_iff]
      rintro ⟨h1, h2, h3, h4⟩
      simp_all
    rw [exec_domainGate hs hk, hfaded, Bool.and_false]
    rfl
  · refine ⟨_, exec_domainUngate hs hk hr hu, ?_, pauseSlice_mem s k, fun t x hx hc => ?_⟩
    · rw [State.modSlice_eq, State.slice_setSlice, if_pos rfl]
      rfl
    · rw [State.modSlice_eq, State.thread_setSlice, pauseSlice_thread hx hc]
      exact ⟨rfl, rfl, rfl, fun r => rfl⟩

/-! Load records and fades. -/

theorem Slice.endInterval_fall (x : Slice) : x.endInterval.fall = true ↔
    x.fall = true ∨ 80 * x.passes < ((x.passes :: x.window).take 40).sum ∧ x.below = false ∧ x.fade = none := by
  simp only [Slice.endInterval, Bool.or_eq_true, Bool.and_eq_true, decide_eq_true_eq, Bool.not_eq_true', Option.isNone_iff_eq_none, and_assoc]

theorem loadRecordUpdated_slice {x : Slice} (hx : tabGet s.slices k = some x) (ht : (x.loadTicks + 1) * 1200 ≤ s.time) :
    State.slice { s with slices := tabMap (fun x : Slice => if intervalOver s x then x.endInterval else x) s.slices } k = x.endInterval := by
  have hover : intervalOver s x = true := decide_eq_true ht
  rw [State.slice, tabGetD, tabGet_tabMap, hx, Option.map_some, if_pos hover, Option.getD_some]

theorem exec_fadeStart {x : Slice} (h : firstWith s.slices (fun _ x => x.fall) = some (k, x)) : exec .fadeStart s =
    .next (s.setSlice k { x with fall := false, fade := some (x.loadRecord, s.time), ballast := 0, spent := false }) := by
  show execFadeStart s = _
  rw [execFadeStart, h]

theorem exec_fadeEnd {x : Slice} (h : firstWith s.slices (fun _ x => x.fadeOver s.time) = some (k, x)) :
    exec .fadeEnd s = .next (s.setSlice k { x with fade := none, spent := true }) := by
  show execFadeEnd s = _
  rw [execFadeEnd, h]

/-- The passes of a fade within its 2 µs. -/
theorem fadePasses_of_le {n d : Nat} (h : d ≤ 24000) : fadePasses n (min d fadeTicks) = n * (d * (48000 - d)) / (48000 * 48000) := by
  rw [fadeTicks, Nat.min_eq_left h]
  rfl

theorem Slice.endClk_of_fade {x : Slice} {n t clk : Nat} (hf : x.fade = some (n, t)) (h : clk + 5 ≤ t + 24000) :
    x.endClk clk = { x with clkPasses := 0, ballast := x.ballast +
      (n * ((clk + 5 - t) * (48000 - (clk + 5 - t))) / (48000 * 48000) - n * ((clk - t) * (48000 - (clk - t))) / (48000 * 48000) - x.clkPasses) } := by
  simp only [Slice.endClk, hf]
  rw [fadePasses_of_le (by omega), fadePasses_of_le (by omega)]

theorem loadRecordsAndFades : Rule.LoadRecordsAndFades := by
  refine ⟨fun s k x hx ht => ⟨_, rfl, ?_⟩, fun s k x h => ⟨_, exec_fadeStart h, ?_⟩, fun x n t clk hf _ h => ?_, fun s k x h => ⟨_, exec_fadeEnd h, ?_⟩⟩
  · rw [loadRecordUpdated_slice hx ht]
    exact ⟨rfl, rfl, rfl, x.endInterval_fall, rfl⟩
  · rw [State.slice_setSlice, if_pos rfl]
    exact ⟨rfl, rfl, rfl, rfl⟩
  · rw [Slice.endClk_of_fade hf h]
    exact ⟨rfl, rfl⟩
  · rw [State.slice_setSlice, if_pos rfl]
    exact ⟨rfl, rfl, rfl⟩

end

/-- Settles O54: a vote's target is the one that its rail is given last, and each other move changes its own chiplet, rail or cluster, the
threads of a cluster being disturbed where its count has changed. -/
theorem power : Obligations.Power :=
  ⟨votesMoveTheirRail, domainsAreGatedAndUngated, railsAndPassCountsMove, loadRecordsAndFades⟩

end Sys2Proof.Machine
end

section
/-! O30: waits that are over, and blocked threads whose condition has cleared (R115, R120, R249, R343, R359, R376, R381, R382, R408). -/

namespace Sys2Proof.Machine

variable {op : Nat} {f : Fields} {preds regs : List Nat} {eff : State → Nat → Res} {s : State} {t : Nat}

/-! Forms that let their thread go on. -/

theorem Untouched.of_body {s s' : State} {t : Nat} {ds ps us bs : List Nat} (hk : Kept (s.thread t) (s'.thread t) ds ps)
    (hb : ∀ u, u ∉ s.group → (s'.thread u).body = (s.thread u).body) (hg : ∀ g, GangKept (s.gang g) (s'.gang g) ds ps us bs)
    (hm : s'.mem = s.mem) : Untouched s s' t ds ps us bs :=
  ⟨hk, fun u hu => Kept.of_body (hb u hu), hg, fun a => by rw [hm]⟩

/-- The effect that is only the move to the next instruction. -/
theorem Eff.onThread_empty (x : Thread) : Kept x (({} : Eff).onThread x) [] [] :=
  ⟨fun _ _ => ⟨rfl, rfl⟩, fun _ _ => ⟨rfl, rfl⟩, rfl, rfl, ⟨rfl, rfl, rfl, rfl⟩, rfl⟩

/-- A form that for each thread waits or goes on, of a thread that goes on. -/
theorem runGroup_goesOn (h : Issues s op f preds regs t) (he : eff s t = .go {}) (hall : ∀ u e, eff s u = .go e → e = {}) :
    ((runGroup op f preds regs eff s).thread t).pc = nextPc s.pc ∧ Untouched s (runGroup op f preds regs eff s) t [] [] [] [] := by
  have hm := runGroup_moved h he rfl rfl
  refine ⟨hm.pc, .of_body ((Eff.onThread_empty _).trans hm.kept) (fun u hu => runGroup_outside _ _ _ _ _ _ hu)
    (fun g => runGroup_gangKept (fun u e hu => ?_) g) (runGroup_mem _ _ _ _ _ _)⟩
  rw [hall u e hu]
  exact ⟨by simp, rfl⟩

theorem ite_go_block {c : Prop} [Decidable c] {w : Why} {e e' : Eff} (h : (if c then Res.go e else .block w) = .go e') : e' = e := by
  split at h
  · exact (Res.go.inj h).symm
  · cases h

theorem mwaitEff_go {u : Nat} {e : Eff} (h : mwaitEff f s u = .go e) : e = {} := by
  simp only [mwaitEff] at h
  split at h
  · cases h
  · exact (Res.go.inj h).symm

theorem mwait_goesOn (h : Issues s 0x304 f [] [] t) (ho : outstanding s t (read32 s t f.a) = false) : ∃ s', exec (.mwait f) s = .next s' ∧
    (s'.thread t).pc = nextPc s.pc ∧ Untouched s s' t [] [] [] [] :=
  ⟨_, rfl, runGroup_goesOn (eff := mwaitEff f) h (by simp [mwaitEff, ho]) (fun _ _ => mwaitEff_go)⟩

theorem fewait_goesOn (h : Issues s 0x345 f [] [] t) (hc : incompleteCopies s (gangOf t) ≤ (read32 s t f.a).toNat) :
    ∃ s', exec (.fewait f) s = .next s' ∧ (s'.thread t).pc = nextPc s.pc ∧ Untouched s s' t [] [] [] [] :=
  ⟨_, rfl, runGroup_goesOn (eff := fewaitEff f) h (if_pos hc) (fun _ _ => ite_go_block)⟩

/-! FENCE. -/

theorem publish_body (x : Thread) (n : Nat) : Kept x (x.publish n) [] [] :=
  ⟨fun _ _ => ⟨rfl, rfl⟩, fun _ _ => ⟨rfl, rfl⟩, rfl, rfl, ⟨rfl, rfl, rfl, rfl⟩, rfl⟩

/-- A published interval is no part of what a thread holds otherwise. -/
theorem publishAll_thread (n : Nat) (ts : List Nat) (s : State) (u : Nat) :
    ((publishAll n s ts).thread u).pc = (s.thread u).pc ∧ Kept (s.thread u) ((publishAll n s ts).thread u) [] [] := by
  induction ts generalizing s with
  | nil => exact ⟨rfl, .refl _ _ _⟩
  | cons v ts ih =>
    obtain ⟨hpc, hk⟩ := ih (s.modThread v (fun x => x.publish n))
    rw [State.thread_modThread] at hpc hk
    by_cases hv : u = v
    · rw [if_pos hv] at hpc hk
      exact ⟨hpc, (publish_body _ n).trans hk⟩
    · rw [if_neg hv] at hpc hk
      exact ⟨hpc, hk⟩

theorem publishAll_gang (n : Nat) (ts : List Nat) (s : State) (g : Nat) : (publishAll n s ts).gang g = s.gang g :=
  foldl_keeps _ (fun s => State.gang s g) _ _ (fun _ _ _ => rfl)

theorem Untouched.publishAll {s' : State} (h : Untouched s s' t [] [] [] []) (n : Nat) (ts : List Nat) :
    Untouched s (Machine.publishAll n s' ts) t [] [] [] [] where
  thread := h.thread.trans (publishAll_thread n ts s' t).2
  threads u hu := by
    obtain ⟨hpc, hk⟩ := publishAll_thread n ts s' u
    exact ⟨hpc.trans (h.threads u hu).1, (h.threads u hu).2.trans hk⟩
  gangs g := by rw [publishAll_gang]; exact h.gangs g
  memory a := by rw [publishAll_mem]; exact h.memory a

theorem fence_goesOn (h : Issues s 0x340 f [] [] t) (hf : ∀ u ∈ s.gangIssuers 0x340 f t, fenceDone s u (f.bits 0 3 + 1) = true) :
    ∃ s', exec (.fence f) s = .next s' ∧ (s'.thread t).pc = nextPc s.pc ∧ Untouched s s' t [] [] [] [] := by
  have hall : (s.gangIssuers 0x340 f t).all (fun u => orderDone s u (fenceScope f)) = true := List.all_eq_true.mpr hf
  obtain ⟨hpc, hu⟩ := runGroup_goesOn (eff := fenceEff f) h (if_pos hall) (fun _ _ => ite_go_block)
  exact ⟨_, rfl, (publishAll_thread _ _ _ t).1.trans hpc, hu.publishAll _ _⟩

/-! DRAIN. -/

/-- A thread alone whose check finds no record jumps to the next instruction. -/
theorem runGroup_checked (h : Alone s op f [] [] t) (he : eff s t = .go { check := true }) (hd : s.mustDeliver t = false) :
    runGroup op f [] [] eff s = appliedAlone op f s t (jumpEff [] (nextPc s.pc)) := by
  rw [runGroup_go_alone h he, ← appliedAlone_checkedJump [] (nextPc s.pc) hd]
  rfl

theorem drain_goesOn (h : Alone s 0x344 f [] [] t) (hw : s.ownWrites t = []) (hd : s.mustDeliver t = false) :
    ∃ s', exec (.drain f) s = .next s' ∧ (s'.thread t).pc = nextPc s.pc ∧ Untouched s s' t [] [] [] [] := by
  have hall : (s.gangIssuers 0x344 f t).all (fun u => orderDone s u 0) = true := by
    refine List.all_eq_true.mpr (fun u hu => ?_)
    have hut : u = t := by simpa [h.alone] using (List.mem_filter.mp hu).1
    simp [orderDone, hut, hw]
  have hrun := runGroup_checked (eff := drainEff f) h (if_pos hall) hd
  have hothers := jump_others (ds := []) (p := nextPc s.pc) (ws := []) h (by simp)
  refine ⟨_, rfl, ?_, .of_body ?_ (fun u hu => runGroup_outside _ _ _ _ _ _ hu) (fun g => ?_) (runGroup_mem _ _ _ _ _ _)⟩
  all_goals rw [hrun]
  · exact (jump_moved h).pc
  · exact jump_kept (us := []) h (by simp)
  · exact hothers.gangs g

theorem waitsThatAreOverLetTheThreadGoOn : Rule.WaitsThatAreOverLetTheThreadGoOn :=
  fun _ _ _ => ⟨mwait_goesOn, fence_goesOn, drain_goesOn, fewait_goesOn⟩

/-! Held accesses and blocked threads. -/

theorem exec_heldAccessReplay {id : Nat} {a : Access} (h : firstWith s.accesses (fun _ a => a.held && pageBack s a) = some (id, a)) :
    exec .heldAccessReplay s = .next (s.setAccess id { a with held := false }) := by
  show execHeldAccessReplay s = _
  rw [execHeldAccessReplay, h]

theorem exec_threadUnblock (h : unblocks s t = true) : exec (.threadUnblock t) s = .next (s.release (goWith s t)) := if_pos h

/-- A thread is ready from the next clk on. -/
def State.ReadyNext (s s' : State) (u : Nat) : Prop := (s'.thread u).sched = .ready ∧ s.clkOf u + 5 ≤ (s'.thread u).stallUntil

theorem State.ReadyNext.release {s₀ : State} {u : Nat} (ts : List Nat) (s : State) (hc : s.clkOf u = s₀.clkOf u)
    (h : u ∈ ts ∨ s₀.ReadyNext s u) : s₀.ReadyNext (s.release ts) u := by
  induction ts generalizing s with
  | nil => exact h.resolve_left (by simp)
  | cons v ts ih =>
    refine ih (s.unblock v) hc ?_
    by_cases hv : u = v
    · refine .inr ⟨?_, ?_⟩ <;> simp [State.unblock, hv]
      rw [← hv, hc]
      exact .inr (Nat.le_refl _)
    · refine h.imp (fun h => (List.mem_cons.mp h).resolve_left hv) (fun h => ?_)
      simpa [State.ReadyNext, State.unblock, hv] using h

theorem State.release_gang (ts : List Nat) (s : State) (g : Nat) : (s.release ts).gang g = s.gang g :=
  foldl_keeps _ (fun s => State.gang s g) _ _ (fun _ _ _ => rfl)

theorem goWith_of_held (h : (s.thread t).isHeld = true) : goWith s t = s.heldAt (gangOf t) (s.thread t).pc := if_pos h

theorem goWith_of_alone (h : (s.thread t).isHeld = false) (ht : ∀ k n, (s.thread t).sched ≠ .blocked (.together k n)) : goWith s t = [t] := by
  rw [goWith, h, if_neg Bool.false_ne_true]
  split
  · rename_i k n he
    exact absurd he (ht k n)
  · rfl

theorem mem_goWith_of_together {k n u : Nat} (h : (s.thread t).sched = .blocked (.together k n)) (hg : u ∈ s.threadsOfGang (gangOf t))
    (hu : (s.thread u).sched = .blocked (.together k n)) : u ∈ goWith s t := by
  have hh : (s.thread t).isHeld = false := by simp [Thread.isHeld, h]
  rw [goWith, hh, if_neg Bool.false_ne_true, h]
  exact List.mem_filter.mpr ⟨hg, by simp [hu]⟩

theorem heldWorkGoesOn : Rule.HeldWorkGoesOn := by
  refine ⟨fun s id a h => ⟨_, exec_heldAccessReplay h, by simp [State.setAccess], rfl, rfl⟩,
    fun s t h => ⟨_, exec_threadUnblock h, fun hh ht => ?_, fun hh u hu => ?_, fun k n hk u hg hu => ?_,
      fun g => by rw [State.release_gang]; exact .refl _ _ _ _ _, fun a => by rw [State.release_mem]⟩⟩
  · rw [goWith_of_alone hh ht]
    exact ⟨by simp [State.release, State.unblock], fun u hu => by simp [State.release, State.unblock, hu]⟩
  · exact State.ReadyNext.release _ _ rfl (.inl (by rwa [goWith_of_held hh]))
  · exact State.ReadyNext.release _ _ rfl (.inl (mem_goWith_of_together hk hg hu))

/-- Settles O30: a wait that is over is the move to the next instruction, and a condition that has cleared releases the threads that go on
together. -/
theorem waitsAndBlockedThreads : Obligations.WaitsAndBlockedThreads := ⟨waitsThatAreOverLetTheThreadGoOn, heldWorkGoesOn⟩

end Sys2Proof.Machine
end

section
/-! O52: aging, the skid limit, and Glason's active sets (R127, R128, R401, R402). -/

namespace Sys2Proof.Machine

variable {s : State} {t g o i : Nat}

/-! Aging and the skid limit. -/

theorem exec_aging (h : nextAged s = some t) : exec .aging s = .next (s.modThread t (fun x => { x with aged := true })) := by
  show execAging s = _
  rw [execAging, h]

theorem exec_skidLimit (h : nextSkid s = some t) : exec .skidLimit s =
    .next (if skidWrite s t then s.block t .skid else deliver s t (s.thread t).pc (s.recordsLabel (gangOf t))) := by
  show execSkidLimit s = _
  rw [execSkidLimit, h]

/-- A thread that is not at the limit of an unperformed write stands there for a record, which is delivered outside a handler. -/
theorem nextSkid_cases (h : nextSkid s = some t) :
    (s.thread t).sched = .ready ∧ (skidWrite s t = true ∨ (s.thread t).inTrap = false) := by
  have ht := List.find?_some h
  simp only [isReady, skidRecord, Bool.and_eq_true, Bool.or_eq_true, beq_iff_eq, Bool.not_eq_true'] at ht
  obtain ⟨⟨hr, -⟩, hw⟩ := ht
  exact ⟨hr, hw.imp id And.left⟩

/-- A trap with a handler, for a ready thread outside one, taken at no issue. -/
theorem takeTrap_trapped {kind : Nat} {ret pc : Pc} {info : Word} {l : Label} (hr : (s.thread t).sched = .ready)
    (hh : (s.launchOf t).handler = some pc) (hi : (s.thread t).inTrap = false) :
    Trapped s (takeTrap s t kind ret info l) t kind ret info pc := by
  refine ⟨?_, ?_, ?_, ?_, ?_, ?_, ?_, fun r => ?_, fun g => ?_, fun a => by rw [takeTrap_mem]⟩
  iterate 8 simp [takeTrap, hh, hi, Thread.goTo_ready hr, Thread.reg, Thread.full]
  have hown := own_takeTrap s t kind ret info l g
  have hlab := labelFrame_takeTrap [] [] [] [] s t kind ret info l g
  simp only [Gang.own] at hown
  injection hown with hsregs hslabel hbrecs hpart
  exact ⟨fun r hr => ⟨by simp [Gang.sreg, hsregs], hlab.sreg r hr⟩, fun r hr => ⟨by rw [hbrecs], hlab.record r hr⟩, hlab.tile, hlab.pred,
    hlab.control, hpart⟩

theorem threadsAgeAndMeetTheSkidLimit : Rule.ThreadsAgeAndMeetTheSkidLimit := by
  refine ⟨fun s t h => ⟨_, exec_aging h, ?_, ?_⟩, fun s t h => ⟨fun hw => ⟨_, exec_skidLimit h, ?_⟩, fun pc hw hh => ⟨_, exec_skidLimit h, ?_⟩⟩⟩
  · simp
  · have ha := List.find?_some h
    simp only [ages, isReady, Bool.and_eq_true, Bool.not_eq_true', decide_eq_true_eq] at ha
    obtain ⟨⟨⟨-, hin⟩, -⟩, htime⟩ := ha
    exact ⟨hin, htime, fun u hu => by simp [hu], rfl⟩
  · rw [if_pos hw]
    refine ⟨?_, fun g => .refl _ _ _ _ _, fun _ => rfl⟩
    simp [State.block, Thread.goTo, (nextSkid_cases h).1]
  · rw [hw, if_neg Bool.false_ne_true]
    obtain ⟨hr, hin⟩ := nextSkid_cases h
    exact takeTrap_trapped hr hh (hin.resolve_left (by simp [hw]))

/-! Glason's active sets. -/

/-- The threads of a gang that enters an active set. -/
def enterThreads (s : State) (ts : List Nat) : State :=
  ts.foldl (fun s t => s.modThread t (fun x => { x with stallUntil := max x.stallUntil (s.time + 10), readySince := s.time })) s

theorem enterThreads_gang (s : State) (ts : List Nat) (g : Nat) : (enterThreads s ts).gang g = s.gang g :=
  foldl_keeps _ (fun s => State.gang s g) _ _ (fun _ _ _ => rfl)

theorem enterThreads_mem (s : State) (ts : List Nat) : (enterThreads s ts).mem = s.mem := foldl_keeps _ State.mem _ _ (fun _ _ _ => rfl)

/-- A thread that enters is kept, and stalls for the 2 clk. -/
theorem enterThreads_thread (ts : List Nat) (s : State) (t : Nat) :
    Kept (s.thread t) ((enterThreads s ts).thread t) [] [] ∧ (t ∈ ts ∨ s.time + 10 ≤ (s.thread t).stallUntil →
      s.time + 10 ≤ ((enterThreads s ts).thread t).stallUntil) := by
  induction ts generalizing s with
  | nil => exact ⟨.refl _ _ _, fun h => h.resolve_left (by simp)⟩
  | cons u ts ih =>
    obtain ⟨hk, hs⟩ := ih (s.modThread u (fun x => { x with stallUntil := max x.stallUntil (s.time + 10), readySince := s.time }))
    refine ⟨Kept.trans ?_ hk, fun h => hs ?_⟩
    · rw [State.thread_modThread]
      split <;> exact ⟨fun _ _ => ⟨rfl, rfl⟩, fun _ _ => ⟨rfl, rfl⟩, rfl, rfl, ⟨rfl, rfl, rfl, rfl⟩, rfl⟩
    · rw [State.thread_modThread]
      by_cases hu : t = u
      · exact .inr (by rw [if_pos hu]; exact Nat.le_max_right _ _)
      · rw [if_neg hu]
        exact h.imp (fun h => (List.mem_cons.mp h).resolve_left hu) id

/-- The gangs of a swap change places. -/
def swapped (s : State) (o i : Nat) : State :=
  (s.modGang o (fun x => { x with active := false, pendingSince := s.time })).modGang i (fun x => { x with active := true })

theorem swapGangs_eq (s : State) (o i : Nat) : swapGangs s o i = enterThreads (swapped s o i) ((swapped s o i).threadsOfGang i) := rfl

theorem swapped_threadsOfGang (s : State) (o i g : Nat) : (swapped s o i).threadsOfGang g = s.threadsOfGang g := by
  simp only [State.threadsOfGang, swapped, State.gang_modGang]
  repeat' split
  all_goals rfl

theorem swapGangs_swapped (h : o ≠ i) : Swapped s (swapGangs s o i) o i := by
  rw [swapGangs_eq, swapped_threadsOfGang]
  refine ⟨?_, ?_, fun t ht => ?_, enterThreads_mem _ _⟩
  · simp [enterThreads_gang, swapped, h]
  · simp [enterThreads_gang, swapped]
  · obtain ⟨hk, hs⟩ := enterThreads_thread (s.threadsOfGang i) (swapped s o i) t
    exact ⟨hs (.inl ht), hk⟩

theorem glasonSetsSwap : Rule.GlasonSetsSwap := by
  refine ⟨fun s g h => ⟨s.modGang g (fun x => { x with active := true }), ?_, by simp, fun k hk => by simp [hk], rfl, rfl⟩,
    fun s o i hn h hoi => ⟨_, ?_, swapGangs_swapped hoi⟩, fun s o i h hoi => ⟨_, ?_, swapGangs_swapped hoi⟩⟩
  · show execGlasonSwap s = _
    rw [execGlasonSwap, h]
  · show execGlasonSwap s = _
    rw [execGlasonSwap, hn]
    simp only [h]
  · show execGlasonPendingAging s = _
    rw [execGlasonPendingAging, h]

/-- Settles O52: a thread that ages or meets the limit is the first that may, and a swap is two changed gangs and the stalled threads of the
one that enters. -/
theorem scheduling : Obligations.Scheduling := ⟨threadsAgeAndMeetTheSkidLimit, glasonSetsSwap⟩

end Sys2Proof.Machine
end

section
/-! O12: RDLANE and a register that another issue of the same clk has written (R157). -/

namespace Sys2Proof.Machine

/-- RDLANE.B32 v6, v5, 1. -/
def laneRead : Fields := { blank with d := .v 6, a := .v 5, b := .imm 1, mod := 0x70000 }

/-- Lane 0 of a gang of two issues at a time at which lane 1, through the core's other port, has written 1 to its v5: v5 was full and 0 before
this clk. -/
def laneRaces : State := {
  time := 1000000
  gangs := [(0, { lanes := 2 })]
  threads := [(0, { pc := 0x1000, preds := 1 }), (1, { pc := 0x100C, regs := [(5, 1)], before := { clk := 1000000, regs := [(5, 0)] } })]
  issue := { core := 0, pc := 0x1000, threads := [0], serial := 7 } }

theorem laneRaces_issues : Issues laneRaces 0x08A laneRead [] [] 0 where
  mem := by decide
  nodup := by decide
  settled := by decide
  guard := by decide
  sources := by decide
  dest := by decide
  preds := by decide
  ready := by decide

/-- Every source register of the named lane is full, as issue sees it. -/
theorem laneRaces_full : ∀ u ∈ laneRaces.group, sourceEmpty laneRaces (threadAt (gangOf u) ((read32 laneRaces u laneRead.b).toNat % 32))
    (slotsOf 0x08A laneRead).a laneRead.a = none := by decide

/-- The state after RDLANE. -/
def laneReadDone : State := runGroup 0x08A laneRead [] [] (fun s t => rdlane s laneRead t) laneRaces

/-- The destination holds the value before the clk. -/
theorem laneReadDone_reg : (laneReadDone.thread 0).reg 6 = 0 := by decide

/-- Refutes O12: RDLANE reads the named lane's register as writes of earlier clk have left it, while the statement has it read the register as
it stands: where lane 1 has written 1 over 0 in its v5 in the same clk, lane 0 gets 0. -/
theorem not_shufflesAndLaneReads : ¬ Obligations.ShufflesAndLaneReads := by
  rintro ⟨-, h⟩
  obtain ⟨s', hs', ⟨u, hu, -, -, -, hres⟩, -⟩ := h laneRead laneRaces 0 laneRaces_issues laneRaces_full
  have hdone : s' = laneReadDone := (Host.Outcome.next.inj hs').symm
  have hu0 : u = 0 := by simpa [laneRaces, State.group] using hu
  subst hdone hu0
  have hvalue : (laneReadDone.thread 0).reg 6 = 1 := hres.elim (fun h6 => absurd h6 (by decide)) And.left
  rw [laneReadDone_reg] at hvalue
  exact absurd hvalue (by decide)

end Sys2Proof.Machine
end

section
/-! SUPPORT. A collective of a gang that arrives whole: its threads are held, the hold ends at once, and what is performed for the gang is the
issue of a group whose threads are all ready (R120). -/

namespace Sys2Proof.Machine

/-! States that differ in how threads are scheduled. -/

/-- A thread apart from its place in the schedule. -/
def Thread.unscheduled (x : Thread) : Thread := { x with sched := .ready, aged := false, turns := 0, readySince := 0, stallUntil := 0 }

/-- The states differ in the schedule of threads alone. -/
structure State.Rescheduled (s s' : State) : Prop where
  rest : s' = s.withThreads s'.threads
  thread : ∀ t, (s'.thread t).unscheduled = (s.thread t).unscheduled

namespace State.Rescheduled
variable {s s' s'' : State}

theorem refl (s : State) : s.Rescheduled s := ⟨rfl, fun _ => rfl⟩

theorem trans (h : s.Rescheduled s') (k : s'.Rescheduled s'') : s.Rescheduled s'' := by
  refine ⟨k.rest.trans ?_, fun t => (k.thread t).trans (h.thread t)⟩
  conv => lhs; rw [h.rest]
  rfl

theorem modThread (s : State) (t : Nat) {F : Thread → Thread} (hF : ∀ x, (F x).unscheduled = x.unscheduled) :
    s.Rescheduled (s.modThread t F) := by
  refine ⟨rfl, fun u => ?_⟩
  rw [State.thread_modThread]
  split
  · rename_i e; rw [hF, e]
  · rfl

theorem foldl (F : State → Nat → State) (hF : ∀ b t, State.Rescheduled b (F b t)) (ts : List Nat) (s : State) : s.Rescheduled (ts.foldl F s) := by
  induction ts generalizing s with
  | nil => exact refl s
  | cons t ts ih => exact (hF s t).trans (ih _)

theorem holdAll (w : Why) (ts : List Nat) (s : State) : s.Rescheduled (Machine.holdAll w ts s) :=
  foldl (fun b t => b.block t w) (fun b t => modThread b t fun _ => rfl) ts s

theorem release (ts : List Nat) (s : State) : s.Rescheduled (s.release ts) :=
  foldl State.unblock (fun b t => modThread b t fun _ => rfl) ts s

/-- What a function reads of a thread other than its schedule is the same. -/
theorem read (h : s.Rescheduled s') (t : Nat) {β : Type} (g : Thread → β) (hg : ∀ x, g x.unscheduled = g x) : g (s'.thread t) = g (s.thread t) := by
  rw [← hg (s'.thread t), h.thread, hg]

theorem gang (h : s.Rescheduled s') (k : Nat) : s'.gang k = s.gang k := by rw [h.rest]; rfl
theorem group (h : s.Rescheduled s') : s'.group = s.group := by rw [h.rest]; rfl
theorem pc (h : s.Rescheduled s') : s'.pc = s.pc := by rw [h.rest]; rfl
theorem issue (h : s.Rescheduled s') : s'.issue = s.issue := by rw [h.rest]; rfl
theorem mem (h : s.Rescheduled s') : s'.mem = s.mem := by rw [h.rest]; rfl
theorem clkOf (h : s.Rescheduled s') (t : Nat) : s'.clkOf t = s.clkOf t := by rw [h.rest]; rfl
theorem clkOfGang (h : s.Rescheduled s') (k : Nat) : s'.clkOfGang k = s.clkOfGang k := by rw [h.rest]; rfl
theorem lent (h : s.Rescheduled s') (t n : Nat) : s'.lent t n = s.lent t n := by rw [h.rest]; rfl

theorem threadsOfGang (h : s.Rescheduled s') (k : Nat) : s'.threadsOfGang k = s.threadsOfGang k := by
  simp only [State.threadsOfGang, h.gang]

theorem threadPc (h : s.Rescheduled s') (t : Nat) : (s'.thread t).pc = (s.thread t).pc := h.read t Thread.pc fun _ => rfl
theorem pred (h : s.Rescheduled s') (t n : Nat) : (s'.thread t).pred n = (s.thread t).pred n := h.read t (Thread.pred · n) fun _ => rfl
theorem pending (h : s.Rescheduled s') (t n : Nat) : (s'.thread t).pending n = (s.thread t).pending n :=
  h.read t (Thread.pending · n) fun _ => rfl
theorem reg (h : s.Rescheduled s') (t n : Nat) : (s'.thread t).reg n = (s.thread t).reg n := h.read t (Thread.reg · n) fun _ => rfl
theorem seenFull (h : s.Rescheduled s') (t clk n : Nat) : (s'.thread t).seenFull clk n = (s.thread t).seenFull clk n :=
  h.read t (Thread.seenFull · clk n) fun _ => rfl
theorem mode (h : s.Rescheduled s') (t : Nat) : (s'.thread t).mode = (s.thread t).mode := h.read t Thread.mode fun _ => rfl
theorem inTrap (h : s.Rescheduled s') (t : Nat) : (s'.thread t).inTrap = (s.thread t).inTrap := h.read t Thread.inTrap fun _ => rfl

theorem guardTrue (h : s.Rescheduled s') (t : Nat) (f : Fields) : Machine.guardTrue s' t f = Machine.guardTrue s t f := by
  simp only [Machine.guardTrue, h.pred]

theorem read32 (h : s.Rescheduled s') (t : Nat) (o : Opnd) : Machine.read32 s' t o = Machine.read32 s t o := by
  cases o <;> simp only [Machine.read32, h.reg, h.gang, h.clkOf, h.pred]

theorem read64 (h : s.Rescheduled s') (t : Nat) (o : Opnd) : Machine.read64 s' t o = Machine.read64 s t o := by
  cases o <;> simp only [Machine.read64, h.reg, h.gang, h.clkOf]

theorem readTy (h : s.Rescheduled s') (t : Nat) (ty : Ty) (o : Opnd) : Machine.readTy s' t ty o = Machine.readTy s t ty o := by
  simp only [Machine.readTy, h.read32, h.read64]

theorem readF (h : s.Rescheduled s') (t : Nat) (F : Fmt) (o : Opnd) : Machine.readF s' t F o = Machine.readF s t F o := by
  cases o <;> simp only [Machine.readF, h.read32]

theorem readPred (h : s.Rescheduled s') (t : Nat) (o : Opnd) : Machine.readPred s' t o = Machine.readPred s t o := by
  cases o <;> simp only [Machine.readPred, h.pred]

theorem rm (h : s.Rescheduled s') (t : Nat) (f : Fields) : Machine.rm s' t f = Machine.rm s t f := by
  simp only [Machine.rm, h.mode]

theorem opndLabel (h : s.Rescheduled s') (t : Nat) (x : Slot) (o : Opnd) : Machine.opndLabel s' t x o = Machine.opndLabel s t x o := by
  cases o <;> simp only [Machine.opndLabel, h.gang, h.clkOf, h.inTrap]

theorem labelOf (h : s.Rescheduled s') (op : Nat) (f : Fields) (t : Nat) : Machine.labelOf s' op f t = Machine.labelOf s op f t := by
  simp only [Machine.labelOf, h.gang, h.opndLabel]

theorem sourceEmpty (h : s.Rescheduled s') (t : Nat) (x : Slot) (o : Opnd) : Machine.sourceEmpty s' t x o = Machine.sourceEmpty s t x o := by
  simp only [Machine.sourceEmpty, h.seenFull, h.clkOf]

theorem checkIn (h : s.Rescheduled s') (op : Nat) (f : Fields) (preds regs : List Nat) (t : Nat) :
    Machine.checkIn s' op f preds regs t = Machine.checkIn s op f preds regs t := by
  simp only [Machine.checkIn, h.pending, h.guardTrue, h.sourceEmpty, h.seenFull, h.clkOf, h.lent]

theorem tileWidth (h : s.Rescheduled s') (k : Nat) : Machine.tileWidth s' k = Machine.tileWidth s k := by
  simp only [Machine.tileWidth, h.gang, h.clkOfGang]

theorem tileBase (h : s.Rescheduled s') (k l : Nat) : Machine.tileBase s' k l = Machine.tileBase s k l := by
  simp only [Machine.tileBase, h.tileWidth]

theorem maskRead (h : s.Rescheduled s') (f : Fields) (t : Nat) : Machine.maskRead s' f t = Machine.maskRead s f t := by
  simp only [Machine.maskRead, launchedMask, h.read32, h.gang]

theorem memberLanes (h : s.Rescheduled s') (f : Fields) (t : Nat) : Machine.memberLanes s' f t = Machine.memberLanes s f t := by
  simp only [Machine.memberLanes, memberLanesOf, h.tileBase, h.tileWidth, h.maskRead]

theorem fits (h : s.Rescheduled s') {op : Nat} {f : Fields} {preds regs : List Nat} {t : Nat} (k : Fits s op f preds regs t) :
    Fits s' op f preds regs t where
  mem := h.group ▸ k.mem
  nodup := h.group ▸ k.nodup
  settled := by rw [h.pending]; exact k.settled
  guard := by rw [h.guardTrue]; exact k.guard
  sources q hq := by rw [h.sourceEmpty]; exact k.sources q hq
  dest r hr := by rw [h.seenFull, h.clkOf, h.lent]; exact k.dest r hr
  preds n hn := by rw [h.pending]; exact k.preds n hn

end State.Rescheduled

/-! The arrival. -/

section
variable {s : State} {op : Nat} {f : Fields} {preds : List Nat} {g t : Nat}

/-- The state in which the gang is held at a collective. -/
def heldState (s : State) (f : Fields) : State := holdAll (memberHold f) s.readyGroup s

/-- The state in which the gang's threads are ready to perform it. -/
def releasedState (s : State) (f : Fields) : State := (heldState s f).release s.group

theorem heldState_rescheduled (s : State) (f : Fields) : s.Rescheduled (heldState s f) := .holdAll ..
theorem releasedState_rescheduled (s : State) (f : Fields) : s.Rescheduled (releasedState s f) :=
  (heldState_rescheduled s f).trans (.release ..)

theorem arrive_eq_heldState (h : GangArrives s op f preds g) : arrive op f preds [] (memberHold f) s = heldState s f := by
  refine List.foldl_ext _ _ _ fun b t ht => ?_
  obtain ⟨hmem, hready⟩ := List.mem_filter.1 ht
  have hissues : Issues s op f preds [] t := ⟨(h.issues t hmem).1.1, by simpa using hready⟩
  rw [hissues.checkIn]

theorem heldState_sched (h : GangArrives s op f preds g) (hh : holdOf op f = some (memberHold f)) (ht : t ∈ s.group) :
    ((heldState s f).thread t).sched = .blocked (memberHold f) := by
  obtain ⟨⟨-, hr | ⟨w, hw, hb⟩⟩, -⟩ := h.issues t ht
  · exact holdAll_sched (memberHold f) (List.mem_filter.2 ⟨ht, by simp [hr]⟩) s (by simp [hr])
  · have hn : t ∉ s.readyGroup := fun hm => by simp [State.readyGroup, hb] at hm
    rw [heldState, holdAll_thread_of_not_mem _ hn, hb]
    rw [hh] at hw
    rw [Option.some.inj hw]

theorem heldState_sched_of_not_mem (h : GangArrives s op f preds g) (hg : t ∈ s.threadsOfGang g) (ht : t ∉ s.group) :
    ((heldState s f).thread t).sched = .exited := by
  have hn : t ∉ s.readyGroup := fun hm => ht (List.mem_filter.1 hm).1
  rw [heldState, holdAll_thread_of_not_mem _ hn]
  by_contra hx
  exact ht (h.mem_group.2 ⟨hg, hx⟩)

/-- A thread is released when it is among those that are. -/
theorem State.release_sched (ts : List Nat) (s : State) {u : Nat} (h : u ∈ ts ∨ (s.thread u).sched = .ready) :
    ((s.release ts).thread u).sched = .ready := by
  induction ts generalizing s with
  | nil => exact h.resolve_left (by simp)
  | cons v ts ih =>
    refine ih (s.unblock v) ?_
    by_cases hv : u = v
    · exact .inr (by simp [State.unblock, hv])
    · exact h.imp (fun h => (List.mem_cons.mp h).resolve_left hv) (fun h => by simpa [State.unblock, hv] using h)

/-- Every thread of the group issues once it is released. -/
theorem releasedState_issues (s : State) (f : Fields) (h : Executes s op f preds [] t) : Issues (releasedState s f) op f preds [] t :=
  ⟨(releasedState_rescheduled s f).fits h.1, State.release_sched _ _ (.inl h.1.mem)⟩

theorem GangArrives.checkIn (h : GangArrives s op f preds g) (ht : t ∈ s.group) : Machine.checkIn s op f preds [] t = .run := by
  rw [← (releasedState_rescheduled s f).checkIn]
  exact (releasedState_issues s f (h.issues t ht).1).checkIn

/-- The held threads of the gang are those of the group. -/
theorem heldAt_heldState (h : GangArrives s op f preds g) (hh : holdOf op f = some (memberHold f)) : (heldState s f).heldAt g s.pc = s.group := by
  rw [State.heldAt, (heldState_rescheduled s f).threadsOfGang]
  refine Eq.trans (List.filter_congr fun t ht => ?_) h.group.symm
  by_cases hm : t ∈ s.group
  · have hx := (h.mem_group.1 hm).2
    simp [Thread.isHeld, heldState_sched h hh hm, memberHold, (heldState_rescheduled s f).threadPc, (h.issues t hm).2, hx]
  · have hx : (s.thread t).sched = .exited := by
      by_contra hx
      exact hm (h.mem_group.2 ⟨ht, hx⟩)
    simp [Thread.isHeld, heldState_sched_of_not_mem h ht hm, hx]

theorem lane_arrived_heldState (h : GangArrives s op f preds g) (l : Nat) :
    (s.group.contains (threadAt g l) || !(heldState s f).laneLive g l) = true := by
  by_cases hm : threadAt g l ∈ s.group
  · simp [hm]
  · by_cases hl : l < (s.gang g).lanes
    · have hx := heldState_sched_of_not_mem (f := f) h (List.mem_map.2 ⟨l, List.mem_range.2 hl, rfl⟩) hm
      simp [State.laneLive, hx]
    · simp [State.laneLive, (heldState_rescheduled s f).gang, hl]

theorem holdEnds_heldState (h : GangArrives s op f preds g) (hh : holdOf op f = some (memberHold f)) : (heldState s f).holdEnds g s.pc = true := by
  have hne : s.group.isEmpty = false := by simpa using h.nonempty
  simp only [State.holdEnds, heldAt_heldState h hh, hne, Bool.not_false, Bool.true_and, State.lanesArrived]
  exact List.all_eq_true.2 fun t _ => List.all_eq_true.2 fun l _ => lane_arrived_heldState h l

/-! The collective of the gang. -/

/-- The collective as its results see it. -/
def collOf (s : State) (f : Fields) (g : Nat) : Coll := { s := heldState s f, f := f, present := presentLanes (heldState s f) f g }

/-- The effect of a collective on a thread, in the state in which the gang is held. -/
def collEff (op : Nat) (f : Fields) (out : Coll → Nat → Label → CollOut) (g : Nat) (s : State) (t : Nat) : Eff :=
  let r := out { s := s, f := f, present := presentLanes s f g } t (labelOf s op f t)
  { writes := r.1, events := r.2 }

theorem recheck_eq_none {ts : List Nat} (h : ∀ t ∈ ts, checkIn s op f preds [] t = .run) : recheck op f preds [] ts s = none := by
  refine if_pos (List.all_eq_true.2 fun t ht => ?_)
  rw [h t ht]

/-- The collective of a gang that arrives whole is performed at once. -/
theorem runCollective_eq_perform (out : Coll → Nat → Label → CollOut) (h : GangArrives s op f preds g)
    (hh : holdOf op f = some (memberHold f)) (hmask : ∀ t ∈ s.group, ∀ u ∈ s.group, maskRead s f t = maskRead s f u) :
    runCollective op f preds out s = perform op f s.group (collEff op f out g) (heldState s f) := by
  have hr := heldState_rescheduled s f
  have hguard : s.group.filter (fun t => guardTrue (heldState s f) t f) = s.group :=
    List.filter_eq_self.2 fun t ht => by rw [hr.guardTrue]; exact (h.issues t ht).1.1.guard
  have hms : ((s.group.map (maskRead (heldState s f) f)).any
      fun m => (s.group.map (maskRead (heldState s f) f)).head? != some m) = false := by
    obtain ⟨u, us, hgroup⟩ := List.exists_cons_of_ne_nil h.nonempty
    refine List.any_eq_false.2 fun m hm => ?_
    obtain ⟨t, ht, rfl⟩ := List.mem_map.1 hm
    have := hmask u (by simp [hgroup]) t ht
    simp [hgroup, hr.maskRead, this]
  have hcontains : s.group.all s.group.contains = true := List.all_eq_true.2 fun t ht => by simpa using ht
  have hcheck : recheck op f preds [] s.group (heldState s f) = none :=
    recheck_eq_none fun t ht => by rw [hr.checkIn]; exact h.checkIn ht
  rw [runCollective, gangsOf_of_gangArrives h, arrive_eq_heldState h, List.foldl_cons, List.foldl_nil]
  simp only [collectGang, hr.pc, hr.group, heldAt_heldState h hh, hguard, hms, hcontains, holdEnds_heldState h hh, hcheck, Option.getD_none]
  rfl

end

/-! What is performed for the gang, as the issue of a group. -/

theorem applyWr_first (a b b' : Bool) (t : Nat) (s : State) {w : Wr} (h : w.isReg = false) : applyWr a b t s w = applyWr a b' t s w := by
  cases w with
  | reg r x l => simp [Wr.isReg] at h
  | _ => rfl

/-- Who writes first matters where a register is written. -/
theorem applyEff_first (f : Fields) (l : Label) (a b b' c : Bool) (t : Nat) (s : State) {e : Eff} (h : e.writes.any Wr.isReg = false) :
    applyEff f l a b c t s e = applyEff f l a b' c t s e := by
  have hw : applyWrs a b t s e.writes = applyWrs a b' t s e.writes :=
    List.foldl_ext _ _ _ fun s' w hw => applyWr_first a b b' t s' (by simpa using List.any_eq_false.1 h w hw)
  simp only [applyEff, Eff.act, hw]

/-- Whether its gang's first write has come matters to an access. -/
theorem applyEff_early (f : Fields) (l : Label) (a b c c' : Bool) (t : Nat) (s : State) {e : Eff} (h : e.accesses = []) :
    applyEff f l a b c t s e = applyEff f l a b c' t s e := by
  simp only [applyEff, Eff.leave, h, List.map_nil]

theorem uniOnce_accesses (serial : Nat) (c : List (Nat × List Wr)) (t : Nat) (e : Eff) : (uniOnce serial c t e).accesses = e.accesses := by
  simp only [uniOnce]
  split <;> rfl

section
variable {s : State} {op : Nat} {f : Fields} {preds : List Nat} {g : Nat} {e : Nat → Eff}

theorem judge_released (h : ∀ t ∈ s.group, Issues s op f preds [] t) :
    judge s op f preds [] (fun _ u => .go (e u)) = s.group.map (fun t => (t, some (.go (e t)))) := by
  have hready : s.readyGroup = s.group := List.filter_eq_self.2 fun t ht => by simp [(h t ht).ready]
  rw [judge, hready]
  exact List.map_congr_left fun t ht => by simp only [judgeOne, (h t ht).checkIn]

theorem goers_map (ts : List Nat) (e : Nat → Eff) : goers (ts.map (fun t => (t, some (.go (e t))))) = ts := by
  induction ts with
  | nil => rfl
  | cons t ts ih => exact congrArg (t :: ·) ih

theorem uniWrites_map {ts : List Nat} (e : Nat → Eff) (h : ∀ t ∈ ts, gangOf t = g) :
    uniWrites (ts.map (fun t => (t, some (.go (e t))))) g = ts.map (fun t => (t, (e t).writes.filter Wr.isUni)) := by
  induction ts with
  | nil => rfl
  | cons t ts ih =>
    obtain ⟨ht, hts⟩ := List.forall_mem_cons.1 h
    simp only [uniWrites, List.map_cons, List.filterMap_cons, ht, beq_self_eq_true, if_true]
    exact congrArg (_ :: ·) (ih hts)

theorem earlyWriters_map (ts : List Nat) (e : Nat → Eff) :
    earlyWriters (ts.map (fun t => (t, some (.go (e t))))) = ts.filter (fun t => (e t).writes.any Wr.isReg) := by
  induction ts with
  | nil => rfl
  | cons t ts ih =>
    simp only [earlyWriters, List.map_cons, List.filterMap_cons, List.filter_cons] at ih ⊢
    by_cases ht : (e t).writes.any Wr.isReg = true
    · rw [if_pos ht, if_pos ht]
      exact congrArg (t :: ·) ih
    · rw [if_neg ht, if_neg ht]
      exact ih

/-- Where every thread of the gang writes registers or none does, what is performed for the gang is the issue of the released group. -/
theorem perform_eq_runGroup {s₁ : State} {eff : State → Nat → Eff} (hg : ∀ t ∈ s₁.group, gangOf t = g)
    (hi : ∀ t ∈ s₁.group, Issues (s₁.release s₁.group) op f preds [] t) (heff : ∀ t ∈ s₁.group, eff s₁ t = e t)
    (hacc : ∀ t, (e t).accesses = []) {b : Bool} (hreg : ∀ t, (e t).writes.any Wr.isReg = b)
    (hx : ∀ t ∈ s₁.group, (s₁.thread t).sched ≠ .exited) :
    perform op f s₁.group eff s₁ = runGroup op f preds [] (fun _ u => .go (e u)) (s₁.release s₁.group) := by
  have hr : s₁.Rescheduled (s₁.release s₁.group) := .release ..
  have hguard : ∀ t ∈ s₁.group, guardTrue s₁ t f = true := fun t ht => by rw [← hr.guardTrue]; exact (hi t ht).guard
  have hws : s₁.group.filter (guardTrue s₁ · f) = s₁.group := List.filter_eq_self.2 hguard
  have hfull : fullGang (s₁.release s₁.group) g s₁.group = fullGang s₁ g s₁.group := by
    simp only [fullGang, hr.threadsOfGang]
    refine List.all_congr rfl fun t => ?_
    by_cases ht : t ∈ s₁.group
    · rw [(hi t ht).ready, show ((s₁.thread t).sched != .exited) = true from bne_iff_ne.2 (hx t ht)]
      rfl
    · simp [ht]
  have hjudge := judge_released (s := s₁.release s₁.group) (e := e) (by rw [hr.group]; exact hi)
  rw [hr.group] at hjudge
  simp only [perform, runGroup, hjudge, hws, List.foldl_map]
  refine List.foldl_ext _ _ _ fun s' t ht => ?_
  have huni : s₁.group.map (fun t => (t, (eff s₁ t).writes.filter Wr.isUni)) = s₁.group.map (fun t => (t, (e t).writes.filter Wr.isUni)) :=
    List.map_congr_left fun u hu => by rw [heff u hu]
  simp only [applyRes, hguard t ht, if_true, goers_map, uniWrites_map e hg, hg t ht, hfull, hr.labelOf, hr.issue, huni, heff t ht, earlyWriters_map,
    hreg]
  have hnone := (uniOnce_accesses s₁.issue.serial (s₁.group.map (fun t => (t, (e t).writes.filter Wr.isUni))) t (e t)).trans (hacc t)
  cases b with
  | true =>
    rw [List.filter_true]
    exact applyEff_early _ _ _ _ _ _ _ _ hnone
  | false =>
    refine (applyEff_first _ _ _ _ _ _ _ _ (List.any_eq_false.2 fun w hw => ?_)).trans (applyEff_early _ _ _ _ _ _ _ _ hnone)
    exact List.any_eq_false.1 (hreg t) w (uniOnce_writes_sub _ _ _ _ w hw)

end

/-! Results and predicates under one label, with the events that they count. -/

/-- The effect of a collective: a result and predicates under one label, and events. -/
def gangEff (ty : Ty) (d : Opnd) (v : DWord) (l : Label) (ps : List (Nat × Bool)) (evs : List Nat) : Eff :=
  { resultPredsEff ty d v l ps none with events := evs }

/-- The same effect for every thread of a group. -/
def gangRes (ty : Ty) (d : Opnd) (val : Nat → DWord) (lab : Nat → Label) (ps : Nat → List (Nat × Bool)) (evs : Nat → List Nat) : State → Nat → Res :=
  fun _ u => .go (gangEff ty d (val u) (lab u) (ps u) (evs u))

theorem gangEff_any_isReg (ty : Ty) (d : Opnd) (v : DWord) (l : Label) (ps : List (Nat × Bool)) (evs : List Nat) :
    (gangEff ty d v l ps evs).writes.any Wr.isReg = (wrTy ty d 0 0).any Wr.isReg := by
  have hps : (predWrs l ps).any Wr.isReg = false := by simp [predWrs, Wr.isReg]
  simp only [gangEff, resultPredsEff, List.any_append, hps, Bool.or_false, wrTy, wr64, wr32]
  cases d <;> (repeat' split) <;> rfl

section
variable {op : Nat} {f : Fields} {preds regs : List Nat} {eff : State → Nat → Res} {s : State} {t : Nat} {ty : Ty} {d : Opnd}
  {val : Nat → DWord} {lab : Nat → Label} {ps : Nat → List (Nat × Bool)} {evs : Nat → List Nat} {ns : List Nat}

theorem runGroup_gangEff_kept (h : Issues s op f preds regs t) (he : ∀ u, eff s u = .go (gangEff ty d (val u) (lab u) (ps u) (evs u))) :
    Kept ((wrTy ty d (val t) (lab t) ++ predWrs (lab t) (ps t)).foldl Wr.onThread (s.thread t))
      ((runGroup op f preds regs eff s).thread t) [] [] :=
  (resultPredsEff_onThread_kept _ _ _ none _).trans (runGroup_moved h (he t) rfl rfl).kept

theorem runGroup_gangEff_result (h : Issues s op f preds regs t) (he : ∀ u, eff s u = .go (gangEff ty d (val u) (lab u) (ps u) (evs u))) :
    ∃ u ∈ s.group, gangOf u = gangOf t ∧ guardTrue s u f = true ∧ (isUni d = false → u = t) ∧
      ResultTy (runGroup op f preds regs eff s) t ty d (val u) ∧
      ∀ r ∈ resultUnis ty d, r < 127 → ((runGroup op f preds regs eff s).gang (gangOf t)).sregLabel r = lab u := by
  by_cases hd : isUni d = false
  · refine ⟨t, h.mem, rfl, h.guard, fun _ => rfl, resultTy_of_wrTy (l := lab t) (x := s.thread t) hd (fun r => ?_), fun r hr => ?_⟩
    · have hk := (runGroup_gangEff_kept h he).regs r (by simp)
      rw [List.foldl_append] at hk
      have hp := (Wr.foldl_kept (predWrs_within (lab t) (ps t)) ((wrTy ty d (val t) (lab t)).foldl Wr.onThread (s.thread t))).regs r (by simp)
      exact ⟨hk.1.trans hp.1, hk.2.trans hp.2⟩
    · cases d <;> simp_all [isUni, resultUnis]
  · cases d with
    | s n =>
      obtain ⟨u, hu, hg, hgu, hv, hl⟩ := runGroup_uni (ty := ty) (n := n) (val := val) (lab := lab) (eff := eff)
        (e := fun u => gangEff ty (.s n) (val u) (lab u) (ps u) (evs u)) (rest := fun u => predWrs (lab u) (ps u)) h
        (fun u _ => he u) (fun _ _ => rfl) (fun u _ w hw => by obtain ⟨n, b, -, rfl⟩ := mem_predWrs hw; exact ⟨rfl, fun _ _ _ => by simp⟩)
        (fun _ _ => rfl)
      exact ⟨u, hu, hg, hgu, fun e => absurd e hd, hv, hl⟩
    | _ => simp [isUni] at hd

/-- The last write of a predicate is its value. -/
theorem runGroup_gangEff_pred (h : Issues s op f preds regs t) (he : ∀ u, eff s u = .go (gangEff ty d (val u) (lab u) (ps u) (evs u)))
    {n : Nat} {b : Bool} (hp : ps t = [(n, b)]) : PredIs (runGroup op f preds regs eff s) t n b := by
  intro hn
  have hk := (runGroup_gangEff_kept h he).preds n (by simp)
  rw [List.foldl_append, hp] at hk
  have hv := predWrs_last (l := lab t) (ps₁ := []) (ps₂ := []) (b := b) hn (by simp) ((wrTy ty d (val t) (lab t)).foldl Wr.onThread (s.thread t))
  exact ⟨hk.1.trans hv.1, hk.2.trans hv.2⟩

/-- The labels of what a group has done, for a state in which a thread issues where it executes in the state before. -/
theorem runGroup_gangEff_labelled {s₀ : State} (hs : s₀.Rescheduled s) (hx : ∀ u ∈ s₀.group, (s₀.thread u).sched ≠ .exited)
    (hi : ∀ u, Executes s₀ op f preds regs u → Issues s op f preds regs u) (h : Issues s op f preds regs t)
    (he : ∀ u, eff s u = .go (gangEff ty d (val u) (lab u) (ps u) (evs u))) (hns : ∀ u n, n ∈ (ps u).map Prod.fst ↔ n ∈ ns) :
    Labelled s₀ (runGroup op f preds regs eff s) op f preds regs t (resultRegs ty d) (resultUnis ty d) ns lab := by
  have htiles : ∀ r ∈ resultRegs ty d, r < 255 → _ := fun r hr h255 =>
    runGroup_tiles (eff := eff) (lab := lab) h h255 (fun u => ⟨_, he u⟩) (fun u e hu => by
      obtain rfl := Res.go.inj (hu.symm.trans (he u))
      rw [gangEff, resultPredsEff, List.filterMap_append, wrTy_onTile hr h255, predWrs_onTile, List.append_nil])
  simp only [hs.gang, hs.group, hs.threadsOfGang, hs.guardTrue] at htiles
  obtain ⟨u, hu, hg, hgu, -, -, hl⟩ := runGroup_gangEff_result h he
  rw [hs.group] at hu
  rw [hs.guardTrue] at hgu
  refine ⟨fun r hr k => (htiles r hr k).1, fun r hr k => (htiles r hr k).2.1, fun ha r hr k => (htiles r hr k).2.2.1 (fun u hu => hi u (ha u hu)),
    fun ⟨v, hv, hout⟩ r hr k => (htiles r hr k).2.2.2 ⟨v, hv, ?_⟩, fun r hr k => ⟨u, hu, hg, hgu, hl r hr k⟩, fun n hn h7 => ⟨?_, ?_⟩⟩
  · by_cases hm : v ∈ s₀.group
    · exact .inr (.inr ((hout.resolve_left (fun hn => hn hm)).resolve_left (hx v hm)))
    · exact .inl hm
  · have hp := runGroup_predLabel h h7 he (fun u x => resultPredsEff_onPredLabel (high := none) ((hns u n).mpr hn) x)
    simpa only [hs.group, hs.guardTrue] using hp
  · obtain ⟨p, hp, rfl⟩ := List.mem_map.mp ((hns t n).mpr hn)
    refine runGroup_joins h (he t) (ds := resultRegs ty d) (ps := ns) (us := resultUnis ty d) (bs := []) (fun u e hu => ?_)
      ⟨.pred p.1 p.2 (lab t), List.mem_append_right _ (List.mem_map_of_mem (f := fun p => Wr.pred p.1 p.2 (lab t)) hp), h7, rfl⟩
    obtain rfl := Res.go.inj (hu.symm.trans (he u))
    exact resultPredsEff_within (high := none) (fun n => (hns u n).mp)

theorem runGroup_gangEff_thread (h : Issues s op f preds regs t) (he : ∀ u, eff s u = .go (gangEff ty d (val u) (lab u) (ps u) (evs u)))
    (hns : ∀ u n, n ∈ (ps u).map Prod.fst ↔ n ∈ ns) : Kept (s.thread t) ((runGroup op f preds regs eff s).thread t) (resultRegs ty d) ns :=
  (Wr.foldl_kept (resultPredsEff_within (high := none) (fun n => (hns t n).mp)) (s.thread t)).trans
    ((runGroup_gangEff_kept h he).mono (List.nil_subset _) (List.nil_subset _))

end

theorem Thread.kept_of_unscheduled {x y : Thread} (h : y.unscheduled = x.unscheduled) : Kept x y [] [] := by
  have e : ∀ {β : Type} (g : Thread → β), (∀ w : Thread, g w.unscheduled = g w) → g y = g x := fun g hg => by rw [← hg y, h, hg]
  exact ⟨fun r _ => ⟨e (Thread.reg · r) (fun _ => rfl), e (Thread.full · r) (fun _ => rfl)⟩,
    fun n _ => ⟨e (Thread.pred · n) (fun _ => rfl), e (Thread.pending · n) (fun _ => rfl)⟩, e Thread.mode (fun _ => rfl),
    e Thread.cls (fun _ => rfl), ⟨e Thread.trapkind (fun _ => rfl), e Thread.trappc (fun _ => rfl), e Thread.trapinfo (fun _ => rfl),
    e Thread.shadow (fun _ => rfl)⟩, e Thread.budget (fun _ => rfl)⟩

/-- What a collective whose result is a register and predicates does for each thread of a gang that arrives whole. -/
structure CollectiveDone (s s' : State) (op : Nat) (f : Fields) (preds : List Nat) (t : Nat) (ty : Ty) (d : Opnd) (val : Nat → DWord)
    (ps : Nat → List (Nat × Bool)) (ns : List Nat) : Prop where
  result : ∃ u ∈ s.group, gangOf u = gangOf t ∧ guardTrue s u f = true ∧ (isUni d = false → u = t) ∧ ResultTy s' t ty d (val u)
  pred : ∀ n b, ps t = [(n, b)] → PredIs s' t n b
  labels : Labelled s s' op f preds [] t (resultRegs ty d) (resultUnis ty d) ns (labelOf s op f)
  pc : (s'.thread t).pc = nextPc s.pc
  kept : Kept (s.thread t) (s'.thread t) (resultRegs ty d) ns
  memory : s'.mem = s.mem

theorem runCollective_done {s : State} {op : Nat} {f : Fields} {preds : List Nat} {g t : Nat} {out : Coll → Nat → Label → CollOut} {ty : Ty}
    {d : Opnd} {val : Nat → DWord} {ps : Nat → List (Nat × Bool)} {ns : List Nat}
    (h : GangArrives s op f preds g) (hh : holdOf op f = some (memberHold f))
    (hmask : ∀ t ∈ s.group, ∀ u ∈ s.group, maskRead s f t = maskRead s f u)
    (hout : ∀ u ∈ s.group, (out (collOf s f g) u (labelOf s op f u)).1 =
      wrTy ty d (val u) (labelOf s op f u) ++ predWrs (labelOf s op f u) (ps u))
    (hns : ∀ u n, n ∈ (ps u).map Prod.fst ↔ n ∈ ns) (ht : t ∈ s.group) :
    CollectiveDone s (runCollective op f preds out s) op f preds t ty d val ps ns := by
  have hheld := heldState_rescheduled s f
  have hrel := releasedState_rescheduled s f
  have hgroup : (heldState s f).group = s.group := hheld.group
  let evs : Nat → List Nat := fun u => (out (collOf s f g) u (labelOf s op f u)).2
  have hrun : runCollective op f preds out s = runGroup op f preds [] (gangRes ty d val (labelOf s op f) ps evs) (releasedState s f) := by
    have hperform := perform_eq_runGroup (s₁ := heldState s f) (eff := collEff op f out g) (op := op) (f := f) (preds := preds) (g := g)
      (e := fun u => gangEff ty d (val u) (labelOf s op f u) (ps u) (evs u))
    simp only [hgroup] at hperform
    rw [runCollective_eq_perform out h hh hmask]
    refine hperform (fun u => h.gangOf) (fun u hu => releasedState_issues s f (h.issues u hu).1) (fun u hu => ?_) (fun _ => rfl)
      (fun _ => gangEff_any_isReg _ _ _ _ _ _) (fun u hu => by rw [heldState_sched h hh hu]; simp)
    simp only [collEff, hheld.labelOf]
    rw [show (out { s := heldState s f, f := f, present := presentLanes (heldState s f) f g } u (labelOf s op f u)).1 = _ from hout u hu]
    rfl
  have hissues := releasedState_issues s f (h.issues t ht).1
  have he : ∀ u, gangRes ty d val (labelOf s op f) ps evs (releasedState s f) u = .go (gangEff ty d (val u) (labelOf s op f u) (ps u) (evs u)) :=
    fun _ => rfl
  rw [hrun]
  obtain ⟨u, hu, hg, hgu, hd, hv, -⟩ := runGroup_gangEff_result hissues he
  exact {
    result := ⟨u, hrel.group ▸ hu, hg, hrel.guardTrue u f ▸ hgu, hd, hv⟩
    pred := fun n b hp => runGroup_gangEff_pred hissues he hp
    labels := runGroup_gangEff_labelled hrel (fun u hu => (h.mem_group.1 hu).2) (fun u => releasedState_issues s f) hissues he hns
    pc := (runGroup_moved hissues (he t) rfl rfl).pc.trans (congrArg nextPc hrel.pc)
    kept := ((Thread.kept_of_unscheduled (hrel.thread t)).mono (List.nil_subset _) (List.nil_subset _)).trans
      (runGroup_gangEff_thread hissues he hns)
    memory := (runGroup_mem ..).trans hrel.mem }

end Sys2Proof.Machine
end

section
/-! O13: votes, ballots, reductions, scans, MATCH and ELECT (R120, R131, R163, R165 to R168, R273, R274). -/

namespace Sys2Proof.Machine

/-! Lists of lanes. -/

theorem foldl_pow (ls : List Nat) (m : Nat) : ls.foldl (fun m k => m + 2 ^ k) m = m + (ls.map (fun k => 2 ^ k)).sum := by
  induction ls generalizing m with
  | nil => rfl
  | cons k ls ih => rw [List.foldl_cons, ih, List.map_cons, List.sum_cons, Nat.add_assoc]

theorem foldl_add_int {ls : List Nat} (v : Nat → Int) (x : Int) : ls.foldl (fun k i => k + v i) x = x + (ls.map v).sum := by
  induction ls generalizing x with
  | nil => simp
  | cons k ls ih => rw [List.foldl_cons, ih, List.map_cons, List.sum_cons, add_assoc]

theorem foldl_min_headD (vs : List Int) : vs.foldl min (vs.headD 0) = vs.min?.getD 0 := by
  cases vs with
  | nil => rfl
  | cons v vs => exact (congrArg (List.foldl min · vs) (min_self v))

theorem foldl_max_headD (vs : List Int) : vs.foldl max (vs.headD 0) = vs.max?.getD 0 := by
  cases vs with
  | nil => rfl
  | cons v vs => exact (congrArg (List.foldl max · vs) (max_self v))

/-- The part of an ascending list from its last start on, or all of it. -/
def fromLast (p : Nat → Bool) (ls : List Nat) : List Nat :=
  match (ls.filter p).getLast? with
  | some b => ls.filter (fun l => b ≤ l)
  | none => ls

/-- Lanes gathered anew at each start. -/
theorem foldl_restart (p : Nat → Bool) {ls : List Nat} (h : ls.Pairwise (· < ·)) :
    ls.foldl (fun acc k => if p k then [k] else acc ++ [k]) [] = fromLast p ls := by
  induction ls using List.reverseRecOn with
  | nil => rfl
  | append_singleton ls k ih =>
    obtain ⟨hls, -, hlt⟩ := List.pairwise_append.1 h
    have hbelow : ∀ l ∈ ls, l < k := fun l hl => hlt l hl k (by simp)
    rw [List.foldl_append, ih hls]
    by_cases hp : p k = true
    · have hnone : ls.filter (fun l => decide (k ≤ l)) = [] := by
        simpa using hbelow
      simp [fromLast, List.filter_append, hp, hnone]
    · have hsame : (ls ++ [k]).filter p = ls.filter p := by simp [List.filter_append, hp]
      rw [List.foldl_cons, List.foldl_nil, if_neg hp, fromLast, fromLast, hsame]
      cases hb : (ls.filter p).getLast? with
      | none => rfl
      | some b =>
        have hmem := (List.mem_filter.1 (List.mem_of_getLast? hb)).1
        simp only [List.filter_append, List.filter_cons, (hbelow b hmem).le, decide_true, if_true, List.filter_nil]

/-! A collective's view of the gang. -/

section
variable {s : State} {op : Nat} {f : Fields} {preds : List Nat} {g u : Nat} (h : GangArrives s op f preds g)
  (hh : holdOf op f = some (memberHold f)) (hu : u ∈ s.group)
include h hh

theorem collOf_present : (collOf s f g).present = s.group.map laneOf := by
  have hr := heldState_rescheduled s f
  have hguard : s.group.filter (fun t => guardTrue (heldState s f) t f) = s.group :=
    List.filter_eq_self.2 fun t ht => by rw [hr.guardTrue]; exact (h.issues t ht).1.1.guard
  simp only [collOf, presentLanes, hr.pc, heldAt_heldState h hh, hguard]

theorem collOf_present_contains {l : Nat} (hl : l < 32) : (collOf s f g).present.contains l = s.group.contains (threadAt g l) := by
  rw [collOf_present h hh, Bool.eq_iff_iff, List.contains_iff_mem, List.contains_iff_mem, List.mem_map]
  constructor
  · rintro ⟨t, ht, rfl⟩
    have hg := h.gangOf ht
    have hthread : threadAt g (laneOf t) = t := by simp only [gangOf] at hg; simp only [threadAt, laneOf]; omega
    rwa [hthread]
  · intro ht
    exact ⟨_, ht, by simp only [threadAt, laneOf]; omega⟩

include hu

theorem collOf_members : (collOf s f g).members u = membersOf f s u := by
  have hr := heldState_rescheduled s f
  have hg := h.gangOf hu
  rw [Coll.members, show (collOf s f g).s = heldState s f from rfl, show (collOf s f g).f = f from rfl, hr.memberLanes, memberLanes,
    memberLanesOf, membersOf, List.filter_filter]
  refine List.filter_congr fun l hl => ?_
  rw [collOf_present_contains h hh (List.mem_range.1 hl), hg, Bool.and_comm]

theorem mem_membersOf {l : Nat} (hl : l ∈ memberLanes s f u) : (membersOf f s u).contains l = (collOf s f g).present.contains l := by
  have hr := heldState_rescheduled s f
  rw [← collOf_members h hh hu, Coll.members, show (collOf s f g).s = heldState s f from rfl, show (collOf s f g).f = f from rfl, hr.memberLanes,
    Bool.eq_iff_iff, List.contains_iff_mem, List.mem_filter]
  exact and_iff_right hl

omit h hh hu in
theorem collOf_value (l : Nat) : (collOf s f g).value u l = laneBits f s u l := (heldState_rescheduled s f).readTy ..

omit h hh hu in
theorem collOf_f32 (l : Nat) : (collOf s f g).f32 u l = laneF32 f s u l := (heldState_rescheduled s f).readF ..

omit h hh hu in
theorem collOf_readPred (o : Opnd) (l : Nat) : readPred (collOf s f g).s (threadAt (gangOf u) l) o = laneTrue o s u l :=
  (heldState_rescheduled s f).readPred ..

theorem collOf_filter_voteOf : (memberLanes s f u).filter (voteOf (collOf s f g) u) = (membersOf f s u).filter (laneTrue f.a s u) := by
  have hr := heldState_rescheduled s f
  rw [← collOf_members h hh hu, Coll.members, show (collOf s f g).s = heldState s f from rfl, show (collOf s f g).f = f from rfl, hr.memberLanes,
    List.filter_filter]
  refine List.filter_congr fun l _ => ?_
  rw [voteOf, show (collOf s f g).f = f from rfl, collOf_readPred, Bool.and_comm]

omit h hh hu in
theorem wr32_ofNat (d : Opnd) (n : Nat) (l : Label) : wr32 d (BitVec.ofNat 32 n) l = wrTy .b32 d (BitVec.ofNat 64 n) l := by
  have hlo : DWord.lo (BitVec.ofNat 64 n) = BitVec.ofNat 32 n := by
    refine BitVec.eq_of_toNat_eq ?_
    simp only [DWord.lo, BitVec.toNat_setWidth, BitVec.toNat_ofNat]
    omega
  rw [← hlo]
  rfl

omit h hh hu in
/-- The sum of lanes, as every reduction and scan writes it. -/
theorem collOf_sumLanes (ls : List Nat) (l : Label) : (sumLanes (collOf s f g) u ls l).1 = wrTy f.ty f.d (sumOfLanes f s u ls) l := by
  have hr := heldState_rescheduled s f
  by_cases hty : f.ty = .f32
  · simp only [sumLanes, show (collOf s f g).f = f from rfl, show (collOf s f g).s = heldState s f from rfl, hty, beq_self_eq_true, if_true,
      collOf_f32, hr.rm, sumOfLanes, floatBits, wr32_ofNat]
    rfl
  · have hne : (f.ty == .f32) = false := by simpa using hty
    simp only [sumLanes, show (collOf s f g).f = f from rfl, hne, Bool.false_eq_true, if_false, sumOfLanes, hty, collOf_value, foldl_add_int, zero_add]
    rfl

omit h hh hu in
theorem membersOf_sorted (f : Fields) (s : State) (u : Nat) : (membersOf f s u).Pairwise (· < ·) := List.pairwise_lt_range.filter _

theorem collOf_segment : segment (collOf s f g) u = scanLanes f s u := by
  rw [segment, collOf_members h hh hu]
  simp only [show (collOf s f g).f = f from rfl, collOf_readPred]
  exact foldl_restart _ ((membersOf_sorted f s u).filter _)

theorem collOf_redgPick (isMax : Bool) (l : Label) : (redgPick isMax (collOf s f g) u l).1 = wrTy f.ty f.d
    (if f.ty = .f32 then BitVec.ofNat 64 ((membersOf f s u).foldl (fun k l => fmtF32.minmax isMax k (laneF32 f s u l)) fmtF32.nanBits)
      else narrow f.ty false (if isMax then ((membersOf f s u).map (laneInt f s u)).max?.getD 0 else ((membersOf f s u).map (laneInt f s u)).min?.getD 0)) l := by
  by_cases hty : f.ty = .f32
  · simp only [redgPick, show (collOf s f g).f = f from rfl, hty, beq_self_eq_true, if_true, collOf_members h hh hu, collOf_f32, wr32_ofNat]
    rfl
  · have hne : (f.ty == .f32) = false := by simpa using hty
    have hvals : (membersOf f s u).map (fun i => asInt f.ty (laneBits f s u i)) = (membersOf f s u).map (laneInt f s u) := rfl
    simp only [redgPick, show (collOf s f g).f = f from rfl, hne, Bool.false_eq_true, if_false, hty, collOf_members h hh hu, collOf_value, hvals]
    cases isMax with
    | true => simp only [if_true, foldl_max_headD]
    | false => simp only [Bool.false_eq_true, if_false, foldl_min_headD]

end

/-! The forms. -/

section
variable {s : State} {f : Fields} {g : Nat}

/-- A collective that writes one predicate. -/
theorem runCollective_vote {op : Nat} {out : Coll → Nat → Label → CollOut} {value : Nat → Bool} (h : GangArrives s op f [] g)
    (hh : holdOf op f = some (memberHold f)) (hmask : ∀ t ∈ s.group, ∀ u ∈ s.group, maskRead s f t = maskRead s f u)
    (hout : ∀ u ∈ s.group, ∀ l, (out (collOf s f g) u l).1 = wrPred f.d (value u) l) {t : Nat} (ht : t ∈ s.group) :
    PredIn (runCollective op f [] out s) t f.d (value t) ∧
      Labelled s (runCollective op f [] out s) op f [] [] t [] [] (resultPreds f.d) (labelOf s op f) ∧
      ((runCollective op f [] out s).thread t).pc = nextPc s.pc ∧ Kept (s.thread t) ((runCollective op f [] out s).thread t) [] (resultPreds f.d) ∧
      ∀ a, (runCollective op f [] out s).mem.get a = s.mem.get a := by
  have hdone := runCollective_done (ty := .b32) (d := .imm 0) (val := fun _ => 0) (ps := fun u => destPred f.d (value u)) (ns := resultPreds f.d)
    h hh hmask (fun u hu => by rw [hout u hu, wrPred_eq]; rfl) (fun u n => by rw [destPred_fst]) ht
  exact ⟨predIn_of fun n hd => hdone.pred _ _ (by rw [hd]; rfl), hdone.labels, hdone.pc, hdone.kept, fun a => by rw [hdone.memory]⟩

/-- A collective that writes one register. -/
theorem runCollective_register {op : Nat} {out : Coll → Nat → Label → CollOut} {ty : Ty} {value : Nat → DWord} (h : GangArrives s op f [] g)
    (hh : holdOf op f = some (memberHold f)) (hmask : ∀ t ∈ s.group, ∀ u ∈ s.group, maskRead s f t = maskRead s f u)
    (hout : ∀ u ∈ s.group, ∀ l, (out (collOf s f g) u l).1 = wrTy ty f.d (value u) l) {t : Nat} (ht : t ∈ s.group) :
    ResultIn s (runCollective op f [] out s) f t ty value ∧
      Labelled s (runCollective op f [] out s) op f [] [] t (resultRegs ty f.d) (resultUnis ty f.d) [] (labelOf s op f) ∧
      ((runCollective op f [] out s).thread t).pc = nextPc s.pc ∧ Kept (s.thread t) ((runCollective op f [] out s).thread t) (resultRegs ty f.d) [] ∧
      ∀ a, (runCollective op f [] out s).mem.get a = s.mem.get a := by
  have hdone := runCollective_done (ty := ty) (d := f.d) (val := value) (ps := fun _ => []) (ns := []) h hh hmask
    (fun u hu => by rw [hout u hu]; exact (List.append_nil _).symm) (fun _ _ => Iff.rfl) ht
  exact ⟨hdone.result, hdone.labels, hdone.pc, hdone.kept, fun a => by rw [hdone.memory]⟩

end

theorem votesAndElectWriteTheirPredicate : Rule.VotesAndElectWriteTheirPredicate := by
  simp only [Rule.VotesAndElectWriteTheirPredicate, voteForms, List.forall_mem_cons, List.not_mem_nil, false_imp_iff, implies_true, and_true]
  refine ⟨fun f s g h hmask => ⟨runCollective 0x0C4 f [] voteAll s, rfl, fun t => runCollective_vote
      (value := fun u => (memberLanes s f u).all (fun l => (membersOf f s u).contains l && laneTrue f.a s u l)) h rfl hmask fun u hu l => ?_⟩,
    fun f s g h hmask => ⟨runCollective 0x0C5 f [] voteAny s, rfl, fun t => runCollective_vote
      (value := fun u => (membersOf f s u).any (laneTrue f.a s u)) h rfl hmask fun u hu l => ?_⟩,
    fun f s g h hmask => ⟨runCollective 0x0CC f [] electOut s, rfl, fun t => runCollective_vote
      (value := fun u => (membersOf f s u).head? == some (laneOf u)) h rfl hmask fun u hu l => ?_⟩⟩
  · have hr := heldState_rescheduled s f
    rw [voteAll, show (collOf s f g).s = heldState s f from rfl, show (collOf s f g).f = f from rfl, hr.memberLanes]
    refine congrArg (wrPred f.d · l) ?_
    rw [Bool.eq_iff_iff, List.all_eq_true, List.all_eq_true]
    refine forall₂_congr fun k hk => ?_
    rw [mem_membersOf h rfl hu hk, voteOf, show (collOf s f g).f = f from rfl, collOf_readPred]
  · have hr := heldState_rescheduled s f
    rw [voteAny, show (collOf s f g).s = heldState s f from rfl, show (collOf s f g).f = f from rfl, hr.memberLanes]
    refine congrArg (wrPred f.d · l) ?_
    rw [Bool.eq_iff_iff, List.any_eq_true, List.any_eq_true]
    exact exists_congr fun k => by rw [← List.mem_filter, ← List.mem_filter, collOf_filter_voteOf h rfl hu]
  · rw [electOut, collOf_members h rfl hu]
    rfl

theorem gangReductionsGiveTheirResults : Rule.GangReductionsGiveTheirResults := by
  simp only [Rule.GangReductionsGiveTheirResults, gangForms, List.forall_mem_cons, List.not_mem_nil, false_imp_iff, implies_true, and_true]
  refine ⟨fun f s g h hmask => ⟨runCollective 0x0C6 f [] voteBallot s, rfl, fun t => runCollective_register h rfl hmask fun u hu l => ?_⟩,
    fun f s g h hmask => ⟨runCollective 0x0C7 f [] redgAdd s, rfl, fun t => runCollective_register h rfl hmask fun u hu l => ?_⟩,
    fun f s g h hmask => ⟨runCollective 0x0C8 f [] (redgPick false) s, rfl, fun t => runCollective_register h rfl hmask fun u hu l => ?_⟩,
    fun f s g h hmask => ⟨runCollective 0x0C9 f [] (redgPick true) s, rfl, fun t => runCollective_register h rfl hmask fun u hu l => ?_⟩,
    fun f s g h hmask => ⟨runCollective 0x0CA f [] scang s, rfl, fun t => runCollective_register h rfl hmask fun u hu l => ?_⟩,
    fun f s g h hmask => ⟨runCollective 0x0CB f [] matchOut s, rfl, fun t => runCollective_register h rfl hmask fun u hu l => ?_⟩⟩
  · have hr := heldState_rescheduled s f
    rw [voteBallot, show (collOf s f g).s = heldState s f from rfl, show (collOf s f g).f = f from rfl, hr.memberLanes,
      collOf_filter_voteOf h rfl hu, foldl_pow, Nat.zero_add, wr32_ofNat]
    rfl
  · rw [redgAdd, collOf_members h rfl hu, collOf_sumLanes]
  · exact collOf_redgPick h rfl hu false l
  · exact collOf_redgPick h rfl hu true l
  · rw [scang, collOf_segment h rfl hu, collOf_sumLanes]
  · simp only [matchOut, collOf_members h rfl hu, collOf_value, foldl_pow, Nat.zero_add, wr32_ofNat]
    rfl

/-- Settles O13: each collective is the issue of the gang's threads as one group, and its present members are those of the group. -/
theorem votesAndReductions : Obligations.VotesAndReductions := ⟨votesAndElectWriteTheirPredicate, gangReductionsGiveTheirResults⟩

end Sys2Proof.Machine
end

section
/-! SUPPORT. A record instruction at issue: registers marked empty, predicates marked pending, an access on its way (R123, R286, R292). -/

namespace Sys2Proof.Machine

/-! Registers marked empty and predicates marked pending. -/

theorem Thread.full_markEmpty (x : Thread) (n r : Nat) : (x.markEmpty n).full r = if r = n ∧ n ≠ 255 then false else x.full r := by
  simp only [Thread.markEmpty, Thread.full]
  by_cases hn : n = 255
  · simp [hn]
  · by_cases hr : r = n
    · simp [hn, hr, tabGetD]
    · simp [hn, hr, tabGetD]

theorem Thread.markEmpty_kept {ds : List Nat} (ps : List Nat) (x : Thread) {n : Nat} (h : n ∈ ds) : Kept x (x.markEmpty n) ds ps := by
  by_cases hn : n = 255
  · rw [Thread.markEmpty, if_pos hn]
    exact .refl _ _ _
  · have hset : x.markEmpty n = { x with empty := tabPut x.empty n true } := if_neg hn
    refine ⟨fun r hr => ⟨by rw [hset]; rfl, ?_⟩, fun _ _ => by rw [hset]; exact ⟨rfl, rfl⟩, by rw [hset], by rw [hset],
      by rw [hset]; exact ⟨rfl, rfl, rfl, rfl⟩, by rw [hset]; rfl⟩
    have hne : ¬ (r = n ∧ n ≠ 255) := fun hrn => hr (hrn.1 ▸ h)
    rw [Thread.full_markEmpty, if_neg hne]

theorem Thread.setPend_kept (ds : List Nat) {ps : List Nat} (x : Thread) {n : Nat} (h : n ∈ ps) (b : Bool) : Kept x (x.setPend n b) ds ps := by
  by_cases hn : n < 7
  · have hset : x.setPend n b = { x with pend := if b then x.pend ||| BitVec.twoPow 8 n else x.pend &&& ~~~(BitVec.twoPow 8 n) } := if_pos hn
    refine ⟨fun _ _ => by rw [hset]; exact ⟨rfl, rfl⟩, fun k hk => ⟨by rw [hset]; rfl, ?_⟩, by rw [hset], by rw [hset],
      by rw [hset]; exact ⟨rfl, rfl, rfl, rfl⟩, by rw [hset]; rfl⟩
    have hne : k ≠ n := fun hkn => hk (hkn ▸ h)
    rw [Thread.pending_setPend x hn, if_neg hne]
  · rw [Thread.setPend, if_neg hn]
    exact .refl _ _ _

theorem markEmpties_kept {ds : List Nat} (ps es : List Nat) (h : ∀ n ∈ es, n ∈ ds) (x : Thread) : Kept x (es.foldl Thread.markEmpty x) ds ps := by
  induction es generalizing x with
  | nil => exact .refl _ _ _
  | cons n es ih => exact (x.markEmpty_kept ps (h n (by simp))).trans (ih (fun k hk => h k (by simp [hk])) _)

theorem setPends_kept (ds : List Nat) {ps : List Nat} (ns : List Nat) (h : ∀ n ∈ ns, n ∈ ps) (x : Thread) :
    Kept x (ns.foldl (fun x n => x.setPend n true) x) ds ps := by
  induction ns generalizing x with
  | nil => exact .refl _ _ _
  | cons n ns ih => exact (x.setPend_kept ds (h n (by simp)) true).trans (ih (fun k hk => h k (by simp [hk])) _)

/-- A register marked empty is empty. -/
theorem markEmpties_full {es : List Nat} {r : Nat} (hr : r ∈ es) (h255 : r ≠ 255) (x : Thread) : (es.foldl Thread.markEmpty x).full r = false := by
  induction es generalizing x with
  | nil => cases hr
  | cons n es ih =>
    by_cases hm : r ∈ es
    · exact ih hm _
    · obtain rfl : r = n := (List.mem_cons.1 hr).resolve_right hm
      rw [List.foldl_cons, ((markEmpties_kept [] es (fun _ h => h) (x.markEmpty r)).regs r hm).2, Thread.full_markEmpty, if_pos ⟨rfl, h255⟩]

/-- A predicate marked pending is pending. -/
theorem setPends_pending {ns : List Nat} {n : Nat} (hn : n ∈ ns) (h7 : n < 7) (x : Thread) :
    (ns.foldl (fun x n => x.setPend n true) x).pending n = true := by
  induction ns generalizing x with
  | nil => cases hn
  | cons k ns ih =>
    by_cases hm : n ∈ ns
    · exact ih hm _
    · obtain rfl : n = k := (List.mem_cons.1 hn).resolve_right hm
      rw [List.foldl_cons, ((setPends_kept [] ns (fun _ h => h) (x.setPend n true)).preds n hm).2, Thread.pending_setPend _ h7, if_pos rfl]

/-! The effect of a form that sends an access. -/

/-- Writes, registers that go empty, predicates that become pending, an access, and a wait. -/
def sendEff (ws : List Wr) (es ns : List Nat) (a : Access) (w : Option Why) : Eff :=
  { writes := ws, empties := es, pend := ns, accesses := [a], wait := w }

/-- The thread as it sees such an effect. -/
def sendThread (ws : List Wr) (es ns : List Nat) (x : Thread) : Thread :=
  ns.foldl (fun x n => x.setPend n true) (es.foldl Thread.markEmpty (ws.foldl Wr.onThread x))

theorem sendEff_onThread (ws : List Wr) (es ns : List Nat) (a : Access) (w : Option Why) (x : Thread) :
    Kept (sendThread ws es ns x) ((sendEff ws es ns a w).onThread x) [] [] := by
  simp only [sendEff, sendThread, Eff.onThread, Eff.changed]
  generalize ns.foldl (fun x n => x.setPend n true) (es.foldl Thread.markEmpty (ws.foldl Wr.onThread x)) = y
  exact ⟨fun _ _ => ⟨rfl, rfl⟩, fun _ _ => ⟨rfl, rfl⟩, rfl, rfl, ⟨rfl, rfl, rfl, rfl⟩, rfl⟩

theorem sendThread_kept {ws : List Wr} {es ns ds ps us bs : List Nat} (hw : ∀ w ∈ ws, w.within ds ps us bs) (he : ∀ n ∈ es, n ∈ ds)
    (hn : ∀ n ∈ ns, n ∈ ps) (x : Thread) : Kept x (sendThread ws es ns x) ds ps :=
  ((Wr.foldl_kept hw x).trans (markEmpties_kept ps es he _)).trans (setPends_kept ds ns hn _)

theorem sendThread_full {ws : List Wr} {es ns : List Nat} {r : Nat} (hr : r ∈ es) (h255 : r ≠ 255) (x : Thread) :
    (sendThread ws es ns x).full r = false :=
  ((setPends_kept [] ns (fun _ h => h) _).regs r (by simp)).2.trans (markEmpties_full hr h255 _)

theorem sendThread_pending {ws : List Wr} {es ns : List Nat} {n : Nat} (hn : n ∈ ns) (h7 : n < 7) (x : Thread) :
    (sendThread ws es ns x).pending n = true := setPends_pending hn h7 _

/-- A predicate that does not become pending is as the writes leave it. -/
theorem sendThread_pred {ws : List Wr} {es ns : List Nat} {n : Nat} (hn : n ∉ ns) (x : Thread) :
    (sendThread ws es ns x).pred n = (ws.foldl Wr.onThread x).pred n ∧
      (sendThread ws es ns x).pending n = (ws.foldl Wr.onThread x).pending n :=
  ((markEmpties_kept ns es (fun _ h => h) (ws.foldl Wr.onThread x)).trans (setPends_kept es ns (fun _ h => h) _)).preds n hn

/-! The machine around the thread as an access leaves. -/

/-- What the stamp of an access is taken from, apart from its thread and its gang. -/
def State.sending (s : State) : Tab Access × Nat × Nat × Tab Slice × Tab Unit × Issue :=
  (s.accesses, s.nextId, s.time, s.slices, s.units, s.issue)

theorem applyWr_sending (a b : Bool) (t : Nat) (s : State) (w : Wr) : (applyWr a b t s w).sending = s.sending := by
  cases w <;> simp only [applyWr] <;> (try split) <;> rfl

theorem Eff.act_sending (e : Eff) (a b : Bool) (t : Nat) (s : State) : (e.act a b t s).sending = s.sending := by
  have hw : (applyWrs a b t s e.writes).sending = s.sending := foldl_keeps _ State.sending _ _ fun _ _ _ => applyWr_sending _ _ _ _ _
  simp only [Eff.act, State.countEvents, State.setTiles]
  split <;> split <;> exact hw

/-- What issue counts of a thread, and its place in the schedule. -/
def Thread.standing (x : Thread) : Sched × Nat := (x.sched, x.issued)

theorem applyWr_standing (a b : Bool) (t : Nat) (s : State) (w : Wr) : ((applyWr a b t s w).thread t).standing = (s.thread t).standing := by
  cases w with
  | reg r x l =>
    simp only [applyWr]
    split
    · rfl
    · simp only [State.thread_modGang, State.thread_modThread, if_true, Thread.setReg, Thread.markFull]
      split <;> rfl
  | pred n v l =>
    simp only [applyWr]
    split
    · simp only [State.thread_modGang, State.thread_modThread, if_true, Thread.setPred, Thread.setPend]
      repeat' split
      all_goals rfl
    · rfl
  | _ => rfl

theorem Eff.alter_standing (e : Eff) (clk : Nat) (x : Thread) : (e.alter clk x).standing = x.standing := by
  have hes : (e.empties.foldl Thread.markEmpty x).standing = x.standing :=
    foldl_keeps _ Thread.standing _ _ fun y n _ => by simp only [Thread.markEmpty]; split <;> rfl
  have hns : ∀ y : Thread, (e.pend.foldl (fun x n => x.setPend n true) y).standing = y.standing := fun y =>
    foldl_keeps _ Thread.standing _ _ fun y n _ => by simp only [Thread.setPend]; split <;> rfl
  refine Eq.trans ?_ ((hns _).trans hes)
  simp only [Eff.alter]
  split <;> rfl

theorem Eff.act_standing (e : Eff) (a b : Bool) (t : Nat) (s : State) : ((e.act a b t s).thread t).standing = (s.thread t).standing := by
  have hw : ((applyWrs a b t s e.writes).thread t).standing = (s.thread t).standing :=
    foldl_keeps _ (fun s => (State.thread s t).standing) _ _ fun _ _ _ => applyWr_standing _ _ _ _ _
  have ht : (e.act a b t s).thread t = e.alter (s.clkOf t) ((applyWrs a b t s e.writes).thread t) := by
    simp only [Eff.act, State.thread_countEvents, State.setTiles]
    split <;> simp
  rw [ht, Eff.alter_standing, hw]

theorem Eff.close_accesses (e : Eff) (l : Label) (t : Nat) (p : Pc) (s : State) (hx : e.exits = false) (hc : e.check = false) :
    (e.close l t p s).accesses = s.accesses := by
  simp only [Eff.close, hx, hc, Bool.false_and, Bool.false_eq_true, if_false]
  split <;> rfl

section
variable {f : Fields} {s : State} {t : Nat} {e : Eff} {a : Access}

/-- An effect with one access sends it, with the next number. -/
theorem applyEff_sends (l : Label) (full first early : Bool) (hx : e.exits = false) (hc : e.check = false) (ha : e.accesses = [a]) :
    Sends s (applyEff f l full first early t s e) t a := by
  have hs := e.act_sending full first t s
  simp only [State.sending, Prod.mk.injEq] at hs
  obtain ⟨hacc, hid, htime, hslices, hunits, hissue⟩ := hs
  have hissued : ((e.act full first t s).thread t).issued = (s.thread t).issued := congrArg Prod.snd (e.act_standing full first t s)
  have hclk : (e.act full first t s).clkOf t = s.clkOf t := by
    simp only [State.clkOf, State.clkOfUnit, State.clkStart, State.unit, State.slice, htime, hslices, hunits]
  have hleft : (applyEff f l full first early t s e).accesses =
      tabPut s.accesses s.nextId (stampAccess (e.act full first t s) t (full && !early) a) := by
    simp only [applyEff]
    rw [e.close_accesses _ _ _ _ hx hc]
    simp only [Eff.leave, ha, List.map_cons, List.map_nil, ← hacc, ← hid]
    rfl
  rw [Sends, hleft]
  refine ⟨⟨full && !early, tabGetD 0 ((e.act full first t s).gang (gangOf t)).mready (laneOf t), ?_⟩, fun id hne => ?_⟩
  · rw [tabGet_put, if_pos rfl, stampAccess, hissued, hclk, hissue]
  · rw [tabGet_put, if_neg hne]

/-- An effect with a wait blocks its thread. -/
theorem applyEff_waits (l : Label) (full first early : Bool) {w : Why} (hr : (s.thread t).sched = .ready) (hx : e.exits = false)
    (hc : e.check = false) (hw : e.wait = some w) : ((applyEff f l full first early t s e).thread t).sched = .blocked w := by
  have hsched : ((e.act full first t s).thread t).sched = .ready := (congrArg Prod.fst (e.act_standing full first t s)).trans hr
  have hleft : ((e.leave f full early t (e.next.getD (nextPc s.pc)) (e.act full first t s)).thread t).sched = .ready := by
    simp [Eff.leave, retire, State.charge, hsched]
  simp only [applyEff, Eff.close, hx, hc, hw, Bool.false_and, Bool.false_eq_true, if_false, State.block, State.thread_modThread, if_true]
  exact Thread.goTo_ready hleft _

end
end Sys2Proof.Machine
end

section
/-! SUPPORT. What a read of memory changes: the caches and their bookkeeping at the slices, and nothing that a program sees (R240, R245, R246, R356). -/

namespace Sys2Proof.Machine

/-- A core apart from its L1 and its TLB. -/
def Core.uncached (c : Core) : Core := { c with l1 := [], fills := 0, tlb := [] }

/-- The states differ in their cores' caches and in their slices alone. -/
structure State.CachesOnly (s s' : State) : Prop where
  rest : s' = { s with cores := s'.cores, slices := s'.slices }
  core : ∀ c, (s'.core c).uncached = (s.core c).uncached

namespace State.CachesOnly
variable {s s' s'' : State}

theorem refl (s : State) : s.CachesOnly s := ⟨rfl, fun _ => rfl⟩

theorem trans (h : s.CachesOnly s') (k : s'.CachesOnly s'') : s.CachesOnly s'' := by
  refine ⟨k.rest.trans ?_, fun c => (k.core c).trans (h.core c)⟩
  conv => lhs; rw [h.rest]

theorem modSlice (s : State) (k : Nat) (F : Slice → Slice) : s.CachesOnly (s.modSlice k F) := ⟨rfl, fun _ => rfl⟩

theorem modCore (s : State) (k : Nat) {F : Core → Core} (hF : ∀ c, (F c).uncached = c.uncached) : s.CachesOnly (s.modCore k F) := by
  refine ⟨rfl, fun c => ?_⟩
  by_cases hc : c = k
  · subst hc; simp [State.modCore_eq, hF]
  · simp [State.modCore_eq, hc]

theorem foldl {α : Type} (F : State → α → State) (hF : ∀ b a, State.CachesOnly b (F b a)) (l : List α) (s : State) : s.CachesOnly (l.foldl F s) := by
  induction l generalizing s with
  | nil => exact refl s
  | cons a l ih => exact (hF s a).trans (ih _)

theorem threads (h : s.CachesOnly s') : s'.threads = s.threads := by rw [h.rest]
theorem gangs (h : s.CachesOnly s') : s'.gangs = s.gangs := by rw [h.rest]
theorem units (h : s.CachesOnly s') : s'.units = s.units := by rw [h.rest]
theorem launches (h : s.CachesOnly s') : s'.launches = s.launches := by rw [h.rest]
theorem accesses (h : s.CachesOnly s') : s'.accesses = s.accesses := by rw [h.rest]
theorem mem (h : s.CachesOnly s') : s'.mem = s.mem := by rw [h.rest]

/-- What a function reads of a core apart from its caches is the same. -/
theorem read (h : s.CachesOnly s') (c : Nat) {β : Type} (g : Core → β) (hg : ∀ x, g x.uncached = g x) : g (s'.core c) = g (s.core c) := by
  rw [← hg (s'.core c), h.core, hg]

theorem cacheLeaf (s : State) (core va : Nat) (l : Leaf) : s.CachesOnly (s.cacheLeaf core va l) := by
  simp only [State.cacheLeaf]
  split
  · exact refl s
  · exact (modCore s core (F := fun c => { c with tlb := tlbPut 128 c.tlb va l }) fun _ => rfl).trans (modSlice _ _ _)

theorem cachePieces (s : State) (core : Nat) (ps : List Piece) : s.CachesOnly (s.cachePieces core ps) :=
  foldl _ (fun b p => by
    split
    · exact refl b
    · exact cacheLeaf b core p.va p.leaf) ps s

theorem atL2 (s : State) (part : Nat) (p : Piece) (prio : Nat) : s.CachesOnly (s.atL2 part p prio) := by
  simp only [State.atL2]
  split
  · exact modSlice _ _ _
  · exact (modSlice s _ _).trans (modSlice _ _ _)
  · exact refl s

theorem dropL1 (s : State) (core part : Nat) (p : Piece) : s.CachesOnly (s.dropL1 core part p) := by
  simp only [State.dropL1]
  split
  · exact refl s
  · exact modCore s _ fun _ => rfl

/-- A piece that a core reads. -/
theorem readPiece (s : State) (core part : Nat) (p : Piece) (prio : Option Nat) (l1 : Bool) :
    s.CachesOnly (readPiece s core part p prio l1).2.2 := by
  simp only [Machine.readPiece]
  split
  · exact refl s
  · split
    · exact refl s
    · have h2 := atL2 s part p (prio.getD 0)
      split
      · exact h2.trans (dropL1 _ core part p)
      · exact (h2.trans (modSlice _ _ _)).trans (modCore _ _ (F := fun x => x.fillLine _ _) fun _ => rfl)

end State.CachesOnly

end Sys2Proof.Machine
end

section
/-! O16: record instructions and PREF at issue (R123, R232, R286, R287, R289, R292, R293, R299). -/

namespace Sys2Proof.Machine

section
variable {m : MemOp} {f : Fields} {s : State} {t : Nat}

theorem exec_memForms : ∀ x ∈ memForms, ∀ f s, exec (x.1 f) s = .next (runMem x.2 f s) := by
  simp only [memForms, List.forall_mem_cons, List.not_mem_nil, false_imp_iff, implies_true, and_true]
  refine ⟨?_, ?_, ?_, ?_, ?_, ?_, ?_, ?_, ?_, ?_, ?_, ?_, ?_, ?_, ?_, ?_, ?_, ?_, ?_, ?_, ?_, ?_⟩ <;> exact fun _ _ => rfl

/-- What a record instruction whose tests pass does for a thread that issues alone. -/
def accessEff (m : MemOp) (f : Fields) (s : State) (t : Nat) : Eff :=
  sendEff (bpWrite f false (labelOf s m.op f t)) (if returns m then destRegs m f else []) (existIx m f) (accessOf s m f t false)
    (if isUni f.d then some (.landing s.issue.serial) else none)

theorem isLeader_alone {op : Nat} {preds regs : List Nat} (h : Alone s op f preds regs t) : isLeader s op f preds regs t = true := by
  simp [isLeader, h.alone, h.ready, h.toIssues.checkIn]

theorem memEff_inBounds (h : Alone s m.op f (bpPreds f) [] t) (hb : InBounds m f s t) : memEff m f s t = .go (accessEff m f s t) := by
  simp only [memEff, hb.record, hb.room, hb.bounds, hb.align, isLeader_alone h, Bool.or_true, Bool.false_eq_true, if_false, if_true]
  rfl

theorem runMem_inBounds (h : Alone s m.op f (bpPreds f) [] t) (hb : InBounds m f s t) :
    runMem m f s = appliedAlone m.op f s t (accessEff m f s t) := runGroup_go_alone h (memEff_inBounds h hb)

/-- The same as the issue of a group whose every thread has that effect. -/
theorem runMem_eq_runGroup (h : Alone s m.op f (bpPreds f) [] t) (hb : InBounds m f s t) :
    runMem m f s = runGroup m.op f (bpPreds f) [] (fun _ _ => .go (accessEff m f s t)) s :=
  (runMem_inBounds h hb).trans (runGroup_go_alone h rfl).symm

theorem bpWrite_within (b : Bool) (l : Label) : ∀ w ∈ bpWrite f b l, w.within [] (bpPreds f) [] [] := by
  intro w hw
  simp only [bpWrite] at hw
  split at hw
  · rename_i hbp
    obtain rfl := List.mem_singleton.1 hw
    simp [Wr.within, bpPreds, hbp]
  · cases hw

theorem existIx_lt {n : Nat} (h : n ∈ existIx m f) : n < 7 := by
  simp only [existIx] at h
  split at h
  · simp only [modPred] at h
    split at h
    · simp_all
    · cases h
  · cases h

/-- What a record instruction whose tests pass leaves of its thread, as its effect has it. -/
theorem runMem_moved (h : Alone s m.op f (bpPreds f) [] t) (hb : InBounds m f s t) :
    Thread.Moved ((accessEff m f s t).onThread (s.thread t)) ((runMem m f s).thread t) (nextPc s.pc) :=
  runGroup_moved h.toIssues (memEff_inBounds h hb) rfl rfl

theorem runMem_view (h : Alone s m.op f (bpPreds f) [] t) (hb : InBounds m f s t) :
    Kept (sendThread (bpWrite f false (labelOf s m.op f t)) (if returns m then destRegs m f else []) (existIx m f) (s.thread t))
      ((runMem m f s).thread t) [] [] := (sendEff_onThread _ _ _ _ _ _).trans (runMem_moved h hb).kept

theorem runMem_sends (h : Alone s m.op f (bpPreds f) [] t) (hb : InBounds m f s t) : Sends s (runMem m f s) t (accessOf s m f t false) := by
  rw [runMem_inBounds h hb]
  exact applyEff_sends _ _ _ _ rfl rfl rfl

theorem runMem_waits (h : Alone s m.op f (bpPreds f) [] t) (hb : InBounds m f s t) (hu : isUni f.d = true) :
    ((runMem m f s).thread t).sched = .blocked (.landing s.issue.serial) := by
  rw [runMem_inBounds h hb]
  exact applyEff_waits _ _ _ _ h.ready rfl rfl (if_pos hu)

theorem runMem_empty (h : Alone s m.op f (bpPreds f) [] t) (hb : InBounds m f s t) (hret : returns m = true) {r : Nat} (hr : r ∈ destRegs m f)
    (h255 : r ≠ 255) : ((runMem m f s).thread t).full r = false := by
  rw [((runMem_view h hb).regs r (by simp)).2, if_pos hret]
  exact sendThread_full hr h255 _

theorem runMem_pending (h : Alone s m.op f (bpPreds f) [] t) (hb : InBounds m f s t) {n : Nat} (hn : n ∈ existIx m f) :
    ((runMem m f s).thread t).pending n = true := by
  rw [((runMem_view h hb).preds n (by simp)).2]
  exact sendThread_pending hn (existIx_lt hn) _

theorem runMem_bp (h : Alone s m.op f (bpPreds f) [] t) (hb : InBounds m f s t) (hbp : hasBp f = true) (h6 : 6 ∉ existIx m f) :
    PredIs (runMem m f s) t 6 false := by
  intro hlt
  have hview := (runMem_view h hb).preds 6 (by simp)
  have hsend := sendThread_pred (ws := bpWrite f false (labelOf s m.op f t)) (es := if returns m then destRegs m f else []) h6 (s.thread t)
  have hwrite := Wr.onThread_pred (b := false) (l := labelOf s m.op f t) (s.thread t) hlt 6
  rw [hview.1, hview.2, hsend.1, hsend.2, bpWrite, if_pos hbp, List.foldl_cons, List.foldl_nil]
  simpa using hwrite

theorem runMem_kept (h : Alone s m.op f (bpPreds f) [] t) (hb : InBounds m f s t) :
    Kept (s.thread t) ((runMem m f s).thread t) (destRegs m f) (bpPreds f ++ existIx m f) := by
  refine (sendThread_kept (us := []) (bs := []) (fun w hw => ?_) (fun n hn => ?_) (fun n hn => List.mem_append_right _ hn) _).trans
    ((runMem_view h hb).mono (List.nil_subset _) (List.nil_subset _))
  · have := bpWrite_within _ _ w hw
    cases w with
    | pred n b l => exact List.mem_append_left _ this
    | ctl l => trivial
    | _ => exact absurd this (by simp [Wr.within])
  · split at hn
    · exact hn
    · cases hn

theorem runMem_others (h : Alone s m.op f (bpPreds f) [] t) (hb : InBounds m f s t) : Others s (runMem m f s) (bpPreds f) := by
  rw [runMem_eq_runGroup h hb]
  exact runGroup_others (fun u e he => by obtain rfl := Res.go.inj he; exact ⟨bpWrite_within _ _, rfl⟩)

/-- An address in bounds is not negative. -/
theorem accessOf_addr (hb : InBounds m f s t) : ((accessOf s m f t false).addr : Int) = addrOf s m f t := by
  have hoob := hb.bounds
  simp only [oobOf, Rec.oob, Bool.or_eq_false_iff, decide_eq_false_iff_not] at hoob
  obtain ⟨⟨-, hneg⟩, -⟩ := hoob
  exact Int.toNat_of_nonneg (not_lt.1 hneg)

theorem memoryAccessesLeaveAtIssue : Rule.MemoryAccessesLeaveAtIssue := fun x hx f s _ h hb =>
  ⟨_, exec_memForms x hx f s, runMem_sends h hb, accessOf_addr hb, (runMem_moved h hb).pc, fun hret _ => runMem_empty h hb hret,
    fun _ => runMem_pending h hb, runMem_bp h hb, runMem_waits h hb, runMem_kept h hb, runMem_others h hb⟩

end

/-! PREF. -/

theorem prefetch_cachesOnly (f : Fields) (s0 s : State) (t : Nat) : s.CachesOnly (prefetch f s0 s t) := by
  simp only [prefetch]
  split
  · exact .refl s
  · split
    · split
      · exact .refl s
      · exact (State.CachesOnly.cacheLeaf ..).trans (.readPiece ..)
    · exact .refl s

theorem prefEff_go {f : Fields} {s : State} {u : Nat} {e : Eff} (h : prefEff f s u = .go e) : e = {} := by
  simp only [prefEff] at h
  split at h
  · cases h
  · exact (Res.go.inj h).symm

theorem prefChangesNoRegisterAndNoByte : Rule.PrefChangesNoRegisterAndNoByte := by
  intro f s t h hbad
  have he : prefEff f s t = .go {} := by rw [prefEff, hbad]; rfl
  have hexec : exec (.pref f) s = .next (prefetch f s (runGroup 0x206 f [] [] (prefEff f) s) t) := by
    show execPref f s = _
    rw [execPref, goers_alone h he]
    rfl
  obtain ⟨hpc, hu⟩ := runGroup_goesOn h.toIssues he (fun _ _ => prefEff_go)
  have hc := prefetch_cachesOnly f s (runGroup 0x206 f [] [] (prefEff f) s) t
  have hthread : ∀ u, (prefetch f s (runGroup 0x206 f [] [] (prefEff f) s) t).thread u = (runGroup 0x206 f [] [] (prefEff f) s).thread u := fun u => by
    simp only [State.thread, hc.threads]
  have hgang : ∀ g, (prefetch f s (runGroup 0x206 f [] [] (prefEff f) s) t).gang g = (runGroup 0x206 f [] [] (prefEff f) s).gang g := fun g => by
    simp only [State.gang, hc.gangs]
  exact ⟨_, hexec, by rw [hthread, hpc], by rw [hthread]; exact hu.thread, fun g => by rw [hgang]; exact hu.gangs g,
    fun a => by rw [hc.mem]; exact hu.memory a⟩

/-- Settles O16: a record instruction is one effect of its thread, whose access leaves with it, and PREF changes caches alone. -/
theorem memoryIssue : Obligations.MemoryIssue := ⟨memoryAccessesLeaveAtIssue, prefChangesNoRegisterAndNoByte⟩

end Sys2Proof.Machine
end

section
/-! SUPPORT. A landing of an access whose element is one piece of plain memory: what is translated, what the race detector notes, what a write-back
writes (R234 to R236, R273, R274, R289, R292, R373). -/

namespace Sys2Proof.Machine

/-! What the race detector changes. -/

/-- A gang apart from the conflicts that it has reported. -/
def Gang.unraced (g : Gang) : Gang := { g with raceSeen := [] }

/-- The codebooks of a core, with the contexts that name them. -/
def Core.decoding (c : Core) : Tab Codebook × Tab Nat := (c.codebooks, c.contexts)

/-- Threads, units, accesses and memory are the same, the gangs but for the conflicts that they have reported, and the cores' codebooks. -/
structure State.Noted (s s' : State) : Prop where
  threads : s'.threads = s.threads
  units : s'.units = s.units
  accesses : s'.accesses = s.accesses
  mem : s'.mem = s.mem
  gang : ∀ g, (s'.gang g).unraced = (s.gang g).unraced
  core : ∀ c, (s'.core c).decoding = (s.core c).decoding

namespace State.Noted
variable {s s' s'' : State}

theorem refl (s : State) : s.Noted s := ⟨rfl, rfl, rfl, rfl, fun _ => rfl, fun _ => rfl⟩

theorem trans (h : s.Noted s') (k : s'.Noted s'') : s.Noted s'' :=
  ⟨k.threads.trans h.threads, k.units.trans h.units, k.accesses.trans h.accesses, k.mem.trans h.mem, fun g => (k.gang g).trans (h.gang g),
    fun c => (k.core c).trans (h.core c)⟩

theorem of_cachesOnly (h : s.CachesOnly s') : s.Noted s' :=
  ⟨h.threads, h.units, h.accesses, h.mem, fun g => by simp only [State.gang, h.gangs], fun c => h.read c Core.decoding fun _ => rfl⟩

theorem modSlice (s : State) (k : Nat) (F : Slice → Slice) : s.Noted (s.modSlice k F) := of_cachesOnly (.modSlice s k F)

theorem modCore (s : State) (k : Nat) {F : Core → Core} (hF : ∀ c, (F c).decoding = c.decoding) : s.Noted (s.modCore k F) := by
  refine ⟨rfl, rfl, rfl, rfl, fun _ => rfl, fun c => ?_⟩
  by_cases hc : c = k
  · subst hc; simp [State.modCore_eq, hF]
  · simp [State.modCore_eq, hc]

theorem modGang (s : State) (k : Nat) {F : Gang → Gang} (hF : ∀ g, (F g).unraced = g.unraced) : s.Noted (s.modGang k F) := by
  refine ⟨rfl, rfl, rfl, rfl, fun g => ?_, fun _ => rfl⟩
  rw [State.gang_modGang]
  split
  · rename_i e; rw [hF, e]
  · rfl

theorem notice (s : State) (ep level detail index : Nat) (payload : List Byte) : s.Noted (notice s ep level detail index payload) := by
  simp only [Machine.notice, sendNumbered]
  split <;> exact ⟨rfl, rfl, rfl, rfl, fun _ => rfl, fun _ => rfl⟩

theorem modLaunch (s : State) (k : Nat) (F : Launch → Launch) : s.Noted (s.modLaunch k F) := ⟨rfl, rfl, rfl, rfl, fun _ => rfl, fun _ => rfl⟩

theorem pushRecord (s : State) (r : Record) : s.Noted (s.pushRecord r) := by
  simp only [State.pushRecord]
  split
  · exact refl s
  · split
    · exact modCore s _ (F := fun c => { c with late := c.late ++ [r] }) fun _ => rfl
    · exact modCore s _ (F := fun c => { c with sfq := c.sfq ++ [r] }) fun _ => rfl

theorem raceReport (s : State) (a : Access) (va sector : Nat) (k : RKind) (e : Shadow) : s.Noted (raceReport s a va sector k e) := by
  simp only [Machine.raceReport]
  split
  · exact refl s
  · refine trans (s' := _) (modGang s (gangOf a.thread) (F := fun y => { y with
      raceSeen := (a.group, sector) :: y.raceSeen.filter (fun z => z.1 == a.group || s.accesses.any (fun e => e.2.group == z.1)) }) fun _ => rfl) ?_
    split
    · exact pushRecord _ _
    · split
      · exact (notice _ _ _ _ _ _).trans (modLaunch _ _ _)
      · exact refl _

theorem raceEntry (s : State) (a : Access) (slice : Nat) (tile : Bool) (key va : Nat) (k : RKind) :
    s.Noted (raceEntry s a slice tile key va k) := by
  have htest : s.Noted (match tabGet ((s.slice slice).shadowOf tile) key with
      | none => s
      | some e =>
        match raceTest s a.thread k e with
        | .ordered e' => s.modSlice slice (fun x => x.setShadow tile (tabPut (x.shadowOf tile) key e'))
        | .conflict => Machine.raceReport s a va (if tile then 2 ^ 128 + key else key) k e) := by
    split
    · exact refl s
    · split
      · exact modSlice _ _ _
      · exact raceReport _ _ _ _ _ _
  simp only [Machine.raceEntry]
  split
  · exact htest.trans (modSlice _ _ _)
  · exact htest

theorem racePieces (s : State) (a : Access) (ps : List Piece) (k : RKind) : s.Noted (racePieces s a ps k) := by
  simp only [Machine.racePieces]
  split
  · refine List.foldlRecOn (motive := fun b => s.Noted b) ps _ (refl s) fun b hb p _ => ?_
    split
    · exact hb.trans (raceEntry ..)
    · exact hb.trans (raceEntry ..)
    · exact hb
  · exact refl s

theorem thread (h : s.Noted s') (t : Nat) : s'.thread t = s.thread t := by simp only [State.thread, h.threads]
theorem unit (h : s.Noted s') (u : Nat) : s'.unit u = s.unit u := by simp only [State.unit, h.units]
theorem coreOf (h : s.Noted s') (t : Nat) : s'.coreOf t = s.coreOf t := by simp only [State.coreOf, State.coreOfGang, h.unit]

/-- What a function reads of a gang apart from its reports is the same. -/
theorem read (h : s.Noted s') (g : Nat) {β : Type} (F : Gang → β) (hF : ∀ x, F x.unraced = F x) : F (s'.gang g) = F (s.gang g) := by
  rw [← hF (s'.gang g), h.gang, hF]

/-- An access decodes through the same codebook. -/
theorem accessBook (h : s.Noted s') (a : Access) (slot : Nat) : Machine.accessBook s' a slot = Machine.accessBook s a slot := by
  have hbook : ∀ c, (s'.core c).codebooks = (s.core c).codebooks := fun c => congrArg Prod.fst (h.core c)
  have hctx : ∀ c, (s'.core c).contexts = (s.core c).contexts := fun c => congrArg Prod.snd (h.core c)
  simp only [Machine.accessBook, threadBook, codebookOf, contextOf, h.coreOf, h.unit, hbook, hctx]

end State.Noted

/-- A launch that is not checked leaves the detector alone. -/
theorem racePieces_of_off {s : State} {a : Access} (h : raceOn s a = false) (ps : List Piece) (k : RKind) : racePieces s a ps k = s := by
  rw [racePieces, h]
  rfl

theorem State.CachesOnly.raceOn {s s' : State} (h : s.CachesOnly s') (a : Access) : Machine.raceOn s' a = Machine.raceOn s a := by
  simp only [Machine.raceOn, State.launchOf, State.launch, State.unit, h.launches, h.units]

/-! One piece. -/

section
variable {s : State} {core part va n : Nat} {via : Via} {need : Need} {p : Piece}

/-- A span that is reached is one piece. -/
theorem reachSpan_ok {sp : Nat × Nat} {l : List Piece} (h : reachSpan s core part via need sp = .ok l) : ∃ q, l = [q] ∧ q.va = sp.1 ∧ q.n = sp.2 := by
  simp only [reachSpan] at h
  repeat' split at h
  all_goals cases h
  all_goals exact ⟨_, rfl, rfl, rfl⟩

/-- What is reached under a need is reached without one. -/
theorem reachSpan_needless {sp : Nat × Nat} {l : List Piece} (h : reachSpan s core part via need sp = .ok l) :
    reachSpan s core part via {} sp = .ok l := by
  have hallows : ∀ x : Leaf, x.allows {} = true := fun _ => rfl
  simp only [reachSpan] at h ⊢
  split at h
  · cases h
  · rename_i hrange
    rw [if_neg hrange]
    split at h
    · exact h
    · split at h
      · cases h
      · cases h
      · split at h
        · cases h
        · rw [hallows]
          exact h

/-- The pieces of a span that is reached. -/
def Reach.pieces : Reach → List Piece
  | .ok l => l
  | _ => []

/-- What is reached is reached span by span. -/
theorem reach_spans {ps : List Piece} (h : reach s core part va n via need = .ok ps) :
    (∀ sp ∈ spans (n / 32 + 2) va n, ∃ l, reachSpan s core part via need sp = .ok l) ∧
      ps = ((spans (n / 32 + 2) va n).map (reachSpan s core part via need)).flatMap Reach.pieces := by
  simp only [reach] at h
  split at h
  · rename_i r hr
    subst h
    exact absurd (List.find?_some hr) (by simp)
  · rename_i hheld
    split at h
    · rename_i r hr
      subst h
      exact absurd (List.find?_some hr) (by simp)
    · rename_i hrefused
      refine ⟨fun sp hsp => ?_, ?_⟩
      · have hmem : reachSpan s core part via need sp ∈ (spans (n / 32 + 2) va n).map (reachSpan s core part via need) := List.mem_map_of_mem hsp
        have h1 := List.find?_eq_none.1 hheld _ hmem
        have h2 := List.find?_eq_none.1 hrefused _ hmem
        cases hcase : reachSpan s core part via need sp with
        | held va h level => rw [hcase] at h1; exact absurd rfl h1
        | refused k va => rw [hcase] at h2; exact absurd rfl h2
        | ok l => exact ⟨l, rfl⟩
      · refine (Reach.ok.inj h).symm.trans (congrArg (List.flatMap · _) (funext fun r => ?_))
        cases r <;> rfl

theorem reach_needless {ps : List Piece} (h : reach s core part va n via need = .ok ps) : reach s core part va n via {} = .ok ps := by
  rw [← h, reach, reach]
  have hspans : (spans (n / 32 + 2) va n).map (reachSpan s core part via {}) = (spans (n / 32 + 2) va n).map (reachSpan s core part via need) :=
    List.map_congr_left fun sp hsp => by
      obtain ⟨l, hl⟩ := (reach_spans h).1 sp hsp
      rw [hl, reachSpan_needless hl]
  rw [hspans]

/-- An element that is one piece lies in one sector. -/
theorem reach_single (h : reach s core part va n via need = .ok [p]) (hn : p.n = n) : p.va = va ∧ (va + n - 1) / 32 = va / 32 := by
  obtain ⟨hspans, hp⟩ := reach_spans h
  by_cases h0 : n = 0
  · subst h0
    simp [spans] at hp
  · rw [spans, if_neg h0] at hspans hp
    obtain ⟨l, hl⟩ := hspans _ List.mem_cons_self
    obtain ⟨q, rfl, hva, hq⟩ := reachSpan_ok hl
    rw [List.map_cons, List.flatMap_cons, hl] at hp
    obtain rfl : p = q := (List.cons.inj hp).1
    refine ⟨hva, ?_⟩
    rw [hn] at hq
    omega

end

theorem readPiece_bytes {s : State} {p : Piece} {pa : Nat} (core part : Nat) (prio : Option Nat) (h : p.home = .phys pa) :
    (readPiece s core part p prio false).1 = s.mem.read pa p.n := by
  have hcached : p.uncached = false := by simp only [Piece.uncached, h]
  have hbytes : pieceBytes s p = s.mem.read pa p.n := by simp only [pieceBytes, h]
  simp only [readPiece, hcached, Bool.false_eq_true, if_false, Bool.false_and, hbytes]
  split
  · rename_i x hx
    split at hx <;> cases hx
  · split <;> rfl

/-! An access in one sector. -/

section
variable {a : Access} {p : Piece} {pa : Nat}

/-- An element of one sector that has no piece performed. -/
structure Access.OneSector (a : Access) (p : Piece) (pa : Nat) : Prop where
  home : p.home = .phys pa
  va : p.va = a.addr
  sector : (a.addr + a.width - 1) / 32 = a.addr / 32
  fresh : a.got = []
  kind : a.kind.whole = false

theorem Access.OneSector.todo (h : a.OneSector p pa) : a.todo = [a.addr / 32] := by
  simp [Access.todo, h.kind, h.sector, h.fresh, distinct]

theorem Access.OneSector.sector_eq (h : a.OneSector p pa) (pick : Pick) : a.sector pick = a.addr / 32 := by
  simp only [Access.sector, h.todo]
  split <;> rfl

theorem Access.OneSector.whole (h : a.OneSector p pa) : a.whole [p] = false := by
  simp [Access.whole, h.kind, Piece.inRegion, Piece.isRemote, h.home]

theorem Access.OneSector.piecesIn (h : a.OneSector p pa) : a.piecesIn (a.addr / 32) [p] = [p] := by
  simp [Access.piecesIn, h.whole, h.va]

theorem Access.OneSector.last (h : a.OneSector p pa) : a.last (a.addr / 32) [p] = true := by
  simp [Access.last, h.todo]

theorem Access.OneSector.gotBytes (h : a.OneSector p pa) (bs : List Byte) : a.gotBytes (a.addr / 32, bs) = bs := by
  simp [Access.gotBytes, h.sector, h.fresh, distinct]

end

theorem pagesLabel_single (p : Piece) : pagesLabel [p] = p.leaf.label := by simp [pagesLabel]

theorem tileExists_phys {s : State} {p : Piece} {pa : Nat} (h : p.home = .phys pa) : tileExists s [p] = true := by simp [tileExists, h]

theorem stackLabel_phys {s : State} {p : Piece} {pa : Nat} (h : p.home = .phys pa) : stackLabel s [p] = 0 := by simp [stackLabel, h]

theorem raceQuery_phys {s : State} {a : Access} {p : Piece} {pa : Nat} (h : p.home = .phys pa) : raceQuery s a [p] = s := by
  simp only [raceQuery, List.head?_cons, h]
  split <;> rfl

/-! The leaves found for a pass. -/

/-- A table whose values alone are changed. -/
theorem tabGet_map_keys {α : Type} {F : Nat × α → Nat × α} (hF : ∀ e, (F e).1 = e.1) (t : Tab α) (i : Nat) :
    tabGet (t.map F) i = (tabGet t i).map (fun x => (F (i, x)).2) := by
  induction t with
  | nil => rfl
  | cons e t ih =>
    obtain ⟨k, v⟩ := e
    have hk : F (k, v) = (k, (F (k, v)).2) := Prod.ext (hF (k, v)) rfl
    rw [List.map_cons, hk, tabGet, tabGet, ih]
    split
    · rename_i e; subst e; rfl
    · rfl

/-- An access of the pass keeps all but its leaves. -/
theorem pinPass_access {s : State} {id : Nat} {b : Access} (a : Access) (ps : List Piece) (h : tabGet s.accesses id = some b) :
    ∃ pins, tabGet (s.pinPass a ps).accesses id = some { b with pins := pins } := by
  simp only [State.pinPass]
  rw [tabGet_map_keys (fun e => by split <;> rfl), h, Option.map_some]
  split
  · exact ⟨_, rfl⟩
  · exact ⟨b.pins, rfl⟩

/-! Write-backs. -/

section
variable {s : State} {a : Access} {ws : List Wr}

theorem sawFor_gang (s : State) (a : Access) (g k : Nat) : (s.sawFor a g).gang k = s.gang k := foldl_keeps _ (State.gang · k) _ _ fun _ _ _ => rfl
theorem sawFor_slots (s : State) (a : Access) (g : Nat) : (s.sawFor a g).slots = s.slots := foldl_keeps _ State.slots _ _ fun _ _ _ => rfl
theorem sawFor_accesses (s : State) (a : Access) (g : Nat) : (s.sawFor a g).accesses = s.accesses := foldl_keeps _ State.accesses _ _ fun _ _ _ => rfl

theorem sawFor_sched (s : State) (a : Access) (g t : Nat) : ((s.sawFor a g).thread t).sched = (s.thread t).sched :=
  foldl_keeps _ (fun s => (State.thread s t).sched) _ _ fun b u _ => by
    simp only [State.sawG, State.thread_modThread]
    split
    · rename_i e; rw [e]
    · rfl

theorem landed_gang (s : State) (a : Access) (k : Nat) : (s.landed a).gang k = s.gang k :=
  foldl_keeps _ (State.gang · k) _ _ fun _ _ _ => by split <;> rfl
theorem landed_slots (s : State) (a : Access) : (s.landed a).slots = s.slots := foldl_keeps _ State.slots _ _ fun _ _ _ => by split <;> rfl
theorem landed_accesses (s : State) (a : Access) : (s.landed a).accesses = s.accesses :=
  foldl_keeps _ State.accesses _ _ fun _ _ _ => by split <;> rfl

/-- A thread that has not exited has not after a landing. -/
theorem landed_live (s : State) (a : Access) {t : Nat} (h : (s.thread t).sched ≠ .exited) : ((s.landed a).thread t).sched ≠ .exited := by
  refine List.foldlRecOn (motive := fun b : State => (b.thread t).sched ≠ .exited) _ _ h fun b hb u _ => ?_
  split
  · simp only [State.unblock, State.thread_modThread]
    split
    · simp
    · exact hb
  · exact hb

theorem applyWrs_sched (b c : Bool) (t : Nat) (s : State) (ws : List Wr) : ((applyWrs b c t s ws).thread t).sched = (s.thread t).sched :=
  congrArg Prod.fst (foldl_keeps _ (fun s => (State.thread s t).standing) _ _ fun _ _ _ => applyWr_standing ..)

theorem fill_live (h : (s.thread a.thread).sched ≠ .exited) : ((fill s a ws).thread a.thread).sched ≠ .exited := by
  simp only [fill]
  split
  · exact landed_live _ _ (by rw [applyWrs_sched]; exact h)
  · split
    · exact h
    · show ((applyWrs _ _ _ s ws).thread a.thread).sched ≠ _
      rw [applyWrs_sched]
      exact h

theorem fill_slots (s : State) (a : Access) (ws : List Wr) : (fill s a ws).slots = s.slots := by
  simp only [fill]
  split
  · exact (landed_slots _ _).trans (applyWrs_slots ..)
  · split
    · rfl
    · exact applyWrs_slots ..

theorem existPred_slots (s : State) (a : Access) (b : Bool) (l : Label) : (existPred s a b l).slots = s.slots := by
  simp only [existPred]
  split
  · split
    · rfl
    · exact applyWrs_slots ..
  · rfl

theorem fill_accesses {id : Nat} (h : tabGet s.accesses id = none) : tabGet (fill s a ws).accesses id = none := by
  simp only [fill]
  split
  · rw [landed_accesses, unsent_applyWrs, h]
  · split
    · exact h
    · simp only [State.tileTaken]
      rw [tabGet_map_keys (fun e => by split <;> rfl), unsent_applyWrs, h]
      rfl

theorem existPred_accesses (s : State) (a : Access) (b : Bool) (l : Label) : (existPred s a b l).accesses = s.accesses := by
  simp only [existPred]
  split
  · split
    · rfl
    · exact unsent_applyWrs ..
  · rfl

/-- A gang's own registers, and the label of its tiles, after writes of one predicate. -/
theorem predWrite_gang (t : Nat) (s : State) (d : Opnd) (b : Bool) (l : Label) (g : Nat) :
    ((applyWrs true true t s (wrPred d b l)).gang g).own = (s.gang g).own ∧
      State.LabelFrame [] (resultPreds d) [] [] s (applyWrs true true t s (wrPred d b l)) := by
  rw [wrPred_eq]
  constructor
  · rw [applyWrs_own, onOwn_rest (fun w hw => by obtain ⟨n, b, -, rfl⟩ := mem_predWrs hw; exact ⟨rfl, fun _ _ _ => by simp⟩), ite_self]
  · refine State.labelFrame_foldl _ _ _ fun s' w hw => labelFrame_applyWr _ _ _ s' w ?_
    obtain ⟨n, b, hn, rfl⟩ := mem_predWrs hw
    rwa [destPred_fst] at hn

theorem Thread.kept_of_body {x y : Thread} {ds ps : List Nat} (z : Thread) (h : y.body = z.body) (k : Kept x z ds ps) : Kept x y ds ps :=
  k.trans ((Kept.of_body h).2.mono (List.nil_subset _) (List.nil_subset _))

theorem ResultTy.congr {s s' : State} {t : Nat} {ty : Ty} {d : Opnd} {v : DWord} (h : ResultTy s t ty d v)
    (ht : ∀ r, (s'.thread t).reg r = (s.thread t).reg r ∧ (s'.thread t).full r = (s.thread t).full r)
    (hg : ∀ n, (s'.gang (gangOf t)).sreg n = (s.gang (gangOf t)).sreg n) : ResultTy s' t ty d v := by
  have hr : ∀ r, (s'.thread t).reg r = (s.thread t).reg r := fun r => (ht r).1
  have hf : ∀ r, (s'.thread t).full r = (s.thread t).full r := fun r => (ht r).2
  simp only [ResultTy, Result64, Result32, hr, hf, hg] at h ⊢
  exact h

/-- The existence predicate written leaves the registers of the thread and of its gang, with their labels. -/
theorem existPred_keeps (s : State) (a : Access) (b : Bool) (l : Label) :
    (∀ r, ((existPred s a b l).thread a.thread).reg r = (s.thread a.thread).reg r ∧
      ((existPred s a b l).thread a.thread).full r = (s.thread a.thread).full r) ∧
    (∀ g, ((existPred s a b l).gang g).own = (s.gang g).own) ∧ ∀ g r, ((existPred s a b l).gang g).tileLabel r = (s.gang g).tileLabel r ∧
      ((existPred s a b l).gang g).sregLabel r = (s.gang g).sregLabel r := by
  simp only [existPred]
  split
  · split
    · exact ⟨fun _ => ⟨rfl, rfl⟩, fun _ => rfl, fun _ _ => ⟨rfl, rfl⟩⟩
    · refine ⟨fun r => ?_, fun g => (predWrite_gang ..).1, fun g r => ?_⟩
      · have hk := Thread.kept_of_body _ (applyWrs_body_self true true a.thread s (wrPred (predField a) b l))
          (Wr.foldl_kept (ds := []) (ps := resultPreds (predField a)) (us := []) (bs := []) (fun w hw => by
            rw [wrPred_eq] at hw
            obtain ⟨n, b, hn, rfl⟩ := mem_predWrs hw
            rwa [destPred_fst] at hn) (s.thread a.thread))
        exact hk.regs r (by simp)
      · have hl := (predWrite_gang a.thread s (predField a) b l g).2 g
        exact ⟨hl.tile r (by simp), hl.sreg r (by simp)⟩
  · exact ⟨fun _ => ⟨rfl, rfl⟩, fun _ => rfl, fun _ _ => ⟨rfl, rfl⟩⟩

/-- The existence predicate of an LDX or STX whose thread has not exited. -/
theorem existPred_pred {d : Opnd} (hk : a.kind = .ldx ∨ a.kind = .stx) (hd : predField a = d) (hx : (s.thread a.thread).sched ≠ .exited)
    (b : Bool) (l : Label) : PredIn (existPred s a b l) a.thread d b := by
  have hkind : (a.kind == .ldx || a.kind == .stx) = true := by rcases hk with h | h <;> rw [h] <;> rfl
  have hlive : ((s.thread a.thread).sched == .exited) = false := by simpa using hx
  refine predIn_of fun n hn h7 => ?_
  simp only [existPred, hkind, if_true, hlive, Bool.false_eq_true, if_false, hd, hn]
  have hb := (Kept.of_body (applyWrs_body_self true true a.thread s (wrPred (.k n) b l))).2.preds (n.toNat - 64) (by simp)
  rw [hb.1, hb.2]
  have hwrite := Wr.onThread_pred (s.thread a.thread) h7 b l (n.toNat - 64)
  rw [if_pos rfl, if_pos rfl] at hwrite
  exact hwrite

/-- A result in gang-uniform registers, from the gang's own view of its write. -/
theorem resultTy_of_own {t : Nat} {ty : Ty} {n : BitVec 8} {v : DWord} {l : Label} {x : Gang.Own}
    (h : (s.gang (gangOf t)).own = (wrTy ty (.s n) v l).foldl Wr.onOwn x) :
    ResultTy s t ty (.s n) v ∧ ∀ r ∈ resultUnis ty (.s n), r < 127 → (s.gang (gangOf t)).sregLabel r = l := by
  obtain ⟨hval, hlab⟩ := wrTy_own ty n v l x
  rw [← h] at hval hlab
  refine ⟨?_, fun r hr h127 => by rw [Gang.sregLabel, if_neg (by omega)]; exact hlab r hr h127⟩
  have hsreg : ∀ r, r ≠ 127 → (s.gang (gangOf t)).sreg r = tabGetD 0 (s.gang (gangOf t)).sregs r := fun r hr => if_neg hr
  simp only [ResultTy, Result64, Result32]
  split
  · rename_i h64
    rw [if_pos h64] at hval
    by_cases h126 : 126 ≤ n.toNat
    · exact .inl h126
    · obtain ⟨hlo, hhi⟩ := hval.resolve_left h126
      exact .inr ⟨(hsreg _ (by omega)).trans hlo, (hsreg _ (by omega)).trans hhi⟩
  · rename_i h64
    rw [if_neg h64] at hval
    by_cases h127 : n = 127
    · exact .inl h127
    · have hn : n.toNat ≠ 127 := fun e => h127 (BitVec.eq_of_toNat_eq e)
      exact .inr ((hsreg _ hn).trans (hval.resolve_left h127))

/-- A result written back: its value, and its labels. -/
theorem fill_result {v : DWord} {l : Label} (hx : (s.thread a.thread).sched ≠ .exited) :
    ResultTy (fill s a (destWrites a v l)) a.thread a.f.ty a.f.d v ∧ LandLabel s (fill s a (destWrites a v l)) a a.f.ty l := by
  have hlive : ((s.thread a.thread).sched == .exited) = false := by simpa using hx
  by_cases hu : isUni a.f.d = true
  · cases hd : a.f.d with
    | s n =>
      have hown : ((fill s a (destWrites a v l)).gang (gangOf a.thread)).own =
          (wrTy a.f.ty (.s n) v l).foldl Wr.onOwn (s.gang (gangOf a.thread)).own := by
        rw [fill, if_pos hu, landed_gang, applyWrs_own, if_pos rfl, destWrites, hd]
      obtain ⟨hval, hlab⟩ := resultTy_of_own hown
      refine ⟨hval, fun r hr => ?_, fun r hr h127 => hlab r (hd ▸ hr) h127⟩
      rw [hd] at hr
      cases hr
    | _ => rw [hd] at hu; cases hu
  · have hfill : fill s a (destWrites a v l) = (applyWrs a.replaces a.replaces a.thread s (destWrites a v l)).tileTaken a := by
      rw [fill, if_neg hu, hlive]
      rfl
    have hd : isUni a.f.d = false := by simpa using hu
    rw [hfill]
    refine ⟨resultTy_of_wrTy (l := l) (x := s.thread a.thread) hd fun r => ?_, fun r hr h255 => ?_, fun r hr => ?_⟩
    · exact (Kept.of_body (applyWrs_body_self a.replaces a.replaces a.thread s (destWrites a v l))).2.regs r (by simp)
    · show ((applyWrs a.replaces a.replaces a.thread s (destWrites a v l)).gang (gangOf a.thread)).tileLabel r = _
      rw [applyWrs_tile _ _ _ _ _ _ h255, if_pos rfl, tileAfter, destWrites, wrTy_onTile hr h255]
      simp [tileLabelAfter]
    · cases hd' : a.f.d <;> simp_all [isUni, resultUnis]

end
end Sys2Proof.Machine
end

section
/-! O21: loads and stores of plain memory (R123, R177, R178, R273, R274, R279, R287, R292, R295, R296). -/

namespace Sys2Proof.Machine

theorem LandsOn.oneSector {s : State} {id : Nat} {a : Access} {need : Need} {pick : Pick} {p : Piece} {pa : Nat} (h : LandsOn s id a need pick p pa)
    (hk : a.kind.whole = false) : a.OneSector p pa := by
  obtain ⟨hva, hsector⟩ := reach_single h.page h.width
  exact ⟨h.home, hva, hsector, h.fresh, hk⟩

/-! Loads. -/

section
variable {s : State} {id : Nat} {a : Access} {pick : Pick} {p : Piece} {pa : Nat}

theorem not_remote (h : p.home = .phys pa) : p.isRemote = false := by simp only [Piece.isRemote, h]

/-- The one piece of a load, read at L2. -/
theorem readAll_single (s : State) (a : Access) (hp : p.home = .phys pa) (hl1 : pick.l1 = false) :
    ∃ s' g, readAll s a [p] pick = (some (s.mem.read pa p.n, g), s') ∧ s.CachesOnly s' := by
  have hcache := State.CachesOnly.cachePieces s (s.coreOf a.thread) [p]
  have hbytes := readPiece_bytes (s := s.cachePieces (s.coreOf a.thread) [p]) (s.coreOf a.thread) (s.partOf a.thread) a.prio hp
  rw [State.cachePieces_mem] at hbytes
  refine ⟨(readPiece (s.cachePieces (s.coreOf a.thread) [p]) (s.coreOf a.thread) (s.partOf a.thread) p a.prio false).2.2,
    max 0 (readPiece (s.cachePieces (s.coreOf a.thread) [p]) (s.coreOf a.thread) (s.partOf a.thread) p a.prio false).2.1, ?_,
    hcache.trans (.readPiece ..)⟩
  simp only [readAll, List.foldl_cons, List.foldl_nil, not_remote hp, hl1, Bool.false_and, Bool.false_eq_true, if_false, Option.map_some,
    hbytes, List.nil_append]

/-- The label of a plain load's result. -/
def loadLabel (s : State) (a : Access) (p : Piece) : Label :=
  a.label ||| p.leaf.label ||| (if a.f.ty = .c4 ∨ a.f.ty = .f8e4 ∨ a.f.ty = .f8e5 then (accessBook s a p.leaf.slot).label else 0)

theorem tyDecodes_iff (ty : Ty) : tyDecodes ty = true ↔ ty = .c4 ∨ ty = .f8e4 ∨ ty = .f8e5 := by
  simp [tyDecodes, or_assoc]

/-- The last piece of a load of plain memory. -/
theorem finishLoad_plain (hk : a.kind = .load ∨ a.kind = .ldx) (hp : p.home = .phys pa) (bs : List Byte) (g : Nat) :
    finishLoad s id a [p] bs g = existPred (fill ((s.dropAccess id).sawFor a g) a
      (destWrites a (loadValue a.f.ty (accessBook s a p.leaf.slot).entries bs) (loadLabel s a p))) a true (loadLabel s a p) := by
  have hgthr : (a.kind == .gthr) = false := by rcases hk with h | h <;> rw [h] <;> rfl
  have hlabel : a.label ||| pagesLabel [p] ||| stackLabel s [p] ||| (if tyDecodes a.f.ty = true then (accessBook s a p.leaf.slot).label else 0) |||
      (if (a.kind == .gthr) = true then a.d.setWidth 16 else 0) = loadLabel s a p := by
    simp [pagesLabel_single, stackLabel_phys hp, hgthr, tyDecodes_iff, loadLabel]
  simp only [finishLoad, List.head?_cons, Option.map_some, Option.getD_some, hlabel, tileExists_phys hp, raceQuery_phys hp, ite_self]

/-- A load of plain memory at its landing: its bytes are read, the detector looks at them, and its value is written back. -/
theorem landLoad_plain (h : LandsOn s id a { r := true } pick p pa) (hk : a.kind = .load ∨ a.kind = .ldx)
    (hbook : bookAwaited s id a p.leaf.slot = false) (hfmt : formatFits a.f.ty p.leaf.format = true) (hl1 : pick.l1 = false) :
    ∃ s' pins g, landLoad s id a pick (a.sector pick) = finishLoad s' id { a with pins := pins } [p] (s.mem.read pa a.width) g ∧
      (s.pinPass a [p]).Noted s' ∧ (raceOn s a = false → ∀ c, (s'.core c).late = (s.core c).late) := by
  have hone := h.oneSector (by rcases hk with h | h <;> rw [h] <;> rfl)
  obtain ⟨s₁, g, hread, hcache⟩ := readAll_single (s.pinPass a [p]) a h.home hl1
  have hnoted : (s.pinPass a [p]).Noted (racePieces s₁ a [p] .load) := (State.Noted.of_cachesOnly hcache).trans (.racePieces ..)
  obtain ⟨pins, hpins⟩ := pinPass_access a [p] h.access
  refine ⟨racePieces s₁ a [p] .load, pins, max a.gotG g, ?_, hnoted, fun hoff c => ?_⟩
  · have hmem : (s.pinPass a [p]).mem.read pa p.n = s.mem.read pa a.width := by rw [State.pinPass_mem, h.width]
    rw [hmem] at hread
    simp only [landLoad, h.page, hone.sector_eq pick, List.find?_cons, hfmt, Bool.not_true, List.find?_nil, List.head?_cons, Option.map_some,
      Option.getD_some, hbook, Bool.false_eq_true, if_false, hone.piecesIn, hread, hone.last, if_true, hone.whole, hone.gotBytes]
    rw [hnoted.accesses, hpins, Option.getD_some]
  · have hoff' : raceOn s₁ a = false := (hcache.raceOn a).trans hoff
    rw [racePieces_of_off hoff']
    exact hcache.read c Core.late fun _ => rfl

theorem Gang.sreg_of_own {x y : Gang} (h : x.own = y.own) (n : Nat) : x.sreg n = y.sreg n := by
  have hsregs : x.sregs = y.sregs := congrArg Gang.Own.sregs h
  simp only [Gang.sreg, hsregs]

theorem finishLoad_slots (hk : a.kind = .load ∨ a.kind = .ldx) (hp : p.home = .phys pa) (bs : List Byte) (g : Nat) :
    (finishLoad s id a [p] bs g).slots = s.slots := by
  rw [finishLoad_plain hk hp, existPred_slots, fill_slots, sawFor_slots]
  rfl

theorem loadsDeliverMemoryBytes : Rule.LoadsDeliverMemoryBytes := by
  intro id s a pick p pa h hk hbook hfmt hl1 hlive
  obtain ⟨s', pins, g, hland, hnoted, hlate⟩ := landLoad_plain h hk hbook hfmt hl1
  have hvalue : landValue s id a pick (a.sector pick) = landLoad s id a pick (a.sector pick) := by
    rcases hk with hk | hk <;> simp only [landValue, hk]
  have hroom : s.sfqFull (s.coreOf a.thread) = true →
      ((landValue s id a pick (a.sector pick)).core (s.coreOf a.thread)).late.length ≤ (s.core (s.coreOf a.thread)).late.length := by
    intro hfull
    have hoff : raceOn s a = false := by
      by_contra hon
      rw [h.room (by simpa using hon)] at hfull
      cases hfull
    have hslots := congrArg Prod.fst (finishLoad_slots (s := s') (id := id) (a := { a with pins := pins }) hk h.home (s.mem.read pa a.width) g)
    have hcore : ∀ c, (finishLoad s' id { a with pins := pins } [p] (s.mem.read pa a.width) g).core c = s'.core c := fun c => by
      simp only [State.core]
      rw [show (finishLoad s' id { a with pins := pins } [p] (s.mem.read pa a.width) g).cores = s'.cores from hslots]
    rw [hvalue, hland, hcore, hlate hoff]
  refine ⟨_, landWith_alone h.access h.enabled h.inside h.alone hroom, ?_⟩
  rw [hvalue, hland, finishLoad_plain (a := { a with pins := pins }) hk h.home]
  have hbooks : accessBook s' { a with pins := pins } p.leaf.slot = accessBook s a p.leaf.slot := hnoted.accessBook ..
  have hlabel : loadLabel s' { a with pins := pins } p = loadLabel s a p := by
    simp only [loadLabel, hbooks]
  rw [hbooks, hlabel]
  generalize hS : (s'.dropAccess id).sawFor { a with pins := pins } g = S
  have hSlive : (S.thread a.thread).sched ≠ .exited := by
    rw [← hS, sawFor_sched, State.thread_dropAccess, hnoted.thread]
    exact hlive
  have hSgang : ∀ {β : Type} (F : Gang → β), (∀ x, F x.unraced = F x) → F (S.gang (gangOf a.thread)) = F (s.gang (gangOf a.thread)) := fun F hF => by
    rw [← hS, sawFor_gang]
    exact hnoted.read _ F hF
  obtain ⟨hresult, hlabels⟩ := fill_result (s := S) (a := { a with pins := pins })
    (v := loadValue a.f.ty (accessBook s a p.leaf.slot).entries (s.mem.read pa a.width)) (l := loadLabel s a p) hSlive
  generalize hF : fill S { a with pins := pins } _ = F at hresult hlabels ⊢
  obtain ⟨hregs, hown, htiles⟩ := existPred_keeps F { a with pins := pins } true (loadLabel s a p)
  have hSnone : tabGet S.accesses id = none := by
    rw [← hS, sawFor_accesses]
    exact (tabGet_del ..).trans (if_pos rfl)
  have hSmem : S.mem = s.mem := by
    rw [← hS, State.sawFor_mem]
    exact hnoted.mem.trans (State.pinPass_mem ..)
  refine ⟨?_, hresult.congr hregs fun n => ?_, ⟨fun r hr h255 => ?_, fun r hr h127 => ?_⟩, fun hldx => ?_, fun b => ?_⟩
  · rw [existPred_accesses, ← hF, fill_accesses hSnone]
  · exact Gang.sreg_of_own (hown _) n
  · rw [(htiles (gangOf a.thread) r).1]
    refine (hlabels.1 r hr h255).trans ?_
    rw [hSgang (fun g => g.tileLabel r) fun _ => rfl]
    rfl
  · rw [(htiles (gangOf a.thread) r).2]
    exact hlabels.2 r hr h127
  · have hFlive : (F.thread a.thread).sched ≠ .exited := by
      rw [← hF]
      exact fill_live (a := { a with pins := pins }) hSlive
    exact existPred_pred (a := { a with pins := pins }) (.inl hldx) (by simp only [predField, hldx]; rfl) hFlive true _
  · rw [existPred_mem, ← hF, fill_mem, hSmem]

end
end Sys2Proof.Machine
end

section
/-! O21: stores to plain memory (R178, R279, R287, R296). -/

namespace Sys2Proof.Machine

section
variable {s s' : State} {id : Nat} {a : Access} {pick : Pick} {p : Piece} {pa : Nat}

theorem length_storeBytes (ty : Ty) (book : List (BitVec 16)) (x : DWord) : (storeBytes ty book x).1.length = typeWidth ty := by
  cases ty <;> simp [storeBytes, typeWidth, leBytes]

/-- The memory that a write leaves; it stops no thread, and without the detector it makes no record. -/
structure State.Performed (s s' : State) (a : Access) (m : Memory) : Prop where
  mem : s'.mem = m
  sched : ∀ t, (s'.thread t).sched = (s.thread t).sched
  late : raceOn s a = false → ∀ c, (s'.core c).late = (s.core c).late

theorem State.CachesOnly.setMem (h : s.CachesOnly s') (m : Memory) : (s.setMem m).CachesOnly (s'.setMem m) := by
  refine ⟨?_, h.core⟩
  conv => lhs; rw [h.rest]
  rfl

/-- A piece of plain memory written at L2: its bytes, and what the caches keep of them. -/
theorem writePiece_cachesOnly (s : State) (core part : Nat) (h : p.home = .phys pa) (bs : List Byte) :
    (s.setMem (s.mem.write pa bs)).CachesOnly (writePiece s (some core) part p bs).2 := by
  have hstate : (writePiece s (some core) part p bs).2 =
      (((s.atL2 part p 1).setMem (s.mem.write pa bs)).setLineG (pieceLine part p).1 (pieceLine part p).2
        (writeTime s (pieceLine part p).1 (pieceLine part p).2)).patchL1 core (pieceLine part p).2 (p.va % 128)
        (writeTime s (pieceLine part p).1 (pieceLine part p).2) bs := by
    simp only [writePiece, pieceAddr, h]
  rw [hstate]
  exact (((State.CachesOnly.atL2 s part p 1).setMem _).trans (.modSlice _ _ _)).trans (.modCore _ _ fun _ => rfl)

theorem labelStack_phys (h : p.home = .phys pa) (l : Label) : labelStack s [p] l = s := by simp [labelStack, h]

/-- What follows a write of one piece: the detector looks at it, and its thread takes its time. -/
theorem State.CachesOnly.performed {m : Memory} (h : (s.setMem m).CachesOnly s') (a : Access) (ps : List Piece) (rk : RKind) (g : Nat) :
    s.Performed ((racePieces s' a ps rk).wroteG a.thread g) a m := by
  have hnoted := State.Noted.racePieces s' a ps rk
  refine ⟨?_, fun t => ?_, fun hoff c => ?_⟩
  · rw [State.wroteG_mem, racePieces_mem, h.mem]
    rfl
  · have hthread : (racePieces s' a ps rk).thread t = s.thread t := by
      rw [hnoted.thread]
      simp only [State.thread, h.threads]
      rfl
    rw [← hthread, State.wroteG, State.thread_modThread]
    split
    · rename_i e; rw [e]
    · rfl
  · have hoff' : Machine.raceOn s' a = false := (h.raceOn a).trans hoff
    rw [racePieces_of_off hoff']
    exact h.read c Core.late fun _ => rfl

/-- A piece of plain memory is performed. -/
theorem performPieces_plain (s : State) (a : Access) (rk : RKind) (bs : List Byte) (hp : p.home = .phys pa) (hva : p.va = a.addr)
    (hlen : bs.length = p.n) : ∃ old g s', performPieces a rk (fun _ => bs) [p] [] 0 s = .done old g s' 0 ∧ s.Performed s' a (s.mem.write pa bs) := by
  have hbytes : (bs.drop (p.va - a.addr)).take p.n = bs := by
    rw [hva, Nat.sub_self, List.drop_zero, List.take_of_length_le hlen.le]
  have hcache := State.CachesOnly.atL2 s (s.partOf a.thread) p ((hintPrio a.f).getD 0)
  have hwrite := (hcache.setMem _).trans (writePiece_cachesOnly _ (s.coreOf a.thread) (s.partOf a.thread) hp bs)
  rw [State.atL2_mem] at hwrite
  simp only [performPieces, hp, birthPiece, labelStack_phys hp, hbytes]
  exact ⟨_, _, _, rfl, hwrite.performed a [p] rk _⟩

theorem State.Performed.after {m : Memory} (k : s.Performed s' a m) {s₀ : State} (h : s₀.CachesOnly s) : s₀.Performed s' a m := by
  refine ⟨k.mem, fun t => (k.sched t).trans ?_, fun hoff c => (k.late ((h.raceOn a).trans hoff) c).trans (h.read c Core.late fun _ => rfl)⟩
  simp only [State.thread, h.threads]

theorem labelFails_phys {l : Label} (hp : p.home = .phys pa) (hl : Label.subset l p.leaf.label = true) : labelFails [p] l = none := by
  simp [labelFails, hp, hl]

/-- Plain memory asks for no birth and no release. -/
theorem refusal_phys (hp : p.home = .phys pa) (s : State) (a : Access) : refusal a [p] s = (none, s) := by
  simp [refusal, birthPiece, releasePieces, hp]

/-- A write to plain memory is performed: nothing refuses it. -/
theorem performWrite_plain {need : Need} {rk : RKind} {fits : Leaf → Bool} {bs : List Byte} (h : LandsOn s id a need pick p pa)
    (hk : a.kind.whole = false) (hfits : fits p.leaf = true) (hlabel : Label.subset a.label p.leaf.label = true) (hlen : bs.length = a.width) :
    ∃ old g s' l, performWrite s a pick (a.sector pick) need rk fits (fun _ => bs) = .done old g s' l ∧ s.Performed s' a (s.mem.write pa bs) := by
  have hone := h.oneSector hk
  have hcache := State.CachesOnly.cachePieces (s.pinPass a [p]) (s.coreOf a.thread) [p]
  obtain ⟨old, g, s', hperform, hdone⟩ :=
    performPieces_plain ((s.pinPass a [p]).cachePieces (s.coreOf a.thread) [p]) a rk bs h.home hone.va (hlen.trans h.width.symm)
  obtain ⟨hmem, hsched, hlate⟩ := hdone.after hcache
  have hpieces : [p].filter Piece.isRemote ++ [p].filter (fun q => !q.isRemote) = [p] := by simp [not_remote h.home]
  refine ⟨old, g, s', pagesLabel [p] ||| 0, ?_, ?_, hsched, hlate⟩
  · simp only [performWrite, h.page, List.find?_cons, hfits, Bool.not_true, List.find?_nil, labelFails_phys h.home hlabel,
      raceQuery_phys h.home, ite_self, tileExists_phys h.home, Bool.and_false, Bool.false_eq_true, if_false, refusal_phys h.home,
      hone.sector_eq pick, hone.piecesIn, hpieces, hperform, stackLabel_phys h.home]
  · rw [hmem, State.cachePieces_mem, State.pinPass_mem]

/-- The result of a store performed. -/
theorem landStore_plain (h : LandsOn s id a { w := true } pick p pa) (hk : a.kind = .store ∨ a.kind = .stx)
    (hbook : bookAwaited s id a p.leaf.slot = false) (hwidth : a.width = typeWidth a.f.ty) (hfmt : formatFits a.f.ty p.leaf.format = true)
    (hlabel : Label.subset a.label p.leaf.label = true) : ∃ s' l,
      s.Performed s' a (s.mem.write pa (storeBytes a.f.ty (accessBook s a p.leaf.slot).entries a.c).1) ∧
      landStore s id a pick (a.sector pick) = existPred ((s'.dropAccess id).countEvents (s.unit (unitOfThread a.thread)).launch
        (storeBytes a.f.ty (accessBook s a p.leaf.slot).entries a.c).2) a true l := by
  have hkind : a.kind.whole = false := by rcases hk with h | h <;> rw [h] <;> rfl
  have hone := h.oneSector hkind
  obtain ⟨old, g, s', l, hwrite, hdone⟩ := performWrite_plain (rk := .store) (fits := fun l => formatFits a.f.ty l.format) h hkind hfmt hlabel
    ((length_storeBytes a.f.ty (accessBook s a p.leaf.slot).entries a.c).trans hwidth.symm)
  refine ⟨s', a.label ||| l, hdone, ?_⟩
  rw [hone.sector_eq pick] at hwrite ⊢
  simp only [landStore, h.bounds, Bool.false_eq_true, if_false, reach_needless h.page, List.head?_cons, Option.map_some, Option.getD_some, hbook,
    hwrite, hone.last, if_true]

theorem storesWriteTheirBytes : Rule.StoresWriteTheirBytes := by
  intro id s a pick p pa h hk hbook hwidth hfmt hlabel
  obtain ⟨s', l, hdone, hland⟩ := landStore_plain h hk hbook hwidth hfmt hlabel
  have hwrite : landWrite s id a pick (a.sector pick) = landStore s id a pick (a.sector pick) := by
    rcases hk with hk | hk <;> simp only [landWrite, hk]
  have hcores : (landStore s id a pick (a.sector pick)).cores = s'.cores := by
    rw [hland]
    refine (congrArg Prod.fst (existPred_slots ..)).trans ?_
    simp only [State.countEvents]
    split <;> rfl
  have hroom : s.sfqFull (s.coreOf a.thread) = true →
      ((landWrite s id a pick (a.sector pick)).core (s.coreOf a.thread)).late.length ≤ (s.core (s.coreOf a.thread)).late.length := by
    intro hfull
    have hoff : raceOn s a = false := by
      by_contra hon
      rw [h.room (by simpa using hon)] at hfull
      cases hfull
    have hcore : (landStore s id a pick (a.sector pick)).core (s.coreOf a.thread) = s'.core (s.coreOf a.thread) := by
      simp only [State.core, hcores]
    rw [hwrite, hcore, hdone.late hoff]
  refine ⟨_, landWith_alone h.access h.enabled h.inside h.alone hroom, ?_⟩
  have hmem : (landStore s id a pick (a.sector pick)).mem = s.mem.write pa (storeBytes a.f.ty (accessBook s a p.leaf.slot).entries a.c).1 := by
    rw [hland, existPred_mem, State.countEvents_mem]
    exact hdone.mem
  rw [hwrite]
  refine ⟨?_, ?_, fun b hb => ?_, fun hstx hlive => ?_⟩
  · have hdrop : tabGet (s'.dropAccess id).accesses id = none := (tabGet_del ..).trans (if_pos rfl)
    rw [hland, existPred_accesses, State.countEvents]
    split
    · exact hdrop
    · exact hdrop
  · rw [bytesAre, hmem]
    exact Memory.read_write ..
  · rw [hmem]
    refine Memory.get_write_out _ _ _ _ ?_
    rwa [length_storeBytes, ← hwidth]
  · rw [hland]
    refine existPred_pred (.inr hstx) (by simp only [predField, hstx]; rfl) ?_ true _
    rw [State.thread_countEvents, State.thread_dropAccess, hdone.sched]
    exact hlive

end

/-- Settles O21: a landing on one piece of plain memory reads or writes its bytes, and what the caches, the detector and the counters note of
it touches no byte and no register. -/
theorem loadsAndStores : Obligations.LoadsAndStores := ⟨loadsDeliverMemoryBytes, storesWriteTheirBytes⟩

end Sys2Proof.Machine
end

section
/-! O1: integer, bit and move instructions (R133, R142 to R149, R151, R154 to R156, R273, R274). -/

namespace Sys2Proof.Machine

/-- The form runs for its group as one result of its type in its destination under its label, and the builder does not hold it. -/
def ResultForm.Runs (x : ResultForm) : Prop :=
  ∀ f s, exec (x.instr f) s =
      .next (runWrites x.op f x.preds (fun s t => wrTy (x.ty f) f.d (x.value f s t) (x.label f s t)) s) ∧ holdOf x.op f = none

theorem ResultForm.Runs.completes {x : ResultForm} (h : x.Runs) : x.Completes := by
  intro f s t hissues
  obtain ⟨hexec, hop⟩ := h f s
  have hw : ∀ u, wrTy (x.ty f) f.d (x.value f s u) (x.label f s u) =
      wrTy (x.ty f) f.d (x.value f s u) (x.label f s u) ++ predWrs (x.label f s u) [] := fun u => (List.append_nil _).symm
  exact ⟨_, hexec, runWrites_result hissues hw, runWrites_resultPreds hissues hop hw (fun _ _ => Iff.rfl)⟩

/-- A form runs so where the writes of its meaning are those of its result. -/
theorem ResultForm.Runs.of_writes {x : ResultForm} {ws : Fields → State → Nat → List Wr}
    (hexec : ∀ f s, exec (x.instr f) s = .next (runWrites x.op f x.preds (ws f) s)) (hop : ∀ f, holdOf x.op f = none)
    (hw : ∀ f s t, ws f s t = wrTy (x.ty f) f.d (x.value f s t) (x.label f s t)) : x.Runs := by
  intro f s
  have hws : ws f = fun s t => wrTy (x.ty f) f.d (x.value f s t) (x.label f s t) := funext fun s => funext fun t => hw f s t
  exact ⟨hws ▸ hexec f s, hop f⟩

/-! Results in one register and in a pair. -/

/-- A pair with a zero low word. -/
theorem pair_zero (x : BitVec 16) : Word.pair (x.setWidth 32) 0 = BitVec.ofNat 64 (x.toNat * 2 ^ 32) := by
  refine BitVec.eq_of_toNat_eq ?_
  have hx := x.isLt
  rw [Word.pair, BitVec.toNat_append, BitVec.toNat_setWidth, BitVec.toNat_ofNat, Nat.shiftLeft_eq]
  rw [show (0 : Word).toNat = 0 from rfl, Nat.or_zero]
  omega

theorem leaIndex_eq (ty : Ty) (b : Word) : leaIndex ty b = if ty = .s64 then b.toInt else (b.toNat : Int) :=
  if_congr beq_iff_eq rfl rfl

theorem addi_writes (f : Fields) (s : State) (t : Nat) : addi s f t =
    wrTy (if f.ty = .none then .n64 else .b32) f.d
      (if f.ty = .none then wrap64 ((read64 s t f.a).toInt + f.imm12) else (wrap32 ((read32 s t f.a).toInt + f.imm12)).setWidth 64)
      (labelOf s 0x082 f t) := by
  by_cases h : f.ty = .none
  · simp only [addi, h, BEq.rfl, if_true]
    rfl
  · simp only [addi, beq_eq_false_iff_ne.mpr h, if_neg h, wr32_setWidth]
    rfl

/-! The forms. -/

theorem arithmeticForms_run : ∀ x ∈ arithmeticForms, x.Runs := by
  intro x hx
  simp only [arithmeticForms, List.mem_cons, List.not_mem_nil, or_false] at hx
  rcases hx with rfl | rfl | rfl | rfl | rfl | rfl | rfl | rfl | rfl | rfl | rfl | rfl
  iterate 11 exact fun _ _ => ⟨rfl, rfl⟩
  exact .of_writes (fun _ _ => rfl) (fun _ => rfl) (fun _ _ _ => by rw [leaIndex_eq]; rfl)

theorem bitForms_run : ∀ x ∈ bitForms, x.Runs := by
  intro x hx
  simp only [bitForms, List.mem_cons, List.not_mem_nil, or_false] at hx
  rcases hx with rfl | rfl | rfl | rfl | rfl | rfl | rfl | rfl | rfl | rfl | rfl | rfl | rfl | rfl | rfl | rfl
  iterate 8 exact fun _ _ => ⟨rfl, rfl⟩
  · exact .of_writes (fun _ _ => rfl) (fun _ => rfl) (fun _ _ _ => wr32_setWidth _ _ _)
  · exact fun _ _ => ⟨rfl, rfl⟩
  · exact .of_writes (fun _ _ => rfl) (fun _ => rfl) (fun _ _ _ => by rw [BitVec.ofNat_toNat, BitVec.setWidth_eq]; rfl)
  · exact .of_writes (fun _ _ => rfl) (fun _ => rfl) (fun _ _ _ => wr32_setWidth _ _ _)
  · exact .of_writes (fun _ _ => rfl) (fun _ => rfl) (fun _ _ _ => wr32_ofNat _ _ _)
  · exact .of_writes (fun _ _ => rfl) (fun _ => rfl) (fun _ _ _ => wr32_ofNat _ _ _)
  · exact fun _ _ => ⟨rfl, rfl⟩
  · exact .of_writes (fun _ _ => rfl) (fun _ => rfl) (fun _ _ _ => wr32_setWidth _ _ _)

theorem moveForms_run : ∀ x ∈ moveForms, x.Runs := by
  intro x hx
  simp only [moveForms, List.mem_cons, List.not_mem_nil, or_false] at hx
  rcases hx with rfl | rfl | rfl | rfl | rfl
  · exact fun _ _ => ⟨rfl, rfl⟩
  · exact .of_writes (fun _ _ => rfl) (fun _ => rfl) (fun _ _ _ => wr32_ofNat _ _ _)
  · exact .of_writes (fun _ _ => rfl) (fun _ => rfl) addi_writes
  · exact .of_writes (fun _ _ => rfl) (fun _ => rfl) (fun _ _ _ => by rw [pair_zero]; rfl)
  · exact .of_writes (fun _ _ => rfl) (fun _ => rfl) (fun _ _ _ => wr32_ofNat _ _ _)

/-- Settles O1: each form's effect is one result in its destination, and its writes are those of that result. -/
theorem integerResults : Obligations.IntegerResults :=
  ⟨fun x hx => (arithmeticForms_run x hx).completes, fun x hx => (bitForms_run x hx).completes, fun x hx => (moveForms_run x hx).completes⟩

end Sys2Proof.Machine
end

section
/-! SUPPORT. Frames put together, forms without sources, and an instruction that does nothing but move its threads on (R90, R92, R115, R137). -/

namespace Sys2Proof.Machine

/-! Frames. -/

/-- Equal registers of a gang's own and a frame of its labels, together. -/
theorem GangKept.of_own {x y : Gang} {ds ps : List Nat} (ho : y.own = x.own) (hl : Gang.LabelFrame ds ps [] [] x y) :
    GangKept x y ds ps [] [] := by
  simp only [Gang.own] at ho
  injection ho with hs _ hb hp
  exact ⟨fun r hr => ⟨by simp [Gang.sreg, hs], hl.sreg r hr⟩, fun r hr => ⟨by rw [hb], hl.record r hr⟩, hl.tile, hl.pred, hl.control, hp⟩

theorem GangKept.trans {x y z : Gang} {ds ps us bs : List Nat} (h : GangKept x y ds ps us bs) (k : GangKept y z ds ps us bs) :
    GangKept x z ds ps us bs :=
  ⟨fun r hr => ⟨(k.sregs r hr).1.trans (h.sregs r hr).1, (k.sregs r hr).2.trans (h.sregs r hr).2⟩,
    fun r hr => ⟨(k.records r hr).1.trans (h.records r hr).1, (k.records r hr).2.trans (h.records r hr).2⟩,
    fun r hr => (k.tiles r hr).trans (h.tiles r hr), fun n hn => (k.preds n hn).trans (h.preds n hn),
    fun i hi => k.control i (h.control i hi), k.part.trans h.part⟩

theorem Others.trans {s s' s'' : State} {ps ds : List Nat} (h : Others s s' ps ds) (k : Others s' s'' ps ds) : Others s s'' ps ds :=
  ⟨fun g => (h.gangs g).trans (k.gangs g), fun a => (k.memory a).trans (h.memory a)⟩

/-! Forms without sources. -/

/-- The form reads no source operand. -/
def Sourceless (op : Nat) (f : Fields) : Prop := ∀ q ∈ sourcesOf op f, q.1.isUnused = true

theorem sourceEmpty_unused {s : State} {t : Nat} {x : Slot} (h : x.isUnused = true) (o : Opnd) : sourceEmpty s t x o = none := by
  cases o <;> simp [sourceEmpty, opndRegs, h]

theorem Sourceless.of_slots {op : Nat} {f : Fields}
    (h : (slotsOf op f).a.isUnused = true ∧ (slotsOf op f).b.isUnused = true ∧ (slotsOf op f).c.isUnused = true) : Sourceless op f := by
  obtain ⟨ha, hb, hc⟩ := h
  intro q hq
  simp only [sourcesOf, List.mem_append, List.mem_cons, List.not_mem_nil, or_false] at hq
  rcases hq with hq | rfl | rfl
  · split at hq
    · rw [List.mem_singleton.mp hq]; exact ha
    · simp at hq
  · exact hb
  · exact hc

section
variable {op : Nat} {f : Fields} {preds regs : List Nat} {eff : State → Nat → Res} {s : State} {t u : Nat}

/-- No empty register traps at a form without sources. -/
theorem Sourceless.checkIn_ne_trap (h : Sourceless op f) (k : Nat) : checkIn s op f preds regs u ≠ .trap k := by
  have hnone : ∀ q ∈ sourcesOf op f, sourceEmpty s u q.1 q.2.1 = none := fun q hq => sourceEmpty_unused (h q hq) _
  have hfind : (sourcesOf op f).find? (fun q => q.2.2.1 && (sourceEmpty s u q.1 q.2.1).isSome) = none :=
    List.find?_eq_none.mpr (fun q hq => by simp [hnone q hq])
  have hsome : (sourcesOf op f).findSome? (fun q => sourceEmpty s u q.1 q.2.1) = none := List.findSome?_eq_none_iff.mpr hnone
  simp only [checkIn, hfind, hsome]
  repeat' split
  all_goals simp

/-- The effect of an instruction that only moves its thread on, with or without that of the yield hint (R97). -/
def Eff.idle (y : Bool) : Eff := { yields := y }

/-- What a thread comes to at such a form whose effect is only the move to the next instruction. -/
theorem Sourceless.judgeOne_idle (h : Sourceless op f) {y : Bool} (he : eff s u = .go (.idle y)) :
    judgeOne s op f preds regs eff u = none ∨ (∃ w, judgeOne s op f preds regs eff u = some (.block w)) ∨
      judgeOne s op f preds regs eff u = some (.go (.idle y)) := by
  simp only [judgeOne]
  split
  · exact .inl rfl
  · exact .inr (.inl ⟨_, rfl⟩)
  · rename_i hk
    exact absurd hk (h.checkIn_ne_trap _)
  · exact .inr (.inr (congrArg some he))

end

/-! The group. -/

theorem retire_sched (s : State) (f : Fields) (y : Bool) (p : Pc) (t u : Nat) : ((retire s f y p u).thread t).sched = (s.thread t).sched := by
  simp only [retire, State.thread_modThread]
  split <;> simp

/-- Nothing outside the threads has changed, and the thread is ready. -/
structure State.StillReady (t : Nat) (s s' : State) : Prop where
  still : Still s s'
  ready : (s'.thread t).sched = .ready

theorem State.StillReady.modThread {s b : State} {t u : Nat} (h : s.StillReady t b) {F : Thread → Thread}
    (hF : t = u → (F (b.thread t)).sched = .ready) : s.StillReady t (b.modThread u F) := by
  obtain ⟨⟨h1, h2, h3, h4, h5, h6, h7, h8, h9, h10⟩, hr⟩ := h
  refine ⟨⟨h1, h2, h3, h4, h5, h6, h7, h8, h9, h10⟩, ?_⟩
  rw [State.thread_modThread]
  split
  · rename_i e; exact hF e
  · exact hr

theorem State.StillReady.retire {s b : State} {t : Nat} (h : s.StillReady t b) (f : Fields) (y : Bool) (p : Pc) (u : Nat) :
    s.StillReady t (retire b f y p u) :=
  have hc : s.StillReady t (b.charge u) := h.modThread fun _ => h.ready
  hc.modThread fun _ => hc.ready

section
variable {op : Nat} {f : Fields} {preds regs : List Nat} {eff : State → Nat → Res} {s : State} {t : Nat} {y : Bool}

theorem State.StillReady.applyRes_idle {b : State} (h : s.StillReady t b) (l : List (Nat × Option Res)) (u : Nat) :
    s.StillReady t (applyRes op f s l b (u, some (.go (.idle y)))) :=
  State.StillReady.retire (h.modThread (u := u) (F := (Eff.idle y).alter (b.clkOf u)) fun _ => h.ready) f (f.yld || y) (nextPc b.pc) u

/-- At a form without sources whose effect is only the move to the next instruction nothing changes but threads, and a thread that
executes stays ready. -/
theorem runGroup_idle_stillReady (h : Issues s op f preds regs t) (hs : Sourceless op f) (he : ∀ u, eff s u = .go (.idle y)) :
    s.StillReady t (runGroup op f preds regs eff s) := by
  refine List.foldlRecOn (motive := fun b => s.StillReady t b) (judge s op f preds regs eff) _
    ⟨⟨rfl, rfl, rfl, rfl, rfl, rfl, rfl, rfl, rfl, rfl⟩, h.ready⟩ (fun b hb z hz => ?_)
  obtain ⟨u, r⟩ := z
  obtain ⟨-, hr⟩ := judge_mem hz
  simp only at hr
  rw [hr]
  rcases hs.judgeOne_idle (preds := preds) (regs := regs) (he u) with hn | ⟨w, hw⟩ | hgo
  · rw [hn]
    exact hb.retire f f.yld (nextPc s.pc) u
  · have htu : t ≠ u := by
      rintro rfl
      simp [judgeOne, h.checkIn, he] at hw
    rw [hw]
    exact hb.modThread (F := fun x => { x with sched := x.goTo (.blocked w), aged := false, turns := x.turns + 1 }) fun e => absurd e htu
  · rw [hgo]
    exact hb.applyRes_idle _ u

/-- The thread of such an instruction stands at the next one, as it was. -/
theorem runGroup_idle_moved (h : Issues s op f preds regs t) (he : ∀ u, eff s u = .go (.idle y)) :
    Thread.Moved (s.thread t) ((runGroup op f preds regs eff s).thread t) (nextPc s.pc) :=
  runGroup_moved h (he t) rfl rfl

theorem runGroup_idle_others (he : ∀ u, eff s u = .go (.idle y)) : Others s (runGroup op f preds regs eff s) :=
  runGroup_others (fun u e hu => by
    obtain rfl := Res.go.inj (hu.symm.trans (he u))
    exact ⟨fun w hw => absurd hw (by simp [Eff.idle]), rfl⟩)

end

end Sys2Proof.Machine
end

section
/-! O7: NOP, YIELD and SETPRI (R97, R137, R138). -/

namespace Sys2Proof.Machine

section
variable {op : Nat} {f : Fields} {eff : State → Nat → Res} {s : State} {t : Nat} {y : Bool}

/-- What NOP and YIELD leave. -/
theorem runGroup_idle_onlyAdvances (h : Issues s op f [] [] t) (hs : Sourceless op f) (he : ∀ u, eff s u = .go (.idle y)) :
    ((runGroup op f [] [] eff s).thread t).pc = nextPc s.pc ∧ ((runGroup op f [] [] eff s).thread t).sched = .ready ∧
      Kept (s.thread t) ((runGroup op f [] [] eff s).thread t) [] [] ∧ Still s (runGroup op f [] [] eff s) :=
  have hm := runGroup_idle_moved h he
  have hr := runGroup_idle_stillReady h hs he
  ⟨hm.pc, hr.ready, hm.kept, hr.still⟩

end

theorem nopAndYieldOnlyAdvance : Rule.NopAndYieldOnlyAdvance := by
  intro f s t
  exact ⟨fun h => ⟨_, rfl, runGroup_idle_onlyAdvances h (.of_slots ⟨rfl, rfl, rfl⟩) fun _ => rfl⟩,
    fun h => ⟨_, rfl, runGroup_idle_onlyAdvances h (.of_slots ⟨rfl, rfl, rfl⟩) fun _ => rfl⟩⟩

theorem setpriCapsTheClass : Rule.SetpriCapsTheClass := by
  intro f s t h
  have hm := runGroup_moved (eff := fun s t => .go { cls := some (setpriClass s f t) }) h rfl rfl rfl
  refine ⟨_, rfl, hm.cls, hm.pc, ?_, runGroup_others fun u e he => ?_, runGroup_unsent fun u e he => ?_⟩
  · rw [hm.cls]
    exact hm.kept
  · obtain rfl := Res.go.inj he
    exact ⟨by simp, rfl⟩
  · obtain rfl := Res.go.inj he
    rfl

/-- Settles O7: NOP and YIELD change threads alone and keep theirs ready; SETPRI's effect is the class. -/
theorem nopYieldSetpri : Obligations.NopYieldSetpri := ⟨nopAndYieldOnlyAdvance, setpriCapsTheClass⟩

end Sys2Proof.Machine
end

section
/-! O6: SETMODE and PART (R159, R160). -/

namespace Sys2Proof.Machine

theorem setmode_getLsbD (old x : Word) (m : Nat) {i : Nat} (hi : i < 32) :
    (setmode old m x).getLsbD i = if m.testBit i then x.getLsbD i else old.getLsbD i := by
  simp only [setmode, BitVec.getLsbD_or, BitVec.getLsbD_and, BitVec.getLsbD_not, BitVec.getLsbD_ofNat, hi, decide_true, Bool.true_and]
  cases m.testBit i <;> simp

theorem setmodeWritesTheMaskedBits : Rule.SetmodeWritesTheMaskedBits := by
  intro f s t h
  have hm := runGroup_moved (eff := fun s t => .go { mode := some (setmode (s.thread t).mode f.low (read32 s t f.a)) }) h rfl rfl rfl
  refine ⟨_, rfl, fun i hi => ?_, hm.pc, ?_, runGroup_others fun u e he => ?_, runGroup_unsent fun u e he => ?_⟩
  · rw [hm.mode]
    exact setmode_getLsbD _ _ _ hi
  · rw [hm.mode]
    exact hm.kept
  · obtain rfl := Res.go.inj he
    exact ⟨by simp, rfl⟩
  · obtain rfl := Res.go.inj he
    rfl

/-! PART. -/

/-- The effect of PART. -/
def partEff (p : BitVec 3) : Eff := { part := some p }

theorem mem_distinct_of_mem {l : List Nat} {u : Nat} (h : u ∈ l) : u ∈ distinct l := by
  have hgrow : ∀ (m acc : List Nat), u ∈ acc ∨ u ∈ m → u ∈ m.foldl (fun acc x => if acc.contains x then acc else acc ++ [x]) acc := by
    intro m
    induction m with
    | nil => exact fun acc h => h.resolve_right (by simp)
    | cons x m ih =>
      intro acc h
      refine ih _ ?_
      dsimp only
      rcases h with h | h
      · left
        split
        · exact h
        · exact List.mem_append_left _ h
      · rcases List.mem_cons.mp h with rfl | h
        · left
          split
          · rename_i hc; exact List.contains_iff_mem.mp hc
          · exact List.mem_append_right _ (List.mem_singleton_self u)
        · exact .inr h
  exact hgrow l [] (.inr h)

section
variable {op : Nat} {f : Fields} {preds regs : List Nat} {eff : State → Nat → Res} {s : State} {t : Nat} {p : BitVec 3}

/-- What a group leaves of every gang but for the partition register, where its effects write within a frame. -/
theorem runGroup_gangKept_part {ds ps us bs : List Nat} (h : ∀ u e, eff s u = .go e → ∀ w ∈ e.writes, w.within ds ps us bs) (g : Nat) :
    GangKept { s.gang g with part := ((runGroup op f preds regs eff s).gang g).part } ((runGroup op f preds regs eff s).gang g) ds ps us bs := by
  have hl := runGroup_labels (op := op) (f := f) (preds := preds) (regs := regs) h g
  refine ⟨fun r hr => ⟨?_, hl.sreg r hr⟩, fun r hr => ⟨?_, hl.record r hr⟩, hl.tile, hl.pred, hl.control, rfl⟩
  · have := runGroup_own op f preds regs eff s g (fun x => tabGetD 0 x.sregs r) (fun u e he c x => Eff.onOwn_sregs (fun w hw v l hv =>
      hr (by have := h u e he w (uniOnce_writes_sub _ _ _ _ w hw); rwa [hv] at this)) x)
    simp only [Gang.sreg]
    split
    · rfl
    · exact this
  · exact runGroup_own op f preds regs eff s g (fun x => tabGetD 0 x.brecs r) (fun u e he c x => Eff.onOwn_brecs (fun w hw v l hv =>
      hr (by have := h u e he w (uniOnce_writes_sub _ _ _ _ w hw); rwa [hv] at this)) x)

/-- The partition register after one thread of a group that executes PART. -/
theorem applyRes_part (l : List (Nat × Option Res)) (b : State) (u g : Nat) :
    ((applyRes op f s l b (u, some (.go (partEff p)))).gang g).part = if g = gangOf u then p else (b.gang g).part := by
  have ho := congrArg Gang.Own.part (applyRes_own op f s l b (u, some (.go (partEff p))) g)
  refine ho.trans ?_
  simp only
  split <;> rfl

theorem applyRes_part_ne (l : List (Nat × Option Res)) (b : State) {z : Nat × Option Res} {g : Nat} (h : g ≠ gangOf z.1) :
    ((applyRes op f s l b z).gang g).part = (b.gang g).part := by
  refine (congrArg Gang.Own.part (applyRes_own op f s l b z g)).trans ?_
  split
  · rw [if_neg h]; rfl
  · rfl

theorem applyRes_part_of_not_go (l : List (Nat × Option Res)) (b : State) {z : Nat × Option Res} (h : ∀ e, z.2 ≠ some (.go e)) (g : Nat) :
    ((applyRes op f s l b z).gang g).part = (b.gang g).part := by
  refine (congrArg Gang.Own.part (applyRes_own op f s l b z g)).trans ?_
  split
  · rename_i e he; exact absurd he (h e)
  · rfl

/-- The partition register of an executing thread's gang after a PART of its group. -/
theorem runGroup_part (h : Issues s op f preds regs t) (he : ∀ u, eff s u = .go (partEff p)) :
    ((runGroup op f preds regs eff s).gang (gangOf t)).part = p := by
  refine runGroup_after (P := fun b => (b.gang (gangOf t)).part = p) h.mem h.ready (fun b => ?_) (fun b z hz hb => ?_)
  · rw [show judgeOne s op f preds regs eff t = some (.go (partEff p)) by simp [judgeOne, h.checkIn, he], applyRes_part, if_pos rfl]
  · by_cases hgo : ∃ e, z.2 = some (.go e)
    · obtain ⟨u, r⟩ := z
      obtain ⟨e, rfl⟩ := hgo
      obtain rfl := Res.go.inj ((goer_guard hz).2.2.symm.trans (he u))
      rw [applyRes_part]
      split
      · rfl
      · exact hb
    · rw [applyRes_part_of_not_go _ _ fun e hz => hgo ⟨e, hz⟩]
      exact hb

/-- The partition register of a gang outside the group. -/
theorem runGroup_part_outside {g : Nat} (h : g ∉ gangsOf s.group) :
    ((runGroup op f preds regs eff s).gang g).part = (s.gang g).part := by
  refine foldl_keeps _ (fun b => (State.gang b g).part) _ s (fun b z hz => applyRes_part_ne _ b fun e => h ?_)
  exact e ▸ mem_distinct_of_mem (List.mem_map_of_mem (judge_mem hz).1)

end

theorem partWritesThePartitionRegister : Rule.PartWritesThePartitionRegister := by
  intro f s t h
  have hm := runGroup_moved (eff := fun _ _ => .go (partEff (BitVec.ofNat 3 (f.bits 0 3)))) h rfl rfl rfl
  refine ⟨_, rfl, runGroup_part h fun _ => rfl, fun g hg => runGroup_part_outside hg, hm.pc, hm.kept, fun a => by rw [runGroup_mem],
    fun g => runGroup_gangKept_part (fun u e he => ?_) g, runGroup_unsent fun u e he => ?_⟩
  · obtain rfl := Res.go.inj he
    simp
  · obtain rfl := Res.go.inj he
    rfl

/-- Settles O6: SETMODE's effect is the mode register, PART's the partition register of each executing thread's gang. -/
theorem controlRegisters : Obligations.ControlRegisters := ⟨setmodeWritesTheMaskedBits, partWritesThePartitionRegister⟩

end Sys2Proof.Machine
end

section
/-! O9: BPT, TRAP and RFT (R139, R396, R404, R405, R419). -/

namespace Sys2Proof.Machine

theorem bptAndTrapEnterTheHandler : Rule.BptAndTrapEnterTheHandler := by
  intro f s t p hh hin
  refine ⟨fun h => ⟨_, rfl, ?_⟩, fun h => ⟨_, rfl, ?_⟩⟩
  · rw [runGroup_trap_alone h rfl]
    exact issueTrap_trapped h.ready hh hin
  · rw [runGroup_trap_alone h rfl]
    exact issueTrap_trapped h.ready hh hin

/-! RFT. -/

theorem rftEff_returns {s : State} {t : Nat} (hin : (s.thread t).inTrap = true) (h4 : (s.thread t).trappc.toNat % 4 = 0) :
    rftEff s t = .go (jumpEff [] (s.thread t).trappc) := by
  simp only [rftEff, hin, h4]
  rfl

/-- The labels of p0 to p6 before a trap are kept through a jump of a thread that is alone. -/
theorem jump_shadowLabels (op : Nat) (f : Fields) (s : State) (t : Nat) (p : Pc) :
    ((appliedAlone op f s t (jumpEff [] p)).thread t).shadowLabels = (s.thread t).shadowLabels := by
  show ((retire (s.modThread t ((jumpEff [] p).alter (s.clkOf t))) f (f.yld || false) p t).thread t).shadowLabels = _
  simp only [retire, State.charge, State.thread_modThread, if_true]
  rfl

/-- Labels united with those of p0 to p6. -/
def Gang.unitePreds (g : Gang) (l : Nat → Label) (ns : List Nat) : Gang := ns.foldl (fun g n => g.setPredLabel n (g.predLabel n ||| l n)) g

theorem Gang.predLabel_setPredLabel (g : Gang) {n : Nat} (hn : n < 7) (k : Nat) (l : Label) :
    (g.setPredLabel k l).predLabel n = if n = k then l else g.predLabel n := by
  by_cases hk : k < 7
  · simp [Gang.setPredLabel, Gang.predLabel, hk, hn]
  · have : n ≠ k := by omega
    simp [Gang.setPredLabel, hk, this]

theorem Gang.predLabel_unitePreds_other (g : Gang) (l : Nat → Label) {ns : List Nat} {n : Nat} (hn : n < 7) (h : n ∉ ns) :
    (g.unitePreds l ns).predLabel n = g.predLabel n := by
  refine foldl_keeps _ (fun g => Gang.predLabel g n) ns g (fun g k hk => ?_)
  rw [Gang.predLabel_setPredLabel g hn, if_neg fun e : n = k => h (e ▸ hk)]

theorem Gang.predLabel_unitePreds (g : Gang) (l : Nat → Label) {ns : List Nat} {n : Nat} (hn : n < 7) (hd : ns.Nodup) (h : n ∈ ns) :
    (g.unitePreds l ns).predLabel n = g.predLabel n ||| l n := by
  induction ns generalizing g with
  | nil => simp at h
  | cons k ns ih =>
    obtain ⟨hk, hd⟩ := List.nodup_cons.mp hd
    show ((g.setPredLabel k (g.predLabel k ||| l k)).unitePreds l ns).predLabel n = _
    rcases List.mem_cons.mp h with rfl | h
    · rw [Gang.predLabel_unitePreds_other _ _ hn hk, Gang.predLabel_setPredLabel g hn, if_pos rfl]
    · rw [ih _ hd h, Gang.predLabel_setPredLabel g hn, if_neg fun e : n = k => hk (e ▸ h)]

theorem Gang.unitePreds_kept (g : Gang) (l : Nat → Label) (ns : List Nat) : GangKept g (g.unitePreds l ns) [] ns [] [] := by
  refine .of_own (foldl_keeps _ Gang.own ns g fun _ _ _ => Gang.own_setPredLabel _ _ _) ?_
  refine List.foldlRecOn (motive := fun b => Gang.LabelFrame [] ns [] [] g b) ns _ (.refl _ _ _ _ _) fun b hb n hn => hb.trans ?_
  exact Gang.labelFrame_setPredLabel _ _ _ b _ hn

theorem leaveTrap_thread (s : State) (t : Nat) : (leaveTrap s t).thread t =
    { s.thread t with preds := (s.thread t).shadow, inTrap := false, pc := (s.thread t).trappc } := by
  simp [leaveTrap]

theorem leaveTrap_gang (s : State) (t g : Nat) : (leaveTrap s t).gang g =
    if g = gangOf t then (s.gang g).unitePreds (fun n => tabGetD 0 (s.thread t).shadowLabels n) (List.range 7) else s.gang g := by
  simp only [leaveTrap, State.gang_modGang, State.gang_modThread]
  rfl

theorem leaveTrap_others (s : State) (t : Nat) : Others s (leaveTrap s t) (List.range 7) := by
  refine ⟨fun g => ?_, fun _ => rfl⟩
  rw [leaveTrap_gang]
  split
  · exact Gang.unitePreds_kept _ _ _
  · exact .refl _ _ _ _ _

/-- RFT writes no register, predicate or label but by the return itself. -/
theorem runGroup_rft_others (f : Fields) (s : State) (ps : List Nat) :
    Others s (runGroup 0x386 f (List.range 7) [] rftEff s) ps := by
  refine runGroup_others fun u e he => ?_
  simp only [rftEff] at he
  split at he
  · cases he
  · split at he
    · cases he
    · obtain rfl := Res.go.inj he
      exact ⟨by simp, rfl⟩

theorem rftReturnsFromTheHandler : Rule.RftReturnsFromTheHandler := by
  intro f s t h hin h4
  have he := rftEff_returns hin h4
  have hexec : exec (.rft f) s = .next (leaveTrap (runGroup 0x386 f (List.range 7) [] rftEff s) t) := by
    show Host.Outcome.next ((goers (judge s 0x386 f (List.range 7) [] rftEff)).foldl leaveTrap _) = _
    rw [goers_alone h he]
    rfl
  have hm : Thread.Moved (s.thread t) ((runGroup 0x386 f (List.range 7) [] rftEff s).thread t) (s.thread t).trappc :=
    runGroup_moved h.toIssues he rfl rfl
  have hl : ((runGroup 0x386 f (List.range 7) [] rftEff s).thread t).shadowLabels = (s.thread t).shadowLabels := by
    rw [runGroup_go_alone h he]
    exact jump_shadowLabels _ _ _ _ _
  refine ⟨_, hexec, ?_, ?_, ?_, fun r => ?_, fun n hn => ?_, (runGroup_rft_others f s _).trans (leaveTrap_others _ t)⟩
  · rw [leaveTrap_thread]; exact hm.trappc
  · rw [leaveTrap_thread]
  · rw [leaveTrap_thread]; exact hm.shadow
  · rw [leaveTrap_thread]; exact hm.kept.regs r (by simp)
  · have hp : ((runGroup 0x386 f (List.range 7) [] rftEff s).gang (gangOf t)).predLabel n = (s.gang (gangOf t)).predLabel n :=
      ((runGroup_rft_others f s []).gangs (gangOf t)).preds n (by simp)
    rw [leaveTrap_gang, if_pos rfl, Gang.predLabel_unitePreds _ _ hn List.nodup_range (List.mem_range.mpr hn), hp, hl]

/-- Settles O9: BPT and TRAP are traps of a thread alone, and RFT a jump to the return address after which the shadow comes back. -/
theorem breakpointTrapReturn : Obligations.BreakpointTrapReturn := ⟨bptAndTrapEnterTheHandler, rftReturnsFromTheHandler⟩

end Sys2Proof.Machine
end

section
/-! O10: EXIT, TERM.G, TERM.U and HALT (R113, R136, R397, R420, R421). -/

namespace Sys2Proof.Machine

/-! EXIT. -/

theorem exitThread_sched (s : State) (t : Nat) : ((s.exitThread t).thread t).sched = .exited := by
  simp only [State.exitThread]
  split <;> simp

theorem exitThread_body (s : State) (t u : Nat) : ((s.exitThread t).thread u).body = (s.thread u).body := by
  by_cases hu : u = t
  · subst hu
    simp only [State.exitThread]
    split <;> simp [Thread.body]
  · rw [State.thread_exitThread_ne s hu]

/-- An EXIT that neither waits nor delivers a record is the move to the next instruction, and then the end of its thread. -/
theorem appliedAlone_exits (op : Nat) (f : Fields) (s : State) (t : Nat) :
    appliedAlone op f s t { exits := true } = (appliedAlone op f s t (.idle false)).exitThread t := rfl

theorem exitEff_exits {s : State} {t : Nat} (hw : s.ownWrites t = []) (hd : s.mustDeliver t = false) : exitEff s t = .go { exits := true } := by
  simp [exitEff, hw, checkHere, hd]

theorem exitEff_go {s : State} {t : Nat} {e : Eff} (h : exitEff s t = .go e) : e = { exits := true } := by
  simp only [exitEff, checkHere] at h
  split at h
  · cases h
  · split at h
    · cases h
    · exact (Res.go.inj h).symm

theorem appliedAlone_idle_moved {op : Nat} {f : Fields} {preds regs : List Nat} {s : State} {t : Nat} {y : Bool} (h : Alone s op f preds regs t) :
    Thread.Moved (s.thread t) ((appliedAlone op f s t (.idle y)).thread t) (nextPc s.pc) := by
  rw [← runGroup_go_alone (eff := fun _ _ => .go (.idle y)) h rfl]
  exact runGroup_idle_moved h.toIssues fun _ => rfl

theorem exitEndsTheThread : Rule.ExitEndsTheThread := by
  intro f s t h hw hd
  refine ⟨_, rfl, ?_, ?_, runGroup_others fun u e he => ?_⟩
  · rw [runGroup_go_alone h (exitEff_exits hw hd), appliedAlone_exits]
    exact exitThread_sched _ _
  · rw [runGroup_go_alone h (exitEff_exits hw hd), appliedAlone_exits]
    exact (appliedAlone_idle_moved h).kept.trans (Kept.of_body (exitThread_body _ _ _)).2
  · rw [exitEff_go he]
    exact ⟨by simp, rfl⟩

/-! The end of gangs and of units. -/

theorem terminateGang_ended (s : State) (g : Nat) : ((s.terminateGang g).gang g).ended = true := by
  simp [State.terminateGang, State.endGang]

/-- A core's queue without the records of a gang takes in none of them. -/
theorem Core.refill_filter (c : Core) (g : Nat) (hs : ∀ r ∈ c.sfq, r.gang ≠ g) (hl : ∀ r ∈ c.late, r.gang ≠ g) :
    c.refill.sfq.filter (fun r => r.gang == g) = [] := by
  refine List.filter_eq_nil_iff.mpr fun r hr => ?_
  rcases List.mem_append.mp hr with hr | hr
  · simpa using hs r hr
  · simpa using hl r (List.mem_of_mem_take hr)

theorem dropRecords_pendingRecords (s : State) (g : Nat) : (s.dropRecords g).pendingRecords g = [] := by
  show (((s.dropRecords g).core (s.coreOfGang g)).sfq.filter _) = []
  rw [State.dropRecords, State.modCore_eq, State.core_setCore, if_pos rfl]
  refine Core.refill_filter _ g (fun r hr => ?_) (fun r hr => ?_)
  · simpa using (List.mem_filter.mp hr).2
  · simpa using (List.mem_filter.mp hr).2

theorem terminateGang_pendingRecords (s : State) (g : Nat) : (s.terminateGang g).pendingRecords g = [] :=
  dropRecords_pendingRecords _ g

theorem terminateGang_others (s : State) (k : Nat) : Others s (s.terminateGang k) :=
  ⟨fun g => .of_own (State.own_terminateGang s k g) (State.labelFrame_terminateGang _ _ _ _ s k g), fun a => by rw [State.terminateGang_mem]⟩

theorem terminateUnit_others (s : State) (k : Nat) : Others s (s.terminateUnit k) :=
  ⟨fun g => .of_own (State.own_terminateUnit s k g) (State.labelFrame_terminateUnit _ _ _ _ s k g), fun a => by rw [State.terminateUnit_mem]⟩

theorem Still.threadsOfGang {s s' : State} (h : Still s s') (g : Nat) : s'.threadsOfGang g = s.threadsOfGang g := by
  simp only [State.threadsOfGang, State.gang, h.gangs]

theorem Still.threadsOfUnit {s s' : State} (h : Still s s') (u : Nat) : s'.threadsOfUnit u = s.threadsOfUnit u := by
  have hg : s'.gangsOfUnit u = s.gangsOfUnit u := by simp only [State.gangsOfUnit, State.unit, h.units]
  rw [State.threadsOfUnit, State.threadsOfUnit, hg, show s'.threadsOfGang = s.threadsOfGang from funext h.threadsOfGang]

/-! HALT. -/

/-- What a HALT of a unit leaves alone, and the mark that it makes. -/
structure HaltsUnit (u : Nat) (s s' : State) : Prop where
  halted : (s'.unit u).halted = true
  threads : s'.threads = s.threads
  gangs : s'.gangs = s.gangs
  mem : s'.mem = s.mem

theorem notice_keeps (s : State) (ep level detail index : Nat) (payload : List Byte) :
    (notice s ep level detail index payload).threads = s.threads ∧ (notice s ep level detail index payload).gangs = s.gangs ∧
      (notice s ep level detail index payload).units = s.units := by
  simp only [notice, sendNumbered]
  split <;> exact ⟨rfl, rfl, rfl⟩

theorem HaltsUnit.notice {s b : State} {u : Nat} (h : HaltsUnit u s b) (ep level detail index : Nat) (payload : List Byte) :
    HaltsUnit u s (notice b ep level detail index payload) := by
  obtain ⟨ht, hg, hu⟩ := notice_keeps b ep level detail index payload
  refine ⟨?_, ht.trans h.threads, hg.trans h.gangs, (notice_mem ..).trans h.mem⟩
  rw [State.unit, hu]
  exact h.halted

theorem HaltsUnit.modUnit (s : State) (u : Nat) {F : Unit → Unit} (hF : ∀ x, (F x).halted = true) : HaltsUnit u s (s.modUnit u F) :=
  ⟨by simp [State.modUnit_eq, hF], rfl, rfl, rfl⟩

theorem haltUnit_halts (f : Fields) (ts : List Nat) (pc : Pc) (s : State) (u : Nat) : HaltsUnit u s (haltUnit f ts pc s u) := by
  simp only [haltUnit]
  split
  · rename_i hh
    exact ⟨hh, rfl, rfl, rfl⟩
  · exact (HaltsUnit.modUnit s u fun _ => rfl).notice ..

theorem HaltsUnit.untouched {s b s' : State} {u t : Nat} (h : HaltsUnit u b s') (hb : Untouched s b t [] [] [] []) :
    Untouched s s' t [] [] [] [] := by
  have ht : ∀ v, s'.thread v = b.thread v := State.threads_thread h.threads
  refine ⟨by rw [ht]; exact hb.thread, fun v hv => by rw [ht]; exact hb.threads v hv, fun g => ?_, fun a => by rw [h.mem]; exact hb.memory a⟩
  rw [show s'.gang g = b.gang g by simp only [State.gang, h.gangs]]
  exact hb.gangs g

/-! The forms. -/

section
variable {f : Fields} {s : State} {t : Nat}

/-- The threads of a group of one that execute such a form. -/
theorem executing_alone {op : Nat} (h : Alone s op f [] [] t) : executing op f s = [t] := goers_alone h rfl

/-- The state in which every executing thread of such a form has moved on. -/
def groupMovedOn (op : Nat) (f : Fields) (s : State) : State := runGroup op f [] [] (fun _ _ => .go {}) s

theorem groupMovedOn_still {op : Nat} (h : Alone s op f [] [] t) (hs : Sourceless op f) : Still s (groupMovedOn op f s) :=
  (runGroup_idle_stillReady (y := false) h.toIssues hs fun _ => rfl).still

theorem groupMovedOn_others (op : Nat) (f : Fields) (s : State) : Others s (groupMovedOn op f s) := runGroup_idle_others (y := false) fun _ => rfl

theorem exec_termG_alone (h : Alone s 0x387 f [] [] t) : exec (.termG f) s = .next ((groupMovedOn 0x387 f s).terminateGang (gangOf t)) := by
  show Host.Outcome.next ((gangsOf (executing 0x387 f s)).foldl State.terminateGang _) = _
  rw [executing_alone h]
  rfl

theorem exec_termU_alone (h : Alone s 0x388 f [] [] t) : exec (.termU f) s = .next ((groupMovedOn 0x388 f s).terminateUnit (unitOfThread t)) := by
  show Host.Outcome.next ((distinct ((executing 0x388 f s).map unitOfThread)).foldl State.terminateUnit _) = _
  rw [executing_alone h]
  rfl

theorem exec_halt_alone (h : Alone s 0x389 f [] [] t) :
    exec (.halt f) s = .next (haltUnit f [t] s.pc (groupMovedOn 0x389 f s) (unitOfThread t)) := by
  show Host.Outcome.next ((distinct ((executing 0x389 f s).map unitOfThread)).foldl (haltUnit f (executing 0x389 f s) s.pc) _) = _
  rw [executing_alone h]
  rfl

end

theorem terminationAndHalt : Rule.TerminationAndHalt := by
  intro f s t
  refine ⟨fun h => ?_, fun h => ?_, fun h => ?_⟩
  · refine ⟨_, exec_termG_alone h, terminateGang_ended _ _, fun u hu => terminateGang_sched (.inr ?_), terminateGang_pendingRecords _ _,
      (groupMovedOn_others _ f s).trans (terminateGang_others _ _)⟩
    rwa [(groupMovedOn_still h (.of_slots ⟨rfl, rfl, rfl⟩)).threadsOfGang]
  · refine ⟨_, exec_termU_alone h, terminateUnit_faulted _ _, fun u hu => terminateUnit_sched ?_,
      (groupMovedOn_others _ f s).trans (terminateUnit_others _ _)⟩
    rwa [(groupMovedOn_still h (.of_slots ⟨rfl, rfl, rfl⟩)).threadsOfUnit]
  · obtain ⟨hpc, huntouched⟩ := runGroup_goesOn (eff := fun _ _ => .go {}) h.toIssues rfl fun u e he => (Res.go.inj he).symm
    have hhalt := haltUnit_halts f [t] s.pc (groupMovedOn 0x389 f s) (unitOfThread t)
    refine ⟨_, exec_halt_alone h, hhalt.halted, ?_, hhalt.untouched huntouched⟩
    rw [State.threads_thread hhalt.threads]
    exact hpc

/-- Settles O10: EXIT is the end of its thread after its move; TERM.G, TERM.U and HALT move their thread on and then end its gang, end its
unit or mark it halted. -/
theorem exitAndTermination : Obligations.ExitAndTermination := ⟨exitEndsTheThread, terminationAndHalt⟩

end Sys2Proof.Machine
end

section
/-! O4: the special functions, on the fast path and on the exact one (R185, R186, R208, R210, R273, R274). -/

namespace Sys2Proof.Machine

/-! At issue. -/

theorem exec_specialForms : ∀ x ∈ specialForms, ∀ f s, exec (x.1 f) s = .next (runSpecial x.2.1 x.2.2 f s) := by
  simp only [specialForms, List.forall_mem_cons, List.not_mem_nil, false_imp_iff, implies_true, and_true]
  refine ⟨?_, ?_, ?_, ?_, ?_, ?_, ?_, ?_⟩ <;> exact fun _ _ => rfl

/-- The builder holds no special function. -/
theorem holdOf_specialForms : ∀ x ∈ specialForms, ∀ f, holdOf x.2.1 f = none := by
  simp only [specialForms, List.forall_mem_cons, List.not_mem_nil, false_imp_iff, implies_true, and_true]
  refine ⟨?_, ?_, ?_, ?_, ?_, ?_, ?_, ?_⟩ <;> exact fun _ => rfl

section
variable {op : Nat} {fn : Fn} {f : Fields} {s : State} {t : Nat}

/-- The value of a special function on the fast path. -/
def fastValue (fn : Fn) (f : Fields) (s : State) (t : Nat) : DWord :=
  BitVec.ofNat 64 (specialFast (fmtI f) fn (readF s t (fmtI f) f.a)).bits

/-- The events that it counts. -/
def fastEvents (fn : Fn) (f : Fields) (s : State) (t : Nat) : List Nat :=
  (fmtI f).events [(fmtI f).decode (readF s t (fmtI f) f.a)] (specialFast (fmtI f) fn (readF s t (fmtI f) f.a))

/-- The effect of a special function on the fast path. -/
def fastEff (op : Nat) (fn : Fn) (f : Fields) (s : State) (t : Nat) : Eff :=
  resultEff .b32 f.d (fastValue fn f s t) (labelOf s op f t) (fastEvents fn f s t)

theorem specialEff_fast (h : takesFast s t f fn = true) : specialEff op fn f s t = .go (fastEff op fn f s t) := by
  simp only [specialEff, h, if_true]
  exact congrArg (fun ws => Res.go { writes := ws, events := _ }) (wr32_ofNat _ _ _)

/-- A thread that issues alone on the fast path, as the issue of a group whose every thread has that effect. -/
theorem runSpecial_fast (h : Alone s op f [] [] t) (hf : takesFast s t f fn = true) :
    runSpecial op fn f s = runGroup op f [] [] (fun s t => .go (fastEff op fn f s t)) s :=
  (runGroup_go_alone h (specialEff_fast hf)).trans (runGroup_go_alone h rfl).symm

/-- The effect of a special function on the exact path for a thread that issues alone. -/
def exactEff (op : Nat) (fn : Fn) (f : Fields) (s : State) (t : Nat) : Eff :=
  sendEff [] (opndRegs vS f.d) [] (exactAccess s op t f fn) (if isUni f.d then some (.landing s.issue.serial) else none)

theorem specialEff_exact (h : Alone s op f [] [] t) (hx : takesFast s t f fn = false) :
    specialEff op fn f s t = .go (exactEff op fn f s t) := by
  simp only [specialEff, hx, isLeader_alone h, Bool.or_true, Bool.false_eq_true, if_false, if_true]
  rfl

theorem runSpecial_exact (h : Alone s op f [] [] t) (hx : takesFast s t f fn = false) :
    runSpecial op fn f s = appliedAlone op f s t (exactEff op fn f s t) := runGroup_go_alone h (specialEff_exact h hx)

/-- What the exact path leaves of its thread. -/
theorem runSpecial_exact_moved (h : Alone s op f [] [] t) (hx : takesFast s t f fn = false) :
    Thread.Moved ((exactEff op fn f s t).onThread (s.thread t)) ((runSpecial op fn f s).thread t) (nextPc s.pc) :=
  runGroup_moved h.toIssues (specialEff_exact h hx) rfl rfl

theorem runSpecial_exact_view (h : Alone s op f [] [] t) (hx : takesFast s t f fn = false) :
    Kept (sendThread [] (opndRegs vS f.d) [] (s.thread t)) ((runSpecial op fn f s).thread t) [] [] :=
  (sendEff_onThread _ _ _ _ _ _).trans (runSpecial_exact_moved h hx).kept

/-- Among the registers of an operand of a single register vz does not count. -/
theorem vz_notMem_opndRegs (d : Opnd) : 255 ∉ opndRegs vS d := by
  cases d with
  | v n =>
    by_cases hn : n = 255
    · simp [opndRegs, hn]
    · have hne : n.toNat ≠ 255 := fun e => hn (BitVec.eq_of_toNat_eq e)
      simpa [opndRegs, hn, vS] using fun _ _ => hne.symm
  | _ => exact List.not_mem_nil

theorem runSpecial_exact_others (h : Alone s op f [] [] t) (hx : takesFast s t f fn = false) : Others s (runSpecial op fn f s) := by
  have hconst : runSpecial op fn f s = runGroup op f [] [] (fun _ _ => .go (exactEff op fn f s t)) s :=
    (runSpecial_exact h hx).trans (runGroup_go_alone h rfl).symm
  rw [hconst]
  exact runGroup_others fun u e he => by
    obtain rfl := Res.go.inj he
    exact ⟨fun _ hw => absurd hw List.not_mem_nil, rfl⟩

/-- What a special function leaves on the fast path: its result under its label, and all else as it was. -/
theorem runSpecial_fast_result (h : Alone s op f [] [] t) (hop : holdOf op f = none) (hf : takesFast s t f fn = true) :
    ResultTy (runSpecial op fn f s) t .b32 f.d (fastValue fn f s t) ∧
      Labelled s (runSpecial op fn f s) op f [] [] t (resultRegs .b32 f.d) (resultUnis .b32 f.d) [] (labelOf s op f) ∧
      ((runSpecial op fn f s).thread t).pc = nextPc s.pc ∧
      Untouched s (runSpecial op fn f s) t (resultRegs .b32 f.d) [] (resultUnis .b32 f.d) [] := by
  rw [runSpecial_fast h hf]
  obtain ⟨⟨u, hu, -, -, -, hvalue⟩, hpc, huntouched⟩ := runGroup_result (op := op) (f := f) (preds := []) (regs := []) (s := s) (t := t) (ty := .b32)
    (d := f.d) (val := fastValue fn f) (lab := fun s => labelOf s op f) (evs := fastEvents fn f) h.toIssues
  obtain rfl : u = t := by simpa [h.alone] using hu
  exact ⟨hvalue, runGroup_resultLabels h.toIssues hop, hpc, huntouched⟩

theorem runSpecial_exact_sends (h : Alone s op f [] [] t) (hx : takesFast s t f fn = false) :
    Sends s (runSpecial op fn f s) t (exactAccess s op t f fn) := by
  rw [runSpecial_exact h hx]
  exact applyEff_sends _ _ _ _ rfl rfl rfl

theorem runSpecial_exact_waits (h : Alone s op f [] [] t) (hx : takesFast s t f fn = false) (hu : isUni f.d = true) :
    ((runSpecial op fn f s).thread t).sched = .blocked (.landing s.issue.serial) := by
  rw [runSpecial_exact h hx]
  exact applyEff_waits _ _ _ _ h.ready rfl rfl (if_pos hu)

theorem runSpecial_exact_empty (h : Alone s op f [] [] t) (hx : takesFast s t f fn = false) {r : Nat} (hr : r ∈ opndRegs vS f.d) :
    ((runSpecial op fn f s).thread t).full r = false := by
  rw [((runSpecial_exact_view h hx).regs r (by simp)).2]
  exact sendThread_full hr (fun e => vz_notMem_opndRegs f.d (e ▸ hr)) _

theorem runSpecial_exact_kept (h : Alone s op f [] [] t) (hx : takesFast s t f fn = false) :
    Kept (s.thread t) ((runSpecial op fn f s).thread t) (opndRegs vS f.d) [] :=
  (sendThread_kept (us := []) (bs := []) (fun _ hw => absurd hw List.not_mem_nil) (fun _ hr => hr)
    (fun _ hn => absurd hn List.not_mem_nil) _).trans ((runSpecial_exact_view h hx).mono (List.nil_subset _) (List.nil_subset _))

end

theorem specialFunctionsTakeTheirPath : Rule.SpecialFunctionsTakeTheirPath := fun x hx f s _ h =>
  ⟨fun hf => ⟨_, exec_specialForms x hx f s, runSpecial_fast_result h (holdOf_specialForms x hx f) hf⟩,
    fun hx' => ⟨_, exec_specialForms x hx f s, ⟨_, runSpecial_exact_sends h hx', rfl, rfl, rfl, rfl⟩, fun _ => runSpecial_exact_empty h hx',
      runSpecial_exact_waits h hx', (runSpecial_exact_moved h hx').pc, runSpecial_exact_kept h hx', runSpecial_exact_others h hx'⟩⟩

/-! The write-back. -/

theorem exec_exactPathWriteback {s : State} {id : Nat} {a : Access} (h : tabGet s.accesses id = some a) (hk : a.kind = .exact)
    (hdue : a.due ≤ s.time) : exec (.exactPathWriteback id) s = .next (landExact s id a) := by
  show execExactPathWriteback id s = _
  simp only [execExactPathWriteback, h, hk, hdue, decide_true, BEq.rfl, Bool.and_self, if_true]

/-- The access as one of a form whose type is a word: what is written back depends on the destination field alone. -/
def Access.asWord (a : Access) : Access := { a with f := { a.f with mod := 0x70000 } }

/-- A word written back: its value, and its labels. -/
theorem fill_word {s : State} {a : Access} {x : Word} {l : Label} (hx : (s.thread a.thread).sched ≠ .exited) :
    Result32 (fill s a (wr32 a.f.d x l)) a.thread a.f.d x ∧ LandLabel s (fill s a (wr32 a.f.d x l)) a .b32 l := by
  have hty : a.asWord.f.ty = .b32 := show Ty.ofCode ((0x70000#20).toNat / 2 ^ 16) = .b32 by decide
  have hfill : fill s a.asWord (destWrites a.asWord (x.setWidth 64) l) = fill s a (wr32 a.f.d x l) := by
    rw [wr32_setWidth, destWrites, hty]
    rfl
  have hlo : DWord.lo (x.setWidth 64) = x := by simp [DWord.lo]
  obtain ⟨hvalue, hlabels⟩ := fill_result (s := s) (a := a.asWord) (v := x.setWidth 64) (l := l) hx
  rw [hfill, hty] at hvalue hlabels
  rw [show ResultTy _ _ .b32 _ _ = Result32 _ _ _ _ from rfl, hlo] at hvalue
  exact ⟨hvalue, hlabels⟩

theorem State.accesses_countEvents (s : State) (k : Nat) (es : List Nat) : (s.countEvents k es).accesses = s.accesses := by
  simp only [State.countEvents]
  split <;> rfl

/-- What is written back for a thread that has not exited counts its events. -/
theorem landExact_eq {s : State} {id : Nat} {a : Access} (hx : (s.thread a.thread).sched ≠ .exited) : landExact s id a =
    fill ((s.dropAccess id).countEvents (s.unit (unitOfThread a.thread)).launch a.events) a (wr32 a.f.d a.value a.label) := by
  have hlive : ((s.thread a.thread).sched != .exited) = true := by simpa using hx
  simp only [landExact, hlive, Bool.or_true, if_true]

theorem exactResultsAreWrittenBack : Rule.ExactResultsAreWrittenBack := by
  intro id s a h hk hdue hx
  refine ⟨_, exec_exactPathWriteback h hk hdue, ?_⟩
  rw [landExact_eq hx]
  generalize hS : (s.dropAccess id).countEvents (s.unit (unitOfThread a.thread)).launch a.events = S
  have hthread : S.thread a.thread = s.thread a.thread := by simp [← hS]
  have hgang : S.gang (gangOf a.thread) = s.gang (gangOf a.thread) := by simp [← hS]
  have haccess : tabGet S.accesses id = none := by simp [← hS, State.accesses_countEvents]
  have hmem : S.mem = s.mem := by simp [← hS]
  obtain ⟨hvalue, hlabels⟩ := fill_word (s := S) (a := a) (x := a.value) (l := a.label) (hthread ▸ hx)
  rw [LandLabel, hgang] at hlabels
  exact ⟨fill_accesses haccess, hvalue, hlabels, fun b => by rw [fill_mem, hmem]⟩

/-- Settles O4: the fast path is the issue of one result, the exact path that of an access, which writes its word back. -/
theorem specialFunctionResults : Obligations.SpecialFunctionResults := ⟨specialFunctionsTakeTheirPath, exactResultsAreWrittenBack⟩

end Sys2Proof.Machine
end

section
/-! SUPPORT. What a read for an access leaves alone, and how the events of the gather path land (R234, R356, R372, R374, R400). -/

namespace Sys2Proof.Machine

/-- What a read for an access changes: caches, answers of other devices taken, and what the detector notes. A launch that is not checked stays
so, and no record of it waits to enter a queue. -/
structure State.ReadFor (a : Access) (s s' : State) : Prop where
  noted : s.Noted s'
  off : raceOn s a = false → raceOn s' a = false ∧ ∀ c, (s'.core c).late = (s.core c).late

namespace State.ReadFor
variable {a : Access} {s s' s'' : State}

theorem refl (a : Access) (s : State) : s.ReadFor a s := ⟨.refl s, fun h => ⟨h, fun _ => rfl⟩⟩

theorem trans (h : s.ReadFor a s') (k : s'.ReadFor a s'') : s.ReadFor a s'' :=
  ⟨h.noted.trans k.noted, fun hoff =>
    have ⟨hoff', hlate⟩ := h.off hoff
    have ⟨hoff'', hlate'⟩ := k.off hoff'
    ⟨hoff'', fun c => (hlate' c).trans (hlate c)⟩⟩

theorem of_cachesOnly (h : s.CachesOnly s') : s.ReadFor a s' :=
  ⟨.of_cachesOnly h, fun hoff => ⟨(h.raceOn a).trans hoff, fun c => h.read c Core.late fun _ => rfl⟩⟩

theorem setFresh (a : Access) (s : State) (n : Nat) : s.ReadFor a (s.setFresh n) :=
  ⟨⟨rfl, rfl, rfl, rfl, fun _ => rfl, fun _ => rfl⟩, fun h => ⟨h, fun _ => rfl⟩⟩

theorem racePieces (s : State) (a : Access) (ps : List Piece) (k : RKind) : s.ReadFor a (racePieces s a ps k) :=
  ⟨.racePieces .., fun hoff => by rw [racePieces_of_off hoff]; exact ⟨hoff, fun _ => rfl⟩⟩

theorem rawPieces (a : Access) (s : State) (part : Nat) (ps : List Piece) : s.ReadFor a (rawPieces s part ps).2 := by
  refine List.foldlRecOn (motive := fun acc : Option (List Byte × Nat) × State => s.ReadFor a acc.2) ps _ (refl a s) fun acc hacc p _ => ?_
  split
  · exact hacc
  · exact hacc.trans (setFresh ..)
  · exact hacc

/-- The pieces of an access read one after another. -/
theorem readAll (s : State) (a : Access) (ps : List Piece) (pick : Pick) : s.ReadFor a (readAll s a ps pick).2 := by
  refine List.foldlRecOn (motive := fun acc : Option (List Byte × Nat) × State => s.ReadFor a acc.2) ps _ (of_cachesOnly (.cachePieces ..)) fun acc hacc p _ => ?_
  split
  · exact hacc
  · dsimp only
    split
    · exact hacc.trans (rawPieces ..)
    · exact hacc.trans (of_cachesOnly (.readPiece ..))

theorem readSpan {va n g : Nat} {pick : Pick} {bs : List Byte} {l : Label} (h : readSpan s a va n pick = .ok bs l g s') : s.ReadFor a s' := by
  simp only [Machine.readSpan] at h
  split at h
  · cases h
  · cases h
  · split at h
    · cases h
    · rename_i ps _ _ bs' g' s₁ hread
      have hall : s.ReadFor a s₁ := by
        have := readAll s { a with width := n } ps pick
        rw [hread] at this
        exact ⟨this.noted, this.off⟩
      cases h
      exact hall.trans (racePieces ..)

/-- The entries of a table read one after another. -/
theorem readTab {r : Rec} {pick : Pick} {fuel e g g' : Nat} {acc bs : List Byte} {l l' : Label}
    (h : readTab a r pick fuel e acc l g s = .ok bs l' g' s') : s.ReadFor a s' := by
  induction fuel generalizing e acc l g s with
  | zero => cases h; exact refl a _
  | succ fuel ih =>
    rw [Machine.readTab] at h
    split at h
    · exact ih h
    · split at h
      · rename_i hspan
        exact (readSpan hspan).trans (ih h)
      · rename_i hne
        exact absurd h (hne _ _ _ _)

end State.ReadFor

/-- A landing that adds no record to those waiting for a full queue is what it leaves (R374, R400). -/
theorem State.orWait_eq {s s' : State} {core : Nat} (h : s.sfqFull core = true → (s'.core core).late = (s.core core).late) : s.orWait core s' = s' := by
  by_cases hq : s.sfqFull core = true
  · simp [State.orWait, hq, h hq]
  · simp [State.orWait, hq]

/-! Cores changed one after another. -/

section
variable {l : List Nat} {F : Nat → Core → Core} {s : State} {c : Nat}

theorem foldl_modCore_late (hF : ∀ k x, (F k x).late = x.late) : ((l.foldl (fun s k => s.modCore k (F k)) s).core c).late = (s.core c).late :=
  foldl_keeps _ (fun s => (State.core s c).late) _ _ fun b k _ => by
    simp only [State.modCore_eq, State.core_setCore]
    split
    · rename_i hck; rw [hF, hck]
    · rfl

theorem foldl_modCore_ne (hc : c ∉ l) : (l.foldl (fun s k => s.modCore k (F k)) s).core c = s.core c :=
  foldl_keeps _ (fun s => State.core s c) _ _ fun b k hk => by
    simp only [State.modCore_eq, State.core_setCore]
    exact if_neg fun hck : c = k => hc (hck ▸ hk)

/-- What a change makes of every core, it has made of each core of the list. -/
theorem foldl_modCore_mem {P : Core → Prop} (hF : ∀ x, P (F c x)) (hc : c ∈ l) : P ((l.foldl (fun s k => s.modCore k (F k)) s).core c) := by
  induction l generalizing s with
  | nil => cases hc
  | cons k l ih =>
    by_cases hl : c ∈ l
    · exact ih hl
    · obtain rfl : c = k := (List.mem_cons.1 hc).resolve_right hl
      rw [List.foldl_cons, foldl_modCore_ne hl, State.modCore_eq, State.core_setCore, if_pos rfl]
      exact hF _

theorem foldl_modCore_accesses : (l.foldl (fun s k => s.modCore k (F k)) s).accesses = s.accesses := foldl_keeps _ State.accesses _ _ fun _ _ _ => rfl

end

/-! Remap states and codebooks. -/

theorem modRemap_accesses (s : State) (u : Nat) (F : Remap → Remap) : (s.modRemap u F).accesses = s.accesses := foldl_modCore_accesses

theorem modRemap_late (s : State) (u : Nat) (F : Remap → Remap) (c : Nat) : ((s.modRemap u F).core c).late = (s.core c).late :=
  foldl_modCore_late (F := fun _ x => { x with remap := F x.remap }) fun _ _ => rfl

theorem modRemap_remap {s : State} {u c : Nat} {F : Remap → Remap} {P : Remap → Prop} (hF : ∀ r, P (F r)) (hc : c ∈ s.unitCores u) :
    P ((s.modRemap u F).core c).remap :=
  foldl_modCore_mem (F := fun _ x => { x with remap := F x.remap }) (P := fun x => P x.remap) (fun x => hF x.remap) hc

/-- A core with one entry of its codebooks written. -/
def Core.putBook (k : Nat) (b : Codebook) (x : Core) : Core := { x with codebooks := tabPut x.codebooks k b }

/-- The numbers that launches have on the cores do not depend on codebooks. -/
theorem contextOf_putBook (s : State) (c k : Nat) (b : Codebook) : contextOf (s.modCore c (Core.putBook k b)) = contextOf s := by
  funext c' launch
  simp only [contextOf, State.modCore_eq, State.core_setCore]
  split
  · rename_i hc; rw [hc]; rfl
  · rfl

/-- A slot written on one core after another: its places are those that the launch had before. -/
theorem foldl_putBook (l : List Nat) (launch slot : Nat) (b : Codebook) (s : State) :
    l.foldl (fun t c => t.modCore c (Core.putBook (64 * contextOf t c launch + slot) b)) s =
      l.foldl (fun t c => t.modCore c (Core.putBook (64 * contextOf s c launch + slot) b)) s := by
  induction l generalizing s with
  | nil => rfl
  | cons c l ih => simp only [List.foldl_cons, ih, contextOf_putBook]

/-- The write of a slot is that of its unit's cores, once accesses and operations in flight have kept what they read (R175). -/
theorem writeBook_eq (s : State) (u slot due : Nat) (b : Codebook) : ∃ t, writeBook s u slot due b =
      (s.unitCores u).foldl (fun t c => t.modCore c (Core.putBook (64 * contextOf s c (s.unit u).launch + slot) b)) t ∧
    t.cores = s.cores ∧ ∀ id, tabGet s.accesses id = none → tabGet t.accesses id = none :=
  ⟨_, foldl_putBook .., rfl, fun id h => by rw [tabGet_map_keys (fun e => by split <;> rfl), h]; rfl⟩

/-- What the write of a slot leaves of the accesses and of the records that wait, and the slot on every core that the unit occupies (R174). -/
theorem writeBook_written (s : State) (u slot due : Nat) (b : Codebook) :
    (∀ id, tabGet s.accesses id = none → tabGet (writeBook s u slot due b).accesses id = none) ∧
    (∀ c, ((writeBook s u slot due b).core c).late = (s.core c).late) ∧
    ∀ c ∈ s.unitCores u, codebookOf (writeBook s u slot due b) c (contextOf s c (s.unit u).launch) slot = b := by
  obtain ⟨t, heq, hcores, haccesses⟩ := writeBook_eq s u slot due b
  rw [heq]
  refine ⟨fun id h => by rw [foldl_modCore_accesses]; exact haccesses id h, fun c => ?_, fun c hc => ?_⟩
  · refine (foldl_modCore_late (F := fun c => Core.putBook (64 * contextOf s c (s.unit u).launch + slot) b) fun _ _ => rfl).trans ?_
    rw [State.core, State.core, hcores]
  · exact foldl_modCore_mem (F := fun c => Core.putBook (64 * contextOf s c (s.unit u).launch + slot) b)
      (P := fun x => tabGetD _ x.codebooks (64 * contextOf s c (s.unit u).launch + slot) = b) (fun x => by simp [Core.putBook]) hc

/-! Lines of a run. -/

theorem Unit.fillLines_run (u : Unit) (o : Nat) (bs : List Byte) (l : Label) : (u.fillLines o bs l).run = Memory.write u.run o bs :=
  foldl_keeps _ Unit.run _ _ fun _ _ _ => rfl

theorem Unit.lineFull_markLine (u : Unit) (j k : Nat) (b : Bool) : (u.markLine j b).lineFull k = if k = j then b else u.lineFull k := by
  simp only [Unit.lineFull, Unit.markLine, tabGetD_set]
  split <;> simp

/-- Every line that the bytes fill whole is full. -/
theorem Unit.fillLines_lineFull (u : Unit) (o : Nat) (bs : List Byte) (l : Label) {k : Nat} (hk : k < bs.length / 128) :
    (u.fillLines o bs l).lineFull (o / 128 + k) = true := by
  simp only [Unit.fillLines]
  generalize bs.length / 128 = n at hk
  induction n with
  | zero => omega
  | succ n ih =>
    rw [List.range_succ, List.foldl_append, List.foldl_cons, List.foldl_nil]
    show (Unit.markLine _ _ true).lineFull _ = true
    rw [Unit.lineFull_markLine]
    split
    · rfl
    · exact ih (by omega)

end Sys2Proof.Machine
end

section
/-! O25: rows, remap tables and codebooks arrive (R174, R175, R315, R317, R332, R340). -/

namespace Sys2Proof.Machine

section
variable {s s₁ : State} {id g : Nat} {a : Access} {pick : Pick} {bs : List Byte} {l : Label}

/-- The queue of the access's core has room, or no record of its launch can come to wait for it. -/
def HasRoom (s : State) (a : Access) : Prop := raceOn s a = true → s.sfqFull (s.coreOf a.thread) = false

/-- A landing that lets no record of a launch without the detector wait is what it leaves. -/
theorem HasRoom.orWait (h : HasRoom s a) {s' : State} (hlate : raceOn s a = false → ∀ c, (s'.core c).late = (s.core c).late) :
    s.orWait (s.coreOf a.thread) s' = s' :=
  State.orWait_eq fun hfull => hlate (by
    by_contra hon
    rw [h (by simpa using hon)] at hfull
    cases hfull) _

/-! Rows. -/

theorem exec_gthrsLineFill (h : tabGet s.accesses id = some a) (hk : a.kind = .gthrs) (he : enabled s id a = true) :
    exec (.gthrsLineFill id pick) s = .next (s.orWait (s.coreOf a.thread) (landRow s id a pick)) := by
  show execGthrsLineFill id pick s = _
  simp only [execGthrsLineFill, h, hk, he, BEq.rfl, Bool.and_self, if_true]

/-- A row whose pieces are reached and read. -/
theorem landRow_read {ps : List Piece} (hreach : reach s (s.coreOf a.thread) (s.partOf a.thread) a.addr a.width (a.via pick) { r := true } = .ok ps)
    (hread : readAll s a ps pick = (some (bs, g), s₁)) : landRow s id a pick =
      (racePieces (s₁.dropAccess id) a ps .load).modUnit (unitOfThread a.thread) (fun u => u.fillLines a.aux bs
        (a.label ||| pagesLabel ps ||| stackLabel s ps ||| a.d.setWidth 16)) := by
  simp only [landRow, hreach, hread]

/-! Remap tables. -/

/-- The table of the 4,096 entries that were read. -/
def tableEntries (bs : List Byte) : Tab Word :=
  (List.range 4096).foldl (fun t e => tabSetD 0 t e (BitVec.ofNat 32 (leNat ((bs.drop (4 * e)).take 4)))) []

theorem tabGetD_foldl_set (F : Nat → Word) (n e : Nat) :
    tabGetD 0 ((List.range n).foldl (fun t k => tabSetD 0 t k (F k)) []) e = if e < n then F e else 0 := by
  induction n with
  | zero => simp
  | succ n ih =>
    rw [List.range_succ, List.foldl_append, List.foldl_cons, List.foldl_nil, tabGetD_set, ih]
    by_cases he : e = n
    · subst he; simp
    · rw [if_neg he]
      exact if_congr (by omega) rfl rfl

theorem tableEntries_entry (bs : List Byte) {e : Nat} (he : e < 4096) :
    tabGetD 0 (tableEntries bs) e = BitVec.ofNat 32 (leNat ((bs.drop (4 * e)).take 4)) :=
  (tabGetD_foldl_set _ _ _).trans (if_pos he)

theorem exec_remapTableWrite (h : tabGet s.accesses id = some a) (hk : a.kind = .remapTab) (he : enabled s id a = true)
    (hb : earlierTab s id a = false) :
    exec (.remapTableWrite id pick) s = .next (s.orWait (s.coreOf a.thread) (landTab s id a pick)) := by
  show execRemapTableWrite id pick s = _
  simp only [execRemapTableWrite, h, hk, he, hb, BEq.rfl, Bool.not_false, Bool.and_self, if_true]

theorem landTab_read (ho : a.oob = false) (hread : readTab a (Rec.ofBits (BitVec.ofNat 128 a.aux)) pick 4096 0 [] 0 0 s = .ok bs l g s₁) :
    landTab s id a pick = (((s₁.dropAccess id).modRemap (unitOfThread a.thread)
      (fun r => { r with table := tableEntries bs, label := a.label ||| l })).sawFor a g).landed a := by
  rw [landTab, ho, if_neg Bool.false_ne_true, hread]
  rfl

/-! Codebooks. -/

theorem exec_codebookSlotWrite (h : tabGet s.accesses id = some a) (hk : a.kind = .codebook) (he : enabled s id a = true)
    (hb : earlierTab s id a = false) :
    exec (.codebookSlotWrite id pick) s = .next (s.orWait (s.coreOf a.thread) (landBook s id a pick)) := by
  show execCodebookSlotWrite id pick s = _
  simp only [execCodebookSlotWrite, h, hk, he, hb, BEq.rfl, Bool.not_false, Bool.and_self, if_true]

theorem landBook_read (ho : a.oob = false) (hw : a.width = 32) (hread : readSpan s a a.addr 32 pick = .ok bs l g s₁) :
    landBook s id a pick = ((writeBook (s₁.dropAccess id) (unitOfThread a.thread) a.aux a.due
      { entries := bookEntries bs, label := a.label ||| l }).sawFor a g).landed a := by
  rw [landBook, ho, if_neg Bool.false_ne_true, if_neg (by omega), hread]

theorem landBook_outside (ho : a.oob = false) (hw : a.width = 0) : landBook s id a pick =
    (writeBook (s.dropAccess id) (unitOfThread a.thread) a.aux a.due { entries := List.replicate 16 0, label := a.label }).landed a := by
  rw [landBook, ho, if_neg Bool.false_ne_true, if_pos hw]

/-! The threads go on. -/

theorem landed_core (s : State) (a : Access) (c : Nat) : (s.landed a).core c = s.core c := by
  rw [State.core, State.core, show (s.landed a).cores = s.cores from congrArg Prod.fst (landed_slots s a)]

theorem sawFor_core (s : State) (a : Access) (g c : Nat) : (s.sawFor a g).core c = s.core c := by
  rw [State.core, State.core, show (s.sawFor a g).cores = s.cores from congrArg Prod.fst (sawFor_slots s a g)]

theorem dropAccess_access (s : State) (id : Nat) : tabGet (s.dropAccess id).accesses id = none := (tabGet_del ..).trans (if_pos rfl)

end

theorem gatherReadsBringTheirData : Rule.GatherReadsBringTheirData := by
  intro id s a pick h he ho (hroom : HasRoom s a)
  refine ⟨fun ps bs g s₁ hk hreach hread => ?row, fun bs l g s₁ hk hb hread => ?table, fun bs l g s₁ hk hw hb hread => ?book,
    fun hk hw hb => ?outside⟩
  case row =>
    have hall : s.ReadFor a s₁ := by have := State.ReadFor.readAll s a ps pick; rwa [hread] at this
    have hrace := State.ReadFor.racePieces (s₁.dropAccess id) a ps .load
    have hlate : raceOn s a = false → ∀ c, ((racePieces (s₁.dropAccess id) a ps .load).core c).late = (s.core c).late := fun hoff c =>
      ((hrace.off (hall.off hoff).1).2 c).trans ((hall.off hoff).2 c)
    refine ⟨_, exec_gthrsLineFill h hk he, ?_⟩
    rw [landRow_read hreach hread, hroom.orWait (by exact hlate)]
    refine ⟨?_, ?_, fun k hk => ?_⟩
    · show tabGet (racePieces (s₁.dropAccess id) a ps .load).accesses id = none
      rw [hrace.noted.accesses]
      exact dropAccess_access s₁ id
    · simp only [State.modUnit, State.unit_setUnit, if_true, Unit.fillLines_run]
      exact Memory.read_write ..
    · simp only [State.modUnit, State.unit_setUnit, if_true]
      exact Unit.fillLines_lineFull _ _ _ _ hk
  case table =>
    have hall := State.ReadFor.readTab hread
    refine ⟨_, exec_remapTableWrite h hk he hb, ?_⟩
    rw [landTab_read ho hread, hroom.orWait fun hoff c => by
      rw [landed_core, sawFor_core, modRemap_late]
      exact (hall.off hoff).2 c]
    refine ⟨?_, fun c hc => ?_⟩
    · rw [landed_accesses, sawFor_accesses, modRemap_accesses]
      exact dropAccess_access s₁ id
    · rw [landed_core, sawFor_core]
      refine modRemap_remap (s := s₁.dropAccess id) (P := fun r => r.label = a.label ||| l ∧ ∀ e, e < 4096 →
        tabGetD 0 r.table e = BitVec.ofNat 32 (leNat ((bs.drop (4 * e)).take 4))) (fun _ => ⟨rfl, fun e he => ?_⟩) hc
      dsimp only
      exact tableEntries_entry bs he
  case book =>
    have hall := State.ReadFor.readSpan hread
    obtain ⟨haccesses, hlate, hbooks⟩ := writeBook_written (s₁.dropAccess id) (unitOfThread a.thread) a.aux a.due
      { entries := bookEntries bs, label := a.label ||| l }
    refine ⟨_, exec_codebookSlotWrite h hk he hb, ?_⟩
    rw [landBook_read ho hw hread, hroom.orWait fun hoff c => by
      rw [landed_core, sawFor_core, hlate]
      exact (hall.off hoff).2 c]
    refine ⟨?_, fun c hc => ?_⟩
    · rw [landed_accesses, sawFor_accesses]
      exact haccesses id (dropAccess_access s₁ id)
    · rw [codebookOf, landed_core, sawFor_core]
      exact hbooks c hc
  case outside =>
    obtain ⟨haccesses, hlate, hbooks⟩ := writeBook_written (s.dropAccess id) (unitOfThread a.thread) a.aux a.due
      { entries := List.replicate 16 0, label := a.label }
    refine ⟨_, exec_codebookSlotWrite h hk he hb, ?_⟩
    rw [landBook_outside ho hw, hroom.orWait fun _ c => by
      rw [landed_core]
      exact hlate c]
    refine ⟨?_, fun c hc => ?_⟩
    · rw [landed_accesses]
      exact haccesses id (dropAccess_access s id)
    · rw [codebookOf, landed_core]
      exact hbooks c hc

/-- Settles O25: an event that its access is due for lands, and what it reads for the access leaves everything that the landing writes. -/
theorem gatherData : Obligations.GatherData := gatherReadsBringTheirData

end Sys2Proof.Machine
end

section
/-! O29: chunks of matrix operations, and their completion (R184, R273, R324, R326 to R328). -/

namespace Sys2Proof.Machine

/-! Labels united one after another. -/

theorem getLsbD_foldl_or {α : Type} (F : α → Label) (xs : List α) (l : Label) (i : Nat) :
    (xs.foldl (fun l x => l ||| F x) l).getLsbD i = (l.getLsbD i || xs.any (fun x => (F x).getLsbD i)) := by
  induction xs generalizing l with
  | nil => simp
  | cons x xs ih => rw [List.foldl_cons, ih, BitVec.getLsbD_or, List.any_cons, Bool.or_assoc]

/-- A label united with others is in the union, and each of them is. -/
theorem subset_foldl_or {α : Type} (F : α → Label) (xs : List α) (l : Label) :
    Label.subset l (xs.foldl (fun l x => l ||| F x) l) = true ∧ ∀ x ∈ xs, Label.subset (F x) (xs.foldl (fun l x => l ||| F x) l) = true := by
  refine ⟨Label.subset_of_bits fun i hi => ?_, fun x hx => Label.subset_of_bits fun i hi => ?_⟩ <;> rw [getLsbD_foldl_or]
  · rw [hi, Bool.true_or]
  · rw [List.any_eq_true.2 ⟨x, hx, hi⟩, Bool.or_true]

theorem Label.subset_trans {x y z : Label} (h : Label.subset x y = true) (k : Label.subset y z = true) : Label.subset x z = true :=
  Label.subset_of_bits fun _ hi => Label.bit_of_subset k (Label.bit_of_subset h hi)

/-! Chunks. -/

section
variable {s : State} {o : MmaOp}

/-- The label of an operation after a chunk holds what the chunk reads. -/
theorem MmaOp.chunkLabel_labels (o : MmaOp) (s : State) {o' : MmaOp} (h : o'.label = o.chunkLabel s) : ChunkLabels s o o' := by
  obtain ⟨ha, has⟩ := subset_foldl_or (fun i => (s.gang o.gang).tileLabel (o.aReg + i)) (List.range o.aRegs) o.label
  obtain ⟨hb, hbs⟩ := subset_foldl_or (fun i => (s.gang o.gang).tileLabel (o.bReg + i)) (List.range o.bRegs)
    ((List.range o.aRegs).foldl (fun l i => l ||| (s.gang o.gang).tileLabel (o.aReg + i)) o.label)
  obtain ⟨hc, hcs⟩ := subset_foldl_or (s.unit o.unit).labelOf (o.chunkLines o.chunk) ((List.range o.bRegs).foldl
    (fun l i => l ||| (s.gang o.gang).tileLabel (o.bReg + i))
    ((List.range o.aRegs).foldl (fun l i => l ||| (s.gang o.gang).tileLabel (o.aReg + i)) o.label))
  rw [ChunkLabels, h]
  exact ⟨Label.subset_trans (Label.subset_trans ha hb) hc,
    fun k hk => Label.subset_trans (Label.subset_trans (has k (List.mem_range.2 hk)) hb) hc,
    fun k hk => Label.subset_trans (hbs k (List.mem_range.2 hk)) hc, hcs⟩

/-- A chunk without an index fault. -/
theorem MmaOp.runChunk_good (h : o.chunkFault s o.chunk = false) : (o.runChunk s).1 = { o with
    accs := (List.range 32).map (fun i => (List.range o.n).map (fun j => (o.element s o.chunk i j ((o.accs.getD i []).getD j 0)).1))
    chunk := o.chunk + 1, label := o.chunkLabel s } := by
  simp only [MmaOp.runChunk, h, Bool.false_eq_true, if_false, List.map_map, Function.comp_def]

/-- An element after a chunk: the rounded exact sum of its products added, the addition rounded (R184). -/
theorem MmaOp.element_toNat (o : MmaOp) (s : State) (c i j : Nat) (acc : Word) : (o.element s c i j acc).1.toNat =
    (fmtF32.add (Round.ofCode o.mode) (fmtF32.decode acc.toNat)
      (fmtF32.decode (chunkSum (Round.ofCode o.mode) ((o.kept s i c).map (fun e =>
        fprod (elemVal o.fmt o.aBook.entries (o.aBits s i e.1)) (elemVal o.fmt o.bBook.entries (o.bBits s j e.2))))).bits)).bits % 2 ^ 32 := by
  simp only [MmaOp.element, List.map_map, BitVec.toNat_ofNat]
  rfl

theorem State.cluster_countEvents (s : State) (k : Nat) (es : List Nat) (j : Nat) : (s.countEvents k es).cluster j = s.cluster j := by
  simp only [State.countEvents]
  split <;> rfl

theorem exec_mmaChunkGrant {cluster i : Nat} (h : arbiter s cluster = some (i, o)) : exec (.mmaChunkGrant cluster) s =
    .next ((s.modCluster cluster (fun c => { c with mma := tabPut c.mma i (o.runChunk s).1 })).countEvents (s.unit o.unit).launch
      (o.runChunk s).2) := by
  show execMmaChunkGrant cluster s = _
  simp only [execMmaChunkGrant, h]

end

theorem chunksAccumulateRoundedSums : Rule.ChunksAccumulateRoundedSums := by
  intro cluster s i o h hgood
  have hchunk := MmaOp.runChunk_good hgood
  refine ⟨_, (o.runChunk s).1, exec_mmaChunkGrant h, ?_, ?_, o.chunkLabel_labels s ?_, fun r hr c hc => ?_⟩
  · rw [State.cluster_countEvents, State.modCluster, State.cluster_setCluster, if_pos rfl, tabGet_put, if_pos rfl]
  · rw [hchunk]
  · rw [hchunk]
  · rw [← MmaOp.element_toNat, hchunk]
    simp [hr, hc]

/-! Completion. -/

section
variable {o : MmaOp} {s : State} {t : Nat}

/-- The first n accumulators of a lane, and that they are full. -/
def HoldsAccs (o : MmaOp) (t n : Nat) (x : Thread) : Prop :=
  ∀ j, j < n → x.reg (o.acc + j) = (o.accs.getD (laneOf t) []).getD j 0 ∧ x.full (o.acc + j) = true

/-- A thread with its first n accumulators written. -/
def Thread.withAccs (o : MmaOp) (t clk n : Nat) (x : Thread) : Thread :=
  (List.range n).foldl (fun x j =>
    ((x.keepReg clk (o.acc + j)).setReg (o.acc + j) ((o.accs.getD (laneOf t) []).getD j 0)).markFull (o.acc + j)) x

theorem Thread.withAccs_succ (o : MmaOp) (t clk n : Nat) (x : Thread) : x.withAccs o t clk (n + 1) =
    (((x.withAccs o t clk n).keepReg clk (o.acc + n)).setReg (o.acc + n) ((o.accs.getD (laneOf t) []).getD n 0)).markFull (o.acc + n) := by
  simp only [Thread.withAccs, List.range_succ, List.foldl_append, List.foldl_cons, List.foldl_nil]

theorem Thread.withAccs_holds {n : Nat} (hacc : o.acc + n ≤ 255) (clk : Nat) (x : Thread) : HoldsAccs o t n (x.withAccs o t clk n) := by
  induction n with
  | zero => exact fun j hj => absurd hj (Nat.not_lt_zero j)
  | succ n ih =>
    intro j hj
    rw [Thread.withAccs_succ, Thread.reg_markFull, Thread.reg_setReg, Thread.full_markFull, Thread.full_setReg]
    by_cases hjn : j = n
    · subst hjn
      rw [if_pos ⟨rfl, by omega⟩, decide_eq_true rfl, Bool.true_or]
      exact ⟨rfl, rfl⟩
    · rw [if_neg (fun h => hjn (by omega)), decide_eq_false (by omega), Bool.false_or]
      exact ih (by omega) j (by omega)

theorem writeAccs_live (hx : (s.thread t).sched ≠ .exited) : (writeAccs o s t).thread t = (s.thread t).withAccs o t (s.clkOf t) o.n := by
  have hlive : ((s.thread t).sched != .exited) = true := by simpa using hx
  simp only [writeAccs, hlive, if_true, State.thread_modThread]
  rfl

theorem writeAccs_sched (o : MmaOp) (s : State) (u t : Nat) : ((writeAccs o s u).thread t).sched = (s.thread t).sched := by
  simp only [writeAccs, State.thread_modThread]
  split
  · rename_i htu
    rw [htu]
    refine foldl_keeps _ Thread.sched _ _ fun x j _ => ?_
    split
    · simp only [Thread.markFull, Thread.setReg]
      split <;> rfl
    · rfl
  · rfl

theorem writeAccs_ne (o : MmaOp) (s : State) {u t : Nat} (h : t ≠ u) : (writeAccs o s u).thread t = s.thread t := by
  rw [writeAccs, State.thread_modThread, if_neg h]

/-- The accumulators are written into every lane of the list that has not exited. -/
theorem writeAccs_foldl {l : List Nat} (hacc : o.acc + o.n ≤ 255) (ht : t ∈ l) (hx : (s.thread t).sched ≠ .exited) :
    HoldsAccs o t o.n ((l.foldl (writeAccs o) s).thread t) := by
  induction l using List.reverseRecOn with
  | nil => cases ht
  | append_singleton l u ih =>
    rw [List.foldl_append, List.foldl_cons, List.foldl_nil]
    by_cases htu : t = u
    · subst htu
      rw [writeAccs_live]
      · exact Thread.withAccs_holds hacc _ _
      · rwa [foldl_keeps (writeAccs o) (fun s => (State.thread s t).sched) l s fun b u _ => writeAccs_sched o b u t]
    · rw [writeAccs_ne o _ htu]
      exact ih ((List.mem_append.1 ht).resolve_right fun h => htu (List.mem_singleton.1 h))

theorem Gang.tileLabel_setTile (g : Gang) {n : Nat} (hn : n ≠ 255) (k : Nat) (l : Label) :
    (g.setTile n l).tileLabel k = if k = n then l else g.tileLabel k := by
  rw [Gang.setTile, if_neg hn, Gang.tileLabel, Gang.tileLabel, tabGetD_set]
  split
  · rename_i hk
    rw [if_neg (by omega)]
  · rfl

/-- A run of tiles takes a label. -/
theorem setTile_foldl (a : Nat) (l : Label) (g : Gang) {n : Nat} (ha : a + n ≤ 255) {j : Nat} (hj : j < n) :
    ((List.range n).foldl (fun g j => g.setTile (a + j) l) g).tileLabel (a + j) = l := by
  induction n with
  | zero => omega
  | succ n ih =>
    rw [List.range_succ, List.foldl_append, List.foldl_cons, List.foldl_nil, Gang.tileLabel_setTile _ (by omega)]
    split
    · rfl
    · exact ih (by omega) (by omega)

/-- The threads of an operation with its accumulators written, once its entry is free. -/
def accsWritten (o : MmaOp) (s : State) (cl i : Nat) : State :=
  (s.threadsOfGang o.gang).foldl (writeAccs o) (s.modCluster cl (fun c => { c with mma := tabDel c.mma i }))

/-- The completion of an operation without a fault, of a gang that has not ended and a unit that stands in its cores. -/
theorem completeMma_good {cl i : Nat} (hf : o.fault = false) (he : (s.gang o.gang).ended = false) (hl : (s.unit o.unit).live = true) :
    completeMma s cl i o = (((accsWritten o s cl i).modGang o.gang (fun g =>
      (List.range o.n).foldl (fun g j => g.setTile (o.acc + j) o.full) g)).modThread o.thread
        (fun x => { x with energy := x.energy + Config.freeMmaEnergy (accsWritten o s cl i).fresh })).setFresh ((accsWritten o s cl i).fresh + 1) := by
  have hgo : ¬ (((s.modCluster cl (fun c => { c with mma := tabDel c.mma i })).gang o.gang).ended ||
      !((s.modCluster cl (fun c => { c with mma := tabDel c.mma i })).unit o.unit).live) = true := by
    simp [State.modCluster, he, hl]
  simp only [completeMma]
  rw [if_neg hgo, if_neg (by simp [hf])]
  rfl

theorem accsWritten_clusters (o : MmaOp) (s : State) (cl i : Nat) :
    (accsWritten o s cl i).clusters = (s.modCluster cl (fun c => { c with mma := tabDel c.mma i })).clusters :=
  foldl_keeps _ State.clusters _ _ fun _ _ _ => rfl

theorem exec_mmaComplete {cl i : Nat} (h : nextMmaEnd s = some (cl, i, o)) : exec .mmaComplete s = .next (completeMma s cl i o) := by
  show execMmaComplete s = _
  simp only [execMmaComplete, h]

end

theorem matrixCompletionWritesAccumulators : Rule.MatrixCompletionWritesAccumulators := by
  intro s cl o i h hf he hl hacc _
  refine ⟨_, exec_mmaComplete h, ?_, fun j hj => ?_, fun t ht hx j hj => ?_, fun a => by rw [completeMma_mem]⟩ <;> rw [completeMma_good hf he hl]
  · show tabGet ((accsWritten o s cl i).cluster cl).mma i = none
    rw [State.cluster, accsWritten_clusters]
    simp [State.modCluster]
  · simp only [State.gang_setFresh, State.gang_modThread, State.gang_modGang, if_true]
    exact setTile_foldl o.acc o.full _ hacc hj
  · have hholds : HoldsAccs o t o.n ((accsWritten o s cl i).thread t) := writeAccs_foldl hacc ht hx
    simp only [State.thread_setFresh, State.thread_modThread, State.thread_modGang]
    split
    · rename_i htu
      subst htu
      exact hholds j hj
    · exact hholds j hj

/-- Settles O29: a chunk's elements are written out by `MmaOp.element`, its label unites what it reads; a completion writes each lane's row and
then the tiles of its gang. -/
theorem matrixResults : Obligations.MatrixResults := ⟨chunksAccumulateRoundedSums, matrixCompletionWritesAccumulators⟩

end Sys2Proof.Machine
end

section
/-! O55: threshold notices, and accesses from other devices (R187 to R189, R239, R280, R281, R291, R432). -/

namespace Sys2Proof.Machine

/-! Counters and their crossings. -/

/-- One event counted (R187). -/
def Launch.countAfter (x : Launch) (e : Nat) : Nat := min (2 ^ 48 - 1) (tabGetD 0 x.counters e + 1)

/-- The event is the crossing of its counter (R189). -/
def Launch.Crosses (th : Tab Word) (x : Launch) (e : Nat) : Prop :=
  (tabGetD 0 th e).toNat ≠ 0 ∧ (tabGetD 0 th e).toNat ≤ x.countAfter e ∧ tabGet x.crossed e = none ∧ e ∉ x.noticed

theorem Launch.count_counters (th : Tab Word) (x : Launch) (e c : Nat) :
    tabGetD 0 (x.count th e).counters c = if c = e then x.countAfter e else tabGetD 0 x.counters c := tabGetD_set ..

theorem Launch.count_crossed_of_crosses {th : Tab Word} {x : Launch} {e : Nat} (h : x.Crosses th e) :
    (x.count th e).crossed = tabPut x.crossed e (x.countAfter e) := by
  obtain ⟨hne, hle, hnone, hnoticed⟩ := h
  have hle' : (tabGetD 0 th e).toNat ≤ min counterMax (tabGetD 0 x.counters e + 1) := hle
  exact if_pos (by simp only [bne_iff_ne, Bool.and_eq_true, decide_eq_true_eq, hnone, Option.isNone_none, List.contains_eq_mem, hnoticed, hle', hne,
    decide_false, Bool.not_false, ne_eq, not_false_eq_true, and_self])

theorem Launch.count_crossed_of_not {th : Tab Word} {x : Launch} {e : Nat} (h : ¬ x.Crosses th e) : (x.count th e).crossed = x.crossed :=
  if_neg fun hc => h (by simpa [Launch.Crosses, Launch.countAfter, counterMax, and_assoc] using hc)

/-! The notice. -/

theorem exec_eventThresholdNotice {s : State} {l c t : Nat} (h : nextThreshold s = some (l, c, t)) :
    exec .eventThresholdNotice s = .next (thresholdNotice s l c t) := by
  show execEventThresholdNotice s = _
  simp only [execEventThresholdNotice, h]

theorem notice_launch (s : State) (ep level detail index : Nat) (payload : List Byte) (k : Nat) :
    (notice s ep level detail index payload).launch k = s.launch k := by
  simp only [notice, sendNumbered]
  split <;> rfl

theorem thresholdNoticesAreSentOnce : Rule.ThresholdNoticesAreSentOnce := by
  refine ⟨?count, ?notice⟩
  case count =>
    rintro th x e n rfl
    refine ⟨(x.count_counters th e e).trans (if_pos rfl), fun c hc => (x.count_counters th e c).trans (if_neg hc), fun h0 h1 h2 h3 => ?_, fun h => ?_⟩
    · rw [Launch.count_crossed_of_crosses ⟨h2, h3, h0, h1⟩, tabGet_put, if_pos rfl]
      rfl
    · refine Launch.count_crossed_of_not fun ⟨hne, hle, _, hnoticed⟩ => ?_
      rcases h with h | h | h
      · exact hne h
      · exact absurd hle (not_le.2 h)
      · exact hnoticed h
  case notice =>
    intro s l c t h
    refine ⟨_, exec_eventThresholdNotice h, by simp [thresholdNotice], ?_, ?_, fun ht => ?_⟩
    · simp [thresholdNotice, State.modLaunch, notice_launch]
    · simp [thresholdNotice, State.modLaunch]
    · refine ⟨_, (sendNumbered_outbox ht _ :), rfl, rfl, rfl, rfl, rfl, rfl, rfl⟩

/-! What a remote access reaches. -/

section
variable {s : State} {core part va : Nat} {via : Via} {need : Need}

/-- The pieces of as many spans as the range touches follow one another through it. -/
theorem contiguous_of_reachSpans {fuel a n : Nat} (hf : n = 0 ∨ n + a % 32 ≤ 32 * fuel)
    (h : ∀ sp ∈ spans fuel a n, ∃ l, reachSpan s core part via need sp = .ok l) :
    Contiguous a n (((spans fuel a n).map (reachSpan s core part via need)).flatMap Reach.pieces) := by
  induction fuel generalizing a n with
  | zero => exact (by omega : n = 0)
  | succ fuel ih =>
    rw [spans] at h ⊢
    split
    · assumption
    · next hn =>
      rw [if_neg hn] at h
      obtain ⟨⟨l, hl⟩, hrest⟩ := List.forall_mem_cons.1 h
      obtain ⟨q, rfl, hva, hq⟩ := reachSpan_ok hl
      have hk : q.n = min n (32 - a % 32) := hq
      rw [List.map_cons, List.flatMap_cons, hl]
      refine ⟨hva, by omega, ?_⟩
      rw [hk]
      exact ih (by omega) hrest

theorem contiguous_of_reach {n : Nat} {ps : List Piece} (h : reach s core part va n via need = .ok ps) : Contiguous va n ps := by
  obtain ⟨hspans, rfl⟩ := reach_spans h
  exact contiguous_of_reachSpans (.inr (by omega)) hspans

theorem writePiece_replies {p : Piece} {pa : Nat} (h : p.home = .phys pa) (bs : List Byte) :
    (writePiece s none part p bs).2.replies = s.replies := by
  simp only [writePiece, pieceAddr, State.atL2, h]
  rfl

/-- Pieces that follow one another along plain memory take their bytes as one range, and none of them needs a birth. -/
theorem writeBorn_along {ps : List Piece} {a₀ a pa : Nat} {bs : List Byte} (g : Nat) (h : Contiguous a bs.length ps) (ha : a₀ ≤ a)
    (hp : Along ps a₀ pa) : (writeBorn none part ps bs g s).2.1 = 0 ∧
      (writeBorn none part ps bs g s).2.2.mem = s.mem.write (pa + (a - a₀)) bs ∧ (writeBorn none part ps bs g s).2.2.replies = s.replies := by
  induction ps generalizing a bs g s with
  | nil =>
    obtain rfl : bs = [] := List.eq_nil_of_length_eq_zero h
    exact ⟨rfl, rfl, rfl⟩
  | cons p ps ih =>
    obtain ⟨rfl, hn, hrest⟩ := h
    obtain ⟨hhome, hhomes⟩ := List.forall_mem_cons.1 hp
    have hborn : birthPiece s none part p = (some 0, s) := by simp only [birthPiece, hhome]
    obtain ⟨hleft, hmem, hreplies⟩ := ih (s := (writePiece s none part p (bs.take p.n)).2) (bs := bs.drop p.n)
      (max (max g 0) (writePiece s none part p (bs.take p.n)).1) (by rwa [List.length_drop]) (show a₀ ≤ p.va + p.n by omega) hhomes
    simp only [writeBorn, hborn]
    refine ⟨hleft, hmem.trans ?_, hreplies.trans (writePiece_replies hhome _)⟩
    rw [(writePiece_phys hhome _).1, show pa + (p.va + p.n - a₀) = pa + (p.va - a₀) + (bs.take p.n).length by rw [List.length_take]; omega,
      ← Memory.write_append, List.take_append_drop]

end

/-! How an access is served. -/

section
variable {s : State} {r : RemoteAccess} {base pa va n : Nat} {ps : List Piece} {need : Need}

/-- An access that the exposed window, its pages and their kind admit is served. -/
theorem exec_remoteAccessIn (hn : (remoteSpan r.op).1 = n) (hneed : (remoteSpan r.op).2 = need) (h : Exposed s r n need base ps pa)
    (hmay : ps.all (remoteMay r.op) = true) : exec (.remoteAccessIn r) s = .next (serveRemote s r (base + r.offset) ps) := by
  obtain ⟨⟨x, hx, hbase⟩, ⟨hpos, htop⟩, hpages, -, -, hinside⟩ := h
  have hsize : (decide (n = 0) || decide (2 ^ 32 < r.offset + n)) = false := by
    rw [Bool.or_eq_false_iff]
    exact ⟨decide_eq_false (by omega), decide_eq_false (by omega)⟩
  show execRemoteAccessIn r s = _
  simp only [execRemoteAccessIn, hx, hbase, Option.bind_some, hn, hneed, hsize, hpages, hmay, hinside, Bool.false_eq_true, if_false, Bool.not_false,
    Bool.and_self, if_true]

/-- Plain pages that are shared may be touched, by an atomic where they are raw. -/
theorem Exposed.remoteMay_all (h : Exposed s r n need base ps pa) {op : RemoteOp}
    (hraw : ∀ o ty c d mode answers, op = .atomic o ty c d mode answers → ∀ p ∈ ps, p.leaf.format = 0) : ps.all (remoteMay op) = true := by
  refine List.all_eq_true.2 fun p hp => ?_
  have hcls := h.shared p hp
  have hhome := h.plain p hp
  cases op with
  | load _ => simp [remoteMay, hcls, hhome]
  | store _ => simp [remoteMay, hcls, hhome]
  | atomic o ty c d mode answers => simp [remoteMay, hcls, hhome, hraw _ _ _ _ _ _ rfl p hp]

/-- The bytes that an access reaches are one range of memory. -/
theorem Exposed.bytes (h : Exposed s r n need base ps pa) : ps.flatMap (pieceBytes s) = s.mem.read pa n := by
  rw [pieceBytes_along (contiguous_of_reach h.pages) le_rfl h.plain, Nat.sub_self, Nat.add_zero]

theorem serveRelease_unlabelled (h : pagesLabel ps = 0) : serveRelease s r va ps = (none, s) := by
  simp [serveRelease, release, decideOn, h]

theorem serveLoad_unlabelled (h : pagesLabel ps = 0) : serveLoad s r va ps = s.reply r.sender (some (ps.flatMap (pieceBytes s))) := by
  rw [serveLoad, serveRelease_unlabelled h]

theorem serveWrite_refused {new back : List Byte → List Byte} (h : ∃ p ∈ ps, Label.subset (ingressLabel s r.part r.sender) p.leaf.label = false) :
    serveWrite s r ps new back = s.reply r.sender none := by
  rw [serveWrite, if_pos (by simpa using h)]

/-- A write that the sender's label may make changes the range and nothing else, and is answered. -/
structure WriteServed (s s' : State) (r : RemoteAccess) (pa : Nat) (bs data : List Byte) : Prop where
  mem : s'.mem = s.mem.write pa bs
  replies : s'.replies = s.replies ++ [{ dest := r.sender, failed := false, data := data }]

theorem WriteServed.bytesAre {s' : State} {bs data : List Byte} (h : WriteServed s s' r pa bs data) : bytesAre s'.mem pa bs := by
  rw [Machine.bytesAre, h.mem, Memory.read_write]

theorem WriteServed.bytesElse {s' : State} {bs data : List Byte} (h : WriteServed s s' r pa bs data) : bytesElse s.mem s'.mem pa bs.length :=
  fun b hb => by rw [h.mem, Memory.get_write_out _ _ _ _ hb]

theorem serveWrite_served {new back : List Byte → List Byte} (h : Exposed s r n need base ps pa)
    (hin : ∀ p ∈ ps, Label.subset (ingressLabel s r.part r.sender) p.leaf.label = true) (hnew : (new (s.mem.read pa n)).length = n) :
    WriteServed s (serveWrite s r ps new back) r pa (new (s.mem.read pa n)) (back (s.mem.read pa n)) := by
  have hcont : Contiguous (base + r.offset) (new (s.mem.read pa n)).length ps := by
    rw [hnew]
    exact contiguous_of_reach h.pages
  obtain ⟨hleft, hmem, hreplies⟩ := writeBorn_along (s := s) (part := r.part) 0 hcont le_rfl h.plain
  have heq : serveWrite s r ps new back =
      (writeBorn none r.part ps (new (s.mem.read pa n)) 0 s).2.2.reply r.sender (some (back (s.mem.read pa n))) := by
    rw [serveWrite, if_neg (by simpa using hin)]
    simp only [h.bytes, hleft, if_true]
  constructor
  · rw [heq]
    exact hmem.trans (by rw [Nat.sub_self, Nat.add_zero])
  · rw [heq, State.reply, hreplies]
    rfl

/-- An atomic writes its new bytes, and answers the old ones where it answers any. -/
theorem serveAtomic_served {new : List Byte → List Byte} {answers : Bool} (hl : answers = true → pagesLabel ps = 0) (h : Exposed s r n need base ps pa)
    (hin : ∀ p ∈ ps, Label.subset (ingressLabel s r.part r.sender) p.leaf.label = true) (hnew : (new (s.mem.read pa n)).length = n) :
    WriteServed s (serveAtomic s r va ps new answers) r pa (new (s.mem.read pa n)) (if answers then s.mem.read pa n else []) := by
  have henters : ps.any (fun x => !Label.subset (ingressLabel s r.part r.sender) x.leaf.label) = false := by simpa using hin
  cases answers with
  | false => exact serveWrite_served (back := fun _ => []) h hin hnew
  | true =>
    have heq : serveAtomic s r va ps new true = serveWrite s r ps new id := by
      simp only [serveAtomic, henters, Bool.not_true, Bool.or_false, Bool.false_eq_true, if_false, serveRelease_unlabelled (hl rfl)]
    rw [heq]
    exact serveWrite_served h hin hnew

end

theorem length_leBytes (n x : Nat) : (leBytes n x).length = n := by
  induction n generalizing x with
  | zero => rfl
  | succ n ih => rw [leBytes, List.length_cons, ih]

theorem remoteAccessesAreServed : Rule.RemoteAccessesAreServed := by
  intro s r base ps pa
  refine ⟨fun hnone => ?closed, fun n hop h hl => ?load, fun bs hop h => ⟨fun hin => ?store, fun hout => ?refused⟩,
    fun op ty c d mode answers hop hl h hp => ?atomic⟩
  case closed =>
    refine ⟨s.reply r.sender none, ?_, rfl, rfl⟩
    show execRemoteAccessIn r s = _
    simp only [execRemoteAccessIn, hnone]
  case load =>
    refine ⟨_, exec_remoteAccessIn (by rw [hop]; rfl) (by rw [hop]; rfl) h (h.remoteMay_all (by simp [hop])), ?_⟩
    simp only [serveRemote, hop, serveLoad_unlabelled hl, h.bytes]
    exact ⟨rfl, rfl⟩
  case store =>
    have hw := serveWrite_served (new := fun _ => bs) (back := fun _ => []) h hin rfl
    refine ⟨_, exec_remoteAccessIn (by rw [hop]; rfl) (by rw [hop]; rfl) h (h.remoteMay_all (by simp [hop])), ?_⟩
    simp only [serveRemote, hop]
    exact ⟨hw.bytesAre, hw.bytesElse, hw.replies⟩
  case refused =>
    refine ⟨_, exec_remoteAccessIn (by rw [hop]; rfl) (by rw [hop]; rfl) h (h.remoteMay_all (by simp [hop])), ?_⟩
    simp only [serveRemote, hop, serveWrite_refused hout]
    exact ⟨rfl, rfl⟩
  case atomic =>
    refine ⟨_, exec_remoteAccessIn (by rw [hop]; rfl) (by rw [hop]; rfl) h (h.remoteMay_all fun _ _ _ _ _ _ _ p hm => (hp p hm).1), ?_⟩
    simp only [serveRemote, hop]
    have hw := serveAtomic_served (va := base + r.offset) (new := fun old => leBytes (atomicWidth ty) (atomicNew (rowOp op) ty (Round.ofCode mode)
      (BitVec.ofNat 64 (leNat old)) c d).1.toNat) hl h (fun p hm => (hp p hm).2) (length_leBytes ..)
    have helse := hw.bytesElse
    rw [length_leBytes] at helse
    exact ⟨hw.bytesAre, helse, hw.replies⟩

/-- Settles O55: counters cross by the definition of a count, and a served write runs along the contiguous pieces that the access reaches. -/
theorem noticesAndRemoteAccesses : Obligations.NoticesAndRemoteAccesses := ⟨thresholdNoticesAreSentOnce, remoteAccessesAreServed⟩

end Sys2Proof.Machine
end

section
/-! O2: floating point, scalar, packed and converted (R188, R194 to R207, R273, R274). -/

namespace Sys2Proof.Machine

/-- The form runs for its group as one result of its type in its destination under its label, with the events that it counts, and the builder
does not hold it. -/
def ResultForm.Counts (x : ResultForm) : Prop :=
  ∀ f s, ∃ evs : State → Nat → List Nat, exec (x.instr f) s = .next (runGroup x.op f x.preds []
      (fun s t => .go (resultEff (x.ty f) f.d (x.value f s t) (x.label f s t) (evs s t))) s) ∧ holdOf x.op f = none

/-- Counted events show in no register, label or access. -/
theorem ResultForm.Counts.completes {x : ResultForm} (h : x.Counts) : x.Completes := by
  intro f s t hissues
  obtain ⟨evs, hexec, hop⟩ := h f s
  obtain ⟨hresult, hpc, huntouched⟩ := runGroup_result (ty := x.ty f) (d := f.d) (val := x.value f) (lab := x.label f) (evs := evs) hissues
  refine ⟨_, hexec, hresult, runGroup_resultLabels hissues hop, hpc, huntouched, runGroup_unsent fun u e he => ?_⟩
  obtain rfl := Res.go.inj he
  rfl

/-- A form runs so where the writes of its meaning are those of its result. -/
theorem ResultForm.Counts.of_writes {x : ResultForm} {ws : Fields → State → Nat → List Wr} {evs : Fields → State → Nat → List Nat}
    (hexec : ∀ f s, exec (x.instr f) s = .next (runGroup x.op f x.preds [] (fun s t => .go { writes := ws f s t, events := evs f s t }) s))
    (hop : ∀ f, holdOf x.op f = none) (hw : ∀ f s t, ws f s t = wrTy (x.ty f) f.d (x.value f s t) (x.label f s t)) : x.Counts := by
  intro f s
  refine ⟨evs f, (hexec f s).trans ?_, hop f⟩
  simp only [hw]
  rfl

section
variable {instr : Fields → Instr} {op : Nat} {value : Fields → State → Nat → DWord}

/-- A scalar computation, whose result is the encoding that it gives (R194). -/
theorem ResultForm.Counts.of_scalar (y : FOp) (hexec : ∀ f s, exec (instr f) s = .next (runScalar op y f s)) (hop : ∀ f, holdOf op f = none)
    (hvalue : ∀ f s t, value f s t = floatBits (scalarOut s y f t)) : ResultForm.Counts { instr := instr, op := op, value := value } :=
  .of_writes hexec hop fun f s t => (wr32_ofNat _ _ _).trans (congrArg (fun v => wrTy .b32 f.d v (labelOf s op f t)) (hvalue f s t).symm)

/-- A packed computation, whose result is the two encodings that it gives of the halves (R201). -/
theorem ResultForm.Counts.of_packed (y : FOp) (hexec : ∀ f s, exec (instr f) s = .next (runPacked op y f s)) (hop : ∀ f, holdOf op f = none)
    (hvalue : ∀ f s t, value f s t = packed (halfOut s y f t)) : ResultForm.Counts { instr := instr, op := op, value := value } :=
  .of_writes hexec hop fun f s t => (wr32_setWidth _ _ _).trans (congrArg (fun v => wrTy .b32 f.d v (labelOf s op f t)) (hvalue f s t).symm)

end

/-! CVT by the kind of its type (R205). -/

theorem cvt_toFloat {f : Fields} {F : Fmt} (h : fmtOf f.ty = some F) (s : State) (t : Nat) :
    (cvt s t f).1 = floatBits (cvtToFloat F (f.bit 0) (rm s t f) (cvtSource s t f)) := by
  simp only [cvt, h, floatBits]

theorem cvt_toInt {f : Fields} (h : fmtOf f.ty = none) (s : State) (t : Nat) :
    (cvt s t f).1 = placeInt f.ty (cvtToInt f.ty (f.bit 0) (rm s t f) (cvtSource s t f)) := by
  simp only [cvt, h]

/-! The forms. -/

theorem scalarForms_count : ∀ x ∈ scalarForms, x.Counts := by
  intro x hx
  simp only [scalarForms, List.mem_cons, List.not_mem_nil, or_false] at hx
  rcases hx with rfl | rfl | rfl | rfl | rfl | rfl | rfl | rfl | rfl | rfl | rfl
  · exact .of_scalar opAdd (fun _ _ => rfl) (fun _ => rfl) (fun _ _ _ => rfl)
  · exact .of_scalar opSub (fun _ _ => rfl) (fun _ => rfl) (fun _ _ _ => rfl)
  · exact .of_scalar opMul (fun _ _ => rfl) (fun _ => rfl) (fun _ _ _ => rfl)
  · exact .of_scalar opFma (fun _ _ => rfl) (fun _ => rfl) (fun _ _ _ => rfl)
  · exact .of_scalar opMin (fun _ _ => rfl) (fun _ => rfl) (fun _ _ _ => rfl)
  · exact .of_scalar opMax (fun _ _ => rfl) (fun _ => rfl) (fun _ _ _ => rfl)
  · exact .of_scalar opNeg (fun _ _ => rfl) (fun _ => rfl) (fun _ _ _ => rfl)
  · exact .of_scalar opAbs (fun _ _ => rfl) (fun _ => rfl) (fun _ _ _ => rfl)
  · exact .of_writes (fun _ _ => rfl) (fun _ => rfl) (fun _ _ _ => wr32_ofNat _ _ _)
  · exact .of_writes (evs := fun _ _ _ => []) (fun _ _ => rfl) (fun _ => rfl) (fun _ _ _ => wr32_ofNat _ _ _)
  · exact .of_scalar opRnd (fun _ _ => rfl) (fun _ => rfl) (fun _ _ _ => rfl)

theorem packedForms_count : ∀ x ∈ packedForms, x.Counts := by
  intro x hx
  simp only [packedForms, List.mem_cons, List.not_mem_nil, or_false] at hx
  rcases hx with rfl | rfl | rfl | rfl | rfl | rfl | rfl | rfl
  · exact .of_packed opFma (fun _ _ => rfl) (fun _ => rfl) (fun _ _ _ => rfl)
  · exact .of_packed opAdd (fun _ _ => rfl) (fun _ => rfl) (fun _ _ _ => rfl)
  · exact .of_packed opSub (fun _ _ => rfl) (fun _ => rfl) (fun _ _ _ => rfl)
  · exact .of_packed opMul (fun _ _ => rfl) (fun _ => rfl) (fun _ _ _ => rfl)
  · exact .of_packed opMin (fun _ _ => rfl) (fun _ => rfl) (fun _ _ _ => rfl)
  · exact .of_packed opMax (fun _ _ => rfl) (fun _ => rfl) (fun _ _ _ => rfl)
  · exact .of_packed opNeg (fun _ _ => rfl) (fun _ => rfl) (fun _ _ _ => rfl)
  · exact .of_packed opAbs (fun _ _ => rfl) (fun _ => rfl) (fun _ _ _ => rfl)

theorem convertForms_count : ∀ x ∈ convertForms, x.Counts := by
  intro x hx
  simp only [convertForms, List.mem_cons, List.not_mem_nil, or_false] at hx
  rcases hx with rfl | rfl
  · refine .of_writes (fun _ _ => rfl) (fun _ => rfl) fun f s t => ?_
    cases h : fmtOf f.ty with
    | some F => simp only [cvt_toFloat h, h]
    | none => simp only [cvt_toInt h, h]
  · exact .of_writes (fun _ _ => rfl) (fun _ => rfl) (fun _ _ _ => wr32_setWidth _ _ _)

/-- Settles O2: each form's effect is one result in its destination, the encoding that its computation rounds once, and its events are seen by
the counters alone. -/
theorem floatResults : Obligations.FloatResults :=
  ⟨fun x hx => (scalarForms_count x hx).completes, fun x hx => (packedForms_count x hx).completes,
    fun x hx => (convertForms_count x hx).completes⟩

end Sys2Proof.Machine
end

section
/-! SUPPORT. An instruction that sets its thread's budgets, with or without a result (R212 to R214, R223, R227). -/

namespace Sys2Proof.Machine

theorem Kept.setBudget {x y : Thread} {ds ps : List Nat} (h : Kept x y ds ps) (b : Budget) : Kept (x.setBudget b) (y.setBudget b) ds ps :=
  ⟨h.regs, h.preds, h.mode, h.cls, h.traps, rfl⟩

/-- Writes, new budgets, and where the thread continues. -/
def budgetEff (ws : List Wr) (b : Budget) (p : Option Pc) : Eff := { writes := ws, budget := some b, next := p }

theorem budgetEff_onThread (ws : List Wr) (b : Budget) (p : Option Pc) (x : Thread) :
    (budgetEff ws b p).onThread x = (ws.foldl Wr.onThread x).setBudget b := rfl

section
variable {op : Nat} {f : Fields} {preds regs : List Nat} {eff : State → Nat → Res} {s : State} {t : Nat}

/-- What the thread holds afterwards. -/
theorem runGroup_budget {ws : List Wr} {b : Budget} {p : Option Pc} {ds ps us bs : List Nat} (h : Issues s op f preds regs t)
    (he : eff s t = .go (budgetEff ws b p)) (hw : ∀ w ∈ ws, w.within ds ps us bs) :
    ((runGroup op f preds regs eff s).thread t).budget = b ∧
      ((runGroup op f preds regs eff s).thread t).pc = p.getD (nextPc s.pc) ∧
      Kept ((s.thread t).setBudget ((runGroup op f preds regs eff s).thread t).budget) ((runGroup op f preds regs eff s).thread t) ds ps := by
  have hm := runGroup_moved h he rfl rfl
  rw [budgetEff_onThread] at hm
  have hb : ((runGroup op f preds regs eff s).thread t).budget = b := hm.budget
  refine ⟨hb, hm.pc, ?_⟩
  rw [hb]
  exact ((Wr.foldl_kept hw _).setBudget b).trans (hm.kept.mono (List.nil_subset _) (List.nil_subset _))

/-- The labels of a group whose threads each write one result, whatever else their effects do. -/
theorem runGroup_oneResult_labelled {ty : Ty} {d : Opnd} {val : Nat → DWord} {lab : Nat → Label} {e : Nat → Eff}
    (h : Issues s op f preds regs t) (hop : holdOf op f = none) (he : ∀ u, eff s u = .go (e u))
    (hw : ∀ u, (e u).writes = wrTy ty d (val u) (lab u)) (hp : ∀ u, (e u).part = none) :
    Labelled s (runGroup op f preds regs eff s) op f preds regs t (resultRegs ty d) (resultUnis ty d) [] lab := by
  have htiles := fun r (hr : r ∈ resultRegs ty d) (h255 : r < 255) =>
    runGroup_tiles (eff := eff) (lab := lab) h h255 (fun u => ⟨_, he u⟩) fun u e' hu => by
      obtain rfl := Res.go.inj (hu.symm.trans (he u))
      rw [hw, wrTy_onTile hr h255]
  refine ⟨fun r hr h255 => (htiles r hr h255).1, fun r hr h255 => (htiles r hr h255).2.1,
    fun hall r hr h255 => (htiles r hr h255).2.2.1 fun u hu => (hall u hu).issues hop,
    fun hpart r hr h255 => (htiles r hr h255).2.2.2 hpart, fun r hr h127 => ?_, fun n hn => by simp at hn⟩
  cases d with
  | s n =>
    obtain ⟨u, hu, hg, hgu, -, hl⟩ := runGroup_uni (ty := ty) (n := n) (val := val) (lab := lab) (eff := eff) (e := e) (rest := fun _ => []) h
      (fun u _ => he u) (fun u _ => by rw [hw, List.append_nil]) (fun _ _ _ hmem => by simp at hmem) (fun u _ => hp u)
    exact ⟨u, hu, hg, hgu, hl r hr h127⟩
  | _ => simp [resultUnis] at hr

/-- The result of a group whose threads each write one and set their budgets. -/
theorem runGroup_budget_result {ty : Ty} {val : Nat → DWord} {lab : Nat → Label} {b : Nat → Budget} {p : Option Pc}
    (h : Issues s op f preds regs t) (he : ∀ u, eff s u = .go (budgetEff (wrTy ty f.d (val u) (lab u)) (b u) p)) :
    ResultIn s (runGroup op f preds regs eff s) f t ty val := by
  by_cases hd : isUni f.d = false
  · have hk := (runGroup_moved h (he t) rfl rfl).kept
    rw [budgetEff_onThread] at hk
    exact ⟨t, h.mem, rfl, h.guard, fun _ => rfl, resultTy_of_wrTy (l := lab t) (x := s.thread t) hd fun r => hk.regs r (by simp)⟩
  · cases hf : f.d with
    | s n =>
      obtain ⟨u, hu, hg, hgu, hv, -⟩ := runGroup_uni (ty := ty) (n := n) (val := val) (lab := lab) (eff := eff)
        (e := fun u => budgetEff (wrTy ty (.s n) (val u) (lab u)) (b u) p) (rest := fun _ => []) h
        (fun u _ => by rw [he u, hf]) (fun _ _ => (List.append_nil _).symm) (fun _ _ _ hmem => by simp at hmem) (fun _ _ => rfl)
      exact ⟨u, hu, hg, hgu, fun hn => absurd hn hd, by rw [hf]; exact hv⟩
    | _ => simp [hf, isUni] at hd

end

end Sys2Proof.Machine
end

section
/-! O15: BSET, BGET, BSPLIT and METER (R212, R213, R218, R219, R227). -/

namespace Sys2Proof.Machine

/-- The budgets that BSET leaves. -/
def bsetBudget (f : Fields) (s : State) (t : Nat) : Budget :=
  match f.bits 0 2 with
  | 0 => { (s.thread t).budget with bt := read32 s t f.a }
  | 1 => { (s.thread t).budget with be := read32 s t f.a }
  | _ => { (s.thread t).budget with bq := BitVec.ofNat 32 (min (read32 s t f.a).toNat 65535) }

theorem bsetEff_eq (f : Fields) (s : State) (t : Nat) : bsetEff f s t = .go (budgetEff [] (bsetBudget f s t) none) := rfl

theorem bsetWritesOneBudget : Rule.BsetWritesOneBudget := by
  intro f s t h
  obtain ⟨hb, hpc, hk⟩ := runGroup_budget (us := []) (bs := []) h (bsetEff_eq f s t) (by simp)
  refine ⟨_, rfl, hb, hpc, hk, runGroup_others fun u e he => ?_⟩
  obtain rfl := Res.go.inj he
  exact ⟨by simp, rfl⟩

/-! BGET and METER. -/

/-- What METER writes, as a result of the full width. -/
def meterResult (s : State) (t sel : Nat) : DWord :=
  match sel, (s.thread t).frames with
  | 0, fr :: _ => saturated (clksBetween s t fr.issued s.time)
  | 0, [] => saturated (clksBetween s t ((s.thread t).started.getD (s.time, (s.thread t).energy)).1 s.time)
  | 1, fr :: _ => saturated (((s.thread t).energy - fr.energy) / 65536)
  | 1, [] => saturated (((s.thread t).energy - ((s.thread t).started.getD (s.time, (s.thread t).energy)).2) / 65536)
  | _, fr :: _ => BitVec.ofNat 64 fr.index
  | _, [] => 0xFFFFFFFF

theorem ofNat_meterValue (s : State) (t sel : Nat) : BitVec.ofNat 64 (meterValue s t sel) = meterResult s t sel := by
  simp only [meterValue, meterResult]
  match sel, (s.thread t).frames with
  | 0, _ :: _ => rfl
  | 0, [] => rfl
  | 1, _ :: _ => rfl
  | 1, [] => rfl
  | _ + 2, _ :: _ => rfl
  | _ + 2, [] => rfl

theorem budgetForms_run : ∀ x ∈ budgetForms, x.Runs := by
  intro x hx
  simp only [budgetForms, List.mem_cons, List.not_mem_nil, or_false] at hx
  rcases hx with rfl | rfl
  · exact .of_writes (fun _ _ => rfl) (fun _ => rfl) fun _ _ _ => wr32_setWidth _ _ _
  · exact .of_writes (fun _ _ => rfl) (fun _ => rfl) fun f s t =>
      (wr32_ofNat ..).trans (congrArg (wrTy .b32 f.d · (labelOf s 0x1C5 f t)) (ofNat_meterValue s t _))

theorem budgetsAndMetersAreRead : Rule.BudgetsAndMetersAreRead := fun x hx => (budgetForms_run x hx).completes

/-! BSPLIT. -/

theorem splitShare_eq (f : Fields) (s : State) (t : Nat) :
    splitShare (if f.bit 0 then (s.thread t).be else (s.thread t).bt) (min (read32 s t f.a).toNat 256) = shareOf f s t := by
  refine if_congr ?_ rfl rfl
  rw [Bool.and_eq_true, decide_eq_true_eq, decide_eq_true_eq]
  rfl

/-- The budgets that BSPLIT leaves. -/
def bsplitBudget (f : Fields) (s : State) (t : Nat) : Budget :=
  if f.bit 0 then { (s.thread t).budget with shareE := some (shareOf f s t) } else { (s.thread t).budget with shareT := some (shareOf f s t) }

theorem bsplitEff_eq (f : Fields) (s : State) (t : Nat) : bsplitEff f s t =
    .go (budgetEff (wrTy .b32 f.d ((shareOf f s t).setWidth 64) (labelOf s 0x1C4 f t)) (bsplitBudget f s t) none) := by
  rw [← wr32_setWidth, bsplitBudget, ← splitShare_eq]
  rfl

theorem bsplitSetsAShare : Rule.BsplitSetsAShare := by
  intro f s t h
  obtain ⟨hb, hpc, hk⟩ := runGroup_budget (ps := []) (bs := []) h (bsplitEff_eq f s t) fun _ => wrTy_within
  exact ⟨_, rfl, runGroup_budget_result h (bsplitEff_eq f s), hb, hpc,
    runGroup_oneResult_labelled h rfl (bsplitEff_eq f s) (fun _ => rfl) (fun _ => rfl), hk, fun a => by rw [runGroup_mem]⟩

/-- Settles O15: BSET and BSPLIT set the budgets of their thread, BSPLIT with the share as its result; BGET and METER are one result each. -/
theorem budgets : Obligations.Budgets := ⟨bsetWritesOneBudget, budgetsAndMetersAreRead, bsplitSetsAShare⟩

end Sys2Proof.Machine
end

section
/-! SUPPORT. The selection of a variant: the objectives are orders by rank, and the best entry is the first of least rank (R215 to R217). -/

namespace Sys2Proof.Machine

/-- What an objective makes least. -/
def Choice.rank (c : Choice) (e : VEntry) : Int :=
  match c.objective with
  | 0 => e.effTime c.pnow
  | 1 => e.effEnergy c.pnow
  | _ => -e.quality

theorem better_iff (c : Choice) (x y : VEntry) : better c x y = true ↔ c.rank x < c.rank y := by
  simp only [better, Choice.rank]
  generalize c.objective = o
  match o with
  | 0 => simp
  | 1 => simp
  | _ + 2 => simp

theorem not_better_iff (c : Choice) (x y : VEntry) : better c x y = false ↔ c.rank y ≤ c.rank x := by
  rw [← Bool.not_eq_true, better_iff, not_lt]

/-- The first of the numbered entries of least rank among those that qualify, or none where no entry does. -/
def BestOf (c : Choice) (seen : List (Nat × VEntry)) : Option (Nat × VEntry) → Prop
  | none => ∀ y ∈ seen, qualifies c y.2 = false
  | some x => x ∈ seen ∧ qualifies c x.2 = true ∧ ∀ y ∈ seen, qualifies c y.2 = true →
      c.rank x.2 ≤ c.rank y.2 ∧ (c.rank y.2 ≤ c.rank x.2 → x.1 ≤ y.1)

/-- One more entry looked at. -/
def bestStep (c : Choice) (acc : Option (Nat × VEntry)) (x : Nat × VEntry) : Option (Nat × VEntry) :=
  if qualifies c x.2 then (match acc with
    | none => some x
    | some y => if better c x.2 y.2 then some x else acc) else acc

theorem bestEntry_eq_foldl (c : Choice) (l : List (Nat × VEntry)) (acc : Option (Nat × VEntry)) :
    bestEntry c l acc = l.foldl (bestStep c) acc := by
  induction l generalizing acc with
  | nil => rfl
  | cons x l ih => exact ih _

section
variable {c : Choice} {seen : List (Nat × VEntry)} {acc : Option (Nat × VEntry)} {x : Nat × VEntry}

/-- An entry that does not qualify changes nothing. -/
theorem BestOf.skip (h : BestOf c seen acc) (hx : qualifies c x.2 = false) : BestOf c (seen ++ [x]) acc := by
  have hne : ∀ y ∈ seen ++ [x], qualifies c y.2 = true → y ∈ seen := fun y hy hq =>
    (List.mem_append.1 hy).resolve_right fun hyx => by rw [List.mem_singleton.1 hyx, hx] at hq; cases hq
  cases acc with
  | none => exact fun y hy => Bool.eq_false_iff.2 fun hq => absurd (h y (hne y hy hq)) (by simp [hq])
  | some b =>
    obtain ⟨hb, hq, hbest⟩ := h
    exact ⟨List.mem_append_left _ hb, hq, fun y hy hyq => hbest y (hne y hy hyq) hyq⟩

theorem BestOf.step (h : BestOf c seen acc) (hlt : ∀ y ∈ seen, y.1 < x.1) : BestOf c (seen ++ [x]) (bestStep c acc x) := by
  cases hx : qualifies c x.2 with
  | false => simpa [bestStep, hx] using h.skip hx
  | true =>
    cases acc with
    | none =>
      have hstep : bestStep c none x = some x := by simp [bestStep, hx]
      rw [hstep]
      refine ⟨by simp, hx, fun y hy hyq => ?_⟩
      rcases List.mem_append.1 hy with hy | hy
      · rw [h y hy] at hyq; cases hyq
      · rw [List.mem_singleton.1 hy]; exact ⟨le_rfl, fun _ => le_rfl⟩
    | some b =>
      obtain ⟨hb, hbq, hbest⟩ := h
      cases hbetter : better c x.2 b.2 with
      | true =>
        have hstep : bestStep c (some b) x = some x := by simp [bestStep, hx, hbetter]
        have hrank := (better_iff c _ _).1 hbetter
        rw [hstep]
        refine ⟨by simp, hx, fun y hy hyq => ?_⟩
        rcases List.mem_append.1 hy with hy | hy
        · have := (hbest y hy hyq).1
          exact ⟨by omega, fun _ => by omega⟩
        · rw [List.mem_singleton.1 hy]; exact ⟨le_rfl, fun _ => le_rfl⟩
      | false =>
        have hstep : bestStep c (some b) x = some b := by simp [bestStep, hx, hbetter]
        rw [hstep]
        refine ⟨List.mem_append_left _ hb, hbq, fun y hy hyq => ?_⟩
        rcases List.mem_append.1 hy with hy | hy
        · exact hbest y hy hyq
        · rw [List.mem_singleton.1 hy]
          exact ⟨(not_better_iff c _ _).1 hbetter, fun _ => (hlt b hb).le⟩

end

theorem foldl_bestStep {c : Choice} (l : List (Nat × VEntry)) {seen : List (Nat × VEntry)} {acc : Option (Nat × VEntry)} (h : BestOf c seen acc)
    (hs : (seen ++ l).Pairwise (fun x y => x.1 < y.1)) : BestOf c (seen ++ l) (l.foldl (bestStep c) acc) := by
  induction l generalizing seen acc with
  | nil => simpa using h
  | cons x l ih =>
    have hlt : ∀ y ∈ seen, y.1 < x.1 := fun y hy => (List.pairwise_append.1 hs).2.2 y hy x (by simp)
    simpa using ih (h.step hlt) (by simpa using hs)

/-! Numbered entries. -/

/-- The entries of a table with their numbers. -/
def numbered (es : List VEntry) : List (Nat × VEntry) := (List.range es.length).zip es

theorem mem_numbered {es : List VEntry} {i : Nat} {e : VEntry} : (i, e) ∈ numbered es ↔ es[i]? = some e := by
  rw [List.mem_iff_getElem?]
  simp only [numbered, List.getElem?_zip_eq_some]
  constructor
  · rintro ⟨k, hk, he⟩
    obtain ⟨-, rfl⟩ : k < es.length ∧ k = i := by simpa [List.getElem?_eq_some_iff] using hk
    exact he
  · exact fun he => ⟨i, by simpa [List.getElem?_eq_some_iff] using (List.getElem?_eq_some_iff.1 he).1, he⟩

theorem numbered_sorted (es : List VEntry) : (numbered es).Pairwise (fun x y => x.1 < y.1) := by
  have hfst : (numbered es).map Prod.fst = List.range es.length := List.map_fst_zip (by simp)
  rw [← List.pairwise_map (f := Prod.fst) (R := (· < ·)), hfst]
  exact List.pairwise_lt_range

theorem forall_mem_of_numbered {es : List VEntry} {P : VEntry → Prop} (h : ∀ x ∈ numbered es, P x.2) : ∀ e ∈ es, P e := by
  intro e he
  obtain ⟨i, hi⟩ := List.mem_iff_getElem?.1 he
  exact h (i, e) (mem_numbered.2 hi)

theorem bestEntry_numbered (c : Choice) (es : List VEntry) : BestOf c (numbered es) (bestEntry c (numbered es) none) := by
  rw [bestEntry_eq_foldl]
  exact foldl_bestStep (seen := []) (numbered es) (fun _ hy => absurd hy (by simp)) (numbered_sorted es)

/-- The entry may be taken as the fallback (R215, R217). -/
def fallsBack (c : Choice) (x : Nat × VEntry) : Bool := x.2.fallback && x.2.passCode != 3 && (!c.exact || x.2.exact)

theorem selectEntry_eq (c : Choice) (es : List VEntry) : selectEntry c es =
    match bestEntry c (numbered es) none with
    | some x => some (x.1, x.2, false)
    | none => ((numbered es).find? (fallsBack c)).map (fun x => (x.1, x.2, true)) := rfl

theorem fallsBack_iff {c : Choice} {x : Nat × VEntry} :
    fallsBack c x = true ↔ x.2.fallback = true ∧ x.2.passCode ≠ 3 ∧ (c.exact = true → x.2.exact = true) := by
  cases hc : c.exact <;> simp [fallsBack, hc, and_assoc]

theorem not_fallsBack {c : Choice} {x : Nat × VEntry} (h : ¬ fallsBack c x = true) :
    x.2.fallback = false ∨ x.2.passCode = 3 ∨ (c.exact = true ∧ x.2.exact = false) := by
  by_contra hn
  push Not at hn
  exact h (fallsBack_iff.2 (by simpa using hn))

end Sys2Proof.Machine
end

section
/-! SUPPORT. The read of a variant table and the entry of the variant selected (R214, R222, R223, R225). -/

namespace Sys2Proof.Machine

theorem rawPieces_fresh (s : State) (part : Nat) (ps : List Piece) : ∃ n, (rawPieces s part ps).2 = s.setFresh n := by
  refine List.foldlRecOn (motive := fun acc : Option (List Byte × Nat) × State => ∃ n, acc.2 = s.setFresh n) ps _ ⟨s.fresh, rfl⟩ fun acc hacc p _ => ?_
  obtain ⟨n, hn⟩ := hacc
  split
  · exact ⟨n, hn⟩
  · exact ⟨n + 1, by simp only [State.remote, hn]; rfl⟩
  · exact ⟨n, hn⟩

theorem readEntries_fresh (s : State) (core part tbl n : Nat) (via : Via) (hs : List Piece) (g : Nat) :
    ∃ k, (readEntries s core part tbl n via hs g).2 = s.setFresh k := by
  simp only [readEntries]
  split
  · exact ⟨s.fresh, rfl⟩
  · exact ⟨s.fresh, rfl⟩
  · rename_i ps _
    obtain ⟨k, hk⟩ := rawPieces_fresh s part ps
    split
    · rename_i hraw; exact ⟨k, by rw [← hk, hraw]⟩
    · rename_i hraw; exact ⟨k, by rw [← hk, hraw]⟩

/-- A table read takes answers of other devices, and changes nothing else. -/
theorem readTable_fresh (s : State) (core part tbl : Nat) (via : Via) : ∃ k, (readTable s core part tbl via).2 = s.setFresh k := by
  simp only [readTable]
  split
  · exact ⟨s.fresh, rfl⟩
  · exact ⟨s.fresh, rfl⟩
  · rename_i hs _
    obtain ⟨k, hk⟩ := rawPieces_fresh s part hs
    split
    · rename_i hraw; exact ⟨k, by rw [← hk, hraw]⟩
    · rename_i s' hraw
      obtain rfl : s' = s.setFresh k := by rw [← hk, hraw]
      split
      · exact ⟨k, rfl⟩
      · exact readEntries_fresh (s.setFresh k) core part tbl _ via hs _

theorem tableRead_cachesOnly (s : State) (a : Access) (pick : Pick) (n : Nat) : s.CachesOnly (s.tableRead a pick n) := by
  simp only [State.tableRead]
  split
  · exact (State.CachesOnly.foldl _ (fun b p => .dropL1 b _ _ p) _ _).trans (.foldl _ (fun b p => .atL2 b _ p 1) _ _)
  · exact .refl s

theorem State.CachesOnly.mustDeliver {s s' : State} (h : s.CachesOnly s') (t : Nat) : s'.mustDeliver t = s.mustDeliver t := by
  have hsfq : ∀ c, (s'.core c).sfq = (s.core c).sfq := fun c => h.read c Core.sfq fun _ => rfl
  simp only [State.mustDeliver, State.pendingRecords, State.coreOfGang, State.thread, State.unit, h.threads, h.units, hsfq]
  rfl

/-- The frame that a call pushes (R214, R220). -/
def variantFrame (s : State) (a : Access) (i : Nat) : Frame :=
  { ret := nextPc a.pc, entry := a.addr + 32 + 32 * i, index := i, issued := a.aux, energy := (s.thread a.thread).energy,
    bt := (s.thread a.thread).bt, be := (s.thread a.thread).be, bq := (s.thread a.thread).bq, disturbed := a.wasSaved || a.disturbed }

/-- The budgets under which the callee starts (R223, R225). -/
def variantBudget (s : State) (a : Access) (i : Nat) : Budget :=
  { bt := (s.thread a.thread).shareT.getD (s.thread a.thread).bt, be := (s.thread a.thread).shareE.getD (s.thread a.thread).be,
    bq := (s.thread a.thread).bq, shareT := none, shareE := none, frames := variantFrame s a i :: (s.thread a.thread).frames }

/-- A thread that enters a variant: the status predicate, the budgets, the address, and it is ready. -/
structure Thread.Entered (x y : Thread) (n : Nat) (fb : Bool) (b : Budget) (p : Pc) : Prop where
  pc : y.pc = p
  sched : y.sched = .ready
  budget : y.budget = b
  status : n < 7 → y.pred n = fb ∧ y.pending n = false

section
variable {s : State} {a : Access} {l : Label} {i : Nat} {e : VEntry} {fb : Bool}

/-- The state in which the variant is entered, before the check for a record to take. -/
def enteredState (s : State) (a : Access) (l : Label) (i : Nat) (e : VEntry) (fb : Bool) : State :=
  (((applyWr true true a.thread s (.pred (a.f.bits 2 3) fb l)).modThread a.thread (fun x =>
    { x.setBudget (variantBudget s a i) with pc := BitVec.ofNat 48 e.code })).modGang (gangOf a.thread) (fun g => g.widen l)).unblock a.thread

theorem entering_keeps (s : State) (t k : Nat) (F : Thread → Thread) (G : Gang → Gang) :
    (((s.modThread t F).modGang k G).unblock t).mem = s.mem ∧ (((s.modThread t F).modGang k G).unblock t).accesses = s.accesses ∧
      (((s.modThread t F).modGang k G).unblock t).slots = s.slots := ⟨rfl, rfl, rfl⟩

theorem enteredState_thread_eq : ∃ r u, (enteredState s a l i e fb).thread a.thread =
    { ((applyWr true true a.thread s (.pred (a.f.bits 2 3) fb l)).thread a.thread).setBudget (variantBudget s a i) with
      pc := BitVec.ofNat 48 e.code, sched := .ready, readySince := r, stallUntil := u } := by
  simp only [enteredState, State.unblock, State.thread_modThread, State.thread_modGang, if_true]
  exact ⟨_, _, rfl⟩

theorem enteredState_mustDeliver : (enteredState s a l i e fb).mustDeliver a.thread = s.mustDeliver a.thread := by
  refine State.mustDeliver_congr ((entering_keeps ..).2.2.trans (applyWr_slots ..)) ?_
  obtain ⟨r, u, hthread⟩ := enteredState_thread_eq (s := s) (a := a) (l := l) (i := i) (e := e) (fb := fb)
  rw [hthread]
  exact applyWr_inTrap true true a.thread a.thread s (.pred (a.f.bits 2 3) fb l)

theorem enterVariant_eq (h : s.mustDeliver a.thread = false) : enterVariant s a l i e fb = enteredState s a l i e fb := by
  have hm : (enteredState s a l i e fb).mustDeliver a.thread = false := enteredState_mustDeliver.trans h
  show (if (enteredState s a l i e fb).mustDeliver a.thread then _ else _) = _
  rw [hm]
  rfl

theorem enteredState_thread : Thread.Entered (s.thread a.thread) ((enteredState s a l i e fb).thread a.thread) (a.f.bits 2 3) fb
    (variantBudget s a i) (BitVec.ofNat 48 e.code) := by
  have hbody := applyWr_body_self true true a.thread s (.pred (a.f.bits 2 3) fb l)
  obtain ⟨r, u, hthread⟩ := enteredState_thread_eq (s := s) (a := a) (l := l) (i := i) (e := e) (fb := fb)
  rw [hthread]
  refine ⟨rfl, rfl, rfl, fun hn => ?_⟩
  have hwrite := Wr.onThread_pred (s.thread a.thread) hn fb l (a.f.bits 2 3)
  rw [← Thread.body_pred, ← Thread.body_pending, ← hbody, Thread.body_pred, Thread.body_pending, if_pos rfl, if_pos rfl] at hwrite
  exact hwrite

theorem enteredState_mem : (enteredState s a l i e fb).mem = s.mem :=
  (entering_keeps ..).1.trans (applyWr_mem ..)

theorem enteredState_accesses : (enteredState s a l i e fb).accesses = s.accesses :=
  (entering_keeps ..).2.1.trans (congrArg Prod.fst (applyWr_sending ..))

end

end Sys2Proof.Machine
end

section
/-! O14: CALLV, the selection and RETV (R214 to R226). -/

namespace Sys2Proof.Machine

/-! CALLV at issue. -/

/-- The table read that a CALLV sends. -/
def tableAccess (f : Fields) (s : State) (t : Nat) : Access :=
  { kind := .table, thread := t, group := 0, pc := s.pc, op := 0x1C0, f := f, addr := (read64 s t f.a).toNat, width := 544,
    label := labelOf s 0x1C0 f t, aux := s.time, mode := s.passCodeOf (s.coreOf t), inTrap := (s.thread t).inTrap }

/-- What a CALLV whose tests pass does at issue. -/
def tableEff (f : Fields) (s : State) (t : Nat) : Eff :=
  { accesses := [tableAccess f s t], next := some s.pc, wait := some (.landing s.issue.serial) }

section
variable {f : Fields} {s : State} {t : Nat}

theorem callvEff_sends (halign : (read64 s t f.a).toNat % 64 = 0) (hlt : (read64 s t f.a).toNat < 2 ^ 48)
    (hdepth : (s.thread t).frames.length ≠ 8) : callvEff f s t = .go (tableEff f s t) := by
  have htest : ((read64 s t f.a).toNat % 64 != 0 || decide (2 ^ 48 ≤ (read64 s t f.a).toNat)) = false := by
    rw [halign, decide_eq_false (Nat.not_le.2 hlt)]
    rfl
  simp only [callvEff, htest, if_neg hdepth]
  rfl

theorem callvEff_go {u : Nat} {e : Eff} (h : callvEff f s u = .go e) : e = tableEff f s u := by
  simp only [callvEff] at h
  split at h
  · cases h
  · split at h
    · cases h
    · exact (Res.go.inj h).symm

end

theorem callvReadsItsTable : Rule.CallvReadsItsTable := by
  intro f s t h halign hlt hdepth
  have he := callvEff_sends halign hlt hdepth
  have hm := runGroup_moved h.toIssues he rfl rfl
  have halone := runGroup_go_alone h he
  refine ⟨_, rfl, ⟨tableAccess f s t, ?_, rfl, rfl, rfl, rfl, rfl⟩, hm.pc, ?_, hm.kept, runGroup_others fun u e hu => ?_⟩
  · rw [halone]
    exact applyEff_sends _ _ _ _ rfl rfl rfl
  · rw [halone]
    exact applyEff_waits _ _ _ _ h.ready rfl rfl rfl
  · obtain rfl := callvEff_go hu
    exact ⟨fun w hw => by simp [tableEff] at hw, rfl⟩

/-! The selection and the entry. -/

theorem selectEntry_best (c : Choice) (es : List VEntry) : match selectEntry c es with
    | some (i, e, false) => es[i]? = some e ∧ qualifies c e = true ∧ ∀ j e', es[j]? = some e' → qualifies c e' = true →
        better c e' e = false ∧ (better c e e' = false → i ≤ j)
    | some (i, e, true) => (∀ e' ∈ es, qualifies c e' = false) ∧ es[i]? = some e ∧ e.fallback = true ∧ e.passCode ≠ 3 ∧
        (c.exact = true → e.exact = true)
    | none => (∀ e' ∈ es, qualifies c e' = false) ∧
        ∀ e' ∈ es, e'.fallback = false ∨ e'.passCode = 3 ∨ (c.exact = true ∧ e'.exact = false) := by
  have hbest := bestEntry_numbered c es
  rw [selectEntry_eq]
  cases hb : bestEntry c (numbered es) none with
  | some x =>
    rw [hb] at hbest
    obtain ⟨hx, hq, hleast⟩ := hbest
    refine ⟨mem_numbered.1 hx, hq, fun j e' hj hq' => ?_⟩
    simpa only [not_better_iff] using hleast (j, e') (mem_numbered.2 hj) hq'
  | none =>
    rw [hb] at hbest
    have hnone := forall_mem_of_numbered (P := fun e' => qualifies c e' = false) hbest
    cases hf : (numbered es).find? (fallsBack c) with
    | some x => exact ⟨hnone, mem_numbered.1 (List.mem_of_find?_eq_some hf), fallsBack_iff.1 (List.find?_some hf)⟩
    | none => exact ⟨hnone, forall_mem_of_numbered (P := fun e' => e'.fallback = false ∨ e'.passCode = 3 ∨ (c.exact = true ∧ e'.exact = false))
      fun x hx => not_fallsBack (List.find?_eq_none.1 hf x hx)⟩

theorem dropped_keeps (s : State) (id t g : Nat) : ((s.dropAccess id).sawG t g).mem = s.mem ∧ ((s.dropAccess id).sawG t g).slots = s.slots ∧
    ((s.dropAccess id).sawG t g).thread t = { s.thread t with valueG := max (s.thread t).valueG g } := by
  refine ⟨rfl, rfl, ?_⟩
  rw [State.sawG, State.thread_modThread, if_pos rfl]
  rfl

/-- The state in which the variant is selected: the table read, the copies of its lines gone, its time seen. -/
def afterTable (s₁ : State) (id : Nat) (a : Access) (pick : Pick) (n g : Nat) : State :=
  ((s₁.tableRead a pick (32 + 32 * n)).dropAccess id).sawG a.thread g

section
variable {s s₁ : State} {id : Nat} {a : Access} {pick : Pick} {es : List VEntry} {l : Label} {g i : Nat} {e : VEntry} {fb : Bool}

theorem afterTable_thread (hread : readTable s (s.coreOf a.thread) (s.partOf a.thread) a.addr (a.via pick) = (.ok es l g, s₁)) (n : Nat) :
    (afterTable s₁ id a pick n g).thread a.thread = { s.thread a.thread with valueG := max (s.thread a.thread).valueG g } := by
  obtain ⟨k, hk⟩ := readTable_fresh s (s.coreOf a.thread) (s.partOf a.thread) a.addr (a.via pick)
  obtain rfl : s₁ = s.setFresh k := by rw [← hk, hread]
  have hthread : ((s.setFresh k).tableRead a pick (32 + 32 * n)).thread a.thread = s.thread a.thread := by
    simp only [State.thread, (tableRead_cachesOnly ..).threads]
    rfl
  rw [← hthread, afterTable, (dropped_keeps ..).2.2]

theorem afterTable_mustDeliver (hread : readTable s (s.coreOf a.thread) (s.partOf a.thread) a.addr (a.via pick) = (.ok es l g, s₁)) (n : Nat) :
    (afterTable s₁ id a pick n g).mustDeliver a.thread = s.mustDeliver a.thread := by
  obtain ⟨k, hk⟩ := readTable_fresh s (s.coreOf a.thread) (s.partOf a.thread) a.addr (a.via pick)
  obtain rfl : s₁ = s.setFresh k := by rw [← hk, hread]
  refine Eq.trans ?_ ((tableRead_cachesOnly (s.setFresh k) a pick (32 + 32 * n)).mustDeliver a.thread)
  refine State.mustDeliver_congr (dropped_keeps ..).2.1 ?_
  rw [afterTable, (dropped_keeps ..).2.2]

theorem afterTable_mem (hread : readTable s (s.coreOf a.thread) (s.partOf a.thread) a.addr (a.via pick) = (.ok es l g, s₁)) (n : Nat) :
    (afterTable s₁ id a pick n g).mem = s.mem := by
  obtain ⟨k, hk⟩ := readTable_fresh s (s.coreOf a.thread) (s.partOf a.thread) a.addr (a.via pick)
  obtain rfl : s₁ = s.setFresh k := by rw [← hk, hread]
  exact (dropped_keeps ..).1.trans (State.tableRead_mem ..)

theorem landTable_enters (hread : readTable s (s.coreOf a.thread) (s.partOf a.thread) a.addr (a.via pick) = (.ok es l g, s₁))
    (hsel : selectEntry (choiceOf s a) es = some (i, e, fb)) (hd : s.mustDeliver a.thread = false) :
    landTable s id a pick = enteredState (afterTable s₁ id a pick es.length g) a (a.label ||| l) i e fb := by
  have hchoice : choiceOf (afterTable s₁ id a pick es.length g) a = choiceOf s a := by
    simp only [choiceOf, exactMode, afterTable_thread hread]
  rw [← enterVariant_eq ((afterTable_mustDeliver hread _).trans hd)]
  rw [← hchoice] at hsel
  simp only [landTable, hread]
  rw [show selectEntry (choiceOf (((s₁.tableRead a pick (32 + 32 * es.length)).dropAccess id).sawG a.thread g) a) es = some (i, e, fb) from hsel]
  rfl

end

theorem variantsAreSelectedAndEntered : Rule.VariantsAreSelectedAndEntered := by
  refine ⟨selectEntry_best, fun s id a pick es l g s₁ i e fb ha hkind hen hread hsel hd => ?_⟩
  have hexec : exec (.variantTableRead id pick) s = .next (enteredState (afterTable s₁ id a pick es.length g) a (a.label ||| l) i e fb) := by
    rw [← landTable_enters hread hsel hd]
    show execVariantTableRead id pick s = _
    simp [execVariantTableRead, ha, hkind, hen]
  have ht := enteredState_thread (s := afterTable s₁ id a pick es.length g) (a := a) (l := a.label ||| l) (i := i) (e := e) (fb := fb)
  have hbudget := ht.budget
  simp only [variantBudget, variantFrame, afterTable_thread hread, Thread.budget, Budget.mk.injEq] at hbudget
  obtain ⟨hbt, hbe, -, hshareT, hshareE, hframes⟩ := hbudget
  refine ⟨_, variantFrame s a i, hexec, ?_, ht.pc, ht.sched, hframes, rfl, rfl, rfl, rfl, rfl, rfl, rfl, rfl, hbt, hbe, hshareT, hshareE, ht.status,
    Bool.or_eq_true_iff, enteredState_mem.trans (afterTable_mem hread _)⟩
  rw [enteredState_accesses]
  exact (tabGet_del ..).trans (if_pos rfl)

/-! RETV. -/

/-- The budgets of the caller after a RETV (R223). -/
def callerBudget (s : State) (t : Nat) (fr : Frame) (rest : List Frame) : Budget :=
  { bt := charge fr.bt (meterTime s t fr.issued), be := charge fr.be (meterEnergy s t fr.energy), bq := fr.bq, shareT := none, shareE := none,
    frames := rest }

/-- What a RETV does for a thread with an open frame, before it checks for a record to take. -/
def returnEff (s : State) (t : Nat) (fr : Frame) (rest : List Frame) : Eff := budgetEff [] (callerBudget s t fr rest) (some fr.ret)

/-- The entry with the sample of its call folded in, as bytes (R221). -/
def sampledEntry (s : State) (t : Nat) (fr : Frame) (old : List Byte) : List Byte :=
  ((VEntry.ofBytes old).sample (sat32 (meterTime s t fr.issued)) (sat32 (meterEnergy s t fr.energy)) (s.passCodeOf (s.coreOf t))).into old

section
variable {f : Fields} {s : State} {t : Nat} {fr : Frame} {rest : List Frame}

theorem retvEff_returns (hf : (s.thread t).frames = fr :: rest) : retvEff s t = .go { returnEff s t fr rest with check := true } := by
  simp only [retvEff, hf]
  rfl

/-- An effect that sets budgets and jumps changes its thread alone. -/
theorem act_leave_budget (x y z : Bool) (b : Budget) (p : Pc) : (budgetEff [] b (some p)).leave f x z t p ((budgetEff [] b (some p)).act x y t s) =
    retire (s.modThread t ((budgetEff [] b (some p)).alter (s.clkOf t))) f (f.yld || false) p t := rfl

theorem applyEff_budget (l : Label) (x y z : Bool) (b : Budget) (p : Pc) : applyEff f l x y z t s (budgetEff [] b (some p)) =
    retire (s.modThread t ((budgetEff [] b (some p)).alter (s.clkOf t))) f (f.yld || false) p t := act_leave_budget x y z b p

theorem retire_keeps (s : State) (f : Fields) (w : Bool) (p : Pc) (t : Nat) (F : Thread → Thread) :
    (retire (s.modThread t F) f w p t).mem = s.mem ∧ (retire (s.modThread t F) f w p t).parts = s.parts ∧
      (retire (s.modThread t F) f w p t).slots = s.slots := ⟨rfl, rfl, rfl⟩

/-- Where the thread has no record to take, the check of such an effect finds none. -/
theorem applyEff_checkedBudget (l : Label) (x y z : Bool) (b : Budget) (p : Pc) (h : s.mustDeliver t = false) :
    applyEff f l x y z t s { budgetEff [] b (some p) with check := true } = applyEff f l x y z t s (budgetEff [] b (some p)) := by
  have hm : (retire (s.modThread t ((budgetEff [] b (some p)).alter (s.clkOf t))) f (f.yld || false) p t).mustDeliver t = false := by
    rw [← h]
    refine State.mustDeliver_congr (retire_keeps ..).2.2 ?_
    simp only [retire, State.thread_modThread, if_true, State.charge_inTrap]
    rfl
  rw [applyEff_budget]
  show Eff.close { budgetEff [] b (some p) with check := true } l t p
    ((budgetEff [] b (some p)).leave f x z t p ((budgetEff [] b (some p)).act x y t s)) = _
  rw [act_leave_budget]
  simp only [Eff.close, hm]
  rfl

/-- The state that a RETV alone leaves before its write-back. -/
def returned (f : Fields) (s : State) (t : Nat) (fr : Frame) (rest : List Frame) : State := appliedAlone 0x1C1 f s t (returnEff s t fr rest)

theorem runGroup_retv (h : Alone s 0x1C1 f [] [] t) (hf : (s.thread t).frames = fr :: rest) (hd : s.mustDeliver t = false) :
    runGroup 0x1C1 f [] [] retvEff s = returned f s t fr rest :=
  (runGroup_go_alone h (retvEff_returns hf)).trans (applyEff_checkedBudget _ _ _ _ _ _ hd)

/-- The same as the issue of a group whose every thread has that effect. -/
theorem returned_eq_runGroup (h : Alone s 0x1C1 f [] [] t) :
    returned f s t fr rest = runGroup 0x1C1 f [] [] (fun _ _ => .go (returnEff s t fr rest)) s := (runGroup_go_alone h rfl).symm

theorem returned_places : (returned f s t fr rest).mem = s.mem ∧ (returned f s t fr rest).parts = s.parts ∧
    (returned f s t fr rest).units = s.units := by
  rw [returned, appliedAlone, returnEff, applyEff_budget]
  obtain ⟨hmem, hparts, hslots⟩ := retire_keeps s f (f.yld || false) fr.ret t ((budgetEff [] (callerBudget s t fr rest) (some fr.ret)).alter (s.clkOf t))
  exact ⟨hmem, hparts, (Prod.mk.inj hslots).2⟩

theorem filter_lane (t : Nat) (n : Nat) : (List.range n).flatMap (fun l => [t].filter (fun u => laneOf u == l)) = if laneOf t < n then [t] else [] := by
  induction n with
  | zero => simp
  | succ n ih =>
    rw [List.range_succ, List.flatMap_append, ih]
    rcases Nat.lt_trichotomy (laneOf t) n with h | h | h
    · simp [h, Nat.ne_of_lt h, Nat.lt_succ_of_lt h]
    · simp [h]
    · simp [Nat.not_lt.2 h.le, Nat.ne_of_gt h, Nat.not_lt.2 h]

theorem byLane_singleton (t : Nat) : byLane [t] = [t] := (filter_lane t 32).trans (if_pos (Nat.mod_lt _ (by decide)))

theorem exec_retv (h : Alone s 0x1C1 f [] [] t) (hf : (s.thread t).frames = fr :: rest) (hd : s.mustDeliver t = false) :
    exec (.retv f) s = .next (writeTags s (returned f s t fr rest) t) := by
  show execRetv f s = _
  rw [execRetv, goers_alone h (retvEff_returns hf), byLane_singleton, runGroup_retv h hf hd]
  rfl

/-! Tag write-back. -/

theorem Kept.setWriteG {x y : Thread} {ds ps : List Nat} (h : Kept x y ds ps) (g : Nat) : Kept x { y with writeG := g } ds ps :=
  ⟨h.regs, h.preds, h.mode, h.cls, h.traps, h.budget⟩

/-- A write-back leaves its thread but for the time that the thread's fences wait for. -/
theorem writeTags_thread (s₀ s : State) (t : Nat) : ∃ g, (writeTags s₀ s t).thread t = { s.thread t with writeG := g } := by
  have hself : ∃ g, s.thread t = { s.thread t with writeG := g } := ⟨(s.thread t).writeG, rfl⟩
  simp only [writeTags]
  split
  · exact hself
  · split
    · exact hself
    · split
      · split
        · refine ⟨(s.thread t).writeG, ?_⟩
          rw [State.thread, (writePiece_cachesOnly _ _ _ rfl _).threads]
          rfl
        · refine ⟨max (s.thread t).writeG s.remote.2.1, ?_⟩
          rw [State.wroteG, State.thread_modThread, if_pos rfl]
          rfl
        · exact hself
      · exact hself

theorem writeTags_disturbed {s₀ s : State} (hf : (s₀.thread t).frames = fr :: rest) (hd : fr.disturbed = true) : writeTags s₀ s t = s := by
  simp only [writeTags, hf, hd, if_true]

/-- The bytes of an entry on plain memory that a write-back leaves. -/
theorem writeTags_mem {s₀ s : State} {l : Leaf} {pa : Nat} (hf : (s₀.thread t).frames = fr :: rest) (hd : fr.disturbed = false)
    (hw : walk s (s.partOf t) fr.entry = .leaf l) (hh : homeOf s (s.partOf t) fr.entry l = .ok (.phys pa)) :
    (writeTags s₀ s t).mem = s.mem.write pa (sampledEntry s₀ t fr (s.mem.read pa 32)) := by
  simp only [writeTags, hf, hd, hw, hh, Bool.false_eq_true, if_false]
  exact (writePiece_cachesOnly _ _ _ rfl _).mem

theorem length_sampledEntry (old : List Byte) : (sampledEntry s t fr old).length = 32 := length_leBytes ..

theorem returned_walk (va : Nat) : walk (returned f s t fr rest) ((returned f s t fr rest).partOf t) va = walk s (s.partOf t) va := by
  obtain ⟨hmem, hparts, hunits⟩ := returned_places (f := f) (s := s) (t := t) (fr := fr) (rest := rest)
  simp only [walk, State.part, State.partOf, State.unit, hmem, hparts, hunits]

/-- Where a byte of a page lies depends on memory and on the partitions. -/
theorem homeOf_congr {s s' : State} (hmem : s'.mem = s.mem) (hparts : s'.parts = s.parts) (part va : Nat) (l : Leaf) :
    homeOf s' part va l = homeOf s part va l := by
  have hregion : readRegion s' part l = readRegion s part l := by
    simp only [readRegion, State.part, hmem, hparts] <;> rfl
  simp only [homeOf, State.part, hregion, hparts]

theorem returned_homeOf (va : Nat) (l : Leaf) :
    homeOf (returned f s t fr rest) ((returned f s t fr rest).partOf t) va l = homeOf s (s.partOf t) va l := by
  obtain ⟨hmem, hparts, hunits⟩ := returned_places (f := f) (s := s) (t := t) (fr := fr) (rest := rest)
  have hpart : (returned f s t fr rest).partOf t = s.partOf t := by simp only [State.partOf, State.unit, hunits]
  rw [hpart, homeOf_congr hmem hparts]

end

theorem retvChargesReturnsAndTags : Rule.RetvChargesReturnsAndTags := by
  intro f s t fr rest h hf hd
  obtain ⟨hbudget, hpc, hkept⟩ := runGroup_budget (eff := fun _ _ => .go (returnEff s t fr rest)) (ds := []) (ps := []) (us := []) (bs := [])
    h.toIssues rfl (by simp)
  rw [← returned_eq_runGroup h] at hbudget hpc hkept
  obtain ⟨g, hthread⟩ := writeTags_thread s (returned f s t fr rest) t
  have hb : ((writeTags s (returned f s t fr rest) t).thread t).budget = callerBudget s t fr rest :=
    (congrArg Thread.budget hthread).trans hbudget
  have hall := hb
  simp only [Thread.budget, callerBudget, Budget.mk.injEq] at hall
  obtain ⟨hbt, hbe, hbq, -, -, hframes⟩ := hall
  refine ⟨_, exec_retv h hf hd, (congrArg Thread.pc hthread).trans hpc, hframes, hbt, hbe, hbq, ?_, fun hdist b => ?_, fun hdist l pa hw hh => ?_⟩
  · rw [hb, hthread, ← hbudget]
    exact hkept.setWriteG g
  · rw [writeTags_disturbed hf hdist, returned_places.1]
  · have hmem := writeTags_mem (s := returned f s t fr rest) hf hdist ((returned_walk _).trans hw) ((returned_homeOf _ _).trans hh)
    rw [returned_places.1] at hmem
    rw [hmem]
    refine ⟨Memory.read_write .., fun b hout => Memory.get_write_out _ _ _ _ ?_⟩
    rwa [length_sampledEntry]

/-- Settles O14: a CALLV is the sending of its table read, whose landing enters the first entry of least rank, or the fallback, under the limits
passed; a RETV is a jump with the caller's budgets charged, after which its entry takes the sample. -/
theorem variantCalls : Obligations.VariantCalls := ⟨callvReadsItsTable, variantsAreSelectedAndEntered, retvChargesReturnsAndTags⟩

end Sys2Proof.Machine
end

section
/-! O17: record instructions out of bounds, and their traps at issue (R231, R233, R235, R289, R293, R295, R296). -/

namespace Sys2Proof.Machine

/-- An effect without an access that neither ends its thread nor checks for records leaves the accesses in flight. -/
theorem applyEff_unsent {f : Fields} {s : State} {t : Nat} {e : Eff} (l : Label) (full first early : Bool) (hx : e.exits = false)
    (hc : e.check = false) (ha : e.accesses = []) : (applyEff f l full first early t s e).accesses = s.accesses := by
  rw [applyEff, e.close_accesses _ _ _ _ hx hc, Eff.leave, ha]
  exact congrArg Prod.fst (e.act_sending full first t s)

section
variable {m : MemOp} {f : Fields} {s : State} {t n : Nat}

/-- The register that a lane out of bounds writes zero into, where its form returns a value; else none. -/
def zeroDest (m : MemOp) (f : Fields) : Opnd := if returns m then f.d else .imm 0

/-- The field that names the existence predicate, if the form has one. -/
def existDest (m : MemOp) (f : Fields) : Opnd := if m.kind == .ldx then f.c else if m.kind == .stx then f.d else .v 0

/-- The predicates that a lane out of bounds writes: p6 first, then the existence predicate. -/
def oobPreds (m : MemOp) (f : Fields) : List (Nat × Bool) := (if hasBp f then [(6, true)] else []) ++ destPred (existDest m f) false

theorem zeroDest_writes (l : Label) : wrTy f.ty (zeroDest m f) 0 l = if returns m then wrTy f.ty f.d 0 l else [] := by
  simp only [zeroDest]
  split
  · rfl
  · rw [wrTy]
    split <;> rfl

theorem existFalse_eq (l : Label) : existFalse m f l = predWrs l (destPred (existDest m f) false) := by
  rw [← wrPred_eq, existFalse, existDest]
  repeat' split
  all_goals rfl

theorem bpWrite_eq (b : Bool) (l : Label) : bpWrite f b l = predWrs l (if hasBp f then [(6, b)] else []) := by
  rw [bpWrite]
  split <;> rfl

/-- The existence predicate that the form makes pending is the one named by its field, unless that is pt. -/
theorem mem_existIx : n ∈ existIx m f ↔ destPred (existDest m f) false = [(n, false)] ∧ n < 7 := by
  change n ∈ (match existDest m f with
    | .k n => modPred (n.toNat - 64)
    | _ => []) ↔ _
  cases existDest m f with
  | k k =>
    simp only [destPred, modPred]
    split <;> simp <;> omega
  | _ => simp [destPred]

/-- What a record instruction out of bounds of a record without the trap bit does for a thread. -/
def zeroEff (m : MemOp) (f : Fields) (s : State) (t : Nat) : Eff :=
  resultPredsEff f.ty (zeroDest m f) 0 (labelOf s m.op f t) (oobPreds m f) none

theorem oobEff_of_noTrap (h : (recOf s t f.a).trap = false) : oobEff s m f t = .go (zeroEff m f s t) := by
  simp only [oobEff, h, ← zeroDest_writes, bpWrite_eq, existFalse_eq, zeroEff, resultPredsEff, oobPreds, predWrs, List.map_append,
    List.append_assoc, Bool.false_and, Bool.false_eq_true, if_false]

theorem memEff_outOfBounds (hbad : (recOf s t f.a).bad = false) (hq : sfqBlocks s m t = false) (ho : oobOf s m f t = true)
    (htrap : (recOf s t f.a).trap = false) : memEff m f s t = .go (zeroEff m f s t) := by
  simp only [memEff, hbad, hq, ho, oobEff_of_noTrap htrap, Bool.false_eq_true, if_false, if_true]

/-- A thread that issues alone, as a group whose every thread has its effect. -/
theorem runMem_eq_runGroup_go {e : Eff} (h : Alone s m.op f (bpPreds f) [] t) (he : memEff m f s t = .go e) :
    runMem m f s = runGroup m.op f (bpPreds f) [] (fun _ _ => .go e) s :=
  (runGroup_go_alone h he).trans (runGroup_go_alone h rfl).symm

section
variable (h : Alone s m.op f (bpPreds f) [] t) (he : memEff m f s t = .go (zeroEff m f s t))
include h he

theorem runMem_zero_accesses : (runMem m f s).accesses = s.accesses := by
  rw [runMem, runGroup_go_alone h he]
  exact applyEff_unsent _ _ _ _ rfl rfl rfl

theorem runMem_zero_result (hret : returns m = true) : ResultTy (runMem m f s) t f.ty f.d 0 := by
  obtain ⟨u, -, -, -, -, hv, -⟩ := runGroup_resultPreds_result (eff := fun _ _ => .go (zeroEff m f s t)) (val := fun _ => 0) h.toIssues
    (fun _ => rfl)
  rw [runMem_eq_runGroup_go h he]
  simpa only [zeroDest, hret, if_true] using hv

/-- The last of the predicates written stays. -/
theorem runMem_zero_pred {b : Bool} {qs₁ qs₂ : List (Nat × Bool)} (hp : oobPreds m f = qs₁ ++ (n, b) :: qs₂) (hn : n ∉ qs₂.map Prod.fst) :
    PredIs (runMem m f s) t n b := by
  rw [runMem_eq_runGroup_go h he]
  exact runGroup_resultPreds_pred (eff := fun _ _ => .go (zeroEff m f s t)) (val := fun _ => 0) (ps := fun _ => oobPreds m f) h.toIssues
    (fun _ => rfl) hp hn

theorem runMem_zero_bp (hbp : hasBp f = true) (h6 : 6 ∉ existIx m f) : PredIs (runMem m f s) t 6 true := by
  refine runMem_zero_pred h he (qs₁ := []) (qs₂ := destPred (existDest m f) false) (by simp only [oobPreds, hbp, if_true]; rfl) (fun hm => h6 ?_)
  rw [mem_existIx]
  cases hd : existDest m f with
  | k k =>
    rw [hd] at hm
    obtain hk : 6 = k.toNat - 64 := List.mem_singleton.1 hm
    exact ⟨by rw [destPred, ← hk], by omega⟩
  | _ => simp [hd, destPred] at hm

theorem runMem_zero_exist (hn : n ∈ existIx m f) : PredIs (runMem m f s) t n false :=
  runMem_zero_pred h he (qs₁ := if hasBp f then [(6, true)] else []) (qs₂ := []) (by rw [oobPreds, (mem_existIx.1 hn).1]) (by simp)

end
end

theorem outOfBoundsLanesReadZero : Rule.OutOfBoundsLanesReadZero := fun x hx f s _ h hbad hq ho htrap =>
  have he := memEff_outOfBounds hbad hq ho htrap
  ⟨_, exec_memForms x hx f s, runMem_zero_accesses h he, runMem_zero_result h he, runMem_zero_bp h he, fun _ => runMem_zero_exist h he,
    (runGroup_moved h.toIssues he rfl rfl).pc, fun a => by rw [runMem, runGroup_mem]⟩

theorem recordAndAlignmentTraps : Rule.RecordAndAlignmentTraps := by
  intro x hx f s t pc h hh hi
  have trapped : ∀ kind, memEff x.2 f s t = .trap kind 0 false → ∃ s', exec (x.1 f) s = .next s' ∧ Trapped s s' t kind s.pc 0 pc := by
    intro kind he
    refine ⟨_, exec_memForms x hx f s, ?_⟩
    rw [runMem, runGroup_trap_alone h he]
    exact issueTrap_trapped h.ready hh hi
  refine ⟨fun hbad => trapped 12 ?_, fun hbad hq ho hm => trapped 14 ?_⟩
  · rw [memEff, if_pos hbad]
  · simp only [memEff, hbad, hq, ho, hm, Bool.false_eq_true, if_false, if_true]

/-- Settles O17: out of bounds a record instruction is one effect of its thread, a zero and its predicates; the tests before it are traps. -/
theorem memoryTraps : Obligations.MemoryTraps := ⟨outOfBoundsLanesReadZero, recordAndAlignmentTraps⟩

end Sys2Proof.Machine
end

section
/-! O18: BRMAKE, BRSET and BRGET (R230, R302, R303). -/

namespace Sys2Proof.Machine

section
variable {op : Nat} {f : Fields} {preds regs : List Nat} {eff : State → Nat → Res} {s : State} {t n : Nat} {v : BitVec 128} {l : Label}

/-- The effect of an instruction that writes one record. -/
def recordEff (n : Nat) (v : BitVec 128) (l : Label) : Eff := { writes := [.rcd n v l] }

theorem recordEff_onThread (n : Nat) (v : BitVec 128) (l : Label) (x : Thread) : Kept x ((recordEff n v l).onThread x) [] [] := by
  simp only [recordEff, Eff.onThread, Eff.changed, List.foldl_cons, List.foldl_nil, Wr.onThread]
  exact ⟨fun _ _ => ⟨rfl, rfl⟩, fun _ _ => ⟨rfl, rfl⟩, rfl, rfl, ⟨rfl, rfl, rfl, rfl⟩, rfl⟩

/-- What a thread that issues alone leaves where its effect writes nothing but records. -/
theorem runGroup_alone_untouched {e : Eff} {bs : List Nat} (h : Alone s op f preds regs t) (he : eff s t = .go e) (hx : e.exits = false)
    (hc : e.check = false) (hp : e.part = none) (hw : ∀ w ∈ e.writes, w.within [] [] [] bs)
    (hk : Kept (s.thread t) (e.onThread (s.thread t)) [] []) : Untouched s (runGroup op f preds regs eff s) t [] [] [] bs where
  thread := hk.trans (runGroup_moved h.toIssues he hx hc).kept
  threads u hu := Kept.of_body (runGroup_outside _ _ _ _ _ _ hu)
  gangs g := by
    rw [(runGroup_go_alone h he).trans (runGroup_go_alone (eff := fun _ _ => .go e) h rfl).symm]
    exact runGroup_gangKept (fun u e' hu => by obtain rfl := Res.go.inj hu; exact ⟨hw, hp⟩) g
  memory a := by rw [runGroup_mem]

/-- An instruction of a thread that issues alone and writes one record. -/
theorem runGroup_record (h : Alone s op f preds regs t) (he : eff s t = .go (recordEff n v l)) :
    tabGetD 0 ((runGroup op f preds regs eff s).gang (gangOf t)).brecs n = v ∧ ((runGroup op f preds regs eff s).thread t).pc = nextPc s.pc ∧
      Untouched s (runGroup op f preds regs eff s) t [] [] [] [n] := by
  refine ⟨?_, (runGroup_moved h.toIssues he rfl rfl).pc, runGroup_alone_untouched h he rfl rfl rfl (fun w hw => ?_) ?_⟩
  · rw [runGroup_go_alone h he]
    have hown := applyEff_own f (labelOf s op f t) (fullGang s (gangOf t) [t]) (isFirst (earlyWriters [(t, some (.go (recordEff n v l)))]) t)
      ((earlyWriters [(t, some (.go (recordEff n v l)))]).any (fun u => gangOf u == gangOf t)) t s (recordEff n v l) (gangOf t)
    rw [if_pos rfl] at hown
    refine (congrArg (fun x : Gang.Own => tabGetD 0 x.brecs n) hown).trans ?_
    simp [Eff.onOwn, recordEff, Wr.onOwn]
  · simp only [recordEff, List.mem_singleton] at hw
    simp only [hw, Wr.within, List.mem_singleton]
  · exact recordEff_onThread ..

end

section
variable {f : Fields} {s : State} {t : Nat}

theorem recWrite_eq {o : Opnd} (r : Rec) (l : Label) (h : ¬ (recIx o = 31 ∧ (s.thread t).inTrap = true)) :
    recWrite s t o r l = [.rcd (recIx o) r.toBits l] := by
  rw [recWrite, if_neg]
  simpa using h

/-! BRMAKE. -/

theorem brmakeEff_of_swizzle (h : f.bits 4 3 ≠ 3) (hd : ¬ (recIx f.d = 31 ∧ (s.thread t).inTrap = true)) :
    brmakeEff f s t = .go (recordEff (recIx f.d) (brmake s t f).toBits (labelOf s 0x240 f t)) := by
  rw [brmakeEff, if_neg h, recWrite_eq _ _ hd]
  rfl

/-- The read of a page's geometry (R302). -/
def brmakeRead (f : Fields) (s : State) (t : Nat) : Access :=
  { kind := .recPage, thread := t, group := 0, pc := s.pc, op := 0x240, f := f, addr := (brmake s t f).base, width := 1,
    label := labelOf s 0x240 f t, aux := (brmake s t f).toBits.toNat, inTrap := (s.thread t).inTrap }

theorem brmakeEff_of_page (h : f.bits 4 3 = 3) (ha : Alone s 0x240 f [] [] t) :
    brmakeEff f s t = .go (sendEff [] [] [] (brmakeRead f s t) (some (.landing s.issue.serial))) := by
  simp only [brmakeEff, if_pos h, isLeader_alone ha, if_true]
  rfl

theorem exec_brmake (f : Fields) (s : State) : exec (.brmake f) s = .next (runGroup 0x240 f [] [] (brmakeEff f) s) := rfl

theorem brmakeBuildsARecord : Rule.BrmakeBuildsARecord := by
  intro f s t h hd
  refine ⟨fun hsw => ⟨_, exec_brmake f s, ?_⟩, fun hpg => ⟨_, exec_brmake f s, ?_⟩⟩
  · obtain ⟨hrec, hpc, hu⟩ := runGroup_record h (brmakeEff_of_swizzle hsw hd)
    refine ⟨hrec.trans ?_, hpc, hu⟩
    simp only [brmake, if_neg hsw]
  · have he := brmakeEff_of_page hpg h
    have hrun := runGroup_go_alone h he
    refine ⟨⟨brmakeRead f s t, ?_, rfl, rfl⟩, ?_, (runGroup_moved h.toIssues he rfl rfl).pc,
      runGroup_alone_untouched h he rfl rfl rfl (fun w hw => by cases hw) (sendEff_onThread [] [] [] _ _ _)⟩
    · rw [hrun]
      exact applyEff_sends _ _ _ _ rfl rfl rfl
    · rw [hrun]
      exact applyEff_waits _ _ _ _ h.ready rfl rfl rfl

/-! BRSET. -/

/-- The effect of BRSET on a thread. -/
def brsetEff (f : Fields) (s : State) (t : Nat) : Res :=
  .go { writes := recWrite s t f.d (brset (recOf s t f.d) (f.bits 0 3) (brsetValue s t f)) (labelOf s 0x241 f t) }

theorem exec_brset (f : Fields) (s : State) : exec (.brset f) s = .next (runGroup 0x241 f [] [] (brsetEff f) s) := rfl

theorem brsetEff_eq (hd : ¬ (recIx f.d = 31 ∧ (s.thread t).inTrap = true)) : brsetEff f s t =
    .go (recordEff (recIx f.d) (brset (recOf s t f.d) (f.bits 0 3) (brsetValue s t f)).toBits (labelOf s 0x241 f t)) := by
  rw [brsetEff, recWrite_eq _ _ hd]
  rfl

theorem brsetPatchesOneField : Rule.BrsetPatchesOneField := by
  intro f s t h hd
  obtain ⟨hrec, hpc, hu⟩ := runGroup_record (v := (brset (recOf s t f.d) (f.bits 0 3) (brsetValue s t f)).toBits) h (brsetEff_eq hd)
  refine ⟨_, exec_brset f s, hrec.trans (congrArg Rec.toBits ?_), hpc, hu⟩
  rw [brsetValue]
  generalize read64 s t f.a = y
  generalize read32 s t f.a = x
  have hx : (x.setWidth 64).toNat = x.toNat := BitVec.toNat_setWidth_of_le (by decide)
  have hlo : DWord.lo (x.setWidth 64) = x := by simp [DWord.lo]
  have hbit : (x.setWidth 64).getLsbD 0 = (x.toNat % 2 == 1) := by
    rw [BitVec.getLsbD, hx, Nat.testBit_zero]
    rfl
  generalize f.bits 0 3 = n
  match n with
  | 0 => simp only [brset, if_true]
  | 1 => simp only [brset, if_neg Nat.one_ne_zero, hx, Nat.mod_eq_of_lt x.isLt]
  | 2 | 3 | 4 => simp only [brset, if_false, OfNat.ofNat_ne_zero, hx]
  | 5 => simp only [brset, if_false, OfNat.ofNat_ne_zero, hbit]
  | n + 6 => simp only [brset, if_false, hlo, Nat.add_eq_zero_iff, and_false, OfNat.ofNat_ne_zero]

/-! BRGET. -/

theorem brgetForm_run : brgetForm.Runs := by
  refine .of_writes (fun _ _ => rfl) (fun _ => rfl) (fun f s t => ?_)
  by_cases h : f.bits 0 3 = 0
  · simp only [brgetForm, h]
    rfl
  · simp only [if_neg h, brgetForm]
    exact wr32_ofNat _ _ _

end

/-- Settles O18: BRMAKE and BRSET write one record, BRMAKE under .PG sends one access, and BRGET has one result. -/
theorem bufferRecords : Obligations.BufferRecords := ⟨brmakeBuildsARecord, brsetPatchesOneField, brgetForm_run.completes⟩

end Sys2Proof.Machine
end

section
/-! SUPPORT. The control area of a partition's ring: its words and its slots, as a status or a word is written (R241, R242). -/

namespace Sys2Proof.Machine

/-! Numbers as bytes. -/

theorem leNat_leBytes (n x : Nat) : leNat (leBytes n x) = x % 256 ^ n := by
  induction n generalizing x with
  | zero => rw [pow_zero, Nat.mod_one]; rfl
  | succ n ih =>
    have hb : (BitVec.ofNat 8 (x % 256)).toNat = x % 256 := by rw [BitVec.toNat_ofNat]; omega
    rw [leBytes, leNat, ih, hb, pow_succ', Nat.mod_mul]

theorem leNat_lt (bs : List Byte) : leNat bs < 256 ^ bs.length := by
  induction bs with
  | nil => exact Nat.one_pos
  | cons b bs ih =>
    have := b.isLt
    rw [leNat, List.length_cons, pow_succ']
    omega

theorem fieldAt_lt (bs : List Byte) (o n : Nat) : fieldAt bs o n < 256 ^ n :=
  (leNat_lt _).trans_le (Nat.pow_le_pow_right (by omega) (List.length_take_le _ _))

theorem Memory.length_read (m : Memory) (a n : Nat) : (m.read a n).length = n := by
  rw [Memory.read, List.length_map, List.length_range]

/-- Bytes outside a write are read as before. -/
theorem Memory.read_write_out (m : Memory) {a b n : Nat} {bs : List Byte} (h : b + n ≤ a ∨ a + bs.length ≤ b) :
    (m.write a bs).read b n = m.read b n :=
  List.map_congr_left fun i hi => Memory.get_write_out _ _ _ _ (by have := List.mem_range.1 hi; omega)

/-! Words of the control area, and a slot's status. -/

section
variable (x : Partition)

/-- The two status bytes of a slot. -/
def Partition.statusOf (slot : Nat) : List Byte := Memory.read x.ring (slotOffset slot + 2) 2

theorem Partition.ringWord_setRing {o : Nat} (v : Nat) : (x.setRing o (leBytes 4 v)).ringWord o = v % 2 ^ 32 := by
  have h := Memory.read_write x.ring o (leBytes 4 v)
  rw [length_leBytes] at h
  rw [Partition.ringWord, Partition.setRing, h, leNat_leBytes, show 256 ^ 4 = 2 ^ 32 from rfl]

theorem Partition.ringWord_setRing_out {o o' : Nat} {bs : List Byte} (h : o' + 4 ≤ o ∨ o + bs.length ≤ o') :
    (x.setRing o bs).ringWord o' = x.ringWord o' := by
  rw [Partition.ringWord, Partition.setRing, Memory.read_write_out _ h, Partition.ringWord]

theorem Partition.head_setStatus (slot status reason : Nat) : (x.setStatus slot status reason).head = x.head :=
  x.ringWord_setRing_out (.inl (by rw [slotOffset]; omega))

theorem Partition.statusOf_setStatus (slot status reason : Nat) :
    (x.setStatus slot status reason).statusOf slot = [BitVec.ofNat 8 status, BitVec.ofNat 8 reason] :=
  Memory.read_write x.ring (slotOffset slot + 2) [BitVec.ofNat 8 status, BitVec.ofNat 8 reason]

theorem Partition.head_advanceHead : x.advanceHead.head = (x.head + 1) % 2 ^ 32 := by
  rw [Partition.head, Partition.advanceHead]
  exact (x.ringWord_setRing _).trans (Nat.mod_mod _ _)

theorem Partition.statusOf_advanceHead (slot : Nat) : x.advanceHead.statusOf slot = x.statusOf slot :=
  Memory.read_write_out _ (.inr (by rw [length_leBytes, slotOffset]; omega))

theorem Partition.ringError_setRingError (e : Nat) : (x.setRingError e).ringError = e % 2 ^ 32 := x.ringWord_setRing e

/-- A status written for the head's record, past which the head then goes. -/
theorem Partition.passed (status reason : Nat) : ((x.setStatus x.ringSlot status reason).advanceHead).statusOf x.ringSlot =
      [BitVec.ofNat 8 status, BitVec.ofNat 8 reason] ∧ ((x.setStatus x.ringSlot status reason).advanceHead).head = (x.head + 1) % 2 ^ 32 :=
  ⟨(Partition.statusOf_advanceHead _ _).trans (x.statusOf_setStatus ..), by rw [Partition.head_advanceHead, Partition.head_setStatus]⟩

end

end Sys2Proof.Machine
end

section
/-! SUPPORT. Page tables as their writers leave them: an entry written is read back, a path is found again, and a frame takes its leaf's label
(R237, R238, R243, R277). -/

namespace Sys2Proof.Machine

section
variable {s s' : State} {p : Nat}

@[simp] theorem State.part_modPart (s : State) (p q : Nat) (g : Partition → Partition) :
    (s.modPart p g).part q = if q = p then g (s.part p) else s.part q := by rw [State.modPart_eq, State.part_setPart]

/-! What the writers leave of their partition. -/

/-- A partition apart from what the service of a request may change with a page: the next table, the frames' labels, and the notices. -/
def Partition.apart (x : Partition) : Partition := { x with nextTable := 0, frameLabels := [], notices := [], resends := [] }

theorem State.part_of_tabGet {x : Partition} (h : tabGet s.parts p = some x) : s.part p = x := by rw [State.part, tabGetD, h]; rfl

theorem Partition.first_of_apart {x y : Partition} (h : x.apart = y.apart) : x.first = y.first := congrArg (fun z => z.first) h

theorem Partition.shooting_of_apart {x y : Partition} (h : x.apart = y.apart) : x.shooting = y.shooting := congrArg (fun z => z.shooting) h

theorem Partition.ringSlot_of_apart {x y : Partition} (h : x.apart = y.apart) : x.ringSlot = y.ringSlot := congrArg (fun z => z.ringSlot) h

theorem Partition.phys_of_apart {x y : Partition} (h : x.apart = y.apart) (a : Nat) : x.phys a = y.phys a := by
  rw [Partition.phys, Partition.phys, Partition.first_of_apart h]

theorem State.modPart_apart (s : State) (p : Nat) {g : Partition → Partition} (h : ∀ x, (g x).apart = x.apart) :
    ((s.modPart p g).part p).apart = (s.part p).apart := by rw [State.part_modPart, if_pos rfl, h]

theorem foldl_apart {α : Type} {F : State → α → State} (h : ∀ s a, ((F s a).part p).apart = (s.part p).apart) (l : List α) (s : State) :
    ((l.foldl F s).part p).apart = (s.part p).apart := foldl_keeps _ (fun s => (State.part s p).apart) _ _ fun s a _ => h s a

theorem allocTable_apart (s : State) (p level : Nat) : ((allocTable s p level).2.part p).apart = (s.part p).apart :=
  s.modPart_apart p fun _ => rfl

/-- A path keeps what new tables and written entries keep. -/
theorem pathTo_keeps {β : Type} (v : State → β) (hw : ∀ s table va level e, v (writeEntry s p table va level e) = v s)
    (ha : ∀ s level, v (allocTable s p level).2 = v s) (va level n table : Nat) (s : State) : v (pathTo p va level n table s).2 = v s := by
  induction n generalizing table s with
  | zero => rfl
  | succ n ih =>
    rw [pathTo]
    split
    · rfl
    · dsimp only
      split
      · exact ih _ _
      · exact (ih _ _).trans ((hw ..).trans (ha ..))

theorem putEntry_apart (s : State) (p level va e : Nat) : ((putEntry s p level va e).part p).apart = (s.part p).apart :=
  pathTo_keeps (fun s => (s.part p).apart) (fun _ _ _ _ _ => rfl) (fun s level => allocTable_apart s p level) va level 4 tableBase s

@[simp] theorem setEntry_part (s : State) (p q level va e : Nat) : (setEntry s p level va e).part q = s.part q := by
  rw [setEntry]
  split <;> rfl

theorem forgetNotice_apart (s : State) (p va : Nat) : ((forgetNotice s p va).part p).apart = (s.part p).apart := s.modPart_apart p fun _ => rfl

/-! Entries. -/

theorem entryAddr_of_apart {x y : Partition} (h : x.apart = y.apart) (table va level : Nat) :
    entryAddr x table va level = entryAddr y table va level := by
  rw [entryAddr, entryAddr, Partition.phys_of_apart h]

theorem readEntry_congr (hm : s'.mem = s.mem) (hp : (s'.part p).apart = (s.part p).apart) (table va level : Nat) :
    readEntry s' p table va level = readEntry s p table va level := by
  rw [readEntry, readEntry, hm, entryAddr_of_apart hp]

theorem readEntry_lt (s : State) (p table va level : Nat) : readEntry s p table va level < 2 ^ 64 := by
  have h := leNat_lt (s.mem.read (entryAddr (s.part p) table va level) 8)
  rwa [Memory.length_read] at h

/-- An entry written is read back. -/
theorem readEntry_writeEntry (s : State) (p table va level : Nat) {e : Nat} (he : e < 2 ^ 64) :
    readEntry (writeEntry s p table va level e) p table va level = e := by
  have h := Memory.read_write s.mem (entryAddr (s.part p) table va level) (leBytes 8 e)
  rw [length_leBytes] at h
  exact (congrArg leNat h).trans ((leNat_leBytes 8 e).trans (Nat.mod_eq_of_lt he))

/-- An entry put with its path is read back from the table at the path's end. -/
theorem readEntry_putEntry (s : State) (p level va : Nat) {e : Nat} (he : e < 2 ^ 64) :
    readEntry (putEntry s p level va e) p (tableOf s p va level) va level = e := readEntry_writeEntry _ _ _ _ _ he

/-! Paths and walks depend on memory and on the partition's place. -/

/-- What a path is made from. -/
def State.tables (s : State) (p : Nat) : Memory × Nat × Nat := (s.mem, (s.part p).first, (s.part p).nextTable)

theorem State.tables_eq : s'.tables p = s.tables p ↔ s'.mem = s.mem ∧ (s'.part p).first = (s.part p).first ∧
    (s'.part p).nextTable = (s.part p).nextTable := by simp only [State.tables, Prod.mk.injEq]

theorem readEntry_tables (h : s'.tables p = s.tables p) (table va level : Nat) : readEntry s' p table va level = readEntry s p table va level := by
  obtain ⟨hm, hf, -⟩ := State.tables_eq.1 h
  simp only [readEntry, entryAddr, Partition.phys, hm, hf]

theorem allocTable_tables (h : s'.tables p = s.tables p) (level : Nat) :
    (allocTable s' p level).1 = (allocTable s p level).1 ∧ (allocTable s' p level).2.tables p = (allocTable s p level).2.tables p := by
  obtain ⟨hm, hf, hn⟩ := State.tables_eq.1 h
  simp only [allocTable, State.tables, State.modPart_mem, State.part_modPart, if_true, hm, hf, hn, and_self]

theorem writeEntry_tables (h : s'.tables p = s.tables p) (table va level e : Nat) :
    (writeEntry s' p table va level e).tables p = (writeEntry s p table va level e).tables p := by
  obtain ⟨hm, hf, hn⟩ := State.tables_eq.1 h
  simp only [State.tables, writeEntry, State.setMem_mem, State.part_setMem, entryAddr, Partition.phys, hm, hf, hn]

theorem pathTo_tables (p va level n table : Nat) {s s' : State} (h : s'.tables p = s.tables p) :
    (pathTo p va level n table s').1 = (pathTo p va level n table s).1 := by
  induction n generalizing table s s' with
  | zero => rfl
  | succ n ih =>
    obtain ⟨ht, hs⟩ := allocTable_tables h n
    simp only [pathTo, readEntry_tables h, ht]
    split
    · rfl
    · split
      · exact ih _ h
      · exact ih _ (writeEntry_tables hs ..)

theorem tableOf_tables (h : s'.tables p = s.tables p) (va level : Nat) : tableOf s' p va level = tableOf s p va level :=
  pathTo_tables p va level 4 tableBase h

/-- The entry of a table for an address, in memory. -/
def entryIn (m : Memory) (x : Partition) (table va level : Nat) : Nat := leNat (m.read (entryAddr x table va level) 8)

theorem entryIn_congr {x y : Partition} (h : x.first = y.first) (m : Memory) (table va level : Nat) :
    entryIn m x table va level = entryIn m y table va level := by
  rw [entryIn, entryIn, entryAddr, entryAddr, Partition.phys, Partition.phys, h]

theorem walkFrom_zero (m : Memory) (x : Partition) (table va : Nat) : walkFrom m x 0 table va =
    if entryIn m x table va 0 % 2 = 0 then .absent ((entryIn m x table va 0).testBit 1) 0
    else if (entryIn m x table va 0).testBit 1 then
      if badLeaf (entryIn m x table va 0) 0 then .malformed else .leaf (leafOf (entryIn m x table va 0) 0)
    else .malformed := rfl

theorem walkFrom_succ (m : Memory) (x : Partition) (n table va : Nat) : walkFrom m x (n + 1) table va =
    if entryIn m x table va (n + 1) % 2 = 0 then .absent ((entryIn m x table va (n + 1)).testBit 1) (n + 1)
    else if (entryIn m x table va (n + 1)).testBit 1 then
      if badLeaf (entryIn m x table va (n + 1)) (n + 1) then .malformed else .leaf (leafOf (entryIn m x table va (n + 1)) (n + 1))
    else if entryIn m x table va (n + 1) / 4 % 2 ^ 5 != 0 || entryIn m x table va (n + 1) / 2 ^ 40 != 0 then .malformed
    else walkFrom m x n (pointerOf (entryIn m x table va (n + 1))) va := rfl

theorem meetsFrom_zero (m : Memory) (x : Partition) (level va table : Nat) : meetsFrom m x level va 0 table =
    if entryIn m x table va 0 % 2 = 0 then .nothing
    else if (entryIn m x table va 0).testBit 1 then if 0 = level then .same else .other
    else if 0 = level then .nothing else .nothing := rfl

theorem meetsFrom_succ (m : Memory) (x : Partition) (level va n table : Nat) : meetsFrom m x level va (n + 1) table =
    if entryIn m x table va (n + 1) % 2 = 0 then .nothing
    else if (entryIn m x table va (n + 1)).testBit 1 then if n + 1 = level then .same else .other
    else if n + 1 = level then
      if (leavesUnder m x n (pointerOf (entryIn m x table va (n + 1))) va).isEmpty then .nothing else .other
    else meetsFrom m x level va n (pointerOf (entryIn m x table va (n + 1))) := rfl

theorem walkFrom_congr {x y : Partition} (h : x.first = y.first) (m : Memory) (n table va : Nat) :
    walkFrom m x n table va = walkFrom m y n table va := by
  induction n generalizing table with
  | zero => rw [walkFrom_zero, walkFrom_zero, entryIn_congr h]
  | succ n ih => rw [walkFrom_succ, walkFrom_succ, entryIn_congr h, ih]

theorem presentLeaf_tables (h : s'.tables p = s.tables p) (level va : Nat) : presentLeaf s' p level va = presentLeaf s p level va := by
  obtain ⟨hm, hf, -⟩ := State.tables_eq.1 h
  simp only [presentLeaf, walk, hm, walkFrom_congr hf]

theorem leavesUnder_congr {x y : Partition} (h : x.first = y.first) (m : Memory) (n table va : Nat) :
    leavesUnder m x n table va = leavesUnder m y n table va := by
  have hp : x.phys = y.phys := by funext a; rw [Partition.phys, Partition.phys, h]
  induction n generalizing table va with
  | zero => rw [leavesUnder, leavesUnder, hp]
  | succ n ih =>
    rw [leavesUnder, leavesUnder, hp]
    simp only [ih]

theorem meetsFrom_congr {x y : Partition} (h : x.first = y.first) (m : Memory) (level va n table : Nat) :
    meetsFrom m x level va n table = meetsFrom m y level va n table := by
  induction n generalizing table with
  | zero => rw [meetsFrom_zero, meetsFrom_zero, entryIn_congr h]
  | succ n ih => rw [meetsFrom_succ, meetsFrom_succ, entryIn_congr h, ih, leavesUnder_congr h]

theorem meetsPage_tables (h : s'.tables p = s.tables p) (level va : Nat) : meetsPage s' p level va = meetsPage s p level va := by
  obtain ⟨hm, hf, -⟩ := State.tables_eq.1 h
  simp only [meetsPage, hm, meetsFrom_congr hf]

/-- A walk of the lowest table that ends at a leaf has found a valid leaf entry there. -/
theorem walkFrom_zero_leaf {m : Memory} {x : Partition} {table va : Nat} {l : Leaf} (h : walkFrom m x 0 table va = .leaf l) :
    entryIn m x table va 0 % 2 ≠ 0 ∧ (entryIn m x table va 0).testBit 1 = true ∧ l.level = 0 := by
  rw [walkFrom_zero] at h
  generalize entryIn m x table va 0 = e at h ⊢
  split at h
  · cases h
  · rename_i hv
    split at h
    · rename_i hb
      split at h
      · cases h
      · exact ⟨hv, hb, Walk.leaf.inj h ▸ rfl⟩
    · cases h

/-- A walk of a higher table that ends at a leaf has found it there or in the table below. -/
theorem walkFrom_succ_leaf {m : Memory} {x : Partition} {n table va : Nat} {l : Leaf} (h : walkFrom m x (n + 1) table va = .leaf l) :
    entryIn m x table va (n + 1) % 2 ≠ 0 ∧
      ((entryIn m x table va (n + 1)).testBit 1 = true ∧ l.level = n + 1 ∨ (entryIn m x table va (n + 1)).testBit 1 = false ∧
        walkFrom m x n (pointerOf (entryIn m x table va (n + 1))) va = .leaf l) := by
  rw [walkFrom_succ] at h
  generalize entryIn m x table va (n + 1) = e at h ⊢
  split at h
  · cases h
  · rename_i hv
    split at h
    · rename_i hb
      split at h
      · cases h
      · exact ⟨hv, .inl ⟨hb, Walk.leaf.inj h ▸ rfl⟩⟩
    · rename_i hb
      split at h
      · cases h
      · exact ⟨hv, .inr ⟨Bool.eq_false_of_not_eq_true hb, h⟩⟩

/-- A leaf that a walk finds stands at a level that the walk has come to. -/
theorem walkFrom_level_le {m : Memory} {x : Partition} {n table va : Nat} {l : Leaf} (h : walkFrom m x n table va = .leaf l) : l.level ≤ n := by
  induction n generalizing table with
  | zero => exact (walkFrom_zero_leaf h).2.2.le
  | succ n ih =>
    obtain ⟨-, ⟨-, hl⟩ | ⟨-, hw⟩⟩ := walkFrom_succ_leaf h
    · exact hl.le
    · exact (ih hw).trans (Nat.le_succ n)

/-- A page whose walk finds a leaf of its level meets that leaf. -/
theorem meetsFrom_of_leaf {m : Memory} {x : Partition} {n table va : Nat} {l : Leaf} (h : walkFrom m x n table va = .leaf l) :
    meetsFrom m x l.level va n table = .same := by
  induction n generalizing table with
  | zero =>
    obtain ⟨hv, hb, hl⟩ := walkFrom_zero_leaf h
    rw [meetsFrom_zero, if_neg hv, if_pos hb, if_pos hl.symm]
  | succ n ih =>
    obtain ⟨hv, ⟨hb, hl⟩ | ⟨hb, hw⟩⟩ := walkFrom_succ_leaf h
    · rw [meetsFrom_succ, if_neg hv, if_pos hb, if_pos hl.symm]
    · have hl := walkFrom_level_le hw
      rw [meetsFrom_succ, if_neg hv, if_neg (by rw [hb]; exact Bool.false_ne_true), if_neg (by omega), ih hw]

theorem meetsPage_of_presentLeaf {level va : Nat} {l : Leaf} (h : presentLeaf s p level va = some l) : meetsPage s p level va = .same := by
  obtain ⟨hw, hl⟩ : walk s p va = .leaf l ∧ l.level = level := by
    rw [presentLeaf] at h
    cases hw : walk s p va with
    | leaf l' =>
      simp only [hw, Option.ite_none_right_eq_some, Option.some.injEq] at h
      exact ⟨by rw [h.2], h.2 ▸ h.1⟩
    | absent b k => simp only [hw, reduceCtorEq] at h
    | malformed => simp only [hw, reduceCtorEq] at h
  rw [meetsPage, ← hl]
  rw [walk] at hw
  exact meetsFrom_of_leaf hw

end
end Sys2Proof.Machine
end

section
/-! SUPPORT. Frames brought under a leaf's label, pages changed by a request, and what a service leaves of the ring (R242, R243, R250, R268, R277). -/

namespace Sys2Proof.Machine

section
variable {s s' : State} {p : Nat}

/-! Frames and their labels. -/

theorem Label.or_of_subset {a b : Label} (h : Label.subset a b = true) : a ||| b = b := by
  rw [Label.subset, beq_iff_eq] at h
  exact BitVec.eq_of_getLsbD_eq fun i hi => by
    have hb := congrArg (fun x : Label => x.getLsbD i) h
    simp only [BitVec.getLsbD_and] at hb
    rw [BitVec.getLsbD_or]
    cases ha : a.getLsbD i <;> simp_all

theorem frameLabel_congr (h : (s'.part p).frameLabels = (s.part p).frameLabels) (f : Nat) : frameLabel s' p f = frameLabel s p f := by
  rw [frameLabel, frameLabel, h]

theorem frameLabel_setFrameLabel (s : State) (p f g : Nat) (l : Label) :
    frameLabel (s.setFrameLabel p f l) p g = if g = f then l else frameLabel s p g := by
  rw [frameLabel, State.setFrameLabel, State.part_modPart, if_pos rfl, tabGetD_set, frameLabel]

theorem relabelFrame_apart (p : Nat) (l : Label) (s : State) (f : Nat) : ((relabelFrame p l s f).part p).apart = (s.part p).apart := by
  rw [relabelFrame]
  split <;> exact State.modPart_apart _ p fun _ => rfl

theorem relabelFrame_label (p : Nat) (l : Label) (s : State) (f g : Nat) :
    frameLabel (relabelFrame p l s f) p g = if g = f then l else frameLabel s p g := by
  rw [relabelFrame]
  split
  · rename_i h
    rw [frameLabel_setFrameLabel, Label.or_of_subset h]
  · rw [frameLabel_setFrameLabel]
    rfl

/-- A frame keeps its bytes where its label is within the leaf's, and reads zero otherwise. -/
theorem relabelFrame_get (p : Nat) (l : Label) (s : State) (f a : Nat) : (relabelFrame p l s f).mem.get a =
    if Label.subset (frameLabel s p f) l = false ∧ (s.part p).phys (4096 * f) ≤ a ∧ a < (s.part p).phys (4096 * f) + 4096 then 0
    else s.mem.get a := by
  rw [relabelFrame]
  split
  · rename_i h
    rw [if_neg (by rw [h]; exact fun hc => absurd hc.1 Bool.noConfusion)]
    rfl
  · rename_i h
    have hget := Memory.get_clear s.mem ((s.part p).phys (4096 * f)) 4096 a
    simp only [Bool.eq_false_of_not_eq_true h, true_and]
    exact hget

theorem relabelFrames_label (p : Nat) (l : Label) (fs : List Nat) (s : State) (g : Nat) :
    frameLabel (fs.foldl (relabelFrame p l) s) p g = if g ∈ fs then l else frameLabel s p g := by
  induction fs generalizing s with
  | nil => rw [List.foldl_nil, if_neg List.not_mem_nil]
  | cons f fs ih =>
    rw [List.foldl_cons, ih, relabelFrame_label]
    simp only [List.mem_cons]
    split <;> simp_all

/-- A byte outside the frames stays. -/
theorem relabelFrames_get_out (p : Nat) (l : Label) (fs : List Nat) (s : State) {a : Nat}
    (h : ∀ f ∈ fs, a < (s.part p).phys (4096 * f) ∨ (s.part p).phys (4096 * f) + 4096 ≤ a) :
    (fs.foldl (relabelFrame p l) s).mem.get a = s.mem.get a := by
  induction fs generalizing s with
  | nil => rfl
  | cons f fs ih =>
    have hf := h f (by simp)
    rw [List.foldl_cons, ih _ fun g hg => by
      rw [Partition.phys_of_apart (relabelFrame_apart p l s f)]
      exact h g (by simp [hg]), relabelFrame_get, if_neg (by omega)]

/-- A byte that reads zero is not written again. -/
theorem relabelFrames_get_zero (p : Nat) (l : Label) (fs : List Nat) (s : State) {a : Nat} (h : s.mem.get a = 0) :
    (fs.foldl (relabelFrame p l) s).mem.get a = 0 := by
  induction fs generalizing s with
  | nil => exact h
  | cons f fs ih =>
    refine ih _ ?_
    rw [relabelFrame_get, h, ite_self]

/-- A frame whose label is not within the leaf's reads zero. -/
theorem relabelFrames_get_in (p : Nat) (l : Label) (fs : List Nat) (s : State) {f o : Nat} (hf : f ∈ fs) (ho : o < 4096)
    (hl : Label.subset (frameLabel s p f) l = false) : (fs.foldl (relabelFrame p l) s).mem.get ((s.part p).phys (4096 * f) + o) = 0 := by
  induction fs generalizing s with
  | nil => cases hf
  | cons g fs ih =>
    rw [List.foldl_cons]
    by_cases hg : f = g
    · subst hg
      refine relabelFrames_get_zero p l fs _ ?_
      rw [relabelFrame_get, if_pos ⟨hl, by omega, by omega⟩]
    · have h := ih (relabelFrame p l s g) ((List.mem_cons.1 hf).resolve_left hg) (by rwa [relabelFrame_label, if_neg hg])
      rwa [Partition.phys_of_apart (relabelFrame_apart p l s g)] at h

/-! A leaf mapped. -/

theorem allocTable_frameLabels (s : State) (p level : Nat) : ((allocTable s p level).2.part p).frameLabels = (s.part p).frameLabels := by
  rw [allocTable, State.part_modPart, if_pos rfl]

theorem frameLabel_putEntry (s : State) (p level va e f : Nat) : frameLabel (putEntry s p level va e) p f = frameLabel s p f :=
  frameLabel_congr (pathTo_keeps (fun s => (s.part p).frameLabels) (fun _ _ _ _ _ => rfl) (fun s level => allocTable_frameLabels s p level) va level 4
    tableBase s) f

theorem mapLeaf_apart (s : State) (p va level e : Nat) : ((mapLeaf s p va level e).part p).apart = (s.part p).apart :=
  (foldl_apart (relabelFrame_apart p (leafOf e level).label) _ _).trans (putEntry_apart s p level va e)

theorem leafFrames_congr {l : Leaf} (h : l.cls ≠ 1) : leafFrames s' p l = leafFrames s p l := by
  rw [leafFrames, leafFrames, if_neg h, if_neg h]

section
variable {va level e : Nat} (hc : (leafOf e level).cls ≠ 1)
include hc

/-- Each frame that a mapped leaf names carries its label; one that had another label reads zero. -/
theorem mapLeaf_frames {f : Nat} (hf : f ∈ leafFrames s p (leafOf e level)) :
    frameLabel (mapLeaf s p va level e) p f = (leafOf e level).label ∧
      (Label.subset (frameLabel s p f) (leafOf e level).label = false → ∀ o, o < 4096 →
        (mapLeaf s p va level e).mem.get ((s.part p).phys (4096 * f) + o) = 0) := by
  rw [← leafFrames_congr (s' := putEntry s p level va e) hc] at hf
  refine ⟨(relabelFrames_label ..).trans (if_pos hf), fun hl o ho => ?_⟩
  rw [← Partition.phys_of_apart (putEntry_apart s p level va e)]
  refine relabelFrames_get_in p _ _ (putEntry s p level va e) hf ho ?_
  rwa [frameLabel_putEntry]

/-- A mapped leaf's entry is read back where no frame of the leaf holds it. -/
theorem readEntry_mapLeaf (he : e < 2 ^ 64) (hout : ∀ f ∈ leafFrames s p (leafOf e level),
      (s.part p).phys (4096 * f) + 4096 ≤ entryAddr (s.part p) (tableOf s p va level) va level ∨
      entryAddr (s.part p) (tableOf s p va level) va level + 8 ≤ (s.part p).phys (4096 * f)) :
    readEntry (mapLeaf s p va level e) p (tableOf s p va level) va level = e := by
  refine Eq.trans ?_ (readEntry_putEntry s p level va he)
  rw [readEntry, readEntry, entryAddr_of_apart (mapLeaf_apart s p va level e), entryAddr_of_apart (putEntry_apart s p level va e)]
  refine congrArg leNat (List.map_congr_left fun i hi => relabelFrames_get_out p _ _ _ fun f hf => ?_)
  rw [leafFrames_congr (s := s) hc] at hf
  have hi := List.mem_range.1 hi
  have h := hout f hf
  rw [Partition.phys_of_apart (putEntry_apart s p level va e)]
  omega

end

/-! Permissions. -/

theorem replaceBits_eq (n lo len v : Nat) :
    replaceBits n lo len v = 2 ^ lo * (2 ^ len * (n / 2 ^ lo / 2 ^ len) + v % 2 ^ len) + n % 2 ^ lo := by
  have hlo := Nat.div_add_mod n (2 ^ lo)
  have hlen := Nat.div_add_mod (n / 2 ^ lo) (2 ^ len)
  rw [replaceBits]
  generalize n / 2 ^ lo % 2 ^ len = field at *
  have hn : n = 2 ^ lo * (2 ^ len * (n / 2 ^ lo / 2 ^ len)) + n % 2 ^ lo + field * 2 ^ lo := by
    rw [Nat.mul_comm field, Nat.add_right_comm, ← Nat.mul_add, hlen, hlo]
  rw [Nat.mul_add, Nat.mul_comm (v % 2 ^ len)]
  omega

/-- A field replaced: its own bits are the new ones, the others stay. -/
theorem testBit_replaceBits (n lo len v i : Nat) : (replaceBits n lo len v).testBit i =
    if lo ≤ i ∧ i < lo + len then v.testBit (i - lo) else n.testBit i := by
  rw [replaceBits_eq, Nat.testBit_two_pow_mul_add _ (Nat.mod_lt _ (Nat.two_pow_pos lo)),
    Nat.testBit_two_pow_mul_add _ (Nat.mod_lt _ (Nat.two_pow_pos len)), Nat.testBit_mod_two_pow, Nat.testBit_mod_two_pow,
    Nat.testBit_div_two_pow, Nat.testBit_div_two_pow]
  by_cases hlo : i < lo
  · rw [if_pos hlo, if_neg (by omega), decide_eq_true hlo, Bool.true_and]
  · rw [if_neg hlo]
    by_cases hlen : i - lo < len
    · rw [if_pos hlen, if_pos (by omega), decide_eq_true hlen, Bool.true_and]
    · rw [if_neg hlen, if_neg (by omega)]
      congr 1
      omega

theorem replaceBits_lt {n lo len v k : Nat} (h : n < 2 ^ k) (hk : lo + len ≤ k) : replaceBits n lo len v < 2 ^ k := by
  refine Nat.lt_pow_two_of_testBit _ fun i hi => ?_
  rw [testBit_replaceBits, if_neg (by omega)]
  exact Nat.testBit_lt_two_pow (h.trans_le (Nat.pow_le_pow_right (by omega) hi))

/-! Pages of one record. -/

theorem Request.pages_one {r : Request} (h : r.count = 1) : r.pages = [r.addr] := by
  rw [Request.pages, h]
  simp

theorem Request.bytes_one {r : Request} (h : r.count = 1) : r.bytes = pageSize r.level := by rw [Request.bytes, h, Nat.one_mul]

/-- Noting what must be announced again changes no more of a partition than those times. -/
theorem noteResends_keeps {β : Type} (v : State → β)
    (h : ∀ (s : State) (a b : Nat), v (s.modPart p (fun x => { x with resends := tabPut x.resends a b })) = v s)
    (s : State) (r : Request) : v (noteResends s p r) = v s := by
  refine foldl_keeps _ v _ _ fun s va _ => ?_
  split
  · exact h ..
  · rfl

theorem noteResends_tables (s : State) (p : Nat) (r : Request) : (noteResends s p r).tables p = s.tables p :=
  noteResends_keeps (fun s => s.tables p) (fun s a b => by simp only [State.tables, State.modPart_mem, State.part_modPart, if_true]) s r

theorem noteResends_apart (s : State) (p : Nat) (r : Request) : ((noteResends s p r).part p).apart = (s.part p).apart :=
  noteResends_keeps (fun s => (s.part p).apart) (fun s _ _ => s.modPart_apart p fun _ => rfl) s r

theorem evictPage_apart (p level : Nat) (s : State) (va : Nat) : ((evictPage p level s va).part p).apart = (s.part p).apart := by
  rw [evictPage]
  split
  · rfl
  · split
    · rfl
    · exact (forgetNotice_apart ..).trans (putEntry_apart ..)
  · exact putEntry_apart ..

theorem readEntry_forgetNotice (s : State) (p va table a level : Nat) :
    readEntry (forgetNotice s p va) p table a level = readEntry s p table a level :=
  readEntry_congr (forgetNotice_mem ..) (forgetNotice_apart ..) ..

/-- A page of plain memory, or one that no leaf maps, becomes host-resident. -/
theorem readEntry_evictPage {level va : Nat} (hm : meetsPage s p level va ≠ .other) (hc : ∀ l, presentLeaf s p level va = some l → l.cls = 0) :
    readEntry (evictPage p level s va) p (tableOf s p va level) va level = 2 := by
  have hput := readEntry_putEntry s p level va (e := 2) (by decide)
  have hany : ¬ (presentLeaf s p level va).any (fun l => l.cls != 0) = true := by
    cases hl : presentLeaf s p level va with
    | none => exact Bool.false_ne_true
    | some l => simp [hc l hl]
  rw [evictPage]
  split
  · exact absurd ‹_› hm
  · rw [if_neg hany, readEntry_forgetNotice, hput]
  · exact hput

/-- A page of another class stays. -/
theorem evictPage_of_class {level va : Nat} {l : Leaf} (h : presentLeaf s p level va = some l) (hc : l.cls ≠ 0) : evictPage p level s va = s := by
  have hany : (presentLeaf s p level va).any (fun l => l.cls != 0) = true := by simp [h, hc]
  simp only [evictPage, meetsPage_of_presentLeaf h, hany, if_true]

end
end Sys2Proof.Machine
end

section
/-! O48: the request ring (R242 to R244, R249, R250, R268, R277). -/

namespace Sys2Proof.Machine

section
variable {s m : State} {p : Nat} {x : Partition} {r : Request}

/-! The record at the head. -/

theorem refuseRequest_refused (h : tabGet s.parts p = some x) (reason : Nat) : RequestRefused (refuseRequest s p reason) p x reason := by
  have hpart : (refuseRequest s p reason).part p = (x.setStatus x.ringSlot 2 reason).advanceHead := by
    rw [refuseRequest, State.part_modPart, if_pos rfl, State.part_of_tabGet h]
  obtain ⟨hstatus, hhead⟩ := x.passed 2 reason
  rw [RequestRefused, hpart]
  exact ⟨hstatus, hhead, rfl⟩

theorem Partition.takes_iff : x.takes = true ↔ x.overrun = false ∧ x.ringError = 0 ∧ x.tail ≠ x.head ∧
    x.shooting.all (fun z => x.held.any (fun h => h.slot == z.1)) = true := by
  simp only [Partition.takes, Bool.and_eq_true, Bool.not_eq_true', beq_iff_eq, bne_iff_ne, and_assoc]

theorem Partition.overrun_iff : x.overrun = true ↔
    2047 < (x.tail + 2 ^ 32 - x.ringBase) % 2 ^ 32 ∨ 2047 < (x.tail + 2 ^ 32 - x.head) % 2 ^ 32 := by
  rw [Partition.overrun, Bool.or_eq_true]
  exact or_congr decide_eq_true_iff decide_eq_true_iff

theorem requestOf_eq_some {op : Nat} (h : tabGet s.parts p = some x) (ht : x.takes = true) (hop : x.nextRequest.op = op) :
    requestOf s p op = some x.nextRequest := by
  simp only [requestOf, State.part_of_tabGet h, h, ht, hop, Option.isSome_some, Bool.and_self, decide_true, if_true]

theorem serve_of_refused {op k : Nat} (act : State → Request → State) (h : tabGet s.parts p = some x) (ht : x.takes = true)
    (hop : x.nextRequest.op = op) (hk : requestReason s p x.nextRequest = some k) : serve p op act s = refuseRequest s p k := by
  simp only [serve, requestOf_eq_some h ht hop, hk]

theorem serve_of_taken {op : Nat} (act : State → Request → State) (h : RequestTaken s p x op) : serve p op act s = act s x.nextRequest := by
  simp only [serve, requestOf_eq_some h.part h.takes h.op, h.good]

theorem exec_ringForms : ∀ y ∈ ringForms, ∃ act : State → Request → State, ∀ s, exec (y.1 p) s = .next (serve p y.2 act s) := by
  simp only [ringForms, List.forall_mem_cons, List.not_mem_nil, false_imp_iff, implies_true, and_true]
  exact ⟨⟨mapRequest p, fun _ => rfl⟩, ⟨unmapRequest p, fun _ => rfl⟩, ⟨protectRequest p, fun _ => rfl⟩, ⟨evictRequest p, fun _ => rfl⟩⟩

theorem evict_mem_ringForms : (Instr.evict, 4) ∈ ringForms :=
  List.mem_cons_of_mem _ (List.mem_cons_of_mem _ (List.mem_cons_of_mem _ (List.mem_singleton_self _)))

theorem exec_ringTailCheck (p : Nat) (s : State) : exec (.ringTailCheck p) s = .next (checkTail s p) := rfl

/-- A refusal by the check that a served record meets. -/
theorem exec_ringForms_refused {y : (Nat → Instr) × Nat} (hy : y ∈ ringForms) {k : Nat} (h : tabGet s.parts p = some x) (ht : x.takes = true)
    (hop : x.nextRequest.op = y.2) (hk : requestReason s p x.nextRequest = some k) :
    ∃ s', exec (y.1 p) s = .next s' ∧ RequestRefused s' p x k ∧ s'.mem = s.mem := by
  obtain ⟨act, hact⟩ := exec_ringForms (p := p) y hy
  refine ⟨_, hact s, ?_⟩
  rw [serve_of_refused act h ht hop hk]
  exact ⟨refuseRequest_refused h k, refuseRequest_mem ..⟩

theorem checkTail_of_part (h : tabGet s.parts p = some x) : checkTail s p =
    if x.overrun then s.modPart p (Partition.setRingError · 1)
    else if x.ringError != 0 then if x.tailWritten then s.modPart p (Partition.setRingError · 0) else s
    else if x.takes && (x.nextRequest.op = 0 || 4 < x.nextRequest.op) then refuseRequest s p 1
    else s := by
  simp only [checkTail, State.part_of_tabGet h, h, Option.isNone_some, Bool.false_eq_true, if_false]

/-- The ring error is the one that the tail check writes. -/
theorem ringError_written (s : State) (p : Nat) {e : Nat} (he : e < 2 ^ 32) :
    ((s.modPart p (Partition.setRingError · e)).part p).ringError = e := by
  rw [State.part_modPart, if_pos rfl, Partition.ringError_setRingError, Nat.mod_eq_of_lt he]

/-- A class-1 leaf in the range of an EVICT is the first reason. -/
theorem requestReason_of_region {va : Nat} {l : Leaf} (hop : r.op = 4) (hva : va ∈ r.pages) (hl : presentLeaf s p r.level va = some l)
    (hc : l.cls = 1) : requestReason s p r = some 1 := by
  have he : evictsRegion s p r = true := by
    simp only [evictsRegion, hop, BEq.rfl, Bool.true_and, List.any_eq_true]
    exact ⟨va, hva, by rw [hl, Option.any_some, hc]; rfl⟩
  rw [requestReason, he, Bool.or_true, if_pos rfl]

theorem ringHeadIsChecked (h : tabGet s.parts p = some x) :
    (2047 < (x.tail + 2 ^ 32 - x.ringBase) % 2 ^ 32 ∨ 2047 < (x.tail + 2 ^ 32 - x.head) % 2 ^ 32 → x.overrun = true) ∧
    (x.overrun = true → x.takes = false ∧ ∃ s', exec (.ringTailCheck p) s = .next s' ∧ (s'.part p).ringError = 1 ∧ s'.mem = s.mem) ∧
    (x.overrun = false → x.ringError ≠ 0 → x.tailWritten = true →
      ∃ s', exec (.ringTailCheck p) s = .next s' ∧ (s'.part p).ringError = 0 ∧ s'.mem = s.mem) ∧
    (x.overrun = false → x.ringError ≠ 0 → x.tailWritten = false → exec (.ringTailCheck p) s = .next s) ∧
    (x.takes = true → x.nextRequest.op = 0 ∨ 4 < x.nextRequest.op → ∃ s', exec (.ringTailCheck p) s = .next s' ∧
      RequestRefused s' p x 1 ∧ s'.mem = s.mem) := by
  refine ⟨Partition.overrun_iff.2, fun ho => ⟨?_, ?_⟩, fun ho he hw => ?_, fun ho he hw => ?_, fun ht hop => ?_⟩
  · exact Bool.eq_false_iff.2 fun ht => by rw [(Partition.takes_iff.1 ht).1] at ho; cases ho
  · exact ⟨_, exec_ringTailCheck p s, by rw [checkTail_of_part h, if_pos ho, ringError_written s p (by decide)], checkTail_mem ..⟩
  · refine ⟨_, exec_ringTailCheck p s, ?_, checkTail_mem ..⟩
    rw [checkTail_of_part h, ho, if_neg Bool.false_ne_true, if_pos (bne_iff_ne.2 he), if_pos hw, ringError_written s p (by decide)]
  · rw [exec_ringTailCheck, checkTail_of_part h, ho, if_neg Bool.false_ne_true, if_pos (bne_iff_ne.2 he), hw, if_neg Bool.false_ne_true]
  · obtain ⟨ho, he, -⟩ := Partition.takes_iff.1 ht
    have hcheck : checkTail s p = refuseRequest s p 1 := by
      have hbad : (decide (x.nextRequest.op = 0) || decide (4 < x.nextRequest.op)) = true := by simpa using hop
      simp only [checkTail_of_part h, ho, he, ht, hbad, bne_self_eq_false, Bool.false_eq_true, if_false, Bool.and_self, if_true]
    exact ⟨_, exec_ringTailCheck p s, by rw [hcheck]; exact refuseRequest_refused h 1, checkTail_mem ..⟩

/-! The shoot-down that a record starts. -/

theorem startShoot_shooting (hm : (m.part p).apart = (s.part p).apart) (slot : Nat) (r : Request) :
    ((startShoot m p slot r).part p).shooting = (s.part p).shooting ++ [(slot, r.addr, r.bytes)] := by
  rw [startShoot, State.part_modPart, if_pos rfl, ← Partition.shooting_of_apart hm]

/-- A record of one page done by a change of pages waits for its shoot-down. -/
theorem startShoot_taken (h : tabGet s.parts p = some x) (hm : (m.part p).apart = (s.part p).apart) (r : Request) :
    ((startShoot m p (m.part p).ringSlot r).part p).shooting = x.shooting ++ [(x.ringSlot, r.addr, r.bytes)] := by
  rw [startShoot_shooting hm, Partition.ringSlot_of_apart hm, State.part_of_tabGet h]

theorem readEntry_startShoot (m : State) (p slot : Nat) (r : Request) (table va level : Nat) :
    readEntry (startShoot m p slot r) p table va level = readEntry m p table va level :=
  readEntry_tables (by simp only [startShoot, State.tables, State.modPart_mem, State.part_modPart, if_true]) ..

theorem nextRequest_entry_lt (x : Partition) : x.nextRequest.entry < 2 ^ 64 := fieldAt_lt _ _ 8

/-! MAP, UNMAP and PROTECT of one page. -/

/-- The page of a MAP of one page. -/
def mappedPage (s : State) (p : Nat) (r : Request) : State := forgetNotice (mapLeaf s p r.addr r.level r.entry) p r.addr

theorem mapRequest_one (h1 : r.count = 1) (hc : (leafOf r.entry r.level).cls ≠ 1) :
    mapRequest p s r = startShoot (mappedPage s p r) p ((mappedPage s p r).part p).ringSlot r := by
  have hleaf : r.leaf 0 = r.entry := by rw [Request.leaf, if_neg hc, Nat.zero_mul, Nat.zero_mul, Nat.add_zero]
  simp only [mapRequest, h1, List.range_one, List.foldl_cons, List.foldl_nil, hleaf, Nat.zero_mul, Nat.add_zero, mappedPage]

theorem mappedPage_apart (s : State) (p : Nat) (r : Request) : ((mappedPage s p r).part p).apart = (s.part p).apart :=
  (forgetNotice_apart ..).trans (mapLeaf_apart ..)

theorem frameLabel_mapRequest (h1 : r.count = 1) (hc : (leafOf r.entry r.level).cls ≠ 1) (f : Nat) :
    frameLabel (mapRequest p s r) p f = frameLabel (mapLeaf s p r.addr r.level r.entry) p f := by
  rw [mapRequest_one h1 hc]
  refine frameLabel_congr ?_ f
  simp only [startShoot, mappedPage, forgetNotice, State.part_modPart, if_true]

theorem mapRequest_mem_one (h1 : r.count = 1) (hc : (leafOf r.entry r.level).cls ≠ 1) :
    (mapRequest p s r).mem = (mapLeaf s p r.addr r.level r.entry).mem := by
  rw [mapRequest_one h1 hc, startShoot_mem, mappedPage, forgetNotice_mem]

theorem pageIsMapped {l : Leaf} (h : RequestTaken s p x 1) (hr : r = x.nextRequest) (h1 : r.count = 1) (hl : l = leafOf r.entry r.level)
    (hc : l.cls ≠ 1) (hout : ∀ f ∈ leafFrames s p l, x.phys (4096 * f) + 4096 ≤ entryAddr x (tableOf s p r.addr r.level) r.addr r.level ∨
      entryAddr x (tableOf s p r.addr r.level) r.addr r.level + 8 ≤ x.phys (4096 * f)) :
    ∃ s', exec (.mapPages p) s = .next s' ∧ readEntry s' p (tableOf s p r.addr r.level) r.addr r.level = r.entry ∧
      (∀ f ∈ leafFrames s p l, frameLabel s' p f = l.label ∧
        (Label.subset (frameLabel s p f) l.label = false → ∀ o, o < 4096 → s'.mem.get (x.phys (4096 * f) + o) = 0)) ∧
      (s'.part p).shooting = x.shooting ++ [(x.ringSlot, r.addr, r.bytes)] := by
  have hexec : exec (.mapPages p) s = .next (mapRequest p s r) := by
    rw [hr, ← serve_of_taken (mapRequest p) h]
    rfl
  have he : r.entry < 2 ^ 64 := hr ▸ nextRequest_entry_lt x
  subst hl
  rw [← State.part_of_tabGet h.part] at hout ⊢
  refine ⟨_, hexec, ?_, fun f hf => ?_, ?_⟩
  · rw [mapRequest_one h1 hc, readEntry_startShoot, mappedPage, readEntry_forgetNotice, readEntry_mapLeaf hc he hout]
  · rw [frameLabel_mapRequest h1 hc, mapRequest_mem_one h1 hc]
    exact mapLeaf_frames hc hf
  · rw [mapRequest_one h1 hc]
    exact startShoot_taken (State.part_of_tabGet h.part ▸ h.part) (mappedPage_apart s p r) r

/-- The page of an UNMAP of one page. -/
def unmappedPage (s : State) (p : Nat) (r : Request) : State := forgetNotice (setEntry s p r.level r.addr 0) p r.addr

theorem unmapRequest_one (h1 : r.count = 1) :
    unmapRequest p s r = startShoot (unmappedPage s p r) p ((unmappedPage s p r).part p).ringSlot r := by
  simp only [unmapRequest, Request.pages_one h1, List.foldl_cons, List.foldl_nil, unmappedPage]

theorem unmappedPage_apart (s : State) (p : Nat) (r : Request) : ((unmappedPage s p r).part p).apart = (s.part p).apart :=
  (forgetNotice_apart ..).trans (by rw [setEntry_part])

theorem pageIsUnmapped (h : RequestTaken s p x 2) (hr : r = x.nextRequest) (h1 : r.count = 1) : ∃ s', exec (.unmapPages p) s = .next s' ∧
    (s'.part p).shooting = x.shooting ++ [(x.ringSlot, r.addr, r.bytes)] ∧
    (∀ t, findTable s p r.addr r.level 4 tableBase = some t → readEntry s' p t r.addr r.level = 0) ∧
    (findTable s p r.addr r.level 4 tableBase = none → s'.mem = s.mem) := by
  have hexec : exec (.unmapPages p) s = .next (unmapRequest p s r) := by
    rw [hr, ← serve_of_taken (unmapRequest p) h]
    rfl
  rw [unmapRequest_one h1] at hexec
  refine ⟨_, hexec, startShoot_taken h.part (unmappedPage_apart s p r) r, fun t ht => ?_, fun hn => ?_⟩
  · rw [readEntry_startShoot, unmappedPage, readEntry_forgetNotice, setEntry, ht]
    exact readEntry_writeEntry s p t r.addr r.level (by decide)
  · rw [startShoot_mem, unmappedPage, forgetNotice_mem, setEntry, hn]

theorem protectPage_apart (p level perms : Nat) (s : State) (va : Nat) : ((protectPage p level perms s va).part p).apart = (s.part p).apart := by
  rw [protectPage]
  split
  · rfl
  · dsimp only
    split <;> rfl

theorem protectRequest_one (h1 : r.count = 1) : protectRequest p s r = startShoot (protectPage p r.level (r.entry / 4 % 8) s r.addr) p
    ((protectPage p r.level (r.entry / 4 % 8) s r.addr).part p).ringSlot r := by
  simp only [protectRequest, Request.pages_one h1, List.foldl_cons, List.foldl_nil]

/-- The permission bits of a record's entry. -/
theorem testBit_permissions (e : Nat) {i : Nat} (h2 : 2 ≤ i) (h5 : i < 5) : (e / 4 % 8).testBit (i - 2) = e.testBit i := by
  rw [show 8 = 2 ^ 3 from rfl, show 4 = 2 ^ 2 from rfl, Nat.testBit_mod_two_pow, Nat.testBit_div_two_pow, decide_eq_true (by omega),
    Bool.true_and, Nat.sub_add_cancel h2]

theorem pageIsProtected (h : RequestTaken s p x 3) (hr : r = x.nextRequest) (h1 : r.count = 1) : ∃ s', exec (.protect p) s = .next s' ∧
    (s'.part p).shooting = x.shooting ++ [(x.ringSlot, r.addr, r.bytes)] ∧
    (∀ t, findTable s p r.addr r.level 4 tableBase = some t → readEntry s p t r.addr r.level % 4 = 3 →
      ∀ i, (readEntry s' p t r.addr r.level).testBit i =
        if 2 ≤ i ∧ i < 5 then r.entry.testBit i else (readEntry s p t r.addr r.level).testBit i) ∧
    (findTable s p r.addr r.level 4 tableBase = none → s'.mem = s.mem) := by
  have hexec : exec (.protect p) s = .next (protectRequest p s r) := by
    rw [hr, ← serve_of_taken (protectRequest p) h]
    rfl
  rw [protectRequest_one h1] at hexec
  refine ⟨_, hexec, startShoot_taken h.part (protectPage_apart ..) r, fun t ht hpresent i => ?_, fun hn => ?_⟩
  · have hnew : readEntry (protectPage p r.level (r.entry / 4 % 8) s r.addr) p t r.addr r.level =
        replaceBits (readEntry s p t r.addr r.level) 2 3 (r.entry / 4 % 8) := by
      simp only [protectPage, ht, hpresent, if_true]
      exact readEntry_writeEntry s p t r.addr r.level (replaceBits_lt (readEntry_lt ..) (by decide))
    rw [readEntry_startShoot, hnew, testBit_replaceBits]
    split
    · rename_i hi
      exact testBit_permissions r.entry hi.1 hi.2
    · rfl
  · simp only [startShoot_mem, protectPage, hn]

/-! EVICT. -/

theorem evictRange_apart (s : State) (p : Nat) (r : Request) : ((evictRange s p r).part p).apart = (s.part p).apart :=
  foldl_apart (evictPage_apart p r.level) _ _

theorem evictRange_one (h1 : r.count = 1) : evictRange s p r = evictPage p r.level s r.addr := by
  rw [evictRange, Request.pages_one h1, List.foldl_cons, List.foldl_nil]

/-- The state of a performed EVICT before its shoot-down. -/
def evictedRange (s : State) (p : Nat) (r : Request) : State := evictRange (noteResends s p r) p r

theorem evictedRange_apart (s : State) (p : Nat) (r : Request) : ((evictedRange s p r).part p).apart = (s.part p).apart :=
  (evictRange_apart ..).trans (noteResends_apart ..)

/-- A performed EVICT of a page of plain memory, or of one that no leaf maps, leaves it host-resident. -/
theorem readEntry_evictedRange (h1 : r.count = 1) (hm : meetsPage s p r.level r.addr ≠ .other)
    (hc : ∀ l, presentLeaf s p r.level r.addr = some l → l.cls = 0) :
    readEntry (evictedRange s p r) p (tableOf s p r.addr r.level) r.addr r.level = 2 := by
  have ht := noteResends_tables s p r
  rw [evictedRange, evictRange_one h1, ← tableOf_tables ht]
  rw [← meetsPage_tables ht] at hm
  exact readEntry_evictPage hm fun l hl => hc l (presentLeaf_tables ht r.level r.addr ▸ hl)

theorem evictedRange_of_class {l : Leaf} (h1 : r.count = 1) (hl : presentLeaf s p r.level r.addr = some l) (hc : l.cls ≠ 0) :
    (evictedRange s p r).mem = s.mem := by
  rw [← presentLeaf_tables (noteResends_tables s p r)] at hl
  rw [evictedRange, evictRange_one h1, evictPage_of_class hl hc, noteResends_mem]

/-- No page of an EVICT that is taken lies under a leaf of another level (R242). -/
theorem meetsPage_of_taken (h : RequestTaken s p x 4) {va : Nat} (hva : va ∈ x.nextRequest.pages) :
    meetsPage s p x.nextRequest.level va ≠ .other := by
  intro ho
  have hany : (x.nextRequest.op != 1 && x.nextRequest.pages.any (fun va => meetsPage s p x.nextRequest.level va == .other)) = true := by
    rw [h.op, Bool.and_eq_true]
    exact ⟨rfl, List.any_eq_true.2 ⟨va, hva, beq_iff_eq.2 ho⟩⟩
  have hgood := h.good
  simp only [requestReason, hany, if_true] at hgood
  repeat' split at hgood
  all_goals cases hgood

theorem exec_evict_of_taken (h : RequestTaken s p x 4) : exec (.evict p) s = .next (evictRequest p s x.nextRequest) := by
  rw [← serve_of_taken (evictRequest p) h]
  rfl

/-- A partition whose head's EVICT has been taken and is held. -/
def Partition.holding (x : Partition) (r : Request) (time : Nat) : Partition :=
  { (x.setStatus x.ringSlot 3 0).advanceHead with
    held := x.held ++ [{ slot := x.ringSlot, addr := r.addr, count := r.count, level := r.level, since := time }] }

theorem evictRequest_of_mustHold (hh : mustHold s p r = true) :
    evictRequest p s r = (noteResends s p r).modPart p (Partition.holding · r s.time) := by
  rw [evictRequest, if_pos hh]
  rfl

theorem evictIsHeld (h : RequestTaken s p x 4) (hr : r = x.nextRequest) (hh : mustHold s p r = true) : ∃ s', exec (.evict p) s = .next s' ∧
    s'.mem = s.mem ∧ Memory.read (s'.part p).ring (slotOffset x.ringSlot + 2) 2 = [3#8, 0#8] ∧ (s'.part p).head = (x.head + 1) % 2 ^ 32 ∧
    (s'.part p).held = x.held ++ [{ slot := x.ringSlot, addr := r.addr, count := r.count, level := r.level, since := s.time }] := by
  have hexec := exec_evict_of_taken h
  rw [← hr, evictRequest_of_mustHold hh] at hexec
  have hpart := State.part_modPart (noteResends s p r) p p (Partition.holding · r s.time)
  rw [if_pos rfl] at hpart
  have happart := noteResends_apart s p r
  rw [State.part_of_tabGet h.part] at happart
  generalize (noteResends s p r).part p = y at hpart happart
  obtain ⟨hstatus, hhead⟩ := y.passed 3 0
  have hy : y.head = x.head := congrArg (fun z => z.head) happart
  have hheld : y.held = x.held := congrArg (fun z => z.held) happart
  have hslot := Partition.ringSlot_of_apart happart
  refine ⟨_, hexec, by rw [State.modPart_mem, noteResends_mem], ?_, ?_, ?_⟩
  · rw [hpart, ← hslot]
    exact hstatus
  · rw [hpart, ← hy]
    exact hhead
  · rw [hpart, ← hheld, ← hslot]
    rfl

theorem evictIsPerformed (h : RequestTaken s p x 4) (hr : r = x.nextRequest) (hh : mustHold s p r = false) (h1 : r.count = 1) :
    ∃ s', exec (.evict p) s = .next s' ∧ (s'.part p).shooting = x.shooting ++ [(x.ringSlot, r.addr, r.bytes)] ∧
      ((∀ l, presentLeaf s p r.level r.addr = some l → l.cls = 0) → readEntry s' p (tableOf s p r.addr r.level) r.addr r.level = 2) ∧
      (∀ l, presentLeaf s p r.level r.addr = some l → l.cls ≠ 0 → s'.mem = s.mem) := by
  have hexec : exec (.evict p) s = .next (startShoot (evictedRange s p r) p x.ringSlot r) := by
    rw [hr, exec_evict_of_taken h, evictRequest, ← hr, hh, if_neg Bool.false_ne_true, State.part_of_tabGet h.part]
    rfl
  have hm : meetsPage s p r.level r.addr ≠ .other := hr ▸ meetsPage_of_taken h (by rw [← hr, Request.pages_one h1]; exact List.mem_singleton_self _)
  refine ⟨_, hexec, ?_, fun hc => ?_, fun l hl hc => ?_⟩
  · rw [startShoot_shooting (evictedRange_apart s p r), State.part_of_tabGet h.part]
  · rw [readEntry_startShoot, readEntry_evictedRange h1 hm hc]
  · rw [startShoot_mem, evictedRange_of_class h1 hl hc]

theorem heldEvictIsPerformed {h : HeldEvict} (hn : nextHeld s = some (p, h)) (h1 : h.count = 1) (hm : meetsPage s p h.level h.addr ≠ .other)
    (hc : ∀ l, presentLeaf s p h.level h.addr = some l → l.cls = 0) : ∃ s', exec .evictHeldPerform s = .next s' ∧
    readEntry s' p (tableOf s p h.addr h.level) h.addr h.level = 2 ∧
    (s'.part p).shooting = (s.part p).shooting ++ [(h.slot, h.addr, pageSize h.level)] := by
  have hexec : exec .evictHeldPerform s = .next (startShoot (evictedRange s p h.request) p h.slot h.request) := by
    show execEvictHeldPerform s = _
    rw [execEvictHeldPerform, hn]
    rfl
  refine ⟨_, hexec, ?_, ?_⟩
  · rw [readEntry_startShoot]
    exact readEntry_evictedRange (r := h.request) h1 hm hc
  · rw [startShoot_shooting (evictedRange_apart s p h.request), Request.bytes_one (r := h.request) h1]
    rfl

theorem heldEvictIsReady {h : HeldEvict} (hp : s.parts = [(p, x)]) (hh : x.held = [h]) (hs : x.shooting = []) : nextHeld s = some (p, h) ↔
    (h.since + 600000 ≤ s.time ∨ inFlightOn s p h.addr (h.count * pageSize h.level) = false) := by
  have hx : s.part p = x := State.part_of_tabGet (by rw [hp, tabGet, if_pos rfl])
  have hready : heldReady s p h = true ↔ (h.since + 600000 ≤ s.time ∨ inFlightOn s p h.addr (h.count * pageSize h.level) = false) := by
    rw [heldReady, hx, hs, List.all_nil, Bool.true_and, Bool.or_eq_true, Bool.not_eq_true']
    exact or_congr decide_eq_true_iff Iff.rfl
  rw [← hready, nextHeld, hp]
  simp only [List.findSome?_cons, List.findSome?_nil, hh, List.find?_cons, List.find?_nil]
  cases heldReady s p h <;> simp

/-! The shoot-down. -/

/-- What a change gives every value, and the default has, a table changed where its keys meet a test has there. -/
theorem tabGetD_map_where_of {α : Type} {d : α} {has : Nat → Bool} {g : α → α} {P : α → Prop} (hd : P d) (hg : ∀ y, P (g y)) (t : Tab α) {i : Nat}
    (hi : has i = true) : P (tabGetD d (t.map (fun e => if has e.1 then (e.1, g e.2) else e)) i) := by
  rw [tabGetD, tabGet_map_where (fun i => has i = true) (fun _ => g)]
  simp only [hi, if_true]
  cases tabGet t i with
  | none => exact hd
  | some y => exact hg y

theorem tlbMeets_of_kept {va n : Nat} {l : List (Nat × DWord × Nat)} : ∀ e ∈ l.filter (fun e => !tlbMeets va n e), tlbMeets va n e = false :=
  fun e he => by simpa using (List.mem_filter.1 he).2

theorem flushTlb_core {c va n : Nat} (h : (s.part p).hasCore c = true) : ∀ e ∈ ((flushTlb s p va n).core c).tlb, tlbMeets va n e = false :=
  tabGetD_map_where_of (d := ({} : Core)) (g := fun y => { y with tlb := y.tlb.filter (fun e => !tlbMeets va n e) })
    (P := fun y => ∀ e ∈ y.tlb, tlbMeets va n e = false) (fun _ he => absurd he List.not_mem_nil) (fun _ => tlbMeets_of_kept) s.cores h

theorem flushTlb_slice {k va n : Nat} (h : (s.part p).hasSlice k = true) : ∀ e ∈ ((flushTlb s p va n).slice k).tlb, tlbMeets va n e = false :=
  tabGetD_map_where_of (d := ({} : Slice)) (g := fun y => { y with tlb := y.tlb.filter (fun e => !tlbMeets va n e) })
    (P := fun y => ∀ e ∈ y.tlb, tlbMeets va n e = false) (fun _ he => absurd he List.not_mem_nil) (fun _ => tlbMeets_of_kept) s.slices h

/-- A partition whose record in a slot every TLB has acknowledged. -/
def Partition.shotDown (x : Partition) (slot : Nat) : Partition :=
  let y := { x.setStatus slot 1 0 with shooting := x.shooting.filter (fun z => z.1 != slot) }
  if x.held.any (fun h => h.slot == slot) then { y with held := y.held.filter (fun h => h.slot != slot) } else y.advanceHead

theorem finishShoot_eq (s : State) (p slot va n : Nat) : finishShoot s p slot va n = (flushTlb s p va n).modPart p (Partition.shotDown · slot) := rfl

theorem Partition.shotDown_shooting (x : Partition) (slot : Nat) : (x.shotDown slot).shooting = x.shooting.filter (fun z => z.1 != slot) := by
  simp only [Partition.shotDown]
  split <;> rfl

theorem Partition.shotDown_status (x : Partition) (slot : Nat) : (x.shotDown slot).statusOf slot = [1#8, 0#8] := by
  simp only [Partition.shotDown]
  split
  · exact x.statusOf_setStatus slot 1 0
  · exact (Partition.statusOf_advanceHead _ _).trans (x.statusOf_setStatus slot 1 0)

theorem Partition.shotDown_head {slot : Nat} (h : x.held.any (fun h => h.slot == slot) = false) :
    (x.shotDown slot).head = (x.head + 1) % 2 ^ 32 := by
  simp only [Partition.shotDown, h, Bool.false_eq_true, if_false]
  rw [Partition.head_advanceHead]
  exact congrArg (fun k => (k + 1) % 2 ^ 32) (x.head_setStatus slot 1 0)

theorem Partition.shotDown_held {slot : Nat} (h : x.held.any (fun h => h.slot == slot) = true) :
    (x.shotDown slot).head = x.head ∧ (x.shotDown slot).held = x.held.filter (fun h => h.slot != slot) := by
  simp only [Partition.shotDown, h, if_true]
  exact ⟨x.head_setStatus slot 1 0, rfl⟩

theorem shootDownIsDone {slot va n : Nat} (hn : nextShoot s = some (p, slot, va, n)) (h : tabGet s.parts p = some x) :
    ∃ s', exec .shootDown s = .next s' ∧
      (s'.part p).shooting = x.shooting.filter (fun z => z.1 != slot) ∧ s'.mem = s.mem ∧
      (∀ c, x.hasCore c = true → ∀ e ∈ (s'.core c).tlb, tlbMeets va n e = false) ∧
      (∀ k, x.hasSlice k = true → ∀ e ∈ (s'.slice k).tlb, tlbMeets va n e = false) ∧
      Memory.read (s'.part p).ring (slotOffset slot + 2) 2 = [1#8, 0#8] ∧
      (x.held.any (fun h => h.slot == slot) = false → (s'.part p).head = (x.head + 1) % 2 ^ 32) ∧
      (x.held.any (fun h => h.slot == slot) = true → (s'.part p).head = x.head ∧
        (s'.part p).held = x.held.filter (fun h => h.slot != slot)) := by
  have hexec : exec .shootDown s = .next (finishShoot s p slot va n) := by
    show execShootDown s = _
    rw [execShootDown, hn]
  have hpart : (finishShoot s p slot va n).part p = x.shotDown slot := by
    rw [finishShoot_eq, State.part_modPart, if_pos rfl, ← State.part_of_tabGet h]
    rfl
  refine ⟨_, hexec, ?_, finishShoot_mem .., fun c hc => ?_, fun k hk => ?_, ?_, ?_, ?_⟩
  · rw [hpart, x.shotDown_shooting]
  · exact flushTlb_core (by rwa [State.part_of_tabGet h])
  · exact flushTlb_slice (by rwa [State.part_of_tabGet h])
  · rw [hpart]
    exact x.shotDown_status slot
  · rw [hpart]
    exact Partition.shotDown_head
  · rw [hpart]
    exact Partition.shotDown_held

theorem shootDownWaits {slot va n : Nat} {e : Nat × Access} {q : Nat × DWord × Nat} (hp : s.parts = [(p, x)]) (hs : x.shooting = [(slot, va, n)])
    (he : e ∈ s.accesses) (hpart : s.partOf e.2.thread = p) (hh : e.2.held = false) (hg : s.gatedCore (s.coreOf e.2.thread) = false)
    (hq : q ∈ e.2.pins) (hm : rangesMeet (128 * q.1) 128 va n = true) : exec .shootDown s = .next s := by
  have hready : shootReady s p (slot, va, n) = false := by
    refine List.all_eq_false.2 ⟨e, he, ?_⟩
    have hpins : e.2.pins.all (fun q => !rangesMeet (128 * q.1) 128 va n) = false := List.all_eq_false.2 ⟨q, hq, by simp [hm]⟩
    simp [hpart, hh, hg, hpins]
  have hnone : nextShoot s = none := by
    simp only [nextShoot, hp, List.findSome?_cons, List.findSome?_nil, hs, List.find?_cons, List.find?_nil, hready, Option.map_none]
  show execShootDown s = _
  rw [execShootDown, hnone]

/-! The resent notice. -/

theorem heldOn_modPart (s : State) (p q a n : Nat) (g : Partition → Partition) : heldOn (s.modPart p g) q a n = heldOn s q a n := rfl

/-- The time at which a notice is sent again, taken away. -/
def forgetResend (s : State) (p key : Nat) : State := s.modPart p (fun x => { x with resends := tabDel x.resends key })

theorem resendNotice_eq (s : State) (p key : Nat) : resendNotice s p key =
    ((heldOn s p (key / 4096 * 4096) (pageSize (key % 4))).map fun e =>
      notice (forgetResend s p key) e 0 1 noIndex (leBytes 8 (key / 4096 * 4096 + key % 4))).getD (forgetResend s p key) := by
  simp only [resendNotice, heldOn_modPart]
  split <;> rename_i h <;> rw [h] <;> rfl

theorem noticeIsResent {key : Nat} (hn : nextResend s = some (p, key)) : ∃ s', exec .migrationNoticeResend s = .next s' ∧
    tabGet (s'.part p).resends key = none ∧
    s'.mem = s.mem ∧ (heldOn s p (key / 4096 * 4096) (pageSize (key % 4)) = none → s'.outbox = s.outbox) ∧
    (∀ n, heldOn s p (key / 4096 * 4096) (pageSize (key % 4)) = some n → s.mayTalk n = true → ∃ o,
      s'.outbox = s.outbox ++ [o] ∧ o.kind = 3 ∧ o.detail = 1 ∧ o.ep = n ∧
      o.payload = leBytes 8 (key / 4096 * 4096 + key % 4)) := by
  have hexec : exec .migrationNoticeResend s = .next (resendNotice s p key) := by
    show execMigrationNoticeResend s = _
    rw [execMigrationNoticeResend, hn]
  have hdel : tabGet ((forgetResend s p key).part p).resends key = none := by
    rw [forgetResend, State.part_modPart, if_pos rfl, tabGet_del, if_pos rfl]
  refine ⟨_, hexec, ?_, resendNotice_mem .., fun hnone => ?_, fun n hsome ht => ?_⟩
  · rw [resendNotice_eq]
    cases heldOn s p (key / 4096 * 4096) (pageSize (key % 4)) with
    | none => exact hdel
    | some e =>
      have hparts : (notice (forgetResend s p key) e 0 1 noIndex (leBytes 8 (key / 4096 * 4096 + key % 4))).parts = (forgetResend s p key).parts :=
        sendNumbered_parts ..
      rw [Option.map_some, Option.getD_some, State.part, hparts]
      exact hdel
  · simp only [resendNotice_eq, hnone]
    rfl
  · simp only [resendNotice_eq, hsome]
    exact ⟨_, sendNumbered_outbox (s := forgetResend s p key) ht _, rfl, rfl, rfl, rfl⟩

end

theorem ringRecordsAreServed : Rule.RingRecordsAreServed := by
  refine ⟨fun s p x h => ?_, fun s p x r l h hr h1 hl hc hout => pageIsMapped h hr h1 hl hc hout, fun s p x r h hr h1 => pageIsUnmapped h hr h1,
    fun s p x r h hr h1 => pageIsProtected h hr h1, fun s p x r h hr => ⟨evictIsHeld h hr, evictIsPerformed h hr⟩,
    fun s p h => heldEvictIsPerformed, fun s p x h => heldEvictIsReady, fun s p slot va n x => shootDownIsDone,
    fun s p x slot va n e q hp hs he hpart hh hg hq hm => shootDownWaits hp hs he hpart hh hg hq hm, fun s p key => noticeIsResent⟩
  obtain ⟨h1, h2, h3, h4, h5⟩ := ringHeadIsChecked h
  exact ⟨h1, h2, h3, h4, h5, fun y hy k ht hop hk => exec_ringForms_refused hy h ht hop hk, fun va l ht hop hva hl hc =>
    exec_ringForms_refused (y := (.evict, 4)) evict_mem_ringForms h ht hop (requestReason_of_region hop hva hl hc)⟩

/-- Settles O48: a record is refused with its first reason or changes its one page, whose entry is read back, and starts a shoot-down; a
shoot-down that is done drops the range from every TLB, and a held EVICT or a notice waits for its time. -/
theorem pageRequests : Obligations.PageRequests := ringRecordsAreServed

end Sys2Proof.Machine
end

section
/-! SUPPORT. An instruction of a thread that issues alone and sends one access: the access, the wait, and what is left of the thread and of the
gangs (R123, R292). -/

namespace Sys2Proof.Machine

section
variable {op : Nat} {f : Fields} {preds regs : List Nat} {eff : State → Nat → Res} {s : State} {t : Nat} {ws : List Wr} {es ns : List Nat}
  {a : Access} {w : Option Why}

theorem runGroup_send_sends (h : Alone s op f preds regs t) (he : eff s t = .go (sendEff ws es ns a w)) :
    Sends s (runGroup op f preds regs eff s) t a := by
  rw [runGroup_go_alone h he]
  exact applyEff_sends _ _ _ _ rfl rfl rfl

theorem runGroup_send_waits {v : Why} (h : Alone s op f preds regs t) (he : eff s t = .go (sendEff ws es ns a (some v))) :
    ((runGroup op f preds regs eff s).thread t).sched = .blocked v := by
  rw [runGroup_go_alone h he]
  exact applyEff_waits _ _ _ _ h.ready rfl rfl rfl

theorem runGroup_send_pc (h : Alone s op f preds regs t) (he : eff s t = .go (sendEff ws es ns a w)) :
    ((runGroup op f preds regs eff s).thread t).pc = nextPc s.pc := (runGroup_moved h.toIssues he rfl rfl).pc

theorem runGroup_send_view (h : Alone s op f preds regs t) (he : eff s t = .go (sendEff ws es ns a w)) :
    Kept (sendThread ws es ns (s.thread t)) ((runGroup op f preds regs eff s).thread t) [] [] :=
  (sendEff_onThread _ _ _ _ _ _).trans (runGroup_moved h.toIssues he rfl rfl).kept

theorem runGroup_send_empty (h : Alone s op f preds regs t) (he : eff s t = .go (sendEff ws es ns a w)) {r : Nat} (hr : r ∈ es)
    (h255 : r ≠ 255) : ((runGroup op f preds regs eff s).thread t).full r = false := by
  rw [((runGroup_send_view h he).regs r (by simp)).2]
  exact sendThread_full hr h255 _

theorem runGroup_send_kept {ds ps us bs : List Nat} (h : Alone s op f preds regs t) (he : eff s t = .go (sendEff ws es ns a w))
    (hw : ∀ w ∈ ws, w.within ds ps us bs) (hes : ∀ n ∈ es, n ∈ ds) (hns : ∀ n ∈ ns, n ∈ ps) :
    Kept (s.thread t) ((runGroup op f preds regs eff s).thread t) ds ps :=
  (sendThread_kept hw hes hns _).trans ((runGroup_send_view h he).mono (List.nil_subset _) (List.nil_subset _))

/-- An effect of a thread alone, as that of a group whose every thread has it. -/
theorem runGroup_alone_const {e : Eff} (h : Alone s op f preds regs t) (he : eff s t = .go e) :
    runGroup op f preds regs eff s = runGroup op f preds regs (fun _ _ => .go e) s :=
  (runGroup_go_alone h he).trans (runGroup_go_alone h rfl).symm

theorem runGroup_alone_others {e : Eff} {ps ds : List Nat} (h : Alone s op f preds regs t) (he : eff s t = .go e)
    (hw : ∀ w ∈ e.writes, w.within ds ps [] []) (hp : e.part = none) : Others s (runGroup op f preds regs eff s) ps ds := by
  rw [runGroup_alone_const h he]
  exact runGroup_others fun u e' hu => by obtain rfl := Res.go.inj hu; exact ⟨hw, hp⟩

/-- What a trap of a thread alone comes to where it has a handler. -/
theorem runGroup_alone_trapped {kind : Nat} {info : Word} {pc : Pc} (h : Alone s op f preds regs t) (he : eff s t = .trap kind info false)
    (hh : (s.launchOf t).handler = some pc) (hi : (s.thread t).inTrap = false) :
    Trapped s (runGroup op f preds regs eff s) t kind s.pc info pc := by
  rw [runGroup_trap_alone h he]
  exact issueTrap_trapped h.ready hh hi

end
end Sys2Proof.Machine
end

section
/-! O19: scratchpad instructions at issue (R123, R307, R308). -/

namespace Sys2Proof.Machine

section
variable {m : SpOp} {f : Fields} {s : State} {t : Nat}

theorem exec_scratchForms : ∀ x ∈ scratchForms, ∀ f s, exec (x.1 f) s = .next (runSp x.2 f s) := by
  simp only [scratchForms, List.forall_mem_cons, List.not_mem_nil, false_imp_iff, implies_true, and_true]
  refine ⟨?_, ?_, ?_, ?_, ?_, ?_, ?_, ?_, ?_, ?_, ?_, ?_, ?_, ?_, ?_, ?_, ?_, ?_, ?_, ?_⟩ <;> exact fun _ _ => rfl

/-- The access that a scratchpad form sends for a thread. -/
def spAccess (m : SpOp) (f : Fields) (s : State) (t : Nat) : Access :=
  { kind := m.kind, thread := t, group := 0, pc := s.pc, op := m.op, f := f, addr := (soff s m f t).toNat, width := m.width f,
    c := dataOf s t f, d := casOf s t f, label := labelOf s m.op f t,
    mode := match rm s t f with
      | .rne => 0
      | .rz => 1
      | .rup => 2
      | .rdn => 3
    inTrap := (s.thread t).inTrap }

theorem spEff_fits (h : ScratchFits m f s t) :
    spEff m f s t = .go (sendEff [] (if m.dest then opndRegs (slotsOf m.op f).d f.d else []) [] (spAccess m f s t) none) := by
  obtain ⟨hlow, hhigh, halign⟩ := h
  have hin : spOutside s m f t = false := by simp [spOutside, hlow, hhigh]
  simp only [spEff, hin, halign, Bool.false_eq_true, if_false, bne_self_eq_false]
  rfl

theorem scratchpadAccessesLeaveAtIssue : Rule.ScratchpadAccessesLeaveAtIssue := by
  intro x hx f s t h hfits
  have he := spEff_fits hfits
  refine ⟨_, exec_scratchForms x hx f s, ⟨spAccess x.2 f s t, runGroup_send_sends h he, rfl, rfl, Int.toNat_of_nonneg hfits.1, rfl, rfl, rfl,
    rfl⟩, runGroup_send_pc h he, fun hdest r hr => runGroup_send_empty h he (by rwa [if_pos hdest]), runGroup_send_kept (us := []) (bs := []) h he (by simp) ?_
    (by simp), runGroup_alone_others h he (fun w hw => by cases hw) rfl⟩
  intro n hn
  split at hn
  · exact hn
  · cases hn

theorem scratchpadRangeAndAlignmentTraps : Rule.ScratchpadRangeAndAlignmentTraps := by
  intro x hx f s t pc h hh hi
  refine ⟨fun hout => ⟨_, exec_scratchForms x hx f s, runGroup_alone_trapped h ?_ hh hi⟩,
    fun hout halign => ⟨_, exec_scratchForms x hx f s, runGroup_alone_trapped h ?_ hh hi⟩⟩
  · rw [spEff, if_pos hout]
  · rw [spEff, hout, if_neg Bool.false_ne_true, if_pos (by simpa using halign)]

/-- Settles O19: a scratchpad form within the run is the sending of one access, and its two tests are traps. -/
theorem scratchpadIssue : Obligations.ScratchpadIssue := ⟨scratchpadAccessesLeaveAtIssue, scratchpadRangeAndAlignmentTraps⟩

end
end Sys2Proof.Machine
end

section
/-! O34: LBLRD.PG and a bit that its form does not define. -/

namespace Sys2Proof.Machine

/-- LBLRD.PG s2, b4[0] with bit [31] set: the form does not define the bit, and it is the one that names p6 in a record instruction (R288). -/
def pageLabelRead : Fields := { blank with d := .s 2, a := .k 4, b := .imm 0, mod := 0x1002 }

/-- A lane alone, with 16 words at record 4, whose p6 an earlier LDX has made pending. -/
def p6Pends : State := {
  time := 1000000, nextId := 50
  gangs := [(0, { lanes := 1, brecs := [(4, Rec.toBits { base := 2 ^ 30, extent := 16, stride := 0, size := 3, swizzle := 0, trap := false,
                                                         reserved := 0 })] })]
  threads := [(0, { pc := 0x1000, pend := 0x40 })]
  issue := { core := 0, pc := 0x1000, threads := [0], serial := 7 } }

theorem p6Pends_issues : Alone p6Pends 0x380 pageLabelRead [] [] 0 where
  mem := by decide
  nodup := by decide
  settled := by decide
  guard := by decide
  sources := by decide
  dest := by decide
  preds := by decide
  ready := by decide
  alone := by decide

theorem p6Pends_inBounds : InBounds opLabelPage pageLabelRead p6Pends 0 where
  record := by decide
  room := by decide
  bounds := by decide
  align := by decide

/-- The state after LBLRD.PG. -/
def pageLabelAsked : State := runGroup 0x380 pageLabelRead [] [] (lblrdEff pageLabelRead) p6Pends

theorem pageLabelAsked_unsent : tabGet pageLabelAsked.accesses 50 = none := by decide

/-- Refutes O34: the thread waits for a read of the page's label that it has not sent. The model chooses the lane that sends for a gang-uniform
destination with the test of a record instruction under .BP, which a pending p6 holds back, while the form itself issues. The statement is about
every field content; a word with the bit is none that the decoder gives to LBLRD. -/
theorem not_labelReads : ¬ Obligations.LabelReads := by
  intro h
  obtain ⟨-, -, hpage, -⟩ := h pageLabelRead p6Pends 0 p6Pends_issues
  obtain ⟨s', hs', ⟨⟨_, _, hsent⟩, -⟩, -⟩ := hpage (by decide) p6Pends_inBounds
  have hdone : s' = pageLabelAsked := (Host.Outcome.next.inj hs').symm
  rw [hdone, show p6Pends.nextId = 50 from rfl, pageLabelAsked_unsent] at hsent
  exact nomatch hsent

end Sys2Proof.Machine
end

section
/-! SUPPORT. Reads of a range of plain memory, and what a write-back leaves of everything but threads, gangs and accesses (R123, R234, R289). -/

namespace Sys2Proof.Machine

/-- The state apart from its threads, its gangs and its accesses. -/
def State.beyond (s : State) : State := { s with threads := [], gangs := [], accesses := [] }

section
variable {s : State} {a : Access} {ws : List Wr}

theorem applyWrs_beyond (b c : Bool) (t : Nat) (s : State) (ws : List Wr) : (applyWrs b c t s ws).beyond = s.beyond :=
  foldl_keeps _ State.beyond _ _ fun _ w _ => by cases w <;> simp only [applyWr] <;> (try split) <;> rfl

theorem landed_beyond (s : State) (a : Access) : (s.landed a).beyond = s.beyond :=
  foldl_keeps _ State.beyond _ _ fun _ _ _ => by split <;> rfl

theorem sawFor_beyond (s : State) (a : Access) (g : Nat) : (s.sawFor a g).beyond = s.beyond :=
  foldl_keeps _ State.beyond _ _ fun _ _ _ => rfl

theorem fill_beyond (s : State) (a : Access) (ws : List Wr) : (fill s a ws).beyond = s.beyond := by
  simp only [fill]
  split
  · exact (landed_beyond _ _).trans (applyWrs_beyond ..)
  · split
    · rfl
    · exact applyWrs_beyond ..

/-- What a function reads of all but threads, gangs and accesses is the same. -/
theorem State.read_beyond {s' : State} (h : s'.beyond = s.beyond) {β : Type} (F : State → β) (hF : ∀ x, F x.beyond = F x) : F s' = F s := by
  rw [← hF s', h, hF]

theorem stackLabel_along {ps : List Piece} {va pa : Nat} (h : Along ps va pa) : stackLabel s ps = 0 :=
  foldl_keeps _ id _ _ fun l p hp => by simp only [h p hp, id]

theorem State.CachesOnly.pieceBytes {s' : State} (h : s.CachesOnly s') {p : Piece} {pa : Nat} (hp : p.home = .phys pa) :
    pieceBytes s' p = pieceBytes s p := by
  simp only [Machine.pieceBytes, hp, h.mem]

/-- The next of the pieces of plain memory that an access reads at L2. -/
theorem readAll_step {ps : List Piece} {va pa core part : Nat} {prio : Option Nat} (h : Along ps va pa) : ∀ (s₁ : State) (bs : List Byte) (g : Nat),
    s.CachesOnly s₁ → ∃ s' g', ps.foldl (fun acc p =>
      match acc.1 with
      | none => acc
      | some x =>
        let r := if p.isRemote then rawPieces acc.2 part [p]
          else
            let y := readPiece acc.2 core part p prio false
            (some (y.1, y.2.1), y.2.2)
        (r.1.map (fun y => (x.1 ++ y.1, max x.2 y.2)), r.2)) (some (bs, g), s₁) = (some (bs ++ ps.flatMap (pieceBytes s), g'), s') ∧
      s.CachesOnly s' := by
  induction ps with
  | nil => exact fun s₁ bs g h₁ => ⟨s₁, g, by simp, h₁⟩
  | cons p ps ih =>
    intro s₁ bs g h₁
    obtain ⟨hp, hps⟩ := List.forall_mem_cons.1 h
    have hbytes : (readPiece s₁ core part p prio false).1 = pieceBytes s p := by
      rw [readPiece_bytes core part prio hp, h₁.mem]
      simp only [pieceBytes, hp]
    obtain ⟨s', g', hread, hcache⟩ := ih hps _ (bs ++ pieceBytes s p) (max g (readPiece s₁ core part p prio false).2.1)
      (h₁.trans (.readPiece s₁ core part p prio false))
    refine ⟨s', g', ?_, hcache⟩
    simp only [List.foldl_cons, not_remote hp, Bool.false_eq_true, if_false, Option.map_some, hbytes]
    rw [hread, List.flatMap_cons, List.append_assoc]

/-- A range of plain memory read at L2: its bytes, and only caches change. -/
theorem readAll_along {ps : List Piece} {pa core part : Nat} {via : Via} {need : Need} {pick : Pick}
    (hl1 : (pick.l1 && a.kind != .ldx && a.kind != .egress) = false) (h : Along ps a.addr pa)
    (hreach : reach s core part a.addr a.width via need = .ok ps) :
    ∃ s' g, readAll s a ps pick = (some (s.mem.read pa a.width, g), s') ∧ s.CachesOnly s' := by
  have hcache := State.CachesOnly.cachePieces s (s.coreOf a.thread) ps
  have hall : ps.flatMap (pieceBytes s) = s.mem.read pa a.width := by
    rw [pieceBytes_along (contiguous_of_reach hreach) le_rfl h, Nat.sub_self, Nat.add_zero]
  obtain ⟨s', g, hread, hs'⟩ := readAll_step (s := s) (core := s.coreOf a.thread) (part := s.partOf a.thread) (prio := a.prio) h _ [] 0 hcache
  refine ⟨s', g, ?_, hs'⟩
  rw [readAll, hl1]
  exact hread.trans (by rw [hall, List.nil_append])

end
end Sys2Proof.Machine
end

section
/-! O35: EGRESS at issue, and the decision on it (R281, R422, R423). -/

namespace Sys2Proof.Machine

section
variable {s s' : State} {f : Fields} {t id : Nat} {a : Access} {pick : Pick} {ps : List Piece} {pa : Nat}

/-! Issue. -/

/-- The access that an EGRESS within its record's range sends. -/
def egressAccess (f : Fields) (s : State) (t : Nat) : Access :=
  { kind := .egress, thread := t, group := 0, pc := s.pc, op := 0x382, f := f, addr := ((recOf s t f.a).addr (read32 s t f.b).toNat 0).toNat,
    width := (read32 s t f.c).toNat, label := labelOf s 0x382 f t, aux := f.bits 0 6, inTrap := (s.thread t).inTrap }

theorem egressEff_fits (hbad : (recOf s t f.a).bad = false) (hin : egressOob s f t = false) :
    egressEff f s t = .go (sendEff [] (opndRegs (slotsOf 0x382 f).d f.d) [] (egressAccess f s t) none) := by
  simp only [egressEff, hbad, hin, Bool.false_eq_true, if_false]
  rfl

/-- A range inside its record begins at no negative address. -/
theorem egress_addr_nonneg (hin : egressOob s f t = false) : 0 ≤ (recOf s t f.a).addr (read32 s t f.b).toNat 0 := by
  simp only [egressOob, Bool.or_eq_false_iff, Rec.oob] at hin
  have := hin.1.2
  simp_all

theorem egressSendsItsRange : Rule.EgressSendsItsRange := by
  intro f s t h hbad hin
  have he := egressEff_fits hbad hin
  refine ⟨_, rfl, ⟨_, runGroup_send_sends h he, rfl, Int.toNat_of_nonneg (egress_addr_nonneg hin), rfl, rfl⟩,
    fun r hr => runGroup_send_empty h he hr, runGroup_send_pc h he, ?_, ?_⟩
  · exact runGroup_send_kept (us := []) (bs := []) h he (fun _ hw => absurd hw List.not_mem_nil) (fun _ hr => hr) fun _ hn => absurd hn List.not_mem_nil
  · exact runGroup_alone_others h he (fun _ hw => absurd hw List.not_mem_nil) rfl


/-! The decision. -/

/-- An EGRESS that has read its range and that no detector looks at, decided. -/
theorem landEgress_read (h : LandsAlong s id a { r := true } pick ps pa) (hk : a.kind = .egress) (hrace : (s.launchOf a.thread).race = false) :
    ∃ s₁ g, s.CachesOnly s₁ ∧ landEgress s id a pick =
      match decideEgress s₁ a (a.label ||| pagesLabel ps) with
      | (some k, s') => fill ((s'.dropAccess id).sawG a.thread g) a (wr32 a.f.d (BitVec.ofNat 32 (0x10 + k)) a.label)
      | (none, s') => fill (sendPlain ((s'.dropAccess id).sawG a.thread g) (s.threadEp a.thread)
          (((tabGet (s.part (s.partOf a.thread)).peers a.aux).map Peer.addr).getD 0)
          { blankOut 3 stOk with detail := 2, payload := s.mem.read pa a.width }) a (wr32 a.f.d 1 a.label) := by
  obtain ⟨s₁, g, hread, hcache⟩ := readAll_along (pick := pick) (by simp [hk]) h.plain h.pages
  have hoff : racePieces s₁ a ps .load = s₁ := racePieces_of_off ((hcache.raceOn a).trans hrace) _ _
  refine ⟨s₁, g, hcache, ?_⟩
  have hlabel : a.label ||| pagesLabel ps ||| stackLabel s ps = a.label ||| pagesLabel ps := by simp [stackLabel_along h.plain]
  simp only [landEgress, h.pages, hread, hoff, hlabel]
  rcases decideEgress s₁ a (a.label ||| pagesLabel ps) with ⟨_ | k, s'⟩ <;> rfl

/-- What a landing leaves that writes one word back over a state whose threads, cores and accesses are those before it. -/
theorem fill_wordLanded {x : Word} {l : Label} (hsched : (s'.thread a.thread).sched = (s.thread a.thread).sched)
    (hlive : (s.thread a.thread).sched ≠ .exited) (hdrop : tabGet s'.accesses id = none) :
    tabGet (fill s' a (wr32 a.f.d x l)).accesses id = none ∧ Result32 (fill s' a (wr32 a.f.d x l)) a.thread a.f.d x ∧
      (fill s' a (wr32 a.f.d x l)).outbox = s'.outbox ∧ (fill s' a (wr32 a.f.d x l)).mem = s'.mem :=
  ⟨fill_accesses hdrop, (fill_word (by rwa [hsched])).1, State.read_beyond (fill_beyond ..) State.outbox fun _ => rfl, fill_mem ..⟩

theorem fill_late (s : State) (a : Access) (ws : List Wr) (c : Nat) : ((fill s a ws).core c).late = (s.core c).late :=
  State.read_beyond (fill_beyond ..) (fun s => (s.core c).late) fun _ => rfl

theorem decideEgress_empty (h : ∀ y, tabGet (s.part (s.partOf a.thread)).peers a.aux = some y → y.mask = 0) (l : Label) :
    ∃ e, decideEgress s a l = (some 1, logRefusal s (s.partOf a.thread) e) := by
  simp only [decideEgress]
  split
  · rename_i y hy
    exact ⟨_, if_pos (h y hy)⟩
  · exact ⟨_, rfl⟩

theorem decideEgress_unlabelled {y : Peer} (h : tabGet (s.part (s.partOf a.thread)).peers a.aux = some y) (hm : y.mask ≠ 0) :
    decideEgress s a 0 = (none, s) := by
  simp only [decideEgress, h, if_neg hm, release, decideOn, if_true]

theorem egressIsDecided : Rule.EgressIsDecided := by
  intro s id a pick ps pa h hk hlive hrace
  obtain ⟨s₁, g, hcache, hland⟩ := landEgress_read h hk hrace
  have hpeers : tabGet (s₁.part (s₁.partOf a.thread)).peers a.aux = tabGet (s.part (s.partOf a.thread)).peers a.aux := by rw [hcache.rest]; rfl
  have hlands : (∀ c, ((landEgress s id a pick).core c).late = (s.core c).late) →
      exec (.loadWriteback id pick) s = .next (landEgress s id a pick) := fun hlate =>
    (landWith_alone (land := landValue) h.access h.enabled h.inside h.alone (fun _ => by simp only [landValue, hk, hlate, le_refl])).trans
      (by simp only [landValue, hk])
  have hlate : ∀ c, (s₁.core c).late = (s.core c).late := fun c => hcache.read c Core.late fun _ => rfl
  have hsched : ∀ s₂ : State, s₂.threads = s₁.threads → ((s₂.sawG a.thread g).thread a.thread).sched = (s.thread a.thread).sched := by
    intro s₂ h₂
    rw [State.sawG, State.thread_modThread, if_pos rfl, State.thread, h₂, hcache.threads]
    rfl
  constructor
  case left =>
    intro hempty
    obtain ⟨e, hdecide⟩ := decideEgress_empty (s := s₁) (a := a) (by rwa [hpeers]) (a.label ||| pagesLabel ps)
    rw [hdecide] at hland
    rw [hlands fun c => by rw [hland, fill_late]; exact hlate c, hland]
    obtain ⟨hdrop, hvalue, hout, hmem⟩ := fill_wordLanded (id := id) (x := BitVec.ofNat 32 (0x10 + 1)) (l := a.label)
      (hsched ((logRefusal s₁ (s₁.partOf a.thread) e).dropAccess id) rfl) hlive (dropAccess_access _ id)
    refine ⟨_, rfl, hdrop, hvalue, hout.trans ?_, hmem.trans ?_⟩
    · rw [hcache.rest]; rfl
    · exact hcache.mem
  case right =>
    intro y hy hmask hlabel hpages
    have hdecide := decideEgress_unlabelled (s := s₁) (a := a) (hpeers.trans hy) hmask
    have hnone : a.label ||| pagesLabel ps = 0 := by simp [hlabel, hpages]
    rw [hnone, hdecide, hy, hlabel] at hland
    rw [hlands fun c => by rw [hland, fill_late]; exact hlate c, hland]
    obtain ⟨hdrop, hvalue, hout, hmem⟩ := fill_wordLanded (id := id) (x := 1) (l := 0) (s' := sendPlain ((s₁.dropAccess id).sawG a.thread g)
      (s.threadEp a.thread) y.addr { blankOut 3 stOk with detail := 2, payload := s.mem.read pa a.width })
      (hsched (s₁.dropAccess id) rfl) hlive (dropAccess_access _ id)
    refine ⟨_, rfl, hdrop, hvalue, hout.trans ?_, hmem.trans ?_⟩
    · rw [hcache.rest]; rfl
    · exact hcache.mem

end

/-- Settles O35: the issue of EGRESS is one effect of its thread, and its landing reads the range, takes the decision and writes the status back. -/
theorem egress : Obligations.Egress := ⟨egressSendsItsRange, egressIsDecided⟩

end Sys2Proof.Machine
end

section
/-! SUPPORT. What an issue of one thread leaves of the machine around threads and gangs, and operations that run gang after gang (R85, R118). -/

namespace Sys2Proof.Machine

/-- The state apart from threads, gangs, accesses, event counts and the number that the next access takes. -/
def State.stage (s : State) : State := { s.beyond with launches := [], nextId := 0 }

/-- What a function reads of the stage is the same. -/
theorem State.read_stage {s s' : State} (h : s'.stage = s.stage) {β : Type} (F : State → β) (hF : ∀ x, F x.stage = F x) : F s' = F s := by
  rw [← hF s', h, hF]

section
variable {op : Nat} {f : Fields} {preds regs : List Nat} {eff : State → Nat → Res} {s : State} {t : Nat} {e : Eff}

theorem setTiles_stage (s : State) (g : Nat) (p : Option (BitVec 3)) : (s.setTiles g p).stage = s.stage := by cases p <;> rfl

theorem countEvents_stage (s : State) (k : Nat) (es : List Nat) : (s.countEvents k es).stage = s.stage := by
  simp only [State.countEvents]
  split <;> rfl

theorem Eff.act_stage (e : Eff) (a b : Bool) (t : Nat) (s : State) : (e.act a b t s).stage = s.stage := by
  have hwrites : (applyWrs a b t s e.writes).stage = s.stage :=
    congrArg (fun s : State => { s with launches := [], nextId := 0 }) (applyWrs_beyond a b t s e.writes)
  rw [Eff.act, countEvents_stage, setTiles_stage]
  exact hwrites

theorem addAccesses_stage (s : State) (l : List Access) : (s.addAccesses l).stage = s.stage :=
  foldl_keeps _ State.stage _ _ fun _ _ _ => rfl

theorem applyEff_stage (l : Label) (full first early : Bool) (hx : e.exits = false) (hc : e.check = false) :
    (applyEff f l full first early t s e).stage = s.stage := by
  have hleave : (e.leave f full early t (e.next.getD (nextPc s.pc)) (e.act full first t s)).stage = s.stage := by
    rw [Eff.leave]
    exact (addAccesses_stage ..).trans (Eff.act_stage ..)
  simp only [applyEff, Eff.close, hx, hc, Bool.false_and, Bool.false_eq_true, if_false]
  split <;> exact hleave

/-- A thread that issues alone, neither exits nor takes a record, leaves the stage. -/
theorem runGroup_alone_stage (h : Alone s op f preds regs t) (he : eff s t = .go e) (hx : e.exits = false) (hc : e.check = false) :
    (runGroup op f preds regs eff s).stage = s.stage := by
  rw [runGroup_go_alone h he]
  exact applyEff_stage _ _ _ _ hx hc

theorem writesEff_onThread (ws : List Wr) (x : Thread) : Kept (ws.foldl Wr.onThread x) (({ writes := ws } : Eff).onThread x) [] [] := by
  simp only [Eff.onThread, Eff.changed, List.foldl_nil]
  exact ⟨fun _ _ => ⟨rfl, rfl⟩, fun _ _ => ⟨rfl, rfl⟩, rfl, rfl, ⟨rfl, rfl, rfl, rfl⟩, rfl⟩

/-- An instruction that only writes: its thread stands at the next one and has kept the rest. -/
theorem runGroup_alone_writes {ws : List Wr} {ds ps us bs : List Nat} (h : Alone s op f preds regs t) (he : eff s t = .go { writes := ws })
    (hw : ∀ w ∈ ws, w.within ds ps us bs) : ((runGroup op f preds regs eff s).thread t).pc = nextPc s.pc ∧
      Kept (s.thread t) ((runGroup op f preds regs eff s).thread t) ds ps := by
  have hmoved := runGroup_moved h.toIssues he rfl rfl
  exact ⟨hmoved.pc, (Wr.foldl_kept hw _).trans (((writesEff_onThread ws _).trans hmoved.kept).mono (List.nil_subset _) (List.nil_subset _))⟩

/-- Of a group that is one thread, one gang runs. -/
theorem runPerGang_alone (h : s.group = [t]) (run : State → State) : runPerGang run s = (run s).withGroup s.group := by
  have hgangs : gangsOf s.group = [gangOf t] := by simp [gangsOf, h, distinct]
  have hgroup : s.groupOf (gangOf t) = s.group := by simp [State.groupOf, h]
  rw [runPerGang, hgangs, List.foldl_cons, List.foldl_nil, hgroup]
  rfl

end

/-- A write of no register is within any frame of registers. -/
theorem Wr.within_regs {ds ps us bs : List Nat} {w : Wr} (h : w.within [] ps us bs) : w.within ds ps us bs := by
  cases w <;> simp_all [Wr.within]

/-- The threads, the gangs and the memory are the same. -/
structure State.SameProgram (s s' : State) : Prop where
  threads : s'.threads = s.threads
  gangs : s'.gangs = s.gangs
  mem : s'.mem = s.mem

namespace State.SameProgram
variable {s₀ s s' s'' : State} {t : Nat}

theorem refl (s : State) : s.SameProgram s := ⟨rfl, rfl, rfl⟩

theorem trans (h : s.SameProgram s') (k : s'.SameProgram s'') : s.SameProgram s'' :=
  ⟨k.threads.trans h.threads, k.gangs.trans h.gangs, k.mem.trans h.mem⟩

theorem thread (h : s.SameProgram s') (u : Nat) : s'.thread u = s.thread u := by simp only [State.thread, h.threads]
theorem gang (h : s.SameProgram s') (g : Nat) : s'.gang g = s.gang g := by simp only [State.gang, h.gangs]

theorem others {ps ds : List Nat} (h : s.SameProgram s') (k : Others s₀ s ps ds) : Others s₀ s' ps ds :=
  ⟨fun g => by rw [h.gang]; exact k.gangs g, fun a => by rw [h.mem]; exact k.memory a⟩

theorem foldl {α : Type} (F : State → α → State) (hF : ∀ b a, State.SameProgram b (F b a)) (l : List α) (s : State) : s.SameProgram (l.foldl F s) := by
  induction l generalizing s with
  | nil => exact refl s
  | cons a l ih => exact (hF s a).trans (ih _)

end State.SameProgram

theorem Sends.congr {s s' s'' : State} {t : Nat} {a : Access} (h : Sends s s' t a) (ha : s''.accesses = s'.accesses) : Sends s s'' t a := by
  rw [Sends, ha]
  exact h

end Sys2Proof.Machine
end

section
/-! O24: the gather path at issue (R314 to R317, R331 to R333, R340). -/

namespace Sys2Proof.Machine

section
variable {f : Fields} {s s' : State} {t : Nat}

theorem remapModesOfTheGather : Rule.RemapModesOfTheGather := fun _ _ =>
  ⟨rfl, rfl, rfl, fun h => if_neg (not_le.2 h), fun h => if_pos h⟩

/-! GTHR. -/

/-- What GTHR sends. -/
def gatherAccess (f : Fields) (s : State) (t : Nat) : Access :=
  { kind := .gthr, thread := t, group := 0, pc := s.pc, op := 0x2C0, f := f, addr := (gatherAddr s f t).toNat, width := typeWidth f.ty,
    label := labelOf s 0x2C0 f t, d := (remapLabel s f t).setWidth 64, inTrap := (s.thread t).inTrap }

/-- The tests that GTHR and GTHRS share let the thread pass. -/
theorem GatherFits.passes (h : GatherFits f s t) :
    (remapMode f != 0 && !ownsRemap s t) = false ∧ (if remapMode f = 3 then tableAwaited s t else none) = none := by
  constructor
  · by_cases hm : remapMode f = 0
    · simp [hm]
    · simp [h.owner hm]
  · split
    · rename_i hm; exact h.table hm
    · rfl

/-- An element in bounds lies at no negative address. -/
theorem gatherAddr_nonneg {w : Nat} (h : gatherOob s f t w = false) : 0 ≤ gatherAddr s f t := by
  simp only [gatherOob] at h
  split at h
  · cases h
  · rename_i j hj
    simp only [Rec.oob, Bool.or_eq_false_iff, decide_eq_false_iff_not] at h
    rw [gatherAddr, hj, Option.getD_some]
    exact not_lt.1 h.1.2

theorem gthrEff_fits (hfit : GatherFits f s t) (hin : gatherOob s f t (typeWidth f.ty) = false)
    (hone : straddles s t (gatherAddr s f t).toNat (typeWidth f.ty) = false)
    (heven : (recOf s t f.a).size = 0 → (gatherIndex s f t).getD 0 % 2 = 0) : gthrEff f s t =
      .go (sendEff (bpWrite f false (labelOf s 0x2C0 f t)) (destRegs opGthr f) [] (gatherAccess f s t) none) := by
  obtain ⟨howner, htable⟩ := hfit.passes
  have hhalf : ((recOf s t f.a).size == 0 && (gatherIndex s f t).getD 0 % 2 == 1) = false := by
    by_cases h0 : (recOf s t f.a).size = 0
    · simp [heven h0]
    · simp [h0]
  simp only [gthrEff, ofType, hfit.record, howner, htable, hin, hone, hhalf, Bool.or_false, Bool.false_eq_true, if_false]
  rfl

/-! GTHRS. -/

/-- What GTHRS sends. -/
def rowAccess (f : Fields) (s : State) (t : Nat) : Access :=
  { kind := .gthrs, thread := t, group := 0, pc := s.pc, op := 0x2C1, f := f, addr := (gatherAddr s f t).toNat, width := rowBytes f,
    label := labelOf s 0x2C1 f t, d := (remapLabel s f t).setWidth 64, aux := rowOffset s f t, inTrap := (s.thread t).inTrap }

/-- The row of a thread that issues alone is the first of its pass. -/
theorem rowOffset_alone (h : Alone s 0x2C1 f (bpPreds f) [] t) : rowOffset s f t = (read32 s t f.c).toNat := by
  have hrows : rowThreads s 0x2C1 f t = [t] := by simp [rowThreads, h.alone, h.ready, h.toIssues.checkIn]
  simp [rowOffset, hrows]

/-- A row in bounds lies at no negative address. -/
theorem rowAddr_nonneg (h : rowOob s f t = false) : 0 ≤ gatherAddr s f t := by
  simp only [rowOob, Bool.or_eq_false_iff, decide_eq_false_iff_not] at h
  have := h.2
  omega

theorem gthrsEff_fits (hfit : GatherFits f s t) (hrows : rowsOutside s f t = false) (halign : gatherAddr s f t % 32 = 0)
    (hin : rowOob s f t = false) :
    gthrsEff f s t = .go (sendEff (bpWrite f false (labelOf s 0x2C1 f t)) [] [] (rowAccess f s t) none) := by
  obtain ⟨howner, htable⟩ := hfit.passes
  have haligned : ((gatherIndex s f t).isSome && gatherAddr s f t % 32 != 0) = false := by simp [halign]
  simp only [gthrsEff, hfit.record, hrows, howner, htable, haligned, hin, Bool.false_eq_true, if_false]
  rfl

/-- Every line of the range is empty. -/
theorem Unit.emptyLines_lineFull (u : Unit) (o n : Nat) {k : Nat} (hk : k < n / 128) : (u.emptyLines o n).lineFull (o / 128 + k) = false := by
  simp only [Unit.emptyLines]
  generalize n / 128 = m at hk
  induction m with
  | zero => omega
  | succ m ih =>
    rw [List.range_succ, List.foldl_append, List.foldl_cons, List.foldl_nil, Unit.lineFull_markLine]
    split
    · rfl
    · exact ih (by omega)

theorem gathersLeaveAtIssue : Rule.GathersLeaveAtIssue := by
  intro f s t hfit
  constructor
  case left =>
    intro h hin hone heven
    have he := gthrEff_fits hfit hin hone heven
    exact ⟨_, rfl, ⟨_, runGroup_send_sends h he, rfl, Int.toNat_of_nonneg (gatherAddr_nonneg hin), rfl, rfl⟩,
      fun r hr => runGroup_send_empty h he hr, runGroup_send_pc h he,
      (runGroup_send_kept (us := []) (bs := []) h he (ds := destRegs opGthr f) (ps := bpPreds f)
        (fun w hw => Wr.within_regs (bpWrite_within _ _ w hw)) (fun _ hr => hr) fun _ hn => absurd hn List.not_mem_nil),
      runGroup_alone_others h he (bpWrite_within _ _) rfl⟩
  case right =>
    intro h hrows halign hin
    have he := gthrsEff_fits hfit hrows halign hin
    have hexec : exec (.gthrs f) s = .next (markRow f s (runGroup 0x2C1 f (bpPreds f) [] (gthrsEff f) s) t) := by
      show execGthrs f s = _
      rw [execGthrs, goers_alone h he]
      rfl
    have hsame : (runGroup 0x2C1 f (bpPreds f) [] (gthrsEff f) s).SameProgram (markRow f s (runGroup 0x2C1 f (bpPreds f) [] (gthrsEff f) s) t) :=
      ⟨rfl, rfl, rfl⟩
    refine ⟨_, hexec, ⟨_, (runGroup_send_sends h he).congr rfl, rfl, Int.toNat_of_nonneg (rowAddr_nonneg hin), rfl, rowOffset_alone h⟩,
      fun k hk => ?_, runGroup_send_pc h he, ?_, hsame.others (runGroup_alone_others h he (bpWrite_within _ _) rfl)⟩
    · simp only [markRow, hin, Bool.false_eq_true, if_false, rowOffset_alone h, State.modUnit, State.unit_setUnit, if_true]
      exact Unit.emptyLines_lineFull _ _ _ hk
    · exact runGroup_send_kept (us := []) (bs := []) h he (bpWrite_within _ _) (fun _ hr => hr) fun _ hn => absurd hn List.not_mem_nil

/-! REMAP. -/

/-- What REMAP.TAB sends. -/
def tableRead (f : Fields) (s : State) (t : Nat) : Access :=
  { kind := .remapTab, thread := t, group := 0, pc := s.pc, op := 0x2C2, f := f, addr := (read32 s t f.b).toNat, width := 4,
    label := labelOf s 0x2C2 f t, aux := (recOf s t f.a).toBits.toNat, inTrap := (s.thread t).inTrap }

theorem remapEff_set (hfree : remapTaken s t = false) (hm : f.bits 0 2 ≠ 2) : remapEff f s t = .go {} := by
  simp [remapEff, hfree, hm]

theorem remapEff_table (h : Alone s 0x2C2 f [] [] t) (hfree : remapTaken s t = false) (hm : f.bits 0 2 = 2)
    (hbad : (recOf s t f.a).bad = false) (hin : ¬ ((recOf s t f.a).trap = true ∧ anyTabOob (recOf s t f.a) (read32 s t f.b).toNat = true)) :
    remapEff f s t = .go (sendEff [] [] [] (tableRead f s t) (some (.landing s.issue.serial))) := by
  have htrap : ((recOf s t f.a).trap && anyTabOob (recOf s t f.a) (read32 s t f.b).toNat) = false := by simpa using hin
  simp only [remapEff, hfree, hm, hbad, htrap, isLeader_alone h, bne_self_eq_false, Bool.false_eq_true, if_false, if_true]
  rfl

theorem foldl_modCore_sameProgram (l : List Nat) (F : Core → Core) (s : State) : s.SameProgram (l.foldl (fun s c => s.modCore c F) s) :=
  State.SameProgram.foldl (fun s c => s.modCore c F) (fun _ _ => ⟨rfl, rfl, rfl⟩) l s

/-- What a gather of another clk reads is not told apart by what is kept for those of this one. -/
theorem keepRemap_unitCores (s : State) (u v : Nat) : (s.keepRemap u).unitCores v = s.unitCores v :=
  foldl_keeps _ (State.unitCores · v) _ _ fun _ _ _ => rfl

/-- The effect of a REMAP is a change of its unit's cores. -/
theorem remapSet_sameProgram (f : Fields) (s₀ s : State) (t : Nat) :
    s.SameProgram (remapSet f s₀ s t) ∧ (remapSet f s₀ s t).accesses = s.accesses := by
  have hkeep : s.SameProgram (s.keepRemap (unitOfThread t)) := foldl_modCore_sameProgram ..
  have hkept : (s.keepRemap (unitOfThread t)).accesses = s.accesses := foldl_modCore_accesses (F := fun _ x => _)
  simp only [remapSet]
  split
  · exact ⟨hkeep.trans (foldl_modCore_sameProgram ..), (modRemap_accesses ..).trans hkept⟩
  · exact ⟨hkeep.trans (foldl_modCore_sameProgram ..), (modRemap_accesses ..).trans hkept⟩
  · exact ⟨foldl_modCore_sameProgram .., foldl_modCore_accesses (F := fun _ x => _)⟩

/-- The remap state that a REMAP leaves on the cores of its unit. -/
theorem remapSet_remap (f : Fields) (s₀ s : State) (t : Nat) {c : Nat} (hc : c ∈ s.unitCores (unitOfThread t)) :
    ((remapSet f s₀ s t).core c).remap.owner = some (launchNo s₀ t) ∧
      (f.bits 0 2 = 0 → ((remapSet f s₀ s t).core c).remap.modulus = read32 s₀ t f.a) ∧
      (f.bits 0 2 = 1 → ((remapSet f s₀ s t).core c).remap.key = read32 s₀ t f.a) := by
  have hkept : c ∈ (s.keepRemap (unitOfThread t)).unitCores (unitOfThread t) := by rwa [keepRemap_unitCores]
  simp only [remapSet]
  split
  · rename_i hm
    have h1 : f.bits 0 2 ≠ 1 := by omega
    exact modRemap_remap (P := fun r => r.owner = some (launchNo s₀ t) ∧ (f.bits 0 2 = 0 → r.modulus = read32 s₀ t f.a) ∧
      (f.bits 0 2 = 1 → r.key = read32 s₀ t f.a)) (fun _ => ⟨rfl, fun _ => rfl, fun h => absurd h h1⟩) hkept
  · rename_i hm
    have h0 : f.bits 0 2 ≠ 0 := by omega
    exact modRemap_remap (P := fun r => r.owner = some (launchNo s₀ t) ∧ (f.bits 0 2 = 0 → r.modulus = read32 s₀ t f.a) ∧
      (f.bits 0 2 = 1 → r.key = read32 s₀ t f.a)) (fun _ => ⟨rfl, fun h => absurd h h0, fun _ => rfl⟩) hkept
  · rename_i h0 h1
    exact ⟨foldl_modCore_mem (F := fun _ x => { x with
        remap := { x.remap with owner := some (launchNo s₀ t) }
        remapBefore := x.remapBefore.map (fun b => (b.1, { b.2 with owner := some (launchNo s₀ t) })) })
      (P := fun x => x.remap.owner = some (launchNo s₀ t)) (fun _ => rfl) hc, fun h => absurd h h0, fun h => absurd h h1⟩

/-- A REMAP of a thread alone: its issue, then its effect on the cores. -/
theorem exec_remap {e : Eff} (h : Alone s 0x2C2 f [] [] t) (he : remapEff f s t = .go e) :
    exec (.remap f) s = .next ((remapSet f s (runGroup 0x2C2 f [] [] (remapEff f) s) t).withGroup s.group) := by
  show Host.Outcome.next (runPerGang (runRemap f) s) = _
  rw [runPerGang_alone h.alone, runRemap, goers_alone h he]

theorem remapTakesAndSetsTheState : Rule.RemapTakesAndSetsTheState := by
  intro f s t h hfree htable
  obtain ⟨hsame, hacc⟩ := remapSet_sameProgram f s (runGroup 0x2C2 f [] [] (remapEff f) s) t
  have hframe : (runGroup 0x2C2 f [] [] (remapEff f) s).SameProgram
      ((remapSet f s (runGroup 0x2C2 f [] [] (remapEff f) s) t).withGroup s.group) := hsame.trans ⟨rfl, rfl, rfl⟩
  have hcores : ∀ {e : Eff}, remapEff f s t = .go e → e.exits = false → e.check = false → ∀ c ∈ s.unitCores (unitOfThread t),
      c ∈ (runGroup 0x2C2 f [] [] (remapEff f) s).unitCores (unitOfThread t) := fun he hx hc c hmem => by
    rwa [State.read_stage (runGroup_alone_stage h he hx hc) (fun s => s.unitCores (unitOfThread t)) fun _ => rfl]
  by_cases hm : f.bits 0 2 = 2
  case pos =>
    obtain ⟨hbad, hin⟩ := htable hm
    have he := remapEff_table h hfree hm hbad hin
    refine ⟨_, exec_remap h he, fun c hc => remapSet_remap f s _ t (hcores he rfl rfl c hc), fun _ => ⟨⟨_, (runGroup_send_sends h he).congr hacc,
      rfl, rfl⟩, ?_⟩, ?_, ?_, hframe.others (runGroup_alone_others h he (fun _ hw => absurd hw List.not_mem_nil) rfl)⟩
    · rw [hframe.thread]; exact runGroup_send_waits h he
    · rw [hframe.thread]; exact runGroup_send_pc h he
    · rw [hframe.thread]
      exact runGroup_send_kept (us := []) (bs := []) h he (fun _ hw => absurd hw List.not_mem_nil) (fun _ hr => hr) fun _ hn => hn
  case neg =>
    have he := remapEff_set hfree hm
    obtain ⟨hpc, hkept⟩ : _ ∧ Kept (s.thread t) ((runGroup 0x2C2 f [] [] (remapEff f) s).thread t) [] [] :=
      have hmoved := runGroup_moved h.toIssues he rfl rfl
      ⟨hmoved.pc, hmoved.kept⟩
    refine ⟨_, exec_remap h he, fun c hc => remapSet_remap f s _ t (hcores he rfl rfl c hc), fun h2 => absurd h2 hm, ?_, ?_,
      hframe.others (runGroup_alone_others h he (fun _ hw => absurd hw List.not_mem_nil) rfl)⟩
    · rw [hframe.thread]; exact hpc
    · rw [hframe.thread]; exact hkept

/-! CBLOAD. -/

/-- What CBLOAD sends: a read of 32 bytes, or out of bounds of none. -/
def bookRead (f : Fields) (s : State) (t : Nat) : Access :=
  { kind := .codebook, thread := t, group := 0, pc := s.pc, op := 0x300, f := f, addr := (cbAddr s f t).toNat,
    width := if cbOob s f t then 0 else 32, label := labelOf s 0x300 f t, aux := cbSlot f, inTrap := (s.thread t).inTrap }

theorem cbloadEff_sends (h : Alone s 0x300 f (bpPreds f) [] t) (hbad : (recOf s t f.a).bad = false)
    (hwaits : (cbOob s f t && !slotBusy s f t) = false) (htrap : (cbOob s f t && (recOf s t f.a).trap) = false) : cbloadEff f s t =
      .go (sendEff (bpWrite f (cbOob s f t) (labelOf s 0x300 f t)) [] [] (bookRead f s t) (some (.landing s.issue.serial))) := by
  simp only [cbloadEff, hbad, hwaits, htrap, isLeader_alone h, Bool.false_eq_true, if_false, if_true]
  rfl

theorem cbloadEff_outside (hbad : (recOf s t f.a).bad = false) (hoob : cbOob s f t = true) (htrap : (recOf s t f.a).trap = false)
    (hfree : slotBusy s f t = false) : cbloadEff f s t = .go { writes := bpWrite f true (labelOf s 0x300 f t) } := by
  simp [cbloadEff, hbad, hoob, htrap, hfree]

theorem exec_cbload {e : Eff} (h : Alone s 0x300 f (bpPreds f) [] t) (he : cbloadEff f s t = .go e) : exec (.cbload f) s = .next
    ((if cbOob s f t && !slotBusy s f t then
      writeBook (runGroup 0x300 f (bpPreds f) [] (cbloadEff f) s) (unitOfThread t) (cbSlot f) (s.clkOf t + 5)
        { entries := List.replicate 16 0, label := labelOf s 0x300 f t }
      else runGroup 0x300 f (bpPreds f) [] (cbloadEff f) s).withGroup s.group) := by
  show Host.Outcome.next (runPerGang (runCbload f) s) = _
  rw [runPerGang_alone h.alone, runCbload, goers_alone h he]

theorem writeBook_sameProgram (s : State) (u slot due : Nat) (b : Codebook) : s.SameProgram (writeBook s u slot due b) := by
  refine ⟨?_, ?_, ?_⟩ <;> rw [writeBook]
  · exact foldl_keeps _ State.threads _ _ fun _ _ _ => rfl
  · exact foldl_keeps _ State.gangs _ _ fun _ _ _ => rfl
  · exact foldl_keeps _ State.mem _ _ fun _ _ _ => rfl

/-- A CBLOAD that sends its read, or one that waits to write after an earlier one. -/
theorem cbload_sends (h : Alone s 0x300 f (bpPreds f) [] t) (hbad : (recOf s t f.a).bad = false)
    (hwaits : (cbOob s f t && !slotBusy s f t) = false) (htrap : (cbOob s f t && (recOf s t f.a).trap) = false) :
    ∃ s', exec (.cbload f) s = .next s' ∧ Sends s s' t (bookRead f s t) ∧ (s'.thread t).sched = .blocked (.landing s.issue.serial) ∧
      (s'.thread t).pc = nextPc s.pc ∧ Kept (s.thread t) (s'.thread t) [] (bpPreds f) ∧ Others s s' (bpPreds f) := by
  have he := cbloadEff_sends h hbad hwaits htrap
  have hexec := exec_cbload h he
  rw [hwaits, if_neg Bool.false_ne_true] at hexec
  have hsame : (runGroup 0x300 f (bpPreds f) [] (cbloadEff f) s).SameProgram
      ((runGroup 0x300 f (bpPreds f) [] (cbloadEff f) s).withGroup s.group) := ⟨rfl, rfl, rfl⟩
  exact ⟨_, hexec, (runGroup_send_sends h he).congr rfl, runGroup_send_waits h he, runGroup_send_pc h he,
    runGroup_send_kept (us := []) (bs := []) h he (bpWrite_within _ _) (fun _ hr => hr) fun _ hn => absurd hn List.not_mem_nil,
    hsame.others (runGroup_alone_others h he (bpWrite_within _ _) rfl)⟩

/-- Thirty-two bytes in bounds lie at no negative address. -/
theorem cbAddr_nonneg (h : cbOob s f t = false) : 0 ≤ cbAddr s f t := by
  simp only [cbOob, Rec.oob, Bool.or_eq_false_iff, decide_eq_false_iff_not] at h
  exact not_lt.1 h.1.2

theorem cbloadReadsItsSlot : Rule.CbloadReadsItsSlot := by
  intro f s t h hbad
  refine ⟨fun hin => ?inside, fun hoob htrap hbusy => ?waits, fun hoob htrap hfree => ?outside⟩
  case inside =>
    obtain ⟨s', hexec, hsends, hrest⟩ := cbload_sends h hbad (by simp [hin]) (by simp [hin])
    exact ⟨s', hexec, ⟨_, hsends, rfl, Int.toNat_of_nonneg (cbAddr_nonneg hin), if_neg (by simp [hin]), rfl⟩, hrest⟩
  case waits =>
    obtain ⟨s', hexec, hsends, hrest⟩ := cbload_sends h hbad (by simp [hbusy]) (by simp [htrap])
    exact ⟨s', hexec, ⟨_, hsends, rfl, if_pos hoob, rfl⟩, hrest⟩
  case outside =>
    have he := cbloadEff_outside hbad hoob htrap hfree
    have hexec := exec_cbload h he
    rw [show (cbOob s f t && !slotBusy s f t) = true by simp [hoob, hfree], if_pos rfl] at hexec
    have hstage := runGroup_alone_stage h he rfl rfl
    obtain ⟨hpc, hkept⟩ := runGroup_alone_writes h he (bpWrite_within _ _)
    have hothers := runGroup_alone_others h he (bpWrite_within _ _) rfl
    generalize runGroup 0x300 f (bpPreds f) [] (cbloadEff f) s = s₁ at hexec hstage hpc hkept hothers
    have hsame : s₁.SameProgram ((writeBook s₁ (unitOfThread t) (cbSlot f) (s.clkOf t + 5)
        { entries := List.replicate 16 0, label := labelOf s 0x300 f t }).withGroup s.group) :=
      (writeBook_sameProgram ..).trans ⟨rfl, rfl, rfl⟩
    refine ⟨_, hexec, fun c hc => ?_, ?_, ?_, hsame.others hothers⟩
    · have hcores : s₁.unitCores (unitOfThread t) = s.unitCores (unitOfThread t) :=
        State.read_stage hstage (fun s => s.unitCores (unitOfThread t)) fun _ => rfl
      have hcontext : contextOf s₁ c (s₁.unit (unitOfThread t)).launch = contextOf s c (launchNo s t) :=
        State.read_stage hstage (fun s => contextOf s c (s.unit (unitOfThread t)).launch) fun _ => rfl
      have hbook := (writeBook_written s₁ (unitOfThread t) (cbSlot f) (s.clkOf t + 5)
        { entries := List.replicate 16 0, label := labelOf s 0x300 f t }).2.2 c (by rwa [hcores])
      rw [hcontext] at hbook
      exact congrArg Codebook.entries hbook
    · rw [hsame.thread]; exact hpc
    · rw [hsame.thread]; exact hkept

end

/-- Settles O24: each instruction of the gather path is one effect of its thread, and what it marks or sets afterwards touches lines, remap states
and codebooks alone. -/
theorem gatherIssue : Obligations.GatherIssue :=
  ⟨remapModesOfTheGather, gathersLeaveAtIssue, remapTakesAndSetsTheState, cbloadReadsItsSlot⟩

end Sys2Proof.Machine
end

section
/-! SUPPORT. One word or one predicate as the whole effect of a thread that issues alone (R83, R86, R131, R292). -/

namespace Sys2Proof.Machine

section
variable {op : Nat} {f : Fields} {preds regs : List Nat} {eff : State → Nat → Res} {s : State} {t : Nat} {d : Opnd} {l : Label}

theorem runGroup_alone_word {x : Word} (h : Alone s op f preds regs t) (he : eff s t = .go { writes := wr32 d x l }) :
    ResultTy (runGroup op f preds regs eff s) t .b32 d (x.setWidth 64) ∧ ((runGroup op f preds regs eff s).thread t).pc = nextPc s.pc ∧
      Untouched s (runGroup op f preds regs eff s) t (resultRegs .b32 d) [] (resultUnis .b32 d) [] := by
  rw [wr32_setWidth] at he
  rw [runGroup_alone_const h he]
  obtain ⟨⟨-, -, -, -, -, hvalue⟩, hpc, hrest⟩ := runGroup_result (val := fun _ _ => x.setWidth 64) (lab := fun _ _ => l) (evs := fun _ _ => [])
    (ty := .b32) (d := d) h.toIssues
  exact ⟨hvalue, hpc, hrest⟩

theorem runGroup_alone_pred {b : Bool} (h : Alone s op f preds regs t) (he : eff s t = .go { writes := wrPred d b l }) :
    PredIn (runGroup op f preds regs eff s) t d b ∧ ((runGroup op f preds regs eff s).thread t).pc = nextPc s.pc ∧
      Untouched s (runGroup op f preds regs eff s) t [] (resultPreds d) [] [] := by
  rw [wrPred_eq] at he
  rw [runGroup_alone_const h he]
  have hwrites : ∀ u, (fun (_ : State) (_ : Nat) => Res.go { writes := predWrs l (destPred d b) }) s u =
      .go (resultPredsEff .b32 (.imm 0) 0 l (destPred d b) none) := fun _ => rfl
  have hpc := (runGroup_moved (eff := fun (_ : State) (_ : Nat) => Res.go { writes := predWrs l (destPred d b) }) h.toIssues rfl rfl rfl).pc
  refine ⟨predIn_of fun n hd => ?_, hpc, runGroup_resultPreds_untouched (ty := .b32) (d := .imm 0)
    (val := fun _ => 0) (lab := fun _ => l) (ps := fun _ => destPred d b) (high := fun _ => none) h.toIssues hwrites fun _ _ => by rw [destPred_fst]⟩
  exact runGroup_resultPreds_pred (val := fun _ => 0) (lab := fun _ => l) (ps := fun _ => destPred d b) (high := fun _ => none) h.toIssues hwrites
    (qs₁ := []) (qs₂ := []) (by rw [hd]; rfl) (by simp)

end

namespace State.SameProgram
variable {s₀ s s' : State} {t : Nat}

theorem untouched {ds ps us bs : List Nat} (h : s.SameProgram s') (k : Untouched s₀ s t ds ps us bs) : Untouched s₀ s' t ds ps us bs :=
  ⟨by rw [h.thread]; exact k.thread, fun u hu => by rw [h.thread]; exact k.threads u hu, fun g => by rw [h.gang]; exact k.gangs g,
    fun a => by rw [h.mem]; exact k.memory a⟩

theorem resultTy {ty : Ty} {d : Opnd} {v : DWord} (h : s.SameProgram s') (k : ResultTy s t ty d v) : ResultTy s' t ty d v :=
  k.congr (fun _ => by rw [h.thread]; exact ⟨rfl, rfl⟩) fun _ => by rw [h.gang]

theorem predIn {d : Opnd} {b : Bool} (h : s.SameProgram s') (k : PredIn s t d b) : PredIn s' t d b := by
  simp only [PredIn, PredIs, h.thread] at k ⊢
  exact k

end State.SameProgram
end Sys2Proof.Machine
end

section
/-! O33: CNTRD and CANCEL (R383, R388, R389). -/

namespace Sys2Proof.Machine

section
variable {f : Fields} {s : State} {t : Nat}

/-- A thread that names a handle runs on a control core: no trap. -/
theorem level_noTrap (h : levelCode f ≠ 0 ∨ s.coreOf t % 5 = 4) : (decide (levelCode f = 0) && !isControl (s.coreOf t)) = false := by
  rcases h with h | h <;> simp [isControl, h]

/-! CNTRD. -/

theorem cntrdEff_reads (h : levelCode f ≠ 0 ∨ s.coreOf t % 5 = 4) : cntrdEff f s t =
    .go { writes := wr32 f.d (cntrdValue s f t) (labelOf s 0x34B f t ||| ((namedLevel s f t).map Prod.snd).getD 0) } := by
  rw [cntrdEff, if_neg (by rw [level_noTrap h]; exact Bool.false_ne_true)]

theorem freeRead_sameProgram (f : Fields) (s₀ s : State) (t : Nat) : s.SameProgram (freeRead f s₀ s t) := by
  simp only [freeRead]
  split
  · split
    · exact ⟨rfl, rfl, rfl⟩
    · exact .refl s
  · exact .refl s

/-- The table CNTRD Results. -/
theorem cntrdValue_open {x : Level} (h : (namedLevel s f t).bind (fun k => s.levelAt k.1) = some x) (ho : x.outcome = none) :
    cntrdValue s f t = if f.bit 3 then 0xFFFFFFFF else counterWord s x.counter := by simp only [cntrdValue, h, ho]

theorem cntrdValue_decided {x : Level} {v : Nat} (h : (namedLevel s f t).bind (fun k => s.levelAt k.1) = some x) (ho : x.outcome = some v) :
    cntrdValue s f t = if f.bit 3 then BitVec.ofNat 32 v else 0 := by simp only [cntrdValue, h, ho]

theorem cntrdValue_unnamed (h : (namedLevel s f t).bind (fun k => s.levelAt k.1) = none) :
    cntrdValue s f t = if f.bit 3 then 0xFFFFFFFE else 0 := by simp only [cntrdValue, h]

/-- A word written as the low word of a pair. -/
theorem resultTy_word {d : Opnd} {x : Word} {v : DWord} (h : ResultTy s t .b32 d (x.setWidth 64)) (hx : x = v.lo) : ResultTy s t .b32 d v := by
  have hlo : DWord.lo (x.setWidth 64) = x := by simp [DWord.lo]
  rw [show ResultTy s t .b32 d (x.setWidth 64) = Result32 s t d (DWord.lo (x.setWidth 64)) from rfl, hlo, hx] at h
  exact h

theorem ofNat_lo (n : Nat) : DWord.lo (BitVec.ofNat 64 n) = BitVec.ofNat 32 n := by
  refine BitVec.eq_of_toNat_eq ?_
  simp only [DWord.lo, BitVec.toNat_setWidth, BitVec.toNat_ofNat]
  omega

/-! CANCEL. -/

/-- The lane that is decided first is the only one. -/
theorem cancelWins_alone (h : Alone s 0x34C f [] [] t) : cancelWins s f t = (namedLevel s f t).any (fun k => cancelTakes s k.1) := by
  have hfirst : firstLane s 0x34C f = some t := by simp [firstLane, h.alone, h.ready, h.toIssues.checkIn]
  cases hk : namedLevel s f t <;> simp [cancelWins, hfirst, hk]

theorem cancelEff_writes (h : levelCode f ≠ 0 ∨ s.coreOf t % 5 = 4) :
    cancelEff f s t = .go { writes := wrPred f.d (cancelWins s f t) (labelOf s 0x34C f t) } := by
  rw [cancelEff, if_neg (by rw [level_noTrap h]; exact Bool.false_ne_true)]

/-- A cancel marks levels, units and copies, and takes entries from queues. -/
theorem cancelAt_sameProgram (s : State) (k : Nat) : s.SameProgram (cancelAt s k) := by
  have hmark : ∀ (ls : List Nat) (s : State), s.SameProgram (markLevels s ls) :=
    fun ls s => State.SameProgram.foldl (fun s n => s.modLevel n Level.marked) (fun b n => ⟨rfl, rfl, rfl⟩) ls s
  have hcount : ∀ (ls : List Nat) (s : State), s.SameProgram (ls.foldl recountLevel s) := State.SameProgram.foldl recountLevel fun b n => by
    rw [recountLevel]
    split <;> exact ⟨rfl, rfl, rfl⟩
  rw [cancelAt_eq]
  exact (((⟨rfl, rfl, rfl⟩ : s.SameProgram (stopWork s k)).trans (hmark _ _)).trans (hcount _ _)).trans ⟨rfl, rfl, rfl⟩

/-- A CANCEL of a thread alone: its predicate, then the cancel. -/
theorem exec_cancelLevel (h : Alone s 0x34C f [] [] t) (hc : levelCode f ≠ 0 ∨ s.coreOf t % 5 = 4) :
    exec (.cancelLevel f) s = .next (if cancelWins s f t then
      (match namedLevel s f t with
        | some k => cancelAt (runGroup 0x34C f [] [] (cancelEff f) s) k.1
        | none => runGroup 0x34C f [] [] (cancelEff f) s)
      else runGroup 0x34C f [] [] (cancelEff f) s) := by
  show execCancelLevel f s = _
  rw [execCancelLevel, goers_alone h (cancelEff_writes hc)]
  rfl

/-- A CANCEL that takes no effect. -/
theorem cancel_without_effect (h : Alone s 0x34C f [] [] t) (hc : levelCode f ≠ 0 ∨ s.coreOf t % 5 = 4) (hw : cancelWins s f t = false) :
    ∃ s', exec (.cancelLevel f) s = .next s' ∧ PredIn s' t f.d false ∧ s'.levels = s.levels ∧ (s'.thread t).pc = nextPc s.pc ∧
      Untouched s s' t [] (resultPreds f.d) [] [] := by
  have he := cancelEff_writes hc
  obtain ⟨hpred, hpc, hrest⟩ := runGroup_alone_pred h he
  rw [hw] at hpred
  exact ⟨_, (exec_cancelLevel h hc).trans (by rw [hw]; rfl), hpred,
    State.read_stage (runGroup_alone_stage h he rfl rfl) State.levels fun _ => rfl, hpc, hrest⟩

/-- A CANCEL that takes effect on level k. -/
theorem cancel_with_effect {k : Nat × Label} (h : Alone s 0x34C f [] [] t) (hc : levelCode f ≠ 0 ∨ s.coreOf t % 5 = 4)
    (hk : namedLevel s f t = some k) (htakes : cancelTakes s k.1 = true) :
    ∃ s', exec (.cancelLevel f) s = .next s' ∧ PredIn s' t f.d true ∧ CancelledAt s' k.1 ∧ (s'.thread t).pc = nextPc s.pc ∧
      Untouched s s' t [] (resultPreds f.d) [] [] := by
  have hw : cancelWins s f t = true := by rw [cancelWins_alone h, hk]; exact htakes
  have he := cancelEff_writes hc
  obtain ⟨hpred, hpc, hrest⟩ := runGroup_alone_pred h he
  rw [hw] at hpred
  have hexec := exec_cancelLevel h hc
  rw [hw, if_pos rfl, hk] at hexec
  have hsame := cancelAt_sameProgram (runGroup 0x34C f [] [] (cancelEff f) s) k.1
  refine ⟨_, hexec, hsame.predIn hpred, cancelledAt_self ?_, ?_, hsame.untouched hrest⟩
  · rw [← htakes]
    exact State.read_stage (runGroup_alone_stage h he rfl rfl) (fun s => cancelTakes s k.1) fun _ => rfl
  · rw [hsame.thread]
    exact hpc

theorem cancelWins_false (h : Alone s 0x34C f [] [] t) (hno : ∀ k, namedLevel s f t = some k → cancelTakes s k.1 = false) :
    cancelWins s f t = false := by
  rw [cancelWins_alone h]
  cases hk : namedLevel s f t with
  | none => rfl
  | some k => exact hno k hk

theorem levelsAreReadAndCancelled : Rule.LevelsAreReadAndCancelled := by
  refine fun f s t => ⟨fun h hc => ?read, fun h hc hno => ?cancel⟩
  case read =>
    have he := cntrdEff_reads hc
    obtain ⟨hvalue, hpc, hrest⟩ := runGroup_alone_word h he
    have hsame := freeRead_sameProgram f s (runGroup 0x34B f [] [] (cntrdEff f) s) t
    have hexec : exec (.cntrd f) s = .next (freeRead f s (runGroup 0x34B f [] [] (cntrdEff f) s) t) := by
      show execCntrd f s = _
      rw [execCntrd, goers_alone h he]
      rfl
    have hresult : ∀ v : DWord, cntrdValue s f t = v.lo → ResultTy (freeRead f s (runGroup 0x34B f [] [] (cntrdEff f) s) t) t .b32 f.d v :=
      fun v hv => hsame.resultTy (resultTy_word hvalue hv)
    refine ⟨_, hexec, fun x hx ho => ⟨fun hst => hresult _ ?_, fun hst hlt => hresult _ ?_⟩, fun x v hx ho => hresult _ ?_, fun hx => hresult _ ?_, ?_,
      hsame.untouched hrest⟩
    · rw [cntrdValue_open hx ho, if_pos hst]; rfl
    · rw [cntrdValue_open hx ho, if_neg (by simp [hst]), counterWord, if_pos hlt, ofNat_lo]
    · rw [cntrdValue_decided hx ho]
      split
      · exact (ofNat_lo v).symm
      · rfl
    · rw [cntrdValue_unnamed hx]
      split <;> rfl
    · rw [hsame.thread]
      exact hpc
  case cancel =>
    obtain ⟨s', hexec, hpred, -, hpc, hrest⟩ := cancel_without_effect h hc (cancelWins_false h hno)
    exact ⟨s', hexec, hpred, hpc, hrest⟩

theorem cancelLevelTakesEffect : Rule.CancelTakesEffect := by
  intro f s t h hc
  cases hw : cancelWins s f t with
  | false =>
    obtain ⟨s', hexec, hpred, hlevels, hpc, hrest⟩ := cancel_without_effect h hc hw
    refine ⟨s', hexec, hpc, hrest, fun k hk htakes => ?_, fun _ => ⟨hpred, hlevels⟩⟩
    rw [cancelWins_alone h, hk] at hw
    exact absurd (htakes.symm.trans hw) (by decide)
  | true =>
    obtain ⟨k, hk, htakes⟩ := (Option.any_eq_true _ _).1 ((cancelWins_alone h).symm.trans hw)
    obtain ⟨s', hexec, hpred, hcancelled, hpc, hrest⟩ := cancel_with_effect h hc hk htakes
    refine ⟨s', hexec, hpc, hrest, fun k' hk' _ => ⟨hpred, ?_⟩, fun hno => ?_⟩
    · obtain rfl := Option.some.inj (hk.symm.trans hk')
      exact hcancelled
    · exact absurd (htakes.symm.trans (hno k hk)) (by decide)

end

/-- Settles O33: CNTRD's word is that of its table and CANCEL's predicate is whether the cancel takes effect, and what a cancel marks is no register,
no predicate and no byte. -/
theorem levelsFromTheDevice : Obligations.LevelsFromTheDevice := ⟨levelsAreReadAndCancelled, cancelLevelTakesEffect⟩

end Sys2Proof.Machine
end

section
/-! SUPPORT. A gang that arrives whole at a form that the builder holds and whose effect is at most a wait, and threads that wait for one thing and go on
together (R120, R336, R378). -/

namespace Sys2Proof.Machine

/-! The arrival. -/

section
variable {s : State} {op : Nat} {f : Fields} {g : Nat}

theorem arrived_rescheduled (s : State) : s.Rescheduled (arrived s) := .holdAll ..

/-- A form held for the whole gang acts once, for the gang that has arrived. -/
theorem runBar_arrives (h : GangArrives s op f [] g) (hh : holdOf op f = some .held) (act : State → Nat → State) :
    runBar op f act s = act (arrived s) g := by
  rw [runBar, gangsOf_of_gangArrives h, arrive_of_gangArrives h, List.foldl_cons, List.foldl_nil, if_pos (holdIssues_arrived h hh)]

/-- A predicate that a thread has kept decides its guard as before. -/
theorem Kept.guardTrue {s' : State} {t : Nat} (h : Kept (s.thread t) (s'.thread t) [] []) (f : Fields) :
    Machine.guardTrue s' t f = Machine.guardTrue s t f := by
  rw [Machine.guardTrue, (h.preds _ (by simp)).1]
  rfl

end

/-! An effect that is at most a wait. -/

section
variable {op : Nat} {f : Fields} {l : Label} {full first early : Bool} {s : State} {t u : Nat} {w : Option Why}

theorem uniOnce_waiting (serial : Nat) (c : List (Nat × List Wr)) (t : Nat) (w : Option Why) :
    uniOnce serial c t { wait := w } = { wait := w } := if_neg (by simp)

/-- The place of a thread that has met such an effect. -/
def waitingAt (w : Option Why) : Sched := (w.map Sched.blocked).getD .ready

theorem applyEff_waiting_sched (hr : (s.thread t).sched = .ready) :
    ((applyEff f l full first early t s { wait := w }).thread t).sched = waitingAt w := by
  cases w with
  | some v => exact applyEff_waits l full first early hr rfl rfl rfl
  | none =>
    have hact : ((Eff.act {} full first t s).thread t).sched = .ready := (congrArg Prod.fst (Eff.act_standing {} full first t s)).trans hr
    simp only [applyEff, Eff.close, Bool.false_and, Bool.false_eq_true, if_false]
    simp [Eff.leave, retire, State.charge, State.addAccesses, hact, waitingAt]

theorem applyEff_waiting_ne (h : t ≠ u) : (applyEff f l full first early u s { wait := w }).thread t = s.thread t := by
  simp only [applyEff, Eff.close, Bool.false_and, Bool.false_eq_true, if_false]
  cases w with
  | some v => rw [State.thread_block_ne _ h, Eff.leave_thread_ne _ _ _ _ h, Eff.act_thread_ne _ _ _ h]
  | none => rw [Eff.leave_thread_ne _ _ _ _ h, Eff.act_thread_ne _ _ _ h]

theorem applyEff_waiting_moved :
    Thread.Moved (Eff.onThread { wait := w } (s.thread t)) ((applyEff f l full first early t s { wait := w }).thread t) (nextPc s.pc) :=
  applyEff_moved f l full first early t s { wait := w } rfl rfl

theorem applyEff_waiting_gangs : (applyEff f l full first early t s { wait := w }).gangs = s.gangs := by
  have hleave : (Eff.leave { wait := w } f full early t (nextPc s.pc) (Eff.act { wait := w } full first t s)).gangs = s.gangs := by
    rw [Eff.leave, Eff.act]
    rfl
  cases w with
  | some v => exact hleave
  | none => exact hleave

theorem waitingEff_onThread (w : Option Why) (x : Thread) : Thread.Moved x (Eff.onThread { wait := w } x) x.pc := by
  constructor <;> rfl

/-- Threads that meet such an effect one after another: where `L`, `A` and `B` are the label and the marks that each has. -/
def waitAll (f : Fields) (w : Option Why) (L : Nat → Label) (A B : Nat → Bool) (ts : List Nat) (s : State) : State :=
  ts.foldl (fun b u => applyEff f (L u) (A u) (B u) true u b { wait := w }) s

/-- What is performed for threads with a true guard is that effect for each, once they are released. -/
theorem perform_eq_waitAll {ts : List Nat} (hg : ∀ t ∈ ts, guardTrue s t f = true) :
    ∃ A B, perform op f ts (fun _ _ => { wait := w }) s = waitAll f w (labelOf s op f) A B ts (s.release ts) := by
  refine ⟨fun t => fullGang s (gangOf t) (ts.filter (guardTrue s · f)), fun t => isFirst (ts.filter (guardTrue s · f)) t,
    List.foldl_ext _ _ _ fun b u hu => ?_⟩
  rw [if_pos (hg u hu), uniOnce_waiting]

section
variable {L : Nat → Label} {A B : Nat → Bool} {ts : List Nat}

theorem waitAll_sched (hn : ts.Nodup) (ht : t ∈ ts) (hr : (s.thread t).sched = .ready) :
    ((waitAll f w L A B ts s).thread t).sched = waitingAt w := by
  induction ts generalizing s with
  | nil => cases ht
  | cons u us ih =>
    obtain ⟨hu, hus⟩ := List.nodup_cons.1 hn
    rw [waitAll, List.foldl_cons]
    by_cases htu : t = u
    · subst htu
      refine Eq.trans ?_ (applyEff_waiting_sched (f := f) (l := L t) (full := A t) (first := B t) (early := true) (w := w) hr)
      exact foldl_keeps _ (fun s => (State.thread s t).sched) us _ fun b v hv => by rw [applyEff_waiting_ne (show t ≠ v from fun h => hu (h ▸ hv))]
    · refine ih hus ((List.mem_cons.1 ht).resolve_left htu) ?_
      rw [applyEff_waiting_ne htu]
      exact hr

theorem waitAll_moved (hn : ts.Nodup) (ht : t ∈ ts) : Thread.Moved (s.thread t) ((waitAll f w L A B ts s).thread t) (nextPc s.pc) :=
  foldl_moved _ (fun b u t htu => by rw [applyEff_waiting_ne htu]) (fun b u => applyEff_issue ..)
    (fun b u _ => (waitingEff_onThread w _).trans applyEff_waiting_moved) hn ht s

theorem waitAll_gangs : (waitAll f w L A B ts s).gangs = s.gangs := foldl_keeps _ State.gangs _ _ fun _ _ _ => applyEff_waiting_gangs

theorem waitAll_stage : (waitAll f w L A B ts s).stage = s.stage := foldl_keeps _ State.stage _ _ fun _ _ _ => applyEff_stage _ _ _ _ rfl rfl

end

theorem State.release_gangs (ts : List Nat) (s : State) : (s.release ts).gangs = s.gangs := foldl_keeps _ State.gangs _ _ fun _ _ _ => rfl
theorem State.release_stage (ts : List Nat) (s : State) : (s.release ts).stage = s.stage := foldl_keeps _ State.stage _ _ fun _ _ _ => rfl

/-- What is performed for threads with a true guard, where it does nothing to a thread but let it wait. -/
theorem perform_waiting {ts : List Nat} (hn : ts.Nodup) (hg : ∀ t ∈ ts, guardTrue s t f = true) (ht : t ∈ ts) :
    ((perform op f ts (fun _ _ => { wait := w }) s).thread t).pc = nextPc s.pc ∧
      Kept (s.thread t) ((perform op f ts (fun _ _ => { wait := w }) s).thread t) [] [] ∧
      ((perform op f ts (fun _ _ => { wait := w }) s).thread t).sched = waitingAt w := by
  obtain ⟨A, B, heq⟩ := perform_eq_waitAll (op := op) (w := w) hg
  rw [heq]
  have hmoved := waitAll_moved (f := f) (w := w) (L := labelOf s op f) (A := A) (B := B) (s := s.release ts) hn ht
  rw [show (s.release ts).pc = s.pc from congrArg Issue.pc (State.release_issue ts s)] at hmoved
  exact ⟨hmoved.pc, (s.release_moved ts t).kept.trans hmoved.kept, waitAll_sched hn ht (State.release_sched _ _ (.inl ht))⟩

theorem perform_waiting_gangs {ts : List Nat} (hg : ∀ t ∈ ts, guardTrue s t f = true) :
    (perform op f ts (fun _ _ => { wait := w }) s).gangs = s.gangs := by
  obtain ⟨A, B, heq⟩ := perform_eq_waitAll (op := op) (w := w) hg
  rw [heq, waitAll_gangs, State.release_gangs]

/-- A gang that arrives whole at a form whose effect is at most a wait: each thread stands at the next instruction, and waits or is ready. -/
theorem perform_arrived {g : Nat} {b : State} (h : GangArrives s op f [] g) (hb : ∀ t ∈ s.group, Kept (s.thread t) (b.thread t) [] [])
    (hpc : b.pc = s.pc) (ht : t ∈ s.group) : ((perform op f s.group (fun _ _ => { wait := w }) b).thread t).pc = nextPc s.pc ∧
      Kept (s.thread t) ((perform op f s.group (fun _ _ => { wait := w }) b).thread t) [] [] ∧
      ((perform op f s.group (fun _ _ => { wait := w }) b).thread t).sched = waitingAt w ∧
      (perform op f s.group (fun _ _ => { wait := w }) b).gangs = b.gangs := by
  have hguard : ∀ t ∈ s.group, guardTrue b t f = true := fun t ht => ((hb t ht).guardTrue f).trans (h.issues t ht).1.1.guard
  obtain ⟨hnext, hkept, hsched⟩ := perform_waiting (op := op) (w := w) h.nodup hguard ht
  exact ⟨hpc ▸ hnext, (hb t ht).trans hkept, hsched, perform_waiting_gangs hguard⟩

theorem arrived_kept (s : State) (t : Nat) : Kept (s.thread t) ((arrived s).thread t) [] [] := (Kept.of_body (arrived_body s t)).2

end

/-! Threads that wait for one thing. -/

/-- The threads of a list that wait for one thing go on. -/
def wakeAll (w : Why) (ts : List Nat) (s : State) : State :=
  ts.foldl (fun s t => if (s.thread t).sched == .blocked w then s.unblock t else s) s

section
variable {w : Why} {ts : List Nat} {s : State} {t : Nat}

theorem wakeAll_sched (h : t ∈ ts ∧ (s.thread t).sched = .blocked w ∨ (s.thread t).sched = .ready) :
    ((wakeAll w ts s).thread t).sched = .ready := by
  induction ts generalizing s with
  | nil => exact h.resolve_left (by simp)
  | cons u us ih =>
    refine ih ?_
    by_cases htu : t = u
    · subst htu
      rcases h with ⟨-, hb⟩ | hr
      · exact .inr (by simp [hb, State.unblock])
      · exact .inr (by simp [hr])
    · have hkeep : ((if (s.thread u).sched == .blocked w then s.unblock u else s).thread t).sched = (s.thread t).sched := by
        split
        · simp [State.unblock, htu]
        · rfl
      exact h.imp (fun h => ⟨(List.mem_cons.1 h.1).resolve_left htu, hkeep.trans h.2⟩) hkeep.trans

theorem threadsOfUnit_modUnit (s : State) (u v : Nat) {F : Unit → Unit} (hF : ∀ x, (F x).gangs = x.gangs) :
    (s.modUnit u F).threadsOfUnit v = s.threadsOfUnit v := by
  have hgangs : ((s.modUnit u F).unit v).gangs = (s.unit v).gangs := by
    rw [State.modUnit, State.unit_setUnit]
    split
    · rename_i h; subst h; exact hF _
    · rfl
  rw [State.threadsOfUnit, State.threadsOfUnit, State.gangsOfUnit, State.gangsOfUnit, hgangs]
  rfl

theorem wakeAll_gang (g : Nat) : (wakeAll w ts s).gang g = s.gang g := foldl_keeps _ (State.gang · g) _ _ fun _ _ _ => by split <;> rfl
theorem wakeAll_unit (u : Nat) : (wakeAll w ts s).unit u = s.unit u := foldl_keeps _ (State.unit · u) _ _ fun _ _ _ => by split <;> rfl

end
end Sys2Proof.Machine
end

section
/-! O31: unit barriers and the event queue (R321, R346, R347, R377, R378). -/

namespace Sys2Proof.Machine

/-! Barriers. -/

section
variable {s : State} {f : Fields} {g op k : Nat} {waits : Bool}

theorem markPast_thread (b : Bool) (ts : List Nat) (s : State) (t : Nat) : Kept (s.thread t) ((markPast b s ts).thread t) [] [] := by
  induction ts generalizing s with
  | nil => exact .refl _ _ _
  | cons u us ih =>
    refine Kept.trans ?_ (ih (s.modThread u (fun x => { x with pastCheck := b })))
    rw [State.thread_modThread]
    split
    · rename_i h
      subst h
      exact ⟨fun _ _ => ⟨rfl, rfl⟩, fun _ _ => ⟨rfl, rfl⟩, rfl, rfl, ⟨rfl, rfl, rfl, rfl⟩, rfl⟩
    · exact .refl _ _ _

theorem markPast_gangs (b : Bool) (ts : List Nat) (s : State) : (markPast b s ts).gangs = s.gangs := foldl_keeps _ State.gangs _ _ fun _ _ _ => rfl
theorem markPast_issue (b : Bool) (ts : List Nat) (s : State) : (markPast b s ts).issue = s.issue := foldl_keeps _ State.issue _ _ fun _ _ _ => rfl

theorem publishAll_sched (n : Nat) (ts : List Nat) (s : State) (t : Nat) : ((publishAll n s ts).thread t).sched = (s.thread t).sched :=
  foldl_keeps _ (fun s => (State.thread s t).sched) _ _ fun b u _ => by
    rw [State.thread_modThread]
    split
    · rename_i h; subst h; rfl
    · rfl

theorem publishAll_gangs (n : Nat) (ts : List Nat) (s : State) : (publishAll n s ts).gangs = s.gangs := foldl_keeps _ State.gangs _ _ fun _ _ _ => rfl

/-- The fence and the check point see nothing of the hold. -/
theorem arrived_fenceDone (s : State) (t scope : Nat) : fenceDone (arrived s) t scope = fenceDone s t scope := by
  have hr := arrived_rescheduled s
  have hpend : ((arrived s).thread t).pend = (s.thread t).pend := hr.read t Thread.pend fun _ => rfl
  have hwrite : ((arrived s).thread t).writeG = (s.thread t).writeG := hr.read t Thread.writeG fun _ => rfl
  have hvalue : ((arrived s).thread t).valueG = (s.thread t).valueG := hr.read t Thread.valueG fun _ => rfl
  simp only [fenceDone, hpend, hwrite, hvalue]
  rw [arrived_eq]
  rfl

theorem arrived_mustDeliver (s : State) (t : Nat) : (arrived s).mustDeliver t = s.mustDeliver t :=
  State.mustDeliver_congr (by rw [arrived_eq]; rfl) (arrived_inTrap s t)

theorem arrived_meetsCheck (s : State) (t : Nat) : (arrived s).meetsCheck t = s.meetsCheck t := by
  rw [State.meetsCheck, arrived_mustDeliver, (arrived_rescheduled s).read t Thread.pastCheck fun _ => rfl]
  rfl

/-- The state that a gang leaves which arrives at a phase. -/
def arrivedAt (op : Nat) (f : Fields) (waits : Bool) (s : State) (g : Nat) : State :=
  (publishAll (barScope s g f) (perform op f s.group (fun _ _ =>
    { wait := if waits then some (.barrier (f.bits 0 4) (s.phase g (f.bits 0 4))) else none }) (markPast false (arrived s) s.group)) s.group).modGang g
      (fun x => { x with arrivals := tabPut x.arrivals (f.bits 0 4) (s.phase g (f.bits 0 4)) })

theorem arriveBar_arrives (h : GangArrives s op f [] g) (hh : holdOf op f = some .held) (ho : openArrival s g (f.bits 0 4) = none)
    (hd : ∀ t ∈ s.group, s.meetsCheck t = false ∧ fenceDone s t (barScope s g f) = true) :
    arriveBar op f waits (arrived s) g = arrivedAt op f waits s g := by
  have hopen : openArrival (arrived s) g (barNumber f) = none := by rw [← ho, arrived_eq]; rfl
  have hscope : barScope (arrived s) g f = barScope s g f := by rw [arrived_eq]; rfl
  have hphase : (arrived s).phase g (barNumber f) = s.phase g (f.bits 0 4) := by rw [arrived_eq]; rfl
  have hheld : (arrived s).heldAt g (arrived s).pc = s.group := by rw [arrived_pc]; exact heldAt_arrived h hh
  have hcheck : s.group.any (arrived s).meetsCheck = false :=
    List.any_eq_false.2 fun t ht => by rw [arrived_meetsCheck, (hd t ht).1]; exact Bool.false_ne_true
  have hfence : s.group.any (fun t => !fenceDone (arrived s) t (barScope s g f)) = false :=
    List.any_eq_false.2 fun t ht => by rw [arrived_fenceDone, (hd t ht).2]; exact Bool.false_ne_true
  simp only [arriveBar, hheld, hopen, hscope, hphase, hcheck, hfence, Bool.false_eq_true, if_false]
  rfl

theorem holdOf_bar : ∀ x ∈ arriveForms, ∀ f, holdOf x.2.1 f = some .held := by
  simp only [arriveForms, List.forall_mem_cons, List.not_mem_nil, false_imp_iff, implies_true, and_true]
  exact ⟨fun _ => rfl, fun _ => rfl⟩

theorem exec_arriveForms : ∀ x ∈ arriveForms, ∀ f s, exec (x.1 f) s = .next (runBar x.2.1 f (arriveBar x.2.1 f x.2.2) s) := by
  simp only [arriveForms, List.forall_mem_cons, List.not_mem_nil, false_imp_iff, implies_true, and_true]
  exact ⟨fun _ _ => rfl, fun _ _ => rfl⟩

/-- A gang of which only bookkeeping has changed. -/
theorem GangKept.of_fields {x y : Gang} (hs : y.sregs = x.sregs) (hsl : y.sregLabel = x.sregLabel) (hb : y.brecs = x.brecs) (hbl : y.blabel = x.blabel)
    (ht : y.tileLabel = x.tileLabel) (hp : y.predLabel = x.predLabel) (hc : y.ctl = x.ctl) (hpart : y.part = x.part) :
    GangKept x y [] [] [] [] :=
  ⟨fun r _ => ⟨by simp only [Gang.sreg, hs], by rw [hsl]⟩, fun r _ => by rw [hb, hbl]; exact ⟨rfl, rfl⟩, fun r _ => by rw [ht], fun n _ => by rw [hp],
    fun i hi => by rwa [hc], hpart⟩

theorem others_modGang {s s' : State} {F : Gang → Gang} (hg : s'.gangs = s.gangs) (hm : s'.mem = s.mem)
    (hF : ∀ x, GangKept x (F x) [] [] [] []) : Others s (s'.modGang g F) := by
  refine ⟨fun k => ?_, fun a => by rw [← hm]; rfl⟩
  have hgang : s'.gang k = s.gang k := by simp only [State.gang, hg]
  rw [State.gang_modGang]
  split
  · rename_i e; subst e; rw [hgang]; exact hF _
  · rw [hgang]; exact .refl _ _ _ _ _

theorem others_of_gangs {s s' : State} (hg : s'.gangs = s.gangs) (hm : s'.mem = s.mem) : Others s s' :=
  ⟨fun k => by rw [State.gang, State.gang, hg]; exact .refl _ _ _ _ _, fun a => by rw [hm]⟩

/-- What the gang leaves that arrives at a phase. -/
theorem arrivedAt_done (h : GangArrives s op f [] g) : tabGet ((arrivedAt op f waits s g).gang g).arrivals (f.bits 0 4) = some (s.phase g (f.bits 0 4)) ∧
    (∀ t ∈ s.group, ((arrivedAt op f waits s g).thread t).pc = nextPc s.pc ∧ Kept (s.thread t) ((arrivedAt op f waits s g).thread t) [] [] ∧
      ((arrivedAt op f waits s g).thread t).sched = if waits then .blocked (.barrier (f.bits 0 4) (s.phase g (f.bits 0 4))) else .ready) ∧
    Others s (arrivedAt op f waits s g) := by
  have hkept : ∀ t ∈ s.group, Kept (s.thread t) ((markPast false (arrived s) s.group).thread t) [] [] := fun t _ =>
    (arrived_kept s t).trans (markPast_thread ..)
  have hpc : (markPast false (arrived s) s.group).pc = s.pc := (congrArg Issue.pc (markPast_issue ..)).trans (arrived_pc s)
  have hperform := fun t ht => perform_arrived (t := t) (op := op) (f := f)
    (w := if waits then some (.barrier (f.bits 0 4) (s.phase g (f.bits 0 4))) else none) h hkept hpc ht
  obtain ⟨t₀, ht₀⟩ := List.exists_mem_of_ne_nil _ h.nonempty
  refine ⟨by simp [arrivedAt], fun t ht => ?_, others_modGang ?_ ?_ fun x => .of_fields rfl rfl rfl rfl rfl rfl rfl rfl⟩
  · obtain ⟨hnext, hk, hsched, -⟩ := hperform t ht
    obtain ⟨hpc', hk'⟩ := publishAll_thread (barScope s g f) s.group (perform op f s.group (fun _ _ =>
      { wait := if waits then some (.barrier (f.bits 0 4) (s.phase g (f.bits 0 4))) else none }) (markPast false (arrived s) s.group)) t
    refine ⟨hpc'.trans hnext, hk.trans hk', (publishAll_sched ..).trans (hsched.trans ?_)⟩
    cases waits <;> rfl
  · rw [publishAll_gangs, (hperform t₀ ht₀).2.2.2, markPast_gangs, arrived_eq]
    rfl
  · rw [publishAll_mem, perform_mem, markPast_mem, (arrived_rescheduled s).mem]

theorem barriersArriveAndWait : Rule.BarriersArriveAndWait := by
  refine fun f s g => ⟨fun x hx h ho hd => ?arrive, fun h => ?wait⟩
  case arrive =>
    refine ⟨arrivedAt x.2.1 f x.2.2 s g, ?_, arrivedAt_done h⟩
    rw [exec_arriveForms x hx, runBar_arrives h (holdOf_bar x hx f), arriveBar_arrives h (holdOf_bar x hx f) ho hd]
  case wait =>
    have hopen : openArrival (arrived s) g (barNumber f) = openArrival s g (f.bits 0 4) := by rw [arrived_eq]; rfl
    have hheld : (arrived s).heldAt g (arrived s).pc = s.group := by rw [arrived_pc]; exact heldAt_arrived h rfl
    have hexec : exec (.barw f) s = .next (perform 0x343 f s.group (fun _ _ =>
        { wait := (openArrival s g (f.bits 0 4)).map (Why.barrier (f.bits 0 4)) }) (arrived s)) := by
      show Host.Outcome.next (runBar 0x343 f (waitBar f) s) = _
      rw [runBar_arrives h rfl, waitBar, hheld, hopen]
      rfl
    have hperform := fun t ht => perform_arrived (t := t) (op := 0x343) (f := f)
      (w := (openArrival s g (f.bits 0 4)).map (Why.barrier (f.bits 0 4))) h (fun t _ => arrived_kept s t) (arrived_pc s) ht
    obtain ⟨t₀, ht₀⟩ := List.exists_mem_of_ne_nil _ h.nonempty
    refine ⟨_, hexec, fun t ht => ?_, others_of_gangs ?_ ?_⟩
    · obtain ⟨hnext, hk, hsched, -⟩ := hperform t ht
      refine ⟨hnext, hk, hsched.trans ?_⟩
      cases openArrival s g (f.bits 0 4) <;> rfl
    · rw [(hperform t₀ ht₀).2.2.2, arrived_eq]
      rfl
    · rw [perform_mem, (arrived_rescheduled s).mem]

theorem barrierPhasesComplete : Rule.BarrierPhasesComplete := by
  intro s u k h
  have hexec : exec .barrierPhaseComplete s = .next (completePhase s u k) := by
    show execBarrierPhaseComplete s = _
    rw [execBarrierPhaseComplete, h]
  have hwake : completePhase s u k = wakeAll (.barrier k (tabGetD 0 (s.unit u).phases k)) (s.threadsOfUnit u)
      (s.modUnit u (fun x => { x with phases := tabPut x.phases k ((tabGetD 0 (s.unit u).phases k + 1) % 2 ^ 32) })) := by
    rw [completePhase, ← threadsOfUnit_modUnit s u u (F := fun x =>
      { x with phases := tabPut x.phases k ((tabGetD 0 (s.unit u).phases k + 1) % 2 ^ 32) }) fun _ => rfl]
    rfl
  refine ⟨_, hexec, ?_, fun t ht hb => ?_⟩
  · rw [hwake, wakeAll_unit]
    simp [State.modUnit, tabGetD]
  · rw [hwake]
    exact wakeAll_sched (.inl ⟨ht, hb⟩)

end

/-! The event queue. -/

section
variable {s : State} {f : Fields} {t op : Nat} {poll : Bool} {e : EventRec} {rest : List EventRec}

theorem evpostEff_room (h : (s.cluster (s.clusterOf t)).events.length < 256) : evpostEff s t = .go {} := by
  rw [evpostEff, eventRoom, if_pos (decide_eq_true h)]

theorem modCluster_withGroup_cluster (s : State) (k : Nat) (F : Cluster → Cluster) (ts : List Nat) :
    ((s.modCluster k F).withGroup ts).cluster k = F (s.cluster k) := by
  show ((s.modCluster k F).cluster k) = _
  rw [State.modCluster, State.cluster_setCluster, if_pos rfl]

theorem exec_evpost (h : Alone s 0x346 f [] [] t) (hroom : (s.cluster (s.clusterOf t)).events.length < 256) : exec (.evpost f) s =
    .next (((runGroup 0x346 f [] [] evpostEff s).modCluster (s.clusterOf t)
      (fun c => { c with events := c.events ++ [postedRecord s f t] })).withGroup s.group) := by
  show Host.Outcome.next (runPerGang (runEvpost f) s) = _
  rw [runPerGang_alone h.alone, runEvpost, goers_alone h (evpostEff_room hroom)]

theorem evpost_appends (h : Alone s 0x346 f [] [] t) (hroom : (s.cluster (s.clusterOf t)).events.length < 256) :
    ∃ s' e, exec (.evpost f) s = .next s' ∧ (s'.cluster (s.clusterOf t)).events = (s.cluster (s.clusterOf t)).events ++ [e] ∧ e.kind = 3 ∧
      e.tag = read32 s t f.a ∧ e.unit = (s.unit (unitOfThread t)).unitid ∧ (s'.thread t).pc = nextPc s.pc ∧
      Untouched s s' t [] [] [] [] := by
  have he := evpostEff_room hroom
  obtain ⟨hpc, hrest⟩ := runGroup_goesOn (eff := evpostEff) h.toIssues he (fun _ _ => ite_go_block)
  have hcluster : (runGroup 0x346 f [] [] evpostEff s).cluster (s.clusterOf t) = s.cluster (s.clusterOf t) :=
    State.read_stage (runGroup_alone_stage h he rfl rfl) (State.cluster · (s.clusterOf t)) fun _ => rfl
  have hsame : (runGroup 0x346 f [] [] evpostEff s).SameProgram (((runGroup 0x346 f [] [] evpostEff s).modCluster (s.clusterOf t)
      (fun c => { c with events := c.events ++ [postedRecord s f t] })).withGroup s.group) := ⟨rfl, rfl, rfl⟩
  refine ⟨_, postedRecord s f t, exec_evpost h hroom, ?_, rfl, rfl, rfl, hpc, hsame.untouched hrest⟩
  rw [modCluster_withGroup_cluster, hcluster]

/-- An instruction of a thread alone that only writes: what the thread holds, as its writes have it, and the frame. -/
theorem runGroup_alone_written {op : Nat} {preds regs : List Nat} {eff : State → Nat → Res} {ws : List Wr} {ds ps us bs : List Nat}
    (h : Alone s op f preds regs t) (he : eff s t = .go { writes := ws }) (hw : ∀ w ∈ ws, w.within ds ps us bs) :
    Kept (ws.foldl Wr.onThread (s.thread t)) ((runGroup op f preds regs eff s).thread t) [] [] ∧
      Untouched s (runGroup op f preds regs eff s) t ds ps us bs := by
  refine ⟨(writesEff_onThread ws _).trans (runGroup_moved h.toIssues he rfl rfl).kept,
    .of_body (runGroup_alone_writes h he hw).2 (fun u hu => runGroup_outside _ _ _ _ _ _ hu) (fun g => ?_) (runGroup_mem ..)⟩
  rw [runGroup_alone_const h he]
  exact runGroup_gangKept (fun u e' hu => by obtain rfl := Res.go.inj hu; exact ⟨hw, rfl⟩) g

/-- Four words written to four registers, none of them vz. -/
theorem foldl_fourRegs {n : Nat} (hn : n ≤ 251) (a b c d : Word) (l : Label) (x : Thread) {i : Nat} (hi : i < 4) :
    ([Wr.reg (n + 0) a l, .reg (n + 1) b l, .reg (n + 2) c l, .reg (n + 3) d l].foldl Wr.onThread x).reg (n + i) = [a, b, c, d].getD i 0 := by
  have hne : ∀ k, k < 4 → n + k ≠ 255 := fun k hk => by omega
  have hone : ∀ (y : Thread) (k : Nat) (v : Word), k < 4 → ((Wr.reg (n + k) v l).onThread y).reg (n + i) = if i = k then v else y.reg (n + i) := by
    intro y k v hk
    rw [Wr.onThread, if_neg (hne k hk), Thread.reg_markFull, Thread.reg_setReg]
    exact if_congr ⟨fun h => by omega, fun h => ⟨by omega, hne k hk⟩⟩ rfl rfl
  simp only [List.foldl_cons, List.foldl_nil, hone _ 0 _ (by omega), hone _ 1 _ (by omega), hone _ 2 _ (by omega), hone _ 3 _ (by omega)]
  match i, hi with
  | 0, _ => rfl
  | 1, _ => rfl
  | 2, _ => rfl
  | 3, _ => rfl

/-- The registers that a popped record is written to. -/
theorem popWrites_reg {n : BitVec 8} (hd : f.d = .v n) (hn : n.toNat ≤ 251) (e : EventRec) (l : Label) (x : Thread) {i : Nat} (hi : i < 4) :
    ((popWrites f e l).foldl Wr.onThread x).reg (n.toNat + i) = e.words.getD i 0 := by
  have hwrites : popWrites f e l = [Wr.reg (n.toNat + 0) (e.words.getD 0 0) l, .reg (n.toNat + 1) (e.words.getD 1 0) l,
      .reg (n.toNat + 2) (e.words.getD 2 0) l, .reg (n.toNat + 3) (e.words.getD 3 0) l] := by
    rw [popWrites, hd]
    rfl
  rw [hwrites, foldl_fourRegs hn _ _ _ _ _ _ hi]
  rfl

theorem popWrites_within {n : BitVec 8} (hd : f.d = .v n) (e : EventRec) (l : Label) (ps : List Nat) :
    ∀ w ∈ popWrites f e l, w.within [n.toNat, n.toNat + 1, n.toNat + 2, n.toNat + 3] ps [] [] := by
  intro w hw
  obtain ⟨⟨i, v⟩, hi, rfl⟩ := List.mem_map.1 hw
  have hlt : i < 4 := List.mem_range.1 (List.of_mem_zip hi).1
  simp only [Wr.within, firstReg, hd, List.mem_cons, List.not_mem_nil]
  omega

/-! EVWAIT and EVPOLL. -/

/-- The predicates that an EVPOLL names. -/
def pollPreds (poll : Bool) (f : Fields) : List Nat := if poll then modPred (f.bits 0 3) else []

theorem exec_evpop {eff : Eff} (h : Alone s op f (pollPreds poll f) [] t) (he : evpopEff op poll f s t = .go eff) :
    runEvpop op poll f s = popEvent (runGroup op f (pollPreds poll f) [] (evpopEff op poll f) s) t := by
  rw [runEvpop, show (if poll then modPred (f.bits 0 3) else []) = pollPreds poll f from rfl, goers_alone h he]
  rfl

/-- The writes of a form that takes the oldest record. -/
def takenWrites (op : Nat) (poll : Bool) (f : Fields) (s : State) (t : Nat) (e : EventRec) : List Wr :=
  popWrites f e (labelOf s op f t ||| e.label) ++ (if poll then [.pred (f.bits 0 3) true (labelOf s op f t ||| e.label)] else [])

theorem evpopEff_takes (hc : s.coreOf t % 5 = 4) (hq : (s.cluster (s.clusterOf t)).events = e :: rest) :
    evpopEff op poll f s t = .go { writes := takenWrites op poll f s t e } := by
  simp only [evpopEff, hc, hq, bne_self_eq_false, Bool.false_eq_true, if_false]
  rfl

/-- The oldest record taken into four registers. -/
theorem evpop_takes {n : BitVec 8} (h : Alone s op f (pollPreds poll f) [] t) (hd : f.d = .v n) (hn : n.toNat ≤ 251) (hc : s.coreOf t % 5 = 4)
    (hq : (s.cluster (s.clusterOf t)).events = e :: rest) :
    ((runEvpop op poll f s).cluster (s.clusterOf t)).events = rest ∧
      (∀ i, i < 4 → ((runEvpop op poll f s).thread t).reg (n.toNat + i) = e.words.getD i 0) ∧
      (poll = true → PredIs (runEvpop op poll f s) t (f.bits 0 3) true) ∧ ((runEvpop op poll f s).thread t).pc = nextPc s.pc ∧
      Untouched s (runEvpop op poll f s) t [n.toNat, n.toNat + 1, n.toNat + 2, n.toNat + 3] (if poll then [f.bits 0 3] else []) [] [] := by
  have he := evpopEff_takes (op := op) (poll := poll) (f := f) hc hq
  have hwithin : ∀ w ∈ takenWrites op poll f s t e, w.within [n.toNat, n.toNat + 1, n.toNat + 2, n.toNat + 3]
      (if poll then [f.bits 0 3] else []) [] [] := by
    intro w hw
    rcases List.mem_append.1 hw with hw | hw
    · exact popWrites_within hd _ _ _ w hw
    · cases poll with
      | false => cases hw
      | true =>
        obtain rfl := List.mem_singleton.1 hw
        exact List.mem_singleton.2 rfl
  obtain ⟨hview, hrest⟩ := runGroup_alone_written h he hwithin
  have hpc := (runGroup_alone_writes h he hwithin).1
  have hstage := runGroup_alone_stage h he rfl rfl
  rw [exec_evpop h he]
  generalize runGroup op f (pollPreds poll f) [] (evpopEff op poll f) s = s₁ at hview hrest hpc hstage
  have hsame : s₁.SameProgram (popEvent s₁ t) := ⟨rfl, rfl, rfl⟩
  have hcluster : s₁.clusterOf t = s.clusterOf t ∧ s₁.cluster (s.clusterOf t) = s.cluster (s.clusterOf t) :=
    State.read_stage hstage (fun x => (x.clusterOf t, x.cluster (s.clusterOf t))) (fun _ => rfl) |> Prod.mk.inj
  refine ⟨?_, fun i hi => ?_, fun hp h7 => ?_, hpc, hsame.untouched hrest⟩
  · rw [popEvent, hcluster.1, State.modCluster, State.cluster_setCluster, if_pos rfl, hcluster.2, hq]
    rfl
  · refine (hview.regs _ (by simp)).1.trans ?_
    rw [takenWrites, List.foldl_append]
    refine Eq.trans ?_ (popWrites_reg hd hn e (labelOf s op f t ||| e.label) (s.thread t) hi)
    cases poll with
    | false => rfl
    | true =>
      exact ((Wr.onThread_kept (w := .pred (f.bits 0 3) true (labelOf s op f t ||| e.label)) (ds := []) (ps := [f.bits 0 3]) (us := []) (bs := [])
        (List.mem_singleton.2 rfl) _).regs _ (by simp)).1
  · have hp' := hview.preds (f.bits 0 3) (by simp)
    have hset := Wr.onThread_pred ((popWrites f e (labelOf s op f t ||| e.label)).foldl Wr.onThread (s.thread t)) h7 true
      (labelOf s op f t ||| e.label) (f.bits 0 3)
    rw [if_pos rfl, if_pos rfl] at hset
    rw [takenWrites, if_pos hp, List.foldl_append, List.foldl_cons, List.foldl_nil] at hp'
    exact ⟨hp'.1.trans hset.1, hp'.2.trans hset.2⟩

theorem evpoll_empty (h : Alone s 0x348 f (modPred (f.bits 0 3)) [] t) (hc : s.coreOf t % 5 = 4) (hq : (s.cluster (s.clusterOf t)).events = []) :
    ∃ s', exec (.evpoll f) s = .next s' ∧ PredIs s' t (f.bits 0 3) false ∧ (s'.thread t).pc = nextPc s.pc ∧
      Untouched s s' t [] [f.bits 0 3] [] [] := by
  have he : evpopEff 0x348 true f s t = .go { writes := [.pred (f.bits 0 3) false (labelOf s 0x348 f t)] } := by
    simp only [evpopEff, hc, hq, bne_self_eq_false, Bool.false_eq_true, if_false, if_true]
  have hwithin : ∀ w ∈ [Wr.pred (f.bits 0 3) false (labelOf s 0x348 f t)], w.within [] [f.bits 0 3] [] [] := fun w hw => by
    obtain rfl := List.mem_singleton.1 hw
    exact List.mem_singleton.2 rfl
  obtain ⟨hview, hrest⟩ := runGroup_alone_written h he hwithin
  have hsame : (runGroup 0x348 f (modPred (f.bits 0 3)) [] (evpopEff 0x348 true f) s).SameProgram
      (popEvent (runGroup 0x348 f (modPred (f.bits 0 3)) [] (evpopEff 0x348 true f) s) t) := ⟨rfl, rfl, rfl⟩
  refine ⟨_, congrArg Host.Outcome.next (exec_evpop (poll := true) h he), fun h7 => ?_, (runGroup_alone_writes h he hwithin).1,
    hsame.untouched hrest⟩
  have hp := hview.preds (f.bits 0 3) (by simp)
  have hset := Wr.onThread_pred (s.thread t) h7 false (labelOf s 0x348 f t) (f.bits 0 3)
  rw [if_pos rfl, if_pos rfl] at hset
  exact ⟨hp.1.trans hset.1, hp.2.trans hset.2⟩

theorem eventQueueIsFirstInFirstOut : Rule.EventQueueIsFirstInFirstOut := by
  refine fun f s t => ⟨evpost_appends, fun e rest n hd hn hc hq => ⟨fun h => ?_, fun h => ?_⟩, evpoll_empty⟩
  · obtain ⟨hevents, hregs, -, hpc, hrest⟩ := evpop_takes (op := 0x347) (poll := false) h hd hn hc hq
    exact ⟨_, rfl, hevents, hregs, hpc, hrest⟩
  · obtain ⟨hevents, hregs, hpred, hpc, hrest⟩ := evpop_takes (op := 0x348) (poll := true) h hd hn hc hq
    exact ⟨_, rfl, hevents, hregs, hpred rfl, hpc, hrest⟩

end

/-- Settles O31: a gang that arrives whole is held and released at once, a phase that is over wakes its threads, and each form of the event queue is one
effect of its thread beside a change of its cluster. -/
theorem barriersAndEvents : Obligations.BarriersAndEvents :=
  ⟨barriersArriveAndWait, barrierPhasesComplete, eventQueueIsFirstInFirstOut⟩

end Sys2Proof.Machine
end

section
/-! O36: idempotent regions (R409, R417). -/

namespace Sys2Proof.Machine

section
variable {s : State} {f : Fields} {g op : Nat}

/-! Entering and leaving. -/

theorem arrived_ownWrites (s : State) (t : Nat) : (arrived s).ownWrites t = s.ownWrites t := by
  rw [State.ownWrites, arrived_eq]
  rfl

/-- None of a gang's threads has writes on their way or records to take. -/
def Quiet (s : State) : Prop := ∀ t ∈ s.group, s.ownWrites t = [] ∧ s.mustDeliver t = false

theorem Quiet.arrived_writes (h : Quiet s) : s.group.any (fun t => !((arrived s).ownWrites t).isEmpty) = false :=
  List.any_eq_false.2 fun t ht => by rw [arrived_ownWrites, (h t ht).1]; exact Bool.false_ne_true

theorem Quiet.arrived_records (h : Quiet s) : s.group.any (arrived s).mustDeliver = false :=
  List.any_eq_false.2 fun t ht => by rw [arrived_mustDeliver, (h t ht).2]; exact Bool.false_ne_true

/-- The gang waits for its region, with a change of its own marks. -/
def regionWaits (op : Nat) (f : Fields) (F : Gang → Gang) (s : State) (g : Nat) : State :=
  (perform op f s.group (fun _ _ => { wait := some .region }) (arrived s)).modGang g F

/-- A change of a gang's marks touches no register of it, no record and no label. -/
def MarksOnly (F : Gang → Gang) : Prop := ∀ x, GangKept x (F x) [] [] [] []

theorem regionWaits_done (h : GangArrives s op f [] g) {F : Gang → Gang} (hF : MarksOnly F) :
    (regionWaits op f F s g).gang g = F (s.gang g) ∧ (∀ t ∈ s.group, ((regionWaits op f F s g).thread t).sched = .blocked .region ∧
      ((regionWaits op f F s g).thread t).pc = nextPc s.pc ∧ Kept (s.thread t) ((regionWaits op f F s g).thread t) [] []) ∧
    Others s (regionWaits op f F s g) := by
  have hperform := fun t ht => perform_arrived (t := t) (op := op) (f := f) (w := some .region) h (fun t _ => arrived_kept s t) (arrived_pc s) ht
  obtain ⟨t₀, ht₀⟩ := List.exists_mem_of_ne_nil _ h.nonempty
  have hgangs : (perform op f s.group (fun _ _ => { wait := some .region }) (arrived s)).gangs = s.gangs := by
    rw [(hperform t₀ ht₀).2.2.2, arrived_eq]
    rfl
  refine ⟨?_, fun t ht => ?_, others_modGang hgangs (by rw [perform_mem, (arrived_rescheduled s).mem]) hF⟩
  · rw [regionWaits, State.gang_modGang, if_pos rfl, State.gang, hgangs]
    rfl
  · obtain ⟨hnext, hk, hsched, -⟩ := hperform t ht
    exact ⟨hsched, hnext, hk⟩

theorem enterRegion_waits (h : GangArrives s 0x383 f [] g) (hq : Quiet s) (hout : (s.gang g).inRegion = false) : enterRegion f (arrived s) g =
    regionWaits 0x383 f (fun x => { x with inRegion := true, rgn := true, rgne := false, regionEntry := nextPc s.pc }) s g := by
  have hheld := heldAt_arrived h rfl
  simp only [enterRegion, arrived_pc, hheld, arrived_gang, hout, hq.arrived_writes, hq.arrived_records, Bool.false_eq_true, if_false]
  rfl

theorem leaveRegion_waits (h : GangArrives s 0x384 f [] g) (hq : Quiet s) (hin : (s.gang g).inRegion = true) :
    leaveRegion f (arrived s) g = regionWaits 0x384 f (fun x => { x with rgne := true }) s g := by
  have hheld := heldAt_arrived h rfl
  simp only [leaveRegion, arrived_pc, hheld, arrived_gang, hin, hq.arrived_writes, hq.arrived_records, Bool.not_true, Bool.false_eq_true, if_false]
  rfl

theorem regionsAreEnteredAndLeft : Rule.RegionsAreEnteredAndLeft := by
  refine fun f s g hq => ⟨fun h hout => ?enter, fun h hin => ?leave⟩
  case enter =>
    obtain ⟨hgang, hthreads, hothers⟩ := regionWaits_done h
      (F := fun x => { x with inRegion := true, rgn := true, rgne := false, regionEntry := nextPc s.pc })
      fun x => .of_fields rfl rfl rfl rfl rfl rfl rfl rfl
    refine ⟨_, congrArg Host.Outcome.next ((runBar_arrives h rfl _).trans (enterRegion_waits h hq hout)), ?_, ?_, ?_, hthreads, hothers⟩
    all_goals rw [hgang]
  case leave =>
    obtain ⟨hgang, hthreads, hothers⟩ := regionWaits_done h (F := fun x => { x with rgne := true }) fun x => .of_fields rfl rfl rfl rfl rfl rfl rfl rfl
    refine ⟨_, congrArg Host.Outcome.next ((runBar_arrives h rfl _).trans (leaveRegion_waits h hq hin)), ?_, hthreads, hothers⟩
    rw [hgang]

end

/-! Opening and committing. -/

section
variable {s : State} {u g t : Nat} {x : Unit}

theorem releaseRegion_eq (s : State) (u : Nat) : releaseRegion s u = wakeAll .region (s.threadsOfUnit u) s := rfl

/-- A unit whose region is open or not. -/
def Unit.withRegion (b : Bool) (x : Unit) : Unit := { x with regionOpen := b }

/-- The unit's region, opened or not, and its threads that wait for it. -/
theorem releaseRegion_wakes {b : Bool} : ((releaseRegion (s.modUnit u (Unit.withRegion b)) u).unit u).regionOpen = b ∧
    (∀ g, (releaseRegion (s.modUnit u (Unit.withRegion b)) u).gang g = s.gang g) ∧
    ∀ t ∈ s.threadsOfUnit u, (s.thread t).sched = .blocked .region →
      ((releaseRegion (s.modUnit u (Unit.withRegion b)) u).thread t).sched = .ready := by
  have hthreads : (s.modUnit u (Unit.withRegion b)).threadsOfUnit u = s.threadsOfUnit u := threadsOfUnit_modUnit _ _ _ fun _ => rfl
  rw [releaseRegion_eq, hthreads]
  refine ⟨?_, fun g => wakeAll_gang g, fun t ht hb => wakeAll_sched (.inl ⟨ht, hb⟩)⟩
  rw [wakeAll_unit, State.modUnit, State.unit_setUnit, if_pos rfl]
  rfl

/-- A gang whose region is committed. -/
def Gang.outside (x : Gang) : Gang := { x with inRegion := false, rgn := false, rgne := false }

/-- The gangs of a list outside. -/
def leaveGangs (gs : List Nat) (s : State) : State := gs.foldl (fun s g => s.modGang g Gang.outside) s

theorem leaveGangs_inRegion {gs : List Nat} (h : g ∈ gs ∨ (s.gang g).inRegion = false) : ((leaveGangs gs s).gang g).inRegion = false := by
  induction gs generalizing s with
  | nil => exact h.resolve_left (by simp)
  | cons k gs ih =>
    refine ih ?_
    rw [State.gang_modGang]
    split
    · exact .inr rfl
    · rename_i hne
      exact h.imp_left fun h => (List.mem_cons.1 h).resolve_left hne

theorem leaveGangs_lanes (gs : List Nat) (s : State) (g : Nat) : ((leaveGangs gs s).gang g).lanes = (s.gang g).lanes :=
  foldl_keeps _ (fun s => (State.gang s g).lanes) _ _ fun b k _ => by
    rw [State.gang_modGang]
    split
    · rename_i h; subst h; rfl
    · rfl

theorem leaveGangs_thread (gs : List Nat) (s : State) (t : Nat) : (leaveGangs gs s).thread t = s.thread t :=
  foldl_keeps _ (State.thread · t) _ _ fun _ _ _ => rfl

theorem leaveGangs_threadsOfUnit (gs : List Nat) (s : State) (u : Nat) : (leaveGangs gs s).threadsOfUnit u = s.threadsOfUnit u := by
  have hunit : (leaveGangs gs s).gangsOfUnit u = s.gangsOfUnit u := foldl_keeps _ (State.gangsOfUnit · u) _ _ fun _ _ _ => rfl
  have hlanes : (leaveGangs gs s).threadsOfGang = s.threadsOfGang := funext fun g => by
    rw [State.threadsOfGang, State.threadsOfGang, leaveGangs_lanes]
  rw [State.threadsOfUnit, State.threadsOfUnit, hunit, hlanes]

theorem regionsOpenAndCommit : Rule.RegionsOpenAndCommit := by
  refine fun s u x => ⟨fun h => ?opens, fun h => ?commits⟩
  case opens =>
    have hexec : exec .regionOpen s = .next (releaseRegion (s.modUnit u (Unit.withRegion true)) u) := by
      show execRegionOpen s = _
      rw [execRegionOpen, h]
      rfl
    obtain ⟨hopen, -, hwake⟩ := releaseRegion_wakes (s := s) (u := u) (b := true)
    exact ⟨_, hexec, hopen, hwake⟩
  case commits =>
    have hexec : exec .regionCommit s = .next (releaseRegion ((leaveGangs (s.gangsOfUnit u) s).modUnit u (Unit.withRegion false)) u) := by
      show execRegionCommit s = _
      rw [execRegionCommit, h]
      rfl
    obtain ⟨hclosed, hgangs, hwake⟩ := releaseRegion_wakes (s := leaveGangs (s.gangsOfUnit u) s) (u := u) (b := false)
    refine ⟨_, hexec, hclosed, fun g hg => ?_, fun t ht hb => hwake t (by rwa [leaveGangs_threadsOfUnit]) (by rwa [leaveGangs_thread])⟩
    rw [hgangs]
    exact leaveGangs_inRegion (.inl hg)

end

/-- Settles O36: entering and leaving are a wait of the gang that arrives whole, and opening and committing wake the threads that wait. -/
theorem regions : Obligations.Regions := ⟨regionsAreEnteredAndLeft, regionsOpenAndCommit⟩

end Sys2Proof.Machine
end

section
/-! O28: MREADY, MMA and MMAS at issue (R273, R324, R325, R327, R342 to R344). -/

namespace Sys2Proof.Machine

section
variable {f : Fields} {s : State} {t : Nat}

/-! MREADY. -/

theorem mreadyCount_countMready (s : State) (t : Nat) : mreadyCount (countMready s t) t = mreadyCount s t + 1 := by
  simp [mreadyCount, countMready]

theorem exec_mready (h : Alone s 0x301 f [] [] t) :
    exec (.mready f) s = .next (countMready (runGroup 0x301 f [] [] mreadyEff s) t) := by
  show execMready f s = _
  rw [execMready, goers_alone h rfl]
  rfl

theorem mreadyCountsAndWaits : Rule.MreadyCountsAndWaits := by
  intro f s t h
  have he : mreadyEff s t = .go { wait := some (.mready (mreadyCount s t + 1)) } := rfl
  have halone := runGroup_go_alone h he
  have hgangs : (runGroup 0x301 f [] [] mreadyEff s).gangs = s.gangs := by
    rw [halone]
    exact applyEff_waiting_gangs
  have hcount : mreadyCount (runGroup 0x301 f [] [] mreadyEff s) t = mreadyCount s t := by simp only [mreadyCount, State.gang, hgangs]
  have hmoved : Thread.Moved (s.thread t) ((runGroup 0x301 f [] [] mreadyEff s).thread t) (nextPc s.pc) := by
    rw [halone]
    exact (waitingEff_onThread _ _).trans applyEff_waiting_moved
  refine ⟨_, exec_mready h, ?_, ?_, hmoved.pc, hmoved.kept, others_modGang hgangs (runGroup_mem ..) fun x => .of_fields rfl rfl rfl rfl rfl rfl rfl rfl⟩
  · rw [mreadyCount_countMready, hcount]
  · rw [countMready, State.thread_modGang, halone]
    exact applyEff_waiting_sched h.ready

/-! The launched lanes of a gang. -/

theorem modGang_lanes (s : State) (k g : Nat) {F : Gang → Gang} (hF : ∀ x, (F x).lanes = x.lanes) : ((s.modGang k F).gang g).lanes = (s.gang g).lanes := by
  rw [State.gang_modGang]
  split
  · rw [hF]
  · rfl

theorem applyWr_lanes (full first : Bool) (t : Nat) (s : State) (w : Wr) (g : Nat) : ((applyWr full first t s w).gang g).lanes = (s.gang g).lanes := by
  cases w with
  | reg n x l =>
    simp only [applyWr]
    split
    · rfl
    · exact modGang_lanes _ _ _ fun x => by simp only [Gang.setTile]; split <;> rfl
  | uni n x l =>
    exact modGang_lanes _ _ _ fun x => by simp only [Gang.setSregLabel, Gang.setSreg, Gang.keepSreg]; repeat' split <;> rfl
  | rcd n x l => exact modGang_lanes _ _ _ fun x => by simp only [Gang.setRecLabel, Gang.keepRec]
  | pred n b l =>
    simp only [applyWr]
    split
    · exact modGang_lanes _ _ _ fun x => by simp only [Gang.widen, Gang.setPredLabel]; split <;> rfl
    · rfl
  | ctl l => exact modGang_lanes _ _ _ fun _ => rfl

/-- An instruction of a thread alone that only writes launches no lane. -/
theorem runGroup_alone_lanes {op : Nat} {preds regs : List Nat} {eff : State → Nat → Res} {ws : List Wr} (h : Alone s op f preds regs t)
    (he : eff s t = .go { writes := ws }) (g : Nat) : ((runGroup op f preds regs eff s).gang g).lanes = (s.gang g).lanes := by
  have hwrites : ∀ a b, ((applyWrs a b t s ws).gang g).lanes = (s.gang g).lanes := fun a b =>
    foldl_keeps _ (fun s => (State.gang s g).lanes) ws s fun s' w _ => applyWr_lanes a b t s' w g
  rw [runGroup_go_alone h he]
  exact hwrites _ _

/-! Accumulators marked empty. -/

/-- n registers from acc marked empty in the threads of a list. -/
def emptyAccs (acc n : Nat) (ts : List Nat) (s : State) : State :=
  ts.foldl (fun s u => s.modThread u (fun x => (List.range n).foldl (fun x j => x.markEmpty (acc + j)) x)) s

/-- The registers of an accumulator run. -/
def accRun (acc n : Nat) : List Nat := (List.range n).map (acc + ·)

theorem markRun_eq (acc n : Nat) (x : Thread) :
    (List.range n).foldl (fun x j => x.markEmpty (acc + j)) x = (accRun acc n).foldl Thread.markEmpty x := by
  rw [accRun, List.foldl_map]

/-- What marking a register empty leaves of a thread is left of every thread. -/
theorem emptyAccs_keeps {γ : Type} (v : Thread → γ) (hv : ∀ x k, v (Thread.markEmpty x k) = v x) (acc n : Nat) (ts : List Nat) (s : State) (u : Nat) :
    v ((emptyAccs acc n ts s).thread u) = v (s.thread u) := by
  refine foldl_keeps _ (fun s => v (State.thread s u)) _ _ fun b w _ => ?_
  simp only [State.thread_modThread]
  split
  · rename_i h
    subst h
    rw [markRun_eq]
    exact foldl_keeps Thread.markEmpty v _ _ fun x k _ => hv x k
  · rfl

theorem emptyAccs_reg (acc n : Nat) (ts : List Nat) (s : State) (u r : Nat) : ((emptyAccs acc n ts s).thread u).reg r = (s.thread u).reg r :=
  emptyAccs_keeps (Thread.reg · r) (fun x k => by rw [Thread.markEmpty]; split <;> rfl) acc n ts s u

theorem emptyAccs_pc (acc n : Nat) (ts : List Nat) (s : State) (u : Nat) : ((emptyAccs acc n ts s).thread u).pc = (s.thread u).pc :=
  emptyAccs_keeps Thread.pc (fun x k => by rw [Thread.markEmpty]; split <;> rfl) acc n ts s u

theorem emptyAccs_gang (acc n : Nat) (ts : List Nat) (s : State) (g : Nat) : (emptyAccs acc n ts s).gang g = s.gang g :=
  foldl_keeps _ (State.gang · g) _ _ fun _ _ _ => rfl

theorem emptyAccs_cluster (acc n : Nat) (ts : List Nat) (s : State) (k : Nat) : (emptyAccs acc n ts s).cluster k = s.cluster k :=
  foldl_keeps _ (State.cluster · k) _ _ fun _ _ _ => rfl

theorem mem_accRun {acc n j : Nat} (hj : j < n) : acc + j ∈ accRun acc n := List.mem_map.2 ⟨j, List.mem_range.2 hj, rfl⟩

theorem emptyAccs_full {acc n j : Nat} (ts : List Nat) (s : State) {u : Nat} (hu : u ∈ ts) (hj : j < n) (h255 : acc + j ≠ 255) :
    ((emptyAccs acc n ts s).thread u).full (acc + j) = false := by
  induction ts generalizing s with
  | nil => cases hu
  | cons v vs ih =>
    by_cases hvs : u ∈ vs
    · exact ih _ hvs
    · obtain rfl := (List.mem_cons.1 hu).resolve_right hvs
      have hrest : (emptyAccs acc n (u :: vs) s).thread u = (s.modThread u (fun x => (List.range n).foldl (fun x j => x.markEmpty (acc + j)) x)).thread u :=
        foldl_keeps _ (State.thread · u) vs _ fun b w hw =>
          (State.thread_modThread ..).trans (if_neg (ne_of_mem_of_not_mem hw hvs).symm)
      rw [hrest, State.thread_modThread, if_pos rfl, markRun_eq, markEmpties_full (mem_accRun hj) h255]

/-! An operation's entry. -/

/-- The label of an operation holds that of each accumulator tile, and that of the operands of one that has not waited (R273). -/
theorem mmaLabel_holds (s : State) (op : Nat) (f : Fields) (t : Nat) (p : Params) :
    (∀ j, j < p.n → Label.subset ((s.gang (gangOf t)).tileLabel (p.acc + j)) (mmaLabel s op f t p) = true) ∧
      ((s.thread t).mmaBlock = none → Label.subset (labelOf s (asMma op f) f t) (mmaLabel s op f t p) = true) := by
  obtain ⟨hfirst, htiles⟩ := subset_foldl_or (fun j => (s.gang (gangOf t)).tileLabel (p.acc + j)) (List.range p.n)
    (if (s.thread t).mmaBlock.isSome then (s.thread t).mmaLabel ||| (s.gang (gangOf t)).ctl ||| (s.gang (gangOf t)).predLabel f.gp.toNat
      else blockLabel s op f t)
  refine ⟨fun j hj => htiles j (List.mem_range.2 hj), fun hnone => Label.subset_trans ?_ hfirst⟩
  simp only [hnone, Option.isSome_none, Bool.false_eq_true, if_false]
  exact (subset_foldl_or (fun i => (s.gang (gangOf t)).seenSregLabel (s.clkOf t) (uniIx f.a + i)) (List.range 16) (labelOf s (asMma op f) f t)).1

/-- The entry that an operation takes, and what its start leaves (R327, R342). -/
theorem startMma_takes {op e : Nat} {f : Fields} {s₀ : State} {t : Nat} (s : State) (he : freeEntry s₀ (s₀.clusterOf t) = some e) :
    ∃ o : MmaOp, startMma op f s₀ s t =
        (fun s => emptyAccs (paramsOf s₀ f t).acc (paramsOf s₀ f t).n (s.threadsOfGang (gangOf t)) s)
          (s.modCluster (s₀.clusterOf t) (fun c => { c with mma := tabPut c.mma e o, opCount := (c.opCount + 1) % 2 ^ 27 })) ∧
      o.gang = gangOf t ∧ o.ktiles = (paramsOf s₀ f t).ktiles ∧ o.n = (paramsOf s₀ f t).n ∧ o.chunk = 0 ∧
      o.label = mmaLabel s₀ op f t (paramsOf s₀ f t) := by
  simp only [startMma, he]
  exact ⟨_, rfl, rfl, rfl, rfl, rfl, rfl⟩

/-! The tests at issue. -/

theorem asMma_eq (op : Nat) (f : Fields) : Machine.asMma op f = op ∨ op = 0x303 ∧ Machine.asMma op f = 0x302 := by
  by_cases h : op = 0x303 <;> by_cases hb : f.bits 0 3 = 0 <;> simp [asMma, h, hb]

/-- The sources of MMA are those of MMAS, but for its metadata record, which MMA has not. -/
theorem mem_sourcesOf_mma {q : Slot × Opnd × Bool × Nat} (h : q ∈ sourcesOf 0x302 f) : q ∈ sourcesOf 0x303 f ∨ q.1 = unusedS := by
  have hmma : sourcesOf 0x302 f = [({ sS with smax := 111 }, f.a, f.ea, 1), (unusedS, f.b, f.eb, 2), (unusedS, f.c, f.ec, 3)] := rfl
  have hmmas : sourcesOf 0x303 f = [({ sS with smax := 111 }, f.a, f.ea, 1), ({ sS with pair := true }, f.b, f.eb, 2), (unusedS, f.c, f.ec, 3)] := rfl
  rw [hmma] at h
  rw [hmmas]
  simp only [List.mem_cons, List.not_mem_nil, or_false] at h ⊢
  obtain rfl | rfl | rfl := h <;> simp

/-- MMAS with pattern 0 reads what MMA reads: a thread that fits it fits MMA (R345). -/
theorem Alone.asMma {op : Nat} (h : Alone s op f [] [] t) : Alone s (asMma op f) f [] [] t := by
  obtain heq | ⟨rfl, heq⟩ := asMma_eq op f
  · rwa [heq]
  · rw [heq]
    refine ⟨⟨⟨h.mem, h.nodup, h.settled, h.guard, fun q hq => ?_, h.dest, fun n hn => ?_⟩, h.ready⟩, h.alone⟩
    · obtain hq | hq := mem_sourcesOf_mma hq
      · exact h.sources q hq
      · rw [hq, sourceEmpty]
        cases q.2.1 <;> rfl
    · refine h.preds n ?_
      simp only [List.append_nil, List.mem_append, List.mem_flatMap] at hn ⊢
      obtain ⟨q, hq, hn⟩ | hn := hn
      · obtain hq | hq := mem_sourcesOf_mma hq
        · exact .inl ⟨q, hq, hn⟩
        · rw [hq] at hn
          cases hk : q.2.1 <;> rw [hk] at hn <;> cases hn
      · exact .inr hn

theorem mmaEff_fits {op e : Nat} (h : MatrixFits op f s t e) : mmaEff op f s t =
    .go { writes := wr32 f.d (ticketOf e (s.cluster (s.clusterOf t)).opCount) (labelOf s (asMma op f) f t) } := by
  have hshape : ((s.thread t).mmaBlock.isNone && shapeBad s t (paramsOf s f t)) = false := by
    cases hb : (s.thread t).mmaBlock <;> simp [h.shape, hb]
  have hrecords : ((s.thread t).mmaBlock.isNone && recordBad (paramsOf s f t) (patternOf op f) (metaOf s op f t)) = false := by
    cases hb : (s.thread t).mmaBlock <;> simp [h.records, hb]
  have hrange : ((s.thread t).mmaBlock.isNone && rangeBad s t (paramsOf s f t) (patternOf op f) (metaOf s op f t)) = false := by
    cases hb : (s.thread t).mmaBlock <;> simp [h.range, hb]
  have hbooks : (if (paramsOf s f t).aFmt = 3 then (slotAwaited s t (paramsOf s f t).aBook).orElse
      (fun _ => slotAwaited s t (paramsOf s f t).bBook) else none) = none := by
    split
    · rename_i h3
      obtain ⟨ha, hb⟩ := h.books h3
      simp [ha, hb]
    · rfl
  simp only [mmaEff, hshape, hrecords, hrange, h.runs, hbooks, h.entry, Bool.false_eq_true, if_false]

/-- MMA or MMAS of a thread alone: its issue, then the start of its operation. -/
theorem exec_matrixForms {x : (Fields → Instr) × Nat} (hx : x ∈ matrixForms) (f : Fields) (s : State) :
    exec (x.1 f) s = .next (runPerGang (runMma x.2 f) s) := by
  simp only [matrixForms, List.mem_cons, List.not_mem_nil, or_false] at hx
  obtain rfl | rfl := hx <;> rfl

theorem resultRegs_uni {ty : Ty} {d : Opnd} (h : isUni d = true) : resultRegs ty d = [] := by
  cases d with
  | s n => rfl
  | v n => cases h
  | imm n => cases h
  | k n => cases h

/-- A result in a gang-uniform register is read of the gang alone. -/
theorem resultTy_uni {s' : State} {ty : Ty} {d : Opnd} {v : DWord} (h : isUni d = true) (hg : s'.gang (gangOf t) = s.gang (gangOf t))
    (k : ResultTy s t ty d v) : ResultTy s' t ty d v := by
  cases d with
  | s n => simpa only [ResultTy, Result64, Result32, hg] using k
  | v n => cases h
  | imm n => cases h
  | k n => cases h

theorem matrixOperationsTakeAnEntry : Rule.MatrixOperationsTakeAnEntry := by
  intro x hx f s t e h huni hfit
  have he := mmaEff_fits hfit
  have hissue := h.asMma
  obtain ⟨o, hstart, hgang, hk, hn, hchunk, hlabel⟩ := startMma_takes (op := x.2) (f := f)
    (runGroup (asMma x.2 f) f [] [] (mmaEff x.2 f) s) hfit.entry
  obtain ⟨hlabels, hoperands⟩ := mmaLabel_holds s x.2 f t (paramsOf s f t)
  obtain ⟨hticket, hpc, hframe⟩ := runGroup_alone_word hissue he
  have hexec : exec (x.1 f) s = .next ((startMma x.2 f s (runGroup (asMma x.2 f) f [] [] (mmaEff x.2 f) s) t).withGroup s.group) := by
    rw [exec_matrixForms hx, runPerGang_alone h.alone, runMma, goers_alone hissue he]
  have hstage := runGroup_alone_stage hissue he rfl rfl
  have hcluster : ∀ k, (runGroup (asMma x.2 f) f [] [] (mmaEff x.2 f) s).cluster k = s.cluster k := fun k =>
    State.read_stage hstage (State.cluster · k) fun _ => rfl
  have hthreads : (runGroup (asMma x.2 f) f [] [] (mmaEff x.2 f) s).threadsOfGang (gangOf t) = s.threadsOfGang (gangOf t) := by
    rw [State.threadsOfGang, runGroup_alone_lanes hissue he, State.threadsOfGang]
  have hregs : ∀ u r, ((runGroup (asMma x.2 f) f [] [] (mmaEff x.2 f) s).thread u).reg r = (s.thread u).reg r := fun u r => by
    by_cases hu : u = t
    · rw [hu]
      exact (hframe.thread.regs r (by simp [resultRegs_uni huni])).1
    · exact ((hframe.threads u (by simp [h.alone, hu])).2.regs r List.not_mem_nil).1
  rw [hstart] at hexec
  refine ⟨_, o, hexec, ?_, ?_, hgang, hk, hn, hchunk, fun j hj => ?_, fun hnone => ?_, ?_, fun u hu j hj h255 => ?_, fun u r => ?_, ?_, fun a => ?_⟩
  · exact resultTy_word (resultTy_uni huni (emptyAccs_gang ..) hticket) (by rw [ticketOf, ofNat_lo])
  · show tabGet ((emptyAccs _ _ _ _).cluster _).mma e = _
    rw [emptyAccs_cluster, State.modCluster_eq, State.cluster_setCluster, if_pos rfl]
    simp
  · rw [hlabel]; exact hlabels j (hn ▸ hj)
  · rw [hlabel]; exact hoperands hnone
  · show ((emptyAccs _ _ _ _).cluster _).opCount = _
    rw [emptyAccs_cluster, State.modCluster_eq, State.cluster_setCluster, if_pos rfl, hcluster]
  · exact emptyAccs_full _ _ (hthreads.symm ▸ hu) hj h255
  · exact (emptyAccs_reg ..).trans (hregs u r)
  · exact (emptyAccs_pc ..).trans hpc
  · have hmem : (startMma x.2 f s (runGroup (asMma x.2 f) f [] [] (mmaEff x.2 f) s) t).mem = s.mem := by simp
    rw [hstart] at hmem
    exact congrArg (Memory.get · a) hmem

theorem matrixIssue : Obligations.MatrixIssue := ⟨mreadyCountsAndWaits, matrixOperationsTakeAnEntry⟩
end

end Sys2Proof.Machine
end

section
/-! SUPPORT. Reads at L2 by a core, which leave every translation as it was, and one word written to the destination of an access (R234, R356). -/

namespace Sys2Proof.Machine

/-- The states differ in data caches alone: every TLB is the same. -/
structure State.LinesOnly (s s' : State) : Prop extends s.CachesOnly s' where
  tlb : ∀ c, (s'.core c).tlb = (s.core c).tlb
  l2tlb : ∀ k, (s'.slice k).tlb = (s.slice k).tlb

namespace State.LinesOnly
variable {s s' s'' : State} {core part : Nat}

theorem refl (s : State) : s.LinesOnly s := ⟨.refl s, fun _ => rfl, fun _ => rfl⟩

theorem trans (h : s.LinesOnly s') (k : s'.LinesOnly s'') : s.LinesOnly s'' :=
  ⟨h.toCachesOnly.trans k.toCachesOnly, fun c => (k.tlb c).trans (h.tlb c), fun c => (k.l2tlb c).trans (h.l2tlb c)⟩

theorem foldl {α : Type} {l : List α} {F : State → α → State} (hF : ∀ b, ∀ a ∈ l, State.LinesOnly b (F b a)) (s : State) : s.LinesOnly (l.foldl F s) :=
  List.foldlRecOn (motive := fun b => s.LinesOnly b) l F (refl s) fun b hb a ha => hb.trans (hF b a ha)

theorem dropL1 (s : State) (core part : Nat) (p : Piece) : s.LinesOnly (s.dropL1 core part p) := by
  refine ⟨.dropL1 s core part p, fun c => ?_, fun k => ?_⟩ <;> simp only [State.dropL1] <;> split
  · rfl
  · simp only [State.modCore_eq, State.core_setCore]
    split
    · rename_i h; rw [h]
    · rfl
  · rfl
  · rfl

theorem atL2 (s : State) (part : Nat) {p : Piece} {pa : Nat} (h : p.home = .phys pa) (prio : Nat) : s.LinesOnly (s.atL2 part p prio) := by
  refine ⟨.atL2 s part p prio, fun c => ?_, fun k => ?_⟩ <;> simp only [State.atL2, h]
  · rfl
  · simp only [State.modSlice_eq, State.slice_setSlice]
    split
    · rename_i hk; rw [hk, Slice.fillL2]; split <;> rfl
    · rfl

/-- Every address is translated as before. -/
theorem reach (h : s.LinesOnly s') (va n : Nat) (via : Via) (need : Need) : Machine.reach s' core part va n via need = Machine.reach s core part va n via need := by
  have hwalk : ∀ va, coreWalk s' core part va via = coreWalk s core part va via := fun va => by
    simp only [coreWalk, h.tlb, h.l2tlb]
    rw [h.rest]
    rfl
  have hhome : ∀ va l, homeOf s' part va l = homeOf s part va l := fun va l => by rw [h.rest]; rfl
  have hstack : ∀ va, stackGang s' part va = stackGang s part va := fun va => by rw [h.rest]; rfl
  have hspan : reachSpan s' core part via need = reachSpan s core part via need := funext fun sp => by
    simp only [reachSpan, hwalk, hhome, hstack, State.gang, h.gangs]
  simp only [Machine.reach, hspan]

end State.LinesOnly

section
variable {s : State} {core part : Nat} {ps : List Piece} {va pa : Nat}

/-- Pieces of plain memory are read as they stand. -/
theorem rawPieces_along (h : Along ps va pa) : ∃ g, rawPieces s part ps = (some (ps.flatMap (pieceBytes s), g), s) := by
  have hfold : ∀ (qs : List Piece) (bs : List Byte) (g : Nat), (∀ p ∈ qs, ∃ x, p.home = .phys x) → ∃ g', qs.foldl (fun acc p =>
      match acc.1, p.home with
      | none, _ => acc
      | some x, .remote _ _ =>
        let r := acc.2.remote
        (r.1.map (fun bs => (x.1 ++ (bs ++ List.replicate p.n 0).take p.n, max x.2 r.2.1)), r.2.2)
      | some x, _ => (some (x.1 ++ pieceBytes acc.2 p, max x.2 (pieceG acc.2 part p)), acc.2)) (some (bs, g), s) =
        (some (bs ++ qs.flatMap (pieceBytes s), g'), s) := by
    intro qs
    induction qs with
    | nil => exact fun bs g _ => ⟨g, by simp⟩
    | cons p qs ih =>
      intro bs g hqs
      obtain ⟨⟨x, hx⟩, hrest⟩ := List.forall_mem_cons.1 hqs
      obtain ⟨g', hg'⟩ := ih (bs ++ pieceBytes s p) (max g (pieceG s part p)) hrest
      refine ⟨g', ?_⟩
      rw [List.foldl_cons, List.flatMap_cons, ← List.append_assoc, ← hg', hx]
  obtain ⟨g, hg⟩ := hfold ps [] 0 fun p hp => ⟨_, h p hp⟩
  exact ⟨g, hg⟩

/-- A range of plain memory read at L2 by a core: its bytes, and only data caches change. -/
theorem coreRead_along {n : Nat} {via : Via} {need : Need} (hreach : reach s core part va n via need = .ok ps) (h : Along ps va pa) :
    ∃ g s', coreRead s core part ps = (some (s.mem.read pa n, g), s') ∧ s.LinesOnly s' := by
  obtain ⟨g, hraw⟩ := rawPieces_along (s := s) (part := part) h
  have hbytes : ps.flatMap (pieceBytes s) = s.mem.read pa n := by
    rw [pieceBytes_along (contiguous_of_reach hreach) le_rfl h, Nat.sub_self, Nat.add_zero]
  refine ⟨g, _, by rw [coreRead, hraw, hbytes], ?_⟩
  exact (State.LinesOnly.foldl (fun b p _ => .dropL1 b core part p) s).trans (State.LinesOnly.foldl (fun b p hp => .atL2 b part (h p hp) 1) _)

end

/-- A result written to a destination, by the writes of its type. -/
theorem applyWrs_result (full first : Bool) (t : Nat) (s : State) (ty : Ty) (d : Opnd) (v : DWord) (l : Label) :
    ResultTy (applyWrs full first t s (wrTy ty d v l)) t ty d v := by
  by_cases hu : isUni d = true
  · cases d with
    | s n =>
      have hown : ((applyWrs full first t s (wrTy ty (.s n) v l)).gang (gangOf t)).own =
          (wrTy ty (.s n) v l).foldl Wr.onOwn (s.gang (gangOf t)).own := by rw [applyWrs_own, if_pos rfl]
      exact (resultTy_of_own hown).1
    | v n => cases hu
    | imm n => cases hu
    | k n => cases hu
  · refine resultTy_of_wrTy (l := l) (x := s.thread t) (by simpa using hu) fun r => ?_
    exact (Kept.of_body (applyWrs_body_self full first t s (wrTy ty d v l))).2.regs r (by simp)

end Sys2Proof.Machine
end

section
/-! O32: launches and graphs started from the device (R383 to R386). -/

namespace Sys2Proof.Machine

section
variable {s s' s₁ : State} {f : Fields} {t id : Nat} {a : Access} {pick : Pick} {ps : List Piece} {pa e g : Nat} {lv : Level}

/-! Issue. -/

/-- The read that LAUNCH or GARM sends. -/
def startAccess (op : Nat) (kind : AKind) (f : Fields) (s : State) (t : Nat) : Access :=
  { kind := kind, thread := t, group := 0, pc := s.pc, op := op, f := f, addr := (read64 s t f.a).toNat, width := 64, label := labelOf s op f t,
    aux := (read32 s t f.b).toNat, inTrap := (s.thread t).inTrap }

/-- What LAUNCH or GARM does whose tests pass: the thread stays at it. -/
def startGo (op : Nat) (kind : AKind) (f : Fields) (s : State) (t : Nat) : Eff :=
  { accesses := [startAccess op kind f s t], next := some s.pc, wait := some (.landing s.issue.serial) }

theorem startEff_go {op : Nat} {kind : AKind} (hc : s.coreOf t % 5 = 4) (halign : (read64 s t f.a).toNat % 64 = 0)
    (ha : (read64 s t f.a).toNat < 2 ^ 48) (hq : (read32 s t f.b).toNat ≤ 255) (hfence : fenceDone s t 5 = true)
    (hfree : (freeChild s (s.coreOf t)).isSome = true) : startEff op kind f s t = .go (startGo op kind f s t) := by
  have haddr : ((read64 s t f.a).toNat % 64 != 0 || decide (2 ^ 48 ≤ (read64 s t f.a).toNat)) = false := by
    simp only [halign, bne_self_eq_false, Bool.false_or, decide_eq_false_iff_not]
    omega
  have hnone : (freeChild s (s.coreOf t)).isNone = false := by cases h : freeChild s (s.coreOf t) <;> simp_all
  simp only [startEff, isControl, hc, BEq.rfl, Bool.not_true, haddr, not_lt.2 hq, hfence, hnone, Bool.false_eq_true, if_false]
  rfl

/-- LAUNCH or GARM of a thread alone: its issue, and the publication of its fence. -/
theorem runStart_alone {op : Nat} {kind : AKind} {eff : Eff} (h : Alone s op f [] [] t) (he : startEff op kind f s t = .go eff) :
    runStart op kind f s = publishAll 5 (runGroup op f [] [] (startEff op kind f) s) [t] := by
  have hj : judge s op f [] [] (startEff op kind f) = [(t, some (.go eff))] := by
    simp [judge, State.readyGroup, h.alone, h.ready, judgeOne, h.toIssues.checkIn, he]
  rw [runStart, hj]
  rfl

theorem exec_startForms {x : (Fields → Instr) × Nat × AKind} (hx : x ∈ startForms) (f : Fields) (s : State) :
    exec (x.1 f) s = .next (runStart x.2.1 x.2.2 f s) := by
  simp only [startForms, List.mem_cons, List.not_mem_nil, or_false] at hx
  obtain rfl | rfl := hx <;> rfl

theorem startGo_onThread (op : Nat) (kind : AKind) (f : Fields) (s : State) (t : Nat) (x : Thread) :
    Kept x ((startGo op kind f s t).onThread x) [] [] := by
  simp only [startGo, Eff.onThread, Eff.changed, List.foldl_nil]
  exact ⟨fun _ _ => ⟨rfl, rfl⟩, fun _ _ => ⟨rfl, rfl⟩, rfl, rfl, ⟨rfl, rfl, rfl, rfl⟩, rfl⟩

theorem publishAll_accesses (n : Nat) (s : State) (ts : List Nat) : (publishAll n s ts).accesses = s.accesses :=
  foldl_keeps _ State.accesses _ _ fun _ _ _ => rfl

theorem launchesSendTheirRead : Rule.LaunchesSendTheirRead := by
  intro x hx f s t h hc halign ha hq hfence hfree
  have he := startEff_go (op := x.2.1) (kind := x.2.2) hc halign ha hq hfence hfree
  have hmoved := runGroup_moved h.toIssues he rfl rfl
  obtain ⟨hpc, hkept⟩ := publishAll_thread 5 [t] (runGroup x.2.1 f [] [] (startEff x.2.1 x.2.2 f) s) t
  have halone := runGroup_go_alone h he
  have hothers := runGroup_alone_others (ps := []) (ds := []) h he (fun _ hw => absurd hw List.not_mem_nil) rfl
  have hsends : Sends s (runGroup x.2.1 f [] [] (startEff x.2.1 x.2.2 f) s) t (startAccess x.2.1 x.2.2 f s t) := by
    rw [halone]
    exact applyEff_sends _ _ _ _ rfl rfl rfl
  refine ⟨_, (exec_startForms hx f s).trans (congrArg _ (runStart_alone h he)), ⟨_, hsends.congr (publishAll_accesses ..), rfl, rfl, rfl⟩,
    hpc.trans hmoved.pc, ?_, ((startGo_onThread ..).trans hmoved.kept).trans hkept, fun k => ?_, fun b => ?_⟩
  · rw [publishAll_sched, halone]
    exact applyEff_waits _ _ _ _ h.ready rfl rfl rfl
  · rw [publishAll_gang]
    exact hothers.gangs k
  · rw [publishAll_mem]
    exact hothers.memory b

/-! The end of a start: the handle is written, and the thread goes on. -/

theorem startDone_beyond (s : State) (id : Nat) (a : Access) (h : Word) (l : Label) : (startDone s id a h l).beyond = s.beyond := by
  refine Eq.trans ?_ ((applyWrs_beyond true true a.thread ((s.dropAccess id).landed a) (wr32 a.f.d h (a.label ||| l))).trans (landed_beyond ..))
  rfl

theorem startDone_done (s : State) (id : Nat) (a : Access) (h : Word) (l : Label) :
    tabGet (startDone s id a h l).accesses id = none ∧ Result32 (startDone s id a h l) a.thread a.f.d h ∧
      ((startDone s id a h l).thread a.thread).pc = nextPc a.pc := by
  refine ⟨?_, ?_, by simp [startDone]⟩
  · show tabGet (applyWrs true true a.thread ((s.dropAccess id).landed a) (wr32 a.f.d h (a.label ||| l))).accesses id = none
    rw [unsent_applyWrs, landed_accesses]
    exact dropAccess_access _ id
  · have hresult := applyWrs_result true true a.thread ((s.dropAccess id).landed a) .b32 a.f.d (h.setWidth 64) (a.label ||| l)
    have hlo : DWord.lo (h.setWidth 64) = h := by simp [DWord.lo]
    have hmoved := hresult.congr (s' := startDone s id a h l) (fun r => ?_) fun _ => by rw [startDone, wr32_setWidth]; rfl
    · rwa [show ResultTy _ _ .b32 _ _ = Result32 _ _ _ _ from rfl, hlo] at hmoved
    · rw [startDone, wr32_setWidth, State.thread_modThread, if_pos rfl]
      exact ⟨rfl, rfl⟩

/-! The level of a child launch. -/

theorem childLevel_of_entry {bs : List Byte} (hlv : s.levelAt g = some lv) (hcancel : lv.cancelled = false) (hok : entryOk bs = true) (hkind : entryKind bs = 1)
    (hwaits : entryWaits bs = false) :
    (childLevel s g bs).kind = 1 ∧ (childLevel s g bs).parent = some g ∧ (childLevel s g bs).counter = entryUnits bs := by
  simp [childLevel, hlv, hcancel, hok, hkind, hwaits]

theorem not_due_of_counter {x : Level} (h : x.counter ≠ 0) : x.due = false := by
  simp [Level.due, h]

/-- The entry of a child launch on its queue's device list, for the level that is `n`. -/
def childEntry (s s₁ : State) (g n : Nat) (bs : List Byte) : QEntry :=
  { bytes := bs, ep := (childLevel s₁ g bs).ep, job := (childLevel s₁ g bs).job, phase := (enclosing s g 3).getD 0, level := n, prev := none }

/-- A child launch whose record is a launch entry takes its place: its level, its handle and its entry on the device list (R384, R386). -/
theorem landLaunch_starts (h : LandsAlong s id a { r := true } pick ps pa) (hwidth : a.width = 64) (hfree : freeChild s (s.coreOf a.thread) = some e)
    (hgraph : enclosing s (s.launchLevel a.thread) 2 = some g) (hlv : s.levelAt g = some lv) (harmed : lv.armed = false)
    (hcancel : lv.cancelled = false) (hok : entryOk (s.mem.read pa 64) = true) (hkind : entryKind (s.mem.read pa 64) = 1)
    (hwaits : entryWaits (s.mem.read pa 64) = false) : ∃ s₁ l, s.LinesOnly s₁ ∧
      landLaunch s id a pick = startDone (joinDevice (takeChild (newLevel (addChildren s₁ g 1) (childLevel s₁ g (s.mem.read pa 64))).2 (s.coreOf a.thread) e
        s.nextId (unitOfThread a.thread) (a.f.bit 0) l).2 (s.partOf a.thread) a.aux (childEntry s s₁ g s.nextId (s.mem.read pa 64))) id a
        (BitVec.ofNat 32 (nextGen s (s.coreOf a.thread) e * 256 + e)) l := by
  have hreach := h.pages
  rw [hwidth] at hreach
  obtain ⟨gg, s₁, hread, hlines⟩ := coreRead_along hreach h.plain
  have hlevel : s₁.levelAt g = some lv := by rw [hlines.rest]; exact hlv
  have hnext : s₁.nextId = s.nextId := by rw [hlines.rest]
  have hgain : gainChildren s₁ g 1 = addChildren s₁ g 1 := by
    rw [gainChildren, counts_of_not_armed hlevel harmed]
    rfl
  obtain ⟨-, -, hcounter⟩ := childLevel_of_entry hlevel hcancel hok hkind hwaits
  have hdue : (childLevel s₁ g (s.mem.read pa 64)).due = false := not_due_of_counter (by rw [hcounter, entryUnits]; omega)
  have hgen : nextGen (newLevel (addChildren s₁ g 1) (childLevel s₁ g (s.mem.read pa 64))).2 (s.coreOf a.thread) e = nextGen s (s.coreOf a.thread) e := by
    have hchildren : ((newLevel (addChildren s₁ g 1) (childLevel s₁ g (s.mem.read pa 64))).2.core (s.coreOf a.thread)).children =
        (s.core (s.coreOf a.thread)).children := hlines.read _ Core.children fun _ => rfl
    simp only [nextGen, hchildren]
  have hid : (addChildren s₁ g 1).nextId = s.nextId := hnext
  refine ⟨s₁, pagesLabel ps ||| stackLabel s ps, hlines, ?_⟩
  simp only [landLaunch, hreach, hread, hfree, hgraph, hgain, hdue, Bool.false_eq_true, if_false, newLevel_fst, takeChild, hgen, hid]
  rfl

/-! The landing of LAUNCH. -/

/-- A landing that leaves the cores' records makes none. -/
theorem landing_lands {s' : State} (h : LandsAlong s id a { r := true } pick ps pa) (hland : landValue s id a pick (a.sector pick) = s')
    (hlate : ∀ c, (s'.core c).late = (s.core c).late) : exec (.loadWriteback id pick) s = .next s' := by
  rw [← hland]
  exact landWith_alone (land := landValue) h.access h.enabled h.inside h.alone fun _ => by rw [hland, hlate]

theorem startDone_levelAt (s : State) (id : Nat) (a : Access) (h : Word) (l : Label) (k : Nat) : (startDone s id a h l).levelAt k = s.levelAt k :=
  State.read_beyond (startDone_beyond ..) (State.levelAt · k) fun _ => rfl

theorem startDone_queue (s : State) (id : Nat) (a : Access) (h : Word) (l : Label) (p q : Nat) : (startDone s id a h l).queue p q = s.queue p q :=
  State.read_beyond (startDone_beyond ..) (State.queue · p q) fun _ => rfl

theorem startDone_core (s : State) (id : Nat) (a : Access) (h : Word) (l : Label) (c : Nat) : (startDone s id a h l).core c = s.core c :=
  State.read_beyond (startDone_beyond ..) (State.core · c) fun _ => rfl

/-- The entry of a child table taken for a level leaves the records of every core. -/
theorem takeChild_late (s : State) (core e level unit : Nat) (nr : Bool) (l : Label) (c : Nat) :
    ((takeChild s core e level unit nr l).2.core c).late = (s.core c).late := by
  simp only [takeChild, State.modCore_eq, State.core_setCore]
  split
  · rename_i h; rw [h]
  · rfl

theorem joinDevice_queue (s : State) (p q : Nat) (d : QEntry) : (joinDevice s p q d).queue p q =
    some { tabGetD {} (s.part p).queues q with device := (tabGetD {} (s.part p).queues q).device ++ [d] } := by
  simp [joinDevice, State.queue, State.modPart_eq]

theorem launchStartsAChild (h : LandsAlong s id a { r := true } pick ps pa) (hwidth : a.width = 64) (hfree : freeChild s (s.coreOf a.thread) = some e)
    (hgraph : enclosing s (s.launchLevel a.thread) 2 = some g) (hlv : s.levelAt g = some lv) (hold : g < s.nextId) (harmed : lv.armed = false)
    (hcancel : lv.cancelled = false) (hkind : a.kind = .launch) (hok : entryOk (s.mem.read pa 64) = true) (hentry : entryKind (s.mem.read pa 64) = 1)
    (hwaits : entryWaits (s.mem.read pa 64) = false) : ∃ s' x, exec (.loadWriteback id pick) s = .next s' ∧ tabGet s'.accesses id = none ∧
      Result32 s' a.thread a.f.d (BitVec.ofNat 32 (nextGen s (s.coreOf a.thread) e * 256 + e)) ∧
      (s'.thread a.thread).pc = nextPc a.pc ∧ s'.levelAt s.nextId = some x ∧ x.kind = 1 ∧ x.parent = some g ∧
      x.counter = entryUnits (s.mem.read pa 64) ∧ s'.levelAt g = some { lv with counter := lv.counter + 1 } ∧
      (∃ q d, s'.queue (s.partOf a.thread) a.aux = some q ∧ q.device = (tabGetD {} (s.part (s.partOf a.thread)).queues a.aux).device ++ [d] ∧
        d.bytes = s.mem.read pa 64 ∧ d.level = s.nextId) ∧ s'.mem = s.mem := by
  obtain ⟨s₁, l, hlines, hland⟩ := landLaunch_starts h hwidth hfree hgraph hlv harmed hcancel hok hentry hwaits
  have hlevel : s₁.levelAt g = some lv := by rw [hlines.rest]; exact hlv
  have hnext : s₁.nextId = s.nextId := by rw [hlines.rest]
  have hpart : ∀ p, s₁.part p = s.part p := fun p => by rw [hlines.rest]; rfl
  obtain ⟨hk, hparent, hcounter⟩ := childLevel_of_entry hlevel hcancel hok hentry hwaits
  have hvalue : landValue s id a pick (a.sector pick) = landLaunch s id a pick := by simp only [landValue, hkind]
  have hexec := landing_lands h (hvalue.trans hland) fun c => by
    rw [startDone_core]
    exact (takeChild_late ..).trans (hlines.read c Core.late fun _ => rfl)
  obtain ⟨hgone, hresult, hpc⟩ := startDone_done (joinDevice (takeChild (newLevel (addChildren s₁ g 1) (childLevel s₁ g (s.mem.read pa 64))).2
    (s.coreOf a.thread) e s.nextId (unitOfThread a.thread) (a.f.bit 0) l).2 (s.partOf a.thread) a.aux (childEntry s s₁ g s.nextId (s.mem.read pa 64)))
    id a (BitVec.ofNat 32 (nextGen s (s.coreOf a.thread) e * 256 + e)) l
  have hid : (addChildren s₁ g 1).nextId = s.nextId := hnext
  refine ⟨_, childLevel s₁ g (s.mem.read pa 64), hexec, hgone, hresult, hpc, ?_, hk, hparent, hcounter, ?_, ⟨{ tabGetD {} (s.part (s.partOf a.thread)).queues a.aux with
    device := (tabGetD {} (s.part (s.partOf a.thread)).queues a.aux).device ++ [childEntry s s₁ g s.nextId (s.mem.read pa 64)] },
    childEntry s s₁ g s.nextId (s.mem.read pa 64), ?_, rfl, rfl, rfl⟩, ?_⟩
  · rw [startDone_levelAt]
    exact (levelAt_newLevel ..).trans (if_pos hid.symm)
  · rw [startDone_levelAt]
    refine (levelAt_newLevel ..).trans ((if_neg (by rw [hid]; omega)).trans ?_)
    simp [hlevel]
  · rw [startDone_queue, joinDevice_queue]
    rw [← hpart]
    rfl
  · rw [startDone_mem, joinDevice_mem, takeChild_mem, newLevel_mem]
    exact hlines.mem

/-! A graph armed under the graph of its unit (R385). -/

/-- The levels of a graph's nodes are new: the older ones stay. -/
theorem armNodes_levelAt_old {k : Nat} (g : Nat) (x : Level) (l : List Node) (i : Nat) (acc : Tab Node) {s : State} (hk : k < s.nextId) :
    (armNodes g x l i acc s).2.levelAt k = s.levelAt k := by
  induction l generalizing i acc s with
  | nil => rfl
  | cons n l ih =>
    rw [armNodes, ih _ _ (Nat.lt_succ_of_lt hk), levelAt_newLevel, if_neg (Nat.ne_of_lt hk)]

theorem armNodes_cores (g : Nat) (x : Level) (l : List Node) (i : Nat) (acc : Tab Node) (s : State) : (armNodes g x l i acc s).2.cores = s.cores := by
  induction l generalizing i acc s with
  | nil => rfl
  | cons n l ih => rw [armNodes, ih]; rfl

/-- A graph armed by GARM counts for itself and for the graph around it, which is not armed so. -/
theorem counts_of_armed {k : Nat} {x : Level} (hx : s.levelAt k = some x) (ha : x.armed = true) (hp : x.parent = some g) (hlv : s.levelAt g = some lv)
    (harmed : lv.armed = false) : s.counts k = [k, g] := by
  have hfuel : ∀ n, countedIn s n g = [g] := fun n => by cases n <;> simp [countedIn, hlv, harmed]
  have hsome : s.levels ≠ [] := fun h => by simp [State.levelAt, h] at hx
  obtain ⟨n, hn⟩ := Nat.exists_eq_succ_of_ne_zero (fun h => hsome (List.length_eq_zero_iff.1 h))
  simp [State.counts, hn, countedIn, hx, ha, hp, hfuel]

/-- The graph armed on level `n`, which stands under `g`. -/
theorem armGraph_under {n phase p q : Nat} {device : Bool} {x : Level} (l : List Node) (hx : s.levelAt n = some x) (ha : x.armed = true)
    (hp : x.parent = some g) (hlv : s.levelAt g = some lv) (harmed : lv.armed = false) (hg : g < n) (hn : n < s.nextId) :
    (armGraph s n p q phase device l).levelAt n = some { x with counter := l.length, closed := true } ∧
      (armGraph s n p q phase device l).levelAt g = some { lv with counter := lv.counter + l.length } ∧
      (∃ k y, tabGet (armGraph s n p q phase device l).graphs k = some y ∧ y.level = n ∧ y.nodes.length = l.length ∧ y.device = device) ∧
      (armGraph s n p q phase device l).cores = s.cores := by
  have hown : ((armNodes n x l 0 [] s).2.modLevel n (fun y => { y with counter := l.length, closed := true })).levelAt n =
      some { x with counter := l.length, closed := true } := by rw [State.levelAt_modLevel, if_pos rfl, armNodes_levelAt_old n x l 0 [] hn, hx]; rfl
  have haround : ((armNodes n x l 0 [] s).2.modLevel n (fun y => { y with counter := l.length, closed := true })).levelAt g = some lv := by
    rw [State.levelAt_modLevel, if_neg (Nat.ne_of_lt hg), armNodes_levelAt_old n x l 0 [] (hg.trans hn), hlv]
  have hcounts := counts_of_armed (x := { x with counter := l.length, closed := true }) hown ha hp haround harmed
  simp only [armGraph, hx, hcounts, List.tail_cons, List.foldl_cons, List.foldl_nil]
  refine ⟨?_, ?_, ⟨_, _, tabGet_put_same _ _ _, rfl, by simp [armNodes_length], rfl⟩, ?_⟩
  · refine (levelAt_addChildren ..).trans ((if_neg (Nat.ne_of_gt hg)).trans hown)
  · refine (levelAt_addChildren ..).trans ((if_pos rfl).trans ?_)
    rw [haround]
    rfl
  · exact armNodes_cores ..

/-- A GARM whose image is right arms it: its level, its handle and its nodes (R385). -/
theorem landGarm_starts {qs : List Piece} {qa : Nat} (h : LandsAlong s id a { r := true } pick ps pa) (hwidth : a.width = 64)
    (hfree : freeChild s (s.coreOf a.thread) = some e) (hgraph : enclosing s (s.launchLevel a.thread) 2 = some g)
    (hnodes : reach s (s.coreOf a.thread) (s.partOf a.thread) (a.addr + 64) (imageBytes (s.mem.read pa 64)) (a.via pick) { r := true } = .ok qs)
    (halong : Along qs (a.addr + 64) qa) : ∃ s₂ l, s.LinesOnly s₂ ∧
      landGarm s id a pick = armImage s₂ id a e g (s.mem.read pa 64) (s.mem.read qa (imageBytes (s.mem.read pa 64))) l := by
  have hreach := h.pages
  rw [hwidth] at hreach
  obtain ⟨gg, s₁, hread, hlines⟩ := coreRead_along hreach h.plain
  have hbody := (hlines.reach (a.addr + 64) (imageBytes (s.mem.read pa 64)) (a.via pick) { r := true }).trans hnodes
  obtain ⟨gg', s₂, hread', hlines'⟩ := coreRead_along hbody halong
  rw [hlines.mem] at hread'
  refine ⟨s₂, pagesLabel (ps ++ qs) ||| stackLabel s (ps ++ qs), hlines.trans hlines', ?_⟩
  simp only [landGarm, hreach, hread, hbody, hread', hfree, hgraph]

/-- What stands before the nodes of a GARM's image are armed: the new level, and its handle in the child table. -/
def armable (s : State) (a : Access) (e g : Nat) (ns : List Node) (l : Label) : State :=
  (takeChild (newLevel s (armedLevel s g (.ok ns))).2 (s.coreOf a.thread) e s.nextId (unitOfThread a.thread) (a.f.bit 0) l).2

theorem armedLevel_under (s : State) (g : Nat) (ns : List Node) : (armedLevel s g (.ok ns)).armed = true ∧ (armedLevel s g (.ok ns)).parent = some g :=
  ⟨rfl, rfl⟩

theorem armImage_ok {head body : List Byte} {ns : List Node} {l : Label} (hlv : s.levelAt g = some lv) (hcancel : lv.cancelled = false)
    (himage : checkImage (fieldAt head 0 2) head body = .ok ns) : armImage s id a e g head body l =
      startDone (armGraph (armable s a e g ns l) s.nextId (s.partOf a.thread) a.aux ((enclosing s g 3).getD 0) true ns) id a
        (BitVec.ofNat 32 (nextGen s (s.coreOf a.thread) e * 256 + e)) l := by
  have hgoes : (armedLevel s g (.ok ns)).cancelled = false := by simp [armedLevel, hlv, hcancel]
  simp only [armImage, himage, hgoes, Bool.false_eq_true, if_false, newLevel_fst]
  rfl

theorem garmStartsAGraph {qs : List Piece} {qa : Nat} {ns : List Node} (h : LandsAlong s id a { r := true } pick ps pa) (hwidth : a.width = 64)
    (hfree : freeChild s (s.coreOf a.thread) = some e) (hgraph : enclosing s (s.launchLevel a.thread) 2 = some g) (hlv : s.levelAt g = some lv)
    (hold : g < s.nextId) (harmed : lv.armed = false) (hcancel : lv.cancelled = false) (hkind : a.kind = .graph)
    (hnodes : reach s (s.coreOf a.thread) (s.partOf a.thread) (a.addr + 64) (imageBytes (s.mem.read pa 64)) (a.via pick) { r := true } = .ok qs)
    (halong : Along qs (a.addr + 64) qa)
    (himage : checkImage (fieldAt (s.mem.read pa 64) 0 2) (s.mem.read pa 64) (s.mem.read qa (imageBytes (s.mem.read pa 64))) = .ok ns) :
    ∃ s' x k y, exec (.loadWriteback id pick) s = .next s' ∧ tabGet s'.accesses id = none ∧
      Result32 s' a.thread a.f.d (BitVec.ofNat 32 (nextGen s (s.coreOf a.thread) e * 256 + e)) ∧
      (s'.thread a.thread).pc = nextPc a.pc ∧ s'.levelAt s.nextId = some x ∧ x.armed = true ∧ x.parent = some g ∧ x.counter = ns.length ∧
      s'.levelAt g = some { lv with counter := lv.counter + ns.length } ∧ tabGet s'.graphs k = some y ∧ y.level = s.nextId ∧
      y.nodes.length = ns.length ∧ y.device = true ∧ s'.mem = s.mem := by
  obtain ⟨s₂, l, hlines, hland⟩ := landGarm_starts h hwidth hfree hgraph hnodes halong
  have hlevel : s₂.levelAt g = some lv := by rw [hlines.rest]; exact hlv
  have hnext : s₂.nextId = s.nextId := by rw [hlines.rest]
  have hcore : s₂.coreOf a.thread = s.coreOf a.thread := by rw [hlines.rest]; rfl
  obtain ⟨hown, haround, ⟨k, y, hy, hyl, hyn, hyd⟩, hcores⟩ := armGraph_under (s := armable s₂ a e g ns l) (p := s₂.partOf a.thread) (q := a.aux)
    (phase := (enclosing s₂ g 3).getD 0) (device := true) ns ((levelAt_newLevel ..).trans (if_pos rfl)) (armedLevel_under s₂ g ns).1
    (armedLevel_under s₂ g ns).2 ((levelAt_newLevel ..).trans ((if_neg (by omega)).trans hlevel)) harmed (by omega) (Nat.lt_succ_self _)
  have himaged := armImage_ok (id := id) (a := a) (e := e) (l := l) hlevel hcancel himage
  have hvalue : landValue s id a pick (a.sector pick) = landGarm s id a pick := by simp only [landValue, hkind]
  have hgen : nextGen s₂ (s₂.coreOf a.thread) e = nextGen s (s.coreOf a.thread) e := by
    have hchildren : (s₂.core (s.coreOf a.thread)).children = (s.core (s.coreOf a.thread)).children := hlines.read _ Core.children fun _ => rfl
    simp only [nextGen, hcore, hchildren]
  rw [himaged, hgen] at hland
  have hexec := landing_lands h (hvalue.trans hland) fun c => by
    rw [startDone_core, State.core, hcores]
    exact (takeChild_late ..).trans (hlines.read c Core.late fun _ => rfl)
  obtain ⟨hgone, hresult, hpc⟩ := startDone_done (armGraph (armable s₂ a e g ns l) s₂.nextId (s₂.partOf a.thread) a.aux ((enclosing s₂ g 3).getD 0) true ns)
    id a (BitVec.ofNat 32 (nextGen s (s.coreOf a.thread) e * 256 + e)) l
  rw [hnext] at hyl
  refine ⟨_, { armedLevel s₂ g (.ok ns) with counter := ns.length, closed := true }, k, y, hexec, hgone, hresult, hpc, by rw [startDone_levelAt, ← hnext]; exact hown,
    (armedLevel_under s₂ g ns).1, (armedLevel_under s₂ g ns).2, rfl,
    (startDone_levelAt ..).trans haround, ?_, hyl, hyn, hyd, ?_⟩
  · rw [State.read_beyond (startDone_beyond ..) State.graphs fun _ => rfl]
    exact hy
  · rw [startDone_mem, armGraph_mem, armable, takeChild_mem, newLevel_mem]
    exact hlines.mem

theorem childrenAreStarted : Rule.ChildrenAreStarted :=
  fun _ _ _ _ _ _ _ _ _ h hwidth hfree hgraph hlv hold harmed hcancel =>
    ⟨launchStartsAChild h hwidth hfree hgraph hlv hold harmed hcancel, fun _ _ _ hkind hnodes halong himage =>
      garmStartsAGraph h hwidth hfree hgraph hlv hold harmed hcancel hkind hnodes halong himage⟩

end

/-- Settles O32: the issue of a start sends its read; its landing reads the record or the image at L2 and puts the child under the unit's graph. -/
theorem deviceLaunches : Obligations.DeviceLaunches := ⟨launchesSendTheirRead, childrenAreStarted⟩

end Sys2Proof.Machine
end

section
/-! O23: the table of the atomic operations (R305). -/

namespace Sys2Proof.Machine

/-! Words of 32 bits in 64. -/

theorem and_mask32 {x : DWord} (h : x.toNat < 2 ^ 32) : x &&& 0xFFFFFFFF#64 = x := by
  refine BitVec.eq_of_toNat_eq ?_
  rw [BitVec.toNat_and, show (0xFFFFFFFF#64).toNat = 2 ^ 32 - 1 from rfl, Nat.and_two_pow_sub_one_eq_mod, Nat.mod_eq_of_lt h]

theorem lo_and_mask32 (x : DWord) : DWord.lo (x &&& 0xFFFFFFFF#64) = DWord.lo x := by
  refine BitVec.eq_of_toNat_eq ?_
  simp only [DWord.lo, BitVec.toNat_setWidth, BitVec.toNat_and]
  rw [show (0xFFFFFFFF#64).toNat = 2 ^ 32 - 1 from rfl, Nat.and_two_pow_sub_one_eq_mod, Nat.mod_mod]

theorem lo_toNat {x : DWord} (h : x.toNat < 2 ^ 32) : (DWord.lo x).toNat = x.toNat := by
  rw [DWord.lo, BitVec.toNat_setWidth, Nat.mod_eq_of_lt h]

/-- The bits that an atomic of a type leaves of its operand. -/
def atomicMask (ty : Ty) : DWord := if ty.is64 then ~~~0 else 0xFFFFFFFF#64

theorem asInt_and_mask (ty : Ty) (x : DWord) : asInt ty (x &&& atomicMask ty) = asInt ty x := by
  by_cases h64 : ty.is64 = true
  · rw [atomicMask, if_pos h64, show x &&& ~~~0 = x from BitVec.and_allOnes ..]
  · simp only [asInt, atomicMask, h64, Bool.false_eq_true, if_false, lo_and_mask32]

/-- MIN and MAX compare the operands as integers of their type. -/
theorem atomicNew_minMax (ty : Ty) (md : Round) (m c d : DWord) : asInt ty (atomicNew .min ty md m c d).1 = min (asInt ty m) (asInt ty c) ∧
    asInt ty (atomicNew .max ty md m c d).1 = max (asInt ty m) (asInt ty c) := by
  have hmin : (atomicNew .min ty md m c d).1 = if asInt ty c < asInt ty m then c &&& atomicMask ty else m := rfl
  have hmax : (atomicNew .max ty md m c d).1 = if asInt ty m < asInt ty c then c &&& atomicMask ty else m := rfl
  rw [hmin, hmax]
  constructor
  · split
    · rw [asInt_and_mask]; omega
    · omega
  · split
    · rw [asInt_and_mask]; omega
    · omega

theorem asInt_mod32 {ty : Ty} (h64 : ty.is64 = false) {x : DWord} (hx : x.toNat < 2 ^ 32) : asInt ty x % 2 ^ 32 = x.toNat := by
  simp only [asInt, h64, Bool.false_eq_true, if_false]
  split
  · have hbmod := Int.bmod_emod (x := (x.toNat : Int)) (m := 2 ^ 32)
    rw [BitVec.toInt_eq_toNat_bmod, lo_toNat hx]
    omega
  · rw [lo_toNat hx]
    omega

theorem atomicNew_add32 {ty : Ty} (h64 : ty.is64 = false) (md : Round) {m c : DWord} (d : DWord) (hm : m.toNat < 2 ^ 32) (hc : c.toNat < 2 ^ 32) :
    (atomicNew .add ty md m c d).1.toNat = (m.toNat + c.toNat) % 2 ^ 32 := by
  have hadd : (atomicNew .add ty md m c d).1 = (wrap32 (asInt ty m + asInt ty c)).setWidth 64 := by
    simp [atomicNew, narrow, h64]
  have hm' := asInt_mod32 h64 hm
  have hc' := asInt_mod32 h64 hc
  rw [hadd, BitVec.toNat_setWidth, wrap32, BitVec.toNat_ofInt]
  omega

theorem atomicNew_add64 {ty : Ty} (h64 : ty.is64 = true) (md : Round) (m c d : DWord) : (atomicNew .add ty md m c d).1 = m + c := by
  have hadd : (atomicNew .add ty md m c d).1 = BitVec.ofInt 64 (asInt ty m + asInt ty c) := by
    simp [atomicNew, narrow, h64, wrap64]
  have hwrap : ∀ x : DWord, BitVec.ofInt 64 (asInt ty x) = x := fun x => by
    simp only [asInt, h64, if_true]
    split
    · exact BitVec.ofInt_toInt
    · simp
  rw [hadd, BitVec.ofInt_add, hwrap, hwrap]

/-- The bitwise operations, EXCH and CAS of a type whose mask leaves the operands. -/
theorem atomicNew_raw {ty : Ty} (md : Round) {m c d : DWord} (hm : m &&& atomicMask ty = m) (hc : c &&& atomicMask ty = c) (hd : d &&& atomicMask ty = d) :
    (atomicNew .and ty md m c d).1 = m &&& c ∧ (atomicNew .or ty md m c d).1 = m ||| c ∧ (atomicNew .xor ty md m c d).1 = m ^^^ c ∧
      (atomicNew .exch ty md m c d).1 = c ∧ (atomicNew .cas ty md m c d).1 = if m = d then c else m := by
  have hand : (atomicNew .and ty md m c d).1 = m &&& c &&& atomicMask ty := rfl
  have hor : (atomicNew .or ty md m c d).1 = (m ||| c) &&& atomicMask ty := rfl
  have hxor : (atomicNew .xor ty md m c d).1 = (m ^^^ c) &&& atomicMask ty := rfl
  have hexch : (atomicNew .exch ty md m c d).1 = c &&& atomicMask ty := rfl
  have hcas : (atomicNew .cas ty md m c d).1 = if m &&& atomicMask ty = d &&& atomicMask ty then c &&& atomicMask ty else m := rfl
  refine ⟨?_, ?_, ?_, hexch.trans hc, ?_⟩
  · rw [hand, BitVec.and_assoc, hc]
  · rw [hor, BitVec.and_comm, BitVec.and_or_distrib_left, BitVec.and_comm _ m, BitVec.and_comm _ c, hm, hc]
  · refine hxor.trans (BitVec.eq_of_toNat_eq ?_)
    rw [BitVec.toNat_and, BitVec.toNat_xor, Nat.and_xor_distrib_right, ← BitVec.toNat_and, ← BitVec.toNat_and, hm, hc, ← BitVec.toNat_xor]
  · rw [hcas, hm, hd, hc]

theorem atomicNew_fadd32 (md : Round) {m c : DWord} (d : DWord) (hm : m.toNat < 2 ^ 32) (hc : c.toNat < 2 ^ 32) : (atomicNew .fadd .f32 md m c d).1 =
    BitVec.ofNat 64 (fmtF32.sum md [fmtF32.decode m.toNat, fmtF32.decode c.toNat]).bits := by
  simp only [atomicNew, atomicFadd, Nat.mod_eq_of_lt hm, Nat.mod_eq_of_lt hc, Fmt.add]

theorem atomicNew_faddPair (md : Round) {m c : DWord} (d : DWord) (hm : m.toNat < 2 ^ 32) (hc : c.toNat < 2 ^ 32) :
    ∀ x ∈ ([(.f16, fmtF16), (.bf16, fmtBF16)] : List (Ty × Fmt)), (atomicNew .fadd x.1 md m c d).1 = BitVec.ofNat 64
      ((x.2.sum md [x.2.decode (m.toNat % 2 ^ 16), x.2.decode (c.toNat % 2 ^ 16)]).bits +
        (x.2.sum md [x.2.decode (m.toNat / 2 ^ 16), x.2.decode (c.toNat / 2 ^ 16)]).bits * 2 ^ 16) := by
  have hhigh : ∀ {y : DWord}, y.toNat < 2 ^ 32 → y.toNat / 65536 % 65536 = y.toNat / 65536 := fun h => Nat.mod_eq_of_lt (by omega)
  intro x hx
  simp only [List.mem_cons, List.not_mem_nil, or_false] at hx
  obtain rfl | rfl := hx
  · simp [atomicNew, atomicFadd, Fmt.add, hhigh hm, hhigh hc]
  · simp [atomicNew, atomicFadd, Fmt.add, hhigh hm, hhigh hc]

theorem atomicOperationsOfTheTable : Rule.AtomicOperationsOfTheTable := by
  intro md m c d
  have hraw64 := atomicNew_raw (ty := .n64) md (m := m) (c := c) (d := d) (BitVec.and_allOnes ..) (BitVec.and_allOnes ..) (BitVec.and_allOnes ..)
  obtain ⟨hand, hor, hxor, hexch, hcas⟩ := hraw64
  refine ⟨fun ty hty hm hc => ?_, fun ty hty => ?_, fun hm hc hd => ?_, hand, hor, hxor, hexch, hcas, fun hm hc => ⟨atomicNew_fadd32 md d hm hc, atomicNew_faddPair md d hm hc⟩⟩
  · exact ⟨atomicNew_add32 (by rcases hty with rfl | rfl <;> rfl) md d hm hc, atomicNew_minMax ty md m c d⟩
  · exact ⟨atomicNew_add64 (by rcases hty with rfl | rfl <;> rfl) md m c d, atomicNew_minMax ty md m c d⟩
  · exact atomicNew_raw md (and_mask32 hm) (and_mask32 hc) (and_mask32 hd)

end Sys2Proof.Machine
end

section
/-! O23: atomics on plain memory (R273, R274, R308). -/

namespace Sys2Proof.Machine

section
variable {s s' : State} {id : Nat} {a : Access} {pick : Pick} {p : Piece} {pa : Nat}

/-- A write performed that leaves the gangs but for the conflicts that they have reported. -/
structure State.Rewritten (s s' : State) (a : Access) (m : Memory) : Prop extends s.Performed s' a m where
  gang : ∀ g, (s'.gang g).unraced = (s.gang g).unraced

/-- What a function reads of a gang apart from its reports is the same. -/
theorem State.Rewritten.read {m : Memory} (h : s.Rewritten s' a m) (g : Nat) {β : Type} (F : Gang → β) (hF : ∀ x, F x.unraced = F x) :
    F (s'.gang g) = F (s.gang g) := by
  rw [← hF (s'.gang g), h.gang, hF]

/-- A piece of plain memory is read, and its new bytes are written in its place. -/
theorem performPieces_replaces (s : State) (a : Access) (rk : RKind) (new : List Byte → List Byte) (hp : p.home = .phys pa) (hva : p.va = a.addr)
    (hlen : (new (s.mem.read pa p.n)).length = p.n) : ∃ g s', performPieces a rk new [p] [] 0 s = .done (s.mem.read pa p.n) g s' 0 ∧
      s.Rewritten s' a (s.mem.write pa (new (s.mem.read pa p.n))) := by
  have hold : pieceBytes s p = s.mem.read pa p.n := by simp only [pieceBytes, hp]
  have hbytes : ((new (s.mem.read pa p.n)).drop (p.va - a.addr)).take p.n = new (s.mem.read pa p.n) := by
    rw [hva, Nat.sub_self, List.drop_zero, List.take_of_length_le hlen.le]
  have hcache := State.CachesOnly.atL2 s (s.partOf a.thread) p ((hintPrio a.f).getD 0)
  have hwrite := (hcache.setMem _).trans (writePiece_cachesOnly _ (s.coreOf a.thread) (s.partOf a.thread) hp (new (s.mem.read pa p.n)))
  rw [State.atL2_mem] at hwrite
  simp only [performPieces, hp, birthPiece, labelStack_phys hp, hold, hbytes, List.nil_append]
  refine ⟨_, _, rfl, ⟨hwrite.performed a [p] rk _, fun k => ?_⟩⟩
  have hgangs : ∀ s₁ g, ((racePieces s₁ a [p] rk).wroteG a.thread g).gang k = (racePieces s₁ a [p] rk).gang k := fun _ _ => rfl
  rw [hgangs, (State.Noted.racePieces _ a [p] rk).gang, State.gang, hwrite.gangs]
  rfl

/-- An element that is one piece of plain memory is updated: nothing refuses it. -/
theorem performWrite_replaces {need : Need} {rk : RKind} {fits : Leaf → Bool} {new : List Byte → List Byte} {x : Nat} (h : LandsOn s id a need pick p pa)
    (hk : a.kind = .atom ∨ a.kind = .red) (hfits : fits p.leaf = true) (hlabel : Label.subset a.label p.leaf.label = true)
    (hlen : (new (s.mem.read pa a.width)).length = a.width) : ∃ g s', performWrite s a pick x need rk fits new =
      .done (s.mem.read pa a.width) g s' p.leaf.label ∧ s.Rewritten s' a (s.mem.write pa (new (s.mem.read pa a.width))) := by
  have hcache := State.CachesOnly.cachePieces (s.pinPass a [p]) (s.coreOf a.thread) [p]
  have hmem : ((s.pinPass a [p]).cachePieces (s.coreOf a.thread) [p]).mem = s.mem := by simp
  have hva := (reach_single h.page h.width).1
  obtain ⟨g, s', hperform, hdone⟩ := performPieces_replaces ((s.pinPass a [p]).cachePieces (s.coreOf a.thread) [p]) a rk new h.home hva
    (by rw [hmem, h.width]; exact hlen)
  rw [hmem, h.width] at hperform hdone
  have hpieces : a.piecesIn x [p] = [p] := by rcases hk with hk | hk <;> simp [Access.piecesIn, Access.whole, hk, AKind.whole]
  have hlocal : [p].filter Piece.isRemote ++ [p].filter (fun q => !q.isRemote) = [p] := by simp [not_remote h.home]
  have hstx : (a.kind == .stx) = false := by rcases hk with hk | hk <;> rw [hk] <;> rfl
  obtain ⟨hafter, hsched, hlate⟩ := hdone.toPerformed.after hcache
  refine ⟨g, s', ?_, ⟨⟨hafter, hsched, hlate⟩, fun k => (hdone.gang k).trans ?_⟩⟩
  · simp only [performWrite, h.page, List.find?_cons, hfits, Bool.not_true, List.find?_nil, labelFails_phys h.home hlabel, hstx,
      Bool.false_and, Bool.false_eq_true, if_false, refusal_phys h.home, ite_self, hpieces, hlocal, hperform, stackLabel_phys h.home, pagesLabel_single]
    simp
  · simp only [State.gang, hcache.gangs]
    rfl

/-- The new value of an atomic, and its events. -/
def atomicUpdate (a : Access) (old : List Byte) : DWord × List Nat :=
  atomicNew (atomicOp a.op) a.f.ty (Round.ofCode a.mode) (BitVec.ofNat 64 (leNat old)) a.c a.d

/-- What an atomic leaves that is performed. -/
theorem landAtomic_plain (h : LandsOn s id a { r := true, w := true } pick p pa) (hk : a.kind = .atom ∨ a.kind = .red) (hformat : p.leaf.format = 0)
    (hlabel : Label.subset a.label p.leaf.label = true) : ∃ g s',
      s.Rewritten s' a (s.mem.write pa (leBytes a.width (atomicUpdate a (s.mem.read pa a.width)).1.toNat)) ∧ landAtomic s id a pick =
        if a.kind == .atom then fill (((s'.dropAccess id).countEvents (s.unit (unitOfThread a.thread)).launch
          (atomicUpdate a (s.mem.read pa a.width)).2).sawG a.thread g) a
            (destWrites a (BitVec.ofNat 64 (leNat (s.mem.read pa a.width))) (a.label ||| p.leaf.label))
        else (s'.dropAccess id).countEvents (s.unit (unitOfThread a.thread)).launch (atomicUpdate a (s.mem.read pa a.width)).2 := by
  obtain ⟨g, s', hwrite, hdone⟩ := performWrite_replaces (rk := .atomic) (fits := fun l => l.format == 0)
    (new := fun old => leBytes a.width (atomicUpdate a old).1.toNat) (x := a.addr / 32) h hk (by simp [hformat]) hlabel (length_leBytes ..)
  simp only [atomicUpdate] at hwrite hdone ⊢
  refine ⟨g, s', hdone, ?_⟩
  simp only [landAtomic, h.bounds, Bool.false_eq_true, if_false, hwrite]

theorem atomicsReadModifyWrite : Rule.AtomicsReadModifyWrite := by
  intro id s a pick p pa h hk hformat hwidth hlabel hlive
  obtain ⟨g, s', hdone, hland⟩ := landAtomic_plain h hk hformat hlabel
  generalize hS : (s'.dropAccess id).countEvents (s.unit (unitOfThread a.thread)).launch (atomicUpdate a (s.mem.read pa a.width)).2 = S at hland
  have hdrop : tabGet S.accesses id = none := by
    rw [← hS, State.accesses_countEvents]
    exact dropAccess_access _ id
  have hmem : S.mem = s.mem.write pa (leBytes a.width (atomicUpdate a (s.mem.read pa a.width)).1.toNat) := by
    rw [← hS, State.countEvents_mem]
    exact hdone.mem
  have hcore : ∀ c, S.core c = s'.core c := fun c => by
    rw [← hS, State.countEvents]
    split <;> rfl
  have hSlive : ((S.sawG a.thread g).thread a.thread).sched ≠ .exited := by
    rw [State.sawG, State.thread_modThread, if_pos rfl, ← hS, State.thread_countEvents, State.thread_dropAccess]
    exact (hdone.sched a.thread).symm ▸ hlive
  have hSgang : ∀ r, ((S.sawG a.thread g).gang (gangOf a.thread)).tileLabel r = (s.gang (gangOf a.thread)).tileLabel r := fun r => by
    rw [← hdone.read (gangOf a.thread) (fun x => x.tileLabel r) fun _ => rfl]
    refine congrArg (Gang.tileLabel · r) ?_
    rw [← hS]
    exact State.gang_countEvents ..
  have hvalue : landRmw s id a pick (a.sector pick) = landAtomic s id a pick := by rcases hk with hk | hk <;> simp only [landRmw, hk]
  have hfinal : (landAtomic s id a pick).mem = S.mem ∧ tabGet (landAtomic s id a pick).accesses id = none ∧
      ∀ c, ((landAtomic s id a pick).core c).late = (s'.core c).late := by
    rw [hland]
    split
    · exact ⟨fill_mem .., fill_accesses hdrop, fun c => (fill_late ..).trans (congrArg Core.late (hcore c))⟩
    · exact ⟨rfl, hdrop, fun c => congrArg Core.late (hcore c)⟩
  obtain ⟨hfmem, hfdrop, hflate⟩ := hfinal
  have hroom : s.sfqFull (s.coreOf a.thread) = true →
      ((landRmw s id a pick (a.sector pick)).core (s.coreOf a.thread)).late.length ≤ (s.core (s.coreOf a.thread)).late.length := by
    intro hfull
    have hoff : raceOn s a = false := by
      by_contra hon
      rw [h.room (by simpa using hon)] at hfull
      cases hfull
    rw [hvalue, hflate, hdone.late hoff]
  refine ⟨_, (landWith_alone h.access h.enabled h.inside h.alone hroom).trans (by rw [hvalue]), hfdrop, ?_, fun b hb => ?_, fun hatom => ?_⟩
  · rw [hfmem, hmem]
    exact Memory.read_write ..
  · rw [hfmem, hmem]
    exact Memory.get_write_out _ _ _ _ (by rwa [length_leBytes])
  · rw [hland, if_pos (by rw [hatom]; rfl)]
    obtain ⟨hresult, htiles, hunis⟩ := fill_result (s := S.sawG a.thread g) (a := a) (v := BitVec.ofNat 64 (leNat (s.mem.read pa a.width)))
      (l := a.label ||| p.leaf.label) hSlive
    exact ⟨hresult, fun r hr h255 => by rw [htiles r hr h255, hSgang], hunis⟩

end

/-- Settles O23: an atomic on plain memory reads its element and writes the operation's new value there, and each operation of the table is that of
its types. -/
theorem atomics : Obligations.Atomics := ⟨atomicsReadModifyWrite, atomicOperationsOfTheTable⟩

end Sys2Proof.Machine
end

section
/-! O22: a store that its page's label refuses, and the records that SFQPOP takes (R279, R290, R397 to R400, R418). -/

namespace Sys2Proof.Machine

section
variable {s s' : State} {f : Fields} {t id : Nat} {a : Access} {pick : Pick} {p : Piece} {pa : Nat}

/-! Refusal. -/

theorem existPred_beyond (s : State) (a : Access) (b : Bool) (l : Label) : (existPred s a b l).beyond = s.beyond := by
  simp only [existPred]
  split
  · split
    · rfl
    · exact applyWrs_beyond ..
  · rfl

theorem existPred_pendingRecords (s : State) (a : Access) (b : Bool) (l : Label) (g : Nat) :
    (existPred s a b l).pendingRecords g = s.pendingRecords g :=
  State.read_beyond (existPred_beyond ..) (State.pendingRecords · g) fun _ => rfl

/-- A record of a gang that has not ended, where its core's queue has room, is the gang's newest. -/
theorem pushRecord_room {r : Record} (hended : (s.gang r.gang).ended = false) (hroom : s.sfqFull (s.coreOfGang r.gang) = false) :
    s.pushRecord r = s.modCore (s.coreOfGang r.gang) (fun c => { c with sfq := c.sfq ++ [r] }) := by
  simp only [State.pushRecord, hended, hroom, Bool.false_eq_true, if_false]

theorem pushRecord_pendingRecords {r : Record} (hended : (s.gang r.gang).ended = false) (hroom : s.sfqFull (s.coreOfGang r.gang) = false) :
    (s.pushRecord r).pendingRecords r.gang = s.pendingRecords r.gang ++ [r] := by
  have hcore : ∀ F, (s.modCore (s.coreOfGang r.gang) F).coreOfGang r.gang = s.coreOfGang r.gang := fun _ => rfl
  rw [pushRecord_room hended hroom, State.pendingRecords, hcore, State.modCore_eq, State.core_setCore, if_pos rfl, List.filter_append]
  simp [State.pendingRecords]

theorem labelFails_single (hp : p.home = .phys pa) {l : Label} (h : Label.subset l p.leaf.label = false) : labelFails [p] l = some p := by
  simp [labelFails, hp, h]

/-- A store whose label its page does not hold comes to a record of kind 3. -/
theorem landStore_unlabelled (h : LandsOn s id a { w := true } pick p pa) (hbook : bookAwaited s id a p.leaf.slot = false)
    (hfmt : formatFits a.f.ty p.leaf.format = true) (hlabel : Label.subset a.label p.leaf.label = false) (x : Nat) :
    landStore s id a pick x = refuseWrite s s id a 3 p.va := by
  simp only [landStore, h.bounds, Bool.false_eq_true, if_false, reach_needless h.page, List.head?_cons, Option.map_some, Option.getD_some, hbook,
    performWrite, h.page, List.find?_cons, hfmt, Bool.not_true, List.find?_nil, labelFails_single h.home hlabel]

/-- A store that is refused leaves its record, and of an STX a false predicate. -/
theorem refuseWrite_store (hk : a.kind = .store ∨ a.kind = .stx) (hroom : s.sfqRoom a.thread = true) (hin : a.oob = false) (kind va : Nat) :
    refuseWrite s s id a kind va = existPred ((s.dropAccess id).pushRecord (recordOf a kind 0 va (recordData s a).1 (recordData s a).2)) a false
      (a.label ||| s.leafLabel a) := by
  have hatom : (a.kind == .atom) = false := by rcases hk with hk | hk <;> rw [hk] <;> rfl
  simp only [refuseWrite, hroom, hatom, hin, Bool.not_true, Bool.false_and, Bool.false_eq_true, if_false]

theorem labelFailuresAreRecorded : Rule.LabelFailuresAreRecorded := by
  intro id s a pick p pa h hk hbook hfmt hlabel hfull hended
  have hroom : s.sfqRoom a.thread = true := by rw [State.sfqRoom, hfull]; rfl
  have hland : landWrite s id a pick (a.sector pick) = refuseWrite s s id a 3 p.va := by
    refine Eq.trans ?_ (landStore_unlabelled h hbook hfmt hlabel (a.sector pick))
    rcases hk with hk | hk <;> simp only [landWrite, hk]
  rw [refuseWrite_store hk hroom h.bounds] at hland
  generalize hr : recordOf a 3 0 p.va (recordData s a).1 (recordData s a).2 = r at hland
  have hgang : r.gang = gangOf a.thread := by rw [← hr]; rfl
  have hended' : ((s.dropAccess id).gang r.gang).ended = false := by rw [hgang]; exact hended
  have hfull' : (s.dropAccess id).sfqFull ((s.dropAccess id).coreOfGang r.gang) = false := by rw [hgang]; exact hfull
  have hpush := pushRecord_room hended' hfull'
  refine ⟨_, r, landWith_alone (land := landWrite) h.access h.enabled h.inside h.alone (fun hf => by rw [hfull] at hf; cases hf), ?_⟩
  rw [hland]
  refine ⟨?_, ?_, by rw [← hr]; rfl, by rw [← hr]; rfl, by rw [← hr]; rfl, by rw [← hr]; rfl, by rw [← hr]; rfl, by rw [← hr]; rfl,
    fun hstx hlive => ?_, fun b => ?_⟩
  · rw [existPred_accesses, hpush]
    exact dropAccess_access _ id
  · rw [existPred_pendingRecords, ← hgang]
    exact pushRecord_pendingRecords hended' hfull'
  · refine existPred_pred (.inr hstx) (by simp only [predField, hstx]; rfl) ?_ false _
    rw [hpush]
    exact hlive
  · rw [existPred_mem, hpush]
    rfl

/-! The oldest record taken. -/

/-- What an instruction of a thread alone that only writes leaves of its gang's own registers. -/
theorem runGroup_alone_own {op : Nat} {preds regs : List Nat} {eff : State → Nat → Res} {ws : List Wr} (h : Alone s op f preds regs t)
    (he : eff s t = .go { writes := ws }) :
    ((runGroup op f preds regs eff s).gang (gangOf t)).own = ws.foldl Wr.onOwn (s.gang (gangOf t)).own := by
  have hwrites : ∀ a b, ((applyWrs a b t s ws).gang (gangOf t)).own = ws.foldl Wr.onOwn (s.gang (gangOf t)).own := fun a b => by
    rw [applyWrs_own, if_pos rfl]
  rw [runGroup_go_alone h he]
  exact hwrites _ _

/-- Words written to registers that follow one another, none of them sz. -/
theorem foldl_uniRun (k n : Nat) (v : Nat → Word) (l : Label) (hk : k + n ≤ 127) (x : Gang.Own) {i : Nat} (hi : i < n) :
    tabGetD 0 (((List.range n).map (fun w => Wr.uni (k + w) (v w) l)).foldl Wr.onOwn x).sregs (k + i) = v i := by
  induction n with
  | zero => omega
  | succ n ih =>
    rw [List.range_succ, List.map_append, List.foldl_append, List.map_cons, List.map_nil, List.foldl_cons, List.foldl_nil]
    simp only [Wr.onOwn]
    rw [if_neg (by omega), tabGetD_set]
    by_cases hin : i = n
    · rw [if_pos (by rw [hin]), hin]
    · rw [if_neg (by omega)]
      exact ih (by omega) (by omega)

/-- SFQPOP for one thread: its writes. -/
def sfqpopEff (f : Fields) (s : State) (t : Nat) : Res := .go { writes := sfqpopWrites f s t }

theorem runSfqpop_alone (h : Alone s 0x385 f (modPred (f.bits 0 3)) [] t) : runSfqpop f s =
    if (s.pendingRecords (gangOf t)).isEmpty then runGroup 0x385 f (modPred (f.bits 0 3)) [] (sfqpopEff f) s
    else (runGroup 0x385 f (modPred (f.bits 0 3)) [] (sfqpopEff f) s).popRecord (gangOf t) := by
  have hgoers : goers (judge s 0x385 f (modPred (f.bits 0 3)) [] (fun s t => .go { writes := sfqpopWrites f s t })) = [t] := goers_alone h rfl
  rw [runSfqpop, hgoers]
  rfl

theorem exec_sfqpop (h : Alone s 0x385 f (modPred (f.bits 0 3)) [] t) : exec (.sfqpop f) s = .next ((runSfqpop f s).withGroup s.group) :=
  congrArg Host.Outcome.next (runPerGang_alone h.alone (runSfqpop f))

/-- The first member with a property taken out of a list. -/
theorem filter_eraseIdx_findIdx {α : Type} {q : α → Bool} {l : List α} {x : α} {rest : List α} (h : l.filter q = x :: rest) :
    (l.eraseIdx (l.findIdx q)).filter q = rest ∧ l.findIdx q < l.length := by
  induction l with
  | nil => cases h
  | cons y l ih =>
    rw [List.findIdx_cons]
    by_cases hy : q y = true
    · rw [List.filter_cons_of_pos hy] at h
      simp only [hy, cond_true, List.eraseIdx_cons_zero, List.length_cons]
      exact ⟨(List.cons.inj h).2, Nat.succ_pos _⟩
    · rw [List.filter_cons_of_neg hy] at h
      obtain ⟨hrest, hlt⟩ := ih h
      simp only [hy, cond_false, List.eraseIdx_cons_succ, List.filter_cons_of_neg hy, List.length_cons]
      exact ⟨hrest, Nat.succ_lt_succ hlt⟩

/-- The records of a gang once its oldest has left the queue, which those that wait then enter. -/
theorem popRecord_pendingRecords {g : Nat} {r : Record} {rest : List Record} (h : s.pendingRecords g = r :: rest) :
    (s.popRecord g).pendingRecords g = rest ++ entering s g := by
  have hcore : ∀ F, (s.modCore (s.coreOfGang g) F).coreOfGang g = s.coreOfGang g := fun _ => rfl
  simp only [State.pendingRecords] at h
  rw [State.popRecord, State.pendingRecords, hcore, State.modCore_eq, State.core_setCore, if_pos rfl, entering]
  generalize s.core (s.coreOfGang g) = c at h
  obtain ⟨hrest, hlt⟩ := filter_eraseIdx_findIdx h
  have hroom : 16 - (c.sfq.length - 1) = 17 - c.sfq.length := by omega
  have hlen := List.length_eraseIdx_of_lt hlt
  simp only [Core.refill, List.filter_append, hrest, hlen, hroom]

/-- SFQPOP's writes for a record: its nine words, then true. -/
def recordWrites (k e n : Nat) (l : Label) : List Wr :=
  (List.range 9).map (fun w => Wr.uni (k + w) (BitVec.ofNat 32 (n / 2 ^ (32 * w) % 2 ^ 32)) l) ++ [.pred e true l]

theorem sfqpopEff_of_record {r : Record} {rest : List Record} {k : BitVec 8} (hq : s.pendingRecords (gangOf t) = r :: rest) (hd : f.d = .s k) :
    sfqpopEff f s t = .go { writes := recordWrites k.toNat (f.bits 0 3) (r.bits rest.length) (labelOf s 0x385 f t ||| r.label) } := by
  simp only [sfqpopEff, sfqpopWrites, hq, hd, recordWrites, uniIx]

theorem sfqpopEff_of_none (hq : s.pendingRecords (gangOf t) = []) :
    sfqpopEff f s t = .go { writes := [] ++ [.pred (f.bits 0 3) false (labelOf s 0x385 f t)] } := by
  simp only [sfqpopEff, sfqpopWrites, hq, List.nil_append]

theorem recordWrites_within (k e n : Nat) (l : Label) : ∀ w ∈ recordWrites k e n l, w.within [] [e] ((List.range 9).map (k + ·)) [] := by
  intro w hw
  rcases List.mem_append.1 hw with hw | hw
  · obtain ⟨i, hi, rfl⟩ := List.mem_map.1 hw
    exact List.mem_map.2 ⟨i, hi, rfl⟩
  · obtain rfl := List.mem_singleton.1 hw
    exact List.mem_singleton.2 rfl

/-- A predicate that an instruction of a thread alone writes last. -/
theorem runGroup_alone_lastPred {op : Nat} {preds regs : List Nat} {eff : State → Nat → Res} {ws : List Wr} {n : Nat} {b : Bool} {l : Label}
    (hview : Kept ((ws ++ [Wr.pred n b l]).foldl Wr.onThread (s.thread t)) ((runGroup op f preds regs eff s).thread t) [] []) :
    PredIs (runGroup op f preds regs eff s) t n b := by
  intro h7
  have hp := hview.preds n (by simp)
  have hset := Wr.onThread_pred (ws.foldl Wr.onThread (s.thread t)) h7 b l n
  rw [if_pos rfl, if_pos rfl] at hset
  rw [List.foldl_append, List.foldl_cons, List.foldl_nil] at hp
  exact ⟨hp.1.trans hset.1, hp.2.trans hset.2⟩

theorem sfqpop_takes {r : Record} {rest : List Record} {k : BitVec 8} (h : Alone s 0x385 f (modPred (f.bits 0 3)) [] t)
    (hq : s.pendingRecords (gangOf t) = r :: rest) (hd : f.d = .s k) (hk : k.toNat ≤ 118) : ∃ s', exec (.sfqpop f) s = .next s' ∧
      (∀ w, w < 9 → (s'.gang (gangOf t)).sreg (k.toNat + w) = BitVec.ofNat 32 (r.bits rest.length / 2 ^ (32 * w))) ∧
      PredIs s' t (f.bits 0 3) true ∧ s'.pendingRecords (gangOf t) = rest ++ entering s (gangOf t) ∧ (s'.thread t).pc = nextPc s.pc ∧
      Untouched s s' t [] [f.bits 0 3] ((List.range 9).map (k.toNat + ·)) [] := by
  have he := sfqpopEff_of_record hq hd
  obtain ⟨hview, hrest⟩ := runGroup_alone_written h he (recordWrites_within k.toNat (f.bits 0 3) _ _)
  have hpc := (runGroup_alone_writes h he (recordWrites_within k.toNat (f.bits 0 3) _ _)).1
  have hown := runGroup_alone_own h he
  have hpred := runGroup_alone_lastPred hview
  have hstage := runGroup_alone_stage h he rfl rfl
  have hexec := exec_sfqpop h
  rw [runSfqpop_alone h, hq, List.isEmpty_cons, if_neg Bool.false_ne_true] at hexec
  generalize runGroup 0x385 f (modPred (f.bits 0 3)) [] (sfqpopEff f) s = s₁ at *
  have hsame : s₁.SameProgram ((s₁.popRecord (gangOf t)).withGroup s.group) := ⟨rfl, rfl, rfl⟩
  have hpending : s₁.pendingRecords (gangOf t) = s.pendingRecords (gangOf t) ∧ entering s₁ (gangOf t) = entering s (gangOf t) :=
    ⟨State.read_stage hstage (State.pendingRecords · (gangOf t)) fun _ => rfl, State.read_stage hstage (entering · (gangOf t)) fun _ => rfl⟩
  refine ⟨_, hexec, fun w hw => ?_, hpred, ?_, hpc, hsame.untouched hrest⟩
  · rw [hsame.gang, Gang.sreg, if_neg (by omega)]
    have hsregs := congrArg Gang.Own.sregs hown
    rw [recordWrites, List.foldl_append] at hsregs
    refine (congrArg (tabGetD 0 · (k.toNat + w)) hsregs).trans ?_
    refine (foldl_uniRun k.toNat 9 (fun w => BitVec.ofNat 32 (r.bits rest.length / 2 ^ (32 * w) % 2 ^ 32)) _ (by omega) _ hw).trans ?_
    exact BitVec.eq_of_toNat_eq (by simp)
  · exact (popRecord_pendingRecords (hpending.1.trans hq)).trans (by rw [hpending.2])

theorem sfqpop_empty (h : Alone s 0x385 f (modPred (f.bits 0 3)) [] t) (hq : s.pendingRecords (gangOf t) = []) : ∃ s', exec (.sfqpop f) s = .next s' ∧
    PredIs s' t (f.bits 0 3) false ∧ (s'.thread t).pc = nextPc s.pc ∧ Untouched s s' t [] [f.bits 0 3] [] [] := by
  have he := sfqpopEff_of_none (f := f) hq
  have hwithin : ∀ w ∈ ([] ++ [Wr.pred (f.bits 0 3) false (labelOf s 0x385 f t)] : List Wr), w.within [] [f.bits 0 3] [] [] := fun w hw => by
    obtain rfl := List.mem_singleton.1 hw
    exact List.mem_singleton.2 rfl
  obtain ⟨hview, hrest⟩ := runGroup_alone_written h he hwithin
  have hexec := exec_sfqpop h
  rw [runSfqpop_alone h, hq, List.isEmpty_nil, if_pos rfl] at hexec
  have hsame : ∀ s₁ : State, s₁.SameProgram (s₁.withGroup s.group) := fun _ => ⟨rfl, rfl, rfl⟩
  exact ⟨_, hexec, runGroup_alone_lastPred hview, (runGroup_alone_writes h he hwithin).1, (hsame _).untouched hrest⟩

theorem sfqpopTakesTheOldestRecord : Rule.SfqpopTakesTheOldestRecord := fun _ _ _ h => ⟨fun _ _ _ => sfqpop_takes h, sfqpop_empty h⟩

end

/-- Settles O22: the label test stands before every effect of a store, which leaves its record; SFQPOP is one effect of its thread, and its record
leaves the queue. -/
theorem storeFaultRecords : Obligations.StoreFaultRecords := ⟨labelFailuresAreRecorded, sfqpopTakesTheOldestRecord⟩

end Sys2Proof.Machine
end

section
/-! O20: landings of scratchpad accesses (R307 to R309). -/

namespace Sys2Proof.Machine

section
variable {s s' : State} {id : Nat} {a : Access} {u : Unit} {pick : Pick} {land : State → Nat → Access → Pick → Nat → State}

/-! An access that does not go to memory lands by itself. -/

theorem isMem_of_coalesces {k : AKind} (h : k.coalesces = true) : k.isMem = true := by
  cases k <;> cases h <;> rfl

theorem not_coalesces {k : AKind} (h : k.isMem = false) : k.coalesces = false := by
  by_contra hk
  rw [isMem_of_coalesces (by simpa using hk)] at h
  cases h

/-- Such an access is carried by no other's event. -/
theorem mates_scratch (h : a.kind.isMem = false) (x : Nat) : s.mates id a x = (s.accesses.filter (fun e => e.1 == id)).map Prod.fst := by
  have hpass : ∀ b, samePass a b = false := fun b => by simp [samePass, not_coalesces h]
  simp [State.mates, hpass]

/-- An access that is gone has landed. -/
theorem landOne_gone {x : Nat} (h : tabGet s.accesses id = none) : landOne land pick x s id = s := by simp only [landOne, h]

/-- A landing that ends an access which does not go to memory, and makes no record. -/
theorem landWith_scratch (h : ScratchAt s id a u) {s' : State} (hland : land s id a pick (a.sector pick) = s') (hgone : tabGet s'.accesses id = none)
    (hlate : ∀ c, (s'.core c).late = (s.core c).late) : landWith land id pick s = .next s' := by
  have hmates := mates_scratch (s := s) (id := id) h.scratch (a.sector pick)
  have hall : ∀ j ∈ (s.accesses.filter (fun e => e.1 == id)).map Prod.fst, j = id := by simp
  have hmem : id ∈ (s.accesses.filter (fun e => e.1 == id)).map Prod.fst :=
    List.mem_map.2 ⟨(id, a), List.mem_filter.2 ⟨mem_of_tabGet h.access, by simp⟩, rfl⟩
  have hpast : pastMemory s a = false := by simp [pastMemory, h.scratch]
  have hfirst : landOne land pick (a.sector pick) s id = s' :=
    (landOne_room h.access h.enabled fun _ => by rw [hland, hlate]).trans hland
  simp only [landWith, h.access, hmates, h.enabled, Bool.not_true, Bool.false_eq_true, if_false]
  generalize (s.accesses.filter (fun e => e.1 == id)).map Prod.fst = l at hall hmem
  have hinside : l.any (fun j => ((tabGet s.accesses j).map (pastMemory s)).getD false) = false := by
    rw [List.any_eq_false]
    intro j hj
    simp [hall j hj, h.access, hpast]
  rw [hinside, if_neg Bool.false_ne_true]
  cases l with
  | nil => cases hmem
  | cons j l =>
    obtain ⟨rfl, hrest⟩ := List.forall_mem_cons.1 hall
    rw [List.foldl_cons, hfirst]
    congr 1
    exact List.foldlRecOn (motive := fun b => b = s') l _ rfl fun b hb k hk => by rw [hb, hrest k hk, landOne_gone hgone]

/-! Lines. -/

/-- What a COPYM delivery's return leaves of every unit. -/
theorem lineEmptied_unit {β : Type} (v : Unit → β) (hv : ∀ x d r, v { x with deliveries := d, receivers := r } = v x) (s : State) (k line w : Nat) :
    v ((s.lineEmptied k line).unit w) = v (s.unit w) := by
  have hmod : ∀ (s : State) (j : Nat) (F : Unit → Unit), (∀ x, v (F x) = v x) → v ((s.modUnit j F).unit w) = v (s.unit w) := fun s j F hF => by
    rw [State.modUnit_eq, State.unit_setUnit]
    split
    · rename_i h; rw [hF, h]
    · rfl
  simp only [State.lineEmptied]
  refine (foldl_keeps _ (fun s => v (State.unit s w)) _ _ fun b d _ => hmod b d.2 _ fun x => hv x x.deliveries _).trans ?_
  exact hmod s k _ fun x => hv x _ x.receivers

theorem lineEmptied_beyond (s : State) (k line : Nat) : ({ s.lineEmptied k line with units := [] } : State) = { s with units := [] } := by
  simp only [State.lineEmptied]
  exact foldl_keeps _ (fun s : State => ({ s with units := [] } : State)) _ _ fun _ _ _ => rfl

/-- What a function reads that looks at no unit is the same. -/
theorem read_lineEmptied {β : Type} (F : State → β) (hF : ∀ x : State, F { x with units := [] } = F x) (s : State) (k line : Nat) :
    F (s.lineEmptied k line) = F s := by
  rw [← hF (s.lineEmptied k line), lineEmptied_beyond, hF]

theorem Unit.markLine_run (x : Unit) (line : Nat) (b : Bool) : (x.markLine line b).run = x.run := rfl

/-! LDS. -/

/-- What a lane's LDS leaves of its line. -/
theorem fillLds_fills (h : ScratchAt s id a u) : tabGet (fillLds s id a).accesses id = none ∧
    ResultTy (fillLds s id a) a.thread a.f.ty a.f.d (loadValue a.f.ty [] (Memory.read u.run a.addr a.width)) ∧
    (fillLds s id a).beyond = s.beyond := by
  have hlive : ((s.dropAccess id).thread a.thread).sched ≠ .exited := h.live
  simp only [fillLds, h.unit]
  exact ⟨fill_accesses (dropAccess_access _ id), (fill_result hlive).1, fill_beyond ..⟩

/-- An LDS that leaves its line. -/
theorem ldsReads (h : ScratchAt s id a u) (hk : a.kind = .lds) (hfull : u.lineFull (a.addr / 128) = true) (htake : a.f.bit 12 = false) :
    ∃ s', exec (.loadWriteback id pick) s = .next s' ∧ tabGet s'.accesses id = none ∧
      ResultTy s' a.thread a.f.ty a.f.d (loadValue a.f.ty [] (Memory.read u.run a.addr a.width)) ∧
      (s'.unit (unitOfThread a.thread)).run = u.run ∧ s'.mem = s.mem := by
  obtain ⟨hgone, hresult, hbeyond⟩ := fillLds_fills h
  have hland : landValue s id a pick (a.sector pick) = fillLds s id a := by
    simp only [landValue, hk, landLds, h.unit, hfull, htake, Bool.not_true, Bool.false_eq_true, if_false]
  refine ⟨_, landWith_scratch (land := landValue) h hland hgone fun c => State.read_beyond hbeyond (fun s => (s.core c).late) fun _ => rfl,
    hgone, hresult, ?_, State.read_beyond hbeyond State.mem fun _ => rfl⟩
  rw [State.read_beyond hbeyond (fun s => s.unit (unitOfThread a.thread)) fun _ => rfl, h.unit]

/-- An LDS under .TAKE that is its whole pass: the line goes empty. -/
theorem ldsTakes (h : ScratchAt s id a u) (hk : a.kind = .lds) (hfull : u.lineFull (a.addr / 128) = true) (htake : a.f.bit 12 = true)
    (hpass : takers s a = [(id, a)]) : ∃ s', exec (.loadWriteback id pick) s = .next s' ∧ tabGet s'.accesses id = none ∧
      ResultTy s' a.thread a.f.ty a.f.d (loadValue a.f.ty [] (Memory.read u.run a.addr a.width)) ∧
      (s'.unit (unitOfThread a.thread)).lineFull (a.addr / 128) = false ∧ s'.mem = s.mem := by
  obtain ⟨hgone, hresult, hbeyond⟩ := fillLds_fills h
  have hland : landValue s id a pick (a.sector pick) = ((fillLds s id a).modUnit (unitOfThread a.thread)
      (fun u => u.markLine (a.addr / 128) false)).lineEmptied (unitOfThread a.thread) (a.addr / 128) := by
    simp only [landValue, hk, landLds, h.unit, hfull, htake, hpass, Bool.not_true, Bool.false_eq_true, if_false, if_true, List.foldl_cons, List.foldl_nil]
  refine ⟨_, landWith_scratch (land := landValue) h hland ?_ fun c => ?_, ?_, ?_, ?_, ?_⟩
  · exact (congrArg (tabGet · id) (read_lineEmptied State.accesses (fun _ => rfl) ..)).trans hgone
  · exact (read_lineEmptied (fun s => (State.core s c).late) (fun _ => rfl) ..).trans (State.read_beyond hbeyond (fun s => (s.core c).late) fun _ => rfl)
  · exact (congrArg (tabGet · id) (read_lineEmptied State.accesses (fun _ => rfl) ..)).trans hgone
  · exact hresult.congr (fun r => ⟨congrArg (Thread.reg · r) (read_lineEmptied (State.thread · a.thread) (fun _ => rfl) ..),
        congrArg (Thread.full · r) (read_lineEmptied (State.thread · a.thread) (fun _ => rfl) ..)⟩)
      fun n => congrArg (Gang.sreg · n) (read_lineEmptied (State.gang · (gangOf a.thread)) (fun _ => rfl) ..)
  · refine (lineEmptied_unit (Unit.lineFull · (a.addr / 128)) (fun _ _ _ => rfl) ..).trans ?_
    rw [State.modUnit_eq, State.unit_setUnit, if_pos rfl, Unit.lineFull_markLine, if_pos rfl]
  · exact (read_lineEmptied State.mem (fun _ => rfl) ..).trans (State.read_beyond hbeyond State.mem fun _ => rfl)

/-! Writes and marks. -/

/-- What an STS makes of its unit. -/
def storedRun (a : Access) (x : Unit) : Unit :=
  let x := (x.writeRun a.addr (leBytes a.width a.c.toNat)).labelLine (a.addr / 128) false a.label
  if a.f.bit 12 then x.markLine (a.addr / 128) true else x

theorem storedRun_run (a : Access) (x : Unit) : (storedRun a x).run = Memory.write x.run a.addr (leBytes a.width a.c.toNat) := by
  simp only [storedRun]
  split <;> rfl

theorem storedRun_lineFull (a : Access) (x : Unit) : (storedRun a x).lineFull (a.addr / 128) = (a.f.bit 12 || x.lineFull (a.addr / 128)) := by
  simp only [storedRun]
  split
  · rename_i h; rw [Unit.lineFull_markLine, if_pos rfl, h, Bool.true_or]
  · rename_i h; rw [Bool.not_eq_true] at h; rw [h, Bool.false_or]; rfl

/-- A range written in a run: its bytes, and no other. -/
theorem write_range {m m' : Memory} {o n : Nat} {bs : List Byte} (h : m' = m.write o bs) (hlen : bs.length = n) :
    bytesAre m' o bs ∧ bytesElse m m' o n := by
  subst h
  exact ⟨Memory.read_write .., fun b hb => Memory.get_write_out _ _ _ _ (hlen ▸ hb)⟩

theorem stsWrites (h : ScratchAt s id a u) (hk : a.kind = .sts) : ∃ s', exec (.writePerform id pick) s = .next s' ∧ tabGet s'.accesses id = none ∧
    bytesAre (s'.unit (unitOfThread a.thread)).run a.addr (leBytes a.width a.c.toNat) ∧
    bytesElse u.run (s'.unit (unitOfThread a.thread)).run a.addr a.width ∧
    (s'.unit (unitOfThread a.thread)).lineFull (a.addr / 128) = (a.f.bit 12 || u.lineFull (a.addr / 128)) ∧ s'.mem = s.mem := by
  have hland : landWrite s id a pick (a.sector pick) = (s.dropAccess id).modUnit (unitOfThread a.thread) (storedRun a) := by
    simp only [landWrite, hk]
    rfl
  have hunit : ((s.dropAccess id).modUnit (unitOfThread a.thread) (storedRun a)).unit (unitOfThread a.thread) = storedRun a u := by
    rw [State.modUnit_eq, State.unit_setUnit, if_pos rfl, ← h.unit]
    rfl
  obtain ⟨hbytes, hother⟩ := write_range (storedRun_run a u) (length_leBytes a.width a.c.toNat)
  exact ⟨_, landWith_scratch (land := landWrite) h hland (dropAccess_access _ id) fun _ => rfl, dropAccess_access _ id, by rw [hunit]; exact hbytes,
    by rw [hunit]; exact hother, by rw [hunit]; exact storedRun_lineFull a u, rfl⟩

theorem marksSetTheLine (h : ScratchAt s id a u) (hk : a.kind = .sfill ∨ a.kind = .sempty) : ∃ s', exec (.writePerform id pick) s = .next s' ∧
    tabGet s'.accesses id = none ∧ (s'.unit (unitOfThread a.thread)).lineFull (a.addr / 128) = (a.kind == .sfill) ∧
    (s'.unit (unitOfThread a.thread)).run = u.run ∧ s'.mem = s.mem := by
  have hunit : ((s.dropAccess id).modUnit (unitOfThread a.thread) (fun u => u.markLine (a.addr / 128) (a.kind == .sfill))).unit (unitOfThread a.thread) =
      u.markLine (a.addr / 128) (a.kind == .sfill) := by
    rw [State.modUnit_eq, State.unit_setUnit, if_pos rfl, ← h.unit]
    rfl
  have hland : landWrite s id a pick (a.sector pick) = landMark s id a := by rcases hk with hk | hk <;> simp only [landWrite, hk]
  have hmark : tabGet (landMark s id a).accesses id = none ∧ (∀ c, ((landMark s id a).core c).late = (s.core c).late) ∧
      (landMark s id a).mem = s.mem ∧ ((landMark s id a).unit (unitOfThread a.thread)).lineFull (a.addr / 128) = (a.kind == .sfill) ∧
      ((landMark s id a).unit (unitOfThread a.thread)).run = u.run := by
    have hfull : (u.markLine (a.addr / 128) (a.kind == .sfill)).lineFull (a.addr / 128) = (a.kind == .sfill) := by
      rw [Unit.lineFull_markLine, if_pos rfl]
    simp only [landMark]
    split
    · refine ⟨(congrArg (tabGet · id) (read_lineEmptied State.accesses (fun _ => rfl) ..)).trans (dropAccess_access _ id),
        fun c => read_lineEmptied (fun s => (State.core s c).late) (fun _ => rfl) .., read_lineEmptied State.mem (fun _ => rfl) .., ?_, ?_⟩
      · exact (lineEmptied_unit (Unit.lineFull · (a.addr / 128)) (fun _ _ _ => rfl) ..).trans (by rw [hunit, hfull])
      · exact (lineEmptied_unit Unit.run (fun _ _ _ => rfl) ..).trans (by rw [hunit, Unit.markLine_run])
    · exact ⟨dropAccess_access _ id, fun _ => rfl, rfl, by rw [hunit, hfull], by rw [hunit, Unit.markLine_run]⟩
  obtain ⟨hgone, hlate, hmem, hline, hrun⟩ := hmark
  exact ⟨_, landWith_scratch (land := landWrite) h hland hgone hlate, hgone, hline, hrun, hmem⟩

/-! Atomics. -/

/-- What an atomic makes of its unit. -/
def updatedRun (a : Access) (x : Unit) : Unit :=
  (x.writeRun a.addr (leBytes a.width (atomicUpdate a (Memory.read x.run a.addr a.width)).1.toNat)).labelLine (a.addr / 128) false a.label

theorem landAtoms_full (h : ScratchAt s id a u) (hfull : u.lineFull (a.addr / 128) = true) : ∃ s₁, tabGet s₁.accesses id = none ∧
    s₁.thread a.thread = s.thread a.thread ∧ s₁.unit (unitOfThread a.thread) = updatedRun a u ∧ s₁.mem = s.mem ∧
    (∀ c, (s₁.core c).late = (s.core c).late) ∧ landAtoms s id a = if a.kind == .atoms then
      fill s₁ a (destWrites a (BitVec.ofNat 64 (leNat (Memory.read u.run a.addr a.width))) (a.label ||| u.labelOf (a.addr / 128))) else s₁ := by
  refine ⟨((s.dropAccess id).modUnit (unitOfThread a.thread) (fun x => (x.writeRun a.addr (leBytes a.width
    (atomicUpdate a (Memory.read u.run a.addr a.width)).1.toNat)).labelLine (a.addr / 128) false a.label)).countEvents u.launch
    (atomicUpdate a (Memory.read u.run a.addr a.width)).2, ?_, ?_, ?_, ?_, fun c => ?_, ?_⟩
  · rw [State.accesses_countEvents]
    exact dropAccess_access _ id
  · rw [State.thread_countEvents]
    rfl
  · have hunit : ∀ (s : State) (k w : Nat) (es : List Nat), (s.countEvents k es).unit w = s.unit w := fun s k w es => by
      rw [State.countEvents]
      split <;> rfl
    rw [hunit, State.modUnit_eq, State.unit_setUnit, if_pos rfl, updatedRun, ← h.unit]
    rfl
  · rw [State.countEvents_mem]
    rfl
  · rw [State.countEvents]
    split <;> rfl
  · simp only [landAtoms, h.unit, hfull, Bool.not_true, Bool.false_eq_true, if_false]
    rfl

theorem atomicsUpdateTheRun (h : ScratchAt s id a u) (hk : a.kind = .atoms ∨ a.kind = .reds) (hfull : u.lineFull (a.addr / 128) = true) :
    ∃ s', exec (.atomicPerform id pick) s = .next s' ∧ tabGet s'.accesses id = none ∧
      bytesAre (s'.unit (unitOfThread a.thread)).run a.addr (leBytes a.width (atomicNew (atomicOp a.op) a.f.ty (Round.ofCode a.mode)
        (BitVec.ofNat 64 (leNat (Memory.read u.run a.addr a.width))) a.c a.d).1.toNat) ∧
      bytesElse u.run (s'.unit (unitOfThread a.thread)).run a.addr a.width ∧
      (a.kind = .atoms → ResultTy s' a.thread a.f.ty a.f.d (BitVec.ofNat 64 (leNat (Memory.read u.run a.addr a.width)))) ∧ s'.mem = s.mem := by
  obtain ⟨s₁, hgone, hthread, hunit, hmem, hlate, hland⟩ := landAtoms_full h hfull
  have hvalue : landRmw s id a pick (a.sector pick) = landAtoms s id a := by rcases hk with hk | hk <;> simp only [landRmw, hk]
  have hbeyond : (landAtoms s id a).beyond = s₁.beyond ∧ tabGet (landAtoms s id a).accesses id = none := by
    rw [hland]
    split
    · exact ⟨fill_beyond .., fill_accesses hgone⟩
    · exact ⟨rfl, hgone⟩
  obtain ⟨hbeyond, hdone⟩ := hbeyond
  have hunit' : (landAtoms s id a).unit (unitOfThread a.thread) = updatedRun a u :=
    (State.read_beyond hbeyond (State.unit · (unitOfThread a.thread)) fun _ => rfl).trans hunit
  have hrun : (updatedRun a u).run = Memory.write u.run a.addr (leBytes a.width (atomicUpdate a (Memory.read u.run a.addr a.width)).1.toNat) := rfl
  obtain ⟨hbytes, hother⟩ := write_range hrun (length_leBytes ..)
  refine ⟨_, landWith_scratch (land := landRmw) h hvalue hdone fun c =>
      (State.read_beyond hbeyond (fun s => (s.core c).late) fun _ => rfl).trans (hlate c), hdone, by rw [hunit']; exact hbytes, by rw [hunit']; exact hother,
    fun hatoms => ?_, (State.read_beyond hbeyond State.mem fun _ => rfl).trans hmem⟩
  rw [hland, if_pos (by rw [hatoms]; rfl)]
  exact (fill_result (by rw [hthread]; exact h.live)).1

theorem scratchpadAccessesLand : Rule.ScratchpadAccessesLand := fun _ _ _ _ _ h =>
  ⟨ldsReads h, ldsTakes h, stsWrites h, marksSetTheLine h, atomicsUpdateTheRun h⟩

end

/-- Settles O20: a scratchpad access lands by itself, as one change of its unit's run and lines and at most one result written back. -/
theorem scratchpadLandings : Obligations.ScratchpadLandings := scratchpadAccessesLand

end Sys2Proof.Machine
end

section
/-! O37: erasure, existence queries and conditional stores on tiles (R260, R296 to R298). -/

namespace Sys2Proof.Machine

section
variable {s s' : State} {id i : Nat} {a : Access} {pick : Pick} {p : Piece} {r : Region}

/-! The race detector at tiles. -/

theorem State.Noted.raceTileWrite (s : State) (a : Access) (r : Region) (i : Nat) : s.Noted (raceTileWrite s a r i) := by
  simp only [Machine.raceTileWrite]
  split
  · exact (List.foldlRecOn (motive := fun b => s.Noted b) _ _ (.refl s) fun b hb k _ => hb.trans (.raceEntry ..)).trans (.raceEntry ..)
  · exact .refl s

theorem raceTileWrite_of_off (h : raceOn s a = false) (r : Region) (i : Nat) : raceTileWrite s a r i = s := by
  rw [raceTileWrite, h]
  rfl

theorem State.Noted.raceQuery (s : State) (a : Access) (ps : List Piece) : s.Noted (raceQuery s a ps) := by
  simp only [Machine.raceQuery]
  repeat' split
  · exact .raceEntry ..
  · exact .refl s
  · exact .refl s
  · exact .refl s

theorem raceQuery_of_off (h : raceOn s a = false) (ps : List Piece) : raceQuery s a ps = s := by
  rw [raceQuery, h]
  rfl

theorem labelFails_subset {l : Label} (h : Label.subset l p.leaf.label = true) : labelFails [p] l = none := by
  simp only [labelFails, List.find?_cons, List.find?_nil, h]
  cases p.home <;> rfl

/-! Erasure. -/

theorem State.CachesOnly.useMap (s : State) (r : Region) (i : Nat) : s.CachesOnly (s.useMap r i) := .modSlice ..

theorem State.CachesOnly.patchL1 (s : State) (core key o g : Nat) (bs : List Byte) : s.CachesOnly (s.patchL1 core key o g bs) := .modCore _ _ fun _ => rfl

theorem State.CachesOnly.tileWritten (s : State) (core : Option Nat) (part : Nat) (r : Region) (i : Nat) (wrote : Bool) :
    s.CachesOnly (s.tileWritten core part r i wrote).2 := by
  have hpatched : s.CachesOnly (match core with
      | some c => (tileLines part r i).foldl (fun s' l => s'.patchL1 c l.1 0
          ((tileLines part r i).foldl (fun g l => max g (writeTime s (sliceOfPhys r.desc) l.1)) s.time) (tileBytes s r i l.2 128)) s
      | none => s) := by
    split
    · exact .foldl _ (fun b l => .patchL1 ..) _ _
    · exact .refl s
  simp only [State.tileWritten]
  split
  · exact (hpatched.trans (.foldl _ (fun b l => .modSlice ..) _ _)).trans (.modSlice ..)
  · exact hpatched

/-- The H fields kept: only the bytes of the descriptor that hold them are written. -/
theorem setH_writes (s : State) (r : Region) (h : HFields) : ∃ m, (s.setMem m).CachesOnly (s.setH r h) ∧
    ∀ b, b < r.desc + 28 ∨ r.desc + 40 ≤ b → m.get b = s.mem.get b := by
  refine ⟨(s.setH r h).mem, ⟨rfl, fun _ => rfl⟩, fun b hb => ?_⟩
  have hput : ∀ (m : Memory) (o x y : Nat), 28 ≤ o → o + 4 ≤ 40 →
      (if x = y then m else m.write (r.desc + o) (leBytes 4 y)).get b = m.get b := fun m o x y h1 h2 => by
    split
    · rfl
    · refine Memory.get_write_out _ _ _ _ ?_
      rw [length_leBytes]
      omega
  show (if _ then _ else _ : Memory).get b = _
  rw [hput _ 36 _ _ (by omega) (by omega), hput _ 32 _ _ (by omega) (by omega), hput _ 28 _ _ (by omega) (by omega)]

theorem setMapBit_clears (m : Memory) (r : Region) (i : Nat) : ((setMapBit m r i false).get (r.map + i / 8)).getLsbD (i % 8) = false := by
  simp only [setMapBit, Memory.get_put, if_true, Bool.false_eq_true, if_false]
  have hlt : i % 8 < 8 := Nat.mod_lt _ (by omega)
  simp [hlt]

/-- The erasure of a tile that exists: its map bit is clear, and the rest that changes is memory and caches (R260). -/
theorem erase_clears (s : State) (core : Option Nat) (part : Nat) (hexists : r.exists s i = true)
    (hmap : r.map + i / 8 < r.desc + 28 ∨ r.desc + 40 ≤ r.map + i / 8) : ∃ m, (s.setMem m).CachesOnly (erase s core part r i).2 ∧
      (m.get (r.map + i / 8)).getLsbD (i % 8) = false := by
  have hthere : r.exists (s.useMap r i) i = true := by simpa [Region.exists] using hexists
  simp only [erase, hthere, if_true]
  obtain ⟨m, hm, hget⟩ := setH_writes ((s.useMap r i).setMem (setMapBit ((s.useMap r i).mem.write (r.pool + r.poolTile (s.useMap r i) i * r.tile)
    (leBytes 4 (hFields (s.useMap r i) r).free)) r i false)) r { hFields (s.useMap r i) r with free := r.poolTile (s.useMap r i) i + 1 }
  refine ⟨m, (((State.CachesOnly.useMap s r i).setMem m).trans hm).trans (.tileWritten ..), ?_⟩
  rw [hget _ hmap]
  exact setMapBit_clears ..

/-! Landings on one page. -/

/-- What the tests of an access on one page leave: the leaf found for its pass, and entered into the TLBs. -/
def State.translated (s : State) (a : Access) (p : Piece) : State := (s.pinPass a [p]).cachePieces (s.coreOf a.thread) [p]

theorem translated_cachesOnly (s : State) (a : Access) (p : Piece) : (s.pinPass a [p]).CachesOnly (s.translated a p) := .cachePieces ..

theorem translated_mem (s : State) (a : Access) (p : Piece) : (s.translated a p).mem = s.mem := by simp [State.translated]

theorem translated_late (s : State) (a : Access) (p : Piece) (c : Nat) : ((s.translated a p).core c).late = (s.core c).late :=
  (translated_cachesOnly s a p).read c Core.late fun _ => rfl

theorem translated_thread (s : State) (a : Access) (p : Piece) (t : Nat) : (s.translated a p).thread t = s.thread t := by
  simp only [State.thread, (translated_cachesOnly s a p).threads]
  rfl

theorem translated_raceOn (s : State) (a : Access) (p : Piece) : raceOn (s.translated a p) a = raceOn s a := (translated_cachesOnly s a p).raceOn a

/-- The landing of an access makes no record where the detector is off, and where it is on the core's queue has room. -/
theorem record_room {late late' : List Record} (hroom : raceOn s a = true → s.sfqFull (s.coreOf a.thread) = false) (hlate : raceOn s a = false → late' = late) :
    s.sfqFull (s.coreOf a.thread) = true → late'.length ≤ late.length := by
  intro hfull
  cases hon : raceOn s a with
  | true => rw [hroom hon] at hfull; cases hfull
  | false => rw [hlate hon]

/-- An erasure on a page that holds its label. -/
theorem landErase_tile (h : TileAt s id a { w := true } pick p) (hp : p.home = .tile r i) (hlabel : Label.subset a.label p.leaf.label = true) :
    landErase s id a pick = ((erase (raceTileWrite (s.translated a p) a r i) (some (s.coreOf a.thread)) (s.partOf a.thread) r i).2.dropAccess id).wroteG
      a.thread (erase (raceTileWrite (s.translated a p) a r i) (some (s.coreOf a.thread)) (s.partOf a.thread) r i).1 := by
  simp only [landErase, h.bounds, Bool.false_eq_true, if_false, h.page, labelFails_subset hlabel, List.head?_cons, Option.map_some, hp]
  rfl

theorem eraseEndsATile (h : TileAt s id a { w := true } pick p) (hp : p.home = .tile r i) (hk : a.kind = .erase)
    (hlabel : Label.subset a.label p.leaf.label = true) (hexists : r.exists s i = true)
    (hmap : r.map + i / 8 < r.desc + 28 ∨ r.desc + 40 ≤ r.map + i / 8) : ∃ s', exec (.writePerform id pick) s = .next s' ∧
      tabGet s'.accesses id = none ∧ r.exists s' i = false := by
  have hnoted := State.Noted.raceTileWrite (s.translated a p) a r i
  have hthere : r.exists (raceTileWrite (s.translated a p) a r i) i = true := by
    simp only [Region.exists, hnoted.mem, translated_mem]
    exact hexists
  obtain ⟨m, hcache, hclear⟩ := erase_clears (raceTileWrite (s.translated a p) a r i) (some (s.coreOf a.thread)) (s.partOf a.thread) hthere hmap
  have hland : landWrite s id a pick (a.sector pick) = _ := (show _ = landErase s id a pick by simp only [landWrite, hk]).trans (landErase_tile h hp hlabel)
  have hlate : raceOn s a = false → ∀ c, ((landErase s id a pick).core c).late = (s.core c).late := fun hoff c => by
    rw [landErase_tile h hp hlabel]
    refine (hcache.read c Core.late fun _ => rfl).trans ?_
    show ((raceTileWrite (s.translated a p) a r i).core c).late = _
    rw [raceTileWrite_of_off ((translated_raceOn s a p).trans hoff), translated_late]
  refine ⟨_, (landWith_alone (land := landWrite) h.access h.enabled h.inside h.alone (record_room h.room fun hoff => ?_)).trans
    (congrArg Host.Outcome.next hland), dropAccess_access _ id, ?_⟩
  · rw [hland, ← landErase_tile h hp hlabel]
    exact hlate hoff _
  · show ((erase _ _ _ r i).2.mem.get _).getLsbD _ = false
    rw [hcache.mem]
    exact hclear

/-! Existence queries. -/

/-- A number put together bit by bit, from a predicate on the places. -/
def sumOfBits (b : Nat → Bool) (n : Nat) : Nat := (List.range n).foldl (fun w j => w + if b j then 2 ^ j else 0) 0

theorem sumOfBits_succ (b : Nat → Bool) (n : Nat) : sumOfBits b (n + 1) = (if b n then 2 ^ n else 0) + sumOfBits b n := by
  rw [sumOfBits, List.range_succ, List.foldl_append, List.foldl_cons, List.foldl_nil, Nat.add_comm]
  rfl

theorem sumOfBits_lt (b : Nat → Bool) (n : Nat) : sumOfBits b n < 2 ^ n := by
  induction n with
  | zero => exact Nat.one_pos
  | succ n ih =>
    rw [sumOfBits_succ, Nat.pow_succ]
    split <;> omega

theorem sumOfBits_testBit (b : Nat → Bool) {n j : Nat} (hj : j < n) : (sumOfBits b n).testBit j = b j := by
  induction n with
  | zero => omega
  | succ n ih =>
    have hlast : (sumOfBits b n).testBit n = false := Nat.testBit_lt_two_pow (sumOfBits_lt b n)
    rw [sumOfBits_succ]
    by_cases hn : j = n
    · subst hn
      cases hb : b j with
      | true => rw [if_pos rfl, Nat.testBit_two_pow_add_eq, hlast]; rfl
      | false => rw [if_neg Bool.false_ne_true, Nat.zero_add, hlast]
    · have hlt : j < n := by omega
      cases b n with
      | true => rw [if_pos rfl, Nat.testBit_two_pow_add_gt hlt, ih hlt]
      | false => rw [if_neg Bool.false_ne_true, Nat.zero_add, ih hlt]

/-- What EXQ returns of a page: the existence bits around a tile, all ones of another page. -/
def existenceWord (s : State) (h : Home) : Word :=
  match h with
  | .tile r i => BitVec.ofNat 32 (sumOfBits (fun j => 32 * (i / 32) + j < r.tiles && r.exists s (32 * (i / 32) + j)) 32)
  | _ => BitVec.ofNat 32 (2 ^ 32 - 1)

theorem existenceWord_tile (s : State) (r : Region) (i : Nat) {j : Nat} (hj : j < 32) : (existenceWord s (.tile r i)).getLsbD j =
    (decide (i / 32 * 32 + j < r.tiles) && r.exists s (i / 32 * 32 + j)) := by
  rw [existenceWord, BitVec.getLsbD_ofNat, sumOfBits_testBit _ hj, Nat.mul_comm 32]
  simp [hj]

theorem existenceWord_plain (s : State) {h : Home} (hh : ∀ r i, h ≠ .tile r i) : existenceWord s h = 0xFFFFFFFF#32 := by
  cases h with
  | tile r i => exact absurd rfl (hh r i)
  | phys pa => rfl
  | remote d o => rfl
  | stack g o => rfl

/-- The state that an EXQ writes its word back over. -/
theorem landExq_reads (h : TileAt s id a { r := true } pick p) : ∃ s₁ : State, landExq s id a pick = fill s₁ a (wr32 a.f.d (existenceWord s p.home)
      (a.label ||| pagesLabel [p])) ∧ tabGet s₁.accesses id = none ∧ (s₁.thread a.thread).sched = (s.thread a.thread).sched ∧ s₁.mem = s.mem ∧
      (raceOn s a = false → ∀ c, (s₁.core c).late = (s.core c).late) := by
  by_cases htile : ∃ r i, p.home = .tile r i
  · obtain ⟨r, i, hp⟩ := htile
    have hcache : (s.pinPass a [p]).CachesOnly ((s.translated a p).useMap r i) := (translated_cachesOnly s a p).trans (.useMap ..)
    have hnoted := State.Noted.raceQuery (((s.translated a p).useMap r i).dropAccess id) a [p]
    refine ⟨(raceQuery (((s.translated a p).useMap r i).dropAccess id) a [p]).sawFor a
      (tabGetD 0 (s.slice (sliceOfPhys r.desc)).mapG ((r.map + i / 8) / 128)), ?_, ?_, ?_, ?_, fun hoff c => ?_⟩
    · simp only [landExq, h.page, List.head?_cons, Option.map_some, hp]
      rfl
    · rw [sawFor_accesses, hnoted.accesses]
      exact dropAccess_access _ id
    · rw [sawFor_sched, hnoted.thread, State.thread_dropAccess, State.thread, hcache.threads]
      rfl
    · rw [State.sawFor_mem, hnoted.mem]
      exact hcache.mem.trans (State.pinPass_mem ..)
    · have hoff' : raceOn (((s.translated a p).useMap r i).dropAccess id) a = false := (hcache.raceOn a).trans hoff
      rw [sawFor_core, raceQuery_of_off hoff']
      exact hcache.read c Core.late fun _ => rfl
  · have hplain : ∀ r i, p.home ≠ .tile r i := fun r i hp => htile ⟨r, i, hp⟩
    refine ⟨(s.translated a p).dropAccess id, ?_, dropAccess_access _ id, congrArg Thread.sched (translated_thread s a p a.thread),
      translated_mem s a p, fun _ c => translated_late s a p c⟩
    rw [existenceWord_plain s hplain]
    simp only [landExq, h.page, List.head?_cons, Option.map_some]
    split
    · rename_i r i hp
      exact absurd (Option.some.inj hp) (hplain r i)
    · rfl

theorem queryReadsTheTiles (h : TileAt s id a { r := true } pick p) (hk : a.kind = .exq) (hlive : (s.thread a.thread).sched ≠ .exited) :
    ∃ s' w, exec (.loadWriteback id pick) s = .next s' ∧ tabGet s'.accesses id = none ∧ Result32 s' a.thread a.f.d w ∧ s'.mem = s.mem ∧
      (∀ r i, p.home = .tile r i → ∀ j, j < 32 →
        w.getLsbD j = (decide (i / 32 * 32 + j < r.tiles) && r.exists s (i / 32 * 32 + j))) ∧
      ((∀ r i, p.home ≠ .tile r i) → w = 0xFFFFFFFF#32) := by
  obtain ⟨s₁, hland, hgone, hsched, hmem, hlate⟩ := landExq_reads h
  have hvalue : landValue s id a pick (a.sector pick) = landExq s id a pick := by simp only [landValue, hk]
  refine ⟨_, existenceWord s p.home, (landWith_alone (land := landValue) h.access h.enabled h.inside h.alone (record_room h.room fun hoff => ?_)).trans
    (congrArg Host.Outcome.next (hvalue.trans hland)), fill_accesses hgone, (fill_word (by rwa [hsched])).1, (fill_mem ..).trans hmem,
    fun r i hp j hj => by rw [hp, existenceWord_tile s r i hj], existenceWord_plain s⟩
  rw [hvalue, hland, fill_late]
  exact hlate hoff _

/-! Conditional stores. -/

/-- An STX of a tile that does not exist misses it: nothing is written, and its predicate is false. -/
theorem landStore_misses (hbounds : a.oob = false) (hk : a.kind = .stx) (hbook : bookAwaited s id a p.leaf.slot = false)
    (hpage : reach s (s.coreOf a.thread) (s.partOf a.thread) a.addr a.width (a.via pick) { w := true } = .ok [p]) (hp : p.home = .tile r i)
    (hexists : r.exists s i = false) (hfmt : formatFits a.f.ty p.leaf.format = true) (hlabel : Label.subset a.label p.leaf.label = true) (x : Nat) :
    landStore s id a pick x = existPred (((raceQuery (s.translated a p) a [p]).allAtL2 ((raceQuery (s.translated a p) a [p]).partOf a.thread) [p]).dropAccess id)
      a false (a.label ||| pagesLabel [p]) := by
  have hnoted := State.Noted.raceQuery (s.translated a p) a [p]
  have habsent : tileExists (raceQuery (s.translated a p) a [p]) [p] = false := by
    simp only [tileExists, List.head?_cons, hp, Region.exists, hnoted.mem, translated_mem]
    exact hexists
  have hwrite : ∀ rk new, performWrite s a pick x { w := true } rk (fun l => formatFits a.f.ty l.format) new =
      .missed ((raceQuery (s.translated a p) a [p]).allAtL2 ((raceQuery (s.translated a p) a [p]).partOf a.thread) [p]) (pagesLabel [p]) := fun rk new => by
    have hstx : (a.kind == .stx) = true := by rw [hk]; rfl
    simp only [State.translated] at habsent ⊢
    simp only [performWrite, hpage, List.find?_cons, hfmt, Bool.not_true, List.find?_nil, labelFails_subset hlabel, hstx, if_true, habsent, Bool.not_false,
      Bool.and_self]
  simp only [landStore, hbounds, Bool.false_eq_true, if_false, reach_needless hpage, List.head?_cons, Option.map_some, Option.getD_some, hbook, hwrite]

theorem storeMissesAbsentTile (ha : tabGet s.accesses id = some a) (he : enabled s id a = true) (hpast : pastMemory s a = false) (hbounds : a.oob = false)
    (hk : a.kind = .stx) (hm : s.mates id a (a.sector pick) = [id]) (hroom : raceOn s a = true → s.sfqFull (s.coreOf a.thread) = false)
    (hbook : bookAwaited s id a p.leaf.slot = false)
    (hpage : reach s (s.coreOf a.thread) (s.partOf a.thread) a.addr a.width (a.via pick) { w := true } = .ok [p]) (hp : p.home = .tile r i)
    (hexists : r.exists s i = false) (hfmt : formatFits a.f.ty p.leaf.format = true) (hlabel : Label.subset a.label p.leaf.label = true)
    (hlive : (s.thread a.thread).sched ≠ .exited) : ∃ s', exec (.writePerform id pick) s = .next s' ∧ tabGet s'.accesses id = none ∧
      PredIn s' a.thread a.f.d false ∧ s'.mem = s.mem := by
  have hland : landWrite s id a pick (a.sector pick) = _ := (show _ = landStore s id a pick (a.sector pick) by simp only [landWrite, hk]).trans
    (landStore_misses hbounds hk hbook hpage hp hexists hfmt hlabel (a.sector pick))
  have hnoted := State.Noted.raceQuery (s.translated a p) a [p]
  have hcache : (raceQuery (s.translated a p) a [p]).CachesOnly ((raceQuery (s.translated a p) a [p]).allAtL2
    ((raceQuery (s.translated a p) a [p]).partOf a.thread) [p]) := .foldl _ (fun b q => .atL2 b _ q 1) _ _
  generalize (raceQuery (s.translated a p) a [p]).allAtL2 ((raceQuery (s.translated a p) a [p]).partOf a.thread) [p] = s₁ at hland hcache
  have hsched : ((s₁.dropAccess id).thread a.thread).sched ≠ .exited := by
    rw [State.thread_dropAccess, State.thread, hcache.threads, hnoted.threads]
    exact fun h => hlive ((congrArg Thread.sched (translated_thread s a p a.thread)).symm.trans h)
  refine ⟨_, (landWith_alone (land := landWrite) ha he hpast hm (record_room hroom fun hoff => ?_)).trans (congrArg Host.Outcome.next hland), ?_, ?_, ?_⟩
  · rw [hland, State.read_beyond (existPred_beyond ..) (fun s => (s.core (State.coreOf _ a.thread)).late) fun _ => rfl]
    refine (hcache.read _ Core.late fun _ => rfl).trans ?_
    rw [raceQuery_of_off ((translated_raceOn s a p).trans hoff), translated_late]
  · rw [existPred_accesses]
    exact dropAccess_access _ id
  · exact existPred_pred (.inr hk) (by simp only [predField, hk]; rfl) hsched false _
  · rw [existPred_mem, State.dropAccess_mem, hcache.mem, hnoted.mem, translated_mem]

end

/-- Settles O37: an erasure clears the map bit of its tile, a query reads the map, and a conditional store looks at it before it writes. -/
theorem sparseTiles : Obligations.SparseTiles := fun _ _ _ _ _ =>
  ⟨fun _ _ h hp hk => eraseEndsATile h hp hk, queryReadsTheTiles, fun _ _ ha he hpast hbounds hk hm hroom hbook hpage hp =>
    storeMissesAbsentTile ha he hpast hbounds hk hm hroom hbook hpage hp⟩

end Sys2Proof.Machine
end

section
/-! O27: the chunks of copies between plain memory, and the record of a completed command (R279, R319 to R321, R323, R370). -/

namespace Sys2Proof.Machine

section
variable {s s' : State} {id i : Nat} {c : Copy} {sl sl0 : CopySlice} {ps qs : List Piece} {pa qa va n : Nat}

/-! Pieces of plain memory. -/

theorem onDevice_phys {p : Piece} (h : p.home = .phys pa) (d : Option Nat) : onDevice d p = d.isNone := by simp only [onDevice, h]

theorem here_along (h : Along ps va pa) : ps.filter (onDevice none) = ps := List.filter_eq_self.2 fun p hp => onDevice_phys (h p hp) none

theorem devicesOf_along (h : Along ps va pa) : devicesOf ps = [] :=
  congrArg distinct (List.filterMap_eq_nil_iff.2 fun p hp => by simp only [h p hp])

theorem labelStack_along (h : Along ps va pa) (l : Label) : labelStack s ps l = s :=
  foldl_keeps _ id _ _ fun b p hp => by simp only [h p hp, id]

theorem labelFails_along (h : Along ps va pa) {l : Label} (hl : ∀ p ∈ ps, Label.subset l p.leaf.label = true) : labelFails ps l = none := by
  rw [labelFails, List.find?_eq_none]
  intro p hp
  rw [h p hp]
  simp [hl p hp]

/-- The bytes of pieces that follow one another are those of the range. -/
theorem bytes_of_contiguous {a₀ a : Nat} {bs : List Byte} (h : Contiguous a n ps) (ha : a₀ ≤ a) (hlen : a - a₀ + n = bs.length) :
    ps.flatMap (fun p => (bs.drop (p.va - a₀)).take p.n) = bs.drop (a - a₀) := by
  induction ps generalizing a n with
  | nil =>
    obtain rfl : n = 0 := h
    rw [List.flatMap_nil, List.drop_eq_nil_of_le (by omega)]
  | cons p ps ih =>
    obtain ⟨rfl, hn, hrest⟩ := h
    rw [List.flatMap_cons, ih hrest (by omega) (by omega), show p.va + p.n - a₀ = (p.va - a₀) + p.n by omega, ← List.drop_drop, List.take_append_drop]

theorem localBytes_along {bs : List Byte} (hc : Contiguous va bs.length ps) (h : Along ps va pa) : localBytes va ps bs = bs := by
  rw [localBytes, here_along h, bytes_of_contiguous hc le_rfl (by omega), Nat.sub_self, List.drop_zero]

/-! A chunk's two sides. -/

/-- The source of a chunk in plain memory: its bytes, and only data caches change. -/
theorem chunkSource_along (hmem : sl.srcMem = true) (hreach : reach s 0 c.part (sl.src + sl.done) n {} { r := true } = .ok ps)
    (h : Along ps (sl.src + sl.done) pa) : ∃ s', chunkSource s c sl n = .ok (s.mem.read pa n) (pagesLabel ps) s' ∧ s.LinesOnly s' := by
  obtain ⟨g, hraw⟩ := rawPieces_along (s := s) (part := c.part) h
  have hbytes : ps.flatMap (pieceBytes s) = s.mem.read pa n := by
    rw [pieceBytes_along (contiguous_of_reach hreach) le_rfl h, Nat.sub_self, Nat.add_zero]
  refine ⟨s.allAtL2 c.part ps, ?_, State.LinesOnly.foldl (fun b p hp => .atL2 b c.part (h p hp) 1) s⟩
  simp only [chunkSource, hmem, if_true, hreach, hraw, hbytes, stackLabel_along h]
  simp

/-- The destination of a chunk in plain memory whose pages hold its label takes its bytes. -/
theorem chunkToMemory_along {bs : List Byte} {l : Label} (hreach : reach s 0 c.part (sl.dst + sl.done) bs.length {} { w := true } = .ok qs)
    (h : Along qs (sl.dst + sl.done) qa) (hl : ∀ q ∈ qs, Label.subset l q.leaf.label = true) :
    ∃ g s', chunkToMemory s c sl bs l = .ok g s' ∧ s'.mem = s.mem.write qa bs := by
  have hc := contiguous_of_reach hreach
  obtain ⟨hleft, hmem, -⟩ := writeBorn_along (s := s) (part := c.part) 0 hc le_rfl h
  rw [Nat.sub_self, Nat.add_zero] at hmem
  refine ⟨(writeBorn none c.part qs bs 0 s).1, _, ?_, hmem⟩
  simp only [chunkToMemory, hreach, labelFails_along h hl, releaseChunk, devicesOf_along h, List.foldl_nil, Bool.not_true, Bool.false_eq_true, if_false,
    here_along h, localBytes_along hc h, labelStack_along h, hleft, if_true]

/-! The chunk. -/

/-- A slice that has a chunk left and none pending has bytes left. -/
theorem settle_left (h : sl0.left = true) (hp : (sl0.settle s.time).pending = 0) : (sl0.settle s.time).done < (sl0.settle s.time).bytes := by
  have hlt : sl0.done + sl0.pending < sl0.bytes := by simpa [CopySlice.left] using h
  rw [CopySlice.settle] at hp ⊢
  split
  · exact hlt
  · rename_i hpend
    rw [if_neg hpend] at hp
    omega

theorem exec_copyChunk {pick : Pick} (hcopy : tabGet s.copies id = some c) (hengine : c.engine.isSome = true) (hcarries : c.carries = true)
    (hsuspended : c.suspended = false) (hstopped : copyStopped s c = false) (hmust : mustSuspend s id c = false) (hslice : c.slices[i]? = some sl0)
    (hleft : sl0.left = true) : exec (.copyChunk id i pick) s = .next (runChunk s id c i sl0) := by
  have hsome : c.engine.isNone = false := by cases h : c.engine <;> simp_all
  show execCopyChunk id i pick s = _
  simp only [execCopyChunk, hcopy, hsome, hcarries, hsuspended, hstopped, hmust, hslice, hleft, Bool.not_true, Bool.or_false, Bool.false_eq_true, if_false]

/-- A chunk between plain memory. -/
theorem runChunk_along (hleft : sl0.left = true) (hsl : sl = sl0.settle s.time) (hpending : sl.pending = 0) (hsrc : sl.srcMem = true)
    (hdst : sl.dstMem = true) (hn : n = min 4096 (sl.bytes - sl.done)) (hshot : chunkShot s c sl n = false)
    (hps : reach s 0 c.part (sl.src + sl.done) n {} { r := true } = .ok ps) (hqs : reach s 0 c.part (sl.dst + sl.done) n {} { w := true } = .ok qs)
    (hpa : Along ps (sl.src + sl.done) pa) (hqa : Along qs (sl.dst + sl.done) qa)
    (hlabel : ∀ q ∈ qs, Label.subset (pagesLabel ps ||| sl.label) q.leaf.label = true) : ∃ (g : Nat) (s' : State), s'.mem = s.mem.write qa (s.mem.read pa n) ∧
      runChunk s id c i sl0 = s'.setCopy id { (c.setSlice i sl).setSlice i { sl with pending := n, pendG := g } with
        bytes := c.bytes + n, g := max c.g g } := by
  have hpos : n ≠ 0 := by
    have := settle_left (s := s) hleft (hsl ▸ hpending)
    rw [← hsl] at this
    omega
  obtain ⟨s₁, hsource, hlines⟩ := chunkSource_along (c := c.setSlice i sl) hsrc hps hpa
  have hlen : (s.mem.read pa n).length = n := by simp [Memory.read]
  have hqs' : reach s₁ 0 (c.setSlice i sl).part (sl.dst + sl.done) (s.mem.read pa n).length {} { w := true } = .ok qs := by
    rw [hlen]
    exact (hlines.reach ..).trans hqs
  obtain ⟨g, s', hdest, hmem⟩ := chunkToMemory_along (c := c.setSlice i sl) hqs' hqa hlabel
  refine ⟨g, s', hmem.trans (by rw [hlines.mem]), ?_⟩
  have hshot' : chunkShot s (c.setSlice i sl) sl n = false := hshot
  simp only [runChunk, ← hsl, ← hn, hpending, lt_irrefl, hpos, hshot', hdst, hsource, hdest, Bool.not_true, Bool.false_and, Bool.false_eq_true, if_false, if_true]
  rfl

theorem copyChunksCarryBytes : Rule.CopyChunksCarryBytes := by
  intro id i pick s c sl0 sl hcopy hengine hcarries hsuspended hstopped hmust hslice hsl hleft
  have hexec := exec_copyChunk (pick := pick) hcopy hengine hcarries hsuspended hstopped hmust hslice hleft
  constructor
  case left =>
    intro hpending ps qs pa qa n hsrc hdst hn hshot hps hqs hpa hqa hlabel
    obtain ⟨g, s', hmem, hrun⟩ := runChunk_along (id := id) (i := i) hleft hsl hpending hsrc hdst hn hshot hps hqs hpa hqa hlabel
    obtain ⟨hbytes, hother⟩ := write_range hmem (n := n) (by simp [Memory.read])
    have hlt : i < c.slices.length := (List.getElem?_eq_some_iff.1 hslice).1
    refine ⟨_, _, g, hexec.trans (congrArg _ hrun), hbytes, hother, tabGet_put_same _ _ _, rfl, le_max_right _ _, ?_⟩
    simp [Copy.setSlice, hlt]
  case right =>
    intro hpending
    have hpos : 0 < (sl0.settle s.time).pending := by rw [← hsl]; omega
    rw [hexec, runChunk, if_pos hpos]

/-! Completion. -/

/-- A unit's command with data leaves its engine, and its record joins the queue of its cluster. -/
theorem completeCopy_of_unit (hslices : c.slices ≠ []) (hlevel : c.level = none) : completeCopy s id c =
    (s.setCopy id { c with done := true, engine := none, journalOf := none, slotsOut := [] }).modCluster c.cluster
      (fun x => { x with events := x.events ++ [copyRecord c] }) := by
  have hnonempty : c.slices.isEmpty = false := by simpa using hslices
  simp only [completeCopy, hnonempty, hlevel, Bool.false_eq_true, if_false]

theorem completeCopy_events (hslices : c.slices ≠ []) (hlevel : c.level = none) :
    ((completeCopy s id c).cluster c.cluster).events = (s.cluster c.cluster).events ++ [copyRecord c] := by
  rw [completeCopy_of_unit hslices hlevel, State.modCluster_eq, State.cluster_setCluster, if_pos rfl]
  rfl

theorem completeCopy_copy (hslices : c.slices ≠ []) (hlevel : c.level = none) : tabGet (completeCopy s id c).copies id =
    some { c with done := true, engine := none, journalOf := none, slotsOut := [] } := by
  rw [completeCopy_of_unit hslices hlevel]
  exact tabGet_put_same ..

theorem copiesCompleteWithARecord : Rule.CopiesCompleteWithARecord := by
  intro s id c hfirst hlevel hstop hskipped hslices
  have hunfilled : c.unfilled = false := by simp [Copy.unfilled, hstop]
  have hfits : recordFits s c = true := by
    have hp := firstWith_some hfirst
    rw [hunfilled, Bool.false_or, Bool.and_eq_true] at hp
    exact hp.2
  have hexec : exec .copyComplete s = .next (completeCopy s id { c with zeroed := c.stop.isSome }) := by
    show execCopyComplete s = _
    simp only [execCopyComplete, hfirst, hunfilled, hfits, Bool.false_eq_true, if_false, if_true]
  exact ⟨_, _, copyRecord { c with zeroed := c.stop.isSome }, hexec, completeCopy_copy hslices hlevel, rfl, completeCopy_events hslices hlevel,
    by simp [copyRecord, hstop], by simp [copyRecord, hstop, hskipped], rfl, rfl, by simp [copyRecord, hskipped], rfl,
    fun a => by rw [completeCopy_mem]⟩

end

/-- Settles O27: a chunk reads its source and writes its destination along plain memory, and a completed command's record joins its cluster's queue. -/
theorem copyTransfers : Obligations.CopyTransfers := ⟨copyChunksCarryBytes, copiesCompleteWithARecord⟩

end Sys2Proof.Machine
end

section
/-! O44: the records of Teasel, the read of its tables, and the period of the policies (R282 to R285). -/

namespace Sys2Proof.Machine

section
variable {s : State} {m : Message} {c : Command} {f : RecordForm} {allowed : State → Nat → List Byte → Bool}
  {install : Partition → List Byte → Partition} {x : Partition} {r : List Byte} {a p : Nat}

/-! A record at the endpoint. -/

section
variable (ha : fieldAt m.payload 0 8 = a) (hr : m.payload.drop 8 = r) (hp : windowPart a = p) (htop : a / 2 ^ 12 = 0)
  (hbad : badRecord s f a r = none)
include ha hr hp htop hbad

/-- A record that is fresh and signed is installed with its serial. -/
theorem teaselRecord_of_allowed (hfresh : recordFresh s p r = true) (hallow : allowed s p r = true) :
    teaselRecord f allowed install m s = (Reply.ok, s.modPart p (fun x => { install x r with serial := fieldAt r 8 8 })) := by
  subst ha hr hp
  simp only [teaselRecord, recordBytes, htop, hbad, hfresh, hallow, bne_self_eq_false, Bool.and_self, Bool.false_eq_true, if_false, if_true]

/-- Another record changes nothing. -/
theorem teaselRecord_of_refused (hno : recordFresh s p r = false ∨ allowed s p r = false) :
    teaselRecord f allowed install m s = ({ status := stNotPermitted }, s) := by
  subst ha hr hp
  have hand := Bool.and_eq_false_iff.2 hno
  simp only [teaselRecord, recordBytes, htop, hbad, hand, bne_self_eq_false, Bool.false_eq_true, if_false]
end

/-- A record that is well formed and in order: where it is fresh and signed it is installed with its serial, else nothing changes. -/
theorem exec_teaselRecord (allowed : State → Nat → List Byte → Bool) (install : Partition → List Byte → Partition) (h : InOrder s c m)
    (hallowed : allowed (acceptedState s m) = allowed s) (ha : fieldAt m.payload 0 8 = a) (hr : m.payload.drop 8 = r) (hp : windowPart a = p)
    (htop : a / 2 ^ 12 = 0) (hbad : badRecord s f a r = none) :
    ∃ s', hostCommand c (sequenced (teaselRecord f allowed install)) m s = .next s' ∧ s'.mem = s.mem ∧
      (recordFresh s p r = true → allowed s p r = true → Completed s s' m Reply.ok ∧
        s'.part p = { install (s.part p) r with serial := fieldAt r 8 8 }) ∧
      (recordFresh s p r = false ∨ allowed s p r = false → Completed s s' m { status := stNotPermitted } ∧ s'.parts = s.parts) := by
  have hbad' : badRecord (acceptedState s m) f a r = none := hbad
  have hfresh' : recordFresh (acceptedState s m) p r = recordFresh s p r := rfl
  by_cases hyes : recordFresh s p r = true ∧ allowed s p r = true
  case pos =>
    obtain ⟨hfresh, hallow⟩ := hyes
    refine ⟨_, hostCommand_of_inOrder h _, ?_⟩
    rw [teaselRecord_of_allowed ha hr hp htop hbad' (hfresh'.trans hfresh) (by rw [hallowed, hallow])]
    refine ⟨complete_mem .., fun _ _ => ⟨completed_of_voice h _ rfl, ?_⟩, fun hno => absurd hno (by simp [hfresh, hallow])⟩
    rw [complete_part, State.part_modPart, if_pos rfl, acceptedState_part]
  case neg =>
    have hno : recordFresh s p r = false ∨ allowed s p r = false := by simpa [imp_iff_not_or] using hyes
    refine ⟨_, hostCommand_of_inOrder h _, ?_⟩
    rw [teaselRecord_of_refused ha hr hp htop hbad' (by rwa [hfresh', hallowed])]
    exact ⟨complete_mem .., fun hfresh hallow => absurd ⟨hfresh, hallow⟩ hyes, fun _ => ⟨completed_of_voice h _ rfl, complete_parts ..⟩⟩

theorem badBody_of_badRecord (h : badRecord s f a r = none) : f.badBody r = none := by
  simp only [badRecord] at h
  split_ifs at h
  exact h

/-! What each form leaves of its partition. -/

/-- The slot of a well-formed PEER record is one of sixteen. -/
theorem peerSlot_lt (h : badRecord s formPeer a r = none) : fieldAt r 80 1 < 16 := by
  have hbody := badBody_of_badRecord h
  simp only [formPeer] at hbody
  split at hbody
  · cases hbody
  · omega

theorem label_or_twoPow (l : Label) {k : Nat} (hk : k < 16) (i : Nat) : (l ||| BitVec.twoPow 16 k).getLsbD i = (l.getLsbD i || decide (i = k)) := by
  rw [BitVec.getLsbD_or, BitVec.getLsbD_twoPow]
  simp [hk, eq_comm]

theorem label_and_not_twoPow (l : Label) (k i : Nat) : (l &&& ~~~BitVec.twoPow 16 k).getLsbD i = (l.getLsbD i && i != k) := by
  by_cases hi : i < 16
  case pos =>
    rw [BitVec.getLsbD_and, BitVec.getLsbD_not, BitVec.getLsbD_twoPow]
    by_cases hk : k = i
    · simp [hk, hi]
    · simp [hk, hi, Ne.symm hk]
  case neg =>
    have hout (y : Label) : y.getLsbD i = false := BitVec.getLsbD_of_ge y i (by omega)
    rw [hout, hout, Bool.false_and]

/-- A slot taken from a peer entry: the entry keeps its address and its other slots, and goes with its last one. -/
theorem dropOrigin_peer {i slot : Nat} {e : Peer} (he : tabGet x.peers i = some e) :
    tabGet (x.dropOrigin i slot).peers i =
      if e.mask &&& ~~~BitVec.twoPow 16 slot = 0 then none else some { e with mask := e.mask &&& ~~~BitVec.twoPow 16 slot } := by
  simp only [Partition.dropOrigin, he]
  split
  · exact (tabGet_del ..).trans (if_pos rfl)
  · exact tabGet_put_same ..

theorem installRevoke_policy (h : fieldAt r 64 1 = 1) : tabGet (installRevoke x r).policies (recordIndex r) = none := by
  have hkind : ¬ revokes r = 2 := by
    rw [revokes, h]
    decide
  rw [installRevoke, if_neg hkind]
  exact (tabGet_del ..).trans (if_pos rfl)

theorem installRevoke_peer {e : Peer} (h : fieldAt r 64 1 = 2) (he : tabGet x.peers (recordIndex r) = some e) :
    tabGet (installRevoke x r).peers (recordIndex r) =
      if e.mask &&& ~~~BitVec.twoPow 16 (fieldAt r 65 1) = 0 then none
      else some { e with mask := e.mask &&& ~~~BitVec.twoPow 16 (fieldAt r 65 1) } := by
  rw [installRevoke, if_pos (show revokes r = 2 from h), dropOrigin_peer he]

end

/-- A record of one of the four forms, whose installation leaves what the form says. -/
theorem teaselRecordsChangeTheirTable : ∀ x ∈ teaselForms, ∀ m s a r p, InOrder s x.command m → a = fieldAt m.payload 0 8 →
    r = m.payload.drop 8 → p = a / 2 ^ 8 % 16 → a / 2 ^ 12 = 0 → badRecord s x.form a r = none → ∃ s', exec (x.instr m) s = .next s' ∧
      s'.mem = s.mem ∧
      (recordFresh s p r = true → x.allowed s p r = true → Completed s s' m Reply.ok ∧ x.leaves (s.part p) (s'.part p) r) ∧
      (recordFresh s p r = false ∨ x.allowed s p r = false → Completed s s' m { status := stNotPermitted } ∧ s'.parts = s.parts) := by
  intro x hx m s a r p h ha hr hp htop hbad
  simp only [teaselForms, List.mem_cons, List.not_mem_nil, or_false] at hx
  obtain rfl | rfl | rfl | rfl := hx
  · obtain ⟨s', hexec, hmem, hyes, hno⟩ := exec_teaselRecord mayBind installBind h rfl ha.symm hr.symm hp.symm htop hbad
    exact ⟨s', hexec, hmem, fun hfresh hallow => (hyes hfresh hallow).imp_right (fun hpart => hpart), hno⟩
  · obtain ⟨s', hexec, hmem, hyes, hno⟩ := exec_teaselRecord mayPeer installPeer h rfl ha.symm hr.symm hp.symm htop hbad
    exact ⟨s', hexec, hmem, fun hfresh hallow => (hyes hfresh hallow).imp_right (fun hpart =>
      ⟨_, label_or_twoPow _ (peerSlot_lt hbad), hpart⟩), hno⟩
  · obtain ⟨s', hexec, hmem, hyes, hno⟩ := exec_teaselRecord mayPolicy installPolicy h rfl ha.symm hr.symm hp.symm htop hbad
    exact ⟨s', hexec, hmem, fun hfresh hallow => (hyes hfresh hallow).imp_right (fun hpart => ⟨_, hpart, rfl⟩), hno⟩
  · obtain ⟨s', hexec, hmem, hyes, hno⟩ := exec_teaselRecord mayRevoke installRevoke h rfl ha.symm hr.symm hp.symm htop hbad
    refine ⟨s', hexec, hmem, fun hfresh hallow => (hyes hfresh hallow).imp_right (fun hpart => ?_), hno⟩
    rw [hpart]
    refine ⟨installRevoke_policy, fun hkind e he => ?_, rfl⟩
    show match tabGet (installRevoke (s.part p) r).peers (recordIndex r) with
      | none => _
      | some e' => _
    rw [installRevoke_peer hkind he]
    split_ifs with hzero
    · intro i hi
      have hbit := label_and_not_twoPow e.mask (fieldAt r 65 1) i
      rw [hzero] at hbit
      simpa [hi] using hbit.symm
    · exact ⟨rfl, label_and_not_twoPow e.mask (fieldAt r 65 1)⟩

/-- A table read with good fields answers the first bytes of its table. -/
theorem actTeaselTableRead_of_good {m : Message} {s : State} {x : Partition} (htop : fieldAt m.payload 0 8 / 2 ^ 12 = 0)
    (hsome : fieldAt m.payload 8 4 ≠ 0) (hmost : fieldAt m.payload 8 4 ≤ 65504) (hzero : zeroBytes m.payload 12 16 = true)
    (hpart : tabGet s.parts (fieldAt m.payload 0 8 / 2 ^ 8 % 16) = some x) :
    actTeaselTableRead m s = (windowRead m (x.table (fieldAt m.payload 0 8 % 256)), s) := by
  have hgood : badWindowRead m 12 = none := by
    simp only [badWindowRead, htop, hzero, hsome, Nat.not_lt.2 hmost, bne_self_eq_false, decide_false, Bool.or_self, Bool.not_true,
      Bool.false_eq_true, if_false]
  have hpart' : tabGet s.parts (windowPart (fieldAt m.payload 0 8)) = some x := hpart
  simp only [actTeaselTableRead, hgood, hpart']

theorem teaselTablesAreRead : ∀ m s x, InOrder s .teaselTableRead m → fieldAt m.payload 0 8 / 2 ^ 12 = 0 → fieldAt m.payload 8 4 ≠ 0 →
    fieldAt m.payload 8 4 ≤ 65504 → zeroBytes m.payload 12 16 = true → tabGet s.parts (fieldAt m.payload 0 8 / 2 ^ 8 % 16) = some x →
    ∃ s', exec (.teaselTableRead m) s = .next s' ∧ s'.parts = s.parts ∧
      Completed s s' m { status := stOk, payload := (x.table (fieldAt m.payload 0 8 % 256)).take (fieldAt m.payload 8 4) } := by
  intro m s x h htop hsome hmost hzero hpart
  have hact := actTeaselTableRead_of_good (s := acceptedState s m) htop hsome hmost hzero hpart
  refine ⟨_, hostCommand_of_inOrder h actTeaselTableRead, ?_⟩
  rw [hact]
  exact ⟨complete_parts .., completed_of_voice h _ rfl⟩

/-- At a multiple of the period every policy counts from zero again. -/
theorem policyPeriodsResetCounts : ∀ s, (s.periods + 1) * periodTicks ≤ s.time → ∃ s', exec .policyPeriod s = .next s' ∧
    s'.periods = s.periods + 1 ∧ ∀ p x k y, tabGet s.parts p = some x → tabGet x.policies k = some y →
      tabGet (s'.part p).policies k = some { y with count := 0 } := by
  intro s hdue
  refine ⟨_, if_pos hdue, rfl, fun p x k y hpart hpolicy => ?_⟩
  have hnew : tabGet (tabMap Partition.newPeriod s.parts) p = some x.newPeriod := by rw [tabGet_tabMap, hpart, Option.map_some]
  rw [part_of_tabGet hnew, Partition.newPeriod, tabGet_tabMap, hpolicy, Option.map_some]

/-- Settles O44: a record in order is installed or refused, whichever form it has; a table is answered; a period resets every count. -/
theorem teaselRecords : Obligations.TeaselRecords := ⟨teaselRecordsChangeTheirTable, teaselTablesAreRead, policyPeriodsResetCounts⟩

end Sys2Proof.Machine
end
